-- ==== Sys2Proof/Word.lean ====
section
/-! DEFINITION. The machine word, the byte and the sparse table, the three plain types the rest is built from. -/

namespace Sys2Proof

/-- A 64-bit register value (R255). -/
abbrev Word := BitVec 64

/-- One byte (R13). -/
abbrev Byte := BitVec 8

/-- A sparse table: pairs of a key and a value, keys strictly rising.  A key that is not listed reads as the
default value that the reader names. -/
abbrev Tbl (α : Type) := List (Nat × α)

end Sys2Proof
end

