-- ==== Sys2Proof/Syntax.lean ====
section
/-! DEFINITION. The syntax: registers, operand forms and the ONE inductive `Instr`, one constructor for each row of
the opcode table.  The table lists the encodable instruction forms (R280) and the device's other indivisible steps
(chapter "What each step holds"); both are constructors here, and `Instr.isEvent` tells them apart. -/

namespace Sys2Proof

/-- The sixteen type codes of R141, in code order. -/
inductive Ty where
  | s8 | s16 | s32 | s64 | n8 | n16 | n32 | n64 | f16 | bf16 | f32 | f64 | q8 | l6 | h4 | b64
  deriving DecidableEq, Repr

/-- A memory access type: a type of R141, or the 16-byte `.b128` of R89. -/
inductive MTy where
  | ty (t : Ty) | b128
  deriving DecidableEq, Repr

/-- An 8-bit register field read as a source (R256). -/
inductive Src where
  | g (n : Fin 192) | w (n : Fin 32) | zero
  deriving DecidableEq, Repr

/-- An 8-bit register field written as a destination (R256): a warp register is none, outside MOVW and WMOV. -/
inductive Dst where
  | g (n : Fin 192) | zero
  deriving DecidableEq, Repr

/-- A predicate register q0-q7 (R255). -/
abbrev Pred := Fin 8

/-- Operand B of classes 0 to 3 in the 64-bit form: a register, or the 16-bit immediate of R275. -/
inductive OpB where
  | reg (r : Src) | imm (v : BitVec 16)
  deriving DecidableEq, Repr

/-- STALL and the guard of the 64-bit and 96-bit forms (R269, R273). -/
structure Ctl where
  stall : Fin 8
  gp : Pred
  gn : Bool
  deriving DecidableEq, Repr

/-- The RND subfield (R279). -/
inductive Rnd where
  | fpctl | rne | rz | ru | rd | rna
  deriving DecidableEq, Repr

/-- Conditions of ICMP (R362). -/
inductive ICond where
  | eq | ne | lt | le | gt | ge
  deriving DecidableEq, Repr

/-- Conditions of FCMP (R334). -/
inductive FCond where
  | eq | ne | lt | le | gt | ge | ord | uno | equ | neu | ltu | leu | gtu | geu
  deriving DecidableEq, Repr

/-- The form of a compare (R334): sub-element 0, every sub-element, or any. -/
inductive CmpForm where
  | first | all | any
  deriving DecidableEq, Repr

/-- Operations of PLOP (R354). -/
inductive PredOp where
  | and | or | xor
  deriving DecidableEq, Repr

/-- Modes of VOTE (R411). -/
inductive VoteMode where
  | all | any | same | most
  deriving DecidableEq, Repr

/-- Operations of WRED and WSCAN (R415). -/
inductive RedOp where
  | add | min | max | and | or | xor
  deriving DecidableEq, Repr

/-- Tag qualifiers of loads (R279, R95). -/
inductive Tag where
  | plain | wf | clr | wfclr
  deriving DecidableEq, Repr

/-- Scratch spaces of the tag instructions (R96). -/
inductive Space where
  | core | prv | clu | die
  deriving DecidableEq, Repr

/-- Extents of PREF (R381). -/
inductive PrefExt where
  | sector | line | x4
  deriving DecidableEq, Repr

/-- Operations of the atomics (R299). -/
inductive AtomOp where
  | add | min | max | and | or | xor | exch
  deriving DecidableEq, Repr

/-- Scopes (R110). -/
inductive Scope where
  | th | wp | co | cl | di | pk | fb | pl
  deriving DecidableEq, Repr

/-- Fence orders (R111). -/
inductive Order where
  | rlx | acq | rel | ar | sc
  deriving DecidableEq, Repr

/-- Engine classes (R116). -/
inductive EngClass where
  | cp | gx | mx | cl | pt | bk
  deriving DecidableEq, Repr

/-- Arithmetic of BKOP (R219). -/
inductive BkArith where
  | add | mul | fma
  deriving DecidableEq, Repr

/-- What CANCEL names (R312). -/
inductive CancelKind where
  | launch | graph | phase | job
  deriving DecidableEq, Repr

/-- The operand of MEET in the 64-bit form (R369). -/
inductive MeetArg where
  | label (off : BitVec 16) | reg (r : Src)
  deriving DecidableEq, Repr

/-- The five forms of TLBI (R195). -/
inductive TlbiArg where
  | pg (a b : Src) | s1 | gp (a b : Src) | all (b : Src) | fr (a : Src)
  deriving DecidableEq, Repr

/-- A cache: the L1 of a compute core, the L2 of a compute die, or the service-die caches (R102, R103). -/
inductive CacheId where
  | l1 (core : Nat) | l2 (die : Nat) | svc
  deriving DecidableEq, Repr

/-- A request that reaches a tier home (R196, R197): the physical address, how much it counts, and the combined
attributes of its translation. -/
structure HomeReq where
  pa : Nat
  n : Nat
  tenant : Nat
  ipa : Nat
  leafPa : Nat
  aff : Nat
  tiers : Nat
  migratable : Bool
  pinrq : Bool
  deriving DecidableEq, Repr

/-- A put arriving at this package as target (R233).  `own` names the engine operation when the source is this
package. -/
structure PutMsg where
  own : Option Nat
  endpoint : Nat
  tenant : Nat
  window : Nat
  offset : Nat
  bytes : List Byte
  deriving DecidableEq, Repr

/-- A collective contribution arriving at a landing slot (R226). -/
structure CollMsg where
  own : Option Nat
  tenant : Nat
  slot : Nat
  epoch : Nat
  rank : Nat
  format : Nat
  bytes : List Byte
  deriving DecidableEq, Repr

/-- The first page of a region that is published (R213): by this package's command, or by another package, with the bytes that it has
put there, by offset. -/
inductive PublishMsg where
  | here (page : Nat)
  | elsewhere (page : Nat) (bytes : List (Nat × BitVec 8))
  deriving DecidableEq, Repr

/-- What an external fabric endpoint asks of memory this package exports (R230, R231).  `who` numbers the thread, of whichever
endpoint, that asks. -/
inductive FabricReq where
  | load (pa n : Nat)
  | store (pa : Nat) (bytes : List Byte)
  | atomic (pa : Nat) (op : AtomOp) (t : Ty) (v : Word)
  | cas (pa : Nat) (t : Ty) (v cmp : Word)
  | lr (who pa n : Nat)
  | sc (who pa : Nat) (bytes : List Byte)
  deriving DecidableEq, Repr

/-- A unit that a targeted self-test examines (R249); `cluster` is the test of a whole cluster that R245 asks for, whose verdict on a
unit of it is that unit's own. -/
inductive TestUnit where
  | lane (core l : Nat)
  | l1Line (core set way : Nat)
  | scratchLine (core line : Nat)
  | l2Line (die slice set way : Nat)
  | engine (cluster : Nat)
  | row (frame : Nat)
  | cluster (c : Nat)
  deriving DecidableEq, Repr

/-- An error that ECC or a checksum found (R248), with the unit that reports it: one that is corrected, or of a register file; an
uncorrectable one of a line of an L1, an L2 or memory; of 8 bytes of a block's scratch allocation or of a carve; a bit of a stored
tile element that a soft error has flipped (R177). -/
inductive EccMsg where
  | unit (part : TestUnit)
  | line (part : TestUnit) (pa : Nat)
  | scratch (block off : Nat)
  | carve (tenant die off : Nat)
  | tile (cluster h row col bit : Nat)
  deriving DecidableEq, Repr

/-- An image offered to the boot chain or to an update (R250): the SHA-384 digests of the two public keys that come with it, the outcome
of its two signature checks under them, its own digest, its version and, for the service boot image, its entry address. -/
structure ImageMsg where
  rsaKey : BitVec 384
  slhKey : BitVec 384
  rsaOk : Bool
  slhOk : Bool
  digest : BitVec 384
  version : Nat
  entry : Word
  deriving DecidableEq, Repr

/-- The platform conditions of R12, and the condition that a glitch or temperature alarm of the security block reports (R252). -/
inductive PlatformCond where
  | rail | coolant | powerGood | security
  deriving DecidableEq, Repr

/-- What a monitoring query asks of Lantern (R7, R61, R254). -/
inductive LanternQuery where
  | lmap (core : Nat) | good (core : Nat) | npass (core : Nat) | enabledCores | enabledLanes | retiredCores | engines | slices | errors
  | retirements | windowBase (n : Nat) | sensor (n : Nat)
  deriving DecidableEq, Repr

/-- What a register write from outside names: a place of a device window, or LATTOL, which Lantern writes (R253, R420). -/
inductive RegAt where
  | window (pa : Nat) | lattol
  deriving DecidableEq, Repr

/-- Every step of the part that the opcode table lists. -/
inductive Instr where
  | iaddCompact (st : Fin 8) (d a b : Fin 64)
  | iaddLong (k : Ctl) (d : Dst) (a : Src) (b : OpB) (ty : Ty) (sat : Bool)
  | iaddLiteral (k : Ctl) (d : Dst) (a : Src) (lit : BitVec 32) (ty : Ty) (sat : Bool)
  | isubCompact (st : Fin 8) (d a b : Fin 64)
  | isubLong (k : Ctl) (d : Dst) (a : Src) (b : OpB) (ty : Ty) (sat : Bool)
  | isubLiteral (k : Ctl) (d : Dst) (a : Src) (lit : BitVec 32) (ty : Ty) (sat : Bool)
  | imulCompact (st : Fin 8) (d a b : Fin 64)
  | imulLong (k : Ctl) (d : Dst) (a : Src) (b : OpB) (ty : Ty) (sat : Bool)
  | imulLiteral (k : Ctl) (d : Dst) (a : Src) (lit : BitVec 32) (ty : Ty) (sat : Bool)
  | imulhCompact (st : Fin 8) (d a b : Fin 64)
  | imulhLong (k : Ctl) (d : Dst) (a : Src) (b : OpB) (ty : Ty)
  | imulhLiteral (k : Ctl) (d : Dst) (a : Src) (lit : BitVec 32) (ty : Ty)
  | imadLong (k : Ctl) (d : Dst) (a : Src) (b : Src) (x : Src) (ty : Ty) (sat : Bool)
  | imadLiteral (k : Ctl) (d : Dst) (a : Src) (lit : BitVec 32) (x : Src) (ty : Ty) (sat : Bool)
  | idivCompact (st : Fin 8) (d a b : Fin 64)
  | idivLong (k : Ctl) (d : Dst) (a : Src) (b : OpB) (ty : Ty)
  | idivLiteral (k : Ctl) (d : Dst) (a : Src) (lit : BitVec 32) (ty : Ty)
  | iremCompact (st : Fin 8) (d a b : Fin 64)
  | iremLong (k : Ctl) (d : Dst) (a : Src) (b : OpB) (ty : Ty)
  | iremLiteral (k : Ctl) (d : Dst) (a : Src) (lit : BitVec 32) (ty : Ty)
  | iminCompact (st : Fin 8) (d a b : Fin 64)
  | iminLong (k : Ctl) (d : Dst) (a : Src) (b : OpB) (ty : Ty)
  | iminLiteral (k : Ctl) (d : Dst) (a : Src) (lit : BitVec 32) (ty : Ty)
  | imaxCompact (st : Fin 8) (d a b : Fin 64)
  | imaxLong (k : Ctl) (d : Dst) (a : Src) (b : OpB) (ty : Ty)
  | imaxLiteral (k : Ctl) (d : Dst) (a : Src) (lit : BitVec 32) (ty : Ty)
  | iabs (k : Ctl) (d : Dst) (a : Src) (ty : Ty) (sat : Bool)
  | ineg (k : Ctl) (d : Dst) (a : Src) (ty : Ty) (sat : Bool)
  | iaddcLong (k : Ctl) (d : Dst) (a : Src) (b : OpB) (ty : Ty) (qc : Pred)
  | iaddcLiteral (k : Ctl) (d : Dst) (a : Src) (lit : BitVec 32) (ty : Ty) (qc : Pred)
  | isubbLong (k : Ctl) (d : Dst) (a : Src) (b : OpB) (ty : Ty) (qc : Pred)
  | isubbLiteral (k : Ctl) (d : Dst) (a : Src) (lit : BitVec 32) (ty : Ty) (qc : Pred)
  | idot4Long (k : Ctl) (d : Dst) (a : Src) (b : Src) (x : Src) (ty : Ty) (sat : Bool)
  | idot4Literal (k : Ctl) (d : Dst) (a : Src) (lit : BitVec 32) (x : Src) (ty : Ty) (sat : Bool)
  | andCompact (st : Fin 8) (d a b : Fin 64)
  | andLong (k : Ctl) (d : Dst) (a : Src) (b : OpB) (ty : Ty)
  | andLiteral (k : Ctl) (d : Dst) (a : Src) (lit : BitVec 32) (ty : Ty)
  | orCompact (st : Fin 8) (d a b : Fin 64)
  | orLong (k : Ctl) (d : Dst) (a : Src) (b : OpB) (ty : Ty)
  | orLiteral (k : Ctl) (d : Dst) (a : Src) (lit : BitVec 32) (ty : Ty)
  | xorCompact (st : Fin 8) (d a b : Fin 64)
  | xorLong (k : Ctl) (d : Dst) (a : Src) (b : OpB) (ty : Ty)
  | xorLiteral (k : Ctl) (d : Dst) (a : Src) (lit : BitVec 32) (ty : Ty)
  | lop3Long (k : Ctl) (d : Dst) (a : Src) (b : Src) (x : Src) (ty : Ty) (tbl : Fin 256)
  | lop3Literal (k : Ctl) (d : Dst) (a : Src) (lit : BitVec 32) (x : Src) (ty : Ty) (tbl : Fin 256)
  | shlCompact (st : Fin 8) (d a b : Fin 64)
  | shlLong (k : Ctl) (d : Dst) (a : Src) (b : OpB) (ty : Ty)
  | shlLiteral (k : Ctl) (d : Dst) (a : Src) (lit : BitVec 32) (ty : Ty)
  | shrCompact (st : Fin 8) (d a b : Fin 64)
  | shrLong (k : Ctl) (d : Dst) (a : Src) (b : OpB) (ty : Ty)
  | shrLiteral (k : Ctl) (d : Dst) (a : Src) (lit : BitVec 32) (ty : Ty)
  | shraCompact (st : Fin 8) (d a b : Fin 64)
  | shraLong (k : Ctl) (d : Dst) (a : Src) (b : OpB) (ty : Ty)
  | shraLiteral (k : Ctl) (d : Dst) (a : Src) (lit : BitVec 32) (ty : Ty)
  | rotCompact (st : Fin 8) (d a b : Fin 64)
  | rotLong (k : Ctl) (d : Dst) (a : Src) (b : OpB) (ty : Ty)
  | rotLiteral (k : Ctl) (d : Dst) (a : Src) (lit : BitVec 32) (ty : Ty)
  | popc (k : Ctl) (d : Dst) (a : Src) (ty : Ty)
  | clz (k : Ctl) (d : Dst) (a : Src) (ty : Ty)
  | ctz (k : Ctl) (d : Dst) (a : Src) (ty : Ty)
  | brev (k : Ctl) (d : Dst) (a : Src) (ty : Ty)
  | bfxLong (k : Ctl) (d : Dst) (a : Src) (b : OpB) (ty : Ty)
  | bfxLiteral (k : Ctl) (d : Dst) (a : Src) (lit : BitVec 32) (ty : Ty)
  | bfiLong (k : Ctl) (d : Dst) (a : Src) (b : Src) (x : Src) (ty : Ty)
  | bfiLiteral (k : Ctl) (d : Dst) (a : Src) (lit : BitVec 32) (x : Src) (ty : Ty)
  | prmtLong (k : Ctl) (d : Dst) (a : Src) (b : Src) (x : Src)
  | prmtLiteral (k : Ctl) (d : Dst) (a : Src) (lit : BitVec 32) (x : Src)
  | icmpLong (k : Ctl) (q : Pred) (a : Src) (b : OpB) (ty : Ty) (cond : ICond) (form : CmpForm)
  | icmpLiteral (k : Ctl) (q : Pred) (a : Src) (lit : BitVec 32) (ty : Ty) (cond : ICond) (form : CmpForm)
  | fcmpLong (k : Ctl) (q : Pred) (a : Src) (b : OpB) (ty : Ty) (cond : FCond) (form : CmpForm)
  | fcmpLiteral (k : Ctl) (q : Pred) (a : Src) (lit : BitVec 32) (ty : Ty) (cond : FCond) (form : CmpForm)
  | fclass (k : Ctl) (q : Pred) (a : Src) (b : Src) (ty : Ty) (form : CmpForm)
  | selCompact (st : Fin 8) (d a b : Fin 64)
  | selLong (k : Ctl) (d : Dst) (a : Src) (b : OpB) (ty : Ty) (qs : Pred) (neg : Bool)
  | selLiteral (k : Ctl) (d : Dst) (a : Src) (lit : BitVec 32) (ty : Ty) (qs : Pred) (neg : Bool)
  | plop (k : Ctl) (q : Pred) (qa : Pred) (qb : Pred) (op : PredOp) (na : Bool) (nb : Bool)
  | ptog (k : Ctl) (d : Dst)
  | gtop (k : Ctl) (a : Src) (mask : Fin 128)
  | movLong (k : Ctl) (d : Dst) (b : OpB) (ty : Ty)
  | movLiteral (k : Ctl) (d : Dst) (lit : BitVec 32) (ty : Ty)
  | movwLong (k : Ctl) (d : Fin 32) (b : OpB) (ty : Ty)
  | movwLiteral (k : Ctl) (d : Fin 32) (lit : BitVec 32) (ty : Ty)
  | wmov (k : Ctl) (d : Fin 32) (a : Src) (b : Src)
  | faddCompact (st : Fin 8) (d a b : Fin 64)
  | faddLong (k : Ctl) (d : Dst) (a : Src) (b : OpB) (ty : Ty) (rnd : Rnd)
  | faddLiteral (k : Ctl) (d : Dst) (a : Src) (lit : BitVec 32) (ty : Ty) (rnd : Rnd)
  | fsubCompact (st : Fin 8) (d a b : Fin 64)
  | fsubLong (k : Ctl) (d : Dst) (a : Src) (b : OpB) (ty : Ty) (rnd : Rnd)
  | fsubLiteral (k : Ctl) (d : Dst) (a : Src) (lit : BitVec 32) (ty : Ty) (rnd : Rnd)
  | fmulCompact (st : Fin 8) (d a b : Fin 64)
  | fmulLong (k : Ctl) (d : Dst) (a : Src) (b : OpB) (ty : Ty) (rnd : Rnd)
  | fmulLiteral (k : Ctl) (d : Dst) (a : Src) (lit : BitVec 32) (ty : Ty) (rnd : Rnd)
  | ffmaLong (k : Ctl) (d : Dst) (a : Src) (b : Src) (x : Src) (ty : Ty) (rnd : Rnd)
  | ffmaLiteral (k : Ctl) (d : Dst) (a : Src) (lit : BitVec 32) (x : Src) (ty : Ty) (rnd : Rnd)
  | fminCompact (st : Fin 8) (d a b : Fin 64)
  | fminLong (k : Ctl) (d : Dst) (a : Src) (b : OpB) (ty : Ty) (nan : Bool)
  | fminLiteral (k : Ctl) (d : Dst) (a : Src) (lit : BitVec 32) (ty : Ty) (nan : Bool)
  | fmaxCompact (st : Fin 8) (d a b : Fin 64)
  | fmaxLong (k : Ctl) (d : Dst) (a : Src) (b : OpB) (ty : Ty) (nan : Bool)
  | fmaxLiteral (k : Ctl) (d : Dst) (a : Src) (lit : BitVec 32) (ty : Ty) (nan : Bool)
  | fabs (k : Ctl) (d : Dst) (a : Src) (ty : Ty)
  | fneg (k : Ctl) (d : Dst) (a : Src) (ty : Ty)
  | fdivCompact (st : Fin 8) (d a b : Fin 64)
  | fdivLong (k : Ctl) (d : Dst) (a : Src) (b : OpB) (ty : Ty) (rnd : Rnd)
  | fdivLiteral (k : Ctl) (d : Dst) (a : Src) (lit : BitVec 32) (ty : Ty) (rnd : Rnd)
  | fsqrt (k : Ctl) (d : Dst) (a : Src) (ty : Ty) (rnd : Rnd)
  | frcp (k : Ctl) (d : Dst) (a : Src) (ty : Ty) (rnd : Rnd)
  | frsq (k : Ctl) (d : Dst) (a : Src) (ty : Ty) (rnd : Rnd)
  | fsclLong (k : Ctl) (d : Dst) (a : Src) (b : OpB) (ty : Ty) (rnd : Rnd)
  | fsclLiteral (k : Ctl) (d : Dst) (a : Src) (lit : BitVec 32) (ty : Ty) (rnd : Rnd)
  | frnd (k : Ctl) (d : Dst) (a : Src) (ty : Ty) (rnd : Rnd)
  | fdotLong (k : Ctl) (d : Dst) (a : Src) (b : Src) (x : Src) (ty : Ty) (rnd : Rnd)
  | fdotLiteral (k : Ctl) (d : Dst) (a : Src) (lit : BitVec 32) (x : Src) (ty : Ty) (rnd : Rnd)
  | fsum (k : Ctl) (d : Dst) (a : Src) (ty : Ty) (rnd : Rnd)
  | fex2 (k : Ctl) (d : Dst) (a : Src) (ty : Ty) (rnd : Rnd)
  | flg2 (k : Ctl) (d : Dst) (a : Src) (ty : Ty) (rnd : Rnd)
  | fsin (k : Ctl) (d : Dst) (a : Src) (ty : Ty) (rnd : Rnd)
  | fcos (k : Ctl) (d : Dst) (a : Src) (ty : Ty) (rnd : Rnd)
  | ftnh (k : Ctl) (d : Dst) (a : Src) (ty : Ty) (rnd : Rnd)
  | cvt (k : Ctl) (d : Dst) (a : Src) (ty : Ty) (ts : Ty) (rnd : Rnd)
  | pack (k : Ctl) (d : Dst) (a : Src) (b : Src) (x : Src) (ty : Ty) (ts : Ty) (rnd : Rnd)
  | unpk (k : Ctl) (d : Dst) (a : Src) (b : Src) (ty : Ty) (ts : Ty) (rnd : Rnd)
  | qblk (k : Ctl) (d : Fin 24) (a : Fin 192) (b : Option (Fin 192)) (ty : Ty) (rnd : Rnd)
  | dqblk (k : Ctl) (d : Dst) (a : Fin 24) (b : Src) (ty : Ty) (rnd : Rnd)
  | rng (k : Ctl) (d : Dst) (a : Src) (key : Option Src) (ty : Ty)
  | rngg (k : Ctl) (d : Dst) (a : Src) (key : Option Src) (ty : Ty)
  | shfl (k : Ctl) (d : Dst) (a : Src) (b : Src) (x : Src) (ty : Ty) (qd : Pred)
  | bcst (k : Ctl) (d : Dst) (a : Src) (b : OpB)
  | vote (k : Ctl) (d : Dst) (q : Pred) (qs : Pred) (neg : Bool) (mode : VoteMode)
  | wred (k : Ctl) (d : Dst) (a : Src) (b : Src) (ty : Ty) (op : RedOp) (rnd : Rnd)
  | wscan (k : Ctl) (d : Dst) (a : Src) (b : Src) (ty : Ty) (op : RedOp) (excl : Bool) (rnd : Rnd)
  | matchI (k : Ctl) (d : Dst) (a : Src) (ty : Ty)
  | elect (k : Ctl) (d : Dst) (q : Pred)
  | braLong (k : Ctl) (imm : BitVec 16)
  | braLiteral (k : Ctl) (lit : BitVec 32)
  | brx (k : Ctl) (a : Src)
  | callLong (k : Ctl) (d : Dst) (imm : BitVec 16)
  | callLiteral (k : Ctl) (d : Dst) (lit : BitVec 32)
  | callx (k : Ctl) (d : Dst) (a : Src)
  | ret (k : Ctl) (a : Src)
  | meetLong (k : Ctl) (m : MeetArg)
  | meetLiteral (k : Ctl) (lit : BitVec 32)
  | leaveLong (k : Ctl) (a : Src) (imm : BitVec 16)
  | leaveLiteral (k : Ctl) (a : Src) (lit : BitVec 32)
  | land (k : Ctl)
  | exit (k : Ctl)
  | trap (k : Ctl) (imm : BitVec 16)
  | nop (k : Ctl)
  | yield (k : Ctl)
  | sleep (k : Ctl) (a : Src)
  | brkpt (k : Ctl)
  | ld (k : Ctl) (d : Dst) (a : Src) (imm : BitVec 16) (ty : MTy)
  | st (k : Ctl) (d : Src) (a : Src) (imm : BitVec 16) (ty : MTy)
  | pref (k : Ctl) (a : Src) (imm : BitVec 16) (ext : PrefExt) (l2 : Bool)
  | ldl (k : Ctl) (d : Dst) (a : Src) (imm : BitVec 16) (ty : MTy) (tag : Tag)
  | stl (k : Ctl) (d : Src) (a : Src) (imm : BitVec 16) (ty : MTy) (we : Bool)
  | lds (k : Ctl) (d : Dst) (a : Src) (imm : BitVec 16) (ty : MTy) (tag : Tag) (die : Bool)
  | sts (k : Ctl) (d : Src) (a : Src) (imm : BitVec 16) (ty : MTy) (we : Bool) (die : Bool)
  | ldc (k : Ctl) (d : Dst) (a : Src) (imm : BitVec 16) (ty : MTy) (tag : Tag)
  | stc (k : Ctl) (d : Src) (a : Src) (imm : BitVec 16) (ty : MTy) (we : Bool)
  | feset (k : Ctl) (a : Src) (imm : BitVec 16) (space : Space)
  | feclr (k : Ctl) (a : Src) (imm : BitVec 16) (space : Space)
  | fetest (k : Ctl) (q : Pred) (a : Src) (imm : BitVec 16) (space : Space)
  | lr (k : Ctl) (d : Dst) (a : Src) (imm : BitVec 16) (ty : Ty)
  | sc (k : Ctl) (d : Src) (a : Src) (imm : BitVec 16) (ty : Ty) (qd : Pred)
  | atom (k : Ctl) (d : Dst) (a : Src) (b : Src) (op : AtomOp) (ty : Ty)
  | cas (k : Ctl) (d : Dst) (a : Src) (b : Src) (x : Src) (ty : Ty)
  | red (k : Ctl) (a : Src) (b : Src) (op : AtomOp) (ty : Ty)
  | atoms (k : Ctl) (d : Dst) (a : Src) (b : Src) (op : AtomOp) (die : Bool) (ty : Ty)
  | cass (k : Ctl) (d : Dst) (a : Src) (b : Src) (x : Src) (die : Bool) (ty : Ty)
  | reds (k : Ctl) (a : Src) (b : Src) (op : AtomOp) (die : Bool) (ty : Ty)
  | fence (k : Ctl) (order : Order) (scope : Scope)
  | waitc (k : Ctl) (cls : EngClass) (n : Fin 256)
  | rsb (k : Ctl)
  | rse (k : Ctl)
  | gpwait (k : Ctl)
  | defer (k : Ctl) (q : Pred) (a : Src) (b : Src) (wt : Bool)
  | alloc (k : Ctl) (q : Pred) (d : Dst) (b : Src) (wt : Bool)
  | free (k : Ctl) (q : Pred) (a : Src) (b : Src)
  | cpy (k : Ctl) (a : Src) (imm : BitVec 16)
  | cpyz (k : Ctl) (a : Src) (imm : BitVec 16)
  | gath (k : Ctl) (a : Src) (imm : BitVec 16)
  | scat (k : Ctl) (a : Src) (imm : BitVec 16)
  | put (k : Ctl) (a : Src) (imm : BitVec 16)
  | coll (k : Ctl) (a : Src) (imm : BitVec 16)
  | bkop (k : Ctl) (a : Src) (imm : BitVec 16) (op : BkArith) (ty : Ty)
  | rowcp (k : Ctl) (a : Src) (imm : BitVec 16)
  | rowz (k : Ctl) (a : Src) (imm : BitVec 16)
  | clean (k : Ctl) (a : Src) (imm : BitVec 16) (scope : Scope)
  | inval (k : Ctl) (a : Src) (imm : BitVec 16) (scope : Scope)
  | flush (k : Ctl) (a : Src) (imm : BitVec 16) (scope : Scope)
  | mxp (k : Ctl) (a : Src) (imm : BitVec 16)
  | wbld (k : Ctl) (a : Src) (imm : BitVec 16)
  | acz (k : Ctl) (a : Src) (imm : BitVec 16)
  | acld (k : Ctl) (a : Src) (imm : BitVec 16)
  | acdrn (k : Ctl) (a : Src) (imm : BitVec 16)
  | acchk (k : Ctl) (a : Src) (imm : BitVec 16)
  | pin (k : Ctl) (q : Pred) (a : Src) (imm : BitVec 16) (t : Fin 4)
  | unpin (k : Ctl) (a : Src) (imm : BitVec 16)
  | hint (k : Ctl) (a : Src) (imm : BitVec 16) (t : Fin 3)
  | migr (k : Ctl) (q : Pred) (a : Src) (imm : BitVec 16) (t : Fin 3)
  | taff (k : Ctl) (a : Src) (imm : BitVec 16) (aff : Fin 4)
  | probe (k : Ctl) (d : Dst) (a : Src) (imm : BitVec 16)
  | tlbi (k : Ctl) (m : TlbiArg)
  | tlbsync (k : Ctl)
  | launch (k : Ctl) (q : Pred) (a : Src)
  | cwait (k : Ctl) (q : Pred) (a : Src) (b : Src)
  | cancel (k : Ctl) (kind : CancelKind) (a : Src)
  | reord (k : Ctl) (a : Src) (b : Src) (x : Src)
  | svc (k : Ctl) (imm : BitVec 16)
  | srd (k : Ctl) (d : Dst) (num : Fin 256)
  | swr (k : Ctl) (num : Fin 256) (a : Src)
  | eret (k : Ctl) (sub : Bool)
  | hvc (k : Ctl) (imm : BitVec 16)
  | sec (k : Ctl) (imm : BitVec 16)
  -- the device steps that no instruction word encodes
  | coreStep (core : Nat)
  | stallExpiry (warp : Nat) (lane : Nat)
  | sleepExpiry (warp : Nat) (lane : Nat)
  | waitTimeout (warp : Nat) (lane : Nat)
  | resultLanding (warp : Nat) (lane : Nat)
  | storeQueueDrain (warp : Nat)
  | cacheEviction (cache : CacheId) (line : Nat)
  | lineInvalidation (cache : CacheId) (line : Nat)
  | homeRequest (req : HomeReq)
  | atomicAtHome (warp : Nat)
  | replicaUpdate (warp : Nat)
  | reservationLapse (warp : Nat) (lane : Nat)
  | interruptTake (svc : Nat)
  | timerInterruptPending (svc : Nat)
  | ipisendWrite (svc : Nat) (value : Word)
  | intpendClear (svc : Nat) (value : Word)
  | launchAccept (tenant : Nat) (queue : Nat)
  | launchReady (launch : Nat)
  | gangPlace (launch : Nat) (cores : List Nat)
  | blockSave (block : Nat)
  | blockResume (gang : Nat) (cores : List Nat)
  | warpRetire (warp : Nat)
  | blockRetire (block : Nat)
  | launchFinish (launch : Nat)
  | reorderIdleFlush (launch : Nat) (die : Nat)
  | postingWindowStore (tenant : Nat) (off : Nat) (size : Nat) (value : Word)
  | postingFullCountRead (tenant : Nat) (queue : Nat)
  | tenantSuspend (tenant : Nat)
  | tenantResume (tenant : Nat)
  | tenantReset (tenant : Nat)
  | coreownWrite (core : Nat) (value : Word)
  | l2wayWrite (tenant : Nat) (value : Word)
  | placeTableWrite (tenant : Nat) (off : Nat) (value : BitVec 32)
  | dscarveWrite (tenant : Nat) (value : Word)
  | serviceThreadStart (svc : Nat)
  | serviceThreadStop (svc : Nat)
  | poolEnable (tenant : Nat) (pool : Nat)
  | poolDisable (tenant : Nat) (pool : Nat)
  | perrRead (tenant : Nat) (pool : Nat)
  | guylineReport (node : Nat)
  | gpseqAcknowledge (node : Nat) (tenant : Nat)
  | gracePeriodDone (tenant : Nat)
  | backgroundGraceStart (tenant : Nat)
  | deferredReturn (tenant : Nat)
  | mxOwnershipGrant (cluster : Nat)
  | mxRequestBegin (cluster : Nat) (req : Nat)
  | mxPassGrant (cluster : Nat)
  | mxPassLanding (cluster : Nat)
  | wbldChunkLanding (cluster : Nat) (req : Nat)
  | mxRequestComplete (cluster : Nat) (req : Nat)
  | copyCompletion (eop : Nat)
  | gatherCompletion (eop : Nat)
  | scatterCompletion (eop : Nat)
  | bkopCompletion (eop : Nat)
  | rowOpCompletion (eop : Nat)
  | cacheMaintCompletion (eop : Nat)
  | putLanding (msg : PutMsg)
  | putAcknowledged (eop : Nat)
  | putRefused (eop : Nat)
  | putResponseTimeout (eop : Nat)
  | collArrival (msg : CollMsg)
  | collAccepted (eop : Nat)
  | collResponseTimeout (eop : Nat)
  | collApply (slot : Nat)
  | slotEnable (slot : Nat) (value : Word)
  | slotDisable (slot : Nat)
  | windowDisable (window : Nat)
  | fabricRequestIn (req : FabricReq)
  | fabricResponseTimeout (warp : Nat) (lane : Nat)
  | faultRecordResolve (buf : Nat) (idx : Nat)
  | faultRecordAbandon (buf : Nat) (idx : Nat)
  | faultReplay (buf : Nat)
  | devdropRead
  | migrationSwitch (entry : Nat)
  | migrationRelease (entry : Nat)
  | accessCounterDecay
  | migdecayWrite (value : Word)
  | frfillPush (ring : Nat) (value : Word)
  | frretPop
  | poolAcquire (page : Nat) (count : Nat)
  | poolRelease (page : Nat) (count : Nat)
  | poolPublish (page : PublishMsg) (count : Nat)
  | poolCommandDone
  | poolstatRead (svc : Nat)
  | poolRevocation (page : Nat)
  | poolHeartbeat
  | poolHeartbeatLapse
  | poolModuleLoss (extent : Nat) (module : Nat)
  | pairedSegmentCompare (gang : Nat) (wid : Nat)
  | pairedCompareTimeout (gang : Nat) (wid : Nat)
  | eccError (err : EccMsg)
  | gangRelaunch (gang : Nat) (cores : List Nat)
  | selfTest (part : TestUnit) (runs : List Bool)
  | coldReset
  | warmReset
  | bootStageVerify (image : ImageMsg)
  | platformFaultAlarm (cond : PlatformCond)
  | protectiveShutdown
  | tamperAlarm
  | glitchTemperatureAlarm
  | powerStateEntry
  | powerWake
  | lanternDebugHold (tenant : Nat)
  | lanternDebugRelease (tenant : Nat)
  | lanternFirmwareUpdate (image : ImageMsg)
  | lanternAttestation (nonce : List Byte)
  | lanternMainReset (authorised : Bool) (on : Bool)
  | lanternMonitorQuery (query : LanternQuery)
  | registerWrite (level : Nat) (reg : RegAt) (size : Nat) (value : Word)
  | platformInterruptSignal (n : Nat)
  | lanternProvisioning
  | poolEnablingFinished (tenant : Nat) (pool : Nat)
  | exitLatencyElapsed
  | platformConditionRestored (cond : PlatformCond)
  | poolModuleRebuild (extent : Nat) (module : Nat)
  deriving DecidableEq, Repr

/-- A step that no instruction word encodes. -/
def Instr.isEvent : Instr → Bool
  | .iaddCompact _ _ _ _ => false
  | .iaddLong _ _ _ _ _ _ => false
  | .iaddLiteral _ _ _ _ _ _ => false
  | .isubCompact _ _ _ _ => false
  | .isubLong _ _ _ _ _ _ => false
  | .isubLiteral _ _ _ _ _ _ => false
  | .imulCompact _ _ _ _ => false
  | .imulLong _ _ _ _ _ _ => false
  | .imulLiteral _ _ _ _ _ _ => false
  | .imulhCompact _ _ _ _ => false
  | .imulhLong _ _ _ _ _ => false
  | .imulhLiteral _ _ _ _ _ => false
  | .imadLong _ _ _ _ _ _ _ => false
  | .imadLiteral _ _ _ _ _ _ _ => false
  | .idivCompact _ _ _ _ => false
  | .idivLong _ _ _ _ _ => false
  | .idivLiteral _ _ _ _ _ => false
  | .iremCompact _ _ _ _ => false
  | .iremLong _ _ _ _ _ => false
  | .iremLiteral _ _ _ _ _ => false
  | .iminCompact _ _ _ _ => false
  | .iminLong _ _ _ _ _ => false
  | .iminLiteral _ _ _ _ _ => false
  | .imaxCompact _ _ _ _ => false
  | .imaxLong _ _ _ _ _ => false
  | .imaxLiteral _ _ _ _ _ => false
  | .iabs _ _ _ _ _ => false
  | .ineg _ _ _ _ _ => false
  | .iaddcLong _ _ _ _ _ _ => false
  | .iaddcLiteral _ _ _ _ _ _ => false
  | .isubbLong _ _ _ _ _ _ => false
  | .isubbLiteral _ _ _ _ _ _ => false
  | .idot4Long _ _ _ _ _ _ _ => false
  | .idot4Literal _ _ _ _ _ _ _ => false
  | .andCompact _ _ _ _ => false
  | .andLong _ _ _ _ _ => false
  | .andLiteral _ _ _ _ _ => false
  | .orCompact _ _ _ _ => false
  | .orLong _ _ _ _ _ => false
  | .orLiteral _ _ _ _ _ => false
  | .xorCompact _ _ _ _ => false
  | .xorLong _ _ _ _ _ => false
  | .xorLiteral _ _ _ _ _ => false
  | .lop3Long _ _ _ _ _ _ _ => false
  | .lop3Literal _ _ _ _ _ _ _ => false
  | .shlCompact _ _ _ _ => false
  | .shlLong _ _ _ _ _ => false
  | .shlLiteral _ _ _ _ _ => false
  | .shrCompact _ _ _ _ => false
  | .shrLong _ _ _ _ _ => false
  | .shrLiteral _ _ _ _ _ => false
  | .shraCompact _ _ _ _ => false
  | .shraLong _ _ _ _ _ => false
  | .shraLiteral _ _ _ _ _ => false
  | .rotCompact _ _ _ _ => false
  | .rotLong _ _ _ _ _ => false
  | .rotLiteral _ _ _ _ _ => false
  | .popc _ _ _ _ => false
  | .clz _ _ _ _ => false
  | .ctz _ _ _ _ => false
  | .brev _ _ _ _ => false
  | .bfxLong _ _ _ _ _ => false
  | .bfxLiteral _ _ _ _ _ => false
  | .bfiLong _ _ _ _ _ _ => false
  | .bfiLiteral _ _ _ _ _ _ => false
  | .prmtLong _ _ _ _ _ => false
  | .prmtLiteral _ _ _ _ _ => false
  | .icmpLong _ _ _ _ _ _ _ => false
  | .icmpLiteral _ _ _ _ _ _ _ => false
  | .fcmpLong _ _ _ _ _ _ _ => false
  | .fcmpLiteral _ _ _ _ _ _ _ => false
  | .fclass _ _ _ _ _ _ => false
  | .selCompact _ _ _ _ => false
  | .selLong _ _ _ _ _ _ _ => false
  | .selLiteral _ _ _ _ _ _ _ => false
  | .plop _ _ _ _ _ _ _ => false
  | .ptog _ _ => false
  | .gtop _ _ _ => false
  | .movLong _ _ _ _ => false
  | .movLiteral _ _ _ _ => false
  | .movwLong _ _ _ _ => false
  | .movwLiteral _ _ _ _ => false
  | .wmov _ _ _ _ => false
  | .faddCompact _ _ _ _ => false
  | .faddLong _ _ _ _ _ _ => false
  | .faddLiteral _ _ _ _ _ _ => false
  | .fsubCompact _ _ _ _ => false
  | .fsubLong _ _ _ _ _ _ => false
  | .fsubLiteral _ _ _ _ _ _ => false
  | .fmulCompact _ _ _ _ => false
  | .fmulLong _ _ _ _ _ _ => false
  | .fmulLiteral _ _ _ _ _ _ => false
  | .ffmaLong _ _ _ _ _ _ _ => false
  | .ffmaLiteral _ _ _ _ _ _ _ => false
  | .fminCompact _ _ _ _ => false
  | .fminLong _ _ _ _ _ _ => false
  | .fminLiteral _ _ _ _ _ _ => false
  | .fmaxCompact _ _ _ _ => false
  | .fmaxLong _ _ _ _ _ _ => false
  | .fmaxLiteral _ _ _ _ _ _ => false
  | .fabs _ _ _ _ => false
  | .fneg _ _ _ _ => false
  | .fdivCompact _ _ _ _ => false
  | .fdivLong _ _ _ _ _ _ => false
  | .fdivLiteral _ _ _ _ _ _ => false
  | .fsqrt _ _ _ _ _ => false
  | .frcp _ _ _ _ _ => false
  | .frsq _ _ _ _ _ => false
  | .fsclLong _ _ _ _ _ _ => false
  | .fsclLiteral _ _ _ _ _ _ => false
  | .frnd _ _ _ _ _ => false
  | .fdotLong _ _ _ _ _ _ _ => false
  | .fdotLiteral _ _ _ _ _ _ _ => false
  | .fsum _ _ _ _ _ => false
  | .fex2 _ _ _ _ _ => false
  | .flg2 _ _ _ _ _ => false
  | .fsin _ _ _ _ _ => false
  | .fcos _ _ _ _ _ => false
  | .ftnh _ _ _ _ _ => false
  | .cvt _ _ _ _ _ _ => false
  | .pack _ _ _ _ _ _ _ _ => false
  | .unpk _ _ _ _ _ _ _ => false
  | .qblk _ _ _ _ _ _ => false
  | .dqblk _ _ _ _ _ _ => false
  | .rng _ _ _ _ _ => false
  | .rngg _ _ _ _ _ => false
  | .shfl _ _ _ _ _ _ _ => false
  | .bcst _ _ _ _ => false
  | .vote _ _ _ _ _ _ => false
  | .wred _ _ _ _ _ _ _ => false
  | .wscan _ _ _ _ _ _ _ _ => false
  | .matchI _ _ _ _ => false
  | .elect _ _ _ => false
  | .braLong _ _ => false
  | .braLiteral _ _ => false
  | .brx _ _ => false
  | .callLong _ _ _ => false
  | .callLiteral _ _ _ => false
  | .callx _ _ _ => false
  | .ret _ _ => false
  | .meetLong _ _ => false
  | .meetLiteral _ _ => false
  | .leaveLong _ _ _ => false
  | .leaveLiteral _ _ _ => false
  | .land _ => false
  | .exit _ => false
  | .trap _ _ => false
  | .nop _ => false
  | .yield _ => false
  | .sleep _ _ => false
  | .brkpt _ => false
  | .ld _ _ _ _ _ => false
  | .st _ _ _ _ _ => false
  | .pref _ _ _ _ _ => false
  | .ldl _ _ _ _ _ _ => false
  | .stl _ _ _ _ _ _ => false
  | .lds _ _ _ _ _ _ _ => false
  | .sts _ _ _ _ _ _ _ => false
  | .ldc _ _ _ _ _ _ => false
  | .stc _ _ _ _ _ _ => false
  | .feset _ _ _ _ => false
  | .feclr _ _ _ _ => false
  | .fetest _ _ _ _ _ => false
  | .lr _ _ _ _ _ => false
  | .sc _ _ _ _ _ _ => false
  | .atom _ _ _ _ _ _ => false
  | .cas _ _ _ _ _ _ => false
  | .red _ _ _ _ _ => false
  | .atoms _ _ _ _ _ _ _ => false
  | .cass _ _ _ _ _ _ _ => false
  | .reds _ _ _ _ _ _ => false
  | .fence _ _ _ => false
  | .waitc _ _ _ => false
  | .rsb _ => false
  | .rse _ => false
  | .gpwait _ => false
  | .defer _ _ _ _ _ => false
  | .alloc _ _ _ _ _ => false
  | .free _ _ _ _ => false
  | .cpy _ _ _ => false
  | .cpyz _ _ _ => false
  | .gath _ _ _ => false
  | .scat _ _ _ => false
  | .put _ _ _ => false
  | .coll _ _ _ => false
  | .bkop _ _ _ _ _ => false
  | .rowcp _ _ _ => false
  | .rowz _ _ _ => false
  | .clean _ _ _ _ => false
  | .inval _ _ _ _ => false
  | .flush _ _ _ _ => false
  | .mxp _ _ _ => false
  | .wbld _ _ _ => false
  | .acz _ _ _ => false
  | .acld _ _ _ => false
  | .acdrn _ _ _ => false
  | .acchk _ _ _ => false
  | .pin _ _ _ _ _ => false
  | .unpin _ _ _ => false
  | .hint _ _ _ _ => false
  | .migr _ _ _ _ _ => false
  | .taff _ _ _ _ => false
  | .probe _ _ _ _ => false
  | .tlbi _ _ => false
  | .tlbsync _ => false
  | .launch _ _ _ => false
  | .cwait _ _ _ _ => false
  | .cancel _ _ _ => false
  | .reord _ _ _ _ => false
  | .svc _ _ => false
  | .srd _ _ _ => false
  | .swr _ _ _ => false
  | .eret _ _ => false
  | .hvc _ _ => false
  | .sec _ _ => false
  | .coreStep _ => true
  | .stallExpiry _ _ => true
  | .sleepExpiry _ _ => true
  | .waitTimeout _ _ => true
  | .resultLanding _ _ => true
  | .storeQueueDrain _ => true
  | .cacheEviction _ _ => true
  | .lineInvalidation _ _ => true
  | .homeRequest _ => true
  | .atomicAtHome _ => true
  | .replicaUpdate _ => true
  | .reservationLapse _ _ => true
  | .interruptTake _ => true
  | .timerInterruptPending _ => true
  | .ipisendWrite _ _ => true
  | .intpendClear _ _ => true
  | .launchAccept _ _ => true
  | .launchReady _ => true
  | .gangPlace _ _ => true
  | .blockSave _ => true
  | .blockResume _ _ => true
  | .warpRetire _ => true
  | .blockRetire _ => true
  | .launchFinish _ => true
  | .reorderIdleFlush _ _ => true
  | .postingWindowStore _ _ _ _ => true
  | .postingFullCountRead _ _ => true
  | .tenantSuspend _ => true
  | .tenantResume _ => true
  | .tenantReset _ => true
  | .coreownWrite _ _ => true
  | .l2wayWrite _ _ => true
  | .placeTableWrite _ _ _ => true
  | .dscarveWrite _ _ => true
  | .serviceThreadStart _ => true
  | .serviceThreadStop _ => true
  | .poolEnable _ _ => true
  | .poolDisable _ _ => true
  | .perrRead _ _ => true
  | .guylineReport _ => true
  | .gpseqAcknowledge _ _ => true
  | .gracePeriodDone _ => true
  | .backgroundGraceStart _ => true
  | .deferredReturn _ => true
  | .mxOwnershipGrant _ => true
  | .mxRequestBegin _ _ => true
  | .mxPassGrant _ => true
  | .mxPassLanding _ => true
  | .wbldChunkLanding _ _ => true
  | .mxRequestComplete _ _ => true
  | .copyCompletion _ => true
  | .gatherCompletion _ => true
  | .scatterCompletion _ => true
  | .bkopCompletion _ => true
  | .rowOpCompletion _ => true
  | .cacheMaintCompletion _ => true
  | .putLanding _ => true
  | .putAcknowledged _ => true
  | .putRefused _ => true
  | .putResponseTimeout _ => true
  | .collArrival _ => true
  | .collAccepted _ => true
  | .collResponseTimeout _ => true
  | .collApply _ => true
  | .slotEnable _ _ => true
  | .slotDisable _ => true
  | .windowDisable _ => true
  | .fabricRequestIn _ => true
  | .fabricResponseTimeout _ _ => true
  | .faultRecordResolve _ _ => true
  | .faultRecordAbandon _ _ => true
  | .faultReplay _ => true
  | .devdropRead => true
  | .migrationSwitch _ => true
  | .migrationRelease _ => true
  | .accessCounterDecay => true
  | .migdecayWrite _ => true
  | .frfillPush _ _ => true
  | .frretPop => true
  | .poolAcquire _ _ => true
  | .poolRelease _ _ => true
  | .poolPublish _ _ => true
  | .poolCommandDone => true
  | .poolstatRead _ => true
  | .poolRevocation _ => true
  | .poolHeartbeat => true
  | .poolHeartbeatLapse => true
  | .poolModuleLoss _ _ => true
  | .pairedSegmentCompare _ _ => true
  | .pairedCompareTimeout _ _ => true
  | .eccError _ => true
  | .gangRelaunch _ _ => true
  | .selfTest _ _ => true
  | .coldReset => true
  | .warmReset => true
  | .bootStageVerify _ => true
  | .platformFaultAlarm _ => true
  | .protectiveShutdown => true
  | .tamperAlarm => true
  | .glitchTemperatureAlarm => true
  | .powerStateEntry => true
  | .powerWake => true
  | .lanternDebugHold _ => true
  | .lanternDebugRelease _ => true
  | .lanternFirmwareUpdate _ => true
  | .lanternAttestation _ => true
  | .lanternMainReset _ _ => true
  | .lanternMonitorQuery _ => true
  | .registerWrite _ _ _ _ => true
  | .platformInterruptSignal _ => true
  | .lanternProvisioning => true
  | .poolEnablingFinished _ _ => true
  | .exitLatencyElapsed => true
  | .platformConditionRestored _ => true
  | .poolModuleRebuild _ _ => true

end Sys2Proof
end

