-- ==== Sys2Proof/WellFormed.lean ====
section
/-! DEFINITION. Which instruction terms stand for an instruction word: the limits the entries put on types, register
pairs, register runs and modifiers (check 5 of R282).  The device steps no word encodes are never well-formed. -/

namespace Sys2Proof

/-- The integer types s8 to n64 (R358). -/
def Ty.intTy : Ty → Bool
  | .s8 | .s16 | .s32 | .s64 | .n8 | .n16 | .n32 | .n64 => true
  | _ => false

/-- The types of class 1: an integer type or b64 (R298). -/
def Ty.intB (t : Ty) : Bool := t.intTy || t == .b64

/-- The four floating types of R329. -/
def Ty.fpTy (t : Ty) : Bool := t == .f16 || t == .bf16 || t == .f32 || t == .f64

/-- The types of the elementary functions (R336). -/
def Ty.fnTy (t : Ty) : Bool := t == .f16 || t == .bf16 || t == .f32

/-- Codes 0 to 11 and 15 (R374, R367, R406). -/
def Ty.plainTy (t : Ty) : Bool := t.intTy || t.fpTy || t == .b64

/-- The types of LR, SC, CAS and CASS (R372, R299). -/
def Ty.reservable (t : Ty) : Bool := t == .s32 || t == .n32 || t == .s64 || t == .n64 || t == .b64

/-- Block formats of QBLK (R384). -/
def blockTy (t : Ty) : Bool := t == .f16 || t == .bf16 || t == .q8 || t == .l6 || t == .h4

/-- The number m of source registers of QBLK (R384). -/
def blockRegs : Ty → Nat
  | .q8 => 30
  | .l6 => 40
  | .h4 => 60
  | _ => 15

/-- The overlap rules of R384 for the block, the source run and the residual run. -/
def qblkRuns (d : Fin 24) (a : Fin 192) (b : Option (Fin 192)) (m : Nat) : Bool :=
  let apart (x n y k : Nat) : Bool := x + n ≤ y || y + k ≤ x
  apart (8 * d.val) 8 a.val m &&
    match b with
    | none => true
    | some r => apart (8 * d.val) 8 r.val m && (r == a || apart r.val m a.val m)

/-- A destination that may name a register pair (R89). -/
def Dst.even : Dst → Bool
  | .g n => n.val % 2 == 0
  | .zero => true

/-- A source that may name a register pair (R89). -/
def Src.even : Src → Bool
  | .g n => n.val % 2 == 0
  | .w n => n.val % 2 == 0
  | .zero => true

/-- Access types of the loads and stores (R367, R406), `.b128` with an even register (R89). -/
def memOk (t : MTy) (even : Bool) : Bool :=
  match t with
  | .ty t => t.plainTy
  | .b128 => even

/-- An immediate of BCST lies in 0 to 31 (R304). -/
def bcstOk : OpB → Bool
  | .reg _ => true
  | .imm v => v.toNat ≤ 31

/-- The operation and type table of the atomics (R299). -/
def atomOk (op : AtomOp) (t : Ty) : Bool :=
  let int := t == .s32 || t == .s64 || t == .n32 || t == .n64
  let fp := t == .f32 || t == .f64
  match op with
  | .add | .min | .max => int || fp
  | .and | .or | .xor => int || t == .b64
  | .exch => int || fp || t == .b64

/-- The operation, type and rounding table of WRED and WSCAN (R415). -/
def redOk (op : RedOp) (t : Ty) (rnd : Rnd) : Bool :=
  match op with
  | .add | .min | .max => (t.intTy && rnd == .fpctl) || t.fpTy
  | .and | .or | .xor => (t.intTy || t == .b64) && rnd == .fpctl

/-- Whether an instruction term stands for an instruction word. -/
def Instr.wf : Instr → Bool
  | .iaddCompact _ _ _ _ => true
  | .iaddLong _ _ _ _ ty _ => ty.intTy
  | .iaddLiteral _ _ _ _ ty _ => ty.intTy
  | .isubCompact _ _ _ _ => true
  | .isubLong _ _ _ _ ty _ => ty.intTy
  | .isubLiteral _ _ _ _ ty _ => ty.intTy
  | .imulCompact _ _ _ _ => true
  | .imulLong _ _ _ _ ty _ => ty.intTy
  | .imulLiteral _ _ _ _ ty _ => ty.intTy
  | .imulhCompact _ _ _ _ => true
  | .imulhLong _ _ _ _ ty => ty.intTy
  | .imulhLiteral _ _ _ _ ty => ty.intTy
  | .imadLong _ _ _ _ _ ty _ => ty.intTy
  | .imadLiteral _ _ _ _ _ ty _ => ty.intTy
  | .idivCompact _ _ _ _ => true
  | .idivLong _ _ _ _ ty => ty.intTy
  | .idivLiteral _ _ _ _ ty => ty.intTy
  | .iremCompact _ _ _ _ => true
  | .iremLong _ _ _ _ ty => ty.intTy
  | .iremLiteral _ _ _ _ ty => ty.intTy
  | .iminCompact _ _ _ _ => true
  | .iminLong _ _ _ _ ty => ty.intTy
  | .iminLiteral _ _ _ _ ty => ty.intTy
  | .imaxCompact _ _ _ _ => true
  | .imaxLong _ _ _ _ ty => ty.intTy
  | .imaxLiteral _ _ _ _ ty => ty.intTy
  | .iabs _ _ _ ty _ => ty.intTy
  | .ineg _ _ _ ty _ => ty.intTy
  | .iaddcLong _ _ _ _ ty _ => ty == .n64
  | .iaddcLiteral _ _ _ _ ty _ => ty == .n64
  | .isubbLong _ _ _ _ ty _ => ty == .n64
  | .isubbLiteral _ _ _ _ ty _ => ty == .n64
  | .idot4Long _ _ _ _ _ ty _ => (ty == .s8 || ty == .n8)
  | .idot4Literal _ _ _ _ _ ty _ => (ty == .s8 || ty == .n8)
  | .andCompact _ _ _ _ => true
  | .andLong _ _ _ _ ty => ty.intB
  | .andLiteral _ _ _ _ ty => ty.intB
  | .orCompact _ _ _ _ => true
  | .orLong _ _ _ _ ty => ty.intB
  | .orLiteral _ _ _ _ ty => ty.intB
  | .xorCompact _ _ _ _ => true
  | .xorLong _ _ _ _ ty => ty.intB
  | .xorLiteral _ _ _ _ ty => ty.intB
  | .lop3Long _ _ _ _ _ ty _ => ty.intB
  | .lop3Literal _ _ _ _ _ ty _ => ty.intB
  | .shlCompact _ _ _ _ => true
  | .shlLong _ _ _ _ ty => ty.intB
  | .shlLiteral _ _ _ _ ty => ty.intB
  | .shrCompact _ _ _ _ => true
  | .shrLong _ _ _ _ ty => ty.intB
  | .shrLiteral _ _ _ _ ty => ty.intB
  | .shraCompact _ _ _ _ => true
  | .shraLong _ _ _ _ ty => ty.intB
  | .shraLiteral _ _ _ _ ty => ty.intB
  | .rotCompact _ _ _ _ => true
  | .rotLong _ _ _ _ ty => ty.intB
  | .rotLiteral _ _ _ _ ty => ty.intB
  | .popc _ _ _ ty => ty.intB
  | .clz _ _ _ ty => ty.intB
  | .ctz _ _ _ ty => ty.intB
  | .brev _ _ _ ty => ty.intB
  | .bfxLong _ _ _ _ ty => ty.intB
  | .bfxLiteral _ _ _ _ ty => ty.intB
  | .bfiLong _ _ _ _ _ ty => ty.intB
  | .bfiLiteral _ _ _ _ _ ty => ty.intB
  | .prmtLong _ _ _ _ _ => true
  | .prmtLiteral _ _ _ _ _ => true
  | .icmpLong _ _ _ _ ty _ _ => ty.intTy
  | .icmpLiteral _ _ _ _ ty _ _ => ty.intTy
  | .fcmpLong _ _ _ _ ty _ _ => ty.fpTy
  | .fcmpLiteral _ _ _ _ ty _ _ => ty.fpTy
  | .fclass _ _ _ _ ty _ => ty.fpTy
  | .selCompact _ _ _ _ => true
  | .selLong _ _ _ _ ty _ _ => ty.plainTy
  | .selLiteral _ _ _ _ ty _ _ => ty.plainTy
  | .plop _ _ _ _ _ _ _ => true
  | .ptog _ _ => true
  | .gtop _ _ _ => true
  | .movLong _ _ _ ty => ty.plainTy
  | .movLiteral _ _ _ ty => ty.plainTy
  | .movwLong _ _ _ ty => ty.plainTy
  | .movwLiteral _ _ _ ty => ty.plainTy
  | .wmov _ _ _ _ => true
  | .faddCompact _ _ _ _ => true
  | .faddLong _ _ _ _ ty _ => ty.fpTy
  | .faddLiteral _ _ _ _ ty _ => ty.fpTy
  | .fsubCompact _ _ _ _ => true
  | .fsubLong _ _ _ _ ty _ => ty.fpTy
  | .fsubLiteral _ _ _ _ ty _ => ty.fpTy
  | .fmulCompact _ _ _ _ => true
  | .fmulLong _ _ _ _ ty _ => ty.fpTy
  | .fmulLiteral _ _ _ _ ty _ => ty.fpTy
  | .ffmaLong _ _ _ _ _ ty _ => ty.fpTy
  | .ffmaLiteral _ _ _ _ _ ty _ => ty.fpTy
  | .fminCompact _ _ _ _ => true
  | .fminLong _ _ _ _ ty _ => ty.fpTy
  | .fminLiteral _ _ _ _ ty _ => ty.fpTy
  | .fmaxCompact _ _ _ _ => true
  | .fmaxLong _ _ _ _ ty _ => ty.fpTy
  | .fmaxLiteral _ _ _ _ ty _ => ty.fpTy
  | .fabs _ _ _ ty => ty.fpTy
  | .fneg _ _ _ ty => ty.fpTy
  | .fdivCompact _ _ _ _ => true
  | .fdivLong _ _ _ _ ty _ => ty.fpTy
  | .fdivLiteral _ _ _ _ ty _ => ty.fpTy
  | .fsqrt _ _ _ ty _ => ty.fpTy
  | .frcp _ _ _ ty _ => ty.fpTy
  | .frsq _ _ _ ty _ => ty.fpTy
  | .fsclLong _ _ _ _ ty _ => ty.fpTy
  | .fsclLiteral _ _ _ _ ty _ => ty.fpTy
  | .frnd _ _ _ ty _ => ty.fpTy
  | .fdotLong _ _ _ _ _ ty _ => (ty == .f16 || ty == .bf16 || ty == .f32)
  | .fdotLiteral _ _ _ _ _ ty _ => (ty == .f16 || ty == .bf16 || ty == .f32)
  | .fsum _ _ _ ty _ => (ty == .f16 || ty == .bf16 || ty == .f32 || ty == .q8 || ty == .l6 || ty == .h4)
  | .fex2 _ _ _ ty _ => ty.fnTy
  | .flg2 _ _ _ ty _ => ty.fnTy
  | .fsin _ _ _ ty _ => ty.fnTy
  | .fcos _ _ _ ty _ => ty.fnTy
  | .ftnh _ _ _ ty _ => ty.fnTy
  | .cvt _ _ _ ty _ _ => ty != .b64
  | .pack _ _ _ _ _ ty _ _ => ty != .b64
  | .unpk _ _ _ _ ty _ _ => ty != .b64
  | .qblk _ d a b ty _ => blockTy ty && qblkRuns d a b (blockRegs ty)
  | .dqblk _ _ _ _ ty _ => ty.fpTy
  | .rng _ d _ _ ty => (ty == .b64 || ty == .f32 || ty == .f64) && d.even
  | .rngg _ d _ _ ty => (ty == .f32 || (ty == .f64 && d.even))
  | .shfl _ _ _ _ _ _ _ => true
  | .bcst _ _ _ b => bcstOk b
  | .vote _ _ _ _ _ _ => true
  | .wred _ _ _ _ ty op rnd => redOk op ty rnd
  | .wscan _ _ _ _ ty op _ rnd => redOk op ty rnd
  | .matchI _ _ _ ty => (ty == .n32 || ty == .n64 || ty == .b64)
  | .elect _ _ _ => true
  | .braLong _ _ => true
  | .braLiteral _ _ => true
  | .brx _ _ => true
  | .callLong _ _ _ => true
  | .callLiteral _ _ _ => true
  | .callx _ _ _ => true
  | .ret _ _ => true
  | .meetLong _ _ => true
  | .meetLiteral _ _ => true
  | .leaveLong _ _ _ => true
  | .leaveLiteral _ _ _ => true
  | .land _ => true
  | .exit _ => true
  | .trap _ _ => true
  | .nop _ => true
  | .yield _ => true
  | .sleep _ _ => true
  | .brkpt _ => true
  | .ld _ d _ _ ty => memOk ty d.even
  | .st _ d _ _ ty => memOk ty d.even
  | .pref _ _ _ _ _ => true
  | .ldl _ d _ _ ty _ => memOk ty d.even
  | .stl _ d _ _ ty _ => memOk ty d.even
  | .lds _ d _ _ ty _ _ => memOk ty d.even
  | .sts _ d _ _ ty _ _ => memOk ty d.even
  | .ldc _ d _ _ ty _ => memOk ty d.even
  | .stc _ d _ _ ty _ => memOk ty d.even
  | .feset _ _ _ _ => true
  | .feclr _ _ _ _ => true
  | .fetest _ _ _ _ _ => true
  | .lr _ _ _ _ ty => ty.reservable
  | .sc _ _ _ _ ty _ => ty.reservable
  | .atom _ _ _ _ op ty => atomOk op ty
  | .cas _ _ _ _ _ ty => ty.reservable
  | .red _ _ _ op ty => (op != .exch && atomOk op ty)
  | .atoms _ _ _ _ op _ ty => atomOk op ty
  | .cass _ _ _ _ _ _ ty => ty.reservable
  | .reds _ _ _ op _ ty => (op != .exch && atomOk op ty)
  | .fence _ _ _ => true
  | .waitc _ _ _ => true
  | .rsb _ => true
  | .rse _ => true
  | .gpwait _ => true
  | .defer _ _ _ _ _ => true
  | .alloc _ _ _ _ _ => true
  | .free _ _ _ _ => true
  | .cpy _ _ _ => true
  | .cpyz _ _ _ => true
  | .gath _ _ _ => true
  | .scat _ _ _ => true
  | .put _ _ _ => true
  | .coll _ _ _ => true
  | .bkop _ _ _ _ ty => (ty == .bf16 || ty == .f32)
  | .rowcp _ _ _ => true
  | .rowz _ _ _ => true
  | .clean _ _ _ _ => true
  | .inval _ _ _ _ => true
  | .flush _ _ _ _ => true
  | .mxp _ _ _ => true
  | .wbld _ _ _ => true
  | .acz _ _ _ => true
  | .acld _ _ _ => true
  | .acdrn _ _ _ => true
  | .acchk _ _ _ => true
  | .pin _ _ _ _ _ => true
  | .unpin _ _ _ => true
  | .hint _ _ _ _ => true
  | .migr _ _ _ _ _ => true
  | .taff _ _ _ _ => true
  | .probe _ _ _ _ => true
  | .tlbi _ _ => true
  | .tlbsync _ => true
  | .launch _ _ _ => true
  | .cwait _ _ _ _ => true
  | .cancel _ _ _ => true
  | .reord _ _ _ _ => true
  | .svc _ _ => true
  | .srd _ _ _ => true
  | .swr _ _ _ => true
  | .eret _ _ => true
  | .hvc _ _ => true
  | .sec _ _ => true
  | .coreStep _ => false
  | .stallExpiry _ _ => false
  | .sleepExpiry _ _ => false
  | .waitTimeout _ _ => false
  | .resultLanding _ _ => false
  | .storeQueueDrain _ => false
  | .cacheEviction _ _ => false
  | .lineInvalidation _ _ => false
  | .homeRequest _ => false
  | .atomicAtHome _ => false
  | .replicaUpdate _ => false
  | .reservationLapse _ _ => false
  | .interruptTake _ => false
  | .timerInterruptPending _ => false
  | .ipisendWrite _ _ => false
  | .intpendClear _ _ => false
  | .launchAccept _ _ => false
  | .launchReady _ => false
  | .gangPlace _ _ => false
  | .blockSave _ => false
  | .blockResume _ _ => false
  | .warpRetire _ => false
  | .blockRetire _ => false
  | .launchFinish _ => false
  | .reorderIdleFlush _ _ => false
  | .postingWindowStore _ _ _ _ => false
  | .postingFullCountRead _ _ => false
  | .tenantSuspend _ => false
  | .tenantResume _ => false
  | .tenantReset _ => false
  | .coreownWrite _ _ => false
  | .l2wayWrite _ _ => false
  | .placeTableWrite _ _ _ => false
  | .dscarveWrite _ _ => false
  | .serviceThreadStart _ => false
  | .serviceThreadStop _ => false
  | .poolEnable _ _ => false
  | .poolDisable _ _ => false
  | .perrRead _ _ => false
  | .guylineReport _ => false
  | .gpseqAcknowledge _ _ => false
  | .gracePeriodDone _ => false
  | .backgroundGraceStart _ => false
  | .deferredReturn _ => false
  | .mxOwnershipGrant _ => false
  | .mxRequestBegin _ _ => false
  | .mxPassGrant _ => false
  | .mxPassLanding _ => false
  | .wbldChunkLanding _ _ => false
  | .mxRequestComplete _ _ => false
  | .copyCompletion _ => false
  | .gatherCompletion _ => false
  | .scatterCompletion _ => false
  | .bkopCompletion _ => false
  | .rowOpCompletion _ => false
  | .cacheMaintCompletion _ => false
  | .putLanding _ => false
  | .putAcknowledged _ => false
  | .putRefused _ => false
  | .putResponseTimeout _ => false
  | .collArrival _ => false
  | .collAccepted _ => false
  | .collResponseTimeout _ => false
  | .collApply _ => false
  | .slotEnable _ _ => false
  | .slotDisable _ => false
  | .windowDisable _ => false
  | .fabricRequestIn _ => false
  | .fabricResponseTimeout _ _ => false
  | .faultRecordResolve _ _ => false
  | .faultRecordAbandon _ _ => false
  | .faultReplay _ => false
  | .devdropRead => false
  | .migrationSwitch _ => false
  | .migrationRelease _ => false
  | .accessCounterDecay => false
  | .migdecayWrite _ => false
  | .frfillPush _ _ => false
  | .frretPop => false
  | .poolAcquire _ _ => false
  | .poolRelease _ _ => false
  | .poolPublish _ _ => false
  | .poolCommandDone => false
  | .poolstatRead _ => false
  | .poolRevocation _ => false
  | .poolHeartbeat => false
  | .poolHeartbeatLapse => false
  | .poolModuleLoss _ _ => false
  | .pairedSegmentCompare _ _ => false
  | .pairedCompareTimeout _ _ => false
  | .eccError _ => false
  | .gangRelaunch _ _ => false
  | .selfTest _ _ => false
  | .coldReset => false
  | .warmReset => false
  | .bootStageVerify _ => false
  | .platformFaultAlarm _ => false
  | .protectiveShutdown => false
  | .tamperAlarm => false
  | .glitchTemperatureAlarm => false
  | .powerStateEntry => false
  | .powerWake => false
  | .lanternDebugHold _ => false
  | .lanternDebugRelease _ => false
  | .lanternFirmwareUpdate _ => false
  | .lanternAttestation _ => false
  | .lanternMainReset _ _ => false
  | .lanternMonitorQuery _ => false
  | .registerWrite _ _ _ _ => false
  | .platformInterruptSignal _ => false
  | .lanternProvisioning => false
  | .poolEnablingFinished _ _ => false
  | .exitLatencyElapsed => false
  | .platformConditionRestored _ => false
  | .poolModuleRebuild _ _ => false

end Sys2Proof
end

