-- ==== Sys2Proof/Decode.lean ====
section
/-! DEFINITION. From bytes to an instruction and back: the words of R268 to R279, the opcode map of R280, a decoder
that is total and refuses by name, and the encoder. -/

namespace Sys2Proof

/-- The 152 instructions of the opcode map (R280). -/
inductive Op where
  | iadd | isub | imul | imulh | imad | idiv | irem | imin
  | imax | iabs | ineg | iaddc | isubb | idot4 | andOp | orOp
  | xorOp | lop3 | shl | shr | shra | rot | popc | clz
  | ctz | brev | bfx | bfi | prmt | icmp | fcmp | fclass
  | sel | plop | ptog | gtop | mov | movw | wmov | fadd
  | fsub | fmul | ffma | fmin | fmax | fabs | fneg | fdiv
  | fsqrt | frcp | frsq | fscl | frnd | fdot | fsum | fex2
  | flg2 | fsin | fcos | ftnh | cvt | pack | unpk | qblk
  | dqblk | rng | rngg | shfl | bcst | vote | wred | wscan
  | matchI | elect | bra | brx | call | callx | ret | meetI
  | leave | land | exit | trap | nop | yield | sleep | brkpt
  | ld | st | pref | ldl | stl | lds | sts | ldc
  | stc | feset | feclr | fetest | lr | sc | atom | cas
  | red | atoms | cass | reds | fence | waitc | rsb | rse
  | gpwait | defer | alloc | free | cpy | cpyz | gath | scat
  | put | coll | bkop | rowcp | rowz | clean | inval | flush
  | mxp | wbld | acz | acld | acdrn | acchk | pin | unpin
  | hint | migr | taff | probe | tlbi | tlbsync | launch | cwait
  | cancel | reord | svc | srd | swr | eret | hvc | sec
  deriving DecidableEq, Repr

/-- The cell of an instruction in the opcode map: CLASS and FUNC (R280). -/
def Op.cell : Op → Nat × Nat
  | .iadd => (0, 0)
  | .isub => (0, 1)
  | .imul => (0, 2)
  | .imulh => (0, 3)
  | .imad => (0, 4)
  | .idiv => (0, 5)
  | .irem => (0, 6)
  | .imin => (0, 7)
  | .imax => (0, 8)
  | .iabs => (0, 9)
  | .ineg => (0, 10)
  | .iaddc => (0, 11)
  | .isubb => (0, 12)
  | .idot4 => (0, 13)
  | .andOp => (1, 0)
  | .orOp => (1, 1)
  | .xorOp => (1, 2)
  | .lop3 => (1, 3)
  | .shl => (1, 4)
  | .shr => (1, 5)
  | .shra => (1, 6)
  | .rot => (1, 7)
  | .popc => (1, 8)
  | .clz => (1, 9)
  | .ctz => (1, 10)
  | .brev => (1, 11)
  | .bfx => (1, 12)
  | .bfi => (1, 13)
  | .prmt => (1, 14)
  | .icmp => (2, 0)
  | .fcmp => (2, 1)
  | .fclass => (2, 2)
  | .sel => (2, 3)
  | .plop => (2, 4)
  | .ptog => (2, 5)
  | .gtop => (2, 6)
  | .mov => (2, 7)
  | .movw => (2, 8)
  | .wmov => (2, 9)
  | .fadd => (3, 0)
  | .fsub => (3, 1)
  | .fmul => (3, 2)
  | .ffma => (3, 3)
  | .fmin => (3, 4)
  | .fmax => (3, 5)
  | .fabs => (3, 6)
  | .fneg => (3, 7)
  | .fdiv => (3, 8)
  | .fsqrt => (3, 9)
  | .frcp => (3, 10)
  | .frsq => (3, 11)
  | .fscl => (3, 12)
  | .frnd => (3, 13)
  | .fdot => (3, 14)
  | .fsum => (3, 15)
  | .fex2 => (4, 0)
  | .flg2 => (4, 1)
  | .fsin => (4, 2)
  | .fcos => (4, 3)
  | .ftnh => (4, 4)
  | .cvt => (4, 5)
  | .pack => (4, 6)
  | .unpk => (4, 7)
  | .qblk => (4, 8)
  | .dqblk => (4, 9)
  | .rng => (4, 10)
  | .rngg => (4, 11)
  | .shfl => (5, 0)
  | .bcst => (5, 1)
  | .vote => (5, 2)
  | .wred => (5, 3)
  | .wscan => (5, 4)
  | .matchI => (5, 5)
  | .elect => (5, 6)
  | .bra => (6, 0)
  | .brx => (6, 1)
  | .call => (6, 2)
  | .callx => (6, 3)
  | .ret => (6, 4)
  | .meetI => (6, 5)
  | .leave => (6, 6)
  | .land => (6, 7)
  | .exit => (6, 8)
  | .trap => (6, 9)
  | .nop => (6, 10)
  | .yield => (6, 11)
  | .sleep => (6, 12)
  | .brkpt => (6, 13)
  | .ld => (7, 0)
  | .st => (7, 1)
  | .pref => (7, 2)
  | .ldl => (7, 3)
  | .stl => (7, 4)
  | .lds => (7, 5)
  | .sts => (7, 6)
  | .ldc => (7, 7)
  | .stc => (7, 8)
  | .feset => (7, 9)
  | .feclr => (7, 10)
  | .fetest => (7, 11)
  | .lr => (7, 12)
  | .sc => (7, 13)
  | .atom => (8, 0)
  | .cas => (8, 1)
  | .red => (8, 2)
  | .atoms => (8, 3)
  | .cass => (8, 4)
  | .reds => (8, 5)
  | .fence => (9, 0)
  | .waitc => (9, 1)
  | .rsb => (9, 2)
  | .rse => (9, 3)
  | .gpwait => (9, 4)
  | .defer => (9, 5)
  | .alloc => (9, 6)
  | .free => (9, 7)
  | .cpy => (10, 0)
  | .cpyz => (10, 1)
  | .gath => (10, 2)
  | .scat => (10, 3)
  | .put => (10, 4)
  | .coll => (10, 5)
  | .bkop => (10, 6)
  | .rowcp => (10, 7)
  | .rowz => (10, 8)
  | .clean => (10, 9)
  | .inval => (10, 10)
  | .flush => (10, 11)
  | .mxp => (11, 0)
  | .wbld => (11, 1)
  | .acz => (11, 2)
  | .acld => (11, 3)
  | .acdrn => (11, 4)
  | .acchk => (11, 5)
  | .pin => (12, 0)
  | .unpin => (12, 1)
  | .hint => (12, 2)
  | .migr => (12, 3)
  | .taff => (12, 4)
  | .probe => (12, 5)
  | .tlbi => (12, 6)
  | .tlbsync => (12, 7)
  | .launch => (13, 0)
  | .cwait => (13, 1)
  | .cancel => (13, 2)
  | .reord => (13, 3)
  | .svc => (13, 4)
  | .srd => (14, 0)
  | .swr => (14, 1)
  | .eret => (14, 2)
  | .hvc => (14, 3)
  | .sec => (14, 4)

/-- The rows of the opcode map, class by class (R280). -/
def opRow0 : List Op :=
  [.iadd, .isub, .imul, .imulh, .imad, .idiv, .irem, .imin, .imax, .iabs, .ineg, .iaddc, .isubb, .idot4]
def opRow1 : List Op :=
  [.andOp, .orOp, .xorOp, .lop3, .shl, .shr, .shra, .rot, .popc, .clz, .ctz, .brev, .bfx, .bfi, .prmt]
def opRow2 : List Op :=
  [.icmp, .fcmp, .fclass, .sel, .plop, .ptog, .gtop, .mov, .movw, .wmov]
def opRow3 : List Op :=
  [.fadd, .fsub, .fmul, .ffma, .fmin, .fmax, .fabs, .fneg, .fdiv, .fsqrt, .frcp, .frsq, .fscl, .frnd, .fdot, .fsum]
def opRow4 : List Op :=
  [.fex2, .flg2, .fsin, .fcos, .ftnh, .cvt, .pack, .unpk, .qblk, .dqblk, .rng, .rngg]
def opRow5 : List Op :=
  [.shfl, .bcst, .vote, .wred, .wscan, .matchI, .elect]
def opRow6 : List Op :=
  [.bra, .brx, .call, .callx, .ret, .meetI, .leave, .land, .exit, .trap, .nop, .yield, .sleep, .brkpt]
def opRow7 : List Op :=
  [.ld, .st, .pref, .ldl, .stl, .lds, .sts, .ldc, .stc, .feset, .feclr, .fetest, .lr, .sc]
def opRow8 : List Op :=
  [.atom, .cas, .red, .atoms, .cass, .reds]
def opRow9 : List Op :=
  [.fence, .waitc, .rsb, .rse, .gpwait, .defer, .alloc, .free]
def opRow10 : List Op :=
  [.cpy, .cpyz, .gath, .scat, .put, .coll, .bkop, .rowcp, .rowz, .clean, .inval, .flush]
def opRow11 : List Op :=
  [.mxp, .wbld, .acz, .acld, .acdrn, .acchk]
def opRow12 : List Op :=
  [.pin, .unpin, .hint, .migr, .taff, .probe, .tlbi, .tlbsync]
def opRow13 : List Op :=
  [.launch, .cwait, .cancel, .reord, .svc]
def opRow14 : List Op :=
  [.srd, .swr, .eret, .hvc, .sec]

/-- Every instruction of the map. -/
def opList : List Op :=
  opRow0 ++ opRow1 ++ opRow2 ++ opRow3 ++ opRow4 ++ opRow5 ++ opRow6 ++ opRow7 ++ opRow8 ++ opRow9 ++ opRow10 ++ opRow11 ++ opRow12 ++ opRow13 ++ opRow14

/-- The instruction in a cell of the map, if the cell is not reserved (R280). -/
def opAt (cls fn : Nat) : Option Op := opList.find? fun o => o.cell == (cls, fn)

/-- Instructions marked \* in the map: a compact form exists (R272, R280). -/
def Op.hasCompact : Op → Bool
  | .iadd | .isub | .imul | .imulh | .idiv | .irem | .imin | .imax | .andOp | .orOp | .xorOp | .shl | .shr | .shra | .rot | .sel | .fadd | .fsub | .fmul | .fmin | .fmax | .fdiv => true
  | _ => false

/-- Instructions marked \+ in the map: a 96-bit form exists (R277, R280). -/
def Op.hasLiteral : Op → Bool
  | .iadd | .isub | .imul | .imulh | .imad | .idiv | .irem | .imin | .imax | .iaddc | .isubb | .idot4 | .andOp | .orOp | .xorOp | .lop3 | .shl | .shr | .shra | .rot | .bfx | .bfi | .prmt | .icmp | .fcmp | .sel | .mov | .movw | .fadd | .fsub | .fmul | .ffma | .fmin | .fmax | .fdiv | .fscl | .fdot | .bra | .call | .meetI | .leave => true
  | _ => false

/-- The three instruction formats, by LEN (R269). -/
inductive Form where
  | compact | long | literal
  deriving DecidableEq, Repr

/-- The fields of an instruction's words (R271, R273, R277), each as a number. In the compact form D, A and B are the
6-bit fields, and the fields it has not hold what R274 requires of unused ones. -/
structure Raw where
  form : Form
  stall : Nat
  cls : Nat
  fn : Nat
  d : Nat := 255
  a : Nat := 255
  gp : Nat := 7
  b : Nat := 255
  c : Nat := 255
  gn : Nat := 0
  ty : Nat := 15
  md : Nat := 0
  lit : BitVec 32 := 0
  deriving DecidableEq, Repr

/-- Why bytes are no instruction (checks 1 to 5 of R282); `short` when the bytes given do not hold all its words. -/
inductive DecodeErr where
  | short | lenReserved | opReserved | compactForm | literalForm | field
  deriving DecidableEq, Repr

/-- Bits lo + w - 1 down to lo of a number. -/
def bitsOf (n lo w : Nat) : Nat := n / 2 ^ lo % 2 ^ w

/-- A subfield of MOD. -/
def mdf (md lo w : Nat) : Nat := bitsOf md lo w

/-- A little-endian number from bytes (R268). -/
def leNat : List Byte → Nat
  | [] => 0
  | b :: bs => b.toNat + 256 * leNat bs

/-- The n low bytes of a number, little-endian (R268). -/
def leBytes : Nat → Nat → List Byte
  | 0, _ => []
  | n + 1, v => BitVec.ofNat 8 v :: leBytes n (v / 256)

/-- The number of words a word 0 calls for (R268, R269); LEN 0b01 counts as one. -/
def wordCount (w0 : Nat) : Nat :=
  match bitsOf w0 30 2 with
  | 2 => 2
  | 3 => 3
  | _ => 1

/-- The fields of a compact word (R271). Bit 0 is kept in `md`, which toRaw leaves 0. -/
def rawOfCompact (w0 : Nat) : Raw :=
  { form := .compact, stall := bitsOf w0 27 3, cls := bitsOf w0 23 4, fn := bitsOf w0 19 4,
    d := bitsOf w0 13 6, a := bitsOf w0 7 6, b := bitsOf w0 1 6, md := bitsOf w0 0 1 }

/-- The fields of a 64-bit or 96-bit form (R273, R277). -/
def rawOfLong (f : Form) (w0 w1 lit : Nat) : Raw :=
  { form := f, stall := bitsOf w0 27 3, cls := bitsOf w0 23 4, fn := bitsOf w0 19 4,
    d := bitsOf w0 11 8, a := bitsOf w0 3 8, gp := bitsOf w0 0 3,
    b := bitsOf w1 24 8, c := bitsOf w1 16 8, gn := bitsOf w1 15 1, ty := bitsOf w1 11 4, md := bitsOf w1 0 11,
    lit := BitVec.ofNat 32 lit }

/-- The words that hold the given fields (R269, R271, R273, R277). -/
def Raw.words (r : Raw) : List Nat :=
  let w0 (len : Nat) := len * 2 ^ 30 + r.stall * 2 ^ 27 + r.cls * 2 ^ 23 + r.fn * 2 ^ 19
  let hi (len : Nat) := w0 len + r.d * 2 ^ 11 + r.a * 2 ^ 3 + r.gp
  let w1 := r.b * 2 ^ 24 + r.c * 2 ^ 16 + r.gn * 2 ^ 15 + r.ty * 2 ^ 11 + r.md
  match r.form with
  | .compact => [w0 0 + r.d * 2 ^ 13 + r.a * 2 ^ 7 + r.b * 2 + r.md]
  | .long => [hi 2, w1]
  | .literal => [hi 3, w1, r.lit.toNat]

/-- STALL and the guard (R269, R273). -/
def Raw.ctl (r : Raw) : Ctl := ⟨Fin.ofNat 8 r.stall, Fin.ofNat 8 r.gp, r.gn == 1⟩

/-- The registers of the compact form (R271). -/
def Raw.compact (r : Raw) : Option (Fin 64 × Fin 64 × Fin 64) :=
  some (Fin.ofNat 64 r.d, Fin.ofNat 64 r.a, Fin.ofNat 64 r.b)

/-! ## Fields to operands and back (R256, R274 to R279) -/

/-- A number below a bound. -/
def dFin (n v : Nat) : Option (Fin n) := if h : v < n then some ⟨v, h⟩ else none
/-- The number of a bounded operand. -/
def eFin {n : Nat} (x : Fin n) : Nat := x.val
/-- A one-bit flag. -/
def dBool (v : Nat) : Option Bool := if v = 0 then some false else if v = 1 then some true else none
/-- A one-bit flag as a number. -/
def eBool (b : Bool) : Nat := if b then 1 else 0
/-- A source register field (R256). -/
def dSrc (v : Nat) : Option Src :=
  if h : v < 192 then some (.g ⟨v, h⟩)
  else if h : v - 192 < 32 then some (.w ⟨v - 192, h⟩)
  else if v = 255 then some .zero else none
/-- The field of a source register. -/
def eSrc : Src → Nat
  | .g n => n.val
  | .w n => 192 + n.val
  | .zero => 255
/-- A destination register field (R256). -/
def dDst (v : Nat) : Option Dst :=
  if h : v < 192 then some (.g ⟨v, h⟩) else if v = 255 then some .zero else none
/-- The field of a destination register. -/
def eDst : Dst → Nat
  | .g n => n.val
  | .zero => 255
/-- A field that must name a warp register (R375, R414). -/
def dWreg (v : Nat) : Option (Fin 32) := if 192 ≤ v then dFin 32 (v - 192) else none
/-- The field of a warp register. -/
def eWreg (n : Fin 32) : Nat := 192 + n.val
/-- A field that must name a general register (R384). -/
def dG (v : Nat) : Option (Fin 192) := dFin 192 v
/-- The field of a general register. -/
def eG (n : Fin 192) : Nat := n.val
/-- A field that must name g8k (R324, R384). -/
def dG8 (v : Nat) : Option (Fin 24) := if v % 8 = 0 then dFin 24 (v / 8) else none
/-- The field of g8k. -/
def eG8 (n : Fin 24) : Nat := 8 * n.val
/-- A residual run, or 255 for none (R384). -/
def dOptG (v : Nat) : Option (Option (Fin 192)) := if v = 255 then some none else (dFin 192 v).map some
/-- The field of a residual run. -/
def eOptG : Option (Fin 192) → Nat
  | none => 255
  | some n => n.val
/-- A predicate field (R274). -/
def dPred (v : Nat) : Option Pred := dFin 8 v
/-- The field of a predicate. -/
def ePred (p : Pred) : Nat := p.val
/-- The signed 16-bit immediate in B:C (R275). -/
def dImm (r : Raw) : BitVec 16 := BitVec.ofNat 16 (r.b * 256 + r.c)
/-- imm[15:8], the B field. -/
def eImmB (v : BitVec 16) : Nat := v.toNat / 256
/-- imm[7:0], the C field. -/
def eImmC (v : BitVec 16) : Nat := v.toNat % 256
/-- Operand B of classes 0 to 3 and of BCST: a register, or under IMM the immediate (R275). -/
def dOpB (r : Raw) : Option OpB :=
  if mdf r.md 10 1 = 1 then some (.imm (dImm r)) else (dSrc r.b).map .reg
/-- The B field of operand B. -/
def eOpBb : OpB → Nat
  | .reg s => eSrc s
  | .imm v => eImmB v
/-- The C field of operand B. -/
def eOpBc : OpB → Nat
  | .reg _ => 255
  | .imm v => eImmC v
/-- The IMM bit of operand B. -/
def eOpBm : OpB → Nat
  | .reg _ => 0
  | .imm _ => 1024
/-- The type codes (R141). -/
def eTy : Ty → Nat
  | .s8 => 0 | .s16 => 1 | .s32 => 2 | .s64 => 3 | .n8 => 4 | .n16 => 5 | .n32 => 6 | .n64 => 7
  | .f16 => 8 | .bf16 => 9 | .f32 => 10 | .f64 => 11 | .q8 => 12 | .l6 => 13 | .h4 => 14 | .b64 => 15
/-- The type of a code. -/
def dTy (v : Nat) : Option Ty :=
  match v with
  | 0 => some .s8 | 1 => some .s16 | 2 => some .s32 | 3 => some .s64
  | 4 => some .n8 | 5 => some .n16 | 6 => some .n32 | 7 => some .n64
  | 8 => some .f16 | 9 => some .bf16 | 10 => some .f32 | 11 => some .f64
  | 12 => some .q8 | 13 => some .l6 | 14 => some .h4 | 15 => some .b64
  | _ => none
/-- The second type of CVT, PACK and UNPK; b64 is not allowed (R320, R379, R410). -/
def dTyN (v : Nat) : Option Ty := if v = 15 then none else dTy v
/-- The code of the second type. -/
def eTyN (t : Ty) : Nat := eTy t
/-- An access type: W128 with TYPE 15, or TYPE (R279). -/
def dMTy (r : Raw) : Option MTy :=
  if mdf r.md 10 1 = 1 then (if r.ty = 15 then some .b128 else none) else (dTy r.ty).map .ty
/-- The TYPE field of an access type. -/
def eMTyT : MTy → Nat
  | .ty t => eTy t
  | .b128 => 15
/-- The W128 bit of an access type. -/
def eMTyM : MTy → Nat
  | .ty _ => 0
  | .b128 => 1024
/-- The key of RNG and RNGG: present when MOD bit 4 is 1 (R390). -/
def dKey (r : Raw) : Option (Option Src) :=
  if mdf r.md 4 1 = 1 then (dSrc r.b).map some else some none
/-- The B field of the key. -/
def eKeyB : Option Src → Nat
  | none => 255
  | some s => eSrc s
/-- The KEY bit. -/
def eKeyM : Option Src → Nat
  | none => 0
  | some _ => 16
/-- The operand of the 64-bit MEET (R369). -/
def dMeet (r : Raw) : Option MeetArg :=
  if mdf r.md 0 1 = 1 then (dSrc r.a).map .reg else some (.label (dImm r))
/-- The A field of MEET. -/
def eMeetA : MeetArg → Nat
  | .label _ => 255
  | .reg s => eSrc s
/-- The B field of MEET. -/
def eMeetB : MeetArg → Nat
  | .label v => eImmB v
  | .reg _ => 255
/-- The C field of MEET. -/
def eMeetC : MeetArg → Nat
  | .label v => eImmC v
  | .reg _ => 255
/-- The MOD field of MEET. -/
def eMeetM : MeetArg → Nat
  | .label _ => 0
  | .reg _ => 1
/-- The form of TLBI (R209). -/
def dTlbi (r : Raw) : Option TlbiArg :=
  match mdf r.md 0 3 with
  | 0 => (dSrc r.a).bind fun a => (dSrc r.b).map fun b => .pg a b
  | 1 => some .s1
  | 2 => (dSrc r.a).bind fun a => (dSrc r.b).map fun b => .gp a b
  | 3 => (dSrc r.b).map .all
  | 4 => (dSrc r.a).map .fr
  | _ => none
/-- The A field of TLBI. -/
def eTlbiA : TlbiArg → Nat
  | .pg a _ | .gp a _ | .fr a => eSrc a
  | .s1 | .all _ => 255
/-- The B field of TLBI. -/
def eTlbiB : TlbiArg → Nat
  | .pg _ b | .gp _ b | .all b => eSrc b
  | .s1 | .fr _ => 255
/-- The MOD field of TLBI. -/
def eTlbiM : TlbiArg → Nat
  | .pg _ _ => 0
  | .s1 => 1
  | .gp _ _ => 2
  | .all _ => 3
  | .fr _ => 4
/-- The RND subfield (R279). -/
def dRnd (v : Nat) : Option Rnd :=
  match v with
  | 0 => some .fpctl | 1 => some .rne | 2 => some .rz | 3 => some .ru | 4 => some .rd | 5 => some .rna
  | _ => none
/-- The RND subfield (R279), as a number. -/
def eRnd : Rnd → Nat
  | .fpctl => 0 | .rne => 1 | .rz => 2 | .ru => 3 | .rd => 4 | .rna => 5
/-- The conditions of ICMP (R362). -/
def dICond (v : Nat) : Option ICond :=
  match v with
  | 0 => some .eq | 1 => some .ne | 2 => some .lt | 3 => some .le | 4 => some .gt | 5 => some .ge
  | _ => none
/-- The conditions of ICMP (R362), as a number. -/
def eICond : ICond → Nat
  | .eq => 0 | .ne => 1 | .lt => 2 | .le => 3 | .gt => 4 | .ge => 5
/-- The conditions of FCMP (R334). -/
def dFCond (v : Nat) : Option FCond :=
  match v with
  | 0 => some .eq | 1 => some .ne | 2 => some .lt | 3 => some .le | 4 => some .gt | 5 => some .ge
  | 6 => some .ord | 7 => some .uno | 8 => some .equ | 9 => some .neu | 10 => some .ltu | 11 => some .leu
  | 12 => some .gtu | 13 => some .geu
  | _ => none
/-- The conditions of FCMP (R334), as a number. -/
def eFCond : FCond → Nat
  | .eq => 0 | .ne => 1 | .lt => 2 | .le => 3 | .gt => 4 | .ge => 5 | .ord => 6 | .uno => 7
  | .equ => 8 | .neu => 9 | .ltu => 10 | .leu => 11 | .gtu => 12 | .geu => 13
/-- The compare form (R334). -/
def dForm (v : Nat) : Option CmpForm :=
  match v with
  | 0 => some .first | 1 => some .all | 2 => some .any
  | _ => none
/-- The compare form (R334), as a number. -/
def eForm : CmpForm → Nat
  | .first => 0 | .all => 1 | .any => 2
/-- The operations of PLOP (R354). -/
def dPop (v : Nat) : Option PredOp :=
  match v with
  | 0 => some .and | 1 => some .or | 2 => some .xor
  | _ => none
/-- The operations of PLOP (R354), as a number. -/
def ePop : PredOp → Nat
  | .and => 0 | .or => 1 | .xor => 2
/-- The modes of VOTE (R411). -/
def dVote (v : Nat) : Option VoteMode :=
  match v with
  | 0 => some .all | 1 => some .any | 2 => some .same | 3 => some .most
  | _ => none
/-- The modes of VOTE (R411), as a number. -/
def eVote : VoteMode → Nat
  | .all => 0 | .any => 1 | .same => 2 | .most => 3
/-- The operations of WRED and WSCAN (R415). -/
def dRop (v : Nat) : Option RedOp :=
  match v with
  | 0 => some .add | 1 => some .min | 2 => some .max | 3 => some .and | 4 => some .or | 5 => some .xor
  | _ => none
/-- The operations of WRED and WSCAN (R415), as a number. -/
def eRop : RedOp → Nat
  | .add => 0 | .min => 1 | .max => 2 | .and => 3 | .or => 4 | .xor => 5
/-- The TAG subfield of loads (R279). -/
def dTag (v : Nat) : Option Tag :=
  match v with
  | 0 => some .plain | 1 => some .wf | 2 => some .clr | 3 => some .wfclr
  | _ => none
/-- The TAG subfield of loads (R279), as a number. -/
def eTag : Tag → Nat
  | .plain => 0 | .wf => 1 | .clr => 2 | .wfclr => 3
/-- The SPACE subfield (R279, R339). -/
def dSpace (v : Nat) : Option Space :=
  match v with
  | 0 => some .core | 1 => some .prv | 2 => some .clu | 3 => some .die
  | _ => none
/-- The SPACE subfield (R279, R339), as a number. -/
def eSpace : Space → Nat
  | .core => 0 | .prv => 1 | .clu => 2 | .die => 3
/-- The extents of PREF (R381). -/
def dExt (v : Nat) : Option PrefExt :=
  match v with
  | 0 => some .sector | 1 => some .line | 2 => some .x4
  | _ => none
/-- The extents of PREF (R381), as a number. -/
def eExt : PrefExt → Nat
  | .sector => 0 | .line => 1 | .x4 => 2
/-- The operations of the atomics (R299). -/
def dAop (v : Nat) : Option AtomOp :=
  match v with
  | 0 => some .add | 1 => some .min | 2 => some .max | 3 => some .and | 4 => some .or | 5 => some .xor
  | 6 => some .exch
  | _ => none
/-- The operations of the atomics (R299), as a number. -/
def eAop : AtomOp → Nat
  | .add => 0 | .min => 1 | .max => 2 | .and => 3 | .or => 4 | .xor => 5 | .exch => 6
/-- The scopes (R110). -/
def dScope (v : Nat) : Option Scope :=
  match v with
  | 0 => some .th | 1 => some .wp | 2 => some .co | 3 => some .cl | 4 => some .di | 5 => some .pk
  | 6 => some .fb | 7 => some .pl
  | _ => none
/-- The scopes (R110), as a number. -/
def eScope : Scope → Nat
  | .th => 0 | .wp => 1 | .co => 2 | .cl => 3 | .di => 4 | .pk => 5 | .fb => 6 | .pl => 7
/-- The orders of FENCE (R111). -/
def dOrder (v : Nat) : Option Order :=
  match v with
  | 0 => some .rlx | 1 => some .acq | 2 => some .rel | 3 => some .ar | 4 => some .sc
  | _ => none
/-- The orders of FENCE (R111), as a number. -/
def eOrder : Order → Nat
  | .rlx => 0 | .acq => 1 | .rel => 2 | .ar => 3 | .sc => 4
/-- The engine classes (R116). -/
def dEcls (v : Nat) : Option EngClass :=
  match v with
  | 0 => some .cp | 1 => some .gx | 2 => some .mx | 3 => some .cl | 4 => some .pt | 5 => some .bk
  | _ => none
/-- The engine classes (R116), as a number. -/
def eEcls : EngClass → Nat
  | .cp => 0 | .gx => 1 | .mx => 2 | .cl => 3 | .pt => 4 | .bk => 5
/-- The operations of BKOP (R219). -/
def dBk (v : Nat) : Option BkArith :=
  match v with
  | 0 => some .add | 1 => some .mul | 2 => some .fma
  | _ => none
/-- The operations of BKOP (R219), as a number. -/
def eBk : BkArith → Nat
  | .add => 0 | .mul => 1 | .fma => 2
/-- What CANCEL names (R312). -/
def dCk (v : Nat) : Option CancelKind :=
  match v with
  | 0 => some .launch | 1 => some .graph | 2 => some .phase | 3 => some .job
  | _ => none
/-- What CANCEL names (R312), as a number. -/
def eCk : CancelKind → Nat
  | .launch => 0 | .graph => 1 | .phase => 2 | .job => 3

/-! ## The decoder -/

/-- The instruction a laid-out word names, before the checks that every unused field holds what R274 requires. -/
def parse (o : Op) (r : Raw) : Option Instr :=
  match o with
  | .iadd => match r.form with
    | .compact => (r.compact).map fun q => .iaddCompact r.ctl.stall q.1 q.2.1 q.2.2
    | .long => (dDst r.d).bind fun d => (dSrc r.a).bind fun a => (dOpB r).bind fun b => (dTy r.ty).bind fun ty => (dBool (mdf r.md 0 1)).bind fun sat => some (.iaddLong r.ctl d a b ty sat)
    | .literal => (dDst r.d).bind fun d => (dSrc r.a).bind fun a => (some r.lit).bind fun lit => (dTy r.ty).bind fun ty => (dBool (mdf r.md 0 1)).bind fun sat => some (.iaddLiteral r.ctl d a lit ty sat)
  | .isub => match r.form with
    | .compact => (r.compact).map fun q => .isubCompact r.ctl.stall q.1 q.2.1 q.2.2
    | .long => (dDst r.d).bind fun d => (dSrc r.a).bind fun a => (dOpB r).bind fun b => (dTy r.ty).bind fun ty => (dBool (mdf r.md 0 1)).bind fun sat => some (.isubLong r.ctl d a b ty sat)
    | .literal => (dDst r.d).bind fun d => (dSrc r.a).bind fun a => (some r.lit).bind fun lit => (dTy r.ty).bind fun ty => (dBool (mdf r.md 0 1)).bind fun sat => some (.isubLiteral r.ctl d a lit ty sat)
  | .imul => match r.form with
    | .compact => (r.compact).map fun q => .imulCompact r.ctl.stall q.1 q.2.1 q.2.2
    | .long => (dDst r.d).bind fun d => (dSrc r.a).bind fun a => (dOpB r).bind fun b => (dTy r.ty).bind fun ty => (dBool (mdf r.md 0 1)).bind fun sat => some (.imulLong r.ctl d a b ty sat)
    | .literal => (dDst r.d).bind fun d => (dSrc r.a).bind fun a => (some r.lit).bind fun lit => (dTy r.ty).bind fun ty => (dBool (mdf r.md 0 1)).bind fun sat => some (.imulLiteral r.ctl d a lit ty sat)
  | .imulh => match r.form with
    | .compact => (r.compact).map fun q => .imulhCompact r.ctl.stall q.1 q.2.1 q.2.2
    | .long => (dDst r.d).bind fun d => (dSrc r.a).bind fun a => (dOpB r).bind fun b => (dTy r.ty).bind fun ty => some (.imulhLong r.ctl d a b ty)
    | .literal => (dDst r.d).bind fun d => (dSrc r.a).bind fun a => (some r.lit).bind fun lit => (dTy r.ty).bind fun ty => some (.imulhLiteral r.ctl d a lit ty)
  | .imad => match r.form with
    | .long => (dDst r.d).bind fun d => (dSrc r.a).bind fun a => (dSrc r.b).bind fun b => (dSrc r.c).bind fun x => (dTy r.ty).bind fun ty => (dBool (mdf r.md 0 1)).bind fun sat => some (.imadLong r.ctl d a b x ty sat)
    | .literal => (dDst r.d).bind fun d => (dSrc r.a).bind fun a => (some r.lit).bind fun lit => (dSrc r.c).bind fun x => (dTy r.ty).bind fun ty => (dBool (mdf r.md 0 1)).bind fun sat => some (.imadLiteral r.ctl d a lit x ty sat)
    | _ => none
  | .idiv => match r.form with
    | .compact => (r.compact).map fun q => .idivCompact r.ctl.stall q.1 q.2.1 q.2.2
    | .long => (dDst r.d).bind fun d => (dSrc r.a).bind fun a => (dOpB r).bind fun b => (dTy r.ty).bind fun ty => some (.idivLong r.ctl d a b ty)
    | .literal => (dDst r.d).bind fun d => (dSrc r.a).bind fun a => (some r.lit).bind fun lit => (dTy r.ty).bind fun ty => some (.idivLiteral r.ctl d a lit ty)
  | .irem => match r.form with
    | .compact => (r.compact).map fun q => .iremCompact r.ctl.stall q.1 q.2.1 q.2.2
    | .long => (dDst r.d).bind fun d => (dSrc r.a).bind fun a => (dOpB r).bind fun b => (dTy r.ty).bind fun ty => some (.iremLong r.ctl d a b ty)
    | .literal => (dDst r.d).bind fun d => (dSrc r.a).bind fun a => (some r.lit).bind fun lit => (dTy r.ty).bind fun ty => some (.iremLiteral r.ctl d a lit ty)
  | .imin => match r.form with
    | .compact => (r.compact).map fun q => .iminCompact r.ctl.stall q.1 q.2.1 q.2.2
    | .long => (dDst r.d).bind fun d => (dSrc r.a).bind fun a => (dOpB r).bind fun b => (dTy r.ty).bind fun ty => some (.iminLong r.ctl d a b ty)
    | .literal => (dDst r.d).bind fun d => (dSrc r.a).bind fun a => (some r.lit).bind fun lit => (dTy r.ty).bind fun ty => some (.iminLiteral r.ctl d a lit ty)
  | .imax => match r.form with
    | .compact => (r.compact).map fun q => .imaxCompact r.ctl.stall q.1 q.2.1 q.2.2
    | .long => (dDst r.d).bind fun d => (dSrc r.a).bind fun a => (dOpB r).bind fun b => (dTy r.ty).bind fun ty => some (.imaxLong r.ctl d a b ty)
    | .literal => (dDst r.d).bind fun d => (dSrc r.a).bind fun a => (some r.lit).bind fun lit => (dTy r.ty).bind fun ty => some (.imaxLiteral r.ctl d a lit ty)
  | .iabs => (dDst r.d).bind fun d => (dSrc r.a).bind fun a => (dTy r.ty).bind fun ty => (dBool (mdf r.md 0 1)).bind fun sat => some (.iabs r.ctl d a ty sat)
  | .ineg => (dDst r.d).bind fun d => (dSrc r.a).bind fun a => (dTy r.ty).bind fun ty => (dBool (mdf r.md 0 1)).bind fun sat => some (.ineg r.ctl d a ty sat)
  | .iaddc => match r.form with
    | .long => (dDst r.d).bind fun d => (dSrc r.a).bind fun a => (dOpB r).bind fun b => (dTy r.ty).bind fun ty => (dFin 8 (mdf r.md 0 3)).bind fun qc => some (.iaddcLong r.ctl d a b ty qc)
    | .literal => (dDst r.d).bind fun d => (dSrc r.a).bind fun a => (some r.lit).bind fun lit => (dTy r.ty).bind fun ty => (dFin 8 (mdf r.md 0 3)).bind fun qc => some (.iaddcLiteral r.ctl d a lit ty qc)
    | _ => none
  | .isubb => match r.form with
    | .long => (dDst r.d).bind fun d => (dSrc r.a).bind fun a => (dOpB r).bind fun b => (dTy r.ty).bind fun ty => (dFin 8 (mdf r.md 0 3)).bind fun qc => some (.isubbLong r.ctl d a b ty qc)
    | .literal => (dDst r.d).bind fun d => (dSrc r.a).bind fun a => (some r.lit).bind fun lit => (dTy r.ty).bind fun ty => (dFin 8 (mdf r.md 0 3)).bind fun qc => some (.isubbLiteral r.ctl d a lit ty qc)
    | _ => none
  | .idot4 => match r.form with
    | .long => (dDst r.d).bind fun d => (dSrc r.a).bind fun a => (dSrc r.b).bind fun b => (dSrc r.c).bind fun x => (dTy r.ty).bind fun ty => (dBool (mdf r.md 0 1)).bind fun sat => some (.idot4Long r.ctl d a b x ty sat)
    | .literal => (dDst r.d).bind fun d => (dSrc r.a).bind fun a => (some r.lit).bind fun lit => (dSrc r.c).bind fun x => (dTy r.ty).bind fun ty => (dBool (mdf r.md 0 1)).bind fun sat => some (.idot4Literal r.ctl d a lit x ty sat)
    | _ => none
  | .andOp => match r.form with
    | .compact => (r.compact).map fun q => .andCompact r.ctl.stall q.1 q.2.1 q.2.2
    | .long => (dDst r.d).bind fun d => (dSrc r.a).bind fun a => (dOpB r).bind fun b => (dTy r.ty).bind fun ty => some (.andLong r.ctl d a b ty)
    | .literal => (dDst r.d).bind fun d => (dSrc r.a).bind fun a => (some r.lit).bind fun lit => (dTy r.ty).bind fun ty => some (.andLiteral r.ctl d a lit ty)
  | .orOp => match r.form with
    | .compact => (r.compact).map fun q => .orCompact r.ctl.stall q.1 q.2.1 q.2.2
    | .long => (dDst r.d).bind fun d => (dSrc r.a).bind fun a => (dOpB r).bind fun b => (dTy r.ty).bind fun ty => some (.orLong r.ctl d a b ty)
    | .literal => (dDst r.d).bind fun d => (dSrc r.a).bind fun a => (some r.lit).bind fun lit => (dTy r.ty).bind fun ty => some (.orLiteral r.ctl d a lit ty)
  | .xorOp => match r.form with
    | .compact => (r.compact).map fun q => .xorCompact r.ctl.stall q.1 q.2.1 q.2.2
    | .long => (dDst r.d).bind fun d => (dSrc r.a).bind fun a => (dOpB r).bind fun b => (dTy r.ty).bind fun ty => some (.xorLong r.ctl d a b ty)
    | .literal => (dDst r.d).bind fun d => (dSrc r.a).bind fun a => (some r.lit).bind fun lit => (dTy r.ty).bind fun ty => some (.xorLiteral r.ctl d a lit ty)
  | .lop3 => match r.form with
    | .long => (dDst r.d).bind fun d => (dSrc r.a).bind fun a => (dSrc r.b).bind fun b => (dSrc r.c).bind fun x => (dTy r.ty).bind fun ty => (dFin 256 (mdf r.md 0 8)).bind fun tbl => some (.lop3Long r.ctl d a b x ty tbl)
    | .literal => (dDst r.d).bind fun d => (dSrc r.a).bind fun a => (some r.lit).bind fun lit => (dSrc r.c).bind fun x => (dTy r.ty).bind fun ty => (dFin 256 (mdf r.md 0 8)).bind fun tbl => some (.lop3Literal r.ctl d a lit x ty tbl)
    | _ => none
  | .shl => match r.form with
    | .compact => (r.compact).map fun q => .shlCompact r.ctl.stall q.1 q.2.1 q.2.2
    | .long => (dDst r.d).bind fun d => (dSrc r.a).bind fun a => (dOpB r).bind fun b => (dTy r.ty).bind fun ty => some (.shlLong r.ctl d a b ty)
    | .literal => (dDst r.d).bind fun d => (dSrc r.a).bind fun a => (some r.lit).bind fun lit => (dTy r.ty).bind fun ty => some (.shlLiteral r.ctl d a lit ty)
  | .shr => match r.form with
    | .compact => (r.compact).map fun q => .shrCompact r.ctl.stall q.1 q.2.1 q.2.2
    | .long => (dDst r.d).bind fun d => (dSrc r.a).bind fun a => (dOpB r).bind fun b => (dTy r.ty).bind fun ty => some (.shrLong r.ctl d a b ty)
    | .literal => (dDst r.d).bind fun d => (dSrc r.a).bind fun a => (some r.lit).bind fun lit => (dTy r.ty).bind fun ty => some (.shrLiteral r.ctl d a lit ty)
  | .shra => match r.form with
    | .compact => (r.compact).map fun q => .shraCompact r.ctl.stall q.1 q.2.1 q.2.2
    | .long => (dDst r.d).bind fun d => (dSrc r.a).bind fun a => (dOpB r).bind fun b => (dTy r.ty).bind fun ty => some (.shraLong r.ctl d a b ty)
    | .literal => (dDst r.d).bind fun d => (dSrc r.a).bind fun a => (some r.lit).bind fun lit => (dTy r.ty).bind fun ty => some (.shraLiteral r.ctl d a lit ty)
  | .rot => match r.form with
    | .compact => (r.compact).map fun q => .rotCompact r.ctl.stall q.1 q.2.1 q.2.2
    | .long => (dDst r.d).bind fun d => (dSrc r.a).bind fun a => (dOpB r).bind fun b => (dTy r.ty).bind fun ty => some (.rotLong r.ctl d a b ty)
    | .literal => (dDst r.d).bind fun d => (dSrc r.a).bind fun a => (some r.lit).bind fun lit => (dTy r.ty).bind fun ty => some (.rotLiteral r.ctl d a lit ty)
  | .popc => (dDst r.d).bind fun d => (dSrc r.a).bind fun a => (dTy r.ty).bind fun ty => some (.popc r.ctl d a ty)
  | .clz => (dDst r.d).bind fun d => (dSrc r.a).bind fun a => (dTy r.ty).bind fun ty => some (.clz r.ctl d a ty)
  | .ctz => (dDst r.d).bind fun d => (dSrc r.a).bind fun a => (dTy r.ty).bind fun ty => some (.ctz r.ctl d a ty)
  | .brev => (dDst r.d).bind fun d => (dSrc r.a).bind fun a => (dTy r.ty).bind fun ty => some (.brev r.ctl d a ty)
  | .bfx => match r.form with
    | .long => (dDst r.d).bind fun d => (dSrc r.a).bind fun a => (dOpB r).bind fun b => (dTy r.ty).bind fun ty => some (.bfxLong r.ctl d a b ty)
    | .literal => (dDst r.d).bind fun d => (dSrc r.a).bind fun a => (some r.lit).bind fun lit => (dTy r.ty).bind fun ty => some (.bfxLiteral r.ctl d a lit ty)
    | _ => none
  | .bfi => match r.form with
    | .long => (dDst r.d).bind fun d => (dSrc r.a).bind fun a => (dSrc r.b).bind fun b => (dSrc r.c).bind fun x => (dTy r.ty).bind fun ty => some (.bfiLong r.ctl d a b x ty)
    | .literal => (dDst r.d).bind fun d => (dSrc r.a).bind fun a => (some r.lit).bind fun lit => (dSrc r.c).bind fun x => (dTy r.ty).bind fun ty => some (.bfiLiteral r.ctl d a lit x ty)
    | _ => none
  | .prmt => match r.form with
    | .long => (dDst r.d).bind fun d => (dSrc r.a).bind fun a => (dSrc r.b).bind fun b => (dSrc r.c).bind fun x => some (.prmtLong r.ctl d a b x)
    | .literal => (dDst r.d).bind fun d => (dSrc r.a).bind fun a => (some r.lit).bind fun lit => (dSrc r.c).bind fun x => some (.prmtLiteral r.ctl d a lit x)
    | _ => none
  | .icmp => match r.form with
    | .long => (dPred r.d).bind fun q => (dSrc r.a).bind fun a => (dOpB r).bind fun b => (dTy r.ty).bind fun ty => (dICond (mdf r.md 0 4)).bind fun cond => (dForm (mdf r.md 4 2)).bind fun form => some (.icmpLong r.ctl q a b ty cond form)
    | .literal => (dPred r.d).bind fun q => (dSrc r.a).bind fun a => (some r.lit).bind fun lit => (dTy r.ty).bind fun ty => (dICond (mdf r.md 0 4)).bind fun cond => (dForm (mdf r.md 4 2)).bind fun form => some (.icmpLiteral r.ctl q a lit ty cond form)
    | _ => none
  | .fcmp => match r.form with
    | .long => (dPred r.d).bind fun q => (dSrc r.a).bind fun a => (dOpB r).bind fun b => (dTy r.ty).bind fun ty => (dFCond (mdf r.md 0 4)).bind fun cond => (dForm (mdf r.md 4 2)).bind fun form => some (.fcmpLong r.ctl q a b ty cond form)
    | .literal => (dPred r.d).bind fun q => (dSrc r.a).bind fun a => (some r.lit).bind fun lit => (dTy r.ty).bind fun ty => (dFCond (mdf r.md 0 4)).bind fun cond => (dForm (mdf r.md 4 2)).bind fun form => some (.fcmpLiteral r.ctl q a lit ty cond form)
    | _ => none
  | .fclass => (dPred r.d).bind fun q => (dSrc r.a).bind fun a => (dSrc r.b).bind fun b => (dTy r.ty).bind fun ty => (dForm (mdf r.md 4 2)).bind fun form => some (.fclass r.ctl q a b ty form)
  | .sel => match r.form with
    | .compact => (r.compact).map fun q => .selCompact r.ctl.stall q.1 q.2.1 q.2.2
    | .long => (dDst r.d).bind fun d => (dSrc r.a).bind fun a => (dOpB r).bind fun b => (dTy r.ty).bind fun ty => (dFin 8 (mdf r.md 0 3)).bind fun qs => (dBool (mdf r.md 3 1)).bind fun neg => some (.selLong r.ctl d a b ty qs neg)
    | .literal => (dDst r.d).bind fun d => (dSrc r.a).bind fun a => (some r.lit).bind fun lit => (dTy r.ty).bind fun ty => (dFin 8 (mdf r.md 0 3)).bind fun qs => (dBool (mdf r.md 3 1)).bind fun neg => some (.selLiteral r.ctl d a lit ty qs neg)
  | .plop => (dPred r.d).bind fun q => (dPred r.a).bind fun qa => (dPred r.b).bind fun qb => (dPop (mdf r.md 0 2)).bind fun op => (dBool (mdf r.md 2 1)).bind fun na => (dBool (mdf r.md 3 1)).bind fun nb => some (.plop r.ctl q qa qb op na nb)
  | .ptog => (dDst r.d).bind fun d => some (.ptog r.ctl d)
  | .gtop => (dSrc r.a).bind fun a => (dFin 128 (mdf r.md 0 7)).bind fun mask => some (.gtop r.ctl a mask)
  | .mov => match r.form with
    | .long => (dDst r.d).bind fun d => (dOpB r).bind fun b => (dTy r.ty).bind fun ty => some (.movLong r.ctl d b ty)
    | .literal => (dDst r.d).bind fun d => (some r.lit).bind fun lit => (dTy r.ty).bind fun ty => some (.movLiteral r.ctl d lit ty)
    | _ => none
  | .movw => match r.form with
    | .long => (dWreg r.d).bind fun d => (dOpB r).bind fun b => (dTy r.ty).bind fun ty => some (.movwLong r.ctl d b ty)
    | .literal => (dWreg r.d).bind fun d => (some r.lit).bind fun lit => (dTy r.ty).bind fun ty => some (.movwLiteral r.ctl d lit ty)
    | _ => none
  | .wmov => (dWreg r.d).bind fun d => (dSrc r.a).bind fun a => (dSrc r.b).bind fun b => some (.wmov r.ctl d a b)
  | .fadd => match r.form with
    | .compact => (r.compact).map fun q => .faddCompact r.ctl.stall q.1 q.2.1 q.2.2
    | .long => (dDst r.d).bind fun d => (dSrc r.a).bind fun a => (dOpB r).bind fun b => (dTy r.ty).bind fun ty => (dRnd (mdf r.md 7 3)).bind fun rnd => some (.faddLong r.ctl d a b ty rnd)
    | .literal => (dDst r.d).bind fun d => (dSrc r.a).bind fun a => (some r.lit).bind fun lit => (dTy r.ty).bind fun ty => (dRnd (mdf r.md 7 3)).bind fun rnd => some (.faddLiteral r.ctl d a lit ty rnd)
  | .fsub => match r.form with
    | .compact => (r.compact).map fun q => .fsubCompact r.ctl.stall q.1 q.2.1 q.2.2
    | .long => (dDst r.d).bind fun d => (dSrc r.a).bind fun a => (dOpB r).bind fun b => (dTy r.ty).bind fun ty => (dRnd (mdf r.md 7 3)).bind fun rnd => some (.fsubLong r.ctl d a b ty rnd)
    | .literal => (dDst r.d).bind fun d => (dSrc r.a).bind fun a => (some r.lit).bind fun lit => (dTy r.ty).bind fun ty => (dRnd (mdf r.md 7 3)).bind fun rnd => some (.fsubLiteral r.ctl d a lit ty rnd)
  | .fmul => match r.form with
    | .compact => (r.compact).map fun q => .fmulCompact r.ctl.stall q.1 q.2.1 q.2.2
    | .long => (dDst r.d).bind fun d => (dSrc r.a).bind fun a => (dOpB r).bind fun b => (dTy r.ty).bind fun ty => (dRnd (mdf r.md 7 3)).bind fun rnd => some (.fmulLong r.ctl d a b ty rnd)
    | .literal => (dDst r.d).bind fun d => (dSrc r.a).bind fun a => (some r.lit).bind fun lit => (dTy r.ty).bind fun ty => (dRnd (mdf r.md 7 3)).bind fun rnd => some (.fmulLiteral r.ctl d a lit ty rnd)
  | .ffma => match r.form with
    | .long => (dDst r.d).bind fun d => (dSrc r.a).bind fun a => (dSrc r.b).bind fun b => (dSrc r.c).bind fun x => (dTy r.ty).bind fun ty => (dRnd (mdf r.md 7 3)).bind fun rnd => some (.ffmaLong r.ctl d a b x ty rnd)
    | .literal => (dDst r.d).bind fun d => (dSrc r.a).bind fun a => (some r.lit).bind fun lit => (dSrc r.c).bind fun x => (dTy r.ty).bind fun ty => (dRnd (mdf r.md 7 3)).bind fun rnd => some (.ffmaLiteral r.ctl d a lit x ty rnd)
    | _ => none
  | .fmin => match r.form with
    | .compact => (r.compact).map fun q => .fminCompact r.ctl.stall q.1 q.2.1 q.2.2
    | .long => (dDst r.d).bind fun d => (dSrc r.a).bind fun a => (dOpB r).bind fun b => (dTy r.ty).bind fun ty => (dBool (mdf r.md 0 1)).bind fun nan => some (.fminLong r.ctl d a b ty nan)
    | .literal => (dDst r.d).bind fun d => (dSrc r.a).bind fun a => (some r.lit).bind fun lit => (dTy r.ty).bind fun ty => (dBool (mdf r.md 0 1)).bind fun nan => some (.fminLiteral r.ctl d a lit ty nan)
  | .fmax => match r.form with
    | .compact => (r.compact).map fun q => .fmaxCompact r.ctl.stall q.1 q.2.1 q.2.2
    | .long => (dDst r.d).bind fun d => (dSrc r.a).bind fun a => (dOpB r).bind fun b => (dTy r.ty).bind fun ty => (dBool (mdf r.md 0 1)).bind fun nan => some (.fmaxLong r.ctl d a b ty nan)
    | .literal => (dDst r.d).bind fun d => (dSrc r.a).bind fun a => (some r.lit).bind fun lit => (dTy r.ty).bind fun ty => (dBool (mdf r.md 0 1)).bind fun nan => some (.fmaxLiteral r.ctl d a lit ty nan)
  | .fabs => (dDst r.d).bind fun d => (dSrc r.a).bind fun a => (dTy r.ty).bind fun ty => some (.fabs r.ctl d a ty)
  | .fneg => (dDst r.d).bind fun d => (dSrc r.a).bind fun a => (dTy r.ty).bind fun ty => some (.fneg r.ctl d a ty)
  | .fdiv => match r.form with
    | .compact => (r.compact).map fun q => .fdivCompact r.ctl.stall q.1 q.2.1 q.2.2
    | .long => (dDst r.d).bind fun d => (dSrc r.a).bind fun a => (dOpB r).bind fun b => (dTy r.ty).bind fun ty => (dRnd (mdf r.md 7 3)).bind fun rnd => some (.fdivLong r.ctl d a b ty rnd)
    | .literal => (dDst r.d).bind fun d => (dSrc r.a).bind fun a => (some r.lit).bind fun lit => (dTy r.ty).bind fun ty => (dRnd (mdf r.md 7 3)).bind fun rnd => some (.fdivLiteral r.ctl d a lit ty rnd)
  | .fsqrt => (dDst r.d).bind fun d => (dSrc r.a).bind fun a => (dTy r.ty).bind fun ty => (dRnd (mdf r.md 7 3)).bind fun rnd => some (.fsqrt r.ctl d a ty rnd)
  | .frcp => (dDst r.d).bind fun d => (dSrc r.a).bind fun a => (dTy r.ty).bind fun ty => (dRnd (mdf r.md 7 3)).bind fun rnd => some (.frcp r.ctl d a ty rnd)
  | .frsq => (dDst r.d).bind fun d => (dSrc r.a).bind fun a => (dTy r.ty).bind fun ty => (dRnd (mdf r.md 7 3)).bind fun rnd => some (.frsq r.ctl d a ty rnd)
  | .fscl => match r.form with
    | .long => (dDst r.d).bind fun d => (dSrc r.a).bind fun a => (dOpB r).bind fun b => (dTy r.ty).bind fun ty => (dRnd (mdf r.md 7 3)).bind fun rnd => some (.fsclLong r.ctl d a b ty rnd)
    | .literal => (dDst r.d).bind fun d => (dSrc r.a).bind fun a => (some r.lit).bind fun lit => (dTy r.ty).bind fun ty => (dRnd (mdf r.md 7 3)).bind fun rnd => some (.fsclLiteral r.ctl d a lit ty rnd)
    | _ => none
  | .frnd => (dDst r.d).bind fun d => (dSrc r.a).bind fun a => (dTy r.ty).bind fun ty => (dRnd (mdf r.md 7 3)).bind fun rnd => some (.frnd r.ctl d a ty rnd)
  | .fdot => match r.form with
    | .long => (dDst r.d).bind fun d => (dSrc r.a).bind fun a => (dSrc r.b).bind fun b => (dSrc r.c).bind fun x => (dTy r.ty).bind fun ty => (dRnd (mdf r.md 7 3)).bind fun rnd => some (.fdotLong r.ctl d a b x ty rnd)
    | .literal => (dDst r.d).bind fun d => (dSrc r.a).bind fun a => (some r.lit).bind fun lit => (dSrc r.c).bind fun x => (dTy r.ty).bind fun ty => (dRnd (mdf r.md 7 3)).bind fun rnd => some (.fdotLiteral r.ctl d a lit x ty rnd)
    | _ => none
  | .fsum => (dDst r.d).bind fun d => (dSrc r.a).bind fun a => (dTy r.ty).bind fun ty => (dRnd (mdf r.md 7 3)).bind fun rnd => some (.fsum r.ctl d a ty rnd)
  | .fex2 => (dDst r.d).bind fun d => (dSrc r.a).bind fun a => (dTy r.ty).bind fun ty => (dRnd (mdf r.md 7 3)).bind fun rnd => some (.fex2 r.ctl d a ty rnd)
  | .flg2 => (dDst r.d).bind fun d => (dSrc r.a).bind fun a => (dTy r.ty).bind fun ty => (dRnd (mdf r.md 7 3)).bind fun rnd => some (.flg2 r.ctl d a ty rnd)
  | .fsin => (dDst r.d).bind fun d => (dSrc r.a).bind fun a => (dTy r.ty).bind fun ty => (dRnd (mdf r.md 7 3)).bind fun rnd => some (.fsin r.ctl d a ty rnd)
  | .fcos => (dDst r.d).bind fun d => (dSrc r.a).bind fun a => (dTy r.ty).bind fun ty => (dRnd (mdf r.md 7 3)).bind fun rnd => some (.fcos r.ctl d a ty rnd)
  | .ftnh => (dDst r.d).bind fun d => (dSrc r.a).bind fun a => (dTy r.ty).bind fun ty => (dRnd (mdf r.md 7 3)).bind fun rnd => some (.ftnh r.ctl d a ty rnd)
  | .cvt => (dDst r.d).bind fun d => (dSrc r.a).bind fun a => (dTy r.ty).bind fun ty => (dTyN (mdf r.md 0 4)).bind fun ts => (dRnd (mdf r.md 7 3)).bind fun rnd => some (.cvt r.ctl d a ty ts rnd)
  | .pack => (dDst r.d).bind fun d => (dSrc r.a).bind fun a => (dSrc r.b).bind fun b => (dSrc r.c).bind fun x => (dTy r.ty).bind fun ty => (dTyN (mdf r.md 0 4)).bind fun ts => (dRnd (mdf r.md 7 3)).bind fun rnd => some (.pack r.ctl d a b x ty ts rnd)
  | .unpk => (dDst r.d).bind fun d => (dSrc r.a).bind fun a => (dSrc r.b).bind fun b => (dTy r.ty).bind fun ty => (dTyN (mdf r.md 0 4)).bind fun ts => (dRnd (mdf r.md 7 3)).bind fun rnd => some (.unpk r.ctl d a b ty ts rnd)
  | .qblk => (dG8 r.d).bind fun d => (dG r.a).bind fun a => (dOptG r.b).bind fun b => (dTy r.ty).bind fun ty => (dRnd (mdf r.md 7 3)).bind fun rnd => some (.qblk r.ctl d a b ty rnd)
  | .dqblk => (dDst r.d).bind fun d => (dG8 r.a).bind fun a => (dSrc r.b).bind fun b => (dTy r.ty).bind fun ty => (dRnd (mdf r.md 7 3)).bind fun rnd => some (.dqblk r.ctl d a b ty rnd)
  | .rng => (dDst r.d).bind fun d => (dSrc r.a).bind fun a => (dKey r).bind fun key => (dTy r.ty).bind fun ty => some (.rng r.ctl d a key ty)
  | .rngg => (dDst r.d).bind fun d => (dSrc r.a).bind fun a => (dKey r).bind fun key => (dTy r.ty).bind fun ty => some (.rngg r.ctl d a key ty)
  | .shfl => (dDst r.d).bind fun d => (dSrc r.a).bind fun a => (dSrc r.b).bind fun b => (dSrc r.c).bind fun x => (dTy r.ty).bind fun ty => (dFin 8 (mdf r.md 0 3)).bind fun qd => some (.shfl r.ctl d a b x ty qd)
  | .bcst => (dDst r.d).bind fun d => (dSrc r.a).bind fun a => (dOpB r).bind fun b => some (.bcst r.ctl d a b)
  | .vote => (dDst r.d).bind fun d => (dPred r.c).bind fun q => (dFin 8 (mdf r.md 0 3)).bind fun qs => (dBool (mdf r.md 3 1)).bind fun neg => (dVote (mdf r.md 4 2)).bind fun mode => some (.vote r.ctl d q qs neg mode)
  | .wred => (dDst r.d).bind fun d => (dSrc r.a).bind fun a => (dSrc r.b).bind fun b => (dTy r.ty).bind fun ty => (dRop (mdf r.md 0 3)).bind fun op => (dRnd (mdf r.md 7 3)).bind fun rnd => some (.wred r.ctl d a b ty op rnd)
  | .wscan => (dDst r.d).bind fun d => (dSrc r.a).bind fun a => (dSrc r.b).bind fun b => (dTy r.ty).bind fun ty => (dRop (mdf r.md 0 3)).bind fun op => (dBool (mdf r.md 3 1)).bind fun excl => (dRnd (mdf r.md 7 3)).bind fun rnd => some (.wscan r.ctl d a b ty op excl rnd)
  | .matchI => (dDst r.d).bind fun d => (dSrc r.a).bind fun a => (dTy r.ty).bind fun ty => some (.matchI r.ctl d a ty)
  | .elect => (dDst r.d).bind fun d => (dPred r.c).bind fun q => some (.elect r.ctl d q)
  | .bra => match r.form with
    | .long => (some (dImm r)).bind fun imm => some (.braLong r.ctl imm)
    | .literal => (some r.lit).bind fun lit => some (.braLiteral r.ctl lit)
    | _ => none
  | .brx => (dSrc r.a).bind fun a => some (.brx r.ctl a)
  | .call => match r.form with
    | .long => (dDst r.d).bind fun d => (some (dImm r)).bind fun imm => some (.callLong r.ctl d imm)
    | .literal => (dDst r.d).bind fun d => (some r.lit).bind fun lit => some (.callLiteral r.ctl d lit)
    | _ => none
  | .callx => (dDst r.d).bind fun d => (dSrc r.a).bind fun a => some (.callx r.ctl d a)
  | .ret => (dSrc r.a).bind fun a => some (.ret r.ctl a)
  | .meetI => match r.form with
    | .long => (dMeet r).bind fun m => some (.meetLong r.ctl m)
    | .literal => (some r.lit).bind fun lit => some (.meetLiteral r.ctl lit)
    | _ => none
  | .leave => match r.form with
    | .long => (dSrc r.a).bind fun a => (some (dImm r)).bind fun imm => some (.leaveLong r.ctl a imm)
    | .literal => (dSrc r.a).bind fun a => (some r.lit).bind fun lit => some (.leaveLiteral r.ctl a lit)
    | _ => none
  | .land => some (.land r.ctl)
  | .exit => some (.exit r.ctl)
  | .trap => (some (dImm r)).bind fun imm => some (.trap r.ctl imm)
  | .nop => some (.nop r.ctl)
  | .yield => some (.yield r.ctl)
  | .sleep => (dSrc r.a).bind fun a => some (.sleep r.ctl a)
  | .brkpt => some (.brkpt r.ctl)
  | .ld => (dDst r.d).bind fun d => (dSrc r.a).bind fun a => (some (dImm r)).bind fun imm => (dMTy r).bind fun ty => some (.ld r.ctl d a imm ty)
  | .st => (dSrc r.d).bind fun d => (dSrc r.a).bind fun a => (some (dImm r)).bind fun imm => (dMTy r).bind fun ty => some (.st r.ctl d a imm ty)
  | .pref => (dSrc r.a).bind fun a => (some (dImm r)).bind fun imm => (dExt (mdf r.md 1 2)).bind fun ext => (dBool (mdf r.md 0 1)).bind fun l2 => some (.pref r.ctl a imm ext l2)
  | .ldl => (dDst r.d).bind fun d => (dSrc r.a).bind fun a => (some (dImm r)).bind fun imm => (dMTy r).bind fun ty => (dTag (mdf r.md 8 2)).bind fun tag => some (.ldl r.ctl d a imm ty tag)
  | .stl => (dSrc r.d).bind fun d => (dSrc r.a).bind fun a => (some (dImm r)).bind fun imm => (dMTy r).bind fun ty => (dBool (mdf r.md 8 2)).bind fun we => some (.stl r.ctl d a imm ty we)
  | .lds => (dDst r.d).bind fun d => (dSrc r.a).bind fun a => (some (dImm r)).bind fun imm => (dMTy r).bind fun ty => (dTag (mdf r.md 8 2)).bind fun tag => (dBool (mdf r.md 6 2)).bind fun die => some (.lds r.ctl d a imm ty tag die)
  | .sts => (dSrc r.d).bind fun d => (dSrc r.a).bind fun a => (some (dImm r)).bind fun imm => (dMTy r).bind fun ty => (dBool (mdf r.md 8 2)).bind fun we => (dBool (mdf r.md 6 2)).bind fun die => some (.sts r.ctl d a imm ty we die)
  | .ldc => (dDst r.d).bind fun d => (dSrc r.a).bind fun a => (some (dImm r)).bind fun imm => (dMTy r).bind fun ty => (dTag (mdf r.md 8 2)).bind fun tag => some (.ldc r.ctl d a imm ty tag)
  | .stc => (dSrc r.d).bind fun d => (dSrc r.a).bind fun a => (some (dImm r)).bind fun imm => (dMTy r).bind fun ty => (dBool (mdf r.md 8 2)).bind fun we => some (.stc r.ctl d a imm ty we)
  | .feset => (dSrc r.a).bind fun a => (some (dImm r)).bind fun imm => (dSpace (mdf r.md 6 2)).bind fun space => some (.feset r.ctl a imm space)
  | .feclr => (dSrc r.a).bind fun a => (some (dImm r)).bind fun imm => (dSpace (mdf r.md 6 2)).bind fun space => some (.feclr r.ctl a imm space)
  | .fetest => (dPred r.d).bind fun q => (dSrc r.a).bind fun a => (some (dImm r)).bind fun imm => (dSpace (mdf r.md 6 2)).bind fun space => some (.fetest r.ctl q a imm space)
  | .lr => (dDst r.d).bind fun d => (dSrc r.a).bind fun a => (some (dImm r)).bind fun imm => (dTy r.ty).bind fun ty => some (.lr r.ctl d a imm ty)
  | .sc => (dSrc r.d).bind fun d => (dSrc r.a).bind fun a => (some (dImm r)).bind fun imm => (dTy r.ty).bind fun ty => (dFin 8 (mdf r.md 0 3)).bind fun qd => some (.sc r.ctl d a imm ty qd)
  | .atom => (dDst r.d).bind fun d => (dSrc r.a).bind fun a => (dSrc r.b).bind fun b => (dAop (mdf r.md 0 4)).bind fun op => (dTy r.ty).bind fun ty => some (.atom r.ctl d a b op ty)
  | .cas => (dDst r.d).bind fun d => (dSrc r.a).bind fun a => (dSrc r.b).bind fun b => (dSrc r.c).bind fun x => (dTy r.ty).bind fun ty => some (.cas r.ctl d a b x ty)
  | .red => (dSrc r.a).bind fun a => (dSrc r.b).bind fun b => (dAop (mdf r.md 0 4)).bind fun op => (dTy r.ty).bind fun ty => some (.red r.ctl a b op ty)
  | .atoms => (dDst r.d).bind fun d => (dSrc r.a).bind fun a => (dSrc r.b).bind fun b => (dAop (mdf r.md 0 4)).bind fun op => (dBool (mdf r.md 6 2)).bind fun die => (dTy r.ty).bind fun ty => some (.atoms r.ctl d a b op die ty)
  | .cass => (dDst r.d).bind fun d => (dSrc r.a).bind fun a => (dSrc r.b).bind fun b => (dSrc r.c).bind fun x => (dBool (mdf r.md 6 2)).bind fun die => (dTy r.ty).bind fun ty => some (.cass r.ctl d a b x die ty)
  | .reds => (dSrc r.a).bind fun a => (dSrc r.b).bind fun b => (dAop (mdf r.md 0 4)).bind fun op => (dBool (mdf r.md 6 2)).bind fun die => (dTy r.ty).bind fun ty => some (.reds r.ctl a b op die ty)
  | .fence => (dOrder (mdf r.md 3 3)).bind fun order => (dScope (mdf r.md 0 3)).bind fun scope => some (.fence r.ctl order scope)
  | .waitc => (dEcls (mdf r.md 0 3)).bind fun cls => (dFin 256 (mdf r.md 3 8)).bind fun n => some (.waitc r.ctl cls n)
  | .rsb => some (.rsb r.ctl)
  | .rse => some (.rse r.ctl)
  | .gpwait => some (.gpwait r.ctl)
  | .defer => (dPred r.c).bind fun q => (dSrc r.a).bind fun a => (dSrc r.b).bind fun b => (dBool (mdf r.md 0 1)).bind fun wt => some (.defer r.ctl q a b wt)
  | .alloc => (dPred r.c).bind fun q => (dDst r.d).bind fun d => (dSrc r.b).bind fun b => (dBool (mdf r.md 0 1)).bind fun wt => some (.alloc r.ctl q d b wt)
  | .free => (dPred r.c).bind fun q => (dSrc r.a).bind fun a => (dSrc r.b).bind fun b => some (.free r.ctl q a b)
  | .cpy => (dSrc r.a).bind fun a => (some (dImm r)).bind fun imm => some (.cpy r.ctl a imm)
  | .cpyz => (dSrc r.a).bind fun a => (some (dImm r)).bind fun imm => some (.cpyz r.ctl a imm)
  | .gath => (dSrc r.a).bind fun a => (some (dImm r)).bind fun imm => some (.gath r.ctl a imm)
  | .scat => (dSrc r.a).bind fun a => (some (dImm r)).bind fun imm => some (.scat r.ctl a imm)
  | .put => (dSrc r.a).bind fun a => (some (dImm r)).bind fun imm => some (.put r.ctl a imm)
  | .coll => (dSrc r.a).bind fun a => (some (dImm r)).bind fun imm => some (.coll r.ctl a imm)
  | .bkop => (dSrc r.a).bind fun a => (some (dImm r)).bind fun imm => (dBk (mdf r.md 0 2)).bind fun op => (dTy r.ty).bind fun ty => some (.bkop r.ctl a imm op ty)
  | .rowcp => (dSrc r.a).bind fun a => (some (dImm r)).bind fun imm => some (.rowcp r.ctl a imm)
  | .rowz => (dSrc r.a).bind fun a => (some (dImm r)).bind fun imm => some (.rowz r.ctl a imm)
  | .clean => (dSrc r.a).bind fun a => (some (dImm r)).bind fun imm => (dScope (mdf r.md 0 3)).bind fun scope => some (.clean r.ctl a imm scope)
  | .inval => (dSrc r.a).bind fun a => (some (dImm r)).bind fun imm => (dScope (mdf r.md 0 3)).bind fun scope => some (.inval r.ctl a imm scope)
  | .flush => (dSrc r.a).bind fun a => (some (dImm r)).bind fun imm => (dScope (mdf r.md 0 3)).bind fun scope => some (.flush r.ctl a imm scope)
  | .mxp => (dSrc r.a).bind fun a => (some (dImm r)).bind fun imm => some (.mxp r.ctl a imm)
  | .wbld => (dSrc r.a).bind fun a => (some (dImm r)).bind fun imm => some (.wbld r.ctl a imm)
  | .acz => (dSrc r.a).bind fun a => (some (dImm r)).bind fun imm => some (.acz r.ctl a imm)
  | .acld => (dSrc r.a).bind fun a => (some (dImm r)).bind fun imm => some (.acld r.ctl a imm)
  | .acdrn => (dSrc r.a).bind fun a => (some (dImm r)).bind fun imm => some (.acdrn r.ctl a imm)
  | .acchk => (dSrc r.a).bind fun a => (some (dImm r)).bind fun imm => some (.acchk r.ctl a imm)
  | .pin => (dPred r.d).bind fun q => (dSrc r.a).bind fun a => (some (dImm r)).bind fun imm => (dFin 4 (mdf r.md 0 2)).bind fun t => some (.pin r.ctl q a imm t)
  | .unpin => (dSrc r.a).bind fun a => (some (dImm r)).bind fun imm => some (.unpin r.ctl a imm)
  | .hint => (dSrc r.a).bind fun a => (some (dImm r)).bind fun imm => (dFin 3 (mdf r.md 0 2)).bind fun t => some (.hint r.ctl a imm t)
  | .migr => (dPred r.d).bind fun q => (dSrc r.a).bind fun a => (some (dImm r)).bind fun imm => (dFin 3 (mdf r.md 0 2)).bind fun t => some (.migr r.ctl q a imm t)
  | .taff => (dSrc r.a).bind fun a => (some (dImm r)).bind fun imm => (dFin 4 (mdf r.md 0 2)).bind fun aff => some (.taff r.ctl a imm aff)
  | .probe => (dDst r.d).bind fun d => (dSrc r.a).bind fun a => (some (dImm r)).bind fun imm => some (.probe r.ctl d a imm)
  | .tlbi => (dTlbi r).bind fun m => some (.tlbi r.ctl m)
  | .tlbsync => some (.tlbsync r.ctl)
  | .launch => (dPred r.d).bind fun q => (dSrc r.a).bind fun a => some (.launch r.ctl q a)
  | .cwait => (dPred r.c).bind fun q => (dSrc r.a).bind fun a => (dSrc r.b).bind fun b => some (.cwait r.ctl q a b)
  | .cancel => (dCk (mdf r.md 0 2)).bind fun kind => (dSrc r.a).bind fun a => some (.cancel r.ctl kind a)
  | .reord => (dSrc r.a).bind fun a => (dSrc r.b).bind fun b => (dSrc r.c).bind fun x => some (.reord r.ctl a b x)
  | .svc => (some (dImm r)).bind fun imm => some (.svc r.ctl imm)
  | .srd => (dDst r.d).bind fun d => (dFin 256 (mdf r.md 0 8)).bind fun num => some (.srd r.ctl d num)
  | .swr => (dFin 256 (mdf r.md 0 8)).bind fun num => (dSrc r.a).bind fun a => some (.swr r.ctl num a)
  | .eret => (dBool (mdf r.md 0 1)).bind fun sub => some (.eret r.ctl sub)
  | .hvc => (some (dImm r)).bind fun imm => some (.hvc r.ctl imm)
  | .sec => (some (dImm r)).bind fun imm => some (.sec r.ctl imm)

/-- A word's fields for an instruction of the 64-bit or 96-bit form whose operands are not filled in yet. -/
def rawBase (o : Op) (f : Form) (k : Ctl) : Raw :=
  { form := f, stall := k.stall.val, cls := o.cell.1, fn := o.cell.2, gp := k.gp.val, gn := eBool k.gn }

/-- A word's fields for a compact instruction (R271). -/
def rawCompact (o : Op) (st : Fin 8) (d a b : Fin 64) : Raw :=
  { form := .compact, stall := st.val, cls := o.cell.1, fn := o.cell.2, d := d.val, a := a.val, b := b.val }

/-- The fields of the word that stands for an instruction; a field not listed holds what R274 requires of an unused field.
None for a device step. -/
def toRaw : Instr → Option Raw
  | .iaddCompact st d a b => some (rawCompact .iadd st d a b)
  | .iaddLong k d a b ty sat => some { rawBase .iadd .long k with d := eDst d, a := eSrc a, b := eOpBb b, c := eOpBc b, md := eOpBm b + eBool sat, ty := eTy ty }
  | .iaddLiteral k d a lit ty sat => some { rawBase .iadd .literal k with d := eDst d, a := eSrc a, lit := lit, ty := eTy ty, md := eBool sat }
  | .isubCompact st d a b => some (rawCompact .isub st d a b)
  | .isubLong k d a b ty sat => some { rawBase .isub .long k with d := eDst d, a := eSrc a, b := eOpBb b, c := eOpBc b, md := eOpBm b + eBool sat, ty := eTy ty }
  | .isubLiteral k d a lit ty sat => some { rawBase .isub .literal k with d := eDst d, a := eSrc a, lit := lit, ty := eTy ty, md := eBool sat }
  | .imulCompact st d a b => some (rawCompact .imul st d a b)
  | .imulLong k d a b ty sat => some { rawBase .imul .long k with d := eDst d, a := eSrc a, b := eOpBb b, c := eOpBc b, md := eOpBm b + eBool sat, ty := eTy ty }
  | .imulLiteral k d a lit ty sat => some { rawBase .imul .literal k with d := eDst d, a := eSrc a, lit := lit, ty := eTy ty, md := eBool sat }
  | .imulhCompact st d a b => some (rawCompact .imulh st d a b)
  | .imulhLong k d a b ty => some { rawBase .imulh .long k with d := eDst d, a := eSrc a, b := eOpBb b, c := eOpBc b, md := eOpBm b, ty := eTy ty }
  | .imulhLiteral k d a lit ty => some { rawBase .imulh .literal k with d := eDst d, a := eSrc a, lit := lit, ty := eTy ty }
  | .imadLong k d a b x ty sat => some { rawBase .imad .long k with d := eDst d, a := eSrc a, b := eSrc b, c := eSrc x, ty := eTy ty, md := eBool sat }
  | .imadLiteral k d a lit x ty sat => some { rawBase .imad .literal k with d := eDst d, a := eSrc a, lit := lit, c := eSrc x, ty := eTy ty, md := eBool sat }
  | .idivCompact st d a b => some (rawCompact .idiv st d a b)
  | .idivLong k d a b ty => some { rawBase .idiv .long k with d := eDst d, a := eSrc a, b := eOpBb b, c := eOpBc b, md := eOpBm b, ty := eTy ty }
  | .idivLiteral k d a lit ty => some { rawBase .idiv .literal k with d := eDst d, a := eSrc a, lit := lit, ty := eTy ty }
  | .iremCompact st d a b => some (rawCompact .irem st d a b)
  | .iremLong k d a b ty => some { rawBase .irem .long k with d := eDst d, a := eSrc a, b := eOpBb b, c := eOpBc b, md := eOpBm b, ty := eTy ty }
  | .iremLiteral k d a lit ty => some { rawBase .irem .literal k with d := eDst d, a := eSrc a, lit := lit, ty := eTy ty }
  | .iminCompact st d a b => some (rawCompact .imin st d a b)
  | .iminLong k d a b ty => some { rawBase .imin .long k with d := eDst d, a := eSrc a, b := eOpBb b, c := eOpBc b, md := eOpBm b, ty := eTy ty }
  | .iminLiteral k d a lit ty => some { rawBase .imin .literal k with d := eDst d, a := eSrc a, lit := lit, ty := eTy ty }
  | .imaxCompact st d a b => some (rawCompact .imax st d a b)
  | .imaxLong k d a b ty => some { rawBase .imax .long k with d := eDst d, a := eSrc a, b := eOpBb b, c := eOpBc b, md := eOpBm b, ty := eTy ty }
  | .imaxLiteral k d a lit ty => some { rawBase .imax .literal k with d := eDst d, a := eSrc a, lit := lit, ty := eTy ty }
  | .iabs k d a ty sat => some { rawBase .iabs .long k with d := eDst d, a := eSrc a, ty := eTy ty, md := eBool sat }
  | .ineg k d a ty sat => some { rawBase .ineg .long k with d := eDst d, a := eSrc a, ty := eTy ty, md := eBool sat }
  | .iaddcLong k d a b ty qc => some { rawBase .iaddc .long k with d := eDst d, a := eSrc a, b := eOpBb b, c := eOpBc b, md := eOpBm b + eFin qc, ty := eTy ty }
  | .iaddcLiteral k d a lit ty qc => some { rawBase .iaddc .literal k with d := eDst d, a := eSrc a, lit := lit, ty := eTy ty, md := eFin qc }
  | .isubbLong k d a b ty qc => some { rawBase .isubb .long k with d := eDst d, a := eSrc a, b := eOpBb b, c := eOpBc b, md := eOpBm b + eFin qc, ty := eTy ty }
  | .isubbLiteral k d a lit ty qc => some { rawBase .isubb .literal k with d := eDst d, a := eSrc a, lit := lit, ty := eTy ty, md := eFin qc }
  | .idot4Long k d a b x ty sat => some { rawBase .idot4 .long k with d := eDst d, a := eSrc a, b := eSrc b, c := eSrc x, ty := eTy ty, md := eBool sat }
  | .idot4Literal k d a lit x ty sat => some { rawBase .idot4 .literal k with d := eDst d, a := eSrc a, lit := lit, c := eSrc x, ty := eTy ty, md := eBool sat }
  | .andCompact st d a b => some (rawCompact .andOp st d a b)
  | .andLong k d a b ty => some { rawBase .andOp .long k with d := eDst d, a := eSrc a, b := eOpBb b, c := eOpBc b, md := eOpBm b, ty := eTy ty }
  | .andLiteral k d a lit ty => some { rawBase .andOp .literal k with d := eDst d, a := eSrc a, lit := lit, ty := eTy ty }
  | .orCompact st d a b => some (rawCompact .orOp st d a b)
  | .orLong k d a b ty => some { rawBase .orOp .long k with d := eDst d, a := eSrc a, b := eOpBb b, c := eOpBc b, md := eOpBm b, ty := eTy ty }
  | .orLiteral k d a lit ty => some { rawBase .orOp .literal k with d := eDst d, a := eSrc a, lit := lit, ty := eTy ty }
  | .xorCompact st d a b => some (rawCompact .xorOp st d a b)
  | .xorLong k d a b ty => some { rawBase .xorOp .long k with d := eDst d, a := eSrc a, b := eOpBb b, c := eOpBc b, md := eOpBm b, ty := eTy ty }
  | .xorLiteral k d a lit ty => some { rawBase .xorOp .literal k with d := eDst d, a := eSrc a, lit := lit, ty := eTy ty }
  | .lop3Long k d a b x ty tbl => some { rawBase .lop3 .long k with d := eDst d, a := eSrc a, b := eSrc b, c := eSrc x, ty := eTy ty, md := eFin tbl }
  | .lop3Literal k d a lit x ty tbl => some { rawBase .lop3 .literal k with d := eDst d, a := eSrc a, lit := lit, c := eSrc x, ty := eTy ty, md := eFin tbl }
  | .shlCompact st d a b => some (rawCompact .shl st d a b)
  | .shlLong k d a b ty => some { rawBase .shl .long k with d := eDst d, a := eSrc a, b := eOpBb b, c := eOpBc b, md := eOpBm b, ty := eTy ty }
  | .shlLiteral k d a lit ty => some { rawBase .shl .literal k with d := eDst d, a := eSrc a, lit := lit, ty := eTy ty }
  | .shrCompact st d a b => some (rawCompact .shr st d a b)
  | .shrLong k d a b ty => some { rawBase .shr .long k with d := eDst d, a := eSrc a, b := eOpBb b, c := eOpBc b, md := eOpBm b, ty := eTy ty }
  | .shrLiteral k d a lit ty => some { rawBase .shr .literal k with d := eDst d, a := eSrc a, lit := lit, ty := eTy ty }
  | .shraCompact st d a b => some (rawCompact .shra st d a b)
  | .shraLong k d a b ty => some { rawBase .shra .long k with d := eDst d, a := eSrc a, b := eOpBb b, c := eOpBc b, md := eOpBm b, ty := eTy ty }
  | .shraLiteral k d a lit ty => some { rawBase .shra .literal k with d := eDst d, a := eSrc a, lit := lit, ty := eTy ty }
  | .rotCompact st d a b => some (rawCompact .rot st d a b)
  | .rotLong k d a b ty => some { rawBase .rot .long k with d := eDst d, a := eSrc a, b := eOpBb b, c := eOpBc b, md := eOpBm b, ty := eTy ty }
  | .rotLiteral k d a lit ty => some { rawBase .rot .literal k with d := eDst d, a := eSrc a, lit := lit, ty := eTy ty }
  | .popc k d a ty => some { rawBase .popc .long k with d := eDst d, a := eSrc a, ty := eTy ty }
  | .clz k d a ty => some { rawBase .clz .long k with d := eDst d, a := eSrc a, ty := eTy ty }
  | .ctz k d a ty => some { rawBase .ctz .long k with d := eDst d, a := eSrc a, ty := eTy ty }
  | .brev k d a ty => some { rawBase .brev .long k with d := eDst d, a := eSrc a, ty := eTy ty }
  | .bfxLong k d a b ty => some { rawBase .bfx .long k with d := eDst d, a := eSrc a, b := eOpBb b, c := eOpBc b, md := eOpBm b, ty := eTy ty }
  | .bfxLiteral k d a lit ty => some { rawBase .bfx .literal k with d := eDst d, a := eSrc a, lit := lit, ty := eTy ty }
  | .bfiLong k d a b x ty => some { rawBase .bfi .long k with d := eDst d, a := eSrc a, b := eSrc b, c := eSrc x, ty := eTy ty }
  | .bfiLiteral k d a lit x ty => some { rawBase .bfi .literal k with d := eDst d, a := eSrc a, lit := lit, c := eSrc x, ty := eTy ty }
  | .prmtLong k d a b x => some { rawBase .prmt .long k with d := eDst d, a := eSrc a, b := eSrc b, c := eSrc x }
  | .prmtLiteral k d a lit x => some { rawBase .prmt .literal k with d := eDst d, a := eSrc a, lit := lit, c := eSrc x }
  | .icmpLong k q a b ty cond form => some { rawBase .icmp .long k with d := ePred q, a := eSrc a, b := eOpBb b, c := eOpBc b, md := eOpBm b + eICond cond + eForm form * 16, ty := eTy ty }
  | .icmpLiteral k q a lit ty cond form => some { rawBase .icmp .literal k with d := ePred q, a := eSrc a, lit := lit, ty := eTy ty, md := eICond cond + eForm form * 16 }
  | .fcmpLong k q a b ty cond form => some { rawBase .fcmp .long k with d := ePred q, a := eSrc a, b := eOpBb b, c := eOpBc b, md := eOpBm b + eFCond cond + eForm form * 16, ty := eTy ty }
  | .fcmpLiteral k q a lit ty cond form => some { rawBase .fcmp .literal k with d := ePred q, a := eSrc a, lit := lit, ty := eTy ty, md := eFCond cond + eForm form * 16 }
  | .fclass k q a b ty form => some { rawBase .fclass .long k with d := ePred q, a := eSrc a, b := eSrc b, ty := eTy ty, md := eForm form * 16 }
  | .selCompact st d a b => some (rawCompact .sel st d a b)
  | .selLong k d a b ty qs neg => some { rawBase .sel .long k with d := eDst d, a := eSrc a, b := eOpBb b, c := eOpBc b, md := eOpBm b + eFin qs + eBool neg * 8, ty := eTy ty }
  | .selLiteral k d a lit ty qs neg => some { rawBase .sel .literal k with d := eDst d, a := eSrc a, lit := lit, ty := eTy ty, md := eFin qs + eBool neg * 8 }
  | .plop k q qa qb op na nb => some { rawBase .plop .long k with d := ePred q, a := ePred qa, b := ePred qb, md := ePop op + eBool na * 4 + eBool nb * 8 }
  | .ptog k d => some { rawBase .ptog .long k with d := eDst d }
  | .gtop k a mask => some { rawBase .gtop .long k with a := eSrc a, md := eFin mask }
  | .movLong k d b ty => some { rawBase .mov .long k with d := eDst d, b := eOpBb b, c := eOpBc b, md := eOpBm b, ty := eTy ty }
  | .movLiteral k d lit ty => some { rawBase .mov .literal k with d := eDst d, lit := lit, ty := eTy ty }
  | .movwLong k d b ty => some { rawBase .movw .long k with d := eWreg d, b := eOpBb b, c := eOpBc b, md := eOpBm b, ty := eTy ty }
  | .movwLiteral k d lit ty => some { rawBase .movw .literal k with d := eWreg d, lit := lit, ty := eTy ty }
  | .wmov k d a b => some { rawBase .wmov .long k with d := eWreg d, a := eSrc a, b := eSrc b }
  | .faddCompact st d a b => some (rawCompact .fadd st d a b)
  | .faddLong k d a b ty rnd => some { rawBase .fadd .long k with d := eDst d, a := eSrc a, b := eOpBb b, c := eOpBc b, md := eOpBm b + eRnd rnd * 128, ty := eTy ty }
  | .faddLiteral k d a lit ty rnd => some { rawBase .fadd .literal k with d := eDst d, a := eSrc a, lit := lit, ty := eTy ty, md := eRnd rnd * 128 }
  | .fsubCompact st d a b => some (rawCompact .fsub st d a b)
  | .fsubLong k d a b ty rnd => some { rawBase .fsub .long k with d := eDst d, a := eSrc a, b := eOpBb b, c := eOpBc b, md := eOpBm b + eRnd rnd * 128, ty := eTy ty }
  | .fsubLiteral k d a lit ty rnd => some { rawBase .fsub .literal k with d := eDst d, a := eSrc a, lit := lit, ty := eTy ty, md := eRnd rnd * 128 }
  | .fmulCompact st d a b => some (rawCompact .fmul st d a b)
  | .fmulLong k d a b ty rnd => some { rawBase .fmul .long k with d := eDst d, a := eSrc a, b := eOpBb b, c := eOpBc b, md := eOpBm b + eRnd rnd * 128, ty := eTy ty }
  | .fmulLiteral k d a lit ty rnd => some { rawBase .fmul .literal k with d := eDst d, a := eSrc a, lit := lit, ty := eTy ty, md := eRnd rnd * 128 }
  | .ffmaLong k d a b x ty rnd => some { rawBase .ffma .long k with d := eDst d, a := eSrc a, b := eSrc b, c := eSrc x, ty := eTy ty, md := eRnd rnd * 128 }
  | .ffmaLiteral k d a lit x ty rnd => some { rawBase .ffma .literal k with d := eDst d, a := eSrc a, lit := lit, c := eSrc x, ty := eTy ty, md := eRnd rnd * 128 }
  | .fminCompact st d a b => some (rawCompact .fmin st d a b)
  | .fminLong k d a b ty nan => some { rawBase .fmin .long k with d := eDst d, a := eSrc a, b := eOpBb b, c := eOpBc b, md := eOpBm b + eBool nan, ty := eTy ty }
  | .fminLiteral k d a lit ty nan => some { rawBase .fmin .literal k with d := eDst d, a := eSrc a, lit := lit, ty := eTy ty, md := eBool nan }
  | .fmaxCompact st d a b => some (rawCompact .fmax st d a b)
  | .fmaxLong k d a b ty nan => some { rawBase .fmax .long k with d := eDst d, a := eSrc a, b := eOpBb b, c := eOpBc b, md := eOpBm b + eBool nan, ty := eTy ty }
  | .fmaxLiteral k d a lit ty nan => some { rawBase .fmax .literal k with d := eDst d, a := eSrc a, lit := lit, ty := eTy ty, md := eBool nan }
  | .fabs k d a ty => some { rawBase .fabs .long k with d := eDst d, a := eSrc a, ty := eTy ty }
  | .fneg k d a ty => some { rawBase .fneg .long k with d := eDst d, a := eSrc a, ty := eTy ty }
  | .fdivCompact st d a b => some (rawCompact .fdiv st d a b)
  | .fdivLong k d a b ty rnd => some { rawBase .fdiv .long k with d := eDst d, a := eSrc a, b := eOpBb b, c := eOpBc b, md := eOpBm b + eRnd rnd * 128, ty := eTy ty }
  | .fdivLiteral k d a lit ty rnd => some { rawBase .fdiv .literal k with d := eDst d, a := eSrc a, lit := lit, ty := eTy ty, md := eRnd rnd * 128 }
  | .fsqrt k d a ty rnd => some { rawBase .fsqrt .long k with d := eDst d, a := eSrc a, ty := eTy ty, md := eRnd rnd * 128 }
  | .frcp k d a ty rnd => some { rawBase .frcp .long k with d := eDst d, a := eSrc a, ty := eTy ty, md := eRnd rnd * 128 }
  | .frsq k d a ty rnd => some { rawBase .frsq .long k with d := eDst d, a := eSrc a, ty := eTy ty, md := eRnd rnd * 128 }
  | .fsclLong k d a b ty rnd => some { rawBase .fscl .long k with d := eDst d, a := eSrc a, b := eOpBb b, c := eOpBc b, md := eOpBm b + eRnd rnd * 128, ty := eTy ty }
  | .fsclLiteral k d a lit ty rnd => some { rawBase .fscl .literal k with d := eDst d, a := eSrc a, lit := lit, ty := eTy ty, md := eRnd rnd * 128 }
  | .frnd k d a ty rnd => some { rawBase .frnd .long k with d := eDst d, a := eSrc a, ty := eTy ty, md := eRnd rnd * 128 }
  | .fdotLong k d a b x ty rnd => some { rawBase .fdot .long k with d := eDst d, a := eSrc a, b := eSrc b, c := eSrc x, ty := eTy ty, md := eRnd rnd * 128 }
  | .fdotLiteral k d a lit x ty rnd => some { rawBase .fdot .literal k with d := eDst d, a := eSrc a, lit := lit, c := eSrc x, ty := eTy ty, md := eRnd rnd * 128 }
  | .fsum k d a ty rnd => some { rawBase .fsum .long k with d := eDst d, a := eSrc a, ty := eTy ty, md := eRnd rnd * 128 }
  | .fex2 k d a ty rnd => some { rawBase .fex2 .long k with d := eDst d, a := eSrc a, ty := eTy ty, md := eRnd rnd * 128 }
  | .flg2 k d a ty rnd => some { rawBase .flg2 .long k with d := eDst d, a := eSrc a, ty := eTy ty, md := eRnd rnd * 128 }
  | .fsin k d a ty rnd => some { rawBase .fsin .long k with d := eDst d, a := eSrc a, ty := eTy ty, md := eRnd rnd * 128 }
  | .fcos k d a ty rnd => some { rawBase .fcos .long k with d := eDst d, a := eSrc a, ty := eTy ty, md := eRnd rnd * 128 }
  | .ftnh k d a ty rnd => some { rawBase .ftnh .long k with d := eDst d, a := eSrc a, ty := eTy ty, md := eRnd rnd * 128 }
  | .cvt k d a ty ts rnd => some { rawBase .cvt .long k with d := eDst d, a := eSrc a, ty := eTy ty, md := eTyN ts + eRnd rnd * 128 }
  | .pack k d a b x ty ts rnd => some { rawBase .pack .long k with d := eDst d, a := eSrc a, b := eSrc b, c := eSrc x, ty := eTy ty, md := eTyN ts + eRnd rnd * 128 }
  | .unpk k d a b ty ts rnd => some { rawBase .unpk .long k with d := eDst d, a := eSrc a, b := eSrc b, ty := eTy ty, md := eTyN ts + eRnd rnd * 128 }
  | .qblk k d a b ty rnd => some { rawBase .qblk .long k with d := eG8 d, a := eG a, b := eOptG b, ty := eTy ty, md := eRnd rnd * 128 }
  | .dqblk k d a b ty rnd => some { rawBase .dqblk .long k with d := eDst d, a := eG8 a, b := eSrc b, ty := eTy ty, md := eRnd rnd * 128 }
  | .rng k d a key ty => some { rawBase .rng .long k with d := eDst d, a := eSrc a, b := eKeyB key, md := eKeyM key, ty := eTy ty }
  | .rngg k d a key ty => some { rawBase .rngg .long k with d := eDst d, a := eSrc a, b := eKeyB key, md := eKeyM key, ty := eTy ty }
  | .shfl k d a b x ty qd => some { rawBase .shfl .long k with d := eDst d, a := eSrc a, b := eSrc b, c := eSrc x, ty := eTy ty, md := eFin qd }
  | .bcst k d a b => some { rawBase .bcst .long k with d := eDst d, a := eSrc a, b := eOpBb b, c := eOpBc b, md := eOpBm b }
  | .vote k d q qs neg mode => some { rawBase .vote .long k with d := eDst d, c := ePred q, md := eFin qs + eBool neg * 8 + eVote mode * 16 }
  | .wred k d a b ty op rnd => some { rawBase .wred .long k with d := eDst d, a := eSrc a, b := eSrc b, ty := eTy ty, md := eRop op + eRnd rnd * 128 }
  | .wscan k d a b ty op excl rnd => some { rawBase .wscan .long k with d := eDst d, a := eSrc a, b := eSrc b, ty := eTy ty, md := eRop op + eBool excl * 8 + eRnd rnd * 128 }
  | .matchI k d a ty => some { rawBase .matchI .long k with d := eDst d, a := eSrc a, ty := eTy ty }
  | .elect k d q => some { rawBase .elect .long k with d := eDst d, c := ePred q }
  | .braLong k imm => some { rawBase .bra .long k with b := eImmB imm, c := eImmC imm }
  | .braLiteral k lit => some { rawBase .bra .literal k with lit := lit }
  | .brx k a => some { rawBase .brx .long k with a := eSrc a }
  | .callLong k d imm => some { rawBase .call .long k with d := eDst d, b := eImmB imm, c := eImmC imm }
  | .callLiteral k d lit => some { rawBase .call .literal k with d := eDst d, lit := lit }
  | .callx k d a => some { rawBase .callx .long k with d := eDst d, a := eSrc a }
  | .ret k a => some { rawBase .ret .long k with a := eSrc a }
  | .meetLong k m => some { rawBase .meetI .long k with a := eMeetA m, b := eMeetB m, c := eMeetC m, md := eMeetM m }
  | .meetLiteral k lit => some { rawBase .meetI .literal k with lit := lit }
  | .leaveLong k a imm => some { rawBase .leave .long k with a := eSrc a, b := eImmB imm, c := eImmC imm }
  | .leaveLiteral k a lit => some { rawBase .leave .literal k with a := eSrc a, lit := lit }
  | .land k => some (rawBase .land .long k)
  | .exit k => some (rawBase .exit .long k)
  | .trap k imm => some { rawBase .trap .long k with b := eImmB imm, c := eImmC imm }
  | .nop k => some (rawBase .nop .long k)
  | .yield k => some (rawBase .yield .long k)
  | .sleep k a => some { rawBase .sleep .long k with a := eSrc a }
  | .brkpt k => some (rawBase .brkpt .long k)
  | .ld k d a imm ty => some { rawBase .ld .long k with d := eDst d, a := eSrc a, b := eImmB imm, c := eImmC imm, ty := eMTyT ty, md := eMTyM ty }
  | .st k d a imm ty => some { rawBase .st .long k with d := eSrc d, a := eSrc a, b := eImmB imm, c := eImmC imm, ty := eMTyT ty, md := eMTyM ty }
  | .pref k a imm ext l2 => some { rawBase .pref .long k with a := eSrc a, b := eImmB imm, c := eImmC imm, md := eExt ext * 2 + eBool l2 }
  | .ldl k d a imm ty tag => some { rawBase .ldl .long k with d := eDst d, a := eSrc a, b := eImmB imm, c := eImmC imm, ty := eMTyT ty, md := eMTyM ty + eTag tag * 256 }
  | .stl k d a imm ty we => some { rawBase .stl .long k with d := eSrc d, a := eSrc a, b := eImmB imm, c := eImmC imm, ty := eMTyT ty, md := eMTyM ty + eBool we * 256 }
  | .lds k d a imm ty tag die => some { rawBase .lds .long k with d := eDst d, a := eSrc a, b := eImmB imm, c := eImmC imm, ty := eMTyT ty, md := eMTyM ty + eTag tag * 256 + eBool die * 64 }
  | .sts k d a imm ty we die => some { rawBase .sts .long k with d := eSrc d, a := eSrc a, b := eImmB imm, c := eImmC imm, ty := eMTyT ty, md := eMTyM ty + eBool we * 256 + eBool die * 64 }
  | .ldc k d a imm ty tag => some { rawBase .ldc .long k with d := eDst d, a := eSrc a, b := eImmB imm, c := eImmC imm, ty := eMTyT ty, md := eMTyM ty + eTag tag * 256 }
  | .stc k d a imm ty we => some { rawBase .stc .long k with d := eSrc d, a := eSrc a, b := eImmB imm, c := eImmC imm, ty := eMTyT ty, md := eMTyM ty + eBool we * 256 }
  | .feset k a imm space => some { rawBase .feset .long k with a := eSrc a, b := eImmB imm, c := eImmC imm, md := eSpace space * 64 }
  | .feclr k a imm space => some { rawBase .feclr .long k with a := eSrc a, b := eImmB imm, c := eImmC imm, md := eSpace space * 64 }
  | .fetest k q a imm space => some { rawBase .fetest .long k with d := ePred q, a := eSrc a, b := eImmB imm, c := eImmC imm, md := eSpace space * 64 }
  | .lr k d a imm ty => some { rawBase .lr .long k with d := eDst d, a := eSrc a, b := eImmB imm, c := eImmC imm, ty := eTy ty }
  | .sc k d a imm ty qd => some { rawBase .sc .long k with d := eSrc d, a := eSrc a, b := eImmB imm, c := eImmC imm, ty := eTy ty, md := eFin qd }
  | .atom k d a b op ty => some { rawBase .atom .long k with d := eDst d, a := eSrc a, b := eSrc b, md := eAop op, ty := eTy ty }
  | .cas k d a b x ty => some { rawBase .cas .long k with d := eDst d, a := eSrc a, b := eSrc b, c := eSrc x, ty := eTy ty }
  | .red k a b op ty => some { rawBase .red .long k with a := eSrc a, b := eSrc b, md := eAop op, ty := eTy ty }
  | .atoms k d a b op die ty => some { rawBase .atoms .long k with d := eDst d, a := eSrc a, b := eSrc b, md := eAop op + eBool die * 64, ty := eTy ty }
  | .cass k d a b x die ty => some { rawBase .cass .long k with d := eDst d, a := eSrc a, b := eSrc b, c := eSrc x, md := eBool die * 64, ty := eTy ty }
  | .reds k a b op die ty => some { rawBase .reds .long k with a := eSrc a, b := eSrc b, md := eAop op + eBool die * 64, ty := eTy ty }
  | .fence k order scope => some { rawBase .fence .long k with md := eOrder order * 8 + eScope scope }
  | .waitc k cls n => some { rawBase .waitc .long k with md := eEcls cls + eFin n * 8 }
  | .rsb k => some (rawBase .rsb .long k)
  | .rse k => some (rawBase .rse .long k)
  | .gpwait k => some (rawBase .gpwait .long k)
  | .defer k q a b wt => some { rawBase .defer .long k with c := ePred q, a := eSrc a, b := eSrc b, md := eBool wt }
  | .alloc k q d b wt => some { rawBase .alloc .long k with c := ePred q, d := eDst d, b := eSrc b, md := eBool wt }
  | .free k q a b => some { rawBase .free .long k with c := ePred q, a := eSrc a, b := eSrc b }
  | .cpy k a imm => some { rawBase .cpy .long k with a := eSrc a, b := eImmB imm, c := eImmC imm }
  | .cpyz k a imm => some { rawBase .cpyz .long k with a := eSrc a, b := eImmB imm, c := eImmC imm }
  | .gath k a imm => some { rawBase .gath .long k with a := eSrc a, b := eImmB imm, c := eImmC imm }
  | .scat k a imm => some { rawBase .scat .long k with a := eSrc a, b := eImmB imm, c := eImmC imm }
  | .put k a imm => some { rawBase .put .long k with a := eSrc a, b := eImmB imm, c := eImmC imm }
  | .coll k a imm => some { rawBase .coll .long k with a := eSrc a, b := eImmB imm, c := eImmC imm }
  | .bkop k a imm op ty => some { rawBase .bkop .long k with a := eSrc a, b := eImmB imm, c := eImmC imm, md := eBk op, ty := eTy ty }
  | .rowcp k a imm => some { rawBase .rowcp .long k with a := eSrc a, b := eImmB imm, c := eImmC imm }
  | .rowz k a imm => some { rawBase .rowz .long k with a := eSrc a, b := eImmB imm, c := eImmC imm }
  | .clean k a imm scope => some { rawBase .clean .long k with a := eSrc a, b := eImmB imm, c := eImmC imm, md := eScope scope }
  | .inval k a imm scope => some { rawBase .inval .long k with a := eSrc a, b := eImmB imm, c := eImmC imm, md := eScope scope }
  | .flush k a imm scope => some { rawBase .flush .long k with a := eSrc a, b := eImmB imm, c := eImmC imm, md := eScope scope }
  | .mxp k a imm => some { rawBase .mxp .long k with a := eSrc a, b := eImmB imm, c := eImmC imm }
  | .wbld k a imm => some { rawBase .wbld .long k with a := eSrc a, b := eImmB imm, c := eImmC imm }
  | .acz k a imm => some { rawBase .acz .long k with a := eSrc a, b := eImmB imm, c := eImmC imm }
  | .acld k a imm => some { rawBase .acld .long k with a := eSrc a, b := eImmB imm, c := eImmC imm }
  | .acdrn k a imm => some { rawBase .acdrn .long k with a := eSrc a, b := eImmB imm, c := eImmC imm }
  | .acchk k a imm => some { rawBase .acchk .long k with a := eSrc a, b := eImmB imm, c := eImmC imm }
  | .pin k q a imm t => some { rawBase .pin .long k with d := ePred q, a := eSrc a, b := eImmB imm, c := eImmC imm, md := eFin t }
  | .unpin k a imm => some { rawBase .unpin .long k with a := eSrc a, b := eImmB imm, c := eImmC imm }
  | .hint k a imm t => some { rawBase .hint .long k with a := eSrc a, b := eImmB imm, c := eImmC imm, md := eFin t }
  | .migr k q a imm t => some { rawBase .migr .long k with d := ePred q, a := eSrc a, b := eImmB imm, c := eImmC imm, md := eFin t }
  | .taff k a imm aff => some { rawBase .taff .long k with a := eSrc a, b := eImmB imm, c := eImmC imm, md := eFin aff }
  | .probe k d a imm => some { rawBase .probe .long k with d := eDst d, a := eSrc a, b := eImmB imm, c := eImmC imm }
  | .tlbi k m => some { rawBase .tlbi .long k with a := eTlbiA m, b := eTlbiB m, md := eTlbiM m }
  | .tlbsync k => some (rawBase .tlbsync .long k)
  | .launch k q a => some { rawBase .launch .long k with d := ePred q, a := eSrc a }
  | .cwait k q a b => some { rawBase .cwait .long k with c := ePred q, a := eSrc a, b := eSrc b }
  | .cancel k kind a => some { rawBase .cancel .long k with md := eCk kind, a := eSrc a }
  | .reord k a b x => some { rawBase .reord .long k with a := eSrc a, b := eSrc b, c := eSrc x }
  | .svc k imm => some { rawBase .svc .long k with b := eImmB imm, c := eImmC imm }
  | .srd k d num => some { rawBase .srd .long k with d := eDst d, md := eFin num }
  | .swr k num a => some { rawBase .swr .long k with md := eFin num, a := eSrc a }
  | .eret k sub => some { rawBase .eret .long k with md := eBool sub }
  | .hvc k imm => some { rawBase .hvc .long k with b := eImmB imm, c := eImmC imm }
  | .sec k imm => some { rawBase .sec .long k with b := eImmB imm, c := eImmC imm }
  | .coreStep _ => none
  | .stallExpiry _ _ => none
  | .sleepExpiry _ _ => none
  | .waitTimeout _ _ => none
  | .resultLanding _ _ => none
  | .storeQueueDrain _ => none
  | .cacheEviction _ _ => none
  | .lineInvalidation _ _ => none
  | .homeRequest _ => none
  | .atomicAtHome _ => none
  | .replicaUpdate _ => none
  | .reservationLapse _ _ => none
  | .interruptTake _ => none
  | .timerInterruptPending _ => none
  | .ipisendWrite _ _ => none
  | .intpendClear _ _ => none
  | .launchAccept _ _ => none
  | .launchReady _ => none
  | .gangPlace _ _ => none
  | .blockSave _ => none
  | .blockResume _ _ => none
  | .warpRetire _ => none
  | .blockRetire _ => none
  | .launchFinish _ => none
  | .reorderIdleFlush _ _ => none
  | .postingWindowStore _ _ _ _ => none
  | .postingFullCountRead _ _ => none
  | .tenantSuspend _ => none
  | .tenantResume _ => none
  | .tenantReset _ => none
  | .coreownWrite _ _ => none
  | .l2wayWrite _ _ => none
  | .placeTableWrite _ _ _ => none
  | .dscarveWrite _ _ => none
  | .serviceThreadStart _ => none
  | .serviceThreadStop _ => none
  | .poolEnable _ _ => none
  | .poolDisable _ _ => none
  | .perrRead _ _ => none
  | .guylineReport _ => none
  | .gpseqAcknowledge _ _ => none
  | .gracePeriodDone _ => none
  | .backgroundGraceStart _ => none
  | .deferredReturn _ => none
  | .mxOwnershipGrant _ => none
  | .mxRequestBegin _ _ => none
  | .mxPassGrant _ => none
  | .mxPassLanding _ => none
  | .wbldChunkLanding _ _ => none
  | .mxRequestComplete _ _ => none
  | .copyCompletion _ => none
  | .gatherCompletion _ => none
  | .scatterCompletion _ => none
  | .bkopCompletion _ => none
  | .rowOpCompletion _ => none
  | .cacheMaintCompletion _ => none
  | .putLanding _ => none
  | .putAcknowledged _ => none
  | .putRefused _ => none
  | .putResponseTimeout _ => none
  | .collArrival _ => none
  | .collAccepted _ => none
  | .collResponseTimeout _ => none
  | .collApply _ => none
  | .slotEnable _ _ => none
  | .slotDisable _ => none
  | .windowDisable _ => none
  | .fabricRequestIn _ => none
  | .fabricResponseTimeout _ _ => none
  | .faultRecordResolve _ _ => none
  | .faultRecordAbandon _ _ => none
  | .faultReplay _ => none
  | .devdropRead => none
  | .migrationSwitch _ => none
  | .migrationRelease _ => none
  | .accessCounterDecay => none
  | .migdecayWrite _ => none
  | .frfillPush _ _ => none
  | .frretPop => none
  | .poolAcquire _ _ => none
  | .poolRelease _ _ => none
  | .poolPublish _ _ => none
  | .poolCommandDone => none
  | .poolstatRead _ => none
  | .poolRevocation _ => none
  | .poolHeartbeat => none
  | .poolHeartbeatLapse => none
  | .poolModuleLoss _ _ => none
  | .pairedSegmentCompare _ _ => none
  | .pairedCompareTimeout _ _ => none
  | .eccError _ => none
  | .gangRelaunch _ _ => none
  | .selfTest _ _ => none
  | .coldReset => none
  | .warmReset => none
  | .bootStageVerify _ => none
  | .platformFaultAlarm _ => none
  | .protectiveShutdown => none
  | .tamperAlarm => none
  | .glitchTemperatureAlarm => none
  | .powerStateEntry => none
  | .powerWake => none
  | .lanternDebugHold _ => none
  | .lanternDebugRelease _ => none
  | .lanternFirmwareUpdate _ => none
  | .lanternAttestation _ => none
  | .lanternMainReset _ _ => none
  | .lanternMonitorQuery _ => none
  | .registerWrite _ _ _ _ => none
  | .platformInterruptSignal _ => none
  | .lanternProvisioning => none
  | .poolEnablingFinished _ _ => none
  | .exitLatencyElapsed => none
  | .platformConditionRestored _ => none
  | .poolModuleRebuild _ _ => none

/-- Checks 2 to 5 of R282 on laid-out fields: the cell, the form, then every field. The last test asks that the fields
are exactly those of the instruction read, so no unused field or MOD bit passes with another value (R274). -/
def decodeRaw (r : Raw) : Except DecodeErr Instr :=
  match opAt r.cls r.fn with
  | none => .error .opReserved
  | some o =>
    if r.form = .compact ∧ o.hasCompact = false then .error .compactForm
    else if r.form = .literal ∧ o.hasLiteral = false then .error .literalForm
    else match parse o r with
      | none => .error .field
      | some i => if toRaw i = some r ∧ i.wf then .ok i else .error .field

/-- The fields of the words at the front of a byte list; none if a byte is missing, LEN 0b01 refused. -/
def rawOfBytes (bs : List Byte) : Except DecodeErr Raw :=
  let w (n : Nat) : Nat := leNat ((bs.drop (4 * n)).take 4)
  if bs.length < 4 then .error .short
  else if bs.length < 4 * wordCount (w 0) then .error .short
  else match bitsOf (w 0) 30 2 with
    | 0 => .ok (rawOfCompact (w 0))
    | 1 => .error .lenReserved
    | 2 => .ok (rawOfLong .long (w 0) (w 1) 0)
    | _ => .ok (rawOfLong .literal (w 0) (w 1) (w 2))

/-- The decoder: the instruction at the front of a byte list (R268 to R282). -/
def decode (bs : List Byte) : Except DecodeErr Instr :=
  match rawOfBytes bs with
  | .error e => .error e
  | .ok r => decodeRaw r

/-- The words of an instruction; a device step has none. -/
def encodeWords (i : Instr) : List Nat :=
  match toRaw i with
  | none => []
  | some r => r.words

/-- The encoder: the words of an instruction as the hardware stores them, little-endian (R268). -/
def encode (i : Instr) : List Byte := (encodeWords i).flatMap (leBytes 4)

/-- The length in bytes of an instruction (R268); 0 for a device step. -/
def Instr.length (i : Instr) : Nat := 4 * (encodeWords i).length

/-- What the decoder reads from an instruction whose bits are w, numbered as the opcode table numbers them; bits above
nbits are 0. -/
def decodeTableWord (nbits w : Nat) : Option Instr :=
  match decode (leBytes 12 (w % 2 ^ nbits)) with
  | .ok i => some i
  | .error _ => none

end Sys2Proof
end

