-- ==== Sys2Proof/Machine/Bits.lean ====
section
/-! DEFINITION. Bit fields, sign extension, sub-elements of a register (R141), byte order (R15). -/

namespace Sys2Proof.Machine

/-- Bits lo + w - 1 down to lo of a word, as a number. -/
def wbits (v : Word) (lo w : Nat) : Nat := v.toNat / 2 ^ lo % 2 ^ w

/-- One bit of a number. -/
def nbit (n i : Nat) : Bool := n.testBit i

/-- One bit of a word. -/
def wbit (v : Word) (i : Nat) : Bool := v.getLsbD i

/-- One bit of a 32-bit lane mask. -/
def mbit (m : BitVec 32) (i : Nat) : Bool := m.getLsbD i

/-- A lane mask with one bit set. -/
def mset (m : BitVec 32) (i : Nat) : BitVec 32 := m ||| BitVec.ofNat 32 (2 ^ i)

/-- A lane mask with one bit cleared. -/
def mclr (m : BitVec 32) (i : Nat) : BitVec 32 := m &&& ~~~ BitVec.ofNat 32 (2 ^ i)

/-- The lanes of a mask, ascending. -/
def mlanes (m : BitVec 32) : List Nat := (List.range 32).filter (mbit m)

/-- The mask of a list of lanes. -/
def maskOf (ls : List Nat) : BitVec 32 := ls.foldl mset 0

/-- The number of lanes in a mask. -/
def mcount (m : BitVec 32) : Nat := (mlanes m).length

/-- Round up to a multiple. -/
def roundUp (n m : Nat) : Nat := (n + m - 1) / m * m

/-- Quotient rounded up. -/
def ceilDiv (n m : Nat) : Nat := (n + m - 1) / m

/-- The value of a w-bit pattern read as signed. -/
def sext (w n : Nat) : Int := if n % 2 ^ w < 2 ^ (w - 1) then (n % 2 ^ w : Nat) else (n % 2 ^ w : Nat) - (2 ^ w : Nat)

/-- The w-bit pattern of an integer, modulo 2^w. -/
def wrap (w : Nat) (x : Int) : Nat := (x % (2 ^ w : Nat)).toNat

/-- An integer as a 64-bit word, modulo 2^64. -/
def wordOf (x : Int) : Word := BitVec.ofInt 64 x

/-- A 16-bit immediate sign-extended to a word (R276). -/
def sext16 (v : BitVec 16) : Word := v.signExtend 64

/-- A 32-bit literal sign-extended to a word (R276). -/
def sext32 (v : BitVec 32) : Word := v.signExtend 64

/-- The width in bits of one sub-element of a type (R21). -/
def tyWidth : Ty → Nat
  | .s8 | .n8 | .q8 => 8
  | .s16 | .n16 | .f16 | .bf16 => 16
  | .s32 | .n32 | .f32 => 32
  | .s64 | .n64 | .f64 | .b64 => 64
  | .l6 => 6
  | .h4 => 4

/-- The number of sub-elements of a type in a register (R141): ten for l6. -/
def tyCount : Ty → Nat
  | .l6 => 10
  | t => 64 / tyWidth t

/-- Whether an integer type is signed. -/
def tySigned : Ty → Bool
  | .s8 | .s16 | .s32 | .s64 => true
  | _ => false

/-- Sub-element i of a register, as a bit pattern (R21). -/
def elem (v : Word) (i : Nat) (t : Ty) : Nat := wbits v (i * tyWidth t) (tyWidth t)

/-- Sub-element i of a register read as an integer of its type. -/
def elemInt (v : Word) (i : Nat) (t : Ty) : Int :=
  if tySigned t then sext (tyWidth t) (elem v i t) else (elem v i t : Int)

/-- The register whose sub-elements, from number 0 up, are the given patterns of width w. -/
def packElems (w : Nat) : List Nat → Nat
  | [] => 0
  | p :: r => p % 2 ^ w + 2 ^ w * packElems w r

/-- A register built from sub-elements of a type; bits above them are 0. -/
def packWord (t : Ty) (ps : List Nat) : Word := BitVec.ofNat 64 (packElems (tyWidth t) (ps.take (tyCount t)))

/-- Every sub-element of a type computed from its index. -/
def mapElems (t : Ty) (f : Nat → Nat) : Word := packWord t ((List.range (tyCount t)).map f)

/-- A word as eight bytes, little-endian (R15). -/
def wordBytes (v : Word) : List Byte := leBytes 8 v.toNat

/-- A little-endian word from bytes. -/
def wordOfBytes (bs : List Byte) : Word := BitVec.ofNat 64 (leNat bs)

/-- A virtual or physical address as the number the memory uses. -/
def addr (v : Word) : Nat := v.toNat

/-- Canonical form: bits 63 to 57 equal bit 56 (R185). -/
def canonical (v : Word) : Bool := ((v.signExtend 64).toInt == sext 57 v.toNat)

end Sys2Proof.Machine
end

