-- ==== Sys2Proof/Machine/Fp.lean ====
section
/-! DEFINITION. Floating values: exact dyadic numbers, the formats of R141 to R146, and rounding (R147). -/

namespace Sys2Proof.Machine

/-- Rounding modes (R148). -/
inductive RMode where
  | rne | rz | ru | rd | rna
  deriving DecidableEq, Repr

/-- The five flags of FPFLAGS (R149): bit 0 NV, 1 DZ, 2 OF, 3 UF, 4 NX. -/
abbrev Flags := BitVec 5

/-- The invalid flag. -/
def flNV : Flags := 1
/-- The divide-by-zero flag. -/
def flDZ : Flags := 2
/-- The overflow flag. -/
def flOF : Flags := 4
/-- The underflow flag. -/
def flUF : Flags := 8
/-- The inexact flag. -/
def flNX : Flags := 16

/-- What a pattern stands for: a NaN, an infinity, or the number (-1)^neg times m times 2^e; m = 0 is a zero. -/
inductive FpVal where
  | nan (signalling : Bool)
  | inf (neg : Bool)
  | fin (neg : Bool) (m : Nat) (e : Int)
  deriving DecidableEq, Repr

/-- An IEEE-style format: exponent and fraction widths (R141). -/
structure Fmt where
  ew : Nat
  mw : Nat
  deriving DecidableEq, Repr

/-- binary16. -/
def fmtF16 : Fmt := ⟨5, 10⟩
/-- bf16. -/
def fmtBf16 : Fmt := ⟨8, 7⟩
/-- binary32. -/
def fmtF32 : Fmt := ⟨8, 23⟩
/-- binary64. -/
def fmtF64 : Fmt := ⟨11, 52⟩

/-- The IEEE format of a type; f32 for a type that has none. -/
def fmtOf : Ty → Fmt
  | .f16 => fmtF16
  | .bf16 => fmtBf16
  | .f64 => fmtF64
  | _ => fmtF32

/-- The exponent bias. -/
def Fmt.bias (f : Fmt) : Nat := 2 ^ (f.ew - 1) - 1
/-- The pattern of the largest exponent with fraction 0: +infinity. -/
def Fmt.infPat (f : Fmt) : Nat := (2 ^ f.ew - 1) * 2 ^ f.mw
/-- The sign bit's value. -/
def Fmt.signPat (f : Fmt) (neg : Bool) : Nat := if neg then 2 ^ (f.ew + f.mw) else 0
/-- The canonical quiet NaN (R143). -/
def Fmt.nanPat (f : Fmt) : Nat := f.infPat + 2 ^ (f.mw - 1)

/-- The value of an IEEE pattern (R141, R143). -/
def Fmt.value (f : Fmt) (p : Nat) : FpVal :=
  let frac := p % 2 ^ f.mw
  let ex := p / 2 ^ f.mw % 2 ^ f.ew
  let neg := p / 2 ^ (f.ew + f.mw) % 2 == 1
  if ex = 2 ^ f.ew - 1 then (if frac = 0 then .inf neg else .nan (frac / 2 ^ (f.mw - 1) == 0))
  else if ex = 0 then .fin neg frac (1 - f.bias - f.mw)
  else .fin neg (2 ^ f.mw + frac) ((ex : Int) - f.bias - f.mw)

/-- A subnormal read as a zero of its sign under flush-to-zero (R147). -/
def Fmt.flushIn (f : Fmt) (ftz : Bool) (v : FpVal) : FpVal :=
  match v with
  | .fin neg m e => if ftz && m < 2 ^ f.mw then .fin neg 0 e else v
  | _ => v

/-- The number m times 2^e, plus a part of one unit of m when `sticky`, as a multiple of 2^q under a mode: the multiple
and whether it differs (R147). -/
def roundAt (neg : Bool) (m : Nat) (e : Int) (sticky : Bool) (q : Int) (md : RMode) : Nat × Bool :=
  if q ≤ e then (m * 2 ^ (e - q).toNat, sticky)
  else
    let sh := (q - e).toNat
    let n := m / 2 ^ sh
    let r := m % 2 ^ sh
    let half := 2 ^ (sh - 1)
    let inexact := r != 0 || sticky
    let above := r > half || (r == half && sticky)
    let tie := r == half && !sticky
    let up : Bool := match md with
      | .rne => above || (tie && n % 2 == 1)
      | .rna => above || tie
      | .rz => false
      | .ru => inexact && !neg
      | .rd => inexact && neg
    (if up then n + 1 else n, inexact)

/-- Whether overflow gives an infinity under a mode (R147). -/
def overflowInf (neg : Bool) : RMode → Bool
  | .rne | .rna => true
  | .rz => false
  | .ru => !neg
  | .rd => neg

/-- round(x, fmt, mode) of R147 for x = (-1)^neg times m times 2^e, plus a part of one unit of m when `sticky`. -/
def Fmt.round (f : Fmt) (md : RMode) (ftz : Bool) (neg : Bool) (m : Nat) (e : Int) (sticky : Bool := false) : Nat × Flags :=
  if m = 0 ∧ sticky = false then (f.signPat neg, 0)
  else
    let top : Int := e + Nat.log2 m
    let emin : Int := 1 - (f.bias : Int)
    let q0 : Int := top - f.mw
    let q := max q0 (emin - f.mw)
    let (n, inexact) := roundAt neg m e sticky q md
    let n0 := (roundAt neg m e sticky q0 md).1
    let topAfter := if n0 = 2 ^ (f.mw + 1) then top + 1 else top
    let tiny := decide (topAfter < emin)
    if ftz && tiny then (f.signPat neg, flUF ||| flNX)
    else
      let fl := (if inexact then flNX else 0) ||| (if tiny && inexact then flUF else 0)
      if n < 2 ^ f.mw then (f.signPat neg + n, fl)
      else
        let (n, q) := if n = 2 ^ (f.mw + 1) then (2 ^ f.mw, q + 1) else (n, q)
        let ex := (q + f.mw + f.bias).toNat
        if 2 ^ f.ew - 1 ≤ ex then
          (f.signPat neg + (if overflowInf neg md then f.infPat else f.infPat - 1), flOF ||| flNX)
        else (f.signPat neg + ex * 2 ^ f.mw + (n - 2 ^ f.mw), fl)

/-! ## Exact dyadic numbers -/

/-- The number z times 2^e. -/
structure Dy where
  z : Int
  e : Int
  deriving DecidableEq, Repr

/-- The dyadic number of a finite value. -/
def dyOf (neg : Bool) (m : Nat) (e : Int) : Dy := ⟨if neg then -(m : Int) else m, e⟩

/-- Exact sum. -/
def Dy.add (a b : Dy) : Dy :=
  if a.z = 0 then b else if b.z = 0 then a else
  let e := min a.e b.e
  ⟨a.z * 2 ^ (a.e - e).toNat + b.z * 2 ^ (b.e - e).toNat, e⟩

/-- Exact product. -/
def Dy.mul (a b : Dy) : Dy := ⟨a.z * b.z, a.e + b.e⟩

/-- Exact opposite. -/
def Dy.neg (a : Dy) : Dy := ⟨-a.z, a.e⟩

/-- Exact comparison. -/
def Dy.cmp (a b : Dy) : Ordering := compare (a.add b.neg).z 0

/-- The exact value rounded into a format; a zero takes the given sign. -/
def Fmt.roundDy (f : Fmt) (md : RMode) (ftz : Bool) (zneg : Bool) (d : Dy) : Nat × Flags :=
  if d.z = 0 then (f.signPat zneg, 0) else f.round md ftz (d.z < 0) d.z.natAbs d.e

/-- The sign an exact zero sum of two numbers takes (R330). -/
def zeroSumNeg (a b : Bool) (md : RMode) : Bool := if a = b then a else md == .rd

/-! ## The narrow formats -/

/-- The value of a q8 code (R144). -/
def q8Value (p : Nat) : FpVal :=
  let neg := p / 128 % 2 == 1
  let ex := p / 8 % 16
  let m := p % 8
  if p % 256 = 0x80 then .nan false
  else if ex = 0 then .fin neg m (-9)
  else .fin neg (8 + m) ((ex : Int) - 10)

/-- The four factors F of R145, as multiples of 2^-23. -/
def l6F : Nat → Nat
  | 0 => 0x800000
  | 1 => 0x9837F0
  | 2 => 0xB504F3
  | _ => 0xD744FD

/-- The grid D(L) of R145. -/
def l6D (l : Int) : Dy := ⟨l6F (l % 4).toNat, l / 4 - 23⟩

/-- The value of an l6 code on the conversion grid (R145). -/
def l6Value (p : Nat) : FpVal :=
  let neg := p / 32 % 2 == 1
  if p % 32 = 16 then .fin neg 0 0
  else let d := l6D (sext 5 p); .fin neg d.z.natAbs d.e

/-- The value of an h4 code (R146). -/
def h4Value (p : Nat) : FpVal :=
  let k := 2 * sext 4 p + 1
  .fin (k < 0) k.natAbs (-1)

/-- The value of a pattern of a floating type (R143 to R146). -/
def fpValue (t : Ty) (p : Nat) : FpVal :=
  match t with
  | .q8 => q8Value p
  | .l6 => l6Value p
  | .h4 => h4Value p
  | t => (fmtOf t).value p

/-- round(x, q8, mode) (R144). -/
def roundQ8 (md : RMode) (neg : Bool) (m : Nat) (e : Int) : Nat × Flags :=
  if m = 0 then (0, 0)
  else
    let top : Int := e + Nat.log2 m
    let q := max (top - 3) (-9)
    let (n, inexact) := roundAt neg m e false q md
    let (n, q) := if n = 16 then (8, q + 1) else (n, q)
    let s := if neg then 128 else 0
    if (n > 15 ∨ q > 5) then (s + 0x7F, flOF ||| flNX)
    else
      let fl := (if inexact then flNX else 0) ||| (if inexact && n < 8 then flUF else 0)
      if n = 0 then (0, fl)
      else if n < 8 then (s + n, fl)
      else (s + (q + 10).toNat * 8 + (n - 8), fl)

/-- The number of grid magnitudes of l6 not above a positive number: 0 stands for zero only, k + 1 for D(k - 15). -/
def l6Below (x : Dy) : Nat :=
  ((List.range 31).filter fun (k : Nat) => (l6D ((k : Int) - 15)).cmp x != .gt).length

/-- The grid magnitude of an index: 0 is zero, k is D(k - 16). -/
def l6Mag (k : Nat) : Dy := if k = 0 then ⟨0, 0⟩ else l6D ((k : Int) - 16)

/-- The code of a sign and a grid index. -/
def l6Code (neg : Bool) (k : Nat) : Nat := (if neg then 32 else 0) + wrap 5 ((k : Int) - 16)

/-- round(x, l6, mode) (R145). -/
def roundL6 (md : RMode) (neg : Bool) (m : Nat) (e : Int) : Nat × Flags :=
  if m = 0 then (l6Code neg 0, 0)
  else
    let x : Dy := ⟨m, e⟩
    let k := l6Below x
    if (l6Mag k).cmp x = .eq then (l6Code neg k, 0)
    else if k = 31 then (l6Code neg 31, flOF ||| flNX)
    else
      let mid := (l6Mag k).add (l6Mag (k + 1))
      let c := (x.add x).cmp mid
      let up : Bool := match md with
        | .rne => c == .gt || (c == .eq && k % 2 == 1)
        | .rna => c != .lt
        | .rz => false
        | .ru => !neg
        | .rd => neg
      let k := if up then k + 1 else k
      (l6Code neg k, flNX ||| (if k = 0 then flUF else 0))

/-- round(x, h4, mode) (R146). -/
def roundH4 (md : RMode) (neg : Bool) (m : Nat) (e : Int) : Nat × Flags :=
  let x := dyOf neg m e
  let pt (n : Int) : Dy := ⟨2 * n + 1, -1⟩
  -- the greatest n with n + 1/2 at or below x
  let lo : Int := let y := (x.add ⟨-1, -1⟩); if y.e ≥ 0 then y.z * 2 ^ y.e.toNat else y.z / 2 ^ (-y.e).toNat
  if x.cmp (pt 7) = .gt then (7, flOF ||| flNX)
  else if x.cmp (pt (-8)) = .lt then (8, flOF ||| flNX)
  else if (pt lo).cmp x = .eq then (wrap 4 lo, 0)
  else
    let c := (x.add x).cmp ((pt lo).add (pt (lo + 1)))
    let n : Int := match md with
      | .rne => if c = .gt then lo + 1 else if c = .lt then lo else (if lo % 2 = 0 then lo else lo + 1)
      | .rna => if c = .gt then lo + 1 else if c = .lt then lo else (if neg then lo else lo + 1)
      | .ru => min (lo + 1) 7
      | .rd => max lo (-8)
      | .rz => if lo = -1 then (if neg then -1 else 0) else if neg then lo + 1 else lo
    (wrap 4 n, flNX)

/-- A finite number rounded into a floating type (R144 to R147). -/
def roundTy (t : Ty) (md : RMode) (ftz : Bool) (neg : Bool) (m : Nat) (e : Int) : Nat × Flags :=
  match t with
  | .q8 => roundQ8 md neg m e
  | .l6 => roundL6 md neg m e
  | .h4 => roundH4 md neg m e
  | t => (fmtOf t).round md ftz neg m e

/-- An infinity converted into a floating type (R144 to R146, R152). -/
def infTo (t : Ty) (neg : Bool) : Nat × Flags :=
  match t with
  | .q8 => ((if neg then 128 else 0) + 0x7F, flNV)
  | .l6 => (l6Code neg 31, flNV)
  | .h4 => (if neg then 8 else 7, flNV)
  | t => ((fmtOf t).signPat neg + (fmtOf t).infPat, 0)

/-- A NaN converted into a floating type (R143 to R146). -/
def nanTo (t : Ty) (signalling : Bool) : Nat × Flags :=
  match t with
  | .q8 => (0x80, if signalling then flNV else 0)
  | .l6 => (16, flNV)
  | .h4 => (0, flNV)
  | t => ((fmtOf t).nanPat, if signalling then flNV else 0)

/-- Whether a type is one of the three narrow formats. -/
def isNarrow : Ty → Bool
  | .q8 | .l6 | .h4 => true
  | _ => false

/-- Whether a type is an integer type. -/
def isInt (t : Ty) : Bool := t.intTy

/-- The greatest value of an integer type. -/
def intMax (t : Ty) : Int := if tySigned t then (2 ^ (tyWidth t - 1) : Nat) - 1 else (2 ^ tyWidth t : Nat) - 1
/-- The least value of an integer type. -/
def intMin (t : Ty) : Int := if tySigned t then -(2 ^ (tyWidth t - 1) : Nat) else 0
/-- An integer clamped to a type's range. -/
def clampInt (t : Ty) (x : Int) : Int := min (max x (intMin t)) (intMax t)

/-- A number rounded to an integer under a mode, and whether it differs. -/
def roundInt (md : RMode) (neg : Bool) (m : Nat) (e : Int) : Int × Bool :=
  let (n, ix) := roundAt neg m e false 0 md
  (if neg then -(n : Int) else n, ix)

/-- One sub-element converted from type s to type d (R152, R321). -/
def convElem (d s : Ty) (md : RMode) (ftz : Bool) (p : Nat) : Nat × Flags :=
  let ftz := ftz && !isNarrow d && !isNarrow s
  if isInt s then
    let x := if tySigned s then sext (tyWidth s) p else (p : Int)
    if isInt d then (wrap (tyWidth d) (clampInt d x), 0)
    else roundTy d md ftz (x < 0) x.natAbs 0
  else
    let v := if isNarrow s then fpValue s p else (fmtOf s).flushIn ftz ((fmtOf s).value p)
    match v with
    | .nan sg => if isInt d then (0, flNV) else nanTo d sg
    | .inf neg => if isInt d then (wrap (tyWidth d) (if neg then intMin d else intMax d), flNV) else infTo d neg
    | .fin neg m e =>
      if isInt d then
        let (n, ix) := roundInt md neg m e
        if n < intMin d then (wrap (tyWidth d) (intMin d), flNV)
        else if intMax d < n then (wrap (tyWidth d) (intMax d), flNV)
        else (wrap (tyWidth d) n, if ix then flNX else 0)
      else roundTy d md ftz neg m e

/-- A pattern of an IEEE format widened exactly into a larger one; a NaN gives the canonical NaN and raises no flag
(R276). -/
def widen (src dst : Fmt) (p : Nat) : Nat :=
  match src.value p with
  | .nan _ => dst.nanPat
  | .inf neg => dst.signPat neg + dst.infPat
  | .fin neg m e => (dst.round .rne false neg m e).1

end Sys2Proof.Machine
end

