-- ==== Sys2Proof/Machine/Elem.lean ====
section
/-! DEFINITION. One sub-element at a time: the exact operations of class 0 (R359), class 1 (R306, R310, R393), the
compares (R334, R362) and class 3 (R330, R338, R344, R346 to R348), and the operations of atomics and reductions. -/

namespace Sys2Proof.Machine

/-! ## Integers -/

/-- A two-operand or three-operand integer operation of R359. -/
inductive IntOp where
  | add | sub | mul | mulh | mad | div | rem | min | max | abs | neg
  deriving DecidableEq, Repr

/-- The exact value of R359; division by zero is decided apart in `intElem`. -/
def IntOp.exact (o : IntOp) (w : Nat) (a b c : Int) : Int :=
  match o with
  | .add => a + b
  | .sub => a - b
  | .mul => a * b
  | .mulh => (a * b) / (2 ^ w : Nat)
  | .mad => a * b + c
  | .div => if b = 0 then -1 else a.tdiv b
  | .rem => if b = 0 then a else a - b * a.tdiv b
  | .min => if a ≤ b then a else b
  | .max => if a ≤ b then b else a
  | .abs => if a < 0 then -a else a
  | .neg => -a

/-- The result pattern of an exact integer value: wrapped, or clamped under `.sat` (R359). -/
def intRes (t : Ty) (sat : Bool) (x : Int) : Nat := wrap (tyWidth t) (if sat then clampInt t x else x)

/-- An integer instruction over every sub-element of a register (R359). -/
def intAll (o : IntOp) (t : Ty) (sat : Bool) (a b c : Word) : Word :=
  mapElems t fun i => intRes t sat (o.exact (tyWidth t) (elemInt a i t) (elemInt b i t) (elemInt c i t))

/-- IDOT4 (R360). -/
def idot4 (t : Ty) (sat : Bool) (a b c : Word) : Word :=
  let ct : Ty := if t = .s8 then .s32 else .n32
  mapElems ct fun j =>
    let x := (List.range 4).foldl (fun s k => s + elemInt a (4 * j + k) t * elemInt b (4 * j + k) t) (elemInt c j ct)
    intRes ct sat x

/-- Shift operations of R393. -/
inductive ShiftOp where
  | shl | shr | shra | rot
  deriving DecidableEq, Repr

/-- One sub-element of a shift (R393). -/
def ShiftOp.elem (o : ShiftOp) (w a c : Nat) : Nat :=
  match o with
  | .shl => if w ≤ c then 0 else a * 2 ^ c % 2 ^ w
  | .shr => if w ≤ c then 0 else a / 2 ^ c
  | .shra => wrap w (sext w a / (2 ^ min c (w - 1) : Nat))
  | .rot => (a * 2 ^ (c % w) + a / 2 ^ (w - c % w)) % 2 ^ w

/-- A shift over every sub-element (R393). -/
def shiftAll (o : ShiftOp) (t : Ty) (a b : Word) : Word :=
  mapElems t fun i => o.elem (tyWidth t) (elem a i t) (elem b i t)

/-- The number of 1 bits among the w low bits (R380). -/
def popcount (w n : Nat) : Nat := ((List.range w).filter n.testBit).length
/-- The number of zero bits above the highest 1 bit (R310). -/
def clz (w n : Nat) : Nat := if n = 0 then w else w - 1 - Nat.log2 n
/-- The number of zero bits below the lowest 1 bit (R310). -/
def ctz (w n : Nat) : Nat := ((List.range w).find? n.testBit).getD w
/-- Bits in the opposite order (R310). -/
def brev (w n : Nat) : Nat := (List.range w).foldl (fun s j => s + if n.testBit (w - 1 - j) then 2 ^ j else 0) 0

/-- A one-operand function of patterns over every sub-element. -/
def unaryAll (t : Ty) (f : Nat → Nat → Nat) (a : Word) : Word := mapElems t fun i => f (tyWidth t) (elem a i t)

/-- Position and length of a field control (R306). -/
def fieldCtl (w c : Nat) : Nat × Nat := if w = 8 then (c % 16, c / 16 % 16) else (c % 256, c / 256 % 256)

/-- BFX on one sub-element (R306). -/
def bfxElem (t : Ty) (a c : Nat) : Nat :=
  let w := tyWidth t
  let (pos, len) := fieldCtl w c
  if w ≤ pos ∨ len = 0 then 0
  else
    let m := min len (w - pos)
    let f := a / 2 ^ pos % 2 ^ m
    if tySigned t then wrap w (sext m f) else f

/-- BFI on one sub-element: a's low bits into base b (R306). -/
def bfiElem (t : Ty) (a b c : Nat) : Nat :=
  let w := tyWidth t
  let (pos, len) := fieldCtl w c
  if w ≤ pos ∨ len = 0 then b
  else
    let m := min len (w - pos)
    b / 2 ^ (pos + m) * 2 ^ (pos + m) + a % 2 ^ m * 2 ^ pos + b % 2 ^ pos

/-- LOP3 (R371): gA indexes bit 0, B bit 1, gC bit 2 of the table. -/
def lop3 (tbl : Nat) (a b c : Word) : Word :=
  BitVec.ofNat 64 ((List.range 64).foldl (fun s j =>
    let idx := (if wbit a j then 1 else 0) + (if wbit b j then 2 else 0) + (if wbit c j then 4 else 0)
    s + if tbl.testBit idx then 2 ^ j else 0) 0)

/-- PRMT (R382). -/
def prmt (a b c : Word) : Word :=
  let src := wordBytes a ++ wordBytes b
  wordOfBytes ((wordBytes c).map fun ctl =>
    let v := if wbits (ctl.setWidth 64) 7 1 = 1 then 0 else (src[wbits (ctl.setWidth 64) 0 4]?).getD 0
    if wbits (ctl.setWidth 64) 6 1 = 1 then ~~~ v else v)

/-- A condition of ICMP (R362). -/
def icond (c : ICond) (a b : Int) : Bool :=
  match c with
  | .eq => a == b
  | .ne => a != b
  | .lt => a < b
  | .le => a ≤ b
  | .gt => a > b
  | .ge => a ≥ b

/-- The sub-elements a compare form examines (R334). -/
def formIdx (f : CmpForm) (t : Ty) : List Nat :=
  match f with
  | .first => [0]
  | _ => List.range (tyCount t)

/-- The predicate of a compare form over the examined truths (R334). -/
def formTruth (f : CmpForm) (bs : List Bool) : Bool :=
  match f with
  | .first | .all => bs.all id
  | .any => bs.any id

/-! ## Floating arithmetic -/

/-- One sub-element's result pattern and flags. -/
abbrev FpRes := Nat × Flags

/-- The canonical NaN, invalid. -/
def nanNV (f : Fmt) : FpRes := (f.nanPat, flNV)
/-- A quiet NaN result: invalid only if a signalling operand was read (R143). -/
def nanQ (f : Fmt) (sig : Bool) : FpRes := (f.nanPat, if sig then flNV else 0)
/-- An infinity of a sign, no flag. -/
def infRes (f : Fmt) (neg : Bool) : FpRes := (f.signPat neg + f.infPat, 0)

/-- Whether a value is a NaN. -/
def FpVal.isNan : FpVal → Bool
  | .nan _ => true
  | _ => false
/-- Whether a value is a signalling NaN. -/
def FpVal.isSig : FpVal → Bool
  | .nan s => s
  | _ => false
/-- The opposite value; a NaN is unchanged. -/
def FpVal.opp : FpVal → FpVal
  | .inf n => .inf (!n)
  | .fin n m e => .fin (!n) m e
  | v => v
/-- The sign of a number or infinity. -/
def FpVal.isNeg : FpVal → Bool
  | .inf n => n
  | .fin n _ _ => n
  | .nan _ => false
/-- Whether a value is a zero. -/
def FpVal.isZero : FpVal → Bool
  | .fin _ 0 _ => true
  | _ => false
/-- Whether a value is an infinity. -/
def FpVal.isInf : FpVal → Bool
  | .inf _ => true
  | _ => false
/-- The exact number of a finite value; 0 for the others. -/
def FpVal.dy : FpVal → Dy
  | .fin n m e => dyOf n m e
  | _ => ⟨0, 0⟩

/-- a + b, rounded once (R330). -/
def fAdd (f : Fmt) (md : RMode) (ftz : Bool) (a b : FpVal) : FpRes :=
  match a, b with
  | .nan s, v => nanQ f (s || v.isSig)
  | v, .nan s => nanQ f (s || v.isSig)
  | .inf x, .inf y => if x = y then infRes f x else nanNV f
  | .inf x, _ => infRes f x
  | _, .inf y => infRes f y
  | .fin x m e, .fin y n g => f.roundDy md ftz (if m = 0 ∧ n = 0 then zeroSumNeg x y md else md == .rd)
      ((dyOf x m e).add (dyOf y n g))

/-- a times b, rounded once (R330). -/
def fMul (f : Fmt) (md : RMode) (ftz : Bool) (a b : FpVal) : FpRes :=
  match a, b with
  | .nan s, v => nanQ f (s || v.isSig)
  | v, .nan s => nanQ f (s || v.isSig)
  | .inf x, v => if v.isZero then nanNV f else infRes f (x != v.isNeg)
  | v, .inf y => if v.isZero then nanNV f else infRes f (y != v.isNeg)
  | .fin x m e, .fin y n g => f.round md ftz (x != y) (m * n) (e + g)

/-- a times b plus c, rounded once (R330). -/
def fFma (f : Fmt) (md : RMode) (ftz : Bool) (a b c : FpVal) : FpRes :=
  if (a.isInf && b.isZero) || (a.isZero && b.isInf) then nanNV f
  else if a.isNan || b.isNan || c.isNan then nanQ f (a.isSig || b.isSig || c.isSig)
  else
    let pn := a.isNeg != b.isNeg
    if a.isInf || b.isInf then
      match c with
      | .inf y => if y = pn then infRes f pn else nanNV f
      | _ => infRes f pn
    else match c with
      | .inf y => infRes f y
      | _ =>
        let p := a.dy.mul b.dy
        f.roundDy md ftz (if p.z = 0 ∧ c.isZero then zeroSumNeg pn c.isNeg md else md == .rd) (p.add c.dy)

/-- The quotient of two positive numbers with bits to spare: mantissa, exponent and whether a remainder is left. -/
def divExact (m n : Nat) (e g : Int) : Nat × Int × Bool :=
  let k := 128 + Nat.log2 n
  let x := m * 2 ^ k
  (x / n, e - g - k, x % n != 0)

/-- a divided by b, rounded once (R330). -/
def fDiv (f : Fmt) (md : RMode) (ftz : Bool) (a b : FpVal) : FpRes :=
  match a, b with
  | .nan s, v => nanQ f (s || v.isSig)
  | v, .nan s => nanQ f (s || v.isSig)
  | .inf x, v => if v.isInf then nanNV f else infRes f (x != v.isNeg)
  | v, .inf y => (f.signPat (v.isNeg != y), 0)
  | .fin x m e, .fin y n g =>
    if n = 0 then (if m = 0 then nanNV f else (f.signPat (x != y) + f.infPat, flDZ))
    else
      let (q, ex, st) := divExact m n e g
      f.round md ftz (x != y) q ex st

/-- The bits of an integer square root, from a bit number down. -/
def isqrtGo (n : Nat) : Nat → Nat → Nat
  | 0, r => r
  | k + 1, r =>
    let r' := r + 2 ^ k
    isqrtGo n k (if r' * r' ≤ n then r' else r)

/-- The integer square root, rounded down. -/
def isqrt (n : Nat) : Nat := isqrtGo n (Nat.log2 n / 2 + 1) 0

/-- The square root of m times 2^e with bits to spare. -/
def sqrtExact (m : Nat) (e : Int) : Nat × Int × Bool :=
  let (m, e) := if e % 2 = 0 then (m, e) else (2 * m, e - 1)
  let x := m * 2 ^ 256
  let r := isqrt x
  (r, e / 2 - 128, r * r != x)

/-- The square root, rounded once (R330). -/
def fSqrt (f : Fmt) (md : RMode) (ftz : Bool) (a : FpVal) : FpRes :=
  match a with
  | .nan s => nanQ f s
  | .inf x => if x then nanNV f else infRes f false
  | .fin x m e =>
    if m = 0 then (f.signPat x, 0)
    else if x then nanNV f
    else let (r, ex, st) := sqrtExact m e; f.round md ftz false r ex st

/-- The reciprocal, rounded once (R330). -/
def fRcp (f : Fmt) (md : RMode) (ftz : Bool) (a : FpVal) : FpRes := fDiv f md ftz (.fin false 1 0) a

/-- The reciprocal square root, rounded once (R330). -/
def fRsq (f : Fmt) (md : RMode) (ftz : Bool) (a : FpVal) : FpRes :=
  match a with
  | .nan s => nanQ f s
  | .inf x => if x then nanNV f else (0, 0)
  | .fin x m e =>
    if m = 0 then (f.signPat x + f.infPat, flDZ)
    else if x then nanNV f
    else
      let (m, e) := if e % 2 = 0 then (m, e) else (2 * m, e - 1)
      let k := 128 + Nat.log2 m
      let r := isqrt (2 ^ (2 * k) / m)
      f.round md ftz false r (-(e / 2) - k) (r * r * m != 2 ^ (2 * k))

/-- FRND: to an integral value of the same format (R346). -/
def fRnd (f : Fmt) (md : RMode) (p : Nat) (v : FpVal) : FpRes :=
  match v with
  | .nan s => nanQ f s
  | .inf _ => (p, 0)
  | .fin x m e =>
    if m = 0 ∨ 0 ≤ e then (f.round .rne false x m e |>.1, 0)
    else ((f.round .rne false x (roundAt x m e false 0 md).1 0).1, 0)

/-- FSCL: a times 2^n (R347). -/
def fScl (f : Fmt) (md : RMode) (ftz : Bool) (v : FpVal) (n : Int) : FpRes :=
  match v with
  | .nan s => nanQ f s
  | .inf x => infRes f x
  | .fin x m e => if m = 0 then (f.signPat x, 0)
      else f.round md ftz x m (e + max (-100000) (min n 100000))

/-- FMIN and FMAX on one sub-element (R151): a flushed operand is delivered as the zero it was read as. -/
def fMinMax (f : Fmt) (isMax nanForm : Bool) (a b : FpVal) : FpRes :=
  let pat (v : FpVal) : Nat := match v with
    | .nan _ => f.nanPat
    | .inf x => f.signPat x + f.infPat
    | .fin x m e => (f.round .rne false x m e).1
  if a.isSig || b.isSig then nanNV f
  else if a.isNan || b.isNan then
    if nanForm || (a.isNan && b.isNan) then (f.nanPat, 0)
    else (pat (if a.isNan then b else a), 0)
  else
    let less : Bool := match a, b with
      | .inf x, v => x && v != .inf true
      | v, .inf y => !y && v != .inf false
      | .fin x m e, .fin y n g =>
        if m = 0 ∧ n = 0 then x && !y else (dyOf x m e).cmp (dyOf y n g) == .lt
      | _, _ => false
    (pat (if less != isMax then a else b), 0)

/-- The comparison of two values: none when unordered. -/
def fOrder (a b : FpVal) : Option Ordering :=
  match a, b with
  | .nan _, _ => none
  | _, .nan _ => none
  | .inf x, .inf y => some (if x = y then .eq else if x then .lt else .gt)
  | .inf x, _ => some (if x then .lt else .gt)
  | _, .inf y => some (if y then .gt else .lt)
  | .fin x m e, .fin y n g => some ((dyOf x m e).cmp (dyOf y n g))

/-- FCMP on one sub-element: truth and flags (R334, R335). -/
def fCompare (c : FCond) (a b : FpVal) : Bool × Flags :=
  let o := fOrder a b
  let sig := a.isSig || b.isSig
  let loud := o.isNone && (match c with | .lt | .le | .gt | .ge => true | _ => false)
  let truth : Bool := match c with
    | .eq => o == some .eq
    | .ne => o == some .lt || o == some .gt
    | .lt => o == some .lt
    | .le => o == some .lt || o == some .eq
    | .gt => o == some .gt
    | .ge => o == some .gt || o == some .eq
    | .ord => o.isSome
    | .uno => o.isNone
    | .equ => o != some .lt && o != some .gt
    | .neu => o != some .eq
    | .ltu => o == some .lt || o.isNone
    | .leu => o != some .gt
    | .gtu => o == some .gt || o.isNone
    | .geu => o != some .lt
  (truth, if sig || loud then flNV else 0)

/-- The class number of a pattern (R333). -/
def fClassOf (f : Fmt) (p : Nat) : Nat :=
  match f.value p with
  | .nan s => if s then 0 else 1
  | .inf x => if x then 2 else 9
  | .fin x m _ =>
    if m = 0 then (if x then 5 else 6)
    else if m < 2 ^ f.mw then (if x then 4 else 7)
    else if x then 3 else 8

/-- The exact sum of finite products and an addend with the sign of an exact zero (R338). -/
def exactSum (f : Fmt) (md : RMode) (ftz : Bool) (signs : List Bool) (ds : List Dy) : FpRes :=
  let s := ds.foldl Dy.add ⟨0, 0⟩
  let allZero := ds.all fun d => d.z == 0
  let zneg := if allZero && signs.all id then true
    else if allZero && signs.all (!·) then false else md == .rd
  f.roundDy md ftz zneg s

/-- FDOT: products of a and b and one f32 addend (R338). -/
def fDot (md : RMode) (ftz : Bool) (as bs : List FpVal) (c : FpVal) : FpRes :=
  let ps := as.zip bs
  let f := fmtF32
  let zi := ps.any fun p => (p.1.isInf && p.2.isZero) || (p.1.isZero && p.2.isInf)
  let sig := ps.any (fun p => p.1.isSig || p.2.isSig) || c.isSig
  let anyNan := ps.any (fun p => p.1.isNan || p.2.isNan) || c.isNan
  let infs := (ps.filter fun p => p.1.isInf || p.2.isInf).map (fun p => p.1.isNeg != p.2.isNeg) ++
    (if c.isInf then [c.isNeg] else [])
  if zi || sig then nanNV f
  else if anyNan then (f.nanPat, 0)
  else match infs with
    | x :: r => if r.all (· == x) then infRes f x else nanNV f
    | [] => exactSum f md ftz ((ps.map fun p => p.1.isNeg != p.2.isNeg) ++ [c.isNeg])
        ((ps.map fun p => p.1.dy.mul p.2.dy) ++ [c.dy])

/-- FSUM: partial sums in ascending order, each rounded to f32 (R162, R348). A first element that is f32-rounded is
itself: every source value fits f32. -/
def fSum (md : RMode) (ftz : Bool) (vs : List FpVal) : FpRes :=
  let f := fmtF32
  match vs with
  | [] => (0, 0)
  | v :: r =>
    let start : FpRes := match v with
      | .nan s => nanQ f s
      | .inf x => infRes f x
      | .fin x m e => ((f.round .rne false x m e).1, 0)
    r.foldl (fun acc w =>
      let res := fAdd f md ftz (f.value acc.1) w
      (res.1, acc.2 ||| res.2)) start

/-! ## Atomics and reductions -/

/-- An atomic operation on one element of width w: integer, bitwise or floating (R301). -/
def atomElem (op : AtomOp) (t : Ty) (old v : Nat) : Nat :=
  let w := tyWidth t
  let iv (p : Nat) : Int := if tySigned t then sext w p else (p : Int)
  let f := fmtOf t
  match op with
  | .add => if t.fpTy then (fAdd f .rne false (f.value old) (f.value v)).1 else (old + v) % 2 ^ w
  | .min => if t.fpTy then (fMinMax f false false (f.value old) (f.value v)).1 else if iv old ≤ iv v then old else v
  | .max => if t.fpTy then (fMinMax f true false (f.value old) (f.value v)).1 else if iv old ≤ iv v then v else old
  | .and => old &&& v
  | .or => old ||| v
  | .xor => old ^^^ v
  | .exch => v

/-- One operation of WRED and WSCAN on one sub-element (R415). -/
def redElem (op : RedOp) (t : Ty) (md : RMode) (ftz : Bool) (a b : Nat) : FpRes :=
  let f := fmtOf t
  let rd (p : Nat) : FpVal := f.flushIn ftz (f.value p)
  let iv (p : Nat) : Int := if tySigned t then sext (tyWidth t) p else (p : Int)
  match op with
  | .add => if t.fpTy then fAdd f md ftz (rd a) (rd b) else ((a + b) % 2 ^ tyWidth t, 0)
  | .min => if t.fpTy then fMinMax f false false (rd a) (rd b) else (if iv a ≤ iv b then a else b, 0)
  | .max => if t.fpTy then fMinMax f true false (rd a) (rd b) else (if iv a ≤ iv b then b else a, 0)
  | .and => (a &&& b, 0)
  | .or => (a ||| b, 0)
  | .xor => (a ^^^ b, 0)

/-- The identity of a reduction (R160). -/
def redIdentity (op : RedOp) (t : Ty) : Nat :=
  let f := fmtOf t
  match op with
  | .add | .or | .xor => 0
  | .min => if t.fpTy then f.infPat else wrap (tyWidth t) (intMax t)
  | .max => if t.fpTy then f.signPat true + f.infPat else wrap (tyWidth t) (intMin t)
  | .and => 2 ^ tyWidth t - 1

end Sys2Proof.Machine
end

