-- ==== Sys2Proof/Machine/Tbl.lean ====
section
/-! DEFINITION. Sparse tables: reading, writing and removing a key, and small list helpers. -/

namespace Sys2Proof.Machine

/-- The value listed for a key. -/
def tget {α : Type} : Tbl α → Nat → Option α
  | [], _ => none
  | (k, v) :: r, n => if n = k then some v else tget r n

/-- The value listed for a key, or a default. -/
def tgetD {α : Type} (t : Tbl α) (n : Nat) (d : α) : α := (tget t n).getD d

/-- The table with a key written; keys stay strictly rising. -/
def tset {α : Type} : Tbl α → Nat → α → Tbl α
  | [], n, x => [(n, x)]
  | (k, v) :: r, n, x =>
    if n < k then (n, x) :: (k, v) :: r
    else if n = k then (n, x) :: r
    else (k, v) :: tset r n x

/-- The table without a key. -/
def tdel {α : Type} (t : Tbl α) (n : Nat) : Tbl α := t.filter fun p => p.1 != n

/-- A listed value changed in place; nothing happens to a key that is not listed. -/
def tmod {α : Type} (t : Tbl α) (n : Nat) (f : α → α) : Tbl α :=
  t.map fun p => if p.1 = n then (p.1, f p.2) else p

/-- A value changed, starting from a default when the key is not listed. -/
def tupd {α : Type} (t : Tbl α) (n : Nat) (d : α) (f : α → α) : Tbl α := tset t n (f (tgetD t n d))

/-- The keys of a table. -/
def tkeys {α : Type} (t : Tbl α) : List Nat := t.map Prod.fst

/-- Keys strictly rise. -/
def tsorted {α : Type} : Tbl α → Bool
  | [] => true
  | [_] => true
  | (a, _) :: (b, y) :: r => a < b && tsorted ((b, y) :: r)

/-- A list with one element replaced; nothing happens past its end. -/
def lset {α : Type} : List α → Nat → α → List α
  | [], _, _ => []
  | _ :: r, 0, x => x :: r
  | y :: r, n + 1, x => y :: lset r n x

/-- A list with one element changed. -/
def lmod {α : Type} : List α → Nat → (α → α) → List α
  | [], _, _ => []
  | y :: r, 0, f => f y :: r
  | y :: r, n + 1, f => y :: lmod r n f

/-- A function of index and element, over a list, starting at an index. -/
def mapFrom {α β : Type} (f : Nat → α → β) : Nat → List α → List β
  | _, [] => []
  | i, x :: r => f i x :: mapFrom f (i + 1) r

/-- A fold over the numbers i, i+1, ..., i+n-1. -/
def foldN {σ : Type} (f : Nat → σ → σ) : Nat → Nat → σ → σ
  | _, 0, s => s
  | i, n + 1, s => foldN f (i + 1) n (f i s)

/-- A number inserted into an ascending list without repeats. -/
def insNat (n : Nat) : List Nat → List Nat
  | [] => [n]
  | k :: r => if n < k then n :: k :: r else if n = k then k :: r else k :: insNat n r

/-- The numbers below n for which a test holds. -/
def numsWhere (n : Nat) (p : Nat → Bool) : List Nat := (List.range n).filter p

end Sys2Proof.Machine
end

