-- ==== Sys2Proof/Machine/Block.lean ====
section
/-! DEFINITION. Self-describing blocks (R153 to R156), their CRC-16, and the CRC-64 of the paired signature (R244). -/

namespace Sys2Proof.Machine

/-- One bit fed into a CRC register of w bits, most significant bit first. -/
def crcBit (w poly : Nat) (crc : Nat) (bit : Bool) : Nat :=
  let top := crc.testBit (w - 1)
  let sh := crc * 2 % 2 ^ w
  if top != bit then sh ^^^ poly else sh

/-- One byte fed most significant bit first. -/
def crcByte (w poly : Nat) (crc : Nat) (b : Byte) : Nat :=
  [7, 6, 5, 4, 3, 2, 1, 0].foldl (fun c i => crcBit w poly c (b.getLsbD i)) crc

/-- The CRC-16 of R154. -/
def crc16 (bs : List Byte) : Nat := bs.foldl (crcByte 16 0x1021) 0xFFFF

/-- The CRC-64 fold of R244, starting from a register. -/
def crc64 (start : Word) (bs : List Byte) : Word :=
  BitVec.ofNat 64 (bs.foldl (crcByte 64 0x42F0E1EBA9EA3693) start.toNat)

/-- The element format a block names, if byte 0 is one of the five codes (R153). -/
def blockFormat (bs : List Byte) : Option Ty :=
  match ((bs[0]?).getD 0).toNat with
  | 8 => some .f16
  | 9 => some .bf16
  | 12 => some .q8
  | 13 => some .l6
  | 14 => some .h4
  | _ => none

/-- The element count of a format (R153). -/
def blockCount : Ty → Nat
  | .h4 => 120
  | .l6 => 80
  | .q8 => 60
  | _ => 30

/-- A block is well-formed: one of the five codes and a CRC that matches (R155). -/
def blockOk (bs : List Byte) : Bool :=
  (blockFormat bs).isSome && crc16 (bs.take 62) == leNat ((bs.drop 62).take 2)

/-- The pattern of element i of a block of format t (R153). -/
def blockElem (t : Ty) (bs : List Byte) (i : Nat) : Nat :=
  bitsOf (leNat ((bs.drop 2).take 60)) (i * tyWidth t) (tyWidth t)

/-- The scale exponent E - 127 of a block (R153). -/
def blockScale (bs : List Byte) : Int := (((bs[1]?).getD 0).toNat : Int) - 127

/-- The exact value of element i of a well-formed block (R155). -/
def blockValue (t : Ty) (bs : List Byte) (i : Nat) : FpVal :=
  match fpValue t (blockElem t bs i) with
  | .fin n m e => .fin n m (e + blockScale bs)
  | v => v

/-- One DQBLK sub-element (R325, R155). -/
def dqElem (d : Ty) (md : RMode) (bs : List Byte) (j : Nat) : FpRes :=
  let f := fmtOf d
  match blockFormat bs with
  | none => nanNV f
  | some t =>
    if blockOk bs = false then nanNV f
    else if blockCount t ≤ j then (0, 0)
    else match blockValue t bs j with
      | .nan s => nanQ f s
      | .inf x => infRes f x
      | .fin n m e => f.round md false n m e

/-- The largest magnitude M_f of a block format (R156). -/
def blockMax : Ty → Dy
  | .q8 => ⟨480, 0⟩
  | .l6 => l6D 15
  | .h4 => ⟨15, -1⟩
  | .bf16 => (fmtBf16.value 0x7F7F).dy
  | _ => ⟨65504, 0⟩

/-- The greatest magnitude among the non-NaN inputs: none for an infinity (R156). -/
def blockAmax (xs : List FpVal) : Option Dy :=
  xs.foldl (fun acc v => match acc, v with
    | none, _ => none
    | _, .inf _ => none
    | some a, .fin _ m e => if a.cmp ⟨m, e⟩ = .lt then some ⟨m, e⟩ else some a
    | some a, .nan _ => some a) (some ⟨0, 0⟩)

/-- The block exponent E (R156). -/
def blockExp (t : Ty) (xs : List FpVal) : Nat :=
  match blockAmax xs with
  | none => 255
  | some a =>
    if a.z = 0 then 0
    else ((List.range 256).find? fun (k : Nat) => ((Dy.mk a.z (a.e + 127 - (k : Int))).cmp (blockMax t)) != .gt).getD 255

/-- The 64 bytes of a block from its format, exponent and element patterns (R153, R154). -/
def blockBytes (t : Ty) (e : Nat) (ps : List Nat) : List Byte :=
  let body := BitVec.ofNat 8 (eTy t) :: BitVec.ofNat 8 e :: leBytes 60 (packElems (tyWidth t) ps)
  body ++ leBytes 2 (crc16 body)

/-- The residual of an element: what the block lost, rounded to f32 (R156). -/
def residual (x w : FpVal) : Nat :=
  let f := fmtF32
  match x, w with
  | .nan _, _ => f.nanPat
  | .inf a, .inf b => if a = b then 0 else f.signPat a + f.infPat
  | .inf a, _ => f.signPat a + f.infPat
  | .fin _ _ _, .fin _ _ _ => (f.roundDy .rne false false (x.dy.add w.dy.neg)).1
  | .fin _ _ _, .inf b => f.signPat (!b) + f.infPat
  | .fin _ _ _, .nan _ => f.nanPat

/-- QBLK: block bytes, residual patterns and flags of f32 inputs (R156, R385). -/
def qblkPack (t : Ty) (md : RMode) (xs : List Nat) : List Byte × List Nat × Flags :=
  let vs := xs.map fmtF32.value
  let e := blockExp t vs
  let rs := vs.map fun v => match v with
    | .nan s => nanTo t s
    | .inf x => infTo t x
    | .fin n m x => roundTy t md false n m (x + 127 - e)
  let bs := blockBytes t e (rs.map (·.1))
  (bs, mapFrom (fun i v => residual v (blockValue t bs i)) 0 vs, rs.foldl (fun f r => f ||| r.2) 0)

end Sys2Proof.Machine
end

