-- ==== Sys2Proof/Config.lean ====
section
/-! DEFINITION. What an implementation fixes and the values the spec leaves open.  An `opaque` constant has no
body: nothing in Lean can evaluate it, so a statement about it holds for every value. -/

namespace Sys2Proof.Config

/-- FREE VALUE. The n-th byte the device delivers where the spec leaves a byte open: bytes 0-15 of a block
returned to Stuffsack (R139), a status code that no rule names (R221), what an external endpoint answers (R230). -/
opaque freeByte : Nat → BitVec 8

/-- FREE VALUE. What the sensor of a number reads at the n-th draw (R254 gives no values). -/
opaque sensor : Nat → Nat → Nat

/-- FREE VALUE. The SHA-384 digests of the two vendor public keys in the fuses, RSA-3072 and SLH-DSA-SHA2-192s (R250). -/
opaque vendorKeys : BitVec 384 × BitVec 384

/-- FREE VALUE. The public halves of the device identity pair and of the attestation pair, of both kinds (R251). -/
opaque identityKeys : Nat × Nat
opaque attestKeys : Nat × Nat

/-- FREE VALUE. The two signatures, RSA and SLH-DSA, that a pair of keys makes over a text (R251 gives the contents, no value). -/
opaque signatures : Nat × Nat → List Nat → Nat × Nat

/-- FREE VALUE. Which of the platform sources 4 to 15 Lantern lists for the alarms of the security block (R236, R252). -/
opaque alarmSource : Nat

/-- FREE VALUE. Whether the policy fuse selects zeroisation on a glitch or temperature alarm (R252). -/
opaque policyFuse : Bool

/-- FREE VALUE. The cycles of sleep that a Bivouac record keeps for a thread which BRKPT put to sleep, by the time of the save
and the thread's place (R84, R311: its sleep has no stated end). -/
opaque debugRest : Nat → List Nat → BitVec 64

/-- FREE VALUE. How an external endpoint answers the n-th request for its memory: 0 it performs it, 1 it refuses it,
anything else no answer comes (R230 leaves it to the target). -/
opaque fabricAnswer : Nat → Nat

/-- FREE VALUE. The table entry that an external endpoint answers to a walker, by the number of values drawn and the address (R188,
R230). -/
opaque fabricEntry : Nat → Nat → Nat

/-- FREE VALUE. Whether the reservation of the n-th SC that reaches an external endpoint still holds there (R231). -/
opaque fabricHolds : Nat → Bool

/-- FREE VALUE. Whether the pool home agent finds a page of the n-th ACQUIRE exclusive to another live package, and which
page of the run (R212 leaves it to the other packages). -/
opaque poolBusy : Nat → Option Nat

/-- FREE VALUE. Where in a core's scratchpad the search for the n-th block's free places begins (R27, R76 give no place). -/
opaque scratchAt : Nat → Nat

/-- FREE VALUE. Whether the current governor, by its prediction (R10) or because the device throttles (R12), would withhold the issue
slot or engine grant at the n-th draw; neither rule gives a figure. -/
opaque withholds : Bool → Nat → Bool

/-- FREE VALUE. How many 256-byte lines of its destination an engine operation of a killed gang still writes, by the draw: 0 where it had
not begun (R247 leaves open how far it is). -/
opaque engineDone : Nat → Nat

/-- FREE VALUE. The set of an L1 and of an L2 slice to which a line belongs (R102, R103 give the numbers of sets, no index). -/
opaque l1Set : Nat → Nat
opaque l2Set : Nat → Nat

/-- FREE VALUE. The hash of a line over the slices of a die that are not carved (R103 gives none): a place in their list. -/
opaque l2Hash : List Nat → Nat → Nat

/-- Ways of an L1, and of an L2 slice (R102, R103). -/
def l1Ways : Nat := 8
def l2Ways : Nat := 16
/-- Sets of an L1, and of an L2 slice (R102, R103). -/
def l1Sets : Nat := 128
def l2Sets : Nat := 512
/-- L2 slices of a compute die (R103). -/
def l2Slices : Nat := 256
/-- Entries of a core's L1 TLB, and of a cluster's L2 TLB (R6). -/
def l1TlbLen : Nat := 512
def l2TlbLen : Nat := 8192
/-- Bytes of an instruction cache (R284). -/
def icacheBytes : Nat := 65536
/-- The number of physical compute cores (R6). -/
def numCores : Nat := 1024
/-- The number of service hardware threads (R4). -/
def numService : Nat := 256
/-- Warp slots of a core (R76). -/
def warpSlots : Nat := 64
/-- Register file bytes of a core (R6). -/
def regFileBytes : Nat := 524288
/-- Scratchpad bytes of a core (R6). -/
def scratchBytes : Nat := 262144
/-- Entries of a warp's store queue (R108). -/
def storeQueueLen : Nat := 128
/-- Write entries of one migration window (R200). -/
def windowEntries : Nat := 64
/-- Forwarding entries of the migration engine (R199). -/
def forwardEntries : Nat := 256
/-- Entries of a Trailhead queue (R66). -/
def trailheadLen : Nat := 256
/-- Accepted and unfinished launches per tenant (R69). -/
def maxLaunches : Nat := 1024
/-- Deferred-free entries per tenant (R136). -/
def deferLen : Nat := 65536
/-- Deposits a reorder unit holds per target (R41). -/
def reorderLen : Nat := 4096
/-- Cycles without a deposit after which a reorder unit emits what it holds (R41). -/
def reorderIdle : Nat := 2048
/-- 2 µs in arithmetic cycles: the life of a reservation (R122). -/
def reservationLife : Nat := 1400
/-- 1 ms in arithmetic cycles: the bound on a fabric response (R221, R226, R230, R233). -/
def fabricTimeout : Nat := 700000
/-- 10 ms in arithmetic cycles (R12, R245). -/
def tenMs : Nat := 7000000
/-- 50 ms in arithmetic cycles: a pool heartbeat lapse (R215). -/
def heartbeatLapse : Nat := 35000000
/-- Entries of a matrix engine's reservation table (preface of chapter 8). -/
def mxTableLen : Nat := 16
/-- Entries of a free-frame ring (R198). -/
def ringLen : Nat := 1024
/-- Staging store of one base die in bytes (R229). -/
def stagingBytes : Nat := 8388608

end Sys2Proof.Config
end

