-- ==== Sys2Proof/Machine/State.lean ====
section
/-! DEFINITION. The state of the package, as plain data, and its value at reset.
Every piece of state the spec names has a field here; the docstrings name the rules. -/

namespace Sys2Proof.Machine

/-- Why the machine stops. -/
inductive Fault where
  /-- Raised by an access or fetch of a monitor-level service thread at a physical address outside the ranges of
  R183, which the rule calls out of range and for which R419 names no exception (no translation is made). Safe: the
  model stops where the hardware does something the spec does not give. -/
  | physicalRange (addr : Nat)
  deriving DecidableEq, Repr

/-- Why the machine has no meaning for an instruction. -/
inductive Refusal where
  /-- Raised by `exec` for a constructor that has no meaning yet. Safe: the run ends. -/
  | notModelled (mnemonic : String)
  deriving DecidableEq, Repr

/-- The four privilege levels (R234). -/
inductive Level where
  | user | supervisor | hypervisor | monitor
  deriving DecidableEq, Repr

/-- A register that a scoreboard entry names (R57, R58). -/
inductive RegRef where
  | g (n : Nat) | q (n : Nat) | w (n : Nat)
  deriving DecidableEq, Repr

/-- A variable-latency destination still pending on the scoreboard (R57): the register, and the first cycle after its
landing cycle, from which a step that begins may use it. -/
structure Pend where
  reg : RegRef
  due : Nat
  deriving DecidableEq, Repr

/-- A fixed-latency result still landing (R55, R58, R59): what the register held before, the cycle from which every
pass of the reader sees the new value, the step of issue and the distance counted at NPASS 2. -/
structure Early where
  reg : RegRef
  old : Word
  due : Nat
  step : Nat
  dist : Nat
  deriving DecidableEq, Repr

/-- A reservation (R122): the 64-byte granule and the time of the LR at the home. -/
structure Resv where
  granule : Nat
  time : Nat
  deriving DecidableEq, Repr

/-- A scratch space as the hardware holds it (R87): the allocation of one resident block (scratch and the lane-private
slices above it), or a tenant's carve on one physical die. -/
inductive ScrId where
  | block (id : Nat) | die (tenant d : Nat)
  deriving DecidableEq, Repr

/-- Why a thread waits in a blocking instruction (R29): a tag (R97), a record of a fault buffer (R190), a counter (R74), engine
operations (R118), a grace period (R128), the end of a trap (R239), a SHFL meeting (R402), room in the store queue (R108),
Stuffsack's own fault (R139), a block of a class or room in the deferred-free queue (R140), the end of a migration, a
forwarding entry and a frame, or an invalidation (R195, R203), the drain of the store queue, the acknowledgement of the core's
stalled writes, room in a migration's window or its Switch (R200), an outstanding-operation counter or a matrix table (R116),
the thread's loads (R39, R342), a reorder buffer (R39), a paired compare (R109), a fabric response (R230), the compute
dies' exit from a power state (R253), what the die-0 twin performs once for both (R245). -/
inductive Wait where
  | none
  | tag (sp : ScrId) (gran : Nat) (full : Bool)
  | fault (buf : Nat)
  | counter (pa : Nat) (bound : Word)
  | engines (cls : EngClass) (n : Nat)
  | grace (g : Nat)
  | trapMask
  | shfl
  | queue (need : Nat)
  | drain
  | stalled
  | window (frame : Nat)
  | pool (p : Nat)
  | room (p k : Nat)
  | deferRoom (p : Nat)
  | moved (frame : Nat)
  | frames (tier : Nat)
  | sync (tenant : Option Nat)
  | ocFull (cls : EngClass)
  | matrix
  | landed
  | buffer (target : Nat)
  | compare
  | fabric (since va ipa : Nat) (read write atomic : Bool)
  | power
  | twin
  deriving DecidableEq, Repr

/-- A software thread that an entry to a higher level took out of a GPWAIT past its advance, with its grace number (R128): the level, the
PC, the tenant and the registers by which a return to it is known (log 101). -/
structure GraceHold where
  level : Level
  pc : Word
  tenant : Nat
  regs : List Word
  preds : BitVec 8
  g : Nat
  deriving DecidableEq, Repr

/-- The state of one thread (R27, R84).  `count` is the model's own: the instructions the thread has issued and the traps it
has taken, by which a paired gang's twins are compared for place (R243).  `graceKept` is the model's own: the software threads whose GPWAIT
past its advance an entry has interrupted (R128, R260). -/
structure Thread where
  pc : Word := 0
  meet : Word := 0
  regs : Tbl Word := []
  preds : BitVec 8 := 0
  rsDepth : Nat := 0
  rsStart : Nat := 0
  fpflags : BitVec 5 := 0
  telem : BitVec 16 := 0
  exited : Bool := true
  asleep : Option Nat := none
  held : Bool := false
  debugSleep : Bool := false
  wait : Wait := .none
  deadline : Option Nat := none
  stallUntil : Nat := 0
  age : Nat := 0
  landing : Bool := false
  pend : List Pend := []
  early : List Early := []
  resv : Option Resv := none
  applied : Nat := 0
  graceG : Option Nat := none
  graceKept : List GraceHold := []
  rkey : Word := 0
  rpay : Word := 0
  count : Nat := 0
  deriving DecidableEq, Repr

/-- The combined attributes of one translation (R186 to R188). -/
structure Xlat where
  pa : Nat
  ipa : Nat := 0
  leafPa : Nat := 0
  tenant : Nat := 0
  ms : Bool := false
  repl : Bool := false
  mig : Bool := false
  pinrq : Bool := false
  landrq : Bool := false
  aff : Nat := 0
  tiers : Nat := 0
  deriving DecidableEq, Repr

/-- Where a queued store goes (R108): memory, a scratch space, or a device window, at the level of the thread (R420). -/
inductive Dest where
  | mem (x : Xlat) | scratch (sp : ScrId) (off : Nat) | window (level : Nat) (pa : Nat)
  deriving DecidableEq, Repr

/-- One entry of a warp's store queue (R108, R387): a thread's store, a store that is with the migration engine until the Switch
(R200), or a combined reduction group. -/
inductive SqEntry where
  | store (dst : Dest) (bytes : List Byte)
  | sent (dst : Dest) (bytes : List Byte)
  | red (dst : Dest) (op : AtomOp) (t : Ty) (v : Word)
  deriving DecidableEq, Repr

/-- One incomplete SHFL meeting (R402). -/
structure Meeting where
  pc : Word
  members : BitVec 32
  arrTrue : BitVec 32 := 0
  arrFalse : BitVec 32 := 0
  masks : Tbl (BitVec 32) := []
  offers : Tbl Word := []
  reads : Tbl Word := []
  deriving DecidableEq, Repr

/-- What a paired gang holds back until a compare closes (R245). `ok` is what the thread's predicate was told (log 47). -/
inductive Held where
  | store (dst : Dest) (bytes : List Byte)
  | red (dst : Dest) (op : AtomOp) (t : Ty) (v : Word)
  | deferFree (tenant : Nat) (ptr : Word) (k pool : Nat) (ok : Bool)
  | free (tenant : Nat) (ptr : Word) (k pool : Nat) (ok : Bool)
  | deposit (die : Nat) (target : Nat) (key payload : Word)
  | engine (eop : Nat)
  deriving DecidableEq, Repr

/-- The open segment of a warp of a paired gang (R243, R244).  `held` lists what is held back under the model's own
number, which rises in the order in which the gang's warps made the entries. `enders` are the lanes of the bundle that ended the
segment, `passed` those whose compare has closed with equal signatures and that have still to perform what ended it (R245). -/
structure Seg where
  sig : Word := 0
  held : Tbl Held := []
  closing : Bool := false
  enders : BitVec 32 := 0
  passed : BitVec 32 := 0
  since : Nat := 0
  deriving DecidableEq, Repr

/-- The four registers of a privileged level (R259). -/
structure PrivRegs where
  vec : Word := 0
  pc : Word := 0
  cause : Word := 0
  addr : Word := 0
  deriving DecidableEq, Repr

/-- What a service hardware thread holds beside its thread state (R235, R236, R259). `alarms` says which pending interrupts are security
alarms, which enter monitor level (R234). -/
structure Svc where
  running : Bool := false
  level : Level := .user
  sv : PrivRegs := {}
  hv : PrivRegs := {}
  mn : PrivRegs := {}
  intpend : BitVec 16 := 0
  inten : BitVec 16 := 0
  alarms : BitVec 16 := 0
  intlvl : BitVec 32 := 0
  timecmp : Word := 0
  ipiFrom : Nat := 0
  xlatFrom : Nat := 0
  svtpc : Word := 0
  svtarg : Word := 0
  svtTenant : Nat := 0
  svtLevel : Level := .user
  deriving DecidableEq, Repr

/-- The six outstanding-operation counters (R116). -/
structure OcCounters where
  cp : Nat := 0
  gx : Nat := 0
  mx : Nat := 0
  cl : Nat := 0
  pt : Nat := 0
  bk : Nat := 0
  deriving DecidableEq, Repr

/-- One warp (R27, R84, R237). `mergeUntil` is the core step that the last release of a meeting costs it, `merging` whether that step is
the one that runs (R52). `posted` counts the operations it has posted of each class, for WAITC (R118). A service hardware thread is a warp
of one thread (R44): `service` is true and `threads` holds one thread. -/
structure Warp where
  service : Bool := false
  core : Nat := 0
  tenant : Nat := 0
  launch : Nat := 0
  block : Nat := 0
  gang : Nat := 0
  pos : Nat := 0
  bid : Nat := 0
  gangLin : Nat := 0
  wid : Nat := 0
  wpb : Nat := 1
  regsN : Nat := 192
  launchAddr : Word := 0
  relaunch : Nat := 0
  priority : Nat := 0
  kindling : Word := 0
  detFloat : Bool := false
  paired : Bool := false
  checking : Bool := false
  resident : Bool := false
  threads : List Thread := []
  wregs : Tbl Word := []
  wearly : List Early := []
  fpctl : Word := 0
  tmo : Word := 0
  oc : OcCounters := {}
  posted : OcCounters := {}
  storeQ : List SqEntry := []
  tvec : Word := 0
  tcause : Word := 0
  tpc : Word := 0
  tmask : BitVec 32 := 0
  tres : Word := 0
  taddr : Word := 0
  residency : Nat := 0
  mergeUntil : Nat := 0
  merging : Bool := false
  slotsWaited : Nat := 0
  shfl : List Meeting := []
  seg : Seg := {}
  svc : Svc := {}
  deriving DecidableEq, Repr

/-- One cached byte (R101): its value, its write-mask bit, and whether the array that holds it has met an uncorrectable error there
(R246). -/
structure CByte where
  val : Byte
  dirty : Bool
  bad : Bool := false
  deriving DecidableEq, Repr

/-- One 64-byte sector of a cache (R101): whether it has been filled, and the bytes that it holds, by offset. -/
structure Sector where
  filled : Bool := false
  bytes : Tbl CByte := []
  deriving DecidableEq, Repr

/-- One 256-byte line of a cache (R102, R103): its slice, set and way, and the attributes of the translation that its requests
carry to the home (R197). -/
structure Line where
  slice : Nat := 0
  set : Nat := 0
  way : Nat := 0
  attr : Option Xlat := none
  deriving DecidableEq, Repr

/-- A cache: its sectors by address / 64, its lines by address / 256. A byte that is not listed is not valid in the cache, and a
line of which no sector is listed is not held. -/
structure Cache where
  sectors : Tbl Sector := []
  lines : Tbl Line := []
  deriving DecidableEq, Repr

/-- One compute core (R45, R47, R79, R81, R284) or, from number 1,024 on, one service core.  `slices` holds, for each tenant,
the bytes of the scratchpad that its blocks left, by physical place; one that is not listed is 0 (R27). `retiredLines` lists the
disabled lines of the L1 by set and way, `retiredScratch` those of the scratchpad by place (R249). -/
structure Core where
  enabled : Bool := true
  lmap : BitVec 16 := 0xFFFF
  fusePending : Option (BitVec 16) := none
  startCycle : Nat := 0
  step : Nat := 0
  deficits : Tbl Nat := []
  ptr : Nat := 0
  owner : Nat := 16
  nextResidency : Nat := 0
  icache : Tbl Byte := []
  slices : Tbl (Tbl Byte) := []
  retiredLines : List (Nat × Nat) := []
  retiredScratch : List Nat := []
  deriving DecidableEq, Repr

/-- Where a block stands in its life (R35, R83, R247). -/
inductive BlockState where
  | resident | saving | saved | retired
  deriving DecidableEq, Repr

/-- One block (R24, R76) with its scratch allocation and tags (R87, R94).  `grans` lists
the physical 16-byte places of the core's scratchpad that the allocation takes, in allocation order; `counted` says that the
block's retirement counts in its launch (R33, R71); `errs` lists the 8-byte words of the allocation that hold an uncorrectable error
(R246, R248). -/
structure Block where
  launch : Nat
  gang : Nat
  pos : Nat
  bid : Nat
  core : Nat
  warps : List Nat
  scratch : Tbl Byte := []
  tags : List Nat := []
  errs : List Nat := []
  sBytes : Nat
  pBytes : Nat
  grans : List Nat := []
  counted : Bool := false
  state : BlockState := .resident
  biv : Option Nat := none
  cause : Nat := 0
  deriving DecidableEq, Repr

/-- A deposit with the reorder unit (R39, R41). -/
structure Deposit where
  key : Nat
  payload : Word
  deriving DecidableEq, Repr

/-- One gang (R24, R84, R243, R247). `tiles` says that its gang record holds tiles; `deposits` are those its threads were
made of (R41). -/
structure Gang where
  launch : Nat
  lin : Nat
  cluster : Nat
  blocks : List Nat
  twin : Option Nat := none
  onDie1 : Bool := false
  relaunch : Nat := 0
  killed : Bool := false
  lastCause : Nat := 0
  tiles : Bool := false
  deposits : List Deposit := []
  deriving DecidableEq, Repr

/-- A launch record (R63), field by field. -/
structure LaunchRec where
  entry : Word := 0
  param : Word := 0
  gx : Nat := 0
  gy : Nat := 0
  gz : Nat := 0
  w : Nat := 0
  n : Nat := 0
  g : Nat := 0
  flags : Nat := 0
  s : Nat := 0
  p : Nat := 0
  tenant : Nat := 0
  priority : Nat := 0
  queue : Nat := 0
  key : Word := 0
  counter : Nat := 0
  deps : List (Nat × Nat) := []
  graph : Nat := 0
  phase : Nat := 0
  job : Nat := 0
  errAddr : Nat := 0
  resA : Nat := 0
  resB : Nat := 0
  deriving DecidableEq, Repr

/-- Where a launch stands (R70, R71). -/
inductive LState where
  | accepted | ready | finishing | finished
  deriving DecidableEq, Repr

/-- An accepted launch with its retained record (R65, R69 to R72).  `depWait` lists the dependence slots whose read waits
behind a fault (R70), `emitted` the warps of deposits that the reorder units have emitted and that are still to be placed, each
with its die (R41); `discard` is the step of the finish whose write a tenant reset lets be made or dropped, and nothing after it (R86). -/
structure Launch where
  addr : Nat
  tenant : Nat
  queue : Nat
  lrec : LaunchRec
  order : Nat
  state : LState := .accepted
  depsOk : List Nat := []
  nextGang : Nat := 0
  placed : Nat := 0
  retired : Nat := 0
  relaunches : Nat := 0
  stopped : Bool := false
  status : Nat := 0
  cause : Nat := 0
  info : Nat := 0
  finStep : Nat := 0
  devWait : Bool := false
  depWait : List Nat := []
  emitted : List (Nat × List Deposit) := []
  discard : Option Nat := none
  deriving DecidableEq, Repr

/-- One posted record pointer (R66 to R68). -/
structure Post where
  ptr : Nat
  poster : Nat
  high : Bool
  window : Option Nat := none
  cancelled : Bool := false
  devWait : Bool := false
  deriving DecidableEq, Repr

/-- A live reorder target (R40, R41) with the deposits each compute die holds. -/
structure ReTarget where
  addr : Nat
  tenant : Nat
  buf0 : List Deposit := []
  buf1 : List Deposit := []
  last0 : Nat := 0
  last1 : Nat := 0
  draining : Bool := false
  deriving DecidableEq, Repr

/-- Who has a request with Stuffsack (R139): a thread, the root with a deferred return, or a paired warp's held FREE (R134). -/
inductive PoolReq where
  | thread (warp lane : Nat) | root | held (warp : Nat)
  deriving DecidableEq, Repr

/-- One Stuffsack pool (R138, R139); `lists` holds the free list of each class, the top first. -/
structure Pool where
  pbase : Nat := 0
  size : Nat := 0
  en : Bool := false
  ready : Bool := false
  pmeta : Nat := 0
  perr : Nat := 0
  lists : List (List Nat) := List.replicate 17 []
  devWait : Bool := false
  aborted : Bool := false
  queue : List PoolReq := []
  deriving DecidableEq, Repr

/-- A deferred-free entry (R136). -/
structure DeferEntry where
  ptr : Nat
  k : Nat
  pool : Nat
  target : Nat
  deriving DecidableEq, Repr

/-- What a Guyline node last reported for a tenant (R130). -/
structure GReport where
  acked : Nat
  least : Option Nat
  deriving DecidableEq, Repr

/-- One tenant (R81, R82, R92, R126, R136, R138, R189, R197). `slices0` and `slices1` list the L2 slices that back its carve on a
die, four a unit, in the order of the carve's offsets (R93), `errs0` and `errs1` the 8-byte words of it that hold an uncorrectable
error (R246, R248). -/
structure Tenant where
  weight : Nat := 0
  excl : Bool := false
  suspend : Bool := false
  plerr : Bool := false
  bvfull : Bool := false
  resetting : Bool := false
  ways0 : BitVec 16 := 0
  ways1 : BitVec 16 := 0
  bivbase : Word := 0
  place : Tbl (BitVec 32) := []
  units0 : Nat := 0
  units1 : Nat := 0
  slices0 : List Nat := []
  slices1 : List Nat := []
  die0 : Tbl Byte := []
  die1 : Tbl Byte := []
  tags0 : List Nat := []
  tags1 : List Nat := []
  errs0 : List Nat := []
  errs1 : List Nat := []
  thresh : Nat := 0
  s1root : Word := 0
  s2root : Word := 0
  gpseq : Nat := 1
  gpDone : Nat := 0
  ack : Tbl Nat := []
  reports : Tbl GReport := []
  queues : Tbl (List Post) := []
  fullCounts : Tbl Nat := []
  deferQ : List DeferEntry := []
  pools : Tbl Pool := []
  debugHold : Bool := false
  deriving DecidableEq, Repr

/-- One fault record (R191). -/
structure FRec where
  va : Nat := 0
  ipa : Nat := 0
  tenant : Nat := 0
  kind : Nat := 0
  flags : Nat := 0
  level : Nat := 0
  cores : Nat := 0
  progress : Nat := 0
  count : Nat := 0
  seq : Nat := 0
  valid : Bool := false
  deriving DecidableEq, Repr

/-- Who waits behind a fault (R190, R193, R73), in the order of the first faults; an engine's waiting access is a read or a write. -/
inductive Waiter where
  | thread (warp lane : Nat) (va : Nat) (read write fetch atomic : Bool) (progress : Nat) (behind : Bool)
  | eop (id : Nat) (va : Nat) (write : Bool)
  | matrix (cluster req : Nat) (va : Nat) (write : Bool)
  | post (tenant queue : Nat) (va : Nat)
  | dep (launch slot : Nat) (va : Nat)
  | finish (launch : Nat) (va : Nat)
  | pool (tenant pool : Nat) (va : Nat)
  | slot (n : Nat) (va : Nat)
  | land (n : Nat) (va : Nat)
  deriving DecidableEq, Repr

/-- A fault buffer (R192): that of cluster c, or number 256, the device fault buffer of R73. -/
structure FaultBuf where
  recs : Tbl FRec := []
  dropped : Bool := false
  routeEn : Bool := false
  routeThread : Nat := 0
  seq : Nat := 0
  waiters : List Waiter := []
  abandoned : List (Nat × Nat) := []
  deriving DecidableEq, Repr

/-- A cached translation (R6, R188): where it is held (0-255 the L2 TLB of a cluster, 256 the service die, 512 + c the L1 TLB of
compute core c), the tenant, the base and size of the virtual page it covers, the combined entry, and the ranges of intermediate
addresses whose stage-2 leaves its walk has passed through (R195). -/
structure TlbEntry where
  node : Nat
  tenant : Nat
  vbase : Nat
  size : Nat
  ibase : Nat
  pbase : Nat
  leafPa : Nat
  w1 : Bool
  x1 : Bool
  u1 : Bool
  w2 : Bool
  r2 : Bool
  x2 : Bool
  ms : Bool
  repl : Bool
  mig : Bool
  pinrq : Bool
  landrq : Bool
  aff : Nat
  tiers : Nat
  lev1 : Nat
  lev2 : Nat
  via : List (Nat × Nat) := []
  deriving DecidableEq, Repr

/-- The class 10 operations (R219, R317, R349, R397, R313). -/
inductive EngKind where
  | copy | copyz | gather | scatter | put | coll | bkop (op : BkArith) (t : Ty) | rowcp | rowz
  | clean (sc : Scope) | inval (sc : Scope) | flush (sc : Scope)
  deriving DecidableEq, Repr

/-- A posted engine operation (R117, R220).  `sent` says that its source has been read and gone out; `stage` counts the
completion steps it has made; `stop` is the number of lines after which an operation of a killed gang stops (R247). -/
structure EngOp where
  id : Nat
  kind : EngKind
  warp : Nat
  order : Nat
  tenant : Nat
  level : Level
  core : Nat
  service : Bool
  gang : Nat
  descVa : Nat
  desc : List Byte
  posted : Nat
  sent : Bool := false
  code : Option Nat := none
  stage : Nat := 0
  stop : Option Nat := none
  held : Bool := false
  faulted : Bool := false
  abandoned : Bool := false
  deriving DecidableEq, Repr

/-- The class 11 operations (R168). -/
inductive MxKind where
  | mxp | wbld | acz | acld | acdrn | acchk
  deriving DecidableEq, Repr

/-- A request in a matrix engine's reservation table (R168 to R172). -/
structure MxReq where
  id : Nat
  kind : MxKind
  warp : Nat
  order : Nat
  gang : Nat
  block : Nat
  off : Nat
  par : List Byte
  priority : Nat
  tenant : Nat
  entered : Nat
  lastPass : Nat
  begun : Bool := false
  chunk : Nat := 0
  landed : Nat := 0
  done : Bool := false
  code : Nat := 0
  mb : Bool := false
  badt : Nat := 0
  faulted : Bool := false
  abandoned : Bool := false
  deriving DecidableEq, Repr

/-- One valid weight unit (R174): its format and its compression. -/
structure WUnit where
  format : Nat
  comp : Nat
  deriving DecidableEq, Repr

/-- A cluster matrix engine (R167, R174, R177).  `tiles` lists the elements that are not +0 by 4096 h + 64 r + j, `sums` the
checksums that are not 0 by 64 h + r, `weights` the 512 bytes of a unit. -/
structure Engine where
  retired : Bool := false
  owner : Option Nat := none
  waiting : List Nat := []
  tiles : Tbl (BitVec 32) := []
  sums : Tbl (BitVec 32) := []
  units : Tbl WUnit := []
  weights : Tbl (List Byte) := []
  table : List MxReq := []
  nextId : Nat := 0
  pass : Option (Nat × Nat) := none
  landing : List (Nat × Nat) := []
  deriving DecidableEq, Repr

/-- A write-back that has found 64 window entries held and waits for the Switch (R200): the core whose L1 it comes from, the
attributes it carries, its bytes, and those of them that are uncorrectable (R246). -/
structure Stalled where
  core : Nat
  attr : Option Xlat
  ws : List (Nat × Byte)
  bad : List Nat := []
  deriving DecidableEq, Repr

/-- What waits at a migration's full window for the Switch, in the order of arrival (R199, R200): a write that is with the migration
engine, or one that its agent makes again then: a thread's instruction, the entry at the head of a store queue, an engine operation, a
matrix request, a launch's finish, a landing slot's result, a landed counter's add, a paired compare, a block's save, a deferred return or
the enabling of a pool, a request or a put from the fabric. -/
inductive Stall where
  | bytes (x : Stalled)
  | thread (warp lane : Nat)
  | queue (warp : Nat)
  | engine (id : Nat)
  | matrix (cluster req : Nat)
  | launch (id : Nat)
  | slot (n : Nat)
  | land (k : Nat)
  | pair (gang wid : Nat)
  | block (b : Nat)
  | back (tenant : Nat)
  | enable (tenant pool : Nat)
  | fabric (req : FabricReq)
  | put (m : PutMsg)
  deriving DecidableEq, Repr

/-- A forwarding entry of the migration engine (R199, R200), with what has stalled in arrival order. -/
structure Fwd where
  src : Nat
  dst : Nat
  tenant : Nat
  ipa : Nat
  leafPa : Nat
  leafOld : Nat
  srcTier : Nat
  dstTier : Nat
  window : List (List (Nat × Byte)) := []
  stalled : List Stall := []
  switched : Bool := false
  deriving DecidableEq, Repr

/-- Ownership of a pool page (R211). -/
inductive PoolOwn where
  | exclusive | shared
  deriving DecidableEq, Repr

/-- The pool command in progress and its status (R212). `waits` is the model's own: the commands (operation, first page, pages) whose
write-backs wait for a Switch. -/
structure PoolCmd where
  waits : List (Nat × Nat × Nat) := []
  op : Nat := 0
  page : Nat := 0
  count : Nat := 0
  status : Nat := 0
  first : Nat := 0
  result : Nat := 0
  resultFirst : Nat := 0
  deriving DecidableEq, Repr

/-- A landing slot (R225) with the contributions it holds. -/
structure Slot where
  offs : Nat := 0
  ctl : Word := 0
  epoch : Nat := 0
  next : Nat := 0
  cnt : Nat := 0
  acc : List Nat := []
  held : List CollMsg := []
  waiting : List CollMsg := []
  devWait : Bool := false
  dropAdd : Bool := false
  deriving DecidableEq, Repr

/-- A put window (R232). -/
structure PutWin where
  base : Nat := 0
  size : Nat := 0
  ctl : Word := 0
  land : Nat := 0
  deriving DecidableEq, Repr

/-- A put that has landed, whose landed counter is still to be added to (R233, R73): the window's tenant, the counter, the
bytes, and the operation when its source is this package. -/
structure Landing where
  tenant : Nat
  counter : Nat
  n : Nat
  own : Option Nat
  deriving DecidableEq, Repr

/-- The bases of the Ridgepole windows that Lantern reports (R81, R68, R138, R189, R225, R232). -/
structure Bases where
  sched : Nat := 0xF000000000000
  posting : Nat := 0xF000000080000
  stuffsack : Nat := 0xF000000100000
  translation : Nat := 0xF000000180000
  collective : Nat := 0xF000000200000
  fabric : Nat := 0xF000000280000
  deriving DecidableEq, Repr

/-- The security block and the boot chain (R250 to R252). `stage` counts the stages verified so far, `measured` lists the digests of the
images. -/
structure Security where
  stage : Nat := 0
  failed : Option Nat := none
  rollback : Nat := 0
  measured : List (BitVec 384) := []
  keys : Bool := true
  recovery : Bool := false
  deriving DecidableEq, Repr

/-- The platform and the power states (R12, R253): the conditions broken, each with the time by which it will have persisted for
10 ms; `withheld` counts the slots and grants that the current governor has withheld from each tenant (R10). -/
structure Power where
  pstate : Nat := 0
  stateSince : Nat := 0
  exiting : Bool := false
  lattol : Word := 0
  alarms : List (PlatformCond × Nat) := []
  throttled : Bool := false
  withheld : Tbl Nat := []
  shutdown : Bool := false
  deriving DecidableEq, Repr

/-- The bundle that issues (R29, R49): a warp, the lanes of the bundle, and its slot (R50). -/
structure Bundle where
  warp : Nat := 0
  lanes : BitVec 32 := 0
  slot : Nat := 1
  deriving DecidableEq, Repr

/-- What moves next: nothing, a service thread's next instruction, or a device step. -/
inductive Act where
  | idle | service (s : Nat) | event (i : Instr)
  deriving DecidableEq, Repr

/-- The whole package. -/
structure State where
  /-- Arithmetic-clock cycles since cold reset (R253, R258). -/
  now : Nat
  /-- The model's own: the steps that come next, in order; then `home` moves. -/
  agenda : List Act
  home : Act
  /-- The bundles the last vote selected that have not run yet (R49, R50), and the one that runs. -/
  issue : List Bundle
  cur : Bundle
  /-- Warps by number: service thread s is warp s; the warp in slot k of core n is 256 + 64 n + k. -/
  warps : Tbl Warp
  cores : Tbl Core
  blocks : Tbl Block
  gangs : Tbl Gang
  launches : Tbl Launch
  retargets : List ReTarget
  /-- The tenant whose turn it is to place a gang on shared cores (R77). -/
  placeTurn : Nat
  tenants : Tbl Tenant
  /-- Memory: physical address and byte, canonical. -/
  mem : List Host.Cell
  l1 : Tbl Cache
  l2 : Tbl Cache
  tlb : List TlbEntry
  fbufs : Tbl FaultBuf
  engines : Tbl Engine
  engOps : List EngOp
  slots : Tbl Slot
  putWins : Tbl PutWin
  lands : Tbl Landing
  endpoint : Nat
  fabResv : Tbl Resv
  counters : Tbl Nat
  pins : List Nat
  fwds : Tbl Fwd
  rings : Tbl (List Nat)
  retRing : List Nat
  migdecay : Nat
  decayFrom : Nat
  poolPages : Tbl PoolOwn
  poolCmd : PoolCmd
  lastBeat : Nat
  lostModules : List (Nat × Nat)
  introute : Tbl Word
  devdrop : Nat
  poison : List Nat
  errorLog : List EccMsg
  /-- Targeted self-tests that have started and not ended (R245, R248, R249). -/
  selfTests : List TestUnit
  retiredL2 : List (Nat × Nat × Nat × Nat)
  /-- L2 slices that are retired, and those to be retired once their carve has been copied (R93, R249): die and slice. -/
  retiredSlices : List (Nat × Nat)
  retiringSlices : List (Nat × Nat)
  retiredFrames : List Nat
  /-- What the hypervisor's service interface reports of soft fuses (R61): the core and its new GOOD value. -/
  fuseReports : List (Nat × Nat)
  bases : Bases
  sec : Security
  power : Power
  /-- The value the last device register read from outside, or query of Lantern, returned. -/
  readout : Word
  report : List Nat
  /-- The model's own: numbers not yet used for blocks, gangs, launches and engine operations. -/
  fresh : Nat
  /-- The model's own: how many free values have been drawn. -/
  drawn : Nat
  deriving DecidableEq, Repr

/-- The machine right after cold reset: no service thread runs until the boot chain has verified the service boot
image (R235, R250), no tenant has a weight (R86), memory lists nothing. -/
def State.reset : State where
  now := 0
  agenda := []
  home := .idle
  issue := []
  cur := {}
  warps := []
  cores := []
  blocks := []
  gangs := []
  launches := []
  retargets := []
  placeTurn := 0
  tenants := []
  mem := []
  l1 := []
  l2 := []
  tlb := []
  fbufs := []
  engines := []
  engOps := []
  slots := []
  putWins := []
  lands := []
  endpoint := 0
  fabResv := []
  counters := []
  pins := []
  fwds := []
  rings := []
  retRing := []
  migdecay := 0
  decayFrom := 0
  poolPages := []
  poolCmd := {}
  lastBeat := 0
  lostModules := []
  introute := []
  devdrop := 0
  poison := []
  errorLog := []
  selfTests := []
  retiredL2 := []
  retiredSlices := []
  retiringSlices := []
  retiredFrames := []
  fuseReports := []
  bases := {}
  sec := {}
  power := {}
  readout := 0
  report := []
  fresh := 1
  drawn := 0

end Sys2Proof.Machine
end

