-- ==== Sys2Proof/Machine/Operands.lean ====
section
/-! DEFINITION. Operand forms: reading registers, warp registers and predicates at the cycle the thread's pass reads
them (R58), immediates and literals (R276), and writing results with their latencies (R55, R57). -/

namespace Sys2Proof.Machine

/-- What one thread sees when it issues: its lane, the cycle its step starts in, its pass (R46, R47), the step's
number, its warp and itself. -/
structure LaneCx where
  lane : Nat
  now : Nat
  pass : Nat
  step : Nat
  w : Warp
  t : Thread
  deriving DecidableEq, Repr

/-- The latency of a result in cycles: fixed (R55) or variable (R57) from the cycle of the thread's pass, or that of a
cross-lane instruction, from the start of the step in which it completes (R60). -/
inductive Lat where
  | fixed (l : Nat) | var (l : Nat) | cross (l : Nat)
  deriving DecidableEq, Repr

/-- What a register holds at a cycle: its old value while the oldest fixed-latency write to it has not landed
(R57, R58). -/
def visible (es : List Early) (r : RegRef) (cur : Word) (cycle : Nat) : Word :=
  match es.find? fun e => e.reg = r ∧ cycle < e.due with
  | some e => e.old
  | none => cur

/-- The latest value written to a general register. -/
def Thread.gcur (t : Thread) (n : Nat) : Word := tgetD t.regs n 0

/-- The latest value of a predicate; q7 is true (R255). -/
def Thread.qcur (t : Thread) (n : Nat) : Bool := n == 7 || t.preds.getLsbD n

/-- A general register as read. -/
def LaneCx.g (x : LaneCx) (n : Nat) : Word := visible x.t.early (.g n) (x.t.gcur n) x.now

/-- A predicate as read. -/
def LaneCx.q (x : LaneCx) (p : Pred) : Bool :=
  if p.val = 7 then true
  else visible x.t.early (.q p.val) (if x.t.qcur p.val then 1 else 0) x.now != 0

/-- A warp register as read: the pass of the reader counts (R55). -/
def LaneCx.wr (x : LaneCx) (n : Nat) : Word := visible x.w.wearly (.w n) (tgetD x.w.wregs n 0) (x.now + x.pass)

/-- A source register (R256); `zero` reads 0. -/
def LaneCx.src (x : LaneCx) : Src → Word
  | .g n => x.g n.val
  | .w n => x.wr n.val
  | .zero => 0

/-- The upper register of a `.b128` source (R89). -/
def LaneCx.srcHi (x : LaneCx) : Src → Word
  | .g n => x.g (n.val + 1)
  | .w n => x.wr (n.val + 1)
  | .zero => 0

/-- The guard of a thread (R273). -/
def LaneCx.guard (x : LaneCx) (k : Ctl) : Bool := x.q k.gp != k.gn

/-- One sub-element pattern in every sub-element of a type. -/
def replicateTy (t : Ty) (p : Nat) : Word := mapElems t fun _ => p

/-- The operand a 16-bit immediate supplies (R276). -/
def immWord (t : Ty) (v : BitVec 16) : Word :=
  match t with
  | .s64 | .n64 | .b64 => sext16 v
  | .f16 | .bf16 => replicateTy t v.toNat
  | .f32 => replicateTy .f32 (widen fmtBf16 fmtF32 v.toNat)
  | .f64 => BitVec.ofNat 64 (widen fmtBf16 fmtF64 v.toNat)
  | t => replicateTy t ((sext16 v).toNat)

/-- The operand a 32-bit literal supplies (R276). -/
def litWord (t : Ty) (v : BitVec 32) : Word :=
  match t with
  | .s64 | .b64 => sext32 v
  | .n64 => v.setWidth 64
  | .f64 => BitVec.ofNat 64 (widen fmtF32 fmtF64 v.toNat)
  | t => replicateTy t v.toNat

/-- Operand B of classes 0 to 3 (R275). -/
def LaneCx.opB (x : LaneCx) (t : Ty) : OpB → Word
  | .reg r => x.src r
  | .imm v => immWord t v

/-- base + sext(imm, 16), modulo 2^64 (R368). -/
def LaneCx.ea (x : LaneCx) (a : Src) (imm : BitVec 16) : Word := x.src a + sext16 imm

/-! ## Writing results -/

/-- What a thread's register holds, as a word; a predicate is 0 or 1. -/
def Thread.cur (t : Thread) : RegRef → Word
  | .g n => t.gcur n
  | .q n => if t.qcur n then 1 else 0
  | .w _ => 0

/-- A thread with a register's latest value replaced; q7 discards (R255). -/
def Thread.put (t : Thread) (r : RegRef) (v : Word) : Thread :=
  match r with
  | .g n => { t with regs := tset t.regs n v }
  | .q n => if n = 7 then t else
      { t with preds := if v = 0 then t.preds &&& ~~~ BitVec.ofNat 8 (2 ^ n) else t.preds ||| BitVec.ofNat 8 (2 ^ n) }
  | .w _ => t

/-- The distance counted at NPASS 2 (R59). -/
def dist2 (l : Nat) : Nat := (l + 1) / 2

/-- A result written with its latency: a fixed-latency result leaves the old value readable until it lands (R58); a
variable-latency result is pending on the scoreboard to the end of its landing cycle. It lands no earlier than a write of the register
before it (R57). Service cores interlock every
result (R54), so that no old value is ever read there. -/
def Thread.writeLat (t : Thread) (x : LaneCx) (lat : Lat) (r : RegRef) (v : Word) : Thread :=
  let old := t.cur r
  let t' := t.put r v
  let before := (t.early.filter fun e => e.reg = r).foldl (fun m e => max m e.due) 0
  let pending (landing : Nat) : Thread :=
    { t' with early := t.early.filter fun e => e.reg ≠ r, pend := t.pend ++ [{ reg := r, due := max before landing + 1 }] }
  match lat with
    | .fixed l =>
      if x.w.service then t' else
      let live := t.early.filter fun e => x.now < e.due || x.step < e.step + e.dist
      { t' with early := live ++ [{ reg := r, old := old, due := max before (x.now + l), step := x.step, dist := dist2 l }] }
    | .var l => pending (x.now + x.pass + l)
    | .cross l => pending (x.now + l)

/-- A general destination written; `zero` discards (R255). -/
def Thread.writeD (t : Thread) (x : LaneCx) (lat : Lat) (d : Dst) (v : Word) : Thread :=
  match d with
  | .g n => t.writeLat x lat (.g n.val) v
  | .zero => t

/-- The upper register of a pair written (R89). -/
def Thread.writeHi (t : Thread) (x : LaneCx) (lat : Lat) (d : Dst) (v : Word) : Thread :=
  match d with
  | .g n => t.writeLat x lat (.g (n.val + 1)) v
  | .zero => t

/-- A predicate destination written; q7 discards (R255). -/
def Thread.writeQ (t : Thread) (x : LaneCx) (lat : Lat) (q : Pred) (b : Bool) : Thread :=
  if q.val = 7 then t else t.writeLat x lat (.q q.val) (if b then 1 else 0)

/-- A register of the compact form as a destination (R271). -/
def g6 (n : Fin 64) : Dst := .g ⟨n.val, by omega⟩

/-- The value a destination register holds before the instruction (R150). -/
def Thread.dcur (t : Thread) : Dst → Word
  | .g n => t.gcur n.val
  | .zero => 0

/-! ## Latencies (R55, R60) -/

/-- Class 0 and 1 instructions of latency 4. -/
def lat4 : Lat := .fixed 4
/-- IMUL, IMULH, IMAD, IDOT4, CVT, PACK, UNPK. -/
def lat8 : Lat := .fixed 8
/-- The floating instructions: 8, or 12 on f64. -/
def latF (t : Ty) : Lat := .fixed (if t = .f64 then 12 else 8)
/-- FRCP, FRSQ and the elementary functions. -/
def lat16 : Lat := .fixed 16

end Sys2Proof.Machine
end

