-- ==== Sys2Proof/Machine/Flags.lean ====
section
/-! DEFINITION. FPCTL, FPFLAGS and the floating-point trap (R148 to R150). -/

namespace Sys2Proof.Machine

/-- FPCTL.RM as a mode (R148). -/
def rmOf (n : Nat) : RMode :=
  match n with
  | 1 => .rz
  | 2 => .ru
  | 3 => .rd
  | 4 => .rna
  | _ => .rne

/-- The rounding mode of an instruction: RND's, or FPCTL.RM (R148, R279). -/
def LaneCx.mode (x : LaneCx) : Rnd → RMode
  | .fpctl => rmOf (wbits x.w.fpctl 0 3)
  | .rne => .rne
  | .rz => .rz
  | .ru => .ru
  | .rd => .rd
  | .rna => .rna

/-- FPCTL.FTZ (R148). -/
def LaneCx.ftz (x : LaneCx) : Bool := wbit x.w.fpctl 3

/-- FPCTL.TEN, in the order of FPFLAGS (R148). -/
def LaneCx.ten (x : LaneCx) : Flags := BitVec.ofNat 5 (wbits x.w.fpctl 4 5)

/-- A write of FPCTL: reserved bits are ignored, and RM keeps its value on 5 to 7 (R148). -/
def fpctlWrite (old v : Word) : Word :=
  let rm := if wbits v 0 3 ≤ 4 then wbits v 0 3 else wbits old 0 3
  BitVec.ofNat 64 (wbits v 3 6 * 8 + rm)

/-- What a trap names: the cause of R242, TADDR, and TELEM. -/
structure TrapInfo where
  cause : Nat
  addr : Word := 0
  telem : BitVec 16 := 0
  here : Bool := false
  deriving DecidableEq, Repr

/-- What issuing did to one thread. -/
inductive LaneOut where
  | off | next | jump (pc : Word) | wait (w : Wait) | trap (c : TrapInfo)
  deriving DecidableEq, Repr

/-- A thread after an instruction's effect in it, and how it goes on. -/
structure LaneRes where
  t : Thread
  out : LaneOut := .next
  deriving DecidableEq, Repr

/-- Flags ORed into FPFLAGS (R149). -/
def Thread.orFlags (t : Thread) (f : Flags) : Thread := { t with fpflags := t.fpflags ||| f }

/-- All flags of a list of sub-element results. -/
def flagsOf (rs : List FpRes) : Flags := rs.foldl (fun f r => f ||| r.2) 0

/-- TELEM: the sub-elements whose flags an enable covers (R150). -/
def telemOf (ten : Flags) (rs : List FpRes) : BitVec 16 :=
  BitVec.ofNat 16 ((mapFrom (fun i (r : FpRes) => if r.2 &&& ten = 0 then 0 else 2 ^ i) 0 rs).foldl (· + ·) 0)

/-- Results merged into the destination's previous value: a sub-element that raised an enabled flag keeps it (R150). -/
def mergeElems (t : Ty) (ten : Flags) (prev : Word) (rs : List FpRes) : Word :=
  packWord t (mapFrom (fun i (r : FpRes) => if r.2 &&& ten = 0 then r.1 else elem prev i t) 0 rs)

/-- A floating result in a register: flags, the partial write, and the trap of R150. -/
def fpFinish (x : LaneCx) (lat : Lat) (t : Ty) (d : Dst) (rs : List FpRes) : LaneRes :=
  let te := telemOf x.ten rs
  let th := (x.t.writeD x lat d (mergeElems t x.ten (x.t.dcur d) rs)).orFlags (flagsOf rs)
  { t := th, out := if te = 0 then .next else .trap { cause := 7, telem := te } }

/-- A floating result in a predicate (R150, R335): on a trap it keeps its previous value. -/
def fpFinishQ (x : LaneCx) (lat : Lat) (q : Pred) (b : Bool) (f : Flags) : LaneRes :=
  if f &&& x.ten = 0 then { t := (x.t.writeQ x lat q b).orFlags f }
  else { t := x.t.orFlags f, out := .trap { cause := 7, telem := 1 } }

/-- A floating operand, flushed when FTZ is set (R147). -/
def LaneCx.fval (x : LaneCx) (t : Ty) (v : Word) (i : Nat) : FpVal :=
  (fmtOf t).flushIn x.ftz ((fmtOf t).value (elem v i t))

end Sys2Proof.Machine
end

