-- ==== Sys2Proof/Machine/Regs.lean ====
section
/-! DEFINITION. Which registers an instruction reads and writes: for the check against N (R28), the scoreboard (R57)
and the checking scoreboard (R59). -/

namespace Sys2Proof.Machine

/-- A source register's name, `zero` none. -/
def sRef : Src → List RegRef
  | .g n => [.g n.val]
  | .w n => [.w n.val]
  | .zero => []
/-- A destination register's name. -/
def dRef : Dst → List RegRef
  | .g n => [.g n.val]
  | .zero => []
/-- A destination pair (R89). -/
def dRef2 : Dst → List RegRef
  | .g n => [.g n.val, .g (n.val + 1)]
  | .zero => []
/-- A source pair (R89). -/
def sRef2 : Src → List RegRef
  | .g n => [.g n.val, .g (n.val + 1)]
  | .w n => [.w n.val, .w (n.val + 1)]
  | .zero => []
/-- A predicate's name; q7 is a constant (R255). -/
def qRef (q : Pred) : List RegRef := if q.val = 7 then [] else [.q q.val]
/-- Operand B's register. -/
def bRef : OpB → List RegRef
  | .reg r => sRef r
  | .imm _ => []
/-- A run of general registers (R324, R384). -/
def runRef (n k : Nat) : List RegRef := (List.range k).map fun i => .g (n + i)
/-- The key register of RNG and RNGG (R390). -/
def keyRef : Option Src → List RegRef
  | none => []
  | some s => sRef s
/-- The residual run of QBLK (R384). -/
def resRef (b : Option (Fin 192)) (m : Nat) : List RegRef :=
  match b with
  | none => []
  | some n => runRef n.val m
/-- The register of MEET (R369). -/
def meetRef : MeetArg → List RegRef
  | .label _ => []
  | .reg r => sRef r
/-- The registers of TLBI (R209). -/
def tlbiRef : TlbiArg → List RegRef
  | .pg a b | .gp a b => sRef a ++ sRef b
  | .s1 => []
  | .all b => sRef b
  | .fr a => sRef a
/-- The predicates a GTOP mask names (R355). -/
def maskRef (m : Nat) : List RegRef := ((List.range 7).filter m.testBit).map .q
/-- The destination of a load (R89). -/
def mDst (t : MTy) (d : Dst) : List RegRef := if t = .b128 then dRef2 d else dRef d
/-- The data of a store (R89). -/
def mSrc (t : MTy) (d : Src) : List RegRef := if t = .b128 then sRef2 d else sRef d

/-- The registers an instruction reads, its guard apart, and those it writes; a device step names none. -/
def refsOf (i : Instr) : List RegRef × List RegRef :=
  match i with
  | .iaddCompact _ d a b => ([.g a.val, .g b.val], [.g d.val])
  | .iaddLong _ d a b _ _ => (sRef a ++ bRef b, dRef d)
  | .iaddLiteral _ d a _ _ _ => (sRef a, dRef d)
  | .isubCompact _ d a b => ([.g a.val, .g b.val], [.g d.val])
  | .isubLong _ d a b _ _ => (sRef a ++ bRef b, dRef d)
  | .isubLiteral _ d a _ _ _ => (sRef a, dRef d)
  | .imulCompact _ d a b => ([.g a.val, .g b.val], [.g d.val])
  | .imulLong _ d a b _ _ => (sRef a ++ bRef b, dRef d)
  | .imulLiteral _ d a _ _ _ => (sRef a, dRef d)
  | .imulhCompact _ d a b => ([.g a.val, .g b.val], [.g d.val])
  | .imulhLong _ d a b _ => (sRef a ++ bRef b, dRef d)
  | .imulhLiteral _ d a _ _ => (sRef a, dRef d)
  | .imadLong _ d a b x _ _ => (sRef a ++ sRef b ++ sRef x, dRef d)
  | .imadLiteral _ d a _ x _ _ => (sRef a ++ sRef x, dRef d)
  | .idivCompact _ d a b => ([.g a.val, .g b.val], [.g d.val])
  | .idivLong _ d a b _ => (sRef a ++ bRef b, dRef d)
  | .idivLiteral _ d a _ _ => (sRef a, dRef d)
  | .iremCompact _ d a b => ([.g a.val, .g b.val], [.g d.val])
  | .iremLong _ d a b _ => (sRef a ++ bRef b, dRef d)
  | .iremLiteral _ d a _ _ => (sRef a, dRef d)
  | .iminCompact _ d a b => ([.g a.val, .g b.val], [.g d.val])
  | .iminLong _ d a b _ => (sRef a ++ bRef b, dRef d)
  | .iminLiteral _ d a _ _ => (sRef a, dRef d)
  | .imaxCompact _ d a b => ([.g a.val, .g b.val], [.g d.val])
  | .imaxLong _ d a b _ => (sRef a ++ bRef b, dRef d)
  | .imaxLiteral _ d a _ _ => (sRef a, dRef d)
  | .iabs _ d a _ _ => (sRef a, dRef d)
  | .ineg _ d a _ _ => (sRef a, dRef d)
  | .iaddcLong _ d a b _ qc => (sRef a ++ bRef b ++ qRef qc, dRef d ++ qRef qc)
  | .iaddcLiteral _ d a _ _ qc => (sRef a ++ qRef qc, dRef d ++ qRef qc)
  | .isubbLong _ d a b _ qc => (sRef a ++ bRef b ++ qRef qc, dRef d ++ qRef qc)
  | .isubbLiteral _ d a _ _ qc => (sRef a ++ qRef qc, dRef d ++ qRef qc)
  | .idot4Long _ d a b x _ _ => (sRef a ++ sRef b ++ sRef x, dRef d)
  | .idot4Literal _ d a _ x _ _ => (sRef a ++ sRef x, dRef d)
  | .andCompact _ d a b => ([.g a.val, .g b.val], [.g d.val])
  | .andLong _ d a b _ => (sRef a ++ bRef b, dRef d)
  | .andLiteral _ d a _ _ => (sRef a, dRef d)
  | .orCompact _ d a b => ([.g a.val, .g b.val], [.g d.val])
  | .orLong _ d a b _ => (sRef a ++ bRef b, dRef d)
  | .orLiteral _ d a _ _ => (sRef a, dRef d)
  | .xorCompact _ d a b => ([.g a.val, .g b.val], [.g d.val])
  | .xorLong _ d a b _ => (sRef a ++ bRef b, dRef d)
  | .xorLiteral _ d a _ _ => (sRef a, dRef d)
  | .lop3Long _ d a b x _ _ => (sRef a ++ sRef b ++ sRef x, dRef d)
  | .lop3Literal _ d a _ x _ _ => (sRef a ++ sRef x, dRef d)
  | .shlCompact _ d a b => ([.g a.val, .g b.val], [.g d.val])
  | .shlLong _ d a b _ => (sRef a ++ bRef b, dRef d)
  | .shlLiteral _ d a _ _ => (sRef a, dRef d)
  | .shrCompact _ d a b => ([.g a.val, .g b.val], [.g d.val])
  | .shrLong _ d a b _ => (sRef a ++ bRef b, dRef d)
  | .shrLiteral _ d a _ _ => (sRef a, dRef d)
  | .shraCompact _ d a b => ([.g a.val, .g b.val], [.g d.val])
  | .shraLong _ d a b _ => (sRef a ++ bRef b, dRef d)
  | .shraLiteral _ d a _ _ => (sRef a, dRef d)
  | .rotCompact _ d a b => ([.g a.val, .g b.val], [.g d.val])
  | .rotLong _ d a b _ => (sRef a ++ bRef b, dRef d)
  | .rotLiteral _ d a _ _ => (sRef a, dRef d)
  | .popc _ d a _ => (sRef a, dRef d)
  | .clz _ d a _ => (sRef a, dRef d)
  | .ctz _ d a _ => (sRef a, dRef d)
  | .brev _ d a _ => (sRef a, dRef d)
  | .bfxLong _ d a b _ => (sRef a ++ bRef b, dRef d)
  | .bfxLiteral _ d a _ _ => (sRef a, dRef d)
  | .bfiLong _ d a b x _ => (sRef a ++ sRef b ++ sRef x, dRef d)
  | .bfiLiteral _ d a _ x _ => (sRef a ++ sRef x, dRef d)
  | .prmtLong _ d a b x => (sRef a ++ sRef b ++ sRef x, dRef d)
  | .prmtLiteral _ d a _ x => (sRef a ++ sRef x, dRef d)
  | .icmpLong _ q a b _ _ _ => (sRef a ++ bRef b, qRef q)
  | .icmpLiteral _ q a _ _ _ _ => (sRef a, qRef q)
  | .fcmpLong _ q a b _ _ _ => (sRef a ++ bRef b, qRef q)
  | .fcmpLiteral _ q a _ _ _ _ => (sRef a, qRef q)
  | .fclass _ q a b _ _ => (sRef a ++ sRef b, qRef q)
  | .selCompact _ d a b => ([.g a.val, .g b.val] ++ [.q 0], [.g d.val])
  | .selLong _ d a b _ qs _ => (sRef a ++ bRef b ++ qRef qs, dRef d)
  | .selLiteral _ d a _ _ qs _ => (sRef a ++ qRef qs, dRef d)
  | .plop _ q qa qb _ _ _ => (qRef qa ++ qRef qb, qRef q)
  | .ptog _ d => (maskRef 127, dRef d)
  | .gtop _ a mask => (sRef a, maskRef mask.val)
  | .movLong _ d b _ => (bRef b, dRef d)
  | .movLiteral _ d _ _ => ([], dRef d)
  | .movwLong _ d b _ => (bRef b, [.w d.val])
  | .movwLiteral _ d _ _ => ([], [.w d.val])
  | .wmov _ d a b => (sRef a ++ sRef b, [.w d.val])
  | .faddCompact _ d a b => ([.g a.val, .g b.val], [.g d.val])
  | .faddLong _ d a b _ _ => (sRef a ++ bRef b, dRef d)
  | .faddLiteral _ d a _ _ _ => (sRef a, dRef d)
  | .fsubCompact _ d a b => ([.g a.val, .g b.val], [.g d.val])
  | .fsubLong _ d a b _ _ => (sRef a ++ bRef b, dRef d)
  | .fsubLiteral _ d a _ _ _ => (sRef a, dRef d)
  | .fmulCompact _ d a b => ([.g a.val, .g b.val], [.g d.val])
  | .fmulLong _ d a b _ _ => (sRef a ++ bRef b, dRef d)
  | .fmulLiteral _ d a _ _ _ => (sRef a, dRef d)
  | .ffmaLong _ d a b x _ _ => (sRef a ++ sRef b ++ sRef x, dRef d)
  | .ffmaLiteral _ d a _ x _ _ => (sRef a ++ sRef x, dRef d)
  | .fminCompact _ d a b => ([.g a.val, .g b.val], [.g d.val])
  | .fminLong _ d a b _ _ => (sRef a ++ bRef b, dRef d)
  | .fminLiteral _ d a _ _ _ => (sRef a, dRef d)
  | .fmaxCompact _ d a b => ([.g a.val, .g b.val], [.g d.val])
  | .fmaxLong _ d a b _ _ => (sRef a ++ bRef b, dRef d)
  | .fmaxLiteral _ d a _ _ _ => (sRef a, dRef d)
  | .fabs _ d a _ => (sRef a, dRef d)
  | .fneg _ d a _ => (sRef a, dRef d)
  | .fdivCompact _ d a b => ([.g a.val, .g b.val], [.g d.val])
  | .fdivLong _ d a b _ _ => (sRef a ++ bRef b, dRef d)
  | .fdivLiteral _ d a _ _ _ => (sRef a, dRef d)
  | .fsqrt _ d a _ _ => (sRef a, dRef d)
  | .frcp _ d a _ _ => (sRef a, dRef d)
  | .frsq _ d a _ _ => (sRef a, dRef d)
  | .fsclLong _ d a b _ _ => (sRef a ++ bRef b, dRef d)
  | .fsclLiteral _ d a _ _ _ => (sRef a, dRef d)
  | .frnd _ d a _ _ => (sRef a, dRef d)
  | .fdotLong _ d a b x _ _ => (sRef a ++ sRef b ++ sRef x, dRef d)
  | .fdotLiteral _ d a _ x _ _ => (sRef a ++ sRef x, dRef d)
  | .fsum _ d a _ _ => (sRef a, dRef d)
  | .fex2 _ d a _ _ => (sRef a, dRef d)
  | .flg2 _ d a _ _ => (sRef a, dRef d)
  | .fsin _ d a _ _ => (sRef a, dRef d)
  | .fcos _ d a _ _ => (sRef a, dRef d)
  | .ftnh _ d a _ _ => (sRef a, dRef d)
  | .cvt _ d a _ _ _ => (sRef a, dRef d)
  | .pack _ d a b x _ _ _ => (sRef a ++ sRef b ++ sRef x, dRef d)
  | .unpk _ d a b _ _ _ => (sRef a ++ sRef b, dRef d)
  | .qblk _ d a b ty _ => (runRef a.val (blockRegs ty), runRef (8 * d.val) 8 ++ resRef b (blockRegs ty))
  | .dqblk _ d a b _ _ => (runRef (8 * a.val) 8 ++ sRef b, dRef d)
  | .rng _ d a key _ => (sRef a ++ keyRef key, dRef2 d)
  | .rngg _ d a key ty => (sRef a ++ keyRef key, (if ty = .f64 then dRef2 d else dRef d))
  | .shfl _ d a b x _ qd => (sRef a ++ sRef b ++ sRef x, dRef d ++ qRef qd)
  | .bcst _ d a b => (sRef a ++ bRef b, dRef d)
  | .vote _ d q qs _ _ => (qRef qs, dRef d ++ qRef q)
  | .wred _ d a b _ _ _ => (sRef a ++ sRef b, dRef d)
  | .wscan _ d a b _ _ _ _ => (sRef a ++ sRef b, dRef d)
  | .matchI _ d a _ => (sRef a, dRef d)
  | .elect _ d q => ([], dRef d ++ qRef q)
  | .braLong _ _ => ([], [])
  | .braLiteral _ _ => ([], [])
  | .brx _ a => (sRef a, [])
  | .callLong _ d _ => ([], dRef d)
  | .callLiteral _ d _ => ([], dRef d)
  | .callx _ d a => (sRef a, dRef d)
  | .ret _ a => (sRef a, [])
  | .meetLong _ m => (meetRef m, [])
  | .meetLiteral _ _ => ([], [])
  | .leaveLong _ a _ => (sRef a, [])
  | .leaveLiteral _ a _ => (sRef a, [])
  | .land _ => ([], [])
  | .exit _ => ([], [])
  | .trap _ _ => ([], [])
  | .nop _ => ([], [])
  | .yield _ => ([], [])
  | .sleep _ a => (sRef a, [])
  | .brkpt _ => ([], [])
  | .ld _ d a _ ty => (sRef a, mDst ty d)
  | .st _ d a _ ty => (mSrc ty d ++ sRef a, [])
  | .pref _ a _ _ _ => (sRef a, [])
  | .ldl _ d a _ ty _ => (sRef a, mDst ty d)
  | .stl _ d a _ ty _ => (mSrc ty d ++ sRef a, [])
  | .lds _ d a _ ty _ _ => (sRef a, mDst ty d)
  | .sts _ d a _ ty _ _ => (mSrc ty d ++ sRef a, [])
  | .ldc _ d a _ ty _ => (sRef a, mDst ty d)
  | .stc _ d a _ ty _ => (mSrc ty d ++ sRef a, [])
  | .feset _ a _ _ => (sRef a, [])
  | .feclr _ a _ _ => (sRef a, [])
  | .fetest _ q a _ _ => (sRef a, qRef q)
  | .lr _ d a _ _ => (sRef a, dRef d)
  | .sc _ d a _ _ qd => (sRef d ++ sRef a, qRef qd)
  | .atom _ d a b _ _ => (sRef a ++ sRef b, dRef d)
  | .cas _ d a b x _ => (sRef a ++ sRef b ++ sRef x, dRef d)
  | .red _ a b _ _ => (sRef a ++ sRef b, [])
  | .atoms _ d a b _ _ _ => (sRef a ++ sRef b, dRef d)
  | .cass _ d a b x _ _ => (sRef a ++ sRef b ++ sRef x, dRef d)
  | .reds _ a b _ _ _ => (sRef a ++ sRef b, [])
  | .fence _ _ _ => ([], [])
  | .waitc _ _ _ => ([], [])
  | .rsb _ => ([], [])
  | .rse _ => ([], [])
  | .gpwait _ => ([], [])
  | .defer _ q a b _ => (sRef a ++ sRef b, qRef q)
  | .alloc _ q d b _ => (sRef b, qRef q ++ dRef d)
  | .free _ q a b => (sRef a ++ sRef b, qRef q)
  | .cpy _ a _ => (sRef a, [])
  | .cpyz _ a _ => (sRef a, [])
  | .gath _ a _ => (sRef a, [])
  | .scat _ a _ => (sRef a, [])
  | .put _ a _ => (sRef a, [])
  | .coll _ a _ => (sRef a, [])
  | .bkop _ a _ _ _ => (sRef a, [])
  | .rowcp _ a _ => (sRef a, [])
  | .rowz _ a _ => (sRef a, [])
  | .clean _ a _ _ => (sRef a, [])
  | .inval _ a _ _ => (sRef a, [])
  | .flush _ a _ _ => (sRef a, [])
  | .mxp _ a _ => (sRef a, [])
  | .wbld _ a _ => (sRef a, [])
  | .acz _ a _ => (sRef a, [])
  | .acld _ a _ => (sRef a, [])
  | .acdrn _ a _ => (sRef a, [])
  | .acchk _ a _ => (sRef a, [])
  | .pin _ q a _ _ => (sRef a, qRef q)
  | .unpin _ a _ => (sRef a, [])
  | .hint _ a _ _ => (sRef a, [])
  | .migr _ q a _ _ => (sRef a, qRef q)
  | .taff _ a _ _ => (sRef a, [])
  | .probe _ d a _ => (sRef a, dRef d)
  | .tlbi _ m => (tlbiRef m, [])
  | .tlbsync _ => ([], [])
  | .launch _ q a => (sRef a, qRef q)
  | .cwait _ q a b => (sRef a ++ sRef b, qRef q)
  | .cancel _ _ a => (sRef a, [])
  | .reord _ a b x => (sRef a ++ sRef b ++ sRef x, [])
  | .svc _ _ => ([], [])
  | .srd _ d _ => ([], dRef d)
  | .swr _ _ a => (sRef a, [])
  | .eret _ _ => ([], [])
  | .hvc _ _ => ([], [])
  | .sec _ _ => ([], [])
  | _ => ([], [])

/-- STALL and the guard of an instruction (R269, R273); a device step has none. -/
def ctlOf (i : Instr) : Ctl :=
  match toRaw i with
  | some r => r.ctl
  | none => ⟨0, 7, false⟩

/-- CLASS of an instruction (R269); 15 for a device step. -/
def clsOf (i : Instr) : Nat :=
  match toRaw i with
  | some r => r.cls
  | none => 15

/-- The instruction of the opcode map that a form belongs to. -/
def opOf (i : Instr) : Option Op := (toRaw i).bind fun r => opAt r.cls r.fn

/-- The registers an instruction reads, its guard among them. -/
def readsOf (i : Instr) : List RegRef := qRef (ctlOf i).gp ++ (refsOf i).1
/-- The registers an instruction writes. -/
def writesOf (i : Instr) : List RegRef := (refsOf i).2

/-- The words of an instruction as TADDR holds them: word 0 low, word 1 high, the compact form's word 0 alone (R282). -/
def wordsAddr (i : Instr) : Word :=
  match encodeWords i with
  | [w0] => BitVec.ofNat 64 w0
  | w0 :: w1 :: _ => BitVec.ofNat 64 (w0 + 2 ^ 32 * w1)
  | [] => 0

end Sys2Proof.Machine
end

