-- ==== Sys2Proof/Machine/Ops.lean ====
section
/-! DEFINITION. The named operations: warps, threads and cores; the issue checks of R282; running an instruction over
the threads of a bundle; taking a trap or a privileged entry (R234, R239, R260) and returning from one (R240). -/

namespace Sys2Proof.Machine

/-- What a meaning answers. -/
abbrev Out := Host.Outcome State Fault Refusal

/-! ## Warps, threads, cores -/

/-- A service hardware thread as it stands after reset: stopped (R235). -/
def serviceWarp (n : Nat) : Warp := { service := true, core := 1024 + n / 4, wid := n % 4, threads := [{}] }

/-- Warp n; an unlisted service thread is a stopped one. -/
def State.warp (s : State) (n : Nat) : Warp := tgetD s.warps n (if n < 256 then serviceWarp n else {})

/-- Warp n replaced. -/
def State.setWarp (s : State) (n : Nat) (w : Warp) : State := { s with warps := tset s.warps n w }

/-- Warp n changed. -/
def State.modWarp (s : State) (n : Nat) (f : Warp → Warp) : State := s.setWarp n (f (s.warp n))

/-- The thread in lane l of warp n; a lane that is not there has exited (R44). -/
def State.thread (s : State) (n l : Nat) : Thread := ((s.warp n).threads[l]?).getD {}

/-- A thread of a warp changed. -/
def State.modThread (s : State) (n l : Nat) (f : Thread → Thread) : State :=
  s.modWarp n fun w => { w with threads := lmod w.threads l f }

/-- Core n as it stands. -/
def State.core (s : State) (n : Nat) : Core := tgetD s.cores n {}

/-- Core n changed. -/
def State.modCore (s : State) (n : Nat) (f : Core → Core) : State := { s with cores := tset s.cores n (f (s.core n)) }

/-- Tenant n as it stands. -/
def State.tenant (s : State) (n : Nat) : Tenant := tgetD s.tenants n {}

/-- Tenant n changed. -/
def State.modTenant (s : State) (n : Nat) (f : Tenant → Tenant) : State :=
  { s with tenants := tset s.tenants n (f (s.tenant n)) }

/-- The number of enabled lanes of a core (R45). -/
def Core.lanes (c : Core) : Nat := popcount 16 c.lmap.toNat

/-- Passes per step (R45). -/
def Core.npass (c : Core) : Nat := ceilDiv 32 (max c.lanes 1)

/-- The pass a logical lane runs in (R46). -/
def Core.passOf (c : Core) (l : Nat) : Nat := l / max c.lanes 1

/-- The good physical lanes of a core, ascending: goodlane[0], goodlane[1], … (R46). -/
def Core.goodLanes (c : Core) : List Nat := numsWhere 16 c.lmap.getLsbD

/-- The physical lane that a logical lane runs on, in its pass (R46). -/
def Core.physLane (c : Core) (l : Nat) : Nat := (c.goodLanes[l % max c.lanes 1]?).getD 0

/-- The cluster of a core; 256 for a service core. -/
def clusterOf (core : Nat) : Nat := if core < 1024 then core / 4 else 256

/-- The die of a core: 0 or 1; 3 on the service die (R258). -/
def dieOf (core : Nat) : Nat := if core < 1024 then core / 512 else 3

/-- The number of a level (R234). -/
def Level.num : Level → Nat
  | .user => 0
  | .supervisor => 1
  | .hypervisor => 2
  | .monitor => 3

/-- The level of a number. -/
def levelOf (n : Nat) : Level :=
  match n with
  | 0 => .user
  | 1 => .supervisor
  | 2 => .hypervisor
  | _ => .monitor

/-- The privilege level of a warp's threads: compute threads run at user level (R234). -/
def Warp.level (w : Warp) : Level := if w.service then w.svc.level else .user

/-- What the thread in a lane sees when it issues now. -/
def State.cxOf (s : State) (w : Warp) (l : Nat) (t : Thread) : LaneCx :=
  let c := s.core w.core
  { lane := l, now := s.now, pass := if w.service then 0 else c.passOf l, step := c.step, w := w, t := t }

/-- What lane l of warp n sees now. -/
def State.cx (s : State) (n l : Nat) : LaneCx := s.cxOf (s.warp n) l (s.thread n l)

/-- The warp that issues. -/
def State.curWarp (s : State) : Warp := s.warp s.cur.warp

/-- A free value drawn (the model's counter advances). -/
def State.draw (s : State) : State := { s with drawn := s.drawn + 1 }

/-- A warp or an operation has left: the idle condition of R253 may hold from now on. -/
def State.touchIdle (s : State) : State := { s with power := { s.power with stateSince := s.now } }

/-- A number not used before. -/
def State.bump (s : State) : State := { s with fresh := s.fresh + 1 }

/-! ## The issue checks (R282, checks 6 to 9) -/

/-- Instructions marked s in the map: absent on service cores (R280). -/
def absentOnService (i : Instr) : Bool :=
  match opOf i with
  | some o => match o with
    | .ldl | .stl | .ldc | .stc | .mxp | .wbld | .acz | .acld | .acdrn | .acchk | .reord => true
    | _ => false
  | none => false

/-- The core-scratchpad, lane-private and cluster-shared forms marked (s): absent on service cores (R44, R280). -/
def absentForm (i : Instr) : Bool :=
  match i with
  | .lds _ _ _ _ _ _ die | .sts _ _ _ _ _ _ die => !die
  | .atoms _ _ _ _ _ die _ | .cass _ _ _ _ _ die _ | .reds _ _ _ _ die _ => !die
  | .feset _ _ _ sp | .feclr _ _ _ sp | .fetest _ _ _ _ sp => sp != .die
  | _ => false

/-- The level a privileged instruction needs (R234, R195, R208). -/
def needLevel (i : Instr) : Nat :=
  match i with
  | .hvc _ _ => 1
  | .sec _ _ => 2
  | .taff _ _ _ _ => 1
  | .tlbi _ m => match m with
    | .pg _ _ | .s1 => 1
    | _ => 2
  | _ => 0

/-- The level below which a system register may not be accessed at all; none for an unassigned number (R258, R259). -/
def sysLevel (n : Nat) : Option Nat :=
  if n ≤ 8 ∨ (0x10 ≤ n ∧ n ≤ 0x15) ∨ n = 0x18 ∨ n = 0x19 ∨ (0x20 ≤ n ∧ n ≤ 0x25) ∨ (0x28 ≤ n ∧ n ≤ 0x2D) ∨
      (0x30 ≤ n ∧ n ≤ 0x36) ∨ n = 0x38 then some 0
  else if (0x40 ≤ n ∧ n ≤ 0x43) ∨ (0x58 ≤ n ∧ n ≤ 0x5C) then some 1
  else if 0x48 ≤ n ∧ n ≤ 0x4B then some 2
  else if 0x50 ≤ n ∧ n ≤ 0x53 then some 3
  else none

/-- The level a write needs; none for a register that is read-only at every level on this core class (R257, R258). -/
def sysWriteLevel (service : Bool) (n : Nat) : Option Nat :=
  if (0x20 ≤ n ∧ n ≤ 0x23) ∨ n = 0x30 ∨ n = 0x32 ∨ n = 0x35 then some 0
  else if n = 0x38 ∨ n = 0x5A then some 2
  else if n = 0x15 then (if service then some 2 else none)
  else match sysLevel n with
    | some 0 => none
    | r => r

/-- The checks of R257 on a system-register access that depend only on the words, the core class and the level. -/
def sysStop (w : Warp) (i : Instr) : Option TrapInfo :=
  let words : TrapInfo := { cause := 0x01, addr := wordsAddr i }
  let check (o : Option Nat) : Option TrapInfo := match o with
    | none => some words
    | some l => if w.level.num < l then some { cause := 0x02 } else none
  match i with
  | .srd _ _ n => check (sysLevel n.val)
  | .swr _ n _ => match sysLevel n.val with
    | none => some words
    | some _ => check (sysWriteLevel w.service n.val)
  | _ => none

/-- Whether an instruction names a general register at or above N (R28). -/
def namesBeyond (i : Instr) (n : Nat) : Bool :=
  ((refsOf i).1 ++ (refsOf i).2).any fun r => match r with
    | .g k => n ≤ k
    | _ => false

/-- Classes 10 and 11 are warp-wide (R37). -/
def warpWide (i : Instr) : Bool := clsOf i == 10 || clsOf i == 11

/-- Whether the cluster's engine is retired (R249). -/
def State.engineRetired (s : State) (core : Nat) : Bool := (tgetD s.engines (clusterOf core) {}).retired

/-- Checks 6 to 8 of R282, the same in every thread of the bundle. -/
def issueStop (i : Instr) (s : State) : Option TrapInfo :=
  let w := s.curWarp
  if namesBeyond i w.regsN then some { cause := 0x01, addr := wordsAddr i }
  else if (w.service && (absentOnService i || absentForm i)) || (!w.service && opOf i == some .svc) ||
      (clsOf i == 11 && s.engineRetired w.core) then some { cause := 0x0B }
  else if w.level.num < needLevel i then some { cause := 0x02, here := opOf i == some .sec }
  else sysStop w i

/-- Lanes of the issuing warp that have not exited. -/
def Warp.live (w : Warp) : List Nat :=
  (mapFrom (fun l (t : Thread) => if t.exited then [] else [l]) 0 w.threads).flatten

/-- The lanes of the issuing bundle. -/
def State.lanes (s : State) : List Nat := mlanes s.cur.lanes

/-- The address of the issuing instruction. -/
def State.curPc (s : State) : Word :=
  match s.lanes with
  | l :: _ => (s.thread s.cur.warp l).pc
  | [] => 0

/-- Check 9 of R282: a warp-wide instruction while some thread that has not exited is at another PC (R37). -/
def partialBundle (i : Instr) (s : State) : Bool :=
  warpWide i && s.curWarp.live.any fun l => (s.thread s.cur.warp l).pc != s.curPc

/-- A warp-wide instruction waits for threads at its PC that cannot issue yet (R37). -/
def bundleWaits (i : Instr) (s : State) : Bool :=
  warpWide i && s.curWarp.live.any fun l => !mbit s.cur.lanes l

/-- Whether a register's fixed-latency result is still within its distance (R59). -/
def tooEarly (es : List Early) (step : Nat) (r : RegRef) : Bool :=
  es.any fun e => e.reg == r && step < e.step + e.dist

/-- Whether a thread reads a result early, under the checking scoreboard (R59). A guard-false thread reads its guard
alone. -/
def readsEarly (i : Instr) (x : LaneCx) : Bool :=
  let early (r : RegRef) : Bool := match r with
    | .w _ => tooEarly x.w.wearly x.step r
    | _ => tooEarly x.t.early x.step r
  (qRef (ctlOf i).gp).any early || (x.guard (ctlOf i) && (readsOf i).any early)

/-- The lanes in which the instruction is short of stall counts (R59). -/
def shortLanes (i : Instr) (s : State) : List Nat :=
  if s.curWarp.checking then s.lanes.filter fun l => readsEarly i (s.cx s.cur.warp l) else []

/-! ## Exit and stop -/

/-- A thread's exit (R33): its read section ends, its reservation lapses, it waits for nothing. -/
def Thread.exit (t : Thread) : Thread :=
  { t with count := t.count + 1, exited := true, rsDepth := 0, asleep := none, debugSleep := false, held := false, wait := .none,
           deadline := none, resv := none, graceG := none, graceKept := [], applied := 0, early := [] }

/-- The thread in a lane exits; inside a handler it clears its bit of TMASK (R240). -/
def State.exitThread (s : State) (n l : Nat) : State :=
  s.modWarp n fun w => { w with threads := lmod w.threads l Thread.exit, tmask := mclr w.tmask l }

/-- Every thread of a warp exits. -/
def Warp.exitAll (w : Warp) : Warp := { w with threads := w.threads.map Thread.exit, tmask := 0 }

/-- A service hardware thread stops (R235). -/
def State.stopService (s : State) (n : Nat) : State :=
  s.modWarp n fun w => { w.exitAll with svc := { w.svc with running := false }, tmask := w.tmask }

/-- Requests of some gangs removed from a matrix engine without status, and what of theirs is under way (R182). -/
def Engine.unqueue (e : Engine) (gone : Nat → Bool) : Engine :=
  let of_ (id : Nat) : Bool := e.table.any fun r => r.id == id && gone r.gang
  { e with
    table := e.table.filter fun r => !gone r.gang
    pass := match e.pass with
      | some p => if of_ p.1 then none else some p
      | none => none
    landing := e.landing.filter fun p => !of_ p.1
    waiting := e.waiting.filter fun g => !gone g }

/-- Whether a gang is of a launch. -/
def State.gangOf (s : State) (lid g : Nat) : Bool :=
  match tget s.gangs g with
  | some k => k.launch == lid
  | none => false

/-- One counter lowered (R116). -/
def OcCounters.dec (c : OcCounters) (k : EngKind) : OcCounters :=
  match k with
  | .copy | .copyz => { c with cp := c.cp - 1 }
  | .gather | .scatter => { c with gx := c.gx - 1 }
  | .coll => { c with cl := c.cl - 1 }
  | .put => { c with pt := c.pt - 1 }
  | _ => { c with bk := c.bk - 1 }

/-- The engine operations that a warp's segment holds back. -/
def Warp.heldOps (w : Warp) : List Nat :=
  w.seg.held.filterMap fun h => match h.2 with
    | .engine id => some id
    | _ => none

/-- A warp whose launch stops: what a paired segment held back is discarded, with the operations among it and their counts. DESIGN CHOICE:
R75 and R245 do not say what becomes of a stopped gang's stores that no compare has let through (log 94). -/
def Warp.halt (ops : List EngOp) (w : Warp) : Warp :=
  let held := ops.filter fun e => w.heldOps.contains e.id
  { w.exitAll with oc := { held.foldl (fun c e => c.dec e.kind) w.oc with mx := 0 }, seg := {} }

/-- The compute warps with a property stop, and what they held back is discarded. -/
def State.haltWarps (s : State) (p : Warp → Bool) : State :=
  let gone (w : Warp) : Bool := !w.service && p w
  let held := s.warps.flatMap fun w => if gone w.2 then w.2.heldOps else []
  { s with
    warps := s.warps.map fun w => if gone w.2 then (w.1, w.2.halt s.engOps) else w
    engOps := s.engOps.filter fun e => !held.contains e.id }

/-- A block's save undone: a saved block is discarded with its records, one that was being saved is resident again. -/
def Block.unsave (b : Block) : Block :=
  match b.state with
  | .saved => { b with state := .retired, biv := none }
  | .saving => { b with state := .resident, biv := none }
  | _ => b

/-- A launch stops, with a status, a cause and the first block stopped: its resident threads exit, its saved blocks are
discarded, its matrix requests are removed, nothing more of it becomes resident (R75, R182, R239). A launch that has begun to
finish keeps its outcome. -/
def State.stopLaunch (s : State) (lid status cause info : Nat) : State :=
  match tget s.launches lid with
  | none => s
  | some l =>
    if l.stopped ∨ l.state = .finished ∨ l.state = .finishing then s
    else
      { s.haltWarps (fun w => w.launch == lid) with
        launches := tset s.launches lid
          { l with stopped := true, status := status, cause := cause, info := info, state := .finishing }
        engines := s.engines.map fun p => (p.1, p.2.unqueue (s.gangOf lid))
        blocks := s.blocks.map fun p => if p.2.launch = lid then (p.1, p.2.unsave) else p }

/-! ## Privileged entries and traps -/

/-- The registers of a privileged level (R259). -/
def Svc.regs (v : Svc) : Level → PrivRegs
  | .supervisor => v.sv
  | .hypervisor => v.hv
  | _ => v.mn

/-- The registers of a privileged level replaced. -/
def Svc.setRegs (v : Svc) (x : Level) (r : PrivRegs) : Svc :=
  match x with
  | .supervisor => { v with sv := r }
  | .hypervisor => { v with hv := r }
  | _ => { v with mn := r }

/-- XCAUSE as an entry writes it (R259). -/
def causeWord (prior : Level) (kind code intno : Nat) : Word :=
  BitVec.ofNat 64 (prior.num * 2 ^ 16 + intno * 2 ^ 12 + kind * 2 ^ 8 + code)

/-- The level that takes a synchronous cause raised at level x: the first from x up with a vector (R260). -/
def vectoredLevel (v : Svc) (x : Level) : Option Level :=
  let has (y : Level) : Bool := (v.regs y).vec != 0
  match x with
  | .user | .supervisor =>
    if has .supervisor then some .supervisor else if has .hypervisor then some .hypervisor
    else if has .monitor then some .monitor else none
  | .hypervisor => if has .hypervisor then some .hypervisor else if has .monitor then some .monitor else none
  | .monitor => if has .monitor then some .monitor else none

/-- The general registers of a thread. -/
def Thread.context (t : Thread) : List Word := (List.range 256).map t.gcur

/-- A thread at a level and for a tenant that enters a higher one: a GPWAIT past its advance keeps its grace number for the return
(R128). -/
def Thread.enterAt (t : Thread) (x : Level) (tenant : Nat) (vec : Word) : Thread :=
  { t with pc := vec, wait := .none, deadline := none, graceG := none
           graceKept := t.graceKept ++ (t.graceG.map fun g =>
             ({ level := x, pc := t.pc, tenant := tenant, regs := t.context, preds := t.preds, g := g } : GraceHold)).toList }

/-- What a return to a level and a PC finds of an interrupted GPWAIT: that of the same software thread, known by its tenant and its
registers (R128, log 101). -/
def Thread.graceBack (t : Thread) (x : Level) (tenant : Nat) (pc : Word) : Option GraceHold :=
  t.graceKept.find? fun h => h.level = x ∧ h.pc = pc ∧ h.tenant = tenant ∧ h.preds = t.preds ∧ h.regs = t.context

/-- THE ENTRY TO A PRIVILEGED LEVEL (R260): XCAUSE, XADDR and XPC are written, the level becomes X, the PC XVEC. -/
def Warp.enter (w : Warp) (x : Level) (kind code intno : Nat) (addr xpc : Word) : Warp :=
  let r := w.svc.regs x
  { w with
    threads := w.threads.map fun t => t.enterAt w.svc.level w.tenant r.vec
    svc := { (w.svc.setRegs x { r with cause := causeWord w.svc.level kind code intno, addr := addr,
                                       pc := xpc &&& ~~~ 3#64 }) with level := x } }

/-- The entry of a service thread to level X. A synchronous cause without a vector passes upwards, and at monitor level
stops every thread of the service core (R235, R260). -/
def State.enterLevel (s : State) (n : Nat) (x : Level) (kind code intno : Nat) (addr xpc : Word) : State :=
  let w := s.warp n
  if kind = 0 then
    match vectoredLevel w.svc x with
    | some y => s.setWarp n (w.enter y 0 code intno addr xpc)
    | none =>
      let s := (List.range 4).foldl (fun s h => s.stopService (n / 4 * 4 + h)) s
      { s with report := s.report ++ [code] }
  else s.setWarp n (w.enter x kind code intno addr xpc)

/-- The level above (R234). -/
def Level.up : Level → Level
  | .user => .supervisor
  | .supervisor => .hypervisor
  | _ => .monitor

/-- A thread and the cause it raises, with its state as the cause's effect leaves it. -/
structure Raise where
  lane : Nat
  info : TrapInfo
  t : Thread
  deriving DecidableEq, Repr

/-- A thread waits at its instruction until no trap is active (R239). -/
def Thread.awaitTrap (t : Thread) : Thread := { t with wait := .trapMask }

/-- A thread enters the handler (R239): eligible from the fourth step after the trapping one. -/
def Thread.toHandler (t : Thread) (vec : Word) (step : Nat) (telem : BitVec 16) : Thread :=
  { t with count := t.count + 1, pc := vec, telem := telem, stallUntil := step + 4, wait := .none, deadline := none, age := 0 }

/-- A handled trap of a warp (R239): TCAUSE, TPC, TMASK, TADDR, TELEM written, the threads at TVEC. -/
def Warp.takeTrap (w : Warp) (slot step : Nat) (pc : Word) (rs : List Raise) : Warp :=
  match rs with
  | [] => w
  | r :: _ =>
    { w with
      threads := rs.foldl (fun ts q => lset ts q.lane (q.t.toHandler w.tvec step q.info.telem)) w.threads
      tcause := BitVec.ofNat 64 ((if slot = 2 then 256 else 0) + r.info.cause)
      tpc := pc &&& ~~~ 3#64
      tmask := maskOf (rs.map Raise.lane)
      taddr := r.info.addr }

/-- DELIVERY OF A USER TRAP (R239) to the threads of a bundle that raised causes, lowest lane first. -/
def State.deliverUser (s : State) (n slot : Nat) (pc : Word) (rs : List Raise) : State :=
  match rs with
  | [] => s
  | r :: _ =>
    let w := s.warp n
    let same := rs.filter fun q => q.info.cause = r.info.cause
    let rest := rs.filter fun q => q.info.cause ≠ r.info.cause
    if w.tvec = 0 ∨ maskOf (same.map Raise.lane) &&& w.tmask ≠ 0 then
      if w.service then s.enterLevel n .supervisor 0 r.info.cause 0 r.info.addr pc
      else s.stopLaunch w.launch 4 r.info.cause w.bid
    else
      let hold (w : Warp) (qs : List Raise) : Warp :=
        { w with threads := qs.foldl (fun ts q => lmod ts q.lane Thread.awaitTrap) w.threads }
      if w.tmask ≠ 0 then s.setWarp n (hold w rs)
      else s.setWarp n (hold (w.takeTrap slot (s.core w.core).step pc same) rest)

/-- The thread as a cause's effect leaves it before an entry (R242): a floating-point trap has R150's. -/
def State.withEffect (s : State) (n : Nat) (r : Raise) : State :=
  if r.info.cause = 7 then s.modThread n r.lane fun _ => { r.t with telem := r.info.telem } else s

/-- DELIVERY OF A CAUSE (R234, R239, R283): at user level the user trap; above it an entry with KIND 0 at the level
where it is raised, cause 0x02 at the next higher one unless it is SEC's; cause 0x10 of a service thread at hypervisor level or above. -/
def State.deliver (s : State) (n slot : Nat) (pc : Word) (rs : List Raise) : State :=
  match rs with
  | [] => s
  | r :: _ =>
    let w := s.warp n
    if w.level = .user then
      if w.service ∧ r.info.cause = 0x10 then s.enterLevel n .hypervisor 0 0x10 0 r.info.addr pc
      else s.deliverUser n slot pc rs
    else
      let x := if (r.info.cause = 2 ∧ r.info.here = false) ∨ (r.info.cause = 0x10 ∧ w.level = .supervisor) then w.level.up else w.level
      (s.withEffect n r).enterLevel n x 0 r.info.cause 0 r.info.addr pc

/-! ## Running an instruction over a bundle -/

/-- The thread after it issued an instruction and goes to a PC: its age is 0, it waits for nothing, and its STALL
count runs (R51, R54). -/
def Thread.issued (t : Thread) (step stall : Nat) (pc : Word) : Thread :=
  { t with count := t.count + 1, pc := pc, age := 0, wait := .none, deadline := none, applied := 0, graceG := none,
           stallUntil := step + stall + 1 }

/-- The PC after an instruction that does not branch (R268). -/
def nextPc (i : Instr) (t : Thread) : Word := t.pc + BitVec.ofNat 64 i.length

/-- A warp takes a new residency number, greater than all others on its core (R80). -/
def State.renumber (s : State) (n : Nat) : State :=
  let c := (s.warp n).core
  (s.modWarp n fun w => { w with residency := (s.core c).nextResidency }).modCore c
    fun k => { k with nextResidency := k.nextResidency + 1 }

/-- Whether some thread of the bundle has issued its instruction between two states: one that waits or traps has not. -/
def issuedAny (before s : State) : Bool :=
  before.lanes.any fun l => (s.thread before.cur.warp l).count != (before.thread before.cur.warp l).count

/-- STALL 7 makes the warp that issues the youngest of its tenant on the core (R54, R80); `before` is the state before the
instruction. -/
def stallYield (i : Instr) (before s : State) : State :=
  if (ctlOf i).stall.val = 7 ∧ s.curWarp.service = false ∧ issuedAny before s then s.renumber s.cur.warp else s

/-- The thread as an outcome leaves it; one that traps or waits has not issued. -/
def settle (i : Instr) (step : Nat) (old : Thread) (r : LaneRes) : Thread :=
  match r.out with
  | .off => old
  | .next => r.t.issued step (ctlOf i).stall.val (nextPc i old)
  | .jump pc => r.t.issued step (ctlOf i).stall.val pc
  | .wait w => { r.t with wait := w }
  | .trap _ => old

/-- The causes raised in a bundle, ascending. -/
def raisesOf (rs : List LaneRes) : List Raise :=
  (mapFrom (fun l (r : LaneRes) => match r.out with
    | .trap c => [{ lane := l, info := c, t := r.t }]
    | _ => []) 0 rs).flatten

/-- Every thread of the bundle raises one cause, without any effect (R282). -/
def State.raiseAll (s : State) (lanes : List Nat) (c : TrapInfo) : State :=
  s.deliver s.cur.warp s.cur.slot s.curPc (lanes.map fun l => { lane := l, info := c, t := s.thread s.cur.warp l })

/-- The checks every instruction passes before it has an effect (R282 checks 6 to 9, R59): what happens instead, or
none. -/
def issueInstead (i : Instr) (s : State) : Option State :=
  match issueStop i s with
  | some c => some (s.raiseAll s.lanes c)
  | none =>
    if partialBundle i s then some (s.raiseAll s.lanes { cause := 0x0A })
    else if bundleWaits i s then some s
    else match shortLanes i s with
      | [] => none
      | ls => some (s.raiseAll ls { cause := 0x09 })

/-- One thread of the bundle under a per-thread effect: guard-false threads only advance (R273). -/
def runLane (i : Instr) (s : State) (w : Warp) (f : LaneCx → LaneRes) (l : Nat) (t : Thread) : LaneRes :=
  if mbit s.cur.lanes l then
    let x := s.cxOf w l t
    if x.guard (ctlOf i) then f x else { t := t }
  else { t := t, out := .off }

/-- The threads of the bundle after a per-thread effect, one result a lane. -/
def laneResults (i : Instr) (f : LaneCx → LaneRes) (s : State) : List LaneRes :=
  mapFrom (runLane i s s.curWarp f) 0 s.curWarp.threads

/-- The state in which every thread of the bundle has taken its result; causes are not delivered yet. -/
def settleAll (i : Instr) (rs : List LaneRes) (s : State) : State :=
  let w := s.curWarp
  let step := (s.core w.core).step
  s.setWarp s.cur.warp { w with threads := (w.threads.zip rs).map fun p => settle i step p.1 p.2 }

/-- AN INSTRUCTION WHOSE EFFECT IN EACH THREAD DEPENDS ON THAT THREAD AND ITS WARP ALONE, as they were before it: the
threads of the bundle act separately (R295). `post` is what it does to the warp beside. -/
def laneMapPost (i : Instr) (f : LaneCx → LaneRes) (post : State → State) (s : State) : Out :=
  match issueInstead i s with
  | some s' => .next s'
  | none =>
    let rs := laneResults i f s
    .next ((stallYield i s (post (settleAll i rs s))).deliver s.cur.warp s.cur.slot s.curPc (raisesOf rs))

/-- An instruction that acts on its threads alone. -/
def laneMap (i : Instr) (f : LaneCx → LaneRes) (s : State) : Out := laneMapPost i f id s

/-- An instruction that writes registers from operands, and never traps. -/
def regMap (i : Instr) (f : LaneCx → Thread) (s : State) : Out := laneMap i (fun x => { t := f x }) s

/-- One thread of the bundle under an effect on the machine; one that the effect of a lower lane has stopped does
nothing. -/
def foldLane (i : Instr) (f : Nat → State → State × LaneOut) (acc : State × List Raise) (l : Nat) : State × List Raise :=
  let s := acc.1
  let n := s.cur.warp
  let t := s.thread n l
  let step := (s.core s.curWarp.core).step
  let stall := (ctlOf i).stall.val
  if t.exited then acc
  else if (s.cx n l).guard (ctlOf i) then
    let r := f l s
    match r.2 with
    | .off => (r.1, acc.2)
    | .next => (r.1.modThread n l fun u => u.issued step stall (nextPc i t), acc.2)
    | .jump pc => (r.1.modThread n l fun u => u.issued step stall pc, acc.2)
    | .wait w => (r.1.modThread n l fun u => { u with wait := w }, acc.2)
    | .trap c => (r.1, acc.2 ++ [{ lane := l, info := c, t := r.1.thread n l }])
  else (s.modThread n l fun u => u.issued step stall (nextPc i t), acc.2)

/-- The causes of threads that have not been stopped meanwhile. -/
def liveRaises (s : State) (rs : List Raise) : List Raise := rs.filter fun q => !(s.thread s.cur.warp q.lane).exited

/-- AN INSTRUCTION WHOSE THREADS ACT ON THE MACHINE in turn, in ascending logical lane (R295). -/
def laneFold (i : Instr) (f : Nat → State → State × LaneOut) (s : State) : Out :=
  match issueInstead i s with
  | some s' => .next s'
  | none =>
    let pc := s.curPc
    let r := s.lanes.foldl (foldLane i f) (s, [])
    .next ((stallYield i s r.1).deliver s.cur.warp s.cur.slot pc (liveRaises r.1 r.2))

/-- The guard-true lanes of the bundle. -/
def guardTrue (i : Instr) (s : State) : List Nat :=
  s.lanes.filter fun l => (s.cx s.cur.warp l).guard (ctlOf i)

end Sys2Proof.Machine
end

