-- ==== Sys2Proof/Machine/Mem.lean ====
section
/-! DEFINITION. Physical memory, the tier homes with the migration engine's forwarding entries, the caches, access
counters and reservations (R101 to R103, R107, R120 to R122, R183, R196 to R201). -/

namespace Sys2Proof.Machine

/-! ## The physical address map (R183, R230) -/

/-- What a physical address holds. -/
inductive Region where
  | tier (t : Nat) | window | fabric | none
  deriving DecidableEq, Repr

/-- The region of a physical address (R183): the device windows below the fabric apertures, and those (R230). -/
def regionOf (pa : Nat) : Region :=
  if pa < 0x10000000000 then .tier 0
  else if 0x40000000000 ≤ pa ∧ pa < 0x58000000000 then .tier 1
  else if 0x1000000000000 ≤ pa ∧ pa < 0x1400000000000 then .tier 2
  else if 0xF000000000000 ≤ pa ∧ pa < 0xF800000000000 then .window
  else if 0xF800000000000 ≤ pa ∧ pa < 0x10000000000000 then .fabric
  else .none

/-- The tier of a physical address. -/
def tierOf (pa : Nat) : Option Nat :=
  match regionOf pa with
  | .tier t => some t
  | _ => none

/-- Die 0's half of tier 0 (R183). -/
def inDie0 (pa : Nat) : Bool := pa < 0x8000000000

/-- The distance from a replica on die 0 to the one on die 1 (R184). -/
def replicaDist : Nat := 0x8000000000

/-- The number of the 4 KiB frame of an address. -/
def frameOf (pa : Nat) : Nat := pa / 4096

/-- n consecutive addresses. -/
def addrs (pa n : Nat) : List Nat := (List.range n).map (pa + ·)

/-- Consecutive bytes with their addresses. -/
def placed (pa : Nat) (bs : List Byte) : List (Nat × Byte) := (addrs pa bs.length).zip bs

/-! ## Waking the compute dies (R253) -/

/-- The compute dies begin to leave their power state. -/
def State.wake (s : State) : State :=
  if s.power.pstate = 0 ∨ s.power.exiting then s
  else { s with power := { s.power with exiting := true, stateSince := s.now } }

/-! ## The memory of the package -/

/-- What an unlisted byte of memory reads as (DESIGN CHOICE: the spec gives RAM no reset contents). -/
def memDefault : Byte := 0

/-- One byte of memory. -/
def memGet (m : List Host.Cell) (a : Nat) : Byte := (tget m a).getD memDefault

/-- One byte of memory written; the canonical form is kept. -/
def memSet (m : List Host.Cell) (a : Nat) (v : Byte) : List Host.Cell := if v = memDefault then tdel m a else tset m a v

/-- Bytes written in order. -/
def memSetAll (m : List Host.Cell) (ws : List (Nat × Byte)) : List Host.Cell := ws.foldl (fun m w => memSet m w.1 w.2) m

/-- The canonical form of memory: addresses strictly rise and no entry equals what an unlisted address reads as. -/
def Memory.wf (m : List Host.Cell) : Bool := tsorted m && m.all fun c => c.2 != memDefault

/-- Every address. -/
def everywhere : Nat → Bool := fun _ => true

/-! ## Homes and forwarding entries (R199, R200) -/

/-- The forwarding entry that covers an address as a source, with its number. -/
def State.fwdAt (s : State) (pa : Nat) : Option (Nat × Fwd) := s.fwds.find? fun p => frameOf p.2.src = frameOf pa

/-- Whether a forwarding entry covers the page that an address backs: as its source, or from the Switch on as its destination
(R200, R207). -/
def State.coverOf (s : State) (pa : Nat) : Option Fwd :=
  (s.fwds.find? fun p => frameOf p.2.src = frameOf pa ∨ (p.2.switched ∧ frameOf p.2.dst = frameOf pa)).map Prod.snd

/-- Whether a migration between Start and Switch covers an address. -/
def State.moving (s : State) (pa : Nat) : Bool :=
  match s.fwdAt pa with
  | some (_, f) => !f.switched
  | none => false

/-- The address by which the package names a byte. From the Switch to the Release the old and the new translation of a page name one
byte: it keeps the name of the source, so that L1s, store queues and reservations meet whichever leads there (R199, R201). -/
def State.nameOf (s : State) (pa : Nat) : Nat :=
  match s.fwds.find? fun p => p.2.switched && frameOf p.2.dst == frameOf pa with
  | some (_, f) => f.src + pa % 4096
  | none => pa

/-- Where a request for an address is served: from the Switch on, at the destination (R199). -/
def State.homeAddr (s : State) (pa : Nat) : Nat :=
  match s.fwdAt pa with
  | some (_, f) => if f.switched then f.dst + pa % 4096 else pa
  | none => pa

/-- The latest window entry that wrote an address. -/
def windowByte (w : List (List (Nat × Byte))) (pa : Nat) : Option Byte :=
  (w.flatten.reverse.find? fun p => p.1 = pa).map Prod.snd

/-- Whether an access must wait for the compute dies to leave their power state: one to tier 0 (R253). -/
def State.sleeping (s : State) (pa : Nat) : Bool := s.power.pstate != 0 && tierOf (s.homeAddr pa) == some 0

/-- A byte at its home: during a migration the source overlaid by the window (R200). -/
def State.homeByte (s : State) (pa : Nat) : Byte :=
  match s.fwdAt pa with
  | some (_, f) =>
    if f.switched then memGet s.mem (f.dst + pa % 4096) else (windowByte f.window pa).getD (memGet s.mem pa)
  | none => memGet s.mem pa

/-- The 64-byte granules of a list of writes (R122). -/
def granules (ws : List (Nat × Byte)) : List Nat := (ws.map fun w => w.1 / 64).dedup

/-- A thread without a reservation on one of some granules. -/
def Thread.endResv (gs : List Nat) (t : Thread) : Thread :=
  match t.resv with
  | some r => if gs.contains r.granule then { t with resv := none } else t
  | none => t

/-- Every reservation on a written granule lapses, a fabric endpoint's too (R122, R231). -/
def State.endResv (s : State) (gs : List Nat) : State :=
  { s with warps := s.warps.map fun p => (p.1, { p.2 with threads := p.2.threads.map (Thread.endResv gs) })
           fabResv := s.fabResv.filter fun p => !gs.contains p.2.granule }

/-- Something waits for the Switch of the migration of a frame whose window is full (R200), in the order of arrival; of every such
migration, where what waits writes to many frames. -/
def State.stallFor (s : State) (frame : Option Nat) (x : Stall) : State :=
  let full (f : Fwd) : Bool :=
    !f.switched && decide (Config.windowEntries ≤ f.window.length) && !f.stalled.contains x && (frame.getD (frameOf f.src) == frameOf f.src)
  { s with fwds := s.fwds.map fun p => if full p.2 then (p.1, { p.2 with stalled := p.2.stalled ++ [x] }) else p }

/-- Bytes that are uncorrectable wherever they stand (R246). -/
def State.taint (s : State) (as : List Nat) : State :=
  if as = [] then s else { s with poison := as.foldl (fun t a => insNat a t) s.poison }

/-- Written bytes are no longer missing from a poisoned line (R246). -/
def State.unpoison (s : State) (ws : List (Nat × Byte)) : State :=
  { s with poison := s.poison.filter fun a => !(ws.any fun w => w.1 = a) }

/-- Whether a byte lies in a line that holds an uncorrectable error (R246): a line stays poisoned until each of its
bytes has been overwritten. -/
def State.poisoned (s : State) (pa : Nat) : Bool := s.poison.any fun a => a / 256 = pa / 256

/-- A write performed: reservations on it end, its bytes are good. -/
def State.written (s : State) (ws : List (Nat × Byte)) : State := (s.endResv (granules ws)).unpoison ws

/-- Writes within one sector at their home. Between Start and Switch they become one window entry; none when the window
is full and the writer must wait for the Switch (R200). -/
def State.homeWrite (s : State) (ws : List (Nat × Byte)) : Option State :=
  match ws with
  | [] => some s
  | (a, _) :: _ =>
    match s.fwdAt a with
    | some (k, f) =>
      if f.switched then
        let ws' := ws.map fun w => (f.dst + w.1 % 4096, w.2)
        some ({ s with mem := memSetAll s.mem ws' }.written ws')
      else if Config.windowEntries ≤ f.window.length then none
      else some ({ s with fwds := tset s.fwds k { f with window := f.window ++ [ws] } }.written ws)
    | none => some ({ s with mem := memSetAll s.mem ws }.written ws)

/-! ## Access counters and migration (R196 to R199) -/

/-- A frame's access counter. -/
def State.counter (s : State) (frame : Nat) : Nat := tgetD s.counters frame 0

/-- The lowest free forwarding entry (R199). -/
def State.freeFwd (s : State) : Option Nat :=
  (List.range Config.forwardEntries).find? fun k => (tget s.fwds k).isNone

/-- Whether the package owns a tier-2 page exclusively (R211); pages outside tier 2 need no ownership. -/
def State.ownsExcl (s : State) (pa : Nat) : Bool :=
  tierOf pa != some 2 || tget s.poolPages (frameOf (pa - 0x1000000000000)) == some .exclusive

/-- Whether the package may read a page (R211). -/
def State.ownsRead (s : State) (pa : Nat) : Bool :=
  tierOf pa != some 2 || (tget s.poolPages (frameOf (pa - 0x1000000000000))).isSome

/-- The cache of a number: the L2 of die 0 or 1, or the service-die caches (2). -/
def State.l2c (s : State) (id : Nat) : Cache := tgetD s.l2 id {}

/-- The cache of a number replaced. -/
def State.setL2 (s : State) (id : Nat) (c : Cache) : State := { s with l2 := tset s.l2 id c }

/-! ## Caches (R101) -/

/-- A byte that a cache holds. -/
def Cache.byte (c : Cache) (a : Nat) : Option CByte :=
  match tget c.sectors (a / 64) with
  | some x => tget x.bytes (a % 64)
  | none => none

/-- A byte that a load finds in a cache without a fill: one whose sector is filled, or whose mask bit is 1 (R101). -/
def Cache.serves (c : Cache) (a : Nat) : Option Byte :=
  match tget c.sectors (a / 64) with
  | some x => match tget x.bytes (a % 64) with
    | some b => if x.filled || b.dirty then some b.val else none
    | none => none
  | none => none

/-- A dirty byte of a cache. -/
def Cache.dirtyByte (c : Cache) (a : Nat) : Option Byte :=
  match c.byte a with
  | some b => if b.dirty then some b.val else none
  | none => none

/-- Whether a cache holds a line. -/
def Cache.hasLine (c : Cache) (line : Nat) : Bool := c.sectors.any fun x => x.1 / 4 == line

/-- The bytes of a cache at some addresses become clean, none dropped. -/
def cleanWhere (p : Nat → Bool) (c : Cache) : Cache :=
  { c with sectors := c.sectors.map fun x =>
      (x.1, { x.2 with bytes := x.2.bytes.map fun b => if p (64 * x.1 + b.1) then (b.1, { b.2 with dirty := false }) else b }) }

/-- The dirty bytes of a cache at some addresses. -/
def dirtyWhere (p : Nat → Bool) (c : Cache) : List (Nat × Byte) :=
  c.sectors.flatMap fun x => (x.2.bytes.filter fun b => b.2.dirty && p (64 * x.1 + b.1)).map fun b => (64 * x.1 + b.1, b.2.val)

/-- The dirty bytes of a cache at some addresses that are uncorrectable (R246). -/
def badWhere (p : Nat → Bool) (c : Cache) : List Nat :=
  c.sectors.flatMap fun x => (x.2.bytes.filter fun b => b.2.dirty && b.2.bad && p (64 * x.1 + b.1)).map fun b => 64 * x.1 + b.1

/-- The bytes that a cache holds of a line have met an uncorrectable error there (R246). -/
def Cache.spoil (c : Cache) (line : Nat) : Cache :=
  { c with sectors := c.sectors.map fun x =>
      if x.1 / 4 = line then (x.1, { x.2 with bytes := x.2.bytes.map fun b => (b.1, { b.2 with bad := true }) }) else x }

/-- Bytes of a cache dropped; a sector that loses one is to be filled again. -/
def dropIf (p : Nat → CByte → Bool) (c : Cache) : Cache :=
  { c with sectors := (c.sectors.map fun x =>
      let bs := x.2.bytes.filter fun b => !p (64 * x.1 + b.1) b.2
      (x.1, ({ filled := x.2.filled && bs.length == x.2.bytes.length, bytes := bs } : Sector))).filter fun x => x.2.bytes != [] }

/-- Bytes of a cache dropped by address. -/
def dropWhere (p : Nat → Bool) (c : Cache) : Cache := dropIf (fun a _ => p a) c

/-- Bytes put into a cache. -/
def cachePut (c : Cache) (dirty : Bool) (ws : List (Nat × Byte)) : Cache :=
  { c with sectors := ws.foldl (fun t w =>
      tupd t (w.1 / 64) ({} : Sector) fun x => { x with bytes := tset x.bytes (w.1 % 64) { val := w.2, dirty := dirty } }) c.sectors }

/-- Whether a touched sector must be filled: it holds a byte with mask bit 0 that no fill has brought (R101). -/
def Cache.misses (c : Cache) (sec : Nat) : Bool :=
  match tget c.sectors sec with
  | some x => !x.filled && (x.bytes.filter fun b => b.2.dirty).length != 64
  | none => true

/-- A sector filled from the next level: only the bytes whose mask bit is 0 are replaced (R101). -/
def Cache.fill (c : Cache) (sec : Nat) (src : Nat → Byte) : Cache :=
  let old := (tgetD c.sectors sec {}).bytes
  let byte (o : Nat) : CByte :=
    let new : CByte := { val := src (64 * sec + o), dirty := false }
    match tget old o with
    | some b => if b.dirty then b else new
    | none => new
  let x : Sector := { filled := true, bytes := (List.range 64).map fun o => (o, byte o) }
  { c with sectors := tset c.sectors sec x }

/-- The lowest of some ways that no line of a set takes. -/
def freeWay (lines : List Line) (inSet : Line → Bool) (ways : List Nat) : Option Nat :=
  if lines.length < ways.length then ways.find? fun w => !(lines.any fun l => l.way == w)
  else ways.find? fun w => !(lines.any fun l => l.way == w && inSet l)

/-- A line given a place in a cache among some ways of its set; none where all are taken. One that is held keeps its place, and
carries the attributes of its latest translation. -/
def Cache.place (c : Cache) (line slice set : Nat) (ways : List Nat) (attr : Option Xlat) : Option Cache :=
  if c.hasLine line then some { c with lines := tupd c.lines line {} fun l => { l with attr := attr.or l.attr } }
  else
    let held := c.lines.filter fun l => c.hasLine l.1
    (freeWay (held.map Prod.snd) (fun l => l.slice == slice && l.set == set) ways).map fun w =>
      { c with lines := tset held line { slice := slice, set := set, way := w, attr := attr } }

/-- Whether an address lies in a line that a cache holds in some places. -/
def Cache.inPlace (c : Cache) (p : Line → Bool) (a : Nat) : Bool :=
  match tget c.lines (a / 256) with
  | some l => p l
  | none => false

/-- The attributes that requests for an address carry from a cache (R197). -/
def Cache.attrAt (c : Cache) (a : Nat) : Option Xlat := (tget c.lines (a / 256)).bind Line.attr

/-- Every L2 writes back its dirty bytes at some addresses and keeps them clean. -/
def State.l2CleanAll (s : State) (p : Nat → Bool) : State :=
  [0, 1, 2].foldl (fun s id =>
    let c := s.l2c id
    let ws := dirtyWhere p c
    if ws = [] then s else { s with mem := memSetAll s.mem ws }.setL2 id (cleanWhere p c)) s

/-- Every L2 drops what it holds at some addresses, dirty or clean. -/
def State.l2Forget (s : State) (p : Nat → Bool) : State := { s with l2 := s.l2.map fun c => (c.1, dropWhere p c.2) }

/-- Every L2 writes back its dirty bytes at some addresses and drops what it holds there. -/
def State.l2DropAll (s : State) (p : Nat → Bool) : State := (s.l2CleanAll p).l2Forget p

/-- A byte as an access at package scope reads it: a dirty copy of an L2, else the home (R103). -/
def State.cohByte (s : State) (pa : Nat) : Byte :=
  let a := s.homeAddr pa
  match [0, 1, 2].findSome? fun id => (s.l2c id).dirtyByte a with
  | some v => v
  | none => s.homeByte pa

/-- n bytes as an access at package scope reads them. -/
def State.cohBytes (s : State) (pa n : Nat) : List Byte := (addrs pa n).map s.cohByte

/-- MIGRATION_START (R199): an entry is taken, a frame popped from the target's ring, the L2s hold only clean copies.
Nothing starts without an entry or a frame. -/
def State.startMigration (s : State) (src tenant ipa leafPa target : Nat) : Option State :=
  match s.freeFwd, tgetD s.rings target [] with
  | some k, d :: ring =>
    let inFrame (a : Nat) : Bool := frameOf a == frameOf src
    let s := s.l2CleanAll inFrame
    some { s with
      rings := tset s.rings target ring
      fwds := tset s.fwds k
        { src := src / 4096 * 4096, dst := d, tenant := tenant, ipa := ipa / 4096 * 4096, leafPa := leafPa,
          leafOld := leNat (s.cohBytes leafPa 8), srcTier := (tierOf src).getD 0, dstTier := target } }
  | _, _ => none

/-- The tier a counter moves a page to (R197). -/
def targetTier (aff : Nat) : Nat := if aff = 0 then 0 else aff - 1

/-- R197: a counted request whose frame has reached the tenant's threshold starts a migration where it may. -/
def State.promote (s : State) (req : HomeReq) : State :=
  let f := frameOf req.pa
  let th := (s.tenant req.tenant).thresh
  let t := targetTier req.aff
  if th ≠ 0 ∧ th ≤ s.counter f ∧ req.migratable ∧ req.pinrq = false ∧ s.pins.contains f = false ∧ req.tiers.testBit t ∧
      tierOf req.pa ≠ some t ∧ (s.coverOf req.pa).isNone then
    (s.startMigration req.pa req.tenant req.ipa req.leafPa t).getD s
  else s

/-- A frame's counter raised, saturating (R196). -/
def State.addCount (s : State) (frame n : Nat) : State :=
  { s with counters := tset s.counters frame (min 0xFFFF (s.counter frame + n)) }

/-- A request for a frame of a tier that reaches its home counts there, and may start a migration (R196, R197).
Between Start and Switch it counts at neither frame; after the Switch at the destination. -/
def State.countReq (s : State) (req : HomeReq) : State :=
  match tierOf req.pa with
  | none => s
  | some _ =>
    if s.moving req.pa then s
    else match s.fwdAt req.pa with
      | some _ => s.addCount (frameOf (s.homeAddr req.pa)) req.n
      | none => (s.addCount (frameOf req.pa) req.n).promote req

/-- The request for an address with the combined attributes of its translation (R197); a request without one, as of a table walk,
starts nothing. -/
def reqOf (attr : Option Xlat) (pa n : Nat) : HomeReq :=
  match attr with
  | some x =>
    { pa := pa, n := n, tenant := x.tenant, ipa := x.ipa / 4096 * 4096 + pa % 4096, leafPa := x.leafPa, aff := x.aff, tiers := x.tiers,
      migratable := x.mig, pinrq := x.pinrq }
  | none =>
    { pa := pa, n := n, tenant := 16, ipa := 0, leafPa := 0, aff := 0, tiers := 0, migratable := false, pinrq := false }

/-- A counted request (R196). -/
def State.count (s : State) (attr : Option Xlat) (pa n : Nat) : State := s.countReq (reqOf attr pa n)

/-! ## The second-level caches (R81, R93, R101, R103) -/

/-- The L2 slices of a die that back carves. -/
def State.carved (s : State) (d : Nat) : List Nat := s.tenants.flatMap fun t => if d = 0 then t.2.slices0 else t.2.slices1

/-- The L2 slices of a die in caching service: enabled and not carved (R93, R103). -/
def State.liveSlices (s : State) (d : Nat) : List Nat :=
  (List.range Config.l2Slices).filter fun k => !(s.carved d).contains k && !s.retiredSlices.contains (d, k)

/-- The slice of a die that is home to a line (R103). -/
def State.sliceOf (s : State) (d line : Nat) : Nat :=
  let live := s.liveSlices d
  (live[Config.l2Hash live line % live.length]?).getD 0

/-- The ways of a die's sets into which a tenant allocates (R81): its own, else those that no mask names. -/
def State.waysOf (s : State) (d t : Nat) : List Nat :=
  let mask (k : Tenant) : BitVec 16 := if d = 0 then k.ways0 else k.ways1
  let own := mask (s.tenant t)
  let taken := s.tenants.foldl (fun m k => m ||| mask k.2) 0#16
  numsWhere Config.l2Ways fun w => if own != 0 then own.getLsbD w else !taken.getLsbD w

/-- A line given a place in an L2: none where every way that the tenant may use is taken, retired or under test (R249). DESIGN CHOICE: the
line that comes is then the victim, and passes through (log 78). The service-die caches have no geometry (log 35). -/
def State.l2Place (s : State) (id line : Nat) (attr : Option Xlat) : Option Cache :=
  let c := s.l2c id
  if 2 ≤ id then some { c with lines := tupd c.lines line {} fun l => { l with attr := attr.or l.attr } }
  else
    let slice := s.sliceOf id line
    let set := Config.l2Set line % Config.l2Sets
    let t := match attr with
      | some x => x.tenant
      | none => 16
    let out (w : Nat) : Bool := s.retiredL2.contains (id, slice, set, w) || s.selfTests.contains (.l2Line id slice set w)
    c.place line slice set ((s.waysOf id t).filter fun w => !out w) attr

/-- The sector of an address. -/
def sectorOf (pa : Nat) : Nat := pa / 64

/-- A sector filled in an L2: counted at its home (R196). -/
def State.l2Fill (s : State) (id : Nat) (attr : Option Xlat) (sec : Nat) : State :=
  if (s.l2c id).misses sec then
    (match s.l2Place id (sec / 4) attr with
      | some c => s.setL2 id (c.fill sec s.cohByte)
      | none => s).count attr (sec * 64) 1
  else s

/-- The sectors of some addresses. -/
def sectorsOf (pas : List Nat) : List Nat := (pas.map sectorOf).dedup

/-- A byte as a die's L2 gives it: its copy, else the byte below. -/
def State.l2Byte (s : State) (id a : Nat) : Byte := ((s.l2c id).serves a).getD (s.cohByte a)

/-- A read through an L2: the touched sectors are filled, the bytes read. Addresses of a migrated frame are the
destination's from the Switch on (R199). -/
def State.l2Read (s : State) (id : Nat) (attr : Option Xlat) (pa n : Nat) : State × List Byte :=
  let a := s.homeAddr pa
  let s := (sectorsOf (addrs a n)).foldl (fun s x => s.l2Fill id attr x) s
  (s, (addrs a n).map (s.l2Byte id))

/-- The directory of the home agents (R103): the caches that hold a line, by number. -/
def State.holders (s : State) (line : Nat) : List Nat := [0, 1, 2].filter fun id => (s.l2c id).hasLine line

/-- Caches give up a line: their dirty bytes go home, counted (R103, R196). -/
def State.yieldLine (s : State) (ids : List Nat) (line : Nat) : State :=
  let p (a : Nat) : Bool := a / 256 == line
  ids.foldl (fun s id =>
    let c := s.l2c id
    let ws := dirtyWhere p c
    let s := { s with mem := memSetAll s.mem ws }.setL2 id (dropWhere p c)
    if ws = [] then s else s.count (c.attrAt (line * 256)) (line * 256) 1) s

/-- The other caches give up a line before a write to it is performed (R103). -/
def State.invalidateOthers (s : State) (id line : Nat) : State := s.yieldLine ((s.holders line).filter (· != id)) line

/-- Writes within one sector performed at an L2 that alone holds their line (R103): it keeps the bytes dirty, or, where the line
finds no place, writes them through. Under a migration they are written through and the copy stays clean (R200); none when they must
wait for the Switch. -/
def State.l2Write (s : State) (id : Nat) (attr : Option Xlat) (ws : List (Nat × Byte)) : Option State :=
  match ws with
  | [] => some s
  | (a, _) :: _ =>
    let s := (ws.map fun w => s.homeAddr w.1 / 256).dedup.foldl (fun s l => s.invalidateOthers id l) s
    let put (s : State) (dirty : Bool) (ws : List (Nat × Byte)) : Option State :=
      (s.l2Place id (s.homeAddr a / 256) attr).map fun c => s.setL2 id (cachePut c dirty ws)
    if s.moving a then (s.homeWrite ws).map fun s => (put s false ws).getD s
    else
      let ws' := ws.map fun w => (s.homeAddr w.1, w.2)
      match put s true ws' with
      | some s => some (s.written ws')
      | none => (s.homeWrite ws).map fun s => s.count attr a 1

/-- Writes grouped by sector, in order of first appearance. -/
def bySector (ws : List (Nat × Byte)) : List (List (Nat × Byte)) :=
  (ws.map fun w => sectorOf w.1).dedup.map fun x => ws.filter fun w => sectorOf w.1 = x

/-- A state that must be reached through writes that may each have to wait. -/
def tryAll {α : Type} (f : State → α → Option State) (s : State) (xs : List α) : Option State :=
  xs.foldl (fun acc x => acc.bind fun s => f s x) (some s)

/-- An engine's or the Ridgepole's writes to ordinary memory (R117): every cache gives up the lines, the home takes the
bytes. -/
def State.cohWrite (s : State) (ws : List (Nat × Byte)) : Option State :=
  tryAll (fun s g => match g with
    | [] => some s
    | (a, _) :: _ =>
      let l := s.homeAddr a / 256
      (s.yieldLine (s.holders l) l).homeWrite g) s (bySector ws)

/-- The Ridgepole's own writes, of a leaf or of a record in Bivouac: each line of them is a request for its frame (R196). -/
def State.ownWrite (s : State) (ws : List (Nat × Byte)) : Option State :=
  (s.cohWrite ws).map fun s => ((ws.map fun w => w.1 / 256).dedup).foldl (fun s l => s.count none (l * 256) 1) s

/-- Writes through a memory-side aperture within one sector (R104, R123): at the home, and no cache keeps a clean copy of them, so
that the apertures agree from a CLEAN on. -/
def State.sideWrite (s : State) (ws : List (Nat × Byte)) : Option State :=
  let on (a : Nat) : Bool := ws.any fun w => w.1 == a
  let forget (t : Tbl Cache) : Tbl Cache := t.map fun c => (c.1, dropIf (fun a b => !b.dirty && on a) c.2)
  (s.homeWrite ws).map fun s => { s with l1 := forget s.l1, l2 := forget s.l2 }

/-- A write to a replicated page at the multicast sequencer (R120): both replicas apply it, every L2 and the service-die
caches drop the line. -/
def State.replWrite (s : State) (ws : List (Nat × Byte)) : State :=
  let ws0 := ws.map fun w => (w.1 % replicaDist, w.2)
  let ws1 := ws0.map fun w => (w.1 + replicaDist, w.2)
  let lines := ((ws0 ++ ws1).map fun w => w.1 / 256).dedup
  let s := s.l2DropAll fun a => lines.contains (a / 256)
  { s with mem := memSetAll s.mem (ws0 ++ ws1) }.written (ws0 ++ ws1)

/-! ## The first-level caches (R102) -/

/-- The L1 of a core. -/
def State.l1c (s : State) (core : Nat) : Cache := tgetD s.l1 core {}

/-- The L1 of a core replaced. -/
def State.setL1 (s : State) (core : Nat) (c : Cache) : State := { s with l1 := tset s.l1 core c }

/-- A line given a place in an L1: none where every way of its set is taken, retired or under test (R249); the line then passes through
(log 78). -/
def State.l1Place (s : State) (core line : Nat) (attr : Option Xlat) : Option Cache :=
  let set := Config.l1Set line % Config.l1Sets
  let out (w : Nat) : Bool := (s.core core).retiredLines.contains (set, w) || s.selfTests.contains (.l1Line core set w)
  (s.l1c core).place line 0 set ((List.range Config.l1Ways).filter fun w => !out w) attr

/-- A sector filled in L1 from its die's L2 (R101). -/
def State.l1Fill (s : State) (core : Nat) (attr : Option Xlat) (sec : Nat) : State :=
  if (s.l1c core).misses sec then
    let r := s.l2Read (dieOf core) attr (sec * 64) 64
    match r.1.l1Place core (sec / 4) attr with
    | some c => r.1.setL1 core (c.fill sec fun a => (r.2[a - sec * 64]?).getD 0)
    | none => r.1
  else s

/-- A read through L1 (R101). -/
def State.l1Read (s : State) (core : Nat) (attr : Option Xlat) (pa n : Nat) : State × List Byte :=
  let s := (sectorsOf (addrs pa n)).foldl (fun s x => s.l1Fill core attr x) s
  (s, (addrs pa n).map fun a => ((s.l1c core).serves a).getD (s.l2Byte (dieOf core) (s.homeAddr a)))

/-- A store leaves the queue for L1 (R101, R108); where its line finds no place there, for the L2. None when it must wait (R200). -/
def State.l1Store (s : State) (core : Nat) (x : Xlat) (bs : List Byte) : Option State :=
  match s.l1Place core (x.pa / 256) (some x) with
  | some c => some (s.setL1 core (cachePut c true (placed x.pa bs)))
  | none => s.l2Write (dieOf core) (some x) (placed x.pa bs)

/-- The dirty bytes of one sector of L1 at some addresses passed on to the L2, uncorrectable ones as such (R246); none when they must
wait (R200). -/
def State.l1WriteBackSector (s : State) (core : Nat) (p : Nat → Bool) (sec : Nat) : Option State :=
  let q (a : Nat) : Bool := p a && sectorOf a == sec
  let c := s.l1c core
  match s.l2Write (dieOf core) (c.attrAt (sec * 64)) (dirtyWhere q c) with
  | none => none
  | some s => some ((s.taint ((badWhere q c).map s.homeAddr)).setL1 core (cleanWhere q (s.l1c core)))

/-- The sectors of L1 that hold dirty bytes at some addresses, each once. -/
def dirtySectors (p : Nat → Bool) (c : Cache) : List Nat := sectorsOf ((dirtyWhere p c).map Prod.fst)

/-- L1 writes back its dirty bytes at some addresses (R102). -/
def State.l1WriteBack (s : State) (core : Nat) (p : Nat → Bool) : Option State :=
  tryAll (fun s x => s.l1WriteBackSector core p x) s (dirtySectors p (s.l1c core))

/-- Whether writes of a core at some addresses wait for a Switch (R200). -/
def State.stalls (s : State) (core : Nat) (p : Nat → Bool) : Bool :=
  s.fwds.any fun f => f.2.stalled.any fun x => match x with
    | .bytes y => y.core == core && y.ws.any fun w => p w.1
    | _ => false

/-- The dirty bytes of one sector of L1 at some addresses sent to the L2: where they find the window full they are with the migration
engine, which performs them at the Switch (R200). -/
def State.l1PushSector (s : State) (core : Nat) (p : Nat → Bool) (sec : Nat) : State :=
  match s.l1WriteBackSector core p sec with
  | some s => s
  | none =>
    let q (a : Nat) : Bool := p a && sectorOf a == sec
    let c := s.l1c core
    match s.fwdAt (sec * 64) with
    | some (k, f) =>
      let x : Stalled := { core := core, attr := c.attrAt (sec * 64), ws := dirtyWhere q c, bad := badWhere q c }
      { s with fwds := tset s.fwds k { f with stalled := f.stalled ++ [Stall.bytes x] } }.setL1 core (cleanWhere q c)
    | none => s

/-- L1 sends off its dirty bytes at some addresses; the release or eviction that sends them is complete once `stalls` is false. -/
def State.l1Push (s : State) (core : Nat) (p : Nat → Bool) : State :=
  (dirtySectors p (s.l1c core)).foldl (fun s x => s.l1PushSector core p x) s

/-- L1 drops every byte whose mask bit is 0 (R102), but for those of its own writes that wait for a Switch. -/
def State.l1DropClean (s : State) (core : Nat) : State :=
  s.setL1 core (dropIf (fun a b => !b.dirty && !s.stalls core (· == a)) (s.l1c core))

/-- L1 drops what it holds at some addresses. -/
def State.l1Drop (s : State) (core : Nat) (p : Nat → Bool) : State := s.setL1 core (dropWhere p (s.l1c core))

/-- The cores whose L1 holds something. -/
def State.l1Cores (s : State) : List Nat := tkeys s.l1

/-- Every L1 writes back its dirty bytes at some addresses; none while a write must wait. -/
def State.l1WriteBackAll (s : State) (p : Nat → Bool) : Option State :=
  (tryAll (fun s c => s.l1WriteBack c p) s s.l1Cores).bind fun s => if s.l1Cores.any fun c => s.stalls c p then none else some s

/-! ## Atomic access at the point of coherence (R121, R217) -/

/-- Where a request for physical memory is performed. -/
inductive Place where
  | memSide | repl | fabric | cached
  deriving DecidableEq, Repr

/-- The place of a translated access (R104, R120, R230). -/
def Xlat.place (x : Xlat) : Place :=
  if x.ms then .memSide else if x.repl then .repl
  else match regionOf x.pa with
    | .fabric => .fabric
    | _ => .cached

/-- The cache a core's coherent accesses go through: its die's L2, or the service-die caches. -/
def l2Of (core : Nat) : Nat := if core < 1024 then dieOf core else 2

/-- Before an atomic is sent, the issuing core's L1 writes back the line and drops it (R121). -/
def State.l1Release (s : State) (core pa : Nat) : Option State :=
  if core < 1024 then
    let p (a : Nat) : Bool := a / 256 == pa / 256
    if s.stalls core p then none else (s.l1WriteBack core p).map fun s => s.l1Drop core p
  else some s

/-- The replica an agent of a core reads (R120): its own die's; die 0's on the service die. -/
def replicaPa (core pa : Nat) : Nat := pa % replicaDist + (if core < 1024 ∧ dieOf core = 1 then replicaDist else 0)

/-- Bytes that an external endpoint answers: free values (R230). -/
def State.freeBytes (s : State) (n : Nat) : State × List Byte :=
  ({ s with drawn := s.drawn + n }, (List.range n).map fun i => Config.freeByte (s.drawn + i))

/-- The outcome of a request to an external endpoint (R230): none performed, some k a stage-2 fault of kind k, 6 where no answer
comes. Other memory answers itself. -/
def State.fabricGate (s : State) (pa : Nat) : State × Option Nat :=
  match regionOf pa with
  | .fabric =>
    match Config.fabricAnswer s.drawn with
    | 0 => (s.draw, none)
    | 1 => (s.draw, some 1)
    | _ => (s.draw, some 6)
  | _ => (s, none)

/-- n bytes read at the point of coherence of a translated access by a core. -/
def State.pocRead (s : State) (core : Nat) (x : Xlat) (n : Nat) : State × List Byte :=
  match x.place with
  | .memSide => ((s.count (some x) x.pa 1), (addrs x.pa n).map s.homeByte)
  | .repl => (s.count (some x) x.pa 1, (addrs (x.pa % replicaDist) n).map s.homeByte)
  | .fabric => s.freeBytes n
  | .cached => s.l2Read (l2Of core) (some x) x.pa n

/-- n bytes at the point of coherence as an atomic of a core reads them, which its write counts (R196): an L2 that performs it fills
its sectors. -/
def State.rmwRead (s : State) (core : Nat) (x : Xlat) (n : Nat) : State × List Byte :=
  match x.place with
  | .memSide => (s, (addrs x.pa n).map s.homeByte)
  | .repl => (s, (addrs (x.pa % replicaDist) n).map s.homeByte)
  | _ => s.pocRead core x n

/-- An atomic that writes nothing counts at its home all the same (R196). -/
def State.rmwCount (s : State) (x : Xlat) : State :=
  match x.place with
  | .memSide => s.count (some x) x.pa 1
  | .repl => s.count (some x) (x.pa % replicaDist) 1
  | _ => s

/-- n bytes as an LR of a core reads them (R372): at the home, or in the replica that its own loads read (R120). -/
def State.lrRead (s : State) (core : Nat) (x : Xlat) (n : Nat) : State × List Byte :=
  match x.place with
  | .repl => (s.count (some x) (replicaPa core x.pa) 1, (addrs (replicaPa core x.pa) n).map s.homeByte)
  | _ => s.pocRead core x n

/-- Bytes within one sector written at the point of coherence of a translated access by a core; none when the write must
wait (R200). An atomic at a migrating page's home is one window entry. What a write does at an external endpoint is no state of the
package, but for the reservations on it that the package's threads hold (R122). -/
def State.pocWrite (s : State) (core : Nat) (x : Xlat) (bs : List Byte) : Option State :=
  match x.place with
  | .memSide => (s.sideWrite (placed x.pa bs)).map fun s => s.count (some x) x.pa 1
  | .repl => some ((s.replWrite (placed x.pa bs)).count (some x) (x.pa % replicaDist) 1)
  | .fabric => some (s.endResv (granules (placed x.pa bs)))
  | .cached => s.l2Write (l2Of core) (some x) (placed x.pa bs)

end Sys2Proof.Machine
end

