-- ==== Sys2Proof/Machine/Walk.lean ====
section
/-! DEFINITION. Address translation (R185 to R189, R419), fault records and waiting (R190 to R193). -/

namespace Sys2Proof.Machine

/-- What an access does, for the checks of R187; `place` where only the page's place is asked for, so that neither ownership nor a
migration cause stops it (R207, R222). -/
structure Acc where
  read : Bool := false
  write : Bool := false
  fetch : Bool := false
  atomic : Bool := false
  engine : Bool := false
  place : Bool := false
  deriving DecidableEq, Repr

/-- A load that asks for the page's place alone. -/
def accPlace : Acc := { read := true, place := true }
/-- A load. -/
def accLoad : Acc := { read := true }
/-- A store. -/
def accStore : Acc := { write := true }
/-- An atomic or SC. -/
def accAtomic : Acc := { read := true, write := true, atomic := true }
/-- A fetch. -/
def accFetch : Acc := { fetch := true }
/-- An engine's read. -/
def accEngR : Acc := { read := true, engine := true }
/-- An engine's write, or a write the device makes (R73). -/
def accEngW : Acc := { write := true, engine := true }

/-- How a translation fails: a cause raised at once, or a fault of R187 that is recorded. -/
inductive XErr where
  | cause (c : Nat)
  | fault (stage2 : Bool) (kind level ipa : Nat)
  deriving DecidableEq, Repr

/-- A table entry as the walk finds it (R185, R186). -/
inductive Pte where
  | invalid | bad | table | leaf
  deriving DecidableEq, Repr

/-- OA of an entry: bits 51:12 in place. -/
def oaOf (e : Nat) : Nat := bitsOf e 12 40 * 4096

/-- What an entry is at a level; `cont` is the place of CONT, whose group is checked apart (R186). -/
def pteKind (level e : Nat) : Pte :=
  let reserved := bitsOf e 52 12 ≠ 0 ∨ e.testBit 11
  match e % 4 with
  | 0 => .invalid
  | 3 =>
    if level < 4 then (if bitsOf e 52 12 ≠ 0 ∨ bitsOf e 2 10 ≠ 0 then .bad else .table)
    else if reserved then .bad else .leaf
  | 1 => if (level = 2 ∨ level = 3) ∧ ¬ reserved ∧ e.testBit 5 = false then .leaf else .bad
  | _ => .bad

/-- The size of the page a leaf maps at a level (R185). -/
def pageSize (level : Nat) : Nat := 2 ^ (48 - 9 * level)

/-- The table index of an input address at a level (R185). -/
def tableIdx (level a : Nat) : Nat := bitsOf a (48 - 9 * level) 9

/-- The 16 entries of a CONT group agree but for consecutive output addresses (R185). -/
def contOk (es : List Nat) : Bool :=
  match es with
  | [] => true
  | e0 :: _ => (mapFrom (fun i e => pteKind 4 e == .leaf && e - oaOf e == e0 - oaOf e0 && oaOf e == oaOf e0 + 4096 * i) 0 es).all id

/-- An 8-byte table entry read coherently at package scope (R188). One in an external endpoint's memory is what that endpoint answers, a
free value (R230); a walker reads 0 in a device window, where no register is at its level (R420). -/
def State.entryAt (s : State) (pa : Nat) : Nat :=
  match regionOf pa with
  | .fabric => Config.fabricEntry s.drawn pa % 2 ^ 64
  | .window => 0
  | _ => leNat (s.cohBytes pa 8)

/-- Why a walker gets no table entry: its page is a pool page that the package may not read (R211), or an external endpoint refuses or
does not answer (R230). -/
def State.tableStop (s : State) (pa : Nat) : Option (Option Nat) :=
  if s.ownsRead pa = false then some none
  else match regionOf pa with
    | .fabric => match Config.fabricAnswer s.drawn with
      | 0 => none
      | 1 => some (some 1)
      | _ => some (some 6)
    | _ => none

/-- How a table read that gets nothing ends: cause 0x0D at once, or a stage-2 fault. -/
def stopErr (level ipa : Nat) : Option Nat → XErr
  | none => .cause 0x0D
  | some k => .fault true k level (ipa / 4096 * 4096)

/-- The group of a level-4 entry with CONT set is whole (R185). -/
def State.groupOk (s : State) (ea e : Nat) : Bool :=
  e.testBit 5 = false || contOk ((List.range 16).map fun i => s.entryAt (ea / 128 * 128 + 8 * i))

/-- A leaf that a walk found: the entry, its level and its address. -/
structure Leaf where
  e : Nat
  level : Nat
  at_ : Nat
  deriving DecidableEq, Repr

/-- The output address of a leaf for an input address. DESIGN CHOICE: R186 does not say whether the OA bits below the size of a
block must be 0; the model ignores them (log 79). -/
def Leaf.out (l : Leaf) (a : Nat) : Nat := oaOf l.e / pageSize l.level * pageSize l.level + a % pageSize l.level

/-- The size of the page that a leaf is of: 64 KiB with CONT set (R185). -/
def Leaf.size (l : Leaf) : Nat := if l.level = 4 ∧ l.e.testBit 5 then 65536 else pageSize l.level

/-- What a walk has passed: the addresses of the entries it has read, and the ranges of intermediate addresses that its stage-2 leaves
map. -/
structure WalkLog where
  reads : List Nat := []
  via : List (Nat × Nat) := []
  deriving DecidableEq, Repr

/-- One walk after another. -/
def WalkLog.add (a b : WalkLog) : WalkLog := { reads := a.reads ++ b.reads, via := a.via ++ b.via }

/-- The entries read at one place of a walk: with CONT set at level 4, the whole group (R185). -/
def entryReads (level ea e : Nat) : List Nat :=
  if level = 4 ∧ e.testBit 5 then [ea, ea / 128 * 128, ea / 128 * 128 + 64] else [ea]

/-- The stage-2 walk of an IPA (R187): kinds 0, 5 and 6 at their level. -/
def State.walk2Go (s : State) (ipa : Nat) : Nat → Nat → Nat → WalkLog × Except XErr Leaf
  | 0, level, _ => ({}, .error (.fault true 5 level (ipa / 4096 * 4096)))
  | n + 1, level, table =>
    let ea := table + 8 * tableIdx level ipa
    let e := s.entryAt ea
    let log : WalkLog := { reads := entryReads level ea e }
    let err (k : Nat) : WalkLog × Except XErr Leaf := (log, .error (.fault true k level (ipa / 4096 * 4096)))
    match s.tableStop ea with
    | some k => (log, .error (stopErr level ipa k))
    | none =>
    match pteKind level e with
    | .invalid => err 0
    | .bad => err 5
    | .table =>
      if regionOf (oaOf e) = .none then err 6
      else
        let r := s.walk2Go ipa n (level + 1) (oaOf e)
        (log.add r.1, r.2)
    | .leaf =>
      if level = 4 ∧ s.groupOk ea e = false then err 5
      else
        let l : Leaf := { e := e, level := level, at_ := ea }
        ({ log with via := [(ipa / l.size * l.size, l.size)] }, .ok l)

/-- The stage-2 walk from a tenant's root; without EN every access faults with kind 0 (R189). -/
def State.walk2 (s : State) (tenant ipa : Nat) : WalkLog × Except XErr Leaf :=
  let root := (s.tenant tenant).s2root
  if wbit root 0 then s.walk2Go ipa 5 0 (oaOf root.toNat) else ({}, .error (.fault true 0 0 (ipa / 4096 * 4096)))

/-- Whether the output of a stage-2 leaf is no place for a page (R187): out of range, or a replicated page outside die 0's half of
tier 0. -/
def outOfRange (repl : Bool) (pa : Nat) : Bool := regionOf pa == .none || (repl && !inDie0 pa)

/-- The physical address of a stage-1 table entry: its IPA translated by stage 2 (R187). -/
def State.tablePa (s : State) (tenant ipa : Nat) : WalkLog × Except XErr Nat :=
  let r := s.walk2 tenant ipa
  (r.1, match r.2 with
    | .error x => .error x
    | .ok l =>
      let pa := l.out ipa
      let err (k : Nat) : Except XErr Nat := .error (.fault true k l.level (ipa / 4096 * 4096))
      if l.e.testBit 2 = false then err 1 else if outOfRange (l.e.testBit 10) pa then err 6 else .ok pa)

/-- The stage-1 walk (R187), level by level. -/
def State.walk1Go (s : State) (tenant va : Nat) : Nat → Nat → Nat → WalkLog × Except XErr Leaf
  | 0, level, _ => ({}, .error (.fault false 5 level 0))
  | n + 1, level, table =>
    let r := s.tablePa tenant (table + 8 * tableIdx level va)
    match r.2 with
    | .error x => (r.1, .error x)
    | .ok ea =>
      let e := s.entryAt ea
      let log := r.1.add { reads := entryReads level ea e }
      match s.tableStop ea with
      | some k => (log, .error (stopErr 4 (table + 8 * tableIdx level va) k))
      | none =>
      match pteKind level e with
      | .invalid => (log, .error (.fault false 0 level 0))
      | .bad => (log, .error (.fault false 5 level 0))
      | .table =>
        let q := s.walk1Go tenant va n (level + 1) (oaOf e)
        (log.add q.1, q.2)
      | .leaf => (log, if level = 4 ∧ s.groupOk ea e = false then .error (.fault false 5 level 0)
                       else .ok { e := e, level := level, at_ := ea })

/-- The stage-1 result for a virtual address: its leaf, or none where stage 1 is off and the IPA is the address (R189). -/
def State.walk1 (s : State) (tenant va : Nat) : WalkLog × Except XErr (Option Leaf) :=
  let root := (s.tenant tenant).s1root
  if wbit root 0 then
    let r := s.walk1Go tenant va 5 0 (oaOf root.toNat)
    (r.1, r.2.map some)
  else ({}, .ok none)

/-- The size at which two pages combine (R188): the smaller, where the intermediate range it covers lies in the stage-2 page; a
single 4 KiB page otherwise. -/
def combinedSize (sz1 sz2 va ipa : Nat) : Nat :=
  let sz := min sz1 sz2
  let base := ipa - va % sz
  if va % sz ≤ ipa ∧ base / sz2 = (base + sz - 1) / sz2 then sz else 4096

/-- The combined entry of the leaves of both stages (R188). -/
def combined (node tenant va : Nat) (l1 : Option Leaf) (l2 : Leaf) (via : List (Nat × Nat)) : TlbEntry :=
  let ipa := match l1 with
    | some l => l.out va
    | none => va
  let sz := combinedSize (match l1 with
    | some l => l.size
    | none => l2.size) l2.size va ipa
  let b1 (i : Nat) (off : Bool) : Bool := match l1 with
    | some l => l.e.testBit i
    | none => off
  let ms := b1 6 false
  { node := node, tenant := tenant, vbase := va / sz * sz, size := sz, ibase := ipa - va % sz, pbase := l2.out ipa - va % sz,
    leafPa := l2.at_, w1 := b1 2 true, x1 := b1 3 true, u1 := b1 4 true, w2 := l2.e.testBit 3, r2 := l2.e.testBit 2,
    x2 := l2.e.testBit 4, ms := ms, repl := l2.e.testBit 10,
    mig := l2.e.testBit 9 && l2.level == 4 && !l2.e.testBit 5 && !l2.e.testBit 10 && !ms,
    pinrq := b1 7 false, landrq := b1 10 false,
    aff := match l1 with
      | some l => bitsOf l.e 8 2
      | none => 0
    tiers := bitsOf l2.e 6 3
    lev1 := match l1 with
      | some l => l.level
      | none => 0
    lev2 := l2.level
    via := via }

/-- Both walks, before the checks of the access (R187, R188). -/
def State.walkEntry (s : State) (node tenant va : Nat) : WalkLog × Except XErr TlbEntry :=
  let r1 := s.walk1 tenant va
  match r1.2 with
  | .error x => (r1.1, .error x)
  | .ok l1 =>
    let r2 := s.walk2 tenant (match l1 with
      | some l => l.out va
      | none => va)
    let log := r1.1.add r2.1
    (log, r2.2.map fun l2 => combined node tenant va l1 l2 log.via)

/-- The physical address an entry gives a virtual one. -/
def TlbEntry.pa (e : TlbEntry) (va : Nat) : Nat := e.pbase + (va - e.vbase)

/-- The intermediate address an entry gives a virtual one. -/
def TlbEntry.ipa (e : TlbEntry) (va : Nat) : Nat := e.ibase + (va - e.vbase)

/-- The two migration causes of R187: a memory-side page outside tier 0, or a required pin that cannot be kept. -/
def TlbEntry.forbidden (e : TlbEntry) (pa : Nat) : Bool :=
  (e.ms && tierOf pa != some 0) ||
    (e.pinrq && (e.aff == 0 || (tierOf pa != some (e.aff - 1) && !e.tiers.testBit (e.aff - 1))))

/-- The checks of R187 on a leaf, in their order, and the ownership of R211. -/
def State.checkEntry (s : State) (acc : Acc) (user : Bool) (e : TlbEntry) (va : Nat) : Except XErr Xlat :=
  let pa := e.pa va
  let e1 (k : Nat) : Except XErr Xlat := .error (.fault false k e.lev1 0)
  let e2 (k : Nat) : Except XErr Xlat := .error (.fault true k e.lev2 (e.ipa va / 4096 * 4096))
  if user && !e.u1 then e1 3
  else if acc.write && !e.w1 then e1 1
  else if acc.fetch && !e.x1 then e1 2
  else if (acc.read && !e.r2) || (acc.write && !e.w2) then e2 1
  else if acc.fetch && !e.x2 then e2 2
  else if e.ms && e.repl then e2 5
  else if outOfRange e.repl pa then e2 6
  else if (match tierOf pa with
      | some t => !e.tiers.testBit t
      | none => false) then e2 4
  else if acc.place = false ∧ e.forbidden pa then .error (.cause 0x0E)
  else if acc.place = false ∧ (s.ownsRead pa = false ∨ (acc.write && !s.ownsExcl pa)) then .error (.cause 0x0D)
  else .ok { pa := s.nameOf pa, ipa := e.ipa va, leafPa := e.leafPa, tenant := e.tenant, ms := e.ms, repl := e.repl, mig := e.mig,
             pinrq := e.pinrq, landrq := e.landrq, aff := e.aff, tiers := e.tiers }

/-- The cached translation of a page (R188). -/
def State.tlbAt (s : State) (node tenant va : Nat) : Option TlbEntry :=
  s.tlb.find? fun e => e.node = node ∧ e.tenant = tenant ∧ e.vbase ≤ va ∧ va < e.vbase + e.size

/-- The number of entries a TLB holds (R6): the L2 TLB of a cluster, the L1 TLB of a core; none is given for the service die. -/
def tlbLen (node : Nat) : Option Nat := if node < 256 then some Config.l2TlbLen else if node = 256 then none else some Config.l1TlbLen

/-- A translation put into a TLB; a full one gives up its oldest entry (DESIGN CHOICE: R188 names no choice, log 34). -/
def State.tlbPut (s : State) (node : Nat) (e : TlbEntry) : State :=
  let full : Bool := match tlbLen node with
    | some n => n ≤ (s.tlb.filter fun e => e.node == node).length
    | none => false
  { s with tlb := (if full then s.tlb.eraseP fun e => e.node == node else s.tlb) ++ [{ e with node := node }] }

/-- The table entries that a walk has read come through its die's L2 (R188); the service die's caches serve its own walker. Those of an
external endpoint draw its answer. -/
def State.walkFills (s : State) (node : Nat) (reads : List Nat) : State :=
  reads.foldl (fun s a => match regionOf a with
    | .tier _ => (s.l2Read (if node < 256 then node / 128 else 2) none a 8).1
    | .fabric => s.draw
    | _ => s) s

/-- A translation (R187, R188): a cached entry serves it, or a walk whose entry is then cached; no fault is cached. -/
def State.translate (s : State) (node tenant : Nat) (user : Bool) (acc : Acc) (va : Nat) : State × Except XErr Xlat :=
  match s.tlbAt node tenant va with
  | some e => (s, s.checkEntry acc user e va)
  | none =>
    let r := s.walkEntry node tenant va
    let s1 := s.walkFills node r.1.reads
    match r.2 with
    | .error x => (s1, .error x)
    | .ok e =>
      match s.checkEntry acc user e va with
      | .error x => (s1, .error x)
      | .ok x => (s1.tlbPut node e, .ok x)

/-- The translation of an access by a compute core: its L1 TLB serves it, or its cluster's L2 TLB and walker, from which the L1 TLB takes
the entry (R6, R188). -/
def State.translateCore (s : State) (core tenant : Nat) (user : Bool) (acc : Acc) (va : Nat) : State × Except XErr Xlat :=
  match s.tlbAt (512 + core) tenant va with
  | some e => (s, s.checkEntry acc user e va)
  | none =>
    let r := s.translate (clusterOf core) tenant user acc va
    match r.2, r.1.tlbAt (clusterOf core) tenant va with
    | .ok x, some e => (r.1.tlbPut (512 + core) e, .ok x)
    | o, _ => (r.1, o)

/-- A monitor-level access: the address is physical (R419). -/
def physXlat (pa : Nat) : Xlat := { pa := pa, tenant := 16, tiers := 7 }

/-- A monitor-level access to a physical address: a tier-2 page needs its ownership there too (R211). -/
def State.translatePhys (s : State) (acc : Acc) (pa : Nat) : Except XErr Xlat :=
  if s.ownsRead pa = false ∨ (acc.write && !s.ownsExcl pa) then .error (.cause 0x0D) else .ok (physXlat (s.nameOf pa))

/-- The translation of an access by a warp's thread, by its level (R419); the range of a physical address is checked
apart. -/
def State.translateFor (s : State) (w : Warp) (acc : Acc) (va : Nat) : State × Except XErr Xlat :=
  if w.level = .monitor then (s, s.translatePhys acc va)
  else if w.service then s.translate 256 w.tenant (w.level == .user) acc va
  else s.translateCore w.core w.tenant true acc va

/-! ## Fault records (R190 to R193, R73) -/

/-- An interrupt set pending in a service thread (R236). -/
def State.setPending (s : State) (svc n : Nat) : State :=
  s.modWarp svc fun w => { w with svc := { w.svc with intpend := w.svc.intpend ||| BitVec.ofNat 16 (2 ^ n) } }

/-- A fault buffer: a cluster's, or 256, the device's. -/
def State.fbuf (s : State) (b : Nat) : FaultBuf := tgetD s.fbufs b {}

/-- A fault buffer replaced. -/
def State.setFbuf (s : State) (b : Nat) (f : FaultBuf) : State := { s with fbufs := tset s.fbufs b f }

/-- The flags byte of a record (R191). -/
def faultFlags (stage2 : Bool) (acc : Acc) : Nat :=
  (if stage2 then 1 else 0) + (if acc.write then 2 else 0) + (if acc.fetch then 4 else 0) + (if acc.engine then 8 else 0) +
    (if acc.atomic then 16 else 0)

/-- The first of two progress indexes recorded (R191). -/
def firstProgress (old new : Nat) : Nat := if old = 0xFFFF then new else old

/-- R192: a fault coalesces into a valid record, writes a new one, or sets DROPPED. `coreBits` is 0 for an access the
device makes. -/
def State.recordFault (s : State) (b tenant : Nat) (acc : Acc) (coreBits va : Nat) (stage2 : Bool)
    (kind level ipa progress : Nat) : State :=
  let f := s.fbuf b
  let page := va / 4096 * 4096
  let recAt (i : Nat) : FRec := tgetD f.recs i ({} : FRec)
  let flags := faultFlags stage2 acc
  match (List.range 8).find? fun i => (recAt i).valid && (recAt i).tenant == tenant && (recAt i).va == page &&
      (recAt i).flags % 2 == flags % 2 with
  | some i =>
    let r := recAt i
    let r' : FRec := { r with flags := r.flags ||| flags, cores := r.cores ||| coreBits,
                              count := min 0xFFFFFFFF (r.count + 1), progress := firstProgress r.progress progress }
    s.setFbuf b { f with recs := tset f.recs i r' }
  | none =>
    match (List.range 8).find? fun i => !(recAt i).valid with
    | none => s.setFbuf b { f with dropped := true }
    | some i =>
      let r : FRec := { va := page, ipa := ipa, tenant := tenant, kind := kind, flags := flags, level := level,
                        cores := coreBits, progress := progress, count := 1, seq := f.seq, valid := true }
      let s := s.setFbuf b { f with recs := tset f.recs i r, seq := (f.seq + 1) % 65536 }
      if f.routeEn then
        (s.setPending f.routeThread 0).modWarp f.routeThread fun w => { w with svc := { w.svc with xlatFrom := b } }
      else s

/-- Who waits behind a fault, once each, in the order of the first faults (R193). -/
def State.addWaiter (s : State) (b : Nat) (x : Waiter) : State :=
  let f := s.fbuf b
  if f.waiters.contains x then s else s.setFbuf b { f with waiters := f.waiters ++ [x] }

/-- A compute thread's access that faults waits behind a record in its cluster's buffer (R190). -/
def State.waitFault (s : State) (n l : Nat) (acc : Acc) (va : Nat) (stage2 : Bool) (kind level ipa progress : Nat) : State :=
  let w := s.warp n
  let b := clusterOf w.core
  (s.recordFault b w.tenant acc (2 ^ (w.core % 4)) va stage2 kind level ipa progress).addWaiter b
    (.thread n l va acc.read acc.write acc.fetch acc.atomic progress false)

/-- The level that takes a service thread's translation fault (R419): the owner of the stage, or the thread's own level
when that is as high. -/
def faultLevel (cur : Level) (stage2 : Bool) : Level :=
  let owner : Level := if stage2 then .hypervisor else .supervisor
  if owner.num ≤ cur.num then cur else owner

/-- A thread's access that does not translate: a cause at once, a wait behind a record, or on a service thread an
exception (R190, R419). -/
def State.accessFault (s : State) (n l : Nat) (acc : Acc) (va : Word) (x : XErr) (progress : Nat) : State × LaneOut :=
  let w := s.warp n
  match x with
  | .cause c => (s, .trap { cause := c, addr := va })
  | .fault stage2 kind level ipa =>
    if w.service then
      (s.enterLevel n (faultLevel w.level stage2) 0 (if acc.fetch then 5 else 6) 0 va (s.thread n l).pc, .off)
    else
      (s.waitFault n l acc (addr va) stage2 kind level ipa progress, .wait (.fault (clusterOf w.core)))

end Sys2Proof.Machine
end

