-- ==== Sys2Proof/Machine/Scratch.lean ====
section
/-! DEFINITION. The scratch spaces: addresses (R87, R88), bytes, full/empty tags (R94 to R100), place tables (R82). -/

namespace Sys2Proof.Machine

/-- The physical number a place-table entry holds (R82); none when it is invalid. -/
def State.placeAt (s : State) (tenant entry : Nat) : Option Nat :=
  let e := (tgetD (s.tenant tenant).place entry 0).toNat
  if e.testBit 31 then some (e % 256) else none

/-- The entry of logical die d (R82), by number: entry k lies at byte 4 k. -/
def dieEntry (d : Nat) : Nat := 0x110 + d
/-- The entry of logical stack j (R82). -/
def stackEntry (j : Nat) : Nat := 0x100 + j

/-- Block b as it stands. -/
def State.block (s : State) (b : Nat) : Block :=
  (tget s.blocks b).getD { launch := 0, gang := 0, pos := 0, bid := 0, core := 0, warps := [], sBytes := 0, pBytes := 0,
                           state := .retired }

/-- Block b changed. -/
def State.modBlock (s : State) (b : Nat) (f : Block → Block) : State := { s with blocks := tmod s.blocks b f }

/-- Bytes of a tenant's carve on a physical die (R92). DESIGN CHOICE: a place-table entry that names a die number of 2 or more, of which R82
says nothing, names die 1 (log 102). -/
def carveBytes (t : Tenant) (d : Nat) : Nat := (if d = 0 then t.units0 else t.units1) * 8388608

/-- The block of the gang at a position, while it is resident (R26). -/
def State.gangBlock (s : State) (w : Warp) (c : Nat) : Option Nat :=
  match tget s.gangs w.gang with
  | none => none
  | some g => match g.blocks[c]? with
    | none => none
    | some b => if (s.block b).state = .retired then none else some b

/-- The bound of R88: cause 0x11 with TADDR the address. -/
def scrBounds (e : Word) : Except TrapInfo (ScrId × Nat) := .error { cause := 0x11, addr := e }

/-- The scratch bytes an address names (R88), as an access of a length by a lane of a warp. -/
def State.scrAddr (s : State) (w : Warp) (l : Nat) (sp : Space) (e : Word) (len : Nat) : Except TrapInfo (ScrId × Nat) :=
  let off := wbits e 0 32
  let fits (limit : Nat) : Bool := off % len == 0 && off + len ≤ limit
  match sp with
  | .prv =>
    let b := s.block w.block
    if wbits e 32 32 = 0 ∧ fits b.pBytes then .ok (.block w.block, b.sBytes + b.pBytes * (32 * w.wid + l) + off) else scrBounds e
  | .core => if wbits e 32 32 = 0 ∧ fits (s.block w.block).sBytes then .ok (.block w.block, off) else scrBounds e
  | .clu =>
    if wbits e 34 30 ≠ 0 then scrBounds e
    else match s.gangBlock w (wbits e 32 2) with
      | some b => if fits (s.block b).sBytes then .ok (.block b, off) else scrBounds e
      | none => scrBounds e
  | .die =>
    if wbits e 33 31 ≠ 0 then scrBounds e
    else match s.placeAt w.tenant (dieEntry (wbits e 32 1)) with
      | none => .error { cause := 1, addr := BitVec.ofNat 64 (wbits e 32 1) }
      | some d => if fits (carveBytes (s.tenant w.tenant) d) then .ok (.die w.tenant d, off) else scrBounds e

/-- One byte of scratch. -/
def State.scrByte (s : State) (sp : ScrId) (off : Nat) : Byte :=
  match sp with
  | .block b =>
    tgetD (s.block b).scratch off 0
  | .die t d => tgetD (if d = 0 then (s.tenant t).die0 else (s.tenant t).die1) off 0

/-- n bytes of scratch. -/
def State.scrBytes (s : State) (sp : ScrId) (off n : Nat) : List Byte := (addrs off n).map (s.scrByte sp)

/-- Bytes put into a table, in order. -/
def putBytes (t : Tbl Byte) (off : Nat) (bs : List Byte) : Tbl Byte := (placed off bs).foldl (fun t p => tset t p.1 p.2) t

/-- The words of a space that hold an uncorrectable error (R248). -/
def State.scrErrs (s : State) (sp : ScrId) : List Nat :=
  match sp with
  | .block b => (s.block b).errs
  | .die t d => if d = 0 then (s.tenant t).errs0 else (s.tenant t).errs1

/-- Whether a read of n bytes of scratch meets an uncorrectable error (R246). -/
def State.scrBad (s : State) (sp : ScrId) (off n : Nat) : Bool := (s.scrErrs sp).any fun e => decide (8 * e < off + n ∧ off < 8 * e + 8)

/-- The words that stay bad under a write of n bytes: those that it does not wholly replace. -/
def leftErrs (errs : List Nat) (off n : Nat) : List Nat := errs.filter fun e => !(off ≤ 8 * e && 8 * e + 8 ≤ off + n)

/-- Bytes of scratch written. -/
def State.scrWrite (s : State) (sp : ScrId) (off : Nat) (bs : List Byte) : State :=
  match sp with
  | .block b => s.modBlock b fun k => { k with scratch := putBytes k.scratch off bs, errs := leftErrs k.errs off bs.length }
  | .die t d => s.modTenant t fun k =>
      if d = 0 then { k with die0 := putBytes k.die0 off bs, errs0 := leftErrs k.errs0 off bs.length }
      else { k with die1 := putBytes k.die1 off bs, errs1 := leftErrs k.errs1 off bs.length }

/-- The full granules of a space. -/
def State.scrTags (s : State) (sp : ScrId) : List Nat :=
  match sp with
  | .block b => (s.block b).tags
  | .die t d => if d = 0 then (s.tenant t).tags0 else (s.tenant t).tags1

/-- Whether the granule of an offset is full (R94). -/
def State.tagFull (s : State) (sp : ScrId) (off : Nat) : Bool := (s.scrTags sp).contains (off / 16)

/-- The tag of a granule set full or empty. -/
def State.setTag (s : State) (sp : ScrId) (off : Nat) (full : Bool) : State :=
  let f (ts : List Nat) : List Nat := if full then insNat (off / 16) ts else ts.filter (· != off / 16)
  match sp with
  | .block b => s.modBlock b fun k => { k with tags := f k.tags }
  | .die t d => s.modTenant t fun k => if d = 0 then { k with tags0 := f k.tags0 } else { k with tags1 := f k.tags1 }

/-! ## The block record (R84) -/

/-- Bytes of a block's scratch allocation (R87). -/
def Block.allocBytes (b : Block) : Nat := b.sBytes + 32 * b.warps.length * b.pBytes

/-- The physical place of a byte of an allocation in its core's scratchpad (R27, R87). -/
def physByte (grans : List Nat) (off : Nat) : Nat := 16 * (grans[off / 16]?).getD 0 + off % 16

/-- What a tenant leaves in a core's scratchpad when a block of it goes (R27): the bytes of its allocation at their places. -/
def leave (left : Tbl Byte) (b : Block) : Tbl Byte :=
  (List.range (16 * b.grans.length)).foldl (fun t o =>
    let v := tgetD b.scratch o 0
    if v = 0 then tdel t (physByte b.grans o) else tset t (physByte b.grans o) v) left

/-- Bytes of a warp record (R84). -/
def warpRecBytes (n : Nat) : Nat := 2560 + 256 * n
/-- Bytes of a gang record that holds tiles (R84). -/
def gangRecBytes : Nat := 262144

/-- Registers per thread of a block's launch. -/
def State.blockN (s : State) (b : Block) : Nat :=
  match tget s.launches b.launch with
  | some l => l.lrec.n
  | none => 0

/-- The offset of the block record in a block's records: it follows the warp records (R84). -/
def State.recOffset (s : State) (b : Block) : Nat := b.warps.length * warpRecBytes (s.blockN b)

/-- Full/empty bits packed in granule order from bit 0 of the first byte (R84). -/
def tagBytes (tags : List Nat) (granules : Nat) : List Byte :=
  (List.range (ceilDiv granules 8)).map fun i =>
    BitVec.ofNat 8 (((List.range 8).filter fun j => tags.contains (8 * i + j)).foldl (fun n j => n + 2 ^ j) 0)

/-- The part of a block record that holds scratch and tags. -/
def State.scratchRec (s : State) (b : Nat) : List Byte :=
  let k := s.block b
  s.scrBytes (.block b) 0 k.allocBytes ++ tagBytes k.tags (k.allocBytes / 16)

/-- What a block leaves behind on its core when it goes (R27): its scratch bytes, to its tenant. -/
def State.leaveScratch (s : State) (t : Nat) (b : Block) : State :=
  if b.grans = [] then s
  else s.modCore b.core fun c => { c with slices := tset c.slices t (leave (tgetD c.slices t []) b) }

/-- A saved block's scratch and tags brought up to date in its record, where an engine operation has delivered to it during the
suspension (R83). -/
def State.keepScratch (s : State) (b : Nat) : State :=
  let k := s.block b
  match k.state, k.biv with
  | .saved, some a => (s.ownWrite (placed (a + s.recOffset k + 64) (s.scratchRec b))).getD s
  | _, _ => s

/-- An engine delivery (R99): the bytes written and every granule of them full. -/
def State.scrDeliver (s : State) (sp : ScrId) (off : Nat) (bs : List Byte) : State :=
  let s := s.scrWrite sp off bs
  let s := (List.range (ceilDiv bs.length 16)).foldl (fun s i => s.setTag sp (off + 16 * i) true) s
  match sp with
  | .block b => s.keepScratch b
  | .die _ _ => s

/-- The unloaded latency of a scratch load (R91). -/
def State.scrLat (s : State) (w : Warp) (sp : Space) (id : ScrId) : Lat :=
  match sp, id with
  | .clu, .block b => .var (if (s.block b).core = w.core then 20 else 40)
  | .die, .die _ d => .var (if dieOf w.core = d then 110 else 290)
  | _, _ => .var 20

end Sys2Proof.Machine
end

