-- ==== Sys2Proof/Machine/Device.lean ====
section
/-! DEFINITION. What the device does by itself with the memory that programs name: accesses it makes (R73), replay of
waiting accesses (R193), write-backs that count (R196), interrupts and time (R236, R258). -/

namespace Sys2Proof.Machine

/-! ## Time -/

/-- TIME: nanoseconds since cold reset (R258), from the 700 MHz reference. -/
def State.timeNs (s : State) : Nat := s.now * 10 / 7

/-- CYCLE on a core of either class (R258). -/
def State.cycleOf (s : State) (service : Bool) : Nat := if service then s.now * 32 / 7 else s.now

/-- The timer interrupt of a service thread becomes pending while TIME is at least TIMECMP (R236). -/
def State.refreshTimer (s : State) (n : Nat) : State :=
  let v := (s.warp n).svc
  if v.timecmp ≠ 0 ∧ v.timecmp.toNat ≤ s.timeNs then s.setPending n 2 else s

/-- A platform or error source signals: its bit is set where INTROUTE n names a thread with EN (R236). -/
def State.signal (s : State) (n : Nat) : State :=
  let r := tgetD s.introute n 0
  if wbit r 8 then s.setPending (wbits r 0 8) n else s

/-- An L2 writes back its dirty bytes at some addresses, one count a line, and drops what it holds there if asked. -/
def State.l2Flush (s : State) (id : Nat) (p : Nat → Bool) (drop : Bool) : State :=
  let c := s.l2c id
  let ws := dirtyWhere p c
  let s := { s with mem := memSetAll s.mem ws }
  let s := if c = {} then s else s.setL2 id (if drop then dropWhere p c else cleanWhere p c)
  ((ws.map fun w => w.1 / 256).dedup).foldl (fun s l => s.count (c.attrAt (l * 256)) (l * 256) 1) s

/-- A line of a cache leaves its place, what it holds going out first. -/
def State.vacate (s : State) (u : TestUnit) : State :=
  match u with
  | .l1Line c set way =>
    let p := (s.l1c c).inPlace fun l => l.set == set && l.way == way
    let s := s.l1Push c p
    if s.stalls c p then s else s.l1Drop c p
  | .l2Line d slice set way => s.l2Flush d ((s.l2c d).inPlace fun l => l.slice == slice && l.set == set && l.way == way) true
  | _ => s

/-- A targeted self-test starts (R245, R248); a line under test is out of use (R249). -/
def State.startTest (s : State) (u : TestUnit) : State :=
  if s.selfTests.contains u then s else { s.vacate u with selfTests := s.selfTests ++ [u] }

/-- An error logged in Lantern: it raises the error interrupt, and the unit that reports it is tested (R248). -/
def State.logError (s : State) (e : EccMsg) (part : TestUnit) : State :=
  { s with errorLog := s.errorLog ++ [e] }.startTest part |>.signal 1

/-- An alarm of the security block: the platform source that Lantern lists for it signals, and the interrupt enters monitor level
(R234, R236). -/
def State.alarm (s : State) : State :=
  let n := 4 + Config.alarmSource % 12
  let r := tgetD s.introute n 0
  if wbit r 8 then
    (s.setPending (wbits r 0 8) n).modWarp (wbits r 0 8) fun w => { w with svc := { w.svc with alarms := w.svc.alarms ||| BitVec.ofNat 16 (2 ^ n) } }
  else s

/-- A line of Lantern's report. -/
def State.log (s : State) (xs : List Nat) : State := { s with report := s.report ++ xs }

/-! ## The windows that every agent reaches (R68, R420) -/

/-- Which window an address lies in, with the offset. -/
inductive Win where
  | sched (off : Nat) | posting (off : Nat) | stuffsack (off : Nat) | translation (off : Nat) | collective (off : Nat)
  | fabric (off : Nat) | other
  deriving DecidableEq, Repr

/-- The window of a physical address (R81, R68, R138, R189, R225, R232), by the bases Lantern reports. -/
def State.winOf (s : State) (pa : Nat) : Win :=
  let b := s.bases
  let at_ (base size : Nat) : Bool := base ≤ pa && pa < base + size
  if at_ b.sched 0x10000 then .sched (pa - b.sched)
  else if at_ b.posting 0x10000 then .posting (pa - b.posting)
  else if at_ b.stuffsack 0x10000 then .stuffsack (pa - b.stuffsack)
  else if at_ b.translation 0x80000 then .translation (pa - b.translation)
  else if at_ b.collective 0x10000 then .collective (pa - b.collective)
  else if at_ b.fabric 0x20000 then .fabric (pa - b.fabric)
  else .other

/-- POSTING_FULL_COUNT_READ (R68): the counter is returned and cleared. -/
def State.readFull (s : State) (t q : Nat) : State × Nat :=
  (s.modTenant t fun k => { k with fullCounts := tset k.fullCounts q 0 }, tgetD (s.tenant t).fullCounts q 0)

/-- A load of n bytes from a window at user level (R420): the posting windows' counts, and 0 everywhere else. -/
def State.userRead (s : State) (pa n : Nat) : State × List Byte :=
  let full (a : Nat) : Option (Nat × Nat) := match s.winOf a with
    | .posting o => if 0x100 ≤ o % 0x1000 ∧ o % 0x1000 < 0x180 then some (o / 0x1000, (o % 0x1000 - 0x100) / 8) else none
    | _ => none
  let dword (a : Nat) : Nat := match full a with
    | some r => (s.readFull r.1 r.2).2
    | none => 0
  (match if n = 8 ∧ pa % 8 = 0 then full pa else none with
    | some r => (s.readFull r.1 r.2).1
    | none => s, (addrs pa n).map fun a => BitVec.ofNat 8 (dword (a / 8 * 8) / 256 ^ (a % 8)))

/-- The 256-byte lines of n bytes. -/
def linesOf (pa n : Nat) : List Nat := ((addrs pa n).map (· / 256)).dedup

/-- An engine's or the device's access counted once for each line it touches (R196). -/
def State.countLines (s : State) (x : Xlat) (pa n : Nat) : State :=
  (linesOf pa n).foldl (fun s l => s.count (some x) (max pa (l * 256)) 1) s

/-- Bytes read by the device at a translated address, a window's registers at user level (R420). -/
def State.devLoad (s : State) (x : Xlat) (n : Nat) : State × List Byte :=
  if regionOf x.pa = .window then s.userRead x.pa n
  else match x.place with
  | .memSide => (s.countLines x x.pa n, (addrs x.pa n).map s.homeByte)
  | .fabric => s.freeBytes n
  | .repl => (s.countLines x (x.pa % replicaDist) n, (addrs (x.pa % replicaDist) n).map s.homeByte)
  | .cached => (s.countLines x x.pa n, s.cohBytes x.pa n)

/-! ## Reorder targets (R40) and posts (R67, R68) -/

/-- A dword of a posted record as the scheduler would read it now; none where it does not translate. -/
def State.recordWord (s : State) (t ptr off : Nat) : Option Nat :=
  if canonical (BitVec.ofNat 64 ptr) = false then none
  else match (s.translate 256 t true accEngR (ptr + off)).2 with
    | .ok x => some (leNat (s.devLoad x 8).2)
    | .error _ => none

/-- Whether a record, as it reads now, is a reorder target's. -/
def State.targetRecord (s : State) (t ptr : Nat) : Bool :=
  match s.recordWord t ptr 0x18 with
  | some v => (v / 2 ^ 56).testBit 2
  | none => false

/-- The live target of an address for a tenant. -/
def State.retarget (s : State) (t addr : Nat) : Option ReTarget := s.retargets.find? fun r => r.addr = addr ∧ r.tenant = t

/-- A target that holds deposits from now on, if it does not yet. -/
def State.liven (s : State) (t addr : Nat) : State :=
  if (s.retarget t addr).isNone then { s with retargets := s.retargets ++ [{ addr := addr, tenant := t }] } else s

/-- Whether an unfinished launch of a tenant has an address. -/
def State.launchAt (s : State) (t addr : Nat) : Bool :=
  s.launches.any fun p => p.2.tenant == t && p.2.addr == addr && p.2.state != .finished

/-- Whether a posted entry of a tenant that is not cancelled has an address. -/
def State.postedAt (s : State) (t addr : Nat) : Bool :=
  (s.tenant t).queues.any fun q => q.2.any fun p => p.ptr == addr && !p.cancelled

/-- The deposits of a tenant's targets of which neither a launch nor a post is left are discarded (R40, R43). -/
def State.dropTargets (s : State) (t : Nat) : State :=
  { s with retargets := s.retargets.filter fun r => r.tenant != t || s.launchAt t r.addr || s.postedAt t r.addr }

/-- A record pointer appended to a queue (R67 step 3), which wakes the compute dies (R253): a reorder target is live from then on (R40).
False when the queue holds 256 entries. -/
def State.post (s : State) (t q : Nat) (p : Post) : State × Bool :=
  let es := tgetD (s.tenant t).queues q []
  if Config.trailheadLen ≤ es.length then (s, false)
  else
    let s1 := s.wake.modTenant t fun k => { k with queues := tset k.queues q (es ++ [p]) }
    (if s.targetRecord t p.ptr then s1.liven t p.ptr else s1, true)

/-- POSTING_WINDOW_STORE (R68). -/
def State.postWindow (s : State) (t off size : Nat) (v : Word) : State :=
  if size = 8 ∧ off % 8 = 0 ∧ off < 128 then
    let q := off / 8
    let r := s.post t q { ptr := v.toNat, poster := t, high := false, window := some q }
    if r.2 then r.1
    else s.modTenant t fun k => { k with fullCounts := tupd k.fullCounts q 0 fun n => min (2 ^ 64 - 1) (n + 1) }
  else s

/-- A store to a window at user level (R420): an aligned dword posts where a posting window lies, and nothing else acts. -/
def State.userWrite (s : State) (pa : Nat) (bs : List Byte) : State :=
  match s.winOf pa with
  | .posting o => if bs.length = 8 ∧ pa % 8 = 0 then s.postWindow (o / 0x1000) (o % 0x1000) 8 (BitVec.ofNat 64 (leNat bs)) else s
  | _ => s

/-- A posted entry at the head of a queue changed, or dropped. -/
def State.modHead (s : State) (tenant queue : Nat) (f : Post → Option Post) : State :=
  s.modTenant tenant fun t => { t with queues := tupd t.queues queue [] fun q => match q with
    | [] => []
    | p :: r => match f p with
      | some p' => p' :: r
      | none => r }

/-- A queue head that has been dropped (R69): DEVDROP counts it and Lantern logs the pointer, the tenant and the queue; a target that it
alone named is live no more (R40). -/
def State.dropPost (s : State) (t q ptr : Nat) : State :=
  ({ s.modHead t q (fun _ => none) with devdrop := min (2 ^ 64 - 1) (s.devdrop + 1) }.log [ptr, t, q]).dropTargets t

/-! ## Accesses the device makes (R73) -/

/-- What comes of an access the device makes. -/
inductive DevX where
  | ok (x : Xlat) | wait | drop
  deriving DecidableEq, Repr

/-- A device access at a tenant's virtual address with user-level permissions (R73): a fault waits behind a record in the
device fault buffer; a page the package does not own, or an address that is not canonical, drops it; one to tier 0 waits for the compute
dies (R253). -/
def State.devTranslate (s : State) (tenant va : Nat) (acc : Acc) (who : Waiter) : State × DevX :=
  if canonical (BitVec.ofNat 64 va) = false then (s, .drop)
  else
    let r := s.translate 256 tenant true { acc with engine := true } va
    let fail (s : State) (stage2 : Bool) (kind level ipa : Nat) : State × DevX :=
      ((s.recordFault 256 tenant { acc with engine := true } 0 va stage2 kind level ipa 0xFFFF).addWaiter 256 who, .wait)
    match r.2 with
    | .ok x =>
      let g := r.1.fabricGate x.pa
      if r.1.sleeping x.pa then (r.1.wake, .wait)
      else match g.2 with
      | none => (g.1, .ok x)
      | some k => fail g.1 true k 4 (x.ipa / 4096 * 4096)
    | .error (.cause _) => (r.1, .drop)
    | .error (.fault stage2 kind level ipa) => fail r.1 stage2 kind level ipa

/-- The number of the rule that asks for a device write, by who waits for it: R72 for a launch's finish, R228 for a landing slot,
R233 for a put's landed counter, R221 for an engine operation (R73). -/
def Waiter.rule : Waiter → Nat
  | .finish _ _ => 72
  | .slot _ _ => 228
  | .land _ _ => 233
  | _ => 221

/-- A device write of a rule that is dropped: DEVDROP gains 1, saturating, and Lantern logs the address, the tenant and the rule
(R73). -/
def State.devDrop (s : State) (tenant va rule : Nat) : State :=
  { s with devdrop := min (2 ^ 64 - 1) (s.devdrop + 1) }.log [va, tenant, rule]

/-- Bytes written by the device at a translated address, a window's registers at user level (R420). What a write does at an external
endpoint is no state of the package, but for the reservations on it that its threads hold (R122). -/
def State.devStore (s : State) (x : Xlat) (bs : List Byte) : Option State :=
  if regionOf x.pa = .window then some (s.userWrite x.pa bs)
  else match x.place with
  | .memSide => (tryAll (fun s g => s.sideWrite g) s (bySector (placed x.pa bs))).map fun s => s.countLines x x.pa bs.length
  | .fabric => some (s.endResv (granules (placed x.pa bs)))
  | .repl => some ((s.replWrite (placed x.pa bs)).countLines x (x.pa % replicaDist) bs.length)
  | .cached => (s.cohWrite (placed x.pa bs)).map fun s => s.countLines x x.pa bs.length

/-- A device write at a tenant's address for an agent whose L1, `gives`, first gives up the line: true with the state in
which it is made or dropped; false while it waits. -/
def State.devWriteBy (s : State) (gives : State → Xlat → Option State) (tenant va : Nat) (bs : List Byte) (who : Waiter) : State × Bool :=
  let r := s.devTranslate tenant va accStore who
  match r.2 with
  | .wait => (r.1, false)
  | .drop => (r.1.devDrop tenant va who.rule, true)
  | .ok x => match (gives r.1 x).bind fun s => s.devStore x bs with
    | some s' => (s', true)
    | none => (r.1, false)

/-- A device write at a tenant's address. -/
def State.devWrite (s : State) (tenant va : Nat) (bs : List Byte) (who : Waiter) : State × Bool :=
  s.devWriteBy (fun s _ => some s) tenant va bs who

/-- An atomic add to a counter at its home, which a rule asks for (R73, R217). -/
def State.devAddFor (s : State) (rule tenant va n : Nat) (who : Waiter) : State × Bool :=
  let r := s.devTranslate tenant va accEngW who
  match r.2 with
  | .wait => (r.1, false)
  | .drop => (r.1.devDrop tenant va rule, true)
  | .ok x =>
    let old := (r.1.devLoad x 8).2
    match r.1.devStore x (leBytes 8 ((leNat old + n) % 2 ^ 64)) with
    | some s' => (s', true)
    | none => (r.1, false)

/-- An atomic add for which an agent waits. -/
def State.devAdd (s : State) (tenant va n : Nat) (who : Waiter) : State × Bool := s.devAddFor who.rule tenant va n who

/-- Whether a device access waits behind a record of the device fault buffer (R73). -/
def State.behindFault (s : State) (who : Waiter) : Bool := (s.fbuf 256).waiters.contains who

/-! ## Replay (R193) -/

/-- Whether a page is marked abandoned for a buffer and a tenant. -/
def FaultBuf.isAbandoned (f : FaultBuf) (tenant va : Nat) : Bool := f.abandoned.contains (tenant, va / 4096 * 4096)

/-- The engine operation of a number changed. -/
def State.modEop (s : State) (id : Nat) (f : EngOp → EngOp) : State :=
  { s with engOps := s.engOps.map fun e => if e.id = id then f e else e }

/-- A cluster's matrix engine. -/
def State.engine (s : State) (c : Nat) : Engine := tgetD s.engines c {}

/-- A cluster's matrix engine changed. -/
def State.modEngine (s : State) (c : Nat) (f : Engine → Engine) : State :=
  { s with engines := tset s.engines c (f (s.engine c)) }

/-- A request of a matrix engine changed. -/
def State.modReq (s : State) (c id : Nat) (f : MxReq → MxReq) : State :=
  s.modEngine c fun e => { e with table := e.table.map fun r => if r.id = id then f r else r }

/-- A launch changed. -/
def State.modLaunch (s : State) (l : Nat) (f : Launch → Launch) : State := { s with launches := tmod s.launches l f }

/-- A landing slot. -/
def State.slot (s : State) (n : Nat) : Slot := tgetD s.slots n {}
/-- A landing slot changed. -/
def State.modSlot (s : State) (n : Nat) (f : Slot → Slot) : State := { s with slots := tset s.slots n (f (s.slot n)) }

/-- A pool of a tenant. -/
def State.pool (s : State) (t p : Nat) : Pool := tgetD (s.tenant t).pools p {}
/-- A pool changed. -/
def State.modPool (s : State) (t p : Nat) (f : Pool → Pool) : State :=
  s.modTenant t fun k => { k with pools := tset k.pools p (f (s.pool t p)) }

/-- The cause of an access to an abandoned page (R193). -/
def abandonCause (acc : Acc) : Nat := if acc.fetch then 5 else 6

/-- What a waiter raises at replay in a bundle of warp n at pc: its cause when it waits there for an abandoned page. -/
def State.abandonedAt (s : State) (f : FaultBuf) (n : Nat) (pc : Word) (x : Waiter) : Option Raise :=
  match x with
  | .thread m l va _ _ fe _ _ false =>
    let w := s.warp m
    let t := s.thread m l
    if m = n ∧ w.resident ∧ !t.exited ∧ t.wait = .fault (clusterOf w.core) ∧ t.pc = pc ∧ f.isAbandoned w.tenant va then
      some { lane := l, t := t, info := { cause := abandonCause { fetch := fe }, addr := BitVec.ofNat 64 va } }
    else none
  | _ => none

/-- The threads of a warp whose accesses at one PC end abandoned, lowest lane first: they are one bundle's F (R239). -/
def State.abandonedLanes (s : State) (f : FaultBuf) (n : Nat) (pc : Word) : List Raise :=
  (List.range 32).filterMap fun l => (f.waiters.filterMap (s.abandonedAt f n pc)).find? fun r => r.lane = l

/-- A waiting thread's access, replayed (R193): it proceeds, ends with its cause, or faults again. -/
def State.replayThread (s : State) (f : FaultBuf) (n l va : Nat) (acc : Acc) (progress : Nat) : State :=
  let w := s.warp n
  let t := s.thread n l
  if w.resident = false ∨ t.exited ∨ t.wait ≠ .fault (clusterOf w.core) then s
  else if f.isAbandoned w.tenant va then
    let rs := s.abandonedLanes f n t.pc
    (rs.foldl (fun s r => s.modThread n r.lane fun t => { t with wait := .none }) s).deliver n 1 t.pc rs
  else
    let r := s.translateFor w acc va
    match r.2 with
    | .error (.fault stage2 kind level ipa) => r.1.waitFault n l acc va stage2 kind level ipa progress
    | _ => r.1.modThread n l fun t => { t with wait := .none }

/-- A thread that waits behind another's fault (R303): it goes on once that page translates or its owner has taken the
cause. -/
def State.replayBehind (s : State) (n l va : Nat) (acc : Acc) : State :=
  let w := s.warp n
  let b := clusterOf w.core
  if w.resident = false ∨ (s.thread n l).exited ∨ (s.thread n l).wait ≠ .fault b then s
  else if (s.fbuf b).waiters.any fun x => match x with
      | .thread m _ v _ _ _ _ _ false => m == n && v == va
      | _ => false then
    s.addWaiter b (.thread n l va acc.read acc.write acc.fetch acc.atomic 0xFFFF true)
  else s.modThread n l fun t => { t with wait := .none }

/-- The answer of a target at its source, when that is this package (R226, R233). -/
def State.answerEop (s : State) (own : Option Nat) (code : Nat) : State :=
  match own with
  | some id => s.modEop id fun e => { e with code := some code }
  | none => s

/-- A landed counter gains its bytes, then the put is acknowledged (R233); or the add waits behind a fault (R73). -/
def State.landAdd (s : State) (k : Nat) (x : Landing) : State :=
  let r := s.devAdd x.tenant x.counter x.n (.land k x.counter)
  if r.2 then { r.1 with lands := tdel r.1.lands k }.answerEop x.own 0 else
    let s1 := { r.1 with lands := tset r.1.lands k x }
    if s1.behindFault (.land k x.counter) then s1 else s1.stallFor none (.land k)

/-- An access of an engine or of the device translated again at a replay (R193): whether it faults again, and so waits behind its
record as before. -/
def State.xlatAgain (s : State) (b tenant : Nat) (user : Bool) (acc : Acc) (cores va : Nat) (who : Waiter) : State × Bool :=
  let r := s.translate b tenant user acc va
  match r.2 with
  | .error (.fault stage2 kind level ipa) => ((r.1.recordFault b tenant acc cores va stage2 kind level ipa 0xFFFF).addWaiter b who, true)
  | _ => (r.1, false)

/-- An access of the device translated again; where it does not fault, `go` lets it go on. -/
def State.devAgain (s : State) (tenant va : Nat) (acc : Acc) (who : Waiter) (go : State → State) : State :=
  let r := s.xlatAgain 256 tenant true acc 0 va who
  if r.2 then r.1 else go r.1

/-- Whether the access that an operation makes now is a device write, with user-level permissions (R73): its status write, or the
counter add of a put. -/
def EngOp.devWrites (e : EngOp) (write : Bool) : Bool := e.stage == 1 || (e.kind == .put && write)

/-- The access of an engine operation, or of its status write, translated again at the replay of buffer b. -/
def State.eopAgain (s : State) (b : Nat) (e : EngOp) (va : Nat) (write : Bool) : State :=
  let acc := if write then accEngW else accEngR
  let go (s : State) : State := s.modEop e.id fun e => { e with faulted := false }
  if b = 256 ∧ (e.core < 1024 ∨ e.devWrites write) then s.devAgain e.tenant va acc (.eop e.id va write) go
  else
    let r := s.xlatAgain b e.tenant (e.level == .user) acc (if e.core < 1024 then 2 ^ (e.core % 4) else 0) va (.eop e.id va write)
    if r.2 then r.1 else go r.1

/-- One waiter of buffer b replayed. An access of an engine or of the device that translates now is made when its agent next acts; one
that is abandoned takes the fate its rule gives (R69, R70, R73, R139). -/
def State.replayOne (s : State) (b : Nat) (f : FaultBuf) (x : Waiter) : State :=
  match x with
  | .thread n l va r w fe a pr behind =>
    let acc : Acc := { read := r, write := w, fetch := fe, atomic := a }
    if behind then s.replayBehind n l va acc else s.replayThread f n l va acc pr
  | .eop id va write =>
    match s.engOps.find? fun e => e.id = id with
    | some e =>
      if f.isAbandoned e.tenant va then s.modEop id fun e' => { e' with faulted := false, abandoned := true }
      else s.eopAgain b e va write
    | none => s
  | .matrix c id va write =>
    match (s.engine c).table.find? fun r => r.id = id with
    | some r =>
      if f.isAbandoned r.tenant va then s.modReq c id fun r' => { r' with faulted := false, abandoned := true }
      else
        let q := s.xlatAgain b r.tenant true (if write then accEngW else accEngR) (2 ^ ((s.warp r.warp).core % 4)) va x
        if q.2 then q.1 else q.1.modReq c id fun r' => { r' with faulted := false }
    | none => s
  | .post t q va =>
    if f.isAbandoned t va then
      let ptr := match tgetD (s.tenant t).queues q [] with
        | p :: _ => p.ptr
        | [] => va
      s.dropPost t q ptr
    else s.devAgain t va accEngR x fun s => s.modHead t q fun p => some { p with devWait := false }
  | .dep l i va =>
    match tget s.launches l with
    | some k =>
      let go (s : State) : State := s.modLaunch l fun k => { k with depWait := k.depWait.filter (· != i) }
      if f.isAbandoned k.tenant va then (go s).stopLaunch l 2 0 (0x40 + 16 * i) else s.devAgain k.tenant va accEngR x go
    | none => s
  | .finish l va =>
    match tget s.launches l with
    | some k =>
      if f.isAbandoned k.tenant va then
        (s.devDrop k.tenant va 72).modLaunch l fun k => { k with devWait := false, finStep := k.finStep + 1 }
      else s.devAgain k.tenant va accEngW x fun s => s.modLaunch l fun k => { k with devWait := false }
    | none => s
  | .pool t p va =>
    if f.isAbandoned t va then s.modPool t p fun k => { k with devWait := false, aborted := true }
    else s.devAgain t va accEngW x fun s => s.modPool t p fun k => { k with devWait := false }
  | .slot i va =>
    if f.isAbandoned (wbits (s.slot i).ctl 52 4) va then
      (s.devDrop (wbits (s.slot i).ctl 52 4) va 228).modSlot i fun k => { k with devWait := false, dropAdd := true }
    else s.devAgain (wbits (s.slot i).ctl 52 4) va accEngW x fun s => s.modSlot i fun k => { k with devWait := false }
  | .land k va =>
    match tget s.lands k with
    | none => s
    | some x =>
      if f.isAbandoned x.tenant va then { s.devDrop x.tenant va 233 with lands := tdel s.lands k }.answerEop x.own 0
      else s.landAdd k x

/-- REPLAY-ALL of a buffer (R193): every waiter in order, then every abandoned mark is cleared. -/
def State.replay (s : State) (b : Nat) : State :=
  let f := s.fbuf b
  let s := s.setFbuf b { f with waiters := [] }
  let s := f.waiters.foldl (fun s x => s.replayOne b f x) s
  s.setFbuf b { s.fbuf b with abandoned := [] }

/-! ## Write-backs that count (R196) -/

/-- Every L2 and the service-die caches. -/
def State.l2FlushAll (s : State) (p : Nat → Bool) (drop : Bool) : State :=
  [0, 1, 2].foldl (fun s id => s.l2Flush id p drop) s

end Sys2Proof.Machine
end

