-- ==== Sys2Proof/Machine/Landing.lean ====
section
/-! DEFINITION. The landing slots of the base dies (R225 to R229): their registers, what a slot keeps of a contribution, when it
refuses one, and the staging store. -/

namespace Sys2Proof.Machine

/-! ## The fields of LBCTL (R225) -/

/-- The size in bytes of a slot's result type (R225); none where TYPE is out of range. -/
def slotType (n : Nat) : Option Ty :=
  match n with
  | 2 => some .s32
  | 3 => some .s64
  | 6 => some .n32
  | 7 => some .n64
  | 9 => some .bf16
  | 10 => some .f32
  | _ => none

/-- SIZE, RANKS, TYPE, OP and TENANT of LBCTL (R225). -/
def ctlSize (v : Word) : Nat := wbits v 0 15
/-- RANKS of LBCTL. -/
def ctlRanks (v : Word) : Nat := wbits v 32 10
/-- TENANT of LBCTL. -/
def ctlTenant (v : Word) : Nat := wbits v 52 4
/-- The result type of LBCTL. -/
def ctlTy (v : Word) : Ty := (slotType (wbits v 56 4)).getD .f32
/-- OP of LBCTL. -/
def ctlOp (v : Word) : Nat := wbits v 60 2

/-- n of R226: the elements of a result. -/
def slotElems (v : Word) : Nat := 64 * ctlSize v / (tyWidth (ctlTy v) / 8)

/-- The staging reservation of a slot (R229). -/
def slotReserve (v : Word) : Nat := 64 * max (ctlSize v) (ceilDiv (slotElems v) 30)

/-- The fields LBCTL holds; other bits are RO and 0. -/
def ctlMask (v : Word) : Word := v &&& 0xBFF003FF00007FFF#64

/-- Whether LBCTL's fields are in range (R225). -/
def ctlOk (v : Word) : Bool := (slotType (wbits v 56 4)).isSome && ctlOp v != 3 && 1 ≤ ctlSize v && ctlSize v ≤ 16384

/-- The reservations of the enabled slots of a stack but one. -/
def State.reservedOn (s : State) (stack but : Nat) : Nat :=
  (s.slots.filter fun p => p.1 / 64 = stack ∧ p.1 ≠ but ∧ wbit p.2.ctl 63).foldl (fun n p => n + slotReserve p.2.ctl) 0

/-! ## Contributions (R226, R227, R229) -/

/-- A value rounded to nearest even in a format (R227). -/
def nearest (f : Fmt) (v : FpVal) : Nat :=
  match v with
  | .nan _ => f.nanPat
  | .inf n => f.signPat n + f.infPat
  | .fin n m e => (f.round .rne false n m e).1

/-- The elements a block counts for (R229). -/
def blockElems (b : List Byte) : Nat :=
  match blockFormat b with
  | some t => blockCount t
  | none => 30

/-- The leading blocks that supply some elements (R229): none where the blocks do not. -/
def leadBlocks : Nat → Nat → List Byte → Option (List Byte)
  | _, 0, _ => some []
  | 0, _ + 1, _ => none
  | k + 1, n + 1, bs =>
    if bs.length < 64 then none
    else (leadBlocks k (n + 1 - blockElems (bs.take 64)) (bs.drop 64)).map (bs.take 64 ++ ·)

/-- The values of a block: those of R155, or canonical NaNs (R227). -/
def blockVals (b : List Byte) : List FpVal :=
  match blockFormat b with
  | some t => (List.range (blockCount t)).map fun i => if blockOk b then blockValue t b i else .nan false
  | none => List.replicate 30 (.nan false)

/-- The values of consecutive blocks. -/
def blocksVals : Nat → List Byte → List FpVal
  | 0, _ => []
  | k + 1, bs => blockVals (bs.take 64) ++ blocksVals k (bs.drop 64)

/-- The bytes of a contribution that a slot keeps: none where its format or its length does not fit (R226, R229). -/
def keptBytes (ctl : Word) (m : CollMsg) : Option (List Byte) :=
  if m.format = wbits ctl 56 4 then (if m.bytes.length = 64 * ctlSize ctl then some m.bytes else none)
  else if m.format = 15 ∧ (ctlTy ctl = .bf16 ∨ ctlTy ctl = .f32) ∧ m.bytes.length % 64 = 0 ∧ m.bytes.length ≤ 2 ^ 24 then
    leadBlocks (m.bytes.length / 64) (slotElems ctl) m.bytes
  else none

/-- Whether a slot refuses a contribution (R226). -/
def Slot.refuses (k : Slot) (m : CollMsg) : Bool :=
  !wbit k.ctl 63 || m.tenant != ctlTenant k.ctl || decide (ctlRanks k.ctl < m.rank) || (keptBytes k.ctl m).isNone ||
    (m.epoch != k.epoch && m.epoch != (k.epoch + 1) % 2 ^ 32) || (m.epoch == k.epoch && decide (m.rank < k.next)) ||
    k.held.any fun h => h.epoch == m.epoch && h.rank == m.rank

/-- Whether a contribution is the one of rank NEXT. -/
def Slot.isNext (k : Slot) (m : CollMsg) : Bool := m.epoch == k.epoch && m.rank == k.next

/-- The staging bytes of a stack that its reservations and the contributions held beside them leave free (R229). -/
def State.stagingFree (s : State) (stack : Nat) : Nat :=
  let ks := s.slots.filter fun p => p.1 / 64 = stack ∧ wbit p.2.ctl 63
  let held := ks.flatMap fun p => p.2.held.filter fun m => !p.2.isNext m
  Config.stagingBytes - (ks.foldl (fun n p => n + slotReserve p.2.ctl) 0 + held.foldl (fun n m => n + m.bytes.length) 0)

/-- A contribution offered to a slot: refused, accepted, or left waiting for staging space (R226, R229). -/
def State.offerColl (s : State) (n : Nat) (m : CollMsg) : State :=
  let k := s.slot n
  if k.refuses m then s.answerEop m.own 3
  else
    let bs := (keptBytes k.ctl m).getD []
    if k.isNext m || decide (bs.length ≤ s.stagingFree (n / 64)) then
      (s.modSlot n fun k => { k with held := k.held ++ [{ m with bytes := bs }] }).answerEop m.own 0
    else s.modSlot n fun k => { k with waiting := k.waiting ++ [m] }

/-- The deliveries that wait at the slots of a stack offered again. -/
def State.offerWaiting (s : State) (stack : Nat) : State :=
  ((s.slots.filter fun p => p.1 / 64 = stack).map Prod.fst).foldl (fun s n =>
    let ms := (s.slot n).waiting
    ms.foldl (fun s m => s.offerColl n m) (s.modSlot n fun k => { k with waiting := [] })) s

/-! ## A slot's registers (R225) -/

/-- SLOT_DISABLE (R225): held contributions are discarded, waiting ones refused; its staging space is free for those that wait at the
stack's other slots (R229). -/
def State.slotOff (s : State) (n : Nat) (ctl : Word) : State :=
  let k := s.slot n
  let s := k.waiting.foldl (fun s m => s.answerEop m.own 3) s
  (s.modSlot n fun k => { k with ctl := ctl, held := [], waiting := [], acc := [], devWait := false, dropAdd := false }).offerWaiting (n / 64)

/-- SLOT_ENABLE and other writes of LBCTL (R225), ignored as a whole in its three cases. DESIGN CHOICE: a slot is enabled, too, where
contributions held at the stack's other slots already take the space of its reservation, which then counts as taken twice (R229, log 99). -/
def State.writeLbctl (s : State) (n : Nat) (v : Word) : State :=
  let k := s.slot n
  let v := ctlMask v
  let en := wbit v 63
  let was := wbit k.ctl 63
  let noEn (x : Word) : Word := x &&& 0x7FFFFFFFFFFFFFFF#64
  if en && !ctlOk v then s
  else if was && noEn v != noEn k.ctl then s
  else if en && !was && decide (Config.stagingBytes < s.reservedOn (n / 64) n + slotReserve v) then s
  else if en && !was then
    s.modSlot n fun k => { k with ctl := v, epoch := 0, next := 0, acc := [], held := [], waiting := [], devWait := false, dropAdd := false }
  else if was && !en then s.slotOff n v
  else s.modSlot n fun k => { k with ctl := v }

/-- A landing slot's registers as written. DESIGN CHOICE: bits 2:0 of LBCNT are written as 0, a value that R225 allows; it does not say what
a write of others does (log 95). -/
def State.writeSlot (s : State) (n off : Nat) (v : Word) : State :=
  let en := wbit (s.slot n).ctl 63
  match off with
  | 0x00 => if en then s else s.modSlot n fun k => { k with offs := wbits v 12 24 * 4096 }
  | 0x08 => s.writeLbctl n v
  | 0x18 => if en then s else s.modSlot n fun k => { k with cnt := v.toNat / 8 * 8 }
  | _ => s

/-- A landing slot's registers as read. -/
def State.readSlot (s : State) (n off : Nat) : Nat :=
  let k := s.slot n
  match off with
  | 0x00 => k.offs
  | 0x08 => k.ctl.toNat
  | 0x10 => k.next % 1024 * 2 ^ 32 + k.epoch
  | 0x18 => k.cnt
  | _ => 0

end Sys2Proof.Machine
end

