-- ==== Sys2Proof/Machine/Sched.lean ====
section
/-! DEFINITION. The scheduler's controls: Bivouac space and the start of a pre-emption (R78, R83, R84), suspension, tenant
reset (R85, R86), core ownership and partition (R81, R82, R92, R93), posting (R66 to R68), and the service threads' control
blocks (R235). -/

namespace Sys2Proof.Machine

/-! ## The current governor (R10) -/

/-- The tenants with a weight and a resident warp. -/
def State.presentTenants (s : State) : List Nat :=
  (List.range 16).filter fun t => (s.tenant t).weight != 0 && s.warps.any fun p => !p.2.service && p.2.resident && p.2.tenant == t

/-- What has been withheld from each tenant present; where other tenants have come or gone, the count begins anew. DESIGN CHOICE: R10
says evenly, in proportion to the weights, and not over what span (log 85). -/
def State.withheldNow (s : State) : Tbl Nat :=
  if s.power.withheld.map Prod.fst = s.presentTenants then s.power.withheld else s.presentTenants.map fun t => (t, 0)

/-- Whether a tenant is among those of which least has been withheld for their weight (R10). -/
def State.evenFor (s : State) (t : Nat) : Bool :=
  let a := s.withheldNow
  (tget a t).isSome && a.all fun u => decide (tgetD a t 0 * (s.tenant u.1).weight ≤ u.2 * (s.tenant t).weight)

/-- The governor decides on an issue slot or an engine grant of a tenant (R10): the state after it, and whether it is withheld. -/
def State.governor (s : State) (t : Nat) : State × Bool :=
  if Config.withholds s.power.throttled s.drawn && s.evenFor t then
    ({ s.draw with power := { s.power with withheld := tset s.withheldNow t (tgetD s.withheldNow t 0 + 1) } }, true)
  else (s.draw, false)

/-! ## Bivouac space (R81, R83, R84) -/

/-- The tenant of a block. -/
def State.blockTenant (s : State) (b : Block) : Nat :=
  match tget s.launches b.launch with
  | some l => l.tenant
  | none => 16

/-- Whether a block is the first of its gang that has not retired: the last of them to be saved (R35). -/
def State.leads (s : State) (b : Block) : Bool :=
  match tget s.gangs b.gang with
  | some g => ((g.blocks.map s.block).find? fun k => k.state != .retired).map Block.pos == some b.pos
  | none => b.pos == 0

/-- Bytes of the records of one block. DESIGN CHOICE: the spec gives the gang record no place; it follows the block record of the
first block of the gang that has not retired (log 76). It is there for a gang that owns an engine, or whose record holds tiles, and
for a paired gang, which may still become an owner on its way to its twin's place. -/
def State.saveBytes (s : State) (b : Block) : Nat :=
  let tiles := (s.engine (clusterOf b.core)).owner == some b.gang || match tget s.gangs b.gang with
    | some g => g.tiles || g.twin.isSome
    | none => false
  s.recOffset b + 64 + b.allocBytes + ceilDiv b.allocBytes 128 + (if tiles ∧ s.leads b then gangRecBytes else 0)

/-- The six counters as a warp record holds them (R84). -/
def ocBytes (c : OcCounters) : List Byte :=
  [c.cp, c.gx, c.mx, c.cl, c.pt, c.bk, 0, 0].map (BitVec.ofNat 8)

/-- The counters of a swapped-out warp kept up in its record (R83). -/
def State.bivCounters (s : State) (n : Nat) : State :=
  let w := s.warp n
  let b := s.block w.block
  match b.biv with
  | some a =>
    if b.state = .saved ∧ b.warps.contains n then
      (s.ownWrite (placed (a + w.wid * warpRecBytes w.regsN + 0x20) (ocBytes w.oc))).getD s
    else s
  | none => s

/-- The Bivouac ranges a tenant's saved and saving blocks hold. -/
def State.bivRanges (s : State) (t : Nat) : List (Nat × Nat) :=
  s.blocks.filterMap fun p => match p.2.biv with
    | some a => if s.blockTenant p.2 = t ∧ (p.2.state = .saved ∨ p.2.state = .saving) then some (a, s.saveBytes p.2) else none
    | none => none

/-- The lowest address of an area where a number of bytes is free. DESIGN CHOICE: the spec says that records lie in the area, not
where; each takes the lowest place, from a multiple of 64 bytes on (log 76). -/
def freeSpan (base size need : Nat) (rs : List (Nat × Nat)) : Option Nat :=
  let ok (a : Nat) : Bool := base ≤ a && a + need ≤ base + size && rs.all fun r => a + need ≤ r.1 || r.1 + r.2 ≤ a
  ((base :: rs.map fun r => roundUp (r.1 + r.2) 64).filter ok).foldl (fun m a => match m with
    | some k => some (min k a)
    | none => some a) none

/-- The place of a block's records in its tenant's Bivouac area (R83); no space where the area has no memory. -/
def State.reserve (s : State) (b : Block) : Option Nat :=
  let t := s.blockTenant b
  let r := (s.tenant t).bivbase
  let n := s.saveBytes b
  match freeSpan (wbits r 16 36 * 65536) (wbits r 0 16 * 65536) n (s.bivRanges t) with
  | some a => if (tierOf a).isSome ∧ tierOf (a + n - 1) = tierOf a then some a else none
  | none => none

/-- Blocks in descending BID (R35). -/
def insDesc (x : Nat × Block) : List (Nat × Block) → List (Nat × Block)
  | [] => [x]
  | y :: r => if y.2.bid < x.2.bid then x :: y :: r else y :: insDesc x r

/-- Whether the launch of a block has been stopped: what is left of it drains where it stands, and is not saved (R75). -/
def State.blockStops (s : State) (b : Block) : Bool :=
  match tget s.launches b.launch with
  | some l => l.stopped
  | none => false

/-- The resident blocks with a property, of launches that go on, in descending BID. -/
def State.residentWhere (s : State) (p : Block → Bool) : List Nat :=
  ((s.blocks.filter fun b => b.2.state = .resident ∧ s.blockStops b.2 = false ∧ p b.2).foldl (fun l x => insDesc x l) []).map Prod.fst

/-- Whether a block is of a gang or of its twin. -/
def State.sameGang (s : State) (g : Nat) (b : Block) : Bool :=
  b.gang == g || match tget s.gangs g with
    | some k => k.twin == some b.gang
    | none => false

/-- Whether a gang is killed and waits for its relaunch (R247). -/
def State.isKilled (s : State) (g : Nat) : Bool :=
  match tget s.gangs g with
  | some k => k.killed
  | none => false

/-- A pre-emption starts (R83) of a whole gang, since its blocks are resident together or not at all (R26): their records are
reserved and their warps stop issuing; BIVOUAC_FULL sets BVFULL and leaves them resident. A killed gang has nothing to save. `why`
is 1 for R78. -/
def State.preemptGang (s : State) (why g : Nat) : State :=
  let bs := s.residentWhere (s.sameGang g)
  let save (acc : Option State) (b : Nat) : Option State := acc.bind fun s =>
    (s.reserve (s.block b)).map fun a => s.modBlock b fun k => { k with state := .saving, biv := some a, cause := why }
  match bs with
  | [] => s
  | b :: _ => if s.isKilled g then s else match bs.foldl save (some s) with
    | some s =>
      let gone := bs.map fun b => (s.block b).gang
      { s with engines := s.engines.map fun p => (p.1, { p.2 with waiting := p.2.waiting.filter fun x => !gone.contains x }) }
    | none => s.modTenant (s.blockTenant (s.block b)) fun t => { t with bvfull := true }

/-- The resident gangs of a launch from a BID up start their pre-emption, in descending BID; where space is lacking for one, those
below it stay too (R35, R83). -/
def State.preemptFrom (s : State) (lid bid : Nat) : State :=
  let gs := (s.residentWhere fun b => b.launch == lid && decide (bid ≤ b.bid)).map fun b => (s.block b).gang
  (gs.foldl (fun (a : State × Bool) g =>
    if a.2 then
      let s := a.1.preemptGang 0 g
      (s, s.isKilled g || (s.residentWhere (s.sameGang g)).isEmpty)
    else a) (s, true)).1

/-- Every resident gang with a block that has a property starts its pre-emption, and with it every gang of the same launch above
it, since no warp issues while a block below it is away (R35). -/
def State.preemptWhere (s : State) (p : Block → Bool) : State :=
  let bs := (s.residentWhere p).map s.block
  ((bs.map fun b => b.launch).dedup).foldl (fun s lid =>
    s.preemptFrom lid (((bs.filter fun b => b.launch == lid).map fun b => b.bid).foldr min (2 ^ 64))) s

/-- A block that a standing control wants off its core: SUSPEND, COREOWN, or a pending soft fuse (R83, R61). -/
def State.unwanted (s : State) (b : Block) : Bool :=
  let t := s.blockTenant b
  let c := s.core b.core
  (s.tenant t).suspend || (c.owner < 16 && c.owner != t) || c.fusePending.isSome

/-- The controls' pre-emptions tried again, as when Bivouac space has come free. -/
def State.retryPreempt (s : State) : State := s.preemptWhere s.unwanted

/-! ## Lane maps (R61) -/

/-- LANE_MAP_APPLY (R61): a core with a pending soft fuse and no resident warp takes its new map; with fewer than 8 good lanes
it is retired whole. Its steps begin anew. -/
def State.applyMap (s : State) (core : Nat) : State :=
  let busy := s.blocks.any fun p => p.2.core == core && (p.2.state == .resident || p.2.state == .saving)
  match (s.core core).fusePending with
  | none => s
  | some m =>
    if busy then s
    else s.modCore core fun c =>
      { c with lmap := m, fusePending := none, enabled := c.enabled && decide (8 ≤ popcount 16 m.toNat), startCycle := s.now, step := 0 }

/-! ## Tenants (R81, R82, R85, R86, R92, R93) -/

/-- SUSPENDED (R81). -/
def State.suspended (s : State) (t : Nat) : Bool :=
  (s.tenant t).suspend &&
    s.blocks.all fun p => !((p.2.state == .resident || p.2.state == .saving) && s.blockTenant p.2 == t)

/-- TENANT_SUSPEND (R81, R85). -/
def State.suspendTenant (s : State) (t : Nat) : State :=
  (s.modTenant t fun k => { k with suspend := true }).preemptWhere fun b => s.blockTenant b == t

/-- A block of a tenant. -/
def State.ownsBlock (s : State) (t : Nat) (p : Nat × Block) : Bool := s.blockTenant p.2 == t

/-- Whether a write of a launch's finish is under way: behind a fault, or at a migration's full window (R73, R200). -/
def State.finWaits (s : State) (lid : Nat) (l : Launch) : Bool :=
  l.devWait || s.fwds.any fun f => f.2.stalled.contains (.launch lid)

/-- A launch as a tenant reset discards it (R86): one whose device write is under way ends with that write. -/
def Launch.reset (l : Launch) (waits : Bool) : Launch :=
  if l.state = .finishing ∧ waits then { l with discard := some l.finStep } else { l with state := .finished, stopped := true }

/-- Whether a waiter of the device fault buffer outlives a reset of a tenant: not one for an entry, a dependence slot or a pool
that the reset discards. -/
def Waiter.outlives (s : State) (t : Nat) : Waiter → Bool
  | .post k _ _ => k != t
  | .pool k _ _ => k != t
  | .dep l _ _ => match tget s.launches l with
    | some l => l.tenant != t
    | none => false
  | _ => true

/-- Step 1 of a tenant reset (R86): entries, launches, records, deposits and deferred entries discarded. -/
def State.resetStart (s : State) (t : Nat) : State :=
  let s := (s.modTenant t fun k => { k with resetting := true, queues := [], deferQ := [] }).haltWarps fun w => w.tenant == t
  { s with
    blocks := s.blocks.map fun p => if s.ownsBlock t p then (p.1, { p.2 with state := .retired, biv := none }) else p
    launches := s.launches.map fun p => if p.2.tenant = t then (p.1, p.2.reset (s.finWaits p.1 p.2)) else p
    retargets := s.retargets.filter fun r => r.tenant != t
    fbufs := s.fbufs.map fun b => (b.1, { b.2 with waiters := b.2.waiters.filter (Waiter.outlives s t) }) }

/-- Step 2 of a tenant reset (R86): nothing the tenant posted is outstanding, no device write in its name waits, nor the counter of a
landing slot whose epoch ends (R228). -/
def State.quiet (s : State) (t : Nat) : Bool :=
  s.engOps.all (fun e => e.tenant != t) &&
    s.engines.all (fun p => p.2.table.all fun r => r.tenant != t) &&
    s.launches.all (fun p => !(p.2.tenant == t && p.2.state == .finishing)) &&
    s.lands.all (fun p => p.2.tenant != t) &&
    s.slots.all (fun p => !(wbit p.2.ctl 63 && wbits p.2.ctl 52 4 == t && decide (wbits p.2.ctl 32 10 < p.2.next)))

/-- Steps 3 to 5 of a tenant reset (R86). The removal of its translations writes dirty L1 bytes back first (R194); none while a
write of them must wait. -/
def State.resetFinish (s : State) (t : Nat) : Option State :=
  (s.l1WriteBackAll everywhere).map fun s =>
    let s := s.modTenant t fun k => { suspend := k.suspend, debugHold := k.debugHold }
    { s with
      warps := s.warps.filter fun p => p.2.service || p.2.tenant != t
      cores := s.cores.map fun p => (p.1, { p.2 with owner := if p.2.owner = t then 16 else p.2.owner, slices := tdel p.2.slices t })
      tlb := s.tlb.filter fun e => e.tenant != t }

/-- TENANT_RESET (R86): starts when SUSPENDED, and ends once nothing is outstanding. -/
def State.resetTenant (s : State) (t : Nat) : State :=
  let s := if (s.tenant t).resetting = false ∧ s.suspended t then s.resetStart t else s
  if (s.tenant t).resetting ∧ s.quiet t then (s.resetFinish t).getD s else s

/-- TSCHED as read (R81). -/
def State.readTsched (s : State) (t : Nat) : Nat :=
  let k := s.tenant t
  let b (x : Bool) (i : Nat) : Nat := if x then 2 ^ i else 0
  k.weight + b k.suspend 8 + b (s.suspended t) 9 + b k.excl 10 + b k.plerr 11 + b k.bvfull 12 + b k.resetting 14

/-- COREOWN_WRITE (R81): a reserved value leaves the field unchanged; other tenants' blocks there are pre-empted. -/
def State.writeCoreown (s : State) (core : Nat) (v : Word) : State :=
  let o := wbits v 0 5
  if 16 < o then s
  else
    let s := s.modCore core fun c => { c with owner := o }
    if o = 16 then s else s.preemptWhere fun b => b.core == core && s.blockTenant b != o

/-- L2WAY_WRITE (R81): ignored as a whole where a way would belong to two tenants. -/
def State.writeL2way (s : State) (t : Nat) (v : Word) : State :=
  let w0 := BitVec.ofNat 16 (wbits v 0 16)
  let w1 := BitVec.ofNat 16 (wbits v 16 16)
  if s.tenants.any fun p => p.1 != t && (p.2.ways0 &&& w0 != 0 || p.2.ways1 &&& w1 != 0) then s
  else s.modTenant t fun k => { k with ways0 := w0, ways1 := w1 }

/-- PLACE_TABLE_WRITE (R82): dropped with PLERR unless SUSPENDED; only the number and the valid bit are kept. -/
def State.writePlace (s : State) (t off : Nat) (v : BitVec 32) : State :=
  if s.suspended t then
    if off / 4 < 0x112 ∧ off % 4 = 0 then
      s.modTenant t fun k => { k with place := tset k.place (off / 4) (v &&& 0x800000FF#32) }
    else s
  else s.modTenant t fun k => { k with plerr := true }

/-- What a carve keeps of a die's bytes and tags. -/
def cutCarve (units : Nat) (t : Tbl Byte) : Tbl Byte := t.filter fun p => p.1 < units * 8388608
/-- What a carve keeps of a die's tags. -/
def cutTags (units : Nat) (ts : List Nat) : List Nat := ts.filter fun g => g < units * 524288
/-- What a carve keeps of a die's words in error. -/
def cutErrs (units : Nat) (es : List Nat) : List Nat := es.filter fun e => e < units * 1048576

/-- An L2's lines in some of its slices written back, counted, and dropped. -/
def State.flushSlices (s : State) (d : Nat) (ks : List Nat) : State :=
  let c := s.l2c d
  if ks = [] then s
  else s.l2Flush d (fun a => match tget c.lines (a / 256) with
    | some l => ks.contains l.slice
    | none => false) true

/-- The slices that back a carve of some units (R93): those that it has, less its highest units, then the lowest-numbered enabled ones
that are not carved; none where they are too few. -/
def State.carveSlices (s : State) (d units : Nat) (old : List Nat) : Option (List Nat) :=
  let new := (s.liveSlices d).take (4 * units - old.length)
  if old.length + new.length < 4 * units then none else some (old.take (4 * units) ++ new)

/-- The L2 slices that back a tenant's carve on a die. -/
def Tenant.slices (k : Tenant) (d : Nat) : List Nat := if d = 0 then k.slices0 else k.slices1

/-- A retiring slice leaves its carve (R93): while the tenant is suspended, its contents and tags are copied to the lowest free enabled
slice, which leaves caching service for it. -/
def State.moveSlice (s : State) (d k : Nat) : State :=
  match s.tenants.find? fun t => (t.2.slices d).contains k, s.liveSlices d with
  | some (t, _), n :: _ =>
    if s.suspended t then
      let put (l : List Nat) : List Nat := l.map fun x => if x = k then n else x
      (s.flushSlices d [n]).modTenant t fun q =>
        if d = 0 then { q with slices0 := put q.slices0 } else { q with slices1 := put q.slices1 }
    else s
  | _, _ => s

/-- The retirement of slices (R93, R249): one that backs a carve waits until the carve has left it; then its lines go home, and the hash is
that of the slices that remain. -/
def State.settleSlices (s : State) : State :=
  s.retiringSlices.foldl (fun s (x : Nat × Nat) =>
    let s := s.moveSlice x.1 x.2
    if (s.carved x.1).contains x.2 then s
    else
      { s.flushSlices x.1 [x.2] with
        retiredSlices := s.retiredSlices ++ [x], retiringSlices := s.retiringSlices.filter (· != x) }) s

/-- TENANT_RESUME (R81, R85): the saved blocks may resume; a carve that had to leave a retiring slice has done so while the tenant was
suspended (R93). -/
def State.resumeTenant (s : State) (t : Nat) : State := s.settleSlices.modTenant t fun k => { k with suspend := false }

/-- A write of TSCHED (R81). DESIGN CHOICE: its SUSPEND acts before its RESET, which R86 does not order within one write (log 93). -/
def State.writeTsched (s : State) (t : Nat) (v : Word) : State :=
  let s := s.modTenant t fun k =>
    { k with weight := wbits v 0 8, excl := wbit v 10, plerr := k.plerr && !wbit v 11, bvfull := k.bvfull && !wbit v 12 }
  let s := if wbit v 8 then s.suspendTenant t else s.resumeTenant t
  if wbit v 13 ∧ s.suspended t then s.resetTenant t else s

/-- DSCARVE_WRITE (R92, R93): ignored beyond the limits; the lines of slices taken from the cache are written back and dropped first.
DESIGN CHOICE: it is ignored, too, where the die has not enough enabled slices left, of which the spec says nothing (log 87). -/
def State.writeCarve (s : State) (t : Nat) (v : Word) : State :=
  let u0 := wbits v 0 5
  let u1 := wbits v 8 5
  let others (f : Tenant → Nat) : Nat := (s.tenants.filter fun p => p.1 != t).foldl (fun n p => n + f p.2) 0
  if s.suspended t = false ∨ 16 < u0 ∨ 16 < u1 ∨ 16 < u0 + others Tenant.units0 ∨ 16 < u1 + others Tenant.units1 then s
  else
    let k := s.tenant t
    match s.carveSlices 0 u0 k.slices0, s.carveSlices 1 u1 k.slices1 with
    | some n0, some n1 =>
      let s := (s.flushSlices 0 (n0.filter fun x => !k.slices0.contains x)).flushSlices 1 (n1.filter fun x => !k.slices1.contains x)
      (s.modTenant t fun k =>
        { k with units0 := u0, units1 := u1, slices0 := n0, slices1 := n1, die0 := cutCarve u0 k.die0, die1 := cutCarve u1 k.die1,
                 tags0 := cutTags u0 k.tags0, tags1 := cutTags u1 k.tags1, errs0 := cutErrs u0 k.errs0, errs1 := cutErrs u1 k.errs1 }).settleSlices
    | _, _ => s

/-! ## Service threads' control blocks (R235) -/

/-- A start of a stopped service thread (R235). -/
def Warp.startService (w : Warp) : Warp :=
  { w with
    tenant := w.svc.svtTenant
    fpctl := 0
    tmo := 0
    threads := w.threads.map fun t =>
      { t with pc := w.svc.svtpc, meet := 0, regs := [(1, w.svc.svtarg)], preds := 0, rsDepth := 0, rsStart := 0,
               fpflags := 0, exited := false, landing := false, wait := .none, deadline := none, asleep := none,
               debugSleep := false, stallUntil := 0, age := 0, held := false, pend := [], early := [], applied := 0,
               graceG := none, graceKept := [] }
    svc := { w.svc with running := true, level := w.svc.svtLevel } }

/-- SERVICE_THREAD_START (R235): no effect on a running thread. -/
def State.startService (s : State) (n : Nat) : State :=
  if (s.warp n).svc.running then s else s.modWarp n Warp.startService

/-- SERVICE_THREAD_STOP (R235): no effect on a stopped thread. -/
def State.haltService (s : State) (n : Nat) : State := if (s.warp n).svc.running then s.stopService n else s

/-- A write of SVTCTL at a level (R235): LEVEL 3 is written only at monitor level. -/
def State.writeSvtctl (s : State) (level n : Nat) (v : Word) : State :=
  let l := wbits v 8 2
  let s := s.modWarp n fun w =>
    { w with svc := { w.svc with svtTenant := wbits v 12 4,
                                 svtLevel := if l = 3 ∧ level < 3 then w.svc.svtLevel else levelOf l } }
  if wbit v 0 then s.startService n else s.haltService n

/-- SVTCTL as read (R235). -/
def State.readSvtctl (s : State) (n : Nat) : Nat :=
  let v := (s.warp n).svc
  v.svtTenant * 4096 + v.svtLevel.num * 256 + (if v.running then 1 else 2)

end Sys2Proof.Machine
end

