-- ==== Sys2Proof/Machine/Reclaim.lean ====
section
/-! DEFINITION. Grace periods: the Guyline nodes and the root (R126 to R133), and Stuffsack, the pool allocator (R136 to
R139). -/

namespace Sys2Proof.Machine

/-! ## The Guyline (R130) -/

/-- GPSEQ as a node last acknowledged it (R126, R130). -/
def Tenant.acked (t : Tenant) (node : Nat) : Nat := tgetD t.ack node 1

/-- The lesser of two starts. -/
def minStart (a : Option Nat) (n : Nat) : Option Nat :=
  match a with
  | some k => some (min k n)
  | none => some n

/-- The least start over threads inside a read section (R130). -/
def leastStart (ts : List Thread) : Option Nat :=
  ts.foldl (fun a t => if t.rsDepth ≠ 0 ∧ t.exited = false then minStart a t.rsStart else a) none

/-- The threads a node counts for a tenant: those resident on its core, or of its service core (R130, R132). -/
def State.nodeThreads (s : State) (node t : Nat) : List Thread :=
  (s.warps.filter fun p => p.2.core = node ∧ p.2.tenant = t ∧ (p.2.resident ∨ p.2.service)).flatMap fun p => p.2.threads

/-- The Bivouac summary of a tenant: the least start over its saved threads (R131). -/
def State.bivSummary (s : State) (t : Nat) : Option Nat :=
  leastStart ((s.warps.filter fun p => p.2.tenant = t ∧ p.2.resident = false ∧ p.2.service = false).flatMap fun p => p.2.threads)

/-- A report of a node for a tenant (R130). -/
def State.reportOf (s : State) (node t : Nat) : GReport :=
  { acked := (s.tenant t).acked node, least := leastStart (s.nodeThreads node t) }

/-- A node's report for one tenant reaches the root (R130). -/
def State.reportTenant (s : State) (node t : Nat) : State :=
  let r := s.reportOf node t
  s.modTenant t fun k => { k with reports := tset k.reports node r }

/-- The nodes of the Guyline that hold threads: 1,024 compute cores and 64 service cores. -/
def guylineNodes : List Nat := List.range 1088

/-- done(T, g): every node's report was taken after it acknowledged a value above g and shows no start at or below g, and
neither does the Bivouac summary (R130). -/
def State.graceDone (s : State) (t g : Nat) : Bool :=
  let above (o : Option Nat) : Bool := match o with
    | some k => g < k
    | none => true
  let k := s.tenant t
  (guylineNodes.all fun n =>
    let r := tgetD k.reports n { acked := 1, least := none }
    g < r.acked && above r.least) && above (s.bivSummary t)

/-- GPSEQ_ADVANCE (R128): the number taken is the value before. -/
def State.advance (s : State) (t : Nat) : State × Nat :=
  (s.modTenant t fun k => { k with gpseq := k.gpseq + 1 }, (s.tenant t).gpseq)

/-! ## Stuffsack (R138, R139) -/

/-- Bytes of a block of class k. -/
def blockSize (k : Nat) : Nat := 16 * 2 ^ k

/-- The virtual address of the metadata byte of the unit at an address. -/
def Pool.metaAt (p : Pool) (b : Nat) : Nat := p.pmeta + (b - p.pbase) / 16

/-- Bytes of the pool. -/
def Pool.bytes (p : Pool) : Nat := p.size * 1048576

/-- PFREE (R138). -/
def Pool.free (p : Pool) : Nat := (mapFrom (fun k l => blockSize k * l.length) 0 p.lists).foldl (· + ·) 0

/-- Whether an address names a block of a class in the pool (R139). -/
def Pool.names (p : Pool) (b k : Nat) : Bool :=
  p.pbase ≤ b && b + blockSize k ≤ p.pbase + p.bytes && (b - p.pbase) % blockSize k == 0

/-- A free list of the pool. -/
def Pool.list (p : Pool) (k : Nat) : List Nat := (p.lists[k]?).getD []

/-- A block pushed on a free list. -/
def Pool.push (p : Pool) (k b : Nat) : Pool := { p with lists := lset p.lists k (b :: p.list k) }

/-- A block removed from a free list. -/
def Pool.remove (p : Pool) (k b : Nat) : Pool := { p with lists := lset p.lists k ((p.list k).filter (· != b)) }

/-- What an operation does to a pool: its lists, the metadata bytes it writes, the blocks whose links it writes. -/
structure PoolPlan where
  pool : Pool
  metas : List (Nat × Nat)
  links : List Nat
  block : Nat
  deriving DecidableEq, Repr

/-- ALLOC of class k (R139): the least class with a block, split down, the lower halves kept. -/
def Pool.allocPlan (p : Pool) (k : Nat) : Option PoolPlan :=
  match (List.range 17).find? fun j => k ≤ j ∧ p.list j ≠ [] with
  | none => none
  | some j =>
    match p.list j with
    | [] => none
    | b :: rest =>
      let p0 : Pool := { p with lists := lset p.lists j rest }
      let js := ((List.range 17).filter fun i => k ≤ i ∧ i < j).reverse
      some { pool := js.foldl (fun p i => p.push i (b + blockSize i)) p0
             metas := js.map (fun i => (p.metaAt (b + blockSize i), 0x40 + i)) ++ [(p.metaAt b, 0x80 + k)]
             links := b :: js.map fun i => b + blockSize i
             block := b }

/-- The buddy of a block (R139). -/
def Pool.buddy (p : Pool) (b k : Nat) : Nat := p.pbase + ((b - p.pbase) ^^^ blockSize k)

/-- The merging of a returned block with its buddy, as many times as given (R139). -/
def Pool.merge (p : Pool) : Nat → Nat → Nat → List (Nat × Nat) → List Nat → PoolPlan
  | 0, b, k, ms, ls => { pool := p.push k b, metas := ms ++ [(p.metaAt b, 0x40 + k)], links := ls ++ [b], block := b }
  | n + 1, b, k, ms, ls =>
    let d := p.buddy b k
    (p.remove k d).merge n (min b d) (k + 1) (ms ++ [(p.metaAt d, 0)]) (ls ++ [d])

/-- The return of a block whose metadata byte is right, which merges a number of times (R139). -/
def Pool.freePlan (p : Pool) (b k merges : Nat) : PoolPlan := p.merge merges b k [(p.metaAt b, 0)] []

/-- How a pool operation comes out: it waits behind a fault, its translation was abandoned, or it goes on with every page
translated. -/
inductive PoolX where
  | wait | fail | ok (xs : List Xlat)
  deriving DecidableEq, Repr

/-- Every page that an operation touches translated first (R139). -/
def State.poolTouch (s : State) (t p : Nat) (vas : List Nat) : State × PoolX :=
  vas.foldl (fun acc va => match acc.2 with
    | .ok xs =>
      let r := acc.1.devTranslate t va accEngW (.pool t p va)
      match r.2 with
      | .ok x => (r.1, .ok (xs ++ [x]))
      | .wait => (r.1.modPool t p fun k => { k with devWait := r.1.behindFault (.pool t p va) }, .wait)
      | .drop => (r.1, .fail)
    | _ => acc) (s, .ok [])

/-- The 16 link bytes of a free block: unspecified (R139). -/
def State.linkBytes (s : State) : List Byte := (List.range 16).map fun i => Config.freeByte (s.drawn + i)

/-- The bytes of a plan written at its translated pages: metadata bytes, then the links. -/
def State.planWrite (s : State) (pl : PoolPlan) (xs : List Xlat) : Option State :=
  let step (acc : Option State) (w : Xlat × List Byte) : Option State := acc.bind fun s => s.devStore w.1 w.2
  let ms := pl.metas.map fun m => [BitVec.ofNat 8 m.2]
  let ls := mapFrom (fun i (_ : Nat) => ({ s with drawn := s.drawn + 16 * i } : State).linkBytes) 0 pl.links
  ((xs.zip (ms ++ ls)).foldl step (some s)).map fun s => { s with drawn := s.drawn + 16 * pl.links.length }

/-- The answer of Stuffsack: the request waits, it is refused, its translation was abandoned, or it is served. -/
inductive PoolAns where
  | wait | no | lost | yes (b : Nat)
  deriving DecidableEq, Repr

/-- PERR gains 1, saturating (R138). -/
def State.perr (s : State) (t p : Nat) : State := s.modPool t p fun k => { k with perr := min (2 ^ 64 - 1) (k.perr + 1) }

/-- A plan performed: none of it while a page faults; an abandoned translation changes nothing and counts in PERR
(R139). -/
def State.runPlan (s : State) (t p : Nat) (pl : PoolPlan) : State × PoolAns :=
  let r := s.poolTouch t p (pl.metas.map Prod.fst ++ pl.links)
  match r.2 with
  | .wait => (r.1, .wait)
  | .fail => (r.1.perr t p, .lost)
  | .ok xs =>
    match r.1.planWrite pl xs with
    | none => (r.1, .wait)
    | some s =>
      (s.modPool t p fun k => { pl.pool with devWait := k.devWait, aborted := k.aborted, perr := k.perr, queue := k.queue }, .yes pl.block)

/-- EN and READY (R138). -/
def Pool.serves (p : Pool) : Bool := p.en && p.ready

/-- Whether a request still stands: its thread is still in its wait for the pool (R139). -/
def State.poolStands (s : State) (p : Nat) : PoolReq → Bool
  | .root => true
  | .held n => (s.warp n).seg.closing && match (s.warp n).seg.held with
    | (_, .free _ _ _ q _) :: _ => q == p
    | _ => false
  | .thread n l =>
    let w := s.warp n
    let t := s.thread n l
    (w.resident || w.service) && !t.exited && t.wait == .pool p

/-- The requests with a pool in the order in which they reached Stuffsack; the first is the one that a fault holds up (R139). -/
def State.poolQueue (s : State) (t p : Nat) : List PoolReq := (s.pool t p).queue.filter (s.poolStands p)

/-- A request that Stuffsack cannot serve while a write of it waits for a Switch (R200). -/
def State.poolStall (s : State) (who : PoolReq) (t p : Nat) : State :=
  if (s.pool t p).devWait then s
  else s.stallFor none (match who with
    | .root => .back t
    | .thread n l => .thread n l
    | .held n => .pair (s.warp n).gang ((s.warp n).pos * (s.warp n).wpb + (s.warp n).wid))

/-- A request served in its turn (R139): it waits behind those that came before it; one whose translation was abandoned changes nothing
and counts in PERR; one that waits itself keeps its place. -/
def State.poolServe (s : State) (who : PoolReq) (t p : Nat) (f : State → State × PoolAns) : State × PoolAns :=
  let k := s.pool t p
  let q := s.poolQueue t p
  let aborted := k.aborted && q.head? == k.queue.head?
  if k.serves = false then (s, .no)
  else if k.devWait || (q != [] && q.head? != some who) then
    (s.modPool t p fun k => { k with aborted := aborted, queue := if q.contains who then q else q ++ [who] }, .wait)
  else if aborted then ((s.modPool t p fun k => { k with aborted := false, queue := q.tail }).perr t p, .lost)
  else
    let r := f s
    let rest := q.filter (· != who)
    match r.2 with
    | .wait => ((r.1.modPool t p fun k => { k with aborted := false, queue := who :: rest }).poolStall who t p, .wait)
    | x => (if k.queue = [] ∧ k.aborted = false then r.1 else r.1.modPool t p fun k => { k with aborted := false, queue := rest }, x)

/-- ALLOC of class k from pool p of tenant t (R139). -/
def State.poolAlloc (s : State) (who : PoolReq) (t p k : Nat) : State × PoolAns :=
  s.poolServe who t p fun s => match (s.pool t p).allocPlan k with
    | none => (s, .no)
    | some plan => s.runPlan t p plan

/-- The metadata byte of the unit at an address, read through the tenant's stages, its page translated first (R139). -/
def State.readMeta (s : State) (t p b : Nat) : State × Except PoolAns Nat :=
  let r := s.poolTouch t p [(s.pool t p).metaAt b]
  match r.2 with
  | .wait => (r.1, .error .wait)
  | .ok [x] =>
    let q := r.1.devLoad x 1
    (q.1, .ok (leNat q.2))
  | _ => (r.1, .error .lost)

/-- How many times a returned block merges (R139): as long as the metadata byte of its buddy says that it is free. -/
def State.mergeCount (s : State) (t p : Nat) : Nat → Nat → Nat → State × Except PoolAns Nat
  | 0, _, _ => (s, .ok 0)
  | n + 1, b, k =>
    if 16 ≤ k then (s, .ok 0)
    else
      let d := (s.pool t p).buddy b k
      let r := s.readMeta t p d
      match r.2 with
      | .error a => (r.1, .error a)
      | .ok v =>
        if v = 0x40 + k then
          let q := r.1.mergeCount t p n (min b d) (k + 1)
          (q.1, q.2.map (· + 1))
        else (r.1, .ok 0)

/-- What a return of (b, k) finds in the metadata, before it changes anything: the byte of its block (R139). -/
def State.freeLook (s : State) (t p b k : Nat) : State × PoolAns :=
  if (s.pool t p).names b k = false then (s, .no)
  else
    let r := s.readMeta t p b
    match r.2 with
    | .error a => (r.1, a)
    | .ok v => (r.1, if v = 0x80 + k then .yes b else .no)

/-- The return of (b, k) to pool p of tenant t (R139). -/
def State.poolFree (s : State) (who : PoolReq) (t p b k : Nat) : State × PoolAns :=
  s.poolServe who t p fun s =>
    let r := s.freeLook t p b k
    match r.2 with
    | .wait => (r.1, .wait)
    | .lost => (r.1.perr t p, .lost)
    | .no => (r.1.perr t p, .no)
    | .yes _ =>
      let m := r.1.mergeCount t p 16 b k
      match m.2 with
      | .ok n => m.1.runPlan t p ((m.1.pool t p).freePlan b k n)
      | .error .wait => (m.1, .wait)
      | .error _ => (m.1.perr t p, .lost)

/-- What a pool had under way is forgotten: its lists, the requests that waited, the access that waits behind a fault. -/
def State.freshPool (s : State) (t p : Nat) (en : Bool) : State :=
  let s := s.modPool t p fun k =>
    { k with en := en, ready := false, lists := List.replicate 17 [], devWait := false, aborted := false, queue := [] }
  let other (x : Waiter) : Bool := match x with
    | .pool u q _ => u != t || q != p
    | _ => true
  s.setFbuf 256 { s.fbuf 256 with waiters := (s.fbuf 256).waiters.filter other }

/-- POOL_ENABLE (R138): EN set; READY follows once enabling has finished. -/
def State.enablePool (s : State) (t p : Nat) : State := s.freshPool t p true

/-- POOL_DISABLE (R138, R137): the lists are dropped; deferred entries of the pool are discarded. -/
def State.disablePool (s : State) (t p : Nat) : State :=
  (s.freshPool t p false).modTenant t fun k => { k with deferQ := k.deferQ.filter fun e => e.pool != p }

/-- A write of PCTL (R138): SIZE is kept while EN is 1. -/
def State.writePctl (s : State) (t p : Nat) (v : Word) : State :=
  let k := s.pool t p
  let s := if k.en then s else s.modPool t p fun k => { k with size := wbits v 0 26 }
  if wbit v 31 then (if k.en then s else s.enablePool t p) else (if k.en then s.disablePool t p else s)

/-- PERR_READ (R138): the count is returned and cleared. -/
def State.readPerr (s : State) (t p : Nat) : State × Nat :=
  (s.modPool t p fun k => { k with perr := 0 }, (s.pool t p).perr)

/-- A pool register as written (R138). -/
def State.writePool (s : State) (t p off : Nat) (v : Word) : State :=
  let k := s.pool t p
  match off with
  | 0x00 => s.modPool t p fun k => { k with pbase := wbits v 20 44 * 1048576 }
  | 0x08 => s.writePctl t p v
  | 0x10 => if k.en then s else s.modPool t p fun k => { k with pmeta := wbits v 4 60 * 16 }
  | _ => s

/-- A pool register as read (R138). -/
def State.readPool (s : State) (t p off : Nat) : State × Nat :=
  let k := s.pool t p
  let b (x : Bool) (i : Nat) : Nat := if x then 2 ^ i else 0
  match off with
  | 0x00 => (s, k.pbase)
  | 0x08 => (s, k.size + b k.ready 30 + b k.en 31)
  | 0x10 => (s, k.pmeta)
  | 0x18 => s.readPerr t p
  | 0x20 => (s, k.free)
  | _ => (s, 0)

/-- The pages a byte range covers. -/
def pagesOf (va n : Nat) : List Nat :=
  if n = 0 then [] else (List.range ((va + n + 4095) / 4096 - va / 4096)).map fun i => (va / 4096 + i) * 4096

/-- POOL_ENABLING_FINISHED (R138): every page of the metadata and of the blocks' first units translates; the metadata
becomes 0 but for 0x50 at each 1 MiB block, and the class-16 list holds the blocks, the lowest on top. -/
def State.finishEnable (s : State) (t p : Nat) : State :=
  let k := s.pool t p
  let bs := (List.range k.size).map fun i => k.pbase + i * 1048576
  let plan : PoolPlan :=
    { pool := { k with ready := true, lists := lset (List.replicate 17 []) 16 bs },
      metas := bs.map fun b => (k.metaAt b, 0x50), links := bs, block := 0 }
  if k.en = false ∨ k.ready ∨ k.devWait ∨ k.aborted then s
  else
    let pages := pagesOf k.pmeta (k.size * 65536)
    let r := s.poolTouch t p (pages ++ plan.metas.map Prod.fst ++ plan.links)
    match r.2 with
    | .ok xs =>
      let zero (acc : Option State) (x : Nat × Xlat) : Option State :=
        let lo := max x.1 k.pmeta
        let hi := min (x.1 + 4096) (k.pmeta + k.size * 65536)
        acc.bind fun s => s.devStore { x.2 with pa := x.2.pa + (lo - x.1) } (List.replicate (hi - lo) 0)
      let zeroed := (pages.zip xs).foldl zero (some r.1)
      match zeroed.bind fun s => s.planWrite plan (xs.drop pages.length) with
      | some s => s.modPool t p fun _ => plan.pool
      | none => r.1.stallFor none (.enable t p)
    | .fail => r.1.modPool t p fun k => { k with aborted := true }
    | .wait => r.1

end Sys2Proof.Machine
end

