-- ==== Sys2Proof/Machine/Window.lean ====
section
/-! DEFINITION. The device windows of the Ridgepole: which register an address names, what a read returns and what a write
does (R68, R73, R81, R82, R92, R138, R189, R192, R196 to R198, R212, R225, R232, R235, R236, R420). -/

namespace Sys2Proof.Machine

/-! ## Fault buffers (R191, R192) -/

/-- A fault record as its 32 bytes (R191). -/
def recBytes (r : FRec) : List Byte :=
  leBytes 8 r.va ++ leBytes 8 r.ipa ++ leBytes 2 r.tenant ++ leBytes 1 r.kind ++ leBytes 1 r.flags ++ leBytes 1 r.level ++
    leBytes 1 r.cores ++ leBytes 2 r.progress ++ leBytes 4 r.count ++ leBytes 2 r.seq ++ leBytes 1 0 ++
    leBytes 1 (if r.valid then 1 else 0)

/-- FAULT_RECORD_RESOLVE and FAULT_RECORD_ABANDON: a write of a record's status byte (R192). -/
def State.writeStatus (s : State) (b i v : Nat) : State :=
  let f := s.fbuf b
  let r := tgetD f.recs i ({} : FRec)
  let f' : FaultBuf := { f with recs := tset f.recs i { r with valid := false } }
  if v = 1 then s.setFbuf b f'
  else if v = 3 ∧ r.valid then s.setFbuf b { f' with abandoned := f'.abandoned ++ [(r.tenant, r.va)] }
  else if v = 3 then s.setFbuf b f'
  else s

/-- A fault buffer's registers as read: the record bytes, FBSTAT, FBROUTE (R192). -/
def State.readFbuf (s : State) (b off : Nat) : Nat :=
  let f := s.fbuf b
  if off < 0x100 then leNat (((recBytes (tgetD f.recs (off / 32) ({} : FRec))).drop (off % 32)).take 8)
  else if off = 0x100 then
    ((List.range 8).filter fun i => (tgetD f.recs i ({} : FRec)).valid).foldl (fun n i => n + 2 ^ i) 0 + (if f.dropped then 256 else 0)
  else if off = 0x110 then f.routeThread + (if f.routeEn then 256 else 0)
  else 0

/-- A fault buffer's registers as written (R192). -/
def State.writeFbuf (s : State) (b off : Nat) (v : Word) : State :=
  if off = 0x100 then s.setFbuf b { s.fbuf b with dropped := (s.fbuf b).dropped && !wbit v 8 }
  else if off = 0x108 then (if wbit v 0 then s.replay b else s)
  else if off = 0x110 then s.setFbuf b { s.fbuf b with routeEn := wbit v 8, routeThread := wbits v 0 8 }
  else s

/-! ## Frames, decay (R196, R198) -/

/-- FRFILL_PUSH (R198): dropped on a full ring, or a frame outside the tier, or one that is retired (R249). -/
def State.pushFrame (s : State) (ring : Nat) (v : Word) : State :=
  let f := wbits v 12 40 * 4096
  let es := tgetD s.rings ring []
  if tierOf f = some ring ∧ es.length < Config.ringLen ∧ s.retiredFrames.contains (frameOf f) = false then { s with rings := tset s.rings ring (es ++ [f]) } else s

/-- FRRET_POP (R198): the next retired source frame, or 0. -/
def State.popFrret (s : State) : State × Nat :=
  match s.retRing with
  | [] => (s, 0)
  | f :: r => ({ s with retRing := r }, f)

/-- MIGDECAY_WRITE (R196): every write restarts the period. -/
def State.writeDecay (s : State) (v : Word) : State := { s with migdecay := wbits v 0 16, decayFrom := s.now }

/-- FRCNT (R198). -/
def State.frcnt (s : State) : Nat :=
  let n (k : Nat) : Nat := (tgetD s.rings k []).length
  n 0 + n 1 * 2 ^ 16 + n 2 * 2 ^ 32

/-! ## The CXL pool (R211 to R213) -/

/-- The physical address of a pool page. -/
def poolPa (page : Nat) : Nat := 0x1000000000000 + page * 4096

/-- Whether an address lies in a run of pool pages. -/
def inRun (page n : Nat) (a : Nat) : Bool := poolPa page ≤ a && a < poolPa (page + n)

/-- Whether a write to some addresses still stands in a store queue or is held back by a paired gang. -/
def State.unperformed (s : State) (p : Nat → Bool) : Bool :=
  let to_ (d : Dest) : Bool := match d with
    | .mem x => p x.pa
    | _ => false
  s.warps.any fun w =>
    (w.2.storeQ.any fun e => match e with
      | .store d _ | .sent d _ | .red d _ _ _ => to_ d) ||
    w.2.seg.held.any fun h => match h.2 with
      | .store d _ | .red d _ _ _ => to_ d
      | _ => false

/-- The caches write back and drop their bytes of a run of pool pages, as a release at `.pl` does; an error while a write to them is still
to be performed, or a migration covers one of them. -/
def State.poolDrop (s : State) (page n : Nat) : Except State State :=
  let p := inRun page n
  if s.unperformed p ∨ s.fwds.any (fun f => p f.2.src || (f.2.switched && p f.2.dst)) then .error s
  else
  let s := s.l1Cores.foldl (fun s c => s.l1Push c p) s
  if s.l1Cores.any fun c => s.stalls c p then .error s
  else .ok ((s.l1Cores.foldl (fun s c => s.l1Drop c p) s).l2FlushAll p true)

/-- A command is in progress with the result it will have. -/
def State.poolBegin (s : State) (op page count result first : Nat) : State :=
  { s with poolCmd := { s.poolCmd with op := op, page := page, count := count, status := 3, first := 0, result := result, resultFirst := first } }

/-- The pages of a run with another ownership. -/
def State.setRun (s : State) (page n : Nat) (o : PoolOwn) : State :=
  { s with poolPages := (List.range n).foldl (fun t i => tset t (page + i) o) s.poolPages }

/-- The version number of a region rises, and its pages become read-shared, in one action (R213). -/
def State.poolShare (s : State) (page n : Nat) : State :=
  let v := leNat ((addrs (poolPa page) 8).map fun a => memGet s.mem a)
  let ws := placed (poolPa page) (leBytes 8 ((v + 1) % 2 ^ 64))
  (({ s with mem := memSetAll s.mem ws }.written ws)).setRun page n .shared

/-- What a command does once the caches have given up its pages (R212, R213): 1 ACQUIRE, 2 RELEASE, 3 PUBLISH. -/
def State.poolAct (s : State) (op page n : Nat) : State :=
  match op with
  | 1 => s.setRun page n .exclusive
  | 2 => { s with poolPages := s.poolPages.filter fun p => !(page ≤ p.1 && p.1 < page + n) }
  | _ => s.poolShare page n

/-- A command acts, or waits until its write-backs have gone. -/
def State.poolRun (s : State) (op page n : Nat) : State :=
  match s.poolDrop page n with
  | .ok s => s.poolAct op page n
  | .error s => { s with poolCmd := { s.poolCmd with waits := s.poolCmd.waits ++ [(op, page, n)] } }

/-- The commands whose write-backs waited are tried again, in order. -/
def State.poolRetry (s : State) : State :=
  s.poolCmd.waits.foldl (fun s (w : Nat × Nat × Nat) => s.poolRun w.1 w.2.1 w.2.2) { s with poolCmd := { s.poolCmd with waits := [] } }

/-- POOL_ACQUIRE (R212): every page becomes exclusive, or none where one that this package does not hold is exclusive to another live
package. -/
def State.poolAcquire (s : State) (page count : Nat) : State :=
  let n := count + 1
  match Config.poolBusy s.drawn with
  | some i =>
    if (tget s.poolPages (page + i % n)).isNone then s.draw.poolBegin 1 page count 1 ((page + i % n) * 4096)
    else (s.draw.poolRun 1 page n).poolBegin 1 page count 0 0
  | none => (s.draw.poolRun 1 page n).poolBegin 1 page count 0 0

/-- POOL_RELEASE (R212): the caches write back and drop the pages, which become none. -/
def State.poolRelease (s : State) (page count : Nat) : State := (s.poolRun 2 page (count + 1)).poolBegin 2 page count 0 0

/-- POOL_PUBLISH (R213): only of pages all exclusive, and of no region that overlaps one still being published; the dirty bytes go to
the pool, then in one action the pages become read-shared and the version number rises. -/
def State.poolPublish (s : State) (page count : Nat) : State :=
  let n := count + 1
  let busy (i : Nat) : Bool := s.poolCmd.waits.any fun (w : Nat × Nat × Nat) => w.1 == 3 && decide (w.2.1 ≤ page + i ∧ page + i < w.2.1 + w.2.2)
  match (List.range n).find? fun i => tget s.poolPages (page + i) != some .exclusive || busy i with
  | some i => s.poolBegin 3 page count 2 ((page + i) * 4096)
  | none => (s.poolRun 3 page n).poolBegin 3 page count 0 0

/-- Another package publishes a region (R211, R213): pages of which this one holds none exclusively become read-shared here, with what
the publisher has written there. -/
def State.poolPublished (s : State) (page count : Nat) (ws : List (Nat × Byte)) : State :=
  let n := count + 1
  let bytes := (ws.filter fun (w : Nat × Byte) => w.1 < n * 4096).map fun (w : Nat × Byte) => (poolPa page + w.1, w.2)
  if (List.range n).any fun i => tget s.poolPages (page + i) == some .exclusive then s
  else match s.poolDrop page n with
    | .error s => s
    | .ok s => { s with mem := memSetAll s.mem bytes }.poolShare page n

/-- A write of POOLCMD (R212): other values of OP, and set bits that must be 0, drop the command. -/
def State.writePoolcmd (s : State) (v : Word) : State :=
  let page := wbits v 12 34
  let count := wbits v 48 12
  if wbits v 46 2 ≠ 0 ∨ wbits v 0 12 ≠ 0 then s
  else match wbits v 60 4 with
    | 1 => s.poolAcquire page count
    | 2 => s.poolRelease page count
    | 3 => s.poolPublish page count
    | _ => s

/-- POOLSTAT (R212). -/
def State.poolstat (s : State) : Nat := s.poolCmd.first / 4096 * 4096 + s.poolCmd.status

/-! ## Put windows (R232) -/

/-- A put window. -/
def State.putWin (s : State) (n : Nat) : PutWin := tgetD s.putWins n {}

/-- A put window's registers as written (R232): while EN is 1, only a write that clears EN counts. DESIGN CHOICE: bits 2:0 of WLAND are
written as 0, a value that R232 allows; it does not say what a write of others does (log 95). -/
def State.writeWin (s : State) (n off : Nat) (v : Word) : State :=
  let k := s.putWin n
  let set (k : PutWin) : State := { s with putWins := tset s.putWins n k }
  if wbit k.ctl 63 then (if off = 0x10 ∧ wbit v 63 = false then set { k with ctl := v &&& 0x800FF3FF80000000#64 } else s)
  else match off with
    | 0x00 => set { k with base := v.toNat }
    | 0x08 => set { k with size := wbits v 0 32 }
    | 0x10 => set { k with ctl := v &&& 0x800FF3FF80000000#64 }
    | 0x18 => set { k with land := v.toNat / 8 * 8 }
    | _ => s

/-- A put window's registers as read. -/
def State.readWin (s : State) (n off : Nat) : Nat :=
  let k := s.putWin n
  match off with
  | 0x00 => k.base
  | 0x08 => k.size
  | 0x10 => k.ctl.toNat
  | 0x18 => k.land
  | _ => 0

/-! ## The windows -/

/-- The scheduler window as read, dword by dword. -/
def State.readSched (s : State) (o : Nat) : Nat :=
  if o < 0x400 then
    let t := o / 64
    let k := s.tenant t
    match o % 64 with
    | 0x00 => s.readTsched t
    | 0x08 => k.ways0.toNat + 2 ^ 16 * k.ways1.toNat
    | 0x10 => k.bivbase.toNat
    | 0x18 => k.units0 + 256 * k.units1
    | 0x20 => k.s2root.toNat
    | 0x28 => k.thresh
    | _ => 0
  else if 0x1000 ≤ o ∧ o < 0x3000 then (s.core ((o - 0x1000) / 8)).owner
  else if 0x4000 ≤ o ∧ o < 0x6000 then
    let n := (o - 0x4000) / 32
    match o % 32 with
    | 0x00 => (s.warp n).svc.svtpc.toNat
    | 0x08 => (s.warp n).svc.svtarg.toNat
    | 0x10 => s.readSvtctl n
    | _ => 0
  else if 0x6000 ≤ o ∧ o < 0x6080 then (tgetD s.introute ((o - 0x6000) / 8) 0).toNat
  else if 0x8000 ≤ o then
    let k := s.tenant ((o - 0x8000) / 0x800)
    let e := o % 0x800 / 4
    (tgetD k.place e 0).toNat + 2 ^ 32 * (tgetD k.place (e + 1) 0).toNat
  else 0

/-- The root registers' fields: BASE and EN (R189). -/
def rootMask (v : Word) : Word := v &&& 0x000FFFFFFFFFF001#64

/-- The scheduler window as written, at a level. -/
def State.writeSched (s : State) (level o : Nat) (v : Word) : State :=
  if o < 0x400 then
    let t := o / 64
    match o % 64 with
    | 0x00 => s.writeTsched t v
    | 0x08 => s.writeL2way t v
    | 0x10 => s.modTenant t fun k => { k with bivbase := v &&& 0x000FFFFFFFFFFFFF#64 }
    | 0x18 => s.writeCarve t v
    | 0x20 => s.modTenant t fun k => { k with s2root := rootMask v }
    | 0x28 => s.modTenant t fun k => { k with thresh := wbits v 0 16 }
    | _ => s
  else if 0x1000 ≤ o ∧ o < 0x3000 then s.writeCoreown ((o - 0x1000) / 8) v
  else if 0x4000 ≤ o ∧ o < 0x6000 then
    let n := (o - 0x4000) / 32
    match o % 32 with
    | 0x00 => s.modWarp n fun w => { w with svc := { w.svc with svtpc := v &&& ~~~ 3#64 } }
    | 0x08 => s.modWarp n fun w => { w with svc := { w.svc with svtarg := v } }
    | 0x10 => s.writeSvtctl level n v
    | _ => s
  else if 0x6000 ≤ o ∧ o < 0x6080 then
    let n := (o - 0x6000) / 8
    if n = 1 ∨ 4 ≤ n then { s with introute := tset s.introute n (v &&& 0x1FF#64) } else s
  else if 0x8000 ≤ o then
    let t := (o - 0x8000) / 0x800
    (s.writePlace t (o % 0x800) (v.setWidth 32)).writePlace t (o % 0x800 + 4) ((v >>> 32).setWidth 32)
  else s

/-- The translation window as read; `rc` clears what a read clears. -/
def State.readTrans (s : State) (level o : Nat) (rc : Bool) : State × Nat :=
  if 0x41000 ≤ o ∧ o < 0x51000 then
    if 1 ≤ level ∧ o % 0x1000 = 0 then (s, (s.tenant ((o - 0x41000) / 0x1000)).s1root.toNat) else (s, 0)
  else if level < 2 then (s, 0)
  else if o < 0x40000 then (s, s.readFbuf (o / 0x400) (o % 0x400))
  else if o = 0x40018 then (s, s.frcnt)
  else if o = 0x40020 then (if rc then s.popFrret else (s, s.popFrret.2))
  else if o = 0x40030 then (s, s.migdecay)
  else if o = 0x40108 then (s, s.poolstat)
  else if 0x40400 ≤ o ∧ o < 0x40518 then (s, s.readFbuf 256 (o - 0x40400))
  else if o = 0x40518 then (if rc then { s with devdrop := 0 } else s, s.devdrop)
  else (s, 0)

/-- The translation window as written. -/
def State.writeTrans (s : State) (level o : Nat) (v : Word) : State :=
  if 0x41000 ≤ o ∧ o < 0x51000 then
    if 1 ≤ level ∧ o % 0x1000 = 0 then s.modTenant ((o - 0x41000) / 0x1000) fun k => { k with s1root := rootMask v } else s
  else if level < 2 then s
  else if o < 0x40000 then s.writeFbuf (o / 0x400) (o % 0x400) v
  else if o = 0x40000 then s.pushFrame 0 v
  else if o = 0x40008 then s.pushFrame 1 v
  else if o = 0x40010 then s.pushFrame 2 v
  else if o = 0x40030 then s.writeDecay v
  else if o = 0x40100 then s.writePoolcmd v
  else if 0x40400 ≤ o ∧ o < 0x40518 then s.writeFbuf 256 (o - 0x40400) v
  else s

/-- A dword of a window as read at a level (R420): 0 below the level it requires, and where no register lies. -/
def State.readReg (s : State) (level pa : Nat) (rc : Bool) : State × Nat :=
  match s.winOf pa with
  | .posting o =>
    let t := o / 0x1000
    let x := o % 0x1000
    if 0x100 ≤ x ∧ x < 0x180 then
      (if rc then s.readFull t ((x - 0x100) / 8) else (s, (s.readFull t ((x - 0x100) / 8)).2))
    else (s, 0)
  | .translation o => s.readTrans level o rc
  | .sched o => (s, if 2 ≤ level then s.readSched o else 0)
  | .stuffsack o =>
    if 2 ≤ level ∧ o < 0x4000 then
      let r := s.readPool (o / 1024) (o / 64 % 16) (o % 64)
      (if rc then r.1 else s, r.2)
    else (s, 0)
  | .collective o => (s, if 2 ≤ level then s.readSlot (o / 64) (o % 64) else 0)
  | .fabric o => (s, if 2 ≤ level then s.readWin (o / 32) (o % 32) else 0)
  | .other => (s, 0)

/-- An aligned dword written to a window at a level (R420). -/
def State.writeReg (s : State) (level pa : Nat) (v : Word) : State :=
  match s.winOf pa with
  | .posting o => s.postWindow (o / 0x1000) (o % 0x1000) 8 v
  | .translation o => s.writeTrans level o v
  | .sched o => if 2 ≤ level then s.writeSched level o v else s
  | .stuffsack o => if 2 ≤ level ∧ o < 0x4000 then s.writePool (o / 1024) (o / 64 % 16) (o % 64) v else s
  | .collective o => if 2 ≤ level then s.writeSlot (o / 64) (o % 64) v else s
  | .fabric o => if 2 ≤ level then s.writeWin (o / 32) (o % 32) v else s
  | .other => s

/-- A store of n bytes to a window (R420): aligned dwords write registers, two place-table entries among them (R82); a byte
may write a record's status (R192); every other store is ignored. -/
def State.winWrite (s : State) (level pa : Nat) (bs : List Byte) : State :=
  let v := leNat bs
  if bs.length = 8 ∧ pa % 8 = 0 then s.writeReg level pa (BitVec.ofNat 64 v)
  else if level < 2 then s
  else match s.winOf pa with
    | .translation o =>
      if bs.length = 1 ∧ o % 32 = 31 then
        if o < 0x40000 ∧ o % 0x400 < 0x100 then s.writeStatus (o / 0x400) (o % 0x400 / 32) v
        else if 0x40400 ≤ o ∧ o < 0x40500 then s.writeStatus 256 ((o - 0x40400) / 32) v
        else s
      else s
    | _ => s

/-- A load of n bytes from a window (R420): the addressed bytes of the registers it covers; only an aligned dword load
clears what a read clears. -/
def State.winRead (s : State) (level pa n : Nat) : State × List Byte :=
  if n = 8 ∧ pa % 8 = 0 then
    let r := s.readReg level pa true
    (r.1, leBytes 8 r.2)
  else (s, (addrs pa n).map fun a => BitVec.ofNat 8 ((s.readReg level (a / 8 * 8) false).2 / 256 ^ (a % 8)))

/-- POOLSTAT_READ (R212): a read of n bytes that returns status 2 raises cause 0x0D, TADDR holding FIRST. -/
def State.winCause (s : State) (level pa n : Nat) : Option TrapInfo :=
  match s.winOf pa with
  | .translation o =>
    if 2 ≤ level ∧ o < 0x40110 ∧ 0x40108 < o + n ∧ s.poolCmd.status = 2 then
      some { cause := 0x0D, addr := BitVec.ofNat 64 (s.poolCmd.first / 4096 * 4096) }
    else none
  | _ => none

end Sys2Proof.Machine
end

