-- ==== Sys2Proof/Machine/Access.lean ====
section
/-! DEFINITION. The parts the memory instructions share: gang kill (R182, R247), the store queue and its drains (R101, R108),
loads with forwarding (R108), fences (R102, R111), read-modify-write at a home (R121, R217), and paired segments (R109,
R243 to R245). -/

namespace Sys2Proof.Machine

/-! ## Gang kill (R247) -/

/-- The warps of a gang's blocks. -/
def State.gangWarps (s : State) (g : Nat) : List Nat :=
  match tget s.gangs g with
  | some k => k.blocks.flatMap fun b => (s.block b).warps
  | none => []

/-- A killed warp: its threads exit, what has not drained is discarded, its trap state is gone. -/
def Warp.kill (w : Warp) : Warp :=
  { w.exitAll with storeQ := [], shfl := [], seg := {}, tvec := 0, tcause := 0, tpc := 0, tres := 0, taddr := 0,
                   oc := { w.oc with mx := 0 } }

/-- A killed gang's requests removed; it loses the engine (R167, R182). -/
def Engine.drop (e : Engine) (g : Nat) : Engine :=
  { e.unqueue (· == g) with owner := if e.owner = some g then none else e.owner }

/-- A little-endian field of a descriptor. -/
def fld (d : List Byte) (off n : Nat) : Nat := leNat ((d.drop off).take n)

/-- Bytes put into a list of bytes at an offset. -/
def splice (d : List Byte) (off : Nat) (bs : List Byte) : List Byte := d.take off ++ bs ++ d.drop (off + bs.length)

/-- Whether an operation may be cut short at a line: puts and collectives go out whole, and the scratch of the gang goes with it. -/
def EngOp.divides (e : EngOp) : Bool :=
  match e.kind with
  | .copy | .copyz => fld e.desc 0x14 1 != 1 && fld e.desc 0x15 1 != 1
  | .gather | .scatter => fld e.desc 0x1E 1 != 1
  | .put | .coll => false
  | _ => true

/-- An operation of a gang that is killed (R247, step 2): removed where it has not begun, else it stops after some lines of its
destination; how far it has come is a free value. -/
def State.killEop (s : State) (e : EngOp) : State :=
  let k := Config.engineDone s.drawn
  let stops := !e.held && !e.faulted && e.divides
  if stops && k != 0 then { s.draw with engOps := s.engOps.map fun x => if x.id = e.id then { x with stop := some k } else x }
  else
    { (if stops then s.draw else s) with engOps := s.engOps.filter fun x => x.id ≠ e.id }.modWarp e.warp fun w =>
      { w with oc := w.oc.dec e.kind }

/-- The kill of one gang (R247): steps 1 to 3. DESIGN CHOICE: its scratch is empty from then on, so that lane-private bytes which it held
read as 0 in the tenant's next allocation there (R27, log 90). -/
def State.killOne (s : State) (g cause : Nat) : State :=
  let ws := s.gangWarps g
  let s := ws.foldl (fun s n => s.modWarp n Warp.kill) s.touchIdle
  let s := (s.engOps.filter fun e => ws.contains e.warp && !e.sent).foldl State.killEop s
  { s with
    engines := s.engines.map fun p => (p.1, p.2.drop g)
    blocks := s.blocks.map fun p => if p.2.gang = g then (p.1, { p.2.unsave with scratch := [], tags := [], errs := [] }) else p
    gangs := tmod s.gangs g fun k => { k with killed := true, lastCause := cause, tiles := false } }

/-- The self-tests that the death of a pair starts (R245): of the clusters of both twins. -/
def State.testPair (s : State) (g cause : Nat) : State :=
  if cause ≠ 0x0F then s
  else match tget s.gangs g with
    | none => s
    | some k =>
      let s := s.startTest (.cluster k.cluster)
      match k.twin.bind fun t => tget s.gangs t with
      | some t => s.startTest (.cluster t.cluster)
      | none => s

/-- GANG_KILL (R247): a paired gang is both its twins; a sixteenth relaunch is containment instead. -/
def State.killGang (s : State) (g cause : Nat) : State :=
  match tget s.gangs g with
  | none => s
  | some k =>
    let s := (s.testPair g cause).killOne g cause
    let s := match k.twin with
      | some t => s.killOne t cause
      | none => s
    if 15 ≤ k.relaunch then s.stopLaunch k.launch 4 cause ((k.blocks.map fun b => (s.block b).bid).headD 0) else s

/-! ## Consumption of uncorrectable data (R246) -/

/-- A register written from poisoned bytes: a compute thread's gang is killed; a service thread takes cause 0x10
(R242, R247). -/
def State.consume (s : State) (n : Nat) : State × LaneOut :=
  let w := s.warp n
  if w.service then (s, .trap { cause := 0x10 }) else (s.killGang w.gang 0x10, .off)

/-- The same where no instruction of the warp raises it: a service thread's cause is delivered at its next instruction. -/
def State.consumeLate (s : State) (n : Nat) : State :=
  let t := s.thread n 0
  if (s.warp n).service then s.deliver n 1 t.pc [{ lane := 0, info := { cause := 0x10 }, t := t }] else (s.consume n).1

/-! ## Sizes and values of memory types -/

/-- Bytes of an access (R89, R367). -/
def mBytes : MTy → Nat
  | .b128 => 16
  | .ty t => tyWidth t / 8

/-- A loaded value in its destination (R368). -/
def Thread.writeLoad (t : Thread) (x : LaneCx) (lat : Lat) (ty : MTy) (d : Dst) (bs : List Byte) : Thread :=
  match ty with
  | .b128 => (t.writeD x lat d (wordOfBytes (bs.take 8))).writeHi x lat d (wordOfBytes (bs.drop 8))
  | .ty e => t.writeD x lat d (if tySigned e then wordOf (sext (tyWidth e) (leNat bs)) else wordOfBytes bs)

/-- The bytes a store writes (R407). -/
def storeBytes (x : LaneCx) (ty : MTy) (d : Src) : List Byte :=
  match ty with
  | .b128 => wordBytes (x.src d) ++ wordBytes (x.srcHi d)
  | .ty e => leBytes (tyWidth e / 8) (x.src d).toNat

/-! ## Read-modify-write (R121, R217, R301) -/

/-- The bytes an element update leaves (R301). -/
def rmwBytes (op : AtomOp) (t : Ty) (old : List Byte) (v : Nat) : List Byte :=
  leBytes (tyWidth t / 8) (atomElem op t (leNat old) v)

/-- The issuing core gives up the line of a replicated page before an atomic, SC or LR (R120). -/
def State.replRelease (s : State) (core : Nat) (x : Xlat) : State :=
  if x.repl then s.l1Drop core (fun a => a / 256 == replicaPa core x.pa / 256) else s

/-- Before an atomic, SC or LR is sent, a core's L1 writes back the line and drops it, and gives up its copy of a
replicated page's (R120, R121); what to wait for where a write stalls. -/
def State.sendAtomic (s : State) (core : Nat) (x : Xlat) : Except (State × Wait) State :=
  match s.l1Release core x.pa with
  | some s => .ok (s.replRelease core x)
  | none => .error (s.l1Push core (fun a => a / 256 == x.pa / 256), .stalled)

/-- The same for several cores that issue it, as the twins of a paired gang do (R107, R245). -/
def State.sendFrom (s : State) (cs : List Nat) (x : Xlat) : Except (State × Wait) State :=
  cs.foldl (fun r c => match r with
    | .ok s => s.sendAtomic c x
    | .error q => .error q) (.ok s)

/-- One element updated at its home by a core, its L1 having given up the line; none when the write must wait. -/
def State.rmwMem (s : State) (core : Nat) (x : Xlat) (op : AtomOp) (t : Ty) (v : Nat) : Option (State × Nat) :=
  let r := s.rmwRead core x (tyWidth t / 8)
  (r.1.pocWrite core x (rmwBytes op t r.2 v)).map fun s => (s, leNat r.2)

/-- One element compared and perhaps written at its home (R301): a failing compare writes nothing. -/
def State.casMem (s : State) (core : Nat) (x : Xlat) (t : Ty) (v cmp : Nat) : Option (State × Nat) :=
  let r := s.rmwRead core x (tyWidth t / 8)
  if leNat r.2 = cmp then (r.1.pocWrite core x (leBytes (tyWidth t / 8) v)).map fun s => (s, leNat r.2)
  else some (r.1.rmwCount x, leNat r.2)

/-- One element updated in its scratch bank. -/
def State.rmwScr (s : State) (sp : ScrId) (off : Nat) (op : AtomOp) (t : Ty) (v : Nat) : State × Nat :=
  let old := s.scrBytes sp off (tyWidth t / 8)
  (s.scrWrite sp off (rmwBytes op t old v), leNat old)

/-- One element compared and perhaps written in its scratch bank. -/
def State.casScr (s : State) (sp : ScrId) (off : Nat) (t : Ty) (v cmp : Nat) : State × Nat :=
  let old := leNat (s.scrBytes sp off (tyWidth t / 8))
  (if old = cmp then s.scrWrite sp off (leBytes (tyWidth t / 8) v) else s, old)

/-! ## Stores and drains (R101, R108, R120) -/

/-- Where a thread's access to a translated address goes: a window keeps the level of the thread (R420). -/
def Warp.destOf (w : Warp) (x : Xlat) : Dest := if regionOf x.pa = .window then .window w.level.num x.pa else .mem x

/-- A store performed by a core at its place (R407): into L1 on a compute core, through the caches the directory keeps
coherent on a service core; memory-side, replicated and fabric pages at their homes; a window at the thread's level.
None when it must wait for a Switch. -/
def State.performStore (s : State) (core : Nat) (dst : Dest) (bs : List Byte) : Option State :=
  match dst with
  | .scratch sp off => some (s.scrWrite sp off bs)
  | .window level pa => some (s.winWrite level pa bs)
  | .mem x =>
    match x.place with
    | .cached => if core < 1024 then s.l1Store core x bs else s.pocWrite core x bs
    | .repl => (s.pocWrite core x bs).map fun s => s.l1Drop core fun a => a / 256 == replicaPa core x.pa / 256
    | _ => s.pocWrite core x bs

/-- A reduction of a store queue performed (R387); a device window takes it as a read and a write of its registers. -/
def State.performRed (s : State) (core : Nat) (dst : Dest) (op : AtomOp) (t : Ty) (v : Nat) : Option State :=
  match dst with
  | .scratch sp off => some (s.rmwScr sp off op t v).1
  | .window level pa =>
    let r := s.winRead level pa (tyWidth t / 8)
    some (r.1.winWrite level pa (rmwBytes op t r.2 v))
  | .mem x => match s.sendAtomic core x with
    | .ok s => (s.rmwMem core x op t v).map Prod.fst
    | .error _ => none

/-- Whether a store that was sent into a migration's full window still waits there (R200). -/
def State.unanswered (s : State) (core : Nat) (dst : Dest) (n : Nat) : Bool :=
  match dst with
  | .mem x => s.stalls core fun a => decide (x.pa ≤ a ∧ a < x.pa + n)
  | _ => false

/-- A store that finds a migration's window full: it is with the migration engine until the Switch, and stays in its queue until then
(R108, R200). -/
def State.sendStore (s : State) (n : Nat) (x : Xlat) (bs : List Byte) (rest : List SqEntry) : State :=
  match s.fwdAt x.pa with
  | some (k, f) =>
    let st : Stalled := { core := (s.warp n).core, attr := some x, ws := placed x.pa bs }
    { s with fwds := tset s.fwds k { f with stalled := f.stalled ++ [Stall.bytes st] } }.modWarp n fun w =>
      { w with storeQ := .sent (.mem x) bs :: rest }
  | none => s

/-- Whether a destination is a scratch space. -/
def Dest.isScratch : Dest → Bool
  | .scratch _ _ => true
  | _ => false

/-- What an entry of a paired warp's queue becomes in the hold buffer (R245); scratch accesses act in each twin. -/
def SqEntry.heldAs (e : SqEntry) : Option Held :=
  match e with
  | .store dst bs => if dst.isScratch then none else some (.store dst bs)
  | .red dst op t v => if dst.isScratch then none else some (.red dst op t v)
  | .sent _ _ => none

/-- An entry held back in a warp's segment. -/
def State.hold (s : State) (n : Nat) (h : Held) : State :=
  (s.modWarp n fun w => { w with seg := { w.seg with held := tset w.seg.held s.fresh h } }).bump

/-- Whether a reduction reads a word of scratch that holds an uncorrectable error (R246). -/
def State.redBad (s : State) (dst : Dest) (t : Ty) : Bool :=
  match dst with
  | .scratch sp off => s.scrBad sp off (tyWidth t / 8)
  | _ => false

/-- STORE_QUEUE_DRAIN: the oldest entry of a warp's queue leaves it, unless it must wait (R108). A paired warp's goes to the hold buffer
(R245); a reduction that meets an uncorrectable error in scratch consumes it (R246). -/
def State.drainOne (s : State) (n : Nat) : State :=
  let core := (s.warp n).core
  let pop (rest : List SqEntry) (s : State) : State := s.modWarp n fun w => { w with storeQ := rest }
  match (s.warp n).storeQ with
  | [] => s
  | e :: rest =>
  match (if (s.warp n).paired then e.heldAs else none), e with
  | some h, _ => (pop rest s).hold n h
  | none, .red dst op t v =>
    if s.redBad dst t then (pop rest s).consumeLate n
    else match s.performRed core dst op t v.toNat with
      | some s' => pop rest s'
      | none => s.stallFor (match dst with
        | .mem x => some (frameOf x.pa)
        | _ => none) (.queue n)
  | none, .sent dst bs => if s.unanswered core dst bs.length then s else pop rest s
  | none, .store dst bs =>
    match s.performStore core dst bs, dst with
    | some s', _ => pop rest s'
    | none, .mem x => s.sendStore n x bs rest
    | none, _ => s

/-- A warp's whole queue drains in order (R108), or as far as it can: an error when an entry must wait, or has killed the warp. -/
def State.drainAll (s : State) (n : Nat) : Except State State :=
  let s' := (s.warp n).storeQ.foldl (fun s (_ : SqEntry) => s.drainOne n) s
  if (s'.warp n).storeQ = [] ∧ ((s'.warp n).live = [] → (s.warp n).live = []) then .ok s' else .error s'

/-- Every queue of the package drains, or as far as it can. -/
def State.drainEverything (s : State) : Except State State :=
  (tkeys s.warps).foldl (fun r n => match r with
    | .ok s => s.drainAll n
    | .error s => match s.drainAll n with
      | .ok s | .error s => .error s) (.ok s)

/-! ## Paired gangs (R109, R243, R244) -/

/-- The record that a store, an atomic or a post folds into the signature (R244). -/
def foldRecord (i : Instr) (a : Word) (data : List Byte) (mask : Nat) : List Byte :=
  let fn := match toRaw i with
    | some r => r.fn
    | none => 0
  BitVec.ofNat 8 (clsOf i * 16 + fn) :: leBytes 8 a.toNat ++ (data ++ List.replicate 16 0).take 16 ++ leBytes 2 mask

/-- The byte mask of n bytes (R244). -/
def maskBytes (n : Nat) : Nat := 2 ^ n - 1

/-- One record folded into a warp's signature. -/
def State.fold (s : State) (n : Nat) (rec : List Byte) : State :=
  s.modWarp n fun w => { w with seg := { w.seg with sig := crc64 w.seg.sig rec } }

/-- The entries that a warp's open segment holds, with those still in its queue (R243). -/
def Warp.heldCount (w : Warp) : Nat := w.seg.held.length + (w.storeQ.filter fun e => e.heldAs.isSome).length

/-- The entries a segment of a warp may hold (R243). -/
def State.holdLimit (s : State) (w : Warp) : Nat :=
  match tget s.launches w.launch with
  | some l => 4096 / (l.lrec.w * l.lrec.g)
  | none => 0

/-- The die-1 twin of a paired gang. -/
def State.secondTwin (s : State) (w : Warp) : Bool :=
  match tget s.gangs w.gang with
  | some g => g.onDie1
  | none => false

/-- The twin of a warp. -/
def State.twinWarp (s : State) (n : Nat) : Option Nat :=
  let w := s.warp n
  match (if w.paired then tget s.gangs w.gang else none) with
  | none => none
  | some g => match g.twin with
    | none => none
    | some t => match tget s.gangs t with
      | none => none
      | some g' => match g'.blocks[w.pos]? with
        | none => none
        | some b => (s.block b).warps[w.wid]?

/-- The segment of a warp ends, with the lanes of the bundle whose event ends it: what its queue holds is its last entries, and its compare
is due. -/
def State.closeSeg (s : State) (n : Nat) (enders : BitVec 32) : State :=
  if (s.warp n).seg.closing then s
  else
    let s := match s.drainAll n with
      | .ok s | .error s => s
    s.modWarp n fun w => { w with seg := { w.seg with closing := true, enders := enders, since := s.now } }

/-- The lanes of the bundle wait. -/
def State.bundleWait (s : State) (x : Wait) : State :=
  s.lanes.foldl (fun s l => s.modThread s.cur.warp l fun t => { t with wait := x }) s

/-- The cores whose L1s give up the line of what a warp sends once for itself and its twin (R117, R121, R220). -/
def State.issuers (s : State) (n : Nat) : List Nat :=
  (s.warp n).core :: match s.twinWarp n with
    | some m => [(s.warp m).core]
    | none => []

/-- The lanes of a mask that have gone on between two states. -/
def goneOn (n : Nat) (lanes : BitVec 32) (s0 s : State) : BitVec 32 :=
  maskOf ((mlanes lanes).filter fun l => (s.thread n l).count != (s0.thread n l).count)

/-- Lanes that have performed what ended their segment (R245). -/
def State.passedBy (s : State) (n : Nat) (ls : BitVec 32) : State :=
  s.modWarp n fun w => { w with seg := { w.seg with passed := w.seg.passed &&& ~~~ ls } }

/-- A paired warp's instruction, after which the lanes that have gone on have nothing left to perform. -/
def segGo (f : State → Out) (s : State) : Out :=
  let n := s.cur.warp
  match f s with
  | .next s2 => .next (s2.passedBy n (goneOn n s.cur.lanes s s2))
  | o => o

/-- AN EVENT THAT ENDS A PAIRED SEGMENT (R243, R245). The lanes of its bundle wait until the compare has closed with equal signatures,
and then perform it, each until it goes on; the die-1 twin's lanes receive the result of what is performed `once`. An event that
meets a segment which has ended already waits, and ends the next one. `fold` folds the event's own records. -/
def segEnd (once : Bool) (fold : State → State) (f : State → Out) (s : State) : Out :=
  let n := s.cur.warp
  let mine := s.cur.lanes &&& s.curWarp.seg.passed
  if s.curWarp.paired = false then f s
  else if mine ≠ 0 then
    let s1 := { s with cur := { s.cur with lanes := mine } }
    if once ∧ s.secondTwin s.curWarp then .next (s1.bundleWait .twin)
    else segGo f s1
  else if s.curWarp.seg.closing then .next (s.bundleWait .compare)
  else .next (((fold s).closeSeg n s.cur.lanes).bundleWait .compare)

/-- The held entries of a gang's warps, in the order in which they were made. -/
def State.gangHeld (s : State) (g : Nat) : Tbl Held :=
  ((s.gangWarps g).flatMap fun n => (s.warp n).seg.held).foldl (fun t p => tset t p.1 p.2) []

/-- The bytes that a gang's held entries give its own loads (R109). -/
def State.heldPatch (s : State) (g : Nat) : Tbl Byte :=
  (s.gangHeld g).foldl (fun t p => match p.2 with
    | .store (.mem x) bs => putBytes t x.pa bs
    | .red (.mem x) op ty v =>
      let old := (addrs x.pa (tyWidth ty / 8)).map fun a => (tget t a).getD (s.cohByte a)
      putBytes t x.pa (rmwBytes op ty old v.toNat)
    | _ => t) []

/-! ## Loads (R108, R368) -/

/-- What a warp's store queue holds of a byte. -/
inductive Fwded where
  | none | byte (v : Byte) | red
  deriving DecidableEq, Repr

/-- The offset of a byte in a destination, when it covers it. -/
def Dest.covers (d : Dest) (n : Nat) (pa : Option Nat) (so : Option (ScrId × Nat)) : Option Nat :=
  match d, pa, so with
  | .mem x, some a, _ => if x.pa ≤ a ∧ a < x.pa + n then some (a - x.pa) else Option.none
  | .window _ pa, some a, _ => if pa ≤ a ∧ a < pa + n then some (a - pa) else Option.none
  | .scratch sp off, _, some (q, o) => if sp = q ∧ off ≤ o ∧ o < off + n then some (o - off) else Option.none
  | _, _, _ => Option.none

/-- A queued reduction group that covers a byte, for which a load waits (R387); else the youngest queued store of it (R108). -/
def forwarded (q : List SqEntry) (pa : Option Nat) (so : Option (ScrId × Nat)) : Fwded :=
  let group (e : SqEntry) : Bool := match e with
    | .red d _ t _ => (d.covers (tyWidth t / 8) pa so).isSome
    | _ => false
  if q.any group then .red
  else match q.reverse.findSome? fun e => match e with
    | .store d bs | .sent d bs => (d.covers bs.length pa so).map fun i => (bs[i]?).getD 0
    | .red _ _ _ _ => Option.none with
  | some v => .byte v
  | Option.none => .none

/-- The unloaded latency of a load from memory: an L1 hit, a hit in the die's L2, or further (R91). -/
def State.loadLat (s : State) (core pa n : Nat) : Lat :=
  if (addrs pa n).all fun a => ((s.l1c core).serves a).isSome then .var 28
  else if (addrs (s.homeAddr pa) n).all fun a => ((s.l2c (dieOf core)).serves a).isSome then .var 120
  else .var 300

/-- The bytes below the store queue, read by a core at a translated address, with the addresses they come from. -/
def State.readBelow (s : State) (core : Nat) (x : Xlat) (n : Nat) : State × List Byte :=
  if core < 1024 then
    match x.place with
    | .cached => s.l1Read core (some x) x.pa n
    | .repl => s.l1Read core (some x) (replicaPa core x.pa) n
    | _ => s.pocRead core x n
  else s.pocRead core x n

/-- Whether some byte that a load reads below the store queue, but for its `own`, is uncorrectable (R246): one of a poisoned line, that the
core has not itself written over in L1, or one that its L1 has spoilt. -/
def State.loadsPoison (s : State) (core : Nat) (x : Xlat) (n : Nat) (own : Nat → Bool) : Bool :=
  let base := if x.repl then replicaPa core x.pa else x.pa
  (List.range n).any fun i => !own (x.pa + i) &&
    match (s.l1c core).byte (base + i) with
    | some b => b.bad || (!b.dirty && s.poisoned (s.homeAddr (base + i)))
    | none => s.poisoned (s.homeAddr (base + i))

/-- What a load gives: it must wait for a reduction group to drain, it consumes poison, or bytes. -/
inductive Loaded where
  | wait | poison | bytes (lat : Lat) (bs : List Byte)
  deriving DecidableEq, Repr

/-- The bytes a warp's load reads (R108.5): the youngest queued store, else the gang's held stores, else below, which an
LR reads at the home (R121). -/
def State.loadMem (s : State) (n : Nat) (x : Xlat) (len : Nat) (home : Bool) : State × Loaded :=
  let w := s.warp n
  let fs := (addrs x.pa len).map fun a => forwarded w.storeQ (some a) Option.none
  if fs.contains .red then (s, .wait)
  else
    let lat := s.loadLat w.core x.pa len
    let patch := if w.paired then s.heldPatch w.gang else []
    let own := fs.all fun f => f != .none
    let bad := s.loadsPoison w.core x len fun a => forwarded w.storeQ (some a) Option.none != .none || (tget patch a).isSome
    let r := if own then (s, List.replicate len 0) else if home then s.lrRead w.core x len else s.readBelow w.core x len
    let pick (p : Fwded × Nat × Byte) : Byte := match p.1 with
      | .byte v => v
      | _ => (tget patch p.2.1).getD p.2.2
    if bad then (r.1, .poison) else (r.1, .bytes lat ((fs.zip (placed x.pa r.2)).map pick))

/-- Whether a byte that a warp's scratch load takes from the bank lies in a word with an uncorrectable error (R246). -/
def State.loadsBadScr (s : State) (n : Nat) (sp : ScrId) (off len : Nat) : Bool :=
  (addrs off len).any fun o => forwarded (s.warp n).storeQ Option.none (some (sp, o)) == .none && s.scrBad sp o 1

/-- The bytes a warp's scratch load reads: the youngest queued store, else the bank. -/
def State.loadScr (s : State) (n : Nat) (sp : ScrId) (off len : Nat) : Option (List Byte) :=
  let fs := (addrs off len).map fun o => (forwarded (s.warp n).storeQ Option.none (some (sp, o)), o)
  if fs.any fun f => f.1 == .red then Option.none
  else some (fs.map fun f => match f.1 with
    | .byte v => v
    | _ => s.scrByte sp f.2)

/-! ## Fences (R102, R111, R342) -/

/-- A core's instruction cache dropped (R284). -/
def State.dropIcache (s : State) (core : Nat) : State := s.modCore core fun c => { c with icache := [] }

/-- Scope numbers (R110). -/
def scopeNum : Scope → Nat
  | .th => 0
  | .wp => 1
  | .co => 2
  | .cl => 3
  | .di => 4
  | .pk => 5
  | .fb => 6
  | .pl => 7

/-- An acquire by a warp's core: at `.cl` and wider a compute core's L1 drops its clean bytes (R102), and the instruction
cache is dropped (R284). -/
def State.acquire (s : State) (core : Nat) (sc : Scope) : State :=
  if 3 ≤ scopeNum sc then
    let s := if core < 1024 then s.l1DropClean core else s
    s.dropIcache core
  else s

/-- A release by a warp: its queue drains, and at `.cl` and wider its core's dirty L1 bytes are written back; at `.pl` the
package's dirty bytes of tier 2 reach the pool (R111). An error, with what has been sent and what to wait for, while a write must
wait (R200). -/
def State.release (s : State) (n : Nat) (sc : Scope) : Except (State × Wait) State :=
  let core := (s.warp n).core
  match s.drainAll n with
  | .error s => .error (s, .drain)
  | .ok s =>
    let s := if 3 ≤ scopeNum sc ∧ core < 1024 then s.l1Push core everywhere else s
    if 3 ≤ scopeNum sc ∧ core < 1024 ∧ s.stalls core everywhere then .error (s, .stalled)
    else .ok (if sc = .pl then s.l2FlushAll (fun a => tierOf a == some 2) false else s)

/-! ## Room in the deferred-free queue (R136, R140) -/

/-- The deferred frees that a warp holds back and that will be posted. -/
def Warp.heldDefers (w : Warp) : Nat :=
  (w.seg.held.filter fun p => match p.2 with
    | .deferFree _ _ _ _ ok => ok
    | _ => false).length

/-- The entries of a tenant's deferred-free queue, with the room that paired gangs have taken there for what they hold back: once for
both twins, so that no held entry ever waits for room (R134, R140). -/
def State.deferTaken (s : State) (t : Nat) : Nat :=
  let pair (p : Nat × Warp) : Nat := match s.twinWarp p.1 with
    | some m => if s.secondTwin p.2 then 0 else max p.2.heldDefers (s.warp m).heldDefers
    | none => p.2.heldDefers
  (s.tenant t).deferQ.length + ((s.warps.filter fun p => p.2.paired && p.2.tenant == t).map pair).sum

/-! ## What a paired gang performs once (R245) -/

/-- Whether an instruction that has completed in a lane acquires at package scope (R128, R139). -/
def acquires (i : Instr) (t : Thread) : Bool :=
  match i with
  | .gpwait _ => true
  | .alloc _ q _ _ _ => t.preds.getLsbD q.val
  | _ => false

/-- The results of an instruction performed once, given to the twin's threads that wait at it (R245): the registers it writes, the
acquire that ends it (R134), its STALL, or the trap that it raised. -/
def copyTwin (i : Instr) (s0 s : State) : State :=
  let n := s0.cur.warp
  match s0.twinWarp n with
  | none => s
  | some m =>
    let step := (s.core (s.warp m).core).step
    let done := (mlanes (goneOn n s0.cur.lanes s0 s)).filter fun l => (s0.thread m l).count == (s0.thread n l).count
    let trapped (l : Nat) : Bool := mbit (s.warp n).tmask l && !mbit (s0.warp n).tmask l
    let went := done.filter fun l => !trapped l
    let give (s : State) (l : Nat) : State :=
      let t := s.thread n l
      s.modThread m l fun u =>
        if trapped l then u.toHandler t.pc step t.telem
        else ((writesOf i).foldl (fun u r => u.put r (t.cur r)) u).issued step (ctlOf i).stall.val t.pc
    let s1 := (done.foldl give s).passedBy m (maskOf done)
    let s2 := if done.any trapped then s1.modWarp m fun w =>
        let v := s1.warp n
        { w with tcause := v.tcause, tpc := v.tpc, tmask := v.tmask, taddr := v.taddr }
      else s1
    let s3 := if went.any fun l => acquires i (s2.thread n l) then s2.acquire (s2.warp m).core .pk else s2
    if (ctlOf i).stall.val = 7 ∧ went ≠ [] then s3.renumber m else s3

/-- Runs an instruction that ends a segment and is performed once (R243, R245); unpaired warps just run it, and one whose
every thread is guard-false performs nothing. -/
def segOnce (i : Instr) (fold : State → State) (f : State → Out) (s : State) : Out :=
  match issueInstead i s with
  | some s' => .next s'
  | none =>
    if guardTrue i s = [] then (if s.curWarp.paired then segGo f s else f s)
    else segEnd true fold (fun s1 => match f s1 with
      | .next s2 => .next (if s1.curWarp.paired then copyTwin i s1 s2 else s2)
      | o => o) s

/-- A thread's register-bound loads have landed (R39, R342). -/
def Thread.landed (t : Thread) (now : Nat) : Bool := t.pend.all fun p => p.due ≤ now

/-! ## Bounded waits (R74, R140, R203) -/

/-- Whether the TMO bound of a wait has elapsed. -/
def Thread.elapsed (t : Thread) (now : Nat) : Bool :=
  match t.deadline with
  | some d => d ≤ now
  | none => false

/-- The deadline of a wait that starts now; all ones never elapses (R258). -/
def Warp.bound (w : Warp) (now : Nat) : Option Nat := if w.tmo = BitVec.allOnes 64 then none else some (now + w.tmo.toNat)

/-- A bounded wait that is not satisfied: it ends at once with TMO 0 or past its bound, else the thread waits with its
bound. `fail` is the unsatisfied result. -/
def State.bounded (s : State) (n l : Nat) (x : Wait) (fail : State) : State × LaneOut :=
  let w := s.warp n
  let t := s.thread n l
  if w.tmo = 0 ∨ t.elapsed s.now then (fail, .next)
  else
    let d := match t.deadline with
      | some d => some d
      | none => w.bound s.now
    (s.modThread n l fun t => { t with deadline := d }, .wait x)

end Sys2Proof.Machine
end

