-- ==== Sys2Proof/Machine/Memory.lean ====
section
/-! DEFINITION. The loads and stores of class 7: virtual memory (R368, R372, R381, R396, R407), scratch with its tags
(R95 to R98), the tag instructions (R340). -/

namespace Sys2Proof.Machine

/-! ## An access to virtual memory (R185, R190, R230, R419) -/

/-- The translation of a thread's access: its form first (R185), then the stages; what the thread does when it fails. DESIGN CHOICE:
an address that is not canonical raises its cause at monitor level too, where R419 makes the address physical and R185 does not say
whether the check applies (log 84). -/
def State.mapped (s : State) (n l : Nat) (acc : Acc) (e : Word) (len progress : Nat) : State × Except LaneOut Xlat :=
  if e.toNat % len ≠ 0 ∨ canonical e = false then (s, .error (.trap { cause := 6, addr := e }))
  else
    let r := s.translateFor (s.warp n) acc (addr e)
    match r.2 with
    | .ok x => (r.1, .ok x)
    | .error x =>
      let q := r.1.accessFault n l acc e x progress
      (q.1, .error q.2)

/-- The answer of an external endpoint to a thread's translated access (R230): a refusal is a fault of kind 1, silence is
waited for; and tier 0 waits while the compute dies sleep (R253). -/
def State.gate (s : State) (n l : Nat) (acc : Acc) (e : Word) (x : Xlat) (progress : Nat) : State × Except LaneOut Xlat :=
  let g := s.fabricGate x.pa
  if s.sleeping x.pa then (s.wake, .error (.wait .power))
  else match g.2 with
  | none => (g.1, .ok x)
  | some 6 => (g.1, .error (.wait (.fabric s.now (addr e) (x.ipa / 4096 * 4096) acc.read acc.write acc.atomic)))
  | some k =>
    let q := g.1.accessFault n l acc e (.fault true k 4 (x.ipa / 4096 * 4096)) progress
    (q.1, .error q.2)

/-- A thread's access of a length: translated and, on the fabric, answered. -/
def State.access (s : State) (n l : Nat) (acc : Acc) (e : Word) (len progress : Nat) : State × Except LaneOut Xlat :=
  let r := s.mapped n l acc e len progress
  match r.2 with
  | .error o => (r.1, .error o)
  | .ok x => r.1.gate n l acc e x progress

/-- A monitor-level access in good form at a physical address that no range of R183 holds. -/
def rangeStop (i : Instr) (e : LaneCx → Word) (len : Nat) (s : State) : Option Fault :=
  let bad (l : Nat) : Bool :=
    let a := e (s.cx s.cur.warp l)
    a.toNat % len == 0 && canonical a && regionOf (addr a) == .none
  if s.curWarp.level = .monitor ∧ (issueInstead i s).isNone then
    match (guardTrue i s).find? bad with
    | some l => some (.physicalRange (addr (e (s.cx s.cur.warp l))))
    | none => none
  else none

/-- AN INSTRUCTION WHOSE THREADS ACCESS VIRTUAL MEMORY, in ascending logical lane. -/
def memFold (i : Instr) (e : LaneCx → Word) (len : Nat) (f : Nat → State → State × LaneOut) (s : State) : Out :=
  match rangeStop i e len s with
  | some x => .fault x
  | none => laneFold i f s

/-! ## Loads (R367, R368) -/

/-- Whether the warp's store queue holds something of the bytes at a physical address. -/
def State.queued (s : State) (n pa len : Nat) : Bool :=
  (addrs pa len).any fun a => forwarded (s.warp n).storeQ (some a) none != .none

/-- A load from a device window at the thread's level (R420); it waits for the warp's own queued stores to it. -/
def State.loadWin (s : State) (n l : Nat) (x : Xlat) (ty : MTy) (d : Dst) : State × LaneOut :=
  let level := (s.warp n).level.num
  if s.queued n x.pa (mBytes ty) then (s, .wait .drain)
  else match s.winCause level x.pa (mBytes ty) with
    | some c => (s, .trap c)
    | none =>
      let c := s.cx n l
      let r := s.winRead level x.pa (mBytes ty)
      (r.1.modThread n l fun t => t.writeLoad c (.var 300) ty d r.2, .next)

/-- The latency of a load, which lands no earlier than those of the bundle's lower lanes: what they fetch is still on its way. -/
def State.bundleLat (s : State) (n l : Nat) (d : Dst) (lat : Lat) : Lat :=
  match lat with
  | .fixed k => .fixed k
  | .cross k => .cross k
  | .var k =>
    let due (u : Nat) : Nat := ((s.thread n u).pend.filter fun p => (dRef d).contains p.reg).foldl (fun m p => max m p.due) 0
    .var ((s.lanes.filter fun u => u < l).foldl (fun m u => max m (due u - s.now)) k)

/-- A load from memory into a destination (R108, R246, R368). -/
def State.loadInto (s : State) (n l : Nat) (x : Xlat) (ty : MTy) (d : Dst) (home : Bool) : State × LaneOut :=
  let c := s.cx n l
  let r := s.loadMem n x (mBytes ty) home
  match r.2 with
  | .wait => (r.1, .wait .drain)
  | .poison => if d = .zero then (r.1, .next) else r.1.consume n
  | .bytes lat bs => (r.1.modThread n l fun t => t.writeLoad c (r.1.bundleLat n l d lat) ty d bs, .next)

/-- One thread of LD. -/
def ldLane (d : Dst) (a : Src) (imm : BitVec 16) (ty : MTy) (l : Nat) (s : State) : State × LaneOut :=
  let n := s.cur.warp
  let r := s.access n l accLoad ((s.cx n l).ea a imm) (mBytes ty) 0xFFFF
  match r.2 with
  | .error o => (r.1, o)
  | .ok x => if regionOf x.pa = .window then r.1.loadWin n l x ty d else r.1.loadInto n l x ty d false

/-- LD (R368). -/
def execLd (k : Ctl) (d : Dst) (a : Src) (imm : BitVec 16) (ty : MTy) (s : State) : Out :=
  memFold (.ld k d a imm ty) (fun x => x.ea a imm) (mBytes ty) (ldLane d a imm ty) s

/-- The granule a reservation or an SC names: that of the home; of a replicated page, that of die 0's replica. -/
def State.granuleOf (s : State) (x : Xlat) : Nat := s.homeAddr (if x.repl then x.pa % replicaDist else x.pa) / 64

/-- One thread of LR (R372): in a paired launch only the die-0 twin's places a reservation. -/
def lrLane (d : Dst) (a : Src) (imm : BitVec 16) (ty : Ty) (l : Nat) (s : State) : State × LaneOut :=
  let n := s.cur.warp
  let r := s.access n l accLoad ((s.cx n l).ea a imm) (mBytes (.ty ty)) 0xFFFF
  match r.2 with
  | .error o => (r.1, o)
  | .ok x =>
    match r.1.sendAtomic (s.warp n).core x with
    | .error q => (q.1, .wait q.2)
    | .ok s1 =>
      let q := if regionOf x.pa = .window then s1.loadWin n l x (.ty ty) d else s1.loadInto n l x (.ty ty) d true
      match q.2 with
      | .next =>
        if (s.warp n).paired && s.secondTwin (s.warp n) then q
        else (q.1.modThread n l fun t => { t with resv := some { granule := q.1.granuleOf x, time := q.1.now } }, .next)
      | _ => q

/-- LR (R372). -/
def execLr (k : Ctl) (d : Dst) (a : Src) (imm : BitVec 16) (ty : Ty) (s : State) : Out :=
  memFold (.lr k d a imm ty) (fun x => x.ea a imm) (mBytes (.ty ty)) (lrLane d a imm ty) s

/-- The spaces of the scratch forms: LDS and STS. -/
def dieSpace (die : Bool) : Space := if die then .die else .core

/-- Whether a qualifier waits for a full granule (R95). -/
def tagNeeds : Tag → Bool
  | .wf | .wfclr => true
  | _ => false

/-- Whether a qualifier empties the granule (R95). -/
def tagClears : Tag → Bool
  | .clr | .wfclr => true
  | _ => false

/-- One thread of a scratch load (R95, R97, R98, R368). -/
def scrLoadLane (sp : Space) (d : Dst) (a : Src) (imm : BitVec 16) (ty : MTy) (tag : Tag) (l : Nat) (s : State) :
    State × LaneOut :=
  let n := s.cur.warp
  let x := s.cx n l
  match s.scrAddr x.w l sp (x.ea a imm) (mBytes ty) with
  | .error c => (s, .trap c)
  | .ok (id, off) =>
    match (if tag = .plain then .ok s else s.drainAll n : Except State State) with
    | .error s1 => (s1, .wait .drain)
    | .ok s1 =>
      if tagNeeds tag && !s1.tagFull id off then (s1, .wait (.tag id (off / 16) true))
      else match s1.loadScr n id off (mBytes ty) with
        | none => (s1, .wait .drain)
        | some bs =>
          if s1.loadsBadScr n id off (mBytes ty) then s1.consume n else
          let s2 := s1.modThread n l fun t => t.writeLoad x (s1.scrLat x.w sp id) ty d bs
          (if tagClears tag then s2.setTag id off false else s2, .next)

/-- LDL (R368). -/
def execLdl (k : Ctl) (d : Dst) (a : Src) (imm : BitVec 16) (ty : MTy) (tag : Tag) (s : State) : Out :=
  laneFold (.ldl k d a imm ty tag) (scrLoadLane .prv d a imm ty tag) s

/-- LDS and LDS.die (R368). -/
def execLds (k : Ctl) (d : Dst) (a : Src) (imm : BitVec 16) (ty : MTy) (tag : Tag) (die : Bool) (s : State) : Out :=
  laneFold (.lds k d a imm ty tag die) (scrLoadLane (dieSpace die) d a imm ty tag) s

/-- LDC (R368). -/
def execLdc (k : Ctl) (d : Dst) (a : Src) (imm : BitVec 16) (ty : MTy) (tag : Tag) (s : State) : Out :=
  laneFold (.ldc k d a imm ty tag) (scrLoadLane .clu d a imm ty tag) s

/-! ## Stores (R406, R407) -/

/-- A bundle whose entries do not all fit in the warp's store queue waits as a whole (R108). -/
def queueFold (i : Instr) (need : Nat) (run : State → Out) (s : State) : Out :=
  match issueInstead i s with
  | some s' => .next s'
  | none =>
    if Config.storeQueueLen < s.curWarp.storeQ.length + need then .next (s.bundleWait (.queue need)) else run s

/-- An entry at the young end of a warp's store queue. -/
def State.enqueue (s : State) (n : Nat) (e : SqEntry) : State := s.modWarp n fun w => { w with storeQ := w.storeQ ++ [e] }

/-- A store whose address is known: queued, and folded where it is of a paired gang's memory (R244). -/
def State.issueStore (s : State) (i : Instr) (n : Nat) (e : Word) (dst : Dest) (bs : List Byte) : State × LaneOut :=
  let s := if (s.warp n).paired && !dst.isScratch then s.fold n (foldRecord i e bs (maskBytes bs.length)) else s
  (s.enqueue n (.store dst bs), .next)

/-- One thread of ST (R407). -/
def stLane (i : Instr) (d a : Src) (imm : BitVec 16) (ty : MTy) (l : Nat) (s : State) : State × LaneOut :=
  let n := s.cur.warp
  let x := s.cx n l
  let r := s.access n l accStore (x.ea a imm) (mBytes ty) 0xFFFF
  match r.2 with
  | .error o => (r.1, o)
  | .ok p => r.1.issueStore i n (x.ea a imm) (x.w.destOf p) (storeBytes x ty d)

/-- The store that would take a paired segment past its limit, with the entries it needs, closes it first; one that comes after a
segment's end waits for the next (R243). -/
def segStore (i : Instr) (need : Nat) (run : State → Out) (s : State) : Out :=
  let w := s.curWarp
  if w.paired then
    match issueInstead i s with
    | some s' => .next s'
    | none =>
      if guardTrue i s = [] then run s
      else if w.seg.closing then .next (s.bundleWait .compare)
      else if w.heldCount ≠ 0 ∧ s.holdLimit w < w.heldCount + need then .next ((s.closeSeg s.cur.warp 0).bundleWait .compare)
      else run s
  else run s

/-- ST (R407). -/
def execSt (k : Ctl) (d a : Src) (imm : BitVec 16) (ty : MTy) (s : State) : Out :=
  segStore (.st k d a imm ty) (guardTrue (.st k d a imm ty) s).length (queueFold (.st k d a imm ty) (guardTrue (.st k d a imm ty) s).length
    (memFold (.st k d a imm ty) (fun x => x.ea a imm) (mBytes ty) (stLane (.st k d a imm ty) d a imm ty))) s

/-- One thread of a scratch store (R95, R97, R98, R407). -/
def scrStoreLane (i : Instr) (sp : Space) (d a : Src) (imm : BitVec 16) (ty : MTy) (we : Bool) (l : Nat) (s : State) :
    State × LaneOut :=
  let n := s.cur.warp
  let x := s.cx n l
  match s.scrAddr x.w l sp (x.ea a imm) (mBytes ty) with
  | .error c => (s, .trap c)
  | .ok (id, off) =>
    if we then
      match s.drainAll n with
      | .error s1 => (s1, .wait .drain)
      | .ok s1 =>
        if s1.tagFull id off then (s1, .wait (.tag id (off / 16) false))
        else ((s1.scrWrite id off (storeBytes x ty d)).setTag id off true, .next)
    else s.issueStore i n (x.ea a imm) (.scratch id off) (storeBytes x ty d)

/-- A scratch store over its bundle. -/
def scrStore (i : Instr) (sp : Space) (d a : Src) (imm : BitVec 16) (ty : MTy) (we : Bool) (s : State) : Out :=
  queueFold i (if we then 0 else (guardTrue i s).length) (laneFold i (scrStoreLane i sp d a imm ty we)) s

/-- STL (R407). -/
def execStl (k : Ctl) (d a : Src) (imm : BitVec 16) (ty : MTy) (we : Bool) (s : State) : Out :=
  scrStore (.stl k d a imm ty we) .prv d a imm ty we s

/-- STS and STS.die (R407). -/
def execSts (k : Ctl) (d a : Src) (imm : BitVec 16) (ty : MTy) (we die : Bool) (s : State) : Out :=
  scrStore (.sts k d a imm ty we die) (dieSpace die) d a imm ty we s

/-- STC (R407). -/
def execStc (k : Ctl) (d a : Src) (imm : BitVec 16) (ty : MTy) (we : Bool) (s : State) : Out :=
  scrStore (.stc k d a imm ty we) .clu d a imm ty we s

/-- The access of an instruction that waits for a tag: its space, address, size and the tag it needs (R95). -/
def tagAccess (i : Instr) : Option (Space × Src × BitVec 16 × MTy × Bool) :=
  let load (sp : Space) (a : Src) (imm : BitVec 16) (ty : MTy) (tag : Tag) := if tagNeeds tag then some (sp, a, imm, ty, true) else none
  let store (sp : Space) (a : Src) (imm : BitVec 16) (ty : MTy) (we : Bool) := if we then some (sp, a, imm, ty, false) else none
  match i with
  | .ldl _ _ a imm ty tag => load .prv a imm ty tag
  | .lds _ _ a imm ty tag die => load (dieSpace die) a imm ty tag
  | .ldc _ _ a imm ty tag => load .clu a imm ty tag
  | .stl _ _ a imm ty we => store .prv a imm ty we
  | .sts _ _ a imm ty we die => store (dieSpace die) a imm ty we
  | .stc _ _ a imm ty we => store .clu a imm ty we
  | _ => none

/-- The tag a thread that has reached an instruction waits for (R97): its guard holds and the condition of its access does not. -/
def State.tagWait (s : State) (n l : Nat) (i : Instr) : Option Wait :=
  let x := s.cx n l
  match tagAccess i with
  | none => none
  | some (sp, a, imm, ty, full) =>
    match (if x.guard (ctlOf i) then s.scrAddr x.w l sp (x.ea a imm) (mBytes ty) else .error { cause := 0 }) with
    | .error _ => none
    | .ok (id, off) => if s.tagFull id off == full then none else some (.tag id (off / 16) full)

/-! ## SC (R122, R231, R396) -/

/-- Whether a thread's reservation covers a granule now: at most 2 µs have passed since its LR (R231). -/
def Thread.reserves (t : Thread) (granule now : Nat) : Bool :=
  match t.resv with
  | some r => r.granule == granule && now ≤ r.time + Config.reservationLife
  | none => false

/-- SC at a translated address, its L1 having given up the line: the write and the predicate, or neither; the reservation ends. What
an external endpoint finds there is a free value: a write of another endpoint may have ended the reservation (R231). -/
def State.scAt (s : State) (n l : Nat) (p : Xlat) (bs : List Byte) (qd : Pred) : State × LaneOut :=
  let x := s.cx n l
  let done (s : State) (b : Bool) : State × LaneOut :=
    (s.modThread n l fun t => { t with resv := none }.writeQ x (.var 300) qd b, .next)
  if (s.thread n l).reserves (s.granuleOf p) s.now then
    match regionOf p.pa with
    | .window => done (s.winWrite x.w.level.num p.pa bs) true
    | .fabric => done s.draw (Config.fabricHolds s.drawn)
    | _ => match s.pocWrite x.w.core p bs with
      | some s1 => done s1 true
      | none => (s.stallFor (some (frameOf p.pa)) (.thread n l), .wait (.window (frameOf p.pa)))
  else done s false

/-- One thread of SC: after the warp's earlier stores have drained and the issuing core's L1, and its twin's, has given up the line (R120,
R121), whose stores may end the reservation (R122); one that has lost it never reaches an external home (R231). -/
def scLane (d a : Src) (imm : BitVec 16) (ty : Ty) (qd : Pred) (l : Nat) (s : State) : State × LaneOut :=
  let n := s.cur.warp
  let x := s.cx n l
  let e := x.ea a imm
  let r := s.mapped n l accAtomic e (mBytes (.ty ty)) 0xFFFF
  match r.2 with
  | .error o => (r.1, o)
  | .ok p =>
    match r.1.drainAll n with
    | .error s1 => (s1, .wait .drain)
    | .ok s1 =>
      match s1.sendFrom (s1.issuers n) p with
      | .error q => (q.1.stallFor (some (frameOf p.pa)) (.thread n l), .wait q.2)
      | .ok s2 =>
        let g := if (s2.thread n l).reserves (s2.granuleOf p) s2.now then s2.gate n l accAtomic e p 0xFFFF else (s2, .ok p)
        match g.2 with
        | .error o => (g.1, o)
        | .ok p => g.1.scAt n l p (storeBytes x (.ty ty) d) qd

/-- The records that the guard-true threads of a bundle fold, in ascending lane (R244). -/
def State.foldLanes (s : State) (i : Instr) (a : LaneCx → Word) (data : LaneCx → List Byte) (n : Nat) : State :=
  (guardTrue i s).foldl (fun s l =>
    let x := s.cx s.cur.warp l
    s.fold s.cur.warp (foldRecord i (a x) (data x) (maskBytes n))) s

/-- SC (R396). -/
def execSc (k : Ctl) (d a : Src) (imm : BitVec 16) (ty : Ty) (qd : Pred) (s : State) : Out :=
  let i : Instr := .sc k d a imm ty qd
  segOnce i (fun s => s.foldLanes i (fun x => x.ea a imm) (fun x => storeBytes x (.ty ty) d) (mBytes (.ty ty)))
    (memFold i (fun x => x.ea a imm) (mBytes (.ty ty)) (scLane d a imm ty qd)) s

/-! ## PREF (R105, R381) -/

/-- The sectors of a prefetch's extent. -/
def prefSectors (ext : PrefExt) (pa : Nat) : List Nat :=
  match ext with
  | .sector => [pa / 64]
  | .line => (List.range 4).map (pa / 256 * 4 + ·)
  | .x4 => (List.range 16).map (pa / 256 * 4 + ·)

/-- The virtual bases of the sectors of a prefetch's extent. -/
def prefVas (ext : PrefExt) (va : Nat) : List Nat := (prefSectors ext va).map (· * 64)

/-- One sector filled, or skipped (R381). -/
def State.prefSector (s : State) (w : Warp) (l2 : Bool) (va : Nat) : State :=
  if canonical (BitVec.ofNat 64 va) = false then s
  else
    let r := s.translateFor w accLoad va
    match r.2 with
    | .error _ => r.1
    | .ok x =>
      let mem : Bool := (tierOf x.pa).isSome
      if x.ms || !mem then r.1
      else if w.core < 1024 then
        let pa := if x.repl then replicaPa w.core x.pa else x.pa
        if l2 then (r.1.l2Read (dieOf w.core) (some x) pa 64).1 else r.1.l1Fill w.core (some x) (pa / 64)
      else (r.1.l2Read 2 (some x) (if x.repl then x.pa % replicaDist else x.pa) 64).1

/-- One thread of PREF: it waits for nothing and raises nothing. -/
def prefLane (a : Src) (imm : BitVec 16) (ext : PrefExt) (l2 : Bool) (l : Nat) (s : State) : State × LaneOut :=
  let x := s.cx s.cur.warp l
  let e := x.ea a imm
  if canonical e = false then (s, .next)
  else ((prefVas ext (addr e)).foldl (fun s va => s.prefSector x.w l2 va) s, .next)

/-- PREF (R381). -/
def execPref (k : Ctl) (a : Src) (imm : BitVec 16) (ext : PrefExt) (l2 : Bool) (s : State) : Out :=
  laneFold (.pref k a imm ext l2) (prefLane a imm ext l2) s

/-! ## The tag instructions (R96, R340) -/

/-- One thread of a tag instruction: after every earlier scratch store of its warp, on the granule of its address. -/
def tagLane (sp : Space) (a : Src) (imm : BitVec 16) (f : ScrId → Nat → State → State) (l : Nat) (s : State) :
    State × LaneOut :=
  let n := s.cur.warp
  let x := s.cx n l
  match s.scrAddr x.w l sp (x.ea a imm) 1 with
  | .error c => (s, .trap c)
  | .ok (id, off) =>
    match s.drainAll n with
    | .error s1 => (s1, .wait .drain)
    | .ok s1 => (f id off s1, .next)

/-- FESET (R340). -/
def execFeset (k : Ctl) (a : Src) (imm : BitVec 16) (space : Space) (s : State) : Out :=
  laneFold (.feset k a imm space) (tagLane space a imm fun id off s => s.setTag id off true) s

/-- FECLR (R340). -/
def execFeclr (k : Ctl) (a : Src) (imm : BitVec 16) (space : Space) (s : State) : Out :=
  laneFold (.feclr k a imm space) (tagLane space a imm fun id off s => s.setTag id off false) s

/-- One thread of FETEST: its predicate says whether the granule is full. DESIGN CHOICE: it lands after 20 cycles, as a load of the
core's scratchpad does; the spec gives a predicate of FETEST no latency (log 15). -/
def fetestLane (q : Pred) (a : Src) (imm : BitVec 16) (space : Space) (l : Nat) (s : State) : State × LaneOut :=
  let n := s.cur.warp
  let x := s.cx n l
  tagLane space a imm (fun id off s => s.modThread n l fun t => t.writeQ x (.var 20) q (s.tagFull id off)) l s

/-- FETEST (R340). -/
def execFetest (k : Ctl) (q : Pred) (a : Src) (imm : BitVec 16) (space : Space) (s : State) : Out :=
  laneFold (.fetest k q a imm space) (fetestLane q a imm space) s

end Sys2Proof.Machine
end

