-- ==== Sys2Proof/Machine/Atomic.lean ====
section
/-! DEFINITION. Class 8: atomics at their homes and in scratch (R217, R299 to R303) and reductions combined at the core
(R218, R387). -/

namespace Sys2Proof.Machine

/-- The element updates of an atomic, in ascending order: the old values; none when one must wait. -/
def atomElems (f : State → Nat → Option (State × Nat)) : List Nat → State → Option (State × List Nat)
  | [], s => some (s, [])
  | i :: is, s =>
    match f s i with
    | none => none
    | some (s', v) => (atomElems f is s').map fun r => (r.1, v :: r.2)

/-- The elements of a type in a register. -/
def elemIdx (t : Ty) : List Nat := List.range (64 / tyWidth t)

/-- The bytes of one element. -/
def elemBytes (t : Ty) : Nat := tyWidth t / 8

/-- What an atomic does to one element (R301). -/
inductive ElemOp where
  | op (o : AtomOp) | cas
  deriving DecidableEq, Repr

/-- One element of an atomic at a translated address (R217); a device window takes it as a read and a write of its
registers. -/
def State.memElem (s : State) (w : Warp) (x : Xlat) (o : ElemOp) (t : Ty) (b c : Word) (i : Nat) : Option (State × Nat) :=
  let y : Xlat := { x with pa := x.pa + i * elemBytes t }
  if regionOf x.pa = .window then
    let r := s.winRead w.level.num y.pa (elemBytes t)
    let old := leNat r.2
    match o with
    | .op q => some (r.1.winWrite w.level.num y.pa (rmwBytes q t r.2 (elem b i t)), old)
    | .cas => some (if old = elem c i t then r.1.winWrite w.level.num y.pa (leBytes (elemBytes t) (elem b i t)) else r.1, old)
  else match o with
    | .op q => s.rmwMem w.core y q t (elem b i t)
    | .cas => s.casMem w.core y t (elem b i t) (elem c i t)

/-- The position, among the elements of the bundle's guard-true threads, of a thread's first element not applied (R303);
0xFFFF when the bundle has one element only. -/
def progressOf (gt : List Nat) (t : Ty) (l applied : Nat) : Nat :=
  if gt.length * (elemIdx t).length = 1 then 0xFFFF
  else (gt.filter fun u => u < l).length * (elemIdx t).length + applied

/-- The lowest lane below one that waits in this issue for its page, for a Switch or for the fabric: what comes after it in the order of
R302 waits with it. -/
def State.blocker (s : State) (l : Nat) : Option (Nat × Wait) :=
  (s.lanes.filter (· < l)).findSome? fun u => match (s.thread s.cur.warp u).wait with
    | .fault b => some (u, .fault b)
    | .fabric t a p r w k => some (u, .fabric t a p r w k)
    | .window f => some (u, .window f)
    | .stalled => some (u, .stalled)
    | _ => none

/-- The address that a blocking lane waits for. -/
def State.blockedVa (s : State) (n u b : Nat) : Nat :=
  ((s.fbuf b).waiters.findSome? fun x => match x with
    | .thread m v va _ _ _ _ _ _ => if m = n ∧ v = u then some va else none
    | _ => none).getD 0

/-- A lane waits behind a lower one (R303). -/
def State.waitBehind (s : State) (n l u : Nat) (w : Wait) : State × LaneOut :=
  match w with
  | .fault b =>
    (s.addWaiter b (.thread n l (s.blockedVa n u b) accAtomic.read accAtomic.write false true 0xFFFF true), .wait (.fault b))
  | w => (s, .wait w)

/-- Whether a floating type is excluded by the launch's deterministic reductions (R64). -/
def detStop (w : Warp) (t : Ty) : Bool := w.detFloat && (t == .f32 || t == .f64)

/-- The register an atomic leaves: the old values from its first element not applied before, in place. -/
def atomResult (t : Ty) (prev : Word) (applied : Nat) (olds : List Nat) : Word :=
  packWord t (((elemIdx t).take applied).map (fun i => elem prev i t) ++ olds)

/-- One thread of ATOM or CAS (R301 to R303). -/
def atomLane (gt : List Nat) (o : ElemOp) (d : Dst) (a b c : Src) (t : Ty) (l : Nat) (s : State) : State × LaneOut :=
  let n := s.cur.warp
  let x := s.cx n l
  if detStop x.w t then (s, .trap { cause := 1 })
  else match s.blocker l with
    | some (u, w) => s.waitBehind n l u w
    | none =>
      match s.drainAll n with
      | .error s1 => (s1, .wait .drain)
      | .ok s1 =>
        let r := s1.access n l accAtomic (x.src a) 8 (progressOf gt t l x.t.applied)
        match r.2 with
        | .error q => (r.1, q)
        | .ok p =>
          match (if regionOf p.pa = .window then r.1.winCause x.w.level.num p.pa 8 else none), r.1.sendFrom (r.1.issuers n) p with
          | some q, _ => (r.1, .trap q)
          | none, .error q => (q.1.stallFor (some (frameOf p.pa)) (.thread n l), .wait q.2)
          | none, .ok s2 =>
            if s2.poisoned (s2.homeAddr p.pa) && d != .zero then s2.consume n
            else match atomElems (fun s i => s.memElem x.w p o t (x.src b) (x.src c) i) ((elemIdx t).drop x.t.applied) s2 with
              | none => (s2.stallFor (some (frameOf p.pa)) (.thread n l), .wait (.window (frameOf p.pa)))
              | some q =>
                (q.1.modThread n l fun u =>
                u.writeD x (.var 300) d (atomResult t (u.dcur d) x.t.applied q.2), .next)

/-- ATOM or CAS over its bundle. -/
def atomRun (i : Instr) (o : ElemOp) (d : Dst) (a b c : Src) (t : Ty) (data : LaneCx → List Byte) (s : State) : Out :=
  segOnce i (fun s => s.foldLanes i (fun x => x.src a) data 8)
    (fun s => memFold i (fun x => x.src a) 8 (atomLane (guardTrue i s) o d a b c t) s) s

/-- ATOM (R301). -/
def execAtom (k : Ctl) (d : Dst) (a b : Src) (op : AtomOp) (ty : Ty) (s : State) : Out :=
  atomRun (.atom k d a b op ty) (.op op) d a b .zero ty (fun x => wordBytes (x.src b)) s

/-- CAS (R301). -/
def execCas (k : Ctl) (d : Dst) (a b x : Src) (ty : Ty) (s : State) : Out :=
  atomRun (.cas k d a b x ty) .cas d a b x ty (fun c => wordBytes (c.src b) ++ wordBytes (c.src x)) s

/-- One element of a scratch atomic (R302). -/
def State.scrElem (s : State) (id : ScrId) (off : Nat) (o : ElemOp) (t : Ty) (b c : Word) (i : Nat) : State × Nat :=
  let at_ := off + i * elemBytes t
  match o with
  | .op q => s.rmwScr id at_ q t (elem b i t)
  | .cas => s.casScr id at_ t (elem b i t) (elem c i t)

/-- One thread of ATOMS or CASS. -/
def atomsLane (o : ElemOp) (die : Bool) (d : Dst) (a b c : Src) (t : Ty) (l : Nat) (s : State) : State × LaneOut :=
  let n := s.cur.warp
  let x := s.cx n l
  if detStop x.w t then (s, .trap { cause := 1 })
  else match s.scrAddr x.w l (dieSpace die) (x.src a) 8 with
    | .error q => (s, .trap q)
    | .ok (id, off) =>
      match s.drainAll n with
      | .error s1 => (s1, .wait .drain)
      | .ok s1 =>
        if s1.scrBad id off 8 then s1.consume n else
        let r := (elemIdx t).foldl (fun acc i =>
          let q := acc.1.scrElem id off o t (x.src b) (x.src c) i
          (q.1, acc.2 ++ [q.2])) (s1, ([] : List Nat))
        (r.1.modThread n l fun u => u.writeD x (s1.scrLat x.w (dieSpace die) id) d (packWord t r.2), .next)

/-- ATOMS (R301). -/
def execAtoms (k : Ctl) (d : Dst) (a b : Src) (op : AtomOp) (die : Bool) (ty : Ty) (s : State) : Out :=
  laneFold (.atoms k d a b op die ty) (atomsLane (.op op) die d a b .zero ty) s

/-- CASS (R301). -/
def execCass (k : Ctl) (d : Dst) (a b x : Src) (die : Bool) (ty : Ty) (s : State) : Out :=
  laneFold (.cass k d a b x die ty) (atomsLane .cas die d a b x ty) s

/-! ## RED and REDS (R218, R387) -/

/-- An element combined with the group of the same address among the entries from a number on, or a new group. -/
def combine (from_ : Nat) (q : List SqEntry) (dst : Dest) (op : AtomOp) (t : Ty) (v : Nat) : List SqEntry :=
  let same (e : SqEntry) : Bool := match e with
    | .red d o u _ => d == dst && o == op && u == t
    | _ => false
  match (q.drop from_).findIdx? same with
  | some k => lmod q (from_ + k) fun e => match e with
    | .red d o u c => .red d o u (BitVec.ofNat 64 (atomElem op t c.toNat v))
    | e => e
  | none => q ++ [.red dst op t (BitVec.ofNat 64 v)]

/-- Where an element of a thread's reduction goes. -/
def Dest.plus (d : Dest) (n : Nat) : Dest :=
  match d with
  | .mem x => .mem { x with pa := x.pa + n }
  | .scratch sp off => .scratch sp (off + n)
  | .window level pa => .window level (pa + n)

/-- A thread's elements grouped, but for those applied before (R190), into the store queue from entry `from_` on. -/
def State.redElems (s : State) (n from_ applied : Nat) (dst : Dest) (op : AtomOp) (t : Ty) (v : Word) : State :=
  ((elemIdx t).drop applied).foldl (fun s i =>
    s.modWarp n fun w => { w with storeQ := combine from_ w.storeQ (dst.plus (i * elemBytes t)) op t (elem v i t) }) s

/-- One thread of RED. -/
def redLane (i : Instr) (gt : List Nat) (from_ : Nat) (a b : Src) (op : AtomOp) (t : Ty) (l : Nat) (s : State) :
    State × LaneOut :=
  let n := s.cur.warp
  let x := s.cx n l
  if detStop x.w t then (s, .trap { cause := 1 })
  else match s.blocker l with
    | some (u, w) => s.waitBehind n l u w
    | none =>
      let r := s.access n l accAtomic (x.src a) 8 (progressOf gt t l x.t.applied)
      match r.2 with
      | .error q => (r.1, q)
      | .ok p =>
        let s1 := if x.w.paired then r.1.fold n (foldRecord i (x.src a) (wordBytes (x.src b)) (maskBytes 8)) else r.1
        (s1.redElems n from_ x.t.applied (x.w.destOf p) op t (x.src b), .next)

/-- The entries a reduction may need: its elements at distinct addresses. -/
def redNeed (i : Instr) (a : Src) (t : Ty) (s : State) : Nat :=
  (((guardTrue i s).map fun l => (s.cx s.cur.warp l).src a).dedup).length * (elemIdx t).length

/-- RED (R387). -/
def execRed (k : Ctl) (a b : Src) (op : AtomOp) (ty : Ty) (s : State) : Out :=
  let i : Instr := .red k a b op ty
  segStore i (redNeed i a ty s) (queueFold i (redNeed i a ty s)
    (memFold i (fun x => x.src a) 8 (redLane i (guardTrue i s) s.curWarp.storeQ.length a b op ty))) s

/-- One thread of REDS. -/
def redsLane (from_ : Nat) (die : Bool) (a b : Src) (op : AtomOp) (t : Ty) (l : Nat) (s : State) : State × LaneOut :=
  let n := s.cur.warp
  let x := s.cx n l
  if detStop x.w t then (s, .trap { cause := 1 })
  else match s.scrAddr x.w l (dieSpace die) (x.src a) 8 with
    | .error q => (s, .trap q)
    | .ok (id, off) => (s.redElems n from_ 0 (.scratch id off) op t (x.src b), .next)

/-- REDS (R387). -/
def execReds (k : Ctl) (a b : Src) (op : AtomOp) (die : Bool) (ty : Ty) (s : State) : Out :=
  let i : Instr := .reds k a b op die ty
  queueFold i (redNeed i a ty s) (laneFold i (redsLane s.curWarp.storeQ.length die a b op ty)) s

end Sys2Proof.Machine
end

