-- ==== Sys2Proof/Machine/Float.lean ====
section
/-! DEFINITION. The floating instructions, class 3 (R329 to R332, R338, R344, R346 to R348). -/

namespace Sys2Proof.Machine

/-- The results of every sub-element of a type. -/
def fElems (t : Ty) (f : Nat → FpRes) : List FpRes := (List.range (tyCount t)).map f

/-- A one-operand or two-operand elementwise instruction (R330): its function, over flushed operands. -/
def fpBin (i : Instr) (lat : Lat) (ty : Ty) (rnd : Rnd) (d : Dst)
    (f : Fmt → RMode → Bool → FpVal → FpVal → FpRes) (a b : LaneCx → Word) (s : State) : Out :=
  laneMap i (fun x => fpFinish x lat ty d (fElems ty fun e =>
    f (fmtOf ty) (x.mode rnd) x.ftz (x.fval ty (a x) e) (x.fval ty (b x) e))) s

/-- FFMA (R330). -/
def fpFma (i : Instr) (ty : Ty) (rnd : Rnd) (d : Dst) (a b c : LaneCx → Word) (s : State) : Out :=
  laneMap i (fun x => fpFinish x (latF ty) ty d (fElems ty fun e =>
    fFma (fmtOf ty) (x.mode rnd) x.ftz (x.fval ty (a x) e) (x.fval ty (b x) e) (x.fval ty (c x) e))) s

/-- A one-operand instruction (R330, R337). -/
def fpUn (i : Instr) (lat : Lat) (ty : Ty) (rnd : Rnd) (d : Dst) (f : Fmt → RMode → Bool → FpVal → FpRes) (a : Src)
    (s : State) : Out :=
  fpBin i lat ty rnd d (fun m r z v _ => f m r z v) (fun x => x.src a) (fun _ => 0) s

/-- FMIN and FMAX (R344). -/
def fpMinMax (i : Instr) (isMax : Bool) (ty : Ty) (nan : Bool) (d : Dst) (a b : LaneCx → Word) (s : State) : Out :=
  fpBin i (latF ty) ty .fpctl d (fun m _ _ u v => fMinMax m isMax nan u v) a b s

/-- FSUB's exact value (R330). -/
def fSub (f : Fmt) (md : RMode) (ftz : Bool) (a b : FpVal) : FpRes := fAdd f md ftz a b.opp

/-- The latency of FDIV and of FSQRT (R329): planning figures. -/
def latDiv (t : Ty) : Lat := .var (if t = .f64 then 40 else 24)
/-- See `latDiv`. -/
def latSqrt (t : Ty) : Lat := .var (if t = .f64 then 36 else 20)

/-- FADD COMPACT (R330). -/
def execFaddCompact (st : Fin 8) (d a b : Fin 64) (s : State) : Out :=
  fpBin (.faddCompact st d a b) (latF .f32) .f32 .fpctl (g6 d) fAdd (fun x => x.g a.val) (fun x => x.g b.val) s
/-- FADD LONG (R330). -/
def execFaddLong (k : Ctl) (d : Dst) (a : Src) (b : OpB) (ty : Ty) (rnd : Rnd) (s : State) : Out :=
  fpBin (.faddLong k d a b ty rnd) (latF ty) ty rnd d fAdd (fun x => x.src a) (fun x => x.opB ty b) s
/-- FADD LITERAL (R330). -/
def execFaddLiteral (k : Ctl) (d : Dst) (a : Src) (lit : BitVec 32) (ty : Ty) (rnd : Rnd) (s : State) : Out :=
  fpBin (.faddLiteral k d a lit ty rnd) (latF ty) ty rnd d fAdd (fun x => x.src a) (fun _ => litWord ty lit) s
/-- FSUB COMPACT (R330). -/
def execFsubCompact (st : Fin 8) (d a b : Fin 64) (s : State) : Out :=
  fpBin (.fsubCompact st d a b) (latF .f32) .f32 .fpctl (g6 d) fSub (fun x => x.g a.val) (fun x => x.g b.val) s
/-- FSUB LONG (R330). -/
def execFsubLong (k : Ctl) (d : Dst) (a : Src) (b : OpB) (ty : Ty) (rnd : Rnd) (s : State) : Out :=
  fpBin (.fsubLong k d a b ty rnd) (latF ty) ty rnd d fSub (fun x => x.src a) (fun x => x.opB ty b) s
/-- FSUB LITERAL (R330). -/
def execFsubLiteral (k : Ctl) (d : Dst) (a : Src) (lit : BitVec 32) (ty : Ty) (rnd : Rnd) (s : State) : Out :=
  fpBin (.fsubLiteral k d a lit ty rnd) (latF ty) ty rnd d fSub (fun x => x.src a) (fun _ => litWord ty lit) s
/-- FMUL COMPACT (R330). -/
def execFmulCompact (st : Fin 8) (d a b : Fin 64) (s : State) : Out :=
  fpBin (.fmulCompact st d a b) (latF .f32) .f32 .fpctl (g6 d) fMul (fun x => x.g a.val) (fun x => x.g b.val) s
/-- FMUL LONG (R330). -/
def execFmulLong (k : Ctl) (d : Dst) (a : Src) (b : OpB) (ty : Ty) (rnd : Rnd) (s : State) : Out :=
  fpBin (.fmulLong k d a b ty rnd) (latF ty) ty rnd d fMul (fun x => x.src a) (fun x => x.opB ty b) s
/-- FMUL LITERAL (R330). -/
def execFmulLiteral (k : Ctl) (d : Dst) (a : Src) (lit : BitVec 32) (ty : Ty) (rnd : Rnd) (s : State) : Out :=
  fpBin (.fmulLiteral k d a lit ty rnd) (latF ty) ty rnd d fMul (fun x => x.src a) (fun _ => litWord ty lit) s
/-- FDIV COMPACT (R330). -/
def execFdivCompact (st : Fin 8) (d a b : Fin 64) (s : State) : Out :=
  fpBin (.fdivCompact st d a b) (latDiv .f32) .f32 .fpctl (g6 d) fDiv (fun x => x.g a.val) (fun x => x.g b.val) s
/-- FDIV LONG (R330). -/
def execFdivLong (k : Ctl) (d : Dst) (a : Src) (b : OpB) (ty : Ty) (rnd : Rnd) (s : State) : Out :=
  fpBin (.fdivLong k d a b ty rnd) (latDiv ty) ty rnd d fDiv (fun x => x.src a) (fun x => x.opB ty b) s
/-- FDIV LITERAL (R330). -/
def execFdivLiteral (k : Ctl) (d : Dst) (a : Src) (lit : BitVec 32) (ty : Ty) (rnd : Rnd) (s : State) : Out :=
  fpBin (.fdivLiteral k d a lit ty rnd) (latDiv ty) ty rnd d fDiv (fun x => x.src a) (fun _ => litWord ty lit) s
/-- FFMA LONG (R330). -/
def execFfmaLong (k : Ctl) (d : Dst) (a b c : Src) (ty : Ty) (rnd : Rnd) (s : State) : Out :=
  fpFma (.ffmaLong k d a b c ty rnd) ty rnd d (fun x => x.src a) (fun x => x.src b) (fun x => x.src c) s
/-- FFMA LITERAL (R330). -/
def execFfmaLiteral (k : Ctl) (d : Dst) (a : Src) (lit : BitVec 32) (c : Src) (ty : Ty) (rnd : Rnd) (s : State) : Out :=
  fpFma (.ffmaLiteral k d a lit c ty rnd) ty rnd d (fun x => x.src a) (fun _ => litWord ty lit) (fun x => x.src c) s
/-- FMIN COMPACT (R344). -/
def execFminCompact (st : Fin 8) (d a b : Fin 64) (s : State) : Out :=
  fpMinMax (.fminCompact st d a b) false .f32 false (g6 d) (fun x => x.g a.val) (fun x => x.g b.val) s
/-- FMIN LONG (R344). -/
def execFminLong (k : Ctl) (d : Dst) (a : Src) (b : OpB) (ty : Ty) (nan : Bool) (s : State) : Out :=
  fpMinMax (.fminLong k d a b ty nan) false ty nan d (fun x => x.src a) (fun x => x.opB ty b) s
/-- FMIN LITERAL (R344). -/
def execFminLiteral (k : Ctl) (d : Dst) (a : Src) (lit : BitVec 32) (ty : Ty) (nan : Bool) (s : State) : Out :=
  fpMinMax (.fminLiteral k d a lit ty nan) false ty nan d (fun x => x.src a) (fun _ => litWord ty lit) s
/-- FMAX COMPACT (R344). -/
def execFmaxCompact (st : Fin 8) (d a b : Fin 64) (s : State) : Out :=
  fpMinMax (.fmaxCompact st d a b) true .f32 false (g6 d) (fun x => x.g a.val) (fun x => x.g b.val) s
/-- FMAX LONG (R344). -/
def execFmaxLong (k : Ctl) (d : Dst) (a : Src) (b : OpB) (ty : Ty) (nan : Bool) (s : State) : Out :=
  fpMinMax (.fmaxLong k d a b ty nan) true ty nan d (fun x => x.src a) (fun x => x.opB ty b) s
/-- FMAX LITERAL (R344). -/
def execFmaxLiteral (k : Ctl) (d : Dst) (a : Src) (lit : BitVec 32) (ty : Ty) (nan : Bool) (s : State) : Out :=
  fpMinMax (.fmaxLiteral k d a lit ty nan) true ty nan d (fun x => x.src a) (fun _ => litWord ty lit) s
/-- FABS (R331). -/
def execFabs (k : Ctl) (d : Dst) (a : Src) (ty : Ty) (s : State) : Out :=
  regMap (.fabs k d a ty) (fun x => x.t.writeD x (latF ty) d (unaryAll ty (fun w p => p % 2 ^ (w - 1)) (x.src a))) s
/-- FNEG (R331). -/
def execFneg (k : Ctl) (d : Dst) (a : Src) (ty : Ty) (s : State) : Out :=
  regMap (.fneg k d a ty) (fun x => x.t.writeD x (latF ty) d (unaryAll ty (fun w p => p ^^^ 2 ^ (w - 1)) (x.src a))) s
/-- FSQRT (R330). -/
def execFsqrt (k : Ctl) (d : Dst) (a : Src) (ty : Ty) (rnd : Rnd) (s : State) : Out :=
  fpUn (.fsqrt k d a ty rnd) (latSqrt ty) ty rnd d fSqrt a s
/-- FRCP (R330). -/
def execFrcp (k : Ctl) (d : Dst) (a : Src) (ty : Ty) (rnd : Rnd) (s : State) : Out :=
  fpUn (.frcp k d a ty rnd) lat16 ty rnd d fRcp a s
/-- FRSQ (R330). -/
def execFrsq (k : Ctl) (d : Dst) (a : Src) (ty : Ty) (rnd : Rnd) (s : State) : Out :=
  fpUn (.frsq k d a ty rnd) lat16 ty rnd d fRsq a s
/-- The signed integer type FSCL reads B in (R347). -/
def scaleTy : Ty → Ty
  | .f32 => .s32
  | .f64 => .s64
  | _ => .s16

/-- FSCL (R347). -/
def fpScale (i : Instr) (ty : Ty) (rnd : Rnd) (d : Dst) (a : Src) (b : LaneCx → Word) (s : State) : Out :=
  laneMap i (fun x => fpFinish x (latF ty) ty d (fElems ty fun e =>
    fScl (fmtOf ty) (x.mode rnd) x.ftz (x.fval ty (x.src a) e) (elemInt (b x) e (scaleTy ty)))) s

/-- FSCL LONG (R347). -/
def execFsclLong (k : Ctl) (d : Dst) (a : Src) (b : OpB) (ty : Ty) (rnd : Rnd) (s : State) : Out :=
  fpScale (.fsclLong k d a b ty rnd) ty rnd d a (fun x => x.opB (scaleTy ty) b) s
/-- FSCL LITERAL (R347). -/
def execFsclLiteral (k : Ctl) (d : Dst) (a : Src) (lit : BitVec 32) (ty : Ty) (rnd : Rnd) (s : State) : Out :=
  fpScale (.fsclLiteral k d a lit ty rnd) ty rnd d a (fun _ => litWord (scaleTy ty) lit) s
/-- FRND (R346). -/
def execFrnd (k : Ctl) (d : Dst) (a : Src) (ty : Ty) (rnd : Rnd) (s : State) : Out :=
  laneMap (.frnd k d a ty rnd) (fun x => fpFinish x (latF ty) ty d (fElems ty fun e =>
    fRnd (fmtOf ty) (x.mode rnd) (elem (x.src a) e ty) (x.fval ty (x.src a) e))) s
/-- FDOT (R338): sub-element 1 of the destination receives 0. -/
def fpDot (i : Instr) (ty : Ty) (rnd : Rnd) (d : Dst) (a b c : LaneCx → Word) (s : State) : Out :=
  laneMap i (fun x =>
    let vals (v : Word) : List FpVal := (List.range (tyCount ty)).map fun e => x.fval ty v e
    fpFinish x lat8 .f32 d [fDot (x.mode rnd) x.ftz (vals (a x)) (vals (b x)) (x.fval .f32 (c x) 0), (0, 0)]) s

/-- FDOT LONG (R338). -/
def execFdotLong (k : Ctl) (d : Dst) (a b c : Src) (ty : Ty) (rnd : Rnd) (s : State) : Out :=
  fpDot (.fdotLong k d a b c ty rnd) ty rnd d (fun x => x.src a) (fun x => x.src b) (fun x => x.src c) s
/-- FDOT LITERAL (R338). -/
def execFdotLiteral (k : Ctl) (d : Dst) (a : Src) (lit : BitVec 32) (c : Src) (ty : Ty) (rnd : Rnd) (s : State) : Out :=
  fpDot (.fdotLiteral k d a lit c ty rnd) ty rnd d (fun x => x.src a) (fun _ => litWord ty lit) (fun x => x.src c) s
/-- FSUM (R348). -/
def execFsum (k : Ctl) (d : Dst) (a : Src) (ty : Ty) (rnd : Rnd) (s : State) : Out :=
  laneMap (.fsum k d a ty rnd) (fun x =>
    let val (e : Nat) : FpVal := if isNarrow ty then fpValue ty (elem (x.src a) e ty) else x.fval ty (x.src a) e
    fpFinish x lat8 .f32 d [fSum (x.mode rnd) x.ftz ((List.range (tyCount ty)).map val), (0, 0)]) s

end Sys2Proof.Machine
end

