-- ==== Sys2Proof/Machine/Cross.lean ====
section
/-! DEFINITION. The cross-lane instructions, class 5 (R60, R160, R161, R304, R326, R373, R401, R402, R411, R415). -/

namespace Sys2Proof.Machine

/-- The latency of BCST, VOTE, MATCH and ELECT, and with `base` 20 of WRED and WSCAN (R60); on a service core that of the first
row. -/
def latCross (s : State) (base : Nat) : Lat :=
  .cross (if s.curWarp.service then 6 else base + ((s.core s.curWarp.core).npass - 1))

/-- Every guard-true thread receives a value that depends on what the bundle held (R295). -/
def crossMap (i : Instr) (base : Nat) (d : Dst) (f : List Nat → LaneCx → Word) (s : State) : Out :=
  let gt := guardTrue i s
  regMap i (fun x => x.t.writeD x (latCross s base) d (f gt x)) s

/-- A value another lane of the bundle holds (R304): 0 when that lane is not guard-true. -/
def laneValue (s : State) (gt : List Nat) (a : Src) (l : Nat) : Word :=
  if gt.contains l then (s.cx s.cur.warp l).src a else 0

/-- The source lane of BCST: gB or the immediate (R304). -/
def bcstIdx (x : LaneCx) : OpB → Word
  | .reg r => x.src r
  | .imm v => sext16 v

/-- BCST (R304). -/
def execBcst (k : Ctl) (d : Dst) (a : Src) (b : OpB) (s : State) : Out :=
  crossMap (.bcst k d a b) 6 d (fun gt x => laneValue s gt a (wbits (bcstIdx x b) 0 5)) s
/-- The lanes of a list whose predicate is true. -/
def voteTrue (s : State) (gt : List Nat) (qs : Pred) (neg : Bool) : List Nat :=
  gt.filter fun l => (s.cx s.cur.warp l).q qs != neg

/-- The predicate of VOTE: m true threads of n (R411). -/
def voteTruth (mode : VoteMode) (m n : Nat) : Bool :=
  match mode with
  | .all => m == n
  | .any => m != 0
  | .same => m == 0 || m == n
  | .most => n < 2 * m

/-- VOTE (R411). -/
def execVote (k : Ctl) (d : Dst) (q qs : Pred) (neg : Bool) (mode : VoteMode) (s : State) : Out :=
  let gt := guardTrue (.vote k d q qs neg mode) s
  let ts := voteTrue s gt qs neg
  let lat := latCross s 6
  regMap (.vote k d q qs neg mode) (fun x =>
    (x.t.writeQ x lat q (voteTruth mode ts.length gt.length)).writeD x lat d
      (BitVec.ofNat 64 ((maskOf ts).toNat + 2 ^ 32 * ts.length))) s
/-- One combination of R160: an absent side passes the other on, without rounding or flags. -/
def redPair (op : Nat → Nat → FpRes) (a b : Option Nat) : Option Nat × Flags :=
  match a, b with
  | some x, some y => let r := op x y; (some r.1, r.2)
  | some x, none => (some x, 0)
  | none, b => (b, 0)

/-- One level of the tree of R160: lane i takes lane i + d. -/
def redLevel (op : Nat → Nat → FpRes) (d : Nat) (vs : List (Option Nat)) : List (Option Nat) × Flags :=
  let rs := ((vs.take d).zip ((vs.drop d).take d)).map fun p => redPair op p.1 p.2
  (rs.map (·.1), rs.foldl (fun f r => f ||| r.2) 0)

/-- The tree of R160 over 32 lanes. -/
def redTree (op : Nat → Nat → FpRes) (vs : List (Option Nat)) : Option Nat × Flags :=
  let r := [16, 8, 4, 2, 1].foldl (fun (acc : List (Option Nat) × Flags) d =>
    let r := redLevel op d acc.1
    (r.1, acc.2 ||| r.2)) (vs, 0)
  (r.1.headD none, r.2)

/-- One distance of the scan of R161, all lanes at once. -/
def scanLevel (op : Nat → Nat → FpRes) (d : Nat) (vs : List (Option Nat)) : List (Option Nat) × Flags :=
  let rs := ((List.replicate d (none : Option Nat) ++ vs).zip vs).map fun p => redPair op p.1 p.2
  (rs.map (·.1), rs.foldl (fun f r => f ||| r.2) 0)

/-- The scan of R161 over 32 lanes. -/
def scanTree (op : Nat → Nat → FpRes) (vs : List (Option Nat)) : List (Option Nat) × Flags :=
  [16, 8, 4, 2, 1].foldl (fun (acc : List (Option Nat) × Flags) d =>
    let r := scanLevel op d acc.1
    (r.1, acc.2 ||| r.2)) (vs, 0)

/-- The contribution of each of the 32 lanes at one sub-element: the guard-true lanes named in gB, gB read from the
lowest guard-true lane (R416). -/
def contributions (s : State) (gt : List Nat) (a b : Src) (t : Ty) (e : Nat) : List (Option Nat) :=
  let n := s.cur.warp
  let m := match gt with
    | l :: _ => (s.cx n l).src b
    | [] => 0
  (List.range 32).map fun l => if gt.contains l && wbit m l then some (elem ((s.cx n l).src a) e t) else none

/-- WRED (R416). -/
def execWred (k : Ctl) (d : Dst) (a b : Src) (ty : Ty) (op : RedOp) (rnd : Rnd) (s : State) : Out :=
  let gt := guardTrue (.wred k d a b ty op rnd) s
  let lat := latCross s 20
  laneMap (.wred k d a b ty op rnd) (fun x => fpFinish x lat ty d (fElems ty fun e =>
    let r := redTree (redElem op ty (x.mode rnd) x.ftz) (contributions s gt a b ty e)
    (r.1.getD (redIdentity op ty), r.2))) s
/-- WSCAN (R416). -/
def execWscan (k : Ctl) (d : Dst) (a b : Src) (ty : Ty) (op : RedOp) (excl : Bool) (rnd : Rnd) (s : State) : Out :=
  let gt := guardTrue (.wscan k d a b ty op excl rnd) s
  let lat := latCross s 20
  laneMap (.wscan k d a b ty op excl rnd) (fun x => fpFinish x lat ty d (fElems ty fun e =>
    let r := scanTree (redElem op ty (x.mode rnd) x.ftz) (contributions s gt a b ty e)
    let vs := if excl then none :: r.1 else r.1
    (((vs[x.lane]?).getD none).getD (redIdentity op ty), r.2))) s
/-- MATCH (R373). -/
def execMatchI (k : Ctl) (d : Dst) (a : Src) (ty : Ty) (s : State) : Out :=
  crossMap (.matchI k d a ty) 6 d (fun gt x =>
    let v (y : LaneCx) : Nat := if ty = .n32 then wbits (y.src a) 0 32 else (y.src a).toNat
    BitVec.ofNat 64 (maskOf (gt.filter fun u => v (s.cx s.cur.warp u) == v x)).toNat) s
/-- ELECT (R326). -/
def execElect (k : Ctl) (d : Dst) (q : Pred) (s : State) : Out :=
  let lo := (guardTrue (.elect k d q) s).headD 0
  let lat := latCross s 6
  regMap (.elect k d q) (fun x => (x.t.writeQ x lat q (x.lane == lo)).writeD x lat d (BitVec.ofNat 64 lo)) s
/-! ## SHFL (R401, R402) -/

/-- The oldest incomplete meeting at an address that names a lane. -/
def findMeeting (ms : List Meeting) (pc : Word) (l : Nat) : Option Nat :=
  ms.findIdx? fun m => m.pc == pc && mbit m.members l

/-- A guard-true arrival with its mask, the value that it offers, and the lane and sub-element that it reads (R402). -/
def Meeting.arrive (m : Meeting) (l : Nat) (mask : BitVec 32) (a b : Word) : Meeting :=
  { m with arrTrue := mset m.arrTrue l, arrFalse := mclr m.arrFalse l, masks := tset m.masks l mask
           offers := tset m.offers l a, reads := tset m.reads l b }

/-- The meetings after a guard-true arrival: the oldest that names the lane counts it, or a new one opens (R402). -/
def arriveTrue (ms : List Meeting) (pc : Word) (l : Nat) (mask : BitVec 32) (a b : Word) : List Meeting :=
  match findMeeting ms pc l with
  | some k => lmod ms k fun m => m.arrive l mask a b
  | none => ms ++ [({ pc := pc, members := mask } : Meeting).arrive l mask a b]

/-- The meetings after a guard-false arrival (R402). -/
def arriveFalse (ms : List Meeting) (pc : Word) (l : Nat) : List Meeting :=
  match findMeeting ms pc l with
  | some k => lmod ms k fun m => { m with arrFalse := mset m.arrFalse l }
  | none => ms

/-- The meeting in which a lane waits. -/
def meetingOf (ms : List Meeting) (pc : Word) (l : Nat) : Option Nat :=
  ms.findIdx? fun m => m.pc == pc && mbit m.arrTrue l

/-- Whether the lanes of a mask have all arrived or exited in a meeting, the guard-true ones with that mask (R402). -/
def meetingDone (m : Meeting) (exited : Nat → Bool) (mask : BitVec 32) : Bool :=
  (mlanes mask).all fun u =>
    exited u || (mbit m.arrFalse u && !mbit m.arrTrue u) || (mbit m.arrTrue u && tgetD m.masks u 0 == mask)

/-- Whether a thread waiting at a SHFL may complete; on a service core only M = 1 does. -/
def shflReady (w : Warp) (pc : Word) (l : Nat) : Bool :=
  match meetingOf w.shfl pc l with
  | none => false
  | some k => match w.shfl[k]? with
    | none => false
    | some m => (!w.service || tgetD m.masks l 0 == 1) && meetingDone m (fun u => ((w.threads[u]?).getD {}).exited) (tgetD m.masks l 0)

/-- What a lane of a meeting has kept since it arrived there, or, after a save, what its register holds (R402). -/
def keptAt (s : State) (ts : Tbl Word) (a : Src) (l : Nat) : Word := (tget ts l).getD ((s.cx s.cur.warp l).src a)

/-- What one waiting thread reads at completion (R402). -/
def shflRead (s : State) (m : Meeting) (a b : Src) (ty : Ty) (l : Nat) : Word × Bool :=
  let n := s.cur.warp
  let v := keptAt s m.reads b l
  let src := wbits v 4 5
  let e := wbits v 0 4
  let ok := mbit (tgetD m.masks l 0) src && mbit m.arrTrue src && !(s.thread n src).exited && e < tyCount ty
  if ok then (BitVec.ofNat 64 (elem (keptAt s m.offers a src) e ty), true) else (0, false)

/-- The latency of a SHFL: cross-pass when some destination's source runs in another pass; on a service core that of the first
row (R60). -/
def latShfl (s : State) (m : Meeting) (b : Src) (ls : List Nat) : Lat :=
  let c := s.core s.curWarp.core
  let cross := ls.any fun l => c.passOf (wbits (keptAt s m.reads b l) 4 5) != c.passOf l
  .cross (if cross && !s.curWarp.service then 6 + (c.npass - 1) else 6)

/-- The lanes of a meeting complete together (R402): each receives its value and its predicate and goes on; a meeting
in which nobody waits any more is over. -/
def shflComplete (i : Instr) (d : Dst) (a b : Src) (ty : Ty) (qd : Pred) (k : Nat) (m : Meeting) (mask : BitVec 32)
    (s : State) : State :=
  let n := s.cur.warp
  let ls := (mlanes mask).filter fun u => mbit m.arrTrue u && !(s.thread n u).exited
  let lat := latShfl s m b ls
  let step := (s.core s.curWarp.core).step
  let s' := ls.foldl (fun acc l =>
    let r := shflRead s m a b ty l
    let x := s.cx n l
    acc.modThread n l fun t =>
      ((t.writeQ x lat qd r.2).writeD x lat d r.1).issued step (ctlOf i).stall.val (nextPc i t)) s
  let left := (mlanes m.arrTrue).filter fun u => !ls.contains u && !(s.thread n u).exited
  s'.modWarp n fun w => { w with shfl := if left = [] then w.shfl.eraseIdx k
                                         else lset w.shfl k { m with arrTrue := maskOf left } }

/-- One lane of a SHFL issue: it arrives, unless it waits there already, and completes its meeting when it can. -/
def shflLane (i : Instr) (d : Dst) (a b c : Src) (ty : Ty) (qd : Pred) (pc : Word) (acc : State × List Raise) (l : Nat) :
    State × List Raise :=
  let s := acc.1
  let n := s.cur.warp
  let x := s.cx n l
  let step := (s.core s.curWarp.core).step
  if x.t.pc ≠ pc ∨ x.t.exited then acc
  else if x.guard (ctlOf i) = false then
    ((s.modWarp n fun w => { w with shfl := arriveFalse w.shfl pc l }).modThread n l
      fun t => t.issued step (ctlOf i).stall.val (nextPc i t), acc.2)
  else
    let mask := BitVec.ofNat 32 (wbits (x.src c) 0 32)
    if mbit mask l = false ∧ x.t.wait ≠ .shfl then (s, acc.2 ++ [{ lane := l, info := { cause := 1, addr := x.src c }, t := x.t }])
    else
      let s := if x.t.wait = .shfl then s
        else (s.modWarp n fun w => { w with shfl := arriveTrue w.shfl pc l mask (x.src a) (x.src b) }).modThread n l fun t => { t with wait := .shfl }
      let w := s.warp n
      match meetingOf w.shfl pc l with
      | none => (s, acc.2)
      | some k => match w.shfl[k]? with
        | none => (s, acc.2)
        | some m =>
          if shflReady w pc l then (shflComplete i d a b ty qd k m (tgetD m.masks l 0) s, acc.2) else (s, acc.2)

/-- SHFL (R401, R402). -/
def execShfl (k : Ctl) (d : Dst) (a b c : Src) (ty : Ty) (qd : Pred) (s : State) : Out :=
  match issueInstead (.shfl k d a b c ty qd) s with
  | some s' => .next s'
  | none =>
    let pc := s.curPc
    let r := s.lanes.foldl (shflLane (.shfl k d a b c ty qd) d a b c ty qd pc) (s, [])
    .next ((stallYield (.shfl k d a b c ty qd) s r.1).deliver s.cur.warp s.cur.slot pc r.2)

end Sys2Proof.Machine
end

