-- ==== Sys2Proof/Machine/Sync.lean ====
section
/-! DEFINITION. Class 9: fences (R111, R342), WAITC (R118), read sections and grace periods (R127, R128), deferred freeing
and allocation (R136, R139, R140). -/

namespace Sys2Proof.Machine

/-! ## FENCE (R342) -/

/-- Whether an order drains and writes back. -/
def orderRels : Order → Bool
  | .rel | .ar | .sc => true
  | _ => false

/-- Whether an order waits for loads and drops clean bytes. -/
def orderAcqs : Order → Bool
  | .acq | .ar | .sc => true
  | _ => false

/-- The waits and actions of an order at a scope for one thread, loads first (R342). -/
def fenceLane (o : Order) (sc : Scope) (l : Nat) (s : State) : State × LaneOut :=
  let n := s.cur.warp
  if orderAcqs o && !(s.thread n l).landed s.now then (s, .wait .landed)
  else match (if orderRels o then s.release n sc else .ok s) with
    | .error q => (q.1, .wait q.2)
    | .ok s1 => (if orderAcqs o then s1.acquire (s.warp n).core sc else s1, .next)

/-- A fence of die scope or wider ends a paired segment, also where it is guard-false (R243, R342). -/
def segFence (i : Instr) (sc : Scope) (run : State → Out) (s : State) : Out :=
  if s.curWarp.paired && decide (4 ≤ scopeNum sc) then
    match issueInstead i s with
    | some s' => .next s'
    | none => segEnd false id run s
  else run s

/-- FENCE (R341, R342). -/
def execFence (k : Ctl) (order : Order) (scope : Scope) (s : State) : Out :=
  segFence (.fence k order scope) scope (laneFold (.fence k order scope) (fenceLane order scope)) s

/-! ## WAITC (R116, R118) -/

/-- The class of an engine operation (R116). -/
def classOf : EngKind → EngClass
  | .copy | .copyz => .cp
  | .gather | .scatter => .gx
  | .coll => .cl
  | .put => .pt
  | _ => .bk

/-- One counter of six. -/
def OcCounters.get (c : OcCounters) : EngClass → Nat
  | .cp => c.cp
  | .gx => c.gx
  | .mx => c.mx
  | .cl => c.cl
  | .pt => c.pt
  | .bk => c.bk

/-- One counter of six raised. -/
def OcCounters.inc (c : OcCounters) : EngClass → OcCounters
  | .cp => { c with cp := c.cp + 1 }
  | .gx => { c with gx := c.gx + 1 }
  | .mx => { c with mx := c.mx + 1 }
  | .cl => { c with cl := c.cl + 1 }
  | .pt => { c with pt := c.pt + 1 }
  | .bk => { c with bk := c.bk + 1 }

/-- Whether an operation of a class that a warp has posted is outstanding, but for the n most recently posted (R118). -/
def State.outstanding (s : State) (w : Nat) (c : EngClass) (n : Nat) : Bool :=
  let bound := (s.warp w).posted.get c - n
  s.engOps.any (fun e => e.warp == w && classOf e.kind == c && decide (e.order < bound)) ||
    (c == .mx && s.engines.any fun p => p.2.table.any fun r => r.warp == w && decide (r.order < bound))

/-- WAITC (R118). -/
def execWaitc (k : Ctl) (cls : EngClass) (n : Fin 256) (s : State) : Out :=
  laneFold (.waitc k cls n) (fun _ s =>
    if s.outstanding s.cur.warp cls n.val then (s, .wait (.engines cls n.val)) else (s, .next)) s

/-! ## Read sections (R127) -/

/-- The grace number a warp's core has acknowledged for its tenant (R126, R130). -/
def State.coreSeq (s : State) (w : Warp) : Nat := (s.tenant w.tenant).acked w.core

/-- A thread that enters a read section (R127). -/
def Thread.enterSection (t : Thread) (seq : Nat) : Thread :=
  { t with rsStart := if t.rsDepth = 0 then seq else t.rsStart, rsDepth := t.rsDepth + 1 }

/-- RSB (R127). -/
def execRsb (k : Ctl) (s : State) : Out :=
  let seq := s.coreSeq s.curWarp
  laneMap (.rsb k) (fun x =>
    if x.t.rsDepth = 65535 then { t := x.t, out := .trap { cause := 0x0C } } else { t := x.t.enterSection seq }) s

/-- RSE (R127). -/
def execRse (k : Ctl) (s : State) : Out :=
  laneMap (.rse k) (fun x =>
    if x.t.rsDepth = 0 then { t := x.t, out := .trap { cause := 0x0C } }
    else { t := { x.t with rsDepth := x.t.rsDepth - 1 } }) s

/-! ## GPWAIT (R128) -/

/-- One thread of GPWAIT: the release and the advance once, then the wait, then the acquire. -/
def gpwaitLane (l : Nat) (s : State) : State × LaneOut :=
  let n := s.cur.warp
  let w := s.warp n
  let finish (s : State) (g : Nat) : State × LaneOut :=
    if g ≤ (s.tenant w.tenant).gpDone then (s.acquire w.core .pk, .next) else (s, .wait (.grace g))
  match (s.thread n l).graceG with
  | some g => finish s g
  | none =>
    if (s.thread n l).rsDepth ≠ 0 then (s, .trap { cause := 0x0C })
    else match s.release n .pk with
      | .error q => (q.1, .wait q.2)
      | .ok s1 =>
        let r := s1.advance w.tenant
        finish (r.1.modThread n l fun t => { t with graceG := some r.2 }) r.2

/-- GPWAIT (R353). -/
def execGpwait (k : Ctl) (s : State) : Out :=
  segOnce (.gpwait k) id (laneFold (.gpwait k) gpwaitLane) s

/-! ## Deferred freeing and allocation (R136, R139, R140) -/

/-- gB of ALLOC, DEFER and FREE: class in bits 4:0, pool in bits 11:8, all else 0 (R136). -/
def poolArgOk (b : Word) : Bool := wbits b 0 5 ≤ 16 && b &&& ~~~ 0xF1F#64 == 0

/-- A predicate result of a pool operation. -/
def State.answer (s : State) (n l : Nat) (q : Pred) (b : Bool) : State :=
  let x := s.cx n l
  s.modThread n l fun t => t.writeQ x (.var 300) q b

/-- A deferred free posted (R136). -/
def State.pushDefer (s : State) (t ptr k pool : Nat) : State :=
  s.modTenant t fun d => { d with deferQ := d.deferQ ++ [{ ptr := ptr, k := k, pool := pool, target := d.gpseq }] }

/-- Whether a post of (ptr, k) passes its check (R136): a failed one adds 1 to PERR. -/
def State.deferCheck (s : State) (t ptr k p : Nat) : State × Bool :=
  if (s.pool t p).serves = false then (s, false)
  else if (s.pool t p).names ptr k = false then (s.perr t p, false)
  else (s, true)

/-- One thread of DEFER (R136, R140). In a paired launch it is held, and posts after the compare into the room that it has taken (R134);
DESIGN CHOICE: its predicate says at once what its checks find now (log 47). -/
def deferLane (i : Instr) (q : Pred) (a b : Src) (wt : Bool) (l : Nat) (s : State) : State × LaneOut :=
  let n := s.cur.warp
  let x := s.cx n l
  let gb := x.src b
  let k := wbits gb 0 5
  let p := wbits gb 8 4
  let ptr := (x.src a).toNat
  if poolArgOk gb = false then (s, .trap { cause := 1, addr := gb })
  else if wt && x.t.rsDepth != 0 then (s, .trap { cause := 0x0C })
  else match s.release n .pk with
    | .error q => (q.1, .wait q.2)
    | .ok s1 =>
      let c := s1.deferCheck x.w.tenant ptr k p
      let folded := s1.fold n (foldRecord i (x.src a) (wordBytes gb) (maskBytes 8))
      let held := folded.hold n (.deferFree x.w.tenant (x.src a) k p c.2)
      let full := decide (Config.deferLen < if x.w.paired then held.deferTaken x.w.tenant else s1.deferTaken x.w.tenant + 1)
      let refused := (if x.w.paired then folded else s1).answer n l q false
      if c.2 && full then (if wt then s1.bounded n l (.deferRoom p) refused else (refused, .next))
      else if x.w.paired then (held.answer n l q c.2, .next)
      else if c.2 then ((c.1.pushDefer x.w.tenant ptr k p).answer n l q true, .next)
      else (c.1.answer n l q false, .next)

/-- DEFER and DEFER.wait (R323). -/
def execDefer (k : Ctl) (q : Pred) (a b : Src) (wt : Bool) (s : State) : Out :=
  let i : Instr := .defer k q a b wt
  segStore i (guardTrue i s).length (laneFold i (deferLane i q a b wt)) s

/-- One thread of ALLOC (R139, R140). -/
def allocLane (q : Pred) (d : Dst) (b : Src) (wt : Bool) (l : Nat) (s : State) : State × LaneOut :=
  let n := s.cur.warp
  let x := s.cx n l
  let gb := x.src b
  let p := wbits gb 8 4
  let give (s : State) (v : Nat) (ok : Bool) : State :=
    s.modThread n l fun t => (t.writeD x (.var 300) d (BitVec.ofNat 64 v)).writeQ x (.var 300) q ok
  if poolArgOk gb = false then (s, .trap { cause := 1, addr := gb })
  else if wt && x.t.rsDepth != 0 then (s, .trap { cause := 0x0C })
  else
    let exhausted := (s.pool x.w.tenant p).serves && ((s.pool x.w.tenant p).allocPlan (wbits gb 0 5)).isNone
    let r := s.poolAlloc (.thread n l) x.w.tenant p (wbits gb 0 5)
    match r.2 with
    | .wait => (r.1, .wait (.pool p))
    | .yes v => ((give r.1 v true).acquire x.w.core .pk, .next)
    | .lost => (give r.1 0 false, .next)
    | .no => if wt && exhausted then r.1.bounded n l (.room p (wbits gb 0 5)) (give r.1 0 false) else (give r.1 0 false, .next)

/-- ALLOC and ALLOC.wait (R297). -/
def execAlloc (k : Ctl) (q : Pred) (d : Dst) (b : Src) (wt : Bool) (s : State) : Out :=
  segOnce (.alloc k q d b wt) id (laneFold (.alloc k q d b wt) (allocLane q d b wt)) s

/-- Whether a gang holds back a FREE of a block that will be served. -/
def State.heldFree (s : State) (g t p ptr : Nat) : Bool :=
  (s.gangHeld g).any fun h => match h.2 with
    | .free u b _ q ok => ok && u == t && q == p && b.toNat == ptr
    | _ => false

/-- A FREE of a paired launch in its turn at Stuffsack (R134, R139): it is folded and held, with what the return finds now; one whose
translation is abandoned has been answered and is not held. -/
def State.freeHeld (s : State) (i : Instr) (n l : Nat) (q : Pred) (a gb : Word) (t p k : Nat) : State × LaneOut :=
  let r := s.poolServe (.thread n l) t p fun s => s.freeLook t p a.toNat k
  let folded := r.1.fold n (foldRecord i a (wordBytes gb) (maskBytes 8))
  let done (ok : Bool) : State × LaneOut := ((folded.hold n (.free t a k p ok)).answer n l q ok, .next)
  match r.2 with
  | .wait => (r.1, .wait (.pool p))
  | .lost => (folded.answer n l q false, .next)
  | .no => done false
  | .yes _ => done (!r.1.heldFree (r.1.warp n).gang t p a.toNat)

/-- One thread of FREE (R139, R345). In a paired launch it is held, and returns after the compare (R134); DESIGN CHOICE: its predicate
says at once what the return finds now (log 47). -/
def freeLane (i : Instr) (q : Pred) (a b : Src) (l : Nat) (s : State) : State × LaneOut :=
  let n := s.cur.warp
  let x := s.cx n l
  let gb := x.src b
  let k := wbits gb 0 5
  let p := wbits gb 8 4
  if poolArgOk gb = false then (s, .trap { cause := 1, addr := gb })
  else match s.release n .pk with
    | .error q => (q.1, .wait q.2)
    | .ok s1 =>
      if x.w.paired then s1.freeHeld i n l q (x.src a) gb x.w.tenant p k
      else
        let r := s1.poolFree (.thread n l) x.w.tenant p (x.src a).toNat k
        match r.2 with
        | .wait => (r.1, .wait (.pool p))
        | .yes _ => (r.1.answer n l q true, .next)
        | _ => (r.1.answer n l q false, .next)

/-- FREE (R345). -/
def execFree (k : Ctl) (q : Pred) (a b : Src) (s : State) : Out :=
  let i : Instr := .free k q a b
  segStore i (guardTrue i s).length (laneFold i (freeLane i q a b)) s

end Sys2Proof.Machine
end

