-- ==== Sys2Proof/Machine/Engines.lean ====
section
/-! DEFINITION. Class 10: the posting of engine operations (R37, R116, R117, R220) and what the engines do with memory and
scratch: CPY, CPYZ, GATH, SCAT, BKOP, ROWCP, ROWZ, CLEAN, INVAL, FLUSH (R221 to R224, R313 to R319, R343, R349 to R352,
R363, R364, R394, R397, R398). -/

namespace Sys2Proof.Machine

/-! ## Posting (R220) -/

/-- Whether an operation of a paired launch runs once, after the compare of its segment (R220, R319, R352): all but copies
and gathers into scratch. -/
def runsOnce (k : EngKind) (d : List Byte) : Bool :=
  match k with
  | .copy | .copyz => fld d 0x14 1 == 0
  | .gather => fld d 0x1E 1 == 0
  | _ => true

/-- The 64 descriptor bytes at a translated address, past the L1, whose dirty bytes of them are written back first (R117,
R220); an error while that write-back must wait. A twin's held stores show through. -/
def State.readDesc (s : State) (n : Nat) (x : Xlat) : Except State (State × List Byte) :=
  let w := s.warp n
  let here (a : Nat) : Bool := decide (x.pa ≤ a ∧ a < x.pa + 64)
  if regionOf x.pa = .window then .ok (s.winRead w.level.num x.pa 64)
  else
    let s := if w.core < 1024 then s.l1Push w.core here else s
    if w.core < 1024 ∧ s.stalls w.core here then .error s
    else
      let r := s.pocRead w.core x 64
      let patch := if w.paired then s.heldPatch w.gang else []
      .ok (r.1, (placed x.pa r.2).map fun p => (tget patch p.1).getD p.2)

/-- An operation posted: its counter gains 1 (R116); in a paired launch one that runs once is held back and folds its record
(R244). -/
def State.pushEop (s : State) (i : Instr) (n : Nat) (k : EngKind) (e : Word) (d : List Byte) : State :=
  let w := s.warp n
  let c := classOf k
  let hold := w.paired && runsOnce k d
  let op : EngOp :=
    { id := s.fresh, kind := k, warp := n, order := w.posted.get c, tenant := w.tenant, level := w.level, core := w.core,
      service := w.service, gang := w.gang, descVa := e.toNat, desc := d, posted := s.now, held := hold }
  let s := ({ s with engOps := s.engOps ++ [op] }.bump).modWarp n fun w => { w with oc := w.oc.inc c, posted := w.posted.inc c }
  if hold then (s.fold n (foldRecord i e (d.take 16) 0xFFFF)).hold n (.engine op.id) else s

/-- The post as the lowest guard-true lane makes it (R38, R220): the form of E, the counter, the translation, the drain of
R117, the read. -/
def State.postAt (s : State) (i : Instr) (k : EngKind) (a : Src) (imm : BitVec 16) (l : Nat) : State × LaneOut :=
  let n := s.cur.warp
  let e := (s.cx n l).ea a imm
  if e.toNat % 64 = 0 ∧ canonical e ∧ (s.warp n).oc.get (classOf k) = 255 then (s, .wait (.ocFull (classOf k)))
  else
    let r := s.access n l accLoad e 64 0xFFFF
    match r.2 with
    | .error o => (r.1, o)
    | .ok x =>
      match r.1.drainAll n with
      | .error s1 => (s1, .wait .drain)
      | .ok s1 => match s1.readDesc n x with
        | .error s2 => (s2, .wait .stalled)
        | .ok q => (q.1.pushEop i n k e q.2, .next)

/-- Every thread of the bundle goes on to the next instruction. -/
def State.advanceAll (s : State) (i : Instr) : State :=
  let step := (s.core s.curWarp.core).step
  s.lanes.foldl (fun s l => s.modThread s.cur.warp l fun t => t.issued step (ctlOf i).stall.val (nextPc i t)) s

/-- A WARP-WIDE INSTRUCTION (R37, R38): guard-false in every thread it only advances; else it acts once, for the lowest
guard-true lane, and a wait or a cause is that lane's. -/
def warpRun (i : Instr) (f : Nat → State → State × LaneOut) (s : State) : Out :=
  match issueInstead i s with
  | some s' => .next s'
  | none =>
    match guardTrue i s with
    | [] => .next (stallYield i s (s.advanceAll i))
    | l :: _ =>
      let r := f l s
      .next (match r.2 with
        | .trap c => r.1.deliver s.cur.warp s.cur.slot s.curPc [{ lane := l, info := c, t := r.1.thread s.cur.warp l }]
        | .wait w => r.1.modThread s.cur.warp l fun t => { t with wait := w }
        | .off => r.1
        | _ => stallYield i s (r.1.advanceAll i))

/-- A post of class 10: a monitor-level address must lie in a range of R183; a paired warp whose segment is closing waits for
its compare. -/
def postOp (i : Instr) (k : EngKind) (a : Src) (imm : BitVec 16) (s : State) : Out :=
  match rangeStop i (fun x => x.ea a imm) 64 s with
  | some x => .fault x
  | none =>
    if s.curWarp.paired && s.curWarp.seg.closing && guardTrue i s != [] && (issueInstead i s).isNone then .next (s.bundleWait .compare)
    else warpRun i (fun l s => s.postAt i k a imm l) s

/-- CPY (R317). -/
def execCpy (k : Ctl) (a : Src) (imm : BitVec 16) (s : State) : Out := postOp (.cpy k a imm) .copy a imm s
/-- CPYZ (R317). -/
def execCpyz (k : Ctl) (a : Src) (imm : BitVec 16) (s : State) : Out := postOp (.cpyz k a imm) .copyz a imm s
/-- GATH (R349). -/
def execGath (k : Ctl) (a : Src) (imm : BitVec 16) (s : State) : Out := postOp (.gath k a imm) .gather a imm s
/-- SCAT (R397). -/
def execScat (k : Ctl) (a : Src) (imm : BitVec 16) (s : State) : Out := postOp (.scat k a imm) .scatter a imm s
/-- PUT (R383). -/
def execPut (k : Ctl) (a : Src) (imm : BitVec 16) (s : State) : Out := postOp (.put k a imm) .put a imm s
/-- COLL (R316). -/
def execColl (k : Ctl) (a : Src) (imm : BitVec 16) (s : State) : Out := postOp (.coll k a imm) .coll a imm s
/-- BKOP (R307). -/
def execBkop (k : Ctl) (a : Src) (imm : BitVec 16) (op : BkArith) (ty : Ty) (s : State) : Out :=
  postOp (.bkop k a imm op ty) (.bkop op ty) a imm s
/-- ROWCP (R394). -/
def execRowcp (k : Ctl) (a : Src) (imm : BitVec 16) (s : State) : Out := postOp (.rowcp k a imm) .rowcp a imm s
/-- ROWZ (R394). -/
def execRowz (k : Ctl) (a : Src) (imm : BitVec 16) (s : State) : Out := postOp (.rowz k a imm) .rowz a imm s
/-- CLEAN (R313). -/
def execClean (k : Ctl) (a : Src) (imm : BitVec 16) (sc : Scope) (s : State) : Out := postOp (.clean k a imm sc) (.clean sc) a imm s
/-- INVAL (R363). -/
def execInval (k : Ctl) (a : Src) (imm : BitVec 16) (sc : Scope) (s : State) : Out := postOp (.inval k a imm sc) (.inval sc) a imm s
/-- FLUSH (R343). -/
def execFlush (k : Ctl) (a : Src) (imm : BitVec 16) (sc : Scope) (s : State) : Out := postOp (.flush k a imm sc) (.flush sc) a imm s

/-! ## Engine accesses (R117, R187, R190) -/

/-- Who an engine acts for: the posting warp and its core, tenant and level, and how its accesses, at an address and to write or not,
wait behind faults. `seen` is the gang whose held stores its reads observe (R109, R117): that of a twin's own operation. -/
structure Agent where
  warp : Nat
  core : Nat
  tenant : Nat
  level : Level
  seen : Option Nat
  who : Nat → Bool → Waiter

/-- How a piece of an engine's work comes out: it waits and is tried again, or it ends with a code; `gone` when its gang has
been killed meanwhile. -/
inductive EngEnd where
  | wait | code (c : Nat) | gone
  deriving DecidableEq, Repr

/-- A status code that no rule states. -/
def State.openCode (s : State) : State × EngEnd := (s.draw, .code (Config.freeByte s.drawn).toNat)

/-- An engine's translation (R187, R190): with the poster's privilege, its faults in the poster's cluster's buffer or the
device fault buffer. A page the package does not own gives code 3; where only the place of a page is asked for, its home is not reached. -/
def State.engXlat (s : State) (g : Agent) (acc : Acc) (va : Nat) : State × Except EngEnd Xlat :=
  let b := clusterOf g.core
  let fail (s : State) (stage2 : Bool) (kind level ipa : Nat) : State × Except EngEnd Xlat :=
    ((s.recordFault b g.tenant acc (if g.core < 1024 then 2 ^ (g.core % 4) else 0) va stage2 kind level ipa 0xFFFF).addWaiter b
      (g.who va acc.write), .error .wait)
  if g.level = .monitor then
    if acc.place then (s, .ok (physXlat (s.nameOf va)))
    else if regionOf va = .none then (s.openCode.1, .error s.openCode.2)
    else match s.translatePhys acc va with
      | .ok x => (s, .ok x)
      | .error _ => (s, .error (.code 3))
  else
    let r := s.translate b g.tenant (g.level == .user) acc va
    match r.2 with
    | .ok x =>
      let q := r.1.fabricGate x.pa
      if acc.place then (r.1, .ok x)
      else if r.1.sleeping x.pa then (r.1.wake, .error .wait)
      else match q.2 with
      | none => (q.1, .ok x)
      | some k => fail q.1 true k 4 (x.ipa / 4096 * 4096)
    | .error (.cause 0x0D) => (r.1, .error (.code 3))
    | .error (.cause _) => (r.1.openCode.1, .error r.1.openCode.2)
    | .error (.fault stage2 kind level ipa) => fail r.1 stage2 kind level ipa

/-- Pieces of virtual memory, each within a page, with their translations. -/
def State.engXlats (s : State) (g : Agent) (acc : Acc) (cs : List (Nat × Nat)) : State × Except EngEnd (List (Xlat × Nat)) :=
  cs.foldl (fun st c => match st.2 with
    | .error x => (st.1, .error x)
    | .ok xs =>
      let r := st.1.engXlat g acc c.1
      match r.2 with
      | .error x => (r.1, .error x)
      | .ok x => (r.1, .ok (xs ++ [(x, c.2)]))) (s, .ok [])

/-- A range of virtual addresses cut at 256-byte lines. -/
def cuts (va n : Nat) : List (Nat × Nat) :=
  ((List.range ((va + n + 255) / 256 - va / 256)).map fun i =>
    let lo := max va ((va / 256 + i) * 256)
    (lo, min (va + n) ((va / 256 + i + 1) * 256) - lo))

/-- A range that neither wraps nor reaches a non-canonical address (R221). -/
def rangeOk (va n : Nat) : Bool :=
  va + n ≤ 2 ^ 64 && canonical (BitVec.ofNat 64 va) && canonical (BitVec.ofNat 64 (va + n - 1))

/-- The aligned dwords of some bytes at an address. -/
def dwordsOf (pa : Nat) (bs : List Byte) : List (Nat × List Byte) :=
  (((List.range (bs.length / 8 + 1)).map fun i => (pa + 7) / 8 * 8 + 8 * i).filter fun a => a + 8 ≤ pa + bs.length).map fun a =>
    (a, (bs.drop (a - pa)).take 8)

/-- Whether some byte comes from a poisoned line. -/
def State.anyPoison (s : State) (pa n : Nat) : Bool := (addrs pa n).any fun a => s.poisoned (s.homeAddr a)

/-- A piece read coherently (R117): the core's dirty L1 bytes of it are written back first, and a twin's held stores show through; it
counts at its home. None while a write-back must wait. -/
def State.engLoad (s : State) (g : Agent) (x : Xlat) (n : Nat) : Option (State × List Byte × Bool) :=
  if regionOf x.pa = .window then
    let r := s.winRead g.level.num x.pa n
    some (r.1, r.2, false)
  else
    (if g.core < 1024 then s.l1WriteBack g.core (fun a => x.pa ≤ a && a < x.pa + n) else some s).map fun s =>
      let r := s.devLoad x n
      let patch := match g.seen with
        | some k => s.heldPatch k
        | none => []
      (r.1, (placed x.pa r.2).map fun p => (tget patch p.1).getD p.2, s.anyPoison x.pa n)

/-- Pieces read one after another. -/
def State.engReads (s : State) (g : Agent) (xs : List (Xlat × Nat)) : Option (State × List Byte × Bool) :=
  xs.foldl (fun acc x => acc.bind fun st =>
    (st.1.engLoad g x.1 x.2).map fun r => (r.1, st.2.1 ++ r.2.1, st.2.2 || r.2.2)) (some (s, [], false))

/-- Bytes of memory that came from a poisoned source are bad wherever they stand. -/
def State.spread (s : State) (bad : Bool) (pa n : Nat) : State :=
  if bad then { s with poison := (addrs pa n).foldl (fun t a => insNat a t) s.poison } else s

/-- The L1s of some cores give up the line of an access; none while a write-back must wait. -/
def State.giveUp (s : State) (cs : List Nat) (x : Xlat) : Option State :=
  tryAll (fun s c => (s.l1Release c x.pa).map fun s => s.replRelease c x) s cs

/-- A piece written as stores are (R318): the posting core's L1 gives up the line first (R117). -/
def State.engStore (s : State) (g : Agent) (x : Xlat) (bs : List Byte) (bad : Bool) : Option State :=
  if regionOf x.pa = .window then some ((dwordsOf x.pa bs).foldl (fun s d => s.winWrite g.level.num d.1 d.2) s)
  else
    (s.giveUp (s.issuers g.warp) x).bind fun s =>
      (s.devStore x bs).map fun s => s.spread bad (s.homeAddr x.pa) bs.length

/-- Pieces written one after another. -/
def State.engStores (s : State) (g : Agent) (xs : List (Xlat × Nat)) (bs : List Byte) (bad : Bool) : Option State :=
  (xs.foldl (fun (acc : Option State × List Byte) x =>
    (acc.1.bind fun s => s.engStore g x.1 (acc.2.take x.2) bad, acc.2.drop x.2)) (some s, bs)).1

/-- The agent of a posted operation. -/
def EngOp.agent (e : EngOp) : Agent :=
  { warp := e.warp, core := e.core, tenant := e.tenant, level := e.level, who := .eop e.id
    seen := if runsOnce e.kind e.desc then none else some e.gang }

/-! ## Completion (R116, R221) -/

/-- The operation of a number, while it may run: not held back by a paired segment, not waiting behind a fault. -/
def State.eopReady (s : State) (id : Nat) : Option EngOp := s.engOps.find? fun e => e.id = id ∧ e.held = false ∧ e.faulted = false

/-- An operation leaves; its counter loses 1 (R116), in Bivouac too when the warp is swapped out (R83). -/
def State.dropEop (s : State) (e : EngOp) : State :=
  ({ s.touchIdle with engOps := s.engOps.filter fun x => x.id ≠ e.id }.modWarp e.warp fun w =>
    { w with oc := w.oc.dec e.kind }).bivCounters e.warp

/-- The same operation as the twin of the poster's warp posted it. -/
def State.twinEop (s : State) (e : EngOp) : Option EngOp :=
  match s.twinWarp e.warp with
  | none => none
  | some m => s.engOps.find? fun x => x.warp = m ∧ classOf x.kind = classOf e.kind ∧ x.order = e.order

/-- An operation has completed: one that ran once in a paired launch counts down in both twins (R220). -/
def State.retireEop (s : State) (e : EngOp) : State :=
  match (if (s.warp e.warp).paired && runsOnce e.kind e.desc then s.twinEop e else none) with
  | some t => (s.dropEop e).dropEop t
  | none => s.dropEop e

/-- An operation waits: behind a fault exactly while it is listed there, else perhaps for a Switch (R200). -/
def State.noteFault (s : State) (id : Nat) : State :=
  let listed := s.fbufs.any fun b => b.2.waiters.any fun x => match x with
    | .eop i _ _ => i == id
    | _ => false
  let s := s.modEop id fun e => { e with faulted := listed }
  if listed then s else s.stallFor none (.engine id)

/-- A device write for an operation: the L1s of the cores that posted it give up the line (R117). -/
def State.devWriteFor (s : State) (e : EngOp) (va : Nat) (bs : List Byte) (who : Waiter) : State × Bool :=
  s.devWriteBy (fun s x => if regionOf x.pa = .window then some s else s.giveUp (s.issuers e.warp) x) e.tenant va bs who

/-- The status write of an operation posted at monitor level, whose addresses are physical (R419). -/
def State.physStatus (s : State) (e : EngOp) (va : Nat) (bs : List Byte) : State × Bool :=
  match regionOf va with
  | .window => (s.winWrite 3 va bs, true)
  | .none => (s.devDrop e.tenant va 221, true)
  | _ =>
    if s.ownsExcl va = false then (s.devDrop e.tenant va 221, true)
    else match (s.giveUp (s.issuers e.warp) (physXlat va)).bind fun s => s.devStore (physXlat va) bs with
      | some s => (s, true)
      | none => (s, false)

/-- The status dword at E + 0x38, through the poster's tenant's stages (R73, R221), then the counter. It is one of the
operation's writes, so the posting core's L1 gives up its line (R117, R118). -/
def State.eopStatus (s : State) (e : EngOp) (code : Nat) : State :=
  let va := e.descVa + 0x38
  if e.abandoned then (s.devDrop e.tenant va 221).retireEop e
  else
    let r := if e.level = .monitor then s.physStatus e va (leBytes 8 code)
      else s.devWriteFor e va (leBytes 8 code) (.eop e.id va true)
    if r.2 then r.1.retireEop e else r.1.noteFault e.id

/-- An operation has done its work and has a status code. -/
def State.eopEnd (s : State) (e : EngOp) (code : Nat) : State :=
  (s.modEop e.id fun x => { x with code := some code, stage := 1, abandoned := false, sent := true }).eopStatus
    { e with abandoned := false } code

/-- Where a descriptor counts what it moves, by offset and size, with how many such units a 256-byte line of the destination holds. -/
def EngOp.measure (e : EngOp) : Nat × Nat × Nat :=
  match e.kind with
  | .copy | .copyz => (0x10, 4, 256)
  | .gather | .scatter => (0x18, 4, 256 / 2 ^ fld e.desc 0x1C 1)
  | .bkop _ t => (0x20, 4, 256 / (tyWidth t / 8))
  | .rowcp | .rowz => (0x20, 4, 256)
  | _ => (0x08, 8, 256)

/-- An operation cut after some 256-byte lines (R247). -/
def EngOp.cut (e : EngOp) (lines : Nat) : EngOp :=
  let m := e.measure
  { e with desc := splice e.desc m.1 (leBytes m.2.1 (min (fld e.desc m.1 m.2.1) (lines * m.2.2))) }

/-- An operation of a killed gang that was in progress stops at a 256-byte boundary (R247): what it has written by then stands; it writes
no status, and its counter loses 1. One whose descriptor is malformed has written nothing. -/
def State.stopEop (s : State) (e : EngOp) (lines : Nat) (work : State → EngOp → State × EngEnd) : State :=
  match (work s e).2, work s (e.cut lines) with
  | .code 0, (t, .code 0) => t.retireEop e
  | _, _ => s.retireEop e

/-- THE COMPLETION of an operation of some kinds: its work unless a translation was abandoned, then its status. -/
def State.runEop (s : State) (id : Nat) (p : EngKind → Bool) (work : State → EngOp → State × EngEnd) : State :=
  match s.eopReady id with
  | none => s
  | some e =>
    if p e.kind = false then s
    else match e.stop with
    | some k => s.stopEop e k work
    | none =>
    if e.stage = 1 then s.eopStatus e (e.code.getD 0)
    else if e.abandoned then s.eopEnd e 2
    else
      let r := work s e
      match r.2 with
      | .wait => r.1.noteFault id
      | .code c => r.1.eopEnd e c
      | .gone => r.1

/-- A poisoned source read into scratch (R246): the gang is killed, or a service thread takes cause 0x10. -/
def State.engConsume (s : State) (e : EngOp) : State :=
  if e.service then
    let t := s.thread e.warp 0
    s.deliver e.warp 1 t.pc [{ lane := 0, info := { cause := 0x10 }, t := t }]
  else s.killGang e.gang 0x10

/-! ## CPY, CPYZ, GATH, SCAT (R317 to R319, R350 to R352, R397, R398) -/

/-- A source or destination: pieces of memory, a range of scratch, or zero bytes. -/
inductive Span where
  | mem (cs : List (Nat × Nat)) | scr (id : ScrId) (off : Nat) | zeros
  deriving DecidableEq, Repr

/-- A scratch range of an engine (R88, R99): multiples of 16, within its space; cluster-shared for no service thread. -/
def State.engScr (s : State) (e : EngOp) (sp a len : Nat) : Option (ScrId × Nat) :=
  let w := s.warp e.warp
  let off := a % 2 ^ 32
  if off % 16 ≠ 0 ∨ len % 16 ≠ 0 then none
  else if sp = 1 then
    if e.service ∨ a / 2 ^ 34 ≠ 0 then none
    else match s.gangBlock w (a / 2 ^ 32 % 4) with
      | some b => if off + len ≤ (s.block b).sBytes then some (.block b, off) else none
      | none => none
  else if a / 2 ^ 33 ≠ 0 then none
  else match s.placeAt e.tenant (dieEntry (a / 2 ^ 32)) with
    | some d => if off + len ≤ carveBytes (s.tenant e.tenant) d then some (.die e.tenant d, off) else none
    | none => none

/-- A contiguous range in one of the three spaces of R317. -/
def State.spanOf (s : State) (e : EngOp) (sp a len : Nat) : Option Span :=
  if sp = 0 then (if rangeOk a len then some (.mem (cuts a len)) else none)
  else (s.engScr e sp a len).map fun p => .scr p.1 p.2

/-- Whether two contiguous ranges overlap. -/
def spansMeet (x y : Span) (ax ay len : Nat) : Bool :=
  match x, y with
  | .mem _, .mem _ => decide (ax < ay + len ∧ ay < ax + len)
  | .scr i a, .scr j b => i == j && decide (a < b + len ∧ b < a + len)
  | _, _ => false

/-- n bytes of a source. -/
def State.spanRead (s : State) (g : Agent) (x : Span) (n : Nat) : State × Except EngEnd (List Byte × Bool) :=
  match x with
  | .zeros => (s, .ok (List.replicate n 0, false))
  | .scr id off => (s, .ok (s.scrBytes id off n, s.scrBad id off n))
  | .mem cs =>
    let r := s.engXlats g accEngR cs
    match r.2 with
    | .error z => (r.1, .error z)
    | .ok xs => match r.1.engReads g xs with
      | some q => (q.1, .ok q.2)
      | none => (r.1, .error .wait)

/-- Whether a span is a range of scratch. -/
def Span.isScratch : Span → Bool
  | .scr _ _ => true
  | _ => false

/-- Bytes moved from a source to a destination: both translate before any byte is written. Uncorrectable data read into scratch, or met
by a read of scratch, is consumed (R246). -/
def State.moveSpan (s : State) (e : EngOp) (src dst : Span) (n : Nat) : State × EngEnd :=
  let g := e.agent
  let r := match dst with
    | .mem cs => s.engXlats g accEngW cs
    | _ => (s, .ok [])
  match r.2 with
  | .error z => (r.1, z)
  | .ok xs =>
    let q := r.1.spanRead g src n
    match q.2 with
    | .error z => (q.1, z)
    | .ok (bs, bad) =>
      if bad && (src.isScratch || dst.isScratch) then (q.1.engConsume e, if e.service then .code 0 else .gone)
      else match dst with
        | .mem _ => match q.1.engStores g xs bs bad with
          | some s => (s, .code 0)
          | none => (r.1, .wait)
        | .scr id off => (q.1.scrDeliver id off bs, .code 0)
        | .zeros => (q.1, .code 0)

/-- Whether some bytes of a descriptor are zero. -/
def zeroed (d : List Byte) (off n : Nat) : Bool := fld d off n == 0

/-- The work of CPY and CPYZ (R318). -/
def State.copyWork (s : State) (e : EngOp) : State × EngEnd :=
  let d := e.desc
  let dst := fld d 0 8
  let src := fld d 8 8
  let len := fld d 0x10 4
  let zero := e.kind == .copyz
  if zeroed d 0x16 34 = false ∨ (zero && (src != 0 || fld d 0x15 1 != 0)) ∨ 2 < fld d 0x14 1 ∨ 2 < fld d 0x15 1 ∨ len = 0 ∨
      2 ^ 30 < len then (s, .code 1)
  else match s.spanOf e (fld d 0x14 1) dst len, (if zero then some .zeros else s.spanOf e (fld d 0x15 1) src len) with
    | some y, some x => if spansMeet x y src dst len then (s, .code 1) else s.moveSpan e x y len
    | _, _ => (s, .code 1)

/-- An index read as its type (R350). -/
def indexOf (t n : Nat) : Int :=
  match t with
  | 1 => sext 32 n
  | 3 => sext 64 n
  | _ => n

/-- The width of an index in bytes. -/
def indexBytes (t : Nat) : Nat := if t < 2 then 4 else 8

/-- The elements of a list of bytes, each of a width. -/
def unpackLe (w : Nat) : Nat → List Byte → List Nat
  | 0, _ => []
  | n + 1, bs => leNat (bs.take w) :: unpackLe w n (bs.drop w)

/-- The work of GATH, and of SCAT with source and destination exchanged (R351, R398). -/
def State.gathWork (s : State) (e : EngOp) (scatter : Bool) : State × EngEnd :=
  let d := e.desc
  let a := fld d 0 8
  let table := fld d 8 8
  let idx := fld d 0x10 8
  let n := fld d 0x18 4
  let ex := fld d 0x1C 1
  let ty := fld d 0x1D 1
  let sp := fld d 0x1E 1
  let sz := 2 ^ ex
  let ib := indexBytes ty
  if zeroed d 0x1F 25 = false ∨ n = 0 ∨ 2 ^ 20 < n ∨ 4 < ex ∨ 3 < ty ∨ 2 < sp ∨ idx % ib ≠ 0 ∨ rangeOk idx (n * ib) = false ∨
      table % sz ≠ 0 ∨ (sp = 0 ∧ a % sz ≠ 0) then (s, .code 1)
  else
    let r := s.spanRead e.agent (.mem (cuts idx (n * ib))) (n * ib)
    match r.2 with
    | .error z => (r.1, z)
    | .ok (bs, _) =>
      let at_ (x : Nat) : Nat := (((table : Int) + indexOf ty x * sz) % (2 ^ 64 : Nat)).toNat
      let els := (unpackLe ib n bs).map at_
      if els.any fun v => !canonical (BitVec.ofNat 64 v) then (r.1, .code 1)
      else match r.1.spanOf e sp a (n * sz) with
        | none => (r.1, .code 1)
        | some y =>
          let x := Span.mem (els.map fun v => (v, sz))
          if scatter then r.1.moveSpan e y x (n * sz) else r.1.moveSpan e x y (n * sz)

/-! ## BKOP, ROWCP, ROWZ (R222 to R224) -/

/-- The physical stack of a tier-0 address (R216). -/
def stackOf (pa : Nat) : Nat := pa / 2 ^ 36

/-- Whether a migration of a page is under way in any of its steps (R224). -/
def State.isMoving (s : State) (pa : Nat) : Bool := (s.coverOf pa).isSome

/-- Bytes at their homes, past every cache (R224): a device window's registers, and an external endpoint's answer (R230). -/
def State.baseRead (s : State) (g : Agent) (xs : List (Xlat × Nat)) : State × List Byte :=
  xs.foldl (fun st x =>
    let r := match regionOf x.1.pa with
      | .window => st.1.winRead g.level.num x.1.pa x.2
      | .fabric => st.1.freeBytes x.2
      | _ => (st.1, (addrs x.1.pa x.2).map st.1.homeByte)
    (r.1, st.2 ++ r.2)) (s, [])

/-- Bytes written to memory past the caches; a replicated page at both its replicas, a device window in its registers; what a write does
at an external endpoint is no state of the package (R230). They count (R196). -/
def State.baseWrite (s : State) (g : Agent) (xs : List (Xlat × Nat)) (bs : List Byte) (bad : Bool) : Option State :=
  (xs.foldl (fun (acc : Option State × List Byte) x =>
    let bytes := acc.2.take x.2
    let ws := placed x.1.pa bytes
    let put (s : State) : Option State :=
      match regionOf x.1.pa with
      | .window => some ((dwordsOf x.1.pa bytes).foldl (fun s d => s.winWrite g.level.num d.1 d.2) s)
      | .fabric => some (s.endResv (granules ws))
      | _ => (if x.1.repl then some (s.replWrite ws) else tryAll (fun s g => s.homeWrite g) s (bySector ws)).map fun s =>
          (s.count (some x.1) x.1.pa 1).spread bad x.1.pa x.2
    (acc.1.bind put, acc.2.drop x.2)) (some s, bs)).1

/-- What an operation does while its pages are no migration candidates (R224): as if they were pinned. -/
def State.uncandidate (s : State) (xs : List (Xlat × Nat)) (f : State → Option State) : Option State :=
  (f { s with pins := s.pins ++ xs.map fun x => frameOf x.1.pa }).map fun t => { t with pins := s.pins }

/-- The posting cores' L1s give up the lines of some pieces. -/
def State.releaseAll (s : State) (g : Agent) (xs : List (Xlat × Nat)) : Option State :=
  tryAll (fun s x => s.giveUp (s.issuers g.warp) x.1) s xs

/-- Every source counts as an engine access does (R196). -/
def State.countAll (s : State) (xs : List (Xlat × Nat)) : State := xs.foldl (fun s x => s.count (some x.1) x.1.pa 1) s

/-- The pages of BKOP translated (R222, R224): it waits while one of them moves, and ends with code 5 where one lies outside tier 0,
whether or not the package could reach it. -/
def State.nearPages (s : State) (g : Agent) (acc : Acc) (cs : List (Nat × Nat)) : State × Except EngEnd Unit :=
  let r := s.engXlats g { acc with place := true } cs
  match r.2 with
  | .error z => (r.1, .error z)
  | .ok xs =>
    if xs.any fun x => r.1.isMoving x.1.pa then (r.1, .error .wait)
    else if xs.any fun x => tierOf x.1.pa != some 0 then (r.1, .error (.code 5))
    else (r.1, .ok ())

/-- One element of BKOP (R222). -/
def bkElem (op : BkArith) (t : Ty) (x y z : Nat) : Nat :=
  let f := fmtOf t
  let v (p : Nat) : FpVal := f.value p
  match op with
  | .add => (fAdd f .rne false (v x) (v y)).1
  | .mul => (fMul f .rne false (v x) (v y)).1
  | .fma => (fFma f .rne false (v x) (v y) (v z)).1

/-- The result bytes of BKOP over n elements. -/
def bkBytes (op : BkArith) (t : Ty) (n : Nat) (a b c : List Byte) : List Byte :=
  let w := tyWidth t / 8
  let c := if op == .fma then c else List.replicate (n * w) 0
  ((unpackLe w n a).zip ((unpackLe w n b).zip (unpackLe w n c))).flatMap fun e => leBytes w (bkElem op t e.1 e.2.1 e.2.2)

/-- The work of BKOP (R222, R224). -/
def State.bkopWork (s : State) (e : EngOp) (op : BkArith) (t : Ty) : State × EngEnd :=
  let d := e.desc
  let g := e.agent
  let w := tyWidth t / 8
  let n := fld d 0x20 4
  let len := n * w
  let dst := fld d 0 8
  let srcs := if op == .fma then [fld d 8 8, fld d 0x10 8, fld d 0x18 8] else [fld d 8 8, fld d 0x10 8]
  let apart (a : Nat) : Bool := a == dst || decide (a + len ≤ dst ∨ dst + len ≤ a)
  if zeroed d 0x24 20 = false ∨ n = 0 ∨ 2 ^ 28 < n ∨ (op ≠ .fma ∧ fld d 0x18 8 ≠ 0) ∨ ((dst :: srcs).all fun a => a % w == 0 && rangeOk a len) = false ∨
      srcs.all apart = false then (s, .code 1)
  else
    let cd := cuts dst len
    let cs := srcs.flatMap fun a => cuts a len
    let nd := s.nearPages g accEngW cd
    let ns := nd.1.nearPages g accEngR cs
    match nd.2, ns.2 with
    | .error .wait, _ => (nd.1, .wait)
    | _, .error .wait => (ns.1, .wait)
    | .error z, _ => (ns.1, z)
    | _, .error z => (ns.1, z)
    | .ok _, .ok _ =>
      let rd := ns.1.engXlats g accEngW cd
      match rd.2 with
      | .error z => (rd.1, z)
      | .ok xd =>
        let rs := rd.1.engXlats g accEngR cs
        match rs.2 with
        | .error z => (rs.1, z)
        | .ok xs =>
          let home := stackOf ((xd.head?.map fun x => x.1.pa).getD 0)
          if (xd ++ xs).any fun x => stackOf x.1.pa != home then (rs.1, .code 5)
          else
            let bytes := (rs.1.baseRead g xs).2
            let bad := xs.any fun x => rs.1.anyPoison x.1.pa x.2
            let out := bkBytes op t n (bytes.take len) ((bytes.drop len).take len) (bytes.drop (2 * len))
            match rs.1.uncandidate (xd ++ xs) fun s => ((s.countAll xs).releaseAll g xd).bind fun s => s.baseWrite g xd out bad with
            | some s => (s, .code 0)
            | none => (rs.1, .wait)

/-- The work of ROWCP and ROWZ (R223, R224). -/
def State.rowWork (s : State) (e : EngOp) : State × EngEnd :=
  let d := e.desc
  let g := e.agent
  let zero := e.kind == .rowz
  let dst := fld d 0 8
  let src := fld d 8 8
  let len := fld d 0x20 4
  if zeroed d 0x10 16 = false ∨ zeroed d 0x24 20 = false ∨ (zero ∧ src ≠ 0) ∨ dst % 256 ≠ 0 ∨ src % 256 ≠ 0 ∨ len % 256 ≠ 0 ∨ len = 0 ∨
      2 ^ 30 < len ∨ rangeOk dst len = false ∨ (zero = false ∧ (rangeOk src len = false ∨ (src < dst + len ∧ dst < src + len))) then (s, .code 1)
  else
    let rd := s.engXlats g accEngW (cuts dst len)
    match rd.2 with
    | .error z => (rd.1, z)
    | .ok xd =>
      let rs := if zero then (rd.1, .ok []) else rd.1.engXlats g accEngR (cuts src len)
      match rs.2 with
      | .error z => (rs.1, z)
      | .ok xs =>
        if (xd ++ xs).any fun x => rs.1.isMoving x.1.pa then (rs.1, .wait)
        else
          let rb := if zero then (rs.1, List.replicate len 0) else rs.1.baseRead g xs
          let bad := xs.any fun x => rb.1.anyPoison x.1.pa x.2
          let lines := xd.map fun x => x.1.pa / 256
          match rb.1.uncandidate (xd ++ xs) fun s => ((s.countAll xs).releaseAll g xd).bind fun s =>
              (s.l2Forget fun a => lines.contains (a / 256)).baseWrite g xd rb.2 bad with
          | some s => (s, .code 0)
          | none => (rs.1, .wait)

/-! ## CLEAN, INVAL, FLUSH (R313 to R315, R343, R363, R364) -/

/-- The pieces of a range whose pages translate, with whether the poster may write them, of a replicated page in both replicas (R120);
other pages are skipped. -/
def State.maintPieces (s : State) (g : Agent) (va len : Nat) : State × List (Nat × Nat × Bool) :=
  (pagesOf va len).foldl (fun st p =>
    let lo := max va p
    let n := min (va + len) (p + 4096) - lo
    let b := clusterOf g.core
    let user := g.level == .user
    if g.level = .monitor then (if regionOf lo = .none then st else (st.1, st.2 ++ [(s.nameOf lo, n, true)]))
    else
      let r := st.1.translate b g.tenant user accEngR lo
      match r.2 with
      | .error _ => (r.1, st.2)
      | .ok x =>
        let w := match (r.1.translate b g.tenant user accEngW lo).2 with
          | .ok _ => true
          | .error _ => false
        if x.ms then (r.1, st.2)
        else if x.repl then (r.1, st.2 ++ [(x.pa % replicaDist, n, w), (x.pa % replicaDist + replicaDist, n, w)])
        else (r.1, st.2 ++ [(x.pa, n, w)])) (s, [])

/-- Whether an address lies in some pieces. -/
def inPieces (ps : List (Nat × Nat × Bool)) (a : Nat) : Bool := ps.any fun p => decide (p.1 ≤ a ∧ a < p.1 + p.2.1)

/-- Whether an address lies in a line that overlaps some pieces. -/
def onLines (ps : List (Nat × Nat × Bool)) (a : Nat) : Bool := ps.any fun p => decide (p.1 / 256 ≤ a / 256 ∧ a / 256 ≤ (p.1 + p.2.1 - 1) / 256)

/-- Dirty bytes of an L1 sent off at some addresses, then `f`; true once none of them waits for a Switch (R200). -/
def State.sendOff (s : State) (core : Nat) (p : Nat → Bool) (f : State → State) : State × Bool :=
  let s := s.l1Push core p
  if s.stalls core p then (s, false) else (f s, true)

/-- The L1 part of a maintenance operation at scope .cl or .di for CLEAN, at every scope for the others; false while a write-back
waits. -/
def State.maintL1 (s : State) (k : EngKind) (core : Nat) (ps : List (Nat × Nat × Bool)) : State × Bool :=
  let keep (a : Nat) : Bool := onLines ps a && !inPieces (ps.filter fun p => p.2.2) a
  if 1024 ≤ core then (s, true)
  else match k with
    | .clean sc => if 3 ≤ scopeNum sc then s.sendOff core (inPieces ps) id else (s, true)
    | .flush _ => s.sendOff core (onLines ps) fun s => s.l1Drop core (onLines ps)
    | _ =>
      let lost := dirtyWhere keep (s.l1c core)
      s.sendOff core keep fun s =>
        (s.l2FlushAll (fun a => lost.any fun w => s.homeAddr w.1 == a) false).l1Drop core (onLines ps)

/-- The L2 part of a maintenance operation, at `.pk` and wider. -/
def State.maintL2 (s : State) (k : EngKind) (ps : List (Nat × Nat × Bool)) : State :=
  match k with
  | .clean _ => s.l2FlushAll (inPieces ps) false
  | .flush _ => s.l2FlushAll (onLines ps) true
  | _ =>
    let keep (a : Nat) : Bool := onLines ps a && !inPieces (ps.filter fun p => p.2.2) a
    (s.l2FlushAll keep false).l2Forget (onLines ps)

/-- The work of CLEAN, INVAL and FLUSH (R314, R343, R363). -/
def State.maintWork (s : State) (e : EngOp) (sc : Scope) : State × EngEnd :=
  let d := e.desc
  let va := fld d 0 8
  let len := fld d 8 8
  if zeroed d 0x10 40 = false ∨ len = 0 ∨ 2 ^ 40 < len ∨ rangeOk va len = false then (s, .code 1)
  else match s.drainAll e.warp with
    | .error s1 => (s1, .wait)
    | .ok s1 =>
      let r := s1.maintPieces e.agent va len
      let there := r.2.map fun p => (r.1.homeAddr p.1, p.2)
      let q := r.1.maintL1 e.kind e.core r.2
      if q.2 then (if 5 ≤ scopeNum sc then q.1.maintL2 e.kind there else q.1, .code 0) else (q.1, .wait)

end Sys2Proof.Machine
end

