-- ==== Sys2Proof/Machine/Fetch.lean ====
section
/-! DEFINITION. The fetch of an instruction's bytes (R241, R268, R284). -/

namespace Sys2Proof.Machine

/-- What a fetch gives: the bytes and LANDRQ of the page of word 0; a cause for the whole bundle; a fault that waits or
enters a level; a physical address out of range; tier 0 while the compute dies sleep; no answer from the fabric. -/
inductive Fetched where
  | bytes (bs : List Byte) (landrq : Bool)
  | cause (c : TrapInfo)
  | fault (va : Word) (x : XErr)
  | range (pa : Nat)
  | asleep
  | unanswered (va ipa : Nat)
  deriving DecidableEq, Repr

/-- A byte of code below the instruction cache: the core's own write in its L1, else what its coherent accesses read (R284). -/
def State.codeByte (s : State) (core : Nat) (x : Xlat) (a : Nat) : Byte :=
  match x.place with
  | .memSide => s.homeByte a
  | .repl => s.homeByte a
  | _ => match (if core < 1024 then (s.l1c core).dirtyByte a else none) with
    | some v => v
    | none => s.cohByte a

/-- A word read through the core's instruction cache, which then holds it where it has room (R284). A paired gang fetches what it holds
back (R109), which no cache keeps; a window's registers bypass the cache (R420). -/
def State.fetchWordAt (s : State) (w : Warp) (x : Xlat) : State × List Byte :=
  let c := s.core w.core
  let pa := if x.repl then replicaPa w.core x.pa else x.pa
  let patch := if w.paired then s.heldPatch w.gang else []
  match (addrs pa 4).mapM (tget c.icache) with
  | some bs => (s, bs)
  | none =>
    if regionOf x.pa = .window then s.winRead w.level.num x.pa 4
    else if x.place = .fabric then s.freeBytes 4
    else
      let bs := (addrs pa 4).map (s.codeByte w.core x)
      let s := if x.place = .memSide then s.count (some x) pa 1 else (s.l2Read (l2Of w.core) (some x) pa 4).1
      let held := (addrs x.pa 4).any fun a => (tget patch a).isSome
      (if c.icache.length + 4 ≤ Config.icacheBytes ∧ held = false then
        s.modCore w.core fun k => { k with icache := (placed pa bs).foldl (fun t p => tset t p.1 p.2) k.icache }
      else s, ((addrs x.pa 4).zip bs).map fun p => (tget patch p.1).getD p.2)

/-- One word of an instruction at a virtual address, or at a physical one at monitor level. -/
def State.fetchWord (s : State) (w : Warp) (va : Word) : State × Except Fetched (List Byte × Bool) :=
  if w.level = .monitor ∧ regionOf (addr va) = .none then (s, .error (.range (addr va)))
  else
    let r := s.translateFor w accFetch (addr va)
    match r.2 with
    | .error (.cause c) => (r.1, .error (.cause { cause := c, addr := va }))
    | .error x => (r.1, .error (.fault va x))
    | .ok x =>
      if r.1.sleeping x.pa then (r.1.wake, .error .asleep)
      else
        let g := r.1.fabricGate x.pa
        match g.2 with
        | some 6 => (g.1, .error (.unanswered (addr va) (x.ipa / 4096 * 4096)))
        | some k => (g.1, .error (.fault va (.fault true k 4 (x.ipa / 4096 * 4096))))
        | none =>
          let f := g.1.fetchWordAt w x
          (f.1, .ok (f.2, x.landrq))

/-- The words of an instruction after word 0. -/
def State.fetchRest (s : State) (w : Warp) (va : Word) : Nat → List Byte → State × Except Fetched (List Byte)
  | 0, bs => (s, .ok bs)
  | n + 1, bs =>
    let r := s.fetchWord w va
    match r.2 with
    | .error e => (r.1, .error e)
    | .ok p => r.1.fetchRest w (va + 4) n (bs ++ p.1)

/-- THE FETCH of an instruction at a PC (R268): the PC's form is checked first (R241); a word with LEN 0b01 stands
alone. -/
def State.fetch (s : State) (w : Warp) (pc : Word) : State × Fetched :=
  if wbits pc 0 2 ≠ 0 then (s, .cause { cause := 3, addr := pc })
  else if canonical pc = false then (s, .cause { cause := 5, addr := pc })
  else
    let r := s.fetchWord w pc
    match r.2 with
    | .error e => (r.1, e)
    | .ok p =>
      let r' := r.1.fetchRest w (pc + 4) (wordCount (leNat p.1) - 1) p.1
      match r'.2 with
      | .error e => (r'.1, e)
      | .ok bs => (r'.1, .bytes bs p.2)

/-- The words of refused bytes as TADDR holds them: word 0, and word 1 unless the form is compact or LEN is 0b01 (R282). -/
def badWords (bs : List Byte) : Word :=
  let w0 := leNat (bs.take 4)
  BitVec.ofNat 64 (if bitsOf w0 30 2 < 2 then w0 else w0 + 2 ^ 32 * leNat ((bs.drop 4).take 4))

/-- The instruction at a PC as the vote sees it, without any effect; none where it cannot be fetched or is refused. -/
def State.peek (s : State) (w : Warp) (pc : Word) : Option Instr :=
  match (s.fetch w pc).2 with
  | .bytes bs _ =>
    match decode bs with
    | .ok i => some i
    | .error _ => none
  | _ => none

end Sys2Proof.Machine
end

