-- ==== Sys2Proof/Machine/Trans.lean ====
section
/-! DEFINITION. The elementary functions, correctly rounded (R337, R166): each is bracketed in fixed point with P
fraction bits, P growing until both ends of the bracket round alike. -/

namespace Sys2Proof.Machine

/-- A real number bracketed: it lies strictly between (c - 4096) and (c + 4096) units of 2^-p. -/
structure Brk where
  c : Int
  p : Nat
  deriving DecidableEq, Repr

/-- Sum of an alternating or plain power series: term number k is the last power divided by k-dependent numbers. -/
def seriesGo (step : Nat → Int → Int) : Nat → Nat → Int → Int → Int
  | 0, _, _, acc => acc
  | fuel + 1, k, t, acc =>
    let t' := step k t
    if t' = 0 then acc else seriesGo step fuel (k + 1) t' (acc + t')

/-- exp(y) for 0 ≤ y < 1, y in units of 2^-p. -/
def expFix (p : Nat) (y : Int) : Int :=
  let one : Int := (2 ^ p : Nat)
  seriesGo (fun k t => t * y / ((2 ^ p : Nat) * (k : Int))) p 1 one one

/-- 2 atanh(a / b), in units of 2^-p, for 0 ≤ a / b ≤ 1/3. -/
def atanhGo (p : Nat) (sq : Int) : Nat → Nat → Int → Int → Int
  | 0, _, _, acc => acc
  | fuel + 1, k, t, acc =>
    if t = 0 then acc
    else atanhGo p sq fuel (k + 1) (t * sq / (2 ^ p : Nat)) (acc + 2 * t / (2 * (k : Int) + 1))

/-- 2 atanh of a number in units of 2^-p. -/
def atanh2 (p : Nat) (t : Int) : Int := atanhGo p (t * t / (2 ^ p : Nat)) p 0 t 0

/-- atan(1 / n) in units of 2^-p. -/
def atanInv (p n : Nat) : Int :=
  let rec go : Nat → Nat → Int → Int → Int
    | 0, _, _, acc => acc
    | fuel + 1, k, t, acc =>
      if t = 0 then acc
      else go fuel (k + 1) (t / ((n * n : Nat) : Int)) (if k % 2 = 0 then acc + t / (2 * (k : Int) + 1) else acc - t / (2 * (k : Int) + 1))
  go p 0 (((2 ^ p : Nat) : Int) / n) 0

/-- The circle constant in units of 2^-p (Machin's formula). -/
def piFix (p : Nat) : Int := (16 * atanInv (p + 16) 5 - 4 * atanInv (p + 16) 239) / 65536

/-- The natural logarithm of 2 in units of 2^-p: 2 atanh(1/3). -/
def ln2Fix (p : Nat) : Int := atanh2 p (((2 ^ p : Nat) : Int) / 3)

/-- A dyadic number in units of 2^-p, rounded down. -/
def Dy.fix (d : Dy) (p : Nat) : Int :=
  if 0 ≤ d.e + p then d.z * (2 ^ (d.e + p).toNat : Nat) else d.z / (2 ^ (-(d.e + p)).toNat : Nat)

/-- ln z for 1 ≤ z < 2, z in units of 2^-p. -/
def lnFix (p : Nat) (z : Int) : Int :=
  let one : Int := (2 ^ p : Nat)
  atanh2 p ((z - one) * one / (z + one))

/-- ln of m times 2^e, bracketed. -/
def lnBrk (p : Nat) (m : Nat) (e : Int) : Brk :=
  let n : Int := e + Nat.log2 m
  ⟨n * ln2Fix (p + 64) / (2 ^ 64 : Nat) + lnFix p (Dy.fix ⟨m, -(Nat.log2 m : Int)⟩ p), p⟩

/-- log2 of m times 2^e, bracketed. -/
def log2Brk (p : Nat) (m : Nat) (e : Int) : Brk :=
  let n : Int := e + Nat.log2 m
  let one : Int := (2 ^ p : Nat)
  ⟨n * one + lnFix p (Dy.fix ⟨m, -(Nat.log2 m : Int)⟩ p) * one / ln2Fix p, p⟩

/-- The fixed-point number bracketed, scaled by a power of two. -/
structure Scaled where
  b : Brk
  sh : Int
  deriving DecidableEq, Repr

/-- exp of y units of 2^-p: the fraction part bracketed and a power of two. -/
def expScaled (p : Nat) (y : Int) : Scaled :=
  let l := ln2Fix p
  let n := y / l
  ⟨⟨expFix p (y - n * l), p⟩, n⟩

/-- 2^x for a dyadic x. -/
def exp2Scaled (p : Nat) (d : Dy) : Scaled :=
  let y := d.fix p
  let one : Int := (2 ^ p : Nat)
  let n := y / one
  ⟨⟨expFix p ((y - n * one) * ln2Fix p / one), p⟩, n⟩

/-- Sine and cosine of r units of 2^-p with r small, by their series. -/
def sinFix (p : Nat) (r : Int) : Int :=
  let sq := r * r / (2 ^ p : Nat)
  seriesGo (fun k t => -(t * sq / (2 ^ p : Nat)) / ((2 * k : Int) * (2 * k + 1))) p 1 r r
/-- See `sinFix`. -/
def cosFix (p : Nat) (r : Int) : Int :=
  let sq := r * r / (2 ^ p : Nat)
  let one : Int := (2 ^ p : Nat)
  seriesGo (fun k t => -(t * sq / (2 ^ p : Nat)) / ((2 * k - 1 : Int) * (2 * k))) p 1 one one

/-- Sine (or cosine, with `quarter` 1) of an angle given in units of 2^-p, reduced by quarter turns of `h` units. -/
def sinQuarter (p : Nat) (x h : Int) (quarter : Int) : Int :=
  let k := (2 * x + h) / (2 * h)
  let r := x - k * h
  match ((k + quarter) % 4).toNat with
  | 0 => sinFix p r
  | 1 => cosFix p r
  | 2 => -sinFix p r
  | _ => -cosFix p r

/-- sin or cos of a dyadic angle in radians; 192 extra bits carry the reduction of any f32 argument. -/
def sinBrk (p : Nat) (quarter : Int) (d : Dy) : Brk :=
  let g := p + 192
  let x := d.fix g
  let h := piFix g / 2
  let k := (2 * x + h) / (2 * h)
  let r := (x - k * h) / (2 ^ 192 : Nat)
  ⟨match ((k + quarter) % 4).toNat with
    | 0 => sinFix p r
    | 1 => cosFix p r
    | 2 => -sinFix p r
    | _ => -cosFix p r, p⟩

/-- tanh of a dyadic number of magnitude below 128. -/
def tanhBrk (p : Nat) (d : Dy) : Brk :=
  let g := p + 512
  let y := 2 * d.fix g
  let s := expScaled g y
  let one : Int := (2 ^ g : Nat)
  let e := if 0 ≤ s.sh then s.b.c * (2 ^ s.sh.toNat : Nat) else s.b.c / (2 ^ (-s.sh).toNat : Nat)
  ⟨((e - one) * one / (e + one)) / (2 ^ 512 : Nat), p⟩

/-- A bracketed number rounded into a format, when both ends of the bracket give one result. -/
def roundBrk (f : Fmt) (md : RMode) (ftz : Bool) (s : Scaled) : Option FpRes :=
  let lo := s.b.c - 4096
  let hi := s.b.c + 4096
  if lo < 0 ∧ 0 < hi then none
  else
    let neg := decide (hi ≤ 0)
    let (a, b) := if neg then (hi.natAbs, lo.natAbs) else (lo.natAbs, hi.natAbs)
    let r1 := f.round md ftz neg a (s.sh - s.b.p) true
    let r2 := f.round md ftz neg (b - 1) (s.sh - s.b.p) true
    if r1 = r2 then some r1 else none

/-- The first precision of a list at which the bracket decides. DEDUCED: one of them does for every operand; if none did, the last one's
middle would be rounded (log 103). -/
def decideBrk (f : Fmt) (md : RMode) (ftz : Bool) (g : Nat → Scaled) : List Nat → FpRes
  | [] => (0, 0)
  | [p] => match roundBrk f md ftz (g p) with
    | some r => r
    | none => f.round md ftz ((g p).b.c < 0) (g p).b.c.natAbs ((g p).sh - p) true
  | p :: q :: r => match roundBrk f md ftz (g p) with
    | some x => x
    | none => decideBrk f md ftz g (q :: r)

/-- The precisions tried. -/
def precisions : List Nat := [160, 640, 1600]

/-- FEX2 (R337). -/
def fEx2 (f : Fmt) (md : RMode) (ftz : Bool) (v : FpVal) : FpRes :=
  match v with
  | .nan s => nanQ f s
  | .inf x => if x then (0, 0) else infRes f false
  | .fin x m e =>
    let top : Int := e + Nat.log2 m
    if m = 0 then f.round md ftz false 1 0
    else if 0 ≤ e ∨ m % 2 ^ (-e).toNat = 0 then
      let n : Int := if 0 ≤ e then m * 2 ^ (min e 20).toNat else (m / 2 ^ (-e).toNat : Nat)
      let n := if 16 < top then 100000 else n
      f.round md ftz false 1 (if x then -n else n)
    else if 16 < top then f.round md ftz false 1 (if x then -100000 else 100000) true
    else decideBrk f md ftz (fun p => exp2Scaled p (dyOf x m e)) precisions

/-- FLG2 (R337). -/
def fLg2 (f : Fmt) (md : RMode) (ftz : Bool) (v : FpVal) : FpRes :=
  match v with
  | .nan s => nanQ f s
  | .inf x => if x then nanNV f else infRes f false
  | .fin x m e =>
    if m = 0 then (f.signPat true + f.infPat, flDZ)
    else if x then nanNV f
    else if m = 2 ^ Nat.log2 m then
      let n : Int := e + Nat.log2 m
      f.roundDy md ftz false ⟨n, 0⟩
    else decideBrk f md ftz (fun p => ⟨log2Brk p m e, 0⟩) precisions

/-- FSIN and, with `quarter` 1, FCOS (R337). -/
def fSinCos (f : Fmt) (md : RMode) (ftz : Bool) (quarter : Int) (v : FpVal) : FpRes :=
  match v with
  | .nan s => nanQ f s
  | .inf _ => nanNV f
  | .fin x m e =>
    if m = 0 then (if quarter = 0 then (f.signPat x, 0) else f.round md false false 1 0)
    else decideBrk f md ftz (fun p => ⟨sinBrk p quarter (dyOf x m e), 0⟩) precisions

/-- FTNH (R337). -/
def fTnh (f : Fmt) (md : RMode) (ftz : Bool) (v : FpVal) : FpRes :=
  match v with
  | .nan s => nanQ f s
  | .inf x => f.round md false x 1 0
  | .fin x m e =>
    if m = 0 then (f.signPat x, 0)
    else if 7 ≤ e + Nat.log2 m then f.round md ftz x (2 ^ 200 - 1) (-200) true
    else decideBrk f md ftz (fun p => ⟨tanhBrk p (dyOf x m e), 0⟩) precisions

/-! ## The three functions of RNGG (R166), rounded to f64 under RNE -/

/-- The correctly rounded f64 logarithm of a number m times 2^e below 1. -/
def lnF64 (m : Nat) (e : Int) : Nat :=
  (decideBrk fmtF64 .rne false (fun p => ⟨lnBrk p m e, 0⟩) precisions).1

/-- cos (quarter 1) or sin (quarter 0) of 2π times m 2^e, correctly rounded. The exact cases, multiples of a quarter
turn, do not arise: m is odd and e is -53. -/
def turnF64 (quarter : Int) (m : Nat) (e : Int) : Nat :=
  (decideBrk fmtF64 .rne false (fun p =>
    let x := (Dy.fix ⟨m, e⟩ p) * (2 * piFix (p + 64)) / (2 ^ (p + 64) : Nat)
    ⟨⟨sinQuarter p x (piFix p / 2) quarter, p⟩, 0⟩) precisions).1

end Sys2Proof.Machine
end

