-- ==== Sys2Proof/Machine/Kindling.lean ====
section
/-! DEFINITION. The generator Kindling (R163 to R166). -/

namespace Sys2Proof.Machine

/-- The state of the generator: counter words and key words. -/
structure KState where
  c0 : BitVec 32
  c1 : BitVec 32
  c2 : BitVec 32
  c3 : BitVec 32
  k0 : BitVec 32
  k1 : BitVec 32
  deriving DecidableEq, Repr

/-- One of the ten rounds (R163). -/
def kindlingRound (s : KState) : KState :=
  let c0 := s.c0 + s.c1 + s.k0
  let c2 := s.c2 + s.c3 + s.k1
  let c1 := (s.c1.rotateLeft 11) ^^^ c2
  let c3 := (s.c3.rotateLeft 19) ^^^ c0
  { c0 := c0, c1 := c3, c2 := c2, c3 := c1, k0 := s.k0 + 0x3C6EF372, k1 := s.k1 + 0xA54FF53A }

/-- The ten rounds (R163). -/
def kindling (s : KState) : KState := foldN (fun _ s => kindlingRound s) 0 10 s

/-- The draw of a thread: its stream index, global thread number, launch and key (R165). -/
def kindlingDraw (strm gtid launchId key : Word) : KState :=
  let w (v lo n : Nat) : Nat := v / 2 ^ lo % 2 ^ n
  kindling
    { c0 := BitVec.ofNat 32 (w strm.toNat 0 32)
      c1 := BitVec.ofNat 32 (w gtid.toNat 0 32)
      c2 := BitVec.ofNat 32 (w launchId.toNat 8 24 * 256 + w gtid.toNat 32 8)
      c3 := BitVec.ofNat 32 (w launchId.toNat 32 32)
      k0 := BitVec.ofNat 32 (w key.toNat 0 32)
      k1 := BitVec.ofNat 32 (w key.toNat 32 32) }

/-- Two 32-bit words as one number, the second high. -/
def pair32 (lo hi : BitVec 32) : Nat := lo.toNat + 2 ^ 32 * hi.toNat

/-- The f32 uniform of a word (R165). -/
def uniform32 (w : BitVec 32) : Nat := (fmtF32.round .rne false false (2 * (w.toNat / 2 ^ 9) + 1) (-24)).1

/-- The numerator of the f64 uniform of a 64-bit value, over 2^53 (R165). -/
def uniform64Num (x : Nat) : Nat := 2 * (x / 2 ^ 12) + 1

/-- The f64 uniform of a 64-bit value (R165). -/
def uniform64 (x : Nat) : Nat := (fmtF64.round .rne false false (uniform64Num x) (-53)).1

/-- The register pair RNG writes (R165). -/
def rngPair (t : Ty) (s : KState) : Word × Word :=
  match t with
  | .f32 => (BitVec.ofNat 64 (uniform32 s.c0 + 2 ^ 32 * uniform32 s.c1),
             BitVec.ofNat 64 (uniform32 s.c2 + 2 ^ 32 * uniform32 s.c3))
  | .f64 => (BitVec.ofNat 64 (uniform64 (pair32 s.c0 s.c1)), BitVec.ofNat 64 (uniform64 (pair32 s.c2 s.c3)))
  | _ => (BitVec.ofNat 64 (pair32 s.c0 s.c1), BitVec.ofNat 64 (pair32 s.c2 s.c3))

/-- The two normal values of RNGG as f64 patterns (R166). -/
def gaussPair (s : KState) : Nat × Nat :=
  let f := fmtF64
  let a := f.value (lnF64 (uniform64Num (pair32 s.c0 s.c1)) (-53))
  let b := fMul f .rne false (f.value 0xC000000000000000) a
  let r := fSqrt f .rne false (f.value b.1)
  let u2 := uniform64Num (pair32 s.c2 s.c3)
  let cs := turnF64 1 u2 (-53)
  let sn := turnF64 0 u2 (-53)
  ((fMul f .rne false (f.value r.1) (f.value cs)).1, (fMul f .rne false (f.value r.1) (f.value sn)).1)

end Sys2Proof.Machine
end

