-- ==== Sys2Proof/Machine/Special.lean ====
section
/-! DEFINITION. Elementary functions, conversions, blocks and random numbers, class 4. -/

namespace Sys2Proof.Machine

/-- FEX2 (R337). -/
def execFex2 (k : Ctl) (d : Dst) (a : Src) (ty : Ty) (rnd : Rnd) (s : State) : Out :=
  fpUn (.fex2 k d a ty rnd) lat16 ty rnd d (fEx2) a s
/-- FLG2 (R337). -/
def execFlg2 (k : Ctl) (d : Dst) (a : Src) (ty : Ty) (rnd : Rnd) (s : State) : Out :=
  fpUn (.flg2 k d a ty rnd) lat16 ty rnd d (fLg2) a s
/-- FSIN (R337). -/
def execFsin (k : Ctl) (d : Dst) (a : Src) (ty : Ty) (rnd : Rnd) (s : State) : Out :=
  fpUn (.fsin k d a ty rnd) lat16 ty rnd d (fun m r z v => fSinCos m r z 0 v) a s
/-- FCOS (R337). -/
def execFcos (k : Ctl) (d : Dst) (a : Src) (ty : Ty) (rnd : Rnd) (s : State) : Out :=
  fpUn (.fcos k d a ty rnd) lat16 ty rnd d (fun m r z v => fSinCos m r z 1 v) a s
/-- FTNH (R337). -/
def execFtnh (k : Ctl) (d : Dst) (a : Src) (ty : Ty) (rnd : Rnd) (s : State) : Out :=
  fpUn (.ftnh k d a ty rnd) lat16 ty rnd d (fTnh) a s
/-- CVT, PACK and UNPK: sub-element e of the destination converts a source pattern, or is pattern 0 (R321). -/
def convOp (i : Instr) (ty ts : Ty) (rnd : Rnd) (d : Dst) (f : LaneCx → Nat → Option Nat) (s : State) : Out :=
  laneMap i (fun x => fpFinish x lat8 ty d (fElems ty fun e =>
    match f x e with
    | some p => convElem ty ts (x.mode rnd) x.ftz p
    | none => (0, 0))) s

/-- CVT (R320, R321). -/
def execCvt (k : Ctl) (d : Dst) (a : Src) (ty ts : Ty) (rnd : Rnd) (s : State) : Out :=
  convOp (.cvt k d a ty ts rnd) ty ts rnd d (fun x e => if e < tyCount ts then some (elem (x.src a) e ts) else none) s
/-- PACK (R379). -/
def execPack (k : Ctl) (d : Dst) (a b c : Src) (ty ts : Ty) (rnd : Rnd) (s : State) : Out :=
  convOp (.pack k d a b c ty ts rnd) ty ts rnd d (fun x e =>
    let n := tyCount ts
    if e < n then some (elem (x.src a) e ts)
    else if e < 2 * n then some (elem (x.src b) (e - n) ts)
    else if e < 3 * n then some (elem (x.src c) (e - 2 * n) ts)
    else none) s
/-- UNPK (R410). -/
def execUnpk (k : Ctl) (d : Dst) (a b : Src) (ty ts : Ty) (rnd : Rnd) (s : State) : Out :=
  convOp (.unpk k d a b ty ts rnd) ty ts rnd d (fun x e =>
    let j := (x.src b).toNat + e
    if j < tyCount ts then some (elem (x.src a) j ts) else none) s
/-- Consecutive general registers written, from register n up. -/
def writeRun (x : LaneCx) (lat : Lat) (n : Nat) (vs : List Word) (t : Thread) : Thread :=
  ((List.range vs.length).zip vs).foldl (fun t p => t.writeLat x lat (.g (n + p.1)) p.2) t

/-- Patterns two by two in registers, as f32 pairs (R384). -/
def pairUp : List Nat → List Word
  | a :: b :: r => BitVec.ofNat 64 (a + 2 ^ 32 * b) :: pairUp r
  | [a] => [BitVec.ofNat 64 a]
  | [] => []

/-- Eight registers as 64 bytes, little-endian (R324). -/
def regBytes (vs : List Word) : List Byte := vs.flatMap wordBytes

/-- Bytes as registers, eight a register (R385). -/
def bytesRegs (n : Nat) (bs : List Byte) : List Word :=
  (List.range n).map fun j => wordOfBytes ((bs.drop (8 * j)).take 8)

/-- QBLK in one thread (R385): on an enabled flag nothing is written but FPFLAGS, and TELEM is 0. -/
def qblkLane (x : LaneCx) (d : Fin 24) (a : Fin 192) (b : Option (Fin 192)) (ty : Ty) (rnd : Rnd) : LaneRes :=
  let m := blockRegs ty
  let xs := (List.range (2 * m)).map fun i => elem (x.g (a.val + i / 2)) (i % 2) .f32
  let r := qblkPack ty (x.mode rnd) xs
  if r.2.2 &&& x.ten ≠ 0 then { t := x.t.orFlags r.2.2, out := .trap { cause := 7 } }
  else
    let lat : Lat := .var (24 + m)
    let t := writeRun x lat (8 * d.val) (bytesRegs 8 r.1) x.t
    let t := match b with
      | some n => writeRun x lat n.val (pairUp r.2.1) t
      | none => t
    { t := t.orFlags r.2.2 }

/-- QBLK (R384, R385). -/
def execQblk (k : Ctl) (d : Fin 24) (a : Fin 192) (b : Option (Fin 192)) (ty : Ty) (rnd : Rnd) (s : State) : Out :=
  laneMap (.qblk k d a b ty rnd) (fun x => qblkLane x d a b ty rnd) s
/-- DQBLK (R325). -/
def execDqblk (k : Ctl) (d : Dst) (a : Fin 24) (b : Src) (ty : Ty) (rnd : Rnd) (s : State) : Out :=
  laneMap (.dqblk k d a b ty rnd) (fun x =>
    let bs := regBytes ((List.range 8).map fun j => x.g (8 * a.val + j))
    fpFinish x (.var 8) ty d (fElems ty fun e => dqElem ty (x.mode rnd) bs ((x.src b).toNat + e))) s
/-- GTID (R25, R44). -/
def gtidOf (w : Warp) (l : Nat) : Nat :=
  if w.service then 4 * (w.core - 1024) + w.wid else 32 * w.wpb * w.bid + 32 * w.wid + l

/-- The draw of a thread with its key, or the cause a GTID of 2^40 or more raises (R165, R391). -/
def drawLane (x : LaneCx) (a : Src) (key : Option Src) (f : KState → Thread) : LaneRes :=
  let g := gtidOf x.w x.lane
  if 2 ^ 40 ≤ g then { t := x.t, out := .trap { cause := 1 } }
  else
    let k := match key with
      | some r => x.src r
      | none => x.w.kindling
    { t := f (kindlingDraw (x.src a) (BitVec.ofNat 64 g) x.w.launchAddr k) }

/-- RNG (R165, R391). -/
def execRng (k : Ctl) (d : Dst) (a : Src) (key : Option Src) (ty : Ty) (s : State) : Out :=
  laneMap (.rng k d a key ty) (fun x => drawLane x a key fun z =>
    (x.t.writeD x (.var 12) d (rngPair ty z).1).writeHi x (.var 12) d (rngPair ty z).2) s
/-- RNGG (R166, R391). -/
def execRngg (k : Ctl) (d : Dst) (a : Src) (key : Option Src) (ty : Ty) (s : State) : Out :=
  laneMap (.rngg k d a key ty) (fun x => drawLane x a key fun z =>
    let g := gaussPair z
    if ty = .f64 then (x.t.writeD x (.var 40) d (BitVec.ofNat 64 g.1)).writeHi x (.var 40) d (BitVec.ofNat 64 g.2)
    else x.t.writeD x (.var 40) d (BitVec.ofNat 64
      ((convElem .f32 .f64 .rne false g.1).1 + 2 ^ 32 * (convElem .f32 .f64 .rne false g.2).1))) s

end Sys2Proof.Machine
end

