-- ==== Sys2Proof/Machine/Flow.lean ====
section
/-! DEFINITION. Class 6: branches, meeting addresses, exit, traps, sleep (R31, R309, R311, R328, R365, R370, R377, R389,
R404, R409, R418), and the return from a trap or a level (R240, R260, R327). -/

namespace Sys2Proof.Machine

/-! ## Branches (R278, R309, R389) -/

/-- A target: the instruction's address and an offset in units of 4 bytes (R278). -/
def labelOf (t : Thread) (off : Word) : Word := t.pc + 4 * off

/-- BRA with a 16-bit offset (R309). -/
def execBraLong (k : Ctl) (imm : BitVec 16) (s : State) : Out :=
  laneMap (.braLong k imm) (fun x => { t := x.t, out := .jump (labelOf x.t (sext16 imm)) }) s

/-- BRA with a 32-bit offset (R309). -/
def execBraLiteral (k : Ctl) (lit : BitVec 32) (s : State) : Out :=
  laneMap (.braLiteral k lit) (fun x => { t := x.t, out := .jump (labelOf x.t (sext32 lit)) }) s

/-- BRX (R309): the landing-pending bit is set. -/
def execBrx (k : Ctl) (a : Src) (s : State) : Out :=
  laneMap (.brx k a) (fun x => { t := { x.t with landing := true }, out := .jump (x.src a) }) s

/-- The latency of a link register: a variable-latency result (R55, R57). -/
def latLink : Lat := .var 4

/-- CALL with a 16-bit offset (R309). -/
def execCallLong (k : Ctl) (d : Dst) (imm : BitVec 16) (s : State) : Out :=
  laneMap (.callLong k d imm) (fun x =>
    { t := x.t.writeD x latLink d (nextPc (.callLong k d imm) x.t), out := .jump (labelOf x.t (sext16 imm)) }) s

/-- CALL with a 32-bit offset (R309). -/
def execCallLiteral (k : Ctl) (d : Dst) (lit : BitVec 32) (s : State) : Out :=
  laneMap (.callLiteral k d lit) (fun x =>
    { t := x.t.writeD x latLink d (nextPc (.callLiteral k d lit) x.t), out := .jump (labelOf x.t (sext32 lit)) }) s

/-- CALLX (R309): the target is read before the link is written. -/
def execCallx (k : Ctl) (d : Dst) (a : Src) (s : State) : Out :=
  laneMap (.callx k d a) (fun x =>
    { t := { x.t.writeD x latLink d (nextPc (.callx k d a) x.t) with landing := true }, out := .jump (x.src a) }) s

/-- RET (R389). -/
def execRet (k : Ctl) (a : Src) (s : State) : Out :=
  laneMap (.ret k a) (fun x => { t := x.t, out := .jump (x.src a) }) s

/-! ## Meeting addresses (R31, R370) -/

/-- A word with bits 1:0 cleared. -/
def aligned4 (v : Word) : Word := v &&& ~~~ 3#64

/-- MEET in the 64-bit form (R370). -/
def execMeetLong (k : Ctl) (m : MeetArg) (s : State) : Out :=
  laneMap (.meetLong k m) (fun x =>
    { t := { x.t with meet := aligned4 (match m with
        | .label off => labelOf x.t (sext16 off)
        | .reg r => x.src r) } }) s

/-- MEET in the 96-bit form (R370). -/
def execMeetLiteral (k : Ctl) (lit : BitVec 32) (s : State) : Out :=
  laneMap (.meetLiteral k lit) (fun x => { t := { x.t with meet := aligned4 (labelOf x.t (sext32 lit)) } }) s

/-- LEAVE in the 64-bit form (R370). -/
def execLeaveLong (k : Ctl) (a : Src) (imm : BitVec 16) (s : State) : Out :=
  laneMap (.leaveLong k a imm) (fun x =>
    { t := { x.t with meet := aligned4 (x.src a) }, out := .jump (labelOf x.t (sext16 imm)) }) s

/-- LEAVE in the 96-bit form (R370). -/
def execLeaveLiteral (k : Ctl) (a : Src) (lit : BitVec 32) (s : State) : Out :=
  laneMap (.leaveLiteral k a lit) (fun x =>
    { t := { x.t with meet := aligned4 (x.src a) }, out := .jump (labelOf x.t (sext32 lit)) }) s

/-- LAND (R365): the landing-pending bit of every thread of the bundle is cleared, whatever its guard. -/
def execLand (k : Ctl) (s : State) : Out :=
  laneMapPost (.land k) (fun x => { t := x.t })
    (fun u => s.lanes.foldl (fun u l => u.modThread s.cur.warp l fun t => { t with landing := false }) u) s

/-! ## Exit, traps, waiting -/

/-- One thread of EXIT (R328): on a service core a supervisor entry at user level, a stop above it. -/
def exitLane (l : Nat) (s : State) : State × LaneOut :=
  let n := s.cur.warp
  let w := s.warp n
  if w.service then
    if w.level = .user then
      let s1 := s.modThread n l fun t => { t with rsDepth := 0 }
      (s1.enterLevel n .supervisor 1 0 0 (BitVec.allOnes 64) (s.thread n l).pc, .off)
    else (s.stopService n, .off)
  else
    let s1 := s.exitThread n l
    (if w.paired && (s1.warp n).live.isEmpty then s1.closeSeg n 0 else s1, .off)

/-- EXIT (R328). -/
def execExit (k : Ctl) (s : State) : Out := laneFold (.exit k) exitLane s

/-- TRAP (R409). -/
def execTrap (k : Ctl) (imm : BitVec 16) (s : State) : Out :=
  laneMap (.trap k imm) (fun x => { t := x.t, out := .trap { cause := 8, addr := imm.setWidth 64 } }) s

/-- NOP (R377). -/
def execNop (k : Ctl) (s : State) : Out := laneMap (.nop k) (fun x => { t := x.t }) s

/-- YIELD (R418): if any thread is guard-true, the warp takes a new residency number, and a service thread gives up its next turn. -/
def execYield (k : Ctl) (s : State) : Out :=
  laneMapPost (.yield k) (fun x => { t := x.t })
    (fun u => if guardTrue (.yield k) s = [] then u
      else if s.curWarp.service then u.modThread s.cur.warp 0 fun t => { t with stallUntil := 8 }
      else u.renumber s.cur.warp) s

/-- SLEEP (R404). -/
def execSleep (k : Ctl) (a : Src) (s : State) : Out :=
  laneMap (.sleep k a) (fun x =>
    let n := wbits (x.src a) 0 32
    { t := if n = 0 then x.t else { x.t with asleep := some (x.now + n) } }) s

/-- BRKPT (R311). -/
def execBrkpt (k : Ctl) (s : State) : Out :=
  let hold := (s.tenant s.curWarp.tenant).debugHold
  laneMap (.brkpt k) (fun x =>
    if hold then { t := { x.t with debugSleep := true } }
    else { t := x.t, out := .trap { cause := 8, addr := BitVec.allOnes 64 } }) s

/-! ## ERET (R240, R260, R327) -/

/-- The type in which `ERET.sub` reads TRES (R240). -/
def destTy (i : Instr) : Ty :=
  match i with
  | .fdotLong _ _ _ _ _ _ _ | .fdotLiteral _ _ _ _ _ _ _ | .fsum _ _ _ _ _ => .f32
  | .idot4Long _ _ _ _ _ ty _ | .idot4Literal _ _ _ _ _ ty _ => if ty = .s8 then .s32 else .n32
  | i => match toRaw i with
    | some r => match r.form with
      | .compact => if r.cls = 3 then .f32 else if r.cls = 0 then .s64 else .b64
      | _ => (dTy r.ty).getD .b64
    | none => .b64

/-- TRES substituted into the marked sub-elements of a value (R240). -/
def substitute (t : Ty) (telem : BitVec 16) (tres old : Word) : Word :=
  mapElems t fun e => if telem.getLsbD e then elem tres e t else elem old e t

/-- The destinations of an instruction that TRES goes to (R240): the first of each kind that it writes. -/
def destsOf (i : Instr) : List RegRef :=
  let ws := writesOf i
  (ws.find? fun r => match r with
    | .g _ => true
    | _ => false).toList ++ (ws.find? fun r => match r with
    | .q _ => true
    | _ => false).toList ++ (ws.find? fun r => match r with
    | .w _ => true
    | _ => false).toList

/-- A thread with TRES substituted into the destinations of the instruction at TPC (R240): a register within N, a predicate. -/
def Thread.subst (t : Thread) (x : LaneCx) (i : Instr) : Thread :=
  if t.telem = 0 then t
  else (destsOf i).foldl (fun u r => match r with
    | .g n => if x.w.regsN ≤ n then u else u.writeLat x (.var 6) (.g n) (substitute (destTy i) t.telem x.w.tres (t.gcur n))
    | .q n => if t.telem.getLsbD 0 then u.writeLat x (.var 6) (.q n) (if wbit x.w.tres 0 then 1 else 0) else u
    | .w _ => u) t

/-- TRES substituted into a warp register, where the instruction at TPC writes one (R240). -/
def Warp.subst (w : Warp) (t : Thread) (i : Instr) : Warp :=
  if t.telem = 0 then w
  else (destsOf i).foldl (fun u r => match r with
    | .w n => { u with wregs := tset u.wregs n (substitute (destTy i) t.telem w.tres (tgetD w.wregs n 0)) }
    | _ => u) w

/-- A thread's bit of TMASK cleared (R240). -/
def State.leaveTrap (s : State) (n l : Nat) : State := s.modWarp n fun w => { w with tmask := mclr w.tmask l }

/-- `ERET.sub` at user level: the instruction at TPC is fetched and decoded now (R327). -/
def State.eretSub (s : State) (n l : Nat) : State × LaneOut :=
  let w := s.warp n
  let x := s.cx n l
  let r := s.fetch w w.tpc
  match r.2 with
  | .bytes bs _ =>
    let s1 := r.1.leaveTrap n l
    match decode bs with
    | .ok i => ((s1.modWarp n fun w => w.subst x.t i).modThread n l fun t => t.subst x i, .jump (w.tpc + BitVec.ofNat 64 i.length))
    | .error _ => (s1, .jump (w.tpc + BitVec.ofNat 64 bs.length))
  | .cause c => (r.1, .trap c)
  | .fault va e => r.1.accessFault n l accFetch va e 0xFFFF
  | .range _ => (r.1, .off)
  | .asleep => (r.1, .wait .power)
  | .unanswered va ipa => (r.1, .wait (.fabric r.1.now va ipa false false false))

/-- THE RETURN FROM A TRAP (R240) and from a privileged level (R260), for one thread. -/
def eretLane (i : Instr) (sub : Bool) (l : Nat) (s : State) : State × LaneOut :=
  let n := s.cur.warp
  let w := s.warp n
  if w.level = .user then
    if mbit w.tmask l = false then (s, .trap { cause := 1 })
    else if sub then s.eretSub n l
    else (s.leaveTrap n l, .jump w.tpc)
  else if sub then (s, .trap { cause := 1 })
  else
    let r := w.svc.regs w.level
    let s := s.modWarp n fun w => { w with svc := { w.svc with level := levelOf (wbits r.cause 16 2) } }
    (s.modThread n l fun u =>
      let back := u.graceBack (levelOf (wbits r.cause 16 2)) w.tenant r.pc
      { u.issued (s.core w.core).step (ctlOf i).stall.val r.pc with
        graceG := back.map GraceHold.g, graceKept := u.graceKept.filter fun h => some h != back }, .off)

/-- ERET and ERET.sub (R327). -/
def execEret (k : Ctl) (sub : Bool) (s : State) : Out := laneFold (.eret k sub) (eretLane (.eret k sub) sub) s

/-! ## Calls to a higher level (R260, R357, R399) -/

/-- A call enters a level with its KIND and immediate; XPC is the next instruction. -/
def callLane (i : Instr) (x : Level) (kind : Nat) (imm : BitVec 16) (l : Nat) (s : State) : State × LaneOut :=
  let n := s.cur.warp
  let t := s.thread n l
  let s1 := s.modThread n l fun u => u.issued (s.core s.curWarp.core).step (ctlOf i).stall.val u.pc
  (s1.enterLevel n x kind 0 0 (imm.setWidth 64) (nextPc i t), .off)

/-- SVC (R399): above user level it raises cause 0x01. -/
def execSvc (k : Ctl) (imm : BitVec 16) (s : State) : Out :=
  laneFold (.svc k imm) (fun l s =>
    if s.curWarp.level = .user then callLane (.svc k imm) .supervisor 1 imm l s else (s, .trap { cause := 1 })) s

/-- HVC (R357). -/
def execHvc (k : Ctl) (imm : BitVec 16) (s : State) : Out :=
  laneFold (.hvc k imm) (callLane (.hvc k imm) .hypervisor 2 imm) s

/-- SEC (R399). -/
def execSec (k : Ctl) (imm : BitVec 16) (s : State) : Out :=
  laneFold (.sec k imm) (callLane (.sec k imm) .monitor 3 imm) s

end Sys2Proof.Machine
end

