-- ==== Sys2Proof/Machine/System.lean ====
section
/-! DEFINITION. System registers (R236, R257 to R259, class 14), placement and invalidation (R194, R195, R202 to R208, class
12), and the launch instructions LAUNCH, CWAIT and CANCEL (R67, R74, R75, class 13). -/

namespace Sys2Proof.Machine

/-! ## Reading system registers (R25, R44, R45, R258) -/

/-- The target level of interrupt n (R236). -/
def intTarget (lvl : BitVec 32) (n : Nat) : Level :=
  match lvl.toNat / 2 ^ (2 * n) % 4 with
  | 1 => .supervisor
  | 3 => .monitor
  | _ => .hypervisor

/-- The level that interrupt n of a service thread enters: monitor for a security alarm, else its target (R234, R236). -/
def Svc.entryLevel (v : Svc) (n : Nat) : Level := if v.alarms.getLsbD n then .monitor else intTarget v.intlvl n

/-- The interrupts whose bits a level reads and writes (R236). -/
def intMask (lvl : BitVec 32) (x : Level) : BitVec 16 :=
  (List.range 16).foldl (fun m n => if (intTarget lvl n).num ≤ x.num then m ||| BitVec.ofNat 16 (2 ^ n) else m) 0

/-- The registers of a privileged level, by offset: vector, saved PC, cause, address. -/
def PrivRegs.get (r : PrivRegs) (o : Nat) : Word :=
  match o with
  | 0 => r.vec
  | 1 => r.pc
  | 2 => r.cause
  | _ => r.addr

/-- A write of a privileged level's register (R259). -/
def PrivRegs.put (r : PrivRegs) (o : Nat) (v : Word) : PrivRegs :=
  match o with
  | 0 => { r with vec := aligned4 v }
  | 1 => { r with pc := aligned4 v }
  | 2 => { r with cause := v &&& 0x3FFFF#64 }
  | _ => { r with addr := v }

/-- The identity registers (R25, R42, R44, R247). -/
def idReg (w : Warp) (l : Nat) (t : Thread) (n : Nat) : Nat :=
  match n with
  | 0 => if w.service then 0 else 32 * w.wid + l
  | 1 => if w.service then 0 else w.wid
  | 2 => w.bid
  | 3 => gtidOf w l
  | 4 => w.gangLin
  | 5 => w.launchAddr.toNat
  | 6 => t.rkey.toNat
  | 7 => t.rpay.toNat
  | _ => w.relaunch

/-- The core's registers (R44, R45, R258); `cycle` is the cycle of the thread's pass. -/
def coreReg (s : State) (w : Warp) (cycle n : Nat) : Nat :=
  let c := s.core w.core
  let at_ : State := { s with now := cycle }
  match n with
  | 0x10 => if w.service then 1 else c.lmap.toNat
  | 0x11 => if w.service then 1 else c.npass
  | 0x12 => if w.service then w.core - 1024 else w.core
  | 0x13 => if w.service then 2 ^ 64 - 1 else clusterOf w.core
  | 0x14 => dieOf w.core
  | 0x15 => w.tenant
  | 0x18 => at_.cycleOf w.service
  | _ => at_.timeNs

/-- The registers that a user-level thread may read beside those (R116, R126, R127, R148, R149, R237). -/
def userReg (s : State) (w : Warp) (t : Thread) (n : Nat) : Nat :=
  match n with
  | 0x20 => w.fpctl.toNat
  | 0x21 => t.fpflags.toNat
  | 0x22 => w.tmo.toNat
  | 0x23 => t.meet.toNat
  | 0x24 => s.coreSeq w
  | 0x25 => t.rsDepth
  | 0x28 => w.oc.cp
  | 0x29 => w.oc.gx
  | 0x2A => w.oc.mx
  | 0x2B => w.oc.cl
  | 0x2C => w.oc.pt
  | 0x2D => w.oc.bk
  | 0x30 => w.tvec.toNat
  | 0x31 => w.tcause.toNat
  | 0x32 => w.tpc.toNat
  | 0x33 => w.tmask.toNat
  | 0x34 => t.telem.toNat
  | 0x35 => w.tres.toNat
  | 0x36 => w.taddr.toNat
  | _ => s.power.lattol.toNat

/-- The interrupt registers as a level reads them (R236). -/
def intReg (w : Warp) (n : Nat) : Nat :=
  let v := w.svc
  let m := intMask v.intlvl v.level
  match n with
  | 0x58 => (v.intpend &&& m).toNat
  | 0x59 => (v.inten &&& m).toNat
  | 0x5A => v.intlvl.toNat
  | 0x5B => if (intTarget v.intlvl 2).num ≤ v.level.num then v.timecmp.toNat else 0
  | _ => 0

/-- A system register as a thread reads it (R257, R258). -/
def State.sysRead (s : State) (x : LaneCx) (n : Nat) : Word :=
  BitVec.ofNat 64 <|
    if n ≤ 8 then idReg x.w x.lane x.t n
    else if n < 0x20 then coreReg s x.w (x.now + x.pass) n
    else if n ≤ 0x38 then userReg s x.w x.t n
    else if n < 0x48 then (x.w.svc.sv.get (n - 0x40)).toNat
    else if n < 0x50 then (x.w.svc.hv.get (n - 0x48)).toNat
    else if n < 0x58 then (x.w.svc.mn.get (n - 0x50)).toNat
    else intReg x.w n

/-- SRD (R405). -/
def execSrd (k : Ctl) (d : Dst) (num : Fin 256) (s : State) : Out :=
  laneMap (.srd k d num) (fun x => { t := x.t.writeD x (.var 6) d (s.sysRead x num.val) }) s

/-! ## Writing system registers -/

/-- INTPEND_CLEAR: a write of INTPEND clears the bits its level reaches; the timer's bit is set again while it holds
(R236). -/
def State.clearPend (s : State) (n : Nat) (v : Word) : State :=
  (s.modWarp n fun w =>
    let m := intMask w.svc.intlvl w.svc.level &&& v.setWidth 16
    { w with svc := { w.svc with intpend := w.svc.intpend &&& ~~~ m, alarms := w.svc.alarms &&& ~~~ m } }).refreshTimer n

/-- IPISEND_WRITE (R236): at supervisor level only to a thread of the writer's tenant. -/
def State.ipisend (s : State) (n : Nat) (v : Word) : State :=
  let k := wbits v 0 8
  let w := s.warp n
  if w.svc.level = .supervisor ∧ (s.warp k).tenant ≠ w.tenant then s
  else (s.setPending k 3).modWarp k fun u => { u with svc := { u.svc with ipiFrom := n } }

/-- A write of INTLVL (R236): a 3 written below monitor level leaves its pair. -/
def intlvlWrite (old : BitVec 32) (x : Level) (v : Word) : BitVec 32 :=
  (List.range 16).foldl (fun m n =>
    let p := wbits v (2 * n) 2
    let q := if p = 3 ∧ x ≠ .monitor then old.toNat / 2 ^ (2 * n) % 4 else p
    m ||| BitVec.ofNat 32 (q * 2 ^ (2 * n))) 0

/-- A write of a service thread's interrupt registers (R236). -/
def State.intWrite (s : State) (n num : Nat) (v : Word) : State :=
  let w := s.warp n
  let m := intMask w.svc.intlvl w.svc.level
  match num with
  | 0x58 => s.clearPend n v
  | 0x59 => s.modWarp n fun w => { w with svc := { w.svc with inten := (w.svc.inten &&& ~~~ m) ||| (v.setWidth 16 &&& m) } }
  | 0x5A => s.modWarp n fun w => { w with svc := { w.svc with intlvl := intlvlWrite w.svc.intlvl w.svc.level v } }
  | 0x5B =>
    if (intTarget w.svc.intlvl 2).num ≤ w.svc.level.num then
      (s.modWarp n fun w => { w with svc := { w.svc with timecmp := v } }).refreshTimer n
    else s
  | _ => s.ipisend n v

/-- A system register written by a thread (R148, R149, R237, R257, R258). The lanes of a bundle write in turn, so that the highest
leaves its value; DESIGN CHOICE: its write of RM 5 to 7 leaves the RM that a lower lane of the bundle wrote, of which R148 says nothing
(log 82). -/
def State.sysWrite (s : State) (n l num : Nat) (v : Word) : State :=
  match num with
  | 0x15 => s.modWarp n fun w => { w with tenant := wbits v 0 4 }
  | 0x20 => s.modWarp n fun w => { w with fpctl := fpctlWrite w.fpctl v }
  | 0x21 => s.modThread n l fun t => { t with fpflags := v.setWidth 5 }
  | 0x22 => s.modWarp n fun w => { w with tmo := v }
  | 0x23 => s.modThread n l fun t => { t with meet := aligned4 v }
  | 0x30 => s.modWarp n fun w => { w with tvec := aligned4 v }
  | 0x32 => s.modWarp n fun w => { w with tpc := aligned4 v }
  | 0x35 => s.modWarp n fun w => { w with tres := v }
  | 0x38 => { s with power := { s.power with lattol := v &&& 0xFFFFFFFF#64 } }
  | _ =>
    if num < 0x48 then s.modWarp n fun w => { w with svc := { w.svc with sv := w.svc.sv.put (num - 0x40) v } }
    else if num < 0x50 then s.modWarp n fun w => { w with svc := { w.svc with hv := w.svc.hv.put (num - 0x48) v } }
    else if num < 0x58 then s.modWarp n fun w => { w with svc := { w.svc with mn := w.svc.mn.put (num - 0x50) v } }
    else s.intWrite n num v

/-- One thread of SWR: TENANT inside a read section raises cause 0x0C (R257). -/
def swrLane (num : Nat) (a : Src) (l : Nat) (s : State) : State × LaneOut :=
  let n := s.cur.warp
  let x := s.cx n l
  if num = 0x15 ∧ x.t.rsDepth ≠ 0 then (s, .trap { cause := 0x0C }) else (s.sysWrite n l num (x.src a), .next)

/-- SWR (R405): the highest writing lane's value stays in a register held per warp. -/
def execSwr (k : Ctl) (num : Fin 256) (a : Src) (s : State) : Out :=
  laneFold (.swr k num a) (swrLane num.val a) s

/-! ## Placement (R202 to R207) -/

/-- Runs a placement instruction: in a paired launch once, after a compare (R202). -/
def placeOnce (i : Instr) (f : Nat → State → State × LaneOut) (s : State) : Out := segOnce i id (laneFold i f) s

/-- The translation of the page a placement instruction names, with the frame that backs it now: it acts on a page of the thread's TENANT
and accesses nothing there, so it names a virtual address at every level (R202, R207; DEDUCED against R419). DESIGN CHOICE: its permission
is judged as a load's, which no rule states (log 98). -/
def State.pageXlat (s : State) (w : Warp) (acc : Acc) (va : Nat) : State × Except XErr Xlat :=
  let r := s.translate (clusterOf w.core) w.tenant (w.level == .user) acc va
  (r.1, r.2.map fun x => { x with pa := r.1.homeAddr x.pa })

/-- The page a placement instruction names, with what the thread does where it does not translate (R202). -/
def State.page (s : State) (n l : Nat) (e : Word) : State × Except LaneOut Xlat :=
  if canonical e = false then (s, .error (.trap { cause := 6, addr := e }))
  else
    let r := s.pageXlat (s.warp n) accLoad (addr e)
    match r.2 with
    | .ok x => (r.1, .ok x)
    | .error x =>
      let q := r.1.accessFault n l accLoad e x 0xFFFF
      (q.1, .error q.2)

/-- Whether a page is pinned: its frame's bit, or PINRQ (R207). -/
def State.pinned (s : State) (x : Xlat) : Bool := s.pins.contains (frameOf (s.homeAddr x.pa)) || x.pinrq

/-- Step 1 of R203: whether a move of a page to a tier is forbidden. -/
def moveStop (x : Xlat) (t : Nat) : Bool :=
  !x.tiers.testBit t || (tierOf x.pa != some t && !x.mig) || (x.ms && t != 0) || (x.pinrq && x.aff != t + 1)

/-- A migration of a translated page to a tier. -/
def State.migrate (s : State) (x : Xlat) (t : Nat) : Option State := s.startMigration x.pa x.tenant x.ipa x.leafPa t

/-- A frame's pin bit set or cleared. -/
def State.setPin (s : State) (f : Nat) (b : Bool) : State :=
  { s with pins := if b then insNat f s.pins else s.pins.filter (· != f) }

/-- One thread of PIN (R203). DESIGN CHOICE: `cur` (t = 3) on a page that has no tier, of a device window, raises cause 0x0E; the rule does
not name the case (log 97). -/
def pinLane (q : Pred) (a : Src) (imm : BitVec 16) (t : Nat) (l : Nat) (s : State) : State × LaneOut :=
  let n := s.cur.warp
  let e := (s.cx n l).ea a imm
  let r := s.page n l e
  match r.2 with
  | .error o => (r.1, o)
  | .ok x =>
    let s := r.1
    let goal : Option Nat := if t = 3 then tierOf x.pa else some t
    match goal with
    | none => (s, .trap { cause := 0x0E, addr := e })
    | some t =>
      if moveStop x t then (s, .trap { cause := 0x0E, addr := e })
      else if (s.coverOf x.pa).isSome then s.bounded n l (.moved (frameOf x.pa)) (s.answer n l q false)
      else if tierOf x.pa = some t then ((s.setPin (frameOf x.pa) true).answer n l q true, .next)
      else match s.migrate x t with
        | some s => s.bounded n l (.moved (frameOf x.pa)) (s.answer n l q false)
        | none => s.bounded n l (.frames t) (s.answer n l q false)

/-- PIN (R203). -/
def execPin (k : Ctl) (q : Pred) (a : Src) (imm : BitVec 16) (t : Fin 4) (s : State) : Out :=
  placeOnce (.pin k q a imm t) (pinLane q a imm t.val) s

/-- UNPIN (R204). -/
def execUnpin (k : Ctl) (a : Src) (imm : BitVec 16) (s : State) : Out :=
  placeOnce (.unpin k a imm) (fun l s =>
    let n := s.cur.warp
    let r := s.page n l ((s.cx n l).ea a imm)
    match r.2 with
    | .error o => (r.1, o)
    | .ok x => (r.1.setPin (frameOf (r.1.homeAddr x.pa)) false, .next)) s

/-- Whether a page's migration to a tier may start but for the counter (R197, R205). -/
def State.hintOk (s : State) (x : Xlat) (t : Nat) : Bool :=
  x.mig && !s.pinned x && x.tiers.testBit t && (tierOf x.pa).isSome && tierOf x.pa != some t && (s.coverOf x.pa).isNone

/-- One thread of HINT: a page that would fault is skipped. -/
def hintLane (a : Src) (imm : BitVec 16) (t : Nat) (l : Nat) (s : State) : State × LaneOut :=
  let n := s.cur.warp
  let e := (s.cx n l).ea a imm
  if canonical e = false then (s, .next)
  else
    let r := s.pageXlat (s.warp n) accLoad (addr e)
    match r.2 with
    | .error _ => (r.1, .next)
    | .ok x => (if r.1.hintOk x t then (r.1.migrate x t).getD r.1 else r.1, .next)

/-- HINT (R205). -/
def execHint (k : Ctl) (a : Src) (imm : BitVec 16) (t : Fin 3) (s : State) : Out :=
  placeOnce (.hint k a imm t) (hintLane a imm t.val) s

/-- What MIGR does with a translated page (R206): a forbidden move, or its predicate. -/
def State.migrAt (s : State) (x : Xlat) (t : Nat) : Option (State × Bool) :=
  if moveStop x t || (s.pinned x && tierOf x.pa != some t) then none
  else if (s.coverOf x.pa).isSome then some (s, false)
  else if tierOf x.pa = some t then some (s, true)
  else match s.migrate x t with
    | some s => some (s, true)
    | none => some (s, false)

/-- One thread of MIGR. -/
def migrLane (q : Pred) (a : Src) (imm : BitVec 16) (t : Nat) (l : Nat) (s : State) : State × LaneOut :=
  let n := s.cur.warp
  let e := (s.cx n l).ea a imm
  let r := s.page n l e
  match r.2 with
  | .error o => (r.1, o)
  | .ok x => match r.1.migrAt x t with
    | none => (r.1, .trap { cause := 0x0E, addr := e })
    | some p => (p.1.answer n l q p.2, .next)

/-- MIGR (R206). -/
def execMigr (k : Ctl) (q : Pred) (a : Src) (imm : BitVec 16) (t : Fin 3) (s : State) : Out :=
  placeOnce (.migr k q a imm t) (migrLane q a imm t.val) s

/-- The state of a page as PROBE reports it (R207). DESIGN CHOICE: a page of a device window, which has no tier, reports TIER 0; the rule
gives it no value (log 96). -/
def State.probeWord (s : State) (x : Xlat) : Nat :=
  let b (v : Bool) (i : Nat) : Nat := if v then 2 ^ i else 0
  s.counter (frameOf (s.homeAddr x.pa)) * 2 ^ 16 + x.tiers * 2 ^ 8 + b x.mig 7 + b x.repl 6 + b x.ms 5 + b (s.pinned x) 4 +
    match s.coverOf x.pa with
    | some f => 2 ^ 3 + f.srcTier
    | none => (tierOf x.pa).getD 0

/-- One thread of PROBE: it never faults; UNMAP is 1 where the translation would, not where ownership alone is lacking (R207, R211). -/
def probeLane (d : Dst) (a : Src) (imm : BitVec 16) (l : Nat) (s : State) : State × LaneOut :=
  let n := s.cur.warp
  let c := s.cx n l
  let e := c.ea a imm
  let give (s : State) (v : Nat) : State × LaneOut :=
    (s.modThread n l fun t => t.writeD c (.var 300) d (BitVec.ofNat 64 v), .next)
  if canonical e = false then give s (2 ^ 63)
  else
    let r := s.pageXlat c.w accPlace (addr e)
    match r.2 with
    | .error _ => give r.1 (2 ^ 63)
    | .ok x => give r.1 (r.1.probeWord x)

/-- PROBE (R207). -/
def execProbe (k : Ctl) (d : Dst) (a : Src) (imm : BitVec 16) (s : State) : Out :=
  placeOnce (.probe k d a imm) (probeLane d a imm) s

/-! ## Invalidation (R194, R195) -/

/-- Whether an address lies in the output of an entry. -/
def TlbEntry.outputs (e : TlbEntry) (a : Nat) : Bool := e.pbase ≤ a && a < e.pbase + e.size

/-- Whether a paired gang still holds back a write to some addresses (R109, R194). -/
def State.heldBack (s : State) (p : Nat → Bool) : Bool :=
  s.warps.any fun w => w.2.seg.held.any fun h => match h.2 with
    | .store (.mem x) _ | .red (.mem x) _ _ _ => p x.pa
    | _ => false

/-- Threads that wait for a counter translate its address again (R74): the page it lies in may move. -/
def State.recheckCounters (s : State) : State :=
  let again (t : Thread) : Thread := match t.wait with
    | .counter _ _ => { t with wait := .none }
    | _ => t
  { s with warps := s.warps.map fun w => (w.1, { w.2 with threads := w.2.threads.map again }) }

/-- Every L1 sends off its dirty bytes at some addresses; an error while one of them waits for a Switch (R200). -/
def State.pushAll (s : State) (p : Nat → Bool) : Except State State :=
  let s := s.l1Cores.foldl (fun s c => s.l1Push c p) s
  if s.l1Cores.any fun c => s.stalls c p then .error s else .ok s

/-- Entries removed (R194): every access translated with them has been performed, and the dirty L1 bytes of the pages they
mapped are written back. An error while a write must wait. -/
def State.tlbDrop (s : State) (p : TlbEntry → Bool) : Except State State :=
  let old := s.tlb.filter p
  let there (a : Nat) : Bool := old.any fun e => e.outputs a
  match s.drainEverything with
  | .error s => .error s
  | .ok s =>
    if s.heldBack there then .error s
    else (s.pushAll there).map fun s => { s with tlb := s.tlb.filter fun e => !p e }.recheckCounters

/-- The cached lines of a frame dropped from every L1 and L2, once their dirty bytes are home (R194). -/
def State.frameDrop (s : State) (f : Nat) : Except State State :=
  (s.pushAll fun a => frameOf a == f).map fun s =>
    (s.l1Cores.foldl (fun s c => s.l1Drop c fun a => frameOf a == f) s).l2FlushAll (fun a => frameOf a == f) true

/-- Whether an entry's walk passes through a stage-2 leaf that maps some of a range of intermediate addresses (R195). -/
def TlbEntry.through (e : TlbEntry) (lo hi : Nat) : Bool := e.via.any fun v => decide (v.1 < hi ∧ lo < v.1 + v.2)

/-- What a form of TLBI names, and the operand that its limits bound (R195). The model keeps one combined entry for both
stages, with the stage-2 leaves it passes through. -/
def tlbiNames (x : LaneCx) (m : TlbiArg) : (Word × Bool) × (TlbEntry → Bool) :=
  match m with
  | .pg a b =>
    let lo := (x.src a).toNat / 4096 * 4096
    let hi := lo + (wbits (x.src b) 0 16 + 1) * 4096
    ((x.src b, wbits (x.src b) 16 48 == 0), fun e => e.tenant == x.w.tenant && decide (e.vbase < hi ∧ lo < e.vbase + e.size))
  | .s1 => ((0, true), fun e => e.tenant == x.w.tenant)
  | .gp a b =>
    let lo := (x.src a).toNat / 4096 * 4096
    ((x.src b, wbits (x.src b) 20 44 == 0), fun e => e.tenant == wbits (x.src b) 16 4 && e.through lo (lo + (wbits (x.src b) 0 16 + 1) * 4096))
  | .all b => ((x.src b, wbits (x.src b) 4 60 == 0), fun e => e.tenant == wbits (x.src b) 0 4)
  | .fr a => ((0, true), fun e => e.outputs ((x.src a).toNat / 4096 * 4096))

/-- One thread of TLBI. -/
def tlbiLane (m : TlbiArg) (l : Nat) (s : State) : State × LaneOut :=
  let x := s.cx s.cur.warp l
  let q := tlbiNames x m
  if q.1.2 = false then (s, .trap { cause := 1, addr := q.1.1 })
  else match s.tlbDrop q.2 with
    | .error s1 => (s1, .wait .drain)
    | .ok s1 => match m with
      | .fr a => match s1.frameDrop (frameOf (x.src a).toNat) with
        | .ok s2 => (s2, .next)
        | .error s2 => (s2, .wait .drain)
      | _ => (s1, .next)

/-- TLBI (R195). -/
def execTlbi (k : Ctl) (m : TlbiArg) (s : State) : Out := placeOnce (.tlbi k m) (tlbiLane m) s

/-- Whether an invalidation of the migration engine, of a tenant or of any, has not completed (R195, R199): from its Switch to
its Release. -/
def State.invalidating (s : State) (t : Option Nat) : Bool :=
  s.fwds.any fun p => p.2.switched && match t with
    | some t => p.2.tenant == t
    | none => true

/-- TLBSYNC (R195): at user level only for the thread's own tenant. -/
def execTlbsync (k : Ctl) (s : State) : Out :=
  placeOnce (.tlbsync k) (fun _ s =>
    let w := s.curWarp
    let t : Option Nat := if w.level = .user then some w.tenant else none
    if s.invalidating t then (s, .wait (.sync t)) else (s, .next)) s

/-- AFF written in a leaf at its point of coherence (R208). -/
def State.writeAff (s : State) (leaf : Leaf) (aff : Nat) : Option State :=
  s.ownWrite (placed leaf.at_ (leBytes 8 (leaf.e - bitsOf leaf.e 8 2 * 256 + aff * 256)))

/-- The move that TAFF makes after its update (R208). -/
def State.taffMove (s : State) (n l : Nat) (e : Word) (aff : Nat) : State × LaneOut :=
  if aff = 0 then (s, .next)
  else
    let r := s.page n l e
    match r.2 with
    | .error o => (r.1, o)
    | .ok x =>
      if tierOf x.pa = some (aff - 1) then (r.1, .next)
      else match r.1.migrAt x (aff - 1) with
        | none => (r.1, .trap { cause := 0x0E, addr := e })
        | some p => (p.1, .next)

/-- One thread of TAFF (R208). With stage 1 off there is no leaf to write. -/
def taffLane (a : Src) (imm : BitVec 16) (aff : Nat) (l : Nat) (s : State) : State × LaneOut :=
  let n := s.cur.warp
  let x := s.cx n l
  let e := x.ea a imm
  if canonical e = false then (s, .trap { cause := 6, addr := e })
  else
    let r := s.walk1 x.w.tenant (addr e)
    let s := s.walkFills (if x.w.service then 256 else clusterOf x.w.core) r.1.reads
    match r.2 with
    | .error err => s.accessFault n l accLoad e err 0xFFFF
    | .ok none => s.taffMove n l e aff
    | .ok (some leaf) =>
      let page := addr e / 4096 * 4096
      match s.writeAff leaf aff with
      | none => (s.stallFor (some (frameOf leaf.at_)) (.thread n l), .wait (.window (frameOf leaf.at_)))
      | some s1 => match s1.tlbDrop fun t => t.tenant == x.w.tenant && decide (t.vbase ≤ page ∧ page < t.vbase + t.size) with
        | .error s2 => (s2, .wait .drain)
        | .ok s2 => s2.taffMove n l e aff

/-- TAFF (R208). -/
def execTaff (k : Ctl) (a : Src) (imm : BitVec 16) (aff : Fin 4) (s : State) : Out :=
  placeOnce (.taff k a imm aff) (taffLane a imm aff.val) s

/-! ## LAUNCH, CWAIT, CANCEL (R67, R74, R75) -/

/-- A queue and a tenant for a post, from the record's tenant and queue bytes (R67). -/
def postTarget (w : Warp) (bs : List Byte) : Nat × Nat :=
  let t := leNat (bs.take 2)
  let q := leNat (bs.drop 3) % 16
  (if t < 16 ∧ (t = w.tenant ∨ 2 ≤ w.level.num) then t else w.tenant, q)

/-- One thread of LAUNCH (R67, R366). -/
def launchLane (q : Pred) (a : Src) (l : Nat) (s : State) : State × LaneOut :=
  let n := s.cur.warp
  let x := s.cx n l
  let p := x.src a
  if p.toNat % 256 ≠ 0 ∨ canonical p = false then (s, .trap { cause := 6, addr := p })
  else match s.release n .pk with
    | .error q => (q.1, .wait q.2)
    | .ok s1 =>
      let r := s1.access n l accLoad (p + 0x28) 4 0xFFFF
      match r.2 with
      | .error o => (r.1, o)
      | .ok y =>
        let v := r.1.devLoad y 4
        let t := postTarget x.w v.2
        let r2 := v.1.post t.1 t.2 { ptr := p.toNat, poster := x.w.tenant, high := decide (2 ≤ x.w.level.num) }
        (r2.1.answer n l q r2.2, .next)

/-- LAUNCH (R366). -/
def execLaunch (k : Ctl) (q : Pred) (a : Src) (s : State) : Out :=
  segOnce (.launch k q a) id (memFold (.launch k q a)
    (fun x => if (x.src a).toNat % 256 = 0 then x.src a + 0x28 else 1) 4 (launchLane q a)) s

/-- The dword of a counter at its point of coherence (R322): the warp's own stores to it have gone there. -/
def State.counterRead (s : State) (n : Nat) (x : Xlat) : Except (State × Wait) (State × Nat) :=
  let w := s.warp n
  match s.drainAll n with
  | .error s => .error (s, .drain)
  | .ok s => (s.sendAtomic w.core x).map fun s =>
    let r := if regionOf x.pa = .window then s.winRead w.level.num x.pa 8 else s.pocRead w.core x 8
    (r.1, leNat r.2)

/-- One thread of CWAIT (R74). -/
def cwaitLane (q : Pred) (a b : Src) (l : Nat) (s : State) : State × LaneOut :=
  let n := s.cur.warp
  let x := s.cx n l
  if x.t.rsDepth ≠ 0 then (s, .trap { cause := 0x0C })
  else
    let r := s.access n l accLoad (x.src a) 8 0xFFFF
    match r.2 with
    | .error o => (r.1, o)
    | .ok y => match (if regionOf y.pa = .window then r.1.winCause x.w.level.num y.pa 8 else none), r.1.counterRead n y with
      | some c, _ => (r.1, .trap c)
      | none, .error q => (q.1, .wait q.2)
      | none, .ok p =>
        if p.1.poisoned (p.1.homeAddr y.pa) then p.1.consume n
        else if (x.src b).toNat ≤ p.2 then ((p.1.acquire x.w.core .pk).answer n l q true, .next)
        else p.1.bounded n l (.counter y.pa (x.src b)) (p.1.answer n l q false)

/-- CWAIT (R322). -/
def execCwait (k : Ctl) (q : Pred) (a b : Src) (s : State) : Out :=
  memFold (.cwait k q a b) (fun x => x.src a) 8 (cwaitLane q a b) s

/-- The offset of an identifier in a record (R63). -/
def idOffset : CancelKind → Nat
  | .graph => 0x80
  | .phase => 0x88
  | _ => 0x90

/-- Whether a retained record is what a CANCEL names. -/
def Launch.named (l : Launch) (kind : CancelKind) (v : Nat) : Bool :=
  match kind with
  | .launch => l.addr == v
  | .graph => l.lrec.graph == v
  | .phase => l.lrec.phase == v
  | .job => l.lrec.job == v

/-- Whether a posted entry is what a CANCEL names. -/
def State.postNamed (s : State) (t : Nat) (p : Post) (kind : CancelKind) (v : Nat) : Bool :=
  match kind with
  | .launch => p.ptr == v
  | _ => s.recordWord t p.ptr (idOffset kind) == some v

/-- The gangs of a launch's grid. -/
def LaunchRec.gangs (r : LaunchRec) : Nat := r.gx * r.gy * r.gz

/-- Whether a record is a reorder target (R40). -/
def LaunchRec.target (r : LaunchRec) : Bool := r.flags.testBit 2

/-- Whether a launch has done all its work (R43, R71): every block it placed has retired, no gang of its grid and no emitted warp
is still to be placed, and no deposit is held. -/
def State.workDone (s : State) (l : Launch) : Bool :=
  l.state == .ready && l.retired == l.placed && l.emitted == [] &&
    (if l.lrec.target then match s.retarget l.tenant l.addr with
        | some r => r.buf0 == [] && r.buf1 == []
        | none => true
      else decide (l.lrec.gangs ≤ l.nextGang))

/-- A launch cancelled (R43, R75). -/
def State.cancelLaunch (s : State) (id : Nat) (l : Launch) : State :=
  let s := s.stopLaunch id 1 0 0
  { s with retargets := s.retargets.filter fun r => !(r.addr == l.addr && r.tenant == l.tenant) }

/-- CANCEL of what a nonzero name covers among a tenant's launches (R75): those posted and not yet accepted, whose deposits are
discarded, and those accepted; one whose last block has retired completes. -/
def State.cancel (s : State) (t : Nat) (kind : CancelKind) (v : Nat) : State :=
  let s1 := (s.modTenant t fun k => { k with
    queues := k.queues.map fun q => (q.1, q.2.map fun p => if s.postNamed t p kind v then { p with cancelled := true } else p) }).dropTargets t
  (s1.launches.filter fun p => p.2.tenant = t ∧ p.2.state ≠ .finished ∧ p.2.named kind v ∧ s1.workDone p.2 = false).foldl
    (fun s p => s.cancelLaunch p.1 p.2) s1

/-- CANCEL (R312): the threads issue it, and what each of them names is cancelled then, so that a thread that cancels its own
launch stops at a later boundary. -/
def execCancel (k : Ctl) (kind : CancelKind) (a : Src) (s : State) : Out :=
  let names := (guardTrue (.cancel k kind a) s).map fun l => ((s.cx s.cur.warp l).src a).toNat
  laneMapPost (.cancel k kind a) (fun x => { t := x.t })
    (fun s1 => names.foldl (fun s2 v => if v = 0 then s2 else s2.cancel s.curWarp.tenant kind v) s1) s

end Sys2Proof.Machine
end

