-- ==== Sys2Proof/Machine/Place.lean ====
section
/-! DEFINITION. Placement (R26, R27, R35, R76 to R78, R80), and the reorder unit with REORD (R39 to R42). -/

namespace Sys2Proof.Machine

/-! ## Room on a core (R76) -/

/-- The blocks that hold resources of a core: resident ones and, unless `ign`, those being saved. -/
def State.heldOn (s : State) (c : Nat) (ign : Bool) : List Block :=
  (s.blocks.filter fun p => p.2.core = c ∧ (p.2.state = .resident ∨ (p.2.state = .saving ∧ ign = false))).map Prod.snd

/-- The sum of a list. -/
def sumNat (l : List Nat) : Nat := l.foldl (· + ·) 0

/-- The lines of a core's scratchpad that are retired, or under test and so out of use (R249). -/
def State.outLines (s : State) (c : Nat) : List Nat :=
  (s.selfTests.filterMap fun u => match u with
    | .scratchLine d l => if d = c then some l else none
    | _ => none).foldl (fun t l => insNat l t) (s.core c).retiredScratch

/-- Whether a core has a block's needs free (R76); a line of its scratchpad that is out of use serves no block (R249). -/
def State.roomOn (s : State) (r : LaunchRec) (ign : Bool) (c : Nat) : Bool :=
  let bs := s.heldOn c ign
  decide (sumNat (bs.map fun b => b.warps.length) + r.w ≤ Config.warpSlots ∧
    sumNat (bs.map fun b => 256 * b.warps.length * s.blockN b) + 256 * r.w * r.n ≤ Config.regFileBytes ∧
    sumNat (bs.map Block.allocBytes) + r.s + 32 * r.w * r.p + 256 * (s.outLines c).length ≤ Config.scratchBytes)

/-- Whether a core takes blocks of a tenant: enabled, not waiting for a soft fuse (R61), and open to it by OWNER and EXCL
(R81). -/
def State.openTo (s : State) (t c : Nat) : Bool :=
  let k := s.core c
  k.enabled && k.fusePending.isNone && (k.owner == t || (k.owner == 16 && !(s.tenant t).excl))

/-- Whether a core can take a block of a tenant now. -/
def State.fits (s : State) (t : Nat) (r : LaunchRec) (ign : Bool) (c : Nat) : Bool := s.openTo t c && s.roomOn r ign c

/-- Whether a cluster can take a gang. -/
def State.clusterFits (s : State) (t : Nat) (r : LaunchRec) (ign : Bool) (k : Nat) : Bool :=
  r.g ≤ (((List.range 4).map (4 * k + ·)).filter (s.fits t r ign)).length

/-- Whether a record is of a paired launch. -/
def LaunchRec.paired (r : LaunchRec) : Bool := r.flags.testBit 0

/-- Whether a gang fits somewhere; a paired one on both dies (R76). -/
def State.gangFits (s : State) (t : Nat) (r : LaunchRec) (ign : Bool) : Bool :=
  let die (d : Nat) : Bool := (List.range 128).any fun k => s.clusterFits t r ign (128 * d + k)
  if r.paired then die 0 && die 1 else die 0 || die 1

/-- Whether a list of cores is a place for one gang: G distinct cores of one cluster, each with room. -/
def State.coresOk (s : State) (t : Nat) (r : LaunchRec) (cs : List Nat) : Bool :=
  cs.length == r.g && cs.Nodup && cs.all (fun c => decide (c < 1024) && s.fits t r false c) &&
    cs.all fun c => clusterOf c == clusterOf (cs.headD 0)

/-- Whether a list of cores is a place for a launch's next gang: of a paired one, the die-0 twin's cores come first. -/
def State.placeOk (s : State) (t : Nat) (r : LaunchRec) (cs : List Nat) : Bool :=
  if r.paired then
    s.coresOk t r (cs.take r.g) && s.coresOk t r (cs.drop r.g) && dieOf (cs.headD 0) == 0 && dieOf ((cs.drop r.g).headD 0) == 1
  else s.coresOk t r cs

/-! ## A block becomes resident (R27, R80) -/

/-- A thread at its first issue (R27). -/
def startThread (pc : Word) : Thread := { pc := pc, exited := false }

/-- The warp slots of a core that no block holds, lowest first. -/
def State.freeSlots (s : State) (c : Nat) : List Nat :=
  let used := (s.heldOn c false).flatMap Block.warps
  ((List.range Config.warpSlots).map fun k => 256 + 64 * c + k).filter fun n => !used.contains n

/-- What places a block: its launch, gang, position, number and relaunch count, and the threads of its warps. -/
structure Placing where
  lid : Nat
  gang : Nat
  pos : Nat
  bid : Nat
  lin : Nat
  relaunch : Nat
  threads : List Thread
  deriving DecidableEq, Repr

/-- A warp at its first issue (R27). -/
def startWarp (l : Launch) (p : Placing) (block core wid residency : Nat) : Warp :=
  { core := core, tenant := l.tenant, launch := p.lid, block := block, gang := p.gang, pos := p.pos, bid := p.bid,
    gangLin := p.lin, wid := wid, wpb := l.lrec.w, regsN := l.lrec.n, launchAddr := BitVec.ofNat 64 l.addr,
    relaunch := p.relaunch, priority := l.lrec.priority, kindling := l.lrec.key, detFloat := l.lrec.flags.testBit 3,
    paired := l.lrec.paired, checking := l.lrec.flags.testBit 1, resident := true, threads := p.threads,
    wregs := [(0, l.lrec.param), (1, BitVec.ofNat 64 l.addr)], residency := residency }

/-- The first issue on a core after a block comes: an acquire at `.pk`, and the instruction cache is dropped (R83, R115,
R284). -/
def State.freshCore (s : State) (c : Nat) : State := (s.l1DropClean c).dropIcache c

/-- The free 16-byte places of a core's scratchpad for an allocation of a number of bytes, in the order in which it takes them; the
search begins where a free value says (log 11). -/
def State.freeGrans (s : State) (c need : Nat) : List Nat :=
  if need = 0 then []
  else
    let used := (s.heldOn c false).flatMap Block.grans
    let from_ := Config.scratchAt s.drawn
    (((List.range (Config.scratchBytes / 16)).map fun i => (from_ + i) % (Config.scratchBytes / 16)).filter
      fun g => !used.contains g && !(s.outLines c).contains (g / 16)).take (need / 16)

/-- The lane-private bytes of an allocation at its start, by offset: what the tenant left at their physical places (R27). -/
def earlier (left : Tbl Byte) (grans : List Nat) (s need : Nat) : Tbl Byte :=
  ((List.range (need - s)).map (s + ·)).filterMap fun o =>
    (tget left (physByte grans o)).map fun v => (o, v)

/-- A block becomes resident on a core (R27): core scratch is zero and empty; the lane-private bytes hold what the tenant left in
them. -/
def State.placeBlock (s : State) (p : Placing) (c : Nat) : State :=
  match tget s.launches p.lid with
  | none => s
  | some l =>
    let k := s.core c
    let id := s.fresh
    let slots := (s.freeSlots c).take l.lrec.w
    let need := l.lrec.s + 32 * l.lrec.w * l.lrec.p
    let grans := s.freeGrans c need
    let b : Block :=
      { launch := p.lid, gang := p.gang, pos := p.pos, bid := p.bid, core := c, warps := slots, sBytes := l.lrec.s,
        pBytes := l.lrec.p, grans := grans, scratch := earlier (tgetD k.slices l.tenant []) grans l.lrec.s need }
    let ws : List (Nat × Warp) := mapFrom (fun (i n : Nat) => (n, startWarp l p id c i (k.nextResidency + i))) 0 slots
    let s1 := s.modCore c fun k => { k with nextResidency := k.nextResidency + slots.length }
    let s2 := { s1 with
      blocks := tset s1.blocks id b
      warps := ws.foldl (fun t (w : Nat × Warp) => tset t w.1 w.2) s1.warps
      gangs := tmod s1.gangs p.gang fun g => { g with blocks := g.blocks ++ [id], cluster := clusterOf c }
      drawn := if need = 0 then s1.drawn else s1.drawn + 1 }
    s2.bump.freshCore c

/-- A gang of a launch becomes resident on cores, block position p on the p-th (R26). -/
def State.placeGang (s : State) (lid gang lin relaunch : Nat) (cs : List Nat) : State :=
  match tget s.launches lid with
  | none => s
  | some l =>
    (mapFrom (fun p c => (p, c)) 0 cs).foldl (fun s (pc : Nat × Nat) =>
      s.placeBlock
        { lid := lid, gang := gang, pos := pc.1, bid := l.lrec.g * lin + pc.1, lin := lin, relaunch := relaunch,
          threads := List.replicate 32 (startThread l.lrec.entry) } pc.2) s

/-- A gang's record, before its blocks come. -/
def newGang (lid lin relaunch : Nat) (twin : Option Nat) (onDie1 : Bool) : Gang :=
  { launch := lid, lin := lin, cluster := 256, blocks := [], twin := twin, onDie1 := onDie1, relaunch := relaunch }

/-- A new gang, or a pair of twins, becomes resident (R76). -/
def State.startGang (s : State) (lid lin relaunch : Nat) (cs : List Nat) : State :=
  match tget s.launches lid with
  | none => s
  | some l =>
    let a := s.fresh
    if l.lrec.paired then
      let s := { s with gangs := tset (tset s.gangs a (newGang lid lin relaunch (some (a + 1)) false)) (a + 1)
                                   (newGang lid lin relaunch (some a) true) }
      (s.bump.bump.placeGang lid a lin relaunch (cs.take l.lrec.g)).placeGang lid (a + 1) lin relaunch (cs.drop l.lrec.g)
    else
      let s := { s with gangs := tset s.gangs a (newGang lid lin relaunch none false) }
      s.bump.placeGang lid a lin relaunch cs

/-! ## Which gang comes next (R35, R77, R78, R85) -/

/-- Whether a launch still has a gang to place: a ready one of its grid, or an emitted warp of a reorder target, which waits for
acceptance alone (R40, R41). -/
def Launch.waits (l : Launch) : Bool :=
  !l.stopped && (l.state == .ready || l.state == .accepted) && (l.emitted != [] || (l.state == .ready && decide (l.nextGang < l.lrec.gangs)))

/-- Whether a launch's next gang fits somewhere: an emitted warp on the die that emitted it (R41). -/
def State.nextFits (s : State) (l : Launch) (ign : Bool) : Bool :=
  match l.emitted with
  | [] => s.gangFits l.tenant l.lrec ign
  | e :: _ => (List.range 128).any fun k => s.clusterFits l.tenant l.lrec ign (128 * e.1 + k)

/-- Whether a tenant's gangs may become resident. -/
def State.serves (s : State) (t : Nat) : Bool :=
  let k := s.tenant t
  k.weight != 0 && !k.suspend && !k.resetting

/-- The saved or killed gangs of a tenant that wait to come back. -/
def State.gangsBack (s : State) (p : Nat → Gang → Bool) : List (Nat × Gang) := s.gangs.filter fun g => p g.1 g.2

/-- Whether a gang has a saved or saving block. -/
def State.gangSaved (s : State) (g : Gang) : Bool :=
  g.blocks.any fun b => (s.block b).state == .saved || (s.block b).state == .saving

/-- Whether a gang was pre-empted for a launch of higher priority (R78). -/
def State.gangYields (s : State) (g : Gang) : Bool := g.blocks.any fun b => (s.block b).cause == 1

/-- The launch of a gang. -/
def State.gangLaunch (s : State) (g : Gang) : Option Launch := tget s.launches g.launch

/-- Whether a gang has a saved block. -/
def State.gangAway (s : State) (g : Gang) : Bool := g.blocks.any fun b => (s.block b).state == .saved

/-- Whether a gang of a launch before a place in it is killed, or as `p` says (R35, R247). -/
def State.earlierWhere (s : State) (launch lin : Nat) (p : Gang → Bool) : Bool :=
  s.gangs.any fun q => q.2.launch == launch && decide (q.2.lin < lin) && (q.2.killed || p q.2)

/-- Whether a gang of a launch before a place in it is away: saved or on its way to Bivouac, or killed (R35, R247). -/
def State.earlierAway (s : State) (launch lin : Nat) : Bool := s.earlierWhere launch lin s.gangSaved

/-- Whether a gang that is away keeps a new gang of a launch waiting: one of the same launch (R35, R247), or one of the
tenant that a launch of no higher priority must let back first (R78, R85). DESIGN CHOICE: so do the blocks that COREOWN or a soft fuse
has saved, whose order among new gangs no rule states (log 92). -/
def State.awayBlocks (s : State) (lid : Nat) (l : Launch) (g : Gang) : Bool :=
  match s.gangLaunch g with
  | none => false
  | some k =>
    if k.stopped then false
    else (g.launch == lid && (g.killed || s.gangSaved g)) ||
      (k.tenant == l.tenant && s.gangSaved g && !(s.gangYields g && decide (k.lrec.priority < l.lrec.priority)))

/-- Whether another ready launch of the tenant goes first (R77): an earlier one of the queue, or one of a higher queue whose
gang fits. DESIGN CHOICE: an accepted reorder target whose emitted warps wait counts among them as if it were ready; R41 and R77 give
its warps no place (log 91). -/
def State.goesFirst (s : State) (l k : Launch) : Bool :=
  k.tenant == l.tenant && k.waits &&
    ((k.queue == l.queue && decide (k.order < l.order)) || (decide (l.queue < k.queue) && s.nextFits k false))

/-- Whether a launch's next gang may be placed now. -/
def State.mayPlace (s : State) (lid : Nat) (l : Launch) : Bool :=
  l.waits && s.serves l.tenant && !(s.launches.any fun p => s.goesFirst l p.2) && !(s.gangs.any fun g => s.awayBlocks lid l g.2)

/-! ## PRIORITY_PREEMPT (R78) -/

/-- Whether a launch is a better victim than another: lower priority, then later acceptance. -/
def betterVictim (a b : Launch) : Bool :=
  decide (a.lrec.priority < b.lrec.priority) || (a.lrec.priority == b.lrec.priority && decide (b.order < a.order))

/-- The victim for a launch of a priority: a resident gang of the same tenant of a launch below it, the last BID first. -/
def State.victim (s : State) (t prio : Nat) : Option Nat :=
  let ls := s.launches.filter fun p => p.2.tenant = t ∧ p.2.stopped = false ∧ p.2.lrec.priority < prio ∧
    s.blocks.any fun b => b.2.launch == p.1 && b.2.state == .resident
  match ls with
  | [] => none
  | l :: rest =>
    let v := rest.foldl (fun a b => if betterVictim b.2 a.2 then b else a) l
    ((s.residentWhere fun b => b.launch == v.1).head?).map fun b => (s.block b).gang

/-- A launch's gang that fits nowhere makes lower-priority gangs of its tenant leave, one more unless those already leaving make
room (R78). -/
def State.makeRoom (s : State) (l : Launch) : State :=
  if s.nextFits l true then s
  else match s.victim l.tenant l.lrec.priority with
    | some g => s.preemptGang 1 g
    | none => s

/-! ## The reorder unit (R39 to R42) -/

/-- A deposit's place in ascending key order, after equal keys (R41). -/
def insDeposit (d : Deposit) : List Deposit → List Deposit
  | [] => [d]
  | x :: r => if d.key < x.key then d :: x :: r else x :: insDeposit d r

/-- A target changed. -/
def State.modTarget (s : State) (t addr : Nat) (f : ReTarget → ReTarget) : State :=
  { s with retargets := s.retargets.map fun r => if r.addr = addr ∧ r.tenant = t then f r else r }

/-- A posted target whose record could not be read at the post comes to life with the first deposit that names it (R40). -/
def State.enliven (s : State) (t addr : Nat) : State := if s.postedAt t addr && s.targetRecord t addr then s.liven t addr else s

/-- A die's buffer of a target. -/
def ReTarget.buf (r : ReTarget) (d : Nat) : List Deposit := if d = 0 then r.buf0 else r.buf1

/-- A die's buffer replaced. -/
def ReTarget.setBuf (r : ReTarget) (d : Nat) (b : List Deposit) : ReTarget :=
  if d = 0 then { r with buf0 := b } else { r with buf1 := b }

/-- The accepted, unstopped launch of a target. -/
def State.targetLaunch (s : State) (r : ReTarget) : Option (Nat × Launch) :=
  s.launches.find? fun p => p.2.addr = r.addr ∧ p.2.tenant = r.tenant ∧ p.2.stopped = false ∧ p.2.state ≠ .finished ∧
    p.2.lrec.flags.testBit 2

/-- A relaunched thread (R42): its key and payload. -/
def depositThread (pc : Word) (d : Deposit) : Thread :=
  { startThread pc with rkey := BitVec.ofNat 64 d.key, rpay := d.payload }

/-- The 32 threads of an emitted warp: lane i of the i-th lowest key, the others exited (R41). -/
def depositThreads (pc : Word) (ds : List Deposit) : List Thread :=
  ds.map (depositThread pc) ++ List.replicate (32 - ds.length) ({ pc := pc } : Thread)

/-- REORDER_EMIT (R41): one warp of the lowest keys a die holds for an accepted target. It is the next gang of the target launch,
which GANG_PLACE places on a core of that die. -/
def State.emitWarp (s : State) (t addr d : Nat) : State :=
  match s.retarget t addr with
  | none => s
  | some r =>
    match s.targetLaunch r with
    | none => s
    | some (lid, _) =>
      if r.buf d = [] then s
      else (s.modTarget t addr fun r => r.setBuf d ((r.buf d).drop 32)).modLaunch lid fun l =>
        { l with emitted := l.emitted ++ [(d, (r.buf d).take 32)] }

/-- REORDER_DRAIN (R41): every held deposit of a die is emitted. -/
def State.drainTarget (s : State) (t addr d : Nat) : State :=
  match s.retarget t addr with
  | none => s
  | some r => (r.buf d).foldl (fun s _ => s.emitWarp t addr d) s

/-- The first rule of R41: a die that holds at least 512 deposits emits one warp after another until it holds fewer. -/
def State.emitFull (s : State) (t addr d : Nat) : Nat → State
  | 0 => s
  | n + 1 => match s.retarget t addr with
    | none => s
    | some r => if 512 ≤ (r.buf d).length then (s.emitWarp t addr d).emitFull t addr d n else s

/-- A deposit made with a die's unit (R41): 512 held deposits emit a warp, and a draining target holds none back. -/
def State.deposit (s : State) (t addr d : Nat) (x : Deposit) : State :=
  let s1 := s.modTarget t addr fun r =>
    let r := r.setBuf d (insDeposit x (r.buf d))
    if d = 0 then { r with last0 := s.now } else { r with last1 := s.now }
  match s1.retarget t addr with
  | none => s1
  | some r => if r.draining then s1.drainTarget t addr d else s1.emitFull t addr d 1

/-- One thread of REORD (R39): the loads land, the deposit is made, the thread exits. -/
def reordLane (a b c : Src) (l : Nat) (s : State) : State × LaneOut :=
  let n := s.cur.warp
  let x := s.cx n l
  let addr := (x.src c).toNat
  let d := dieOf x.w.core
  if x.t.rsDepth ≠ 0 then (s, .trap { cause := 0x0C })
  else
    let s1 := s.enliven x.w.tenant addr
    match s1.retarget x.w.tenant addr with
    | none => (s1, .trap { cause := 1, addr := x.src c })
    | some r =>
      if x.t.landed s.now = false then (s1, .wait .landed)
      else if x.w.paired then
        exitLane l (s1.hold n (.deposit d addr (BitVec.ofNat 64 (wbits (x.src a) 0 32)) (x.src b)))
      else if Config.reorderLen ≤ (r.buf d).length then (s1, .wait (.buffer addr))
      else
        let s2 := s1.deposit x.w.tenant addr d { key := wbits (x.src a) 0 32, payload := x.src b }
        (s2.exitThread n l, .off)

/-- REORD (R388). -/
def execReord (k : Ctl) (a b x : Src) (s : State) : Out :=
  segStore (.reord k a b x) (guardTrue (.reord k a b x) s).length (laneFold (.reord k a b x) (reordLane a b x)) s

end Sys2Proof.Machine
end

