-- ==== Sys2Proof/Machine/EvLaunch.lean ====
section
/-! DEFINITION. Steps of the scheduler over a launch's life: acceptance and rejection (R63, R65, R69), readiness (R70),
placement (R76 to R78), retirement of warps and blocks (R33), the finish (R71, R72), the reorder unit's idle flush (R41). A step
whose condition does not hold changes nothing. -/

namespace Sys2Proof.Machine

/-! ## The launch record (R63) -/

/-- A record's fields. -/
def parseRecord (d : List Byte) : LaunchRec :=
  { entry := BitVec.ofNat 64 (fld d 0x00 8), param := BitVec.ofNat 64 (fld d 0x08 8), gx := fld d 0x10 4, gy := fld d 0x14 4,
    gz := fld d 0x18 4, w := fld d 0x1C 1, n := fld d 0x1D 1, g := fld d 0x1E 1, flags := fld d 0x1F 1, s := fld d 0x20 4,
    p := fld d 0x24 4, tenant := fld d 0x28 2, priority := fld d 0x2A 1, queue := fld d 0x2B 1, key := BitVec.ofNat 64 (fld d 0x30 8),
    counter := fld d 0x38 8, deps := (List.range 4).map fun i => (fld d (0x40 + 16 * i) 8, fld d (0x48 + 16 * i) 8),
    graph := fld d 0x80 8, phase := fld d 0x88 8, job := fld d 0x90 8, errAddr := fld d 0x98 8, resA := fld d 0x2C 4,
    resB := leNat ((d.drop 0xA0).take 96) }

/-- The conditions of R63 with the offset each is charged to, in ascending offset; `tenantOk` and `queueOk` are those of the
post (R67, R68). -/
def recordChecks (r : LaunchRec) (tenantOk queueOk : Bool) : List (Nat × Bool) :=
  let a8 (n : Nat) : Bool := n % 8 == 0
  let dep (i : Nat) : Bool := match r.deps[i]? with
    | some d => a8 d.1
    | none => true
  [(0x00, canonical r.entry && wbits r.entry 0 2 == 0),
   (0x10, decide (32 * r.w * r.g * r.gangs ≤ 2 ^ 48) && (!r.target || (r.gx == 0 && r.gy == 0 && r.gz == 0))),
   (0x1C, decide (1 ≤ r.w ∧ r.w ≤ 32) && (!r.target || r.w == 1)),
   (0x1D, decide (r.n % 8 = 0 ∧ 8 ≤ r.n ∧ r.n ≤ 192 ∧ 256 * r.w * r.n ≤ Config.regFileBytes)),
   (0x1E, decide (1 ≤ r.g ∧ r.g ≤ 4) && (!r.target || r.g == 1)),
   (0x1F, decide (r.flags < 16) && !(r.paired && r.target)),
   (0x20, r.s % 16 == 0),
   (0x24, decide (r.p % 16 = 0 ∧ r.s + 32 * r.w * r.p ≤ Config.scratchBytes)),
   (0x28, decide (r.tenant < 16) && tenantOk),
   (0x2A, decide (r.priority < 16)),
   (0x2B, decide (r.queue < 16) && queueOk),
   (0x2C, r.resA == 0),
   (0x38, a8 r.counter),
   (0x40, dep 0), (0x50, dep 1), (0x60, dep 2), (0x70, dep 3),
   (0x80, a8 r.graph), (0x88, a8 r.phase), (0x90, a8 r.job),
   (0x98, r.errAddr % 32 == 0),
   (0xA0, r.resB == 0)]

/-- The first failing field of a record. -/
def firstFailing (r : LaunchRec) (tenantOk queueOk : Bool) : Option Nat :=
  ((recordChecks r tenantOk queueOk).find? fun c => !c.2).map Prod.fst

/-- Whether a core is open to a tenant (R69, R81): enabled, with an OWNER that lets it in. DESIGN CHOICE: WEIGHT 0 and SUSPEND, which
stop placement for a time, close no core when placeability is judged; R69 does not say (log 75). -/
def State.coreOpen (s : State) (t c : Nat) : Bool :=
  let k := s.core c
  k.enabled && (k.owner == t || (k.owner == 16 && !(s.tenant t).excl))

/-- Whether a block's needs do not exceed an empty core (R69): the lines of its scratchpad that are retired serve none (R249). -/
def State.coreHolds (s : State) (r : LaunchRec) (c : Nat) : Bool :=
  decide (r.s + 32 * r.w * r.p + 256 * (s.core c).retiredScratch.length ≤ Config.scratchBytes)

/-- Whether a die has a cluster with G cores open to a tenant that can each hold a block. -/
def State.dieOpen (s : State) (t : Nat) (r : LaunchRec) (d : Nat) : Bool :=
  (List.range 128).any fun k =>
    r.g ≤ (((List.range 4).map (512 * d + 4 * k + ·)).filter fun c => s.coreOpen t c && s.coreHolds r c).length

/-- Whether a launch could ever be placed (R69). A launch with no gangs needs no place. -/
def State.placeable (s : State) (t : Nat) (r : LaunchRec) : Bool :=
  if r.paired then s.dieOpen t r 0 && s.dieOpen t r 1 else s.dieOpen t r 0 || s.dieOpen t r 1

/-! ## The finish of a launch (R71 to R73) -/

/-- The error record (R72). -/
def errorRecord (l : Launch) : List Byte :=
  leBytes 4 l.status ++ leBytes 1 l.cause ++ leBytes 3 0 ++ leBytes 8 l.info ++ leBytes 8 l.relaunches ++ leBytes 8 0

/-- The address that a step of the finish writes or adds to; 0 for none. -/
def Launch.finAddr (l : Launch) (k : Nat) : Nat :=
  match k with
  | 0 => l.lrec.errAddr
  | 2 => l.lrec.counter
  | 3 => l.lrec.graph
  | 4 => l.lrec.phase
  | 5 => l.lrec.job
  | _ => 0

/-- The cores on which blocks of a launch last stood. -/
def State.launchCores (s : State) (lid : Nat) : List Nat :=
  ((s.blocks.filter fun b => b.2.launch = lid).map fun b => b.2.core).dedup

/-- The release of step 2 of R72: the cores' dirty L1 bytes are written back; false while one of them waits for a Switch (R200). -/
def State.releaseCores (s : State) (lid : Nat) : State × Bool :=
  let cs := s.launchCores lid
  let s := cs.foldl (fun s c => s.l1Push c everywhere) s
  (s, !(cs.any fun c => s.stalls c everywhere))

/-- One step of the finish: true when it is made, dropped or not asked for; false while it waits. An address that is not aligned
as R63 asks is dropped. -/
def State.finOne (s : State) (lid : Nat) (l : Launch) : State × Bool :=
  let a := l.finAddr l.finStep
  if l.finStep = 1 then s.releaseCores lid
  else if a = 0 then (s, true)
  else if a % (if l.finStep = 0 then 32 else 8) ≠ 0 then (s.devDrop l.tenant a 72, true)
  else if l.finStep = 0 then s.devWrite l.tenant a (errorRecord l) (.finish lid a)
  else s.devAdd l.tenant a 1 (.finish lid a)

/-- The steps of R72 in order, until one waits; after the last the launch is finished, and one that a tenant reset discards once the write
that was under way has been made or dropped (R86). One that waits behind a fault waits for its replay (R73). -/
def State.finSteps (s : State) (lid : Nat) : Nat → State
  | 0 => s
  | n + 1 => match tget s.launches lid with
    | none => s
    | some l =>
      if l.devWait then s
      else if 6 ≤ l.finStep ∨ (l.discard.any fun k => k < l.finStep) then s.modLaunch lid fun l => { l with state := .finished }
      else
        let r := s.finOne lid l
        if r.2 then (r.1.modLaunch lid fun l => { l with finStep := l.finStep + 1 }).finSteps lid n
        else if r.1.behindFault (.finish lid (l.finAddr l.finStep)) then r.1.modLaunch lid fun l => { l with devWait := true }
        else r.1.stallFor none (.launch lid)

/-- The finish goes on from where it is. -/
def State.finishLaunch (s : State) (lid : Nat) : State := s.finSteps lid 7

/-- Whether a launch's blocks have all retired or been discarded. -/
def State.noBlocks (s : State) (lid : Nat) : Bool := s.blocks.all fun b => b.2.launch != lid || b.2.state == .retired

/-- Whether an engine operation of a launch's warps is outstanding (R71). -/
def State.launchOps (s : State) (lid : Nat) : Bool :=
  let mine (n : Nat) : Bool := !(s.warp n).service && (s.warp n).launch == lid
  s.engOps.any (fun e => mine e.warp) || s.engines.any fun p => p.2.table.any fun r => mine r.warp

/-- LAUNCH_FINISH (R71, R72): a launch that has done its work, or one that stops once nothing of it is left. -/
def State.tryFinish (s : State) (lid : Nat) : State :=
  match tget s.launches lid with
  | none => s
  | some l =>
    if l.state = .finished then s
    else if 0 < l.finStep then s.finishLaunch lid
    else if s.noBlocks lid = false ∨ s.launchOps lid then s
    else if l.state = .finishing then
      { s.finishLaunch lid with retargets := s.retargets.filter fun r => !(r.addr == l.addr && r.tenant == l.tenant) }
    else if s.workDone l then
      let s := { s with retargets := s.retargets.filter fun r => !(r.addr == l.addr && r.tenant == l.tenant) }
      (s.modLaunch lid fun l => { l with state := .finishing }).finishLaunch lid
    else s

/-- LAUNCH_FINISH. -/
def execLaunchFinish (launch : Nat) (s : State) : Out := .next (s.tryFinish launch)

/-! ## Acceptance (R69, R75) -/

/-- The launches of a tenant that are accepted and unfinished. -/
def State.openLaunches (s : State) (t : Nat) : Nat :=
  (s.launches.filter fun p => p.2.tenant = t ∧ p.2.state ≠ .finished).length

/-- The 256 bytes of a record, through its tenant's stages; none while a page of it waits or where it is dropped. -/
def State.readRecord (s : State) (t q ptr : Nat) : State × Option (List Byte) × Bool :=
  (cuts ptr 256).foldl (fun st c => match st.2.1 with
    | none => st
    | some bs =>
      let r := st.1.devTranslate t c.1 accEngR (.post t q c.1)
      match r.2 with
      | .ok x =>
        let q := r.1.devLoad x c.2
        (q.1, some (bs ++ q.2), false)
      | .wait => (r.1, none, true)
      | .drop => (r.1, none, false)) (s, some [], false)

/-- The launch that comes of a record, with the outcome of the checks (R63, R69, R75). -/
def State.newLaunch (s : State) (t q : Nat) (p : Post) (r : LaunchRec) : Launch :=
  let tenantOk := r.tenant == t && (p.high || r.tenant == p.poster || p.window.isSome)
  let queueOk := match p.window with
    | some k => r.queue == k
    | none => true
  let l : Launch := { addr := p.ptr, tenant := t, queue := q, lrec := r, order := s.fresh }
  let stop (status info : Nat) : Launch := { l with state := .finishing, stopped := true, status := status, info := info }
  if p.cancelled then stop 1 0
  else if p.ptr % 256 ≠ 0 then stop 2 0
  else match firstFailing r tenantOk queueOk with
    | some o => stop 2 o
    | none => if s.placeable t r ∨ (r.target = false ∧ r.gangs = 0) then l else stop 3 0

/-- Whether the head of a queue waits behind a fault. -/
def State.postWaits (s : State) (t q : Nat) : Bool :=
  (s.fbuf 256).waiters.any fun x => match x with
    | .post a b _ => a == t && b == q
    | _ => false

/-- LAUNCH_ACCEPT (R65, R69), with LAUNCH_REJECT: a rejected launch finishes at once. -/
def State.accept (s : State) (t q : Nat) : State :=
  match tgetD (s.tenant t).queues q [] with
  | [] => s
  | p :: _ =>
    if 16 ≤ t ∨ 16 ≤ q ∨ p.devWait ∨ Config.maxLaunches ≤ s.openLaunches t ∨ (s.tenant t).resetting ∨ s.sec.recovery then s
    else
      let r := s.readRecord t q p.ptr
      match r.2 with
      | (some bs, _) =>
        let l := r.1.newLaunch t q p (parseRecord bs)
        let id := r.1.fresh
        let s1 := (r.1.modHead t q fun _ => none).bump
        let s2 := { s1 with launches := tset s1.launches id l }
        if l.stopped then (s2.dropTargets t).tryFinish id
        else if l.lrec.target then
          let s3 := s2.liven t l.addr
          (s3.emitFull t l.addr 0 Config.reorderLen).emitFull t l.addr 1 Config.reorderLen
        else s2
      | (none, true) => r.1.modHead t q fun p => some { p with devWait := r.1.postWaits t q }
      | (none, false) => r.1.dropPost t q p.ptr

/-- LAUNCH_ACCEPT. -/
def execLaunchAccept (tenant queue : Nat) (s : State) : Out := .next (s.accept tenant queue)

/-! ## Readiness (R70, R41) -/

/-- One dependence slot observed (R70); one whose read waits behind a fault is observed again after replay, and holds up no
other. -/
def State.observe (s : State) (lid i : Nat) : State :=
  match tget s.launches lid with
  | none => s
  | some l => match l.lrec.deps[i]? with
    | none => s
    | some (a, h) =>
      if l.state ≠ .accepted ∨ l.depWait.contains i ∨ l.depsOk.contains i then s
      else if a = 0 then s.modLaunch lid fun l => { l with depsOk := insNat i l.depsOk }
      else
        let r := s.devTranslate l.tenant a accEngR (.dep lid i a)
        match r.2 with
        | .wait => if r.1.behindFault (.dep lid i a) then r.1.modLaunch lid fun l => { l with depWait := insNat i l.depWait } else r.1
        | .drop => (r.1.stopLaunch lid 2 0 (0x40 + 16 * i)).tryFinish lid
        | .ok x =>
          let q := r.1.devLoad x 8
          if h ≤ leNat q.2 then q.1.modLaunch lid fun l => { l with depsOk := insNat i l.depsOk } else q.1

/-- LAUNCH_READY (R70): the four slots are observed; with all satisfied the launch is ready, and a reorder target drains
(R41). -/
def State.makeReady (s : State) (lid : Nat) : State :=
  let s := (List.range 4).foldl (fun s i => s.observe lid i) s
  match tget s.launches lid with
  | none => s
  | some l =>
    if l.state ≠ .accepted ∨ l.depsOk.length < 4 then s
    else
      let s := s.modLaunch lid fun l => { l with state := .ready }
      if l.lrec.target then
        let s := s.modTarget l.tenant l.addr fun r => { r with draining := true }
        (s.drainTarget l.tenant l.addr 0).drainTarget l.tenant l.addr 1
      else s

/-- LAUNCH_READY. -/
def execLaunchReady (launch : Nat) (s : State) : Out := .next (s.makeReady launch)

/-- REORDER_IDLE_FLUSH (R41): 2,048 cycles without a deposit. -/
def execReorderIdleFlush (launch die : Nat) (s : State) : Out :=
  .next (match tget s.launches launch with
    | none => s
    | some l => match s.retarget l.tenant l.addr with
      | none => s
      | some r =>
        if die < 2 ∧ (if die = 0 then r.last0 else r.last1) + Config.reorderIdle ≤ s.now then s.drainTarget l.tenant l.addr die
        else s)

/-! ## Placement (R76 to R78) -/

/-- Whether a core is shared between tenants. -/
def State.sharedCore (s : State) (c : Nat) : Bool := (s.core c).owner == 16

/-- Whether a launch's next gang fits in some cluster on cores of which at least one is shared. -/
def State.fitsShared (s : State) (l : Launch) : Bool :=
  s.nextFits l false && (List.range 256).any fun k =>
    s.clusterFits l.tenant l.lrec false k && (((List.range 4).map (4 * k + ·)).filter (s.fits l.tenant l.lrec false)).any s.sharedCore

/-- Whether a tenant has a gang that may be placed and fits on shared cores (R77). -/
def State.placing (s : State) (t : Nat) : Bool :=
  s.launches.any fun p => p.2.tenant == t && s.mayPlace p.1 p.2 && s.fitsShared p.2

/-- Whether it is a tenant's turn to place a gang (R77): the first from the turn on that has one to place. -/
def State.turnOf (s : State) (t : Nat) : Bool :=
  (((List.range 16).map fun i => (s.placeTurn + i) % 16).find? s.placing) == some t

/-- Whether some of a list of cores are shared between tenants. -/
def State.sharedCores (s : State) (cs : List Nat) : Bool := cs.any s.sharedCore

/-- Whether cores are a place for a launch's next gang: an emitted warp stays on its die (R41). -/
def State.nextOk (s : State) (l : Launch) (cs : List Nat) : Bool :=
  s.placeOk l.tenant l.lrec cs && (match l.emitted with
    | [] => true
    | e :: _ => dieOf (cs.headD 0) == e.1)

/-- A launch's next gang becomes resident: the next of its grid, or the oldest emitted warp of a reorder target, blocks numbered in
emission order (R41). -/
def State.startNext (s : State) (lid : Nat) (l : Launch) (cs : List Nat) : State :=
  let twins := if l.lrec.paired then 2 else 1
  (match l.emitted with
    | [] => s.startGang lid l.nextGang 0 cs
    | e :: _ =>
      let g := s.fresh
      { s with gangs := tset s.gangs g { newGang lid l.nextGang 0 none false with deposits := e.2 } }.bump.placeBlock
        { lid := lid, gang := g, pos := 0, bid := l.nextGang, lin := l.nextGang, relaunch := 0,
          threads := depositThreads l.lrec.entry e.2 } (cs.headD 0)).modLaunch lid fun l =>
    { l with nextGang := l.nextGang + 1, placed := l.placed + twins * l.lrec.g, emitted := l.emitted.tail }

/-- GANG_PLACE (R76, R77), with PRIORITY_PREEMPT (R78) when the gang of a ready launch fits nowhere. -/
def State.placeNext (s : State) (lid : Nat) (cs : List Nat) : State :=
  match tget s.launches lid with
  | none => s
  | some l =>
    if s.mayPlace lid l = false ∨ s.power.pstate ≠ 0 ∨ s.sec.recovery then s
    else if s.nextFits l false = false then (if l.state = .ready then s.makeRoom l else s)
    else if s.nextOk l cs = false ∨ (s.sharedCores cs ∧ s.turnOf l.tenant = false) then s
    else
      let s1 := s.startNext lid l cs
      if s.sharedCores cs then { s1 with placeTurn := (l.tenant + 1) % 16 } else s1

/-- GANG_PLACE. -/
def execGangPlace (launch : Nat) (cores : List Nat) (s : State) : Out := .next (s.placeNext launch cores)

/-! ## Retirement (R33, R43) -/

/-- Whether every counter is 0. -/
def OcCounters.empty (c : OcCounters) : Bool :=
  c.cp == 0 && c.gx == 0 && c.mx == 0 && c.cl == 0 && c.pt == 0 && c.bk == 0

/-- Whether a warp may retire (R33): its threads have exited, its queue has drained, its loads have come back, its counters are
0, and what a paired segment held has been compared. -/
def State.mayRetire (s : State) (n : Nat) : Bool :=
  let w := s.warp n
  w.resident && !w.service && w.live.isEmpty && w.storeQ.isEmpty && w.oc.empty && w.seg.held.isEmpty && !w.seg.closing &&
    w.threads.all fun t => t.landed s.now

/-- WARP_RETIRE (R33). -/
def execWarpRetire (warp : Nat) (s : State) : Out :=
  .next (if s.mayRetire warp then s.modWarp warp fun w => { w with resident := false } else s)

/-- Whether a gang is killed and still to be relaunched. -/
def State.gangKilled (s : State) (g : Nat) : Bool :=
  match tget s.gangs g with
  | some k => k.killed && !(match tget s.launches k.launch with
      | some l => l.stopped
      | none => true)
  | none => false

/-- Whether every block of a gang has retired. -/
def State.gangGone (s : State) (g : Nat) : Bool := s.blocks.all fun b => b.2.gang != g || b.2.state == .retired

/-- A block's resources released: its warp slots, registers and scratch; its gang's engine with the gang's last block (R167). -/
def State.freeBlock (s : State) (b : Nat) : State :=
  let k := s.block b
  let s := ({ s.touchIdle with warps := s.warps.filter fun p => !k.warps.contains p.1 }.leaveScratch (s.blockTenant k) k).modBlock b
    fun k => { k with state := .retired, warps := [], scratch := [], tags := [], errs := [], grans := [], biv := none }
  let s := if s.gangGone k.gang then
      { s with engines := s.engines.map fun p => (p.1, if p.2.owner = some k.gang then { p.2 with owner := none } else p.2) }
    else s
  s.applyMap k.core

/-- BLOCK_RETIRE (R33): a block of a killed gang only gives up its place (R247). -/
def State.retireBlock (s : State) (b : Nat) : State :=
  match tget s.blocks b with
  | none => s
  | some k =>
    if k.state ≠ .resident ∨ k.warps.any (fun n => (s.warp n).resident) then s
    else if s.gangKilled k.gang then s.freeBlock b
    else ((s.freeBlock b).modBlock b fun k => { k with counted := true }).modLaunch k.launch fun l =>
      { l with retired := l.retired + 1 }

/-- BLOCK_RETIRE. -/
def execBlockRetire (block : Nat) (s : State) : Out := .next (s.retireBlock block)

end Sys2Proof.Machine
end

