-- ==== Sys2Proof/Machine/Matrix.lean ====
section
/-! DEFINITION. Class 11 and the cluster matrix engine: ownership and posting (R167, R168), parameter blocks and their checks
(R169, R170), order (R171, R172), operands (R157, R173 to R175), arithmetic (R158, R159, R176), tiles and their checksums
(R177), the tile port (R178 to R180). -/

namespace Sys2Proof.Machine

/-! ## Tiles (R177) -/

/-- The 4,096 patterns of a tile, row by row. -/
def Engine.tile (e : Engine) (h : Nat) : List (BitVec 32) :=
  let t := e.tiles.filter fun p => p.1 / 4096 = h
  (List.range 4096).map fun i => tgetD t (h * 4096 + i) 0

/-- A stored row's sum modulo 2^32. -/
def rowSum (vs : List (BitVec 32)) (r : Nat) : BitVec 32 := ((vs.drop (64 * r)).take 64).foldl (· + ·) 0

/-- The 64 entries of a tile's rows, or its 4,096 elements, as table entries. -/
def entriesOf (size h : Nat) (vs : List (BitVec 32)) : Tbl (BitVec 32) := mapFrom (fun i v => (h * size + i, v)) 0 (vs.take size)

/-- A table with one tile's entries replaced. -/
def spliceTile (size h : Nat) (t : Tbl (BitVec 32)) (vs : List (BitVec 32)) : Tbl (BitVec 32) :=
  t.filter (fun p => p.1 < h * size) ++ (entriesOf size h vs).filter (fun p => p.2 != 0) ++ t.filter fun p => (h + 1) * size ≤ p.1

/-- A tile stored with its checksums. -/
def Engine.storeTile (e : Engine) (h : Nat) (vs cs : List (BitVec 32)) : Engine :=
  { e with tiles := spliceTile 4096 h e.tiles vs, sums := spliceTile 64 h e.sums cs }

/-- Every element of a tile written by one that holds `old` of it: each row's checksum gains the difference of new and old patterns
(R177). -/
def Engine.addTile (e : Engine) (h : Nat) (old vs : List (BitVec 32)) : Engine :=
  e.storeTile h vs ((List.range 64).map fun r => tgetD e.sums (h * 64 + r) 0 + (rowSum vs r - rowSum old r))

/-- A tile loaded, with its checksums set from the loaded bits (R178, R182). -/
def Engine.loadTile (e : Engine) (h : Nat) (vs : List (BitVec 32)) : Engine := e.storeTile h vs ((List.range 64).map (rowSum vs))

/-- A tile with +0 everywhere and checksums 0 (R178). -/
def Engine.zeroTile (e : Engine) (h : Nat) : Engine :=
  { e with tiles := e.tiles.filter fun p => p.1 / 4096 ≠ h, sums := e.sums.filter fun p => p.1 / 64 ≠ h }

/-- Whether every row of a tile agrees with its checksum. -/
def Engine.tileGood (e : Engine) (h : Nat) : Bool :=
  (List.range 64).all fun r => rowSum (e.tile h) r == tgetD e.sums (h * 64 + r) 0

/-- An owner's engine as it finds it: given tiles with checksums recomputed, no weight unit valid (R167, R182). -/
def Engine.fresh (e : Engine) (g : Nat) (tiles : Tbl (BitVec 32)) : Engine :=
  let e0 : Engine := { e with owner := some g, waiting := e.waiting.filter (· != g), tiles := [], sums := [], units := [], weights := [] }
  (List.range 16).foldl (fun e h =>
    if tiles.any fun p => p.1 / 4096 = h then e.loadTile h ((List.range 4096).map fun i => tgetD tiles (h * 4096 + i) 0) else e) e0

/-! ## Parameter blocks (R169) -/

/-- The units and slot bytes of a chunk by format and compression (R174): none for a format out of range. -/
def slotBytes (fmt comp : Nat) : Option (Nat × Nat) :=
  match fmt, comp with
  | 15, 0 => some (256, 32)
  | 15, 1 => some (160, 20)
  | 8, 0 | 9, 0 => some (128, 16)
  | 8, 1 | 9, 1 => some (72, 9)
  | 10, 0 => some (256, 32)
  | 10, 1 => some (136, 17)
  | 11, 0 => some (512, 64)
  | 11, 1 => some (264, 33)
  | _, _ => none

/-- The uncompressed unit count of a format (R171). -/
def unitsOf (fmt : Nat) : Nat :=
  match slotBytes fmt 0 with
  | some p => p.2
  | none => 0

/-- Bytes of an element of a raw format. -/
def rawBytes (fmt : Nat) : Nat :=
  match fmt with
  | 8 | 9 => 2
  | 10 => 4
  | _ => 8

/-- The type of a raw format. -/
def rawTy (fmt : Nat) : Ty :=
  match fmt with
  | 8 => .f16
  | 9 => .bf16
  | 10 => .f32
  | _ => .f64

/-- A parameter field. -/
def MxReq.f (r : MxReq) (off n : Nat) : Nat := fld r.par off n

/-- The tiles a request names: a mask, a handle, or a pair (R169). -/
def MxReq.handles (r : MxReq) : List Nat :=
  let h := r.f 0x0F 1 % 16
  let pair := if r.f 0x0E 1 = 11 then [h, (h + 1) % 16] else [h]
  match r.kind with
  | .acz | .acchk => (List.range 16).filter (r.f 0 2).testBit
  | .wbld => []
  | _ => pair

/-- The weight units a request reads or writes (R171). -/
def MxReq.unitRange (r : MxReq) : Nat × Nat :=
  let u := r.f 8 4
  let c := r.f 0x0C 2
  match r.kind with
  | .mxp => (u, min 2048 (u + c * unitsOf (r.f 0x0E 1)))
  | .wbld => (u, u + c * ((slotBytes (r.f 0x0E 1) (r.f 0x0F 1)).map Prod.snd).getD 0)
  | _ => (0, 0)

/-- Whether a request must wait for an earlier one (R171): a shared handle, or a unit that either writes. -/
def mxShares (a b : MxReq) : Bool :=
  let x := a.unitRange
  let y := b.unitRange
  (a.handles.any fun h => b.handles.contains h) ||
    ((a.kind == .wbld || b.kind == .wbld) && decide (x.1 < y.2 ∧ y.1 < x.2 ∧ x.1 < x.2 ∧ y.1 < y.2))

/-- A cluster-shared range of an engine over its full extent (R88). -/
def State.cluRange (s : State) (w : Warp) (a len : Nat) : Option (ScrId × Nat) :=
  if a / 2 ^ 34 ≠ 0 then none
  else match s.gangBlock w (a / 2 ^ 32 % 4) with
    | some b => if a % 2 ^ 32 + len ≤ (s.block b).sBytes then some (.block b, a % 2 ^ 32) else none
    | none => none

/-- Some parameter bytes are reserved for a request (R169). -/
def MxReq.reserved (r : MxReq) : Bool :=
  let z (off n : Nat) : Bool := zeroed r.par off n
  match r.kind with
  | .mxp => z 0x11 39
  | .wbld => z 0x10 40
  | .acz | .acchk => z 2 54
  | .acld => z 0x0C 2 && z 0x10 40
  | .acdrn => z 0x0C 2 && z 0x30 8

/-- Bytes of a row of a tile-port transfer. -/
def MxReq.rowBytes (r : MxReq) : Nat :=
  if r.kind = .acdrn then 64 * rawBytes (r.f 0x11 1) else if r.f 0x0E 1 = 11 then 512 else 256

/-- Code 1 (R170): a field out of its range, an odd h of a pair, a WBLD source that is not canonical or wraps; for ACDRN an
output that is not whole granules (R99). DESIGN CHOICE: a narrow operand that is not on 64 bytes is no such case, and its blocks are
read where they lie; R153 names no fate for it (log 83). -/
def MxReq.malformed (r : MxReq) : Bool :=
  let fmt := r.f 0x0E 1
  let h := r.f 0x0F 1
  let u := r.f 8 4
  let c := r.f 0x0C 2
  let okC : Bool := decide (1 ≤ c ∧ c ≤ 1024)
  let raw (n : Nat) : Bool := decide (8 ≤ n ∧ n ≤ 11)
  let pair : Bool := decide (h ≤ 15) && (fmt != 11 || h % 2 == 0)
  !r.reserved || !(match r.kind with
    | .mxp => (raw fmt || fmt == 15) && pair && okC && decide (u ≤ 2047 ∧ r.f 0x10 1 ≤ 1)
    | .wbld => match slotBytes fmt h with
      | none => false
      | some p => okC && decide (u + c * p.2 ≤ 2048) && rangeOk (r.f 0 8) (c * 64 * p.1)
    | .acz | .acchk => true
    | .acld => (fmt == 10 || fmt == 11) && pair && u % 16 == 0 && decide (r.rowBytes ≤ u)
    | .acdrn => (fmt == 10 || fmt == 11) && pair && raw (r.f 0x11 1) && u % 16 == 0 && decide (r.rowBytes ≤ u ∧ r.f 0x10 1 ≤ 3) &&
        r.f 0 8 % 16 == 0)

/-- The cluster-shared range a request names at a parameter offset. -/
def State.mxRange (s : State) (r : MxReq) (off : Nat) : Option (ScrId × Nat) :=
  let w := s.warp r.warp
  let len := match r.kind with
    | .mxp => r.f 0x0C 2 * 64 * (if r.f 0x0E 1 = 15 then 256 else 64 * rawBytes (r.f 0x0E 1))
    | _ => 63 * r.f 8 4 + r.rowBytes
  s.cluRange w (r.f off 8) len

/-- Code 2: a range breaks R88. -/
def State.mxOutside (s : State) (r : MxReq) : Bool :=
  match r.kind with
  | .mxp | .acld => (s.mxRange r 0).isNone
  | .acdrn => (s.mxRange r 0).isNone || (r.f 0x10 1 % 2 == 1 && (s.mxRange r 0x18).isNone)
  | _ => false

/-- The compression and unit count of the chunks that an MXP reads (R176): none when its units are not all valid with its
format and one compression. -/
def Engine.weightsFor (e : Engine) (r : MxReq) : Option (Nat × Nat) :=
  let u := r.f 8 4
  let c := r.f 0x0C 2
  match tget e.units u with
  | none => none
  | some k =>
    match slotBytes k.format k.comp with
    | none => none
    | some p =>
      if k.format = r.f 0x0E 1 ∧ u + c * p.2 ≤ 2048 ∧ ((List.range (c * p.2)).all fun i => tget e.units (u + i) == some k) then
        some (k.comp, p.2)
      else none

/-- The code of the checks that come before a request acts: the lowest that applies, 0 when it may act (R170). -/
def State.mxCheck (s : State) (e : Engine) (r : MxReq) : Nat :=
  if r.malformed then 1 else if s.mxOutside r then 2
  else if r.kind = .mxp ∧ (e.weightsFor r).isNone then 3 else 0

/-! ## Operands (R157, R173 to R175) -/

/-- A narrow element inside the engine: an l6 magnitude as its logarithm with its block's scale, or an exact number. -/
inductive NVal where
  | log (neg : Bool) (l sc : Int) | lin (d : Dy)
  deriving DecidableEq, Repr

/-- The table T of R157, over 32,768. -/
def mxT : Nat → Nat
  | 0 => 32768
  | 1 => 38968
  | 2 => 46341
  | _ => 55110

/-- A magnitude 2^(l div 4) T[l mod 4] with a sign and a scale. -/
def mxPow (neg : Bool) (l sc : Int) : Dy := dyOf neg (mxT (l % 4).toNat) (l / 4 - 15 + sc)

/-- prod of R157. -/
def mxProd (a b : NVal) : Dy :=
  match a, b with
  | .log n l sc, .log m k sd => mxPow (n != m) (l + k) (sc + sd)
  | .log n l sc, .lin d => (mxPow n l sc).mul d
  | .lin d, .log n l sc => d.mul (mxPow n l sc)
  | .lin d, .lin f => d.mul f

/-- Element i of a well-formed narrow block: none for the q8 NaN. -/
def mxElem (t : Ty) (bs : List Byte) (i : Nat) : Option NVal :=
  let p := blockElem t bs i
  if t = .l6 then
    some (if p % 32 = 16 then .lin ⟨0, 0⟩ else .log (p / 32 % 2 == 1) (sext 5 p) (blockScale bs))
  else match blockValue t bs i with
    | .fin n m e => some (.lin (dyOf n m e))
    | _ => none

/-- A chunk of a row or column as the array takes it: none when it makes its accumulators NaN; `mb` as status bit MB. -/
structure Slot15 where
  els : Option (List NVal)
  mb : Bool
  deriving DecidableEq, Repr

/-- Blocks taken in address order until an element count is reached (R173). -/
def takeBlocks (need : Nat) : Nat → List Byte → List (Option NVal) → Bool → Bool → Slot15
  | 0, _, acc, bad, mb =>
    { els := if bad || decide (acc.length < need) || (acc.take need).any Option.isNone then none
             else some ((acc.take need).filterMap id), mb := mb }
  | k + 1, bs, acc, bad, mb =>
    if need ≤ acc.length then takeBlocks need 0 bs acc bad mb
    else
      let b := bs.take 64
      let rest := bs.drop 64
      match blockFormat b with
      | none => takeBlocks need k rest acc true true
      | some t =>
        if blockOk b = false then takeBlocks need k rest acc true true
        else if t = .f16 ∨ t = .bf16 then takeBlocks need k rest acc true mb
        else takeBlocks need k rest (acc ++ (List.range (blockCount t)).map (mxElem t b)) bad mb

/-- The nibble of a group (R175). -/
def nibAt (bs : List Byte) (g : Nat) : Nat := ((bs[g / 2]?).getD 0).toNat / 16 ^ (g % 2) % 16

/-- Kept values at their positions, a zero at the others; none where a nibble's first position is not below its second. -/
def spreadNib {α : Type} (zero : α) (nibs : List Byte) (groups : Nat) (vs : List α) : Option (List α) :=
  if (List.range groups).any fun g => nibAt nibs g / 4 ≤ nibAt nibs g % 4 then none
  else some ((List.range groups).flatMap fun g =>
    let n := nibAt nibs g
    (List.range 4).map fun k =>
      if k = n % 4 then (vs[2 * g]?).getD zero else if k = n / 4 then (vs[2 * g + 1]?).getD zero else zero)

/-- A narrow column chunk of B (R173, R175). -/
def narrowB (comp : Nat) (bs : List Byte) : Slot15 :=
  if comp = 0 then takeBlocks 240 4 bs [] false false
  else
    let x := takeBlocks 120 2 (bs.take 128) [] false false
    let zero : NVal := .lin ⟨0, 0⟩
    let nibs := bs.drop 128
    let good := (spreadNib () nibs 60 []).isSome && zeroed bs 158 2
    { els := if good then x.els.bind (spreadNib zero nibs 60) else none, mb := x.mb || !good }

/-- A wide column chunk of B as patterns: none when it is malformed (R175). -/
def wideB (fmt comp : Nat) (bs : List Byte) : Option (List Nat) :=
  let w := rawBytes fmt
  if comp = 0 then some (unpackLe w 64 bs) else spreadNib 0 (bs.take 8) 16 (unpackLe w 32 (bs.drop 8))

/-! ## Arithmetic (R158, R159, R176) -/

/-- acc := round(acc + sum, f32, RNE), an exact zero sum counting as +0 (R158). -/
def addSum (acc : Nat) (sum : Dy) : Nat :=
  let f := fmtF32
  match f.value acc with
  | .nan _ => f.nanPat
  | .inf x => f.signPat x + f.infPat
  | .fin n m e => (f.roundDy .rne false false ((dyOf n m e).add sum)).1

/-- One narrow element of a tile after a chunk. -/
def narrowStep (a b : Slot15) (acc : Nat) : Nat :=
  match a.els, b.els with
  | some xs, some ys => addSum acc ((xs.zip ys).foldl (fun d p => d.add (mxProd p.1 p.2)) ⟨0, 0⟩)
  | _, _ => fmtF32.nanPat

/-- One f32 element after the four slices of a wide chunk (R159). DESIGN CHOICE: an exact zero of a slice has FDOT's sign, -0 only
where every product and the accumulator are -0; R159 gives none (log 81). -/
def wideStep (t : Ty) (as : List Nat) (bs : Option (List Nat)) (acc : Nat) : Nat :=
  let f := fmtOf t
  match bs with
  | none => fmtF32.nanPat
  | some bs =>
    (List.range 4).foldl (fun acc i =>
      (fDot .rne false (((as.drop (16 * i)).take 16).map f.value) (((bs.drop (16 * i)).take 16).map f.value)
        (fmtF32.value acc)).1) acc

/-- One f64 element after a chunk (R159). -/
def f64Step (as : List Nat) (bs : Option (List Nat)) (acc : Nat) : Nat :=
  let f := fmtF64
  match bs with
  | none => f.nanPat
  | some bs => (as.zip bs).foldl (fun acc p => (fFma f .rne false (f.value p.1) (f.value p.2) (f.value acc)).1) acc

/-- A chunk's bytes of A for a row (R173). -/
def State.rowA (s : State) (r : MxReq) (c row : Nat) : List Byte :=
  let n := if r.f 0x0E 1 = 15 then 256 else 64 * rawBytes (r.f 0x0E 1)
  match s.mxRange r 0 with
  | some (id, off) => s.scrBytes id (off + (c * 64 + row) * n) n
  | none => []

/-- A chunk's 64 columns of B (R174). -/
def Engine.colsB (e : Engine) (u n slot c : Nat) : List (List Byte) :=
  let bs := (List.range n).flatMap fun i => tgetD e.weights (u + c * n + i) (List.replicate 512 0)
  (List.range 64).map fun j => (bs.drop (j * slot)).take slot

/-- A row by row combination of 64 rows and 64 columns with an accumulator. -/
def gridStep {α β : Type} (rows : List α) (cols : List β) (acc : List Nat) (f : α → β → Nat → Nat) : List Nat :=
  ((rows.flatMap fun a => cols.map fun b => (a, b)).zip acc).map fun p => f p.1.1 p.1.2 p.2

/-- The two halves of f64 patterns as tiles. -/
def splitPair (vs : List Nat) : List (BitVec 32) × List (BitVec 32) :=
  (vs.map fun v => BitVec.ofNat 32 v, vs.map fun v => BitVec.ofNat 32 (v / 2 ^ 32))

/-- The f64 patterns of a pair of tiles. -/
def Engine.pairVals (e : Engine) (h : Nat) : List Nat := ((e.tile h).zip (e.tile (h + 1))).map fun p => pair32 p.1 p.2

/-- One K chunk of an MXP added to its tile (R176), with the MB bit it sets. -/
def State.mxChunk (s : State) (e : Engine) (r : MxReq) (c : Nat) : Engine × Bool :=
  let fmt := r.f 0x0E 1
  let h := r.f 0x0F 1
  let k := (e.weightsFor r).getD (0, unitsOf fmt)
  let slot := ((slotBytes fmt k.1).map Prod.fst).getD 0
  let rowsB := (List.range 64).map fun i => s.rowA r c i
  let colsB := e.colsB (r.f 8 4) k.2 slot c
  let acc := (e.tile h).map BitVec.toNat
  if fmt = 15 then
    let rows := rowsB.map fun b => takeBlocks 240 4 b [] false false
    let cols := colsB.map (narrowB k.1)
    (e.addTile h (e.tile h) ((gridStep rows cols acc narrowStep).map (BitVec.ofNat 32)), rows.any Slot15.mb || cols.any Slot15.mb)
  else
    let rows := rowsB.map (unpackLe (rawBytes fmt) 64)
    let cols := colsB.map (wideB fmt k.1)
    let bad := cols.any Option.isNone
    if fmt = 11 then
      let p := splitPair (gridStep rows cols (e.pairVals h) f64Step)
      ((e.addTile h (e.tile h) p.1).addTile (h + 1) (e.tile (h + 1)) p.2, bad)
    else (e.addTile h (e.tile h) ((gridStep rows cols acc (wideStep (rawTy fmt))).map (BitVec.ofNat 32)), bad)

/-! ## Ownership and posting (R167, R168) -/

/-- A gang becomes the owner of an engine (R167). -/
def State.mxOwn (s : State) (c g : Nat) (tiles : Tbl (BitVec 32)) : State := s.modEngine c fun e => e.fresh g tiles

/-- Whether a gang's class 11 instruction may go on: it owns the engine, or the engine is free and no gang waited before. -/
def Engine.admits (e : Engine) (g : Nat) : Bool := e.owner == some g || (e.owner == none && (e.waiting.headD g == g))

/-- A gang takes its place among those that wait for an engine. -/
def Engine.join (e : Engine) (g : Nat) : Engine := if e.waiting.contains g then e else { e with waiting := e.waiting ++ [g] }

/-- The priority of a launch's requests (R168). -/
def State.prioOf (s : State) (launch : Nat) : Nat :=
  match tget s.launches launch with
  | some l => l.lrec.priority
  | none => 0

/-- A request's place in the table: after the earlier ones; of posts in one cycle, in ascending cluster position (R171). -/
def insReq (posOf : MxReq → Nat) (r : MxReq) (t : List MxReq) : List MxReq :=
  let before (x : MxReq) : Bool := decide (x.entered < r.entered) || decide (posOf x ≤ posOf r)
  t.takeWhile before ++ r :: t.dropWhile before

/-- A request entered in the reservation table with a copy of its 64 bytes, its status granule emptied, OC_MX raised
(R168). -/
def State.mxEnter (s : State) (n : Nat) (k : MxKind) (off : Nat) : State :=
  let w := s.warp n
  let c := clusterOf w.core
  let sp : ScrId := .block w.block
  let e := s.engine c
  let r : MxReq :=
    { id := e.nextId, kind := k, warp := n, order := w.posted.mx, gang := w.gang, block := w.block, off := off,
      par := s.scrBytes sp off 64, priority := s.prioOf w.launch, tenant := w.tenant, entered := s.now, lastPass := s.now }
  ((s.setTag sp (off + 0x30) false).modEngine c fun e =>
    { e with table := insReq (fun x => (s.warp x.warp).core % 4) r e.table, nextId := e.nextId + 1 }).modWarp n
    fun w => { w with oc := w.oc.inc .mx, posted := w.posted.inc .mx }

/-- A post of class 11 as the lowest guard-true lane makes it. -/
def State.mxPost (s : State) (k : MxKind) (a : Src) (imm : BitVec 16) (l : Nat) : State × LaneOut :=
  let n := s.cur.warp
  let w := s.warp n
  let c := clusterOf w.core
  match s.scrAddr w l .core ((s.cx n l).ea a imm) 64 with
  | .error x => (s, .trap x)
  | .ok (_, off) =>
    let e := s.engine c
    if e.admits w.gang = false then (s.modEngine c fun e => e.join w.gang, .wait .matrix)
    else
      let s1 := if e.owner = some w.gang then s else s.mxOwn c w.gang []
      if 255 ≤ w.oc.mx then (s1, .wait (.ocFull .mx))
      else if Config.mxTableLen ≤ e.table.length then (s1, .wait .matrix)
      else match s1.drainAll n with
        | .error s2 => (s2, .wait .drain)
        | .ok s2 => (s2.mxEnter n k off, .next)

/-- A post of class 11 (R37, R168). -/
def mxOp (i : Instr) (k : MxKind) (a : Src) (imm : BitVec 16) (s : State) : Out :=
  warpRun i (fun l s => s.mxPost k a imm l) s

/-- MXP (R376). -/
def execMxp (k : Ctl) (a : Src) (imm : BitVec 16) (s : State) : Out := mxOp (.mxp k a imm) .mxp a imm s
/-- WBLD (R413). -/
def execWbld (k : Ctl) (a : Src) (imm : BitVec 16) (s : State) : Out := mxOp (.wbld k a imm) .wbld a imm s
/-- ACZ (R296). -/
def execAcz (k : Ctl) (a : Src) (imm : BitVec 16) (s : State) : Out := mxOp (.acz k a imm) .acz a imm s
/-- ACLD (R296). -/
def execAcld (k : Ctl) (a : Src) (imm : BitVec 16) (s : State) : Out := mxOp (.acld k a imm) .acld a imm s
/-- ACDRN (R296). -/
def execAcdrn (k : Ctl) (a : Src) (imm : BitVec 16) (s : State) : Out := mxOp (.acdrn k a imm) .acdrn a imm s
/-- ACCHK (R296). -/
def execAcchk (k : Ctl) (a : Src) (imm : BitVec 16) (s : State) : Out := mxOp (.acchk k a imm) .acchk a imm s

end Sys2Proof.Machine
end

