-- ==== Sys2Proof/Machine/Issue.lean ====
section
/-! DEFINITION. The core step (R47): meetings (R30), eligibility (R29), the vote and co-issue (R37, R49, R50, R51), the choice
of tenant and warp (R34, R53, R79, R80). -/

namespace Sys2Proof.Machine

/-! ## Waits (R29) -/

/-- Whether a deferred-free queue has room, or the pool serves no more (R140). -/
def State.deferReady (s : State) (t p : Nat) : Bool :=
  decide (s.deferTaken t < Config.deferLen) || !(s.pool t p).serves

/-- Whether what a waiting thread waits for holds now (R29, R34). A tag condition is that of the instruction as its operands stand (R97);
a counter at an external endpoint is read again each time the thread issues (R74). -/
def State.waitReady (s : State) (n l : Nat) (t : Thread) : Bool :=
  let w := s.warp n
  t.elapsed s.now || match t.wait with
  | .none => true
  | .tag _ _ _ => match s.peek w t.pc with
    | some i => (issueStop i { s with cur := { warp := n } }).isSome || (s.tagWait n l i).isNone
    | none => true
  | .fault _ | .fabric _ _ _ _ _ _ => false
  | .counter pa bound => match regionOf pa with
    | .fabric => true
    | .window => decide (bound.toNat ≤ (s.readReg w.level.num pa false).2) || (s.winCause w.level.num pa 8).isSome
    | _ => decide (bound.toNat ≤ leNat (s.cohBytes pa 8))
  | .engines c k => !s.outstanding n c k
  | .grace g => decide (g ≤ (s.tenant w.tenant).gpDone)
  | .trapMask => w.tmask == 0
  | .shfl => shflReady w t.pc l
  | .queue need => decide (w.storeQ.length + need ≤ Config.storeQueueLen)
  | .drain => w.storeQ.isEmpty
  | .stalled => !s.stalls w.core everywhere
  | .window f => !(s.fwds.any fun p => frameOf p.2.src == f && !p.2.switched && decide (Config.windowEntries ≤ p.2.window.length))
  | .pool p => !(s.pool w.tenant p).devWait &&
      ((s.poolQueue w.tenant p).head?.getD (.thread n l) == .thread n l || !(s.pool w.tenant p).serves)
  | .room p k =>
    let x := s.pool w.tenant p
    !x.devWait && ((x.allocPlan k).isSome || !x.serves)
  | .deferRoom p => s.deferReady w.tenant p
  | .moved f => (s.coverOf (4096 * f)).isNone
  | .frames tier => s.freeFwd.isSome && (tgetD s.rings tier []) != []
  | .sync t => !s.invalidating t
  | .ocFull c => decide (w.oc.get c < 255)
  | .matrix =>
    let e := s.engine (clusterOf w.core)
    e.admits w.gang && decide (e.table.length < Config.mxTableLen)
  | .landed => t.landed s.now
  | .buffer a => match s.retarget w.tenant a with
    | some r => decide ((r.buf (dieOf w.core)).length < Config.reorderLen)
    | none => true
  | .compare => !w.seg.closing
  | .twin => false
  | .power => s.power.pstate == 0

/-- Whether a thread is blocked by the scoreboard at its instruction (R57). -/
def State.blocked (s : State) (w : Warp) (t : Thread) : Bool :=
  let late := t.pend.filter fun p => s.now < p.due
  if late = [] then false
  else match s.peek w t.pc with
    | none => false
    | some i =>
      let (ds, rs) := refsOf i
      late.any fun p => (ds ++ rs ++ qRef (ctlOf i).gp).contains p.reg

/-- Whether a thread of a paired gang that is being saved is behind its twin, so that it goes on to the same place (R243). -/
def State.lags (s : State) (n l : Nat) (t : Thread) : Bool :=
  match s.twinWarp n with
  | some m => decide (t.count < (s.thread m l).count)
  | none => false

/-- Whether pre-emption lets a thread issue (R83): its block is not being saved and no gang of its launch before its own is away (R35); or
it lags behind its twin, whose place it must reach for the save (R243), while those before it are still there. -/
def State.goesOn (s : State) (n l : Nat) (w : Warp) (t : Thread) : Bool :=
  w.service || ((s.block w.block).state == .resident && !s.earlierAway w.launch w.gangLin) ||
    (w.paired && (s.block w.block).state == .saving && s.lags n l t && !s.earlierWhere w.launch w.gangLin s.gangAway)

/-- R29: whether a thread may issue in a step. -/
def State.eligible (s : State) (n l step : Nat) (t : Thread) : Bool :=
  s.goesOn n l (s.warp n) t && !t.exited && !t.held && !t.debugSleep && decide (t.stallUntil ≤ step) &&
    (match t.asleep with
      | some d => decide (d ≤ s.now)
      | none => true) &&
    s.waitReady n l t && !s.blocked (s.warp n) t

/-- A thread that could issue an instruction whose tag condition does not hold waits in it, and takes no step (R97). -/
def State.meetTag (s : State) (n l step : Nat) : State :=
  let w := s.warp n
  let t := s.thread n l
  if t.wait ≠ .none ∨ s.eligible n l step t = false then s
  else match s.peek w t.pc with
    | none => s
    | some i =>
      if (issueStop i { s with cur := { warp := n } }).isSome then s
      else match s.tagWait n l i with
        | some x => s.modThread n l fun t => { t with wait := x }
        | none => s

/-! ## Meetings (R30, R52) -/

/-- The threads of a warp, each with whether it is in its trap handler. -/
def Warp.withHandler (w : Warp) : List (Bool × Thread) := mapFrom (fun l t => (mbit w.tmask l, t)) 0 w.threads

/-- Whether a thread is at its meeting address: one that is in its handler or sleeps counts as elsewhere (R32, R239, R311, R404). -/
def arrived (p : Bool × Thread) : Bool := !p.1 && p.2.pc == p.2.meet && p.2.asleep.isNone && !p.2.debugSleep

/-- Whether a thread is released: it is at its meeting address and so is every other holder of it. -/
def released (ts : List (Bool × Thread)) (p : Bool × Thread) : Bool :=
  !p.2.exited && p.2.meet != 0 && arrived p && ts.all fun u => u.2.exited || u.2.meet != p.2.meet || arrived u

/-- One thread after a meeting evaluation. -/
def meetThread (ts : List (Bool × Thread)) (p : Bool × Thread) : Thread :=
  if released ts p then { p.2 with meet := 0, held := false }
  else { p.2 with held := !p.1 && !p.2.exited && p.2.meet != 0 && p.2.pc == p.2.meet }

/-- MEETING_EVALUATION (R30). A release costs the step after the one that makes it, in which the released threads still vote
(R52). -/
def Warp.evaluate (w : Warp) (step : Nat) : Warp :=
  let ts := w.withHandler
  { w with threads := ts.map (meetThread ts)
           merging := w.mergeUntil == step
           mergeUntil := if ts.any (released ts) then step + 1 else w.mergeUntil }

/-! ## The vote (R37, R49, R50, R51) -/

/-- The least PC of some lanes of a warp. -/
def leastPc (w : Warp) (ls : List Nat) : Word :=
  ls.foldl (fun m l => let p := ((w.threads[l]?).getD {}).pc; if p.toNat < m.toNat then p else m)
    (((w.threads[ls.headD 0]?).getD {}).pc)

/-- The eldest of the lanes of age 64 and more, the lowest on ties. -/
def eldest (w : Warp) (ls : List Nat) : Option Nat :=
  let age (l : Nat) : Nat := ((w.threads[l]?).getD {}).age
  match ls.filter fun l => 64 ≤ age l with
  | [] => none
  | a :: rest => some (rest.foldl (fun m l => if age m < age l then l else m) a)

/-- The lanes of a list at a PC. -/
def lanesAt (w : Warp) (ls : List Nat) (pc : Word) : List Nat := ls.filter fun l => ((w.threads[l]?).getD {}).pc == pc

/-- Whether an instruction may co-issue (R50, R282): classes 0 to 3 but for MOVW and WMOV, passing checks 1 to 8. -/
def State.mayPair (s : State) (n : Nat) (w : Warp) (pc : Word) : Bool :=
  match s.peek w pc with
  | none => false
  | some i => decide (clsOf i ≤ 3) && (match opOf i with
      | some .movw | some .wmov => false
      | _ => true) && (issueStop i { s with cur := { warp := n } }).isNone

/-- Whether a warp-wide instruction at a PC makes its warp wait (R37): every thread is there, and some cannot issue. -/
def State.wideWaits (s : State) (w : Warp) (pc : Word) (slot : List Nat) : Bool :=
  match s.peek w pc with
  | none => false
  | some i => warpWide i && w.live.all (fun l => ((w.threads[l]?).getD {}).pc == pc) && decide (slot.length < w.live.length)

/-- ISSUE_VOTE (R49): the bundles a warp would issue, and the eligible lanes. -/
def State.vote (s : State) (n step : Nat) : List Bundle × List Nat :=
  let w := s.warp n
  let es := w.live.filter fun l => s.eligible n l step ((w.threads[l]?).getD {})
  match es with
  | [] => ([], [])
  | _ =>
    let pc1 := match eldest w es with
      | some l => ((w.threads[l]?).getD {}).pc
      | none => leastPc w es
    let slot1 := lanesAt w es pc1
    let rest := es.filter fun l => !slot1.contains l
    let b1 : Bundle := { warp := n, lanes := maskOf slot1, slot := 1 }
    if s.wideWaits w pc1 slot1 then ([], es)
    else if rest = [] then ([b1], es)
    else
      let pc2 := leastPc w rest
      if s.mayPair n w pc1 && s.mayPair n w pc2 then
        ([b1, { warp := n, lanes := maskOf (lanesAt w rest pc2), slot := 2 }], es)
      else ([b1], es)

/-! ## The choice of tenant and warp (R34, R53, R79, R80) -/

/-- A ready warp in a core step: its number, its tenant and its vote. -/
structure ReadyWarp where
  n : Nat
  tenant : Nat
  bundles : List Bundle
  eligible : List Nat
  deriving DecidableEq, Repr

/-- The warps of a core that are ready in a step, lowest number first. -/
def State.readyWarps (s : State) (core step : Nat) : List ReadyWarp :=
  (s.warps.filter fun p => p.2.service = false ∧ p.2.resident ∧ p.2.core = core ∧ p.2.merging = false ∧
      (s.tenant p.2.tenant).weight ≠ 0).filterMap fun p =>
    let v := s.vote p.1 step
    if v.1 = [] then none else some { n := p.1, tenant := p.2.tenant, bundles := v.1, eligible := v.2 }

/-- One round of R79: the first ready tenant from the pointer with NPASS to spend. -/
def deficitPick (ready : Nat → Bool) (d : Tbl Nat) (ptr npass : Nat) : Option Nat :=
  ((List.range 16).map fun i => (ptr + i) % 16).find? fun t => ready t && decide (npass ≤ tgetD d t 0)

/-- TENANT_CHOICE (R79): the deficits, the pointer and the tenant, within a bounded number of rounds. -/
def tenantChoice (ready : Nat → Bool) (weight : Nat → Nat) (npass : Nat) : Nat → Tbl Nat → Nat → Option (Nat × Tbl Nat × Nat)
  | 0, _, _ => none
  | k + 1, d, ptr =>
    match deficitPick ready d ptr npass with
    | some t => some (t, tset d t (tgetD d t 0 - npass), t)
    | none =>
      let d' := (List.range 16).foldl (fun d t => if ready t then tset d t (tgetD d t 0 + weight t) else d) d
      tenantChoice ready weight npass k d' ((ptr + 1) % 16)

/-- The warp of a tenant that takes its slot (R34, R80): one that has not issued for 256 of the tenant's slots, else the lowest
residency number. DESIGN CHOICE: of several that have waited so long, which R34 does not order, the one of the lowest residency
number goes first (log 74). -/
def State.oldest (s : State) (ws : List ReadyWarp) : Option ReadyWarp :=
  let low (l : List ReadyWarp) : Option ReadyWarp := l.foldl (fun m x => match m with
    | none => some x
    | some y => if (s.warp x.n).residency < (s.warp y.n).residency then some x else some y) none
  match low (ws.filter fun x => 256 ≤ (s.warp x.n).slotsWaited) with
  | some x => some x
  | none => low ws

/-- A slot of a tenant on a core passes for each of its warps that is resident there (R34). -/
def State.countSlot (s : State) (core t : Nat) : State :=
  { s with warps := s.warps.map fun p =>
      if p.2.service = false ∧ p.2.resident ∧ p.2.core = core ∧ p.2.tenant = t then
        (p.1, { p.2 with slotsWaited := p.2.slotsWaited + 1 })
      else p }

/-- R51: the eligible threads that do not issue grow older. -/
def Warp.ageOthers (w : Warp) (eligible issuing : List Nat) : Warp :=
  { w with threads := mapFrom (fun l (t : Thread) =>
      if eligible.contains l && !issuing.contains l then { t with age := min 64 (t.age + 1) } else t) 0 w.threads }

/-- What has landed by a step is forgotten: pending marks, old values past their distance, ended sleeps. -/
def Thread.settled (t : Thread) (now step : Nat) : Thread :=
  { t with pend := t.pend.filter fun p => now < p.due
           early := t.early.filter fun e => now < e.due || step < e.step + e.dist
           asleep := t.asleep.filter fun d => now < d }

/-- The threads whose sleep has run out are awake. -/
def Warp.rouse (w : Warp) (now : Nat) : Warp :=
  { w with threads := w.threads.map fun (t : Thread) => { t with asleep := t.asleep.filter fun d => now < d } }

/-- The warps of a core at the start of a step: landings, then meetings. -/
def State.beginStep (s : State) (core step : Nat) : State :=
  { s with warps := s.warps.map fun p =>
      if p.2.service = false ∧ p.2.resident ∧ p.2.core = core then
        (p.1, ({ p.2 with threads := p.2.threads.map fun (t : Thread) => t.settled s.now step
                          wearly := p.2.wearly.filter fun e => s.now < e.due || step < e.step + e.dist }).evaluate step)
      else p }

/-- The threads of a core that reach a tag access at a step whose condition does not hold (R97). -/
def State.meetTags (s : State) (core step : Nat) : State :=
  (s.warps.filter fun p => p.2.service = false ∧ p.2.resident ∧ p.2.core = core).foldl (fun s p =>
    p.2.live.foldl (fun s l => s.meetTag p.1 l step) s) s

/-- The number of the next step of a core: the first that begins at or after now (R47). -/
def State.nextStep (s : State) (core : Nat) : Nat :=
  let c := s.core core
  max (c.step + 1) (ceilDiv (s.now - c.startCycle) c.npass)

/-- Whether a lane of a core is under test. -/
def State.testsLane (s : State) (core : Nat) : Bool :=
  s.selfTests.any fun u => match u with
    | .lane c _ => c == core
    | _ => false

/-- CORE_STEP (R47): the step begins, its warps evaluate meetings and vote, and the chosen warp's bundles are the next to run.
Nothing happens on a core that is retired or while the compute dies are not active (R253). A slot that the current governor withholds is
charged to none (R10, R53), and so is one step in 8 while a lane of the core is under test (R249, log 61); the surplus of tenants that are
not ready goes all the same (R79). -/
def State.coreStep (s : State) (core : Nat) : State :=
  let c := s.core core
  if 1024 ≤ core ∨ c.enabled = false ∨ s.power.pstate ≠ 0 then s
  else
    let step := s.nextStep core
    let s := { s with now := max s.now (c.startCycle + step * c.npass) }
    let s := ((s.modCore core fun c => { c with step := step }).beginStep core step).meetTags core step
    let ws := s.readyWarps core step
    let ready (t : Nat) : Bool := ws.any fun w => w.tenant == t
    let d0 := c.deficits.filter fun p => ready p.1
    if ws = [] then s.modCore core fun c => { c with deficits := [] }
    else if step % 8 = 7 ∧ s.testsLane core then s.modCore core fun c => { c with deficits := d0 }
    else match tenantChoice ready (fun t => (s.tenant t).weight) c.npass 5 d0 c.ptr with
      | none => s
      | some (t, d, ptr) =>
        let g := s.governor t
        if g.2 then g.1.modCore core fun c => { c with deficits := d0 }
        else
          let s := g.1.modCore core fun c => { c with deficits := d, ptr := ptr }
          match s.oldest (ws.filter fun w => w.tenant = t) with
          | none => s
          | some x =>
            let s := s.countSlot core t
            let s := s.modWarp x.n fun w => { w.ageOthers x.eligible (x.bundles.flatMap fun b => mlanes b.lanes) with slotsWaited := 0 }
            { s with issue := x.bundles }

/-- CORE_STEP (R47). -/
def execCoreStep (core : Nat) (s : State) : Out := .next (s.coreStep core)

end Sys2Proof.Machine
end

