-- ==== Sys2Proof/Machine/EvBlock.lean ====
section
/-! DEFINITION. Blocks that leave their cores and come back: BLOCK_SAVE and BLOCK_RESUME with the records of R84 and R238,
GANG_RELAUNCH (R247), and the compares of paired gangs: PAIRED_SEGMENT_COMPARE, PAIRED_COMPARE_TIMEOUT (R243 to R245). A step whose
condition does not hold changes nothing. -/

namespace Sys2Proof.Machine

/-! ## Records written (R84, R238) -/

/-- The state byte of a thread record: one that BRKPT has put to sleep is asleep (R311), and a GPWAIT past its advance waits
whether or not it has issued again. -/
def Thread.stateByte (t : Thread) (now : Nat) : Nat :=
  if t.exited then 3
  else if t.debugSleep then 1
  else match t.asleep with
    | some d => if now < d then 1 else 0
    | none => if t.wait = .none ∧ t.graceG = none then 0 else 2

/-- The wait target of a thread record: the rest of a sleep, or the grace number of a GPWAIT past its advance. A sleep of BRKPT has
no end that the spec states, so its rest is a free value (log 77). -/
def Thread.waitTarget (t : Thread) (now : Nat) (who : List Nat) : Nat :=
  match t.stateByte now with
  | 1 => if t.debugSleep then (Config.debugRest now who).toNat else t.asleep.getD now - now
  | 2 => t.graceG.getD 0
  | _ => 0

/-- The rank and the arrivals of the meeting in which a lane waits (R402). -/
def Warp.meetingFields (w : Warp) (t : Thread) (l : Nat) : Nat × Nat :=
  if t.wait = .shfl ∧ t.exited = false then
    match meetingOf w.shfl t.pc l with
    | some k => (((w.shfl.take k).filter fun m => m.pc == t.pc).length, match w.shfl[k]? with
        | some m => (m.arrTrue ||| m.arrFalse).toNat
        | none => 0)
    | none => (0, 0)
  else (0, 0)

/-- A thread record (R84). -/
def Warp.threadRec (w : Warp) (now l : Nat) (t : Thread) : List Byte :=
  let m := w.meetingFields t l
  leBytes 8 t.pc.toNat ++ leBytes 8 t.meet.toNat ++ leBytes 8 t.rsStart ++ leBytes 4 t.rsDepth ++ leBytes 4 t.fpflags.toNat ++
    leBytes 1 (t.preds.toNat % 128) ++ leBytes 1 (t.stateByte now) ++ leBytes 1 t.applied ++ leBytes 1 m.1 ++ leBytes 4 0 ++
    leBytes 8 (t.waitTarget now [w.launch, w.bid, w.wid, l]) ++ leBytes 8 t.rpay.toNat ++ leBytes 4 t.rkey.toNat ++ leBytes 4 m.2

/-- A mask of the lanes with a property. -/
def Warp.maskWhere (w : Warp) (p : Thread → Bool) : BitVec 32 :=
  maskOf ((List.range 32).filter fun l => p ((w.threads[l]?).getD {}))

/-- The trap state of a warp (R238). -/
def Warp.trapRec (w : Warp) : List Byte :=
  leBytes 8 w.tvec.toNat ++ leBytes 8 w.tpc.toNat ++ leBytes 8 w.tcause.toNat ++ leBytes 4 w.tmask.toNat ++
    leBytes 4 (w.maskWhere Thread.landing).toNat ++ leBytes 8 w.taddr.toNat ++ leBytes 8 w.tres.toNat ++
    (w.threads.flatMap fun t => leBytes 2 t.telem.toNat) ++ leBytes 80 0

/-- A warp record (R84). -/
def Warp.warpRec (w : Warp) (now : Nat) : List Byte :=
  leBytes 8 w.launchAddr.toNat ++ leBytes 8 w.bid ++ leBytes 4 w.wid ++ leBytes 4 w.regsN ++
    leBytes 4 (w.maskWhere Thread.exited).toNat ++ leBytes 4 0 ++ ocBytes w.oc ++ leBytes 8 w.fpctl.toNat ++ leBytes 8 w.tmo.toNat ++
    leBytes 8 0 ++ ((List.range 32).flatMap fun i => leBytes 8 (tgetD w.wregs i 0).toNat) ++ w.trapRec ++
    (mapFrom (fun l t => w.threadRec now l t) 0 w.threads).flatten ++
    (List.range w.regsN).flatMap fun i => w.threads.flatMap fun t => leBytes 8 (t.gcur i).toNat

/-- The header of a block record (R84). -/
def blockHeader (launchId : Word) (b : Block) : List Byte :=
  leBytes 8 launchId.toNat ++ leBytes 8 b.bid ++ leBytes 4 b.warps.length ++ leBytes 4 b.sBytes ++ leBytes 4 b.pBytes ++ leBytes 36 0

/-- The tiles of an engine in handle order, in row order (R84). -/
def Engine.tileBytes (e : Engine) : List Byte :=
  (List.range 16).flatMap fun h => (e.tile h).flatMap fun v => leBytes 4 v.toNat

/-- Whether a block's records end with a gang record that holds tiles: it is the last to be saved of a gang that owns its
engine. -/
def State.savesTiles (s : State) (b : Block) : Bool := s.leads b && (s.engine (clusterOf b.core)).owner == some b.gang

/-- All the records of one block. -/
def State.records (s : State) (b : Nat) : List Byte :=
  let k := s.block b
  (k.warps.flatMap fun n => (s.warp n).warpRec s.now) ++ blockHeader (s.warp (k.warps.headD 0)).launchAddr k ++ s.scratchRec b ++
    (if s.savesTiles k then (s.engine (clusterOf k.core)).tileBytes else [])

/-! ## BLOCK_SAVE (R83, R131) -/

/-- A thread in Bivouac: its writes have landed, and it waits as if it had not issued. -/
def Thread.swapOut (t : Thread) : Thread :=
  { t with pend := [], early := [], wait := if t.wait = .shfl then .shfl else .none, deadline := none, asleep := none,
           stallUntil := 0, age := 0, held := false, resv := none }

/-- A warp in Bivouac. -/
def Warp.swapOut (w : Warp) : Warp :=
  { w with resident := false, threads := w.threads.map Thread.swapOut, wearly := [], seg := {}, mergeUntil := 0, merging := false,
           slotsWaited := 0, shfl := w.shfl.map fun m => { m with offers := [], reads := [] } }

/-- A warp under another number: its engine operations follow, its waits behind faults end. -/
def State.moveWarp (s : State) (n m : Nat) (w : Warp) : State :=
  let behind (x : Waiter) : Bool := match x with
    | .thread k _ _ _ _ _ _ _ _ => k == n
    | _ => false
  { s with
    warps := tset (tdel s.warps n) m w
    engOps := s.engOps.map fun e => if e.warp = n then { e with warp := m } else e
    fbufs := s.fbufs.map fun b => (b.1, { b.2 with waiters := b.2.waiters.filter fun x => !behind x })
    issue := s.issue.filter fun b => b.warp != n }

/-- A number above those of the warp slots. -/
def bivKey (n : Nat) : Nat := 0x20000 + n

/-- A block's warps move to Bivouac. -/
def State.swapWarps (s : State) (b : Nat) : State :=
  (s.block b).warps.foldl (fun s n =>
    let m := bivKey s.fresh
    ((s.moveWarp n m (s.warp n).swapOut).modBlock b fun k => { k with warps := k.warps.map fun x => if x = n then m else x }).bump) s

/-- Whether every thread of a warp is where its twin's is (R243). -/
def State.samePlace (s : State) (n : Nat) : Bool :=
  match s.twinWarp n with
  | some m => ((s.warp n).threads.zip (s.warp m).threads).all fun p => p.1.count == p.2.count
  | none => true

/-- Whether a warp's segment still has something to compare. -/
def Warp.openSeg (w : Warp) : Bool := w.paired && !w.seg.closing && (w.seg.sig != 0 || w.heldCount != 0)

/-- Whether a block's save may go on: those of higher BIDs first (R35), OC_MX of an owner gang's warps 0 (R182), its writes
landed, and a paired gang's warps with their twins. -/
def State.mayStore (s : State) (k : Block) : Bool :=
  k.state == .saving &&
    (s.blocks.all fun p => p.2.launch != k.launch || p.2.bid ≤ k.bid || p.2.state != .saving) &&
    (!((s.engine (clusterOf k.core)).owner == some k.gang) || (s.gangWarps k.gang).all fun n => (s.warp n).oc.mx == 0) &&
    k.warps.all fun n =>
      let w := s.warp n
      (!w.paired || s.samePlace n) && !w.seg.closing && (w.wearly.all fun e => e.due ≤ s.now) &&
        w.threads.all fun t => t.landed s.now && t.early.all fun e => e.due ≤ s.now

/-- BLOCK_SAVE (R83): the queues drain, the block releases at package scope, its records are written, its warps leave the core;
the last of an owner gang's blocks gives up the engine (R182). A paired gang's open segments are closed first. Scratch that holds an
uncorrectable error would be read, and is consumed (R246). -/
def State.saveBlock (s : State) (b : Nat) : State :=
  let k := s.block b
  match k.biv with
  | none => s
  | some a =>
    if s.mayStore k = false then s
    else if k.warps.any fun n => (s.warp n).openSeg then
      k.warps.foldl (fun s n => if (s.warp n).openSeg then s.closeSeg n 0 else s) s
    else if (s.scrErrs (.block b)) ≠ [] then s.killGang k.gang 0x10
    else match k.warps.foldl (fun acc n => acc.bind fun s => s.release n .pk) (.ok s : Except (State × Wait) State) with
      | .error x => x.1
      | .ok s1 => match s1.ownWrite (placed a (s1.records b)) with
        | none => s1.stallFor none (.block b)
        | some s2 =>
          let tiles := s2.savesTiles k
          let s3 := (((s2.swapWarps b).leaveScratch (s2.blockTenant k) k).modBlock b fun k =>
            { k with state := .saved, grans := [] }).touchIdle
          let s4 := if tiles then
              { s3.modEngine (clusterOf k.core) (fun e => { e with owner := none }) with
                gangs := tmod s3.gangs k.gang fun g => { g with tiles := true } }
            else s3
          s4.applyMap k.core

/-- BLOCK_SAVE. -/
def execBlockSave (block : Nat) (s : State) : Out := .next (s.saveBlock block)

/-! ## Records read back (R84, R238) -/

/-- A 64-bit field. -/
def wordAt (d : List Byte) (off : Nat) : Word := BitVec.ofNat 64 (fld d off 8)

/-- A thread as its record restores it. -/
def Thread.swapIn (t : Thread) (now : Nat) (d : List Byte) (regs : Tbl Word) (landing : Bool) (telem : Nat) : Thread :=
  let st := fld d 0x21 1
  let target := fld d 0x28 8
  { t with
    pc := aligned4 (wordAt d 0x00), meet := aligned4 (wordAt d 0x08), rsStart := fld d 0x10 8, rsDepth := fld d 0x18 4,
    fpflags := BitVec.ofNat 5 (fld d 0x1C 4), preds := BitVec.ofNat 8 (fld d 0x20 1 % 128), exited := st == 3,
    asleep := if st = 1 ∧ t.debugSleep = false then some (now + target) else none, wait := if st = 2 then t.wait else .none,
    graceG := if st = 2 ∧ target ≠ 0 then some target else none, applied := fld d 0x22 1, rpay := wordAt d 0x30,
    rkey := BitVec.ofNat 64 (fld d 0x38 4), regs := regs, landing := landing, telem := BitVec.ofNat 16 telem }

/-- The six counters of a warp record. -/
def ocOf (d : List Byte) : OcCounters :=
  { cp := fld d 0 1, gx := fld d 1 1, mx := fld d 2 1, cl := fld d 3 1, pt := fld d 4 1, bk := fld d 5 1 }

/-- A warp as its record restores it, on a core with a new residency number (R80). -/
def Warp.swapIn (w : Warp) (now : Nat) (d : List Byte) (core residency : Nat) : Warp :=
  let tr := d.drop 0x140
  let rows := (List.range w.regsN).map fun i => (d.drop (0xA00 + 256 * i)).take 256
  let regsOf (l : Nat) : Tbl Word := mapFrom (fun i row => (i, wordAt row (8 * l))) 0 rows
  { w with
    core := core, residency := residency, resident := true, oc := ocOf (d.drop 0x20), fpctl := fpctlWrite w.fpctl (wordAt d 0x28),
    tmo := wordAt d 0x30,
    wregs := (List.range 32).map fun i => (i, wordAt d (0x40 + 8 * i)),
    tvec := aligned4 (wordAt tr 0x00), tpc := aligned4 (wordAt tr 0x08), tcause := wordAt tr 0x10 &&& 0x1FF#64, tmask := BitVec.ofNat 32 (fld tr 0x18 4),
    taddr := wordAt tr 0x20, tres := wordAt tr 0x28,
    threads := mapFrom (fun l (t : Thread) =>
      t.swapIn now ((d.drop (0x200 + 64 * l)).take 64) (regsOf l) ((fld tr 0x1C 4).testBit l) (fld tr (0x30 + 2 * l) 2)) 0 w.threads }

/-- Scratch bytes as a block record restores them. -/
def scratchOf (d : List Byte) : Tbl Byte := (mapFrom (fun i v => (i, v)) 0 d).filter fun p => p.2 != 0

/-- Full granules as a block record restores them. -/
def tagsOf (d : List Byte) (granules : Nat) : List Nat :=
  (List.range granules).filter fun i => ((d[i / 8]?).getD 0).getLsbD (i % 8)

/-- Tiles as a gang record restores them. -/
def tilesOf (d : List Byte) : Tbl (BitVec 32) :=
  (mapFrom (fun i v => (i, BitVec.ofNat 32 v)) 0 (unpackLe 4 65536 d)).filter fun p => p.2 != 0

/-! ## BLOCK_RESUME (R35, R78, R83, R85, R182) -/

/-- A gang. -/
def State.gang (s : State) (g : Nat) : Gang :=
  (tget s.gangs g).getD { launch := 0, lin := 0, cluster := 256, blocks := [] }

/-- A gang with its twin. -/
def State.pairOf (s : State) (g : Nat) : List Nat := g :: (s.gang g).twin.toList

/-- The blocks of a gang that have not retired: those that come back. -/
def State.unretired (s : State) (g : Nat) : List Nat := (s.gang g).blocks.filter fun b => (s.block b).state != .retired

/-- The cores of a pair's gangs: the first for the blocks of the die-0 twin. -/
def coresFor (s : State) (g : Nat) (cs : List Nat) : List (Nat × List Nat) :=
  let n := (s.unretired g).length
  match (s.gang g).twin with
  | some t => [(g, cs.take n), (t, cs.drop n)]
  | none => [(g, cs)]

/-- Whether cores are a place for the blocks of a gang, with its twin, that come back (R76): a twin stays on its die. -/
def State.returnOk (s : State) (l : Launch) (g : Nat) (cs : List Nat) : Bool :=
  (coresFor s g cs).all fun p =>
    s.coresOk l.tenant { l.lrec with g := (s.unretired p.1).length } p.2 &&
      (!l.lrec.paired || p.2.all fun c => dieOf c == if (s.gang p.1).onDie1 then 1 else 0)

/-- Whether a launch lets a gang of it come back now. -/
def State.mayReturn (s : State) (k : Gang) (l : Launch) : Bool :=
  !l.stopped && l.state != .finished && s.serves l.tenant && s.power.pstate == 0 && !s.sec.recovery && !k.onDie1 &&
    !s.earlierAway k.launch k.lin

/-- Whether a gang that yielded to a higher priority must still wait for a ready launch (R78). -/
def State.stillYields (s : State) (k : Gang) (l : Launch) : Bool :=
  s.gangYields k && s.launches.any fun p => p.2.tenant == l.tenant && decide (l.lrec.priority < p.2.lrec.priority) && p.2.state == .ready && p.2.waits

/-- Whether a gang whose record holds tiles finds an engine without owner, not retired (R182). -/
def State.engineFree (s : State) (g : Nat) (cs : List Nat) : Bool :=
  let e := s.engine (clusterOf (cs.headD 0))
  !(s.gang g).tiles || (e.owner == none && !e.retired)

/-- The Ridgepole's own read of a record: each line of it is a request for its frame (R196). -/
def State.ownRead (s : State) (pa n : Nat) : State := (linesOf pa n).foldl (fun s l => s.count none (l * 256) 1) s

/-- One block comes back on a core, from its records; the core's report counts its readers before the summary drops them (R131). -/
def State.resumeBlock (s : State) (b c : Nat) : State :=
  let k := s.block b
  match k.biv with
  | none => s
  | some a =>
    let s := s.ownRead a (s.saveBytes k)
    let rec_ := warpRecBytes (s.blockN k)
    let o := a + s.recOffset k + 64
    let first := (s.core c).nextResidency
    let slots := (s.freeSlots c).take k.warps.length
    let ws := mapFrom (fun i (n : Nat) => (n, (slots[i]?).getD 0, (s.warp n).swapIn s.now (s.cohBytes (a + i * rec_) rec_) c (first + i))) 0 k.warps
    let scratch := scratchOf (s.cohBytes o k.allocBytes)
    let tags := tagsOf (s.cohBytes (o + k.allocBytes) (ceilDiv k.allocBytes 128)) (k.allocBytes / 16)
    let s1 := ws.foldl (fun s w => s.moveWarp w.1 w.2.1 w.2.2) s
    let s2 := s1.modCore c fun x => { x with nextResidency := x.nextResidency + k.warps.length }
    let s3 := { s2 with drawn := if k.allocBytes = 0 then s2.drawn else s2.drawn + 1 }.modBlock b fun k =>
      { k with core := c, warps := slots, state := .resident, biv := none, cause := 0, scratch := scratch, tags := tags, errs := [],
               grans := s.freeGrans c k.allocBytes }
    match tget s.launches k.launch with
    | some l => (s3.freshCore c).reportTenant c l.tenant
    | none => s3.freshCore c

/-- A gang comes back on cores; its tiles go back to the cluster's engine before any of its warps issues (R182). -/
def State.resumeGang (s : State) (g : Nat) (cs : List Nat) : State :=
  let k := s.gang g
  let c := clusterOf (cs.headD 0)
  let s1 := if k.tiles then
      match (s.unretired g).map s.block with
      | b :: _ => s.mxOwn c g (tilesOf (s.cohBytes (b.biv.getD 0 + s.saveBytes b - gangRecBytes) gangRecBytes))
      | [] => s
    else s
  let s2 := { s1 with gangs := tmod s1.gangs g fun k => { k with tiles := false, cluster := c } }
  ((s.unretired g).zip cs).foldl (fun s p => s.resumeBlock p.1 p.2) s2

/-- Whether a block's records hold uncorrectable data, which a resume would consume (R246). -/
def State.badRecords (s : State) (b : Nat) : Bool :=
  let k := s.block b
  match k.biv with
  | some a => s.anyPoison a (s.saveBytes k)
  | none => false

/-- Whether a warp record keeps its reserved fields 0 (R84, R238). -/
def warpRecOk (d : List Byte) : Bool :=
  zeroed d 0x1C 4 && zeroed d 0x26 2 && zeroed d 0x38 8 && zeroed d 0x1B0 80 &&
    (List.range 32).all fun l => zeroed d (0x200 + 64 * l + 0x24) 4 && decide (fld d (0x200 + 64 * l + 0x20) 1 < 128)

/-- Whether a block's records are well formed (R17, R84). -/
def State.recordsOk (s : State) (b : Nat) : Bool :=
  let k := s.block b
  match k.biv with
  | some a =>
    zeroed (s.cohBytes (a + s.recOffset k) 64) 0x1C 36 &&
      (List.range k.warps.length).all fun i => warpRecOk (s.cohBytes (a + i * warpRecBytes (s.blockN k)) 0xA00)
  | none => true

/-- BLOCK_RESUME: a saved gang becomes resident on cores that R76 allows, its blocks together, its twin with it; Bivouac space that
comes free lets other pre-emptions start. Records that are malformed are not acted on (R17). DESIGN CHOICE: R84 names no error path
for them; Lantern logs the gang (log 77). -/
def State.resume (s : State) (g : Nat) (cs : List Nat) : State :=
  let k := s.gang g
  match tget s.launches k.launch with
  | none => s
  | some l =>
    let bs := (s.pairOf g).flatMap s.unretired
    if bs = [] ∨ bs.any (fun b => (s.block b).state != .saved) ∨ s.mayReturn k l = false ∨ s.stillYields k l then s
    else if bs.any s.badRecords then s.killGang g 0x10
    else if s.returnOk l g cs = false ∨ (coresFor s g cs).any (fun p => !s.engineFree p.1 p.2) then s
    else if bs.any fun b => !s.recordsOk b then s.log [g]
    else ((coresFor s g cs).foldl (fun s p => s.resumeGang p.1 p.2) s).retryPreempt

/-- BLOCK_RESUME. -/
def execBlockResume (gang : Nat) (cores : List Nat) (s : State) : Out := .next (s.resume gang cores)

/-! ## GANG_RELAUNCH (R247) -/

/-- Whether a self-test that the death of a gang's pair started is still to end (R245). -/
def State.underTest (s : State) (g : Nat) : Bool :=
  (s.gang g).lastCause == 0x0F && s.selfTests.contains (.cluster (s.gang g).cluster)

/-- Whether the counters of a gang's warps have drained. -/
def State.gangDrained (s : State) (g : Nat) : Bool := (s.gangWarps g).all fun n => (s.warp n).oc.empty

/-- A gang as its relaunch begins. -/
def Gang.again (k : Gang) : Gang := { k with killed := false, blocks := [], relaunch := k.relaunch + 1, tiles := false }

/-- A gang's new blocks on cores: those of an emitted warp start from its deposits (R42). -/
def State.replaceGang (s : State) (l : Launch) (g : Nat) (cs : List Nat) : State :=
  let k := s.gang g
  match k.deposits with
  | [] => s.placeGang k.launch g k.lin k.relaunch cs
  | ds => s.placeBlock
      { lid := k.launch, gang := g, pos := 0, bid := k.lin, lin := k.lin, relaunch := k.relaunch,
        threads := depositThreads l.lrec.entry ds } (cs.headD 0)

/-- Whether cores are a place for a relaunch: a reorder target's warp stays on its die (R41). -/
def State.againOk (s : State) (l : Launch) (k : Gang) (cs : List Nat) : Bool :=
  s.placeOk l.tenant l.lrec cs && (k.deposits == [] || dieOf (cs.headD 0) == k.cluster / 128)

/-- GANG_RELAUNCH: a killed gang whose counters have drained, and whose self-tests have ended (R245), gives up its old place, and becomes
resident again with the same identity; those of its blocks that had retired count again. -/
def State.relaunch (s : State) (g : Nat) (cs : List Nat) : State :=
  let k := s.gang g
  match tget s.launches k.launch with
  | none => s
  | some l =>
    let gs := s.pairOf g
    if k.killed = false ∨ s.mayReturn k l = false ∨ gs.any (fun g => !s.gangDrained g || s.underTest g) then s
    else
      let bs := gs.flatMap fun g => (s.gang g).blocks
      let s1 := bs.foldl State.freeBlock s
      if s1.againOk l k cs = false then s1
      else
        let n := l.lrec.g
        let s2 := gs.foldl (fun s g => { s with gangs := tmod s.gangs g Gang.again }) s1
        let s3 := s2.modLaunch k.launch fun l =>
          { l with relaunches := l.relaunches + 1, retired := l.retired - (bs.filter fun b => (s.block b).counted).length }
        match k.twin with
        | some t => (s3.replaceGang l g (cs.take n)).replaceGang l t (cs.drop n)
        | none => s3.replaceGang l g cs

/-- GANG_RELAUNCH. -/
def execGangRelaunch (gang : Nat) (cores : List Nat) (s : State) : Out := .next (s.relaunch gang cores)

/-! ## Compares (R245) -/

/-- The warp of a gang by its number: position times W, plus WID. -/
def State.warpOf (s : State) (g wid : Nat) : Option Nat := (s.gangWarps g)[wid]?

/-- The cores of the issuing warp's gang and of its twin. -/
def State.pairCores (s : State) : List Nat :=
  ((s.pairOf s.curWarp.gang).flatMap fun g => (s.gang g).blocks.map fun b => (s.block b).core).dedup

/-- The L1s of a paired gang's cores give up the lines that a held entry writes, so that no thread of the gang reads an older byte
afterwards (R107, R109). -/
def State.pairRelease (s : State) (x : Xlat) : Option State :=
  tryAll (fun s c => (s.l1Release c x.pa).map fun s => s.replRelease c x) s s.pairCores

/-- The release of the thread that a held DEFER or FREE carries (R124, R139). -/
def State.heldRelease (s : State) : Option State :=
  match s.release s.cur.warp .pk with
  | .ok s => some s
  | .error _ => none

/-- A held DEFER performed: posted if its thread was told so and the check still holds; a failed check counts (R134, R136). -/
def State.performDefer (s : State) (t ptr k p : Nat) (ok : Bool) : State :=
  let c := s.deferCheck t ptr k p
  if ok && c.2 then s.pushDefer t ptr k p else c.1

/-- A held FREE performed (R134, R139): the return if its thread was told so; else what it finds counts in PERR. False while Stuffsack lets
it wait. -/
def State.performFree (s : State) (t ptr k p : Nat) (ok : Bool) : State × Bool :=
  if ok then
    let r := s.poolFree (.held s.cur.warp) t p ptr k
    (r.1, r.2 != .wait)
  else (if (s.pool t p).serves then s.perr t p else s, true)

/-- One held entry performed after an equal compare, a store from the hold buffer in L2 (R245), past the cores' L1s; false while it
must wait. -/
def State.performHeld (s : State) (core : Nat) (h : Held) : State × Bool :=
  let to_ : Option Nat := match h with
    | .store (.mem x) _ | .red (.mem x) _ _ _ => some (frameOf x.pa)
    | _ => none
  let wait : State × Bool := (s.stallFor to_ (.pair s.curWarp.gang (s.curWarp.pos * s.curWarp.wpb + s.curWarp.wid)), false)
  let try_ (r : Option State) : State × Bool := (r.map fun s => (s, true)).getD wait
  match h with
  | .store (.mem x) bs => try_ ((s.pairRelease x).bind fun s => s.pocWrite core x bs)
  | .store dst bs => try_ (s.performStore core dst bs)
  | .red (.mem x) op t v => try_ ((s.pairRelease x).bind fun s => s.performRed core (.mem x) op t v.toNat)
  | .red dst op t v => try_ (s.performRed core dst op t v.toNat)
  | .deferFree t ptr k p ok => try_ (s.heldRelease.map fun s => s.performDefer t ptr.toNat k p ok)
  | .free t ptr k p ok => match s.heldRelease with
    | some s => s.performFree t ptr.toNat k p ok
    | none => wait
  | .deposit d addr key pay =>
    let t := (s.curWarp).tenant
    let s := s.enliven t addr
    match s.retarget t addr with
    | none => (s, true)
    | some r =>
      if Config.reorderLen ≤ (r.buf d).length then (s, false) else (s.deposit t addr d { key := key.toNat, payload := pay }, true)
  | .engine id => (s.modEop id fun e => { e with held := false, posted := s.now }, true)

/-- The held entries of a warp performed in order, from the first: those performed leave its segment. False while one waits. -/
def State.performAll (s : State) (n : Nat) : Nat → State × Bool
  | 0 => (s, true)
  | fuel + 1 =>
    match (s.warp n).seg.held with
    | [] => (s, true)
    | (_, h) :: rest =>
      let r := { s with cur := { s.cur with warp := n } }.performHeld (s.warp n).core h
      let s1 := { r.1 with cur := s.cur }
      if r.2 then (s1.modWarp n fun w => { w with seg := { w.seg with held := rest } }).performAll n fuel else (s1, false)

/-- A segment compared and found equal: a new one is open, and the lanes whose event ended the old one perform it now. -/
def Warp.comparedEqual (w : Warp) : Warp := { w with seg := { passed := w.seg.passed ||| w.seg.enders } }

/-- PAIRED_SEGMENT_COMPARE: equal signatures perform the die-0 twin's entries in order and discard the other's; different ones kill
both twins. -/
def State.compareSegs (s : State) (g wid : Nat) : State :=
  let k := s.gang g
  match s.warpOf g wid, k.twin.bind fun t => s.warpOf t wid with
  | some n, some m =>
    if k.onDie1 ∨ k.killed ∨ (s.warp n).seg.closing = false ∨ (s.warp m).seg.closing = false then s
    else if (s.warp n).seg.sig ≠ (s.warp m).seg.sig then s.killGang g 0x0F
    else
      let r := s.performAll n (s.warp n).seg.held.length
      if r.2 then (r.1.modWarp n Warp.comparedEqual).modWarp m Warp.comparedEqual else r.1
  | _, _ => s

/-- PAIRED_SEGMENT_COMPARE. -/
def execPairedSegmentCompare (gang wid : Nat) (s : State) : Out := .next (s.compareSegs gang wid)

/-- PAIRED_COMPARE_TIMEOUT: one twin has ended its segment and the other has not within 10 ms. -/
def State.compareLate (s : State) (g wid : Nat) : State :=
  let k := s.gang g
  let late (a b : Warp) : Bool := a.seg.closing && !b.seg.closing && decide (a.seg.since + Config.tenMs ≤ s.now)
  match s.warpOf g wid, k.twin.bind fun t => s.warpOf t wid with
  | some n, some m =>
    if k.killed = false ∧ (late (s.warp n) (s.warp m) ∨ late (s.warp m) (s.warp n)) then s.killGang g 0x0F else s
  | _, _ => s

/-- PAIRED_COMPARE_TIMEOUT. -/
def execPairedCompareTimeout (gang wid : Nat) (s : State) : Out := .next (s.compareLate gang wid)

end Sys2Proof.Machine
end

