-- ==== Sys2Proof/Machine/EvCore.lean ====
section
/-! DEFINITION. Steps of the cores, the store queues, the caches and the homes that no instruction makes: STALL_EXPIRY,
SLEEP_EXPIRY, WAIT_TIMEOUT, RESULT_LANDING, STORE_QUEUE_DRAIN, CACHE_EVICTION, LINE_INVALIDATION, HOME_REQUEST, ATOMIC_AT_HOME,
REPLICA_UPDATE, RESERVATION_LAPSE, FABRIC_RESPONSE_TIMEOUT. A step whose condition does not hold changes nothing. -/

namespace Sys2Proof.Machine

/-- A compute thread whose STALL count has run out by the core's next step (R54). -/
def execStallExpiry (warp lane : Nat) (s : State) : Out :=
  .next (s.modThread warp lane fun t =>
    if (s.warp warp).service = false ∧ t.stallUntil ≤ s.nextStep (s.warp warp).core then { t with stallUntil := 0 } else t)

/-- A thread whose sleep has run out is awake (R404). -/
def execSleepExpiry (warp lane : Nat) (s : State) : Out :=
  .next (s.modThread warp lane fun t => match t.asleep with
    | some d => if d ≤ s.now then { t with asleep := none } else t
    | none => t)

/-- What an instruction that waits with a bound leaves when the bound has elapsed (R74, R140, R203); none for an instruction
that waits without one. -/
def State.timedOut (s : State) (n l : Nat) (i : Instr) : Option State :=
  match i with
  | .cwait _ q _ _ => some (s.answer n l q false)
  | .pin _ q _ _ _ => some (s.answer n l q false)
  | .defer _ q a b _ =>
    let x := s.cx n l
    some ((if x.w.paired then s.fold n (foldRecord i (x.src a) (wordBytes (x.src b)) (maskBytes 8)) else s).answer n l q false)
  | .alloc _ q d _ _ =>
    let x := s.cx n l
    some (s.modThread n l fun t => (t.writeD x (.var 300) d 0).writeQ x (.var 300) q false)
  | _ => none

/-- Whether a bounded wait is of an instruction that a paired gang performs once (R134, R202). -/
def waitsOnce (i : Instr) : Bool :=
  match i with
  | .alloc _ _ _ _ _ | .pin _ _ _ _ _ => true
  | _ => false

/-- WAIT_TIMEOUT (R74): the bounded wait completes unsatisfied and the thread goes on; its instruction has issued (R54). -/
def execWaitTimeout (warp lane : Nat) (s : State) : Out :=
  let w := s.warp warp
  let t := s.thread warp lane
  .next (
    if t.exited || t.wait == .none || !t.elapsed s.now || !(w.resident || w.service) then s
    else match s.peek w t.pc with
      | none => s
      | some i => match s.timedOut warp lane i with
        | none => s
        | some s1 =>
          let s0 := { s with cur := { warp := warp, lanes := maskOf [lane] } }
          let s2 := { s1 with cur := s0.cur }.modThread warp lane fun t => t.issued (s.core w.core).step (ctlOf i).stall.val (nextPc i t)
          let s3 := stallYield i s0 s2
          { (if w.paired && waitsOnce i then copyTwin i s0 (s3.passedBy warp s0.cur.lanes) else s3) with cur := s.cur })

/-- RESULT_LANDING (R57): results whose time has come are no longer pending. -/
def execResultLanding (warp lane : Nat) (s : State) : Out :=
  .next (s.modThread warp lane fun t => { t with pend := t.pend.filter fun p => s.now < p.due })

/-- STORE_QUEUE_DRAIN (R108, R387): the oldest entry of a warp's queue, unless it must wait (R200). -/
def execStoreQueueDrain (warp : Nat) (s : State) : Out := .next (s.drainOne warp)

/-- CACHE_EVICTION (R101): a line leaves a cache, its dirty bytes passed on; one that carries a stalled write ends after the Switch
(R200). -/
def execCacheEviction (cache : CacheId) (line : Nat) (s : State) : Out :=
  let p (a : Nat) : Bool := a / 256 == line
  .next (match cache with
    | .l1 core =>
      let s1 := s.l1Push core p
      if s1.stalls core p then s1 else s1.l1Drop core p
    | .l2 die => if die < 2 then s.l2Flush die p true else s
    | .svc => s.l2Flush 2 p true)

/-- LINE_INVALIDATION (R103): a holder gives a line up to its home agent; no L1 is in a directory. -/
def execLineInvalidation (cache : CacheId) (line : Nat) (s : State) : Out :=
  let p (a : Nat) : Bool := a / 256 == line
  .next (match cache with
    | .l1 _ => s
    | .l2 die => if die < 2 then s.l2Flush die p true else s
    | .svc => s.l2Flush 2 p true)

/-- HOME_REQUEST (R196, R197). -/
def execHomeRequest (req : HomeReq) (s : State) : Out := .next (s.countReq req)

/-- ATOMIC_AT_HOME (R217): the reduction group at the head of a warp's queue is performed at its home. -/
def execAtomicAtHome (warp : Nat) (s : State) : Out :=
  .next (match (s.warp warp).storeQ with
    | .red _ _ _ _ :: _ => s.drainOne warp
    | _ => s)

/-- REPLICA_UPDATE (R120): the store to a replicated page at the head of a warp's queue takes its place in the update order and
both replicas apply it. -/
def execReplicaUpdate (warp : Nat) (s : State) : Out :=
  .next (match (s.warp warp).storeQ with
    | .store (.mem x) _ :: _ => if x.repl then s.drainOne warp else s
    | _ => s)

/-- RESERVATION_LAPSE (R122): 2 µs after its LR. -/
def execReservationLapse (warp lane : Nat) (s : State) : Out :=
  .next (s.modThread warp lane fun t => match t.resv with
    | some r => if r.time + Config.reservationLife < s.now then { t with resv := none } else t
    | none => t)

/-- FABRIC_RESPONSE_TIMEOUT (R230): after 1 ms without a response the access is recorded as a stage-2 fault of kind 6; one that is
neither read nor write is a fetch. -/
def execFabricResponseTimeout (warp lane : Nat) (s : State) : Out :=
  .next (match (s.thread warp lane).wait with
    | .fabric since va ipa r w a =>
      if since + Config.fabricTimeout ≤ s.now then
        let q := s.accessFault warp lane { read := r, write := w, atomic := a, fetch := !(r || w || a) }
          (BitVec.ofNat 64 va) (.fault true 6 4 ipa) 0xFFFF
        match q.2 with
        | .wait x => q.1.modThread warp lane fun t => { t with wait := x }
        | _ => q.1
      else s
    | _ => s)

end Sys2Proof.Machine
end

