-- ==== Sys2Proof/Machine/EvEngine.lean ====
section
/-! DEFINITION. Steps of the class 10 engines: the completions of CPY, CPYZ, GATH, SCAT, BKOP, ROWCP, ROWZ, CLEAN, INVAL and
FLUSH; puts (R119, R232, R233); collectives and the landing slots (R225 to R229). A step whose condition does not hold changes
nothing. -/

namespace Sys2Proof.Machine

/-! ## Completions -/

/-- COPY_COMPLETION (R317, R318). -/
def execCopyCompletion (eop : Nat) (s : State) : Out :=
  .next (s.runEop eop (fun k => k == .copy || k == .copyz) State.copyWork)

/-- GATHER_COMPLETION (R349 to R351). -/
def execGatherCompletion (eop : Nat) (s : State) : Out :=
  .next (s.runEop eop (· == .gather) fun s e => s.gathWork e false)

/-- SCATTER_COMPLETION (R397, R398). -/
def execScatterCompletion (eop : Nat) (s : State) : Out :=
  .next (s.runEop eop (· == .scatter) fun s e => s.gathWork e true)

/-- BKOP_COMPLETION (R222, R224). -/
def execBkopCompletion (eop : Nat) (s : State) : Out :=
  .next (s.runEop eop (fun k => match k with
    | .bkop _ _ => true
    | _ => false) fun s e => match e.kind with
      | .bkop op t => s.bkopWork e op t
      | _ => (s, .code 1))

/-- ROW_OP_COMPLETION (R223, R224). -/
def execRowOpCompletion (eop : Nat) (s : State) : Out :=
  .next (s.runEop eop (fun k => k == .rowcp || k == .rowz) State.rowWork)

/-- The scope of a cache-maintenance operation. -/
def maintScope : EngKind → Option Scope
  | .clean sc => some sc
  | .inval sc => some sc
  | .flush sc => some sc
  | _ => none

/-- CACHE_MAINT_COMPLETION (R313, R343, R363). -/
def execCacheMaintCompletion (eop : Nat) (s : State) : Out :=
  .next (s.runEop eop (fun k => (maintScope k).isSome) fun s e => s.maintWork e ((maintScope e.kind).getD .co))

/-! ## What puts and collectives share -/

/-- A put or a collective that may go on: of a kind, not held back, not waiting behind a fault. One whose work is done only
writes its status; one whose source was abandoned before it went out ends with code 2. -/
def State.sentEop (s : State) (id : Nat) (k : EngKind) (p : EngOp → Bool) (f : State → EngOp → State) : State :=
  match s.eopReady id with
  | none => s
  | some e =>
    if e.kind ≠ k then s
    else if e.stage = 1 then s.eopStatus e (e.code.getD 0)
    else if p e = false then s
    else if e.abandoned ∧ e.sent = false then s.eopEnd e 2
    else f s e

/-- The source bytes of an operation, read once under R117, with whether some came from a poisoned line; it is then sent. -/
def State.sendEop (s : State) (e : EngOp) (src len : Nat) (f : State → List Byte → Bool → State) : State :=
  let r := s.spanRead e.agent (.mem (cuts src len)) len
  match r.2 with
  | .error .wait => r.1.noteFault e.id
  | .error (.code c) => r.1.eopEnd e c
  | .error .gone => r.1
  | .ok (bs, bad) => f (r.1.modEop e.id fun x => { x with sent := true }) bs bad

/-- Whether 1 ms has passed since the post (R226, R233). -/
def EngOp.late (e : EngOp) (now : Nat) : Bool := decide (e.posted + Config.fabricTimeout ≤ now)

/-! ## PUT (R232, R233) -/

/-- The endpoint a put or a collective goes to. -/
def EngOp.endpoint (e : EngOp) : Nat := fld e.desc 8 4 % 1024

/-- A put's descriptor in good form (R233). -/
def putOk (d : List Byte) : Bool :=
  let len := fld d 0x18 4
  decide (1 ≤ len ∧ len ≤ 2 ^ 24 ∧ fld d 8 4 < 2 ^ 22 ∧ fld d 0x20 8 % 8 = 0) && zeroed d 0xC 4 && zeroed d 0x1C 4 && zeroed d 0x28 16 &&
    rangeOk (fld d 0 8) len

/-- The message of a put of this package. -/
def EngOp.putMsg (e : EngOp) (from_ : Nat) (bs : List Byte) : PutMsg :=
  { own := some e.id, endpoint := from_, tenant := e.tenant, window := fld e.desc 8 4 / 1024 % 4096, offset := fld e.desc 0x10 8,
    bytes := bs }

/-- Every page a put touches, translated writable under the window's tenant; none where one would fault (R233). -/
def State.putPages (s : State) (t : Nat) (cs : List (Nat × Nat)) : State × Option (List (Xlat × Nat)) :=
  cs.foldl (fun st c => match st.2 with
    | none => st
    | some xs =>
      let r := st.1.translate 256 t true accEngW c.1
      match r.2 with
      | .ok x => (r.1, some (xs ++ [(x, c.2)]))
      | .error _ => (r.1, none)) (s, some [])

/-- The checks of a target on a put, and where its bytes go (R233). -/
def State.putTarget (s : State) (m : PutMsg) : State × Option (List (Xlat × Nat)) :=
  let w := s.putWin m.window
  let va := w.base + m.offset
  if wbit w.ctl 63 = false ∨ wbits w.ctl 44 4 ≠ m.tenant ∨ (wbits w.ctl 32 10 ≠ m.endpoint ∧ wbit w.ctl 31 = false) ∨
      w.size < m.offset + m.bytes.length ∨ rangeOk va m.bytes.length = false then (s, none)
  else s.putPages (wbits w.ctl 48 4) (cuts va m.bytes.length)

/-- The bytes of a put written at the target, bad where they came from a poisoned source (R246); none when a write must wait for a
Switch. -/
def State.putStore (s : State) (xs : List (Xlat × Nat)) (bs : List Byte) (bad : Bool) : Option State :=
  (xs.foldl (fun (acc : Option State × List Byte) x =>
    (acc.1.bind fun s => (s.devStore x.1 (acc.2.take x.2)).map fun s => s.spread bad (s.homeAddr x.1.pa) x.2, acc.2.drop x.2))
    (some s, bs)).1

/-- PUT_LANDING at the target (R233): refused as a whole, or landed, counted and acknowledged; none while a write of it must wait for a
Switch, after which it is tried again. -/
def State.landPut (s : State) (m : PutMsg) (bad : Bool) : Option State :=
  let w := s.putWin m.window
  let r := s.putTarget m
  match r.2 with
  | none => some (r.1.answerEop m.own 3)
  | some xs => (r.1.putStore xs m.bytes bad).map fun s1 =>
    if w.land = 0 then s1.answerEop m.own 0
    else s1.bump.landAdd s1.fresh { tenant := wbits w.ctl 48 4, counter := w.land, n := m.bytes.length, own := m.own }

/-- A put of this package that has not been answered: its source read, and what then comes. -/
def State.putSend (s : State) (id : Nat) (f : State → EngOp → List Byte → Bool → State) : State :=
  s.sentEop id .put (fun e => e.code.isNone) fun s e =>
    if putOk e.desc = false then s.eopEnd e 1
    else if e.sent then s
    else s.sendEop e (fld e.desc 0 8) (fld e.desc 0x18 4) fun s bs bad => f s e bs bad

/-- Whether a put reaches a page of tier 0 while the compute dies are not active: it wakes them, and waits for the exit (R253). -/
def State.putSleeps (s : State) (m : PutMsg) : Bool :=
  match (s.putTarget m).2 with
  | some xs => xs.any fun x => s.sleeping x.1.pa
  | none => false

/-- A put of this package to itself lands; one whose write waits, for a Switch or for the compute dies, is sent anew then. -/
def State.putHere (s : State) (id : Nat) : State :=
  s.putSend id fun t e bs bad =>
    if e.endpoint ≠ s.endpoint then t
    else if t.putSleeps (e.putMsg s.endpoint bs) then s.wake
    else (t.landPut (e.putMsg s.endpoint bs) bad).getD (s.stallFor none (.engine id))

/-- PUT_LANDING (R233): a put from the fabric, or one of this package to itself. One from the fabric that must wait for the compute dies
comes again after their exit (R253, log 60). -/
def execPutLanding (msg : PutMsg) (s : State) : Out :=
  .next (match msg.own with
    | none => if s.putSleeps msg then s.wake else (s.landPut msg false).getD (s.stallFor none (.put msg))
    | some id => s.putHere id)

/-- The acknowledged counter gains the length, then the status is written (R233). -/
def State.putAck (s : State) (e : EngOp) : State :=
  let va := fld e.desc 0x20 8
  if va = 0 then s.eopEnd e 0
  else if e.abandoned then (s.devDrop e.tenant va 233).eopEnd e 0
  else
    let r := s.devAddFor 233 e.tenant va (fld e.desc 0x18 4) (.eop e.id va true)
    if r.2 then r.1.eopEnd e 0 else r.1.noteFault e.id

/-- An answer that comes to a put: from this package's own window once that has answered so; from another endpoint, whose
answers are outside the package, once the source has gone out. -/
def State.putAnswer (s : State) (id c : Nat) (f : State → EngOp → State) : State :=
  s.sentEop id .put (fun e => e.code.isNone || e.code == some c) fun s e =>
    if putOk e.desc = false then s.eopEnd e 1
    else if e.endpoint = s.endpoint then (if e.code = some c then f s e else s)
    else if e.sent then f s e
    else s.sendEop e (fld e.desc 0 8) (fld e.desc 0x18 4) fun s _ _ => f s e

/-- PUT_ACKNOWLEDGED (R233). -/
def execPutAcknowledged (eop : Nat) (s : State) : Out := .next (s.putAnswer eop 0 State.putAck)

/-- PUT_REFUSED (R233). -/
def execPutRefused (eop : Nat) (s : State) : Out := .next (s.putAnswer eop 3 fun s e => s.eopEnd e 3)

/-- PUT_RESPONSE_TIMEOUT (R233). -/
def execPutResponseTimeout (eop : Nat) (s : State) : Out :=
  .next (s.sentEop eop .put (fun e => e.code.isNone && e.late s.now) fun s e =>
    s.eopEnd e (if putOk e.desc then 4 else 1))

/-- WINDOW_DISABLE (R232). -/
def execWindowDisable (window : Nat) (s : State) : Out :=
  .next (if window < 4096 then s.writeWin window 0x10 ((s.putWin window).ctl &&& 0x7FFFFFFFFFFFFFFF#64) else s)

/-! ## Landing slots (R225 to R229) -/

/-- A COLL descriptor in good form (R226). -/
def collOk (d : List Byte) : Bool :=
  decide (fld d 8 4 < 2 ^ 20 ∧ fld d 0x14 4 < 1024) && zeroed d 0xC 4 && zeroed d 0x19 7 && zeroed d 0x24 20 &&
    (fld d 0x20 4 == 0 || rangeOk (fld d 0 8) (fld d 0x20 4))

/-- The contribution of a COLL of this package. -/
def EngOp.collMsg (e : EngOp) (bs : List Byte) : CollMsg :=
  { own := some e.id, tenant := e.tenant, slot := fld e.desc 8 4 / 1024 % 16 * 64 + fld e.desc 8 4 / 2 ^ 14 % 64, epoch := fld e.desc 0x10 4,
    rank := fld e.desc 0x14 4, format := fld e.desc 0x18 1, bytes := bs }

/-- A COLL that has not gone out: its source read, and what then comes; a poisoned source would be read into a landing buffer, and is
consumed (R246). -/
def State.collSend (s : State) (id : Nat) (f : State → EngOp → List Byte → State) : State :=
  s.sentEop id .coll (fun e => e.code.isNone && !e.sent) fun s e =>
    if collOk e.desc = false then s.eopEnd e 1
    else s.sendEop e (fld e.desc 0 8) (fld e.desc 0x20 4) fun s bs bad =>
      if bad = false then f s e bs else if e.service then (s.engConsume e).eopEnd e 0 else s.engConsume e

/-- An answered COLL completes with its code (R226). -/
def State.collDone (s : State) (id : Nat) : State :=
  s.sentEop id .coll (fun e => e.code.isSome) fun s e => s.eopEnd e (e.code.getD 0)

/-- A COLL of this package that its slot has refused completes at once. -/
def State.collRefused (s : State) (id : Nat) : State :=
  match s.eopReady id with
  | some e => if e.code = some 3 ∧ e.stage = 0 then s.collDone id else s
  | none => s

/-- COLL_ARRIVAL (R226): a contribution from the fabric, or one of this package to itself. While the compute dies are not active it wakes
them, and comes again after their exit (R253, log 60). -/
def execCollArrival (msg : CollMsg) (s : State) : Out :=
  .next (if s.power.pstate ≠ 0 then s.wake else match msg.own with
    | none => s.offerColl msg.slot msg
    | some id =>
      (s.collSend id fun t e bs =>
        if e.endpoint = s.endpoint then t.offerColl (e.collMsg bs).slot (e.collMsg bs) else t).collRefused id)

/-- The answer of another endpoint's slot, which is outside the package. -/
def State.collOutside (s : State) (e : EngOp) : State :=
  match Config.fabricAnswer s.drawn with
  | 0 => s.draw.eopEnd e 0
  | 1 => s.draw.eopEnd e 3
  | _ => s.draw

/-- COLL_ACCEPTED (R226): the sender learns the answer. -/
def execCollAccepted (eop : Nat) (s : State) : Out :=
  .next (match s.eopReady eop with
    | none => s
    | some e =>
      if e.endpoint = s.endpoint ∨ e.kind ≠ .coll ∨ e.stage = 1 then s.collDone eop
      else if e.sent then s.collOutside e
      else s.collSend eop fun s e _ => s.collOutside e)

/-- Whether a delivery waits for staging space. -/
def State.collWaits (s : State) (id : Nat) : Bool := s.slots.any fun p => p.2.waiting.any fun m => m.own == some id

/-- COLL_RESPONSE_TIMEOUT (R226, R229): a delivery that waits for staging space has no time bound. -/
def execCollResponseTimeout (eop : Nat) (s : State) : Out :=
  .next (s.sentEop eop .coll (fun e => e.code.isNone && e.late s.now && !s.collWaits eop) fun s e =>
    s.eopEnd e (if collOk e.desc then 4 else 1))

/-- The element patterns of a plain contribution. -/
def plainElems (ctl : Word) (bs : List Byte) : List Nat := unpackLe (tyWidth (ctlTy ctl) / 8) (slotElems ctl) bs

/-- The values of a contribution to a floating slot (R227). -/
def floatVals (ctl : Word) (m : CollMsg) : List FpVal :=
  if m.format = 15 then (blocksVals (m.bytes.length / 64) m.bytes).take (slotElems ctl)
  else (plainElems ctl m.bytes).map (fmtOf (ctlTy ctl)).value

/-- One element of a floating slot after a contribution (R227). -/
def floatApply (op acc : Nat) (v : FpVal) : Nat :=
  let f := fmtF32
  match op with
  | 0 => (fAdd f .rne false (f.value acc) v).1
  | _ => (fMinMax f (op == 2) false (f.value acc) (f.value (nearest f v))).1

/-- One element of an integer slot after a contribution (R227). -/
def intApply (op : Nat) (t : Ty) (acc v : Nat) : Nat :=
  atomElem (if op = 0 then .add else if op = 1 then .min else .max) t acc v

/-- The accumulators of a slot after the contribution of rank NEXT (R227). -/
def Slot.applied (k : Slot) (m : CollMsg) : List Nat :=
  let t := ctlTy k.ctl
  if t.fpTy then
    let vs := floatVals k.ctl m
    if k.next = 0 then vs.map (nearest fmtF32) else (k.acc.zip vs).map fun p => floatApply (ctlOp k.ctl) p.1 p.2
  else
    let vs := plainElems k.ctl m.bytes
    if k.next = 0 then vs else (k.acc.zip vs).map fun p => intApply (ctlOp k.ctl) t p.1 p.2

/-- The result bytes of an epoch (R227). -/
def Slot.resultBytes (k : Slot) : List Byte :=
  let t := ctlTy k.ctl
  k.acc.flatMap fun a => leBytes (tyWidth t / 8) (if t = .bf16 then nearest fmtBf16 (fmtF32.value a) else a)

/-- The results written to the landing area, and the L2s' copies of its lines dropped, dirty bytes too (R228); none when a write must
wait. -/
def State.writeResult (s : State) (n : Nat) : Option State :=
  let k := s.slot n
  let pa := n / 64 * 2 ^ 36 + k.offs
  let ws := placed pa k.resultBytes
  (tryAll (fun s g => s.homeWrite g) s (bySector ws)).map fun s => s.l2Forget fun a =>
    (linesOf pa ws.length).contains (a / 256)

/-- The last steps of an epoch (R228): the counter, then EPOCH and NEXT. -/
def State.epochCount (s : State) (n : Nat) : State :=
  let k := s.slot n
  let done (s : State) : State :=
    (s.modSlot n fun k => { k with epoch := (k.epoch + 1) % 2 ^ 32, next := 0, acc := [], devWait := false, dropAdd := false }).offerWaiting (n / 64)
  if k.dropAdd ∨ k.cnt = 0 then done s
  else
    let r := s.devAdd (ctlTenant k.ctl) k.cnt 1 (.slot n k.cnt)
    if r.2 then done r.1 else if r.1.behindFault (.slot n k.cnt) then r.1.modSlot n fun k => { k with devWait := true }
    else r.1.stallFor none (.slot n)

/-- COLL_APPLY (R227, R228): the contribution of rank NEXT, and after the last rank the end of the epoch; only while the compute dies are
active (R253). -/
def State.collApply (s : State) (n : Nat) : State :=
  let k := s.slot n
  if wbit k.ctl 63 = false ∨ k.devWait then s
  else if s.power.pstate ≠ 0 then s.wake
  else if ctlRanks k.ctl < k.next then s.epochCount n
  else match k.held.find? k.isNext with
    | none => s
    | some m =>
      let s1 := s.modSlot n fun k => { k with acc := k.applied m, next := k.next + 1, held := k.held.filter fun h => !k.isNext h }
      if k.next < ctlRanks k.ctl then s1.offerWaiting (n / 64)
      else match s1.writeResult n with
        | none => s.stallFor none (.slot n)
        | some s2 => s2.epochCount n

/-- COLL_APPLY. -/
def execCollApply (slot : Nat) (s : State) : Out := .next (s.collApply slot)

/-- SLOT_ENABLE (R225): a write of LBCTL that sets EN. -/
def execSlotEnable (slot : Nat) (value : Word) (s : State) : Out :=
  .next (if slot < 1024 then s.writeLbctl slot (value ||| 0x8000000000000000#64) else s)

/-- SLOT_DISABLE (R225): waiting deliveries are refused and their COLL completes with code 3. -/
def execSlotDisable (slot : Nat) (s : State) : Out :=
  let k := s.slot slot
  .next ((k.waiting.filterMap CollMsg.own).foldl State.collRefused
    (if wbit k.ctl 63 then s.slotOff slot (k.ctl &&& 0x7FFFFFFFFFFFFFFF#64) else s))

end Sys2Proof.Machine
end

