-- ==== Sys2Proof/Machine/EvWindow.lean ====
section
/-! DEFINITION. Accesses from outside to the scheduler's, the posting and Stuffsack's windows: POSTING_WINDOW_STORE,
POSTING_FULL_COUNT_READ (R68), TENANT_SUSPEND, TENANT_RESUME, TENANT_RESET (R85, R86), COREOWN_WRITE, L2WAY_WRITE (R81),
PLACE_TABLE_WRITE (R82), DSCARVE_WRITE (R92), POOL_ENABLE, POOL_DISABLE, PERR_READ (R138). One that names no tenant, queue, pool
or core changes nothing. -/

namespace Sys2Proof.Machine

/-- A step of one of the 16 tenants. -/
def State.ofTenant (s : State) (t : Nat) (f : State → State) : State := if t < 16 then f s else s

/-- POSTING_WINDOW_STORE (R68). -/
def execPostingWindowStore (tenant off size : Nat) (value : Word) (s : State) : Out :=
  .next (s.ofTenant tenant fun s => s.postWindow tenant off size value)

/-- POSTING_FULL_COUNT_READ (R68). -/
def execPostingFullCountRead (tenant queue : Nat) (s : State) : Out :=
  .next (s.ofTenant tenant fun s =>
    if queue < 16 then
      let r := s.readFull tenant queue
      { r.1 with readout := BitVec.ofNat 64 r.2 }
    else s)

/-- TENANT_SUSPEND (R81, R85). -/
def execTenantSuspend (tenant : Nat) (s : State) : Out := .next (s.ofTenant tenant fun s => s.suspendTenant tenant)

/-- TENANT_RESUME (R81, R85). -/
def execTenantResume (tenant : Nat) (s : State) : Out := .next (s.ofTenant tenant fun s => s.resumeTenant tenant)

/-- TENANT_RESET (R86). -/
def execTenantReset (tenant : Nat) (s : State) : Out := .next (s.ofTenant tenant fun s => s.resetTenant tenant)

/-- COREOWN_WRITE (R81). -/
def execCoreownWrite (core : Nat) (value : Word) (s : State) : Out :=
  .next (if core < 1024 then s.writeCoreown core value else s)

/-- L2WAY_WRITE (R81). -/
def execL2wayWrite (tenant : Nat) (value : Word) (s : State) : Out :=
  .next (s.ofTenant tenant fun s => s.writeL2way tenant value)

/-- PLACE_TABLE_WRITE (R82). -/
def execPlaceTableWrite (tenant off : Nat) (value : BitVec 32) (s : State) : Out :=
  .next (s.ofTenant tenant fun s => s.writePlace tenant off value)

/-- DSCARVE_WRITE (R92, R93). -/
def execDscarveWrite (tenant : Nat) (value : Word) (s : State) : Out :=
  .next (s.ofTenant tenant fun s => s.writeCarve tenant value)

/-- A step of one of the 16 pools of a tenant. -/
def State.ofPool (s : State) (t p : Nat) (f : State → State) : State :=
  s.ofTenant t fun s => if p < 16 then f s else s

/-- POOL_ENABLE (R138): no change where EN is 1 already. -/
def execPoolEnable (tenant pool : Nat) (s : State) : Out :=
  .next (s.ofPool tenant pool fun s => if (s.pool tenant pool).en then s else s.enablePool tenant pool)

/-- POOL_DISABLE (R137, R138). -/
def execPoolDisable (tenant pool : Nat) (s : State) : Out :=
  .next (s.ofPool tenant pool fun s => if (s.pool tenant pool).en then s.disablePool tenant pool else s)

/-- PERR_READ (R138). -/
def execPerrRead (tenant pool : Nat) (s : State) : Out :=
  .next (s.ofPool tenant pool fun s =>
    let r := s.readPerr tenant pool
    { r.1 with readout := BitVec.ofNat 64 r.2 })

end Sys2Proof.Machine
end

