-- ==== Sys2Proof/Machine/EvGrace.lean ====
section
/-! DEFINITION. Steps of the Guyline and of Stuffsack: GUYLINE_REPORT, GPSEQ_ACKNOWLEDGE, GRACE_PERIOD_DONE (R130),
BACKGROUND_GRACE_START, DEFERRED_RETURN (R137), POOL_ENABLING_FINISHED (R138). A step whose condition does not hold changes
nothing. -/

namespace Sys2Proof.Machine

/-- GUYLINE_REPORT (R130): a core node reports for every tenant; the nodes above it merge what their children report. -/
def execGuylineReport (node : Nat) (s : State) : Out :=
  .next (if node < 1088 then (List.range 16).foldl (fun s t => s.reportTenant node t) s else s)

/-- GPSEQ_ACKNOWLEDGE (R130): the core drops the clean bytes of its L1, takes the new value for RSB, and reports. -/
def State.acknowledge (s : State) (node t : Nat) : State :=
  if node < 1088 ∧ t < 16 ∧ (s.tenant t).acked node < (s.tenant t).gpseq then
    let s := if node < 1024 then s.l1DropClean node else s
    (s.modTenant t fun k => { k with ack := tset k.ack node k.gpseq }).reportTenant node t
  else s

/-- GPSEQ_ACKNOWLEDGE. -/
def execGpseqAcknowledge (node tenant : Nat) (s : State) : Out := .next (s.acknowledge node tenant)

/-- A deferred entry waits for a period that has not been started, and none is in progress (R137). -/
def Tenant.wantsGrace (k : Tenant) : Bool := k.gpseq == k.gpDone + 1 && k.deferQ.any fun e => decide (k.gpDone < e.target)

/-- A background grace period started where one is called for (R137). -/
def State.background (s : State) (t : Nat) : State :=
  if (s.tenant t).wantsGrace then (s.advance t).1 else s

/-- BACKGROUND_GRACE_START (R137). -/
def execBackgroundGraceStart (tenant : Nat) (s : State) : Out :=
  .next (s.ofTenant tenant fun s => s.background tenant)

/-- GRACE_PERIOD_DONE (R130): the least grace number in progress is done, in order; the next background period starts where one
is called for. -/
def State.graceStep (s : State) (t : Nat) : State :=
  let k := s.tenant t
  if k.gpDone + 1 < k.gpseq ∧ s.graceDone t (k.gpDone + 1) then
    (s.modTenant t fun k => { k with gpDone := k.gpDone + 1 }).background t
  else s

/-- GRACE_PERIOD_DONE. -/
def execGracePeriodDone (tenant : Nat) (s : State) : Out := .next (s.ofTenant tenant fun s => s.graceStep tenant)

/-- DEFERRED_RETURN (R137): the oldest entry whose grace number is done is returned; while its pool waits behind a fault, it
stays. -/
def State.returnDeferred (s : State) (t : Nat) : State :=
  match (s.tenant t).deferQ with
  | [] => s
  | e :: _ =>
    if e.target ≤ (s.tenant t).gpDone then
      let r := s.poolFree .root t e.pool e.ptr e.k
      match r.2 with
      | .wait => r.1
      | _ => r.1.modTenant t fun k => { k with deferQ := k.deferQ.tail }
    else s

/-- DEFERRED_RETURN. -/
def execDeferredReturn (tenant : Nat) (s : State) : Out := .next (s.ofTenant tenant fun s => s.returnDeferred tenant)

/-- POOL_ENABLING_FINISHED (R138). -/
def execPoolEnablingFinished (tenant pool : Nat) (s : State) : Out :=
  .next (s.ofPool tenant pool fun s => s.finishEnable tenant pool)

end Sys2Proof.Machine
end

