-- ==== Sys2Proof/Machine/EvMatrix.lean ====
section
/-! DEFINITION. Steps of the cluster matrix engine: ownership (R167), the order of requests and passes (R171, R172, R181), the
landing of passes and of weights (R174, R176), the tile port with completion (R170, R178 to R180). A step whose condition does
not hold changes nothing. -/

namespace Sys2Proof.Machine

/-- A request of a cluster's table. -/
def State.mxReq (s : State) (c id : Nat) : Option MxReq := (s.engine c).table.find? fun r => r.id = id

/-- MX_OWNERSHIP_GRANT (R167): the gang that has waited longest becomes the owner of a free engine. -/
def execMxOwnershipGrant (cluster : Nat) (s : State) : Out :=
  let e := s.engine cluster
  .next (match e.owner, e.waiting with
    | none, g :: _ => if e.retired then s else s.mxOwn cluster g []
    | _, _ => s)

/-- Whether every earlier request that shares something with a request has completed (R171). -/
def Engine.mayBegin (e : Engine) (r : MxReq) : Bool := (e.table.takeWhile fun x => x.id ≠ r.id).all fun x => !mxShares x r

/-- Units no longer valid. -/
def Engine.dropUnits (e : Engine) (lo hi : Nat) : Engine := { e with units := e.units.filter fun p => !(lo ≤ p.1 && p.1 < hi) }

/-- What a request does to its engine as it begins: an MXP with ZERO sets its tiles to +0, a WBLD makes its units invalid
(R174, R176). -/
def Engine.beginReq (e : Engine) (r : MxReq) : Engine :=
  match r.kind with
  | .mxp => if r.f 0x10 1 = 1 then r.handles.foldl Engine.zeroTile e else e
  | .wbld => e.dropUnits r.unitRange.1 r.unitRange.2
  | _ => e

/-- MX_REQUEST_BEGIN (R170, R171): the checks of codes 1 to 3, then the request begins or is done with its code; not in the cycle in which
it entered the table, so that the posts of that cycle stand in their order. -/
def State.mxBegin (s : State) (c id : Nat) : State :=
  let e := s.engine c
  match s.mxReq c id with
  | none => s
  | some r =>
    if r.begun ∨ s.now ≤ r.entered ∨ e.mayBegin r = false then s
    else
      let code := s.mxCheck e r
      let s := if code = 0 then s.modEngine c fun e => e.beginReq r else s
      s.modReq c id fun r => { r with begun := true, code := code, done := code != 0 }

/-- MX_REQUEST_BEGIN. -/
def execMxRequestBegin (cluster req : Nat) (s : State) : Out := .next (s.mxBegin cluster req)

/-- Whether an MXP has a chunk that the array has not been granted for. -/
def MxReq.ready (r : MxReq) : Bool := r.kind == .mxp && r.begun && !r.done && decide (r.chunk < r.f 0x0C 2)

/-- Whether a request that entered later comes before another in the grants of the array (R172): by the wait of 4,096 cycles, then by
the priority. -/
def passBefore (now : Nat) (a b : MxReq) : Bool :=
  let old (r : MxReq) : Bool := decide (r.lastPass + 4096 ≤ now)
  if old a != old b then old a else decide (b.priority < a.priority)

/-- The request that the array is granted to next. -/
def Engine.nextPass (e : Engine) (now : Nat) : Option MxReq :=
  (e.table.filter MxReq.ready).foldl (fun m r => match m with
    | none => some r
    | some x => if passBefore now r x then some r else some x) none

/-- MX_PASS_GRANT (R172): the array takes one K chunk of one MXP; the pass before it has ended and its results land next. The current
governor may withhold the grant (R10). -/
def execMxPassGrant (cluster : Nat) (s : State) : Out :=
  let e := s.engine cluster
  .next (match e.nextPass s.now with
    | none => s
    | some r =>
      let g := s.governor r.tenant
      if g.2 then g.1
      else (g.1.modEngine cluster fun e =>
        { e with landing := e.landing ++ e.pass.toList, pass := some (r.id, r.chunk) }).modReq cluster r.id fun r =>
          { r with chunk := r.chunk + 1, lastPass := s.now })

/-- The pass that lands next, and the engine without it. -/
def Engine.takePass (e : Engine) : Option ((Nat × Nat) × Engine) :=
  match e.landing with
  | p :: ps => some (p, { e with landing := ps })
  | [] => match e.pass with
    | some p => some (p, { e with pass := none })
    | none => none

/-- Whether rows of a cluster-shared range of a request hold an uncorrectable error, which a read of them consumes (R246). -/
def State.rowsBad (s : State) (r : MxReq) (off len step : Nat) (rows : List Nat) : Bool :=
  match s.mxRange r off with
  | some (id, o) => rows.any fun i => s.scrBad id (o + i * step) len
  | none => false

/-- Whether the scratch operands of a request hold an uncorrectable error: the rows of a chunk of A, of an ACLD, of a residual. -/
def State.mxBad (s : State) (r : MxReq) (c : Nat) : Bool :=
  match r.kind with
  | .mxp =>
    let n := if r.f 0x0E 1 = 15 then 256 else 64 * rawBytes (r.f 0x0E 1)
    s.rowsBad r 0 n n ((List.range 64).map (64 * c + ·))
  | .acld => s.rowsBad r 0 r.rowBytes (r.f 8 4) (List.range 64)
  | .acdrn => (r.f 0x10 1).testBit 0 && s.rowsBad r 0x18 r.rowBytes (r.f 8 4) (List.range 64)
  | _ => false

/-- MX_PASS_LANDING (R176, R181): the results of one chunk land in the tile; after its last chunk the MXP is done. An operand row of
scratch that holds an uncorrectable error is consumed instead (R246). -/
def execMxPassLanding (cluster : Nat) (s : State) : Out :=
  .next (match (s.engine cluster).takePass with
    | none => s
    | some (p, e) => match s.mxReq cluster p.1 with
      | none => s.modEngine cluster fun _ => e
      | some r =>
        if s.mxBad r p.2 then (s.modEngine cluster fun _ => e).killGang r.gang 0x10 else
        let x := s.mxChunk e r p.2
        (s.modEngine cluster fun _ => x.1).modReq cluster r.id fun r =>
          { r with landed := r.landed + 1, done := decide (r.f 0x0C 2 ≤ r.landed + 1), mb := r.mb || x.2 })

/-! ## WBLD (R174) -/

/-- Whether a weight chunk holds a malformed narrow block, or a 2-of-4 column with a malformed nibble or trailing byte
(R170, R175). -/
def chunkBad (fmt comp slot : Nat) (bs : List Byte) : Bool :=
  (List.range 64).any fun j =>
    let b := (bs.drop (j * slot)).take slot
    if fmt = 15 then (narrowB comp b).mb else (wideB fmt comp b).isNone

/-- A weight chunk stored in its units, which become valid. -/
def Engine.loadChunk (e : Engine) (fmt comp u n : Nat) (bs : List Byte) : Engine :=
  (List.range n).foldl (fun e i =>
    { e with weights := tset e.weights (u + i) ((bs.drop (512 * i)).take 512)
             units := tset e.units (u + i) { format := fmt, comp := comp } }) e

/-- A request waits behind a fault exactly while it is listed there. -/
def State.noteMxFault (s : State) (c id : Nat) : State :=
  let listed := s.fbufs.any fun b => b.2.waiters.any fun x => match x with
    | .matrix k i _ _ => k == c && i == id
    | _ => false
  s.modReq c id fun r => { r with faulted := listed }

/-- A request is done with a code. -/
def State.mxEnd (s : State) (c id code : Nat) : State := s.modReq c id fun r => { r with done := true, code := code }

/-- The agent of a matrix request. -/
def State.mxAgent (s : State) (c : Nat) (r : MxReq) : Agent :=
  { warp := r.warp, core := (s.warp r.warp).core, tenant := r.tenant, level := .user, seen := some r.gang, who := .matrix c r.id }

/-- WBLD_CHUNK_LANDING (R174): the next chunk is read, stored and valid. -/
def State.wbldChunk (s : State) (c id : Nat) : State :=
  match s.mxReq c id with
  | none => s
  | some r =>
    if r.kind ≠ .wbld ∨ r.begun = false ∨ r.done ∨ r.faulted then s
    else if r.abandoned then s.mxEnd c id 4
    else
      let fmt := r.f 0x0E 1
      let comp := r.f 0x0F 1
      let p := (slotBytes fmt comp).getD (1, 1)
      let len := 64 * p.1
      let g := s.mxAgent c r
      let x := s.engXlats g accEngR (cuts (r.f 0 8 + r.landed * len) len)
      match x.2 with
      | .error .wait => x.1.noteMxFault c id
      | .error _ => x.1.draw.mxEnd c id (Config.freeByte x.1.drawn).toNat
      | .ok xs => match x.1.engReads g xs with
        | none => x.1.stallFor none (.matrix c id)
        | some (s1, bs, bad) =>
          if bad then s1.killGang r.gang 0x10
          else
            (s1.modEngine c fun e => e.loadChunk fmt comp (r.f 8 4 + r.landed * p.2) p.2 bs).modReq c id fun r =>
              { r with landed := r.landed + 1, done := decide (r.f 0x0C 2 ≤ r.landed + 1),
                       mb := r.mb || chunkBad fmt comp p.1 bs }

/-- WBLD_CHUNK_LANDING. -/
def execWbldChunkLanding (cluster req : Nat) (s : State) : Out := .next (s.wbldChunk cluster req)

/-! ## The tile port (R178 to R180) -/

/-- A row's bytes of a cluster-shared range. -/
def State.portRow (s : State) (r : MxReq) (off len i : Nat) : List Byte :=
  match s.mxRange r off with
  | some (id, o) => s.scrBytes id (o + i * r.f 8 4) len
  | none => []

/-- ACLD: the tile or pair loaded bit for bit (R178). -/
def State.acld (s : State) (e : Engine) (r : MxReq) : Engine :=
  let h := r.f 0x0F 1
  let bs := (List.range 64).flatMap (s.portRow r 0 r.rowBytes)
  if r.f 0x0E 1 = 11 then
    let p := splitPair (unpackLe 8 4096 bs)
    (e.loadTile h p.1).loadTile (h + 1) p.2
  else e.loadTile h ((unpackLe 4 4096 bs).map (BitVec.ofNat 32))

/-- keep(r, j) of R180. -/
def MxReq.keep (r : MxReq) (row col : Nat) : Bool :=
  let key := r.f 0x28 8
  let at_ := r.f 0x24 4 + col
  let st := kindling
    { c0 := BitVec.ofNat 32 (r.f 0x14 4), c1 := BitVec.ofNat 32 (r.f 0x20 4 + row), c2 := BitVec.ofNat 32 (at_ / 8), c3 := 0,
      k0 := BitVec.ofNat 32 key, k1 := BitVec.ofNat 32 (key / 2 ^ 32) }
  let i := at_ % 8
  let w := match i / 2 with
    | 0 => st.c0
    | 1 => st.c1
    | 2 => st.c2
    | _ => st.c3
  decide (bitsOf w.toNat (16 * (i % 2)) 16 < r.f 0x12 2)

/-- One element of a drain (R179). -/
def MxReq.drainElem (r : MxReq) (row col acc res : Nat) : Nat :=
  let o := rawTy (r.f 0x11 1)
  let f := fmtOf o
  let y := (convElem o (rawTy (r.f 0x0E 1)) .rne false acc).1
  let y := if (r.f 0x10 1).testBit 0 then (fAdd f .rne false (f.value y) (f.value res)).1 else y
  if (r.f 0x10 1).testBit 1 && !r.keep row col then 0 else y

/-- ACDRN: every row written at the output, its granules full (R179). -/
def State.acdrn (s : State) (e : Engine) (r : MxReq) : State :=
  let h := r.f 0x0F 1
  let vals : List Nat := if r.f 0x0E 1 = 11 then e.pairVals h else (e.tile h).map BitVec.toNat
  let w := rawBytes (r.f 0x11 1)
  match s.mxRange r 0 with
  | none => s
  | some (id, o) =>
    (List.range 64).foldl (fun t i =>
      let res := unpackLe w 64 (if (r.f 0x10 1).testBit 0 then s.portRow r 0x18 r.rowBytes i else List.replicate r.rowBytes 0)
      let row := (((vals.drop (64 * i)).take 64).zip res)
      let bs := (mapFrom (fun j (p : Nat × Nat) => leBytes w (r.drainElem i j p.1 p.2)) 0 row).flatten
      t.scrDeliver id (o + i * r.f 8 4) bs) s

/-- The status granule written full, the request out of the table, OC_MX lowered (R170). -/
def State.mxStatus (s : State) (c : Nat) (r : MxReq) : State :=
  let status := r.code + (if r.mb then 256 else 0) + r.badt * 65536
  ((s.touchIdle.scrDeliver (.block r.block) (r.off + 0x30) (List.replicate 8 0 ++ leBytes 8 status)).modEngine c fun e =>
    { e with table := e.table.filter fun x => x.id ≠ r.id }).modWarp r.warp fun w => { w with oc := { w.oc with mx := w.oc.mx - 1 } }

/-- The tiles of a request that do not agree with their checksums. -/
def Engine.badTiles (e : Engine) (r : MxReq) : List Nat := r.handles.filter fun h => !e.tileGood h

/-- MX_REQUEST_COMPLETE (R170, R178, R179): a tile-port request acts now, all at once; a drain of a tile that does not agree
with its checksums is uncorrectable data consumed; a disagreement that is found is an error of the engine, logged (R248). -/
def State.mxComplete (s : State) (c id : Nat) : State :=
  let e := s.engine c
  match s.mxReq c id with
  | none => s
  | some r =>
    if r.begun = false then s
    else if r.done then s.mxStatus c r
    else match r.kind with
      | .mxp | .wbld => s
      | .acz => (s.modEngine c fun e => r.handles.foldl Engine.zeroTile e).mxStatus c r
      | .acld => if s.mxBad r 0 then s.killGang r.gang 0x10 else (s.modEngine c fun e => s.acld e r).mxStatus c r
      | .acchk =>
        let bad := e.badTiles r
        let s := if bad = [] then s else s.logError (.unit (.engine c)) (.engine c)
        s.mxStatus c { r with code := if bad = [] then 0 else 5, badt := bad.foldl (fun n h => n + 2 ^ h) 0 }
      | .acdrn =>
        if e.badTiles r ≠ [] then (s.logError (.unit (.engine c)) (.engine c)).killGang r.gang 0x10
        else if s.mxBad r 0 then s.killGang r.gang 0x10
        else (s.acdrn e r).mxStatus c r

/-- MX_REQUEST_COMPLETE. -/
def execMxRequestComplete (cluster req : Nat) (s : State) : Out := .next (s.mxComplete cluster req)

end Sys2Proof.Machine
end

