-- ==== Sys2Proof/Machine/EvMemory.lean ====
section
/-! DEFINITION. Steps of the memory system: the migration engine (R196 to R200), fault records and replay (R192, R193), the CXL
pool (R211 to R215), requests from the fabric (R230, R231). A step whose condition does not hold changes nothing. -/

namespace Sys2Proof.Machine

/-! ## The migration engine (R196 to R200) -/

/-- An address of one frame carried over to another. -/
def carry (src dst a : Nat) : Nat := if frameOf a = frameOf src then dst + a % 4096 else a

/-- A reservation carried over. -/
def Resv.carried (src dst : Nat) (r : Resv) : Resv := { r with granule := carry src dst (r.granule * 64) / 64 }

/-- The instruction caches drop a frame that passes on to another page (R201). -/
def State.dropCode (s : State) (f : Nat) : State :=
  { s with cores := s.cores.map fun c => (c.1, { c.2 with icache := c.2.icache.filter fun e => frameOf e.1 != f }) }

/-- MIGRATION_RELEASE (R194, R199): the invalidation completes, the entry is freed and the source frame is passed on. -/
def State.releaseMove (s : State) (k : Nat) : State :=
  match tget s.fwds k with
  | none => s
  | some f =>
    let names (e : TlbEntry) : Bool := e.tenant == f.tenant && e.through f.ipa (f.ipa + 4096)
    let old (a : Nat) : Bool := frameOf a == frameOf f.src
    if f.switched = false ∨ s.heldBack old then s
    else match s.tlbDrop names with
      | .error s1 => s1
      | .ok s1 => match s1.pushAll old with
        | .error s2 => s2
        | .ok s2 =>
          let s3 := ((s2.l1Cores.foldl (fun s c => s.l1Drop c old) s2).l2Forget old).dropCode (frameOf f.src)
          { s3 with fwds := tdel s3.fwds k, retRing := s3.retRing ++ [f.src], counters := tset s3.counters (frameOf f.src) 0 }.recheckCounters

/-- MIGRATION_RELEASE. -/
def execMigrationRelease (entry : Nat) (s : State) : Out := .next (s.releaseMove entry)

/-- ACCESS_COUNTER_DECAY (R196). -/
def execAccessCounterDecay (s : State) : Out :=
  let p := s.migdecay * 65536
  .next (if s.migdecay ≠ 0 ∧ s.decayFrom + p ≤ s.now then
    { s with counters := s.counters.map fun c => (c.1, c.2 / 2), decayFrom := s.decayFrom + p } else s)

/-- MIGDECAY_WRITE (R196). -/
def execMigdecayWrite (value : Word) (s : State) : Out := .next (s.writeDecay value)

/-- FRFILL_PUSH (R198). -/
def execFrfillPush (ring : Nat) (value : Word) (s : State) : Out := .next (if ring < 3 then s.pushFrame ring value else s)

/-- FRRET_POP (R198). -/
def execFrretPop (s : State) : Out :=
  let r := s.popFrret
  .next { r.1 with readout := BitVec.ofNat 64 r.2 }

/-! ## Fault records (R73, R192, R193) -/

/-- FAULT_RECORD_RESOLVE (R192). -/
def execFaultRecordResolve (buf idx : Nat) (s : State) : Out :=
  .next (if buf ≤ 256 ∧ idx < 8 then s.writeStatus buf idx 1 else s)

/-- FAULT_RECORD_ABANDON (R192, R193). -/
def execFaultRecordAbandon (buf idx : Nat) (s : State) : Out :=
  .next (if buf ≤ 256 ∧ idx < 8 then s.writeStatus buf idx 3 else s)

/-- FAULT_REPLAY (R193). -/
def execFaultReplay (buf : Nat) (s : State) : Out := .next (if buf ≤ 256 then s.replay buf else s)

/-- DEVDROP_READ (R73): the count is returned and cleared. -/
def execDevdropRead (s : State) : Out := .next { s with readout := BitVec.ofNat 64 s.devdrop, devdrop := 0 }

/-! ## The CXL pool (R211 to R215) -/

/-- Whether a run of pages can be named by POOLCMD (R212). -/
def runOk (page count : Nat) : Bool := decide (page < 2 ^ 34 ∧ count < 4096)

/-- POOL_ACQUIRE (R212). -/
def execPoolAcquire (page count : Nat) (s : State) : Out := .next (if runOk page count then s.poolAcquire page count else s)

/-- POOL_RELEASE (R212). -/
def execPoolRelease (page count : Nat) (s : State) : Out := .next (if runOk page count then s.poolRelease page count else s)

/-- POOL_PUBLISH (R213): this package's command, or the publication of a region by another package. -/
def execPoolPublish (page : PublishMsg) (count : Nat) (s : State) : Out :=
  .next (match page with
    | .here p => if runOk p count then s.poolPublish p count else s
    | .elsewhere p ws => if runOk p count then s.poolPublished p count ws else s)

/-- POOL_COMMAND_DONE (R212): POOLSTAT leaves "in progress"; commands whose write-backs have waited act first. -/
def execPoolCommandDone (s : State) : Out :=
  let s1 := s.poolRetry
  let c := s1.poolCmd
  .next (if c.waits = [] ∧ c.status = 3 then { s1 with poolCmd := { c with status := c.result, first := c.resultFirst } } else s1)

/-- POOL_REVOCATION (R212): the package drops its lines of a read-shared page, which is then none. -/
def execPoolRevocation (page : Nat) (s : State) : Out :=
  .next (if tget s.poolPages page = some .shared then
    match s.poolDrop page 1 with
    | .ok s => { s with poolPages := tdel s.poolPages page }
    | .error s => s
  else s)

/-- POOL_HEARTBEAT (R215). -/
def execPoolHeartbeat (s : State) : Out := .next { s with lastBeat := s.now }

/-- Whether an address is of a byte whose home lies in the pool. -/
def State.inPool (s : State) (a : Nat) : Bool := tierOf (s.homeAddr a) == some 2

/-- A warp without its queued and held writes to some addresses. -/
def Warp.loseAt (p : Nat → Bool) (w : Warp) : Warp :=
  let stays (d : Dest) : Bool := match d with
    | .mem x => !p x.pa
    | _ => true
  { w with
    storeQ := w.storeQ.filter fun e => match e with
      | .store d _ | .sent d _ | .red d _ _ _ => stays d
    seg := { w.seg with held := w.seg.held.filter fun h => match h.2 with
      | .store d _ | .red d _ _ _ => stays d
      | _ => true } }

/-- POOL_HEARTBEAT_LAPSE (R215): after 50 ms without a heartbeat the holdings are none, and what had not reached the pool is
lost: queued and held writes, dirty bytes of the caches, writes in a migration's window or stalled there with the engine. -/
def execPoolHeartbeatLapse (s : State) : Out :=
  let with_ (x : Stall) : Bool := match x with
    | .bytes _ => true
    | _ => false
  let lose (f : Fwd) : Fwd := if s.inPool f.src && !f.switched then { f with window := [], stalled := f.stalled.filter fun x => !with_ x } else f
  .next (if s.lastBeat + Config.heartbeatLapse ≤ s.now then
    let s := (s.l1Cores.foldl (fun s c => s.l1Drop c s.inPool) s).l2Forget s.inPool
    { s with poolPages := []
             warps := s.warps.map fun p => (p.1, p.2.loseAt s.inPool)
             fwds := s.fwds.map fun p => (p.1, lose p.2) }
  else s)

/-- POOL_MODULE_LOSS (R214): no access returns another value. -/
def execPoolModuleLoss (extent module : Nat) (s : State) : Out :=
  .next (if s.lostModules.contains (extent, module) then s else { s with lostModules := s.lostModules ++ [(extent, module)] })

/-- POOL_MODULE_REBUILD (R214). -/
def execPoolModuleRebuild (extent module : Nat) (s : State) : Out :=
  .next { s with lostModules := s.lostModules.filter (· != (extent, module)) }

/-! ## Requests from the fabric (R230, R231) -/

/-- The address of a request. -/
def fabricPa : FabricReq → Nat
  | .load pa _ => pa
  | .store pa _ => pa
  | .atomic pa _ _ _ => pa
  | .cas pa _ _ _ => pa
  | .lr _ pa _ => pa
  | .sc _ pa _ => pa

/-- The bytes at an address as an endpoint reads them: memory coherently, a window's registers at user level. -/
def State.fabricRead (s : State) (pa n : Nat) : State × List Byte :=
  s.devLoad (physXlat (s.nameOf pa)) n

/-- Bytes written for an endpoint; none when they must wait. -/
def State.fabricWrite (s : State) (pa : Nat) (bs : List Byte) : Option State := s.devStore (physXlat (s.nameOf pa)) bs

/-- Whether the package may serve a request: it owns a page of the pool that it reads or writes for an endpoint (R211). -/
def State.fabricOwned (s : State) (req : FabricReq) : Bool :=
  let pa := s.homeAddr (fabricPa req)
  match req with
  | .load _ _ | .lr _ _ _ => s.ownsRead pa
  | _ => s.ownsExcl pa

/-- A request served (R230, R231), its answer in Lantern's report line: 0 and the bytes it returns. None while a write must
wait. -/
def State.serveFabric (s : State) (req : FabricReq) : Option State :=
  let answer (s : State) (bs : List Byte) : State := { s with report := 0 :: bs.map BitVec.toNat }
  match req with
  | .load pa n =>
    let r := s.fabricRead pa n
    some (answer r.1 r.2)
  | .store pa bs => (s.fabricWrite pa bs).map fun s => answer s []
  | .atomic pa op t v =>
    let r := s.fabricRead pa (tyWidth t / 8)
    (r.1.fabricWrite pa (rmwBytes op t r.2 v.toNat)).map fun s => answer s r.2
  | .cas pa t v cmp =>
    let r := s.fabricRead pa (tyWidth t / 8)
    if leNat r.2 = cmp.toNat % 2 ^ tyWidth t then (r.1.fabricWrite pa (leBytes (tyWidth t / 8) v.toNat)).map fun s => answer s r.2
    else some (answer r.1 r.2)
  | .lr e pa n =>
    let r := s.fabricRead pa n
    some (answer { r.1 with fabResv := tset r.1.fabResv e { granule := r.1.homeAddr pa / 64, time := r.1.now } } r.2)
  | .sc e pa bs =>
    let holds : Bool := match tget s.fabResv e with
      | some r => r.granule == s.homeAddr pa / 64 && decide (s.now ≤ r.time + Config.reservationLife)
      | none => false
    let s := { s with fabResv := tdel s.fabResv e }
    if holds then (s.fabricWrite pa bs).map fun s => answer s [1] else some (answer s [0])

/-- FABRIC_REQUEST_IN (R230, R231): what the package exports is its memory, of the pool what it owns (R211), and its device windows at
user level; an access elsewhere is refused. -/
def execFabricRequestIn (req : FabricReq) (s : State) : Out :=
  let pa := fabricPa req
  .next (match regionOf pa with
    | .none | .fabric => { s with report := [1] }
    | _ => if s.fabricOwned req = false then { s with report := [1] } else if s.sleeping pa then s.wake else (s.serveFabric req).getD (s.stallFor (some (frameOf pa)) (.fabric req)))

end Sys2Proof.Machine
end

