-- ==== Sys2Proof/Machine/EvService.lean ====
section
/-! DEFINITION. Steps of the service threads and of the windows' registers: interrupts (R236), start and stop (R235), register
writes (R420), the read of POOLSTAT (R212). A step whose condition does not hold changes nothing. -/

namespace Sys2Proof.Machine

/-- The interrupt that a service thread takes now (R236): the lowest pending and enabled one with a target above its level. -/
def Svc.nextInt (v : Svc) : Option Nat :=
  (List.range 16).find? fun n => v.intpend.getLsbD n && v.inten.getLsbD n && decide (v.level.num < (v.entryLevel n).num)

/-- XADDR of an interrupt (R236). -/
def Svc.intAddr (v : Svc) (n : Nat) : Nat :=
  match n with
  | 0 => v.xlatFrom
  | 3 => v.ipiFrom
  | _ => 0

/-- INTERRUPT_TAKE (R236, R260): between two instructions of a running thread. -/
def State.takeInt (s : State) (n : Nat) : State :=
  let v := (s.warp n).svc
  if v.running = false then s
  else match v.nextInt with
    | none => s
    | some i => s.enterLevel n (v.entryLevel i) 4 0 i (BitVec.ofNat 64 (v.intAddr i)) (s.thread n 0).pc

/-- INTERRUPT_TAKE. -/
def execInterruptTake (svc : Nat) (s : State) : Out := .next (if svc < 256 then s.takeInt svc else s)

/-- TIMER_INTERRUPT_PENDING (R236). -/
def execTimerInterruptPending (svc : Nat) (s : State) : Out := .next (if svc < 256 then s.refreshTimer svc else s)

/-- IPISEND_WRITE (R236), by a thread above user level. -/
def execIpisendWrite (svc : Nat) (value : Word) (s : State) : Out :=
  .next (if svc < 256 ∧ (s.warp svc).svc.level ≠ .user then s.ipisend svc value else s)

/-- INTPEND_CLEAR (R236), by a thread above user level. -/
def execIntpendClear (svc : Nat) (value : Word) (s : State) : Out :=
  .next (if svc < 256 ∧ (s.warp svc).svc.level ≠ .user then s.clearPend svc value else s)

/-- SERVICE_THREAD_START (R235). -/
def execServiceThreadStart (svc : Nat) (s : State) : Out := .next (if svc < 256 then s.startService svc else s)

/-- SERVICE_THREAD_STOP (R235). -/
def execServiceThreadStop (svc : Nat) (s : State) : Out := .next (if svc < 256 then s.haltService svc else s)

/-- PLATFORM_INTERRUPT_SIGNAL (R236): sources 4 to 15. -/
def execPlatformInterruptSignal (n : Nat) (s : State) : Out := .next (if 4 ≤ n ∧ n ≤ 15 then s.signal n else s)

/-- REGISTER_WRITE (R253, R420): a store of 1, 2, 4 or 8 bytes to a device window at a level, or Lantern's write of LATTOL. -/
def execRegisterWrite (level : Nat) (reg : RegAt) (size : Nat) (value : Word) (s : State) : Out :=
  .next (match reg with
    | .window pa =>
      if regionOf pa = .window ∧ (size = 1 ∨ size = 2 ∨ size = 4 ∨ size = 8) ∧ pa % size = 0 then
        s.winWrite level pa (leBytes size value.toNat) else s
    | .lattol => { s with power := { s.power with lattol := value &&& 0xFFFFFFFF#64 } })

/-- POOLSTAT_READ (R212) by a service thread: the value, or cause 0x0D where the status is 2. -/
def execPoolstatRead (svc : Nat) (s : State) : Out :=
  let w := s.warp svc
  .next (
    if 256 ≤ svc ∨ w.svc.running = false then s
    else if w.level.num < 2 then { s with readout := 0 }
    else if s.poolCmd.status = 2 then
      let t := s.thread svc 0
      s.deliver svc 1 t.pc [{ lane := 0, t := t, info := { cause := 0x0D, addr := BitVec.ofNat 64 (s.poolCmd.first / 4096 * 4096) } }]
    else { s with readout := BitVec.ofNat 64 s.poolstat })

end Sys2Proof.Machine
end

