-- ==== Sys2Proof/Machine/EvPlatform.lean ====
section
/-! DEFINITION. Resets and the boot chain (R16, R235, R250), the platform's alarms (R12, R252), the power states (R253),
Lantern (R254, R251), errors and self-tests (R248, R249, R61). A step whose condition does not hold changes nothing. -/

namespace Sys2Proof.Machine

/-! ## Resets (R16, R235, R249) -/

/-- What a core keeps across every reset: the lane map in Lantern flash with its newest GOOD value, whether it is in service,
and its line bitmaps, of the L1 and of the scratchpad (R61, R249). -/
def Core.kept (c : Core) : Core :=
  let m := c.fusePending.getD c.lmap
  { lmap := m, enabled := c.enabled && decide (8 ≤ popcount 16 m.toNat), retiredLines := c.retiredLines,
    retiredScratch := c.retiredScratch }

/-- COLD_RESET (R16): every field at its reset value but for what fuses and Lantern's flash keep, and a broken condition, whose 10 ms go
on (R12). -/
def State.coldReset (s : State) : State :=
  { State.reset with
    agenda := s.agenda
    cores := s.cores.map fun p => (p.1, p.2.kept)
    engines := (s.engines.filter fun p => p.2.retired).map fun p => (p.1, { retired := true })
    retiredL2 := s.retiredL2
    retiredSlices := s.retiredSlices ++ s.retiringSlices
    retiredFrames := s.retiredFrames
    errorLog := s.errorLog
    endpoint := s.endpoint
    bases := s.bases
    sec := { rollback := s.sec.rollback, keys := s.sec.keys, recovery := s.sec.recovery }
    power := { alarms := s.power.alarms.map fun p => (p.1, p.2 - s.now), throttled := s.power.throttled }
    fuseReports := s.fuseReports
    report := s.report
    fresh := s.fresh
    drawn := s.drawn }

/-- COLD_RESET. -/
def execColdReset (s : State) : Out := .next s.coldReset

/-- What a warm reset keeps of a tenant (R126): its grace-period number, with the periods done and the acknowledgements and reports of
nodes that hold no reader any more. -/
def Tenant.kept (k : Tenant) : Tenant :=
  { gpseq := k.gpseq, gpDone := k.gpDone, ack := k.ack, reports := k.reports.map fun p => (p.1, { p.2 with least := none }) }

/-- WARM_RESET (R16): as a cold reset, but TIME and CYCLE go on (R258), memory stands, and GPSEQ does not change (R126). DESIGN CHOICE:
S(0) of every core is cycle 0 again, as after a cold reset, and a wake from P1 to P3 keeps it; R47 counts from the moment the core becomes
active and names neither (log 80). -/
def State.warmReset (s : State) : State :=
  { s.coldReset with
    now := s.now
    mem := s.mem
    poison := s.poison
    tenants := s.tenants.map fun p => (p.1, p.2.kept)
    power := { alarms := s.power.alarms, throttled := s.power.throttled, stateSince := s.now } }

/-- WARM_RESET. -/
def execWarmReset (s : State) : Out := .next s.warmReset

/-! ## Boot (R235, R250) -/

/-- Whether an image is accepted (R250): it comes with the two keys whose digests are in the fuses, both signatures verify under them,
and its version is no lower than the counter. -/
def State.accepts (s : State) (m : ImageMsg) : Bool :=
  m.rsaKey == Config.vendorKeys.1 && m.slhKey == Config.vendorKeys.2 && m.rsaOk && m.slhOk && decide (s.sec.rollback ≤ m.version)

/-- The stages of the boot that are verified, after the ROM (R250): Lantern firmware, the security block, microcode, the service boot
image. -/
def bootStages : Nat := 4

/-- Service thread 0 as the boot chain starts it (R235). -/
def Warp.boot (w : Warp) (entry : Word) : Warp :=
  { w with svc := { w.svc with svtpc := entry &&& ~~~ 3#64, svtarg := 0, svtTenant := 0, svtLevel := .monitor } }.startService

/-- BOOT_STAGE_VERIFY (R250): the next stage is verified, its digest measured; after the last, service thread 0 starts. A failure stops
the boot and is reported. -/
def State.bootStage (s : State) (m : ImageMsg) : State :=
  if s.sec.failed.isSome ∨ bootStages ≤ s.sec.stage ∨ s.power.shutdown then s
  else if s.accepts m then
    let s1 := { s with sec := { s.sec with stage := s.sec.stage + 1, measured := s.sec.measured ++ [m.digest] } }
    if s.sec.stage + 1 = bootStages then { s1.modWarp 0 fun w => w.boot m.entry with home := .service 0 } else s1
  else { s with sec := { s.sec with failed := some s.sec.stage } }.log [s.sec.stage]

/-- BOOT_STAGE_VERIFY. -/
def execBootStageVerify (image : ImageMsg) (s : State) : Out := .next (s.bootStage image)

/-- LANTERN_FIRMWARE_UPDATE (R254): firmware is applied only when its image is accepted. -/
def execLanternFirmwareUpdate (image : ImageMsg) (s : State) : Out :=
  .next (if s.accepts image then { s with sec := { s.sec with measured := image.digest :: s.sec.measured.drop 1 } }
    else s.log [image.version])

/-! ## Alarms (R12, R252) -/

/-- Protective shutdown (R12): the main side stops; Lantern goes on. DESIGN CHOICE: what stops is the issue of bundles and the turns of
service threads; the device steps that come still act. R12 does not say what the shutdown stops (log 73). -/
def State.shutDown (s : State) : State :=
  { s with power := { s.power with shutdown := true }, home := .idle, issue := [], cur := {} }

/-- Zeroisation (R252): every key of the security block goes, and the device is bound for its recovery state. -/
def State.zeroise (s : State) : State := { s with sec := { s.sec with keys := false, recovery := true } }

/-- A condition is broken, with the time by which it will have persisted for 10 ms, and the device throttles (R12); one that is broken
already has its time. -/
def State.broken (s : State) (cond : PlatformCond) : State :=
  if s.power.alarms.any fun p => p.1 = cond then s
  else { s with power := { s.power with alarms := s.power.alarms ++ [(cond, s.now + Config.tenMs)], throttled := true } }

/-- What the policy fuse selects on a glitch or temperature alarm (R252). -/
def State.onPolicy (s : State) : State := if Config.policyFuse then s.zeroise else s

/-- PLATFORM_FAULT_ALARM (R12): a glitch or temperature alarm is raised (R252), then the device throttles. -/
def execPlatformFaultAlarm (cond : PlatformCond) (s : State) : Out :=
  .next (if s.power.alarms.any fun p => p.1 = cond then s else s.alarm.onPolicy.broken cond)

/-- PLATFORM_CONDITION_RESTORED (R12). -/
def execPlatformConditionRestored (cond : PlatformCond) (s : State) : Out :=
  let rest := s.power.alarms.filter fun p => p.1 ≠ cond
  .next { s with power := { s.power with alarms := rest, throttled := s.power.throttled && !rest.isEmpty } }

/-- PROTECTIVE_SHUTDOWN (R12): a condition has persisted for 10 ms. -/
def execProtectiveShutdown (s : State) : Out :=
  .next (if s.power.alarms.any fun p => decide (p.2 ≤ s.now) then s.shutDown else s)

/-- TAMPER_ALARM (R234, R252). -/
def execTamperAlarm (s : State) : Out := .next s.alarm.zeroise

/-- GLITCH_TEMPERATURE_ALARM (R12, R234, R252): the policy fuse selects zeroisation; otherwise the alarm leads to the shutdown as R12
has it: the device throttles, and shuts down once the condition has persisted for 10 ms. -/
def execGlitchTemperatureAlarm (s : State) : Out :=
  .next (if Config.policyFuse then s.alarm.zeroise else s.alarm.broken .security)

/-- LANTERN_PROVISIONING (R252): a zeroised device leaves its recovery state. -/
def execLanternProvisioning (s : State) : Out :=
  .next (if s.sec.recovery then { s with sec := { s.sec with keys := true, recovery := false } } else s)

/-! ## Power states (R253) -/

/-- Whether a warp is resident or an engine operation is under way. -/
def State.busy (s : State) : Bool :=
  (s.blocks.any fun p => p.2.state == .resident || p.2.state == .saving) || !s.engOps.isEmpty ||
    s.engines.any fun p => !p.2.table.isEmpty

/-- The exit latency of a power state in arithmetic cycles, and in ns. -/
def exitCycles : Nat → Nat
  | 0 => 0
  | 1 => 700
  | 2 => 28000
  | _ => 2100000

/-- The exit latency of a power state in ns. -/
def exitNs : Nat → Nat
  | 0 => 0
  | 1 => 1000
  | 2 => 40000
  | _ => 3000000

/-- The time in arithmetic cycles for which the condition of a state must have held: 10 µs, 1 ms, 100 ms. -/
def holdCycles : Nat → Nat
  | 1 => 7000
  | 2 => 700000
  | _ => 70000000

/-- POWER_STATE_ENTRY (R253): the next deeper state, once its condition has held for its time. -/
def State.powerDown (s : State) : State :=
  let p := s.power.pstate + 1
  let carve := s.tenants.any fun t => t.2.units0 != 0 || t.2.units1 != 0
  if s.busy ∨ s.power.exiting ∨ 3 < p ∨ s.now < s.power.stateSince + holdCycles p ∨ s.power.lattol.toNat < exitNs p ∨
      (p = 3 ∧ carve) then s
  else
    let s := if p = 3 then (s.l2Flush 0 everywhere true).l2Flush 1 everywhere true else s
    { s with power := { s.power with pstate := p, stateSince := s.now } }

/-- POWER_STATE_ENTRY. -/
def execPowerStateEntry (s : State) : Out := .next s.powerDown

/-- POWER_WAKE (R253): one of the four causes comes; the exit begins. -/
def execPowerWake (s : State) : Out := .next s.wake

/-- EXIT_LATENCY_ELAPSED (R253): the compute dies are active again. -/
def execExitLatencyElapsed (s : State) : Out :=
  .next (if s.power.exiting ∧ s.power.stateSince + exitCycles s.power.pstate ≤ s.now then
    { s with power := { s.power with pstate := 0, exiting := false, stateSince := s.now } } else s)

/-! ## Lantern (R251, R254, R311) -/

/-- LANTERN_DEBUG_HOLD (R311). -/
def execLanternDebugHold (tenant : Nat) (s : State) : Out :=
  .next (if tenant < 16 then s.modTenant tenant fun t => { t with debugHold := true } else s)

/-- LANTERN_DEBUG_RELEASE (R311): the hold ends and threads that sleep at BRKPT go on. -/
def execLanternDebugRelease (tenant : Nat) (s : State) : Out :=
  let awake (w : Warp) : Warp := { w with threads := w.threads.map fun (t : Thread) => { t with debugSleep := false } }
  .next (if tenant < 16 then
    { s.modTenant tenant fun t => { t with debugHold := false } with
      warps := s.warps.map fun p => if p.2.tenant = tenant then (p.1, awake p.2) else p }
    else s)

/-- The enabled cores, of 1,024. -/
def State.onCores (s : State) : List Nat := (List.range Config.numCores).filter fun c => (s.core c).enabled

/-- The disabled engines, by cluster. -/
def State.offEngines (s : State) : List Nat := tkeys (s.engines.filter fun p => p.2.retired)

/-- The retirements (R249, R254): cores, lines of L1s, lines of scratchpads, ways, slices, engines and frames. -/
def State.retirements (s : State) : List (List Nat) :=
  [(List.range Config.numCores).filter fun c => !(s.core c).enabled,
   s.cores.flatMap fun p => p.2.retiredLines.flatMap fun l => [p.1, l.1, l.2],
   s.cores.flatMap fun p => p.2.retiredScratch.flatMap fun l => [p.1, l],
   s.retiredL2.flatMap fun r => [r.1, r.2.1, r.2.2.1, r.2.2.2],
   s.retiredSlices.flatMap fun r => [r.1, r.2],
   s.offEngines, s.retiredFrames]

/-- How many of each kind have been retired (R251). -/
def State.retiredCounts (s : State) : List Nat :=
  [Config.numCores - s.onCores.length, (s.cores.map fun p => p.2.retiredLines.length).sum, (s.cores.map fun p => p.2.retiredScratch.length).sum,
   s.retiredL2.length, s.retiredSlices.length, s.offEngines.length, s.retiredFrames.length]

/-- The fuse state (R250 to R252): the rollback counter, whether the keys stand, the digests of the two vendor keys, the policy fuse. -/
def State.fuseState (s : State) : List Nat :=
  [s.sec.rollback, if s.sec.keys then 1 else 0, Config.vendorKeys.1.toNat, Config.vendorKeys.2.toNat, if Config.policyFuse then 1 else 0]

/-- What an attestation report covers (R251): the measured digests, the fuse state, the lane maps, the retirement counts, the nonce. -/
def State.attestBody (s : State) (nonce : List Byte) : List Nat :=
  s.sec.measured.map BitVec.toNat ++ s.fuseState ++
    ((List.range Config.numCores).map fun c => (s.core c).lmap.toNat) ++ s.retiredCounts ++ nonce.map BitVec.toNat

/-- A text with both signatures of a pair of keys (R251). -/
def signed (keys : Nat × Nat) (xs : List Nat) : List Nat := xs ++ [(Config.signatures keys xs).1, (Config.signatures keys xs).2]

/-- The identity certificate (R251): the device identity pair vouches for the attestation pair. -/
def identityCertificate : List Nat :=
  signed Config.identityKeys [Config.identityKeys.1, Config.identityKeys.2, Config.attestKeys.1, Config.attestKeys.2]

/-- LANTERN_ATTESTATION (R251): the identity certificate and a report, each with both signatures; none in the recovery state (R252). -/
def execLanternAttestation (nonce : List Byte) (s : State) : Out :=
  .next (if s.sec.recovery ∨ 64 < nonce.length then s
    else { s with report := identityCertificate ++ signed Config.attestKeys (s.attestBody nonce) })

/-- LANTERN_MAIN_RESET (R254): on an authorised command the main side is reset, or powered off. -/
def execLanternMainReset (authorised on : Bool) (s : State) : Out :=
  .next (if authorised = false then s else if on then s.coldReset else s.shutDown)

/-- The bases of the windows, in the order of `Bases`. -/
def Bases.nth (b : Bases) (n : Nat) : Nat :=
  match n with
  | 0 => b.sched
  | 1 => b.posting
  | 2 => b.stuffsack
  | 3 => b.translation
  | 4 => b.collective
  | 5 => b.fabric
  | _ => 0

/-- What Lantern answers (R7, R254). -/
def State.lantern (s : State) (q : LanternQuery) : Nat :=
  match q with
  | .lmap c => (s.core c).lmap.toNat
  | .good c => ((s.core c).fusePending.getD (s.core c).lmap).toNat
  | .npass c => (s.core c).npass
  | .enabledCores => s.onCores.length
  | .enabledLanes => (s.onCores.map fun c => (s.core c).lanes).foldl (· + ·) 0
  | .retiredCores => Config.numCores - s.onCores.length
  | .engines => 256 - s.offEngines.length
  | .slices => 2 * Config.l2Slices - s.retiredSlices.length
  | .errors => s.errorLog.length
  | .retirements => s.retiredCounts.sum
  | .windowBase n => s.bases.nth n
  | .sensor n => Config.sensor n s.drawn

/-- A unit as Lantern names it. -/
def testCode : TestUnit → List Nat
  | .lane c l => [0, c, l]
  | .l1Line c set way => [1, c, set, way]
  | .scratchLine c line => [2, c, line]
  | .l2Line d slice set way => [3, d, slice, set, way]
  | .engine c => [4, c]
  | .row f => [5, f]
  | .cluster c => [6, c]

/-- An entry of the error log as Lantern reports it. -/
def errorCode : EccMsg → List Nat
  | .unit u => 0 :: testCode u
  | .line u pa => 1 :: pa :: testCode u
  | .scratch b off => [2, b, off]
  | .carve t d off => [3, t, d, off]
  | .tile c h r j bit => [4, c, h, r, j, bit]

/-- What Lantern lists beside its answer (R254): the entries of the error log, or the retirements. -/
def State.lanternList (s : State) (q : LanternQuery) : List Nat :=
  match q with
  | .errors => s.errorLog.flatMap errorCode
  | .retirements => s.retirements.flatMap fun l => l.length :: l
  | _ => []

/-- LANTERN_MONITOR_QUERY (R254): the answer, and for the error log and the retirements their list in the report. -/
def execLanternMonitorQuery (query : LanternQuery) (s : State) : Out :=
  .next { s.draw with readout := BitVec.ofNat 64 (s.lantern query), report := s.report ++ s.lanternList query }

/-! ## Errors and self-tests (R61, R246, R248, R249) -/

/-- The unit that reports an error (R248): of scratch, the line of the core's scratchpad, or of the L2 slice that backs the carve. -/
def State.reporter (s : State) (e : EccMsg) : TestUnit :=
  match e with
  | .unit u => u
  | .line u _ => u
  | .scratch b off => .scratchLine (s.block b).core (physByte (s.block b).grans off / 256)
  | .carve t d off =>
    let line := off % 2097152 / 256
    .l2Line d ((((s.tenant t).slices d)[off / 2097152]?).getD 0) (line % 512) (line / 512)
  | .tile c _ _ _ _ => .engine c

/-- A stored bit of a tile flipped; the checksums stay as they are (R177). -/
def Engine.flip (e : Engine) (h row col bit : Nat) : Engine :=
  let i := 4096 * h + 64 * row + col
  let v := tgetD e.tiles i 0 ^^^ BitVec.ofNat 32 (2 ^ bit)
  { e with tiles := if v = 0 then tdel e.tiles i else tset e.tiles i v }

/-- ECC_ERROR (R248): logged, with the error interrupt and a self-test of the unit. An uncorrectable one poisons its line, or stands in
scratch until a read meets it (R246). -/
def execEccError (err : EccMsg) (s : State) : Out :=
  let s1 := s.logError err (s.reporter err)
  .next (match err with
    | .unit _ => s1
    | .line part pa =>
      let s2 := s1.taint (addrs (pa / 256 * 256) 256)
      match part with
      | .l1Line core _ _ => s2.setL1 core ((s2.l1c core).spoil (pa / 256))
      | _ => s2
    | .scratch b off => s1.modBlock b fun k =>
      if k.state = .resident ∧ off < k.allocBytes then { k with errs := insNat (off / 8) k.errs } else k
    | .carve t d off =>
      if 16 ≤ t ∨ 2 ≤ d ∨ carveBytes (s.tenant t) d ≤ off then s1
      else s1.modTenant t fun k => if d = 0 then { k with errs0 := insNat (off / 8) k.errs0 } else { k with errs1 := insNat (off / 8) k.errs1 }
    | .tile c h row col bit => if c < 256 ∧ h < 16 ∧ row < 64 ∧ col < 64 ∧ bit < 32 then s1.modEngine c fun e => e.flip h row col bit else s1)

/-- LANE_SOFT_FUSE (R61): the verdict, the core's new GOOD value, is in flash; Lantern and the hypervisor's service interface report it;
the core takes no new blocks and its warps are pre-empted. DESIGN CHOICE: the rules name the service interface and no register of it, so
the model lists its reports (log 100). -/
def State.softFuse (s : State) (core l : Nat) : State :=
  let c := s.core core
  let m := c.fusePending.getD c.lmap
  if 1024 ≤ core ∨ c.enabled = false ∨ m.getLsbD l = false ∨ 16 ≤ l then s
  else
    let good := m &&& ~~~ BitVec.ofNat 16 (2 ^ l)
    let s := s.modCore core fun c => { c with fusePending := some good }
    let s := { s with fuseReports := s.fuseReports ++ [(core, good.toNat)] }
    ((s.log [core, l, good.toNat]).preemptWhere fun b => b.core == core).applyMap core

/-- The retirement of an L2 way in one set, whose line goes home; a set left with fewer than two ways retires its slice, a carve's
contents moved first (R249, R93). -/
def State.retireWay (s : State) (die slice set way : Nat) : State :=
  if 2 ≤ die ∨ Config.l2Slices ≤ slice ∨ Config.l2Sets ≤ set ∨ Config.l2Ways ≤ way ∨ s.retiredL2.contains (die, slice, set, way) then s
  else
    let s := { s.vacate (.l2Line die slice set way) with retiredL2 := s.retiredL2 ++ [(die, slice, set, way)] }
    let left := Config.l2Ways - (s.retiredL2.filter fun r => r.1 = die ∧ r.2.1 = slice ∧ r.2.2.1 = set).length
    if left < 2 ∧ !s.retiredSlices.contains (die, slice) ∧ !s.retiringSlices.contains (die, slice) then
      { s with retiringSlices := s.retiringSlices ++ [(die, slice)] }.settleSlices
    else s

/-- The retirement of a line of an L1 (R249): what it holds goes out first. -/
def State.retireL1 (s : State) (core set way : Nat) : State :=
  if Config.numCores ≤ core ∨ Config.l1Sets ≤ set ∨ Config.l1Ways ≤ way then s
  else
    (s.vacate (.l1Line core set way)).modCore core fun k => { k with retiredLines := k.retiredLines ++ [(set, way)] }

/-- The stage-2 page entries under a table that lead to a frame, each with the intermediate address that it maps. -/
def State.leavesTo (s : State) (f : Nat) : Nat → Nat → Nat → Nat → List (Nat × Nat)
  | 0, _, _, _ => []
  | n + 1, level, table, base =>
    (List.range 512).flatMap fun i =>
      let ea := table + 8 * i
      let e := s.entryAt ea
      let ipa := base + i * 2 ^ (48 - 9 * level)
      match pteKind level e with
      | .table => s.leavesTo f n (level + 1) (oaOf e) ipa
      | .leaf => if level = 4 ∧ frameOf (oaOf e) = f then [(ipa, ea)] else []
      | _ => []

/-- The migratable page that a frame backs (R186): its tenant, intermediate address and leaf. A cached translation to it is asked first,
which knows its stage-1 attributes, then the tenants' stage-2 tables (log 61). -/
def State.movablePage (s : State) (f : Nat) : Option (Nat × Nat × Nat) :=
  let pa := f * 4096
  match s.tlb.find? fun e => e.pbase ≤ pa && pa < e.pbase + e.size with
  | some e => if e.mig ∧ e.pinrq = false then some (e.tenant, e.ibase + (pa - e.pbase), e.leafPa) else none
  | none => (List.range 16).findSome? fun t =>
    let root := (s.tenant t).s2root
    if wbit root 0 then
      (s.leavesTo f 5 0 (oaOf root.toNat) 0).head?.bind fun x =>
        let e := s.entryAt x.2
        if e.testBit 9 ∧ e.testBit 5 = false ∧ e.testBit 10 = false then some (t, x.1, x.2) else none
    else none

/-- The retirement of a frame: no ring holds it any more; a migratable page is moved off first, within its tier; any other page is
reported (R249). -/
def State.retireFrame (s : State) (f : Nat) : State :=
  let pa := f * 4096
  let s := { s with retiredFrames := insNat f s.retiredFrames, rings := s.rings.map fun (r : Nat × List Nat) => (r.1, r.2.filter (· != pa)) }
  match s.movablePage f, tierOf pa with
  | some p, some t =>
    if s.pins.contains f = false ∧ (s.coverOf pa).isNone then (s.startMigration pa p.1 p.2.1 p.2.2 t).getD (s.log [pa]) else s.log [pa]
  | _, _ => s.log [pa]

/-- Whether a unit is a line of a scratchpad that a block holds: it is not held out of use, so that its test does not run (R249). -/
def State.lineInUse (s : State) (u : TestUnit) : Bool :=
  match u with
  | .scratchLine c line => (s.heldOn c false).any fun b => b.grans.any fun g => g / 16 == line
  | _ => false

/-- SELF_TEST (R249): three runs, `true` for one that passes; a failure in any makes the fault lasting. A line of a scratchpad is tested
once no block holds it. -/
def execSelfTest (part : TestUnit) (runs : List Bool) (s : State) : Out :=
  let s1 := { s with selfTests := s.selfTests.filter (· != part) }
  .next (if runs.length ≠ 3 ∨ s.lineInUse part then s
    else if runs.all id then s1
    else match part with
      | .lane c l => s1.softFuse c l
      | .l1Line c set way => s1.retireL1 c set way
      | .scratchLine c line =>
        if c < 1024 ∧ 256 * line < Config.scratchBytes then s1.modCore c fun k => { k with retiredScratch := insNat line k.retiredScratch } else s1
      | .l2Line d slice set way => s1.retireWay d slice set way
      | .engine c => if c < 256 then s1.modEngine c fun e => { e with retired := true } else s1
      | .row f => s1.retireFrame f
      | .cluster _ => s1)

end Sys2Proof.Machine
end

