-- ==== Sys2Proof/Machine/EvSwitch.lean ====
section
/-! DEFINITION. The Switch of a migration (R199, R200, R203): the copy, the leaf, the stalled writes in their order of arrival, or the
abandonment. -/

namespace Sys2Proof.Machine

/-! ## The stalled writes (R199, R200) -/

/-- The bytes of a frame copied, with what of them is poisoned (R199, R246). -/
def State.copyFrame (s : State) (src dst : Nat) : State :=
  { s with
    mem := memSetAll s.mem (placed dst ((addrs src 4096).map (memGet s.mem)))
    poison := (s.poison.filter fun a => frameOf a = frameOf src).foldl (fun t a => insNat (carry src dst a) t)
      (s.poison.filter fun a => frameOf a ≠ frameOf dst) }

/-- The window's writes applied to a frame in arrival order (R199, R200). -/
def State.applyWindow (s : State) (f : Fwd) (to_ : Nat) : State :=
  let ws := f.window.flatten.map fun w => (carry f.src to_ w.1, w.2)
  { s with mem := memSetAll s.mem ws }.unpoison ws

/-- A stalled write's bytes applied to a frame (R199, R200): no L2 keeps a copy of its lines, reservations on it lapse, and it counts 1
there (R196). -/
def State.applyStalled (s : State) (f : Fwd) (to_ : Nat) (x : Stalled) : State :=
  let ws := x.ws.map fun w => (carry f.src to_ w.1, w.2)
  let lines := ws.map fun w => w.1 / 256
  match ws with
  | [] => s
  | (a, _) :: _ =>
    ((({ s with mem := memSetAll s.mem ws }.l2Forget fun a => lines.contains (a / 256)).written ws).taint
      (x.bad.map (carry f.src to_))).count x.attr a 1

/-- The work of an engine operation that waits for a Switch, tried again, or its answer or status. -/
def State.eopRetry (s : State) (id : Nat) : State :=
  let run (f : State → Out) : State := match f s with
    | .next s => s
    | _ => s
  match s.eopReady id with
  | none => s
  | some e => match e.kind with
    | .copy | .copyz => run (execCopyCompletion id)
    | .gather => run (execGatherCompletion id)
    | .scatter => run (execScatterCompletion id)
    | .bkop _ _ => run (execBkopCompletion id)
    | .rowcp | .rowz => run (execRowOpCompletion id)
    | .clean _ | .inval _ | .flush _ => run (execCacheMaintCompletion id)
    | .put => if e.stage = 1 then s.eopStatus e (e.code.getD 0) else if e.code = some 0 then run (execPutAcknowledged id) else s.putHere id
    | .coll => if e.stage = 1 then s.eopStatus e (e.code.getD 0) else s

/-- A thread that waits at an access for a Switch makes it, alone; its bundle goes on with the others later. -/
def State.threadRetry (s : State) (n l : Nat) : State :=
  let w := s.warp n
  let t := s.thread n l
  let there : Bool := match t.wait with
    | .window _ | .stalled | .pool _ => true
    | _ => false
  if there = false ∨ t.exited ∨ !(w.resident || w.service) then s
  else
    let s1 := { s with cur := { warp := n, lanes := maskOf [l] } }
    let out : Option Out := match s.peek w t.pc with
      | some (.atom k d a b op ty) => some (execAtom k d a b op ty s1)
      | some (.cas k d a b x ty) => some (execCas k d a b x ty s1)
      | some (.sc k q a imm b ty) => some (execSc k q a imm b ty s1)
      | some (.taff k a imm aff) => some (execTaff k a imm aff s1)
      | some (.alloc k q d p a) => some (execAlloc k q d p a s1)
      | some (.free k q a b) => some (execFree k q a b s1)
      | _ => none
    match out with
    | some (.next s2) => { s2 with cur := s.cur }
    | _ => s

/-- What has been served counts 1 at a frame if it has gone on and no request of it has counted there (R196, R289). -/
def State.servedAt (s s' : State) (frame : Nat) (went : Bool) : State :=
  if went ∧ s'.counter frame = s.counter frame then s'.addCount frame 1 else s'

/-- What has stalled at a migration's window proceeds to a frame. -/
def State.serveStall (s : State) (f : Fwd) (to_ : Nat) (x : Stall) : State :=
  let at_ := frameOf to_
  match x with
  | .bytes y => s.applyStalled f to_ y
  | .thread n l =>
    let s' := s.threadRetry n l
    s.servedAt s' at_ ((s'.thread n l).count != (s.thread n l).count)
  | .queue n =>
    let s' := s.drainOne n
    s.servedAt s' at_ ((s'.warp n).storeQ != (s.warp n).storeQ)
  | .pair g wid =>
    let s' := s.compareSegs g wid
    let held (s : State) : Nat := match s.warpOf g wid with
      | some n => (s.warp n).seg.held.length
      | none => 0
    s.servedAt s' at_ (held s' != held s)
  | .engine id => s.eopRetry id
  | .matrix c id => s.wbldChunk c id
  | .launch id => s.tryFinish id
  | .slot n => s.collApply n
  | .land k => match tget s.lands k with
    | some x => s.landAdd k x
    | none => s
  | .block b => s.saveBlock b
  | .back t => s.returnDeferred t
  | .enable t p => s.finishEnable t p
  | .fabric req => (s.serveFabric req).getD s
  | .put m => (s.landPut m false).getD s

/-! ## MIGRATION_SWITCH (R199, R200, R203) -/

/-- The migration is abandoned (R200): the window's writes and the stalled writes go to the source, and the frame back to its ring,
unless it has been retired meanwhile (R249). -/
def State.abandonMove (s : State) (k : Nat) (f : Fwd) : State :=
  let s := s.applyWindow f f.src
  let back := if s.retiredFrames.contains (frameOf f.dst) then [] else [f.dst]
  let s := { s with fwds := tdel s.fwds k, rings := tset s.rings f.dstTier (tgetD s.rings f.dstTier [] ++ back) }
  f.stalled.foldl (fun s x => s.serveStall f f.src x) s

/-- The pin bit moves with the page (R203). -/
def State.movePin (s : State) (f : Fwd) : State :=
  let rest := s.pins.filter fun p => p != frameOf f.src && p != frameOf f.dst
  { s with pins := if s.pins.contains (frameOf f.src) then insNat (frameOf f.dst) rest else rest }

/-- MIGRATION_SWITCH (R199, R200): the copy is whole; the window goes to the destination and the leaf is rewritten, then the stalled
writes follow in arrival order; or the migration is abandoned, also onto a tier-2 frame that the package does not own (R198). The
home agent's writes of the destination leave no L2 copy of it (R103). -/
def State.switchMove (s : State) (k : Nat) : State :=
  match tget s.fwds k with
  | none => s
  | some f =>
    if f.switched then s
    else if s.entryAt f.leafPa = f.leafOld ∧ s.ownsExcl f.dst then
      match s.ownWrite (placed f.leafPa (leBytes 8 (f.leafOld - oaOf f.leafOld + f.dst))) with
      | none => s
      | some s1 =>
        let s2 := ((s1.copyFrame f.src f.dst).applyWindow f f.dst).l2Forget fun a => frameOf a == frameOf f.src || frameOf a == frameOf f.dst
        let rekey (t : Thread) : Thread := { t with resv := t.resv.map (Resv.carried f.src f.dst) }
        let s3 := { s2 with
          fwds := tset s2.fwds k { f with switched := true, window := [], stalled := [] }
          counters := tset s2.counters (frameOf f.dst) 0
          warps := s2.warps.map fun (p : Nat × Warp) => (p.1, { p.2 with threads := p.2.threads.map rekey })
          fabResv := s2.fabResv.map fun (p : Nat × Resv) => (p.1, p.2.carried f.src f.dst) }.movePin f
        f.stalled.foldl (fun s x => s.serveStall f f.dst x) s3
    else s.abandonMove k f

/-- MIGRATION_SWITCH. -/
def execMigrationSwitch (entry : Nat) (s : State) : Out := .next (s.switchMove entry)

end Sys2Proof.Machine
end

