-- ==== Sys2Proof/Machine/Integer.lean ====
section
/-! DEFINITION. The integer instructions, class 0 (R358 to R361). -/

namespace Sys2Proof.Machine

/-- IADD COMPACT (R359). -/
def execIaddCompact (st : Fin 8) (d a b : Fin 64) (s : State) : Out :=
  regMap (.iaddCompact st d a b) (fun x => x.t.writeD x lat4 (g6 d) (intAll .add .s64 false (x.g a.val) (x.g b.val) 0)) s
/-- IADD LONG (R359). -/
def execIaddLong (k : Ctl) (d : Dst) (a : Src) (b : OpB) (ty : Ty) (sat : Bool) (s : State) : Out :=
  regMap (.iaddLong k d a b ty sat) (fun x => x.t.writeD x lat4 d (intAll .add ty sat (x.src a) (x.opB ty b) 0)) s
/-- IADD LITERAL (R359). -/
def execIaddLiteral (k : Ctl) (d : Dst) (a : Src) (lit : BitVec 32) (ty : Ty) (sat : Bool) (s : State) : Out :=
  regMap (.iaddLiteral k d a lit ty sat) (fun x => x.t.writeD x lat4 d (intAll .add ty sat (x.src a) (litWord ty lit) 0)) s
/-- ISUB COMPACT (R359). -/
def execIsubCompact (st : Fin 8) (d a b : Fin 64) (s : State) : Out :=
  regMap (.isubCompact st d a b) (fun x => x.t.writeD x lat4 (g6 d) (intAll .sub .s64 false (x.g a.val) (x.g b.val) 0)) s
/-- ISUB LONG (R359). -/
def execIsubLong (k : Ctl) (d : Dst) (a : Src) (b : OpB) (ty : Ty) (sat : Bool) (s : State) : Out :=
  regMap (.isubLong k d a b ty sat) (fun x => x.t.writeD x lat4 d (intAll .sub ty sat (x.src a) (x.opB ty b) 0)) s
/-- ISUB LITERAL (R359). -/
def execIsubLiteral (k : Ctl) (d : Dst) (a : Src) (lit : BitVec 32) (ty : Ty) (sat : Bool) (s : State) : Out :=
  regMap (.isubLiteral k d a lit ty sat) (fun x => x.t.writeD x lat4 d (intAll .sub ty sat (x.src a) (litWord ty lit) 0)) s
/-- IMUL COMPACT (R359). -/
def execImulCompact (st : Fin 8) (d a b : Fin 64) (s : State) : Out :=
  regMap (.imulCompact st d a b) (fun x => x.t.writeD x lat8 (g6 d) (intAll .mul .s64 false (x.g a.val) (x.g b.val) 0)) s
/-- IMUL LONG (R359). -/
def execImulLong (k : Ctl) (d : Dst) (a : Src) (b : OpB) (ty : Ty) (sat : Bool) (s : State) : Out :=
  regMap (.imulLong k d a b ty sat) (fun x => x.t.writeD x lat8 d (intAll .mul ty sat (x.src a) (x.opB ty b) 0)) s
/-- IMUL LITERAL (R359). -/
def execImulLiteral (k : Ctl) (d : Dst) (a : Src) (lit : BitVec 32) (ty : Ty) (sat : Bool) (s : State) : Out :=
  regMap (.imulLiteral k d a lit ty sat) (fun x => x.t.writeD x lat8 d (intAll .mul ty sat (x.src a) (litWord ty lit) 0)) s
/-- IMULH COMPACT (R359). -/
def execImulhCompact (st : Fin 8) (d a b : Fin 64) (s : State) : Out :=
  regMap (.imulhCompact st d a b) (fun x => x.t.writeD x lat8 (g6 d) (intAll .mulh .s64 false (x.g a.val) (x.g b.val) 0)) s
/-- IMULH LONG (R359). -/
def execImulhLong (k : Ctl) (d : Dst) (a : Src) (b : OpB) (ty : Ty) (s : State) : Out :=
  regMap (.imulhLong k d a b ty) (fun x => x.t.writeD x lat8 d (intAll .mulh ty false (x.src a) (x.opB ty b) 0)) s
/-- IMULH LITERAL (R359). -/
def execImulhLiteral (k : Ctl) (d : Dst) (a : Src) (lit : BitVec 32) (ty : Ty) (s : State) : Out :=
  regMap (.imulhLiteral k d a lit ty) (fun x => x.t.writeD x lat8 d (intAll .mulh ty false (x.src a) (litWord ty lit) 0)) s
/-- IMAD LONG (R359). -/
def execImadLong (k : Ctl) (d : Dst) (a b c : Src) (ty : Ty) (sat : Bool) (s : State) : Out :=
  regMap (.imadLong k d a b c ty sat) (fun x => x.t.writeD x lat8 d (intAll .mad ty sat (x.src a) (x.src b) (x.src c))) s
/-- IMAD LITERAL (R359). -/
def execImadLiteral (k : Ctl) (d : Dst) (a : Src) (lit : BitVec 32) (c : Src) (ty : Ty) (sat : Bool) (s : State) : Out :=
  regMap (.imadLiteral k d a lit c ty sat) (fun x => x.t.writeD x lat8 d (intAll .mad ty sat (x.src a) (litWord ty lit) (x.src c))) s
/-- IDIV COMPACT (R359). -/
def execIdivCompact (st : Fin 8) (d a b : Fin 64) (s : State) : Out :=
  regMap (.idivCompact st d a b) (fun x => x.t.writeD x (.var 24) (g6 d) (intAll .div .s64 false (x.g a.val) (x.g b.val) 0)) s
/-- IDIV LONG (R359). -/
def execIdivLong (k : Ctl) (d : Dst) (a : Src) (b : OpB) (ty : Ty) (s : State) : Out :=
  regMap (.idivLong k d a b ty) (fun x => x.t.writeD x (.var 24) d (intAll .div ty false (x.src a) (x.opB ty b) 0)) s
/-- IDIV LITERAL (R359). -/
def execIdivLiteral (k : Ctl) (d : Dst) (a : Src) (lit : BitVec 32) (ty : Ty) (s : State) : Out :=
  regMap (.idivLiteral k d a lit ty) (fun x => x.t.writeD x (.var 24) d (intAll .div ty false (x.src a) (litWord ty lit) 0)) s
/-- IREM COMPACT (R359). -/
def execIremCompact (st : Fin 8) (d a b : Fin 64) (s : State) : Out :=
  regMap (.iremCompact st d a b) (fun x => x.t.writeD x (.var 24) (g6 d) (intAll .rem .s64 false (x.g a.val) (x.g b.val) 0)) s
/-- IREM LONG (R359). -/
def execIremLong (k : Ctl) (d : Dst) (a : Src) (b : OpB) (ty : Ty) (s : State) : Out :=
  regMap (.iremLong k d a b ty) (fun x => x.t.writeD x (.var 24) d (intAll .rem ty false (x.src a) (x.opB ty b) 0)) s
/-- IREM LITERAL (R359). -/
def execIremLiteral (k : Ctl) (d : Dst) (a : Src) (lit : BitVec 32) (ty : Ty) (s : State) : Out :=
  regMap (.iremLiteral k d a lit ty) (fun x => x.t.writeD x (.var 24) d (intAll .rem ty false (x.src a) (litWord ty lit) 0)) s
/-- IMIN COMPACT (R359). -/
def execIminCompact (st : Fin 8) (d a b : Fin 64) (s : State) : Out :=
  regMap (.iminCompact st d a b) (fun x => x.t.writeD x lat4 (g6 d) (intAll .min .s64 false (x.g a.val) (x.g b.val) 0)) s
/-- IMIN LONG (R359). -/
def execIminLong (k : Ctl) (d : Dst) (a : Src) (b : OpB) (ty : Ty) (s : State) : Out :=
  regMap (.iminLong k d a b ty) (fun x => x.t.writeD x lat4 d (intAll .min ty false (x.src a) (x.opB ty b) 0)) s
/-- IMIN LITERAL (R359). -/
def execIminLiteral (k : Ctl) (d : Dst) (a : Src) (lit : BitVec 32) (ty : Ty) (s : State) : Out :=
  regMap (.iminLiteral k d a lit ty) (fun x => x.t.writeD x lat4 d (intAll .min ty false (x.src a) (litWord ty lit) 0)) s
/-- IMAX COMPACT (R359). -/
def execImaxCompact (st : Fin 8) (d a b : Fin 64) (s : State) : Out :=
  regMap (.imaxCompact st d a b) (fun x => x.t.writeD x lat4 (g6 d) (intAll .max .s64 false (x.g a.val) (x.g b.val) 0)) s
/-- IMAX LONG (R359). -/
def execImaxLong (k : Ctl) (d : Dst) (a : Src) (b : OpB) (ty : Ty) (s : State) : Out :=
  regMap (.imaxLong k d a b ty) (fun x => x.t.writeD x lat4 d (intAll .max ty false (x.src a) (x.opB ty b) 0)) s
/-- IMAX LITERAL (R359). -/
def execImaxLiteral (k : Ctl) (d : Dst) (a : Src) (lit : BitVec 32) (ty : Ty) (s : State) : Out :=
  regMap (.imaxLiteral k d a lit ty) (fun x => x.t.writeD x lat4 d (intAll .max ty false (x.src a) (litWord ty lit) 0)) s
/-- IABS (R359). -/
def execIabs (k : Ctl) (d : Dst) (a : Src) (ty : Ty) (sat : Bool) (s : State) : Out :=
  regMap (.iabs k d a ty sat) (fun x => x.t.writeD x lat4 d (intAll .abs ty sat (x.src a) 0 0)) s
/-- INEG (R359). -/
def execIneg (k : Ctl) (d : Dst) (a : Src) (ty : Ty) (sat : Bool) (s : State) : Out :=
  regMap (.ineg k d a ty sat) (fun x => x.t.writeD x lat4 d (intAll .neg ty sat (x.src a) 0 0)) s
/-- IADDC and ISUBB: gD and qc written together (R361). -/
def carryOp (i : Instr) (sub : Bool) (d : Dst) (qc : Pred) (a b : LaneCx → Word) (s : State) : Out :=
  regMap i (fun x =>
    let c : Int := if x.q qc then 1 else 0
    let r : Int := if sub then (a x).toNat - (b x).toNat - c else (a x).toNat + (b x).toNat + c
    (x.t.writeD x lat4 d (wordOf r)).writeQ x lat4 qc (if sub then r < 0 else 2 ^ 64 ≤ r)) s

/-- IADDC LONG (R361). -/
def execIaddcLong (k : Ctl) (d : Dst) (a : Src) (b : OpB) (ty : Ty) (qc : Pred) (s : State) : Out :=
  carryOp (.iaddcLong k d a b ty qc) false d qc (fun x => x.src a) (fun x => x.opB ty b) s
/-- IADDC LITERAL (R361). -/
def execIaddcLiteral (k : Ctl) (d : Dst) (a : Src) (lit : BitVec 32) (ty : Ty) (qc : Pred) (s : State) : Out :=
  carryOp (.iaddcLiteral k d a lit ty qc) false d qc (fun x => x.src a) (fun _ => (litWord ty lit)) s
/-- ISUBB LONG (R361). -/
def execIsubbLong (k : Ctl) (d : Dst) (a : Src) (b : OpB) (ty : Ty) (qc : Pred) (s : State) : Out :=
  carryOp (.isubbLong k d a b ty qc) true d qc (fun x => x.src a) (fun x => x.opB ty b) s
/-- ISUBB LITERAL (R361). -/
def execIsubbLiteral (k : Ctl) (d : Dst) (a : Src) (lit : BitVec 32) (ty : Ty) (qc : Pred) (s : State) : Out :=
  carryOp (.isubbLiteral k d a lit ty qc) true d qc (fun x => x.src a) (fun _ => (litWord ty lit)) s
/-- IDOT4 LONG (R360). -/
def execIdot4Long (k : Ctl) (d : Dst) (a b c : Src) (ty : Ty) (sat : Bool) (s : State) : Out :=
  regMap (.idot4Long k d a b c ty sat) (fun x => x.t.writeD x lat8 d (idot4 ty sat (x.src a) (x.src b) (x.src c))) s
/-- IDOT4 LITERAL (R360). -/
def execIdot4Literal (k : Ctl) (d : Dst) (a : Src) (lit : BitVec 32) (c : Src) (ty : Ty) (sat : Bool) (s : State) : Out :=
  regMap (.idot4Literal k d a lit c ty sat) (fun x => x.t.writeD x lat8 d (idot4 ty sat (x.src a) (litWord ty lit) (x.src c))) s

end Sys2Proof.Machine
end

