-- ==== Sys2Proof/Machine/Logic.lean ====
section
/-! DEFINITION. The logic, shift and field instructions, class 1 (R298, R305, R310, R371, R380, R382, R392). -/

namespace Sys2Proof.Machine

/-- AND COMPACT (R298). -/
def execAndCompact (st : Fin 8) (d a b : Fin 64) (s : State) : Out :=
  regMap (.andCompact st d a b) (fun x => x.t.writeD x lat4 (g6 d) ((x.g a.val) &&& (x.g b.val))) s
/-- AND LONG (R298). -/
def execAndLong (k : Ctl) (d : Dst) (a : Src) (b : OpB) (ty : Ty) (s : State) : Out :=
  regMap (.andLong k d a b ty) (fun x => x.t.writeD x lat4 d ((x.src a) &&& (x.opB ty b))) s
/-- AND LITERAL (R298). -/
def execAndLiteral (k : Ctl) (d : Dst) (a : Src) (lit : BitVec 32) (ty : Ty) (s : State) : Out :=
  regMap (.andLiteral k d a lit ty) (fun x => x.t.writeD x lat4 d ((x.src a) &&& (litWord ty lit))) s
/-- OR COMPACT (R378). -/
def execOrCompact (st : Fin 8) (d a b : Fin 64) (s : State) : Out :=
  regMap (.orCompact st d a b) (fun x => x.t.writeD x lat4 (g6 d) ((x.g a.val) ||| (x.g b.val))) s
/-- OR LONG (R378). -/
def execOrLong (k : Ctl) (d : Dst) (a : Src) (b : OpB) (ty : Ty) (s : State) : Out :=
  regMap (.orLong k d a b ty) (fun x => x.t.writeD x lat4 d ((x.src a) ||| (x.opB ty b))) s
/-- OR LITERAL (R378). -/
def execOrLiteral (k : Ctl) (d : Dst) (a : Src) (lit : BitVec 32) (ty : Ty) (s : State) : Out :=
  regMap (.orLiteral k d a lit ty) (fun x => x.t.writeD x lat4 d ((x.src a) ||| (litWord ty lit))) s
/-- XOR COMPACT (R417). -/
def execXorCompact (st : Fin 8) (d a b : Fin 64) (s : State) : Out :=
  regMap (.xorCompact st d a b) (fun x => x.t.writeD x lat4 (g6 d) ((x.g a.val) ^^^ (x.g b.val))) s
/-- XOR LONG (R417). -/
def execXorLong (k : Ctl) (d : Dst) (a : Src) (b : OpB) (ty : Ty) (s : State) : Out :=
  regMap (.xorLong k d a b ty) (fun x => x.t.writeD x lat4 d ((x.src a) ^^^ (x.opB ty b))) s
/-- XOR LITERAL (R417). -/
def execXorLiteral (k : Ctl) (d : Dst) (a : Src) (lit : BitVec 32) (ty : Ty) (s : State) : Out :=
  regMap (.xorLiteral k d a lit ty) (fun x => x.t.writeD x lat4 d ((x.src a) ^^^ (litWord ty lit))) s
/-- LOP3 LONG (R371). -/
def execLop3Long (k : Ctl) (d : Dst) (a b c : Src) (ty : Ty) (tbl : Fin 256) (s : State) : Out :=
  regMap (.lop3Long k d a b c ty tbl) (fun x => x.t.writeD x lat4 d (lop3 tbl.val (x.src a) (x.src b) (x.src c))) s
/-- LOP3 LITERAL (R371). -/
def execLop3Literal (k : Ctl) (d : Dst) (a : Src) (lit : BitVec 32) (c : Src) (ty : Ty) (tbl : Fin 256) (s : State) : Out :=
  regMap (.lop3Literal k d a lit c ty tbl) (fun x => x.t.writeD x lat4 d (lop3 tbl.val (x.src a) (litWord ty lit) (x.src c))) s
/-- SHL COMPACT (R393). -/
def execShlCompact (st : Fin 8) (d a b : Fin 64) (s : State) : Out :=
  regMap (.shlCompact st d a b) (fun x => x.t.writeD x lat4 (g6 d) (shiftAll .shl .b64 (x.g a.val) (x.g b.val))) s
/-- SHL LONG (R393). -/
def execShlLong (k : Ctl) (d : Dst) (a : Src) (b : OpB) (ty : Ty) (s : State) : Out :=
  regMap (.shlLong k d a b ty) (fun x => x.t.writeD x lat4 d (shiftAll .shl ty (x.src a) (x.opB ty b))) s
/-- SHL LITERAL (R393). -/
def execShlLiteral (k : Ctl) (d : Dst) (a : Src) (lit : BitVec 32) (ty : Ty) (s : State) : Out :=
  regMap (.shlLiteral k d a lit ty) (fun x => x.t.writeD x lat4 d (shiftAll .shl ty (x.src a) (litWord ty lit))) s
/-- SHR COMPACT (R393). -/
def execShrCompact (st : Fin 8) (d a b : Fin 64) (s : State) : Out :=
  regMap (.shrCompact st d a b) (fun x => x.t.writeD x lat4 (g6 d) (shiftAll .shr .b64 (x.g a.val) (x.g b.val))) s
/-- SHR LONG (R393). -/
def execShrLong (k : Ctl) (d : Dst) (a : Src) (b : OpB) (ty : Ty) (s : State) : Out :=
  regMap (.shrLong k d a b ty) (fun x => x.t.writeD x lat4 d (shiftAll .shr ty (x.src a) (x.opB ty b))) s
/-- SHR LITERAL (R393). -/
def execShrLiteral (k : Ctl) (d : Dst) (a : Src) (lit : BitVec 32) (ty : Ty) (s : State) : Out :=
  regMap (.shrLiteral k d a lit ty) (fun x => x.t.writeD x lat4 d (shiftAll .shr ty (x.src a) (litWord ty lit))) s
/-- SHRA COMPACT (R393). -/
def execShraCompact (st : Fin 8) (d a b : Fin 64) (s : State) : Out :=
  regMap (.shraCompact st d a b) (fun x => x.t.writeD x lat4 (g6 d) (shiftAll .shra .b64 (x.g a.val) (x.g b.val))) s
/-- SHRA LONG (R393). -/
def execShraLong (k : Ctl) (d : Dst) (a : Src) (b : OpB) (ty : Ty) (s : State) : Out :=
  regMap (.shraLong k d a b ty) (fun x => x.t.writeD x lat4 d (shiftAll .shra ty (x.src a) (x.opB ty b))) s
/-- SHRA LITERAL (R393). -/
def execShraLiteral (k : Ctl) (d : Dst) (a : Src) (lit : BitVec 32) (ty : Ty) (s : State) : Out :=
  regMap (.shraLiteral k d a lit ty) (fun x => x.t.writeD x lat4 d (shiftAll .shra ty (x.src a) (litWord ty lit))) s
/-- ROT COMPACT (R393). -/
def execRotCompact (st : Fin 8) (d a b : Fin 64) (s : State) : Out :=
  regMap (.rotCompact st d a b) (fun x => x.t.writeD x lat4 (g6 d) (shiftAll .rot .b64 (x.g a.val) (x.g b.val))) s
/-- ROT LONG (R393). -/
def execRotLong (k : Ctl) (d : Dst) (a : Src) (b : OpB) (ty : Ty) (s : State) : Out :=
  regMap (.rotLong k d a b ty) (fun x => x.t.writeD x lat4 d (shiftAll .rot ty (x.src a) (x.opB ty b))) s
/-- ROT LITERAL (R393). -/
def execRotLiteral (k : Ctl) (d : Dst) (a : Src) (lit : BitVec 32) (ty : Ty) (s : State) : Out :=
  regMap (.rotLiteral k d a lit ty) (fun x => x.t.writeD x lat4 d (shiftAll .rot ty (x.src a) (litWord ty lit))) s
/-- POPC (R380). -/
def execPopc (k : Ctl) (d : Dst) (a : Src) (ty : Ty) (s : State) : Out :=
  regMap (.popc k d a ty) (fun x => x.t.writeD x lat4 d (unaryAll ty popcount (x.src a))) s
/-- CLZ (R310). -/
def execClz (k : Ctl) (d : Dst) (a : Src) (ty : Ty) (s : State) : Out :=
  regMap (.clz k d a ty) (fun x => x.t.writeD x lat4 d (unaryAll ty clz (x.src a))) s
/-- CTZ (R310). -/
def execCtz (k : Ctl) (d : Dst) (a : Src) (ty : Ty) (s : State) : Out :=
  regMap (.ctz k d a ty) (fun x => x.t.writeD x lat4 d (unaryAll ty ctz (x.src a))) s
/-- BREV (R310). -/
def execBrev (k : Ctl) (d : Dst) (a : Src) (ty : Ty) (s : State) : Out :=
  regMap (.brev k d a ty) (fun x => x.t.writeD x lat4 d (unaryAll ty brev (x.src a))) s
/-- BFX LONG (R306). -/
def execBfxLong (k : Ctl) (d : Dst) (a : Src) (b : OpB) (ty : Ty) (s : State) : Out :=
  regMap (.bfxLong k d a b ty) (fun x => x.t.writeD x lat4 d
    (mapElems ty fun i => bfxElem ty (elem (x.src a) i ty) (elem (x.opB ty b) i ty))) s
/-- BFX LITERAL (R306). -/
def execBfxLiteral (k : Ctl) (d : Dst) (a : Src) (lit : BitVec 32) (ty : Ty) (s : State) : Out :=
  regMap (.bfxLiteral k d a lit ty) (fun x => x.t.writeD x lat4 d
    (mapElems ty fun i => bfxElem ty (elem (x.src a) i ty) (elem (litWord ty lit) i ty))) s
/-- BFI LONG (R306). -/
def execBfiLong (k : Ctl) (d : Dst) (a b c : Src) (ty : Ty) (s : State) : Out :=
  regMap (.bfiLong k d a b c ty) (fun x => x.t.writeD x lat4 d
    (mapElems ty fun i => bfiElem ty (elem (x.src a) i ty) (elem (x.src b) i ty) (elem (x.src c) i ty))) s
/-- BFI LITERAL (R306). -/
def execBfiLiteral (k : Ctl) (d : Dst) (a : Src) (lit : BitVec 32) (c : Src) (ty : Ty) (s : State) : Out :=
  regMap (.bfiLiteral k d a lit c ty) (fun x => x.t.writeD x lat4 d
    (mapElems ty fun i => bfiElem ty (elem (x.src a) i ty) (elem (litWord ty lit) i ty) (elem (x.src c) i ty))) s
/-- PRMT LONG (R382). -/
def execPrmtLong (k : Ctl) (d : Dst) (a b c : Src) (s : State) : Out :=
  regMap (.prmtLong k d a b c) (fun x => x.t.writeD x lat4 d (prmt (x.src a) (x.src b) (x.src c))) s
/-- PRMT LITERAL (R382). -/
def execPrmtLiteral (k : Ctl) (d : Dst) (a : Src) (lit : BitVec 32) (c : Src) (s : State) : Out :=
  regMap (.prmtLiteral k d a lit c) (fun x => x.t.writeD x lat4 d (prmt (x.src a) (sext32 lit) (x.src c))) s

end Sys2Proof.Machine
end

