-- ==== Sys2Proof/Machine/Move.lean ====
section
/-! DEFINITION. Compares, predicates and moves, class 2 (R333 to R335, R354, R362, R374, R375, R400, R414). -/

namespace Sys2Proof.Machine

/-- ICMP LONG (R362). -/
def execIcmpLong (k : Ctl) (q : Pred) (a : Src) (b : OpB) (ty : Ty) (cond : ICond) (form : CmpForm) (s : State) : Out :=
  regMap (.icmpLong k q a b ty cond form) (fun x => x.t.writeQ x lat4 q
    (formTruth form ((formIdx form ty).map fun i => icond cond (elemInt (x.src a) i ty) (elemInt (x.opB ty b) i ty)))) s
/-- ICMP LITERAL (R362). -/
def execIcmpLiteral (k : Ctl) (q : Pred) (a : Src) (lit : BitVec 32) (ty : Ty) (cond : ICond) (form : CmpForm) (s : State) : Out :=
  regMap (.icmpLiteral k q a lit ty cond form) (fun x => x.t.writeQ x lat4 q
    (formTruth form ((formIdx form ty).map fun i => icond cond (elemInt (x.src a) i ty) (elemInt (litWord ty lit) i ty)))) s
/-- FCMP over the examined sub-elements (R335). -/
def fcmpLane (x : LaneCx) (q : Pred) (ty : Ty) (cond : FCond) (form : CmpForm) (a b : Word) : LaneRes :=
  let rs := (formIdx form ty).map fun i => fCompare cond (x.fval ty a i) (x.fval ty b i)
  fpFinishQ x (latF ty) q (formTruth form (rs.map (·.1))) (rs.foldl (fun f r => f ||| r.2) 0)

/-- FCMP LONG (R334, R335). -/
def execFcmpLong (k : Ctl) (q : Pred) (a : Src) (b : OpB) (ty : Ty) (cond : FCond) (form : CmpForm) (s : State) : Out :=
  laneMap (.fcmpLong k q a b ty cond form) (fun x => fcmpLane x q ty cond form (x.src a) (x.opB ty b)) s
/-- FCMP LITERAL (R334, R335). -/
def execFcmpLiteral (k : Ctl) (q : Pred) (a : Src) (lit : BitVec 32) (ty : Ty) (cond : FCond) (form : CmpForm) (s : State) : Out :=
  laneMap (.fcmpLiteral k q a lit ty cond form) (fun x => fcmpLane x q ty cond form (x.src a) (litWord ty lit)) s
/-- FCLASS (R333). -/
def execFclass (k : Ctl) (q : Pred) (a b : Src) (ty : Ty) (form : CmpForm) (s : State) : Out :=
  regMap (.fclass k q a b ty form) (fun x => x.t.writeQ x (latF ty) q
    (formTruth form ((formIdx form ty).map fun i => wbit (x.src b) (fClassOf (fmtOf ty) (elem (x.src a) i ty))))) s
/-- SEL COMPACT (R400). -/
def execSelCompact (st : Fin 8) (d a b : Fin 64) (s : State) : Out :=
  regMap (.selCompact st d a b) (fun x => x.t.writeD x lat4 (g6 d) (if x.q 0 then (x.g a.val) else (x.g b.val))) s
/-- SEL LONG (R400). -/
def execSelLong (k : Ctl) (d : Dst) (a : Src) (b : OpB) (ty : Ty) (qs : Pred) (neg : Bool) (s : State) : Out :=
  regMap (.selLong k d a b ty qs neg) (fun x => x.t.writeD x lat4 d (if x.q qs != neg then (x.src a) else (x.opB ty b))) s
/-- SEL LITERAL (R400). -/
def execSelLiteral (k : Ctl) (d : Dst) (a : Src) (lit : BitVec 32) (ty : Ty) (qs : Pred) (neg : Bool) (s : State) : Out :=
  regMap (.selLiteral k d a lit ty qs neg) (fun x => x.t.writeD x lat4 d (if x.q qs != neg then (x.src a) else (litWord ty lit))) s
/-- The operation of PLOP (R354). -/
def plopVal (op : PredOp) (a b : Bool) : Bool :=
  match op with
  | .and => a && b
  | .or => a || b
  | .xor => a != b

/-- PLOP (R355). -/
def execPlop (k : Ctl) (q qa qb : Pred) (op : PredOp) (na nb : Bool) (s : State) : Out :=
  regMap (.plop k q qa qb op na nb) (fun x => x.t.writeQ x lat4 q (plopVal op (x.q qa != na) (x.q qb != nb))) s
/-- The eight predicates as a byte; bit 7 is 1 (R355). -/
def predWord (x : LaneCx) : Word :=
  BitVec.ofNat 64 ((List.range 8).foldl (fun v j => v + if x.q (Fin.ofNat 8 j) then 2 ^ j else 0) 0)

/-- PTOG (R355). -/
def execPtog (k : Ctl) (d : Dst) (s : State) : Out :=
  regMap (.ptog k d) (fun x => x.t.writeD x lat4 d (predWord x)) s
/-- The predicates q0 to q6 that a mask names (R355). -/
def mlanesOf (m : Nat) : List Nat := (List.range 7).filter m.testBit

/-- GTOP (R355). -/
def execGtop (k : Ctl) (a : Src) (mask : Fin 128) (s : State) : Out :=
  regMap (.gtop k a mask) (fun x => (mlanesOf mask.val).foldl
    (fun t j => t.writeQ x lat4 (Fin.ofNat 8 j) (wbit (x.src a) j)) x.t) s
/-- MOV LONG (R374). -/
def execMovLong (k : Ctl) (d : Dst) (b : OpB) (ty : Ty) (s : State) : Out :=
  regMap (.movLong k d b ty) (fun x => x.t.writeD x lat4 d (x.opB ty b)) s
/-- MOV LITERAL (R374). -/
def execMovLiteral (k : Ctl) (d : Dst) (lit : BitVec 32) (ty : Ty) (s : State) : Out :=
  regMap (.movLiteral k d lit ty) (fun x => x.t.writeD x lat4 d (litWord ty lit)) s
/-- A warp register written by the bundle: readers see it after the distance of R55. -/
def writeW (s : State) (d : Fin 32) (pass : Nat) (v : Word) : State :=
  let n := s.cur.warp
  let w := s.curWarp
  let step := (s.core w.core).step
  let live := w.wearly.filter fun e => s.now < e.due || step < e.step + e.dist
  let before := (live.filter fun e => e.reg = .w d.val).foldl (fun m e => max m e.due) 0
  let e : Early := { reg := .w d.val, old := tgetD w.wregs d.val 0, due := max before (s.now + pass + 4), step := step, dist := 3 }
  s.setWarp n { w with wregs := tset w.wregs d.val v, wearly := if w.service then [] else live ++ [e] }

/-- MOVW: the value of the highest guard-true lane of the bundle; unchanged when every guard is false (R375). -/
def movwOp (i : Instr) (d : Fin 32) (f : LaneCx → Word) (s : State) : Out :=
  laneMapPost i (fun x => { t := x.t }) (fun t =>
    match (guardTrue i s).getLast? with
    | some l => let x := s.cx s.cur.warp l; writeW t d x.pass (f x)
    | none => t) s

/-- MOVW LONG (R375). -/
def execMovwLong (k : Ctl) (d : Fin 32) (b : OpB) (ty : Ty) (s : State) : Out :=
  movwOp (.movwLong k d b ty) d (fun x => (x.opB ty b)) s
/-- MOVW LITERAL (R375). -/
def execMovwLiteral (k : Ctl) (d : Fin 32) (lit : BitVec 32) (ty : Ty) (s : State) : Out :=
  movwOp (.movwLiteral k d lit ty) d (fun _ => (litWord ty lit)) s
/-- WMOV: one lane's register into a warp register, the lane taken from the lowest guard-true lane (R414). -/
def wmovOp (i : Instr) (d : Fin 32) (a b : Src) (s : State) : Out :=
  let gt := guardTrue i s
  let n := s.cur.warp
  laneMapPost i (fun x => { t := x.t }) (fun t =>
    match gt with
    | l :: _ =>
      let src := wbits ((s.cx n l).src b) 0 5
      if gt.contains src then writeW t d (s.cx n src).pass ((s.cx n src).src a) else t
    | [] => t) s

/-- WMOV (R414). -/
def execWmov (k : Ctl) (d : Fin 32) (a b : Src) (s : State) : Out :=
  wmovOp (.wmov k d a b) d a b s

end Sys2Proof.Machine
end

