-- ==== Sys2Proof/Machine/Dispatch.lean ====
section
/-! DEFINITION. The dispatch: one arm for each constructor of `Instr`. -/

namespace Sys2Proof.Machine

def exec (i : Instr) (s : State) : Host.Outcome State Fault Refusal :=
  match i with
  | .iaddCompact st d a b => Sys2Proof.Machine.execIaddCompact st d a b s
  | .iaddLong k d a b ty sat => Sys2Proof.Machine.execIaddLong k d a b ty sat s
  | .iaddLiteral k d a lit ty sat => Sys2Proof.Machine.execIaddLiteral k d a lit ty sat s
  | .isubCompact st d a b => Sys2Proof.Machine.execIsubCompact st d a b s
  | .isubLong k d a b ty sat => Sys2Proof.Machine.execIsubLong k d a b ty sat s
  | .isubLiteral k d a lit ty sat => Sys2Proof.Machine.execIsubLiteral k d a lit ty sat s
  | .imulCompact st d a b => Sys2Proof.Machine.execImulCompact st d a b s
  | .imulLong k d a b ty sat => Sys2Proof.Machine.execImulLong k d a b ty sat s
  | .imulLiteral k d a lit ty sat => Sys2Proof.Machine.execImulLiteral k d a lit ty sat s
  | .imulhCompact st d a b => Sys2Proof.Machine.execImulhCompact st d a b s
  | .imulhLong k d a b ty => Sys2Proof.Machine.execImulhLong k d a b ty s
  | .imulhLiteral k d a lit ty => Sys2Proof.Machine.execImulhLiteral k d a lit ty s
  | .imadLong k d a b c ty sat => Sys2Proof.Machine.execImadLong k d a b c ty sat s
  | .imadLiteral k d a lit c ty sat => Sys2Proof.Machine.execImadLiteral k d a lit c ty sat s
  | .idivCompact st d a b => Sys2Proof.Machine.execIdivCompact st d a b s
  | .idivLong k d a b ty => Sys2Proof.Machine.execIdivLong k d a b ty s
  | .idivLiteral k d a lit ty => Sys2Proof.Machine.execIdivLiteral k d a lit ty s
  | .iremCompact st d a b => Sys2Proof.Machine.execIremCompact st d a b s
  | .iremLong k d a b ty => Sys2Proof.Machine.execIremLong k d a b ty s
  | .iremLiteral k d a lit ty => Sys2Proof.Machine.execIremLiteral k d a lit ty s
  | .iminCompact st d a b => Sys2Proof.Machine.execIminCompact st d a b s
  | .iminLong k d a b ty => Sys2Proof.Machine.execIminLong k d a b ty s
  | .iminLiteral k d a lit ty => Sys2Proof.Machine.execIminLiteral k d a lit ty s
  | .imaxCompact st d a b => Sys2Proof.Machine.execImaxCompact st d a b s
  | .imaxLong k d a b ty => Sys2Proof.Machine.execImaxLong k d a b ty s
  | .imaxLiteral k d a lit ty => Sys2Proof.Machine.execImaxLiteral k d a lit ty s
  | .iabs k d a ty sat => Sys2Proof.Machine.execIabs k d a ty sat s
  | .ineg k d a ty sat => Sys2Proof.Machine.execIneg k d a ty sat s
  | .iaddcLong k d a b ty qc => Sys2Proof.Machine.execIaddcLong k d a b ty qc s
  | .iaddcLiteral k d a lit ty qc => Sys2Proof.Machine.execIaddcLiteral k d a lit ty qc s
  | .isubbLong k d a b ty qc => Sys2Proof.Machine.execIsubbLong k d a b ty qc s
  | .isubbLiteral k d a lit ty qc => Sys2Proof.Machine.execIsubbLiteral k d a lit ty qc s
  | .idot4Long k d a b c ty sat => Sys2Proof.Machine.execIdot4Long k d a b c ty sat s
  | .idot4Literal k d a lit c ty sat => Sys2Proof.Machine.execIdot4Literal k d a lit c ty sat s
  | .andCompact st d a b => Sys2Proof.Machine.execAndCompact st d a b s
  | .andLong k d a b ty => Sys2Proof.Machine.execAndLong k d a b ty s
  | .andLiteral k d a lit ty => Sys2Proof.Machine.execAndLiteral k d a lit ty s
  | .orCompact st d a b => Sys2Proof.Machine.execOrCompact st d a b s
  | .orLong k d a b ty => Sys2Proof.Machine.execOrLong k d a b ty s
  | .orLiteral k d a lit ty => Sys2Proof.Machine.execOrLiteral k d a lit ty s
  | .xorCompact st d a b => Sys2Proof.Machine.execXorCompact st d a b s
  | .xorLong k d a b ty => Sys2Proof.Machine.execXorLong k d a b ty s
  | .xorLiteral k d a lit ty => Sys2Proof.Machine.execXorLiteral k d a lit ty s
  | .lop3Long k d a b c ty tbl => Sys2Proof.Machine.execLop3Long k d a b c ty tbl s
  | .lop3Literal k d a lit c ty tbl => Sys2Proof.Machine.execLop3Literal k d a lit c ty tbl s
  | .shlCompact st d a b => Sys2Proof.Machine.execShlCompact st d a b s
  | .shlLong k d a b ty => Sys2Proof.Machine.execShlLong k d a b ty s
  | .shlLiteral k d a lit ty => Sys2Proof.Machine.execShlLiteral k d a lit ty s
  | .shrCompact st d a b => Sys2Proof.Machine.execShrCompact st d a b s
  | .shrLong k d a b ty => Sys2Proof.Machine.execShrLong k d a b ty s
  | .shrLiteral k d a lit ty => Sys2Proof.Machine.execShrLiteral k d a lit ty s
  | .shraCompact st d a b => Sys2Proof.Machine.execShraCompact st d a b s
  | .shraLong k d a b ty => Sys2Proof.Machine.execShraLong k d a b ty s
  | .shraLiteral k d a lit ty => Sys2Proof.Machine.execShraLiteral k d a lit ty s
  | .rotCompact st d a b => Sys2Proof.Machine.execRotCompact st d a b s
  | .rotLong k d a b ty => Sys2Proof.Machine.execRotLong k d a b ty s
  | .rotLiteral k d a lit ty => Sys2Proof.Machine.execRotLiteral k d a lit ty s
  | .popc k d a ty => Sys2Proof.Machine.execPopc k d a ty s
  | .clz k d a ty => Sys2Proof.Machine.execClz k d a ty s
  | .ctz k d a ty => Sys2Proof.Machine.execCtz k d a ty s
  | .brev k d a ty => Sys2Proof.Machine.execBrev k d a ty s
  | .bfxLong k d a b ty => Sys2Proof.Machine.execBfxLong k d a b ty s
  | .bfxLiteral k d a lit ty => Sys2Proof.Machine.execBfxLiteral k d a lit ty s
  | .bfiLong k d a b c ty => Sys2Proof.Machine.execBfiLong k d a b c ty s
  | .bfiLiteral k d a lit c ty => Sys2Proof.Machine.execBfiLiteral k d a lit c ty s
  | .prmtLong k d a b c => Sys2Proof.Machine.execPrmtLong k d a b c s
  | .prmtLiteral k d a lit c => Sys2Proof.Machine.execPrmtLiteral k d a lit c s
  | .icmpLong k q a b ty cond form => Sys2Proof.Machine.execIcmpLong k q a b ty cond form s
  | .icmpLiteral k q a lit ty cond form => Sys2Proof.Machine.execIcmpLiteral k q a lit ty cond form s
  | .fcmpLong k q a b ty cond form => Sys2Proof.Machine.execFcmpLong k q a b ty cond form s
  | .fcmpLiteral k q a lit ty cond form => Sys2Proof.Machine.execFcmpLiteral k q a lit ty cond form s
  | .fclass k q a b ty form => Sys2Proof.Machine.execFclass k q a b ty form s
  | .selCompact st d a b => Sys2Proof.Machine.execSelCompact st d a b s
  | .selLong k d a b ty qs neg => Sys2Proof.Machine.execSelLong k d a b ty qs neg s
  | .selLiteral k d a lit ty qs neg => Sys2Proof.Machine.execSelLiteral k d a lit ty qs neg s
  | .plop k q qa qb op na nb => Sys2Proof.Machine.execPlop k q qa qb op na nb s
  | .ptog k d => Sys2Proof.Machine.execPtog k d s
  | .gtop k a mask => Sys2Proof.Machine.execGtop k a mask s
  | .movLong k d b ty => Sys2Proof.Machine.execMovLong k d b ty s
  | .movLiteral k d lit ty => Sys2Proof.Machine.execMovLiteral k d lit ty s
  | .movwLong k d b ty => Sys2Proof.Machine.execMovwLong k d b ty s
  | .movwLiteral k d lit ty => Sys2Proof.Machine.execMovwLiteral k d lit ty s
  | .wmov k d a b => Sys2Proof.Machine.execWmov k d a b s
  | .faddCompact st d a b => Sys2Proof.Machine.execFaddCompact st d a b s
  | .faddLong k d a b ty rnd => Sys2Proof.Machine.execFaddLong k d a b ty rnd s
  | .faddLiteral k d a lit ty rnd => Sys2Proof.Machine.execFaddLiteral k d a lit ty rnd s
  | .fsubCompact st d a b => Sys2Proof.Machine.execFsubCompact st d a b s
  | .fsubLong k d a b ty rnd => Sys2Proof.Machine.execFsubLong k d a b ty rnd s
  | .fsubLiteral k d a lit ty rnd => Sys2Proof.Machine.execFsubLiteral k d a lit ty rnd s
  | .fmulCompact st d a b => Sys2Proof.Machine.execFmulCompact st d a b s
  | .fmulLong k d a b ty rnd => Sys2Proof.Machine.execFmulLong k d a b ty rnd s
  | .fmulLiteral k d a lit ty rnd => Sys2Proof.Machine.execFmulLiteral k d a lit ty rnd s
  | .ffmaLong k d a b c ty rnd => Sys2Proof.Machine.execFfmaLong k d a b c ty rnd s
  | .ffmaLiteral k d a lit c ty rnd => Sys2Proof.Machine.execFfmaLiteral k d a lit c ty rnd s
  | .fminCompact st d a b => Sys2Proof.Machine.execFminCompact st d a b s
  | .fminLong k d a b ty nan => Sys2Proof.Machine.execFminLong k d a b ty nan s
  | .fminLiteral k d a lit ty nan => Sys2Proof.Machine.execFminLiteral k d a lit ty nan s
  | .fmaxCompact st d a b => Sys2Proof.Machine.execFmaxCompact st d a b s
  | .fmaxLong k d a b ty nan => Sys2Proof.Machine.execFmaxLong k d a b ty nan s
  | .fmaxLiteral k d a lit ty nan => Sys2Proof.Machine.execFmaxLiteral k d a lit ty nan s
  | .fabs k d a ty => Sys2Proof.Machine.execFabs k d a ty s
  | .fneg k d a ty => Sys2Proof.Machine.execFneg k d a ty s
  | .fdivCompact st d a b => Sys2Proof.Machine.execFdivCompact st d a b s
  | .fdivLong k d a b ty rnd => Sys2Proof.Machine.execFdivLong k d a b ty rnd s
  | .fdivLiteral k d a lit ty rnd => Sys2Proof.Machine.execFdivLiteral k d a lit ty rnd s
  | .fsqrt k d a ty rnd => Sys2Proof.Machine.execFsqrt k d a ty rnd s
  | .frcp k d a ty rnd => Sys2Proof.Machine.execFrcp k d a ty rnd s
  | .frsq k d a ty rnd => Sys2Proof.Machine.execFrsq k d a ty rnd s
  | .fsclLong k d a b ty rnd => Sys2Proof.Machine.execFsclLong k d a b ty rnd s
  | .fsclLiteral k d a lit ty rnd => Sys2Proof.Machine.execFsclLiteral k d a lit ty rnd s
  | .frnd k d a ty rnd => Sys2Proof.Machine.execFrnd k d a ty rnd s
  | .fdotLong k d a b c ty rnd => Sys2Proof.Machine.execFdotLong k d a b c ty rnd s
  | .fdotLiteral k d a lit c ty rnd => Sys2Proof.Machine.execFdotLiteral k d a lit c ty rnd s
  | .fsum k d a ty rnd => Sys2Proof.Machine.execFsum k d a ty rnd s
  | .fex2 k d a ty rnd => Sys2Proof.Machine.execFex2 k d a ty rnd s
  | .flg2 k d a ty rnd => Sys2Proof.Machine.execFlg2 k d a ty rnd s
  | .fsin k d a ty rnd => Sys2Proof.Machine.execFsin k d a ty rnd s
  | .fcos k d a ty rnd => Sys2Proof.Machine.execFcos k d a ty rnd s
  | .ftnh k d a ty rnd => Sys2Proof.Machine.execFtnh k d a ty rnd s
  | .cvt k d a ty ts rnd => Sys2Proof.Machine.execCvt k d a ty ts rnd s
  | .pack k d a b c ty ts rnd => Sys2Proof.Machine.execPack k d a b c ty ts rnd s
  | .unpk k d a b ty ts rnd => Sys2Proof.Machine.execUnpk k d a b ty ts rnd s
  | .qblk k d a b ty rnd => Sys2Proof.Machine.execQblk k d a b ty rnd s
  | .dqblk k d a b ty rnd => Sys2Proof.Machine.execDqblk k d a b ty rnd s
  | .rng k d a key ty => Sys2Proof.Machine.execRng k d a key ty s
  | .rngg k d a key ty => Sys2Proof.Machine.execRngg k d a key ty s
  | .shfl k d a b c ty qd => Sys2Proof.Machine.execShfl k d a b c ty qd s
  | .bcst k d a b => Sys2Proof.Machine.execBcst k d a b s
  | .vote k d q qs neg mode => Sys2Proof.Machine.execVote k d q qs neg mode s
  | .wred k d a b ty op rnd => Sys2Proof.Machine.execWred k d a b ty op rnd s
  | .wscan k d a b ty op excl rnd => Sys2Proof.Machine.execWscan k d a b ty op excl rnd s
  | .matchI k d a ty => Sys2Proof.Machine.execMatchI k d a ty s
  | .elect k d q => Sys2Proof.Machine.execElect k d q s
  | .braLong k imm => Sys2Proof.Machine.execBraLong k imm s
  | .braLiteral k lit => Sys2Proof.Machine.execBraLiteral k lit s
  | .brx k a => Sys2Proof.Machine.execBrx k a s
  | .callLong k d imm => Sys2Proof.Machine.execCallLong k d imm s
  | .callLiteral k d lit => Sys2Proof.Machine.execCallLiteral k d lit s
  | .callx k d a => Sys2Proof.Machine.execCallx k d a s
  | .ret k a => Sys2Proof.Machine.execRet k a s
  | .meetLong k m => Sys2Proof.Machine.execMeetLong k m s
  | .meetLiteral k lit => Sys2Proof.Machine.execMeetLiteral k lit s
  | .leaveLong k a imm => Sys2Proof.Machine.execLeaveLong k a imm s
  | .leaveLiteral k a lit => Sys2Proof.Machine.execLeaveLiteral k a lit s
  | .land k => Sys2Proof.Machine.execLand k s
  | .exit k => Sys2Proof.Machine.execExit k s
  | .trap k imm => Sys2Proof.Machine.execTrap k imm s
  | .nop k => Sys2Proof.Machine.execNop k s
  | .yield k => Sys2Proof.Machine.execYield k s
  | .sleep k a => Sys2Proof.Machine.execSleep k a s
  | .brkpt k => Sys2Proof.Machine.execBrkpt k s
  | .ld k d a imm ty => Sys2Proof.Machine.execLd k d a imm ty s
  | .st k d a imm ty => Sys2Proof.Machine.execSt k d a imm ty s
  | .pref k a imm ext l2 => Sys2Proof.Machine.execPref k a imm ext l2 s
  | .ldl k d a imm ty tag => Sys2Proof.Machine.execLdl k d a imm ty tag s
  | .stl k d a imm ty we => Sys2Proof.Machine.execStl k d a imm ty we s
  | .lds k d a imm ty tag die => Sys2Proof.Machine.execLds k d a imm ty tag die s
  | .sts k d a imm ty we die => Sys2Proof.Machine.execSts k d a imm ty we die s
  | .ldc k d a imm ty tag => Sys2Proof.Machine.execLdc k d a imm ty tag s
  | .stc k d a imm ty we => Sys2Proof.Machine.execStc k d a imm ty we s
  | .feset k a imm space => Sys2Proof.Machine.execFeset k a imm space s
  | .feclr k a imm space => Sys2Proof.Machine.execFeclr k a imm space s
  | .fetest k q a imm space => Sys2Proof.Machine.execFetest k q a imm space s
  | .lr k d a imm ty => Sys2Proof.Machine.execLr k d a imm ty s
  | .sc k d a imm ty qd => Sys2Proof.Machine.execSc k d a imm ty qd s
  | .atom k d a b op ty => Sys2Proof.Machine.execAtom k d a b op ty s
  | .cas k d a b c ty => Sys2Proof.Machine.execCas k d a b c ty s
  | .red k a b op ty => Sys2Proof.Machine.execRed k a b op ty s
  | .atoms k d a b op die ty => Sys2Proof.Machine.execAtoms k d a b op die ty s
  | .cass k d a b c die ty => Sys2Proof.Machine.execCass k d a b c die ty s
  | .reds k a b op die ty => Sys2Proof.Machine.execReds k a b op die ty s
  | .fence k order scope => Sys2Proof.Machine.execFence k order scope s
  | .waitc k cls n => Sys2Proof.Machine.execWaitc k cls n s
  | .rsb k => Sys2Proof.Machine.execRsb k s
  | .rse k => Sys2Proof.Machine.execRse k s
  | .gpwait k => Sys2Proof.Machine.execGpwait k s
  | .defer k q a b wt => Sys2Proof.Machine.execDefer k q a b wt s
  | .alloc k q d b wt => Sys2Proof.Machine.execAlloc k q d b wt s
  | .free k q a b => Sys2Proof.Machine.execFree k q a b s
  | .cpy k a imm => Sys2Proof.Machine.execCpy k a imm s
  | .cpyz k a imm => Sys2Proof.Machine.execCpyz k a imm s
  | .gath k a imm => Sys2Proof.Machine.execGath k a imm s
  | .scat k a imm => Sys2Proof.Machine.execScat k a imm s
  | .put k a imm => Sys2Proof.Machine.execPut k a imm s
  | .coll k a imm => Sys2Proof.Machine.execColl k a imm s
  | .bkop k a imm op ty => Sys2Proof.Machine.execBkop k a imm op ty s
  | .rowcp k a imm => Sys2Proof.Machine.execRowcp k a imm s
  | .rowz k a imm => Sys2Proof.Machine.execRowz k a imm s
  | .clean k a imm scope => Sys2Proof.Machine.execClean k a imm scope s
  | .inval k a imm scope => Sys2Proof.Machine.execInval k a imm scope s
  | .flush k a imm scope => Sys2Proof.Machine.execFlush k a imm scope s
  | .mxp k a imm => Sys2Proof.Machine.execMxp k a imm s
  | .wbld k a imm => Sys2Proof.Machine.execWbld k a imm s
  | .acz k a imm => Sys2Proof.Machine.execAcz k a imm s
  | .acld k a imm => Sys2Proof.Machine.execAcld k a imm s
  | .acdrn k a imm => Sys2Proof.Machine.execAcdrn k a imm s
  | .acchk k a imm => Sys2Proof.Machine.execAcchk k a imm s
  | .pin k q a imm t => Sys2Proof.Machine.execPin k q a imm t s
  | .unpin k a imm => Sys2Proof.Machine.execUnpin k a imm s
  | .hint k a imm t => Sys2Proof.Machine.execHint k a imm t s
  | .migr k q a imm t => Sys2Proof.Machine.execMigr k q a imm t s
  | .taff k a imm aff => Sys2Proof.Machine.execTaff k a imm aff s
  | .probe k d a imm => Sys2Proof.Machine.execProbe k d a imm s
  | .tlbi k m => Sys2Proof.Machine.execTlbi k m s
  | .tlbsync k => Sys2Proof.Machine.execTlbsync k s
  | .launch k q a => Sys2Proof.Machine.execLaunch k q a s
  | .cwait k q a b => Sys2Proof.Machine.execCwait k q a b s
  | .cancel k kind a => Sys2Proof.Machine.execCancel k kind a s
  | .reord k a b c => Sys2Proof.Machine.execReord k a b c s
  | .svc k imm => Sys2Proof.Machine.execSvc k imm s
  | .srd k d num => Sys2Proof.Machine.execSrd k d num s
  | .swr k num a => Sys2Proof.Machine.execSwr k num a s
  | .eret k sub => Sys2Proof.Machine.execEret k sub s
  | .hvc k imm => Sys2Proof.Machine.execHvc k imm s
  | .sec k imm => Sys2Proof.Machine.execSec k imm s
  | .coreStep core => Sys2Proof.Machine.execCoreStep core s
  | .stallExpiry warp lane => Sys2Proof.Machine.execStallExpiry warp lane s
  | .sleepExpiry warp lane => Sys2Proof.Machine.execSleepExpiry warp lane s
  | .waitTimeout warp lane => Sys2Proof.Machine.execWaitTimeout warp lane s
  | .resultLanding warp lane => Sys2Proof.Machine.execResultLanding warp lane s
  | .storeQueueDrain warp => Sys2Proof.Machine.execStoreQueueDrain warp s
  | .cacheEviction cache line => Sys2Proof.Machine.execCacheEviction cache line s
  | .lineInvalidation cache line => Sys2Proof.Machine.execLineInvalidation cache line s
  | .homeRequest req => Sys2Proof.Machine.execHomeRequest req s
  | .atomicAtHome warp => Sys2Proof.Machine.execAtomicAtHome warp s
  | .replicaUpdate warp => Sys2Proof.Machine.execReplicaUpdate warp s
  | .reservationLapse warp lane => Sys2Proof.Machine.execReservationLapse warp lane s
  | .interruptTake svc => Sys2Proof.Machine.execInterruptTake svc s
  | .timerInterruptPending svc => Sys2Proof.Machine.execTimerInterruptPending svc s
  | .ipisendWrite svc value => Sys2Proof.Machine.execIpisendWrite svc value s
  | .intpendClear svc value => Sys2Proof.Machine.execIntpendClear svc value s
  | .launchAccept tenant queue => Sys2Proof.Machine.execLaunchAccept tenant queue s
  | .launchReady launch => Sys2Proof.Machine.execLaunchReady launch s
  | .gangPlace launch cores => Sys2Proof.Machine.execGangPlace launch cores s
  | .blockSave block => Sys2Proof.Machine.execBlockSave block s
  | .blockResume gang cores => Sys2Proof.Machine.execBlockResume gang cores s
  | .warpRetire warp => Sys2Proof.Machine.execWarpRetire warp s
  | .blockRetire block => Sys2Proof.Machine.execBlockRetire block s
  | .launchFinish launch => Sys2Proof.Machine.execLaunchFinish launch s
  | .reorderIdleFlush launch die => Sys2Proof.Machine.execReorderIdleFlush launch die s
  | .postingWindowStore tenant off size value => Sys2Proof.Machine.execPostingWindowStore tenant off size value s
  | .postingFullCountRead tenant queue => Sys2Proof.Machine.execPostingFullCountRead tenant queue s
  | .tenantSuspend tenant => Sys2Proof.Machine.execTenantSuspend tenant s
  | .tenantResume tenant => Sys2Proof.Machine.execTenantResume tenant s
  | .tenantReset tenant => Sys2Proof.Machine.execTenantReset tenant s
  | .coreownWrite core value => Sys2Proof.Machine.execCoreownWrite core value s
  | .l2wayWrite tenant value => Sys2Proof.Machine.execL2wayWrite tenant value s
  | .placeTableWrite tenant off value => Sys2Proof.Machine.execPlaceTableWrite tenant off value s
  | .dscarveWrite tenant value => Sys2Proof.Machine.execDscarveWrite tenant value s
  | .serviceThreadStart svc => Sys2Proof.Machine.execServiceThreadStart svc s
  | .serviceThreadStop svc => Sys2Proof.Machine.execServiceThreadStop svc s
  | .poolEnable tenant pool => Sys2Proof.Machine.execPoolEnable tenant pool s
  | .poolDisable tenant pool => Sys2Proof.Machine.execPoolDisable tenant pool s
  | .perrRead tenant pool => Sys2Proof.Machine.execPerrRead tenant pool s
  | .guylineReport node => Sys2Proof.Machine.execGuylineReport node s
  | .gpseqAcknowledge node tenant => Sys2Proof.Machine.execGpseqAcknowledge node tenant s
  | .gracePeriodDone tenant => Sys2Proof.Machine.execGracePeriodDone tenant s
  | .backgroundGraceStart tenant => Sys2Proof.Machine.execBackgroundGraceStart tenant s
  | .deferredReturn tenant => Sys2Proof.Machine.execDeferredReturn tenant s
  | .mxOwnershipGrant cluster => Sys2Proof.Machine.execMxOwnershipGrant cluster s
  | .mxRequestBegin cluster req => Sys2Proof.Machine.execMxRequestBegin cluster req s
  | .mxPassGrant cluster => Sys2Proof.Machine.execMxPassGrant cluster s
  | .mxPassLanding cluster => Sys2Proof.Machine.execMxPassLanding cluster s
  | .wbldChunkLanding cluster req => Sys2Proof.Machine.execWbldChunkLanding cluster req s
  | .mxRequestComplete cluster req => Sys2Proof.Machine.execMxRequestComplete cluster req s
  | .copyCompletion eop => Sys2Proof.Machine.execCopyCompletion eop s
  | .gatherCompletion eop => Sys2Proof.Machine.execGatherCompletion eop s
  | .scatterCompletion eop => Sys2Proof.Machine.execScatterCompletion eop s
  | .bkopCompletion eop => Sys2Proof.Machine.execBkopCompletion eop s
  | .rowOpCompletion eop => Sys2Proof.Machine.execRowOpCompletion eop s
  | .cacheMaintCompletion eop => Sys2Proof.Machine.execCacheMaintCompletion eop s
  | .putLanding msg => Sys2Proof.Machine.execPutLanding msg s
  | .putAcknowledged eop => Sys2Proof.Machine.execPutAcknowledged eop s
  | .putRefused eop => Sys2Proof.Machine.execPutRefused eop s
  | .putResponseTimeout eop => Sys2Proof.Machine.execPutResponseTimeout eop s
  | .collArrival msg => Sys2Proof.Machine.execCollArrival msg s
  | .collAccepted eop => Sys2Proof.Machine.execCollAccepted eop s
  | .collResponseTimeout eop => Sys2Proof.Machine.execCollResponseTimeout eop s
  | .collApply slot => Sys2Proof.Machine.execCollApply slot s
  | .slotEnable slot value => Sys2Proof.Machine.execSlotEnable slot value s
  | .slotDisable slot => Sys2Proof.Machine.execSlotDisable slot s
  | .windowDisable window => Sys2Proof.Machine.execWindowDisable window s
  | .fabricRequestIn req => Sys2Proof.Machine.execFabricRequestIn req s
  | .fabricResponseTimeout warp lane => Sys2Proof.Machine.execFabricResponseTimeout warp lane s
  | .faultRecordResolve buf idx => Sys2Proof.Machine.execFaultRecordResolve buf idx s
  | .faultRecordAbandon buf idx => Sys2Proof.Machine.execFaultRecordAbandon buf idx s
  | .faultReplay buf => Sys2Proof.Machine.execFaultReplay buf s
  | .devdropRead => Sys2Proof.Machine.execDevdropRead s
  | .migrationSwitch entry => Sys2Proof.Machine.execMigrationSwitch entry s
  | .migrationRelease entry => Sys2Proof.Machine.execMigrationRelease entry s
  | .accessCounterDecay => Sys2Proof.Machine.execAccessCounterDecay s
  | .migdecayWrite value => Sys2Proof.Machine.execMigdecayWrite value s
  | .frfillPush ring value => Sys2Proof.Machine.execFrfillPush ring value s
  | .frretPop => Sys2Proof.Machine.execFrretPop s
  | .poolAcquire page count => Sys2Proof.Machine.execPoolAcquire page count s
  | .poolRelease page count => Sys2Proof.Machine.execPoolRelease page count s
  | .poolPublish page count => Sys2Proof.Machine.execPoolPublish page count s
  | .poolCommandDone => Sys2Proof.Machine.execPoolCommandDone s
  | .poolstatRead svc => Sys2Proof.Machine.execPoolstatRead svc s
  | .poolRevocation page => Sys2Proof.Machine.execPoolRevocation page s
  | .poolHeartbeat => Sys2Proof.Machine.execPoolHeartbeat s
  | .poolHeartbeatLapse => Sys2Proof.Machine.execPoolHeartbeatLapse s
  | .poolModuleLoss extent module => Sys2Proof.Machine.execPoolModuleLoss extent module s
  | .pairedSegmentCompare gang wid => Sys2Proof.Machine.execPairedSegmentCompare gang wid s
  | .pairedCompareTimeout gang wid => Sys2Proof.Machine.execPairedCompareTimeout gang wid s
  | .eccError err => Sys2Proof.Machine.execEccError err s
  | .gangRelaunch gang cores => Sys2Proof.Machine.execGangRelaunch gang cores s
  | .selfTest part runs => Sys2Proof.Machine.execSelfTest part runs s
  | .coldReset => Sys2Proof.Machine.execColdReset s
  | .warmReset => Sys2Proof.Machine.execWarmReset s
  | .bootStageVerify image => Sys2Proof.Machine.execBootStageVerify image s
  | .platformFaultAlarm cond => Sys2Proof.Machine.execPlatformFaultAlarm cond s
  | .protectiveShutdown => Sys2Proof.Machine.execProtectiveShutdown s
  | .tamperAlarm => Sys2Proof.Machine.execTamperAlarm s
  | .glitchTemperatureAlarm => Sys2Proof.Machine.execGlitchTemperatureAlarm s
  | .powerStateEntry => Sys2Proof.Machine.execPowerStateEntry s
  | .powerWake => Sys2Proof.Machine.execPowerWake s
  | .lanternDebugHold tenant => Sys2Proof.Machine.execLanternDebugHold tenant s
  | .lanternDebugRelease tenant => Sys2Proof.Machine.execLanternDebugRelease tenant s
  | .lanternFirmwareUpdate image => Sys2Proof.Machine.execLanternFirmwareUpdate image s
  | .lanternAttestation nonce => Sys2Proof.Machine.execLanternAttestation nonce s
  | .lanternMainReset authorised on => Sys2Proof.Machine.execLanternMainReset authorised on s
  | .lanternMonitorQuery query => Sys2Proof.Machine.execLanternMonitorQuery query s
  | .registerWrite level reg size value => Sys2Proof.Machine.execRegisterWrite level reg size value s
  | .platformInterruptSignal n => Sys2Proof.Machine.execPlatformInterruptSignal n s
  | .lanternProvisioning => Sys2Proof.Machine.execLanternProvisioning s
  | .poolEnablingFinished tenant pool => Sys2Proof.Machine.execPoolEnablingFinished tenant pool s
  | .exitLatencyElapsed => Sys2Proof.Machine.execExitLatencyElapsed s
  | .platformConditionRestored cond => Sys2Proof.Machine.execPlatformConditionRestored cond s
  | .poolModuleRebuild extent module => Sys2Proof.Machine.execPoolModuleRebuild extent module s

end Sys2Proof.Machine
end

