-- ==== Sys2Proof/Machine/Run.lean ====
section
/-! DEFINITION. What one step of the machine does: it fetches and runs a bundle of a core (R29, R49), runs one instruction of a
service thread (R44) with its interrupts (R236), or makes a device step of the agenda. -/

namespace Sys2Proof.Machine

/-! ## One bundle (R241, R268, R282) -/

/-- Whether an instruction is LAND. -/
def isLand : Instr → Bool
  | .land _ => true
  | _ => false

/-- The lanes of a mask that are still there. -/
def State.liveLanes (s : State) (n : Nat) (lanes : BitVec 32) : BitVec 32 :=
  maskOf ((mlanes lanes).filter fun l => !(s.thread n l).exited)

/-- The lanes of the bundle that are landing-pending (R241). -/
def State.landingLanes (s : State) : List Nat := s.lanes.filter fun l => (s.thread s.cur.warp l).landing

/-- The bundle's lanes issue in a page with LANDRQ = 0: their landing-pending bits are cleared (R241). -/
def State.clearLanding (s : State) : State :=
  s.landingLanes.foldl (fun s l => s.modThread s.cur.warp l fun t => { t with landing := false }) s

/-- Landing-pending lanes at something else than LAND in a page with LANDRQ = 1 raise cause 0x04; the others go on (R241). -/
def State.landingTrap (s : State) : State :=
  let ls := s.landingLanes
  let rest := maskOf (s.lanes.filter fun l => !ls.contains l)
  let s1 := s.raiseAll ls { cause := 4, addr := s.curPc }
  { s1 with cur := { s1.cur with lanes := s1.liveLanes s1.cur.warp rest } }

/-- A fetch that faults: every lane of the bundle waits behind it, or a service thread takes its entry (R190, R419). -/
def State.fetchFault (s : State) (va : Word) (x : XErr) : State :=
  s.lanes.foldl (fun s l =>
    let r := s.accessFault s.cur.warp l accFetch va x 0xFFFF
    match r.2 with
    | .wait w => r.1.modThread s.cur.warp l fun t => { t with wait := w }
    | _ => r.1) s

/-- Fetched bytes decoded and run; bytes that decode to nothing raise cause 0x01 with TADDR their words (R282). -/
def runBytes (bs : List Byte) (s : State) : Out :=
  if s.cur.lanes = 0 then .next s
  else match decode bs with
    | .error _ => .next (s.raiseAll s.lanes { cause := 1, addr := badWords bs })
    | .ok i => exec i s

/-- Whether fetched bytes are a LAND. -/
def landBytes (bs : List Byte) : Bool :=
  match decode bs with
  | .ok i => isLand i
  | .error _ => false

/-- The landing rule of a page applied before the instruction runs (R241). -/
def State.landRule (s : State) (landrq : Bool) (bs : List Byte) : State :=
  if landrq = false then s.clearLanding
  else if landBytes bs ∨ s.landingLanes = [] then s
  else s.landingTrap

/-- A BUNDLE RUNS: fetch, the landing rule, decode, the instruction. -/
def runBundle (b : Bundle) (s0 : State) : Out :=
  let s := { s0 with cur := { b with lanes := s0.liveLanes b.warp b.lanes } }
  if s.cur.lanes = 0 then .next s
  else
    let r := s.fetch s.curWarp s.curPc
    match r.2 with
    | .range pa => .fault (.physicalRange pa)
    | .cause c => .next (r.1.raiseAll r.1.lanes c)
    | .fault va x => .next (r.1.fetchFault va x)
    | .asleep => .next (r.1.bundleWait .power)
    | .unanswered va ipa => .next (r.1.bundleWait (.fabric r.1.now va ipa false false false))
    | .bytes bs landrq => runBytes bs (r.1.landRule landrq bs)

/-! ## Service threads (R44, R236) -/

/-- Whether a service thread has yielded its next turn: its last instruction carried STALL 7 (R54). Its core makes no steps, so
that STALL s leaves `stallUntil` at s + 1; STALL 0 to 6 have no effect. -/
def Thread.yields (t : Thread) : Bool := t.stallUntil == 8

/-- A service thread's turn: it passes when the thread has yielded it (R54); else a pending interrupt is taken, or its instruction
runs when it may issue; a cycle passes. -/
def runService (n : Nat) (s0 : State) : Out :=
  let s := { s0 with now := s0.now + 1 }.refreshTimer n
  let w := s.warp n
  if w.svc.running = false then .next s
  else if (s.thread n 0).yields then .next (s.modThread n 0 fun t => { t with stallUntil := 0 })
  else if (w.svc.nextInt).isSome then .next (s.takeInt n)
  else
    let s := s.modWarp n fun w => (w.rouse s.now).evaluate 0
    let t := s.thread n 0
    if s.eligible n 0 t.stallUntil t then runBundle { warp := n, lanes := 1, slot := 1 } s else .next s

/-- The next running service thread after one, in turn. -/
def State.nextService (s : State) (n : Nat) : Act :=
  match ((List.range 256).map fun i => (n + 1 + i) % 256).find? fun k => (s.warp k).svc.running with
  | some k => .service k
  | none => .idle

/-! ## The next step -/

/-- Whether an instruction is a step of the device, which no word encodes. -/
def isEvent (i : Instr) : Bool := (toRaw i).isNone

/-- One act: nothing but the passing of a cycle, a service thread's turn, or a device step. -/
def runAct (a : Act) (s : State) : Out :=
  match a with
  | .idle => .next { s with now := s.now + 1 }
  | .service n => if s.power.shutdown ∨ 256 ≤ n then .next { s with now := s.now + 1 } else runService n s
  | .event i => if isEvent i then exec i s else .next s

/-- What moves when nothing is selected and nothing is on the agenda: `home`, which passes from service thread to service
thread; from idle to the first that runs. -/
def runHome (s : State) : Out :=
  match s.home with
  | .service n =>
    match runAct (.service n) s with
    | .next s1 => .next (if s1.home = .service n then { s1 with home := s1.nextService n } else s1)
    | x => x
  | .idle => runAct .idle { s with home := s.nextService 255 }
  | .event i => runAct (.event i) s

/-- ONE STEP: the bundles that the last vote selected run first; then the agenda in its order; then `home`. -/
def State.tick (s : State) : Out :=
  match s.issue with
  | b :: r => if s.power.shutdown then .next { s with issue := [] } else runBundle b { s with issue := r }
  | [] => match s.agenda with
    | a :: r => runAct a { s with agenda := r }
    | [] => runHome s

/-! ## An instruction laid where the next step fetches it -/

/-- Where `withFetchWord` lays an instruction when nothing else says where. -/
def placeAddr : Nat := 0x1000

/-- Service thread 0 running at monitor level at an address, its instruction free to issue. -/
def Warp.atMonitor (w : Warp) (pc : Word) : Warp :=
  { w with
    threads := [{ pc := pc, exited := false }]
    svc := { w.svc with running := true, level := .monitor, intpend := 0, timecmp := 0 } }

/-- The bytes of an instruction stored at an address, nothing cached over them. -/
def State.layBytes (s : State) (pa : Nat) (bs : List Byte) : State :=
  { s with mem := memSetAll s.mem (placed pa bs), l2 := [], l1 := [], fwds := [], poison := [], power := {} }.dropIcache 1024

/-- The boot chain done, service thread 0 at monitor level at an instruction: the next step fetches and runs it. -/
def State.laid (s : State) (bs : List Byte) : State :=
  { (s.layBytes placeAddr bs).modWarp 0 fun w => w.atMonitor (BitVec.ofNat 64 placeAddr) with
    agenda := [], issue := [], home := .service 0, sec := { s.sec with stage := 4, failed := none } }

end Sys2Proof.Machine
end

