-- ==== Sys2Proof/Machine/Step.lean ====
section
/-! DEFINITION. The step of the machine, and an instruction laid where the next step fetches it. -/

namespace Sys2Proof.Machine

/-- The step: see `State.tick`. -/
def step (s : State) : Host.Outcome State Fault Refusal := s.tick

/-- The state in which the next step fetches and runs the instruction whose bits are w, numbered as the opcode table numbers
them; the bits from nbits on, up to the longest instruction of three words, are 0. -/
def State.withFetchWord (s : State) (nbits w : Nat) : State := s.laid (leBytes 12 (w % 2 ^ nbits))

end Sys2Proof.Machine
end

