-- ==== Sys2Proof/Safety.lean ====
section
/-! DEFINITION. What a safe run is, and the terms in which statements speak of what an instruction does: what it leaves alone,
what it writes in each thread of its bundle, and when. -/

namespace Sys2Proof.Machine

/-! ## Runs -/

/-- The states that a run from s reaches. -/
inductive Reach (s : State) : State → Prop where
  | here : Reach s s
  | more {t u : State} : Reach s t → step t = .next u → Reach s u

/-- A state from which the machine goes on. -/
def Goes (s : State) : Prop := ∃ t, step s = .next t

/-- A SAFE RUN: from every state that it reaches the machine goes on; none of its accesses leaves the physical ranges of R183. -/
def SafeFrom (s : State) : Prop := ∀ t, Reach s t → Goes t

/-- A property that a step keeps. -/
def Kept (p : State → Prop) : Prop := ∀ s t, p s → step s = .next t → p t

/-- Memory is in its canonical form. -/
def State.memOk (s : State) : Prop := Memory.wf s.mem = true

/-! ## What an instruction leaves alone -/

/-- One byte of memory as the agents outside the cores see it: the L2s, the migration engine and the memory behind them. -/
def State.byteAt (s : State) (a : Nat) : Byte := s.cohByte a

/-- Every byte of memory, and every copy of one in a core's L1, reads as before. -/
def SameMemory (s t : State) : Prop := (∀ a, t.byteAt a = s.byteAt a) ∧ t.l1 = s.l1

/-- The thread with the fields blanked that issuing an instruction changes in every case: the PC, the age, the wait and the
stall count. -/
def Thread.bare (t : Thread) : Thread :=
  { t with pc := 0, age := 0, wait := .none, deadline := none, applied := 0, graceG := none, stallUntil := 0, count := 0 }

/-- A thread has issued an instruction of n bytes' length or a jump: it stands at a PC, its age is 0, it waits for nothing, and
it may issue again from the step after STALL more (R51, R54). -/
def IssuedTo (i : Instr) (s : State) (pc : Word) (u : Thread) : Prop :=
  u.pc = pc ∧ u.age = 0 ∧ u.wait = .none ∧ u.stallUntil = (s.core s.curWarp.core).step + (ctlOf i).stall.val + 1

/-- What a guard-false thread does: its PC advances, and nothing else of it changes (R273). -/
def OnlyAdvances (i : Instr) (s : State) (old u : Thread) : Prop :=
  IssuedTo i s (nextPc i old) u ∧ u.bare = old.bare

/-- NOTHING BUT THE BUNDLE'S THREADS CHANGES: memory, the caches, the other warps, the warp's registers and system registers,
every other agent, and the warp's threads outside the bundle are as before. With STALL 7 a compute warp takes a new residency
number (R54), and its core's next number rises. -/
structure OnlyBundle (i : Instr) (s t : State) : Prop where
  rest : t = { s with warps := t.warps, cores := t.cores }
  memory : SameMemory s t
  others : ∀ n, n ≠ s.cur.warp → t.warp n = s.warp n
  warp : { t.curWarp with threads := [], residency := 0 } = { s.curWarp with threads := [], residency := 0 }
  size : t.curWarp.threads.length = s.curWarp.threads.length
  cores : ∀ c, { t.core c with nextResidency := 0 } = { s.core c with nextResidency := 0 }
  young : (ctlOf i).stall.val ≠ 7 ∨ s.curWarp.service = true →
    t.curWarp.residency = s.curWarp.residency ∧ t.cores = s.cores
  outside : ∀ l, mbit s.cur.lanes l = false → t.thread s.cur.warp l = s.thread s.cur.warp l

/-! ## What an instruction does in each thread of its bundle -/

/-- THE INSTRUCTION ISSUES AND COMPLETES IN EVERY THREAD OF ITS BUNDLE: `exec` answers a next state that differs in the bundle's
threads alone; a guard-false thread only advances, and P holds of what a guard-true thread saw and became. -/
def InEachThread (i : Instr) (s : State) (P : LaneCx → Thread → Prop) : Prop :=
  ∃ t, exec i s = .next t ∧ OnlyBundle i s t ∧
    ∀ l, mbit s.cur.lanes l = true → l < s.curWarp.threads.length →
      if (s.cx s.cur.warp l).guard (ctlOf i) = true then P (s.cx s.cur.warp l) (t.thread s.cur.warp l)
      else OnlyAdvances i s (s.thread s.cur.warp l) (t.thread s.cur.warp l)

/-- What a register reads as at a cycle (R58). -/
def Thread.reads (t : Thread) (r : RegRef) (cycle : Nat) : Word := visible t.early r (t.cur r) cycle

/-- The thread with its registers, predicates and what is still landing blanked too. -/
def Thread.noRegs (t : Thread) : Thread := { t.bare with regs := [], preds := 0, early := [], pend := [] }

/-- A thread's register r takes the value v, with latency L, and no other register or predicate changes: not in its latest value,
and not in what it reads as at any cycle from now on. `none` is a destination that discards (`zero`, q7). The value is what the
register reads as once L cycles and every older write of it have passed (R55); on a service core at once (R54). -/
def Writes (x : LaneCx) (u : Thread) (L : Nat) (r : Option RegRef) (v : Word) : Prop :=
  (∀ k, some k ≠ r → u.cur k = x.t.cur k ∧ ∀ c, x.now ≤ c → u.reads k c = x.t.reads k c) ∧
  match r with
  | none => True
  | some k => u.cur k = v ∧
      ∀ c, (∀ e ∈ x.t.early, e.reg = k → e.due ≤ c) → (x.w.service = true ∨ x.now + L ≤ c) → u.reads k c = v

/-- The register a general destination names; `zero` discards (R256). -/
def dstReg : Dst → Option RegRef
  | .g n => some (.g n.val)
  | .zero => none

/-- The register a predicate destination names; q7 discards (R255). -/
def predReg (q : Pred) : Option RegRef := if q.val = 7 then none else some (.q q.val)

/-- A predicate's value as a register holds it. -/
def boolWord (b : Bool) : Word := if b then 1 else 0

/-- AN INSTRUCTION OF ONE RESULT: in each guard-true thread the destination takes the value and everything else of the thread is as
before, but that it has issued. -/
def GivesResult (i : Instr) (s : State) (L : Nat) (d : Option RegRef) (v : LaneCx → Word) : Prop :=
  InEachThread i s fun x u => IssuedTo i s (nextPc i x.t) u ∧ u.noRegs = x.t.noRegs ∧ Writes x u L d (v x)

/-- AN INSTRUCTION THAT MOVES ITS THREADS: each guard-true thread goes to a PC, and P says what else it writes. -/
def Moves (i : Instr) (s : State) (pc : LaneCx → Word) (P : LaneCx → Thread → Prop) : Prop :=
  InEachThread i s fun x u => IssuedTo i s (pc x) u ∧ P x u

end Sys2Proof.Machine
end

