-- ==== Sys2Proof/Certificates/Slice0/Obligations.lean ====
section
/-! DEFINITION. The statements for the provers, with the tables and shapes that several of them share. -/

section Claims

open Sys2Proof Sys2Proof.Machine

/-! ## Shared shapes -/

/-- The checks of R282 that depend on the words, N, the core class and the level pass in every thread of the bundle, the bundle is
whole where it must be (R37), and no thread is short of stall counts under the checking scoreboard (R59). -/
def Sys2Proof.Machine.Issues (i : Instr) (s : State) : Prop := issueInstead i s = none

namespace Sys2Proof.Claims

/-- An operand of an instruction, as a thread reads it. -/
abbrev Operand := LaneCx → Word

/-- A source register as an operand. -/
def src (a : Src) : Operand := fun x => x.src a
/-- A register of the compact form as an operand. -/
def g (a : Fin 64) : Operand := fun x => x.g a.val
/-- Operand B of the 64-bit form. -/
def opb (ty : Ty) (b : OpB) : Operand := fun x => x.opB ty b
/-- Operand B of the 96-bit form. -/
def lit (ty : Ty) (v : BitVec 32) : Operand := fun _ => litWord ty v
/-- No operand. -/
def none0 : Operand := fun _ => 0

/-- AN INSTRUCTION THAT WRITES EACH SUB-ELEMENT OF ONE REGISTER: it completes, and sub-element j of the result is as R says. -/
def Elementwise (i : Instr) (s : State) (L : Nat) (d : Dst) (ty : Ty) (R : LaneCx → Nat → Nat → Prop) : Prop :=
  ∃ v : LaneCx → Word, GivesResult i s L (dstReg d) v ∧ ∀ x j, j < tyCount ty → R x j (elem (v x) j ty)

/-- AN INSTRUCTION THAT WRITES EACH BIT OF ONE REGISTER. -/
def Bitwise (i : Instr) (s : State) (L : Nat) (d : Dst) (R : LaneCx → Nat → Bool) : Prop :=
  ∃ v : LaneCx → Word, GivesResult i s L (dstReg d) v ∧ ∀ x j, j < 64 → (v x).getLsbD j = R x j

/-! ## Integers (R359) -/

/-- The least and the greatest value of an integer type. -/
def least (t : Ty) : Int := if tySigned t then -(2 ^ (tyWidth t - 1)) else 0
def greatest (t : Ty) : Int := if tySigned t then 2 ^ (tyWidth t - 1) - 1 else 2 ^ tyWidth t - 1

/-- The pattern that an exact value leaves in a sub-element: modulo 2^w, or clamped under `.sat` (R359). -/
def fits (t : Ty) (sat : Bool) (x : Int) : Nat :=
  (BitVec.ofInt (tyWidth t) (if sat then min (max x (least t)) (greatest t) else x)).toNat

/-- One row of R359: the latency, the type, `.sat`, the operands, and the exact value from width and operands. -/
structure IntForm where
  L : Nat
  ty : Ty
  sat : Bool
  d : Dst
  a : Operand
  b : Operand
  c : Operand
  exact : Nat → Int → Int → Int → Int

/-- The exact values of R359. -/
def sum (_ : Nat) (a b _ : Int) : Int := a + b
def difference (_ : Nat) (a b _ : Int) : Int := a - b
def product (_ : Nat) (a b _ : Int) : Int := a * b
def highHalf (w : Nat) (a b _ : Int) : Int := (a * b).fdiv (2 ^ w)
def productSum (_ : Nat) (a b c : Int) : Int := a * b + c
def quotient (w : Nat) (a b _ : Int) : Int := if b = 0 then 2 ^ w - 1 else a.tdiv b
def remainder (_ : Nat) (a b _ : Int) : Int := if b = 0 then a else a - b * a.tdiv b
def lesser (_ : Nat) (a b _ : Int) : Int := min a b
def greater (_ : Nat) (a b _ : Int) : Int := max a b
def magnitude (_ : Nat) (a _ _ : Int) : Int := |a|
def opposite (_ : Nat) (a _ _ : Int) : Int := -a

/-- The rows of R359 and the latencies of R55; IDIV and IREM land variably (the model's 24 cycles are its choice, log 15). -/
def intForm : Instr → Option IntForm
  | .iaddCompact _ d a b => some ⟨4, .s64, false, g6 d, g a, g b, none0, sum⟩
  | .iaddLong _ d a b ty sat => some ⟨4, ty, sat, d, src a, opb ty b, none0, sum⟩
  | .iaddLiteral _ d a v ty sat => some ⟨4, ty, sat, d, src a, lit ty v, none0, sum⟩
  | .isubCompact _ d a b => some ⟨4, .s64, false, g6 d, g a, g b, none0, difference⟩
  | .isubLong _ d a b ty sat => some ⟨4, ty, sat, d, src a, opb ty b, none0, difference⟩
  | .isubLiteral _ d a v ty sat => some ⟨4, ty, sat, d, src a, lit ty v, none0, difference⟩
  | .imulCompact _ d a b => some ⟨8, .s64, false, g6 d, g a, g b, none0, product⟩
  | .imulLong _ d a b ty sat => some ⟨8, ty, sat, d, src a, opb ty b, none0, product⟩
  | .imulLiteral _ d a v ty sat => some ⟨8, ty, sat, d, src a, lit ty v, none0, product⟩
  | .imulhCompact _ d a b => some ⟨8, .s64, false, g6 d, g a, g b, none0, highHalf⟩
  | .imulhLong _ d a b ty => some ⟨8, ty, false, d, src a, opb ty b, none0, highHalf⟩
  | .imulhLiteral _ d a v ty => some ⟨8, ty, false, d, src a, lit ty v, none0, highHalf⟩
  | .imadLong _ d a b c ty sat => some ⟨8, ty, sat, d, src a, src b, src c, productSum⟩
  | .imadLiteral _ d a v c ty sat => some ⟨8, ty, sat, d, src a, lit ty v, src c, productSum⟩
  | .idivCompact _ d a b => some ⟨24, .s64, false, g6 d, g a, g b, none0, quotient⟩
  | .idivLong _ d a b ty => some ⟨24, ty, false, d, src a, opb ty b, none0, quotient⟩
  | .idivLiteral _ d a v ty => some ⟨24, ty, false, d, src a, lit ty v, none0, quotient⟩
  | .iremCompact _ d a b => some ⟨24, .s64, false, g6 d, g a, g b, none0, remainder⟩
  | .iremLong _ d a b ty => some ⟨24, ty, false, d, src a, opb ty b, none0, remainder⟩
  | .iremLiteral _ d a v ty => some ⟨24, ty, false, d, src a, lit ty v, none0, remainder⟩
  | .iminCompact _ d a b => some ⟨4, .s64, false, g6 d, g a, g b, none0, lesser⟩
  | .iminLong _ d a b ty => some ⟨4, ty, false, d, src a, opb ty b, none0, lesser⟩
  | .iminLiteral _ d a v ty => some ⟨4, ty, false, d, src a, lit ty v, none0, lesser⟩
  | .imaxCompact _ d a b => some ⟨4, .s64, false, g6 d, g a, g b, none0, greater⟩
  | .imaxLong _ d a b ty => some ⟨4, ty, false, d, src a, opb ty b, none0, greater⟩
  | .imaxLiteral _ d a v ty => some ⟨4, ty, false, d, src a, lit ty v, none0, greater⟩
  | .iabs _ d a ty sat => some ⟨4, ty, sat, d, src a, none0, none0, magnitude⟩
  | .ineg _ d a ty sat => some ⟨4, ty, sat, d, src a, none0, none0, opposite⟩
  | _ => none

end Sys2Proof.Claims

open Sys2Proof.Claims

/-- R359: every sub-element of the result is the exact value modulo 2^w, or clamped under `.sat`; the instruction completes and
changes no other register, predicate, flag, warp or byte of memory. -/
def Obligations.IntegerResults : Prop :=
  ∀ (i : Instr) (f : IntForm) (s : State), intForm i = some f → i.wf = true → Issues i s →
    Elementwise i s f.L f.d f.ty fun x j r =>
      r = fits f.ty f.sat (f.exact (tyWidth f.ty) (elemInt (f.a x) j f.ty) (elemInt (f.b x) j f.ty) (elemInt (f.c x) j f.ty))

namespace Sys2Proof.Claims

/-- The IADDC and ISUBB forms: whether it subtracts, destination, carry predicate, operands. -/
def carryForm : Instr → Option (Bool × Dst × Pred × Operand × Operand)
  | .iaddcLong _ d a b ty qc => some (false, d, qc, src a, opb ty b)
  | .iaddcLiteral _ d a v ty qc => some (false, d, qc, src a, lit ty v)
  | .isubbLong _ d a b ty qc => some (true, d, qc, src a, opb ty b)
  | .isubbLiteral _ d a v ty qc => some (true, d, qc, src a, lit ty v)
  | _ => none

/-- The IDOT4 forms: destination, type, `.sat`, operands. -/
def dotForm : Instr → Option (Dst × Ty × Bool × Operand × Operand × Operand)
  | .idot4Long _ d a b c ty sat => some (d, ty, sat, src a, src b, src c)
  | .idot4Literal _ d a v c ty sat => some (d, ty, sat, src a, lit ty v, src c)
  | _ => none

end Sys2Proof.Claims

/-- R361: gD is a + b + c or a − b − c modulo 2^64 with the carry in c from qc, and qc becomes the carry out or the borrow; the
two are written together, and nothing else of the thread changes. A qc of q7 reads true and discards. -/
def Sys2Proof.Claims.CarryChain : Prop :=
  ∀ (i : Instr) (sub : Bool) (d : Dst) (qc : Pred) (a b : Operand) (s : State),
    carryForm i = some (sub, d, qc, a, b) → i.wf = true → Issues i s →
    InEachThread i s fun x u =>
      let c : Nat := if x.q qc then 1 else 0
      let v : Word := if sub then a x - b x - BitVec.ofNat 64 c else a x + b x + BitVec.ofNat 64 c
      let out : Bool := if sub then decide ((a x).toNat < (b x).toNat + c) else decide (2 ^ 64 ≤ (a x).toNat + (b x).toNat + c)
      IssuedTo i s (nextPc i x.t) u ∧ u.noRegs = x.t.noRegs ∧
      (∀ k, some k ≠ dstReg d → some k ≠ predReg qc → u.cur k = x.t.cur k) ∧
      (∀ k, dstReg d = some k → u.cur k = v) ∧ (∀ k, predReg qc = some k → u.cur k = boolWord out)

/-- R360: sub-element j of IDOT4's result is c_j plus the four products of 8-bit sub-elements, modulo 2^32 or clamped. -/
def Sys2Proof.Claims.DotProducts : Prop :=
  ∀ (i : Instr) (d : Dst) (ty : Ty) (sat : Bool) (a b c : Operand) (s : State),
    dotForm i = some (d, ty, sat, a, b, c) → i.wf = true → Issues i s →
    let ct : Ty := if ty = .s8 then .s32 else .n32
    Elementwise i s 8 d ct fun x j r =>
      let p (k : Nat) : Int := elemInt (a x) (4 * j + k) ty * elemInt (b x) (4 * j + k) ty
      r = fits ct sat (elemInt (c x) j ct + (p 0 + p 1 + p 2 + p 3))

/-- R361, R360: carry and borrow chains, and dot products. -/
def Obligations.CarriesAndDots : Prop := CarryChain ∧ DotProducts

/-! ## Logic, shifts, fields (class 1) -/

namespace Sys2Proof.Claims

/-- The bitwise instructions: destination, operands, and the bit of the result from the three bits. -/
def bitForm : Instr → Option (Dst × Operand × Operand × Operand × (Bool → Bool → Bool → Bool))
  | .andCompact _ d a b => some (g6 d, g a, g b, none0, fun p q _ => p && q)
  | .andLong _ d a b ty => some (d, src a, opb ty b, none0, fun p q _ => p && q)
  | .andLiteral _ d a v ty => some (d, src a, lit ty v, none0, fun p q _ => p && q)
  | .orCompact _ d a b => some (g6 d, g a, g b, none0, fun p q _ => p || q)
  | .orLong _ d a b ty => some (d, src a, opb ty b, none0, fun p q _ => p || q)
  | .orLiteral _ d a v ty => some (d, src a, lit ty v, none0, fun p q _ => p || q)
  | .xorCompact _ d a b => some (g6 d, g a, g b, none0, fun p q _ => p != q)
  | .xorLong _ d a b ty => some (d, src a, opb ty b, none0, fun p q _ => p != q)
  | .xorLiteral _ d a v ty => some (d, src a, lit ty v, none0, fun p q _ => p != q)
  | .lop3Long _ d a b c _ tbl => some (d, src a, src b, src c, fun p q r => tbl.val.testBit (p.toNat + 2 * q.toNat + 4 * r.toNat))
  | .lop3Literal _ d a v c ty tbl =>
    some (d, src a, lit ty v, src c, fun p q r => tbl.val.testBit (p.toNat + 2 * q.toNat + 4 * r.toNat))
  | _ => none

/-- Which shift of R393. -/
inductive Shift where
  | left | right | arithmetic | rotate

/-- One sub-element of a shift (R393), on patterns of w bits. -/
def Shift.apply (o : Shift) (w a c : Nat) : Nat :=
  match o with
  | .left => if w ≤ c then 0 else (BitVec.ofNat w a <<< c).toNat
  | .right => if w ≤ c then 0 else (BitVec.ofNat w a >>> c).toNat
  | .arithmetic => ((BitVec.ofNat w a).sshiftRight (min c (w - 1))).toNat
  | .rotate => ((BitVec.ofNat w a).rotateLeft c).toNat

/-- The shift forms: operation, type, destination, operands. -/
def shiftForm : Instr → Option (Shift × Ty × Dst × Operand × Operand)
  | .shlCompact _ d a b => some (.left, .b64, g6 d, g a, g b)
  | .shlLong _ d a b ty => some (.left, ty, d, src a, opb ty b)
  | .shlLiteral _ d a v ty => some (.left, ty, d, src a, lit ty v)
  | .shrCompact _ d a b => some (.right, .b64, g6 d, g a, g b)
  | .shrLong _ d a b ty => some (.right, ty, d, src a, opb ty b)
  | .shrLiteral _ d a v ty => some (.right, ty, d, src a, lit ty v)
  | .shraCompact _ d a b => some (.arithmetic, .b64, g6 d, g a, g b)
  | .shraLong _ d a b ty => some (.arithmetic, ty, d, src a, opb ty b)
  | .shraLiteral _ d a v ty => some (.arithmetic, ty, d, src a, lit ty v)
  | .rotCompact _ d a b => some (.rotate, .b64, g6 d, g a, g b)
  | .rotLong _ d a b ty => some (.rotate, ty, d, src a, opb ty b)
  | .rotLiteral _ d a v ty => some (.rotate, ty, d, src a, lit ty v)
  | _ => none

/-- The one-operand and field instructions: destination, type, operands, and what R310, R380 and R306 say of the result r of a
sub-element from its patterns a, b, c. -/
def countForm : Instr → Option (Dst × Ty × Operand × Operand × Operand × (Nat → Nat → Nat → Nat → Nat → Prop))
  | .popc _ d a ty => some (d, ty, src a, none0, none0, fun w a _ _ r => r = (List.range w).countP a.testBit)
  | .clz _ d a ty => some (d, ty, src a, none0, none0, fun w a _ _ r =>
      r ≤ w ∧ (∀ k, w - r ≤ k → k < w → a.testBit k = false) ∧ (r < w → a.testBit (w - 1 - r) = true))
  | .ctz _ d a ty => some (d, ty, src a, none0, none0, fun w a _ _ r =>
      r ≤ w ∧ (∀ k, k < r → a.testBit k = false) ∧ (r < w → a.testBit r = true))
  | .brev _ d a ty => some (d, ty, src a, none0, none0, fun w a _ _ r => ∀ k, k < w → r.testBit k = a.testBit (w - 1 - k))
  | .bfxLong _ d a b ty => some (d, ty, src a, opb ty b, none0, fun w a c _ r => extracted ty w a c r)
  | .bfxLiteral _ d a v ty => some (d, ty, src a, lit ty v, none0, fun w a c _ r => extracted ty w a c r)
  | .bfiLong _ d a b c ty => some (d, ty, src a, src b, src c, fun w a b c r => inserted w a b c r)
  | .bfiLiteral _ d a v c ty => some (d, ty, src a, lit ty v, src c, fun w a b c r => inserted w a b c r)
  | _ => none
where
  /-- Position and length from a control of w bits (R306). -/
  pos (w c : Nat) : Nat := if w = 8 then c % 16 else c % 256
  len (w c : Nat) : Nat := if w = 8 then c / 16 % 16 else c / 256 % 256
  /-- BFX: bit k of the result is bit pos + k of a within the field, above it the field's top bit for a signed type, else 0; an
  empty field or one that starts past the sub-element gives 0. -/
  extracted (ty : Ty) (w a c r : Nat) : Prop :=
    let m := min (len w c) (w - pos w c)
    ∀ k, k < w → r.testBit k =
      if m = 0 then false else if k < m then a.testBit (pos w c + k) else tySigned ty && a.testBit (pos w c + m - 1)
  /-- BFI: the bits of the field are a's low bits, the others b's. -/
  inserted (w a b c r : Nat) : Prop :=
    ∀ k, k < w → r.testBit k =
      if pos w c ≤ k ∧ k < pos w c + len w c then a.testBit (k - pos w c) else b.testBit k

/-- The PRMT forms. -/
def prmtForm : Instr → Option (Dst × Operand × Operand × Operand)
  | .prmtLong _ d a b c => some (d, src a, src b, src c)
  | .prmtLiteral _ d a v c => some (d, src a, fun _ => v.signExtend 64, src c)
  | _ => none

end Sys2Proof.Claims

/-- R298, R378, R417, R371: AND, OR, XOR and LOP3 act bit by bit over all 64 bits, LOP3 by its table with gA as the index's least
bit; latency 4, nothing else changes. -/
def Sys2Proof.Claims.BitwiseResults : Prop :=
  ∀ (i : Instr) (d : Dst) (a b c : Operand) (f : Bool → Bool → Bool → Bool) (s : State),
    bitForm i = some (d, a, b, c, f) → i.wf = true → Issues i s →
    Bitwise i s 4 d fun x j => f ((a x).getLsbD j) ((b x).getLsbD j) ((c x).getLsbD j)

/-- R393: SHL, SHR, SHRA and ROT on every sub-element, with counts at and above the width as the rule gives them. -/
def Sys2Proof.Claims.ShiftResults : Prop :=
  ∀ (i : Instr) (o : Shift) (ty : Ty) (d : Dst) (a b : Operand) (s : State),
    shiftForm i = some (o, ty, d, a, b) → i.wf = true → Issues i s →
    Elementwise i s 4 d ty fun x j r => r = o.apply (tyWidth ty) (elem (a x) j ty) (elem (b x) j ty)

/-- Bitwise operations and shifts, bit for bit. -/
def Obligations.BitwiseAndShifts : Prop := BitwiseResults ∧ ShiftResults

/-- R310, R380, R306: POPC, CLZ, CTZ, BREV, BFX and BFI on every sub-element. -/
def Sys2Proof.Claims.FieldResults : Prop :=
  ∀ (i : Instr) (d : Dst) (ty : Ty) (a b c : Operand) (R : Nat → Nat → Nat → Nat → Nat → Prop) (s : State),
    countForm i = some (d, ty, a, b, c, R) → i.wf = true → Issues i s →
    Elementwise i s 4 d ty fun x j r => R (tyWidth ty) (elem (a x) j ty) (elem (b x) j ty) (elem (c x) j ty) r

/-- R382: byte i of PRMT's result is the source byte that the control byte selects, zeroed and then inverted as it says. -/
def Sys2Proof.Claims.BytePermutes : Prop :=
  ∀ (i : Instr) (d : Dst) (a b c : Operand) (s : State), prmtForm i = some (d, a, b, c) → i.wf = true → Issues i s →
    Bitwise i s 4 d fun x j =>
      let ctl (k : Nat) : Bool := (c x).getLsbD (8 * (j / 8) + k)
      let sel := 8 * ((ctl 0).toNat + 2 * (ctl 1).toNat + 4 * (ctl 2).toNat + 8 * (ctl 3).toNat) + j % 8
      let bit := if ctl 7 then false else if sel < 64 then (a x).getLsbD sel else (b x).getLsbD (sel - 64)
      bit != ctl 6

namespace Sys2Proof.Claims

/-- The rational number (-1)^neg times m times 2^e. -/
def num (neg : Bool) (m : Nat) (e : Int) : ℚ := (if neg then -1 else 1) * (m : ℚ) * (2 : ℚ) ^ e

/-- The magnitude of pattern r without sign; the pattern of infinity counts as the number after the largest finite one. -/
def magnitudeOf (f : Fmt) (r : Nat) : ℚ :=
  let ex := r / 2 ^ f.mw
  if ex = 0 then num false r (1 - f.bias - f.mw)
  else num false (2 ^ f.mw + r % 2 ^ f.mw) ((ex : Int) - f.bias - f.mw)

/-- Pattern q of a larger format is pattern p of a smaller one widened (R276): the same number or infinity, or the canonical NaN. -/
def Widened (small large : Fmt) (p q : Nat) : Prop :=
  let bits := p % 2 ^ (small.ew + small.mw)
  let sign := large.signPat (p / 2 ^ (small.ew + small.mw) % 2 == 1)
  if small.infPat < bits then q = large.nanPat
  else if bits = small.infPat then q = sign + large.infPat
  else ∃ r, r < large.infPat ∧ q = sign + r ∧ magnitudeOf large r = magnitudeOf small bits

end Sys2Proof.Claims

/-- R276: what an immediate and a literal supply to the sub-elements of operand B; a widened NaN supplies the canonical NaN. -/
def Sys2Proof.Claims.ImmediateOperands : Prop :=
  ∀ (ty : Ty) (v : BitVec 16) (l : BitVec 32) (j : Nat), j < tyCount ty →
    (ty.intTy = true → tyWidth ty ≤ 32 → elem (immWord ty v) j ty = (v.signExtend 64).toNat % 2 ^ tyWidth ty ∧
      elem (litWord ty l) j ty = l.toNat % 2 ^ tyWidth ty) ∧
    (tyWidth ty = 64 → ty ≠ .f64 → immWord ty v = v.signExtend 64) ∧
    (ty = .s64 ∨ ty = .b64 → litWord ty l = l.signExtend 64) ∧ (ty = .n64 → litWord ty l = l.setWidth 64) ∧
    (ty = .f16 ∨ ty = .bf16 → elem (immWord ty v) j ty = v.toNat ∧ elem (litWord ty l) j ty = l.toNat % 2 ^ 16) ∧
    (ty = .f32 → elem (litWord ty l) j ty = l.toNat ∧
      (v.toNat / 2 ^ 7 % 2 ^ 8 ≠ 255 ∨ v.toNat % 2 ^ 7 = 0 → elem (immWord ty v) j ty = v.toNat * 2 ^ 16) ∧
      Widened fmtBf16 fmtF32 v.toNat (elem (immWord ty v) j ty)) ∧
    (ty = .f64 → Widened fmtBf16 fmtF64 v.toNat (immWord ty v).toNat ∧ Widened fmtF32 fmtF64 l.toNat (litWord ty l).toNat)

/-- Counts, bit fields and byte permutes, and what an immediate or a literal supplies. -/
def Obligations.FieldsAndPermutes : Prop := FieldResults ∧ BytePermutes ∧ ImmediateOperands

/-! ## Compares, predicates, moves (class 2) -/

namespace Sys2Proof.Claims

/-- What a compare form makes of the truths of the sub-elements (R334). -/
def formHolds (f : CmpForm) (ty : Ty) (p : Nat → Prop) : Prop :=
  match f with
  | .first => p 0
  | .all => ∀ j, j < tyCount ty → p j
  | .any => ∃ j, j < tyCount ty ∧ p j

/-- A condition of ICMP (R362). -/
def compares (c : ICond) (a b : Int) : Prop :=
  match c with
  | .eq => a = b
  | .ne => a ≠ b
  | .lt => a < b
  | .le => a ≤ b
  | .gt => b < a
  | .ge => b ≤ a

/-- The ten classes of R333 by their fields: sign, exponent and fraction of a pattern of exponent width e and fraction width m. -/
def hasClass (e m p n : Nat) : Prop :=
  let neg : Bool := p.testBit (e + m)
  let ex := p / 2 ^ m % 2 ^ e
  let fr := p % 2 ^ m
  match n with
  | 0 => ex = 2 ^ e - 1 ∧ fr ≠ 0 ∧ fr.testBit (m - 1) = false
  | 1 => ex = 2 ^ e - 1 ∧ fr ≠ 0 ∧ fr.testBit (m - 1) = true
  | 2 => ex = 2 ^ e - 1 ∧ fr = 0 ∧ neg = true
  | 3 => ex ≠ 2 ^ e - 1 ∧ ex ≠ 0 ∧ neg = true
  | 4 => ex = 0 ∧ fr ≠ 0 ∧ neg = true
  | 5 => ex = 0 ∧ fr = 0 ∧ neg = true
  | 6 => ex = 0 ∧ fr = 0 ∧ neg = false
  | 7 => ex = 0 ∧ fr ≠ 0 ∧ neg = false
  | 8 => ex ≠ 2 ^ e - 1 ∧ ex ≠ 0 ∧ neg = false
  | 9 => ex = 2 ^ e - 1 ∧ fr = 0 ∧ neg = false
  | _ => False

/-- Exponent and fraction width of a floating type (R141). -/
def expWidth : Ty → Nat
  | .f16 => 5
  | .f64 => 11
  | _ => 8
def fracWidth : Ty → Nat
  | .f16 => 10
  | .bf16 => 7
  | .f64 => 52
  | _ => 23

/-- The instructions of one predicate result and no flag: latency, destination, and when the predicate becomes true. -/
def predForm : Instr → Option (Nat × Pred × (LaneCx → Prop))
  | .icmpLong _ q a b ty c f => some (4, q, fun x => formHolds f ty fun j => compares c (elemInt (x.src a) j ty) (elemInt (x.opB ty b) j ty))
  | .icmpLiteral _ q a v ty c f =>
    some (4, q, fun x => formHolds f ty fun j => compares c (elemInt (x.src a) j ty) (elemInt (litWord ty v) j ty))
  | .fclass _ q a b ty f => some (if ty = .f64 then 12 else 8, q, fun x => formHolds f ty fun j =>
      ∃ n, n < 10 ∧ (x.src b).getLsbD n = true ∧ hasClass (expWidth ty) (fracWidth ty) (elem (x.src a) j ty) n)
  | .plop _ q qa qb op na nb => some (4, q, fun x =>
      let a : Bool := x.q qa != na
      let b : Bool := x.q qb != nb
      match op with
      | .and => a = true ∧ b = true
      | .or => a = true ∨ b = true
      | .xor => a ≠ b)
  | _ => none

/-- The moves and selections: latency, destination, and the value. -/
def moveForm : Instr → Option (Nat × Dst × Operand)
  | .movLong _ d b ty => some (4, d, opb ty b)
  | .movLiteral _ d v ty => some (4, d, lit ty v)
  | .selCompact _ d a b => some (4, g6 d, fun x => if x.q 0 then x.g a.val else x.g b.val)
  | .selLong _ d a b ty qs neg => some (4, d, fun x => if x.q qs != neg then x.src a else x.opB ty b)
  | .selLiteral _ d a v ty qs neg => some (4, d, fun x => if x.q qs != neg then x.src a else litWord ty v)
  | _ => none

/-- The instructions of one register result given bit by bit: latency, destination, bit j. -/
def signForm : Instr → Option (Nat × Dst × (LaneCx → Nat → Bool))
  | .ptog _ d => some (4, d, fun x j => if h : j < 8 then x.q ⟨j, h⟩ else false)
  | .fabs _ d a ty => some (if ty = .f64 then 12 else 8, d, fun x j => (x.src a).getLsbD j && j % tyWidth ty != tyWidth ty - 1)
  | .fneg _ d a ty => some (if ty = .f64 then 12 else 8, d, fun x j => (x.src a).getLsbD j != (j % tyWidth ty == tyWidth ty - 1))
  | _ => none

/-- MOVW and WMOV: the warp register, and the lane whose value it takes with that value, or none. -/
def warpForm (s : State) : Instr → Option (Fin 32 × Option (Nat × Word))
  | .movwLong k d b ty => some (d, (guardTrue (.movwLong k d b ty) s).getLast?.map fun l => (l, (s.cx s.cur.warp l).opB ty b))
  | .movwLiteral k d v ty => some (d, (guardTrue (.movwLiteral k d v ty) s).getLast?.map fun l => (l, litWord ty v))
  | .wmov k d a b => some (d, match (guardTrue (.wmov k d a b) s).head? with
      | none => none
      | some l =>
        let src := ((s.cx s.cur.warp l).src b).toNat % 32
        if src ∈ guardTrue (.wmov k d a b) s then some (src, (s.cx s.cur.warp src).src a) else none)
  | _ => none

end Sys2Proof.Claims

/-- R362, R333, R354, R355: ICMP, FCLASS and PLOP write one predicate, by the form rule of R334; q7 discards; no flag. -/
def Sys2Proof.Claims.PredicateResults : Prop :=
  ∀ (i : Instr) (L : Nat) (q : Pred) (p : LaneCx → Prop) (s : State), predForm i = some (L, q, p) → i.wf = true → Issues i s →
    ∃ b : LaneCx → Bool, GivesResult i s L (predReg q) (fun x => boolWord (b x)) ∧ ∀ x, b x = true ↔ p x

/-- R374, R400: MOV copies B, SEL takes gA or B by the selector; all 64 bits of a register are copied. -/
def Sys2Proof.Claims.MoveResults : Prop :=
  ∀ (i : Instr) (L : Nat) (d : Dst) (v : Operand) (s : State), moveForm i = some (L, d, v) → i.wf = true → Issues i s →
    GivesResult i s L (dstReg d) v

/-- R355, R331: PTOG's bit j is qj with bit 7 true, FABS clears and FNEG inverts bit w − 1 of every sub-element. -/
def Sys2Proof.Claims.SignAndPredicateBits : Prop :=
  ∀ (i : Instr) (L : Nat) (d : Dst) (f : LaneCx → Nat → Bool) (s : State), signForm i = some (L, d, f) → i.wf = true → Issues i s →
    Bitwise i s L d f

/-- R355: GTOP writes the predicates that its mask names from the bits of gA, and no others. -/
def Sys2Proof.Claims.GtopResults : Prop :=
  ∀ (k : Ctl) (a : Src) (mask : Fin 128) (s : State), Issues (.gtop k a mask) s →
    InEachThread (.gtop k a mask) s fun x u =>
      IssuedTo (.gtop k a mask) s (nextPc (.gtop k a mask) x.t) u ∧ u.noRegs = x.t.noRegs ∧
      (∀ n, u.cur (.g n) = x.t.cur (.g n)) ∧
      ∀ j, j < 7 → u.qcur j = if mask.val.testBit j then (x.src a).getLsbD j else x.t.qcur j

/-- Compares, tests and predicate logic; signs and packed predicates. -/
def Obligations.PredicatesAndSigns : Prop := PredicateResults ∧ SignAndPredicateBits ∧ GtopResults

/-- R375, R414: MOVW writes the value of the highest guard-true lane, WMOV that of the lane that the lowest guard-true lane names if
that lane is guard-true; else the warp register is unchanged. Every thread only advances; no other warp register changes. -/
def Sys2Proof.Claims.WarpRegisterWrites : Prop :=
  ∀ (i : Instr) (d : Fin 32) (o : Option (Nat × Word)) (s : State), warpForm s i = some (d, o) → Issues i s →
    ∃ t, exec i s = .next t ∧
      (∀ l, mbit s.cur.lanes l = true → l < s.curWarp.threads.length →
        OnlyAdvances i s (s.thread s.cur.warp l) (t.thread s.cur.warp l)) ∧
      (∀ l, mbit s.cur.lanes l = false → t.thread s.cur.warp l = s.thread s.cur.warp l) ∧
      (∀ n, n ≠ s.cur.warp → t.warp n = s.warp n) ∧ SameMemory s t ∧
      t = { s with warps := t.warps, cores := t.cores } ∧
      { t.curWarp with threads := [], residency := 0, wregs := [], wearly := [] } =
        { s.curWarp with threads := [], residency := 0, wregs := [], wearly := [] } ∧
      ∀ r : Fin 32, tgetD t.curWarp.wregs r.val 0 =
        if r = d then (o.map Prod.snd).getD (tgetD s.curWarp.wregs r.val 0) else tgetD s.curWarp.wregs r.val 0

/-- Moves between the register files. -/
def Obligations.RegisterMoves : Prop := MoveResults ∧ WarpRegisterWrites

/-! ## Floating numbers (classes 3 and 4) -/

namespace Sys2Proof.Claims

/-- The four IEEE formats of R147. -/
def ieee : List Fmt := [fmtF16, fmtBf16, fmtF32, fmtF64]

/-- The middle between pattern r and the next. -/
def middle (f : Fmt) (r : Nat) : ℚ := (magnitudeOf f r + magnitudeOf f (r + 1)) / 2

/-- Pattern r is a positive exact value, given by its comparison with every rational, rounded under a mode (IEEE 754, R147): towards
zero, away from zero, or to the nearest with ties to even or away, infinity taking the place of the number after the largest. -/
def RoundsTo (f : Fmt) (md : RMode) (neg : Bool) (cmp : ℚ → Ordering) (r : Nat) : Prop :=
  let down : Prop := r < f.infPat ∧ cmp (magnitudeOf f r) ≠ .lt ∧ (r + 1 < f.infPat → cmp (magnitudeOf f (r + 1)) = .lt)
  let up : Prop := r ≤ f.infPat ∧ 0 < r ∧ (r = f.infPat ∨ cmp (magnitudeOf f r) ≠ .gt) ∧ cmp (magnitudeOf f (r - 1)) = .gt
  let near (lowTie highTie : Bool) : Prop := r ≤ f.infPat ∧
    (0 < r → cmp (middle f (r - 1)) = .gt ∨ (cmp (middle f (r - 1)) = .eq ∧ lowTie = true)) ∧
    (r < f.infPat → cmp (middle f r) = .lt ∨ (cmp (middle f r) = .eq ∧ highTie = true))
  match md with
  | .rne => near (r % 2 == 0) (r % 2 == 0)
  | .rna => near true false
  | .rz => down
  | .ru => if neg then down else up
  | .rd => if neg then up else down

/-- A result is an exact nonzero value rounded, with its sign, its inexact flag and its overflow flag (FTZ off). -/
def Rounded (f : Fmt) (md : RMode) (neg : Bool) (cmp : ℚ → Ordering) (p : FpRes) : Prop :=
  ∃ r, p.1 = f.signPat neg + r ∧ RoundsTo f md neg cmp r ∧
    (p.2 &&& flNX ≠ 0 ↔ cmp (magnitudeOf f r) ≠ .eq ∨ r = f.infPat) ∧
    (p.2 &&& flOF ≠ 0 ↔ cmp (magnitudeOf f f.infPat) ≠ .lt ∨ r = f.infPat)

/-- A floating instruction's results: latency, destination, the type of its sub-elements, and for each sub-element the pattern and
the flags. -/
structure FloatForm where
  L : Nat
  d : Dst
  ty : Ty
  res : LaneCx → Nat → FpRes

/-- The latency of R55 for class 3. -/
def lat3 (ty : Ty) : Nat := if ty = .f64 then 12 else 8

/-- An elementwise instruction of two operands under a mode. -/
def two (L : Nat) (ty : Ty) (rnd : Rnd) (d : Dst) (f : Fmt → RMode → Bool → FpVal → FpVal → FpRes) (a b : Operand) :
    Option FloatForm :=
  some ⟨L, d, ty, fun x j => f (fmtOf ty) (x.mode rnd) x.ftz (x.fval ty (a x) j) (x.fval ty (b x) j)⟩
/-- An elementwise instruction of one operand under a mode. -/
def one (L : Nat) (ty : Ty) (rnd : Rnd) (d : Dst) (f : Fmt → RMode → Bool → FpVal → FpRes) (a : Src) : Option FloatForm :=
  some ⟨L, d, ty, fun x j => f (fmtOf ty) (x.mode rnd) x.ftz (x.fval ty (x.src a) j)⟩
/-- FMIN and FMAX. -/
def pick (ty : Ty) (d : Dst) (isMax nan : Bool) (a b : Operand) : Option FloatForm :=
  some ⟨lat3 ty, d, ty, fun x j => fMinMax (fmtOf ty) isMax nan (x.fval ty (a x) j) (x.fval ty (b x) j)⟩
/-- FSUB adds the opposite. -/
def minus (f : Fmt) (md : RMode) (ftz : Bool) (a b : FpVal) : FpRes := fAdd f md ftz a b.opp
/-- FFMA. -/
def fused (ty : Ty) (rnd : Rnd) (d : Dst) (a b c : Operand) : Option FloatForm :=
  some ⟨lat3 ty, d, ty, fun x j =>
    fFma (fmtOf ty) (x.mode rnd) x.ftz (x.fval ty (a x) j) (x.fval ty (b x) j) (x.fval ty (c x) j)⟩
/-- FSCL: operand B is read as signed integers of the format's width (R347). -/
def scaled (ty : Ty) (rnd : Rnd) (d : Dst) (a : Src) (b : Operand) : Option FloatForm :=
  some ⟨lat3 ty, d, ty, fun x j => fScl (fmtOf ty) (x.mode rnd) x.ftz (x.fval ty (x.src a) j) (elemInt (b x) j (intOf ty))⟩
where
  intOf : Ty → Ty
    | .f32 => .s32
    | .f64 => .s64
    | _ => .s16
/-- FDOT: sub-element 0 takes the sum, sub-element 1 is 0. -/
def dotted (ty : Ty) (rnd : Rnd) (d : Dst) (a b c : Operand) : Option FloatForm :=
  some ⟨8, d, .f32, fun x j => if j = 0 then fDot (x.mode rnd) x.ftz (vals x (a x)) (vals x (b x)) (x.fval .f32 (c x) 0) else (0, 0)⟩
where
  vals (x : LaneCx) (v : Word) : List FpVal := (List.range (tyCount ty)).map fun e => x.fval ty v e
/-- CVT, PACK, UNPK: sub-element j converts a source sub-element, or is 0. -/
def converted (ty ts : Ty) (rnd : Rnd) (d : Dst) (p : LaneCx → Nat → Option Nat) : Option FloatForm :=
  some ⟨8, d, ty, fun x j => match p x j with
    | some v => convElem ty ts (x.mode rnd) x.ftz v
    | none => (0, 0)⟩

/-- The floating instructions with a general destination. Variable latencies are the model's choice (log 15). -/
def floatForm : Instr → Option FloatForm
  | .faddCompact _ d a b => two 8 .f32 .fpctl (g6 d) fAdd (g a) (g b)
  | .faddLong _ d a b ty r => two (lat3 ty) ty r d fAdd (src a) (opb ty b)
  | .faddLiteral _ d a v ty r => two (lat3 ty) ty r d fAdd (src a) (lit ty v)
  | .fsubCompact _ d a b => two 8 .f32 .fpctl (g6 d) minus (g a) (g b)
  | .fsubLong _ d a b ty r => two (lat3 ty) ty r d minus (src a) (opb ty b)
  | .fsubLiteral _ d a v ty r => two (lat3 ty) ty r d minus (src a) (lit ty v)
  | .fmulCompact _ d a b => two 8 .f32 .fpctl (g6 d) fMul (g a) (g b)
  | .fmulLong _ d a b ty r => two (lat3 ty) ty r d fMul (src a) (opb ty b)
  | .fmulLiteral _ d a v ty r => two (lat3 ty) ty r d fMul (src a) (lit ty v)
  | .fdivCompact _ d a b => two 24 .f32 .fpctl (g6 d) fDiv (g a) (g b)
  | .fdivLong _ d a b ty r => two (if ty = .f64 then 40 else 24) ty r d fDiv (src a) (opb ty b)
  | .fdivLiteral _ d a v ty r => two (if ty = .f64 then 40 else 24) ty r d fDiv (src a) (lit ty v)
  | .ffmaLong _ d a b c ty r => fused ty r d (src a) (src b) (src c)
  | .ffmaLiteral _ d a v c ty r => fused ty r d (src a) (lit ty v) (src c)
  | .fminCompact _ d a b => pick .f32 (g6 d) false false (g a) (g b)
  | .fminLong _ d a b ty n => pick ty d false n (src a) (opb ty b)
  | .fminLiteral _ d a v ty n => pick ty d false n (src a) (lit ty v)
  | .fmaxCompact _ d a b => pick .f32 (g6 d) true false (g a) (g b)
  | .fmaxLong _ d a b ty n => pick ty d true n (src a) (opb ty b)
  | .fmaxLiteral _ d a v ty n => pick ty d true n (src a) (lit ty v)
  | .fsqrt _ d a ty r => one (if ty = .f64 then 36 else 20) ty r d fSqrt a
  | .frcp _ d a ty r => one 16 ty r d (fun f md z v => fDiv f md z (.fin false 1 0) v) a
  | .frsq _ d a ty r => one 16 ty r d fRsq a
  | .fsclLong _ d a b ty r => scaled ty r d a (opb (scaled.intOf ty) b)
  | .fsclLiteral _ d a v ty r => scaled ty r d a (lit (scaled.intOf ty) v)
  | .frnd _ d a ty r => some ⟨lat3 ty, d, ty, fun x j => fRnd (fmtOf ty) (x.mode r) (elem (x.src a) j ty) (x.fval ty (x.src a) j)⟩
  | .fdotLong _ d a b c ty r => dotted ty r d (src a) (src b) (src c)
  | .fdotLiteral _ d a v c ty r => dotted ty r d (src a) (lit ty v) (src c)
  | .fsum _ d a ty r => some ⟨8, d, .f32, fun x j => if j = 0 then
      fSum (x.mode r) x.ftz ((List.range (tyCount ty)).map fun e =>
        if ty = .q8 ∨ ty = .l6 ∨ ty = .h4 then fpValue ty (elem (x.src a) e ty) else x.fval ty (x.src a) e) else (0, 0)⟩
  | .fex2 _ d a ty r => one 16 ty r d fEx2 a
  | .flg2 _ d a ty r => one 16 ty r d fLg2 a
  | .fsin _ d a ty r => one 16 ty r d (fun m q z v => fSinCos m q z 0 v) a
  | .fcos _ d a ty r => one 16 ty r d (fun m q z v => fSinCos m q z 1 v) a
  | .ftnh _ d a ty r => one 16 ty r d fTnh a
  | .cvt _ d a ty ts r => converted ty ts r d fun x j => if j < tyCount ts then some (elem (x.src a) j ts) else none
  | .pack _ d a b c ty ts r => converted ty ts r d fun x j =>
      let n := tyCount ts
      if j < n then some (elem (x.src a) j ts) else if j < 2 * n then some (elem (x.src b) (j - n) ts)
      else if j < 3 * n then some (elem (x.src c) (j - 2 * n) ts) else none
  | .unpk _ d a b ty ts r => converted ty ts r d fun x j =>
      if (x.src b).toNat + j < tyCount ts then some (elem (x.src a) ((x.src b).toNat + j) ts) else none
  | .dqblk _ d a b ty r => some ⟨8, d, ty, fun x j =>
      dqElem ty (x.mode r) ((List.range 8).flatMap fun k => leBytes 8 (x.g (8 * a.val + k)).toNat) ((x.src b).toNat + j)⟩
  | _ => none

/-- Some sub-element of a thread raises a flag whose enable is set (R150). -/
def Enabled (f : FloatForm) (x : LaneCx) : Prop := ∃ j, j < tyCount f.ty ∧ (f.res x j).2 &&& x.ten ≠ 0

/-- FPFLAGS gain exactly the flags that some sub-element raised (R149). -/
def GainsFlags (f : FloatForm) (x : LaneCx) (u : Thread) : Prop :=
  ∀ b, u.fpflags.getLsbD b = true ↔ x.t.fpflags.getLsbD b = true ∨ ∃ j, j < tyCount f.ty ∧ (f.res x j).2.getLsbD b = true

/-- A guard-true thread after a floating instruction that raised no enabled flag. -/
def FloatResult (i : Instr) (s : State) (f : FloatForm) (x : LaneCx) (u : Thread) : Prop :=
  ∃ v, IssuedTo i s (nextPc i x.t) u ∧ { u.noRegs with fpflags := 0 } = { x.t.noRegs with fpflags := 0 } ∧
    Writes x u f.L (dstReg f.d) v ∧ GainsFlags f x u ∧
    ∀ j, j < tyCount f.ty → elem v j f.ty = (f.res x j).1 % 2 ^ tyWidth f.ty

end Sys2Proof.Claims

/-- R330, R147: the exact sum, product, fused sum, quotient, square root and reciprocals of finite operands are rounded once, with the
inexact and overflow flags; a zero sum is +0, or −0 under RD, but keeps the common sign of two zeros. -/
def Sys2Proof.Claims.ExactRounding : Prop :=
  ∀ f ∈ ieee, ∀ md : RMode,
    (∀ x m e y n g, let v := num x m e + num y n g
      (v ≠ 0 → Rounded f md (decide (v < 0)) (fun q => compare |v| q) (fAdd f md false (.fin x m e) (.fin y n g))) ∧
      (v = 0 → fAdd f md false (.fin x m e) (.fin y n g) = (f.signPat (if m = 0 ∧ x = y then x else md == .rd), 0))) ∧
    (∀ x m e y n g, m ≠ 0 → n ≠ 0 →
      Rounded f md (x != y) (fun q => compare |num x m e * num y n g| q) (fMul f md false (.fin x m e) (.fin y n g)) ∧
      Rounded f md (x != y) (fun q => compare |num x m e| (q * |num y n g|)) (fDiv f md false (.fin x m e) (.fin y n g))) ∧
    (∀ x m e y n g z k h, let v := num x m e * num y n g + num z k h
      v ≠ 0 → Rounded f md (decide (v < 0)) (fun q => compare |v| q) (fFma f md false (.fin x m e) (.fin y n g) (.fin z k h))) ∧
    ∀ m e, m ≠ 0 →
      Rounded f md false (fun q => compare (num false m e) (q * q)) (fSqrt f md false (.fin false m e)) ∧
      Rounded f md false (fun q => compare 1 (q * q * num false m e)) (fRsq f md false (.fin false m e)) ∧
      ∀ x, Rounded f md x (fun q => compare 1 (q * num false m e)) (fRcp f md false (.fin x m e))

/-- R330, R143: the rows of the special results: invalid operations give the canonical NaN and NV, division by zero a signed infinity
and DZ, infinities go through, a NaN operand gives the canonical NaN and NV only if it is signalling. -/
def Sys2Proof.Claims.FloatSpecials : Prop :=
  ∀ f ∈ ieee, ∀ (md : RMode) (z : Bool) (x y : Bool) (m n : Nat) (e g : Int),
    let inf (s : Bool) : FpRes := (f.signPat s + f.infPat, 0)
    let zero (s : Bool) : FpRes := (f.signPat s, 0)
    let bad : FpRes := (f.nanPat, flNV)
    fAdd f md z (.inf x) (.inf y) = (if x = y then inf x else bad) ∧
    fAdd f md z (.inf x) (.fin y n g) = inf x ∧ fAdd f md z (.fin y n g) (.inf x) = inf x ∧
    fMul f md z (.inf x) (.fin y 0 g) = bad ∧ fMul f md z (.fin y 0 g) (.inf x) = bad ∧
    (n ≠ 0 → fMul f md z (.inf x) (.fin y n g) = inf (x != y)) ∧
    (∀ c, fFma f md z (.inf x) (.fin y 0 g) c = bad ∧ fFma f md z (.fin y 0 g) (.inf x) c = bad) ∧
    (n ≠ 0 → fFma f md z (.inf x) (.fin y n g) (.inf (x == y)) = bad) ∧
    fDiv f md z (.fin x 0 e) (.fin y 0 g) = bad ∧ fDiv f md z (.inf x) (.inf y) = bad ∧
    (m ≠ 0 → fDiv f md z (.fin x m e) (.fin y 0 g) = (f.signPat (x != y) + f.infPat, flDZ)) ∧
    fDiv f md z (.inf x) (.fin y n g) = inf (x != y) ∧ fDiv f md z (.fin x m e) (.inf y) = zero (x != y) ∧
    (m ≠ 0 → fSqrt f md z (.fin true m e) = bad) ∧ fSqrt f md z (.inf true) = bad ∧ fSqrt f md z (.inf false) = inf false ∧
    fSqrt f md z (.fin x 0 e) = zero x ∧
    fRcp f md z (.fin x 0 e) = (f.signPat x + f.infPat, flDZ) ∧ fRcp f md z (.inf x) = zero x ∧
    (m ≠ 0 → fRsq f md z (.fin true m e) = bad) ∧ fRsq f md z (.inf true) = bad ∧
    fRsq f md z (.fin x 0 e) = (f.signPat x + f.infPat, flDZ) ∧ fRsq f md z (.inf false) = zero false ∧
    ∀ (sig : Bool) (v : FpVal), (∀ q, v ≠ .nan q) →
      let r : FpRes := (f.nanPat, if sig then flNV else 0)
      fAdd f md z (.nan sig) v = r ∧ fAdd f md z v (.nan sig) = r ∧ fMul f md z (.nan sig) v = r ∧ fMul f md z v (.nan sig) = r ∧
      fDiv f md z (.nan sig) v = r ∧ fDiv f md z v (.nan sig) = r ∧ fSqrt f md z (.nan sig) = r ∧ fRsq f md z (.nan sig) = r

namespace Sys2Proof.Claims

/-- An index of a rising grid of magnitudes whose first is 0 is a positive exact value, given by its comparison with every rational,
rounded to that grid under a mode; a tie goes to the even index, or away from zero. -/
def RoundsOn (grid : Nat → ℚ) (md : RMode) (neg : Bool) (cmp : ℚ → Ordering) (r : Nat) : Prop :=
  let half (k : Nat) : ℚ := (grid k + grid (k + 1)) / 2
  let down : Prop := cmp (grid r) ≠ .lt ∧ cmp (grid (r + 1)) = .lt
  let up : Prop := 0 < r ∧ cmp (grid r) ≠ .gt ∧ cmp (grid (r - 1)) = .gt
  let near (lowTie highTie : Bool) : Prop :=
    (0 < r → cmp (half (r - 1)) = .gt ∨ (cmp (half (r - 1)) = .eq ∧ lowTie = true)) ∧
    (cmp (half r) = .lt ∨ (cmp (half r) = .eq ∧ highTie = true))
  match md with
  | .rne => near (r % 2 == 0) (r % 2 == 0)
  | .rna => near true false
  | .rz => down
  | .ru => if neg then down else up
  | .rd => if neg then up else down

/-- The integer z is the rational v rounded to an integral value under a mode (R346). -/
def IntegralOf (md : RMode) (v : ℚ) (z : Int) : Prop :=
  (v = 0 → z = 0) ∧
  (v ≠ 0 → ∃ r : Nat, RoundsOn (fun k => (k : ℚ)) md (decide (v < 0)) (fun q => compare |v| q) r ∧ z = if v < 0 then -(r : Int) else r)

/-- A pattern of a format holds a number or an infinity. -/
def Encodes (f : Fmt) : FpVal → Nat → Prop
  | .nan _, _ => False
  | .inf x, p => p = f.signPat x + f.infPat
  | .fin x m e, p => ∃ r, r < f.infPat ∧ p = f.signPat x + r ∧ magnitudeOf f r = num false m e

/-- A value is a NaN, a signalling one, an infinity, a zero. -/
def IsNan (v : FpVal) : Prop := ∃ s, v = .nan s
def IsSignalling (v : FpVal) : Prop := v = .nan true
def IsInf (v : FpVal) : Prop := ∃ x, v = .inf x
def IsZero (v : FpVal) : Prop := ∃ x e, v = .fin x 0 e

/-- The sign of a number or an infinity. -/
def negative : FpVal → Bool
  | .inf x => x
  | .fin x _ _ => x
  | .nan _ => false

/-- The exact number of a finite value. -/
def amount : FpVal → ℚ
  | .fin x m e => num x m e
  | _ => 0

end Sys2Proof.Claims

/-- R346, R347: FRND of a number is its integral neighbour with the operand's sign and no flag, FSCL the number times 2^n rounded once;
zeros and infinities pass through both, and a NaN gives the canonical NaN, with NV if it is signalling. -/
def Sys2Proof.Claims.RoundAndScale : Prop :=
  ∀ f ∈ ieee, ∀ (md : RMode) (z : Bool) (p : Nat) (n : Int),
    (∀ x m e, f.value p = .fin x m e → m ≠ 0 →
      (∃ r k, fRnd f md p (.fin x m e) = (f.signPat x + r, 0) ∧ r < f.infPat ∧ magnitudeOf f r = (k : Nat) ∧
        RoundsOn (fun k => (k : ℚ)) md x (fun q => compare (num false m e) q) k) ∧
      Rounded f md x (fun q => compare (num false m (e + n)) q) (fScl f md false (.fin x m e) n)) ∧
    (∀ x e, fRnd f md p (.fin x 0 e) = (f.signPat x, 0) ∧ fScl f md z (.fin x 0 e) n = (f.signPat x, 0)) ∧
    (∀ x, fRnd f md p (.inf x) = (p, 0) ∧ fScl f md z (.inf x) n = (f.signPat x + f.infPat, 0)) ∧
    ∀ sig, let r : FpRes := (f.nanPat, if sig then flNV else 0)
      fRnd f md p (.nan sig) = r ∧ fScl f md z (.nan sig) n = r

/-- R338: FDOT rounds the exact sum of the products and the addend once; its rows of special operands, and the sign of an exact zero. -/
def Sys2Proof.Claims.DotProductsOnce : Prop :=
  ∀ (md : RMode) (z : Bool) (ps : List (FpVal × FpVal)) (c : FpVal),
    let f := fmtF32
    let r := fDot md z (ps.map (·.1)) (ps.map (·.2)) c
    let operand (v : FpVal) : Prop := v = c ∨ ∃ p ∈ ps, v = p.1 ∨ v = p.2
    let zeroTimesInf : Prop := ∃ p ∈ ps, (IsZero p.1 ∧ IsInf p.2) ∨ (IsInf p.1 ∧ IsZero p.2)
    let infinite (x : Bool) : Prop := c = .inf x ∨ ∃ p ∈ ps, (IsInf p.1 ∨ IsInf p.2) ∧ (negative p.1 != negative p.2) = x
    let bad : Prop := (∃ v, operand v ∧ IsSignalling v) ∨ zeroTimesInf
    (bad → r = (f.nanPat, flNV)) ∧
    (¬ bad → (∃ v, operand v ∧ IsNan v) → r = (f.nanPat, 0)) ∧
    (¬ bad → (¬ ∃ v, operand v ∧ IsNan v) →
      (infinite true → infinite false → r = (f.nanPat, flNV)) ∧
      (∀ x, infinite x → ¬ infinite (!x) → r = (f.signPat x + f.infPat, 0))) ∧
    ((∀ v, operand v → ∃ x m e, v = .fin x m e) →
      let v := (ps.map fun p => amount p.1 * amount p.2).sum + amount c
      let allSigned (x : Bool) : Prop := amount c = 0 ∧ negative c = x ∧
        ∀ p ∈ ps, amount p.1 * amount p.2 = 0 ∧ (negative p.1 != negative p.2) = x
      (v ≠ 0 → z = false → Rounded f md (decide (v < 0)) (fun q => compare |v| q) r) ∧
      (v = 0 → allSigned true → r = (f.signPat true, 0)) ∧ (v = 0 → allSigned false → r = (0, 0)) ∧
      (v = 0 → ¬ allSigned true → ¬ allSigned false → r = (f.signPat (md == .rd), 0)))

/-- R348, R162: FSUM starts with the first element, which f32 holds exactly, and adds the others one after the other, each partial sum
rounded to f32; the flags gather. -/
def Sys2Proof.Claims.SumsInOrder : Prop :=
  ∀ (md : RMode) (z : Bool),
    (∀ v p, Encodes fmtF32 v p → fSum md z [v] = (p, 0)) ∧
    (∀ sig, fSum md z [.nan sig] = (fmtF32.nanPat, if sig then flNV else 0)) ∧
    ∀ (vs : List FpVal) (w : FpVal), vs ≠ [] →
      let a := fSum md z vs
      let b := fAdd fmtF32 md z (fmtF32.value a.1) w
      fSum md z (vs ++ [w]) = (b.1, a.2 ||| b.2)

namespace Sys2Proof.Claims

/-- How two values compare; none when one is a NaN (R334). -/
noncomputable def order (a b : FpVal) : Option Ordering :=
  match a, b with
  | .nan _, _ => none
  | _, .nan _ => none
  | .inf x, .inf y => some (compare y.toNat x.toNat)
  | .inf x, .fin _ _ _ => some (if x then .lt else .gt)
  | .fin _ _ _, .inf y => some (if y then .gt else .lt)
  | .fin x m e, .fin y n g => some (compare (num x m e) (num y n g))

end Sys2Proof.Claims

/-- R151: FMIN and FMAX select by order, −0 below +0, and by the rows for NaNs of the plain and the `.nan` form. -/
def Sys2Proof.Claims.Selections : Prop :=
  ∀ f ∈ ieee, ∀ (isMax form : Bool) (a b : FpVal),
    let r := fMinMax f isMax form a b
    (∀ p q, Encodes f a p → Encodes f b q →
      (order a b = some .lt → r = (if isMax then q else p, 0)) ∧ (order a b = some .gt → r = (if isMax then p else q, 0)) ∧
      (order a b = some .eq → (¬ IsZero a → r = (p, 0)) ∧
        (IsZero a → r = (f.signPat (if isMax then negative a && negative b else negative a || negative b), 0)))) ∧
    (∀ p, Encodes f a p → b = .nan false → r = (if form then f.nanPat else p, 0)) ∧
    (∀ q, Encodes f b q → a = .nan false → r = (if form then f.nanPat else q, 0)) ∧
    (a = .nan false → b = .nan false → r = (f.nanPat, 0)) ∧
    (IsSignalling a ∨ IsSignalling b → r = (f.nanPat, flNV))

/-- The operations of class 3 on exact values and on special ones. -/
def Obligations.FloatArithmetic : Prop :=
  ExactRounding ∧ FloatSpecials ∧ RoundAndScale ∧ DotProductsOnce ∧ SumsInOrder ∧ Selections

/-- The floating instructions of classes 3 and 4 with a general destination, when no thread raises a flag whose enable is set: each
sub-element of the destination takes its result, FPFLAGS gain the flags raised, nothing else changes (R149, R330, R337). -/
def Obligations.FloatResults : Prop :=
  ∀ (i : Instr) (f : FloatForm) (s : State), floatForm i = some f → i.wf = true → Issues i s →
    (∀ l, mbit s.cur.lanes l = true → (s.cx s.cur.warp l).guard (ctlOf i) = true → ¬ Enabled f (s.cx s.cur.warp l)) →
    InEachThread i s (FloatResult i s f)

namespace Sys2Proof.Claims

/-- THREADS THAT TRAP WITH CAUSE 0x07 AT USER LEVEL, TVEC nonzero and TMASK 0 (R150, R239): where a guard-true thread of the bundle raises
an enabled flag, all such threads take one trap: TMASK names them, TPC is the instruction, each stands at TVEC and satisfies `trapped`;
every other guard-true thread completes, and the guard-false ones advance. -/
def TrapsOn (i : Instr) (s : State) (raises : LaneCx → Prop) (completes trapped : LaneCx → Thread → Prop) : Prop :=
  s.curWarp.level = .user → s.curWarp.tvec ≠ 0 → s.curWarp.tmask = 0 →
  let n := s.cur.warp
  let raised (l : Nat) : Prop := mbit s.cur.lanes l = true ∧ l < s.curWarp.threads.length ∧
    (s.cx n l).guard (ctlOf i) = true ∧ raises (s.cx n l)
  (∃ l, raised l) →
  ∃ t, exec i s = .next t ∧
    (∀ l, l < 32 → (t.curWarp.tmask.getLsbD l = true ↔ raised l)) ∧
    t.curWarp.tcause = (if s.cur.slot = 2 then 0x107 else 0x07) ∧ t.curWarp.tpc = s.curPc &&& ~~~ 3#64 ∧
    SameMemory s t ∧ (∀ m, m ≠ n → t.warp m = s.warp m) ∧
    (∀ l, mbit s.cur.lanes l = false → t.thread n l = s.thread n l) ∧
    ∀ l, mbit s.cur.lanes l = true → l < s.curWarp.threads.length →
      let x := s.cx n l
      let u := t.thread n l
      (raised l → u.pc = s.curWarp.tvec ∧ trapped x u) ∧
      (¬ raised l → x.guard (ctlOf i) = true → completes x u) ∧
      (x.guard (ctlOf i) = false → OnlyAdvances i s x.t u)

end Sys2Proof.Claims

/-- R150, R239: threads in which a sub-element raises a flag whose enable is set take one trap at user level when TVEC is nonzero and
TMASK is 0: cause 0x07, TPC the instruction, TMASK those threads, TELEM the sub-elements that raised an enabled flag; such a
sub-element keeps the destination's value, the others and FPFLAGS are written; the thread stands at TVEC. The other threads of the
bundle complete. -/
def Sys2Proof.Claims.GeneralTraps : Prop :=
  ∀ (i : Instr) (f : FloatForm) (s : State), floatForm i = some f → i.wf = true → Issues i s →
    TrapsOn i s (Enabled f) (FloatResult i s f) fun x u => GainsFlags f x u ∧
      (∀ j, j < tyCount f.ty → (u.telem.getLsbD j = true ↔ (f.res x j).2 &&& x.ten ≠ 0)) ∧
      (∀ k, some k ≠ dstReg f.d → u.cur k = x.t.cur k) ∧
      ∀ k, dstReg f.d = some k → ∀ j, j < tyCount f.ty → elem (u.cur k) j f.ty =
        if (f.res x j).2 &&& x.ten ≠ 0 then elem (x.t.cur k) j f.ty else (f.res x j).1 % 2 ^ tyWidth f.ty

namespace Sys2Proof.Claims

/-- The conditions of FCMP (R334). -/
def condHolds (c : FCond) (o : Option Ordering) : Prop :=
  match c with
  | .eq => o = some .eq
  | .ne => o = some .lt ∨ o = some .gt
  | .lt => o = some .lt
  | .le => o = some .lt ∨ o = some .eq
  | .gt => o = some .gt
  | .ge => o = some .gt ∨ o = some .eq
  | .ord => o ≠ none
  | .uno => o = none
  | .equ => o = some .eq ∨ o = none
  | .neu => o ≠ some .eq
  | .ltu => o = some .lt ∨ o = none
  | .leu => o ≠ some .gt
  | .gtu => o = some .gt ∨ o = none
  | .geu => o ≠ some .lt

/-- The conditions that raise NV from a quiet NaN (R334). -/
def loud (c : FCond) : Bool := c == .lt || c == .le || c == .gt || c == .ge

/-- The FCMP forms: predicate, type, condition, form, operands. -/
def fcmpForm : Instr → Option (Pred × Ty × FCond × CmpForm × Operand × Operand)
  | .fcmpLong _ q a b ty c f => some (q, ty, c, f, src a, opb ty b)
  | .fcmpLiteral _ q a v ty c f => some (q, ty, c, f, src a, lit ty v)
  | _ => none

/-- An FCMP in a thread raises NV: an examined sub-element holds a signalling NaN, or a quiet one under a condition that is marked. -/
def raisesInvalid (ty : Ty) (c : FCond) (f : CmpForm) (a b : Operand) (x : LaneCx) : Prop :=
  ∃ j, (j = 0 ∨ (f ≠ .first ∧ j < tyCount ty)) ∧
    ((x.fval ty (a x) j).isSig = true ∨ (x.fval ty (b x) j).isSig = true ∨
      (loud c = true ∧ order (x.fval ty (a x) j) (x.fval ty (b x) j) = none))

/-- A lane is a guard-true thread of the bundle. -/
def active (i : Instr) (s : State) (l : Nat) : Bool := mbit s.cur.lanes l && (s.cx s.cur.warp l).guard (ctlOf i)

/-- A thread issued with one predicate and one register result. -/
def TwoResults (i : Instr) (s : State) (x : LaneCx) (u : Thread) (q : Pred) (b : Bool) (d : Dst) (v : Word) : Prop :=
  IssuedTo i s (nextPc i x.t) u ∧ u.noRegs = x.t.noRegs ∧
    (∀ k, some k ≠ dstReg d → some k ≠ predReg q → u.cur k = x.t.cur k) ∧
    (∀ k, dstReg d = some k → u.cur k = v) ∧ (∀ k, predReg q = some k → u.cur k = boolWord b)

/-- One op of the trees of R160: an absent side passes the other on without rounding or flags. -/
def join (op : Nat → Nat → FpRes) (a b : Option Nat) : Option Nat × Flags :=
  match a, b with
  | some p, some q => (some (op p q).1, (op p q).2)
  | some p, none => (some p, 0)
  | none, c => (c, 0)

/-- One distance of WRED (R160) and of WSCAN (R161): the values after it, and the flags raised. -/
def redDist (op : Nat → Nat → FpRes) (d : Nat) (a : (Nat → Option Nat) × Flags) : (Nat → Option Nat) × Flags :=
  (fun i => if i < d then (join op (a.1 i) (a.1 (i + d))).1 else a.1 i,
   (List.range d).foldl (fun f i => f ||| (join op (a.1 i) (a.1 (i + d))).2) a.2)
def scanDist (op : Nat → Nat → FpRes) (d : Nat) (a : (Nat → Option Nat) × Flags) : (Nat → Option Nat) × Flags :=
  (fun i => if d ≤ i then (join op (a.1 (i - d)) (a.1 i)).1 else a.1 i,
   (List.range (32 - d)).foldl (fun f i => f ||| (join op (a.1 i) (a.1 (i + d))).2) a.2)

/-- The five distances. -/
def dists (step : Nat → (Nat → Option Nat) × Flags → (Nat → Option Nat) × Flags) (v : Nat → Option Nat) :
    (Nat → Option Nat) × Flags :=
  step 1 (step 2 (step 4 (step 8 (step 16 (v, 0)))))

/-- What lane l contributes at sub-element j: the guard-true lanes named in gB[31:0], gB read from the lowest guard-true lane (R416). -/
def contributed (i : Instr) (s : State) (a b : Src) (ty : Ty) (j l : Nat) : Option Nat :=
  match (guardTrue i s).head? with
  | none => none
  | some lo =>
    if active i s l && ((s.cx s.cur.warp lo).src b).getLsbD l && decide (l < 32) then some (elem ((s.cx s.cur.warp l).src a) j ty)
    else none

/-- The latency of R60 for a core of NPASS passes. -/
def latAcross (s : State) (base : Nat) : Nat := base + ((s.core s.curWarp.core).npass - 1)

/-- WRED and WSCAN as floating forms: R160's tree and R161's scan of the contributions, identities where nothing contributes. -/
def treeForm (s : State) : Instr → Option FloatForm
  | .wred k d a b ty op r => some ⟨latAcross s 20, d, ty, fun x j =>
      let t := dists (redDist (redElem op ty (x.mode r) x.ftz)) (contributed (.wred k d a b ty op r) s a b ty j)
      ((t.1 0).getD (redIdentity op ty), t.2)⟩
  | .wscan k d a b ty op excl r => some ⟨latAcross s 20, d, ty, fun x j =>
      let t := dists (scanDist (redElem op ty (x.mode r) x.ftz)) (contributed (.wscan k d a b ty op excl r) s a b ty j)
      ((if excl then (if x.lane = 0 then none else t.1 (x.lane - 1)) else t.1 x.lane).getD (redIdentity op ty), t.2)⟩
  | _ => none

/-- GTID (R25, R44). -/
def gtid (x : LaneCx) : Nat :=
  if x.w.service then 4 * (x.w.core - 1024) + x.w.wid else 32 * x.w.wpb * x.w.bid + 32 * x.w.wid + x.lane

/-- The draw of R165 from a stream index and a key. -/
def draw (x : LaneCx) (strm key : Word) : KState :=
  let launch := x.w.launchAddr.toNat
  kindling
    { c0 := strm.setWidth 32
      c1 := BitVec.ofNat 32 (gtid x)
      c2 := BitVec.ofNat 32 (launch / 2 ^ 8 * 2 ^ 8 + gtid x / 2 ^ 32)
      c3 := BitVec.ofNat 32 (launch / 2 ^ 32)
      k0 := key.setWidth 32
      k1 := BitVec.ofNat 32 (key.toNat / 2 ^ 32) }

/-- The key of RNG and RNGG: the register, or the launch's Kindling key. -/
def keyOf (x : LaneCx) : Option Src → Word
  | some r => x.src r
  | none => x.w.kindling

/-- A register pair's two registers take two values, and no other register of the thread changes. -/
def PairResult (i : Instr) (s : State) (x : LaneCx) (u : Thread) (d : Dst) (v w : Word) : Prop :=
  IssuedTo i s (nextPc i x.t) u ∧ u.noRegs = x.t.noRegs ∧
  match d with
  | .zero => ∀ k, u.cur k = x.t.cur k
  | .g n => u.cur (.g n.val) = v ∧ u.cur (.g (n.val + 1)) = w ∧
      ∀ k, k ≠ .g n.val → k ≠ .g (n.val + 1) → u.cur k = x.t.cur k

end Sys2Proof.Claims

namespace Sys2Proof.Claims

/-- A guard-true thread after an FCMP that raised no enabled flag. -/
def CompareResult (i : Instr) (s : State) (q : Pred) (ty : Ty) (c : FCond) (f : CmpForm) (a b : Operand) (x : LaneCx) (u : Thread) : Prop :=
  ∃ p : Bool,
    (p = true ↔ formHolds f ty fun j => condHolds c (order (x.fval ty (a x) j) (x.fval ty (b x) j))) ∧
    IssuedTo i s (nextPc i x.t) u ∧ { u.noRegs with fpflags := 0 } = { x.t.noRegs with fpflags := 0 } ∧
    Writes x u (lat3 ty) (predReg q) (boolWord p) ∧
    (raisesInvalid ty c f a b x → u.fpflags = x.t.fpflags ||| flNV) ∧
    (¬ raisesInvalid ty c f a b x → u.fpflags = x.t.fpflags)

/-- What QBLK packs in a thread: the f32 values of the source run (R384). -/
def packed (a : Fin 192) (ty : Ty) (rnd : Rnd) (x : LaneCx) : List Byte × List Nat × Flags :=
  qblkPack ty (x.mode rnd) ((List.range (2 * blockRegs ty)).map fun e => elem (x.g (a.val + e / 2)) (e % 2) .f32)

/-- A guard-true thread after a QBLK that raised no enabled flag. -/
def PackResult (i : Instr) (s : State) (d : Fin 24) (a : Fin 192) (b : Option (Fin 192)) (ty : Ty) (rnd : Rnd) (x : LaneCx) (u : Thread) : Prop :=
  let p := packed a ty rnd x
  IssuedTo i s (nextPc i x.t) u ∧ { u.noRegs with fpflags := 0 } = { x.t.noRegs with fpflags := 0 } ∧
  u.fpflags = x.t.fpflags ||| p.2.2 ∧
  (∀ j e, j < 8 → e < 8 → some (elem (u.cur (.g (8 * d.val + j))) e .n8) = (p.1[8 * j + e]?).map BitVec.toNat) ∧
  (∀ r, b = some r → ∀ e, e < 2 * blockRegs ty →
    some (elem (u.cur (.g (r.val + e / 2))) (e % 2) .f32) = p.2.1[e]?.map (· % 2 ^ 32)) ∧
  ∀ n, (n < 8 * d.val ∨ 8 * d.val + 8 ≤ n) → (∀ r, b = some r → n < r.val ∨ r.val + blockRegs ty ≤ n) →
    u.cur (.g n) = x.t.cur (.g n)

end Sys2Proof.Claims

/-- R335, R150: an FCMP that raises NV with NV's enable set traps: TELEM is 1, FPFLAGS gain NV, every predicate and register keeps its
value. -/
def Sys2Proof.Claims.CompareTraps : Prop :=
  ∀ (i : Instr) (q : Pred) (ty : Ty) (c : FCond) (f : CmpForm) (a b : Operand) (s : State),
    fcmpForm i = some (q, ty, c, f, a, b) → i.wf = true → Issues i s →
    TrapsOn i s (fun x => raisesInvalid ty c f a b x ∧ x.ten &&& flNV ≠ 0) (CompareResult i s q ty c f a b) fun x u =>
      u.telem = 1 ∧ u.fpflags = x.t.fpflags ||| flNV ∧ ∀ k, u.cur k = x.t.cur k

/-- R385, R150: a QBLK that raises an enabled flag traps: TELEM is 0, FPFLAGS gain its flags, and none of its destinations is written. -/
def Sys2Proof.Claims.BlockTraps : Prop :=
  ∀ (k : Ctl) (d : Fin 24) (a : Fin 192) (b : Option (Fin 192)) (ty : Ty) (rnd : Rnd) (s : State),
    let i : Instr := .qblk k d a b ty rnd
    i.wf = true → Issues i s →
    TrapsOn i s (fun x => (packed a ty rnd x).2.2 &&& x.ten ≠ 0) (PackResult i s d a b ty rnd) fun x u =>
      u.telem = 0 ∧ u.fpflags = x.t.fpflags ||| (packed a ty rnd x).2.2 ∧ ∀ k, u.cur k = x.t.cur k

/-- The traps of cause 0x07: of an instruction with a general destination, of FCMP and of QBLK. -/
def Obligations.FloatTraps : Prop := GeneralTraps ∧ CompareTraps ∧ BlockTraps

/-- R334, R335: FCMP's predicate by condition and form, NV from NaNs as marked; with NV's enable clear the thread completes, FPFLAGS
gain NV, and nothing else changes. -/
def Obligations.FloatCompares : Prop :=
  ∀ (i : Instr) (q : Pred) (ty : Ty) (c : FCond) (f : CmpForm) (a b : Operand) (s : State),
    fcmpForm i = some (q, ty, c, f, a, b) → i.wf = true → Issues i s →
    (∀ l, mbit s.cur.lanes l = true → (s.cx s.cur.warp l).guard (ctlOf i) = true →
      raisesInvalid ty c f a b (s.cx s.cur.warp l) → (s.cx s.cur.warp l).ten &&& flNV = 0) →
    InEachThread i s (CompareResult i s q ty c f a b)

/-- R384, R385: QBLK writes the 64 bytes of the packed block into eight registers, the residuals of the source run into the residual
run where one is named, and FPFLAGS gain the flags; no other register changes. When a flag is raised whose enable is set, see R150. -/
def Sys2Proof.Claims.PackedBlocks : Prop :=
  ∀ (k : Ctl) (d : Fin 24) (a : Fin 192) (b : Option (Fin 192)) (ty : Ty) (rnd : Rnd) (s : State),
    let i : Instr := .qblk k d a b ty rnd
    i.wf = true → Issues i s →
    (∀ l, mbit s.cur.lanes l = true → (s.cx s.cur.warp l).guard (ctlOf i) = true →
      (packed a ty rnd (s.cx s.cur.warp l)).2.2 &&& (s.cx s.cur.warp l).ten = 0) →
    InEachThread i s (PackResult i s d a b ty rnd)

namespace Sys2Proof.Claims

/-- A pattern's value is a number of a sign. -/
def HasValue (v : FpVal) (x : Bool) (q : ℚ) : Prop := ∃ m e, v = .fin x m e ∧ num false m e = q

/-- The magnitudes of q8, its exponent range unbounded above (R144). -/
def q8Grid (r : Nat) : ℚ := magnitudeOf ⟨4, 3⟩ r

/-- The magnitudes of l6: zero, and at index k the grid point D(k − 16) (R145). -/
def l6Grid (k : Nat) : ℚ :=
  if k = 0 then 0
  else (([0x800000, 0x9837F0, 0xB504F3, 0xD744FD][k % 4]?).getD 0 : Nat) * (2 : ℚ) ^ ((k / 4 : Nat) - 27 : Int)

/-- A finite number, negative or −0 when neg, rounded into an IEEE format: exactly zero, or rounded once (R147). -/
def Delivered (f : Fmt) (md : RMode) (neg : Bool) (v : ℚ) (p : FpRes) : Prop :=
  (v = 0 → p = (f.signPat neg, 0)) ∧ (v ≠ 0 → Rounded f md neg (fun q => compare |v| q) p)

/-- round(x, q8, mode) of R144. -/
def ToQ8 (md : RMode) (neg : Bool) (v : ℚ) (p : FpRes) : Prop :=
  let sign := if neg then 128 else 0
  (v = 0 → p = (0, 0)) ∧
  (v ≠ 0 → ∃ r, RoundsOn q8Grid md neg (fun q => compare |v| q) r ∧
    p = if 127 < r then (sign + 127, flOF ||| flNX)
        else (if r = 0 then 0 else sign + r,
          if q8Grid r = |v| then 0 else if r < 8 then flNX ||| flUF else flNX))

/-- round(x, l6, mode) of R145. -/
def ToL6 (md : RMode) (neg : Bool) (v : ℚ) (p : FpRes) : Prop :=
  let code (k : Nat) : Nat := (if neg then 32 else 0) + (k + 16) % 32
  (l6Grid 31 < |v| → p = (code 31, flOF ||| flNX)) ∧
  (|v| ≤ l6Grid 31 → ∃ k, (if v = 0 then k = 0 else RoundsOn l6Grid md neg (fun q => compare |v| q) k) ∧
    p = (code k, if l6Grid k = |v| then 0 else if k = 0 then flNX ||| flUF else flNX))

/-- round(x, h4, mode) of R146: the code n stands for n + ½. -/
def ToH4 (md : RMode) (neg : Bool) (v : ℚ) (p : FpRes) : Prop :=
  let point (n : Int) : ℚ := (n : ℚ) + 1 / 2
  let below (n : Int) : Prop := point n ≤ v ∧ v < point n + 1
  let above (n : Int) : Prop := v ≤ point n ∧ point n - 1 < v
  ∃ n : Int, -8 ≤ n ∧ n ≤ 7 ∧ p.1 = (n % 16).toNat ∧
    p.2 = (if 15 / 2 < |v| then flOF ||| flNX else if point n = v then 0 else flNX) ∧
    if 15 / 2 < |v| then n = (if v < 0 then -8 else 7)
    else match md with
      | .rne => |v - point n| ≤ 1 / 2 ∧ (|v - point n| = 1 / 2 → n % 2 = 0)
      | .rna => |v - point n| ≤ 1 / 2 ∧ (|v - point n| = 1 / 2 → if v = 0 then n = (if neg then -1 else 0) else |v| < |point n|)
      | .ru => above n
      | .rd => below n
      | .rz => if |v| < 1 / 2 then n = (if neg then -1 else 0) else if v < 0 then above n else below n

/-- A finite amount converted into a type: rounded once into a floating one, rounded to an integer and clamped into an integer type
(R152). -/
def ConvertsTo (d : Ty) (md : RMode) (neg : Bool) (v : ℚ) (p : FpRes) : Prop :=
  match d with
  | .q8 => ToQ8 md neg v p
  | .l6 => ToL6 md neg v p
  | .h4 => ToH4 md neg v p
  | d =>
    if d.intTy = true then ∃ z, IntegralOf md v z ∧
      p = if z < least d then ((least d % 2 ^ tyWidth d).toNat, flNV)
          else if greatest d < z then ((greatest d % 2 ^ tyWidth d).toNat, flNV)
          else ((z % 2 ^ tyWidth d).toNat, if (z : ℚ) = v then 0 else flNX)
    else Delivered (fmtOf d) md neg v p

/-- The types a conversion knows: the integer types and the floating ones. -/
def converts (t : Ty) : Prop := t.intTy = true ∨ t ∈ [Ty.f16, .bf16, .f32, .f64, .q8, .l6, .h4]

end Sys2Proof.Claims

/-- R144, R145, R146, R143: the value of every code of q8, l6 and h4, and of every pattern of an IEEE format. -/
def Sys2Proof.Claims.NarrowValues : Prop :=
  (∀ p, p < 256 → if p = 0x80 then q8Value p = .nan false else HasValue (q8Value p) (decide (128 ≤ p)) (q8Grid (p % 128))) ∧
  (∀ p, p < 64 → HasValue (l6Value p) (decide (32 ≤ p)) (l6Grid ((p + 16) % 32))) ∧
  (∀ p, p < 16 → HasValue (h4Value p) (decide (8 ≤ p)) (if p < 8 then (p : ℚ) + 1 / 2 else 31 / 2 - p)) ∧
  ∀ f ∈ ieee, ∀ x r, r < 2 ^ (f.ew + f.mw) →
    let v := f.value (f.signPat x + r)
    (r < f.infPat → HasValue v x (magnitudeOf f r)) ∧ (r = f.infPat → v = .inf x) ∧
    (f.infPat < r → v = .nan (decide (r < f.nanPat)))

/-- R152, R321: one sub-element converted: the exact value of the source rounded once into the destination, the rows of infinities and
NaNs, integers clamped between integer types; FTZ flushes between IEEE types alone (R147); a narrow code goes to f32 and back unchanged
in every mode. -/
def Sys2Proof.Claims.Conversions : Prop :=
  ∀ (d t : Ty) (md : RMode) (z : Bool) (p : Nat), converts d → converts t → p < 2 ^ tyWidth t →
    let r := convElem d t md z p
    let whole (x : Int) : Nat := (x % 2 ^ tyWidth d).toNat
    let n : Int := if tySigned t then sext (tyWidth t) p else p
    (t.intTy = true → d.intTy = true → r = (whole (min (max n (least d)) (greatest d)), 0)) ∧
    (t.intTy = true → d.intTy = false → z = false ∨ isNarrow d = true → ConvertsTo d md (decide (n < 0)) n r) ∧
    (t.intTy = false → z = false ∨ isNarrow d = true ∨ isNarrow t = true →
      (∀ x m e, fpValue t p = .fin x m e → ConvertsTo d md x (num x m e) r) ∧
      (∀ x, fpValue t p = .inf x → r =
        if d.intTy then (whole (if x then least d else greatest d), flNV)
        else match d with
          | .q8 => ((if x then 128 else 0) + 0x7F, flNV)
          | .l6 => ((if x then 32 else 0) + 15, flNV)
          | .h4 => (if x then 8 else 7, flNV)
          | d => ((fmtOf d).signPat x + (fmtOf d).infPat, 0)) ∧
      (∀ sig, fpValue t p = .nan sig → r =
        if d.intTy then (0, flNV)
        else match d with
          | .q8 => (0x80, if sig then flNV else 0)
          | .l6 => (16, flNV)
          | .h4 => (0, flNV)
          | d => ((fmtOf d).nanPat, if sig then flNV else 0))) ∧
    (isNarrow t = true → d = .f32 → (convElem t .f32 md z r.1).1 = p)

/-- R156, R384, R153: what QBLK packs from its f32 inputs: a well-formed block of its format; the least exponent E that brings every
finite input into the format, 255 when an input is infinite; each element its input times 2^(127 − E) rounded once; the flags of all
elements; and each residual, what the block lost, rounded to f32. -/
def Sys2Proof.Claims.PackedValues : Prop :=
  ∀ ty ∈ [Ty.f16, .bf16, .q8, .l6, .h4], ∀ (md : RMode) (xs : List Nat), xs.length = blockCount ty → (∀ p ∈ xs, p < 2 ^ 32) →
    let r := qblkPack ty md xs
    let value (i : Nat) : FpVal := fmtF32.value ((xs[i]?).getD 0)
    let e := ((r.1[1]?).getD 0).toNat
    let largest : ℚ := match ty with
      | .q8 => 480
      | .l6 => l6Grid 31
      | .h4 => 15 / 2
      | .f16 => 65504
      | _ => magnitudeOf fmtBf16 0x7F7F
    let fits (k : Nat) : Prop := ∀ i x m g, i < blockCount ty → value i = .fin x m g → num false m g * 2 ^ (127 - k : Int) ≤ largest
    r.1.length = 64 ∧ blockOk r.1 = true ∧ blockFormat r.1 = some ty ∧
    ((∃ i, i < blockCount ty ∧ IsInf (value i)) → e = 255) ∧
    ((¬ ∃ i, i < blockCount ty ∧ IsInf (value i)) → fits e ∧ ∀ k, k < e → ¬ fits k) ∧
    (∃ fl : Nat → Flags, (∀ b, r.2.2.getLsbD b = true ↔ ∃ i, i < blockCount ty ∧ (fl i).getLsbD b = true) ∧
      ∀ i, i < blockCount ty →
        let p : FpRes := (blockElem ty r.1 i, fl i)
        (∀ x m g, value i = .fin x m g → ConvertsTo ty md x (num x m g * 2 ^ (127 - e : Int)) p) ∧
        (∀ x, value i = .inf x → p = infTo ty x) ∧ (∀ sig, value i = .nan sig → p = nanTo ty sig)) ∧
    ∀ i, i < blockCount ty →
      let w := fpValue ty (blockElem ty r.1 i)
      ∃ q, (r.2.1[i]?) = some q ∧
        (IsNan (value i) → q = fmtF32.nanPat) ∧
        (∀ x, value i = .inf x → q = if w = .inf x then 0 else fmtF32.signPat x + fmtF32.infPat) ∧
        ∀ x m g y k h, value i = .fin x m g → w = .fin y k h → ∃ fl,
          let lost := num x m g - num y k h * 2 ^ (e - 127 : Int)
          Delivered fmtF32 .rne (decide (lost < 0)) lost (q, fl)

/-- R155, R325: one sub-element of DQBLK: the canonical NaN and NV from a malformed block, +0 beyond the element count, and else the
element's value times 2^(E − 127), rounded once. -/
def Sys2Proof.Claims.UnpackedValues : Prop :=
  ∀ d ∈ [Ty.f16, .bf16, .f32, .f64], ∀ (md : RMode) (bs : List Byte) (j : Nat), bs.length = 64 →
    let f := fmtOf d
    let r := dqElem d md bs j
    let e := ((bs[1]?).getD 0).toNat
    (blockOk bs = false → r = (f.nanPat, flNV)) ∧
    ∀ t, blockOk bs = true → blockFormat bs = some t →
      let w := fpValue t (leNat ((bs.drop 2).take 60) / 2 ^ (j * tyWidth t) % 2 ^ tyWidth t)
      (blockCount t ≤ j → r = (0, 0)) ∧
      (j < blockCount t →
        (∀ x m g, w = .fin x m g → Delivered f md x (num x m g * 2 ^ (e - 127 : Int)) r) ∧
        (∀ x, w = .inf x → r = (f.signPat x + f.infPat, 0)) ∧
        ∀ sig, w = .nan sig → r = (f.nanPat, if sig then flNV else 0))

/-- Conversions between the number formats, and the blocks that QBLK packs and DQBLK reads. -/
def Obligations.BlockPacking : Prop := PackedBlocks ∧ NarrowValues ∧ Conversions ∧ PackedValues ∧ UnpackedValues

namespace Sys2Proof.Claims

/-- A real number lies within 2^-1400 of a value of the format or of the middle of two: there the model's brackets need not decide
(log 103). -/
def NearBoundary (f : Fmt) (v : ℝ) : Prop :=
  ∃ r, r ≤ f.infPat ∧ (|(|v|) - (magnitudeOf f r : ℝ)| ≤ 2 ^ (-1400 : ℤ) ∨ |(|v|) - (middle f r : ℝ)| ≤ 2 ^ (-1400 : ℤ))

/-- A result is a real number rounded once (R337). -/
def RoundsReal (f : Fmt) (md : RMode) (v : ℝ) (p : FpRes) : Prop :=
  Rounded f md (decide (v < 0)) (fun q => compare |v| (q : ℝ)) p ∨ NearBoundary f v

end Sys2Proof.Claims

/-- R337: the rows of the special values of FEX2, FLG2, FSIN, FCOS and FTNH, and their exact results. -/
def Sys2Proof.Claims.ElementarySpecials : Prop :=
  ∀ f ∈ [fmtF16, fmtBf16, fmtF32], ∀ (md : RMode) (z x : Bool) (m : Nat) (e : Int) (sig : Bool),
    let nan : FpRes := (f.nanPat, if sig then flNV else 0)
    let bad : FpRes := (f.nanPat, flNV)
    let one (y : Bool) (p : FpRes) : Prop := ∃ r, p = (f.signPat y + r, 0) ∧ magnitudeOf f r = 1
    fEx2 f md z (.nan sig) = nan ∧ fLg2 f md z (.nan sig) = nan ∧ fTnh f md z (.nan sig) = nan ∧
    (∀ k, fSinCos f md z k (.nan sig) = nan ∧ fSinCos f md z k (.inf x) = bad) ∧
    fEx2 f md z (.inf true) = (0, 0) ∧ fEx2 f md z (.inf false) = (f.infPat, 0) ∧
    (∀ n : Int, num x m e = n → Rounded f md false (fun q => compare ((2 : ℚ) ^ n) q) (fEx2 f md false (.fin x m e))) ∧
    fLg2 f md z (.inf true) = bad ∧ fLg2 f md z (.inf false) = (f.infPat, 0) ∧ (m ≠ 0 → fLg2 f md z (.fin true m e) = bad) ∧
    fLg2 f md z (.fin x 0 e) = (f.signPat true + f.infPat, flDZ) ∧
    (∀ (p : Nat) (n : Int), f.value p = .fin false m e → num false m e = (2 : ℚ) ^ n →
      ∃ r, fLg2 f md z (.fin false m e) = (f.signPat (decide (n < 0)) + r, 0) ∧ magnitudeOf f r = |(n : ℚ)|) ∧
    fSinCos f md z 0 (.fin x 0 e) = (f.signPat x, 0) ∧ one false (fSinCos f md z 1 (.fin x 0 e)) ∧
    one x (fTnh f md z (.inf x)) ∧ fTnh f md z (.fin x 0 e) = (f.signPat x, 0)

/-- R337: FEX2, FLG2, FSIN, FCOS and FTNH, each with its domain and the real function that it names. -/
noncomputable def Sys2Proof.Claims.realFunctions : List ((Fmt → RMode → Bool → FpVal → FpRes) × (ℝ → Prop) × (ℝ → ℝ)) :=
  [(fEx2, fun _ => True, fun a => (2 : ℝ) ^ a), (fLg2, fun a => 0 < a, fun a => Real.logb 2 a),
   (fun f md z v => fSinCos f md z 0 v, fun _ => True, Real.sin), (fun f md z v => fSinCos f md z 1 v, fun _ => True, Real.cos),
   (fTnh, fun _ => True, Real.tanh)]

/-- R337: each of the five functions gives its exact real value rounded once, on every nonzero number of f16, bf16 and f32. -/
def Sys2Proof.Claims.RealValues : Prop :=
  ∀ f ∈ [fmtF16, fmtBf16, fmtF32], ∀ (md : RMode) (p : Nat) (x : Bool) (m : Nat) (e : Int),
    f.value p = .fin x m e → m ≠ 0 → ∀ g ∈ realFunctions, g.2.1 (num x m e : ℝ) → g.2.2 (num x m e : ℝ) ≠ 0 →
      RoundsReal f md (g.2.2 (num x m e : ℝ)) (g.1 f md false (.fin x m e))

/-- R166, R165: the two normals of a draw: from the uniforms u1 and u2, a the logarithm of u1, b = −2a, s the square root of b, cs and sn
the cosine and the sine of 2π u2, each rounded once to f64 to nearest, and the products s·cs and s·sn rounded again. -/
def Sys2Proof.Claims.NormalPair : Prop :=
  ∀ w : KState,
    let f := fmtF64
    let uniform (lo hi : BitVec 32) : ℚ := ((((hi ++ lo).toNat / 2 ^ 12 : Nat) : ℚ) + 1 / 2) / 2 ^ 52
    let u1 := uniform w.c0 w.c1
    let u2 := uniform w.c2 w.c3
    ∃ a b s cs sn : Nat,
      (∃ fl, RoundsReal f .rne (Real.log (u1 : ℝ)) (a, fl)) ∧ amount (f.value b) = -2 * amount (f.value a) ∧
      (∃ fl, Rounded f .rne false (fun q => compare (amount (f.value b)) (q * q)) (s, fl)) ∧
      (∃ fl, RoundsReal f .rne (Real.cos (2 * Real.pi * (u2 : ℝ))) (cs, fl)) ∧
      (∃ fl, RoundsReal f .rne (Real.sin (2 * Real.pi * (u2 : ℝ))) (sn, fl)) ∧
      gaussPair w = ((fMul f .rne false (f.value s) (f.value cs)).1, (fMul f .rne false (f.value s) (f.value sn)).1)

/-- R337, R166: the elementary functions and the normals of RNGG by the exact real functions, but where the exact value lies within
2^-1400 of a boundary of rounding, and their special values. -/
def Obligations.ElementaryFunctions : Prop := ElementarySpecials ∧ RealValues ∧ NormalPair

/-- R165, R391: RNG draws Kindling at the counter of stream index, GTID and LAUNCHID under the record's key or the register's; b64 takes
the words, f32 and f64 the uniforms (w[31:9] + ½) × 2^−23 and (x[63:12] + ½) × 2^−52. -/
def Sys2Proof.Claims.RandomWords : Prop :=
  ∀ (k : Ctl) (d : Dst) (a : Src) (key : Option Src) (ty : Ty) (s : State),
    let i : Instr := .rng k d a key ty
    i.wf = true → Issues i s → (∀ l, mbit s.cur.lanes l = true → gtid (s.cx s.cur.warp l) < 2 ^ 40) →
    InEachThread i s fun x u =>
      let z := draw x (x.src a) (keyOf x key)
      ∃ v w, PairResult i s x u d v w ∧
        (ty = .b64 → v = z.c1 ++ z.c0 ∧ w = z.c3 ++ z.c2) ∧
        (ty = .f32 →
          let u32 (c : BitVec 32) : ℚ := (((c.toNat / 2 ^ 9 : ℕ) : ℚ) + 1 / 2) / 2 ^ 23
          magnitudeOf fmtF32 (elem v 0 .f32) = u32 z.c0 ∧ magnitudeOf fmtF32 (elem v 1 .f32) = u32 z.c1 ∧
          magnitudeOf fmtF32 (elem w 0 .f32) = u32 z.c2 ∧ magnitudeOf fmtF32 (elem w 1 .f32) = u32 z.c3) ∧
        (ty = .f64 →
          let u64 (c : BitVec 64) : ℚ := (((c.toNat / 2 ^ 12 : ℕ) : ℚ) + 1 / 2) / 2 ^ 52
          magnitudeOf fmtF64 v.toNat = u64 (z.c1 ++ z.c0) ∧ magnitudeOf fmtF64 w.toNat = u64 (z.c3 ++ z.c2))

/-- R166, R391: RNGG writes the two normals of one draw, for f64 into a pair, for f32 rounded to nearest into the two halves of one
register; no flag; a GTID of 2^40 or more is refused by both (cause 0x01, stated with the traps). -/
def Sys2Proof.Claims.RandomNormals : Prop :=
  ∀ (k : Ctl) (d : Dst) (a : Src) (key : Option Src) (ty : Ty) (s : State),
    let i : Instr := .rngg k d a key ty
    i.wf = true → Issues i s → (∀ l, mbit s.cur.lanes l = true → gtid (s.cx s.cur.warp l) < 2 ^ 40) →
    InEachThread i s fun x u =>
      let z := gaussPair (draw x (x.src a) (keyOf x key))
      let half (p : Nat) : Nat := (convElem .f32 .f64 .rne false p).1
      (ty = .f64 → PairResult i s x u d (BitVec.ofNat 64 z.1) (BitVec.ofNat 64 z.2)) ∧
      (ty = .f32 → ∃ v, IssuedTo i s (nextPc i x.t) u ∧ u.noRegs = x.t.noRegs ∧ Writes x u 40 (dstReg d) v ∧
        elem v 0 .f32 = half z.1 % 2 ^ 32 ∧ elem v 1 .f32 = half z.2 % 2 ^ 32)

/-- Kindling's words and normal numbers. -/
def Obligations.RandomNumbers : Prop := RandomWords ∧ RandomNormals

/-! ## Across lanes (class 5) -/

/-- R304, R411, R326, R373: BCST, VOTE, ELECT and MATCH from what the guard-true lanes of the bundle held. -/
def Sys2Proof.Claims.CrossLaneResults : Prop :=
  ∀ (s : State) (k : Ctl) (d : Dst),
    (∀ (a : Src) (b : OpB), (Instr.bcst k d a b).wf = true → Issues (.bcst k d a b) s →
      GivesResult (.bcst k d a b) s (latAcross s 6) (dstReg d) fun x =>
        let l := match b with
          | .reg r => (x.src r).toNat % 32
          | .imm v => v.toNat
        if active (.bcst k d a b) s l then (s.cx s.cur.warp l).src a else 0) ∧
    (∀ (q qs : Pred) (neg : Bool) (mode : VoteMode), Issues (.vote k d q qs neg mode) s →
      InEachThread (.vote k d q qs neg mode) s fun x u =>
        let yes (l : Nat) : Bool := active (.vote k d q qs neg mode) s l && ((s.cx s.cur.warp l).q qs != neg)
        let m := (List.range 32).countP yes
        let n := (List.range 32).countP (active (.vote k d q qs neg mode) s)
        ∃ v : Word, (∀ l, l < 32 → v.getLsbD l = yes l) ∧ v.toNat / 2 ^ 32 = m ∧
          TwoResults (.vote k d q qs neg mode) s x u q
            (match mode with
              | .all => decide (m = n)
              | .any => decide (0 < m)
              | .same => decide (m = 0 ∨ m = n)
              | .most => decide (n < 2 * m)) d v) ∧
    (∀ (q : Pred), Issues (.elect k d q) s →
      InEachThread (.elect k d q) s fun x u =>
        ∃ lo, active (.elect k d q) s lo = true ∧ (∀ l, active (.elect k d q) s l = true → lo ≤ l) ∧
          TwoResults (.elect k d q) s x u q (decide (x.lane = lo)) d (BitVec.ofNat 64 lo)) ∧
    ∀ (a : Src) (ty : Ty), (Instr.matchI k d a ty).wf = true → Issues (.matchI k d a ty) s →
      Bitwise (.matchI k d a ty) s (latAcross s 6) d fun x l =>
        active (.matchI k d a ty) s l &&
          decide (((s.cx s.cur.warp l).src a).toNat % 2 ^ tyWidth ty = (x.src a).toNat % 2 ^ tyWidth ty)

/-- R160, R161, R416: WRED delivers the tree's value and WSCAN lane j's, inclusive or exclusive, to every guard-true thread, with the flags
of every op of the tree; when no enabled flag is raised nothing else changes. -/
def Sys2Proof.Claims.TreeResults : Prop :=
  ∀ (i : Instr) (f : FloatForm) (s : State), treeForm s i = some f → i.wf = true → Issues i s →
    (∀ l, mbit s.cur.lanes l = true → (s.cx s.cur.warp l).guard (ctlOf i) = true → ¬ Enabled f (s.cx s.cur.warp l)) →
    InEachThread i s (FloatResult i s f)

/-- R160, R161: an integer WRED.add gives the sum of all contributing lanes modulo 2^w, whatever the tree, and an integer WSCAN.add the
sum of lanes 0 to j. -/
def Sys2Proof.Claims.IntegerTreeSums : Prop :=
  ∀ (ty : Ty) (md : RMode) (ftz : Bool) (v : Nat → Option Nat), ty.intTy = true → (∀ l p, v l = some p → p < 2 ^ tyWidth ty) →
    let total (n : Nat) : Nat := ((List.range n).map fun l => (v l).getD 0).sum
    ((dists (redDist (redElem .add ty md ftz)) v).1 0).getD 0 = total 32 % 2 ^ tyWidth ty ∧
    ∀ j, j < 32 → ((dists (scanDist (redElem .add ty md ftz)) v).1 j).getD 0 = total (j + 1) % 2 ^ tyWidth ty

/-- Reductions and scans over the lanes. -/
def Obligations.Trees : Prop := TreeResults ∧ IntegerTreeSums

/-- R402: the guard-true lanes of a bundle that all name themselves and no other meet at once: each reads sub-element gB[3:0] of lane
gB[8:4], zero-extended, with true, or 0 with false when that lane is not among them or the sub-element does not exist; guard-false
lanes advance. -/
def Sys2Proof.Claims.ShuffleMeets : Prop :=
  ∀ (k : Ctl) (d : Dst) (a b c : Src) (ty : Ty) (qd : Pred) (s : State),
    let i : Instr := .shfl k d a b c ty qd
    let n := s.cur.warp
    Issues i s →
    (∀ l, mbit s.cur.lanes l = true → l < s.curWarp.threads.length ∧ (s.thread n l).exited = false ∧
      (s.thread n l).pc = s.curPc ∧ (s.thread n l).wait ≠ .shfl) →
    (∀ m ∈ s.curWarp.shfl, m.pc ≠ s.curPc) →
    (∀ l, active i s l = true → ∀ u, u < 32 → ((s.cx n l).src c).getLsbD u = active i s u) →
    InEachThread i s fun x u =>
      let l := (x.src b).toNat / 2 ^ 4 % 2 ^ 5
      let e := (x.src b).toNat % 2 ^ 4
      let ok := active i s l && decide (e < tyCount ty)
      TwoResults i s x u qd ok d (if ok then BitVec.ofNat 64 (elem ((s.cx n l).src a) e ty) else 0)

namespace Sys2Proof.Claims

/-- The guard-true lanes of a bundle arrive at a SHFL with the mask M, which names each of them; none of the bundle's lanes waits at one. -/
def ArriveWith (i : Instr) (c : Src) (s : State) (M : BitVec 32) : Prop :=
  (∀ l, mbit s.cur.lanes l = true → l < s.curWarp.threads.length ∧ (s.thread s.cur.warp l).exited = false ∧
    (s.thread s.cur.warp l).pc = s.curPc ∧ (s.thread s.cur.warp l).wait ≠ .shfl) ∧
  (∃ l, l < 32 ∧ active i s l = true) ∧
  ∀ l, l < 32 → active i s l = true → M.getLsbD l = true ∧ ((s.cx s.cur.warp l).src c).setWidth 32 = M

end Sys2Proof.Claims

/-- R402: the guard-true lanes of a bundle that open a meeting whose mask names a lane that has neither arrived nor exited wait: each
stands where it was with every register as before, and the warp holds one meeting more, of that address and mask, in which exactly they
have arrived, with the gA and gB that they held at issue; guard-false lanes advance. -/
def Sys2Proof.Claims.ShuffleWaits : Prop :=
  ∀ (k : Ctl) (d : Dst) (a b c : Src) (ty : Ty) (qd : Pred) (s : State) (M : BitVec 32),
    let i : Instr := .shfl k d a b c ty qd
    let n := s.cur.warp
    Issues i s → ArriveWith i c s M → (∀ m ∈ s.curWarp.shfl, m.pc ≠ s.curPc) →
    (∃ l, l < 32 ∧ M.getLsbD l = true ∧ mbit s.cur.lanes l = false ∧ (s.thread n l).exited = false) →
    ∃ t m, exec i s = .next t ∧ t = { s with warps := t.warps, cores := t.cores } ∧ SameMemory s t ∧
      (∀ j, j ≠ n → t.warp j = s.warp j) ∧ (∀ l, mbit s.cur.lanes l = false → t.thread n l = s.thread n l) ∧
      { t.curWarp with threads := [], residency := 0, shfl := [] } = { s.curWarp with threads := [], residency := 0, shfl := [] } ∧
      t.curWarp.shfl = s.curWarp.shfl ++ [m] ∧ m.pc = s.curPc ∧ m.members = M ∧
      (∀ l, l < 32 → (m.arrTrue.getLsbD l = true ↔ active i s l = true)) ∧
      (∀ l, l < 32 → active i s l = true → tgetD m.masks l 0 = M ∧
        tget m.offers l = some ((s.cx n l).src a) ∧ tget m.reads l = some ((s.cx n l).src b) ∧
        t.thread n l = { s.thread n l with wait := .shfl }) ∧
      ∀ l, mbit s.cur.lanes l = true → (s.cx n l).guard (ctlOf i) = false → OnlyAdvances i s (s.thread n l) (t.thread n l)

/-- R402: the lanes of a bundle whose arrival leaves no lane of the meeting's mask out complete it: every lane of the mask, those that
waited and those that arrive, reads sub-element gB[3:0] of what lane gB[8:4] offered, gA and gB being those that each held at its own
issue, and goes on; the meeting is over. -/
def Sys2Proof.Claims.ShuffleCloses : Prop :=
  ∀ (k : Ctl) (d : Dst) (a b c : Src) (ty : Ty) (qd : Pred) (s : State) (M : BitVec 32) (m : Meeting),
    let i : Instr := .shfl k d a b c ty qd
    let n := s.cur.warp
    let waits (l : Nat) : Bool := m.arrTrue.getLsbD l
    Issues i s → s.curWarp.service = false → ArriveWith i c s M → s.curWarp.shfl = [m] → m.pc = s.curPc → m.members = M → m.arrFalse = 0 →
    (∀ l, l < 32 → waits l = true → mbit s.cur.lanes l = false ∧ l < s.curWarp.threads.length ∧ (s.thread n l).exited = false ∧
      (s.thread n l).pc = s.curPc ∧ (s.thread n l).wait = .shfl ∧ tgetD m.masks l 0 = M) →
    (∀ l, l < 32 → (M.getLsbD l = true ↔ waits l = true ∨ active i s l = true)) →
    let offered (l : Nat) : Word := (if waits l then tget m.offers l else none).getD ((s.cx n l).src a)
    let asks (l : Nat) : Word := (if waits l then tget m.reads l else none).getD ((s.cx n l).src b)
    ∃ t, exec i s = .next t ∧ t = { s with warps := t.warps, cores := t.cores } ∧ SameMemory s t ∧
      (∀ j, j ≠ n → t.warp j = s.warp j) ∧
      (∀ l, mbit s.cur.lanes l = false → waits l = false → t.thread n l = s.thread n l) ∧
      { t.curWarp with threads := [], residency := 0, shfl := [] } = { s.curWarp with threads := [], residency := 0, shfl := [] } ∧
      t.curWarp.shfl = [] ∧
      (∀ l, l < 32 → M.getLsbD l = true →
        let from_ := (asks l).toNat / 2 ^ 4 % 2 ^ 5
        let e := (asks l).toNat % 2 ^ 4
        let ok := M.getLsbD from_ && decide (e < tyCount ty)
        TwoResults i s (s.cx n l) (t.thread n l) qd ok d (if ok then BitVec.ofNat 64 (elem (offered from_) e ty) else 0)) ∧
      ∀ l, mbit s.cur.lanes l = true → (s.cx n l).guard (ctlOf i) = false → OnlyAdvances i s (s.thread n l) (t.thread n l)

/-- Lanes that read each other, at once, when they wait, and when they have met. -/
def Obligations.CrossLane : Prop := CrossLaneResults ∧ ShuffleMeets ∧ ShuffleWaits ∧ ShuffleCloses

/-! ## Encodings (R268 to R285) -/

namespace Sys2Proof.Claims

/-- The bytes of an instruction's words in memory. -/
def bytesOf (ws : List Nat) : List Byte := ws.flatMap (leBytes 4)

/-- Words written out from the encodings of the spec, with the instructions that the spec gives them. -/
def knownWords : List (List Nat × Instr) :=
  [([0x0000820C], .iaddCompact 0 4 4 6),
   ([0x8310F7FF, 0x00407800], .callLong ⟨0, 7, false⟩ (.g 30) 64),
   ([0x834FFFFF, 0x002A7800], .trap ⟨0, 7, false⟩ 42),
   ([0x83803017, 0x00007800], .ld ⟨0, 7, false⟩ (.g 6) (.g 2) 0 (.ty .b64)),
   ([0x8388E077, 0x00407800], .st ⟨0, 7, false⟩ (.g 28) (.g 14) 64 (.ty .b64)),
   ([0x82902FFF, 0xFF027811], .vote ⟨0, 7, false⟩ (.g 5) 2 1 false .any),
   ([0x84002817, 0x03FF1800], .atom ⟨0, 7, false⟩ (.g 5) (.g 2) (.g 3) .add .s64),
   ([0x8487FFFF, 0xFFFF7814], .fence ⟨0, 7, false⟩ .rel .di),
   ([0x8507F80C, 0x00007800], .cpy ⟨0, 4, false⟩ (.g 1) 0),
   ([0x8587F827, 0x00407800], .mxp ⟨0, 7, false⟩ (.g 4) 64),
   ([0x86001047, 0x01007800], .pin ⟨0, 7, false⟩ 2 (.g 8) 256 0),
   ([0x868FF83F, 0x08017800], .cwait ⟨0, 7, false⟩ 1 (.g 7) (.g 8)),
   ([0x870067FF, 0xFFFF7803], .srd ⟨0, 7, false⟩ (.g 12) 3)]

/-- Words that no instruction has: LEN 0b01, the compact bit 0, a reserved cell, a literal form that is not marked, a class 15. -/
def refusedWords : List (List Nat) :=
  [[0x40000000, 0, 0], [0x0000820D, 0, 0], [0x877FFFFF, 0xFFFF7800, 0], [0xC38FFFFF, 0xFFFF7800, 0], [0x8780FFFF, 0xFFFF7800, 0]]

end Sys2Proof.Claims

/-- The words that the spec writes out decode to the instructions it names, and reserved words are refused (a sanity statement). -/
def Obligations.DecodeWords : Prop :=
  (∀ p ∈ knownWords, decode (bytesOf p.1) = .ok p.2) ∧ ∀ ws ∈ refusedWords, ∃ e, decode (bytesOf ws) = .error e

/-- DECODE AND ENCODE AGREE: the words of every well-formed instruction decode to it, whatever bytes follow. -/
def Sys2Proof.Claims.DecodeEncode : Prop :=
  ∀ (i : Instr) (rest : List Byte), isEvent i = false → i.wf = true → decode (encode i ++ rest) = .ok i

/-- What decodes is an instruction of the table, well-formed, and its words are exactly the words that were read (R274, R282): no
unused field or MOD bit is dropped. -/
def Sys2Proof.Claims.DecodedWords : Prop :=
  ∀ (bs : List Byte) (i : Instr), decode bs = .ok i → isEvent i = false ∧ i.wf = true ∧ encode i = bs.take i.length ∧ i.length ≤ bs.length

/-- Decode of encode is the instruction, and encode of decode the words. -/
def Obligations.EncodingRoundTrip : Prop := DecodeEncode ∧ DecodedWords

/-! ## Steps -/

/-- A STEP RUNS THE DECODED INSTRUCTION. A bundle of a core: its bytes are fetched at its PC, the landing rule of R241 is applied, and
what they decode to runs. A service thread in a turn that it has not yielded: a cycle passes, its meeting is evaluated, and its
instruction runs as a bundle of one; then it is the next running service thread's turn. Bytes that decode to nothing raise cause 0x01 with
their words. A device step at the head of the agenda runs. The model's choices: that the machine's agents move in the order of an
agenda (log 2), and that a service thread's turn lets one cycle pass (log 5). -/
def Obligations.StepRuns : Prop :=
  (∀ (b : Bundle) (r : List Bundle) (s t : State) (bs : List Byte) (landrq : Bool),
    s.issue = b :: r → s.power.shutdown = false →
    let s1 : State := { s with issue := r, cur := { b with lanes := s.liveLanes b.warp b.lanes } }
    s1.cur.lanes ≠ 0 → s1.fetch s1.curWarp s1.curPc = (t, .bytes bs landrq) →
    let t1 := t.landRule landrq bs
    t1.cur.lanes ≠ 0 →
    (∀ i, decode bs = .ok i → step s = exec i t1) ∧
    (∀ e, decode bs = .error e → step s = .next (t1.raiseAll t1.lanes { cause := 1, addr := badWords bs }))) ∧
  (∀ (i : Instr) (r : List Act) (s : State), s.issue = [] → s.agenda = .event i :: r → isEvent i = true →
    step s = exec i { s with agenda := r }) ∧
  ∀ (n : Nat) (s t : State) (bs : List Byte) (landrq : Bool) (i : Instr),
    s.issue = [] → s.agenda = [] → s.home = .service n → n < 256 → s.power.shutdown = false →
    let s1 := { s with now := s.now + 1 }.refreshTimer n
    (s1.warp n).svc.running = true → (s1.warp n).svc.nextInt = none → (s1.thread n 0).yields = false →
    let s2 := s1.modWarp n fun w => (w.rouse s1.now).evaluate 0
    s2.eligible n 0 (s2.thread n 0).stallUntil (s2.thread n 0) = true →
    let s3 : State := { s2 with cur := { warp := n, lanes := 1, slot := 1 } }
    s3.fetch s3.curWarp s3.curPc = (t, .bytes bs landrq) → decode bs = .ok i →
    let t1 := t.landRule landrq bs
    t1.cur.lanes ≠ 0 →
    step s = match exec i t1 with
      | .next u => .next (if u.home = .service n then { u with home := u.nextService n } else u)
      | x => x

/-- R241: what the landing rule does before an instruction runs: in a page with LANDRQ = 0 the bundle's landing-pending bits are
cleared; with LANDRQ = 1 a LAND goes on, and so does a bundle none of whose threads is landing-pending. -/
def Sys2Proof.Claims.LandingRule : Prop :=
  ∀ (s : State) (bs : List Byte),
    (∀ l, mbit s.cur.lanes l = true → l < s.curWarp.threads.length →
      let u := (s.landRule false bs).thread s.cur.warp l
      u.landing = false ∧ { u with landing := false } = { s.thread s.cur.warp l with landing := false }) ∧
    (∀ k, decode bs = .ok (.land k) → s.landRule true bs = s) ∧
    ((∀ l, mbit s.cur.lanes l = true → (s.thread s.cur.warp l).landing = false) → s.landRule true bs = s)

namespace Sys2Proof.Claims

/-- The registers of a warp to which R27, R148 and R237 give the value 0: FPCTL, TMO, and the trap state. -/
def Cleared (w : Warp) : Prop :=
  w.fpctl = 0 ∧ w.tmo = 0 ∧ w.tvec = 0 ∧ w.tcause = 0 ∧ w.tpc = 0 ∧ w.tmask = 0 ∧ w.tres = 0 ∧ w.taddr = 0

end Sys2Proof.Claims

/-- R235, R257, R86: reset. No warp is resident, every service thread is stopped, memory lists nothing, no cache or TLB holds anything,
no tenant has a weight or a place, every tenant's launch queues and deferred queue are empty; and the registers that R235, R236, R237 and
R257 give a reset value hold it: of every warp at reset, of a compute warp and its threads as they start (R27), and of a service thread as
it starts the ones that R235 names. The model's choices: the value of an unlisted byte of memory (log 6), the registers to which no rule
gives a value before a first start (log 7), and the 16 good lanes of every core (log 8). -/
def Obligations.ResetState : Prop :=
  State.reset.memOk ∧ (∀ a, State.reset.byteAt a = memDefault) ∧ (∀ n, (State.reset.warp n).svc.running = false) ∧
  (∀ n, (State.reset.warp n).resident = false) ∧ State.reset.tlb = [] ∧ (∀ c, State.reset.l1c c = {}) ∧
  (∀ c, State.reset.l2c c = {}) ∧ (∀ t, (State.reset.tenant t).weight = 0 ∧ (State.reset.tenant t).gpseq = 1) ∧
  (∀ t e, State.reset.placeAt t e = none) ∧ (∀ t, (State.reset.tenant t).queues = [] ∧ (State.reset.tenant t).deferQ = []) ∧
  State.reset.launches = [] ∧ State.reset.blocks = [] ∧ State.reset.engOps = [] ∧ State.reset.retargets = [] ∧
  (∀ n, Cleared (State.reset.warp n) ∧ ∀ l, (State.reset.thread n l).fpflags = 0 ∧ (State.reset.thread n l).telem = 0 ∧
    (State.reset.thread n l).rsDepth = 0 ∧ (State.reset.thread n l).landing = false) ∧
  (∀ l p b c k r, Cleared (startWarp l p b c k r) ∧ (startWarp l p b c k r).storeQ = [] ∧ (startWarp l p b c k r).oc = {}) ∧
  (∀ pc, let u := startThread pc
    u.pc = pc ∧ u.meet = 0 ∧ u.fpflags = 0 ∧ u.telem = 0 ∧ u.rsDepth = 0 ∧ u.landing = false ∧ u.exited = false ∧ (∀ k, k ≠ .q 7 → u.cur k = 0)) ∧
  (∀ w : Warp, w.startService.fpctl = 0 ∧ w.startService.tmo = 0 ∧ ∀ u ∈ w.startService.threads, u.fpflags = 0 ∧ u.meet = 0 ∧ u.rsDepth = 0 ∧
    u.landing = false ∧ u.cur (.g 1) = w.svc.svtarg ∧ ∀ k, k ≠ .g 1 → k ≠ .q 7 → u.cur k = 0) ∧
  (∀ c, (State.reset.core c).lmap = 0xFFFF ∧ (State.reset.core c).enabled = true) ∧
  ∀ n, let v := (State.reset.warp n).svc
    v.intpend = 0 ∧ v.inten = 0 ∧ v.intlvl = 0 ∧ v.timecmp = 0 ∧ v.sv = {} ∧ v.hv = {} ∧ v.mn = {} ∧ v.svtpc = 0 ∧ v.svtarg = 0

/-- EVERY STEP KEEPS MEMORY CANONICAL: addresses strictly rise, and no entry equals what an unlisted address reads as (the form, and the
value 0, are the model's, log 6). -/
def Obligations.StepKeepsMemory : Prop := Kept State.memOk

/-! ## Causes, traps and levels (R234, R239, R260, R282) -/

namespace Sys2Proof.Claims

/-- Nothing but warps changes, and the residency numbers that STALL 7 and YIELD use up. -/
def OnlyWarps (s t : State) : Prop :=
  t = { s with warps := t.warps, cores := t.cores } ∧ (∀ c, { t.core c with nextResidency := 0 } = { s.core c with nextResidency := 0 }) ∧
    SameMemory s t

/-- The bundle is not empty, and its threads are threads of the warp that have not exited. -/
def Bundled (s : State) : Prop :=
  s.cur.lanes ≠ 0 ∧ ∀ l, mbit s.cur.lanes l = true → l < s.curWarp.threads.length ∧ (s.thread s.cur.warp l).exited = false

/-- A service thread that issues. -/
def OneThread (s : State) : Prop :=
  s.cur.warp < 256 ∧ s.curWarp.service = true ∧ s.curWarp.threads.length = 1 ∧ s.cur.lanes = 1 ∧ (s.thread s.cur.warp 0).exited = false

/-- THE USER TRAP OF R239 for the threads F of the bundle: TCAUSE with the slot, TPC, TMASK and TADDR are written, and each thread of F
stands at TVEC with TELEM 0, eligible from the fourth step on; nothing else of these threads changes. -/
structure Traps (s t : State) (F : Nat → Bool) (cause : Nat) (addr : Word) : Prop where
  cause : t.curWarp.tcause = BitVec.ofNat 64 ((if s.cur.slot = 2 then 0x100 else 0) + cause)
  pc : t.curWarp.tpc = s.curPc &&& ~~~ 3#64
  addr : t.curWarp.taddr = addr
  mask : ∀ l, l < 32 → t.curWarp.tmask.getLsbD l = F l
  inside : ∀ l, F l = true → l < s.curWarp.threads.length →
    let u := t.thread s.cur.warp l
    u.pc = s.curWarp.tvec ∧ u.telem = 0 ∧ u.wait = .none ∧ u.stallUntil = (s.core s.curWarp.core).step + 4 ∧
      { u.bare with telem := 0 } = { (s.thread s.cur.warp l).bare with telem := 0 }

/-- What a user trap leaves alone beside its threads. -/
structure TrapFrame (s t : State) : Prop where
  others : ∀ n, n ≠ s.cur.warp → t.warp n = s.warp n
  warp : { t.curWarp with threads := [], tcause := 0, tpc := 0, tmask := 0, taddr := 0, residency := 0 } =
    { s.curWarp with threads := [], tcause := 0, tpc := 0, tmask := 0, taddr := 0, residency := 0 }
  outside : ∀ l, mbit s.cur.lanes l = false → t.thread s.cur.warp l = s.thread s.cur.warp l
  rest : OnlyWarps s t

/-- THE ENTRY TO LEVEL x OF R260 in service thread n: XCAUSE, XADDR and XPC are written, the level is x and the PC XVEC; no other
level's registers, no general register, predicate or flag changes. -/
structure Enters (s t : State) (n : Nat) (x : Level) (kind code intno : Nat) (addr xpc : Word) : Prop where
  level : (t.warp n).svc.level = x
  cause : ((t.warp n).svc.regs x).cause = BitVec.ofNat 64 ((s.warp n).svc.level.num * 2 ^ 16 + intno * 2 ^ 12 + kind * 2 ^ 8 + code)
  addr : ((t.warp n).svc.regs x).addr = addr
  saved : ((t.warp n).svc.regs x).pc = xpc &&& ~~~ 3#64
  vector : ((t.warp n).svc.regs x).vec = ((s.warp n).svc.regs x).vec ∧ (t.thread n 0).pc = ((s.warp n).svc.regs x).vec
  levels : ∀ y, y ≠ .user → (y = x ∨ (t.warp n).svc.regs y = (s.warp n).svc.regs y)
  waits : (t.thread n 0).wait = .none
  thread : { (t.thread n 0).bare with rsDepth := 0, graceKept := [] } = { (s.thread n 0).bare with rsDepth := 0, graceKept := [] }
  svc : { (t.warp n).svc with level := .user, sv := {}, hv := {}, mn := {} } = { (s.warp n).svc with level := .user, sv := {}, hv := {}, mn := {} }
  warp : { t.warp n with threads := [], svc := {} } = { s.warp n with threads := [], svc := {} }
  others : ∀ m, m ≠ n → t.warp m = s.warp m
  rest : OnlyWarps s t

/-- A user-level warp that takes a trap now: TVEC is set and no trap is active (R239). -/
def Traceable (s : State) : Prop := s.curWarp.level = .user ∧ s.curWarp.tvec ≠ 0 ∧ s.curWarp.tmask = 0

/-- The threads of the bundle that are in it. -/
def inBundle (s : State) (l : Nat) : Bool := mbit s.cur.lanes l

/-- The guard-true threads of the bundle. -/
def acting (i : Instr) (s : State) (l : Nat) : Bool := mbit s.cur.lanes l && (s.cx s.cur.warp l).guard (ctlOf i)

/-- Checks 6 to 8 of R282 for a warp, with the causes and TADDR. -/
def refusedBy (i : Instr) (s : State) : Option (Nat × Word) :=
  let w := s.curWarp
  let words := wordsAddr i
  let marked : Bool := absentOnService i || absentForm i
  if ((refsOf i).1 ++ (refsOf i).2).any (fun r => match r with
    | .g n => decide (w.regsN ≤ n)
    | _ => false) then some (1, words)
  else if (w.service = true ∧ marked = true) ∨ (w.service = false ∧ opOf i = some .svc) ∨ (clsOf i = 11 ∧ s.engineRetired w.core = true) then
    some (0x0B, 0)
  else if w.level.num < needLevel i then some (2, 0)
  else match i with
    | .srd _ _ n => access words (sysLevel n.val) w
    | .swr _ n _ => if sysLevel n.val = none then some (1, words) else access words (sysWriteLevel w.service n.val) w
    | _ => none
where
  /-- R257: an unassigned number or a write of a read-only register gives 0x01, a level that is too low 0x02. -/
  access (words : Word) (need : Option Nat) (w : Warp) : Option (Nat × Word) :=
    match need with
    | none => some (1, words)
    | some n => if w.level.num < n then some (2, 0) else none

/-- The level that takes a synchronous cause raised at level x: the first from x on with a vector (R260). -/
def takenAt (v : Svc) (x y : Level) : Prop :=
  x.num ≤ y.num ∧ y ≠ .user ∧ (v.regs y).vec ≠ 0 ∧ ∀ z : Level, z ≠ .user → x.num ≤ z.num → z.num < y.num → (v.regs z).vec = 0

end Sys2Proof.Claims

/-- R282, R28, R280, R257: an instruction that fails one of checks 6 to 8 has no effect; at user level every thread of the bundle, guard
true or false, takes one trap with the first failing check's cause; above it the service thread enters the level of R234 and R283:
cause 0x02 the next higher unless it is SEC's (R399), every other cause the level itself, upwards where the vector is 0. -/
def Sys2Proof.Claims.RefusedByCheck : Prop :=
  ∀ (i : Instr) (s : State) (c : Nat) (a : Word), isEvent i = false → refusedBy i s = some (c, a) → s.cur.lanes ≠ 0 →
    (Traceable s → ∃ t, exec i s = .next t ∧ Traps s t (inBundle s) c a ∧ TrapFrame s t) ∧
    ∀ y, OneThread s → s.curWarp.level ≠ .user →
      takenAt s.curWarp.svc (if c = 2 ∧ opOf i ≠ some .sec then s.curWarp.level.up else s.curWarp.level) y →
      ∃ t, exec i s = .next t ∧ Enters s t s.cur.warp y 0 c 0 a s.curPc

/-- R37, R282: a warp-wide instruction issued while some thread of the warp that has not exited is at another PC has no effect, and the
bundle's threads trap with cause 0x0A; while all are there but some cannot issue, nothing happens. R59: under the checking
scoreboard the threads that read a result early trap with cause 0x09, and no thread of the bundle has an effect. -/
def Sys2Proof.Claims.PartialAndEarly : Prop :=
  ∀ (i : Instr) (s : State), isEvent i = false → refusedBy i s = none → s.cur.lanes ≠ 0 → Traceable s →
    let there (l : Nat) : Prop := l < s.curWarp.threads.length ∧ (s.thread s.cur.warp l).exited = false
    let wide : Prop := clsOf i = 10 ∨ clsOf i = 11
    (wide → (∃ l, there l ∧ (s.thread s.cur.warp l).pc ≠ s.curPc) →
      ∃ t, exec i s = .next t ∧ Traps s t (inBundle s) 0x0A 0 ∧ TrapFrame s t) ∧
    (wide → (∀ l, there l → (s.thread s.cur.warp l).pc = s.curPc) → (∃ l, there l ∧ mbit s.cur.lanes l = false) → exec i s = .next s) ∧
    ((¬ wide ∨ ∀ l, there l → (s.thread s.cur.warp l).pc = s.curPc ∧ mbit s.cur.lanes l = true) → s.curWarp.checking = true →
      let short (l : Nat) : Bool := mbit s.cur.lanes l && readsEarly i (s.cx s.cur.warp l)
      (∃ l, short l = true) → ∃ t, exec i s = .next t ∧ Traps s t short 0x09 0 ∧ TrapFrame s t ∧
        ∀ l, short l = false → t.thread s.cur.warp l = s.thread s.cur.warp l)

/-- What the issue checks of R282 refuse, and when a result is read. -/
def Obligations.IssueChecks : Prop := RefusedByCheck ∧ PartialAndEarly ∧ LandingRule

/-- R409, R311, R239: TRAP raises cause 0x08 with its code, BRKPT with all ones where Lantern holds no debugger hold, in the guard-true
threads; the others only advance. Under a hold the guard-true threads of BRKPT go on asleep. Without a vector, or inside the handler,
the launch stops with status 4 and the cause; while another trap is active the threads wait. -/
def Sys2Proof.Claims.SoftwareTraps : Prop :=
  ∀ (i : Instr) (code : Word) (s : State), (∃ k imm, i = .trap k imm ∧ code = imm.setWidth 64) ∨
      (∃ k, i = .brkpt k ∧ code = BitVec.allOnes 64 ∧ (s.tenant s.curWarp.tenant).debugHold = false) →
    Issues i s → Bundled s → (∃ l, acting i s l = true) →
    (Traceable s → ∃ t, exec i s = .next t ∧ Traps s t (acting i s) 8 code ∧ TrapFrame s t ∧
      ∀ l, mbit s.cur.lanes l = true → l < s.curWarp.threads.length → acting i s l = false →
        OnlyAdvances i s (s.thread s.cur.warp l) (t.thread s.cur.warp l)) ∧
    (s.curWarp.level = .user → s.curWarp.tvec ≠ 0 → s.curWarp.tmask ≠ 0 →
      (∀ l, l < 32 → acting i s l = true → s.curWarp.tmask.getLsbD l = false) →
      ∃ t, exec i s = .next t ∧ t.curWarp.tmask = s.curWarp.tmask ∧ ∀ l, acting i s l = true → l < s.curWarp.threads.length →
        t.thread s.cur.warp l = { s.thread s.cur.warp l with wait := .trapMask }) ∧
    ∀ L, s.curWarp.service = false → s.curWarp.resident = true → tget s.launches s.curWarp.launch = some L → L.stopped = false →
      L.state ≠ .finished → L.state ≠ .finishing → (s.curWarp.tvec = 0 ∨ ∃ l, l < 32 ∧ acting i s l = true ∧ s.curWarp.tmask.getLsbD l = true) →
      ∃ t L', exec i s = .next t ∧ tget t.launches s.curWarp.launch = some L' ∧ L'.stopped = true ∧ L'.status = 4 ∧ L'.cause = 8 ∧
        ∀ l, l < s.curWarp.threads.length → (t.thread s.cur.warp l).exited = true

/-- R311: under Lantern's debugger hold a BRKPT is passed by threads that then sleep until the hold ends. -/
def Sys2Proof.Claims.DebuggerHold : Prop :=
  ∀ (k : Ctl) (s : State), Issues (.brkpt k) s → (s.tenant s.curWarp.tenant).debugHold = true →
    InEachThread (.brkpt k) s fun x u => IssuedTo (.brkpt k) s (nextPc (.brkpt k) x.t) u ∧ u.debugSleep = true ∧
      { u.bare with debugSleep := false } = { x.t.bare with debugSleep := false }

/-- TRAP and BRKPT. -/
def Obligations.TrapInstructions : Prop := SoftwareTraps ∧ DebuggerHold

/-- R260, R399, R357: SVC at user level, HVC and SEC where they may issue enter their level with KIND 1, 2, 3, XADDR the zero-extended
immediate and XPC the next instruction; guard-false, the thread only advances. SVC above user level raises cause 0x01. -/
def Obligations.LevelCalls : Prop :=
  ∀ (s : State) (i : Instr) (x : Level) (kind : Nat) (imm : BitVec 16),
    (∃ k, (i = .svc k imm ∧ x = .supervisor ∧ kind = 1) ∨ (i = .hvc k imm ∧ x = .hypervisor ∧ kind = 2) ∨
      (i = .sec k imm ∧ x = .monitor ∧ kind = 3)) →
    Issues i s → OneThread s →
    (acting i s 0 = true → (kind = 1 → s.curWarp.level = .user) →
      ∃ t, exec i s = .next t ∧ Enters s t s.cur.warp x kind 0 0 (imm.setWidth 64) (nextPc i (s.thread s.cur.warp 0))) ∧
    (acting i s 0 = true → kind = 1 → s.curWarp.level ≠ .user → ∀ y, takenAt s.curWarp.svc s.curWarp.level y →
      ∃ t, exec i s = .next t ∧ Enters s t s.cur.warp y 0 1 0 0 s.curPc) ∧
    (acting i s 0 = false →
      ∃ t, exec i s = .next t ∧ OnlyBundle i s t ∧ OnlyAdvances i s (s.thread s.cur.warp 0) (t.thread s.cur.warp 0))

/-- R240, R260, R327: ERET. At user level a thread in the handler clears its own bit of TMASK and resumes at TPC; above user level the PC
becomes XPC and the level PRIOR; a guard-false thread only advances. Either form in a thread outside the handler, and `.sub` above
user level, raise cause 0x01. -/
def Sys2Proof.Claims.TrapReturns : Prop :=
  ∀ (k : Ctl) (sub : Bool) (s : State), let i : Instr := .eret k sub
    Issues i s → Bundled s →
    (sub = false → s.curWarp.level = .user → (∀ l, acting i s l = true → s.curWarp.tmask.getLsbD l = true) →
      ∃ t, exec i s = .next t ∧ (∀ l, l < 32 → t.curWarp.tmask.getLsbD l = (s.curWarp.tmask.getLsbD l && !acting i s l)) ∧
        (∀ l, mbit s.cur.lanes l = true → let u := t.thread s.cur.warp l
          IssuedTo i s (if acting i s l then s.curWarp.tpc else nextPc i (s.thread s.cur.warp l)) u ∧
            u.bare = (s.thread s.cur.warp l).bare) ∧
        { t.curWarp with threads := [], tmask := 0, residency := 0 } = { s.curWarp with threads := [], tmask := 0, residency := 0 } ∧
        (∀ l, mbit s.cur.lanes l = false → t.thread s.cur.warp l = s.thread s.cur.warp l) ∧
        (∀ n, n ≠ s.cur.warp → t.warp n = s.warp n) ∧ OnlyWarps s t) ∧
    (sub = false → s.curWarp.level ≠ .user → OneThread s → acting i s 0 = true →
      ∃ t, exec i s = .next t ∧ (t.curWarp.svc.level).num = (s.curWarp.svc.regs s.curWarp.svc.level).cause.toNat / 2 ^ 16 % 4 ∧
        IssuedTo i s (s.curWarp.svc.regs s.curWarp.svc.level).pc (t.thread s.cur.warp 0) ∧
        { (t.thread s.cur.warp 0).bare with graceKept := [] } = { (s.thread s.cur.warp 0).bare with graceKept := [] } ∧
        { t.curWarp.svc with level := .user } = { s.curWarp.svc with level := .user } ∧
        { t.curWarp with threads := [], svc := {} } = { s.curWarp with threads := [], svc := {} } ∧
        (∀ n, n ≠ s.cur.warp → t.warp n = s.warp n) ∧ OnlyWarps s t) ∧
    (Traceable s → (∃ l, acting i s l = true) → ∃ t, exec i s = .next t ∧ Traps s t (acting i s) 1 0 ∧ TrapFrame s t) ∧
    (sub = true → s.curWarp.level ≠ .user → OneThread s → acting i s 0 = true → ∀ y, takenAt s.curWarp.svc s.curWarp.level y →
      ∃ t, exec i s = .next t ∧ Enters s t s.cur.warp y 0 1 0 0 s.curPc)

/-- R240, R327: ERET.sub of one thread in the handler whose TPC holds a fetchable instruction: the marked sub-elements of its
destination, a general register, a predicate or a warp register, take TRES, TMASK loses the thread's bit, and the thread resumes after
that instruction (stated for a bundle of one thread). -/
def Sys2Proof.Claims.SubstitutingReturn : Prop :=
  ∀ (k : Ctl) (s t0 : State) (l : Nat) (i : Instr) (bs : List Byte) (landrq : Bool),
    let e : Instr := .eret k true
    let n := s.cur.warp
    let mark (j : Nat) : Bool := (s.thread n l).telem.getLsbD j
    let first (p : RegRef → Bool) : Option RegRef := (writesOf i).find? p
    let general : Option RegRef := first fun r => match r with
      | .g _ => true
      | _ => false
    let predicate : Option RegRef := first fun r => match r with
      | .q _ => true
      | _ => false
    let shared : Option RegRef := first fun r => match r with
      | .w _ => true
      | _ => false
    Issues e s → s.cur.lanes = maskOf [l] → l < 32 → l < s.curWarp.threads.length → (s.thread n l).exited = false →
    (s.cx n l).guard k = true → s.curWarp.level = .user → s.curWarp.tmask.getLsbD l = true →
    s.fetch s.curWarp s.curWarp.tpc = (t0, .bytes bs landrq) → decode bs = .ok i →
    ∃ t, exec e s = .next t ∧ t.curWarp.tmask = mclr s.curWarp.tmask l ∧
      IssuedTo e s (s.curWarp.tpc + BitVec.ofNat 64 i.length) (t.thread n l) ∧
      (∀ d, general = some (.g d) → d < s.curWarp.regsN → ∀ j, j < tyCount (destTy i) → elem ((t.thread n l).gcur d) j (destTy i) =
        if mark j then elem s.curWarp.tres j (destTy i) else elem ((s.thread n l).gcur d) j (destTy i)) ∧
      (∀ q, predicate = some (.q q) → (t.thread n l).cur (.q q) =
        if mark 0 then boolWord (s.curWarp.tres.getLsbD 0) else (s.thread n l).cur (.q q)) ∧
      (∀ w, shared = some (.w w) → ∀ j, j < tyCount (destTy i) → elem (tgetD t.curWarp.wregs w 0) j (destTy i) =
        if mark j then elem s.curWarp.tres j (destTy i) else elem (tgetD s.curWarp.wregs w 0) j (destTy i)) ∧
      (∀ r, general ≠ some r → predicate ≠ some r → (t.thread n l).cur r = (s.thread n l).cur r) ∧
      (∀ w, shared ≠ some (.w w) → tgetD t.curWarp.wregs w 0 = tgetD s.curWarp.wregs w 0) ∧
      (t.thread n l).noRegs = (s.thread n l).noRegs ∧ ∀ a, t.byteAt a = s.byteAt a

/-- ERET and ERET.sub. -/
def Obligations.Returns : Prop := TrapReturns ∧ SubstitutingReturn

/-! ## Branches, meetings, exit, waiting (class 6) -/

namespace Sys2Proof.Claims

/-- A branch: its target, and the register that takes the address of the next instruction. -/
def branchForm : Instr → Option (Operand × Option RegRef)
  | .braLong _ imm => some (fun x => x.t.pc + 4 * imm.signExtend 64, none)
  | .braLiteral _ v => some (fun x => x.t.pc + 4 * v.signExtend 64, none)
  | .brx _ a => some (src a, none)
  | .callLong _ d imm => some (fun x => x.t.pc + 4 * imm.signExtend 64, dstReg d)
  | .callLiteral _ d v => some (fun x => x.t.pc + 4 * v.signExtend 64, dstReg d)
  | .callx _ d a => some (src a, dstReg d)
  | .ret _ a => some (src a, none)
  | _ => none

/-- The branches that set the landing-pending bit (R241, R309). -/
def lands : Instr → Bool
  | .brx _ _ | .callx _ _ _ => true
  | _ => false

/-- MEET and LEAVE: the meeting address before its low bits are cleared, and where the thread goes. -/
def meetForm : Instr → Option (Operand × Operand)
  | .meetLong k (.label o) => some (fun x => x.t.pc + 4 * o.signExtend 64, fun x => nextPc (.meetLong k (.label o)) x.t)
  | .meetLong k (.reg r) => some (src r, fun x => nextPc (.meetLong k (.reg r)) x.t)
  | .meetLiteral k v => some (fun x => x.t.pc + 4 * v.signExtend 64, fun x => nextPc (.meetLiteral k v) x.t)
  | .leaveLong _ a imm => some (src a, fun x => x.t.pc + 4 * imm.signExtend 64)
  | .leaveLiteral _ a v => some (src a, fun x => x.t.pc + 4 * v.signExtend 64)
  | _ => none

end Sys2Proof.Claims

/-- R309, R278, R389: a guard-true thread of BRA, BRX, CALL, CALLX or RET goes to the target, whatever it is; a link register takes the
address of the next instruction, the target being read first; BRX and CALLX set the landing-pending bit; nothing else changes. No rule
numbers the latency of the link register: 4 is the model's choice (log 15). -/
def Obligations.Branches : Prop :=
  ∀ (i : Instr) (target : Operand) (link : Option RegRef) (s : State), branchForm i = some (target, link) → Issues i s →
    Moves i s target fun x u =>
      u.landing = (lands i || x.t.landing) ∧ { u.noRegs with landing := false } = { x.t.noRegs with landing := false } ∧
        Writes x u 4 link (nextPc i x.t)

/-- R370, R31, R278: MEET writes MEET with bits 1:0 cleared and goes on; LEAVE writes it and goes to its target, in one issue. -/
def Sys2Proof.Claims.MeetingAddresses : Prop :=
  ∀ (i : Instr) (m target : Operand) (s : State), meetForm i = some (m, target) → Issues i s →
    Moves i s target fun x u => u.meet = m x &&& ~~~ 3#64 ∧ { u.bare with meet := 0 } = { x.t.bare with meet := 0 }

/-- R30, R52: the meeting evaluation of a warp: a thread that stands at its meeting address is released when every holder that has
not exited stands there, awake and outside the trap handler: its MEET becomes 0 and it is not held; else it is held. A sleeper counts
as elsewhere (R404, R311), and so does a thread in its handler (R32, R239), which is not held wherever it stands and keeps its MEET. A
release costs the warp the next step, and not the one in which it is made. -/
def Sys2Proof.Claims.Meetings : Prop :=
  ∀ (w : Warp) (step l : Nat), l < w.threads.length →
    let t := (w.threads[l]?).getD {}
    let u := ((w.evaluate step).threads[l]?).getD {}
    let inHandler (k : Nat) : Prop := w.tmask.getLsbD k = true
    let at_ (k : Nat) (v : Thread) : Prop := v.exited = false ∧ v.meet ≠ 0 ∧ v.pc = v.meet ∧ ¬ inHandler k
    let there (k : Nat) (v : Thread) : Prop := at_ k v ∧
      ∀ (j : Nat) (x : Thread), w.threads[j]? = some x → x.exited = false → x.meet = v.meet →
        x.pc = v.meet ∧ x.asleep = none ∧ x.debugSleep = false ∧ ¬ inHandler j
    let free : Prop := there l t
    (free → u = { t with meet := 0, held := false }) ∧
    (¬ free → u.meet = t.meet ∧ (u.held = true ↔ at_ l t) ∧ { u with held := false } = { t with held := false }) ∧
    (inHandler l → u = { t with held := false }) ∧
    ((w.evaluate step).merging = true ↔ w.mergeUntil = step) ∧ (free → (w.evaluate step).mergeUntil = step + 1) ∧
    ((∀ (k : Nat) (v : Thread), w.threads[k]? = some v → ¬ there k v) → (w.evaluate step).mergeUntil = w.mergeUntil)

/-- R377, R404, R365, R418: NOP only advances; SLEEP puts a guard-true thread to sleep for the cycles of its register, none for 0; LAND
clears the landing-pending bit of every thread of the bundle; YIELD gives a compute warp a new residency number, above all others of
its core, when some thread is guard-true; a guard-true service thread yields its next turn as it does with STALL 7. -/
def Sys2Proof.Claims.PauseResults : Prop :=
  ∀ (k : Ctl) (s : State),
    (Issues (.nop k) s → InEachThread (.nop k) s fun x u => OnlyAdvances (.nop k) s x.t u) ∧
    (∀ a, Issues (.sleep k a) s → InEachThread (.sleep k a) s fun x u =>
      let n := (x.src a).toNat % 2 ^ 32
      IssuedTo (.sleep k a) s (nextPc (.sleep k a) x.t) u ∧ { u.bare with asleep := none } = { x.t.bare with asleep := none } ∧
        u.asleep = if n = 0 then x.t.asleep else some (s.now + n)) ∧
    (Issues (.land k) s → ∃ t, exec (.land k) s = .next t ∧ OnlyBundle (.land k) s t ∧
      ∀ l, mbit s.cur.lanes l = true → l < s.curWarp.threads.length → let u := t.thread s.cur.warp l
        IssuedTo (.land k) s (nextPc (.land k) (s.thread s.cur.warp l)) u ∧ u.landing = false ∧
          { u.bare with landing := false } = { (s.thread s.cur.warp l).bare with landing := false }) ∧
    (Issues (.yield k) s → OneThread s → ∃ t, exec (.yield k) s = .next t ∧ OnlyBundle (.yield k) s t ∧
      let old := s.thread s.cur.warp 0
      let u := t.thread s.cur.warp 0
      (acting (.yield k) s 0 = true → u.pc = nextPc (.yield k) old ∧ u.age = 0 ∧ u.wait = .none ∧ u.yields = true ∧ u.bare = old.bare) ∧
      (acting (.yield k) s 0 = false → OnlyAdvances (.yield k) s old u)) ∧
    (Issues (.yield k) s → s.curWarp.service = false → ∃ t, exec (.yield k) s = .next t ∧ OnlyWarps s t ∧ (∀ n, n ≠ s.cur.warp → t.warp n = s.warp n) ∧
      { t.curWarp with threads := [], residency := 0 } = { s.curWarp with threads := [], residency := 0 } ∧
      (∀ l, mbit s.cur.lanes l = true → l < s.curWarp.threads.length →
        OnlyAdvances (.yield k) s (s.thread s.cur.warp l) (t.thread s.cur.warp l)) ∧
      (∀ l, mbit s.cur.lanes l = false → t.thread s.cur.warp l = s.thread s.cur.warp l) ∧
      ((∃ l, acting (.yield k) s l = true) →
        (s.core s.curWarp.core).nextResidency ≤ t.curWarp.residency ∧ t.curWarp.residency < (t.core s.curWarp.core).nextResidency))

/-- NOP, SLEEP, LAND, YIELD, MEET and LEAVE, and what the meeting evaluation does to the threads of a warp. -/
def Obligations.Pauses : Prop := PauseResults ∧ MeetingAddresses ∧ Meetings

namespace Sys2Proof.Claims

/-- A thread that has exited (R33): its read section ends, its reservation lapses, it waits for nothing; its registers stand. -/
def HasExited (old u : Thread) : Prop :=
  u.exited = true ∧ u.rsDepth = 0 ∧ u.resv = none ∧ u.wait = .none ∧ u.asleep = none ∧ u.regs = old.regs ∧ u.preds = old.preds ∧
    u.pc = old.pc ∧ u.meet = old.meet ∧ u.fpflags = old.fpflags

end Sys2Proof.Claims

/-- R328, R33, R240: EXIT on a compute core: each guard-true thread exits and clears its TMASK bit, the warp's queued stores stay to be
performed; guard-false threads only advance. On a service core it is a supervisor entry of KIND 1 at user level, with XADDR all ones
and XPC the EXIT, the read section ended; above it the thread stops. -/
def Sys2Proof.Claims.Exits : Prop :=
  ∀ (k : Ctl) (s : State), let i : Instr := .exit k
    Issues i s → Bundled s →
    (s.curWarp.service = false → s.curWarp.paired = false → ∃ t, exec i s = .next t ∧
      (∀ l, acting i s l = true → HasExited (s.thread s.cur.warp l) (t.thread s.cur.warp l)) ∧
      (∀ l, l < 32 → t.curWarp.tmask.getLsbD l = (s.curWarp.tmask.getLsbD l && !acting i s l)) ∧
      (∀ l, mbit s.cur.lanes l = true → acting i s l = false → OnlyAdvances i s (s.thread s.cur.warp l) (t.thread s.cur.warp l)) ∧
      (∀ l, mbit s.cur.lanes l = false → t.thread s.cur.warp l = s.thread s.cur.warp l) ∧
      { t.curWarp with threads := [], tmask := 0, residency := 0 } = { s.curWarp with threads := [], tmask := 0, residency := 0 } ∧
      (∀ n, n ≠ s.cur.warp → t.warp n = s.warp n) ∧ OnlyWarps s t) ∧
    (OneThread s → acting i s 0 = true → ∃ t, exec i s = .next t ∧
      (s.curWarp.level = .user →
        Enters s t s.cur.warp .supervisor 1 0 0 (BitVec.allOnes 64) s.curPc ∧ (t.thread s.cur.warp 0).rsDepth = 0) ∧
      (s.curWarp.level ≠ .user → t.curWarp.svc.running = false ∧ HasExited (s.thread s.cur.warp 0) (t.thread s.cur.warp 0) ∧
        t.curWarp.storeQ = s.curWarp.storeQ ∧ (∀ n, n ≠ s.cur.warp → t.warp n = s.warp n) ∧ OnlyWarps s t))

/-- R39, R33: REORD by one thread outside a read section, its loads landed, whose target is live and has room on its die and neither
drains nor has 511 deposits yet: the deposit stands in ascending key order after equal keys, and the thread exits. -/
def Sys2Proof.Claims.Deposits : Prop :=
  ∀ (k : Ctl) (a b c : Src) (s : State) (l : Nat) (r : ReTarget), let i : Instr := .reord k a b c
    let n := s.cur.warp
    let x := s.cx n l
    let d := dieOf s.curWarp.core
    Issues i s → s.curWarp.paired = false → s.curWarp.service = false → s.cur.lanes = maskOf [l] → l < 32 →
    l < s.curWarp.threads.length → (s.thread n l).exited = false → acting i s l = true → (s.thread n l).rsDepth = 0 →
    (∀ p ∈ (s.thread n l).pend, p.due ≤ s.now) → s.retarget s.curWarp.tenant (x.src c).toNat = some r → r.draining = false →
    (r.buf d).length < 511 → (r.buf d).Pairwise (fun p q => p.key ≤ q.key) →
    ∃ t r', exec i s = .next t ∧ HasExited (s.thread n l) (t.thread n l) ∧
      t.retarget s.curWarp.tenant (x.src c).toNat = some r' ∧
      (r'.buf d).Pairwise (fun p q => p.key ≤ q.key) ∧
      (∃ before after, r'.buf d = before ++ { key := (x.src a).toNat % 2 ^ 32, payload := x.src b } :: after ∧ r.buf d = before ++ after ∧
        (∀ p ∈ before, p.key ≤ (x.src a).toNat % 2 ^ 32) ∧ ∀ p ∈ after, (x.src a).toNat % 2 ^ 32 < p.key) ∧
      (∀ m u, (m ≠ n ∨ u ≠ l) → t.thread m u = s.thread m u) ∧ ∀ q, t.byteAt q = s.byteAt q

/-- EXIT and REORD. -/
def Obligations.ExitsAndDeposits : Prop := Exits ∧ Deposits

/-! ## Memory (classes 7 and 8) -/

namespace Sys2Proof.Claims

/-- A bundle of one guard-true thread of an unpaired warp, whose instruction passes the issue checks. The threads of a larger bundle
act one after another in ascending lane (R295). -/
structure Solo (i : Instr) (s : State) (l : Nat) : Prop where
  issues : Issues i s
  lanes : s.cur.lanes = maskOf [l]
  lane : l < 32 ∧ l < s.curWarp.threads.length
  alive : (s.thread s.cur.warp l).exited = false
  guard : (s.cx s.cur.warp l).guard (ctlOf i) = true
  single : s.curWarp.paired = false

/-- A byte of memory as a core's own stores have left it: the dirty byte of its L1, else the byte below (R101). -/
def sees (s : State) (core a : Nat) : Byte := ((s.l1c core).dirtyByte a).getD (s.byteAt a)

/-- A byte as the cache that a core's coherent accesses go through reads it: its valid copy, else the byte at home. -/
def atL2 (s : State) (core a : Nat) : Byte := ((s.l2c (l2Of core)).serves a).getD (s.byteAt a)

/-- A byte as a load of a core reads it below its store queue: L1, then the die's L2, then the home; a service core has no L1 (R101). -/
def loads (s : State) (core a : Nat) : Byte := (if core < 1024 then (s.l1c core).serves a else none).getD (atL2 s core a)

/-- A byte as an access at the point of coherence reads it, once the core's own dirty bytes of the line have gone there (R121). -/
def atHome (s : State) (core a : Nat) : Byte :=
  (if core < 1024 then (s.l1c core).dirtyByte a else none).getD (atL2 s core a)

/-- A cache's tables are in order, and each sector lists bytes of its own 64 (R101). -/
def tidy (c : Cache) : Prop := tsorted c.sectors = true ∧ ∀ p ∈ c.sectors, tsorted p.2.bytes = true ∧ ∀ b ∈ p.2.bytes, b.1 < 64

/-- The caches as the directory keeps them (R103): tables in order, at most one dirty copy of a byte among the L2s, and no L1 on a
service core. An invariant of the machine. -/
def cachesOk (s : State) : Prop :=
  (∀ k, tidy (s.l1c k) ∧ tidy (s.l2c k)) ∧ (∀ c, 1024 ≤ c → s.l1c c = {}) ∧
  ∀ a i j b c, i < 3 → j < 3 → (s.l2c i).dirtyByte a = some b → (s.l2c j).dirtyByte a = some c → i = j

/-- An access of a thread to ordinary cached memory that translates: no page moves, no write of its line waits for one, nothing
sleeps, nothing is poisoned, and the core's L1 holds no uncorrectable byte. -/
structure Plain (s : State) (l : Nat) (acc : Acc) (e : Word) (len : Nat) (x : Xlat) : Prop where
  form : e.toNat % len = 0 ∧ canonical e = true
  maps : (s.translateFor s.curWarp acc (addr e)).2 = .ok x
  tier : (tierOf x.pa).isSome = true
  cached : x.ms = false ∧ x.repl = false
  still : s.fwdAt x.pa = none
  sent : ∀ core, s.stalls core (fun a => a / 256 == x.pa / 256) = false
  awake : s.power.pstate = 0
  good : ∀ a, frameOf a = frameOf x.pa → s.poisoned a = false
  sound : ∀ a b, (s.l1c s.curWarp.core).byte a = some b → b.bad = false
  caches : cachesOk s

/-- A core's L1 holds no dirty byte, so that nothing is written back before an atomic. -/
def noDirty (s : State) (core : Nat) : Prop := ∀ a, (s.l1c core).dirtyByte a = none

/-- A core's L1 holds a dirty byte of a granule: a store of the core's own that has left its queue. -/
def ownStore (s : State) (core granule : Nat) : Prop := ∃ a b, a / 64 = granule ∧ (s.l1c core).dirtyByte a = some b

/-- The machine without its memory system, its warps and the number of free values drawn, which is the model's own. -/
def beside (s : State) : State :=
  { s with mem := [], l1 := [], l2 := [], tlb := [], counters := [], fwds := [], rings := [], poison := [], fabResv := [], warps := [],
           cores := [], drawn := 0 }

/-- WHAT A MEMORY INSTRUCTION OF ONE THREAD LEAVES ALONE: every other thread but for its reservation, every warp but for the store queue
of the issuing one, every core, every other unit. -/
structure OneThreadOnly (s t : State) (l : Nat) : Prop where
  threads : ∀ m u, (m ≠ s.cur.warp ∨ u ≠ l) → { t.thread m u with resv := none } = { s.thread m u with resv := none }
  warps : ∀ m, { t.warp m with threads := [], residency := 0, storeQ := [] } = { s.warp m with threads := [], residency := 0, storeQ := [] }
  queues : ∀ m, m ≠ s.cur.warp → (t.warp m).storeQ = (s.warp m).storeQ
  cores : ∀ c, { t.core c with nextResidency := 0 } = { s.core c with nextResidency := 0 }
  rest : beside t = beside s

/-- The reservations of all other threads stand. -/
def ResvKept (s t : State) (l : Nat) : Prop := ∀ m u, (m ≠ s.cur.warp ∨ u ≠ l) → t.thread m u = s.thread m u

/-- A write of some granule ends every reservation on it and no other (R122). -/
def ResvEnded (s t : State) (l granule : Nat) : Prop :=
  ∀ m u, (m ≠ s.cur.warp ∨ u ≠ l) → (t.thread m u).resv = match (s.thread m u).resv with
    | some r => if r.granule = granule then none else some r
    | none => none

/-- Registers and predicates of a thread: the listed ones take values, the others are as before. -/
def Sets (old u : Thread) (ws : List (RegRef × Word)) : Prop :=
  (∀ p ∈ ws, u.cur p.1 = p.2) ∧ ∀ r, (∀ p ∈ ws, p.1 ≠ r) → u.cur r = old.cur r

/-- The thread issued, with nothing changed but registers and predicates. -/
def Done (i : Instr) (s : State) (u : Thread) (old : Thread) (ws : List (RegRef × Word)) : Prop :=
  IssuedTo i s (nextPc i old) u ∧ u.noRegs = old.noRegs ∧ Sets old u ws

/-- The same, whatever becomes of the thread's reservation. -/
def DoneResv (i : Instr) (s : State) (u : Thread) (old : Thread) (ws : List (RegRef × Word)) : Prop :=
  IssuedTo i s (nextPc i old) u ∧ { u.noRegs with resv := none } = { old.noRegs with resv := none } ∧ Sets old u ws

/-- The bytes of an access. -/
def size : MTy → Nat
  | .b128 => 16
  | .ty t => tyWidth t / 8

/-- The number whose byte j is f j. -/
def number (f : Nat → Byte) (lo n : Nat) : Nat := ((List.range n).map fun j => (f (lo + j)).toNat * 2 ^ (8 * j)).sum

/-- What a load writes: a signed type extends the sign, every other zeros; `.b128` fills a pair (R368). -/
def loadDests (d : Dst) (ty : MTy) (f : Nat → Byte) : List (RegRef × Word) :=
  match d with
  | .zero => []
  | .g n => match ty with
    | .b128 => [(.g n.val, BitVec.ofNat 64 (number f 0 8)), (.g (n.val + 1), BitVec.ofNat 64 (number f 8 8))]
    | .ty t => [(.g n.val,
        if tySigned t then (BitVec.ofNat (tyWidth t) (number f 0 (tyWidth t / 8))).signExtend 64
        else BitVec.ofNat 64 (number f 0 (tyWidth t / 8)))]

/-- Byte j of a store's data: the low bytes of gD, or of a pair (R407). -/
def dataByte (x : LaneCx) (d : Src) (j : Nat) : Byte := BitVec.ofNat 8 ((if j < 8 then x.src d else x.srcHi d).toNat / 2 ^ (8 * (j % 8)))

/-- The bytes of a store. -/
def dataBytes (x : LaneCx) (d : Src) (n : Nat) : List Byte := (List.range n).map (dataByte x d)

/-- The predicate destination with its value. -/
def predDest (q : Pred) (b : Bool) : List (RegRef × Word) := (predReg q).toList.map fun r => (r, boolWord b)

end Sys2Proof.Claims

/-- R368, R101, R108: a load of ordinary memory gives each byte from the warp's youngest queued store to it, else from L1, the die's L2
or the home, extended by its type; no byte of memory and no dirty byte of an L1 changes, and no other register. -/
def Obligations.Loads : Prop :=
  ∀ (k : Ctl) (d : Dst) (a : Src) (imm : BitVec 16) (ty : MTy) (s : State) (l : Nat) (x : Xlat),
    let i : Instr := .ld k d a imm ty
    let n := s.cur.warp
    let queued (j : Nat) : Fwded := forwarded s.curWarp.storeQ (some (x.pa + j)) none
    i.wf = true → Solo i s l → Plain s l accLoad ((s.cx n l).ea a imm) (size ty) x → (∀ j, j < size ty → queued j ≠ .red) →
    ∃ t, exec i s = .next t ∧ OneThreadOnly s t l ∧ ResvKept s t l ∧ t.curWarp.storeQ = s.curWarp.storeQ ∧
      Done i s (t.thread n l) (s.thread n l) (loadDests d ty fun j => match queued j with
        | .byte v => v
        | _ => loads s s.curWarp.core (x.pa + j)) ∧
      (∀ q, t.byteAt q = s.byteAt q) ∧ ∀ c q, sees t c q = sees s c q

/-- R407, R108: a store enters the warp's queue with its bytes where it has room, on compute and service cores alike, and memory is
unchanged until it drains; where the queue is full the thread waits, and nothing else changes. -/
def Obligations.Stores : Prop :=
  ∀ (k : Ctl) (d a : Src) (imm : BitVec 16) (ty : MTy) (s : State) (l : Nat) (x : Xlat),
    let i : Instr := .st k d a imm ty
    let n := s.cur.warp
    i.wf = true → Solo i s l → Plain s l accStore ((s.cx n l).ea a imm) (size ty) x →
    (s.curWarp.storeQ.length < 128 → ∃ t, exec i s = .next t ∧ OneThreadOnly s t l ∧ ResvKept s t l ∧
      t.curWarp.storeQ = s.curWarp.storeQ ++ [.store (.mem x) (dataBytes (s.cx n l) d (size ty))] ∧
      Done i s (t.thread n l) (s.thread n l) [] ∧ (∀ q, t.byteAt q = s.byteAt q) ∧ ∀ c q, sees t c q = sees s c q) ∧
    (128 ≤ s.curWarp.storeQ.length →
      exec i s = .next (s.modThread n l fun t => { t with wait := .queue 1 }))

/-- R101, R103, R108, R387: the oldest entry of an unpaired warp's queue drains. A store to ordinary memory leaves its bytes dirty in a
compute core's L1, where its line has or finds a place; a service core's is performed at its home, and every reservation on its granule
ends. A reduction is performed at its home: its element becomes the old value combined with the operand. No other byte changes as the core
sees it, and the queue keeps its other entries in order. (Where every way of a set is taken a line passes through, log 78.) -/
def Sys2Proof.Claims.QueueDrains : Prop :=
  ∀ (s : State) (n : Nat) (x : Xlat) (q : List SqEntry),
    let core := (s.warp n).core
    (s.warp n).paired = false → (tierOf x.pa).isSome = true → x.ms = false → x.repl = false → s.fwdAt x.pa = none →
    s.stalls core (fun a => a / 256 == x.pa / 256) = false → cachesOk s →
    (∀ bs, (s.warp n).storeQ = .store (.mem x) bs :: q →
      (core < 1024 → (s.l1Place core (x.pa / 256) (some x)).isSome = true → ∃ t, exec (.storeQueueDrain n) s = .next t ∧
        t = { s with warps := t.warps, l1 := t.l1 } ∧ (∀ m, t.warp m = if m = n then { s.warp n with storeQ := q } else s.warp m) ∧
        (∀ p, t.byteAt p = s.byteAt p) ∧
        ∀ c p, sees t c p = if c = core ∧ x.pa ≤ p ∧ p < x.pa + bs.length then (bs[p - x.pa]?).getD 0 else sees s c p) ∧
      (1024 ≤ core → bs ≠ [] → x.pa % 64 + bs.length ≤ 64 → ∃ t, exec (.storeQueueDrain n) s = .next t ∧ (t.warp n).storeQ = q ∧
        (∀ m u, (t.thread m u).resv = match (s.thread m u).resv with
          | some r => if r.granule = x.pa / 64 then none else some r
          | none => none) ∧
        ∀ p, t.byteAt p = if x.pa ≤ p ∧ p < x.pa + bs.length then (bs[p - x.pa]?).getD 0 else s.byteAt p)) ∧
    ∀ op ty v, (s.warp n).storeQ = .red (.mem x) op ty v :: q → x.pa % (tyWidth ty / 8) = 0 → (tyWidth ty = 32 ∨ tyWidth ty = 64) →
      let old (j : Nat) : Byte := atHome s core (x.pa + j)
      ∃ t, exec (.atomicAtHome n) s = .next t ∧ exec (.storeQueueDrain n) s = .next t ∧ (t.warp n).storeQ = q ∧
        (∀ p, x.pa ≤ p → p < x.pa + tyWidth ty / 8 →
          t.byteAt p = BitVec.ofNat 8 (atomElem op ty (number old 0 (tyWidth ty / 8)) v.toNat / 2 ^ (8 * (p - x.pa)))) ∧
        ∀ p, (p < x.pa ∨ x.pa + tyWidth ty / 8 ≤ p) → sees t core p = sees s core p ∧ (t.byteAt p = s.byteAt p ∨ t.byteAt p = sees s core p)

/-- R103: reset has coherent caches, and every step keeps at most one dirty copy of a byte among the L2s. -/
def Obligations.CachesStayCoherent : Prop := cachesOk State.reset ∧ Kept cachesOk

/-- R372, R396, R122: LR loads at the point of coherence and leaves its thread a reservation on the granule, with the time; SC with a
reservation that covers the granule and is at most 2 µs old writes exactly its bytes and sets qd; without one, or where a store of its
core to the granule is written back first (R121), it writes nothing of its own and clears qd; either way its reservation ends. (The
warp's store queue has drained.) -/
def Obligations.Reservations : Prop :=
  ∀ (k : Ctl) (a : Src) (imm : BitVec 16) (ty : Ty) (s : State) (l : Nat) (x : Xlat),
    let n := s.cur.warp
    let core := s.curWarp.core
    s.curWarp.storeQ = [] →
    (∀ d, let i : Instr := .lr k d a imm ty
      i.wf = true → Solo i s l → Plain s l accLoad ((s.cx n l).ea a imm) (tyWidth ty / 8) x →
      ∃ t, exec i s = .next t ∧ OneThreadOnly s t l ∧ (noDirty s core → ResvKept s t l) ∧ t.curWarp.storeQ = [] ∧
        DoneResv i s (t.thread n l) (s.thread n l) (loadDests d (.ty ty) fun j => atHome s core (x.pa + j)) ∧
        (t.thread n l).resv = some { granule := x.pa / 64, time := s.now } ∧
        ∀ p, sees t core p = sees s core p ∧ (t.byteAt p = s.byteAt p ∨ t.byteAt p = sees s core p)) ∧
    ∀ d q, let i : Instr := .sc k d a imm ty q
      i.wf = true → Solo i s l → Plain s l accAtomic ((s.cx n l).ea a imm) (tyWidth ty / 8) x →
      let covers : Prop := ∃ r, (s.thread n l).resv = some r ∧ r.granule = x.pa / 64 ∧ s.now ≤ r.time + 1400
      (covers → ¬ ownStore s core (x.pa / 64) → ∃ t, exec i s = .next t ∧ OneThreadOnly s t l ∧ (noDirty s core → ResvEnded s t l (x.pa / 64)) ∧ t.curWarp.storeQ = [] ∧
        DoneResv i s (t.thread n l) (s.thread n l) (predDest q true) ∧ (t.thread n l).resv = none ∧
        ∀ p, if x.pa ≤ p ∧ p < x.pa + tyWidth ty / 8 then t.byteAt p = dataByte (s.cx n l) d (p - x.pa)
          else sees t core p = sees s core p ∧ (t.byteAt p = s.byteAt p ∨ t.byteAt p = sees s core p)) ∧
      (¬ covers ∨ ownStore s core (x.pa / 64) → ∃ t, exec i s = .next t ∧ OneThreadOnly s t l ∧ (noDirty s core → ResvKept s t l) ∧
        t.curWarp.storeQ = [] ∧ DoneResv i s (t.thread n l) (s.thread n l) (predDest q false) ∧ (t.thread n l).resv = none ∧
        ∀ p, sees t core p = sees s core p ∧ (t.byteAt p = s.byteAt p ∨ t.byteAt p = sees s core p))

namespace Sys2Proof.Claims

/-- The atomics: destination, address, and the new value of an element from its number, its old value and the thread; the type. -/
def atomForm : Instr → Option (Dst × Src × Ty × (LaneCx → Nat → Nat → Nat))
  | .atom _ d a b op ty => some (d, a, ty, fun x j old => atomElem op ty old (elem (x.src b) j ty))
  | .cas _ d a b c ty => some (d, a, ty, fun x j old => if old = elem (x.src c) j ty then elem (x.src b) j ty else old)
  | _ => none

/-- The scratch atomics, with whether they act on the die scratchpad. -/
def atomsForm : Instr → Option (Dst × Src × Ty × Bool × (LaneCx → Nat → Nat → Nat))
  | .atoms _ d a b op die ty => some (d, a, ty, die, fun x j old => atomElem op ty old (elem (x.src b) j ty))
  | .cass _ d a b c die ty => some (d, a, ty, die, fun x j old => if old = elem (x.src c) j ty then elem (x.src b) j ty else old)
  | _ => none

/-- The integer operations of R301. -/
def updated (op : AtomOp) (t : Ty) (old v : Nat) : Nat :=
  let w := tyWidth t
  let val (p : Nat) : Int := if tySigned t then (BitVec.ofNat w p).toInt else p
  match op with
  | .add => (old + v) % 2 ^ w
  | .min => if val old ≤ val v then old else v
  | .max => if val old ≤ val v then v else old
  | .and => old &&& v
  | .or => old ||| v
  | .xor => old ^^^ v
  | .exch => v

/-- Element j of n bytes each, from a function of bytes. -/
def byteElem (f : Nat → Byte) (ty : Ty) (j : Nat) : Nat := number f (j * (tyWidth ty / 8)) (tyWidth ty / 8)

/-- A launch that forbids floating atomics, and a type they forbid (R64). -/
def forbidsFloat (w : Warp) (ty : Ty) : Bool := w.detFloat && (ty == .f32 || ty == .f64)

/-- The eight bytes of a word. -/
def wordByte (v : Word) (j : Nat) : Byte := BitVec.ofNat 8 (v.toNat / 2 ^ (8 * j))

end Sys2Proof.Claims

/-- R301: what an atomic makes of an element of an integer type. -/
def Sys2Proof.Claims.AtomicValues : Prop :=
  ∀ (op : AtomOp) (t : Ty) (old v : Nat), (t.intTy = true ∨ t = .b64) → old < 2 ^ tyWidth t → v < 2 ^ tyWidth t →
    atomElem op t old v = updated op t old v

/-- R301, R302, R217, R122: ATOM and CAS in one thread at ordinary memory, nothing of it applied before and the warp's queue drained: the
destination takes the old elements, the memory the new ones, every reservation on a granule written ends; no other byte changes as the
core sees it. (A CAS whose compare fails writes nothing.) -/
def Sys2Proof.Claims.Atomics : Prop :=
  ∀ (i : Instr) (d : Dst) (a : Src) (ty : Ty) (new : LaneCx → Nat → Nat → Nat) (s : State) (l : Nat) (x : Xlat),
    atomForm i = some (d, a, ty, new) → i.wf = true → Solo i s l →
    let n := s.cur.warp
    let core := s.curWarp.core
    let old (j : Nat) : Byte := atHome s core (x.pa + j)
    Plain s l accAtomic ((s.cx n l).src a) 8 x → s.curWarp.storeQ = [] → (s.thread n l).applied = 0 →
    forbidsFloat s.curWarp ty = false →
    ∃ t, exec i s = .next t ∧ OneThreadOnly s t l ∧ t.curWarp.storeQ = [] ∧
      DoneResv i s (t.thread n l) (s.thread n l) ((dstReg d).toList.map fun r => (r, BitVec.ofNat 64 (number old 0 8))) ∧
      (∀ j, j < 64 / tyWidth ty → ∀ q, q < tyWidth ty / 8 →
        t.byteAt (x.pa + j * (tyWidth ty / 8) + q) = BitVec.ofNat 8 (new (s.cx n l) j (byteElem old ty j) / 2 ^ (8 * q))) ∧
      (∀ p, (p < x.pa ∨ x.pa + 8 ≤ p) → sees t core p = sees s core p ∧ (t.byteAt p = s.byteAt p ∨ t.byteAt p = sees s core p)) ∧
      (noDirty s core → (∃ j, j < 64 / tyWidth ty ∧ new (s.cx n l) j (byteElem old ty j) ≠ byteElem old ty j) →
        ResvEnded s t l (x.pa / 64))

/-- R303, R64: a floating atomic of a launch that forbids it raises cause 0x01 in every guard-true thread; one that is not aligned on 8
bytes raises cause 0x06 with the address (stated for one thread of a user-level warp with a handler). -/
def Sys2Proof.Claims.AtomicTraps : Prop :=
  ∀ (i : Instr) (d : Dst) (a : Src) (ty : Ty) (new : LaneCx → Nat → Nat → Nat) (s : State) (l : Nat),
    atomForm i = some (d, a, ty, new) → i.wf = true → Solo i s l → Traceable s → s.curWarp.storeQ = [] →
    (forbidsFloat s.curWarp ty = true → ∃ t, exec i s = .next t ∧ Traps s t (acting i s) 1 0 ∧ TrapFrame s t) ∧
    (forbidsFloat s.curWarp ty = false → ((s.cx s.cur.warp l).src a).toNat % 8 ≠ 0 →
      ∃ t, exec i s = .next t ∧ Traps s t (acting i s) 6 ((s.cx s.cur.warp l).src a) ∧ TrapFrame s t)

/-- Atomics at their homes. -/
def Obligations.AtomicUpdates : Prop := AtomicValues ∧ Atomics ∧ AtomicTraps

/-! ## Scratch -/

namespace Sys2Proof.Claims

/-- The space with its data and tags blanked. -/
def blankScratch (s : State) : State :=
  { s with
    warps := []
    cores := []
    blocks := []
    tenants := [] }

/-- Every block as before but for its scratch, its tags and which of its words are bad. -/
def BlocksKept (s t : State) : Prop :=
  ∀ k, (tget t.blocks k).map (fun b : Block => { b with scratch := [], tags := [], errs := [] }) =
    (tget s.blocks k).map fun b => { b with scratch := [], tags := [], errs := [] }

/-- WHAT A SCRATCH INSTRUCTION LEAVES ALONE: memory and caches, every other thread, every warp, core and unit. -/
structure ScratchFrame (s t : State) (l : Nat) : Prop where
  threads : ResvKept s t l
  warps : ∀ m, { t.warp m with threads := [], residency := 0 } = { s.warp m with threads := [], residency := 0 }
  cores : ∀ c, { t.core c with nextResidency := 0 } = { s.core c with nextResidency := 0 }
  rest : blankScratch t = blankScratch s
  blocks : BlocksKept s t
  tenants : ∀ k, { t.tenant k with die0 := [], die1 := [], tags0 := [], tags1 := [], errs0 := [], errs1 := [] } =
    { s.tenant k with die0 := [], die1 := [], tags0 := [], tags1 := [], errs0 := [], errs1 := [] }
  memory : SameMemory s t

/-- Two names of one scratch space: a tenant's carve lies on die 0 or on die 1. -/
def sameSpace : ScrId → ScrId → Prop
  | .block a, .block b => a = b
  | .die t d, .die u e => t = u ∧ (d = 0 ↔ e = 0)
  | _, _ => False

/-- Every scratch byte as before but for some. -/
def BytesKept (s t : State) (id : ScrId) (off n : Nat) : Prop :=
  ∀ j o, (¬ sameSpace j id ∨ o < off ∨ off + n ≤ o) → t.scrByte j o = s.scrByte j o

/-- Every scratch byte as before but for some, and every tag but for one granule's. -/
def ScratchKept (s t : State) (id : ScrId) (off n : Nat) : Prop :=
  BytesKept s t id off n ∧ ∀ j o, (¬ sameSpace j id ∨ o / 16 ≠ off / 16) → t.tagFull j o = s.tagFull j o

/-- The scratch loads: space, destination, address, type, tag qualifier. -/
def scrLoadForm : Instr → Option (Space × Dst × Src × BitVec 16 × MTy × Tag)
  | .ldl _ d a imm ty tag => some (.prv, d, a, imm, ty, tag)
  | .lds _ d a imm ty tag die => some (if die then .die else .core, d, a, imm, ty, tag)
  | .ldc _ d a imm ty tag => some (.clu, d, a, imm, ty, tag)
  | _ => none

/-- The scratch stores: space, data, address, type, `.we`. -/
def scrStoreForm : Instr → Option (Space × Src × Src × BitVec 16 × MTy × Bool)
  | .stl _ d a imm ty we => some (.prv, d, a, imm, ty, we)
  | .sts _ d a imm ty we die => some (if die then .die else .core, d, a, imm, ty, we)
  | .stc _ d a imm ty we => some (.clu, d, a, imm, ty, we)
  | _ => none

/-- The tag instructions: space, address, the tag they leave or the predicate they write. -/
def tagForm : Instr → Option (Space × Src × BitVec 16 × Option Bool × Option Pred)
  | .feset _ a imm sp => some (sp, a, imm, some true, none)
  | .feclr _ a imm sp => some (sp, a, imm, some false, none)
  | .fetest _ q a imm sp => some (sp, a, imm, none, some q)
  | _ => none

end Sys2Proof.Claims

/-- R88: what the four scratch spaces make of E: the bits of E[63:32] that must be zero, the offset E[31:0], its alignment and its
limit; anything else gives cause 0x11 with E. -/
def Sys2Proof.Claims.ScratchAddresses : Prop :=
  ∀ (s : State) (w : Warp) (l : Nat) (e : Word) (len : Nat), 0 < len →
    let off := e.toNat % 2 ^ 32
    let hi := e.toNat / 2 ^ 32
    let b := s.block w.block
    let out : Except TrapInfo (ScrId × Nat) := .error { cause := 0x11, addr := e }
    (s.scrAddr w l .core e len = if hi = 0 ∧ off % len = 0 ∧ off + len ≤ b.sBytes then .ok (.block w.block, off) else out) ∧
    (s.scrAddr w l .prv e len = if hi = 0 ∧ off % len = 0 ∧ off + len ≤ b.pBytes
      then .ok (.block w.block, b.sBytes + b.pBytes * (32 * w.wid + l) + off) else out) ∧
    (∀ k, hi < 4 → s.gangBlock w hi = some k →
      s.scrAddr w l .clu e len = if off % len = 0 ∧ off + len ≤ (s.block k).sBytes then .ok (.block k, off) else out) ∧
    (4 ≤ hi ∨ s.gangBlock w hi = none → s.scrAddr w l .clu e len = out) ∧
    (2 ≤ hi → s.scrAddr w l .die e len = out) ∧
    (∀ d, hi < 2 → s.placeAt w.tenant (0x110 + hi) = some d →
      s.scrAddr w l .die e len =
        if off % len = 0 ∧ off + len ≤ 8388608 * (if d = 0 then (s.tenant w.tenant).units0 else (s.tenant w.tenant).units1)
        then .ok (.die w.tenant d, off) else out) ∧
    (hi < 2 → s.placeAt w.tenant (0x110 + hi) = none →
      s.scrAddr w l .die e len = .error { cause := 1, addr := BitVec.ofNat 64 hi })

/-- R95, R97, R368: a scratch load in one thread, the warp's queue drained: with its tag condition it reads the bytes, none of them bad,
and `.clr` empties the granule, nothing else changes; without it the thread waits at the instruction for a full granule. -/
def Sys2Proof.Claims.ScratchLoads : Prop :=
  ∀ (i : Instr) (sp : Space) (d : Dst) (a : Src) (imm : BitVec 16) (ty : MTy) (tag : Tag) (s : State) (l : Nat) (id : ScrId) (off : Nat),
    scrLoadForm i = some (sp, d, a, imm, ty, tag) → i.wf = true → Solo i s l → s.curWarp.storeQ = [] →
    let n := s.cur.warp
    s.scrAddr s.curWarp l sp ((s.cx n l).ea a imm) (size ty) = .ok (id, off) →
    (((tag = .plain ∨ tag = .clr) ∨ s.tagFull id off = true) → s.scrBad id off (size ty) = false → ∃ t, exec i s = .next t ∧ ScratchFrame s t l ∧ ScratchKept s t id off 0 ∧
      t.tagFull id off = (s.tagFull id off && !(tag == .clr || tag == .wfclr)) ∧
      Done i s (t.thread n l) (s.thread n l) (loadDests d ty fun j => s.scrByte id (off + j))) ∧
    ((tag = .wf ∨ tag = .wfclr) → s.tagFull id off = false → ∃ t, exec i s = .next t ∧ ScratchFrame s t l ∧
      (∀ j o, t.scrByte j o = s.scrByte j o ∧ t.tagFull j o = s.tagFull j o) ∧
      t.thread n l = { s.thread n l with wait := .tag id (off / 16) true })

/-- R95, R98, R108, R407: a scratch store in one thread. Without `.we` it enters the warp's queue, from which it is performed as the
oldest entry; with `.we` and an empty granule its bytes are written and the granule is full, and with a full one the thread waits.
(With `.we`, the warp's queue has drained.) -/
def Sys2Proof.Claims.ScratchStores : Prop :=
  ∀ (i : Instr) (sp : Space) (d a : Src) (imm : BitVec 16) (ty : MTy) (we : Bool) (s : State) (l : Nat) (id : ScrId) (off : Nat),
    scrStoreForm i = some (sp, d, a, imm, ty, we) → i.wf = true → Solo i s l →
    let n := s.cur.warp
    s.scrAddr s.curWarp l sp ((s.cx n l).ea a imm) (size ty) = .ok (id, off) →
    (we = false → s.curWarp.storeQ.length < 128 → ∃ t, exec i s = .next t ∧ OneThreadOnly s t l ∧
      ResvKept s t l ∧ SameMemory s t ∧ t.blocks = s.blocks ∧ t.tenants = s.tenants ∧
      t.curWarp.storeQ = s.curWarp.storeQ ++ [.store (.scratch id off) (dataBytes (s.cx n l) d (size ty))] ∧
      Done i s (t.thread n l) (s.thread n l) []) ∧
    (∀ bs q, s.curWarp.storeQ = .store (.scratch id off) bs :: q → ∃ t, exec (.storeQueueDrain n) s = .next t ∧
      (∀ m, t.warp m = if m = n then { s.warp n with storeQ := q } else s.warp m) ∧ SameMemory s t ∧
      BytesKept s t id off bs.length ∧ (∀ j o, t.tagFull j o = s.tagFull j o) ∧
      ∀ j, j < bs.length → t.scrByte id (off + j) = (bs[j]?).getD 0) ∧
    (we = true → s.curWarp.storeQ = [] → s.tagFull id off = false → ∃ t, exec i s = .next t ∧ ScratchFrame s t l ∧
      ScratchKept s t id off (size ty) ∧ t.tagFull id off = true ∧
      (∀ j, j < size ty → t.scrByte id (off + j) = dataByte (s.cx n l) d j) ∧ Done i s (t.thread n l) (s.thread n l) []) ∧
    (we = true → s.curWarp.storeQ = [] → s.tagFull id off = true → ∃ t, exec i s = .next t ∧ ScratchFrame s t l ∧
      (∀ j o, t.scrByte j o = s.scrByte j o ∧ t.tagFull j o = s.tagFull j o) ∧
      t.thread n l = { s.thread n l with wait := .tag id (off / 16) false })

/-- Scratch: which bytes an address names, loads and stores. -/
def Obligations.ScratchAccesses : Prop := ScratchAddresses ∧ ScratchLoads ∧ ScratchStores

/-- R96, R340: FESET fills and FECLR empties the one granule, FETEST says whether it is full; no data and no other tag changes. -/
def Sys2Proof.Claims.Tags : Prop :=
  ∀ (i : Instr) (sp : Space) (a : Src) (imm : BitVec 16) (full : Option Bool) (q : Option Pred) (s : State) (l : Nat) (id : ScrId)
    (off : Nat),
    tagForm i = some (sp, a, imm, full, q) → i.wf = true → Solo i s l → s.curWarp.storeQ = [] →
    let n := s.cur.warp
    s.scrAddr s.curWarp l sp ((s.cx n l).ea a imm) 1 = .ok (id, off) →
    ∃ t, exec i s = .next t ∧ ScratchFrame s t l ∧ ScratchKept s t id off 0 ∧
      t.tagFull id off = full.getD (s.tagFull id off) ∧
      Done i s (t.thread n l) (s.thread n l) (match q with
        | some q => predDest q (s.tagFull id off)
        | none => [])

/-- R301, R302: ATOMS and CASS in one thread, the warp's queue drained and the bytes not bad: the destination takes the old elements, the
bank the new ones; no tag and no other byte changes. -/
def Sys2Proof.Claims.ScratchAtomics : Prop :=
  ∀ (i : Instr) (d : Dst) (a : Src) (ty : Ty) (die : Bool) (new : LaneCx → Nat → Nat → Nat) (s : State) (l : Nat) (id : ScrId) (off : Nat),
    atomsForm i = some (d, a, ty, die, new) → i.wf = true → Solo i s l → s.curWarp.storeQ = [] → forbidsFloat s.curWarp ty = false →
    let n := s.cur.warp
    let old (j : Nat) : Byte := s.scrByte id (off + j)
    s.scrAddr s.curWarp l (if die then .die else .core) ((s.cx n l).src a) 8 = .ok (id, off) → s.scrBad id off 8 = false →
    ∃ t, exec i s = .next t ∧ ScratchFrame s t l ∧ (∀ j o, t.tagFull j o = s.tagFull j o) ∧
      BytesKept s t id off 8 ∧
      Done i s (t.thread n l) (s.thread n l) ((dstReg d).toList.map fun r => (r, BitVec.ofNat 64 (number old 0 8))) ∧
      ∀ j, j < 64 / tyWidth ty → ∀ q, q < tyWidth ty / 8 →
        t.scrByte id (off + j * (tyWidth ty / 8) + q) = BitVec.ofNat 8 (new (s.cx n l) j (byteElem old ty j) / 2 ^ (8 * q))

/-- Tags, and atomics on scratch. -/
def Obligations.TagsAndScratchAtomics : Prop := Tags ∧ ScratchAtomics

/-- R387, R218: RED and REDS in one thread, nothing of it applied before, write no register: each element of gB enters the warp's queue
as a reduction of its address, in ascending order; memory and scratch are unchanged until they are performed. -/
def Sys2Proof.Claims.Reductions : Prop :=
  ∀ (k : Ctl) (a b : Src) (op : AtomOp) (ty : Ty) (s : State) (l : Nat),
    let n := s.cur.warp
    let w := tyWidth ty / 8
    let entries (at_ : Nat → Dest) : List SqEntry :=
      (List.range (64 / tyWidth ty)).map fun j => .red (at_ (j * w)) op ty (BitVec.ofNat 64 (elem ((s.cx n l).src b) j ty))
    (s.thread n l).applied = 0 → s.curWarp.storeQ.length + 64 / tyWidth ty ≤ 128 → forbidsFloat s.curWarp ty = false →
    (∀ x, let i : Instr := .red k a b op ty
      i.wf = true → Solo i s l → Plain s l accAtomic ((s.cx n l).src a) 8 x →
      ∃ t, exec i s = .next t ∧ OneThreadOnly s t l ∧ ResvKept s t l ∧ Done i s (t.thread n l) (s.thread n l) [] ∧
        t.curWarp.storeQ = s.curWarp.storeQ ++ entries (fun o => .mem { x with pa := x.pa + o }) ∧
        (∀ p, t.byteAt p = s.byteAt p) ∧ ∀ c p, sees t c p = sees s c p) ∧
    ∀ id off die, let i : Instr := .reds k a b op die ty
      i.wf = true → Solo i s l → s.scrAddr s.curWarp l (if die then .die else .core) ((s.cx n l).src a) 8 = .ok (id, off) →
      ∃ t, exec i s = .next t ∧ OneThreadOnly s t l ∧ ResvKept s t l ∧ Done i s (t.thread n l) (s.thread n l) [] ∧
        t.curWarp.storeQ = s.curWarp.storeQ ++ entries (fun o => .scratch id (off + o)) ∧ SameMemory s t ∧
        t.blocks = s.blocks ∧ t.tenants = s.tenants

/-- What enters a store queue as a reduction, and how a queue drains. -/
def Obligations.DrainsAndReductions : Prop := QueueDrains ∧ Reductions

/-! ## Fences, counters, sections, reclamation (class 9) -/

namespace Sys2Proof.Claims

/-- No page moves, and no access count can start a move (R197, R199). -/
def Quiet (s : State) : Prop := s.fwds = [] ∧ ∀ k, (s.tenant k).thresh = 0

/-- Cluster scope or wider (R102). -/
def wideScope : Scope → Bool
  | .cl | .di | .pk | .fb | .pl => true
  | _ => false

/-- Whether an order releases, and whether it acquires (R111). -/
def rels : Order → Bool
  | .rel | .ar | .sc => true
  | _ => false
def acqs : Order → Bool
  | .acq | .ar | .sc => true
  | _ => false

/-- A register result of variable latency in a thread's registers. -/
def regDest (d : Dst) (v : Word) : List (RegRef × Word) := (dstReg d).toList.map fun r => (r, v)

/-- WHAT AN INSTRUCTION OF ONE THREAD LEAVES ALONE THAT MAY ALSO DROP ITS CORE'S INSTRUCTION CACHE. -/
def FenceFrame (s t : State) (l : Nat) : Prop :=
  OneThreadOnly s { t with cores := s.cores } l ∧
    ∀ c, { t.core c with nextResidency := 0, icache := [] } = { s.core c with nextResidency := 0, icache := [] } ∧
      (c ≠ s.curWarp.core → (t.core c).icache = (s.core c).icache)

/-- What the L1 actions of a release and an acquire leave (R102, R284): a release leaves no dirty byte in the core's L1, and every byte
at its home as the core sees it; an acquire leaves no clean byte, and no instruction bytes; the core sees the same bytes. -/
structure Ordered (s t : State) (rel acq : Bool) : Prop where
  sees : ∀ p, sees t s.curWarp.core p = sees s s.curWarp.core p
  wrote : rel = true → ∀ p, t.byteAt p = Claims.sees s s.curWarp.core p ∧ (t.l1c s.curWarp.core).dirtyByte p = none
  kept : rel = false → ∀ p, t.byteAt p = s.byteAt p
  dropped : acq = true → (t.core s.curWarp.core).icache = [] ∧ ∀ p b, (t.l1c s.curWarp.core).byte p = some b → b.dirty = true
  held : acq = false → (t.core s.curWarp.core).icache = (s.core s.curWarp.core).icache

end Sys2Proof.Claims

/-- R342, R111, R102: FENCE in one thread whose warp's queue has drained and, where it acquires, whose loads have landed: a release of
cluster scope or wider writes back every dirty byte of its core's L1, an acquire drops every other byte; narrower scopes leave L1
alone; nothing else changes. -/
def Sys2Proof.Claims.Fences : Prop :=
  ∀ (k : Ctl) (o : Order) (sc : Scope) (s : State) (l : Nat), let i : Instr := .fence k o sc
    Solo i s l → s.curWarp.storeQ = [] → Quiet s → cachesOk s →
    (acqs o = true → ∀ p ∈ (s.thread s.cur.warp l).pend, p.due ≤ s.now) →
    ∃ t, exec i s = .next t ∧ FenceFrame s t l ∧ t.curWarp.storeQ = [] ∧
      DoneResv i s (t.thread s.cur.warp l) (s.thread s.cur.warp l) [] ∧ Ordered s t (rels o && wideScope sc) (acqs o && wideScope sc)

/-- R353, R128: GPWAIT. At its first issue outside a read section it releases at package scope, takes its tenant's grace number, which
rises by 1, and waits for it; once that number is done it acquires at package scope and goes on; inside a read section it raises
cause 0x0C. -/
def Sys2Proof.Claims.GraceWaits : Prop :=
  ∀ (k : Ctl) (s : State) (l : Nat), let i : Instr := .gpwait k
    let n := s.cur.warp
    let tn := s.curWarp.tenant
    let g := (s.tenant tn).gpseq
    Solo i s l →
    ((s.thread n l).graceG = none → (s.thread n l).rsDepth = 0 → s.curWarp.storeQ = [] → Quiet s → cachesOk s →
      (s.tenant tn).gpDone < g →
      ∃ t, exec i s = .next t ∧ OneThreadOnly s { t with tenants := s.tenants } l ∧ t.curWarp.storeQ = [] ∧
        { t.thread n l with resv := none } = { s.thread n l with graceG := some g, wait := .grace g, resv := none } ∧
        (∀ j, t.tenant j = if j = tn then { s.tenant tn with gpseq := g + 1 } else s.tenant j) ∧ Ordered s t true false) ∧
    (∀ h, (s.thread n l).graceG = some h → h ≤ (s.tenant tn).gpDone →
      ∃ t, exec i s = .next t ∧ FenceFrame s t l ∧ ResvKept s t l ∧ t.curWarp.storeQ = s.curWarp.storeQ ∧
        Done i s (t.thread n l) (s.thread n l) [] ∧ (∀ p, t.byteAt p = s.byteAt p) ∧
        (cachesOk s → Quiet s → Ordered s t false true)) ∧
    ((s.thread n l).graceG = none → (s.thread n l).rsDepth ≠ 0 → Traceable s →
      ∃ t, exec i s = .next t ∧ Traps s t (acting i s) 0x0C 0 ∧ TrapFrame s t)

/-- R118, R127: WAITC completes at once where every operation of its class that the warp posted has completed but for the n most recent,
and else waits. RSB deepens the read section, its start being the grace number its core has acknowledged when it was 0 deep; RSE
ends one; at 65,535 and at 0 they raise cause 0x0C. -/
def Sys2Proof.Claims.SectionsAndCounters : Prop :=
  ∀ (k : Ctl) (s : State), Bundled s →
    let n := s.cur.warp
    (∀ cls (m : Fin 256), let i : Instr := .waitc k cls m
      let old (c : EngClass) (w order : Nat) : Prop := w = n ∧ c = cls ∧ order < s.curWarp.posted.get cls - m.val
      let late : Prop := (∃ e ∈ s.engOps, old (classOf e.kind) e.warp e.order) ∨ ∃ p ∈ s.engines, ∃ r ∈ p.2.table, old .mx r.warp r.order
      Issues i s →
      (¬ late → InEachThread i s fun x u => OnlyAdvances i s x.t u) ∧
      (late → ∃ t, exec i s = .next t ∧ OnlyBundle i s t ∧ ∀ l, mbit s.cur.lanes l = true →
        if acting i s l then t.thread n l = { s.thread n l with wait := .engines cls m.val }
        else OnlyAdvances i s (s.thread n l) (t.thread n l))) ∧
    (∀ i : Instr, (i = .rsb k ∨ i = .rse k) → Issues i s →
      let limit := if i = .rsb k then 65535 else 0
      let core := tgetD (s.tenant s.curWarp.tenant).ack s.curWarp.core 1
      ((∀ l, acting i s l = true → (s.thread n l).rsDepth ≠ limit) → InEachThread i s fun x u =>
        IssuedTo i s (nextPc i x.t) u ∧ { u.bare with rsDepth := 0, rsStart := 0 } = { x.t.bare with rsDepth := 0, rsStart := 0 } ∧
        if i = .rsb k then u.rsDepth = x.t.rsDepth + 1 ∧ u.rsStart = if x.t.rsDepth = 0 then core else x.t.rsStart
        else u.rsDepth = x.t.rsDepth - 1 ∧ u.rsStart = x.t.rsStart) ∧
      let full (l : Nat) : Bool := acting i s l && (s.thread n l).rsDepth == limit
      ((∃ l, full l = true) → Traceable s → ∃ t, exec i s = .next t ∧ Traps s t full 0x0C 0 ∧ TrapFrame s t))

/-- GPWAIT, WAITC and read sections. -/
def Obligations.GraceAndCounters : Prop := GraceWaits ∧ SectionsAndCounters

/-- R381, R105: PREF only advances: it writes no register, waits for nothing and raises nothing, whatever its address, and no byte of
memory, and no byte as a core sees it, changes. -/
def Sys2Proof.Claims.Prefetches : Prop :=
  ∀ (k : Ctl) (a : Src) (imm : BitVec 16) (ext : PrefExt) (l2 : Bool) (s : State), let i : Instr := .pref k a imm ext l2
    Issues i s → Bundled s → cachesOk s →
    ∃ t, exec i s = .next t ∧ (∀ l, mbit s.cur.lanes l = true → OnlyAdvances i s (s.thread s.cur.warp l) (t.thread s.cur.warp l)) ∧
      (∀ m l, (m ≠ s.cur.warp ∨ mbit s.cur.lanes l = false) → t.thread m l = s.thread m l) ∧
      (∀ m, { t.warp m with threads := [], residency := 0 } = { s.warp m with threads := [], residency := 0 }) ∧
      (∀ c, { t.core c with nextResidency := 0 } = { s.core c with nextResidency := 0 }) ∧ beside t = beside s ∧
      (∀ p, t.byteAt p = s.byteAt p) ∧ ∀ c p, sees t c p = sees s c p

/-- FENCE and PREF. -/
def Obligations.FencesAndPrefetches : Prop := Fences ∧ Prefetches

namespace Sys2Proof.Claims

/-- gB of ALLOC, DEFER and FREE: the class in bits 4:0 and the pool in bits 11:8, all other bits 0 (R136). -/
def poolWord (b : Word) (k p : Nat) : Prop := b = BitVec.ofNat 64 (p * 256 + k) ∧ k ≤ 16 ∧ p < 16

/-- A pool that serves, behind no fault (R138, R139). -/
def poolUp (q : Pool) : Prop := q.en = true ∧ q.ready = true ∧ q.devWait = false ∧ q.aborted = false ∧ q.queue = []

/-- A block of class k of a pool: inside it, and aligned on its size from BASE (R139). -/
def blockOf (q : Pool) (b k : Nat) : Prop :=
  q.pbase ≤ b ∧ b + 16 * 2 ^ k ≤ q.pbase + q.size * 1048576 ∧ (b - q.pbase) % (16 * 2 ^ k) = 0

/-- A tenant's pool replaced, and nothing else of any tenant. -/
def OnlyPool (s t : State) (tn p : Nat) (q : Pool) : Prop :=
  t.pool tn p = q ∧ (∀ j, j ≠ tn → t.tenant j = s.tenant j) ∧ (∀ r, r ≠ p → t.pool tn r = s.pool tn r) ∧
    { t.tenant tn with pools := [] } = { s.tenant tn with pools := [] }

/-- A page that translates to ordinary cached memory. -/
def Ordinary (x : Xlat) : Prop := x.ms = false ∧ x.repl = false ∧ (tierOf x.pa).isSome = true

/-- The pages that a plan of a pool touches translate, to ordinary cached memory of which no page moves; its metadata bytes lie apart
from each other and from the links of its blocks (R139). -/
structure PlanMaps (s : State) (tn p : Nat) (pl : PoolPlan) (xs : List Xlat) : Prop where
  maps : (s.poolTouch tn p (pl.metas.map Prod.fst ++ pl.links)).2 = .ok xs
  plain : ∀ x ∈ xs, Ordinary x
  apart : ∀ (i j : Nat) (x y : Xlat), i < pl.metas.length → xs[i]? = some x → xs[j]? = some y →
    if j < pl.metas.length then x.pa = y.pa → (pl.metas[i]?).map Prod.fst = (pl.metas[j]?).map Prod.fst
    else x.pa < y.pa ∨ y.pa + 16 ≤ x.pa

/-- WHAT A PLAN WRITES (R139): every metadata byte takes the value that the plan writes there last; every byte of memory outside them and
outside the 16 link bytes of its blocks is as before. -/
structure PlanWrites (s t : State) (pl : PoolPlan) (xs : List Xlat) : Prop where
  metas : ∀ (i : Nat) (x : Xlat) (m v : Nat × Nat), xs[i]? = some x → pl.metas[i]? = some m →
    (pl.metas.reverse.find? fun r => r.1 == m.1) = some v → t.byteAt x.pa = BitVec.ofNat 8 v.2
  others : ∀ a, (∀ j x, xs[j]? = some x → a < x.pa ∨ x.pa + (if j < pl.metas.length then 1 else 16) ≤ a) → t.byteAt a = s.byteAt a

/-- A core has acquired (R102, R284): its L1 holds no clean byte, and its instruction cache nothing. -/
def Acquired (t : State) (core : Nat) : Prop :=
  (t.core core).icache = [] ∧ ∀ p b, (t.l1c core).byte p = some b → b.dirty = true

/-- A core has released (R102): its L1 holds no dirty byte, and every byte stands at its home as the core has seen it. -/
def Released (s t : State) (core : Nat) : Prop := noDirty t core ∧ ∀ p, t.byteAt p = sees s core p

/-- A returned block after some merges with its buddies (R139). -/
def mergedBlock (q : Pool) (b k : Nat) : Nat → Nat
  | 0 => b
  | j + 1 => min (mergedBlock q b k j) (q.pbase + ((mergedBlock q b k j - q.pbase) ^^^ 16 * 2 ^ (k + j)))

/-- The buddy that a returned block meets after some merges. -/
def buddyAt (q : Pool) (b k j : Nat) : Nat := q.pbase + ((mergedBlock q b k j - q.pbase) ^^^ 16 * 2 ^ (k + j))

/-- The address of the metadata byte of a block (R138). -/
def metaOf (q : Pool) (b : Nat) : Nat := q.pmeta + (b - q.pbase) / 16

/-- The machine after the metadata bytes of some buddies of a returned block have been read. -/
def reading (s : State) (tn p : Nat) (q : Pool) (b k : Nat) : Nat → State
  | 0 => s
  | j + 1 => ((reading s tn p q b k j).readMeta tn p (buddyAt q b k j)).1

/-- A RETURN OF (b, k) MERGES m TIMES (R139): the metadata byte of each buddy reads 0x40 + its class so often, and then not, or class 16 is
reached. -/
structure Merges (s s1 : State) (tn p : Nat) (q : Pool) (b k m : Nat) : Prop where
  bound : k + m ≤ 16
  free : ∀ j, j < m → ((reading s tn p q b k j).readMeta tn p (buddyAt q b k j)).2 = .ok (0x40 + (k + j))
  ends : if k + m = 16 then s1 = reading s tn p q b k m
    else s1 = reading s tn p q b k (m + 1) ∧
      ∃ v, v ≠ 0x40 + (k + m) ∧ ((reading s tn p q b k m).readMeta tn p (buddyAt q b k m)).2 = .ok v

end Sys2Proof.Claims

/-- R136, R323: DEFER in one thread releases at package scope and, where its pool serves, its pointer names a block and the queue has room
beside what paired gangs have taken there for the frees that they hold back (R134), appends the entry with target GPSEQ and sets qd; where
the pointer names no block it posts nothing, clears qd and counts in PERR; where the pool does not serve it clears qd and counts nothing.
gB out of form raises cause 0x01 with gB. -/
def Obligations.DeferredFrees : Prop :=
  ∀ (k : Ctl) (q : Pred) (a b : Src) (wt : Bool) (s : State) (l kk p : Nat), let i : Instr := .defer k q a b wt
    let n := s.cur.warp
    let tn := s.curWarp.tenant
    let ptr := ((s.cx n l).src a).toNat
    let gb := (s.cx n l).src b
    let pool := s.pool tn p
    let out (t : State) (v : Bool) : Prop := OneThreadOnly s { t with tenants := s.tenants } l ∧ t.curWarp.storeQ = [] ∧
      DoneResv i s (t.thread n l) (s.thread n l) (predDest q v) ∧ Ordered s t true false
    Solo i s l →
    (poolWord gb kk p → s.curWarp.storeQ = [] → Quiet s → cachesOk s → (wt = true → (s.thread n l).rsDepth = 0) →
      (pool.en = true → pool.ready = true → blockOf pool ptr kk → s.deferTaken tn < 65536 →
        ∃ t, exec i s = .next t ∧ out t true ∧ ∀ j, t.tenant j = if j = tn then { s.tenant tn with
          deferQ := (s.tenant tn).deferQ ++ [{ ptr := ptr, k := kk, pool := p, target := (s.tenant tn).gpseq }] } else s.tenant j) ∧
      (pool.en = true → pool.ready = true → ¬ blockOf pool ptr kk →
        ∃ t, exec i s = .next t ∧ out t false ∧ OnlyPool s t tn p { pool with perr := min (2 ^ 64 - 1) (pool.perr + 1) }) ∧
      (¬ (pool.en = true ∧ pool.ready = true) → ∃ t, exec i s = .next t ∧ out t false ∧ t.tenants = s.tenants)) ∧
    (Traceable s → (∀ c r, ¬ poolWord gb c r) → ∃ t, exec i s = .next t ∧ Traps s t (acting i s) 1 gb ∧ TrapFrame s t)

/-- R139, R297, R345: ALLOC takes the block of the least class with a nonempty list, split down, acquires at package scope, gives its
address and sets qd; with no such block it gives 0 and clears qd. FREE releases at package scope; of a block whose metadata byte is
0x80 + k it returns the block, merged with its buddies that are free, and sets qd; of any other address it clears qd and counts in
PERR. The metadata bytes take the values that the plan of the operation has for them (`PoolAccounts` says which). Either way a pool
that does not serve changes nothing and clears qd. (The warp's queue has drained.) -/
def Sys2Proof.Claims.PoolBlocks : Prop :=
  ∀ (k : Ctl) (q : Pred) (b : Src) (s : State) (l kk p : Nat),
    let n := s.cur.warp
    let tn := s.curWarp.tenant
    let pool := s.pool tn p
    let core := s.curWarp.core
    poolWord ((s.cx n l).src b) kk p → s.curWarp.storeQ = [] → Quiet s → cachesOk s →
    (∀ (d : Dst) (wt : Bool), let i : Instr := .alloc k q d b wt
      let give (u : Thread) (v : Nat) (ok : Bool) : Prop :=
        DoneResv i s u (s.thread n l) (regDest d (BitVec.ofNat 64 v) ++ predDest q ok)
      Solo i s l → (wt = true → (s.thread n l).rsDepth = 0) →
      (∀ pl xs, poolUp pool → pool.allocPlan kk = some pl → PlanMaps s tn p pl xs →
        ∃ t, exec i s = .next t ∧ FenceFrame s { t with tenants := s.tenants } l ∧ PlanWrites s t pl xs ∧ Acquired t core ∧
          (∀ a, (s.l1c core).dirtyByte a = (t.l1c core).dirtyByte a) ∧
          give (t.thread n l) pl.block true ∧ OnlyPool s t tn p { pl.pool with devWait := false, aborted := false, perr := pool.perr }) ∧
      (poolUp pool → pool.allocPlan kk = none → (wt = false ∨ s.curWarp.tmo = 0) → ∃ t, exec i s = .next t ∧ OneThreadOnly s t l ∧
        give (t.thread n l) 0 false ∧ ∀ a, t.byteAt a = s.byteAt a) ∧
      (¬ (pool.en = true ∧ pool.ready = true) → ∃ t, exec i s = .next t ∧ OneThreadOnly s t l ∧
        give (t.thread n l) 0 false ∧ ∀ a, t.byteAt a = s.byteAt a)) ∧
    ∀ a, let i : Instr := .free k q a b
      let ptr := ((s.cx n l).src a).toNat
      Solo i s l →
      (∀ sr, s.release n .pk = .ok sr → poolUp pool →
        let found := (sr.readMeta tn p ptr).2
        let rejected : Prop := ∃ t, exec i s = .next t ∧ OneThreadOnly s { t with tenants := s.tenants } l ∧ Released s t core ∧
          DoneResv i s (t.thread n l) (s.thread n l) (predDest q false) ∧
          OnlyPool s t tn p { pool with perr := min (2 ^ 64 - 1) (pool.perr + 1) }
        (blockOf pool ptr kk → found = .ok (0x80 + kk) → ∀ s1 m xs, Merges (sr.readMeta tn p ptr).1 s1 tn p pool ptr kk m →
          let pl := pool.freePlan ptr kk m
          PlanMaps s1 tn p pl xs →
          ∃ t, exec i s = .next t ∧ OneThreadOnly s { t with tenants := s.tenants } l ∧ Released s sr core ∧ noDirty t core ∧
            PlanWrites sr t pl xs ∧ DoneResv i s (t.thread n l) (s.thread n l) (predDest q true) ∧
            OnlyPool s t tn p { pl.pool with devWait := false, aborted := false, perr := pool.perr }) ∧
        (blockOf pool ptr kk → ∀ v, found = .ok v → v ≠ 0x80 + kk → rejected) ∧ (¬ blockOf pool ptr kk → rejected)) ∧
      (¬ (pool.en = true ∧ pool.ready = true) → ∃ t, exec i s = .next t ∧ OneThreadOnly s t l ∧ Released s t core ∧
        DoneResv i s (t.thread n l) (s.thread n l) (predDest q false))

/-- R138, R139: what allocation and return do to a pool. An allocation of class k takes exactly 16 × 2^k bytes of PFREE, whatever it
splits: the metadata byte of the block becomes 0x80 + k, and that of the upper half that is left at each class j becomes 0x40 + j. A
return gives them back, whatever it merges, where each buddy that it merges stands in its list and no list holds a block twice: the
metadata bytes of the block and of those buddies become 0, and then that of the merged block 0x40 + its class. A metadata byte is read
where it stands in memory. -/
def Sys2Proof.Claims.PoolAccounts : Prop :=
  (∀ (q : Pool) (k : Nat), k ≤ 16 → q.lists.length = 17 →
    (∀ pl, q.allocPlan k = some pl → pl.pool.free + 16 * 2 ^ k = q.free ∧
      ∃ j, k ≤ j ∧ j ≤ 16 ∧ (q.list j).head? = some pl.block ∧ (∀ r, k ≤ r → r < j → q.list r = []) ∧
        ∀ m, m ∈ pl.metas ↔ m = (metaOf q pl.block, 0x80 + k) ∨ ∃ r, k ≤ r ∧ r < j ∧ m = (metaOf q (pl.block + 16 * 2 ^ r), 0x40 + r)) ∧
    (q.allocPlan k = none → ∀ j, k ≤ j → j ≤ 16 → q.list j = []) ∧
    ∀ b m, k + m ≤ 16 → (∀ j, (q.list j).Nodup) → (∀ j, j < m → buddyAt q b k j ∈ q.list (k + j)) →
      let pl := q.freePlan b k m
      pl.pool.free = q.free + 16 * 2 ^ k ∧ pl.block = mergedBlock q b k m ∧
        pl.metas = (metaOf q b, 0) :: (List.range m).map (fun j => (metaOf q (buddyAt q b k j), 0)) ++ [(metaOf q pl.block, 0x40 + (k + m))]) ∧
  ∀ (s : State) (tn p b : Nat) (x : Xlat), (s.poolTouch tn p [metaOf (s.pool tn p) b]).2 = .ok [x] → Ordinary x → Quiet s →
    (s.readMeta tn p b).2 = .ok (s.byteAt x.pa).toNat

/-- ALLOC and FREE. -/
def Obligations.Pools : Prop := PoolBlocks ∧ PoolAccounts

/-! ## Engines (classes 10 and 11) -/

namespace Sys2Proof.Claims

/-- The class 10 instructions: the operation each posts, its base register, its immediate. -/
def postForm : Instr → Option (EngKind × Src × BitVec 16)
  | .cpy _ a imm => some (.copy, a, imm)
  | .cpyz _ a imm => some (.copyz, a, imm)
  | .gath _ a imm => some (.gather, a, imm)
  | .scat _ a imm => some (.scatter, a, imm)
  | .put _ a imm => some (.put, a, imm)
  | .coll _ a imm => some (.coll, a, imm)
  | .bkop _ a imm op ty => some (.bkop op ty, a, imm)
  | .rowcp _ a imm => some (.rowcp, a, imm)
  | .rowz _ a imm => some (.rowz, a, imm)
  | .clean _ a imm sc => some (.clean sc, a, imm)
  | .inval _ a imm sc => some (.inval sc, a, imm)
  | .flush _ a imm sc => some (.flush sc, a, imm)
  | _ => none

/-- The counter class of each (R116). -/
def postClass : EngKind → EngClass
  | .copy | .copyz => .cp
  | .gather | .scatter => .gx
  | .put => .pt
  | .coll => .cl
  | _ => .bk

/-- The class 11 instructions: the request each posts, its base register, its immediate. -/
def mxForm : Instr → Option (MxKind × Src × BitVec 16)
  | .mxp _ a imm => some (.mxp, a, imm)
  | .wbld _ a imm => some (.wbld, a, imm)
  | .acz _ a imm => some (.acz, a, imm)
  | .acld _ a imm => some (.acld, a, imm)
  | .acdrn _ a imm => some (.acdrn, a, imm)
  | .acchk _ a imm => some (.acchk, a, imm)
  | _ => none

/-- A counter one higher, the others as before. -/
def raised (c : OcCounters) : EngClass → OcCounters
  | .cp => { c with cp := c.cp + 1 }
  | .gx => { c with gx := c.gx + 1 }
  | .mx => { c with mx := c.mx + 1 }
  | .cl => { c with cl := c.cl + 1 }
  | .pt => { c with pt := c.pt + 1 }
  | .bk => { c with bk := c.bk + 1 }

/-- The lane a warp-wide instruction acts for: the lowest guard-true one (R38). -/
def actsFor (i : Instr) (s : State) (l : Nat) : Prop := acting i s l = true ∧ ∀ m, m < l → acting i s m = false

/-- What a warp-wide post leaves alone: the threads of its bundle only advance, its warp's counters rise, nothing else of any warp. -/
structure Posted (i : Instr) (s t : State) (c : EngClass) : Prop where
  bundle : ∀ l, mbit s.cur.lanes l = true → IssuedTo i s (nextPc i (s.thread s.cur.warp l)) (t.thread s.cur.warp l) ∧
    { (t.thread s.cur.warp l).bare with resv := none } = { (s.thread s.cur.warp l).bare with resv := none }
  outside : ∀ m l, (m ≠ s.cur.warp ∨ mbit s.cur.lanes l = false) → { t.thread m l with resv := none } = { s.thread m l with resv := none }
  counts : t.curWarp.oc = raised s.curWarp.oc c ∧ t.curWarp.posted = raised s.curWarp.posted c
  warp : { t.curWarp with threads := [], residency := 0, oc := {}, posted := {} } =
    { s.curWarp with threads := [], residency := 0, oc := {}, posted := {} }
  warps : ∀ m, m ≠ s.cur.warp → { t.warp m with threads := [] } = { s.warp m with threads := [] }
  cores : ∀ c, { t.core c with nextResidency := 0 } = { s.core c with nextResidency := 0 }

end Sys2Proof.Claims

/-- R38, R116, R220, R37: a class 10 instruction of a warp all of whose threads are there reads the 64 descriptor bytes at E past the L1,
as the warp's core last wrote them, posts the operation, adds 1 to its class's counter, and every thread goes on; with every thread
guard-false it only advances. -/
def Obligations.EnginePosts : Prop :=
  ∀ (i : Instr) (kind : EngKind) (a : Src) (imm : BitVec 16) (s : State), postForm i = some (kind, a, imm) → Issues i s → Bundled s →
    s.curWarp.paired = false →
    let n := s.cur.warp
    let c := postClass kind
    (∀ l x, actsFor i s l → Plain s l accLoad ((s.cx n l).ea a imm) 64 x → s.curWarp.oc.get c < 255 → s.curWarp.storeQ = [] →
      (s.curWarp.level = .monitor → ∀ m, acting i s m = true → m = l) →
      ∃ t op, exec i s = .next t ∧ Posted i s t c ∧ t.engOps = s.engOps ++ [op] ∧
        op.kind = kind ∧ op.warp = n ∧ op.order = s.curWarp.posted.get c ∧ op.tenant = s.curWarp.tenant ∧ op.level = s.curWarp.level ∧
        op.core = s.curWarp.core ∧ op.gang = s.curWarp.gang ∧ op.descVa = ((s.cx n l).ea a imm).toNat ∧ op.held = false ∧
        op.sent = false ∧ op.code = none ∧ op.desc = (List.range 64).map (fun j => atHome s s.curWarp.core (x.pa + j)) ∧
        beside { t with engOps := s.engOps, fresh := s.fresh } = beside s ∧
        ∀ p, sees t s.curWarp.core p = sees s s.curWarp.core p) ∧
    ((∀ l, acting i s l = false) → ∃ t, exec i s = .next t ∧ OnlyBundle i s t ∧
      ∀ l, mbit s.cur.lanes l = true → OnlyAdvances i s (s.thread n l) (t.thread n l))

/-- R168, R167, R116, R37: a class 11 instruction of a gang that owns its cluster's engine, or finds it free and is the next of those that
wait, enters a request with a copy of the 64 parameter bytes at E, behind the earlier ones and, of the same cycle, in ascending cluster
position (R171), empties the tag of E + 0x30, adds 1 to OC_MX, and every thread goes on. A gang that becomes the owner finds +0 in every
tile and no weight unit valid. -/
def Obligations.MatrixPosts : Prop :=
  ∀ (i : Instr) (kind : MxKind) (a : Src) (imm : BitVec 16) (s : State) (l : Nat) (id : ScrId) (off : Nat),
    mxForm i = some (kind, a, imm) → Issues i s → Bundled s →
    let n := s.cur.warp
    let w := s.curWarp
    let cl := clusterOf w.core
    let e := s.engine cl
    actsFor i s l → s.scrAddr w l .core ((s.cx n l).ea a imm) 64 = .ok (id, off) → w.oc.mx < 255 → w.storeQ = [] → e.table.length < 16 →
    (e.owner = some w.gang ∨ (e.owner = none ∧ (e.waiting = [] ∨ e.waiting.head? = some w.gang))) →
    let before (x : MxReq) : Prop := x.entered < s.now ∨ (s.warp x.warp).core % 4 ≤ w.core % 4
    ∃ t r as bs, exec i s = .next t ∧ Posted i s t .mx ∧ (∀ m u, (t.thread m u).resv = (s.thread m u).resv) ∧
      (t.engine cl).owner = some w.gang ∧ e.table = as ++ bs ∧ (t.engine cl).table = as ++ r :: bs ∧
      (∀ x ∈ as, before x) ∧ (∀ x, bs.head? = some x → ¬ before x) ∧ r.entered = s.now ∧
      r.kind = kind ∧ r.warp = n ∧ r.order = w.posted.mx ∧ r.gang = w.gang ∧ r.block = w.block ∧ r.off = off ∧ r.tenant = w.tenant ∧
      r.par = (List.range 64).map (fun j => s.scrByte id (off + j)) ∧ r.begun = false ∧ r.done = false ∧
      (e.owner = some w.gang → { t.engine cl with table := [], nextId := 0 } = { e with table := [], nextId := 0 }) ∧
      (e.owner = none → (t.engine cl).tiles = [] ∧ (t.engine cl).sums = [] ∧ (t.engine cl).units = []) ∧
      (∀ c, c ≠ cl → t.engine c = s.engine c) ∧ t.tagFull id (off + 0x30) = false ∧
      (∀ j o, (¬ sameSpace j id ∨ o / 16 ≠ off / 16 + 3) → t.tagFull j o = s.tagFull j o) ∧ (∀ j o, t.scrByte j o = s.scrByte j o) ∧
      SameMemory s t ∧ BlocksKept s t ∧ { blankScratch t with engines := [] } = { blankScratch s with engines := [] } ∧ t.tenants = s.tenants

/-! ## Placement and translation (class 12) -/

namespace Sys2Proof.Claims

/-- The page that a placement instruction of one thread names translates (R202). -/
def Page (s : State) (e : Word) (x : Xlat) : Prop := canonical e = true ∧ (s.pageXlat s.curWarp accLoad (addr e)).2 = .ok x

/-- Every byte as before, at home and as every core sees it. -/
def SameBytes (s t : State) : Prop := (∀ p, t.byteAt p = s.byteAt p) ∧ ∀ c p, sees t c p = sees s c p

/-- A page is pinned: its frame's bit, or PINRQ (R207). -/
def pinnedPage (s : State) (x : Xlat) : Bool := s.pins.contains (frameOf (s.homeAddr x.pa)) || x.pinrq

/-- A migration of a page to a tier has started (R199): the lowest free forwarding entry holds it, before its Switch, and its target is
the frame that the tier's ring gave. -/
def Started (s t : State) (x : Xlat) (tier : Nat) : Prop :=
  ∃ j f d ring, s.freeFwd = some j ∧ tgetD s.rings tier [] = d :: ring ∧ t.rings = tset s.rings tier ring ∧ t.fwds = tset s.fwds j f ∧
    f.src = x.pa / 4096 * 4096 ∧ f.dst = d ∧ f.tenant = x.tenant ∧ f.dstTier = tier ∧ f.window = [] ∧ f.switched = false

/-- A migration can start: an entry and a frame are free (R199). -/
def canStart (s : State) (tier : Nat) : Prop := s.freeFwd ≠ none ∧ tgetD s.rings tier [] ≠ []

/-- What a walk changes beside the threads: the TLBs, the L2s that its entries come through, and the counts of their frames (R188,
R196). -/
def walked (s t : State) : State := { s with tlb := t.tlb, l2 := t.l2, counters := t.counters, drawn := t.drawn }

/-- No migration starts. -/
def NoMove (s t : State) : Prop := t.rings = s.rings ∧ t.fwds = s.fwds

/-- A move of a page to a tier is forbidden (R203 step 1): the tier is not allowed, MIG is 0, the page is memory-side and the tier is not
0, or PINRQ names another tier. -/
def mayNot (x : Xlat) (tier : Nat) : Prop :=
  x.tiers.testBit tier = false ∨ (tierOf x.pa ≠ some tier ∧ x.mig = false) ∨ (x.ms = true ∧ tier ≠ 0) ∨
    (x.pinrq = true ∧ x.aff ≠ tier + 1)

/-- The word of PROBE (R207): its fields from bit 0 up; a page under migration reports its source's tier, from either frame. -/
def probed (s : State) (x : Xlat) : Nat :=
  ((s.coverOf x.pa).map Fwd.srcTier).getD ((tierOf x.pa).getD 0) + (s.coverOf x.pa).isSome.toNat * 2 ^ 3 + (pinnedPage s x).toNat * 2 ^ 4 + x.ms.toNat * 2 ^ 5 + x.repl.toNat * 2 ^ 6 +
    x.mig.toNat * 2 ^ 7 + x.tiers * 2 ^ 8 + tgetD s.counters (frameOf (s.homeAddr x.pa)) 0 * 2 ^ 16

end Sys2Proof.Claims

/-- R203 to R207: PIN of a page that is at the tier it names sets the frame's pin bit and qd; UNPIN clears the bit. MIGR and HINT start a
migration of a page that may move and is elsewhere; MIGR answers whether the page is there or the migration has started, HINT answers
nothing; a forbidden PIN or MIGR raises cause 0x0E with the address. PROBE reports the page, whether or not the package owns it, and bit
63 alone where it does not translate. No byte of memory changes. -/
def Obligations.Placement : Prop :=
  ∀ (k : Ctl) (a : Src) (imm : BitVec 16) (s : State) (l : Nat) (x : Xlat),
    let n := s.cur.warp
    let e := (s.cx n l).ea a imm
    let moving := (s.coverOf x.pa).isSome
    let done (i : Instr) (t : State) (ws : List (RegRef × Word)) : Prop := OneThreadOnly s { t with pins := s.pins } l ∧ ResvKept s t l ∧
      t.curWarp.storeQ = s.curWarp.storeQ ∧ Done i s (t.thread n l) (s.thread n l) ws ∧ SameBytes s t
    let placed : Prop := Page s e x ∧ (tierOf x.pa).isSome = true
    cachesOk s →
    (∀ q (tier : Fin 4), let i : Instr := .pin k q a imm tier
      placed → Solo i s l →
      let goal := if tier.val = 3 then tierOf x.pa else some tier.val
      (moving = false → goal = tierOf x.pa → (∀ g, goal = some g → ¬ mayNot x g) →
        ∃ t, exec i s = .next t ∧ done i t (predDest q true) ∧ NoMove s t ∧
          ∀ f, t.pins.contains f = (s.pins.contains f || f == frameOf x.pa)) ∧
      ((∃ g, goal = some g ∧ mayNot x g) → Traceable s →
        ∃ t, exec i s = .next t ∧ Traps (walked s t) t (acting i s) 0x0E e ∧ TrapFrame (walked s t) t ∧ SameBytes s t)) ∧
    (placed → Solo (.unpin k a imm) s l → ∃ t, exec (.unpin k a imm) s = .next t ∧ done (.unpin k a imm) t [] ∧ NoMove s t ∧
      ∀ f, t.pins.contains f = (s.pins.contains f && f != frameOf (s.homeAddr x.pa))) ∧
    (∀ tier : Fin 3, let i : Instr := .hint k a imm tier
      let may : Prop := x.mig = true ∧ pinnedPage s x = false ∧ x.tiers.testBit tier.val = true ∧ tierOf x.pa ≠ some tier.val ∧ moving = false
      placed → Solo i s l → ∃ t, exec i s = .next t ∧ done i t [] ∧ t.pins = s.pins ∧
        (may → canStart s tier.val → Started s t x tier.val) ∧ (¬ (may ∧ canStart s tier.val) → NoMove s t)) ∧
    (∀ q (tier : Fin 3), let i : Instr := .migr k q a imm tier
      let barred : Prop := mayNot x tier.val ∨ (pinnedPage s x = true ∧ tierOf x.pa ≠ some tier.val)
      placed → Solo i s l →
      (¬ barred → ∃ t b, exec i s = .next t ∧ done i t (predDest q b) ∧ t.pins = s.pins ∧
        (b = true ↔ moving = false ∧ (tierOf x.pa = some tier.val ∨ canStart s tier.val)) ∧
        (moving = false → tierOf x.pa ≠ some tier.val → canStart s tier.val → Started s t x tier.val) ∧
        (moving = true ∨ tierOf x.pa = some tier.val ∨ ¬ canStart s tier.val → NoMove s t)) ∧
      (barred → Traceable s →
        ∃ t, exec i s = .next t ∧ Traps (walked s t) t (acting i s) 0x0E e ∧ TrapFrame (walked s t) t ∧ SameBytes s t)) ∧
    ∀ d, let i : Instr := .probe k d a imm
      let asked := s.pageXlat s.curWarp accPlace (addr e)
      Solo i s l → ∃ t v, exec i s = .next t ∧ done i t (regDest d v) ∧ t.pins = s.pins ∧ NoMove s t ∧
        (∀ y, canonical e = true → asked.2 = .ok y → (tierOf y.pa).isSome = true → v = BitVec.ofNat 64 (probed asked.1 y)) ∧
        ((canonical e = false ∨ ∃ z, asked.2 = .error z) → v = BitVec.ofNat 64 (2 ^ 63))

namespace Sys2Proof.Claims

/-- No warp of the package has a queued or a held store, and no L1 a dirty byte. -/
def drained (s : State) : Prop := (∀ p ∈ s.warps, p.2.storeQ = [] ∧ p.2.seg.held = []) ∧ ∀ c, noDirty s c

/-- What a form of TLBI removes, from the thread's operands (R195). -/
def removes (x : LaneCx) : TlbiArg → TlbEntry → Prop
  | .pg a b, e =>
    let lo := (x.src a).toNat / 4096 * 4096
    e.tenant = x.w.tenant ∧ e.vbase < lo + ((x.src b).toNat % 65536 + 1) * 4096 ∧ lo < e.vbase + e.size
  | .s1, e => e.tenant = x.w.tenant
  | .gp a b, e =>
    let lo := (x.src a).toNat / 4096 * 4096
    e.tenant = (x.src b).toNat / 65536 % 16 ∧ ∃ v ∈ e.via, v.1 < lo + ((x.src b).toNat % 65536 + 1) * 4096 ∧ lo < v.1 + v.2
  | .all b, e => e.tenant = (x.src b).toNat % 16
  | .fr a, e =>
    let f := (x.src a).toNat / 4096 * 4096
    e.pbase ≤ f ∧ f < e.pbase + e.size

/-- The operand whose bits a form limits, and the bits that must be 0 (R195). -/
def tlbiLimit (x : LaneCx) : TlbiArg → Option (Word × Nat)
  | .pg _ b => some (x.src b, 16)
  | .gp _ b => some (x.src b, 20)
  | .all b => some (x.src b, 4)
  | _ => none

end Sys2Proof.Claims

/-- R194, R195, R208: TLBI removes exactly the entries its form names from every node (`.gp` those of the tenant whose walk passes through
a stage-2 leaf of the range, log 39), `.fr` also every cached byte of the frame; threads that wait for a counter translate its address
again (R74); operand bits that must be 0 and are not raise cause 0x01 with the operand. TLBSYNC goes on where no invalidation is under
way and else waits. TAFF of a page with stage 1 on writes AFF in its leaf and removes the page's entries. -/
def Obligations.Invalidations : Prop :=
  ∀ (k : Ctl) (s : State) (l : Nat),
    let n := s.cur.warp
    let done (s0 : State) (i : Instr) (t : State) : Prop := OneThreadOnly s0 t l ∧ t.curWarp.storeQ = s.curWarp.storeQ ∧
      DoneResv i s (t.thread n l) (s.thread n l) []
    (∀ m, let i : Instr := .tlbi k m
      let x := s.cx n l
      Solo i s l →
      (drained s → Quiet s → cachesOk s → (∀ v b, tlbiLimit x m = some (v, b) → v.toNat < 2 ^ b) →
        ∃ t, exec i s = .next t ∧ done s.recheckCounters i t ∧ SameBytes s t ∧ (∀ e, e ∈ t.tlb ↔ e ∈ s.tlb ∧ ¬ removes x m e) ∧
          ∀ a, m = .fr a → ∀ p, frameOf p = frameOf (x.src a).toNat →
            (∀ c, (t.l1c c).byte p = none) ∧ ∀ j, j < 3 → (t.l2c j).byte p = none) ∧
      (OneThread s → ∀ v b y, tlbiLimit x m = some (v, b) → 2 ^ b ≤ v.toNat → takenAt s.curWarp.svc s.curWarp.level y →
        ∃ t, exec i s = .next t ∧ Enters s t n y 0 1 0 v s.curPc)) ∧
    (let i : Instr := .tlbsync k
     let busy : Prop := ∃ p ∈ s.fwds, p.2.switched = true ∧ (s.curWarp.level = .user → p.2.tenant = s.curWarp.tenant)
     Solo i s l →
      (¬ busy → InEachThread i s fun x u => OnlyAdvances i s x.t u) ∧
      (busy → ∃ t, exec i s = .next t ∧ OnlyBundle i s t ∧ t.thread n l = { s.thread n l with
        wait := .sync (if s.curWarp.level = .user then some s.curWarp.tenant else none) })) ∧
    ∀ a imm (aff : Fin 4), let i : Instr := .taff k a imm aff
      let e := (s.cx n l).ea a imm
      let page := addr e / 4096 * 4096
      let named (r : TlbEntry) : Prop := r.tenant = s.curWarp.tenant ∧ r.vbase ≤ page ∧ page < r.vbase + r.size
      let walk := s.walk1 s.curWarp.tenant (addr e)
      let after := s.walkFills (if s.curWarp.service then 256 else clusterOf s.curWarp.core) walk.1.reads
      Solo i s l → canonical e = true → drained s → Quiet s → cachesOk s →
      (∀ leaf, walk.2 = .ok (some leaf) → aff.val = 0 →
        ∃ t, exec i s = .next t ∧ done s.recheckCounters i t ∧ (∀ r, r ∈ t.tlb ↔ r ∈ s.tlb ∧ ¬ named r) ∧
          ∀ p, t.byteAt p = if leaf.at_ ≤ p ∧ p < leaf.at_ + 8
            then BitVec.ofNat 8 ((leaf.e - leaf.e / 256 % 4 * 256) / 2 ^ (8 * (p - leaf.at_))) else s.byteAt p) ∧
      (∀ leaf v u x, walk.2 = .ok (some leaf) → aff.val ≠ 0 → after.writeAff leaf aff.val = some v →
        (v.tlbDrop fun r => r.tenant == s.curWarp.tenant && decide (r.vbase ≤ page ∧ page < r.vbase + r.size)) = .ok u →
        (u.pageXlat s.curWarp accLoad (addr e)).2 = .ok x → tierOf x.pa = some (aff.val - 1) →
        ∃ t, exec i s = .next t ∧ done s.recheckCounters i t ∧
          ∀ p, t.byteAt p = if leaf.at_ ≤ p ∧ p < leaf.at_ + 8
            then BitVec.ofNat 8 ((leaf.e - leaf.e / 256 % 4 * 256 + aff.val * 256) / 2 ^ (8 * (p - leaf.at_))) else s.byteAt p) ∧
      (walk.2 = .ok none → (aff.val = 0 ∨ ∃ x, Page s e x ∧ tierOf x.pa = some (aff.val - 1)) →
        ∃ t, exec i s = .next t ∧ done s i t ∧ SameBytes s t)

/-! ## Launches (class 13) -/

/-- The reorder targets after the post of a record at an address (R40): it may be live from then on, and no other changes. -/
def Sys2Proof.Claims.Livened (s t : State) (tn ptr : Nat) : Prop :=
  t.retargets = s.retargets ∨ (s.retarget tn ptr = none ∧ t.retargets = s.retargets ++ [{ addr := ptr, tenant := tn }])

/-- R67, R366, R40, R74, R322: LAUNCH appends the record's address to the queue and tenant that the record's bytes name and sets qd, or
clears it where the queue holds 256 entries; a reorder target is live from the post on. CWAIT acquires at package scope and sets qd where
the counter has reached gB; else with TMO 0 it clears qd. (The L1 of the thread's core holds no dirty byte, no write of it waits for a
Switch, and its warp's queue has drained.) -/
def Sys2Proof.Claims.Launching : Prop :=
  ∀ (k : Ctl) (q : Pred) (a : Src) (s : State) (l : Nat) (x : Xlat),
    let n := s.cur.warp
    let w := s.curWarp
    let p := (s.cx n l).src a
    s.curWarp.storeQ = [] → noDirty s w.core → s.stalls w.core everywhere = false →
    (let i : Instr := .launch k q a
     let tb := (s.byteAt x.pa).toNat + 256 * (s.byteAt (x.pa + 1)).toNat
     let tn := if tb < 16 ∧ (tb = w.tenant ∨ w.level = .hypervisor ∨ w.level = .monitor) then tb else w.tenant
     let qn := (s.byteAt (x.pa + 3)).toNat % 16
     let old := tgetD (s.tenant tn).queues qn []
     Solo i s l → p.toNat % 256 = 0 → Plain s l accLoad (p + 0x28) 4 x →
       ∃ t, exec i s = .next t ∧ OneThreadOnly s { t with tenants := s.tenants, retargets := s.retargets } l ∧ ResvKept s t l ∧ SameBytes s t ∧
         Livened s t tn p.toNat ∧
         Done i s (t.thread n l) (s.thread n l) (predDest q (decide (old.length < 256))) ∧ (∀ j, j ≠ tn → t.tenant j = s.tenant j) ∧
         { t.tenant tn with queues := [] } = { s.tenant tn with queues := [] } ∧
         (∀ j, j ≠ qn → tgetD (t.tenant tn).queues j [] = tgetD (s.tenant tn).queues j []) ∧
         tgetD (t.tenant tn).queues qn [] = if old.length < 256
           then old ++ [{ ptr := p.toNat, poster := w.tenant, high := decide (w.level = .hypervisor ∨ w.level = .monitor) }] else old) ∧
    ∀ b, let i : Instr := .cwait k q a b
      let value := number (fun j => atHome s w.core (x.pa + j)) 0 8
      let bound := ((s.cx n l).src b).toNat
      Solo i s l → (s.thread n l).rsDepth = 0 → Plain s l accLoad p 8 x →
      (bound ≤ value → ∃ t, exec i s = .next t ∧ FenceFrame s t l ∧ ResvKept s t l ∧
        Done i s (t.thread n l) (s.thread n l) (predDest q true) ∧ Ordered s t false true) ∧
      (value < bound → w.tmo = 0 → ∃ t, exec i s = .next t ∧ OneThreadOnly s t l ∧ ResvKept s t l ∧
        Done i s (t.thread n l) (s.thread n l) (predDest q false) ∧ SameBytes s t)

/-- R75, R312: CANCEL stops each of its tenant's accepted launches that the name covers with status 1, but for one that has stopped or
begun to finish, or whose last block has retired (R43); no other launch; and it marks each posted record at the address in `.launch`;
with gA = 0 it only advances. -/
def Sys2Proof.Claims.Cancelling : Prop :=
  ∀ (k : Ctl) (kind : CancelKind) (a : Src) (s : State) (l : Nat), let i : Instr := .cancel k kind a
    let n := s.cur.warp
    let tn := s.curWarp.tenant
    let v := ((s.cx n l).src a).toNat
    let named (L : Launch) : Prop := L.tenant = tn ∧ L.state ≠ .finished ∧ v = match kind with
      | .launch => L.addr
      | .graph => L.lrec.graph
      | .phase => L.lrec.phase
      | .job => L.lrec.job
    Solo i s l →
    (v = 0 → InEachThread i s fun x u => OnlyAdvances i s x.t u) ∧
    let ends (L : Launch) : Prop := named L ∧ L.stopped = false ∧ L.state ≠ .finishing ∧ s.workDone L = false
    (v ≠ 0 → tsorted s.launches = true → ∃ t, exec i s = .next t ∧
      (∀ id L, tget s.launches id = some L →
        (ends L → tget t.launches id = some { L with stopped := true, status := 1, cause := 0, info := 0, state := .finishing }) ∧
        (¬ ends L → tget t.launches id = some L)) ∧
      (kind = .launch → ∀ qn, tgetD (t.tenant tn).queues qn [] = (tgetD (s.tenant tn).queues qn []).map fun p =>
        if p.ptr = v then { p with cancelled := true } else p) ∧
      (∀ j, j ≠ tn → t.tenant j = s.tenant j) ∧
      ((∀ L, tget s.launches s.curWarp.launch = some L → ¬ named L) ∨ s.curWarp.service = true →
        OnlyAdvances i s (s.thread n l) (t.thread n l)) ∧
      (∀ m, (s.warp m).service = true → m ≠ n → t.warp m = s.warp m) ∧ SameMemory s t)

/-- LAUNCH, CWAIT and CANCEL. -/
def Obligations.LaunchAndCancel : Prop := Launching ∧ Cancelling

/-! ## System registers (class 14) -/

namespace Sys2Proof.Claims

/-- The value that SRD gives for each number that every thread may read (R25, R44, R258); `c` is the cycle at which it reads. -/
def readable (s : State) (x : LaneCx) : Nat → Option Nat
  | 0x00 => some (if x.w.service then 0 else 32 * x.w.wid + x.lane)
  | 0x01 => some (if x.w.service then 0 else x.w.wid)
  | 0x02 => some x.w.bid
  | 0x03 => some (if x.w.service then 4 * (x.w.core - 1024) + x.w.wid else (x.w.bid * x.w.wpb + x.w.wid) * 32 + x.lane)
  | 0x04 => some x.w.gangLin
  | 0x05 => some x.w.launchAddr.toNat
  | 0x06 => some x.t.rkey.toNat
  | 0x07 => some x.t.rpay.toNat
  | 0x08 => some x.w.relaunch
  | 0x10 => some (if x.w.service then 1 else (s.core x.w.core).lmap.toNat)
  | 0x11 => some (if x.w.service then 1 else (s.core x.w.core).npass)
  | 0x12 => some (if x.w.service then x.w.core - 1024 else x.w.core)
  | 0x13 => some (if x.w.service then 0xFFFFFFFFFFFFFFFF else clusterOf x.w.core)
  | 0x14 => some (if x.w.core < 512 then 0 else if x.w.core < 1024 then 1 else 3)
  | 0x15 => some x.w.tenant
  | 0x18 => some (if x.w.service then (x.now + x.pass) * 32 / 7 else x.now + x.pass)
  | 0x19 => some ((x.now + x.pass) * 10 / 7)
  | 0x20 => some x.w.fpctl.toNat
  | 0x21 => some x.t.fpflags.toNat
  | 0x22 => some x.w.tmo.toNat
  | 0x23 => some x.t.meet.toNat
  | 0x24 => some (tgetD (s.tenant x.w.tenant).ack x.w.core 1)
  | 0x25 => some x.t.rsDepth
  | 0x28 => some x.w.oc.cp
  | 0x29 => some x.w.oc.gx
  | 0x2A => some x.w.oc.mx
  | 0x2B => some x.w.oc.cl
  | 0x2C => some x.w.oc.pt
  | 0x2D => some x.w.oc.bk
  | 0x30 => some x.w.tvec.toNat
  | 0x31 => some x.w.tcause.toNat
  | 0x32 => some x.w.tpc.toNat
  | 0x33 => some x.w.tmask.toNat
  | 0x34 => some x.t.telem.toNat
  | 0x35 => some x.w.tres.toNat
  | 0x36 => some x.w.taddr.toNat
  | 0x38 => some s.power.lattol.toNat
  | _ => none

/-- The registers of a privileged level (R258, R259). -/
def levelBase : Level → Nat
  | .user => 0
  | .supervisor => 0x40
  | .hypervisor => 0x48
  | .monitor => 0x50

/-- The target level of interrupt n in INTLVL (R236): 1 supervisor, 3 monitor, else hypervisor. -/
def intLevel (lvl : BitVec 32) (n : Nat) : Nat :=
  match lvl.toNat / 4 ^ n % 4 with
  | 1 => 1
  | 3 => 3
  | _ => 2

/-- A thread's registers of a warp, written by SWR (R258): what the warp becomes. -/
def warpWrite (w : Warp) (v : Word) : Nat → Option Warp
  | 0x22 => some { w with tmo := v }
  | 0x30 => some { w with tvec := v &&& ~~~ 3#64 }
  | 0x32 => some { w with tpc := v &&& ~~~ 3#64 }
  | 0x35 => some { w with tres := v }
  | _ => none

end Sys2Proof.Claims

/-- R405, R25, R44, R257 to R259, R236: SRD copies the register, zero-extended: those every thread reads; the four registers of a level at
that level or above; INTPEND and INTEN through the bits whose target level is reached, INTLVL whole, TIMECMP where the timer's level
is reached, and 0 for IPISEND. That CYCLE and TIME read the clock of the thread's pass, and a service core's the same clock at its own
rates, is the model's inference (log 18). -/
def Obligations.SystemReads : Prop :=
  ∀ (k : Ctl) (d : Dst) (num : Fin 256) (s : State), let i : Instr := .srd k d num
    Issues i s →
    ((∃ x, readable s x num.val ≠ none) → GivesResult i s 6 (dstReg d) fun x => BitVec.ofNat 64 ((readable s x num.val).getD 0)) ∧
    (∀ y : Level, y ≠ .user → ∀ (o : Nat) (r : PrivRegs → Word), [PrivRegs.vec, PrivRegs.pc, PrivRegs.cause, PrivRegs.addr][o]? = some r →
      num.val = levelBase y + o → GivesResult i s 6 (dstReg d) fun x => r (x.w.svc.regs y)) ∧
    (num.val = 0x58 ∨ num.val = 0x59 → ∃ v, GivesResult i s 6 (dstReg d) v ∧ ∀ x b, b < 64 → (v x).getLsbD b =
      (decide (b < 16) && (if num.val = 0x58 then x.w.svc.intpend else x.w.svc.inten).getLsbD b &&
        decide (intLevel x.w.svc.intlvl b ≤ x.w.svc.level.num))) ∧
    (num.val = 0x5A → GivesResult i s 6 (dstReg d) fun x => x.w.svc.intlvl.setWidth 64) ∧
    (num.val = 0x5B → GivesResult i s 6 (dstReg d) fun x =>
      if intLevel x.w.svc.intlvl 2 ≤ x.w.svc.level.num then x.w.svc.timecmp else 0) ∧
    (num.val = 0x5C → GivesResult i s 6 (dstReg d) fun _ => 0)

/-- R405, R257 to R259, R148, R149, R236, R237: SWR in one thread writes the register and nothing else: reserved bits are ignored; TENANT
takes four bits, and raises cause 0x0C in a read section; INTPEND clears the bits written 1, and INTEN takes the bits, whose target
level is reached; IPISEND sets interrupt 3 pending in the thread it names. -/
def Obligations.SystemWrites : Prop :=
  ∀ (k : Ctl) (num : Fin 256) (a : Src) (s : State) (l : Nat), let i : Instr := .swr k num a
    let n := s.cur.warp
    let v := (s.cx n l).src a
    let same (t : State) : Prop := OneThreadOnly s t l ∧ SameMemory s t ∧ Done i s (t.thread n l) (s.thread n l) []
    let only (t : State) (w : Warp) : Prop := OnlyWarps s t ∧ (∀ m, m ≠ n → t.warp m = s.warp m) ∧
      { t.curWarp with threads := [], residency := 0 } = { w with threads := [], residency := 0 } ∧
      Done i s (t.thread n l) (s.thread n l) []
    let w := s.curWarp
    let reach (b : Nat) : Bool := decide (intLevel w.svc.intlvl b ≤ w.svc.level.num)
    let later : Prop := w.svc.timecmp = 0 ∨ s.now * 10 / 7 < w.svc.timecmp.toNat
    Solo i s l →
    (∀ w', warpWrite w v num.val = some w' → ∃ t, exec i s = .next t ∧ only t w') ∧
    (num.val = 0x15 → (s.thread n l).rsDepth = 0 → ∃ t, exec i s = .next t ∧ only t { w with tenant := v.toNat % 16 }) ∧
    (num.val = 0x15 → (s.thread n l).rsDepth ≠ 0 → OneThread s → ∀ y, takenAt w.svc w.level y →
      ∃ t, exec i s = .next t ∧ Enters s t n y 0 0x0C 0 0 s.curPc) ∧
    (num.val = 0x20 →
      let c := v.toNat / 8 % 64 * 8 + if v.toNat % 8 ≤ 4 then v.toNat % 8 else w.fpctl.toNat % 8
      ∃ t, exec i s = .next t ∧ only t { w with fpctl := BitVec.ofNat 64 c }) ∧
    (num.val = 0x21 → ∃ t, exec i s = .next t ∧ OnlyWarps s t ∧ IssuedTo i s (nextPc i (s.thread n l)) (t.thread n l) ∧
      (t.thread n l).bare = { (s.thread n l).bare with fpflags := v.setWidth 5 } ∧
      (∀ m u, (m ≠ n ∨ u ≠ l) → t.thread m u = s.thread m u)) ∧
    (num.val = 0x23 → ∃ t, exec i s = .next t ∧ OnlyWarps s t ∧ IssuedTo i s (nextPc i (s.thread n l)) (t.thread n l) ∧
      (t.thread n l).bare = { (s.thread n l).bare with meet := v &&& ~~~ 3#64 } ∧
      (∀ m u, (m ≠ n ∨ u ≠ l) → t.thread m u = s.thread m u)) ∧
    (num.val = 0x38 → ∃ t, exec i s = .next t ∧ same { t with power := s.power } ∧
      t.power = { s.power with lattol := v &&& 0xFFFFFFFF#64 }) ∧
    (∀ y : Level, y ≠ .user → ∀ (o : Nat), o < 4 → num.val = levelBase y + o → ∃ t r, exec i s = .next t ∧
      only t { w with svc := t.curWarp.svc } ∧ t.curWarp.svc = w.svc.setRegs y r ∧
      r = [{ w.svc.regs y with vec := v &&& ~~~ 3#64 }, { w.svc.regs y with pc := v &&& ~~~ 3#64 },
        { w.svc.regs y with cause := v &&& 0x3FFFF#64 }, { w.svc.regs y with addr := v }][o]?.getD {}) ∧
    (num.val = 0x58 → later → ∃ t v' a, exec i s = .next t ∧ only t { w with svc := { w.svc with intpend := v', alarms := a } } ∧
      ∀ b, b < 16 → v'.getLsbD b = (w.svc.intpend.getLsbD b && !(v.getLsbD b && reach b)) ∧
        a.getLsbD b = (w.svc.alarms.getLsbD b && !(v.getLsbD b && reach b))) ∧
    (num.val = 0x59 → ∃ t v', exec i s = .next t ∧ only t { w with svc := { w.svc with inten := v' } } ∧
      ∀ b, b < 16 → v'.getLsbD b = if reach b then v.getLsbD b else w.svc.inten.getLsbD b) ∧
    (num.val = 0x5A → ∃ t v', exec i s = .next t ∧ only t { w with svc := { w.svc with intlvl := v' } } ∧
      ∀ j, j < 16 → v'.toNat / 4 ^ j % 4 = if v.toNat / 4 ^ j % 4 = 3 ∧ w.svc.level ≠ .monitor then w.svc.intlvl.toNat / 4 ^ j % 4
        else v.toNat / 4 ^ j % 4) ∧
    (num.val = 0x5B → ∃ t v', exec i s = .next t ∧ only t { w with svc := { w.svc with timecmp := if reach 2 then v else w.svc.timecmp, intpend := v' } } ∧
      ∀ b, b < 16 → v'.getLsbD b = (w.svc.intpend.getLsbD b || (b == 2 && reach 2 && v != 0 && decide (v.toNat ≤ s.now * 10 / 7)))) ∧
    (num.val = 0x5C → ∃ t, exec i s = .next t ∧ OnlyWarps s t ∧ IssuedTo i s (nextPc i (s.thread n l)) (t.thread n l) ∧
      (t.thread n l).bare = (s.thread n l).bare ∧
      let m := v.toNat % 256
      let sends : Prop := w.svc.level ≠ .supervisor ∨ (s.warp m).tenant = w.tenant
      (sends → (t.warp m).svc = { (s.warp m).svc with intpend := (s.warp m).svc.intpend ||| 8#16, ipiFrom := n }) ∧
      (¬ sends → (t.warp m).svc = (s.warp m).svc) ∧ (∀ j, j ≠ m → (t.warp j).svc = (s.warp j).svc) ∧
      ∀ j u, (j ≠ n ∨ u ≠ l) → t.thread j u = s.thread j u)

/-! ## Steps that no instruction makes: the cores and the memory system -/

namespace Sys2Proof.Claims

/-- Nothing but one thread changes. -/
structure OneThreadMoves (s t : State) (n l : Nat) (f : Thread → Thread) : Prop where
  thread : l < (s.warp n).threads.length → t.thread n l = f (s.thread n l)
  threads : ∀ m u, (m ≠ n ∨ u ≠ l) → t.thread m u = s.thread m u
  warps : ∀ m, { t.warp m with threads := [] } = { s.warp m with threads := [] }
  rest : t = { s with warps := t.warps }

/-- The registers that a bounded wait leaves when its bound has elapsed (R74, R140, R203). -/
def unsatisfied : Instr → Option (List (RegRef × Word))
  | .cwait _ q _ _ => some (predDest q false)
  | .pin _ q _ _ _ => some (predDest q false)
  | .defer _ q _ _ _ => some (predDest q false)
  | .alloc _ q d _ _ => some (regDest d 0 ++ predDest q false)
  | _ => none

/-- A cache holds no byte of a line. -/
def lacks (c : Cache) (line : Nat) : Prop := ∀ a, a / 256 = line → c.byte a = none

end Sys2Proof.Claims

/-- R47, R34, R54, R57, R74, R122, R404: the steps of a core and of one thread. A core step takes the next number and time, and selects
bundles of one resident warp of the core whose tenant has a weight, or none; the governor withholds the slot only from a tenant of which
least has been withheld for its weight (R10), and one step in 8 is taken from a core of which a lane is under test (R249); expiries and
landings change the one field. A bounded wait whose bound has elapsed completes unsatisfied, and with STALL 7 its warp yields. The
model's choices here: the time of a step on the agenda (log 5), the drawn choice and the governor's account (log 85), which of 8 steps
a lane test takes (log 61), and the instruction read again at the PC by a wait that has timed out (log 68). -/
def Obligations.CoreEvents : Prop :=
  (∀ (core : Nat) (s : State), core < 1024 → (s.core core).enabled = true → s.power.pstate = 0 → tsorted s.warps = true →
    let c := s.core core
    let step := max (c.step + 1) (ceilDiv (s.now - c.startCycle) c.npass)
    let mine (n : Nat) : Prop := (s.warp n).service = false ∧ (s.warp n).resident = true ∧ (s.warp n).core = core
    ∃ t, exec (.coreStep core) s = .next t ∧
      t = { s with now := t.now, warps := t.warps, cores := t.cores, issue := t.issue, drawn := t.drawn, power := t.power } ∧
      (t.power = s.power ∨ t.issue = s.issue ∧ ∃ T, T ∈ s.presentTenants ∧
        (∀ U, U ∈ s.presentTenants → tgetD s.withheldNow T 0 * (s.tenant U).weight ≤ tgetD s.withheldNow U 0 * (s.tenant T).weight) ∧
        t.power = { s.power with withheld := tset s.withheldNow T (tgetD s.withheldNow T 0 + 1) }) ∧
      (step % 8 = 7 → s.testsLane core = true → t.issue = s.issue) ∧ t.now = max s.now (c.startCycle + step * c.npass) ∧ (t.core core).step = step ∧ (∀ d, d ≠ core → t.core d = s.core d) ∧
      (∀ n, ¬ mine n → t.warp n = s.warp n) ∧ SameMemory s t ∧
      (t.issue = s.issue ∨ ∃ n, mine n ∧ (s.tenant (s.warp n).tenant).weight ≠ 0 ∧ ∀ b ∈ t.issue, b.warp = n)) ∧
  ∀ (n l : Nat) (s : State),
    (∃ t, exec (.stallExpiry n l) s = .next t ∧ OneThreadMoves s t n l fun u =>
      if (s.warp n).service = false ∧ u.stallUntil ≤ s.nextStep (s.warp n).core then { u with stallUntil := 0 } else u) ∧
    (∃ t, exec (.sleepExpiry n l) s = .next t ∧ OneThreadMoves s t n l fun u =>
      if ∃ d, u.asleep = some d ∧ d ≤ s.now then { u with asleep := none } else u) ∧
    (∃ t, exec (.resultLanding n l) s = .next t ∧ OneThreadMoves s t n l fun u =>
      { u with pend := u.pend.filter fun p => decide (s.now < p.due) }) ∧
    (∃ t, exec (.reservationLapse n l) s = .next t ∧ OneThreadMoves s t n l fun u =>
      if ∃ r, u.resv = some r ∧ r.time + 1400 < s.now then { u with resv := none } else u) ∧
    (∀ i ws d, let u := s.thread n l
      s.peek (s.warp n) u.pc = some i → unsatisfied i = some ws → u.exited = false → u.wait ≠ .none → u.deadline = some d → d ≤ s.now →
      ((s.warp n).resident = true ∨ (s.warp n).service = true) → l < (s.warp n).threads.length → (s.warp n).paired = false →
      let yields : Prop := (ctlOf i).stall.val = 7 ∧ (s.warp n).service = false
      ∃ t t1 v, exec (.waitTimeout n l) s = .next t ∧ OneThreadMoves s t1 n l (fun _ => v) ∧
        (¬ yields → t = t1) ∧ (yields → t = t1.renumber n) ∧ v.pc = nextPc i u ∧ v.wait = .none ∧
        v.deadline = none ∧ v.age = 0 ∧ v.stallUntil = (s.core (s.warp n).core).step + (ctlOf i).stall.val + 1 ∧
        v.noRegs = u.noRegs ∧ Sets u v ws)

/-- R101, R103, R120, R196, R230: the steps of the caches and homes, each of which answers a next state. An L2 or the service-die caches
give a line up, and no byte of memory changes; an L1 gives one up once none of its writes waits for a Switch, and its core sees the same
bytes; it answers no invalidation, for no directory knows it. A counted request raises the counter of the frame that serves it,
saturating, and changes no byte; between Start and Switch it counts nowhere. The store to a replicated page at the head of a queue leaves
it, and its bytes stand at both replicas. A compute thread's access without a response for 1 ms waits behind a fault of kind 6, a service
thread's enters hypervisor level with cause 5 for a fetch and 6 for data. -/
def Obligations.CacheEvents : Prop :=
  ∀ (s : State),
    (∀ line (c : CacheId) id, (c = .svc ∧ id = 2 ∨ ∃ d, c = .l2 d ∧ d < 2 ∧ id = d) → ∀ i, (i = .cacheEviction c line ∨ i = .lineInvalidation c line) →
      ∃ t, exec i s = .next t ∧ beside t = beside s ∧ t.l1 = s.l1 ∧ lacks (t.l2c id) line ∧
        (Quiet s → ∀ j, j ≠ id → t.l2c j = s.l2c j) ∧
        (cachesOk s → s.moving (line * 256) = false → ∀ p, t.byteAt p = s.byteAt p)) ∧
    (∀ line d, 2 ≤ d → exec (.cacheEviction (.l2 d) line) s = .next s ∧ exec (.lineInvalidation (.l2 d) line) s = .next s) ∧
    (∀ line core, let waits (s : State) : Prop := s.stalls core (fun a => a / 256 == line) = true
      ∃ t, exec (.cacheEviction (.l1 core) line) s = .next t ∧ beside t = beside s ∧ (∀ j, j ≠ core → t.l1c j = s.l1c j) ∧
        (¬ waits t → lacks (t.l1c core) line) ∧
        (cachesOk s → Quiet s → ¬ waits t ∧ ∀ p, sees t core p = sees s core p)) ∧
    (∀ line core, exec (.lineInvalidation (.l1 core) line) s = .next s) ∧
    (∀ req : HomeReq, (tierOf req.pa = none ∨ s.moving req.pa = true → exec (.homeRequest req) s = .next s) ∧
      ((tierOf req.pa).isSome = true → s.moving req.pa = false → ∃ t, exec (.homeRequest req) s = .next t ∧
        (∀ f, tgetD t.counters f 0 = if f = frameOf (s.homeAddr req.pa) then min 0xFFFF (tgetD s.counters f 0 + req.n) else tgetD s.counters f 0) ∧
        t.warps = s.warps ∧ t.l1 = s.l1 ∧ (cachesOk s → ∀ p, t.byteAt p = s.byteAt p) ∧
        ((s.tenant req.tenant).thresh = 0 → t = { s with counters := t.counters }))) ∧
    (∀ n x bs q, (s.warp n).paired = false → (s.warp n).storeQ = .store (.mem x) bs :: q → x.ms = false → x.repl = true →
      let a := x.pa % 0x8000000000
      ∃ t, exec (.replicaUpdate n) s = .next t ∧ (t.warp n).storeQ = q ∧ (∀ m, m ≠ n → (t.warp m).storeQ = (s.warp m).storeQ) ∧
        (cachesOk s → Quiet s → (tierOf x.pa).isSome = true → a + bs.length ≤ 0x8000000000 →
          ∀ p, t.byteAt p = if a ≤ p % 0x8000000000 ∧ p % 0x8000000000 < a + bs.length ∧ p < 0x10000000000
            then (bs[p % 0x8000000000 - a]?).getD 0 else s.byteAt p)) ∧
    (∀ n, (∀ x bs q, (s.warp n).storeQ = .store (.mem x) bs :: q → x.repl = false) → exec (.replicaUpdate n) s = .next s) ∧
    ∀ n l since va ipa r w a, (s.thread n l).wait = .fabric since va ipa r w a →
      let b := clusterOf (s.warp n).core
      let fetch : Bool := !(r || w || a)
      (s.now < since + 700000 → exec (.fabricResponseTimeout n l) s = .next s) ∧
      (since + 700000 ≤ s.now → (s.warp n).service = false → ∃ t, exec (.fabricResponseTimeout n l) s = .next t ∧
        t.thread n l = { s.thread n l with wait := .fault b } ∧
        .thread n l (addr (BitVec.ofNat 64 va)) r w fetch a 0xFFFF false ∈ (t.fbuf b).waiters ∧ SameMemory s t ∧
        ∀ m u, (m ≠ n ∨ u ≠ l) → t.thread m u = s.thread m u) ∧
      (since + 700000 ≤ s.now → (s.warp n).service = true → (s.warp n).threads.length = 1 →
        ∀ y, takenAt (s.warp n).svc (if (s.warp n).svc.level = .monitor then .monitor else .hypervisor) y →
        ∃ t, exec (.fabricResponseTimeout n l) s = .next t ∧
          Enters s t n y 0 (if fetch then 5 else 6) 0 (BitVec.ofNat 64 va) (s.thread n l).pc)

/-! ## Service threads and windows -/

namespace Sys2Proof.Claims

/-- Nothing but what a service thread holds beside its thread state changes. -/
def OnlySvc (s t : State) (n : Nat) (f : Svc → Svc) : Prop :=
  t.warp n = { s.warp n with svc := f (s.warp n).svc } ∧ (∀ m, m ≠ n → t.warp m = s.warp m) ∧ t = { s with warps := t.warps }

/-- The timer interrupt is due (R236). -/
def timerDue (s : State) (v : Svc) : Prop := v.timecmp ≠ 0 ∧ v.timecmp.toNat ≤ s.now * 10 / 7

/-- The level that an interrupt enters: its target (R236), monitor for a security alarm (R234). -/
def entersAt (v : Svc) (i : Nat) : Nat := if v.alarms.getLsbD i then 3 else intLevel v.intlvl i

/-- An interrupt that a service thread may take now (R236). -/
def takes (v : Svc) (i : Nat) : Bool := v.intpend.getLsbD i && v.inten.getLsbD i && decide (v.level.num < entersAt v i)

end Sys2Proof.Claims

/-- R236, R234, R260: INTERRUPT_TAKE enters the lowest takeable interrupt's level, monitor level for a security alarm, with KIND 4, INTNO
and XADDR; pending bits are set by the timer, by IPISEND and by platform sources routed with EN, and cleared by the bits written. That an
alarm of the security block comes as the INTNO of its source and is cleared through INTPEND is the model's inference (log 21), as is the
XPC of a thread that waits or sleeps (log 20). -/
def Sys2Proof.Claims.InterruptEvents : Prop :=
  ∀ (s : State) (n : Nat), n < 256 →
    let v := (s.warp n).svc
    (∀ i y, v.running = true → (s.warp n).threads.length = 1 → i < 16 → takes v i = true → (∀ j, j < i → takes v j = false) →
      y ≠ .user → y.num = entersAt v i → ∃ t, exec (.interruptTake n) s = .next t ∧ Enters s t n y 4 0 i
        (BitVec.ofNat 64 (if i = 0 then v.xlatFrom else if i = 3 then v.ipiFrom else 0)) (s.thread n 0).pc) ∧
    ((v.running = false ∨ ∀ i, i < 16 → takes v i = false) → exec (.interruptTake n) s = .next s) ∧
    (timerDue s v → ∃ t, exec (.timerInterruptPending n) s = .next t ∧ OnlySvc s t n fun v => { v with intpend := v.intpend ||| 4#16 }) ∧
    (¬ timerDue s v → exec (.timerInterruptPending n) s = .next s) ∧
    (∀ x : Word, v.level ≠ .user →
      let m := x.toNat % 256
      (v.level ≠ .supervisor ∨ (s.warp m).tenant = (s.warp n).tenant → ∃ t, exec (.ipisendWrite n x) s = .next t ∧
        OnlySvc s t m fun v => { v with intpend := v.intpend ||| 8#16, ipiFrom := n }) ∧
      (v.level = .supervisor → (s.warp m).tenant ≠ (s.warp n).tenant → exec (.ipisendWrite n x) s = .next s) ∧
      (¬ timerDue s v → ∃ t p a, exec (.intpendClear n x) s = .next t ∧ (OnlySvc s t n fun v => { v with intpend := p, alarms := a }) ∧
        ∀ b, b < 16 → let clear : Bool := x.getLsbD b && decide (intLevel v.intlvl b ≤ v.level.num)
          p.getLsbD b = (v.intpend.getLsbD b && !clear) ∧ a.getLsbD b = (v.alarms.getLsbD b && !clear))) ∧
    ∀ i, 4 ≤ i → i ≤ 15 →
      let r := tgetD s.introute i 0
      (r.getLsbD 8 = true → ∃ t, exec (.platformInterruptSignal i) s = .next t ∧
        OnlySvc s t (r.toNat % 256) fun v => { v with intpend := v.intpend ||| BitVec.ofNat 16 (2 ^ i) }) ∧
      (r.getLsbD 8 = false → exec (.platformInterruptSignal i) s = .next s)

/-- R235, R420, R212: a stopped service thread starts with SVTPC, g1 = SVTARG, all other registers 0, SVTCTL's level and tenant; a running
one stops and its thread exits; neither touches a thread that is so already. A dword store to INTROUTE at hypervisor level or above
writes bits 8:0, whatever base of 64 KiB Lantern reports; Lantern writes LATTOL (R253). POOLSTAT reads FIRST and STATUS at those levels. -/
def Sys2Proof.Claims.ServiceEvents : Prop :=
  ∀ (s : State) (n : Nat), n < 256 →
    let w := s.warp n
    (w.svc.running = false → w.threads.length = 1 → ∃ t, exec (.serviceThreadStart n) s = .next t ∧ t = { s with warps := t.warps } ∧
      (∀ m, m ≠ n → t.warp m = s.warp m) ∧ (t.warp n).svc = { w.svc with running := true, level := w.svc.svtLevel } ∧
      (t.warp n).tenant = w.svc.svtTenant ∧ (t.warp n).fpctl = 0 ∧ (t.warp n).tmo = 0 ∧
      let u := t.thread n 0
      u.pc = w.svc.svtpc ∧ u.gcur 1 = w.svc.svtarg ∧ (∀ k, k ≠ 1 → u.gcur k = 0) ∧ u.preds = 0 ∧ u.fpflags = 0 ∧ u.meet = 0 ∧
        u.rsDepth = 0 ∧ u.exited = false ∧ u.wait = .none) ∧
    (w.svc.running = true → exec (.serviceThreadStart n) s = .next s) ∧
    (w.svc.running = true → w.threads.length = 1 → ∃ t, exec (.serviceThreadStop n) s = .next t ∧ t = { s with warps := t.warps } ∧
      (∀ m, m ≠ n → t.warp m = s.warp m) ∧ (t.warp n).svc = { w.svc with running := false } ∧ HasExited (s.thread n 0) (t.thread n 0)) ∧
    (w.svc.running = false → exec (.serviceThreadStop n) s = .next s) ∧
    (∀ i level (v : Word), (i = 1 ∨ 4 ≤ i ∧ i < 16) → regionOf s.bases.sched = .window → s.bases.sched % 0x10000 = 0 →
      exec (.registerWrite level (.window (s.bases.sched + 0x6000 + 8 * i)) 8 v) s =
        .next (if 2 ≤ level then { s with introute := tset s.introute i (v &&& 0x1FF#64) } else s)) ∧
    (∀ level size (v : Word), exec (.registerWrite level .lattol size v) s =
      .next { s with power := { s.power with lattol := v &&& 0xFFFFFFFF#64 } }) ∧
    (w.svc.running = true → w.service = true →
      ((w.svc.level = .user ∨ w.svc.level = .supervisor) → exec (.poolstatRead n) s = .next { s with readout := 0 }) ∧
      (w.svc.level = .hypervisor ∨ w.svc.level = .monitor →
        (s.poolCmd.status ≠ 2 → exec (.poolstatRead n) s =
          .next { s with readout := BitVec.ofNat 64 (s.poolCmd.first / 4096 * 4096 + s.poolCmd.status) }) ∧
        (s.poolCmd.status = 2 → w.threads.length = 1 → ∀ y, takenAt w.svc w.svc.level y → ∃ t, exec (.poolstatRead n) s = .next t ∧
          Enters s t n y 0 0x0D 0 (BitVec.ofNat 64 (s.poolCmd.first / 4096 * 4096)) (s.thread n 0).pc)))

/-- Interrupts and service threads. -/
def Obligations.ServiceAndInterrupts : Prop := InterruptEvents ∧ ServiceEvents

namespace Sys2Proof.Claims

/-- Nothing but one tenant changes. -/
def OnlyTenant (s t : State) (k : Nat) (f : Tenant → Tenant) : Prop :=
  (∀ j, t.tenant j = if j = k then f (s.tenant k) else s.tenant j) ∧ t = { s with tenants := t.tenants }

end Sys2Proof.Claims

/-- R67, R68, R40, R81, R82, R85, R86, R92, R138: the windows of the scheduler and of Stuffsack. A posting store appends its value to the
queue it names, where a reorder target is live from then on, or counts in a full one; SUSPEND and RESUME, COREOWN, L2WAY, the place table,
DSCARVE and pool control write their fields under their conditions, and a carve is backed by four slices a unit, the lowest-numbered live
ones first (R93); reads of the full count and of PERR return and clear; a reset of a suspended tenant of which nothing is outstanding
leaves it as after reset. -/
def Obligations.WindowEvents : Prop :=
  ∀ (s : State) (k : Nat), k < 16 →
    let T := s.tenant k
    (∀ q (v : Word), q < 16 → s.power.pstate = 0 →
      let es := tgetD T.queues q []
      (es.length < 256 → ∃ t, exec (.postingWindowStore k (8 * q) 8 v) s = .next t ∧ Livened s t k v.toNat ∧
        (s.targetRecord k v.toNat = true → (t.retarget k v.toNat).isSome = true) ∧ OnlyTenant s { t with retargets := s.retargets } k fun T =>
        { T with queues := tset T.queues q (es ++ [{ ptr := v.toNat, poster := k, high := false, window := some q }]) }) ∧
      (256 ≤ es.length → ∃ t, exec (.postingWindowStore k (8 * q) 8 v) s = .next t ∧ OnlyTenant s t k fun T =>
        { T with fullCounts := tset T.fullCounts q (min (2 ^ 64 - 1) (tgetD T.fullCounts q 0 + 1)) })) ∧
    (∀ q, q < 16 → ∃ t, exec (.postingFullCountRead k q) s = .next t ∧ t.readout = BitVec.ofNat 64 (tgetD T.fullCounts q 0) ∧
      OnlyTenant s { t with readout := s.readout } k fun T => { T with fullCounts := tset T.fullCounts q 0 }) ∧
    (tsorted s.blocks = true → ∃ t, exec (.tenantSuspend k) s = .next t ∧ (t.tenant k).suspend = true ∧ SameMemory s t ∧ t.warps = s.warps ∧ t.cores = s.cores ∧
      ∀ b, (t.block b).state = (s.block b).state ∨ ((s.block b).state = .resident ∧ (t.block b).state = .saving)) ∧
    (∃ t, exec (.tenantResume k) s = .next t ∧ (t.tenant k).suspend = false ∧
      (s.retiringSlices = [] → OnlyTenant s t k fun T => { T with suspend := false })) ∧
    (s.suspended k = true → T.resetting = false → s.engOps = [] → s.engines = [] → s.launches = [] → s.lands = [] → s.slots = [] → Quiet s →
      ∃ t, exec (.tenantReset k) s = .next t ∧
      t.tenant k = { suspend := true, debugHold := T.debugHold } ∧ (∀ j, j ≠ k → t.tenant j = s.tenant j) ∧
      (cachesOk s → (∀ c, noDirty s c) → SameMemory s t) ∧
      (∀ p ∈ t.warps, p.2.service = true ∨ p.2.tenant ≠ k) ∧ (∀ e ∈ t.tlb, e.tenant ≠ k) ∧ ∀ c, (t.core c).owner ≠ k ∧ tget (t.core c).slices k = none) ∧
    (∀ c (v : Word), c < 1024 → (v.toNat % 32 ≤ 16 → ∃ t, exec (.coreownWrite c v) s = .next t ∧ SameMemory s t ∧ t.warps = s.warps ∧
      ∀ d, t.core d = if d = c then { s.core c with owner := v.toNat % 32 } else s.core d) ∧
      (16 < v.toNat % 32 → exec (.coreownWrite c v) s = .next s)) ∧
    (∀ v : Word, (∀ p ∈ s.tenants, p.1 ≠ k → p.2.ways0 &&& v.setWidth 16 = 0 ∧ p.2.ways1 &&& (v >>> 16).setWidth 16 = 0) →
      ∃ t, exec (.l2wayWrite k v) s = .next t ∧ OnlyTenant s t k fun T => { T with ways0 := v.setWidth 16, ways1 := (v >>> 16).setWidth 16 }) ∧
    (∀ i (v : BitVec 32), (s.suspended k = true → i < 0x112 → ∃ t, exec (.placeTableWrite k (4 * i) v) s = .next t ∧ OnlyTenant s t k fun T =>
        { T with place := tset T.place i (v &&& 0x800000FF#32) }) ∧
      (s.suspended k = false → ∃ t, exec (.placeTableWrite k (4 * i) v) s = .next t ∧ OnlyTenant s t k fun T => { T with plerr := true })) ∧
    (∀ v : Word, (s.suspended k = false → exec (.dscarveWrite k v) s = .next s) ∧
      (s.suspended k = true → s.tenants.all (fun p => p.1 == k || (p.2.units0 == 0 && p.2.units1 == 0)) = true →
        s.retiringSlices = [] → let u0 := v.toNat % 32
        let u1 := v.toNat / 256 % 32
        let backed (d u : Nat) (old : List Nat) : List Nat := old.take (4 * u) ++ (s.liveSlices d).take (4 * u - old.length)
        u0 ≤ 16 → u1 ≤ 16 → 4 * u0 ≤ T.slices0.length + (s.liveSlices 0).length → 4 * u1 ≤ T.slices1.length + (s.liveSlices 1).length →
        ∃ t, exec (.dscarveWrite k v) s = .next t ∧ (t.tenant k).units0 = u0 ∧ (t.tenant k).units1 = u1 ∧
          (t.tenant k).slices0 = backed 0 u0 T.slices0 ∧ (t.tenant k).slices1 = backed 1 u1 T.slices1 ∧
          (∀ j, j ≠ k → t.tenant j = s.tenant j) ∧ t.warps = s.warps ∧ (cachesOk s → Quiet s → ∀ p, t.byteAt p = s.byteAt p))) ∧
    ∀ p, p < 16 →
      let P := s.pool k p
      let forgets (t : State) : Prop := t = { s with tenants := t.tenants, fbufs := t.fbufs } ∧ (∀ b, b ≠ 256 → t.fbuf b = s.fbuf b) ∧
        { t.fbuf 256 with waiters := [] } = { s.fbuf 256 with waiters := [] } ∧
        ∀ x, x ∈ (t.fbuf 256).waiters ↔ x ∈ (s.fbuf 256).waiters ∧ ∀ va, x ≠ .pool k p va
      (P.en = false → ∃ t, exec (.poolEnable k p) s = .next t ∧ forgets t ∧ OnlyPool s t k p
        { P with en := true, ready := false, lists := List.replicate 17 [], devWait := false, aborted := false, queue := [] }) ∧
      (P.en = true → exec (.poolEnable k p) s = .next s) ∧
      (P.en = true → ∃ t, exec (.poolDisable k p) s = .next t ∧ (t.pool k p).en = false ∧ (t.pool k p).ready = false ∧
        (t.tenant k).deferQ = T.deferQ.filter (fun e => e.pool != p) ∧ (∀ j, j ≠ k → t.tenant j = s.tenant j) ∧ forgets t) ∧
      (P.en = false → exec (.poolDisable k p) s = .next s) ∧
      ∃ t, exec (.perrRead k p) s = .next t ∧ t = { s with tenants := t.tenants, readout := t.readout } ∧ t.readout = BitVec.ofNat 64 P.perr ∧ OnlyPool s t k p { P with perr := 0 }

/-- R130, R137, R138, R139: the Guyline and Stuffsack by themselves. A node's report holds what it acknowledged and the least start of its
threads in read sections; an acknowledgement drops the clean bytes of the core's L1; the next grace number is done once every node has
reported above it; a background period advances GPSEQ where an entry waits and none is in progress; the oldest done entry leaves. -/
def Obligations.GraceEvents : Prop :=
  ∀ (s : State) (k : Nat), k < 16 →
    let T := s.tenant k
    let above (g : Nat) : Option Nat → Prop
      | some j => g < j
      | none => True
    (∀ node, node < 1088 → ∃ t, exec (.guylineReport node) s = .next t ∧ t = { s with tenants := t.tenants } ∧
      ∃ r, tget (t.tenant k).reports node = some r ∧ r.acked = tgetD T.ack node 1 ∧ { t.tenant k with reports := [] } = { T with reports := [] } ∧
        ((r.least = none ∧ ∀ u ∈ s.nodeThreads node k, u.rsDepth = 0 ∨ u.exited = true) ∨
          ∃ g, r.least = some g ∧ (∃ u ∈ s.nodeThreads node k, u.rsDepth ≠ 0 ∧ u.exited = false ∧ u.rsStart = g) ∧
            ∀ u ∈ s.nodeThreads node k, u.rsDepth ≠ 0 → u.exited = false → g ≤ u.rsStart)) ∧
    (∀ node, node < 1024 → tgetD T.ack node 1 < T.gpseq → ∃ t, exec (.gpseqAcknowledge node k) s = .next t ∧
      tget (t.tenant k).ack node = some T.gpseq ∧
      (∀ p b, (t.l1c node).byte p = some b → b.dirty = true ∨ s.stalls node (fun a => a == p) = true) ∧
      (cachesOk s → ∀ c p, sees t c p = sees s c p) ∧
      (∀ p, t.byteAt p = s.byteAt p) ∧ t = { s with l1 := t.l1, tenants := t.tenants }) ∧
    (let g := T.gpDone + 1
     g < T.gpseq → (∀ n, n < 1088 → ∃ r, tget T.reports n = some r ∧ g < r.acked ∧ above g r.least) → above g (s.bivSummary k) →
      ∃ t, exec (.gracePeriodDone k) s = .next t ∧ (t.tenant k).gpDone = g ∧ T.gpseq ≤ (t.tenant k).gpseq ∧ (t.tenant k).gpseq ≤ T.gpseq + 1 ∧
        t = { s with tenants := t.tenants }) ∧
    (T.gpseq = T.gpDone + 1 → (∃ e ∈ T.deferQ, T.gpDone < e.target) → ∃ t, exec (.backgroundGraceStart k) s = .next t ∧
      OnlyTenant s t k fun T => { T with gpseq := T.gpseq + 1 }) ∧
    (∀ e r, T.deferQ = e :: r → (e.target ≤ T.gpDone → (s.pool k e.pool).serves = false → ∃ t, exec (.deferredReturn k) s = .next t ∧
        OnlyTenant s t k fun T => { T with deferQ := r }) ∧
      (e.target ≤ T.gpDone → ∀ s1 m xs, let P := s.pool k e.pool
        let pl := P.freePlan e.ptr e.k m
        poolUp P → blockOf P e.ptr e.k → e.k ≤ 16 → (s.readMeta k e.pool e.ptr).2 = .ok (0x80 + e.k) → Quiet s → cachesOk s →
        Merges (s.readMeta k e.pool e.ptr).1 s1 k e.pool P e.ptr e.k m → PlanMaps s1 k e.pool pl xs →
        ∃ t, exec (.deferredReturn k) s = .next t ∧ (t.tenant k).deferQ = r ∧ PlanWrites s t pl xs ∧
          t.pool k e.pool = { pl.pool with devWait := false, aborted := false, perr := P.perr }) ∧
      (T.gpDone < e.target → exec (.deferredReturn k) s = .next s)) ∧
    ∀ p, p < 16 → let P := s.pool k p
      (P.en = false → exec (.poolEnablingFinished k p) s = .next s) ∧
      let bs := (List.range P.size).map fun i => P.pbase + i * 1048576
      (P.en = true → P.ready = false → P.devWait = false → P.aborted = false → Quiet s → ∀ xs,
        (s.poolTouch k p (pagesOf P.pmeta (P.size * 65536) ++ bs.map P.metaAt ++ bs)).2 = .ok xs →
        (∀ x ∈ xs, x.ms = false ∧ x.repl = false ∧ (tierOf x.pa).isSome = true) →
        ∃ t, exec (.poolEnablingFinished k p) s = .next t ∧ (t.pool k p).ready = true ∧ (t.pool k p).list 16 = bs ∧
          (∀ j, j < 16 → (t.pool k p).list j = []) ∧ (t.pool k p).free = P.size * 1048576 ∧ ∀ j, j ≠ k → t.tenant j = s.tenant j)

/-! ## Launches and blocks -/

namespace Sys2Proof.Claims

/-- The conditions of R63 on a launch record, with those that R67 and R68 put on its post by a tenant. -/
def InForm (r : LaunchRec) (tn : Nat) (p : Post) : Prop :=
  (canonical r.entry = true ∧ r.entry.toNat % 4 = 0 ∧ 32 * r.w * r.g * (r.gx * r.gy * r.gz) ≤ 2 ^ 48) ∧
    (r.flags.testBit 2 = true → r.gx = 0 ∧ r.gy = 0 ∧ r.gz = 0 ∧ r.w = 1 ∧ r.g = 1 ∧ r.flags.testBit 0 = false) ∧
    (1 ≤ r.w ∧ r.w ≤ 32 ∧ 1 ≤ r.g ∧ r.g ≤ 4 ∧ r.flags < 16 ∧ r.priority < 16 ∧ r.queue < 16 ∧ r.tenant < 16) ∧
    (8 ≤ r.n ∧ r.n ≤ 192 ∧ r.n % 8 = 0 ∧ 256 * r.w * r.n ≤ 524288) ∧
    (r.s % 16 = 0 ∧ r.p % 16 = 0 ∧ r.s + 32 * r.w * r.p ≤ 262144) ∧
    (r.counter % 8 = 0 ∧ r.graph % 8 = 0 ∧ r.phase % 8 = 0 ∧ r.job % 8 = 0 ∧ r.errAddr % 32 = 0 ∧ ∀ d ∈ r.deps, d.1 % 8 = 0) ∧
    (r.resA = 0 ∧ r.resB = 0) ∧
    r.tenant = tn ∧ (p.high = true ∨ r.tenant = p.poster ∨ p.window ≠ none) ∧ ∀ k, p.window = some k → r.queue = k

/-- Nothing but one launch changes. -/
def OnlyLaunch (s t : State) (lid : Nat) (l : Launch) : Prop :=
  (∀ j, tget t.launches j = if j = lid then some l else tget s.launches j) ∧ t = { s with launches := t.launches }

/-- A thread at its first issue: at the entry, with every register 0 (R27). -/
def Fresh (u : Thread) (entry : Word) : Prop :=
  u.pc = entry ∧ u.exited = false ∧ u.preds = 0 ∧ u.fpflags = 0 ∧ u.wait = .none ∧ u.rsDepth = 0 ∧ ∀ r, u.gcur r = 0

/-- The bytes of a number at consecutive addresses. -/
def holds (f : Nat → Byte) (at_ n v : Nat) : Prop := ∀ j, j < n → f (at_ + j) = BitVec.ofNat 8 (v / 2 ^ (8 * j))

/-- The record of a warp with N registers a thread at an address (R84): each thread's PC, meeting address, predicates and general
registers, and the warp registers. -/
structure Recorded (f : Nat → Byte) (at_ N : Nat) (w : Warp) : Prop where
  threads : ∀ (l : Nat) (u : Thread), w.threads[l]? = some u → let r := at_ + 0x200 + 64 * l
    holds f r 8 u.pc.toNat ∧ holds f (r + 8) 8 u.meet.toNat ∧ f (r + 0x20) = BitVec.ofNat 8 (u.preds.toNat % 128) ∧
      ∀ i, i < N → holds f (at_ + 0xA00 + 256 * i + 8 * l) 8 (u.gcur i).toNat
  shared : ∀ i, i < 32 → holds f (at_ + 0x40 + 8 * i) 8 (tgetD w.wregs i 0).toNat

/-- A warp with the PCs, meeting addresses, predicates and registers of another. -/
structure Restored (w v : Warp) (N : Nat) : Prop where
  threads : ∀ (l : Nat) (u : Thread), v.threads[l]? = some u → ∃ x, w.threads[l]? = some x ∧ x.pc = u.pc &&& ~~~ 3#64 ∧
    x.meet = u.meet &&& ~~~ 3#64 ∧ x.preds = BitVec.ofNat 8 (u.preds.toNat % 128) ∧ ∀ i, i < N → x.gcur i = u.gcur i
  shared : ∀ i, i < 32 → tgetD w.wregs i 0 = tgetD v.wregs i 0

/-- A block that a gang of a launch puts on a core (R26, R27, R80). -/
structure Begins (t : State) (b lid gang pos bid core : Nat) (l : Launch) : Prop where
  place : (t.block b).launch = lid ∧ (t.block b).gang = gang ∧ (t.block b).pos = pos ∧ (t.block b).bid = bid ∧ (t.block b).core = core
  state : (t.block b).state = .resident ∧ (t.block b).tags = [] ∧ (t.block b).warps.length = l.lrec.w
  warps : ∀ wid n, (t.block b).warps[wid]? = some n → (t.warp n).wid = wid ∧ (t.warp n).bid = bid ∧ (t.warp n).core = core ∧
    (t.warp n).resident = true ∧ (t.warp n).tenant = l.tenant ∧ tgetD (t.warp n).wregs 0 0 = l.lrec.param ∧
    tgetD (t.warp n).wregs 1 0 = BitVec.ofNat 64 l.addr ∧ (t.warp n).threads.length = 32 ∧ ∀ u ∈ (t.warp n).threads, Fresh u l.lrec.entry

end Sys2Proof.Claims

/-- R65, R69, R70, R71, R72: a launch from its acceptance to its finish, when the agents it names are in the way of nothing. The record at a
queue's head is read and leaves the queue; the launch is accepted, or stops with status 1, 2 or 3; it is ready once its dependence
slots are satisfied; with its work done it finishes: the L1s of its cores have written back their dirty bytes, and its completion counter
gains 1. -/
def Obligations.LaunchEvents : Prop :=
  ∀ (s : State),
    (∀ tn q p rest s1 bs b, tn < 16 → q < 16 → tgetD (s.tenant tn).queues q [] = p :: rest → p.devWait = false →
      s.openLaunches tn < 1024 → (s.tenant tn).resetting = false → s.sec.recovery = false → s.readRecord tn q p.ptr = (s1, some bs, b) →
      let r := parseRecord bs
      let room : Prop := s1.placeable tn r = true ∨ (r.flags.testBit 2 = false ∧ r.gx * r.gy * r.gz = 0)
      ∃ t l, exec (.launchAccept tn q) s = .next t ∧ tgetD (t.tenant tn).queues q [] = rest ∧ tget t.launches s1.fresh = some l ∧
        l.addr = p.ptr ∧ l.tenant = tn ∧ l.queue = q ∧ l.lrec = r ∧
        (p.cancelled = true → l.stopped = true ∧ l.status = 1) ∧
        (p.cancelled = false → (p.ptr % 256 ≠ 0 ∨ ¬ InForm r tn p) → l.stopped = true ∧ l.status = 2) ∧
        (p.cancelled = false → p.ptr % 256 = 0 → InForm r tn p → ¬ room → l.stopped = true ∧ l.status = 3 ∧ l.info = 0) ∧
        (p.cancelled = false → p.ptr % 256 = 0 → InForm r tn p → room → l.stopped = false ∧ l.state = .accepted ∧ l.status = 0)) ∧
    ∀ lid l, tget s.launches lid = some l → l.devWait = false → l.discard = none → l.depWait = [] → l.emitted = [] →
      (l.state = .accepted → l.lrec.flags.testBit 2 = false →
        ((∀ i, i < 4 → i ∈ l.depsOk ∨ ∃ h, l.lrec.deps[i]? = some (0, h)) → ∃ t d, exec (.launchReady lid) s = .next t ∧
          OnlyLaunch s t lid { l with state := .ready, depsOk := d }) ∧
        ∀ i a h s1 x, i < 4 → i ∉ l.depsOk → (∀ j, j < 4 → j ≠ i → j ∈ l.depsOk) → l.depsOk.length < 4 → l.lrec.deps[i]? = some (a, h) → a ≠ 0 →
          s.devTranslate l.tenant a accEngR (.dep lid i a) = (s1, .ok x) → x.ms = false → x.repl = false → (tierOf x.pa).isSome = true →
          ∃ t k, exec (.launchReady lid) s = .next t ∧ tget t.launches lid = some k ∧
            k.state = if h ≤ number (fun j => s.byteAt (x.pa + j)) 0 8 then .ready else .accepted) ∧
      (l.state = .ready → l.finStep = 0 → l.retired = l.placed → l.lrec.flags.testBit 2 = false → l.lrec.gx * l.lrec.gy * l.lrec.gz ≤ l.nextGang →
        (∀ p ∈ s.blocks, p.2.launch = lid → p.2.state = .retired) → s.engOps = [] → s.engines = [] →
        l.lrec.errAddr = 0 → l.lrec.graph = 0 → l.lrec.phase = 0 → l.lrec.job = 0 → Quiet s → cachesOk s →
        (l.lrec.counter = 0 → ∃ t, exec (.launchFinish lid) s = .next t ∧
          (∀ j, tget t.launches j = if j = lid then some { l with state := .finished, finStep := 6 } else tget s.launches j) ∧
          beside t = beside { s with retargets := t.retargets, launches := t.launches } ∧
          (∀ p ∈ s.blocks, p.2.launch = lid → noDirty t p.2.core) ∧
          ∀ p, (∀ c, (s.l1c c).dirtyByte p = none) → t.byteAt p = s.byteAt p) ∧
        ∀ x, (∀ c, noDirty s c) → l.lrec.counter ≠ 0 → l.lrec.counter % 8 = 0 → s.devTranslate l.tenant l.lrec.counter accEngW (.finish lid l.lrec.counter) = (s, .ok x) →
          x.ms = false → x.repl = false → (tierOf x.pa).isSome = true →
          let old := number (fun j => s.byteAt (x.pa + j)) 0 8
          ∃ t k, exec (.launchFinish lid) s = .next t ∧ tget t.launches lid = some k ∧ k.state = .finished ∧
            ∀ p, t.byteAt p = if x.pa ≤ p ∧ p < x.pa + 8 then BitVec.ofNat 8 ((old + 1) / 2 ^ (8 * (p - x.pa))) else s.byteAt p)

/-- R26, R27, R76, R77, R80, R33, R41: a gang of an unpaired launch is placed, its blocks on distinct cores of one cluster, every thread at
the entry; a warp retires whose threads have exited and which has nothing outstanding; a block retires with its last warp and gives up
its place; a reorder unit that has been idle emits the deposits it holds, 32 a warp in key order, and an emitted warp is placed on a core
of its die, thread i with the i-th deposit's key and payload. -/
def Obligations.Residency : Prop :=
  ∀ (s : State),
    (∀ lid l (cs : List Nat), tget s.launches lid = some l → s.mayPlace lid l = true → s.power.pstate = 0 → s.sec.recovery = false →
      l.lrec.flags.testBit 0 = false → 0 < l.lrec.g → l.emitted = [] → s.gangFits l.tenant l.lrec false = true →
      s.placeOk l.tenant l.lrec cs = true → (s.sharedCores cs = false ∨ s.turnOf l.tenant = true) →
      ∃ t k, exec (.gangPlace lid cs) s = .next t ∧ tget t.gangs s.fresh = some k ∧ k.launch = lid ∧ k.lin = l.nextGang ∧
        k.cluster = clusterOf (cs.headD 0) ∧ k.blocks.length = l.lrec.g ∧
        (∀ (i b : Nat), k.blocks[i]? = some b → Begins t b lid s.fresh i (l.lrec.g * l.nextGang + i) ((cs[i]?).getD 0) l) ∧
        tget t.launches lid = some { l with nextGang := l.nextGang + 1, placed := l.placed + l.lrec.g } ∧
        ∀ p, t.byteAt p = s.byteAt p) ∧
    (∀ lid l d ds es c, tget s.launches lid = some l → s.mayPlace lid l = true → s.power.pstate = 0 → s.sec.recovery = false →
      l.lrec.flags.testBit 0 = false → l.lrec.g = 1 → l.emitted = (d, ds) :: es → s.nextFits l false = true →
      s.placeOk l.tenant l.lrec [c] = true → dieOf c = d → (s.sharedCores [c] = false ∨ s.turnOf l.tenant = true) →
      ∃ t k b, exec (.gangPlace lid [c]) s = .next t ∧ tget t.gangs s.fresh = some k ∧ k.blocks = [b] ∧ (t.block b).core = c ∧
        (t.block b).bid = l.nextGang ∧ tget t.launches lid = some { l with nextGang := l.nextGang + 1, placed := l.placed + 1, emitted := es } ∧
        ∀ n ∈ (t.block b).warps, ∀ i, i < 32 → let u := t.thread n i
          match ds[i]? with
          | some x => u.exited = false ∧ u.pc = l.lrec.entry ∧ u.rkey = BitVec.ofNat 64 x.key ∧ u.rpay = x.payload
          | none => u.exited = true) ∧
    (∀ n, let w := s.warp n
      (w.resident = true → w.service = false → (∀ u ∈ w.threads, u.exited = true ∧ ∀ p ∈ u.pend, p.due ≤ s.now) → w.storeQ = [] → w.oc = {} →
        w.seg.held = [] → w.seg.closing = false → ∃ t, exec (.warpRetire n) s = .next t ∧ t = { s with warps := t.warps } ∧
          ∀ m, t.warp m = if m = n then { w with resident := false } else s.warp m) ∧
      ((w.service = true ∨ (∃ u ∈ w.threads, u.exited = false) ∨ w.storeQ ≠ [] ∨ w.oc ≠ {}) → exec (.warpRetire n) s = .next s)) ∧
    (∀ b k, tsorted s.blocks = true → tget s.blocks b = some k → k.state = .resident → (∀ n ∈ k.warps, (s.warp n).resident = false) →
      (∀ g, tget s.gangs k.gang = some g → g.killed = false) →
      ∃ t, exec (.blockRetire b) s = .next t ∧
        t.block b = { k with state := .retired, warps := [], scratch := [], tags := [], errs := [], grans := [], biv := none, counted := true } ∧
        (∀ j, j ≠ b → t.block j = s.block j) ∧ (∀ n, tget t.warps n = if n ∈ k.warps then none else tget s.warps n) ∧
        (∀ j, tget t.launches j = if j = k.launch then (tget s.launches j).map (fun l => { l with retired := l.retired + 1 })
          else tget s.launches j) ∧
        ((∀ p ∈ s.blocks, p.1 ≠ b → p.2.gang = k.gang → p.2.state = .retired) → ∀ c, (t.engine c).owner ≠ some k.gang) ∧
        SameMemory s t ∧ t.tenants = s.tenants) ∧
    ∀ launch l0 die r, tget s.launches launch = some l0 → s.retarget l0.tenant l0.addr = some r → die < 2 →
      let last := if die = 0 then r.last0 else r.last1
      (s.now < last + 2048 → exec (.reorderIdleFlush launch die) s = .next s) ∧
      ∀ lid l, tsorted s.launches = true → last + 2048 ≤ s.now → s.targetLaunch r = some (lid, l) →
        ∃ t r2 es, exec (.reorderIdleFlush launch die) s = .next t ∧ t = { s with launches := t.launches, retargets := t.retargets } ∧
          t.retarget l0.tenant l0.addr = some r2 ∧ r2.buf die = [] ∧ r2.buf (1 - die) = r.buf (1 - die) ∧
          tget t.launches lid = some { l with emitted := l.emitted ++ es } ∧ (es.map Prod.snd).flatten = r.buf die ∧
          (∀ e ∈ es, e.1 = die ∧ e.2 ≠ [] ∧ e.2.length ≤ 32) ∧ ∀ e ∈ es.dropLast, e.2.length = 32

/-- R83, R84, R85, R243, R245, R247: a block that is to be saved leaves its core with its records in its Bivouac space, the PCs, meeting
addresses, predicates and registers of its threads and its warp registers at the places of R84; a saved gang whose launch may go on
comes back on the cores given, those of its blocks that have not retired, their positions and numbers as before, and a warp whose
record stands there with what the record holds; a killed
gang begins again with the same identity and a higher relaunch count, and those of its blocks that had retired are to retire again; a
pair whose segments agree goes on, and one whose segments differ, or of which one twin is 10 ms late, is killed with cause 0x0F, and
self-tests of both clusters start. -/
def Obligations.BlockEvents : Prop :=
  ∀ (s : State),
    (∀ b a, let k := s.block b
      k.biv = some a → s.mayStore k = true → k.core < 1024 → s.scrErrs (.block b) = [] → noDirty s k.core → Quiet s → cachesOk s →
      (∀ n ∈ k.warps, (s.warp n).core = k.core ∧ (s.warp n).storeQ = [] ∧ (s.warp n).paired = false) →
      ∃ t, exec (.blockSave b) s = .next t ∧ (t.block b).state = .saved ∧ (t.block b).biv = some a ∧
        (t.block b).warps.length = k.warps.length ∧ (∀ n ∈ (t.block b).warps, (t.warp n).resident = false) ∧
        (∀ N, (∀ n ∈ k.warps, (s.warp n).regsN = N ∧ (s.warp n).threads.length = 32) → ∀ (j n : Nat), k.warps[j]? = some n →
          Recorded t.byteAt (a + j * (2560 + 256 * N)) N (s.warp n) ∧ ∃ m, (t.block b).warps[j]? = some m ∧ (t.warp m).regsN = N ∧
            (t.warp m).threads.length = 32) ∧
        ∀ p, t.byteAt p = if a ≤ p ∧ p < a + (s.records b).length then ((s.records b)[p - a]?).getD 0 else s.byteAt p) ∧
    (∀ g k l (cs : List Nat), tget s.gangs g = some k → k.twin = none → tget s.launches k.launch = some l →
      (s.mayReturn k l = true → s.stillYields k l = false → s.unretired g ≠ [] → k.blocks.Nodup →
        (∀ b ∈ s.unretired g, (s.block b).state = .saved ∧ (s.block b).biv ≠ none ∧ s.badRecords b = false ∧ s.recordsOk b = true) →
        s.returnOk l g cs = true → s.engineFree g cs = true →
        ∃ t, exec (.blockResume g cs) s = .next t ∧ ∀ (i b : Nat), (s.unretired g)[i]? = some b →
          (t.block b).state ≠ .saved ∧ (t.block b).core = (cs[i]?).getD 0 ∧ (t.block b).launch = (s.block b).launch ∧
            (t.block b).gang = (s.block b).gang ∧ (t.block b).pos = (s.block b).pos ∧ (t.block b).bid = (s.block b).bid ∧
            ∀ a, (s.block b).biv = some a → s.blockN (s.block b) = l.lrec.n →
              (∀ n ∈ (s.block b).warps, (s.warp n).regsN = l.lrec.n ∧ (s.warp n).threads.length = 32) →
              (t.block b).warps.length = (s.block b).warps.length ∧
              ∀ (j m : Nat) (v : Warp), (t.block b).warps[j]? = some m → v.threads.length = 32 →
                Recorded s.byteAt (a + j * (2560 + 256 * l.lrec.n)) l.lrec.n v → Restored (t.warp m) v l.lrec.n) ∧
      (s.mayReturn k l = true → k.killed = true → k.deposits = [] → l.lrec.flags.testBit 0 = false → (∀ n ∈ s.gangWarps g, (s.warp n).oc = {}) →
        s.selfTests = [] → (k.blocks.foldl State.freeBlock s).placeOk l.tenant l.lrec cs = true →
        ∃ t k2, exec (.gangRelaunch g cs) s = .next t ∧ tget t.gangs g = some k2 ∧ k2.killed = false ∧ k2.relaunch = k.relaunch + 1 ∧
          k2.lin = k.lin ∧ k2.blocks.length = l.lrec.g ∧ tget t.launches k.launch = some { l with
            relaunches := l.relaunches + 1, retired := l.retired - (k.blocks.filter fun b => (s.block b).counted).length } ∧
          ∀ (i b : Nat), k2.blocks[i]? = some b → Begins t b k.launch g i (l.lrec.g * k.lin + i) ((cs[i]?).getD 0) l)) ∧
    ∀ g wid n m k, tget s.gangs g = some k → s.warpOf g wid = some n → (k.twin.bind fun h => s.warpOf h wid) = some m → n ≠ m →
      k.killed = false →
      let killed (i : Instr) : Prop := ∃ t, exec i s = .next t ∧ ∀ h j, (h = g ∨ k.twin = some h) → tget s.gangs h = some j →
        .cluster j.cluster ∈ t.selfTests ∧ ∃ j2, tget t.gangs h = some j2 ∧ j2.killed = true ∧ j2.lastCause = 0x0F
      (k.onDie1 = false → (s.warp n).seg.closing = true → (s.warp m).seg.closing = true →
        ((s.warp n).seg.sig ≠ (s.warp m).seg.sig → killed (.pairedSegmentCompare g wid)) ∧
        ((s.warp n).seg.sig = (s.warp m).seg.sig → (s.warp n).seg.held = [] → ∃ t, exec (.pairedSegmentCompare g wid) s = .next t ∧
          t = { s with warps := t.warps } ∧ ∀ j, t.warp j = if j = n ∨ j = m
            then { s.warp j with seg := { passed := (s.warp j).seg.passed ||| (s.warp j).seg.enders } } else s.warp j)) ∧
      ((s.warp n).seg.closing = true → (s.warp m).seg.closing = false →
        ((s.warp n).seg.since + 7000000 ≤ s.now → killed (.pairedCompareTimeout g wid)) ∧
        (s.now < (s.warp n).seg.since + 7000000 → exec (.pairedCompareTimeout g wid) s = .next s))

/-! ## Engines -/

namespace Sys2Proof.Claims

/-- The array is granted to one request of a table before another (R172): one that has waited 4,096 cycles, then one of higher
priority, then the one that entered the table first. -/
def goesBefore (table : List MxReq) (now : Nat) (a b : MxReq) : Prop :=
  let old (r : MxReq) : Prop := r.lastPass + 4096 ≤ now
  let first : Prop := ∃ l m n, table = l ++ a :: m ++ b :: n
  (old a ∧ ¬ old b) ∨ ((old a ↔ old b) ∧ (b.priority < a.priority ∨ (a.priority = b.priority ∧ first)))

/-- An MXP that has begun and has a chunk to be granted for. -/
def wantsPass (r : MxReq) : Prop := r.kind = .mxp ∧ r.begun = true ∧ r.done = false ∧ r.chunk < fld r.par 0x0C 2

/-- Element (row, col) of a tile. -/
def tileAt (e : Engine) (h row col : Nat) : Nat := (tgetD e.tiles (4096 * h + 64 * row + col) 0).toNat

/-- Nothing but one cluster's engine changes. -/
def OnlyEngine (s t : State) (c : Nat) : Prop := (∀ d, d ≠ c → t.engine d = s.engine d) ∧ t = { s with engines := t.engines }

/-- A counter one lower. -/
def lowered (o : OcCounters) : EngClass → OcCounters
  | .cp => { o with cp := o.cp - 1 }
  | .gx => { o with gx := o.gx - 1 }
  | .mx => { o with mx := o.mx - 1 }
  | .cl => { o with cl := o.cl - 1 }
  | .pt => { o with pt := o.pt - 1 }
  | .bk => { o with bk := o.bk - 1 }

end Sys2Proof.Claims

/-- R167, R170 to R172, R174, R176, R178: the matrix engine by itself. The first gang that waits gets a free engine, its tiles +0; a request
begins with the lowest code that applies; the array goes to the request that comes first, unless the device throttles and withholds the
grant (R10, log 85); a landed chunk of an f16, bf16 or f32 MXP
gives each element of its tile the sum of R159 of its row and column; weights become valid with their bytes; a request that is done
leaves with its status granule full and OC_MX one lower. That a chunk reads A and the weights when it lands (log 24), and the sign of an
exact zero sum (log 81), are the model's. -/
def Obligations.MatrixEvents : Prop :=
  ∀ (s : State) (c : Nat), let e := s.engine c
    (∀ g r, e.owner = none → e.waiting = g :: r → e.retired = false → ∃ t, exec (.mxOwnershipGrant c) s = .next t ∧ OnlyEngine s t c ∧
      (t.engine c).owner = some g ∧ g ∉ (t.engine c).waiting ∧ (∀ h row col, tileAt (t.engine c) h row col = 0) ∧
      (t.engine c).units = [] ∧ (t.engine c).table = e.table) ∧
    (∀ id r, s.mxReq c id = some r → r.begun = false → r.entered < s.now → (∀ x ∈ e.table.takeWhile (fun x => x.id ≠ id), mxShares x r = false) →
      let code := if r.malformed then 1 else if s.mxOutside r then 2
        else if r.kind = .mxp ∧ (e.weightsFor r).isNone then 3 else 0
      ∃ t, exec (.mxRequestBegin c id) s = .next t ∧ OnlyEngine s t c ∧
        t.mxReq c id = some { r with begun := true, code := code, done := code != 0 } ∧
        (code = 0 → r.kind = .mxp → fld r.par 0x10 1 = 1 → ∀ h ∈ r.handles, ∀ row col, row < 64 → col < 64 → tileAt (t.engine c) h row col = 0) ∧
        (code = 0 → r.kind = .wbld → ∀ u, r.unitRange.1 ≤ u → u < r.unitRange.2 → tget (t.engine c).units u = none) ∧
        (code ≠ 0 → (t.engine c).tiles = e.tiles ∧ (t.engine c).units = e.units)) ∧
    ((e.table.map MxReq.id).Nodup → (∃ r ∈ e.table, wantsPass r) → ∃ r ∈ e.table, wantsPass r ∧
      (∀ x ∈ e.table, wantsPass x → x.id ≠ r.id → goesBefore e.table s.now r x) ∧
      let least : Prop := r.tenant ∈ s.presentTenants ∧ ∀ U, U ∈ s.presentTenants →
        tgetD s.withheldNow r.tenant 0 * (s.tenant U).weight ≤ tgetD s.withheldNow U 0 * (s.tenant r.tenant).weight
      let withheld : Prop := Config.withholds s.power.throttled s.drawn = true ∧ least
      (withheld → exec (.mxPassGrant c) s = .next { s with
        drawn := s.drawn + 1, power := { s.power with withheld := tset s.withheldNow r.tenant (tgetD s.withheldNow r.tenant 0 + 1) } }) ∧
      (¬ withheld → ∃ t, exec (.mxPassGrant c) s = .next t ∧ OnlyEngine { s with drawn := s.drawn + 1 } t c ∧
        (t.engine c).pass = some (r.id, r.chunk) ∧
        (t.engine c).landing = e.landing ++ e.pass.toList ∧ t.mxReq c r.id = some { r with chunk := r.chunk + 1, lastPass := s.now })) ∧
    (∀ id ch ps r n, e.landing = (id, ch) :: ps → s.mxReq c id = some r → s.mxBad r ch = false →
      let fmt := fld r.par 0x0E 1
      let w := rawBytes fmt
      let h := fld r.par 0x0F 1
      ∃ t r2, exec (.mxPassLanding c) s = .next t ∧ OnlyEngine s t c ∧ (t.engine c).landing = ps ∧ t.mxReq c id = some r2 ∧
        r2.landed = r.landed + 1 ∧ (r2.done = true ↔ fld r.par 0x0C 2 ≤ r.landed + 1) ∧
        ((fmt = 8 ∨ fmt = 9 ∨ fmt = 10) → h < 16 → e.weightsFor r = some (0, n) → ∀ row col, row < 64 → col < 64 →
          let unit (i : Nat) : List Byte := tgetD e.weights (fld r.par 8 4 + ch * n + i) (List.replicate 512 0)
          let column := (((List.range n).flatMap unit).drop (col * 64 * w)).take (64 * w)
          tileAt (t.engine c) h row col =
            wideStep (rawTy fmt) (unpackLe w 64 (s.rowA r ch row)) (some (unpackLe w 64 column)) (tileAt e h row col))) ∧
    (∀ id r, s.mxReq c id = some r → r.kind = .wbld → r.begun = true → r.done = false → r.faulted = false →
      (r.abandoned = true → ∃ t, exec (.wbldChunkLanding c id) s = .next t ∧ OnlyEngine s t c ∧
        t.mxReq c id = some { r with done := true, code := 4 }) ∧
      ∀ p xs s1 bs, r.abandoned = false → slotBytes (fld r.par 0x0E 1) (fld r.par 0x0F 1) = some p →
        s.engXlats (s.mxAgent c r) accEngR (cuts (fld r.par 0 8 + r.landed * (64 * p.1)) (64 * p.1)) = (s, .ok xs) →
        s.engReads (s.mxAgent c r) xs = some (s1, bs, false) →
        let u := fld r.par 8 4 + r.landed * p.2
        ∃ t r2, exec (.wbldChunkLanding c id) s = .next t ∧ t.mxReq c id = some r2 ∧ r2.landed = r.landed + 1 ∧
          (r2.done = true ↔ fld r.par 0x0C 2 ≤ r.landed + 1) ∧ r2.code = r.code ∧ ∀ i, i < p.2 →
            tget (t.engine c).units (u + i) = some { format := fld r.par 0x0E 1, comp := fld r.par 0x0F 1 } ∧
            tget (t.engine c).weights (u + i) = some ((bs.drop (512 * i)).take 512)) ∧
    ∀ id r k, s.mxReq c id = some r → r.begun = true → tget s.blocks r.block = some k → k.state ≠ .saved →
      let ends (code : Nat) : Prop := ∃ t, exec (.mxRequestComplete c id) s = .next t ∧ (∀ x ∈ (t.engine c).table, x.id ≠ id) ∧
        (t.warp r.warp).oc = lowered (s.warp r.warp).oc .mx ∧ holds (t.scrByte (.block r.block)) (r.off + 0x30) 8 0 ∧
        holds (t.scrByte (.block r.block)) (r.off + 0x38) 8 code ∧ t.tagFull (.block r.block) (r.off + 0x30) = true ∧ SameMemory s t ∧
        (r.kind = .acz → r.done = false → ∀ h ∈ r.handles, ∀ row col, row < 64 → col < 64 → tileAt (t.engine c) h row col = 0) ∧
        (r.kind = .acchk ∨ r.done = true → (t.engine c).tiles = e.tiles)
      let bad := r.handles.filter fun h => (List.range 64).any fun row =>
        ((List.range 64).map fun col => tileAt e h row col).sum % 2 ^ 32 ≠ (tgetD e.sums (64 * h + row) 0).toNat
      (r.done = true → ends (r.code + (if r.mb then 256 else 0) + r.badt * 65536)) ∧
      (r.done = false → r.kind = .acz ∨ (r.kind = .acld ∧ s.mxBad r 0 = false) → ends (r.code + (if r.mb then 256 else 0) + r.badt * 65536)) ∧
      (r.done = false → r.kind = .acchk → r.mb = false →
        ends ((if bad = [] then 0 else 5) + (bad.map fun h => 2 ^ h).sum * 65536))

namespace Sys2Proof.Claims

/-- An engine operation that may run: it is not held back, behind no fault, its work not done, of an unpaired warp below monitor level whose
gang has not been killed, the L1s of the core it was posted on and of the core its warp is on without dirty bytes, the compute dies active;
its status dword's page is cached and ordinary. -/
structure Runs (s : State) (id : Nat) (e : EngOp) (y : Xlat) : Prop where
  found : s.eopReady id = some e ∧ e.stage = 0 ∧ e.abandoned = false ∧ e.level ≠ .monitor ∧ e.stop = none
  single : (s.warp e.warp).paired = false ∧ s.twinWarp e.warp = none ∧ (s.block (s.warp e.warp).block).state ≠ .saved
  maps : s.devTranslate e.tenant (e.descVa + 0x38) accStore (.eop e.id (e.descVa + 0x38) true) = (s, .ok y)
  plain : y.ms = false ∧ y.repl = false ∧ (tierOf y.pa).isSome = true ∧ y.pa % 8 = 0
  calm : Quiet s ∧ cachesOk s ∧ noDirty s e.core ∧ noDirty s (s.warp e.warp).core ∧ s.poison = [] ∧ s.power.pstate = 0

/-- An operation has ended with a status code (R116, R221). -/
structure Ended (s t : State) (e : EngOp) (y : Xlat) (code : Nat) : Prop where
  gone : t.engOps = s.engOps.filter fun x => x.id ≠ e.id
  counter : (t.warp e.warp).oc = lowered (s.warp e.warp).oc (postClass e.kind)
  status : holds t.byteAt y.pa 8 code
  threads : ∀ m u, { t.thread m u with resv := none } = { s.thread m u with resv := none }
  tenants : t.tenants = s.tenants

/-- A physical address outside the 8 bytes of a status dword. -/
def clear (y : Xlat) (p : Nat) : Prop := p < y.pa ∨ y.pa + 8 ≤ p

/-- The physical addresses of translated pieces, byte by byte. -/
def physOf (xs : List (Xlat × Nat)) : List Nat := xs.flatMap fun p => addrs p.1.pa p.2

/-- The pieces of a range are cached translations of ordinary memory. -/
def Mapped (s : State) (e : EngOp) (acc : Acc) (cs : List (Nat × Nat)) (xs : List (Xlat × Nat)) : Prop :=
  s.engXlats e.agent acc cs = (s, .ok xs) ∧ ∀ x ∈ xs, x.1.ms = false ∧ x.1.repl = false ∧ ∀ p ∈ addrs x.1.pa x.2, (tierOf p).isSome = true

/-- Bytes moved: every destination byte takes its source's, no other byte changes but the status dword. -/
def Moved (s t : State) (y : Xlat) (src dst : List Nat) : Prop :=
  (∀ (j p q : Nat), dst[j]? = some p → src[j]? = some q → t.byteAt p = s.byteAt q) ∧
    ∀ p, p ∉ dst → clear y p → t.byteAt p = s.byteAt p

/-- An index of a gather as its type gives it (R350). -/
def indexVal (ty n : Nat) : Int := if ty = 1 then sext 32 n else if ty = 3 then sext 64 n else n

end Sys2Proof.Claims

/-- R313, R318, R343, R351, R363, R398, R221: the engines' completions over memory. A copy, a gather and a scatter move their bytes; FLUSH
and CLEAN at package scope leave every byte of the range at its home as its poster sees it, FLUSH and INVAL no copy of its lines; a
malformed descriptor ends with code 1 and moves nothing. Each writes its status dword, leaves, and lowers its counter. That the bytes moved
are those the state holds at the completion step is the model's choice (log 53). -/
def Sys2Proof.Claims.EngineCompletions : Prop :=
  ∀ (s : State) (id : Nat) (e : EngOp) (y : Xlat), Runs s id e y →
    let d := e.desc
    let dst := fld d 0 8
    let src := fld d 8 8
    (∀ i : Instr, ((e.kind = .copy ∨ e.kind = .copyz) ∧ i = .copyCompletion id ∧ fld d 0x10 4 = 0 ∨
        e.kind = .gather ∧ i = .gatherCompletion id ∧ fld d 0x18 4 = 0 ∨ e.kind = .scatter ∧ i = .scatterCompletion id ∧ fld d 0x18 4 = 0 ∨
        (∃ op ty, e.kind = .bkop op ty) ∧ i = .bkopCompletion id ∧ fld d 0x20 4 = 0 ∨
        (e.kind = .rowcp ∨ e.kind = .rowz) ∧ i = .rowOpCompletion id ∧ fld d 0x20 4 = 0 ∨
        (∃ sc, e.kind = .clean sc ∨ e.kind = .inval sc ∨ e.kind = .flush sc) ∧ i = .cacheMaintCompletion id ∧ fld d 8 8 = 0) →
      ∃ t, exec i s = .next t ∧ Ended s t e y 1 ∧ ∀ p, clear y p → t.byteAt p = s.byteAt p) ∧
    (let len := fld d 0x10 4
     ∀ xd, fld d 0x14 1 = 0 → fld d 0x15 1 = 0 → fld d 0x16 34 = 0 → 0 < len → len ≤ 2 ^ 30 → rangeOk dst len = true →
      Mapped s e accEngW (cuts dst len) xd → (physOf xd).Nodup → (∀ p ∈ physOf xd, clear y p) →
      (∀ xs, e.kind = .copy → rangeOk src len = true → (src + len ≤ dst ∨ dst + len ≤ src) → Mapped s e accEngR (cuts src len) xs →
        ∃ t, exec (.copyCompletion id) s = .next t ∧ Ended s t e y 0 ∧ Moved s t y (physOf xs) (physOf xd)) ∧
      (e.kind = .copyz → src = 0 → ∃ t, exec (.copyCompletion id) s = .next t ∧ Ended s t e y 0 ∧
        ∀ p, clear y p → t.byteAt p = if p ∈ physOf xd then 0 else s.byteAt p)) ∧
    (let idx := fld d 0x10 8
     let n := fld d 0x18 4
     let sz := 2 ^ fld d 0x1C 1
     let ty := fld d 0x1D 1
     let ib := if ty < 2 then 4 else 8
     ∀ xi xa xt acc, (e.kind = .gather ∧ acc = accEngW ∨ e.kind = .scatter ∧ acc = accEngR) → fld d 0x1F 25 = 0 → 0 < n → n ≤ 2 ^ 20 →
      fld d 0x1C 1 ≤ 4 → ty ≤ 3 → fld d 0x1E 1 = 0 → idx % ib = 0 → rangeOk idx (n * ib) = true → src % sz = 0 → dst % sz = 0 →
      rangeOk dst (n * sz) = true → Mapped s e accEngR (cuts idx (n * ib)) xi →
      let index (i : Nat) : Int := indexVal ty (number (fun j => s.byteAt (((physOf xi)[j]?).getD 0)) (i * ib) ib)
      let els := (List.range n).map fun i => (((src : Int) + index i * sz) % (2 ^ 64 : Nat)).toNat
      (∀ v ∈ els, canonical (BitVec.ofNat 64 v) = true) → Mapped s e acc (cuts dst (n * sz)) xa →
      Mapped s e (if e.kind = .gather then accEngR else accEngW) (els.map fun v => (v, sz)) xt →
      (e.kind = .gather → (physOf xa).Nodup → (∀ p ∈ physOf xa, clear y p) → ∃ t, exec (.gatherCompletion id) s = .next t ∧ Ended s t e y 0 ∧
        Moved s t y (physOf xt) (physOf xa)) ∧
      (e.kind = .scatter → (physOf xt).Nodup → (∀ p ∈ physOf xt, clear y p) → ∃ t, exec (.scatterCompletion id) s = .next t ∧
        Ended s t e y 0 ∧ Moved s t y (physOf xa) (physOf xt))) ∧
    ∀ ps, fld d 0x10 40 = 0 → 0 < fld d 8 8 → fld d 8 8 ≤ 2 ^ 40 → rangeOk dst (fld d 8 8) = true → (s.warp e.warp).storeQ = [] →
      s.maintPieces e.agent dst (fld d 8 8) = (s, ps) → (∀ p ∈ ps, 0 < p.2.1 ∧ p.2.2 = true) →
      let inside (p : Nat) : Prop := ∃ q ∈ ps, q.1 ≤ p ∧ p < q.1 + q.2.1
      let onLine (p : Nat) : Prop := ∃ q ∈ ps, q.1 / 256 ≤ p / 256 ∧ p / 256 ≤ (q.1 + q.2.1 - 1) / 256
      let uncached (t : State) (p : Nat) : Prop := (∀ i, i < 3 → (t.l2c i).byte p = none) ∧ (e.core < 1024 → (t.l1c e.core).byte p = none)
      (e.kind = .clean .pk → ∃ t, exec (.cacheMaintCompletion id) s = .next t ∧ Ended s t e y 0 ∧ (∀ p, clear y p → t.byteAt p = s.byteAt p) ∧
        ∀ p, inside p → clear y p → t.homeByte p = s.byteAt p) ∧
      (e.kind = .flush .pk → ∃ t, exec (.cacheMaintCompletion id) s = .next t ∧ Ended s t e y 0 ∧ (∀ p, clear y p → t.byteAt p = s.byteAt p) ∧
        ∀ p, onLine p → clear y p → t.homeByte p = s.byteAt p ∧ uncached t p) ∧
      (e.kind = .inval .pk → ∃ t, exec (.cacheMaintCompletion id) s = .next t ∧ Ended s t e y 0 ∧
        (∀ p, ¬ inside p → clear y p → t.byteAt p = s.byteAt p) ∧
        ∀ p, onLine p → clear y p → uncached t p ∧ (inside p → t.byteAt p = s.homeByte p))

/-- R222, R223, R224: BKOP's result elements and ROWCP's and ROWZ's bytes stand at their homes, from what the sources hold there past every
cache at the completion step (the model's choice, log 53); operands of another stack end BKOP with code 5. -/
def Sys2Proof.Claims.BaseDieOps : Prop :=
  ∀ (s : State) (id : Nat) (e : EngOp) (y : Xlat), Runs s id e y →
    let d := e.desc
    let dst := fld d 0 8
    (∀ op ty xd xs, e.kind = .bkop op ty → 8 ≤ tyWidth ty →
      let w := tyWidth ty / 8
      let n := fld d 0x20 4
      let len := n * w
      let srcs := if op = .fma then [fld d 8 8, fld d 0x10 8, fld d 0x18 8] else [fld d 8 8, fld d 0x10 8]
      let f := fmtOf ty
      let elem (k j : Nat) : FpVal := f.value (number (fun q => s.homeByte (((physOf xs)[k * len + j * w + q]?).getD 0)) 0 w)
      let result (j : Nat) : Nat := (match op with
        | .add => fAdd f .rne false (elem 0 j) (elem 1 j)
        | .mul => fMul f .rne false (elem 0 j) (elem 1 j)
        | .fma => fFma f .rne false (elem 0 j) (elem 1 j) (elem 2 j)).1
      fld d 0x24 20 = 0 → 0 < n → n ≤ 2 ^ 28 → (op ≠ .fma → fld d 0x18 8 = 0) →
      (∀ a ∈ dst :: srcs, a % w = 0 ∧ rangeOk a len = true) → (∀ a ∈ srcs, a = dst ∨ a + len ≤ dst ∨ dst + len ≤ a) →
      Mapped s e accEngW (cuts dst len) xd → Mapped s e accEngR (srcs.flatMap fun a => cuts a len) xs → (physOf xd).Nodup →
      (∀ p ∈ physOf xd, p / 256 ≠ y.pa / 256) →
      ((∃ k, ∀ x ∈ xd ++ xs, tierOf x.1.pa = some 0 ∧ x.1.pa / 2 ^ 36 = k) → ∃ t, exec (.bkopCompletion id) s = .next t ∧ Ended s t e y 0 ∧
        (∀ j q, j < n → q < w → t.homeByte (((physOf xd)[j * w + q]?).getD 0) = BitVec.ofNat 8 (result j / 2 ^ (8 * q))) ∧
        ∀ p, p ∉ physOf xd → p / 256 ≠ y.pa / 256 → t.homeByte p = s.homeByte p) ∧
      ((∃ x ∈ xd ++ xs, ∃ z ∈ xd ++ xs, x.1.pa / 2 ^ 36 ≠ z.1.pa / 2 ^ 36) → ∃ t, exec (.bkopCompletion id) s = .next t ∧ Ended s t e y 5 ∧
        ∀ p, clear y p → t.byteAt p = s.byteAt p)) ∧
    ∀ xd, let src := fld d 8 8
      let len := fld d 0x20 4
      fld d 0x10 16 = 0 → fld d 0x24 20 = 0 → dst % 256 = 0 → src % 256 = 0 → len % 256 = 0 → 0 < len → len ≤ 2 ^ 30 → rangeOk dst len = true →
      Mapped s e accEngW (cuts dst len) xd → (∀ x ∈ xd, x.1.pa % 256 = 0) → (physOf xd).Nodup → (∀ p ∈ physOf xd, clear y p) →
      (e.kind = .rowz → src = 0 → ∃ t, exec (.rowOpCompletion id) s = .next t ∧ Ended s t e y 0 ∧
        ∀ p, clear y p → t.byteAt p = if p ∈ physOf xd then 0 else s.byteAt p) ∧
      ∀ xs, e.kind = .rowcp → rangeOk src len = true → (src + len ≤ dst ∨ dst + len ≤ src) → Mapped s e accEngR (cuts src len) xs →
        ∃ t, exec (.rowOpCompletion id) s = .next t ∧ Ended s t e y 0 ∧
          (∀ (j p q : Nat), (physOf xd)[j]? = some p → (physOf xs)[j]? = some q → t.byteAt p = s.homeByte q) ∧
          ∀ p, p ∉ physOf xd → clear y p → t.byteAt p = s.byteAt p

/-- The completions of the class 10 engines. -/
def Obligations.EngineWork : Prop := EngineCompletions ∧ BaseDieOps

/-- R232, R233: a put lands whole at its target or is refused and changes nothing; its landed counter gains its bytes. An answer from
another endpoint, a free value (log 14), ends the put with code 0 or 3 (its acknowledged counter not asked for), 1 ms without one with
code 4; that the 1 ms runs from the post is the model's choice (log 52). A write of WCTL with EN 0 disables a window. A put that reaches
tier 0 while the compute dies are not active wakes them first, and comes again (R253; that it comes again is log 60). -/
def Sys2Proof.Claims.PutEvents : Prop :=
  ∀ (s : State),
    (∀ m : PutMsg, m.own = none →
      let w := s.putWin m.window
      (∀ xs, s.power.pstate ≠ 0 → (s.putTarget m).2 = some xs → (∃ x ∈ xs, tierOf (s.homeAddr x.1.pa) = some 0) → exec (.putLanding m) s = .next s.wake) ∧
      (w.ctl.getLsbD 63 = false ∨ w.ctl.toNat / 2 ^ 44 % 16 ≠ m.tenant ∨ w.size < m.offset + m.bytes.length ∨
        (w.ctl.toNat / 2 ^ 32 % 1024 ≠ m.endpoint ∧ w.ctl.getLsbD 31 = false) → exec (.putLanding m) s = .next s) ∧
      ∀ xs, s.putTarget m = (s, some xs) → (∀ x ∈ xs, x.1.ms = false ∧ x.1.repl = false ∧ ∀ p ∈ addrs x.1.pa x.2, (tierOf p).isSome = true) →
        (physOf xs).Nodup → Quiet s → cachesOk s → s.power.pstate = 0 →
        let landed (p : Nat) (b : Byte) : Prop := ∀ j : Nat, (physOf xs)[j]? = some p → m.bytes[j]? = some b
        (w.land = 0 → ∃ t, exec (.putLanding m) s = .next t ∧
          ∀ p, (p ∈ physOf xs → landed p (t.byteAt p)) ∧ (p ∉ physOf xs → t.byteAt p = s.byteAt p)) ∧
        ∀ y, w.land ≠ 0 → s.devTranslate (w.ctl.toNat / 2 ^ 48 % 16) w.land accEngW (.land s.fresh w.land) = (s, .ok y) → y.ms = false →
          y.repl = false → (tierOf y.pa).isSome = true → (∀ p ∈ physOf xs, clear y p) →
          ∃ t, exec (.putLanding m) s = .next t ∧
            holds t.byteAt y.pa 8 (number (fun j => s.byteAt (y.pa + j)) 0 8 + m.bytes.length) ∧
            ∀ p, clear y p → (p ∈ physOf xs → landed p (t.byteAt p)) ∧ (p ∉ physOf xs → t.byteAt p = s.byteAt p)) ∧
    (∀ id e y, Runs s id e y → e.kind = .put → putOk e.desc = true → e.endpoint ≠ s.endpoint → e.sent = true → e.code = none →
      let ends (i : Instr) (code : Nat) : Prop := ∃ t, exec i s = .next t ∧ Ended s t e y code ∧ ∀ p, clear y p → t.byteAt p = s.byteAt p
      (fld e.desc 0x20 8 = 0 → ends (.putAcknowledged id) 0) ∧ ends (.putRefused id) 3 ∧
        (e.posted + 700000 ≤ s.now → ends (.putResponseTimeout id) 4) ∧
        (s.now < e.posted + 700000 → exec (.putResponseTimeout id) s = .next s)) ∧
    ∀ w, w < 4096 → ∃ t, exec (.windowDisable w) s = .next t ∧ t = { s with putWins := t.putWins } ∧ (t.putWin w).ctl.getLsbD 63 = false ∧
      (t.putWin w).base = (s.putWin w).base ∧ (t.putWin w).size = (s.putWin w).size ∧ (t.putWin w).land = (s.putWin w).land ∧
      ∀ j, j ≠ w → t.putWin j = s.putWin j

namespace Sys2Proof.Claims

/-- The values that a contribution's blocks supply, in order (R226): those of R155, of a malformed block canonical NaNs (R227). -/
def supplied (bs : List Byte) : List FpVal :=
  (List.range (bs.length / 64)).flatMap fun b =>
    let block := (bs.drop (64 * b)).take 64
    match blockFormat block with
    | some t => (List.range (blockCount t)).map fun i => if blockOk block then blockValue t block i else .nan false
    | none => List.replicate 30 (.nan false)

/-- A value rounded to nearest even in a format, flags apart (R227). -/
def rounded (f : Fmt) : FpVal → Nat
  | .nan _ => f.nanPat
  | .inf x => f.signPat x + f.infPat
  | .fin x m e => (f.round .rne false x m e).1

/-- An element of a slot after a contribution (R227): a float is added or selected in f32, an integer modulo its width or by its
signedness. -/
def combined (op : Nat) (ty : Ty) (old pat : Nat) (v : FpVal) : Nat :=
  if ty.fpTy then
    if op = 0 then (fAdd fmtF32 .rne false (fmtF32.value old) v).1
    else (fMinMax fmtF32 (op == 2) false (fmtF32.value old) (fmtF32.value (rounded fmtF32 v))).1
  else if op = 0 then (old + pat) % 2 ^ tyWidth ty else atomElem (if op = 1 then .min else .max) ty old pat

end Sys2Proof.Claims

/-- R225 to R228: landing slots. A contribution that a slot does not refuse and that is the one of rank NEXT is held; a slot that is not
enabled, another tenant or a rank above RANKS refuses. Each contribution in rank order, of an integer or a floating type or of blocks, is
combined with the accumulators; after the last rank the results stand in the landing area, the counter that LBCNT names has gained 1, and
the next epoch begins. Enabling begins at epoch 0; disabling discards. A COLL ends with its answer's code, that of another endpoint a free
value (log 14), or with 4 after 1 ms; that these run from the post is the model's choice (log 52). While the compute dies are not active,
an arrival wakes them, and comes again (R253, log 60). -/
def Sys2Proof.Claims.CollectiveEvents : Prop :=
  ∀ (s : State) (n : Nat), n < 1024 →
    let k := s.slot n
    let only (t : State) (x : Slot) : Prop := t = { s with slots := tset s.slots n x }
    (∀ m : CollMsg, s.power.pstate ≠ 0 → exec (.collArrival m) s = .next s.wake) ∧
    (∀ m : CollMsg, m.own = none → m.slot = n → s.power.pstate = 0 →
      (k.ctl.getLsbD 63 = false ∨ m.tenant ≠ k.ctl.toNat / 2 ^ 52 % 16 ∨ k.ctl.toNat / 2 ^ 32 % 1024 < m.rank →
        exec (.collArrival m) s = .next s) ∧
      (k.refuses m = false → m.epoch = k.epoch → m.rank = k.next → m.format = k.ctl.toNat / 2 ^ 56 % 16 →
        ∃ t, exec (.collArrival m) s = .next t ∧ only t { k with held := k.held ++ [m] }) ∧
      (k.refuses m = false → m.epoch = k.epoch → m.rank = k.next → m.format = 15 →
        ∃ t bs, exec (.collArrival m) s = .next t ∧ only t { k with held := k.held ++ [{ m with bytes := bs }] } ∧ bs <+: m.bytes ∧
          64 * (k.ctl.toNat % 2 ^ 15) / (tyWidth (ctlTy k.ctl) / 8) ≤ (supplied bs).length)) ∧
    (∀ id e y, Runs s id e y → e.kind = .coll →
      let ends (i : Instr) (code : Nat) : Prop := ∃ t, exec i s = .next t ∧ Ended s t e y code ∧ ∀ p, clear y p → t.byteAt p = s.byteAt p
      (∀ c, e.code = some c → e.endpoint = s.endpoint → ends (.collAccepted id) c) ∧
        (e.code = none → e.posted + 700000 ≤ s.now → s.collWaits id = false → collOk e.desc = true → ends (.collResponseTimeout id) 4) ∧
        (e.code = none → s.now < e.posted + 700000 → exec (.collResponseTimeout id) s = .next s)) ∧
    (∀ m rest, k.ctl.getLsbD 63 = true → k.devWait = false → s.power.pstate = 0 → k.held = m :: rest → m.epoch = k.epoch → m.rank = k.next →
      (∀ h ∈ rest, ¬ (h.epoch = k.epoch ∧ h.rank = k.next)) → tsorted s.slots = true → (∀ p ∈ s.slots, p.2.waiting = []) → k.next ≤ k.ctl.toNat / 2 ^ 32 % 1024 →
      let ty := ctlTy k.ctl
      let op := k.ctl.toNat / 2 ^ 60 % 4
      let w := tyWidth ty / 8
      let given (i : Nat) : Nat := number (fun j => (m.bytes[i * w + j]?).getD 0) 0 w
      let size := k.ctl.toNat % 2 ^ 15
      let elems := 64 * size / w
      let vals : List FpVal := if m.format = 15 then (supplied m.bytes).take elems else (List.range elems).map fun i => (fmtOf ty).value (given i)
      let sums (acc : List Nat) : Prop :=
        (k.next = 0 → acc.length = (if ty.fpTy then vals.length else elems)) ∧ (k.next ≠ 0 → acc.length ≤ k.acc.length) ∧
        ∀ (i v : Nat), acc[i]? = some v →
          (k.next = 0 → v = if ty.fpTy then rounded fmtF32 ((vals[i]?).getD (.nan false)) else given i) ∧
          (k.next ≠ 0 → v = combined op ty ((k.acc[i]?).getD 0) (given i) ((vals[i]?).getD (.nan false)))
      let ended : Slot := { k with epoch := (k.epoch + 1) % 2 ^ 32, next := 0, acc := [], held := rest, devWait := false, dropAdd := false }
      let area := n / 64 * 2 ^ 36 + k.offs
      let landed (t : State) (acc : List Nat) : Prop := t.slot n = ended ∧ sums acc ∧
        ∀ (i a : Nat), acc[i]? = some a → holds t.byteAt (area + i * w) w (if ty = .bf16 then rounded fmtBf16 (fmtF32.value a) else a)
      (k.next < k.ctl.toNat / 2 ^ 32 % 1024 → ∃ t acc, exec (.collApply n) s = .next t ∧
        only t { k with acc := acc, next := k.next + 1, held := rest } ∧ sums acc) ∧
      (k.next = k.ctl.toNat / 2 ^ 32 % 1024 → Quiet s → cachesOk s →
        (k.cnt = 0 ∨ k.dropAdd = true → ∃ t acc, exec (.collApply n) s = .next t ∧ landed t acc) ∧
        ∀ y, k.cnt ≠ 0 → k.dropAdd = false → s.devTranslate (k.ctl.toNat / 2 ^ 52 % 16) k.cnt accEngW (.slot n k.cnt) = (s, .ok y) → y.ms = false →
          y.repl = false → (tierOf y.pa).isSome = true → y.pa % 8 = 0 → (∀ j, j < 64 * size → (area + j) / 256 ≠ y.pa / 256) →
          ∃ t acc, exec (.collApply n) s = .next t ∧ landed t acc ∧
            holds t.byteAt y.pa 8 (number (fun j => s.byteAt (y.pa + j)) 0 8 + 1))) ∧
    (∀ v : Word, let c := (v ||| 0x8000000000000000#64) &&& 0xBFF003FF00007FFF#64
      let begun : Slot := { offs := k.offs, cnt := k.cnt, ctl := c }
      k.ctl.getLsbD 63 = false → ctlOk c = true → s.reservedOn (n / 64) n + slotReserve c ≤ 8388608 →
      ∃ t, exec (.slotEnable n v) s = .next t ∧ only t begun) ∧
    let off : Slot := { k with ctl := k.ctl &&& 0x7FFFFFFFFFFFFFFF#64, acc := [], held := [], devWait := false, dropAdd := false }
    k.ctl.getLsbD 63 = true → (∀ p ∈ s.slots, p.2.waiting = []) → ∃ t, exec (.slotDisable n) s = .next t ∧ t = { s with slots := t.slots } ∧
      ∀ j, t.slot j = if j = n then off else s.slot j

/-- Puts and collectives. -/
def Obligations.PutsAndCollectives : Prop := PutEvents ∧ CollectiveEvents

/-! ## The memory system and the platform -/

/-- R192, R193, R199, R200, R194: a migration's Switch changes no byte but those of the leaf entry, of the frame it moves to and of the
writes that have waited for it, which count there, and leaves the page's requests served there; where the leaf has changed, or the
package does not own the target frame, it is abandoned, no byte changes but those, and its target frame goes back to its ring, unless it
has been retired. What waits for the Switch, and where, is the model's choice (log 86), as is the drop of the source frame's cached bytes at
the Release (log 38).
The release frees the entry and passes the source frame on. A record's status byte resolves or abandons it; a replay lets
a thread go on whose page now translates. -/
def Sys2Proof.Claims.MigrationAndFaults : Prop :=
  ∀ (s : State),
    (∀ k f (ys : List Stalled), s.fwds = [(k, f)] → f.stalled = ys.map Stall.bytes → (∀ y ∈ ys, y.bad = []) → s.l2 = [] → s.lands = [] → f.src % 4096 = 0 → f.dst % 4096 = 0 → f.src ≠ f.dst → f.leafPa % 8 = 0 →
      frameOf f.leafPa ≠ frameOf f.src → frameOf f.leafPa ≠ frameOf f.dst → (∀ w ∈ f.window.flatten, frameOf w.1 = frameOf f.src) →
      let stalled := ys.map Stalled.ws
      (∀ ws ∈ stalled, ws ≠ [] ∧ ∀ w ∈ ws, frameOf w.1 = frameOf f.src) →
      let after (p : Nat) : Byte := (windowByte stalled p).getD (s.byteAt p)
      (f.switched = false → s.entryAt f.leafPa = f.leafOld → s.ownsExcl f.dst = true → ∃ t, exec (.migrationSwitch k) s = .next t ∧
        t.fwds = [(k, { f with switched := true, window := [], stalled := [] })] ∧ t.rings = s.rings ∧
        (∀ p, frameOf p = frameOf f.src → t.homeAddr p = f.dst + p % 4096) ∧
        holds t.byteAt f.leafPa 8 (f.leafOld - oaOf f.leafOld + f.dst) ∧
        ((tierOf f.dst).isSome = true → tgetD t.counters (frameOf f.dst) 0 = min 0xFFFF stalled.length) ∧
        ∀ p, frameOf p ≠ frameOf f.dst → (p < f.leafPa ∨ f.leafPa + 8 ≤ p) → t.byteAt p = after p) ∧
      (f.switched = false → s.entryAt f.leafPa ≠ f.leafOld ∨ s.ownsExcl f.dst = false → stalled = [] ∨ (∀ j, (s.tenant j).thresh = 0) →
        ∃ t, exec (.migrationSwitch k) s = .next t ∧ t.fwds = [] ∧
          tgetD t.rings f.dstTier [] = tgetD s.rings f.dstTier [] ++ (if frameOf f.dst ∈ s.retiredFrames then [] else [f.dst]) ∧ ∀ p, t.byteAt p = after p) ∧
      (f.switched = true → stalled = [] → drained s → cachesOk s → ∃ t, exec (.migrationRelease k) s = .next t ∧ t.fwds = [] ∧
        t.retRing = s.retRing ++ [f.src] ∧
        (∀ e ∈ t.tlb, ¬ (e.tenant = f.tenant ∧ ∃ v ∈ e.via, v.1 < f.ipa + 4096 ∧ f.ipa < v.1 + v.2)) ∧
        (∀ c p, frameOf p = frameOf f.src → (t.l1c c).byte p = none) ∧ ∀ p, frameOf p ≠ frameOf f.src → t.byteAt p = s.byteAt p) ∧
      (f.switched = true → exec (.migrationSwitch k) s = .next s) ∧ (f.switched = false → exec (.migrationRelease k) s = .next s)) ∧
    ∀ b, b ≤ 256 →
      let B := s.fbuf b
      let alone (t : State) (g : FaultBuf) : Prop := t.fbuf b = g ∧ (∀ c, c ≠ b → t.fbuf c = s.fbuf c) ∧ t = { s with fbufs := t.fbufs }
      (∀ i, i < 8 →
        let r := tgetD B.recs i {}
        (∃ t q, exec (.faultRecordResolve b i) s = .next t ∧ alone t { B with recs := q } ∧ tget q i = some { r with valid := false } ∧
          ∀ j, j ≠ i → tget q j = tget B.recs j) ∧
        ∃ t q, exec (.faultRecordAbandon b i) s = .next t ∧ tget q i = some { r with valid := false } ∧ (∀ j, j ≠ i → tget q j = tget B.recs j) ∧
          let more := if r.valid then [(r.tenant, r.va)] else []
          alone t { B with recs := q, abandoned := B.abandoned ++ more }) ∧
      (B.waiters = [] → ∃ t, exec (.faultReplay b) s = .next t ∧ alone t { B with abandoned := [] }) ∧
      ∀ n l va r w fe a x, B.waiters = [.thread n l va r w fe a 0xFFFF false] → (s.warp n).resident = true → (s.thread n l).exited = false →
        (s.thread n l).wait = .fault b → b = clusterOf (s.warp n).core → l < (s.warp n).threads.length →
        ((s.warp n).tenant, va / 4096 * 4096) ∉ B.abandoned → cachesOk s →
        (s.translateFor (s.warp n) { read := r, write := w, fetch := fe, atomic := a } va).2 = .ok x →
        ∃ t, exec (.faultReplay b) s = .next t ∧ t.thread n l = { s.thread n l with wait := .none } ∧
          t.fbuf b = { B with waiters := [], abandoned := [] } ∧ SameMemory s t ∧
          ∀ m u, (m ≠ n ∨ u ≠ l) → t.thread m u = s.thread m u

namespace Sys2Proof.Claims

/-- A CXL command as it begins (R212): in progress, with FIRST 0, and with the status and the first page that it will have. -/
def commands (s t : State) (op page count status first : Nat) : Prop :=
  t.poolCmd = { s.poolCmd with op := op, page := page, count := count, status := 3, first := 0, result := status, resultFirst := first }

/-- No store is queued, and no paired warp holds one back. -/
def noStores (s : State) : Prop := ∀ w ∈ s.warps, w.2.storeQ = [] ∧ w.2.seg.held = []

/-- A run of pages has an ownership, no other page changed. -/
def RunIs (s t : State) (page count : Nat) (o : Option PoolOwn) : Prop :=
  ∀ j, tget t.poolPages j = if page ≤ j ∧ j ≤ page + count then o else tget s.poolPages j

end Sys2Proof.Claims

/-- R73, R196, R198, R211 to R215: the rings, the counters' decay, DEVDROP, and the CXL pool. ACQUIRE makes a run exclusive unless the home
agent finds a page of it exclusive elsewhere (a free value, log 14); RELEASE makes it none, PUBLISH turns exclusive pages
read-shared and raises the version; a publication by another package makes pages that are none read-shared; a revoked page is none;
without a heartbeat for 50 ms the package holds nothing, and what has not reached the pool is lost. A command acts on the ownership when it
is written, where no store to its pages is queued or held, while the status reads 3 until POOL_COMMAND_DONE: the model's choice (log 62). -/
def Obligations.PoolEvents : Prop :=
  ∀ (s : State),
    (∃ t, exec .devdropRead s = .next t ∧ t = { s with devdrop := 0, readout := BitVec.ofNat 64 s.devdrop }) ∧
    (∀ v : Word, ∃ t, exec (.migdecayWrite v) s = .next t ∧ t = { s with migdecay := v.toNat % 65536, decayFrom := s.now }) ∧
    (s.migdecay ≠ 0 → s.decayFrom + s.migdecay * 65536 ≤ s.now → ∃ t, exec .accessCounterDecay s = .next t ∧
      (∀ f, tgetD t.counters f 0 = tgetD s.counters f 0 / 2) ∧ t = { s with counters := t.counters, decayFrom := s.decayFrom + s.migdecay * 65536 }) ∧
    ((s.migdecay = 0 ∨ s.now < s.decayFrom + s.migdecay * 65536) → exec .accessCounterDecay s = .next s) ∧
    (∀ ring (v : Word), ring < 3 →
      let f := v.toNat / 4096 % 2 ^ 40 * 4096
      let es := tgetD s.rings ring []
      (tierOf f = some ring → es.length < 1024 → frameOf f ∉ s.retiredFrames → ∃ t, exec (.frfillPush ring v) s = .next t ∧ t = { s with rings := tset s.rings ring (es ++ [f]) }) ∧
      (tierOf f ≠ some ring ∨ 1024 ≤ es.length ∨ frameOf f ∈ s.retiredFrames → exec (.frfillPush ring v) s = .next s)) ∧
    (∀ f r, s.retRing = f :: r → ∃ t, exec .frretPop s = .next t ∧ t = { s with retRing := r, readout := BitVec.ofNat 64 f }) ∧
    (s.retRing = [] → ∃ t, exec .frretPop s = .next t ∧ t = { s with readout := 0 }) ∧
    (∀ page count, page < 2 ^ 34 → count < 4096 → Quiet s → cachesOk s → noStores s →
      let held (j : Nat) : Option PoolOwn := tget s.poolPages (page + j % (count + 1))
      let uncached (t : State) : Prop := ∀ c p, 0x1000000000000 + page * 4096 ≤ p → p < 0x1000000000000 + (page + count + 1) * 4096 →
        (t.l1c c).byte p = none ∧ (c < 3 → (t.l2c c).byte p = none)
      (∀ j, Config.poolBusy s.drawn = some j → held j = none → ∃ t, exec (.poolAcquire page count) s = .next t ∧
        commands s t 1 page count 1 ((page + j % (count + 1)) * 4096) ∧ t.poolPages = s.poolPages ∧ SameMemory s t) ∧
      ((∀ j, Config.poolBusy s.drawn = some j → held j ≠ none) → ∃ t, exec (.poolAcquire page count) s = .next t ∧ commands s t 1 page count 0 0 ∧
        RunIs s t page count (some .exclusive) ∧ ((∀ c, noDirty s c) → ∀ p, t.byteAt p = s.byteAt p)) ∧
      (∃ t, exec (.poolRelease page count) s = .next t ∧ commands s t 2 page count 0 0 ∧ RunIs s t page count none ∧ uncached t) ∧
      (s.poolCmd.waits = [] → (∀ j, j ≤ count → tget s.poolPages (page + j) = some .exclusive) → (∀ c, noDirty s c) →
        ∃ t, exec (.poolPublish (.here page) count) s = .next t ∧ commands s t 3 page count 0 0 ∧ RunIs s t page count (some .shared) ∧
        let a := 0x1000000000000 + page * 4096
        holds t.byteAt a 8 (number (fun j => s.byteAt (a + j)) 0 8 + 1) ∧ ∀ p, (p < a ∨ a + 8 ≤ p) → t.byteAt p = s.byteAt p) ∧
      (∀ j, j ≤ count → tget s.poolPages (page + j) ≠ some .exclusive → (∀ i, i < j → tget s.poolPages (page + i) = some .exclusive) →
        s.poolCmd.waits = [] → ∃ t, exec (.poolPublish (.here page) count) s = .next t ∧ commands s t 3 page count 2 ((page + j) * 4096) ∧
          t.poolPages = s.poolPages ∧ SameMemory s t) ∧
      ∀ ws, ((∀ j, j ≤ count → tget s.poolPages (page + j) ≠ some .exclusive) → ∃ t, exec (.poolPublish (.elsewhere page ws) count) s = .next t ∧
          t.poolCmd = s.poolCmd ∧ RunIs s t page count (some .shared) ∧ uncached t) ∧
        ((∃ j, j ≤ count ∧ tget s.poolPages (page + j) = some .exclusive) → exec (.poolPublish (.elsewhere page ws) count) s = .next s)) ∧
    (s.poolCmd.waits = [] → s.poolCmd.status = 3 → ∃ t, exec .poolCommandDone s = .next t ∧
      t = { s with poolCmd := { s.poolCmd with status := s.poolCmd.result, first := s.poolCmd.resultFirst } }) ∧
    (s.poolCmd.waits = [] → s.poolCmd.status ≠ 3 → exec .poolCommandDone s = .next s) ∧
    (∀ page, (tget s.poolPages page = some .shared → Quiet s → noStores s → ∃ t, exec (.poolRevocation page) s = .next t ∧ RunIs s t page 0 none) ∧
      (tget s.poolPages page ≠ some .shared → exec (.poolRevocation page) s = .next s)) ∧
    (∃ t, exec .poolHeartbeat s = .next t ∧ t = { s with lastBeat := s.now }) ∧
    (s.lastBeat + 35000000 ≤ s.now → ∃ t, exec .poolHeartbeatLapse s = .next t ∧ t.poolPages = [] ∧ t.mem = s.mem ∧
      (∀ w ∈ t.warps, ∀ e ∈ w.2.storeQ, match e with
        | .store (.mem x) _ | .sent (.mem x) _ | .red (.mem x) _ _ _ => tierOf (s.homeAddr x.pa) ≠ some 2
        | _ => True) ∧
      ∀ c p, tierOf (s.homeAddr p) = some 2 → (c < 1024 → (t.l1c c).byte p = none) ∧ (c < 3 → (t.l2c c).byte p = none)) ∧
    (s.now < s.lastBeat + 35000000 → exec .poolHeartbeatLapse s = .next s) ∧
    ∀ e m, (∃ t, exec (.poolModuleLoss e m) s = .next t ∧ (∀ x, x ∈ t.lostModules ↔ x = (e, m) ∨ x ∈ s.lostModules) ∧
        t = { s with lostModules := t.lostModules }) ∧
      ∃ t, exec (.poolModuleRebuild e m) s = .next t ∧ (∀ x, x ∈ t.lostModules ↔ x ≠ (e, m) ∧ x ∈ s.lostModules) ∧
        t = { s with lostModules := t.lostModules }

/-- R230, R231: what the fabric asks of the package's memory. A load answers the bytes; a store writes them; an atomic answers the old
element and writes the new; a store-conditional without its endpoint's reservation writes nothing; an address that is not exported, or a
pool page that the package does not own for the request (R211), is refused, and nothing changes. That memory and the device windows are what
it exports, and the form of an answer, is the model's choice (log 40). -/
def Sys2Proof.Claims.FabricRequests : Prop :=
  ∀ (s : State) (pa : Nat),
    let answers (t : State) (v : List Nat) : Prop := t.report = 0 :: v
    let bytes (n : Nat) : List Nat := (List.range n).map fun j => (s.byteAt (pa + j)).toNat
    let wrote (t : State) (bs : List Byte) : Prop := ∀ p, t.byteAt p = if pa ≤ p ∧ p < pa + bs.length then (bs[p - pa]?).getD 0 else s.byteAt p
    (∀ r, fabricPa r = pa → (regionOf pa = .none ∨ regionOf pa = .fabric) → ∃ t, exec (.fabricRequestIn r) s = .next t ∧ t = { s with report := [1] }) ∧
    (let held := tget s.poolPages (frameOf (pa - 0x1000000000000))
     tierOf pa = some 2 → s.fwds = [] →
      (∀ n, held = none → ∃ t, exec (.fabricRequestIn (.load pa n)) s = .next t ∧ t = { s with report := [1] }) ∧
      ∀ bs, held ≠ some .exclusive → ∃ t, exec (.fabricRequestIn (.store pa bs)) s = .next t ∧ t = { s with report := [1] }) ∧
    ((tierOf pa).isSome = true → (tierOf pa = some 2 → tget s.poolPages (frameOf (pa - 0x1000000000000)) = some .exclusive) →
      s.power.pstate = 0 → Quiet s → cachesOk s →
      (∀ n, ∃ t, exec (.fabricRequestIn (.load pa n)) s = .next t ∧ answers t (bytes n) ∧ t = { s with report := t.report, counters := t.counters }) ∧
      (∀ bs, ∃ t, exec (.fabricRequestIn (.store pa bs)) s = .next t ∧ answers t [] ∧ wrote t bs) ∧
      (∀ op ty v, 8 ≤ tyWidth ty →
        let w := tyWidth ty / 8
        let new := atomElem op ty (number (fun j => s.byteAt (pa + j)) 0 w) v.toNat
        ∃ t, exec (.fabricRequestIn (.atomic pa op ty v)) s = .next t ∧ answers t (bytes w) ∧ wrote t (leBytes w new)) ∧
      (∀ ty v c, 8 ≤ tyWidth ty →
        let w := tyWidth ty / 8
        let same : Prop := number (fun j => s.byteAt (pa + j)) 0 w = c.toNat % 2 ^ tyWidth ty
        ∃ t, exec (.fabricRequestIn (.cas pa ty v c)) s = .next t ∧ answers t (bytes w) ∧ (same → wrote t (leBytes w v.toNat)) ∧
          (¬ same → wrote t [])) ∧
      ∀ e, (∀ n, ∃ t, exec (.fabricRequestIn (.lr e pa n)) s = .next t ∧ answers t (bytes n) ∧
          tget t.fabResv e = some { granule := pa / 64, time := s.now } ∧ wrote t []) ∧
        ∀ bs, let covers : Prop := ∃ r, tget s.fabResv e = some r ∧ r.granule = pa / 64 ∧ s.now ≤ r.time + 1400
          ∃ t, exec (.fabricRequestIn (.sc e pa bs)) s = .next t ∧ tget t.fabResv e = none ∧ (covers → answers t [1] ∧ wrote t bs) ∧
            (¬ covers → answers t [0] ∧ wrote t []))

/-- Migration, fault records and requests from the fabric. -/
def Obligations.MemorySystemEvents : Prop := MigrationAndFaults ∧ FabricRequests

namespace Sys2Proof.Claims

/-- The exit latency of each power state in ns, and the time its condition must hold in arithmetic cycles (R253). -/
def exitTime (p : Nat) : Nat := if p = 0 then 0 else if p = 1 then 1000 else if p = 2 then 40000 else 3000000
def holdTime (p : Nat) : Nat := if p = 1 then 7000 else if p = 2 then 700000 else 70000000

end Sys2Proof.Claims

/-- R12, R16, R126, R234, R250, R252, R253: resets, the boot chain, alarms and power states. A warm reset keeps memory, time and every
GPSEQ; an image is accepted only with the two vendor keys, both signatures and no version below the rollback counter, and the fourth
starts service thread 0 at its entry; a condition that is broken for 10 ms shuts the compute dies down; tampering zeroises the keys, and
so does a glitch or temperature alarm where the policy fuse says so, which otherwise throttles the device as R12 has it; the alarm is
pending for monitor level where its source is routed; power states deepen one by one and end on a wake after the state's latency. The
vendor keys, the policy fuse and the number of the alarms' source are free values (log 13, log 21). The model's choices: what keys and
signatures are in it (log 12), the four stages and that an update replaces the first digest (log 59), what a reset keeps (log 58), what a
shutdown stops (log 73). -/
def Sys2Proof.Claims.PlatformEvents : Prop :=
  ∀ (s : State),
    (∃ t, exec .coldReset s = .next t ∧ t.now = 0 ∧ t.mem = [] ∧ t.warps = [] ∧ t.launches = [] ∧ t.tenants = [] ∧ t.tlb = [] ∧ t.l1 = [] ∧ t.l2 = [] ∧
      t.engOps = [] ∧ t.sec.rollback = s.sec.rollback ∧ t.sec.stage = 0 ∧ t.errorLog = s.errorLog ∧ t.retiredFrames = s.retiredFrames ∧
      t.fuseReports = s.fuseReports ∧ t.power.alarms = s.power.alarms.map (fun p => (p.1, p.2 - s.now)) ∧ t.power.throttled = s.power.throttled ∧
      ∀ c, (t.core c).lmap = (s.core c).fusePending.getD (s.core c).lmap) ∧
    (∃ t u, exec .warmReset s = .next t ∧ exec .coldReset s = .next u ∧ (∀ j, (t.tenant j).gpseq = (s.tenant j).gpseq) ∧
      t = { u with now := s.now, mem := s.mem, poison := s.poison, tenants := t.tenants
                   power := { alarms := s.power.alarms, throttled := s.power.throttled, stateSince := s.now } }) ∧
    (∀ m : ImageMsg,
      let good : Prop := m.rsaKey = Config.vendorKeys.1 ∧ m.slhKey = Config.vendorKeys.2 ∧ m.rsaOk = true ∧ m.slhOk = true ∧
        s.sec.rollback ≤ m.version
      let later := { s.sec with stage := s.sec.stage + 1, measured := s.sec.measured ++ [m.digest] }
      (s.sec.failed = none → s.sec.stage < 4 → s.power.shutdown = false →
        (good → s.sec.stage < 3 → ∃ t, exec (.bootStageVerify m) s = .next t ∧ t = { s with sec := later }) ∧
        (good → s.sec.stage = 3 → (s.warp 0).threads.length = 1 → ∃ t, exec (.bootStageVerify m) s = .next t ∧ t.sec = later ∧ t.home = .service 0 ∧
          (t.warp 0).svc.running = true ∧ (t.warp 0).svc.level = .monitor ∧ (t.thread 0 0).pc.toNat = m.entry.toNat / 4 * 4 ∧
          (t.thread 0 0).gcur 1 = 0 ∧ (∀ n, n ≠ 0 → t.warp n = s.warp n) ∧ SameMemory s t) ∧
        (¬ good → ∃ t, exec (.bootStageVerify m) s = .next t ∧ t.sec = { s.sec with failed := some s.sec.stage } ∧
          t = { s with sec := t.sec, report := t.report })) ∧
      (good → ∃ t, exec (.lanternFirmwareUpdate m) s = .next t ∧ t = { s with sec := { s.sec with measured := m.digest :: s.sec.measured.drop 1 } }) ∧
      (¬ good → ∃ t, exec (.lanternFirmwareUpdate m) s = .next t ∧ t = { s with report := t.report })) ∧
    (let wiped := { s with sec := { s.sec with keys := false, recovery := true } }
     let throttles (u : State) (c : PlatformCond) : State :=
      { u with power := { s.power with alarms := s.power.alarms ++ [(c, s.now + 7000000)], throttled := true } }
     let broken (c : PlatformCond) : Prop := ∃ p ∈ s.power.alarms, p.1 = c
     (∀ c, broken c → exec (.platformFaultAlarm c) s = .next s) ∧
     (s.introute = [] → exec .tamperAlarm s = .next wiped ∧
      (Config.policyFuse = true → exec .glitchTemperatureAlarm s = .next wiped) ∧
      (Config.policyFuse = false → broken .security → exec .glitchTemperatureAlarm s = .next s) ∧
      (Config.policyFuse = false → ¬ broken .security → exec .glitchTemperatureAlarm s = .next (throttles s .security)) ∧
      ∀ c, ¬ broken c → exec (.platformFaultAlarm c) s = .next (throttles (if Config.policyFuse then wiped else s) c)) ∧
     ∀ i n, i = 4 + Config.alarmSource % 12 → tgetD s.introute i 0 = BitVec.ofNat 64 (256 + n) → n < 256 →
      ∃ t, exec .tamperAlarm s = .next t ∧ (t.warp n).svc.intpend.getLsbD i = true ∧ (t.warp n).svc.alarms.getLsbD i = true ∧
        t.sec = wiped.sec ∧ (∀ m, m ≠ n → t.warp m = s.warp m)) ∧
    (∀ c, ∃ t, exec (.platformConditionRestored c) s = .next t ∧ (∀ p, p ∈ t.power.alarms ↔ p ∈ s.power.alarms ∧ p.1 ≠ c) ∧
        (t.power.alarms = [] → t.power.throttled = false) ∧ t = { s with power := { s.power with alarms := t.power.alarms, throttled := t.power.throttled } }) ∧
    (let down := { s with power := { s.power with shutdown := true }, home := .idle, issue := [], cur := {} }
     ((∃ p ∈ s.power.alarms, p.2 ≤ s.now) → exec .protectiveShutdown s = .next down) ∧
      ((∀ p ∈ s.power.alarms, s.now < p.2) → exec .protectiveShutdown s = .next s) ∧
      exec (.lanternMainReset false true) s = .next s ∧ exec (.lanternMainReset true false) s = .next down ∧
      exec (.lanternMainReset true true) s = exec .coldReset s) ∧
    (s.sec.recovery = true → exec .lanternProvisioning s = .next { s with sec := { s.sec with keys := true, recovery := false } }) ∧
    (s.sec.recovery = false → exec .lanternProvisioning s = .next s) ∧
    (let p := s.power.pstate + 1
     s.busy = false → s.power.exiting = false → p ≤ 3 → s.power.stateSince + holdTime p ≤ s.now → exitTime p ≤ s.power.lattol.toNat →
      (p = 3 → ∀ q ∈ s.tenants, q.2.units0 = 0 ∧ q.2.units1 = 0) → Quiet s → cachesOk s →
      ∃ t, exec .powerStateEntry s = .next t ∧ t.power = { s.power with pstate := p, stateSince := s.now } ∧ (∀ a, t.byteAt a = s.byteAt a) ∧
        (p = 3 → ∀ i a, i < 2 → (t.l2c i).byte a = none)) ∧
    (s.busy = true → exec .powerStateEntry s = .next s) ∧
    (s.power.pstate ≠ 0 → s.power.exiting = false → exec .powerWake s = .next { s with power := { s.power with exiting := true, stateSince := s.now } }) ∧
    (s.power.exiting = true → s.power.pstate ≤ 3 → s.power.stateSince + exitTime s.power.pstate * 7 / 10 ≤ s.now →
      exec .exitLatencyElapsed s = .next { s with power := { s.power with pstate := 0, exiting := false, stateSince := s.now } }) ∧
    (s.power.exiting = false → exec .exitLatencyElapsed s = .next s)

/-- R246, R248, R249, R250, R251, R254, R311, R61: errors, self-tests and Lantern. An error is logged and the unit that reports it is to be
tested; an uncorrectable one of a line poisons it, one of scratch stands there for the read that meets it, a flipped bit of a tile
stays as it is; a unit that fails a self-test is retired, and one that passes all three runs is not; an L2 set left with one way
retires its slice; a test of a scratchpad line that a block holds does not run (log 61); a new GOOD value is reported at once, to the
model's list of reports (log 100); a debug hold is set and ends; a report covers the measured images, the fuses, the lane maps and the nonce
beside the certificate of the keys; a query answers. -/
def Sys2Proof.Claims.LanternEvents : Prop :=
  ∀ (s : State),
    (s.introute = [] →
      let logged (e : EccMsg) (u : TestUnit) : State :=
        { s with errorLog := s.errorLog ++ [e], selfTests := if u ∈ s.selfTests then s.selfTests else s.selfTests ++ [u] }
      let noLine (u : TestUnit) : Prop := match u with
        | .l1Line _ _ _ | .l2Line _ _ _ _ => False
        | _ => True
      (∀ u, ∃ t, exec (.eccError (.unit u)) s = .next t ∧ t.errorLog = s.errorLog ++ [.unit u] ∧ u ∈ t.selfTests ∧
        (noLine u ∨ u ∈ s.selfTests → t = logged (.unit u) u)) ∧
      (∀ u pa, ∃ t, exec (.eccError (.line u pa)) s = .next t ∧ t.errorLog = s.errorLog ++ [.line u pa] ∧ u ∈ t.selfTests ∧
        (∀ a, a / 256 = pa / 256 → a ∈ t.poison) ∧
        (∀ c set way, u = .l1Line c set way → ∀ a b, a / 256 = pa / 256 → (t.l1c c).byte a = some b → b.bad = true) ∧
        (noLine u → t = { logged (.line u pa) u with poison := t.poison } ∧ ∀ a, a ∈ t.poison ↔ a / 256 = pa / 256 ∨ a ∈ s.poison)) ∧
      (∀ b o k, tget s.blocks b = some k → k.state = .resident → o < k.allocBytes → ∃ t j, exec (.eccError (.scratch b o)) s = .next t ∧
        t = { s with errorLog := s.errorLog ++ [.scratch b o], selfTests := t.selfTests, blocks := t.blocks } ∧
        tget t.blocks b = some j ∧ j = { k with errs := j.errs } ∧ ∀ i, i ∈ j.errs ↔ i = o / 8 ∨ i ∈ k.errs) ∧
      ∀ c h row col bit, c < 256 → h < 16 → row < 64 → col < 64 → bit < 32 →
        let e := s.engine c
        let u := EccMsg.tile c h row col bit
        ∃ t, exec (.eccError u) s = .next t ∧ OnlyEngine (logged u (.engine c)) t c ∧ (t.engine c).sums = e.sums ∧
          tileAt (t.engine c) h row col = tileAt e h row col ^^^ 2 ^ bit ∧
          ∀ h' row' col', h' < 16 → row' < 64 → col' < 64 → (h' ≠ h ∨ row' ≠ row ∨ col' ≠ col) →
            tileAt (t.engine c) h' row' col' = tileAt e h' row' col') ∧
    let tested (part : TestUnit) : List TestUnit := s.selfTests.filter fun u => u != part
    (∀ part, s.lineInUse part = false → exec (.selfTest part [true, true, true]) s = .next { s with selfTests := tested part }) ∧
    (∀ part runs, s.lineInUse part = true → exec (.selfTest part runs) s = .next s) ∧
    (∀ runs : List Bool, runs.length = 3 → false ∈ runs →
      (∀ c, exec (.selfTest (.cluster c) runs) s = .next { s with selfTests := tested (.cluster c) }) ∧
      (∀ c l m, c < 1024 → l < 16 → (s.core c).enabled = true → (s.core c).fusePending = none → m = (s.core c).lmap → m.getLsbD l = true →
        let m2 := m &&& ~~~ BitVec.ofNat 16 (2 ^ l)
        ∃ t, exec (.selfTest (.lane c l) runs) s = .next t ∧ (∀ d, d ≠ c → t.core d = s.core d) ∧
          t.fuseReports = s.fuseReports ++ [(c, m2.toNat)] ∧
          ((t.core c).fusePending = some m2 ∧ (t.core c).lmap = m ∨ (t.core c).fusePending = none ∧ (t.core c).lmap = m2)) ∧
      (∀ c set way, c < 1024 → set < 128 → way < 8 → ∃ t, exec (.selfTest (.l1Line c set way) runs) s = .next t ∧
        ∀ d, t.core d = if d = c then { s.core c with retiredLines := (s.core c).retiredLines ++ [(set, way)] } else s.core d) ∧
      (∀ c line, c < 1024 → 256 * line < 262144 → s.lineInUse (.scratchLine c line) = false → ∃ t, exec (.selfTest (.scratchLine c line) runs) s = .next t ∧
        t = { s with selfTests := tested (.scratchLine c line), cores := t.cores } ∧ (∀ i, i ∈ (t.core c).retiredScratch ↔ i = line ∨
        i ∈ (s.core c).retiredScratch) ∧ ∀ d, d ≠ c → t.core d = s.core d) ∧
      (∀ d sl set way, d < 2 → sl < 256 → set < 512 → way < 16 → (d, sl, set, way) ∉ s.retiredL2 → Quiet s → cachesOk s →
        let gone := (s.retiredL2.filter fun r => r.1 = d ∧ r.2.1 = sl ∧ r.2.2.1 = set).length
        ∃ t, exec (.selfTest (.l2Line d sl set way) runs) s = .next t ∧ t.retiredL2 = s.retiredL2 ++ [(d, sl, set, way)] ∧
          (∀ p, t.byteAt p = s.byteAt p) ∧ (gone < 14 → t.retiredSlices = s.retiredSlices) ∧
          (gone = 14 → s.retiringSlices = [] → (d, sl) ∉ s.retiredSlices → (∀ q ∈ s.tenants, sl ∉ q.2.slices0 ∧ sl ∉ q.2.slices1) →
            t.retiredSlices = s.retiredSlices ++ [(d, sl)])) ∧
      (∀ c, c < 256 → ∃ t, exec (.selfTest (.engine c) runs) s = .next t ∧ OnlyEngine { s with selfTests := tested (.engine c) } t c ∧
        t.engine c = { s.engine c with retired := true }) ∧
      ∀ f, ∃ t, exec (.selfTest (.row f) runs) s = .next t ∧ f ∈ t.retiredFrames ∧ ∀ p, cachesOk s → s.fwds = [] → t.byteAt p = s.byteAt p) ∧
    (∀ k, k < 16 → (∃ t, exec (.lanternDebugHold k) s = .next t ∧ OnlyTenant s t k fun T => { T with debugHold := true }) ∧
      ∃ t, exec (.lanternDebugRelease k) s = .next t ∧ (∀ j, t.tenant j = if j = k then { s.tenant k with debugHold := false } else s.tenant j) ∧
        t = { s with tenants := t.tenants, warps := t.warps } ∧ ∀ p ∈ t.warps, p.2.tenant = k → ∀ u ∈ p.2.threads, u.debugSleep = false) ∧
    (∀ nonce : List Byte, (s.sec.recovery = true ∨ 64 < nonce.length → exec (.lanternAttestation nonce) s = .next s) ∧
      (s.sec.recovery = false → nonce.length ≤ 64 →
        let m := s.sec.measured.length
        ∃ t pre a b, exec (.lanternAttestation nonce) s = .next t ∧ t = { s with report := t.report } ∧
          t.report.take 4 = [Config.identityKeys.1, Config.identityKeys.2, Config.attestKeys.1, Config.attestKeys.2] ∧
          (t.report.drop 6).take m = s.sec.measured.map BitVec.toNat ∧ t.report[6 + m]? = some s.sec.rollback ∧
          t.report[8 + m]? = some Config.vendorKeys.1.toNat ∧ t.report[9 + m]? = some Config.vendorKeys.2.toNat ∧
          (t.report[10 + m]? = some 1 ↔ Config.policyFuse = true) ∧
          (∀ c, c < 1024 → t.report[11 + m + c]? = some (s.core c).lmap.toNat) ∧ t.report = pre ++ nonce.map BitVec.toNat ++ [a, b])) ∧
    (∃ t, exec (.lanternMonitorQuery .errors) s = .next t ∧ t.readout = BitVec.ofNat 64 s.errorLog.length ∧
      t.report = s.report ++ s.errorLog.flatMap errorCode ∧ t = { s with drawn := s.drawn + 1, readout := t.readout, report := t.report }) ∧
    (∃ t, exec (.lanternMonitorQuery .slices) s = .next t ∧ t = { s with drawn := s.drawn + 1, readout := BitVec.ofNat 64 (512 - s.retiredSlices.length) }) ∧
    ∀ c, (∃ t, exec (.lanternMonitorQuery (.lmap c)) s = .next t ∧ t = { s with drawn := s.drawn + 1, readout := BitVec.ofNat 64 (s.core c).lmap.toNat }) ∧
      (∃ t, exec (.lanternMonitorQuery (.npass c)) s = .next t ∧ t = { s with drawn := s.drawn + 1, readout := BitVec.ofNat 64 (s.core c).npass }) ∧
      ∃ t, exec (.lanternMonitorQuery .enabledCores) s = .next t ∧ t = { s with drawn := s.drawn + 1, readout := t.readout } ∧
        t.readout.toNat = ((List.range 1024).filter fun c => (s.core c).enabled).length

/-- Resets, boot, alarms, power, errors and Lantern. -/
def Obligations.Platform : Prop := PlatformEvents ∧ LanternEvents

end Claims
end

