-- ==== Sys2Proof/Laws/Tbl.lean ====
section
/-! SUPPORT. Laws of the sparse tables and of the list helpers: what a read gives after a write, and that a write keeps the
keys rising. -/

namespace Sys2Proof.Machine

variable {α : Type}

@[simp] theorem tget_nil (n : Nat) : tget ([] : Tbl α) n = none := rfl

@[simp] theorem tget_tset_same (t : Tbl α) (n : Nat) (x : α) : tget (tset t n x) n = some x := by
  induction t with
  | nil => simp [tset, tget]
  | cons p r ih =>
    obtain ⟨k, v⟩ := p
    simp only [tset]
    split
    · simp [tget]
    · split
      · simp [tget]
      · simp [tget, ih, *]

@[simp] theorem tget_tset_other (t : Tbl α) {n m : Nat} (x : α) (h : m ≠ n) : tget (tset t n x) m = tget t m := by
  induction t with
  | nil => simp [tset, tget, h]
  | cons p r ih =>
    obtain ⟨k, v⟩ := p
    simp only [tset]
    split
    · simp [tget, h]
    · split
      · subst_vars; simp [tget, h]
      · simp [tget, ih]

theorem tget_tset (t : Tbl α) (n m : Nat) (x : α) : tget (tset t n x) m = if m = n then some x else tget t m := by
  split
  · subst_vars; simp
  · rw [tget_tset_other _ _ (by assumption)]

theorem tgetD_tset (t : Tbl α) (n m : Nat) (x d : α) : tgetD (tset t n x) m d = if m = n then x else tgetD t m d := by
  unfold tgetD; rw [tget_tset]; split <;> rfl

@[simp] theorem tgetD_tset_same (t : Tbl α) (n : Nat) (x d : α) : tgetD (tset t n x) n d = x := by simp [tgetD_tset]

@[simp] theorem tgetD_tset_other (t : Tbl α) {n m : Nat} (x d : α) (h : m ≠ n) :
    tgetD (tset t n x) m d = tgetD t m d := by simp [tgetD_tset, h]

/-- The least key of a written table is the written key or the least key before. -/
theorem tset_head (t : Tbl α) (n : Nat) (x : α) :
    ∃ k v r, tset t n x = (k, v) :: r ∧ (k = n ∨ ∃ w q, t = (k, w) :: q) := by
  cases t with
  | nil => exact ⟨n, x, [], rfl, .inl rfl⟩
  | cons p r =>
    obtain ⟨k, v⟩ := p
    simp only [tset]
    split
    · exact ⟨n, x, _, rfl, .inl rfl⟩
    · split
      · exact ⟨n, x, _, rfl, .inl rfl⟩
      · exact ⟨k, v, _, rfl, .inr ⟨v, r, rfl⟩⟩

/-- A write keeps the keys strictly rising. -/
theorem tsorted_tset (t : Tbl α) (n : Nat) (x : α) (h : tsorted t = true) : tsorted (tset t n x) = true := by
  induction t with
  | nil => simp [tset, tsorted]
  | cons p r ih =>
    obtain ⟨k, v⟩ := p
    have hr : tsorted r = true := by
      cases r with
      | nil => simp [tsorted]
      | cons q r => simp only [tsorted, Bool.and_eq_true] at h; exact h.2
    simp only [tset]
    split
    · rename_i hlt; simp [tsorted, hlt, h]
    · split
      · rename_i heq; subst heq
        cases r with
        | nil => simp [tsorted]
        | cons q r => simpa [tsorted] using h
      · rename_i h1 h2
        have hnk : k < n := by omega
        have ihr := ih hr
        cases r with
        | nil => simp [tset, tsorted, hnk]
        | cons q r =>
          obtain ⟨a, y⟩ := q
          simp only [tsorted, Bool.and_eq_true, decide_eq_true_eq] at h
          simp only [tset] at ihr ⊢
          split <;> rename_i h3
          · rw [if_pos h3] at ihr; simp_all [tsorted]
          · split <;> rename_i h4
            · rw [if_neg h3, if_pos h4] at ihr; simp_all [tsorted]
            · rw [if_neg h3, if_neg h4] at ihr; simp_all [tsorted]

@[simp] theorem length_lmod (l : List α) (n : Nat) (f : α → α) : (lmod l n f).length = l.length := by
  induction l generalizing n with
  | nil => rfl
  | cons x r ih => cases n <;> simp [lmod, ih]

theorem getElem?_lmod (l : List α) (n m : Nat) (f : α → α) :
    (lmod l n f)[m]? = if m = n then l[m]?.map f else l[m]? := by
  induction l generalizing n m with
  | nil => simp [lmod]
  | cons x r ih =>
    cases n <;> cases m <;> simp [lmod, ih]

@[simp] theorem length_lset (l : List α) (n : Nat) (x : α) : (lset l n x).length = l.length := by
  induction l generalizing n with
  | nil => rfl
  | cons y r ih => cases n <;> simp [lset, ih]

theorem getElem?_lset (l : List α) (n m : Nat) (x : α) :
    (lset l n x)[m]? = if m = n then l[m]?.map fun _ => x else l[m]? := by
  induction l generalizing n m with
  | nil => simp [lset]
  | cons y r ih => cases n <;> cases m <;> simp [lset, ih]

@[simp] theorem length_mapFrom {β : Type} (f : Nat → α → β) (i : Nat) (l : List α) : (mapFrom f i l).length = l.length := by
  induction l generalizing i with
  | nil => rfl
  | cons x r ih => simp [mapFrom, ih]

theorem getElem?_mapFrom {β : Type} (f : Nat → α → β) (i m : Nat) (l : List α) :
    (mapFrom f i l)[m]? = l[m]?.map (f (i + m)) := by
  induction l generalizing i m with
  | nil => simp [mapFrom]
  | cons x r ih =>
    cases m with
    | zero => simp [mapFrom]
    | succ m => simp only [mapFrom, List.getElem?_cons_succ, ih]; congr 2; omega

end Sys2Proof.Machine
end

