-- ==== Sys2Proof/Laws/State.lean ====
section
/-! SUPPORT. One lemma for each field of State under each named update: what the update leaves alone; and what a read gives
after an update of the warps, threads, cores and tenants. -/

namespace Sys2Proof.Machine

@[simp] theorem State.setWarp_now (s : State) (n : Nat) (w : Warp) : (s.setWarp n w).now = s.now := rfl
@[simp] theorem State.setWarp_agenda (s : State) (n : Nat) (w : Warp) : (s.setWarp n w).agenda = s.agenda := rfl
@[simp] theorem State.setWarp_home (s : State) (n : Nat) (w : Warp) : (s.setWarp n w).home = s.home := rfl
@[simp] theorem State.setWarp_issue (s : State) (n : Nat) (w : Warp) : (s.setWarp n w).issue = s.issue := rfl
@[simp] theorem State.setWarp_cur (s : State) (n : Nat) (w : Warp) : (s.setWarp n w).cur = s.cur := rfl
@[simp] theorem State.setWarp_cores (s : State) (n : Nat) (w : Warp) : (s.setWarp n w).cores = s.cores := rfl
@[simp] theorem State.setWarp_blocks (s : State) (n : Nat) (w : Warp) : (s.setWarp n w).blocks = s.blocks := rfl
@[simp] theorem State.setWarp_gangs (s : State) (n : Nat) (w : Warp) : (s.setWarp n w).gangs = s.gangs := rfl
@[simp] theorem State.setWarp_launches (s : State) (n : Nat) (w : Warp) : (s.setWarp n w).launches = s.launches := rfl
@[simp] theorem State.setWarp_retargets (s : State) (n : Nat) (w : Warp) : (s.setWarp n w).retargets = s.retargets := rfl
@[simp] theorem State.setWarp_placeTurn (s : State) (n : Nat) (w : Warp) : (s.setWarp n w).placeTurn = s.placeTurn := rfl
@[simp] theorem State.setWarp_tenants (s : State) (n : Nat) (w : Warp) : (s.setWarp n w).tenants = s.tenants := rfl
@[simp] theorem State.setWarp_mem (s : State) (n : Nat) (w : Warp) : (s.setWarp n w).mem = s.mem := rfl
@[simp] theorem State.setWarp_l1 (s : State) (n : Nat) (w : Warp) : (s.setWarp n w).l1 = s.l1 := rfl
@[simp] theorem State.setWarp_l2 (s : State) (n : Nat) (w : Warp) : (s.setWarp n w).l2 = s.l2 := rfl
@[simp] theorem State.setWarp_tlb (s : State) (n : Nat) (w : Warp) : (s.setWarp n w).tlb = s.tlb := rfl
@[simp] theorem State.setWarp_fbufs (s : State) (n : Nat) (w : Warp) : (s.setWarp n w).fbufs = s.fbufs := rfl
@[simp] theorem State.setWarp_engines (s : State) (n : Nat) (w : Warp) : (s.setWarp n w).engines = s.engines := rfl
@[simp] theorem State.setWarp_engOps (s : State) (n : Nat) (w : Warp) : (s.setWarp n w).engOps = s.engOps := rfl
@[simp] theorem State.setWarp_slots (s : State) (n : Nat) (w : Warp) : (s.setWarp n w).slots = s.slots := rfl
@[simp] theorem State.setWarp_putWins (s : State) (n : Nat) (w : Warp) : (s.setWarp n w).putWins = s.putWins := rfl
@[simp] theorem State.setWarp_lands (s : State) (n : Nat) (w : Warp) : (s.setWarp n w).lands = s.lands := rfl
@[simp] theorem State.setWarp_endpoint (s : State) (n : Nat) (w : Warp) : (s.setWarp n w).endpoint = s.endpoint := rfl
@[simp] theorem State.setWarp_fabResv (s : State) (n : Nat) (w : Warp) : (s.setWarp n w).fabResv = s.fabResv := rfl
@[simp] theorem State.setWarp_counters (s : State) (n : Nat) (w : Warp) : (s.setWarp n w).counters = s.counters := rfl
@[simp] theorem State.setWarp_pins (s : State) (n : Nat) (w : Warp) : (s.setWarp n w).pins = s.pins := rfl
@[simp] theorem State.setWarp_fwds (s : State) (n : Nat) (w : Warp) : (s.setWarp n w).fwds = s.fwds := rfl
@[simp] theorem State.setWarp_rings (s : State) (n : Nat) (w : Warp) : (s.setWarp n w).rings = s.rings := rfl
@[simp] theorem State.setWarp_retRing (s : State) (n : Nat) (w : Warp) : (s.setWarp n w).retRing = s.retRing := rfl
@[simp] theorem State.setWarp_migdecay (s : State) (n : Nat) (w : Warp) : (s.setWarp n w).migdecay = s.migdecay := rfl
@[simp] theorem State.setWarp_decayFrom (s : State) (n : Nat) (w : Warp) : (s.setWarp n w).decayFrom = s.decayFrom := rfl
@[simp] theorem State.setWarp_poolPages (s : State) (n : Nat) (w : Warp) : (s.setWarp n w).poolPages = s.poolPages := rfl
@[simp] theorem State.setWarp_poolCmd (s : State) (n : Nat) (w : Warp) : (s.setWarp n w).poolCmd = s.poolCmd := rfl
@[simp] theorem State.setWarp_lastBeat (s : State) (n : Nat) (w : Warp) : (s.setWarp n w).lastBeat = s.lastBeat := rfl
@[simp] theorem State.setWarp_lostModules (s : State) (n : Nat) (w : Warp) : (s.setWarp n w).lostModules = s.lostModules := rfl
@[simp] theorem State.setWarp_introute (s : State) (n : Nat) (w : Warp) : (s.setWarp n w).introute = s.introute := rfl
@[simp] theorem State.setWarp_devdrop (s : State) (n : Nat) (w : Warp) : (s.setWarp n w).devdrop = s.devdrop := rfl
@[simp] theorem State.setWarp_poison (s : State) (n : Nat) (w : Warp) : (s.setWarp n w).poison = s.poison := rfl
@[simp] theorem State.setWarp_errorLog (s : State) (n : Nat) (w : Warp) : (s.setWarp n w).errorLog = s.errorLog := rfl
@[simp] theorem State.setWarp_fuseReports (s : State) (n : Nat) (w : Warp) : (s.setWarp n w).fuseReports = s.fuseReports := rfl
@[simp] theorem State.setWarp_selfTests (s : State) (n : Nat) (w : Warp) : (s.setWarp n w).selfTests = s.selfTests := rfl
@[simp] theorem State.setWarp_retiredL2 (s : State) (n : Nat) (w : Warp) : (s.setWarp n w).retiredL2 = s.retiredL2 := rfl
@[simp] theorem State.setWarp_retiredSlices (s : State) (n : Nat) (w : Warp) : (s.setWarp n w).retiredSlices = s.retiredSlices := rfl
@[simp] theorem State.setWarp_retiringSlices (s : State) (n : Nat) (w : Warp) : (s.setWarp n w).retiringSlices = s.retiringSlices := rfl
@[simp] theorem State.setWarp_retiredFrames (s : State) (n : Nat) (w : Warp) : (s.setWarp n w).retiredFrames = s.retiredFrames := rfl
@[simp] theorem State.setWarp_bases (s : State) (n : Nat) (w : Warp) : (s.setWarp n w).bases = s.bases := rfl
@[simp] theorem State.setWarp_sec (s : State) (n : Nat) (w : Warp) : (s.setWarp n w).sec = s.sec := rfl
@[simp] theorem State.setWarp_power (s : State) (n : Nat) (w : Warp) : (s.setWarp n w).power = s.power := rfl
@[simp] theorem State.setWarp_readout (s : State) (n : Nat) (w : Warp) : (s.setWarp n w).readout = s.readout := rfl
@[simp] theorem State.setWarp_report (s : State) (n : Nat) (w : Warp) : (s.setWarp n w).report = s.report := rfl
@[simp] theorem State.setWarp_fresh (s : State) (n : Nat) (w : Warp) : (s.setWarp n w).fresh = s.fresh := rfl
@[simp] theorem State.setWarp_drawn (s : State) (n : Nat) (w : Warp) : (s.setWarp n w).drawn = s.drawn := rfl

@[simp] theorem State.modWarp_now (s : State) (n : Nat) (f : Warp → Warp) : (s.modWarp n f).now = s.now := rfl
@[simp] theorem State.modWarp_agenda (s : State) (n : Nat) (f : Warp → Warp) : (s.modWarp n f).agenda = s.agenda := rfl
@[simp] theorem State.modWarp_home (s : State) (n : Nat) (f : Warp → Warp) : (s.modWarp n f).home = s.home := rfl
@[simp] theorem State.modWarp_issue (s : State) (n : Nat) (f : Warp → Warp) : (s.modWarp n f).issue = s.issue := rfl
@[simp] theorem State.modWarp_cur (s : State) (n : Nat) (f : Warp → Warp) : (s.modWarp n f).cur = s.cur := rfl
@[simp] theorem State.modWarp_cores (s : State) (n : Nat) (f : Warp → Warp) : (s.modWarp n f).cores = s.cores := rfl
@[simp] theorem State.modWarp_blocks (s : State) (n : Nat) (f : Warp → Warp) : (s.modWarp n f).blocks = s.blocks := rfl
@[simp] theorem State.modWarp_gangs (s : State) (n : Nat) (f : Warp → Warp) : (s.modWarp n f).gangs = s.gangs := rfl
@[simp] theorem State.modWarp_launches (s : State) (n : Nat) (f : Warp → Warp) : (s.modWarp n f).launches = s.launches := rfl
@[simp] theorem State.modWarp_retargets (s : State) (n : Nat) (f : Warp → Warp) : (s.modWarp n f).retargets = s.retargets := rfl
@[simp] theorem State.modWarp_placeTurn (s : State) (n : Nat) (f : Warp → Warp) : (s.modWarp n f).placeTurn = s.placeTurn := rfl
@[simp] theorem State.modWarp_tenants (s : State) (n : Nat) (f : Warp → Warp) : (s.modWarp n f).tenants = s.tenants := rfl
@[simp] theorem State.modWarp_mem (s : State) (n : Nat) (f : Warp → Warp) : (s.modWarp n f).mem = s.mem := rfl
@[simp] theorem State.modWarp_l1 (s : State) (n : Nat) (f : Warp → Warp) : (s.modWarp n f).l1 = s.l1 := rfl
@[simp] theorem State.modWarp_l2 (s : State) (n : Nat) (f : Warp → Warp) : (s.modWarp n f).l2 = s.l2 := rfl
@[simp] theorem State.modWarp_tlb (s : State) (n : Nat) (f : Warp → Warp) : (s.modWarp n f).tlb = s.tlb := rfl
@[simp] theorem State.modWarp_fbufs (s : State) (n : Nat) (f : Warp → Warp) : (s.modWarp n f).fbufs = s.fbufs := rfl
@[simp] theorem State.modWarp_engines (s : State) (n : Nat) (f : Warp → Warp) : (s.modWarp n f).engines = s.engines := rfl
@[simp] theorem State.modWarp_engOps (s : State) (n : Nat) (f : Warp → Warp) : (s.modWarp n f).engOps = s.engOps := rfl
@[simp] theorem State.modWarp_slots (s : State) (n : Nat) (f : Warp → Warp) : (s.modWarp n f).slots = s.slots := rfl
@[simp] theorem State.modWarp_putWins (s : State) (n : Nat) (f : Warp → Warp) : (s.modWarp n f).putWins = s.putWins := rfl
@[simp] theorem State.modWarp_lands (s : State) (n : Nat) (f : Warp → Warp) : (s.modWarp n f).lands = s.lands := rfl
@[simp] theorem State.modWarp_endpoint (s : State) (n : Nat) (f : Warp → Warp) : (s.modWarp n f).endpoint = s.endpoint := rfl
@[simp] theorem State.modWarp_fabResv (s : State) (n : Nat) (f : Warp → Warp) : (s.modWarp n f).fabResv = s.fabResv := rfl
@[simp] theorem State.modWarp_counters (s : State) (n : Nat) (f : Warp → Warp) : (s.modWarp n f).counters = s.counters := rfl
@[simp] theorem State.modWarp_pins (s : State) (n : Nat) (f : Warp → Warp) : (s.modWarp n f).pins = s.pins := rfl
@[simp] theorem State.modWarp_fwds (s : State) (n : Nat) (f : Warp → Warp) : (s.modWarp n f).fwds = s.fwds := rfl
@[simp] theorem State.modWarp_rings (s : State) (n : Nat) (f : Warp → Warp) : (s.modWarp n f).rings = s.rings := rfl
@[simp] theorem State.modWarp_retRing (s : State) (n : Nat) (f : Warp → Warp) : (s.modWarp n f).retRing = s.retRing := rfl
@[simp] theorem State.modWarp_migdecay (s : State) (n : Nat) (f : Warp → Warp) : (s.modWarp n f).migdecay = s.migdecay := rfl
@[simp] theorem State.modWarp_decayFrom (s : State) (n : Nat) (f : Warp → Warp) : (s.modWarp n f).decayFrom = s.decayFrom := rfl
@[simp] theorem State.modWarp_poolPages (s : State) (n : Nat) (f : Warp → Warp) : (s.modWarp n f).poolPages = s.poolPages := rfl
@[simp] theorem State.modWarp_poolCmd (s : State) (n : Nat) (f : Warp → Warp) : (s.modWarp n f).poolCmd = s.poolCmd := rfl
@[simp] theorem State.modWarp_lastBeat (s : State) (n : Nat) (f : Warp → Warp) : (s.modWarp n f).lastBeat = s.lastBeat := rfl
@[simp] theorem State.modWarp_lostModules (s : State) (n : Nat) (f : Warp → Warp) : (s.modWarp n f).lostModules = s.lostModules := rfl
@[simp] theorem State.modWarp_introute (s : State) (n : Nat) (f : Warp → Warp) : (s.modWarp n f).introute = s.introute := rfl
@[simp] theorem State.modWarp_devdrop (s : State) (n : Nat) (f : Warp → Warp) : (s.modWarp n f).devdrop = s.devdrop := rfl
@[simp] theorem State.modWarp_poison (s : State) (n : Nat) (f : Warp → Warp) : (s.modWarp n f).poison = s.poison := rfl
@[simp] theorem State.modWarp_errorLog (s : State) (n : Nat) (f : Warp → Warp) : (s.modWarp n f).errorLog = s.errorLog := rfl
@[simp] theorem State.modWarp_fuseReports (s : State) (n : Nat) (f : Warp → Warp) : (s.modWarp n f).fuseReports = s.fuseReports := rfl
@[simp] theorem State.modWarp_selfTests (s : State) (n : Nat) (f : Warp → Warp) : (s.modWarp n f).selfTests = s.selfTests := rfl
@[simp] theorem State.modWarp_retiredL2 (s : State) (n : Nat) (f : Warp → Warp) : (s.modWarp n f).retiredL2 = s.retiredL2 := rfl
@[simp] theorem State.modWarp_retiredSlices (s : State) (n : Nat) (f : Warp → Warp) : (s.modWarp n f).retiredSlices = s.retiredSlices := rfl
@[simp] theorem State.modWarp_retiringSlices (s : State) (n : Nat) (f : Warp → Warp) : (s.modWarp n f).retiringSlices = s.retiringSlices := rfl
@[simp] theorem State.modWarp_retiredFrames (s : State) (n : Nat) (f : Warp → Warp) : (s.modWarp n f).retiredFrames = s.retiredFrames := rfl
@[simp] theorem State.modWarp_bases (s : State) (n : Nat) (f : Warp → Warp) : (s.modWarp n f).bases = s.bases := rfl
@[simp] theorem State.modWarp_sec (s : State) (n : Nat) (f : Warp → Warp) : (s.modWarp n f).sec = s.sec := rfl
@[simp] theorem State.modWarp_power (s : State) (n : Nat) (f : Warp → Warp) : (s.modWarp n f).power = s.power := rfl
@[simp] theorem State.modWarp_readout (s : State) (n : Nat) (f : Warp → Warp) : (s.modWarp n f).readout = s.readout := rfl
@[simp] theorem State.modWarp_report (s : State) (n : Nat) (f : Warp → Warp) : (s.modWarp n f).report = s.report := rfl
@[simp] theorem State.modWarp_fresh (s : State) (n : Nat) (f : Warp → Warp) : (s.modWarp n f).fresh = s.fresh := rfl
@[simp] theorem State.modWarp_drawn (s : State) (n : Nat) (f : Warp → Warp) : (s.modWarp n f).drawn = s.drawn := rfl

@[simp] theorem State.modThread_now (s : State) (n l : Nat) (f : Thread → Thread) : (s.modThread n l f).now = s.now := rfl
@[simp] theorem State.modThread_agenda (s : State) (n l : Nat) (f : Thread → Thread) : (s.modThread n l f).agenda = s.agenda := rfl
@[simp] theorem State.modThread_home (s : State) (n l : Nat) (f : Thread → Thread) : (s.modThread n l f).home = s.home := rfl
@[simp] theorem State.modThread_issue (s : State) (n l : Nat) (f : Thread → Thread) : (s.modThread n l f).issue = s.issue := rfl
@[simp] theorem State.modThread_cur (s : State) (n l : Nat) (f : Thread → Thread) : (s.modThread n l f).cur = s.cur := rfl
@[simp] theorem State.modThread_cores (s : State) (n l : Nat) (f : Thread → Thread) : (s.modThread n l f).cores = s.cores := rfl
@[simp] theorem State.modThread_blocks (s : State) (n l : Nat) (f : Thread → Thread) : (s.modThread n l f).blocks = s.blocks := rfl
@[simp] theorem State.modThread_gangs (s : State) (n l : Nat) (f : Thread → Thread) : (s.modThread n l f).gangs = s.gangs := rfl
@[simp] theorem State.modThread_launches (s : State) (n l : Nat) (f : Thread → Thread) : (s.modThread n l f).launches = s.launches := rfl
@[simp] theorem State.modThread_retargets (s : State) (n l : Nat) (f : Thread → Thread) : (s.modThread n l f).retargets = s.retargets := rfl
@[simp] theorem State.modThread_placeTurn (s : State) (n l : Nat) (f : Thread → Thread) : (s.modThread n l f).placeTurn = s.placeTurn := rfl
@[simp] theorem State.modThread_tenants (s : State) (n l : Nat) (f : Thread → Thread) : (s.modThread n l f).tenants = s.tenants := rfl
@[simp] theorem State.modThread_mem (s : State) (n l : Nat) (f : Thread → Thread) : (s.modThread n l f).mem = s.mem := rfl
@[simp] theorem State.modThread_l1 (s : State) (n l : Nat) (f : Thread → Thread) : (s.modThread n l f).l1 = s.l1 := rfl
@[simp] theorem State.modThread_l2 (s : State) (n l : Nat) (f : Thread → Thread) : (s.modThread n l f).l2 = s.l2 := rfl
@[simp] theorem State.modThread_tlb (s : State) (n l : Nat) (f : Thread → Thread) : (s.modThread n l f).tlb = s.tlb := rfl
@[simp] theorem State.modThread_fbufs (s : State) (n l : Nat) (f : Thread → Thread) : (s.modThread n l f).fbufs = s.fbufs := rfl
@[simp] theorem State.modThread_engines (s : State) (n l : Nat) (f : Thread → Thread) : (s.modThread n l f).engines = s.engines := rfl
@[simp] theorem State.modThread_engOps (s : State) (n l : Nat) (f : Thread → Thread) : (s.modThread n l f).engOps = s.engOps := rfl
@[simp] theorem State.modThread_slots (s : State) (n l : Nat) (f : Thread → Thread) : (s.modThread n l f).slots = s.slots := rfl
@[simp] theorem State.modThread_putWins (s : State) (n l : Nat) (f : Thread → Thread) : (s.modThread n l f).putWins = s.putWins := rfl
@[simp] theorem State.modThread_lands (s : State) (n l : Nat) (f : Thread → Thread) : (s.modThread n l f).lands = s.lands := rfl
@[simp] theorem State.modThread_endpoint (s : State) (n l : Nat) (f : Thread → Thread) : (s.modThread n l f).endpoint = s.endpoint := rfl
@[simp] theorem State.modThread_fabResv (s : State) (n l : Nat) (f : Thread → Thread) : (s.modThread n l f).fabResv = s.fabResv := rfl
@[simp] theorem State.modThread_counters (s : State) (n l : Nat) (f : Thread → Thread) : (s.modThread n l f).counters = s.counters := rfl
@[simp] theorem State.modThread_pins (s : State) (n l : Nat) (f : Thread → Thread) : (s.modThread n l f).pins = s.pins := rfl
@[simp] theorem State.modThread_fwds (s : State) (n l : Nat) (f : Thread → Thread) : (s.modThread n l f).fwds = s.fwds := rfl
@[simp] theorem State.modThread_rings (s : State) (n l : Nat) (f : Thread → Thread) : (s.modThread n l f).rings = s.rings := rfl
@[simp] theorem State.modThread_retRing (s : State) (n l : Nat) (f : Thread → Thread) : (s.modThread n l f).retRing = s.retRing := rfl
@[simp] theorem State.modThread_migdecay (s : State) (n l : Nat) (f : Thread → Thread) : (s.modThread n l f).migdecay = s.migdecay := rfl
@[simp] theorem State.modThread_decayFrom (s : State) (n l : Nat) (f : Thread → Thread) : (s.modThread n l f).decayFrom = s.decayFrom := rfl
@[simp] theorem State.modThread_poolPages (s : State) (n l : Nat) (f : Thread → Thread) : (s.modThread n l f).poolPages = s.poolPages := rfl
@[simp] theorem State.modThread_poolCmd (s : State) (n l : Nat) (f : Thread → Thread) : (s.modThread n l f).poolCmd = s.poolCmd := rfl
@[simp] theorem State.modThread_lastBeat (s : State) (n l : Nat) (f : Thread → Thread) : (s.modThread n l f).lastBeat = s.lastBeat := rfl
@[simp] theorem State.modThread_lostModules (s : State) (n l : Nat) (f : Thread → Thread) : (s.modThread n l f).lostModules = s.lostModules := rfl
@[simp] theorem State.modThread_introute (s : State) (n l : Nat) (f : Thread → Thread) : (s.modThread n l f).introute = s.introute := rfl
@[simp] theorem State.modThread_devdrop (s : State) (n l : Nat) (f : Thread → Thread) : (s.modThread n l f).devdrop = s.devdrop := rfl
@[simp] theorem State.modThread_poison (s : State) (n l : Nat) (f : Thread → Thread) : (s.modThread n l f).poison = s.poison := rfl
@[simp] theorem State.modThread_errorLog (s : State) (n l : Nat) (f : Thread → Thread) : (s.modThread n l f).errorLog = s.errorLog := rfl
@[simp] theorem State.modThread_fuseReports (s : State) (n l : Nat) (f : Thread → Thread) : (s.modThread n l f).fuseReports = s.fuseReports := rfl
@[simp] theorem State.modThread_selfTests (s : State) (n l : Nat) (f : Thread → Thread) : (s.modThread n l f).selfTests = s.selfTests := rfl
@[simp] theorem State.modThread_retiredL2 (s : State) (n l : Nat) (f : Thread → Thread) : (s.modThread n l f).retiredL2 = s.retiredL2 := rfl
@[simp] theorem State.modThread_retiredSlices (s : State) (n l : Nat) (f : Thread → Thread) : (s.modThread n l f).retiredSlices = s.retiredSlices := rfl
@[simp] theorem State.modThread_retiringSlices (s : State) (n l : Nat) (f : Thread → Thread) : (s.modThread n l f).retiringSlices = s.retiringSlices := rfl
@[simp] theorem State.modThread_retiredFrames (s : State) (n l : Nat) (f : Thread → Thread) : (s.modThread n l f).retiredFrames = s.retiredFrames := rfl
@[simp] theorem State.modThread_bases (s : State) (n l : Nat) (f : Thread → Thread) : (s.modThread n l f).bases = s.bases := rfl
@[simp] theorem State.modThread_sec (s : State) (n l : Nat) (f : Thread → Thread) : (s.modThread n l f).sec = s.sec := rfl
@[simp] theorem State.modThread_power (s : State) (n l : Nat) (f : Thread → Thread) : (s.modThread n l f).power = s.power := rfl
@[simp] theorem State.modThread_readout (s : State) (n l : Nat) (f : Thread → Thread) : (s.modThread n l f).readout = s.readout := rfl
@[simp] theorem State.modThread_report (s : State) (n l : Nat) (f : Thread → Thread) : (s.modThread n l f).report = s.report := rfl
@[simp] theorem State.modThread_fresh (s : State) (n l : Nat) (f : Thread → Thread) : (s.modThread n l f).fresh = s.fresh := rfl
@[simp] theorem State.modThread_drawn (s : State) (n l : Nat) (f : Thread → Thread) : (s.modThread n l f).drawn = s.drawn := rfl

@[simp] theorem State.modCore_now (s : State) (n : Nat) (f : Core → Core) : (s.modCore n f).now = s.now := rfl
@[simp] theorem State.modCore_agenda (s : State) (n : Nat) (f : Core → Core) : (s.modCore n f).agenda = s.agenda := rfl
@[simp] theorem State.modCore_home (s : State) (n : Nat) (f : Core → Core) : (s.modCore n f).home = s.home := rfl
@[simp] theorem State.modCore_issue (s : State) (n : Nat) (f : Core → Core) : (s.modCore n f).issue = s.issue := rfl
@[simp] theorem State.modCore_cur (s : State) (n : Nat) (f : Core → Core) : (s.modCore n f).cur = s.cur := rfl
@[simp] theorem State.modCore_warps (s : State) (n : Nat) (f : Core → Core) : (s.modCore n f).warps = s.warps := rfl
@[simp] theorem State.modCore_blocks (s : State) (n : Nat) (f : Core → Core) : (s.modCore n f).blocks = s.blocks := rfl
@[simp] theorem State.modCore_gangs (s : State) (n : Nat) (f : Core → Core) : (s.modCore n f).gangs = s.gangs := rfl
@[simp] theorem State.modCore_launches (s : State) (n : Nat) (f : Core → Core) : (s.modCore n f).launches = s.launches := rfl
@[simp] theorem State.modCore_retargets (s : State) (n : Nat) (f : Core → Core) : (s.modCore n f).retargets = s.retargets := rfl
@[simp] theorem State.modCore_placeTurn (s : State) (n : Nat) (f : Core → Core) : (s.modCore n f).placeTurn = s.placeTurn := rfl
@[simp] theorem State.modCore_tenants (s : State) (n : Nat) (f : Core → Core) : (s.modCore n f).tenants = s.tenants := rfl
@[simp] theorem State.modCore_mem (s : State) (n : Nat) (f : Core → Core) : (s.modCore n f).mem = s.mem := rfl
@[simp] theorem State.modCore_l1 (s : State) (n : Nat) (f : Core → Core) : (s.modCore n f).l1 = s.l1 := rfl
@[simp] theorem State.modCore_l2 (s : State) (n : Nat) (f : Core → Core) : (s.modCore n f).l2 = s.l2 := rfl
@[simp] theorem State.modCore_tlb (s : State) (n : Nat) (f : Core → Core) : (s.modCore n f).tlb = s.tlb := rfl
@[simp] theorem State.modCore_fbufs (s : State) (n : Nat) (f : Core → Core) : (s.modCore n f).fbufs = s.fbufs := rfl
@[simp] theorem State.modCore_engines (s : State) (n : Nat) (f : Core → Core) : (s.modCore n f).engines = s.engines := rfl
@[simp] theorem State.modCore_engOps (s : State) (n : Nat) (f : Core → Core) : (s.modCore n f).engOps = s.engOps := rfl
@[simp] theorem State.modCore_slots (s : State) (n : Nat) (f : Core → Core) : (s.modCore n f).slots = s.slots := rfl
@[simp] theorem State.modCore_putWins (s : State) (n : Nat) (f : Core → Core) : (s.modCore n f).putWins = s.putWins := rfl
@[simp] theorem State.modCore_lands (s : State) (n : Nat) (f : Core → Core) : (s.modCore n f).lands = s.lands := rfl
@[simp] theorem State.modCore_endpoint (s : State) (n : Nat) (f : Core → Core) : (s.modCore n f).endpoint = s.endpoint := rfl
@[simp] theorem State.modCore_fabResv (s : State) (n : Nat) (f : Core → Core) : (s.modCore n f).fabResv = s.fabResv := rfl
@[simp] theorem State.modCore_counters (s : State) (n : Nat) (f : Core → Core) : (s.modCore n f).counters = s.counters := rfl
@[simp] theorem State.modCore_pins (s : State) (n : Nat) (f : Core → Core) : (s.modCore n f).pins = s.pins := rfl
@[simp] theorem State.modCore_fwds (s : State) (n : Nat) (f : Core → Core) : (s.modCore n f).fwds = s.fwds := rfl
@[simp] theorem State.modCore_rings (s : State) (n : Nat) (f : Core → Core) : (s.modCore n f).rings = s.rings := rfl
@[simp] theorem State.modCore_retRing (s : State) (n : Nat) (f : Core → Core) : (s.modCore n f).retRing = s.retRing := rfl
@[simp] theorem State.modCore_migdecay (s : State) (n : Nat) (f : Core → Core) : (s.modCore n f).migdecay = s.migdecay := rfl
@[simp] theorem State.modCore_decayFrom (s : State) (n : Nat) (f : Core → Core) : (s.modCore n f).decayFrom = s.decayFrom := rfl
@[simp] theorem State.modCore_poolPages (s : State) (n : Nat) (f : Core → Core) : (s.modCore n f).poolPages = s.poolPages := rfl
@[simp] theorem State.modCore_poolCmd (s : State) (n : Nat) (f : Core → Core) : (s.modCore n f).poolCmd = s.poolCmd := rfl
@[simp] theorem State.modCore_lastBeat (s : State) (n : Nat) (f : Core → Core) : (s.modCore n f).lastBeat = s.lastBeat := rfl
@[simp] theorem State.modCore_lostModules (s : State) (n : Nat) (f : Core → Core) : (s.modCore n f).lostModules = s.lostModules := rfl
@[simp] theorem State.modCore_introute (s : State) (n : Nat) (f : Core → Core) : (s.modCore n f).introute = s.introute := rfl
@[simp] theorem State.modCore_devdrop (s : State) (n : Nat) (f : Core → Core) : (s.modCore n f).devdrop = s.devdrop := rfl
@[simp] theorem State.modCore_poison (s : State) (n : Nat) (f : Core → Core) : (s.modCore n f).poison = s.poison := rfl
@[simp] theorem State.modCore_errorLog (s : State) (n : Nat) (f : Core → Core) : (s.modCore n f).errorLog = s.errorLog := rfl
@[simp] theorem State.modCore_fuseReports (s : State) (n : Nat) (f : Core → Core) : (s.modCore n f).fuseReports = s.fuseReports := rfl
@[simp] theorem State.modCore_selfTests (s : State) (n : Nat) (f : Core → Core) : (s.modCore n f).selfTests = s.selfTests := rfl
@[simp] theorem State.modCore_retiredL2 (s : State) (n : Nat) (f : Core → Core) : (s.modCore n f).retiredL2 = s.retiredL2 := rfl
@[simp] theorem State.modCore_retiredSlices (s : State) (n : Nat) (f : Core → Core) : (s.modCore n f).retiredSlices = s.retiredSlices := rfl
@[simp] theorem State.modCore_retiringSlices (s : State) (n : Nat) (f : Core → Core) : (s.modCore n f).retiringSlices = s.retiringSlices := rfl
@[simp] theorem State.modCore_retiredFrames (s : State) (n : Nat) (f : Core → Core) : (s.modCore n f).retiredFrames = s.retiredFrames := rfl
@[simp] theorem State.modCore_bases (s : State) (n : Nat) (f : Core → Core) : (s.modCore n f).bases = s.bases := rfl
@[simp] theorem State.modCore_sec (s : State) (n : Nat) (f : Core → Core) : (s.modCore n f).sec = s.sec := rfl
@[simp] theorem State.modCore_power (s : State) (n : Nat) (f : Core → Core) : (s.modCore n f).power = s.power := rfl
@[simp] theorem State.modCore_readout (s : State) (n : Nat) (f : Core → Core) : (s.modCore n f).readout = s.readout := rfl
@[simp] theorem State.modCore_report (s : State) (n : Nat) (f : Core → Core) : (s.modCore n f).report = s.report := rfl
@[simp] theorem State.modCore_fresh (s : State) (n : Nat) (f : Core → Core) : (s.modCore n f).fresh = s.fresh := rfl
@[simp] theorem State.modCore_drawn (s : State) (n : Nat) (f : Core → Core) : (s.modCore n f).drawn = s.drawn := rfl

@[simp] theorem State.modTenant_now (s : State) (n : Nat) (f : Tenant → Tenant) : (s.modTenant n f).now = s.now := rfl
@[simp] theorem State.modTenant_agenda (s : State) (n : Nat) (f : Tenant → Tenant) : (s.modTenant n f).agenda = s.agenda := rfl
@[simp] theorem State.modTenant_home (s : State) (n : Nat) (f : Tenant → Tenant) : (s.modTenant n f).home = s.home := rfl
@[simp] theorem State.modTenant_issue (s : State) (n : Nat) (f : Tenant → Tenant) : (s.modTenant n f).issue = s.issue := rfl
@[simp] theorem State.modTenant_cur (s : State) (n : Nat) (f : Tenant → Tenant) : (s.modTenant n f).cur = s.cur := rfl
@[simp] theorem State.modTenant_warps (s : State) (n : Nat) (f : Tenant → Tenant) : (s.modTenant n f).warps = s.warps := rfl
@[simp] theorem State.modTenant_cores (s : State) (n : Nat) (f : Tenant → Tenant) : (s.modTenant n f).cores = s.cores := rfl
@[simp] theorem State.modTenant_blocks (s : State) (n : Nat) (f : Tenant → Tenant) : (s.modTenant n f).blocks = s.blocks := rfl
@[simp] theorem State.modTenant_gangs (s : State) (n : Nat) (f : Tenant → Tenant) : (s.modTenant n f).gangs = s.gangs := rfl
@[simp] theorem State.modTenant_launches (s : State) (n : Nat) (f : Tenant → Tenant) : (s.modTenant n f).launches = s.launches := rfl
@[simp] theorem State.modTenant_retargets (s : State) (n : Nat) (f : Tenant → Tenant) : (s.modTenant n f).retargets = s.retargets := rfl
@[simp] theorem State.modTenant_placeTurn (s : State) (n : Nat) (f : Tenant → Tenant) : (s.modTenant n f).placeTurn = s.placeTurn := rfl
@[simp] theorem State.modTenant_mem (s : State) (n : Nat) (f : Tenant → Tenant) : (s.modTenant n f).mem = s.mem := rfl
@[simp] theorem State.modTenant_l1 (s : State) (n : Nat) (f : Tenant → Tenant) : (s.modTenant n f).l1 = s.l1 := rfl
@[simp] theorem State.modTenant_l2 (s : State) (n : Nat) (f : Tenant → Tenant) : (s.modTenant n f).l2 = s.l2 := rfl
@[simp] theorem State.modTenant_tlb (s : State) (n : Nat) (f : Tenant → Tenant) : (s.modTenant n f).tlb = s.tlb := rfl
@[simp] theorem State.modTenant_fbufs (s : State) (n : Nat) (f : Tenant → Tenant) : (s.modTenant n f).fbufs = s.fbufs := rfl
@[simp] theorem State.modTenant_engines (s : State) (n : Nat) (f : Tenant → Tenant) : (s.modTenant n f).engines = s.engines := rfl
@[simp] theorem State.modTenant_engOps (s : State) (n : Nat) (f : Tenant → Tenant) : (s.modTenant n f).engOps = s.engOps := rfl
@[simp] theorem State.modTenant_slots (s : State) (n : Nat) (f : Tenant → Tenant) : (s.modTenant n f).slots = s.slots := rfl
@[simp] theorem State.modTenant_putWins (s : State) (n : Nat) (f : Tenant → Tenant) : (s.modTenant n f).putWins = s.putWins := rfl
@[simp] theorem State.modTenant_lands (s : State) (n : Nat) (f : Tenant → Tenant) : (s.modTenant n f).lands = s.lands := rfl
@[simp] theorem State.modTenant_endpoint (s : State) (n : Nat) (f : Tenant → Tenant) : (s.modTenant n f).endpoint = s.endpoint := rfl
@[simp] theorem State.modTenant_fabResv (s : State) (n : Nat) (f : Tenant → Tenant) : (s.modTenant n f).fabResv = s.fabResv := rfl
@[simp] theorem State.modTenant_counters (s : State) (n : Nat) (f : Tenant → Tenant) : (s.modTenant n f).counters = s.counters := rfl
@[simp] theorem State.modTenant_pins (s : State) (n : Nat) (f : Tenant → Tenant) : (s.modTenant n f).pins = s.pins := rfl
@[simp] theorem State.modTenant_fwds (s : State) (n : Nat) (f : Tenant → Tenant) : (s.modTenant n f).fwds = s.fwds := rfl
@[simp] theorem State.modTenant_rings (s : State) (n : Nat) (f : Tenant → Tenant) : (s.modTenant n f).rings = s.rings := rfl
@[simp] theorem State.modTenant_retRing (s : State) (n : Nat) (f : Tenant → Tenant) : (s.modTenant n f).retRing = s.retRing := rfl
@[simp] theorem State.modTenant_migdecay (s : State) (n : Nat) (f : Tenant → Tenant) : (s.modTenant n f).migdecay = s.migdecay := rfl
@[simp] theorem State.modTenant_decayFrom (s : State) (n : Nat) (f : Tenant → Tenant) : (s.modTenant n f).decayFrom = s.decayFrom := rfl
@[simp] theorem State.modTenant_poolPages (s : State) (n : Nat) (f : Tenant → Tenant) : (s.modTenant n f).poolPages = s.poolPages := rfl
@[simp] theorem State.modTenant_poolCmd (s : State) (n : Nat) (f : Tenant → Tenant) : (s.modTenant n f).poolCmd = s.poolCmd := rfl
@[simp] theorem State.modTenant_lastBeat (s : State) (n : Nat) (f : Tenant → Tenant) : (s.modTenant n f).lastBeat = s.lastBeat := rfl
@[simp] theorem State.modTenant_lostModules (s : State) (n : Nat) (f : Tenant → Tenant) : (s.modTenant n f).lostModules = s.lostModules := rfl
@[simp] theorem State.modTenant_introute (s : State) (n : Nat) (f : Tenant → Tenant) : (s.modTenant n f).introute = s.introute := rfl
@[simp] theorem State.modTenant_devdrop (s : State) (n : Nat) (f : Tenant → Tenant) : (s.modTenant n f).devdrop = s.devdrop := rfl
@[simp] theorem State.modTenant_poison (s : State) (n : Nat) (f : Tenant → Tenant) : (s.modTenant n f).poison = s.poison := rfl
@[simp] theorem State.modTenant_errorLog (s : State) (n : Nat) (f : Tenant → Tenant) : (s.modTenant n f).errorLog = s.errorLog := rfl
@[simp] theorem State.modTenant_fuseReports (s : State) (n : Nat) (f : Tenant → Tenant) : (s.modTenant n f).fuseReports = s.fuseReports := rfl
@[simp] theorem State.modTenant_selfTests (s : State) (n : Nat) (f : Tenant → Tenant) : (s.modTenant n f).selfTests = s.selfTests := rfl
@[simp] theorem State.modTenant_retiredL2 (s : State) (n : Nat) (f : Tenant → Tenant) : (s.modTenant n f).retiredL2 = s.retiredL2 := rfl
@[simp] theorem State.modTenant_retiredSlices (s : State) (n : Nat) (f : Tenant → Tenant) : (s.modTenant n f).retiredSlices = s.retiredSlices := rfl
@[simp] theorem State.modTenant_retiringSlices (s : State) (n : Nat) (f : Tenant → Tenant) : (s.modTenant n f).retiringSlices = s.retiringSlices := rfl
@[simp] theorem State.modTenant_retiredFrames (s : State) (n : Nat) (f : Tenant → Tenant) : (s.modTenant n f).retiredFrames = s.retiredFrames := rfl
@[simp] theorem State.modTenant_bases (s : State) (n : Nat) (f : Tenant → Tenant) : (s.modTenant n f).bases = s.bases := rfl
@[simp] theorem State.modTenant_sec (s : State) (n : Nat) (f : Tenant → Tenant) : (s.modTenant n f).sec = s.sec := rfl
@[simp] theorem State.modTenant_power (s : State) (n : Nat) (f : Tenant → Tenant) : (s.modTenant n f).power = s.power := rfl
@[simp] theorem State.modTenant_readout (s : State) (n : Nat) (f : Tenant → Tenant) : (s.modTenant n f).readout = s.readout := rfl
@[simp] theorem State.modTenant_report (s : State) (n : Nat) (f : Tenant → Tenant) : (s.modTenant n f).report = s.report := rfl
@[simp] theorem State.modTenant_fresh (s : State) (n : Nat) (f : Tenant → Tenant) : (s.modTenant n f).fresh = s.fresh := rfl
@[simp] theorem State.modTenant_drawn (s : State) (n : Nat) (f : Tenant → Tenant) : (s.modTenant n f).drawn = s.drawn := rfl

@[simp] theorem State.draw_now (s : State) : (s.draw).now = s.now := rfl
@[simp] theorem State.draw_agenda (s : State) : (s.draw).agenda = s.agenda := rfl
@[simp] theorem State.draw_home (s : State) : (s.draw).home = s.home := rfl
@[simp] theorem State.draw_issue (s : State) : (s.draw).issue = s.issue := rfl
@[simp] theorem State.draw_cur (s : State) : (s.draw).cur = s.cur := rfl
@[simp] theorem State.draw_warps (s : State) : (s.draw).warps = s.warps := rfl
@[simp] theorem State.draw_cores (s : State) : (s.draw).cores = s.cores := rfl
@[simp] theorem State.draw_blocks (s : State) : (s.draw).blocks = s.blocks := rfl
@[simp] theorem State.draw_gangs (s : State) : (s.draw).gangs = s.gangs := rfl
@[simp] theorem State.draw_launches (s : State) : (s.draw).launches = s.launches := rfl
@[simp] theorem State.draw_retargets (s : State) : (s.draw).retargets = s.retargets := rfl
@[simp] theorem State.draw_placeTurn (s : State) : (s.draw).placeTurn = s.placeTurn := rfl
@[simp] theorem State.draw_tenants (s : State) : (s.draw).tenants = s.tenants := rfl
@[simp] theorem State.draw_mem (s : State) : (s.draw).mem = s.mem := rfl
@[simp] theorem State.draw_l1 (s : State) : (s.draw).l1 = s.l1 := rfl
@[simp] theorem State.draw_l2 (s : State) : (s.draw).l2 = s.l2 := rfl
@[simp] theorem State.draw_tlb (s : State) : (s.draw).tlb = s.tlb := rfl
@[simp] theorem State.draw_fbufs (s : State) : (s.draw).fbufs = s.fbufs := rfl
@[simp] theorem State.draw_engines (s : State) : (s.draw).engines = s.engines := rfl
@[simp] theorem State.draw_engOps (s : State) : (s.draw).engOps = s.engOps := rfl
@[simp] theorem State.draw_slots (s : State) : (s.draw).slots = s.slots := rfl
@[simp] theorem State.draw_putWins (s : State) : (s.draw).putWins = s.putWins := rfl
@[simp] theorem State.draw_lands (s : State) : (s.draw).lands = s.lands := rfl
@[simp] theorem State.draw_endpoint (s : State) : (s.draw).endpoint = s.endpoint := rfl
@[simp] theorem State.draw_fabResv (s : State) : (s.draw).fabResv = s.fabResv := rfl
@[simp] theorem State.draw_counters (s : State) : (s.draw).counters = s.counters := rfl
@[simp] theorem State.draw_pins (s : State) : (s.draw).pins = s.pins := rfl
@[simp] theorem State.draw_fwds (s : State) : (s.draw).fwds = s.fwds := rfl
@[simp] theorem State.draw_rings (s : State) : (s.draw).rings = s.rings := rfl
@[simp] theorem State.draw_retRing (s : State) : (s.draw).retRing = s.retRing := rfl
@[simp] theorem State.draw_migdecay (s : State) : (s.draw).migdecay = s.migdecay := rfl
@[simp] theorem State.draw_decayFrom (s : State) : (s.draw).decayFrom = s.decayFrom := rfl
@[simp] theorem State.draw_poolPages (s : State) : (s.draw).poolPages = s.poolPages := rfl
@[simp] theorem State.draw_poolCmd (s : State) : (s.draw).poolCmd = s.poolCmd := rfl
@[simp] theorem State.draw_lastBeat (s : State) : (s.draw).lastBeat = s.lastBeat := rfl
@[simp] theorem State.draw_lostModules (s : State) : (s.draw).lostModules = s.lostModules := rfl
@[simp] theorem State.draw_introute (s : State) : (s.draw).introute = s.introute := rfl
@[simp] theorem State.draw_devdrop (s : State) : (s.draw).devdrop = s.devdrop := rfl
@[simp] theorem State.draw_poison (s : State) : (s.draw).poison = s.poison := rfl
@[simp] theorem State.draw_errorLog (s : State) : (s.draw).errorLog = s.errorLog := rfl
@[simp] theorem State.draw_fuseReports (s : State) : (s.draw).fuseReports = s.fuseReports := rfl
@[simp] theorem State.draw_selfTests (s : State) : (s.draw).selfTests = s.selfTests := rfl
@[simp] theorem State.draw_retiredL2 (s : State) : (s.draw).retiredL2 = s.retiredL2 := rfl
@[simp] theorem State.draw_retiredSlices (s : State) : (s.draw).retiredSlices = s.retiredSlices := rfl
@[simp] theorem State.draw_retiringSlices (s : State) : (s.draw).retiringSlices = s.retiringSlices := rfl
@[simp] theorem State.draw_retiredFrames (s : State) : (s.draw).retiredFrames = s.retiredFrames := rfl
@[simp] theorem State.draw_bases (s : State) : (s.draw).bases = s.bases := rfl
@[simp] theorem State.draw_sec (s : State) : (s.draw).sec = s.sec := rfl
@[simp] theorem State.draw_power (s : State) : (s.draw).power = s.power := rfl
@[simp] theorem State.draw_readout (s : State) : (s.draw).readout = s.readout := rfl
@[simp] theorem State.draw_report (s : State) : (s.draw).report = s.report := rfl
@[simp] theorem State.draw_fresh (s : State) : (s.draw).fresh = s.fresh := rfl

@[simp] theorem State.bump_now (s : State) : (s.bump).now = s.now := rfl
@[simp] theorem State.bump_agenda (s : State) : (s.bump).agenda = s.agenda := rfl
@[simp] theorem State.bump_home (s : State) : (s.bump).home = s.home := rfl
@[simp] theorem State.bump_issue (s : State) : (s.bump).issue = s.issue := rfl
@[simp] theorem State.bump_cur (s : State) : (s.bump).cur = s.cur := rfl
@[simp] theorem State.bump_warps (s : State) : (s.bump).warps = s.warps := rfl
@[simp] theorem State.bump_cores (s : State) : (s.bump).cores = s.cores := rfl
@[simp] theorem State.bump_blocks (s : State) : (s.bump).blocks = s.blocks := rfl
@[simp] theorem State.bump_gangs (s : State) : (s.bump).gangs = s.gangs := rfl
@[simp] theorem State.bump_launches (s : State) : (s.bump).launches = s.launches := rfl
@[simp] theorem State.bump_retargets (s : State) : (s.bump).retargets = s.retargets := rfl
@[simp] theorem State.bump_placeTurn (s : State) : (s.bump).placeTurn = s.placeTurn := rfl
@[simp] theorem State.bump_tenants (s : State) : (s.bump).tenants = s.tenants := rfl
@[simp] theorem State.bump_mem (s : State) : (s.bump).mem = s.mem := rfl
@[simp] theorem State.bump_l1 (s : State) : (s.bump).l1 = s.l1 := rfl
@[simp] theorem State.bump_l2 (s : State) : (s.bump).l2 = s.l2 := rfl
@[simp] theorem State.bump_tlb (s : State) : (s.bump).tlb = s.tlb := rfl
@[simp] theorem State.bump_fbufs (s : State) : (s.bump).fbufs = s.fbufs := rfl
@[simp] theorem State.bump_engines (s : State) : (s.bump).engines = s.engines := rfl
@[simp] theorem State.bump_engOps (s : State) : (s.bump).engOps = s.engOps := rfl
@[simp] theorem State.bump_slots (s : State) : (s.bump).slots = s.slots := rfl
@[simp] theorem State.bump_putWins (s : State) : (s.bump).putWins = s.putWins := rfl
@[simp] theorem State.bump_lands (s : State) : (s.bump).lands = s.lands := rfl
@[simp] theorem State.bump_endpoint (s : State) : (s.bump).endpoint = s.endpoint := rfl
@[simp] theorem State.bump_fabResv (s : State) : (s.bump).fabResv = s.fabResv := rfl
@[simp] theorem State.bump_counters (s : State) : (s.bump).counters = s.counters := rfl
@[simp] theorem State.bump_pins (s : State) : (s.bump).pins = s.pins := rfl
@[simp] theorem State.bump_fwds (s : State) : (s.bump).fwds = s.fwds := rfl
@[simp] theorem State.bump_rings (s : State) : (s.bump).rings = s.rings := rfl
@[simp] theorem State.bump_retRing (s : State) : (s.bump).retRing = s.retRing := rfl
@[simp] theorem State.bump_migdecay (s : State) : (s.bump).migdecay = s.migdecay := rfl
@[simp] theorem State.bump_decayFrom (s : State) : (s.bump).decayFrom = s.decayFrom := rfl
@[simp] theorem State.bump_poolPages (s : State) : (s.bump).poolPages = s.poolPages := rfl
@[simp] theorem State.bump_poolCmd (s : State) : (s.bump).poolCmd = s.poolCmd := rfl
@[simp] theorem State.bump_lastBeat (s : State) : (s.bump).lastBeat = s.lastBeat := rfl
@[simp] theorem State.bump_lostModules (s : State) : (s.bump).lostModules = s.lostModules := rfl
@[simp] theorem State.bump_introute (s : State) : (s.bump).introute = s.introute := rfl
@[simp] theorem State.bump_devdrop (s : State) : (s.bump).devdrop = s.devdrop := rfl
@[simp] theorem State.bump_poison (s : State) : (s.bump).poison = s.poison := rfl
@[simp] theorem State.bump_errorLog (s : State) : (s.bump).errorLog = s.errorLog := rfl
@[simp] theorem State.bump_fuseReports (s : State) : (s.bump).fuseReports = s.fuseReports := rfl
@[simp] theorem State.bump_selfTests (s : State) : (s.bump).selfTests = s.selfTests := rfl
@[simp] theorem State.bump_retiredL2 (s : State) : (s.bump).retiredL2 = s.retiredL2 := rfl
@[simp] theorem State.bump_retiredSlices (s : State) : (s.bump).retiredSlices = s.retiredSlices := rfl
@[simp] theorem State.bump_retiringSlices (s : State) : (s.bump).retiringSlices = s.retiringSlices := rfl
@[simp] theorem State.bump_retiredFrames (s : State) : (s.bump).retiredFrames = s.retiredFrames := rfl
@[simp] theorem State.bump_bases (s : State) : (s.bump).bases = s.bases := rfl
@[simp] theorem State.bump_sec (s : State) : (s.bump).sec = s.sec := rfl
@[simp] theorem State.bump_power (s : State) : (s.bump).power = s.power := rfl
@[simp] theorem State.bump_readout (s : State) : (s.bump).readout = s.readout := rfl
@[simp] theorem State.bump_report (s : State) : (s.bump).report = s.report := rfl
@[simp] theorem State.bump_drawn (s : State) : (s.bump).drawn = s.drawn := rfl

@[simp] theorem State.touchIdle_now (s : State) : (s.touchIdle).now = s.now := rfl
@[simp] theorem State.touchIdle_agenda (s : State) : (s.touchIdle).agenda = s.agenda := rfl
@[simp] theorem State.touchIdle_home (s : State) : (s.touchIdle).home = s.home := rfl
@[simp] theorem State.touchIdle_issue (s : State) : (s.touchIdle).issue = s.issue := rfl
@[simp] theorem State.touchIdle_cur (s : State) : (s.touchIdle).cur = s.cur := rfl
@[simp] theorem State.touchIdle_warps (s : State) : (s.touchIdle).warps = s.warps := rfl
@[simp] theorem State.touchIdle_cores (s : State) : (s.touchIdle).cores = s.cores := rfl
@[simp] theorem State.touchIdle_blocks (s : State) : (s.touchIdle).blocks = s.blocks := rfl
@[simp] theorem State.touchIdle_gangs (s : State) : (s.touchIdle).gangs = s.gangs := rfl
@[simp] theorem State.touchIdle_launches (s : State) : (s.touchIdle).launches = s.launches := rfl
@[simp] theorem State.touchIdle_retargets (s : State) : (s.touchIdle).retargets = s.retargets := rfl
@[simp] theorem State.touchIdle_placeTurn (s : State) : (s.touchIdle).placeTurn = s.placeTurn := rfl
@[simp] theorem State.touchIdle_tenants (s : State) : (s.touchIdle).tenants = s.tenants := rfl
@[simp] theorem State.touchIdle_mem (s : State) : (s.touchIdle).mem = s.mem := rfl
@[simp] theorem State.touchIdle_l1 (s : State) : (s.touchIdle).l1 = s.l1 := rfl
@[simp] theorem State.touchIdle_l2 (s : State) : (s.touchIdle).l2 = s.l2 := rfl
@[simp] theorem State.touchIdle_tlb (s : State) : (s.touchIdle).tlb = s.tlb := rfl
@[simp] theorem State.touchIdle_fbufs (s : State) : (s.touchIdle).fbufs = s.fbufs := rfl
@[simp] theorem State.touchIdle_engines (s : State) : (s.touchIdle).engines = s.engines := rfl
@[simp] theorem State.touchIdle_engOps (s : State) : (s.touchIdle).engOps = s.engOps := rfl
@[simp] theorem State.touchIdle_slots (s : State) : (s.touchIdle).slots = s.slots := rfl
@[simp] theorem State.touchIdle_putWins (s : State) : (s.touchIdle).putWins = s.putWins := rfl
@[simp] theorem State.touchIdle_lands (s : State) : (s.touchIdle).lands = s.lands := rfl
@[simp] theorem State.touchIdle_endpoint (s : State) : (s.touchIdle).endpoint = s.endpoint := rfl
@[simp] theorem State.touchIdle_fabResv (s : State) : (s.touchIdle).fabResv = s.fabResv := rfl
@[simp] theorem State.touchIdle_counters (s : State) : (s.touchIdle).counters = s.counters := rfl
@[simp] theorem State.touchIdle_pins (s : State) : (s.touchIdle).pins = s.pins := rfl
@[simp] theorem State.touchIdle_fwds (s : State) : (s.touchIdle).fwds = s.fwds := rfl
@[simp] theorem State.touchIdle_rings (s : State) : (s.touchIdle).rings = s.rings := rfl
@[simp] theorem State.touchIdle_retRing (s : State) : (s.touchIdle).retRing = s.retRing := rfl
@[simp] theorem State.touchIdle_migdecay (s : State) : (s.touchIdle).migdecay = s.migdecay := rfl
@[simp] theorem State.touchIdle_decayFrom (s : State) : (s.touchIdle).decayFrom = s.decayFrom := rfl
@[simp] theorem State.touchIdle_poolPages (s : State) : (s.touchIdle).poolPages = s.poolPages := rfl
@[simp] theorem State.touchIdle_poolCmd (s : State) : (s.touchIdle).poolCmd = s.poolCmd := rfl
@[simp] theorem State.touchIdle_lastBeat (s : State) : (s.touchIdle).lastBeat = s.lastBeat := rfl
@[simp] theorem State.touchIdle_lostModules (s : State) : (s.touchIdle).lostModules = s.lostModules := rfl
@[simp] theorem State.touchIdle_introute (s : State) : (s.touchIdle).introute = s.introute := rfl
@[simp] theorem State.touchIdle_devdrop (s : State) : (s.touchIdle).devdrop = s.devdrop := rfl
@[simp] theorem State.touchIdle_poison (s : State) : (s.touchIdle).poison = s.poison := rfl
@[simp] theorem State.touchIdle_errorLog (s : State) : (s.touchIdle).errorLog = s.errorLog := rfl
@[simp] theorem State.touchIdle_fuseReports (s : State) : (s.touchIdle).fuseReports = s.fuseReports := rfl
@[simp] theorem State.touchIdle_selfTests (s : State) : (s.touchIdle).selfTests = s.selfTests := rfl
@[simp] theorem State.touchIdle_retiredL2 (s : State) : (s.touchIdle).retiredL2 = s.retiredL2 := rfl
@[simp] theorem State.touchIdle_retiredSlices (s : State) : (s.touchIdle).retiredSlices = s.retiredSlices := rfl
@[simp] theorem State.touchIdle_retiringSlices (s : State) : (s.touchIdle).retiringSlices = s.retiringSlices := rfl
@[simp] theorem State.touchIdle_retiredFrames (s : State) : (s.touchIdle).retiredFrames = s.retiredFrames := rfl
@[simp] theorem State.touchIdle_bases (s : State) : (s.touchIdle).bases = s.bases := rfl
@[simp] theorem State.touchIdle_sec (s : State) : (s.touchIdle).sec = s.sec := rfl
@[simp] theorem State.touchIdle_readout (s : State) : (s.touchIdle).readout = s.readout := rfl
@[simp] theorem State.touchIdle_report (s : State) : (s.touchIdle).report = s.report := rfl
@[simp] theorem State.touchIdle_fresh (s : State) : (s.touchIdle).fresh = s.fresh := rfl
@[simp] theorem State.touchIdle_drawn (s : State) : (s.touchIdle).drawn = s.drawn := rfl


@[simp] theorem State.warp_setWarp (s : State) (n : Nat) (w : Warp) : (s.setWarp n w).warp n = w := by
  simp [State.warp, State.setWarp]

@[simp] theorem State.warp_setWarp_other (s : State) {n m : Nat} (w : Warp) (h : m ≠ n) :
    (s.setWarp n w).warp m = s.warp m := by simp [State.warp, State.setWarp, h]

@[simp] theorem State.warp_modWarp (s : State) (n : Nat) (f : Warp → Warp) : (s.modWarp n f).warp n = f (s.warp n) := by
  simp [State.modWarp]

@[simp] theorem State.warp_modWarp_other (s : State) {n m : Nat} (f : Warp → Warp) (h : m ≠ n) :
    (s.modWarp n f).warp m = s.warp m := by simp [State.modWarp, h]

@[simp] theorem State.warp_modThread_other (s : State) {n m : Nat} (l : Nat) (f : Thread → Thread) (h : m ≠ n) :
    (s.modThread n l f).warp m = s.warp m := by simp [State.modThread, h]

theorem State.warp_modThread (s : State) (n l : Nat) (f : Thread → Thread) :
    (s.modThread n l f).warp n = { s.warp n with threads := lmod (s.warp n).threads l f } := by simp [State.modThread]

theorem State.thread_modThread (s : State) (n l : Nat) (f : Thread → Thread) (h : l < (s.warp n).threads.length) :
    (s.modThread n l f).thread n l = f (s.thread n l) := by
  simp [State.thread, State.warp_modThread, getElem?_lmod, List.getElem?_eq_getElem h]

@[simp] theorem State.thread_modThread_lane (s : State) (n : Nat) {l m : Nat} (f : Thread → Thread) (h : m ≠ l) :
    (s.modThread n l f).thread n m = s.thread n m := by simp [State.thread, State.warp_modThread, getElem?_lmod, h]

@[simp] theorem State.thread_modThread_warp (s : State) {n k : Nat} (l m : Nat) (f : Thread → Thread) (h : k ≠ n) :
    (s.modThread n l f).thread k m = s.thread k m := by simp [State.thread, h]

@[simp] theorem State.core_setWarp (s : State) (n c : Nat) (w : Warp) : (s.setWarp n w).core c = s.core c := rfl
@[simp] theorem State.core_modWarp (s : State) (n c : Nat) (f : Warp → Warp) : (s.modWarp n f).core c = s.core c := rfl
@[simp] theorem State.core_modThread (s : State) (n l c : Nat) (f : Thread → Thread) :
    (s.modThread n l f).core c = s.core c := rfl
@[simp] theorem State.core_modCore (s : State) (n : Nat) (f : Core → Core) : (s.modCore n f).core n = f (s.core n) := by
  simp [State.core, State.modCore]
@[simp] theorem State.core_modCore_other (s : State) {n m : Nat} (f : Core → Core) (h : m ≠ n) :
    (s.modCore n f).core m = s.core m := by simp [State.core, State.modCore, h]
@[simp] theorem State.warp_modCore (s : State) (n m : Nat) (f : Core → Core) : (s.modCore n f).warp m = s.warp m := rfl
@[simp] theorem State.warp_modTenant (s : State) (n m : Nat) (f : Tenant → Tenant) : (s.modTenant n f).warp m = s.warp m := rfl
@[simp] theorem State.tenant_modTenant (s : State) (n : Nat) (f : Tenant → Tenant) :
    (s.modTenant n f).tenant n = f (s.tenant n) := by simp [State.tenant, State.modTenant]
@[simp] theorem State.tenant_modTenant_other (s : State) {n m : Nat} (f : Tenant → Tenant) (h : m ≠ n) :
    (s.modTenant n f).tenant m = s.tenant m := by simp [State.tenant, State.modTenant, h]
@[simp] theorem State.tenant_modWarp (s : State) (n m : Nat) (f : Warp → Warp) : (s.modWarp n f).tenant m = s.tenant m := rfl
@[simp] theorem State.tenant_modThread (s : State) (n l m : Nat) (f : Thread → Thread) :
    (s.modThread n l f).tenant m = s.tenant m := rfl

end Sys2Proof.Machine
end

