-- ==== Sys2Proof/Laws/Bundle.lean ====
section
/-! SUPPORT. What an instruction over the threads of a bundle can do, said once: `laneMap` and `regMap` (every thread for itself),
the STALL 7 rule, and the frame of both. -/

namespace Sys2Proof.Machine

@[simp] theorem cxOf_t (s : State) (w : Warp) (l : Nat) (t : Thread) : (s.cxOf w l t).t = t := rfl
@[simp] theorem cxOf_w (s : State) (w : Warp) (l : Nat) (t : Thread) : (s.cxOf w l t).w = w := rfl
@[simp] theorem cxOf_now (s : State) (w : Warp) (l : Nat) (t : Thread) : (s.cxOf w l t).now = s.now := rfl
@[simp] theorem cxOf_lane (s : State) (w : Warp) (l : Nat) (t : Thread) : (s.cxOf w l t).lane = l := rfl

@[simp] theorem deliver_nil (s : State) (n slot : Nat) (pc : Word) : s.deliver n slot pc [] = s := rfl

/-- A thread of a warp that holds a lane, as listed. -/
theorem thread_of_getElem (s : State) (n l : Nat) (h : l < (s.warp n).threads.length) :
    (s.warp n).threads[l]? = some (s.thread n l) := by
  simp [State.thread, List.getElem?_eq_getElem h]

/-- No result raises a cause: nothing is delivered. -/
theorem raisesOf_nil (rs : List LaneRes) (h : ∀ r ∈ rs, ∀ c, r.out ≠ .trap c) : raisesOf rs = [] := by
  suffices ∀ k, (mapFrom (fun l (r : LaneRes) => match r.out with
      | .trap c => [({ lane := l, info := c, t := r.t } : Raise)]
      | _ => []) k rs).flatten = [] from this 0
  induction rs with
  | nil => intro k; rfl
  | cons r q ih =>
    intro k
    simp only [mapFrom, List.flatten_cons, List.append_eq_nil_iff]
    refine ⟨?_, ih (fun x hx => h x (List.mem_cons_of_mem _ hx)) _⟩
    have := h r (List.mem_cons_self)
    split
    · exact absurd ‹_› (this _)
    · rfl

theorem mem_mapFrom {α β : Type} (f : Nat → α → β) (i : Nat) (l : List α) (b : β) (h : b ∈ mapFrom f i l) :
    ∃ m a, l[m]? = some a ∧ b = f (i + m) a := by
  obtain ⟨m, hm⟩ := List.getElem?_of_mem h
  rw [getElem?_mapFrom] at hm
  cases hx : l[m]? with
  | none => simp [hx] at hm
  | some a => exact ⟨m, a, hx, by simp [hx] at hm; exact hm.symm⟩

/-- The threads of the issuing warp after every lane has settled. -/
theorem settleAll_thread (i : Instr) (f : LaneCx → LaneRes) (s : State) (l : Nat) (h : l < s.curWarp.threads.length) :
    (settleAll i (laneResults i f s) s).thread s.cur.warp l =
      settle i (s.core s.curWarp.core).step (s.thread s.cur.warp l)
        (runLane i s s.curWarp f l (s.thread s.cur.warp l)) := by
  have ht := thread_of_getElem s s.cur.warp l h
  have hz : (s.curWarp.threads.zip (laneResults i f s))[l]? =
      some (s.thread s.cur.warp l, runLane i s s.curWarp f l (s.thread s.cur.warp l)) := by
    simp only [laneResults, List.getElem?_zip_eq_some, getElem?_mapFrom, Nat.zero_add]
    exact ⟨ht, by simp only [State.curWarp] at ht ⊢; simp [ht]⟩
  simp only [settleAll]
  simp [State.thread, hz]

theorem settleAll_size (i : Instr) (f : LaneCx → LaneRes) (s : State) :
    (settleAll i (laneResults i f s) s).curWarp.threads.length = s.curWarp.threads.length := by
  simp [settleAll, State.curWarp, laneResults]

theorem settleAll_out (i : Instr) (f : LaneCx → LaneRes) (s : State) (l : Nat) (h : s.curWarp.threads.length ≤ l) :
    (settleAll i (laneResults i f s) s).thread s.cur.warp l = s.thread s.cur.warp l := by
  have h2 := settleAll_size i f s
  simp only [State.thread]
  rw [List.getElem?_eq_none (show (s.warp s.cur.warp).threads.length ≤ l from h)]
  rw [List.getElem?_eq_none (by rw [← h2] at h; exact h)]

/-- STALL 7 changes the residency number of a compute warp of which a thread has issued, and its core's next number, and nothing
else. -/
theorem stallYield_eq (i : Instr) (before s : State) : stallYield i before s =
    if (ctlOf i).stall.val = 7 ∧ s.curWarp.service = false ∧ issuedAny before s then s.renumber s.cur.warp else s := rfl

theorem renumber_warp (s : State) (n m : Nat) : (s.renumber n).warp m =
    if m = n then { s.warp n with residency := (s.core (s.warp n).core).nextResidency } else s.warp m := by
  unfold State.renumber
  split
  · subst_vars; simp
  · simp [*]

theorem renumber_thread (s : State) (n m l : Nat) : (s.renumber n).thread m l = s.thread m l := by
  simp only [State.thread, renumber_warp]; split <;> simp_all

theorem stallYield_thread (i : Instr) (before s : State) (m l : Nat) : (stallYield i before s).thread m l = s.thread m l := by
  unfold stallYield; split <;> simp [renumber_thread]

/-- A state that differs from another in the bundle's threads alone, and then yields as STALL asks, is one of `OnlyBundle`. -/
theorem onlyBundle_settle (i : Instr) (f : LaneCx → LaneRes) (s : State) :
    OnlyBundle i s (stallYield i s (settleAll i (laneResults i f s) s)) := by
  have hc : (settleAll i (laneResults i f s) s).cur = s.cur := rfl
  have hw : (settleAll i (laneResults i f s) s).curWarp = { s.curWarp with
      threads := (s.curWarp.threads.zip (laneResults i f s)).map (fun p => settle i (s.core s.curWarp.core).step p.1 p.2) } := by
    simp [settleAll, State.curWarp]
  have out : ∀ l, mbit s.cur.lanes l = false →
      (settleAll i (laneResults i f s) s).thread s.cur.warp l = s.thread s.cur.warp l := by
    intro l hl
    by_cases h : l < s.curWarp.threads.length
    · rw [settleAll_thread _ _ _ _ h]; simp [runLane, hl, settle]
    · exact settleAll_out _ _ _ _ (by omega)
  unfold stallYield
  rw [hw]
  by_cases hy : (ctlOf i).stall.val = 7 ∧ s.curWarp.service = false ∧ issuedAny s (settleAll i (laneResults i f s) s)
  · rw [if_pos hy]
    refine ⟨rfl, ⟨fun a => rfl, rfl⟩, ?_, ?_, ?_, ?_, ?_, ?_⟩
    · intro n hn; rw [renumber_warp, hc, if_neg hn]; simp [settleAll, hn]
    · simp [State.curWarp, State.renumber, settleAll]
    · simp only [State.curWarp, renumber_warp]
      have := settleAll_size i f s
      simpa [State.renumber, State.curWarp, settleAll] using this
    · intro c
      simp only [State.renumber]
      by_cases hcc : c = ((settleAll i (laneResults i f s) s).warp (settleAll i (laneResults i f s) s).cur.warp).core
      · subst hcc; rw [State.core_modCore]; rfl
      · rw [State.core_modCore_other _ _ hcc]; rfl
    · rintro (h | h)
      · exact absurd hy.1 h
      · simp [hy.2.1] at h
    · intro l hl; rw [renumber_thread]; exact out l hl
  · rw [if_neg hy]
    refine ⟨rfl, ⟨fun a => rfl, rfl⟩, ?_, ?_, settleAll_size i f s, fun c => rfl, fun _ => ⟨by rw [hw], rfl⟩, out⟩
    · intro n hn; simp [settleAll, hn]
    · rw [hw]

/-- AN INSTRUCTION THAT ACTS IN EACH THREAD FOR ITSELF AND RAISES NOTHING: what `laneMap` can do. -/
theorem laneMap_inEachThread {i : Instr} {f : LaneCx → LaneRes} {s : State} {P : LaneCx → Thread → Prop}
    (hx : exec i s = laneMap i f s) (hi : issueInstead i s = none)
    (hok : ∀ l, mbit s.cur.lanes l = true → l < s.curWarp.threads.length → (s.cx s.cur.warp l).guard (ctlOf i) = true →
      (∀ c, (f (s.cx s.cur.warp l)).out ≠ .trap c) ∧
      P (s.cx s.cur.warp l) (settle i (s.core s.curWarp.core).step (s.thread s.cur.warp l) (f (s.cx s.cur.warp l)))) :
    InEachThread i s P := by
  have hn : raisesOf (laneResults i f s) = [] := by
    apply raisesOf_nil
    intro r hr c
    obtain ⟨l, t, hl, rfl⟩ := mem_mapFrom _ _ _ _ hr
    have hlen : l < s.curWarp.threads.length := by
      by_contra hge
      rw [List.getElem?_eq_none (by omega)] at hl
      exact absurd hl (by simp)
    have ht : t = s.thread s.cur.warp l := by
      have := thread_of_getElem s s.cur.warp l hlen
      simp only [State.curWarp] at hl
      rw [hl] at this; exact Option.some.inj this
    subst ht
    simp only [runLane, Nat.zero_add]
    by_cases hb : mbit s.cur.lanes l = true
    · simp only [hb, if_true]
      split
      · exact (hok l hb hlen ‹_›).1 c
      · simp
    · simp [hb]
  refine ⟨stallYield i s (settleAll i (laneResults i f s) s), ?_, onlyBundle_settle i f s, ?_⟩
  · rw [hx]; simp only [laneMap, laneMapPost, hi, hn, deliver_nil, id]
  · intro l hb hl
    rw [stallYield_thread, settleAll_thread _ _ _ _ hl]
    simp only [runLane, hb, if_true]
    by_cases hg : (s.cx s.cur.warp l).guard (ctlOf i) = true
    · rw [if_pos hg]
      have hg' : (s.cxOf s.curWarp l (s.thread s.cur.warp l)).guard (ctlOf i) = true := hg
      rw [if_pos hg']
      exact (hok l hb hl hg).2
    · rw [if_neg hg]
      have hg' : ¬ (s.cxOf s.curWarp l (s.thread s.cur.warp l)).guard (ctlOf i) = true := hg
      rw [if_neg hg']
      exact ⟨⟨rfl, rfl, rfl, rfl⟩, rfl⟩

end Sys2Proof.Machine
end

