-- ==== Sys2Proof/Laws/Memory.lean ====
section
/-! SUPPORT. Laws of memory: what a byte reads after a write, and that every write keeps the canonical form. -/

namespace Sys2Proof.Machine

variable {α : Type}

theorem tget_tdel (t : Tbl α) (n m : Nat) : tget (tdel t n) m = if m = n then none else tget t m := by
  induction t with
  | nil => simp [tdel]
  | cons p r ih =>
    obtain ⟨k, v⟩ := p
    unfold tdel at ih ⊢
    by_cases hk : k = n
    · subst hk; simp only [List.filter_cons, bne_self_eq_false, Bool.false_eq_true, if_false, ih, tget]; split <;> simp_all
    · rw [List.filter_cons, if_pos (by simpa using hk)]; simp only [tget, ih]; split <;> simp_all

theorem tsorted_tail {p : Nat × α} {r : Tbl α} (h : tsorted (p :: r) = true) : tsorted r = true := by
  cases r with
  | nil => rfl
  | cons q r => simp only [tsorted, Bool.and_eq_true] at h; exact h.2

/-- In a table in order, the first key is below every other. -/
theorem tsorted_head {p : Nat × α} {r : Tbl α} (h : tsorted (p :: r) = true) : ∀ q ∈ r, p.1 < q.1 := by
  induction r generalizing p with
  | nil => simp
  | cons q r ih =>
    have hr := tsorted_tail h
    simp only [tsorted, Bool.and_eq_true, decide_eq_true_eq] at h
    intro x hx
    rcases List.mem_cons.mp hx with rfl | hx
    · exact h.1
    · exact Nat.lt_trans h.1 (ih hr x hx)

theorem tsorted_cons {p : Nat × α} {r : Tbl α} (h : ∀ q ∈ r, p.1 < q.1) (hr : tsorted r = true) : tsorted (p :: r) = true := by
  cases r with
  | nil => rfl
  | cons q r => simp only [tsorted, Bool.and_eq_true, decide_eq_true_eq]; exact ⟨h q (by simp), hr⟩

/-- A filter keeps the keys strictly rising; so does removing a key. -/
theorem tsorted_filter (t : Tbl α) (f : Nat × α → Bool) (h : tsorted t = true) : tsorted (t.filter f) = true := by
  induction t with
  | nil => rfl
  | cons p r ih =>
    rw [List.filter_cons]
    split
    · exact tsorted_cons (fun q hq => tsorted_head h q (List.mem_filter.mp hq).1) (ih (tsorted_tail h))
    · exact ih (tsorted_tail h)

theorem tsorted_tdel (t : Tbl α) (n : Nat) (h : tsorted t = true) : tsorted (tdel t n) = true := tsorted_filter t _ h

/-- What a written table lists is the new value or what it listed before. -/
theorem mem_tset {t : Tbl α} {n : Nat} {x : α} {p : Nat × α} (h : p ∈ tset t n x) : p = (n, x) ∨ p ∈ t := by
  induction t with
  | nil => simpa [tset] using h
  | cons q r ih =>
    obtain ⟨k, v⟩ := q
    simp only [tset] at h
    split at h
    · simpa using h
    · split at h
      · rcases List.mem_cons.mp h with h | h
        · exact .inl h
        · exact .inr (List.mem_cons_of_mem _ h)
      · rcases List.mem_cons.mp h with h | h
        · exact .inr (h ▸ List.mem_cons_self)
        · exact (ih h).imp_right (List.mem_cons_of_mem _)

/-- A byte after a write of one byte. -/
theorem memGet_memSet (m : List Host.Cell) (a b : Nat) (v : Byte) : memGet (memSet m a v) b = if b = a then v else memGet m b := by
  unfold memGet memSet
  split
  · subst_vars; rw [tget_tdel]; split <;> simp
  · rw [tget_tset]; split <;> simp

@[simp] theorem memSetAll_nil (m : List Host.Cell) : memSetAll m [] = m := rfl

@[simp] theorem memSetAll_cons (m : List Host.Cell) (w : Nat × Byte) (ws : List (Nat × Byte)) :
    memSetAll m (w :: ws) = memSetAll (memSet m w.1 w.2) ws := rfl

/-- A write of bytes leaves every other address alone. -/
theorem memGet_memSetAll_other (m : List Host.Cell) (ws : List (Nat × Byte)) (a : Nat) (h : ∀ w ∈ ws, w.1 ≠ a) :
    memGet (memSetAll m ws) a = memGet m a := by
  induction ws generalizing m with
  | nil => rfl
  | cons w ws ih =>
    rw [memSetAll_cons, ih _ fun x hx => h x (List.mem_cons_of_mem _ hx), memGet_memSet, if_neg fun e => h w List.mem_cons_self e.symm]

/-- A byte after a write of bytes is the last one written to it, else the byte before. -/
theorem memGet_memSetAll (m : List Host.Cell) (ws : List (Nat × Byte)) (a : Nat) :
    memGet (memSetAll m ws) a = ((ws.reverse.find? fun w => w.1 = a).map Prod.snd).getD (memGet m a) := by
  induction ws generalizing m with
  | nil => rfl
  | cons w ws ih =>
    rw [memSetAll_cons, ih, memGet_memSet, List.reverse_cons, List.find?_append]
    cases ws.reverse.find? fun w => w.1 = a with
    | some p => rfl
    | none => simp only [List.find?_singleton, eq_comm (a := a), decide_eq_true_eq]; split <;> rfl

/-- Writes to distinct addresses: each address holds its byte. -/
theorem memGet_memSetAll_mem (m : List Host.Cell) (ws : List (Nat × Byte)) (w : Nat × Byte) (h : w ∈ ws)
    (hn : (ws.map Prod.fst).Nodup) : memGet (memSetAll m ws) w.1 = w.2 := by
  induction ws generalizing m with
  | nil => simp at h
  | cons x ws ih =>
    rw [List.map_cons, List.nodup_cons] at hn
    rw [memSetAll_cons]
    rcases List.mem_cons.mp h with rfl | h
    · rw [memGet_memSetAll_other _ _ _ fun y hy e => hn.1 (List.mem_map.mpr ⟨y, hy, e⟩), memGet_memSet, if_pos rfl]
    · exact ih _ h hn.2

/-- A write of one byte keeps the canonical form. -/
theorem wf_memSet (m : List Host.Cell) (a : Nat) (v : Byte) (h : Memory.wf m = true) : Memory.wf (memSet m a v) = true := by
  simp only [Memory.wf, Bool.and_eq_true, List.all_eq_true, bne_iff_ne] at h ⊢
  unfold memSet
  split
  · exact ⟨tsorted_tdel m a h.1, fun c hc => h.2 c (List.mem_filter.mp hc).1⟩
  · refine ⟨tsorted_tset m a v h.1, fun c hc => ?_⟩
    rcases mem_tset hc with rfl | hc
    · assumption
    · exact h.2 c hc

/-- A write of bytes keeps the canonical form. -/
theorem wf_memSetAll (m : List Host.Cell) (ws : List (Nat × Byte)) (h : Memory.wf m = true) : Memory.wf (memSetAll m ws) = true := by
  induction ws generalizing m with
  | nil => exact h
  | cons w ws ih => exact ih _ (wf_memSet m w.1 w.2 h)

/-- Memory is in canonical form at reset. -/
theorem wf_reset : Memory.wf State.reset.mem = true := rfl

end Sys2Proof.Machine
end

