-- ==== Sys2Proof/Laws/Operands.lean ====
section
/-! SUPPORT. What writing a register does to what registers read as (R55, R57, R58): the latest values, and the value read at a
cycle. -/

namespace Sys2Proof.Machine

/-- An entry that a write drops as landed hides nothing from now on. -/
theorem visible_live (es : List Early) (now step : Nat) (k : RegRef) (v : Word) (c : Nat) (hc : now ≤ c) :
    visible (es.filter fun e => now < e.due || step < e.step + e.dist) k v c = visible es k v c := by
  unfold visible
  rw [List.find?_filter]
  congr 1
  apply List.find?_congr
  intro e _
  by_cases h : e.reg = k ∧ c < e.due
  · simp [h, show now < e.due by omega]
  · simp [h]

/-- An entry at the end for another register hides nothing. -/
theorem visible_append_other (es : List Early) (e : Early) (k : RegRef) (v : Word) (c : Nat) (h : e.reg ≠ k) :
    visible (es ++ [e]) k v c = visible es k v c := by
  unfold visible
  simp [List.find?_append, h]

theorem visible_none (es : List Early) (k : RegRef) (v : Word) (c : Nat) (h : ∀ e ∈ es, e.reg = k → e.due ≤ c) :
    visible es k v c = v := by
  unfold visible
  rw [List.find?_eq_none.mpr]
  intro e he hc
  simp only [decide_eq_true_eq] at hc
  have := h e he hc.1
  omega

/-- The latest of the due cycles of a list is at most a bound on all of them. -/
theorem foldl_max_le (es : List Early) (m c : Nat) (hm : m ≤ c) (h : ∀ e ∈ es, e.due ≤ c) :
    es.foldl (fun m e => max m e.due) m ≤ c := by
  induction es generalizing m with
  | nil => exact hm
  | cons e r ih =>
    have := h e (List.mem_cons_self)
    exact ih _ (Nat.max_le.mpr ⟨hm, this⟩) fun x hx => h x (List.mem_cons_of_mem _ hx)

theorem bit8 (n m : Nat) : (BitVec.ofNat 8 (2 ^ n)).getLsbD m = (decide (m < 8) && decide (n = m)) := by
  rw [BitVec.getLsbD_ofNat, Nat.testBit_two_pow]

/-- A predicate after a write. -/
theorem qcur_put_q (t : Thread) (n m : Nat) (v : Word) (hn : n < 7) :
    (t.put (.q n) v).qcur m = if m = n then decide (v ≠ 0) else t.qcur m := by
  have h7 : n ≠ 7 := by omega
  simp only [Thread.put, h7, if_false, Thread.qcur]
  by_cases hm : m = n
  · subst hm
    by_cases hv : v = 0
    · rw [if_pos hv, BitVec.getLsbD_and, BitVec.getLsbD_not, bit8]; simp [hv, h7, show m < 8 by omega]
    · rw [if_neg hv, BitVec.getLsbD_or, bit8]; have hv' : ¬v = 0#64 := hv; simp [hv', show m < 8 by omega]
  · have hb : (BitVec.ofNat 8 (2 ^ n)).getLsbD m = false := by rw [bit8]; simp [Ne.symm hm]
    rw [if_neg hm]
    by_cases hv : v = 0
    · rw [if_pos hv, BitVec.getLsbD_and, BitVec.getLsbD_not, hb]
      by_cases h8 : m < 8
      · simp [h8]
      · simp [h8, BitVec.getLsbD_of_ge _ _ (show 8 ≤ m by omega)]
    · rw [if_neg hv, BitVec.getLsbD_or, hb, Bool.or_false]

/-- A register that a write of another register leaves alone: general registers and predicates. -/
theorem cur_put_other (t : Thread) {r k : RegRef} (v : Word) (h : k ≠ r) (hr : ∀ n, r = .q n → n < 7) :
    (t.put r v).cur k = t.cur k := by
  cases r with
  | w n => rfl
  | g n =>
    cases k with
    | g m => simp only [Thread.put, Thread.cur, Thread.gcur]; rw [tgetD_tset_other]; rintro rfl; exact h rfl
    | _ => rfl
  | q n =>
    cases k with
    | q m =>
      have hmn : m ≠ n := by rintro rfl; exact h rfl
      simp only [Thread.cur, qcur_put_q t n m v (hr n rfl), if_neg hmn]
    | _ => unfold Thread.put; simp only []; split <;> rfl

theorem cur_put_g (t : Thread) (n : Nat) (v : Word) : (t.put (.g n) v).cur (.g n) = v := by
  simp [Thread.put, Thread.cur, Thread.gcur]

theorem cur_put_q (t : Thread) (n : Nat) (b : Bool) (h : n < 7) : (t.put (.q n) (boolWord b)).cur (.q n) = boolWord b := by
  simp only [Thread.cur, qcur_put_q t n n _ h]
  cases b <;> rfl

theorem put_early (t : Thread) (r : RegRef) (v : Word) : (t.put r v).early = t.early := by
  cases r <;> simp only [Thread.put]
  split <;> rfl

theorem put_noRegs (t : Thread) (r : RegRef) (v : Word) : (t.put r v).noRegs = t.noRegs := by
  cases r <;> simp only [Thread.put, Thread.noRegs, Thread.bare]
  split <;> rfl

theorem cur_early (t : Thread) (es : List Early) (k : RegRef) : { t with early := es }.cur k = t.cur k := by cases k <;> rfl
theorem cur_pend (t : Thread) (es : List Early) (ps : List Pend) (k : RegRef) :
    { t with early := es, pend := ps }.cur k = t.cur k := by cases k <;> rfl

/-- WHAT A WRITE DOES TO THE REGISTERS AND TO THE OLD VALUES STILL READABLE: the register is put; then the old values
stay, or the register's own leave, or its old value joins them until the landing. -/
theorem writeLat_cases (t : Thread) (x : LaneCx) (lat : Lat) (r : RegRef) (v : Word) :
    t.writeLat x lat r v = t.put r v ∨
    (∃ ps, t.writeLat x lat r v = { t.put r v with early := t.early.filter fun e => e.reg ≠ r, pend := ps }) ∨
    (x.w.service = false ∧ ∃ l, lat = .fixed l ∧
      let live := t.early.filter fun e => x.now < e.due || x.step < e.step + e.dist
      let before := (t.early.filter fun e => e.reg = r).foldl (fun m e => max m e.due) 0
      t.writeLat x lat r v = { t.put r v with
        early := live ++ [{ reg := r, old := t.cur r, due := max before (x.now + l), step := x.step, dist := dist2 l }] }) := by
  cases lat with
  | fixed l =>
    cases hw : x.w.service with
    | true => left; simp only [Thread.writeLat, hw, if_true]
    | false => right; right; exact ⟨rfl, l, rfl, by simp only [Thread.writeLat, hw]; rfl⟩
  | var l => right; left; exact ⟨_, rfl⟩
  | cross l => right; left; exact ⟨_, rfl⟩

theorem writeLat_noRegs (t : Thread) (x : LaneCx) (lat : Lat) (r : RegRef) (v : Word) :
    (t.writeLat x lat r v).noRegs = t.noRegs := by
  rw [← put_noRegs t r v]
  obtain h | ⟨ps, h⟩ | ⟨-, l, -, h⟩ := writeLat_cases t x lat r v <;> rw [h] <;> rfl

/-- The number of cycles of a latency. -/
def Lat.cycles : Lat → Nat
  | .fixed l => l
  | .var l => l
  | .cross l => l

/-- THE WRITE OF A REGISTER: it takes the value; no other register's latest or visible value changes. -/
theorem writeLat_writes (x : LaneCx) (lat : Lat) (r : RegRef) (v : Word) (hv : ∀ t : Thread, (t.put r v).cur r = v)
    (hq : ∀ n, r = .q n → n < 7) : Writes x (x.t.writeLat x lat r v) lat.cycles (some r) v := by
  have hcur : ∀ k, (x.t.writeLat x lat r v).cur k = (x.t.put r v).cur k := by
    intro k
    obtain h | ⟨ps, h⟩ | ⟨-, l, -, h⟩ := writeLat_cases x.t x lat r v
    · rw [h]
    · rw [h]; exact cur_pend _ _ _ _
    · rw [h]; exact cur_early _ _ _
  refine ⟨?_, ?_⟩
  · intro k hk
    have hkr : k ≠ r := fun h => hk (by rw [h])
    refine ⟨by rw [hcur, cur_put_other _ _ hkr hq], ?_⟩
    intro c hc
    unfold Thread.reads
    rw [hcur, cur_put_other _ _ hkr hq]
    obtain h | ⟨ps, h⟩ | ⟨-, l, -, h⟩ := writeLat_cases x.t x lat r v
    · rw [h, put_early]
    · rw [h]
      simp only
      unfold visible
      rw [List.find?_filter]
      congr 1
      apply List.find?_congr
      intro e _
      by_cases h : e.reg = k ∧ c < e.due
      · simp [h, hkr]
      · simp [h]
    · rw [h]
      simp only
      rw [visible_append_other _ _ _ _ _ (Ne.symm hkr), visible_live _ _ _ _ _ _ hc]
  · simp only
    refine ⟨by rw [hcur, hv], ?_⟩
    intro c he hs
    unfold Thread.reads
    rw [hcur, hv]
    apply visible_none
    intro e hm hr
    obtain h | ⟨ps, h⟩ | ⟨hw, l, rfl, h⟩ := writeLat_cases x.t x lat r v
    · rw [h, put_early] at hm; exact he e hm hr
    · rw [h] at hm
      exact absurd hr (by have := List.of_mem_filter hm; simpa using this)
    · rw [h] at hm
      rcases hs with hs | hs
      · exact absurd hs (by simp [hw])
      · simp only [List.mem_append, List.mem_singleton] at hm
        rcases hm with hm | rfl
        · exact he e (List.mem_of_mem_filter hm) hr
        · simp only [Lat.cycles] at hs
          refine Nat.max_le.mpr ⟨?_, hs⟩
          apply foldl_max_le _ _ _ (Nat.zero_le _)
          intro e hm
          have h2 := List.of_mem_filter hm
          simp only [decide_eq_true_eq] at h2
          exact he e (List.mem_of_mem_filter hm) h2

/-- Nothing is written. -/
theorem writes_none (x : LaneCx) (L : Nat) (v : Word) : Writes x x.t L none v :=
  ⟨fun _ _ => ⟨rfl, fun _ _ => rfl⟩, trivial⟩

theorem writeD_writes (x : LaneCx) (lat : Lat) (d : Dst) (v : Word) :
    Writes x (x.t.writeD x lat d v) lat.cycles (dstReg d) v := by
  cases d with
  | zero => exact writes_none x _ v
  | g n => exact writeLat_writes x lat _ v (fun t => cur_put_g t _ v) (by simp)

theorem writeQ_writes (x : LaneCx) (lat : Lat) (q : Pred) (b : Bool) :
    Writes x (x.t.writeQ x lat q b) lat.cycles (predReg q) (boolWord b) := by
  unfold Thread.writeQ predReg
  split
  · exact writes_none x _ _
  · have hq : q.val < 7 := by have := q.isLt; omega
    exact writeLat_writes x lat _ _ (fun t => cur_put_q t _ b hq) (by simp [hq])

theorem writeD_noRegs (t : Thread) (x : LaneCx) (lat : Lat) (d : Dst) (v : Word) :
    (t.writeD x lat d v).noRegs = t.noRegs := by
  cases d with
  | zero => rfl
  | g n => exact writeLat_noRegs ..

theorem writeQ_noRegs (t : Thread) (x : LaneCx) (lat : Lat) (q : Pred) (b : Bool) :
    (t.writeQ x lat q b).noRegs = t.noRegs := by
  unfold Thread.writeQ; split
  · rfl
  · exact writeLat_noRegs ..

/-- Issuing changes no register. -/
theorem writes_issued {x : LaneCx} {u : Thread} {L : Nat} {r : Option RegRef} {v : Word} (h : Writes x u L r v)
    (step stall : Nat) (pc : Word) : Writes x (u.issued step stall pc) L r v := by
  have hc : ∀ k, (u.issued step stall pc).cur k = u.cur k := fun k => by cases k <;> rfl
  have hr : ∀ k c, (u.issued step stall pc).reads k c = u.reads k c := fun k c => by
    unfold Thread.reads; rw [hc]; rfl
  refine ⟨fun k hk => ?_, ?_⟩
  · rw [hc]; exact ⟨(h.1 k hk).1, fun c hcc => by rw [hr]; exact (h.1 k hk).2 c hcc⟩
  · cases r with
    | none => trivial
    | some k => exact ⟨by rw [hc]; exact h.2.1, fun c h1 h2 => by rw [hr]; exact h.2.2 c h1 h2⟩

/-- AN INSTRUCTION THAT WRITES ONE GENERAL REGISTER AND NEVER TRAPS. -/
theorem regMap_givesResult {i : Instr} {s : State} {d : Dst} {lat : Lat} {v : LaneCx → Word}
    (hx : exec i s = regMap i (fun x => x.t.writeD x lat d (v x)) s) (hi : issueInstead i s = none) :
    GivesResult i s lat.cycles (dstReg d) v := by
  refine laneMap_inEachThread hx hi fun l _ _ _ => ⟨by simp, ?_⟩
  refine ⟨⟨rfl, rfl, rfl, rfl⟩, ?_, ?_⟩
  · exact writeD_noRegs _ _ _ _ _
  · exact writes_issued (writeD_writes _ _ _ _) _ _ _

/-- AN INSTRUCTION THAT WRITES ONE PREDICATE AND NEVER TRAPS. -/
theorem regMap_givesPred {i : Instr} {s : State} {q : Pred} {lat : Lat} {b : LaneCx → Bool}
    (hx : exec i s = regMap i (fun x => x.t.writeQ x lat q (b x)) s) (hi : issueInstead i s = none) :
    GivesResult i s lat.cycles (predReg q) (fun x => boolWord (b x)) := by
  refine laneMap_inEachThread hx hi fun l _ _ _ => ⟨by simp, ?_⟩
  refine ⟨⟨rfl, rfl, rfl, rfl⟩, ?_, ?_⟩
  · exact writeQ_noRegs _ _ _ _ _
  · exact writes_issued (writeQ_writes _ _ _ _) _ _ _

end Sys2Proof.Machine
end

