-- ==== Sys2Proof/Tests/Slice0.lean ====
section
/-! SUPPORT. Tests: every check of well-formedness refuses an ill-formed term, words written out from the encodings of the spec
decode, worked examples of the spec, and a state and operands that meet the hypotheses of every statement. -/

open Sys2Proof Sys2Proof.Machine Sys2Proof.Claims

namespace Sys2Proof.Tests

/-! ## States -/

/-- STALL 0, guard q7. -/
def ctl : Ctl := ⟨0, 7, false⟩
/-- A thread at 0x1000 with some registers. -/
def tThread (regs : Tbl Word) : Thread := { pc := 0x1000, exited := false, regs := regs }
/-- A resident warp of core 0 with a handler. -/
def tWarp (ts : List Thread) : Warp :=
  { core := 0, launch := 1, block := 2, gang := 3, resident := true, tvec := 0x8000, threads := ts }
/-- A translation of the first half of tier 0 to itself, for a node. -/
def tMap (node : Nat) : TlbEntry :=
  { node := node, tenant := 0, vbase := 0, size := 2 ^ 39, ibase := 0, pbase := 0, leafPa := 0x700000, w1 := true, x1 := true, u1 := true,
    w2 := true, r2 := true, x2 := true, ms := false, repl := false, mig := false, pinrq := false, landrq := false, aff := 0, tiers := 7,
    lev1 := 0, lev2 := 1 }
/-- The warp at 256, with a bundle. -/
def tState (w : Warp) (lanes : BitVec 32) : State :=
  { State.reset with warps := [(256, w)], cur := { warp := 256, lanes := lanes }, tlb := [tMap 0, tMap 256] }
/-- Two threads, a bundle of both. -/
def duo : State := tState (tWarp [tThread [(2, 5), (3, 7)], tThread [(2, 9)]]) 3
/-- One thread with registers. -/
def solo (regs : Tbl Word) : State := tState (tWarp [tThread regs]) 1
/-- Service thread 0 at a level with registers, its levels' vectors set. -/
def tServ (lv : Level) (regs : Tbl Word) : Warp :=
  { service := true, core := 1024, threads := [tThread regs]
    svc := { running := true, level := lv, sv := { vec := 0x100 }, hv := { vec := 0x200 }, mn := { vec := 0x300 } } }
def serv (lv : Level) (regs : Tbl Word) : State :=
  { State.reset with warps := [(0, tServ lv regs)], cur := { warp := 0, lanes := 1 }, tlb := [tMap 0, tMap 256] }

theorem issues_of {i : Instr} {s : State} (h : (issueInstead i s).isNone = true) : Issues i s := Option.isNone_iff_eq_none.mp h

theorem lane_zero {l : Nat} (h : mbit 1 l = true) : l = 0 := by
  have h1 : (1#32).getLsbD l = true := h
  simp only [BitVec.getLsbD_one, Bool.and_eq_true, decide_eq_true_eq] at h1
  exact h1.2

/-! ## Witnesses: registers and arithmetic -/

theorem wit_IntegerResults : let i : Instr := .iaddLong ctl (.g 1) (.g 2) (.reg (.g 3)) .s32 true
    (intForm i).isSome = true ∧ i.wf = true ∧ Issues i duo := ⟨rfl, by decide, issues_of (by decide)⟩

theorem wit_CarryChain : let i : Instr := .iaddcLong ctl (.g 1) (.g 2) (.reg (.g 3)) .n64 1
    (carryForm i).isSome = true ∧ i.wf = true ∧ Issues i duo := ⟨rfl, by decide, issues_of (by decide)⟩

theorem wit_DotProducts : let i : Instr := .idot4Long ctl (.g 1) (.g 2) (.g 3) (.g 2) .s8 true
    (dotForm i).isSome = true ∧ i.wf = true ∧ Issues i duo := ⟨rfl, by decide, issues_of (by decide)⟩

theorem wit_BitwiseResults : let i : Instr := .lop3Long ctl (.g 1) (.g 2) (.g 3) (.g 2) .b64 0xD8
    (bitForm i).isSome = true ∧ i.wf = true ∧ Issues i duo := ⟨rfl, by decide, issues_of (by decide)⟩

theorem wit_ShiftResults : let i : Instr := .shraLong ctl (.g 1) (.g 2) (.imm 40) .s32
    (shiftForm i).isSome = true ∧ i.wf = true ∧ Issues i duo := ⟨rfl, by decide, issues_of (by decide)⟩

theorem wit_FieldResults : let i : Instr := .bfxLong ctl (.g 1) (.g 2) (.reg (.g 3)) .s32
    (countForm i).isSome = true ∧ i.wf = true ∧ Issues i duo := ⟨rfl, by decide, issues_of (by decide)⟩

theorem wit_BytePermutes : let i : Instr := .prmtLong ctl (.g 1) (.g 2) (.g 3) (.g 2)
    (prmtForm i).isSome = true ∧ i.wf = true ∧ Issues i duo := ⟨rfl, by decide, issues_of (by decide)⟩

theorem wit_ImmediateOperands : (0 < tyCount .s64 ∧ Ty.intTy .s32 = true ∧ tyWidth .s32 ≤ 32) ∧ (tyWidth .s64 = 64 ∧ Ty.s64 ≠ .f64) ∧
    (0x7F80 / 2 ^ 7 % 2 ^ 8 ≠ 255 ∨ 0x7F80 % 2 ^ 7 = 0) ∧ 0 < tyCount .f64 ∧ 1 < tyCount .f32 := by decide

/-- R276: an immediate and a literal of f64 widened, and NaNs. -/
theorem test_widened_operands : immWord .f64 0xBFC0 = 0xBFF8000000000000 ∧ litWord .f64 0x3F000000 = 0x3FE0000000000000 ∧
    immWord .f64 0x7F81 = 0x7FF8000000000000 ∧ immWord .f32 0xFF81 = 0x7FC000007FC00000 := by decide

theorem wit_PredicateResults : let i : Instr := .icmpLong ctl 1 (.g 2) (.reg (.g 3)) .s32 .lt .all
    (predForm i).isSome = true ∧ i.wf = true ∧ Issues i duo := ⟨rfl, by decide, issues_of (by decide)⟩

theorem wit_MoveResults : let i : Instr := .selLong ctl (.g 1) (.g 2) (.imm 3) .s64 1 true
    (moveForm i).isSome = true ∧ i.wf = true ∧ Issues i duo := ⟨rfl, by decide, issues_of (by decide)⟩

theorem wit_SignAndPredicateBits : let i : Instr := .fneg ctl (.g 1) (.g 2) .f64
    (signForm i).isSome = true ∧ i.wf = true ∧ Issues i duo := ⟨rfl, by decide, issues_of (by decide)⟩

theorem wit_GtopResults : Issues (.gtop ctl (.g 2) 0x7F) duo := issues_of (by decide)

/-- Both lanes are guard-true; lane 0 names lane 5, which is not there, so that WMOV leaves its register; MOVW takes lane 1's value. -/
theorem wit_WarpRegisterWrites :
    (warpForm duo (.wmov ctl 4 (.g 2) (.g 2)) = some (4, none) ∧ Issues (.wmov ctl 4 (.g 2) (.g 2)) duo) ∧
    (warpForm duo (.movwLong ctl 4 (.reg (.g 2)) .s64) = some (4, some (1, 9)) ∧ Issues (.movwLong ctl 4 (.reg (.g 2)) .s64) duo) ∧
    warpForm duo (.wmov ctl 4 (.g 2) (.g 1)) = some (4, some (0, 5)) :=
  ⟨⟨by decide, issues_of (by decide)⟩, ⟨by decide, issues_of (by decide)⟩, by decide⟩

/-! ## Witnesses: floating numbers -/

theorem wit_ExactRounding : fmtF32 ∈ ieee ∧ (1 : Nat) ≠ 0 ∧ num false 1 0 * num true 3 (-1) + num false 1 4 ≠ 0 := by
  refine ⟨by decide, by decide, ?_⟩
  norm_num [num]

theorem wit_FloatSpecials : fmtBf16 ∈ ieee ∧ (1 : Nat) ≠ 0 ∧ ∀ q, FpVal.inf true ≠ .nan q := by
  refine ⟨by decide, by decide, fun q h => ?_⟩
  cases h

/-- 1.5 in f32. -/
theorem wit_RoundAndScale : fmtF32 ∈ ieee ∧ fmtF32.value 0x3FC00000 = .fin false 0xC00000 (-23) ∧ 0xC00000 ≠ 0 := by decide

/-- 1 × 1 + 1; 0 × ∞; a quiet NaN; infinities of both signs and of one; −0 × 1 + −0; 1 × 1 − 1. -/
theorem wit_DotProductsOnce : let one : FpVal := .fin false 1 0
    (amount one * amount one + amount one ≠ 0) ∧ (IsZero (.fin false 0 0) ∧ IsInf (.inf true)) ∧ (IsNan (.nan false) ∧ ¬ IsSignalling (.nan false)) ∧
    (negative (.inf true) != negative one) = true ∧ (negative (.fin true 0 0) = true ∧ amount (.fin true 0 0) = 0) ∧
    amount one * amount one + amount (.fin true 1 0) = 0 := by
  refine ⟨by norm_num [amount, num], ⟨⟨_, _, rfl⟩, _, rfl⟩, ⟨⟨_, rfl⟩, nofun⟩, rfl, ⟨rfl, by norm_num [amount, num]⟩, by norm_num [amount, num]⟩

/-- 1.5 and −∞ in f32. -/
theorem wit_SumsInOrder : Encodes fmtF32 (.fin false 3 (-1)) 0x3FC00000 ∧ Encodes fmtF32 (.inf true) 0xFF800000 := by
  refine ⟨⟨0x3FC00000, by decide, rfl, ?_⟩, rfl⟩
  norm_num [magnitudeOf, num, fmtF32, Fmt.bias]

/-- Numbers in each order, and zeros. -/
theorem wit_Selections : fmtF32 ∈ ieee ∧ Encodes fmtF32 (.fin false 3 (-1)) 0x3FC00000 ∧ Encodes fmtF32 (.fin true 0 0) 0x80000000 ∧
    order (.inf true) (.fin false 3 (-1)) = some .lt ∧ order (.fin false 3 (-1)) (.inf true) = some .gt ∧
    order (.fin true 0 0) (.fin false 0 0) = some .eq ∧ IsZero (.fin true 0 0) := by
  refine ⟨by decide, wit_SumsInOrder.1, ⟨0, by decide, rfl, by norm_num [magnitudeOf, num]⟩, rfl, rfl, ?_, _, _, rfl⟩
  simp [order, num]

theorem not_enabled (f : FloatForm) {x : LaneCx} (h : x.ten = 0) : ¬ Enabled f x := by
  rintro ⟨j, -, e⟩
  exact e (by rw [h]; exact BitVec.and_zero)

/-- No trap is enabled in any lane of the two-thread warp. -/
theorem duo_calm (l : Nat) : (duo.cx duo.cur.warp l).ten = 0 :=
  congrArg (fun w : Warp => BitVec.ofNat 5 (wbits w.fpctl 4 5)) (show (duo.cx duo.cur.warp l).w = tWarp [tThread [(2, 5), (3, 7)], tThread [(2, 9)]] from rfl)

theorem wit_FloatResults : let i : Instr := .faddLong ctl (.g 1) (.g 2) (.reg (.g 3)) .f32 .rne
    ∃ f, floatForm i = some f ∧ i.wf = true ∧ Issues i duo ∧
      ∀ l, mbit duo.cur.lanes l = true → (duo.cx duo.cur.warp l).guard (ctlOf i) = true → ¬ Enabled f (duo.cx duo.cur.warp l) :=
  ⟨_, rfl, by decide, issues_of (by decide), fun l _ _ => not_enabled _ (duo_calm l)⟩

/-- Lane 0 adds infinities of both signs, with every trap enabled. -/
def trapping : State := tState { tWarp [tThread [(2, 0x7F800000), (3, 0xFF800000)], tThread []] with fpctl := 0x1F0 } 3

theorem wit_GeneralTraps : let i : Instr := .faddCompact 0 1 2 3
    ∃ f, floatForm i = some f ∧ i.wf = true ∧ Issues i trapping ∧ trapping.curWarp.level = .user ∧ trapping.curWarp.tvec ≠ 0 ∧
      trapping.curWarp.tmask = 0 ∧ mbit trapping.cur.lanes 0 = true ∧ 0 < trapping.curWarp.threads.length ∧
      (trapping.cx 256 0).guard (ctlOf i) = true ∧ Enabled f (trapping.cx 256 0) ∧ ¬ Enabled f (trapping.cx 256 1) := by
  refine ⟨_, rfl, by decide, issues_of (by decide), by decide, by decide, by decide, by decide, by decide, by decide, ?_, ?_⟩
  · exact ⟨0, by decide, by decide⟩
  · unfold Enabled; decide

/-- Lane 0 compares a quiet NaN, and lane 1 two zeros. -/
def comparing : State := tState { tWarp [tThread [(2, 0x7FC00000)], tThread []] with fpctl := 0x1F0 } 3

theorem wit_CompareTraps : let i : Instr := .fcmpLong ctl 1 (.g 2) (.reg (.g 3)) .f32 .lt .first
    (fcmpForm i).isSome = true ∧ i.wf = true ∧ Issues i comparing ∧ comparing.curWarp.level = .user ∧ comparing.curWarp.tvec ≠ 0 ∧
      comparing.curWarp.tmask = 0 ∧ mbit comparing.cur.lanes 0 = true ∧ 0 < comparing.curWarp.threads.length ∧
      (comparing.cx 256 0).guard (ctlOf i) = true ∧ raisesInvalid .f32 .lt .first (src (.g 2)) (opb .f32 (.reg (.g 3))) (comparing.cx 256 0) ∧
      (comparing.cx 256 0).ten &&& flNV ≠ 0 ∧ order ((comparing.cx 256 1).fval .f32 (src (.g 2) (comparing.cx 256 1)) 0)
        ((comparing.cx 256 1).fval .f32 (opb .f32 (.reg (.g 3)) (comparing.cx 256 1)) 0) ≠ none := by
  refine ⟨rfl, by decide, issues_of (by decide), by decide, by decide, by decide, by decide, by decide, by decide,
    ⟨0, .inl rfl, .inr (.inr ⟨rfl, ?_⟩)⟩, by decide, ?_⟩
  · have h : (comparing.cx 256 0).fval .f32 (src (.g 2) (comparing.cx 256 0)) 0 = .nan false := by decide
    rw [h]; rfl
  · have h : ∀ g, g = 2 ∨ g = 3 → (comparing.cx 256 1).fval .f32 (src (.g g) (comparing.cx 256 1)) 0 = .fin false 0 (-149) := by
      rintro g (rfl | rfl) <;> decide
    show order _ ((comparing.cx 256 1).fval .f32 (src (.g 3) (comparing.cx 256 1)) 0) ≠ none
    rw [h 2 (.inl rfl), h 3 (.inr rfl)]
    exact nofun

/-- The first of 30 values is a signalling NaN. -/
theorem wit_BlockTraps : let i : Instr := .qblk ctl 2 32 none .f16 .rne
    let s := tState { tWarp [tThread [(32, 0x7F800001)]] with fpctl := 0x1F0 } 1
    i.wf = true ∧ Issues i s ∧ s.curWarp.level = .user ∧ s.curWarp.tvec ≠ 0 ∧ s.curWarp.tmask = 0 ∧ mbit s.cur.lanes 0 = true ∧
      0 < s.curWarp.threads.length ∧ (s.cx 256 0).guard (ctlOf i) = true ∧ (packed 32 .f16 .rne (s.cx 256 0)).2.2 &&& (s.cx 256 0).ten ≠ 0 :=
  ⟨by decide, issues_of (by decide), by decide, by decide, by decide, by decide, by decide, by decide, by decide +kernel⟩

theorem wit_FloatCompares : let i : Instr := .fcmpLong ctl 1 (.g 2) (.reg (.g 3)) .f32 .lt .any
    (fcmpForm i).isSome = true ∧ i.wf = true ∧ Issues i duo ∧
      ∀ l, mbit duo.cur.lanes l = true → (duo.cx duo.cur.warp l).ten &&& flNV = 0 :=
  ⟨rfl, by decide, issues_of (by decide), fun l _ => by rw [duo_calm l]; decide⟩

theorem wit_PackedBlocks : let i : Instr := .qblk ctl 2 32 (some 64) .q8 .rne
    i.wf = true ∧ Issues i duo ∧ ∀ l (fl : Flags), fl &&& (duo.cx duo.cur.warp l).ten = 0 :=
  ⟨by decide, issues_of (by decide), fun l fl => by rw [duo_calm l]; exact BitVec.and_zero⟩

theorem wit_NarrowValues : (0x80 : Nat) < 256 ∧ (63 : Nat) < 64 ∧ (15 : Nat) < 16 ∧ fmtF16 ∈ ieee ∧ 0x7C01 < 2 ^ (fmtF16.ew + fmtF16.mw) ∧
    fmtF16.infPat = 0x7C00 := by decide

/-- An integer, a number, an infinity and a NaN to convert. -/
theorem wit_Conversions : converts .q8 ∧ converts .s32 ∧ converts .f16 ∧ 0xFFFFFFFF < 2 ^ tyWidth .s32 ∧ fpValue .f16 0x3C00 = .fin false 1024 (-10) ∧
    fpValue .f16 0x7C00 = .inf false ∧ fpValue .f16 0x7E00 = .nan false ∧ Ty.intTy .f16 = false ∧ isNarrow .q8 = true :=
  ⟨.inr (by decide), .inl (by decide), .inr (by decide), by decide, by decide, by decide, by decide, by decide, by decide⟩

/-- 30 values of 1, and 29 of them with an infinity. -/
theorem wit_PackedValues : let xs := List.replicate 30 0x3F800000
    let ys := 0x7F800000 :: List.replicate 29 0x3F800000
    xs.length = blockCount .f16 ∧ (∀ p ∈ xs, p < 2 ^ 32) ∧ ys.length = blockCount .f16 ∧ (∀ p ∈ ys, p < 2 ^ 32) ∧
      (∀ i, i < 30 → fmtF32.value ((xs[i]?).getD 0) ≠ .inf false) ∧ fmtF32.value ((ys[0]?).getD 0) = .inf false := by
  decide

/-- A block of zeros in q8 with its CRC, and one that is malformed. -/
theorem wit_UnpackedValues : let bs := blockBytes .q8 127 (List.replicate 60 0)
    bs.length = 64 ∧ blockOk bs = true ∧ blockFormat bs = some .q8 ∧ blockCount .q8 ≤ 60 ∧ 59 < blockCount .q8 ∧
      blockOk (List.replicate 64 0) = false := by
  decide +kernel

theorem wit_RandomWords : let i : Instr := .rng ctl (.g 4) (.g 2) none .b64
    i.wf = true ∧ Issues i (solo []) ∧ ∀ l, mbit (solo []).cur.lanes l = true → gtid ((solo []).cx (solo []).cur.warp l) < 2 ^ 40 :=
  ⟨by decide, issues_of (by decide), fun l h => by rw [lane_zero h]; decide⟩

theorem wit_RandomNormals : let i : Instr := .rngg ctl (.g 4) (.g 2) (some (.g 3)) .f32
    i.wf = true ∧ Issues i (solo []) ∧ ∀ l, mbit (solo []).cur.lanes l = true → gtid ((solo []).cx (solo []).cur.warp l) < 2 ^ 40 :=
  ⟨by decide, issues_of (by decide), fun l h => by rw [lane_zero h]; decide⟩

/-! ## Witnesses: across lanes -/

theorem wit_CrossLaneResults : ((Instr.bcst ctl (.g 1) (.g 2) (.imm 31)).wf = true ∧ Issues (.bcst ctl (.g 1) (.g 2) (.imm 31)) duo) ∧
    Issues (.vote ctl (.g 1) 2 0 true .most) duo ∧ Issues (.elect ctl (.g 1) 2) duo ∧
    (Instr.matchI ctl (.g 1) (.g 2) .n32).wf = true ∧ Issues (.matchI ctl (.g 1) (.g 2) .n32) duo :=
  ⟨⟨by decide, issues_of (by decide)⟩, issues_of (by decide), issues_of (by decide), by decide, issues_of (by decide)⟩

theorem wit_TreeResults : let i : Instr := .wred ctl (.g 1) (.g 2) (.g 3) .f32 .add .rne
    ∃ f, treeForm duo i = some f ∧ i.wf = true ∧ Issues i duo ∧
      ∀ l, mbit duo.cur.lanes l = true → (duo.cx duo.cur.warp l).guard (ctlOf i) = true → ¬ Enabled f (duo.cx duo.cur.warp l) :=
  ⟨_, rfl, by decide, issues_of (by decide), fun l _ _ => not_enabled _ (duo_calm l)⟩

theorem wit_IntegerTreeSums : Ty.intTy .s32 = true ∧ ∀ l p, (fun l : Nat => if l = 3 then none else some 7) l = some p → p < 2 ^ tyWidth .s32 := by
  refine ⟨by decide, fun l p h => ?_⟩
  have : p = 7 := by
    simp only at h
    split at h
    · cases h
    · exact (Option.some.inj h).symm
  subst this; decide

/-- One lane that names itself alone. -/
theorem wit_ShuffleMeets : let s := solo [(3, 1)]
    let i : Instr := .shfl ctl (.g 1) (.g 2) (.g 4) (.g 3) .n32 2
    Issues i s ∧ (∀ l, mbit s.cur.lanes l = true → l < s.curWarp.threads.length ∧ (s.thread s.cur.warp l).exited = false ∧
      (s.thread s.cur.warp l).pc = s.curPc ∧ (s.thread s.cur.warp l).wait ≠ .shfl) ∧ (∀ m ∈ s.curWarp.shfl, m.pc ≠ s.curPc) ∧
    ∀ l, active i s l = true → ∀ u, u < 32 → ((s.cx s.cur.warp l).src (.g 3)).getLsbD u = active i s u := by
  refine ⟨issues_of (by decide), fun l h => ?_, by decide, fun l h => ?_⟩
  · rw [lane_zero h]; decide
  · have h0 : l = 0 := lane_zero (by
      simp only [active, Bool.and_eq_true] at h
      exact h.1)
    subst h0; decide

/-- Lane 0 arrives and names itself and lane 1, which stands elsewhere. -/
theorem wit_ShuffleWaits : let s := tState (tWarp [tThread [(3, 3)], { tThread [] with pc := 0x2000 }]) 1
    let i : Instr := .shfl ctl (.g 1) (.g 2) (.g 4) (.g 3) .n32 2
    Issues i s ∧ ArriveWith i (.g 3) s 3 ∧ (∀ m ∈ s.curWarp.shfl, m.pc ≠ s.curPc) ∧ (3 : BitVec 32).getLsbD 1 = true ∧ mbit s.cur.lanes 1 = false ∧
      (s.thread s.cur.warp 1).exited = false := by
  refine ⟨issues_of (by decide), ⟨fun l h => ?_, ⟨0, by decide, by decide⟩, fun l _ h => ?_⟩, by decide, by decide, by decide, by decide⟩
  · rw [lane_zero h]; decide
  · have h0 : l = 0 := lane_zero (by
      simp only [active, Bool.and_eq_true] at h
      exact h.1)
    subst h0; decide

/-- Lane 0 arrives where lane 1 waits, both with mask 3. -/
theorem wit_ShuffleCloses : let m : Meeting := { pc := 0x1000, members := 3, arrTrue := 2, masks := [(1, 3)], offers := [(1, 9)], reads := [(1, 0)] }
    let s := tState { tWarp [tThread [(3, 3)], { tThread [(3, 3)] with wait := .shfl }] with shfl := [m] } 1
    let i : Instr := .shfl ctl (.g 1) (.g 2) (.g 4) (.g 3) .n32 2
    Issues i s ∧ s.curWarp.service = false ∧ ArriveWith i (.g 3) s 3 ∧ s.curWarp.shfl = [m] ∧ m.pc = s.curPc ∧ m.members = 3 ∧ m.arrFalse = 0 ∧
      (∀ l, l < 32 → m.arrTrue.getLsbD l = true → mbit s.cur.lanes l = false ∧ l < s.curWarp.threads.length ∧
        (s.thread s.cur.warp l).exited = false ∧ (s.thread s.cur.warp l).pc = s.curPc ∧ (s.thread s.cur.warp l).wait = .shfl ∧ tgetD m.masks l 0 = 3) ∧
      ∀ l, l < 32 → ((3 : BitVec 32).getLsbD l = true ↔ m.arrTrue.getLsbD l = true ∨ active i s l = true) := by
  refine ⟨issues_of (by decide), by decide, ⟨fun l h => ?_, ⟨0, by decide, by decide⟩, fun l _ h => ?_⟩, rfl, by decide, by decide, by decide,
    by decide, by decide⟩
  · rw [lane_zero h]; decide
  · have h0 : l = 0 := lane_zero (by
      simp only [active, Bool.and_eq_true] at h
      exact h.1)
    subst h0; decide

/-- −1 as an integral operand, a power of two, and a negative number. -/
theorem wit_ElementarySpecials : fmtF16 ∈ [fmtF16, fmtBf16, fmtF32] ∧ num true 1 0 = ((-1 : Int) : ℚ) ∧ (1 : Nat) ≠ 0 ∧
    (fmtF16.value 0x3400 = .fin false 1024 (-12) ∧ num false 1024 (-12) = (2 : ℚ) ^ (-2 : Int)) := by
  refine ⟨by decide, by norm_num [num], by decide, by decide, by norm_num [num]⟩

/-- FEX2 and FLG2 of 1.5. -/
theorem wit_RealValues : fmtF32 ∈ [fmtF16, fmtBf16, fmtF32] ∧ fmtF32.value 0x3FC00000 = .fin false 0xC00000 (-23) ∧ (0xC00000 : Nat) ≠ 0 ∧
    (∃ g ∈ realFunctions, g.2.1 (num false 0xC00000 (-23) : ℝ) ∧ g.2.2 (num false 0xC00000 (-23) : ℝ) ≠ 0) ∧
    0 < (num false 0xC00000 (-23) : ℝ) := by
  refine ⟨by decide, by decide, by decide, ⟨_, List.mem_cons_self, trivial, ?_⟩, ?_⟩
  · exact (Real.rpow_pos_of_pos (by norm_num) _).ne'
  · norm_num [num]


/-! ## Witnesses: encodings and steps -/

theorem wit_DecodeEncode : let i : Instr := .cas ctl (.g 5) (.g 2) (.g 3) (.g 6) .n64
    isEvent i = false ∧ i.wf = true := by decide

theorem wit_DecodedWords : ∃ i, decode (bytesOf [0x83803017, 0x00007800]) = .ok i := ⟨_, rfl⟩

/-- The state with the bytes of IADD g4, g4, g6 at an address of memory. -/
def withIadd (s : State) (a : Nat) : State := { s with mem := [(a, 0x0C), (a + 1, 0x82)] }
def iaddBytes : List Byte := [0x0C, 0x82, 0, 0]

theorem wit_StepRuns_bundle : let b : Bundle := { warp := 256, lanes := 1 }
    let s : State := { withIadd (solo []) 0x1000 with issue := [b] }
    let s1 : State := { s with issue := [], cur := { b with lanes := s.liveLanes b.warp b.lanes } }
    s.issue = b :: [] ∧ s.power.shutdown = false ∧ s1.cur.lanes ≠ 0 ∧ ∃ t, s1.fetch s1.curWarp s1.curPc = (t, .bytes iaddBytes false) ∧
      (t.landRule false iaddBytes).cur.lanes ≠ 0 ∧ decode iaddBytes = .ok (.iaddCompact 0 4 4 6) :=
  ⟨rfl, rfl, by decide, _, Prod.ext rfl (by decide), by decide, by decide⟩

theorem wit_StepRuns_badBytes : ∃ e, decode (bytesOf [0x40000000, 0, 0]) = .error e := ⟨_, rfl⟩

theorem wit_StepRuns_event : let s : State := { State.reset with agenda := [.event (.serviceThreadStart 3)] }
    s.issue = [] ∧ s.agenda = .event (.serviceThreadStart 3) :: [] ∧ isEvent (.serviceThreadStart 3) = true :=
  ⟨rfl, rfl, by decide⟩

theorem wit_StepRuns_service : let s : State := { withIadd (serv .monitor []) 0x1000 with home := .service 0 }
    let s1 := { s with now := s.now + 1 }.refreshTimer 0
    let s2 := s1.modWarp 0 fun w => w.evaluate 0
    let s3 : State := { s2 with cur := { warp := 0, lanes := 1, slot := 1 } }
    s.issue = [] ∧ s.agenda = [] ∧ s.home = .service 0 ∧ s.power.shutdown = false ∧ (s1.warp 0).svc.running = true ∧
      (s1.warp 0).svc.nextInt = none ∧ s2.eligible 0 0 (s2.thread 0 0).stallUntil (s2.thread 0 0) = true ∧
      ∃ t, s3.fetch s3.curWarp s3.curPc = (t, .bytes iaddBytes false) ∧ decode iaddBytes = .ok (.iaddCompact 0 4 4 6) ∧
        (t.landRule false iaddBytes).cur.lanes ≠ 0 :=
  ⟨rfl, rfl, rfl, rfl, by decide, by decide, by decide, _, Prod.ext rfl (by decide), by decide, by decide⟩

theorem wit_LandingRule : (∃ k, decode (encode (.land ctl)) = .ok (.land k)) ∧ mbit duo.cur.lanes 1 = true ∧ 1 < duo.curWarp.threads.length ∧
    ∀ l, mbit (solo []).cur.lanes l = true → ((solo []).thread (solo []).cur.warp l).landing = false :=
  ⟨⟨ctl, by decide⟩, by decide, by decide, fun l h => by rw [lane_zero h]; decide⟩

theorem wit_StepKeepsMemory : State.reset.memOk ∧ ∃ t, step State.reset = .next t := ⟨by unfold State.memOk; decide, _, rfl⟩

theorem wit_CachesStayCoherent : ∃ t, step State.reset = .next t := ⟨_, rfl⟩

/-! ## Witnesses: checks, traps, levels -/

theorem traceable (regs : Tbl Word) : Traceable (solo regs) :=
  ⟨rfl, show (0x8000 : Word) ≠ 0 by decide, rfl⟩

theorem bundled (w : Warp) (h : (w.threads[0]?).map Thread.exited = some false) (s : State) (hs : s.cur.lanes = 1) (hw : s.curWarp = w) :
    Bundled s := by
  have hlen : 0 < w.threads.length := by
    cases ht : w.threads with
    | nil => simp [ht] at h
    | cons a r => simp
  refine ⟨by rw [hs]; decide, fun l hl => ?_⟩
  rw [hs] at hl
  have h0 := lane_zero hl
  subst h0
  refine ⟨by rw [hw]; exact hlen, ?_⟩
  have ht : s.thread s.cur.warp 0 = ((w.threads[0]?).getD {}) := by rw [← hw]; rfl
  rw [ht]
  cases hx : w.threads[0]? with
  | none => simp [hx] at h
  | some t => simpa [hx] using h

theorem oneThread (lv : Level) (regs : Tbl Word) : OneThread (serv lv regs) :=
  ⟨show 0 < 256 by decide, rfl, rfl, rfl, rfl⟩

theorem bundled_solo (regs : Tbl Word) : Bundled (solo regs) := bundled (solo regs).curWarp rfl _ rfl rfl
theorem bundled_serv (lv : Level) (regs : Tbl Word) : Bundled (serv lv regs) := bundled (serv lv regs).curWarp rfl _ rfl rfl

theorem taken_supervisor : takenAt (serv .supervisor []).curWarp.svc .supervisor .supervisor :=
  ⟨by decide, by decide, by decide, fun z => by cases z <;> decide⟩

/-- A register beyond N; a register of monitor level read at supervisor level. -/
theorem wit_RefusedByCheck :
    (let s := tState { tWarp [tThread []] with regsN := 32 } 1
     let i : Instr := .iaddLong ctl (.g 40) (.g 2) (.imm 1) .s64 false
     isEvent i = false ∧ refusedBy i s = some (1, wordsAddr i) ∧ s.cur.lanes ≠ 0 ∧ Traceable s) ∧
    let s := serv .supervisor []
    let i : Instr := .srd ctl (.g 1) 0x50
    refusedBy i s = some (2, 0) ∧ s.cur.lanes ≠ 0 ∧ OneThread s ∧ s.curWarp.level ≠ .user ∧ takenAt s.curWarp.svc s.curWarp.level.up .hypervisor :=
  ⟨⟨by decide, by decide, by decide, by decide, by decide, by decide⟩, by decide, by decide, oneThread _ _, by decide,
    by decide, by decide, by decide, fun z => by cases z <;> decide⟩

/-- A warp-wide instruction with a thread elsewhere, and with a thread there that is not in the bundle; a result read early. -/
theorem wit_PartialAndEarly : let i : Instr := .cpy ctl (.g 2) 0
    (let s := tState (tWarp [tThread [], { tThread [] with pc := 0x2000 }]) 1
     isEvent i = false ∧ refusedBy i s = none ∧ s.cur.lanes ≠ 0 ∧ Traceable s ∧ clsOf i = 10 ∧
       1 < s.curWarp.threads.length ∧ (s.thread s.cur.warp 1).exited = false ∧ (s.thread s.cur.warp 1).pc ≠ s.curPc) ∧
    (let s := tState (tWarp [tThread [], tThread []]) 1
     refusedBy i s = none ∧ s.cur.lanes ≠ 0 ∧ Traceable s ∧ (∀ l, l < 2 → (s.thread s.cur.warp l).pc = s.curPc) ∧
       1 < s.curWarp.threads.length ∧ (s.thread s.cur.warp 1).exited = false ∧ mbit s.cur.lanes 1 = false) ∧
    let j : Instr := .iaddLong ctl (.g 1) (.g 2) (.imm 1) .s64 false
    let s := tState { tWarp [{ tThread [] with early := [⟨.g 2, 0, 4, 0, 4⟩] }] with checking := true } 1
    isEvent j = false ∧ refusedBy j s = none ∧ s.cur.lanes ≠ 0 ∧ Traceable s ∧ ¬ (clsOf j = 10 ∨ clsOf j = 11) ∧ s.curWarp.checking = true ∧
      (mbit s.cur.lanes 0 && readsEarly j (s.cx s.cur.warp 0)) = true :=
  ⟨⟨by decide, by decide, by decide, ⟨by decide, by decide, by decide⟩, by decide, by decide, by decide, by decide⟩,
    ⟨by decide, by decide, ⟨by decide, by decide, by decide⟩, by decide, by decide, by decide, by decide⟩,
    by decide, by decide, by decide, ⟨by decide, by decide, by decide⟩, by decide, by decide, by decide⟩

/-- A launch that runs. -/
def tLaunch : Launch := { addr := 0x4000, tenant := 0, queue := 0, lrec := { entry := 0x1000, w := 1, g := 1, n := 192, gx := 1, gy := 1, gz := 1 }, order := 0, state := .ready }

theorem wit_SoftwareTraps : let i : Instr := .trap ctl 42
    (Issues i (solo []) ∧ Bundled (solo []) ∧ acting i (solo []) 0 = true ∧ Traceable (solo [])) ∧
    (Issues (.brkpt ctl) (solo []) ∧ ((solo []).tenant (solo []).curWarp.tenant).debugHold = false) ∧
    (let s := tState { tWarp [tThread []] with tmask := 2 } 1
     Issues i s ∧ Bundled s ∧ acting i s 0 = true ∧ s.curWarp.level = .user ∧ s.curWarp.tvec ≠ 0 ∧ s.curWarp.tmask ≠ 0 ∧
       ∀ l, l < 32 → acting i s l = true → s.curWarp.tmask.getLsbD l = false) ∧
    let s := { tState { tWarp [tThread []] with tvec := 0 } 1 with launches := [(1, tLaunch)] }
    Issues i s ∧ Bundled s ∧ acting i s 0 = true ∧ s.curWarp.service = false ∧ s.curWarp.resident = true ∧
      tget s.launches s.curWarp.launch = some tLaunch ∧ tLaunch.stopped = false ∧ tLaunch.state ≠ .finished ∧ s.curWarp.tvec = 0 :=
  ⟨⟨issues_of (by decide), bundled_solo _, by decide, traceable _⟩, ⟨issues_of (by decide), by decide⟩,
    ⟨issues_of (by decide), bundled _ (by decide) _ rfl rfl, by decide, by decide, by decide, by decide, by decide⟩,
    issues_of (by decide), bundled _ (by decide) _ rfl rfl, by decide, by decide, by decide, by decide, by decide, by decide, by decide⟩

theorem wit_DebuggerHold : let s := { solo [] with tenants := [(0, { debugHold := true })] }
    Issues (.brkpt ctl) s ∧ (s.tenant s.curWarp.tenant).debugHold = true := ⟨issues_of (by decide), by decide⟩

/-- SVC at user level, above it, and not guard-true; HVC and SEC at hypervisor level. -/
theorem wit_LevelCalls :
    (Issues (.svc ctl 5) (serv .user []) ∧ OneThread (serv .user []) ∧ acting (.svc ctl 5) (serv .user []) 0 = true ∧
      (serv .user []).curWarp.level = .user) ∧
    (Issues (.svc ctl 5) (serv .supervisor []) ∧ acting (.svc ctl 5) (serv .supervisor []) 0 = true ∧
      (serv .supervisor []).curWarp.level ≠ .user ∧ takenAt (serv .supervisor []).curWarp.svc .supervisor .supervisor) ∧
    (Issues (.svc ⟨0, 1, false⟩ 5) (serv .user []) ∧ acting (.svc ⟨0, 1, false⟩ 5) (serv .user []) 0 = false) ∧
    Issues (.hvc ctl 5) (serv .hypervisor []) ∧ Issues (.sec ctl 5) (serv .hypervisor []) :=
  ⟨⟨issues_of (by decide), oneThread _ _, by decide, by decide⟩, ⟨issues_of (by decide), by decide, by decide, taken_supervisor⟩,
    ⟨issues_of (by decide), by decide⟩, issues_of (by decide), issues_of (by decide)⟩

/-- One thread of a user-level warp in its handler. -/
def handling : State := withIadd (tState { tWarp [{ tThread [] with telem := 1 }] with tmask := 1, tpc := 0x2000 } 1) 0x2000

theorem wit_TrapReturns : let i : Instr := .eret ctl false
    (Issues i handling ∧ Bundled handling ∧ handling.curWarp.level = .user ∧
      ∀ l, acting i handling l = true → handling.curWarp.tmask.getLsbD l = true) ∧
    (Issues i (serv .supervisor []) ∧ Bundled (serv .supervisor []) ∧ (serv .supervisor []).curWarp.level ≠ .user ∧
      OneThread (serv .supervisor []) ∧ acting i (serv .supervisor []) 0 = true) ∧
    (Issues i (solo []) ∧ Bundled (solo []) ∧ Traceable (solo []) ∧ acting i (solo []) 0 = true) ∧
    Issues (.eret ctl true) (serv .supervisor []) ∧ acting (.eret ctl true) (serv .supervisor []) 0 = true ∧
      takenAt (serv .supervisor []).curWarp.svc .supervisor .supervisor :=
  ⟨⟨issues_of (by decide), bundled _ (by decide) _ rfl rfl, by decide, fun l h => by
      have h0 : l = 0 := lane_zero (by
        simp only [acting, Bool.and_eq_true] at h
        exact h.1)
      subst h0; decide⟩,
    ⟨issues_of (by decide), bundled_serv _ _, by decide, oneThread _ _, by decide⟩,
    ⟨issues_of (by decide), bundled_solo _, traceable _, by decide⟩,
    issues_of (by decide), by decide, taken_supervisor⟩

theorem wit_SubstitutingReturn : let e : Instr := .eret ctl true
    let s := handling
    Issues e s ∧ s.cur.lanes = maskOf [0] ∧ 0 < s.curWarp.threads.length ∧ (s.thread s.cur.warp 0).exited = false ∧
      (s.cx s.cur.warp 0).guard ctl = true ∧ s.curWarp.level = .user ∧ s.curWarp.tmask.getLsbD 0 = true ∧
      (∃ t, s.fetch s.curWarp s.curWarp.tpc = (t, .bytes iaddBytes false)) ∧ decode iaddBytes = .ok (.iaddCompact 0 4 4 6) ∧
      (writesOf (.iaddCompact 0 4 4 6)).head? = some (.g 4) ∧ 4 < s.curWarp.regsN :=
  ⟨issues_of (by decide), by decide, by decide, by decide, by decide, by decide, by decide, ⟨_, Prod.ext rfl (by decide)⟩, by decide,
    by decide, by decide⟩

/-! ## Witnesses: control flow -/

theorem wit_Branches : (branchForm (.callx ctl (.g 30) (.g 2))).isSome = true ∧ Issues (.callx ctl (.g 30) (.g 2)) duo ∧
    (branchForm (.braLong ctl 0xFFFE)).isSome = true ∧ Issues (.braLong ctl 0xFFFE) duo :=
  ⟨rfl, issues_of (by decide), rfl, issues_of (by decide)⟩

theorem wit_MeetingAddresses : (meetForm (.leaveLong ctl (.g 2) 4)).isSome = true ∧ Issues (.leaveLong ctl (.g 2) 4) duo :=
  ⟨rfl, issues_of (by decide)⟩

/-- Two threads at their meeting: the first is released; without the second at it, or with the second in its handler, held; in its own
handler, neither. -/
theorem wit_Meetings : let t : Thread := { tThread [] with meet := 0x1000 }
    (0 < (tWarp [t, t]).threads.length ∧ (t.exited = false ∧ t.meet ≠ 0 ∧ t.pc = t.meet) ∧ (∀ v ∈ [t, t], v.pc = t.meet) ∧
      ∀ j, (tWarp [t, t]).tmask.getLsbD j = false) ∧
    (¬ ∀ v ∈ [t, { t with pc := 0x2000 }], v.exited = false → v.meet = t.meet → v.pc = t.meet) ∧
    ({ tWarp [t, t] with tmask := 2 }.tmask.getLsbD 0 = false ∧ { tWarp [t, t] with tmask := 2 }.tmask.getLsbD 1 = true) :=
  ⟨⟨by decide, by decide, by decide, fun _ => BitVec.getLsbD_zero⟩, by decide, by decide⟩

theorem wit_PauseResults : Issues (.nop ctl) duo ∧ Issues (.sleep ctl (.g 2)) duo ∧ Issues (.land ctl) duo ∧ Issues (.yield ctl) duo ∧
    acting (.yield ctl) duo 0 = true ∧ duo.curWarp.service = false :=
  ⟨issues_of (by decide), issues_of (by decide), issues_of (by decide), issues_of (by decide), by decide, by decide⟩

theorem wit_Exits : let i : Instr := .exit ctl
    (Issues i (solo []) ∧ Bundled (solo []) ∧ (solo []).curWarp.service = false ∧ (solo []).curWarp.paired = false) ∧
    (Issues i (serv .user []) ∧ Bundled (serv .user []) ∧ OneThread (serv .user []) ∧ acting i (serv .user []) 0 = true ∧
      (serv .user []).curWarp.level = .user) ∧
    Issues i (serv .monitor []) ∧ OneThread (serv .monitor []) ∧ acting i (serv .monitor []) 0 = true ∧ (serv .monitor []).curWarp.level ≠ .user :=
  ⟨⟨issues_of (by decide), bundled_solo _, by decide, by decide⟩,
    ⟨issues_of (by decide), bundled_serv _ _, oneThread _ _, by decide, by decide⟩,
    issues_of (by decide), oneThread _ _, by decide, by decide⟩

theorem wit_Deposits : let i : Instr := .reord ctl (.g 2) (.g 3) (.g 4)
    let r : ReTarget := { addr := 0x4000, tenant := 0, buf0 := [⟨3, 0⟩, ⟨9, 0⟩] }
    let s := { solo [(2, 5), (3, 7), (4, 0x4000)] with retargets := [r] }
    Issues i s ∧ s.curWarp.paired = false ∧ s.curWarp.service = false ∧ s.cur.lanes = maskOf [0] ∧ 0 < s.curWarp.threads.length ∧
      (s.thread s.cur.warp 0).exited = false ∧ acting i s 0 = true ∧ (s.thread s.cur.warp 0).rsDepth = 0 ∧
      (∀ p ∈ (s.thread s.cur.warp 0).pend, p.due ≤ s.now) ∧
      s.retarget s.curWarp.tenant ((s.cx s.cur.warp 0).src (.g 4)).toNat = some r ∧ r.draining = false ∧
      (r.buf (dieOf s.curWarp.core)).length < 511 ∧ (r.buf (dieOf s.curWarp.core)).Pairwise (fun p q => p.key ≤ q.key) :=
  ⟨issues_of (by decide), by decide, by decide, by decide, by decide, by decide, by decide, by decide, by decide, by decide, by decide,
    by decide, by decide⟩


/-! ## Witnesses: memory -/

theorem l1c_empty {s : State} (h1 : s.l1 = []) (k : Nat) : s.l1c k = {} := by unfold State.l1c; rw [h1]; rfl

theorem cachesOk_empty {s : State} (h1 : s.l1 = []) (h2 : s.l2 = []) : cachesOk s := by
  have e2 : ∀ k, s.l2c k = {} := fun k => by unfold State.l2c; rw [h2]; rfl
  refine ⟨fun k => ?_, fun c _ => l1c_empty h1 c, fun a i j b c _ _ hb => ?_⟩
  · rw [l1c_empty h1, e2]; exact ⟨⟨rfl, nofun⟩, ⟨rfl, nofun⟩⟩
  · rw [e2] at hb; cases hb

theorem noStores_empty {s : State} (h : s.warps = []) : noStores s := fun _ hw => absurd (h ▸ hw) List.not_mem_nil

theorem noDirty_empty {s : State} (h1 : s.l1 = []) (c : Nat) : noDirty s c := fun a => by rw [l1c_empty h1]; rfl

theorem not_ownStore {s : State} (h1 : s.l1 = []) (c g : Nat) : ¬ ownStore s c g := by
  rintro ⟨a, b, -, h⟩
  rw [noDirty_empty h1 c a] at h; cases h

theorem no_stalls {s : State} (h : s.fwds = []) (c : Nat) (p : Nat → Bool) : s.stalls c p = false := by unfold State.stalls; rw [h]; rfl

theorem quiet_empty {s : State} (hf : s.fwds = []) (ht : s.tenants.all fun p => p.2.thresh == 0) : Quiet s := by
  refine ⟨hf, fun k => ?_⟩
  have h : ∀ t : Tbl Tenant, (t.all fun p => p.2.thresh == 0) = true → (tgetD t k ({} : Tenant)).thresh = 0 := by
    intro t
    induction t with
    | nil => intro _; rfl
    | cons p r ih =>
      intro h
      simp only [List.all_cons, Bool.and_eq_true, beq_iff_eq] at h
      obtain ⟨a, b⟩ := p
      by_cases hk : k = a
      · simpa [tgetD, tget, hk] using h.1
      · simpa [tgetD, tget, hk] using ih h.2
  exact h _ ht

/-- What the map of the tests makes of an address. -/
def tX (a : Nat) : Xlat := { pa := a, ipa := a, leafPa := 0x700000, tiers := 7 }

theorem plain_of {s : State} {l : Nat} {acc : Acc} {e : Word} {len : Nat} {x : Xlat} (hf : e.toNat % len = 0 ∧ canonical e = true)
    (hm : (s.translateFor s.curWarp acc (addr e)).2 = .ok x) (ht : (tierOf x.pa).isSome = true) (hc : x.ms = false ∧ x.repl = false)
    (h : s.fwds = [] ∧ s.power.pstate = 0 ∧ s.poison = [] ∧ s.l1 = [] ∧ s.l2 = []) : Plain s l acc e len x where
  form := hf
  maps := hm
  tier := ht
  cached := hc
  still := by unfold State.fwdAt; rw [h.1]; rfl
  sent := fun c => no_stalls h.1 c _
  awake := h.2.1
  good := fun a _ => by unfold State.poisoned; rw [h.2.2.1]; rfl
  sound := fun a b hb => by rw [l1c_empty h.2.2.2.1] at hb; cases hb
  caches := cachesOk_empty h.2.2.2.1 h.2.2.2.2

/-- One compute thread whose g2 is an address. -/
def at5000 : State := solo [(2, 0x5000), (3, 7), (4, 0)]

theorem wit_Loads : let i : Instr := .ld ctl (.g 1) (.g 2) 16 (.ty .s16)
    let s := { at5000 with mem := [(0x5010, 9)] }
    i.wf = true ∧ Solo i s 0 ∧ Plain s 0 accLoad ((s.cx s.cur.warp 0).ea (.g 2) 16) (size (.ty .s16)) (tX 0x5010) ∧
      ∀ j, j < size (.ty .s16) → forwarded s.curWarp.storeQ (some (0x5010 + j)) none ≠ .red :=
  ⟨by decide, ⟨issues_of (by decide), by decide, by decide, by decide, by decide, by decide⟩,
    plain_of (by decide) (by decide) (by decide) (by decide) (by decide), by decide⟩

/-- A queue with room, on a compute and on a service core, and a full one. -/
theorem wit_Stores : let i : Instr := .st ctl (.g 4) (.g 2) 16 .b128
    (i.wf = true ∧ Solo i at5000 0 ∧ Plain at5000 0 accStore ((at5000.cx at5000.cur.warp 0).ea (.g 2) 16) (size .b128) (tX 0x5010) ∧
      at5000.curWarp.storeQ.length < 128) ∧
    (let s := serv .user [(2, 0x5000)]
     Solo i s 0 ∧ Plain s 0 accStore ((s.cx s.cur.warp 0).ea (.g 2) 16) (size .b128) (tX 0x5010) ∧ s.curWarp.storeQ.length < 128) ∧
    let s := tState { tWarp [tThread [(2, 0x5000)]] with storeQ := List.replicate 128 (.store (.mem (tX 0x5010)) []) } 1
    Solo i s 0 ∧ Plain s 0 accStore ((s.cx s.cur.warp 0).ea (.g 2) 16) (size .b128) (tX 0x5010) ∧ 128 ≤ s.curWarp.storeQ.length :=
  ⟨⟨by decide, ⟨issues_of (by decide), by decide, by decide, by decide, by decide, by decide⟩,
      plain_of (by decide) (by decide) (by decide) (by decide) (by decide), by decide⟩,
    ⟨⟨issues_of (by decide), by decide, by decide, by decide, by decide, by decide⟩,
      plain_of (by decide) (by decide) (by decide) (by decide) (by decide), by decide⟩,
    ⟨issues_of (by decide), by decide, by decide, by decide, by decide, by decide⟩,
    plain_of (by decide) (by decide) (by decide) (by decide) (by decide), Nat.le_of_eq List.length_replicate.symm⟩

/-- A line finds a place in an empty L1 (its set is a free value). -/
theorem place_empty {s : State} {c : Nat} (h1 : s.l1 = []) (h2 : (s.core c).retiredLines = []) (h3 : s.selfTests = []) (line : Nat)
    (x : Option Xlat) : (s.l1Place c line x).isSome = true := by
  simp [State.l1Place, l1c_empty h1, Cache.place, Cache.hasLine, h2, h3, freeWay, Config.l1Ways]
  exact ⟨0, by decide⟩

theorem wit_QueueDrains : let x := tX 0x5010
    ((tierOf x.pa).isSome = true ∧ x.ms = false ∧ x.repl = false) ∧
    (let s := tState { tWarp [] with storeQ := [.store (.mem x) [1, 2]] } 0
     s.fwdAt 0x5010 = none ∧ s.stalls (s.warp 256).core (fun a => a / 256 == x.pa / 256) = false ∧ cachesOk s ∧
       (s.warp 256).storeQ = .store (.mem x) [1, 2] :: [] ∧ (s.warp 256).core < 1024 ∧
       (s.l1Place (s.warp 256).core (x.pa / 256) (some x)).isSome = true) ∧
    (let s := { State.reset with warps := [(0, { tServ .user [] with storeQ := [.store (.mem x) [1, 2]] })] }
     s.fwdAt 0x5010 = none ∧ s.stalls (s.warp 0).core (fun a => a / 256 == x.pa / 256) = false ∧ cachesOk s ∧
       (s.warp 0).storeQ = .store (.mem x) [1, 2] :: [] ∧ 1024 ≤ (s.warp 0).core ∧ x.pa % 64 + 2 ≤ 64) ∧
    let s := tState { tWarp [] with storeQ := [.red (.mem x) .add .s32 5] } 0
    s.fwdAt 0x5010 = none ∧ s.stalls (s.warp 256).core (fun a => a / 256 == x.pa / 256) = false ∧ cachesOk s ∧
      (s.warp 256).storeQ = .red (.mem x) .add .s32 5 :: [] ∧ x.pa % (tyWidth .s32 / 8) = 0 ∧ tyWidth .s32 = 32 :=
  ⟨by decide, ⟨rfl, rfl, cachesOk_empty rfl rfl, by decide, by decide, place_empty rfl rfl rfl _ _⟩,
    ⟨rfl, rfl, cachesOk_empty rfl rfl, by decide, by decide, by decide⟩,
    rfl, rfl, cachesOk_empty rfl rfl, by decide, by decide, by decide⟩

theorem wit_Reservations : at5000.curWarp.storeQ = [] ∧
    (let i : Instr := .lr ctl (.g 1) (.g 2) 16 .n64
     i.wf = true ∧ Solo i at5000 0 ∧ Plain at5000 0 accLoad ((at5000.cx at5000.cur.warp 0).ea (.g 2) 16) 8 (tX 0x5010)) ∧
    (let i : Instr := .sc ctl (.g 3) (.g 2) 16 .n64 2
     let s := tState (tWarp [{ tThread [(2, 0x5000)] with resv := some ⟨0x5010 / 64, 0⟩ }]) 1
     i.wf = true ∧ Solo i s 0 ∧ Plain s 0 accAtomic ((s.cx s.cur.warp 0).ea (.g 2) 16) 8 (tX 0x5010) ∧
       ¬ ownStore s s.curWarp.core (0x5010 / 64) ∧ ∃ r, (s.thread s.cur.warp 0).resv = some r ∧ r.granule = (tX 0x5010).pa / 64 ∧ s.now ≤ r.time + 1400) ∧
    let i : Instr := .sc ctl (.g 3) (.g 2) 16 .n64 2
    Solo i at5000 0 ∧ Plain at5000 0 accAtomic ((at5000.cx at5000.cur.warp 0).ea (.g 2) 16) 8 (tX 0x5010) ∧
      ¬ ∃ r, (at5000.thread at5000.cur.warp 0).resv = some r ∧ r.granule = (tX 0x5010).pa / 64 ∧ at5000.now ≤ r.time + 1400 :=
  ⟨by decide, ⟨by decide, ⟨issues_of (by decide), by decide, by decide, by decide, by decide, by decide⟩,
      plain_of (by decide) (by decide) (by decide) (by decide) (by decide)⟩,
    ⟨by decide, ⟨issues_of (by decide), by decide, by decide, by decide, by decide, by decide⟩,
      plain_of (by decide) (by decide) (by decide) (by decide) (by decide), not_ownStore rfl _ _, _, rfl, by decide, by decide⟩,
    ⟨issues_of (by decide), by decide, by decide, by decide, by decide, by decide⟩,
    plain_of (by decide) (by decide) (by decide) (by decide) (by decide), by
      rintro ⟨r, h, -⟩
      exact absurd h (by
        show (none : Option Resv) ≠ some r
        exact nofun)⟩

theorem wit_AtomicValues : (Ty.intTy .s32 = true ∨ Ty.s32 = .b64) ∧ 0xFFFFFFFF < 2 ^ tyWidth .s32 ∧ 1 < 2 ^ tyWidth .s32 := by decide

theorem wit_Atomics : let i : Instr := .atom ctl (.g 1) (.g 2) (.g 3) .add .s32
    (atomForm i).isSome = true ∧ i.wf = true ∧ Solo i at5000 0 ∧
      Plain at5000 0 accAtomic ((at5000.cx at5000.cur.warp 0).src (.g 2)) 8 (tX 0x5000) ∧ at5000.curWarp.storeQ = [] ∧
      (at5000.thread at5000.cur.warp 0).applied = 0 ∧ forbidsFloat at5000.curWarp .s32 = false ∧ noDirty at5000 at5000.curWarp.core :=
  ⟨rfl, by decide, ⟨issues_of (by decide), by decide, by decide, by decide, by decide, by decide⟩,
    plain_of (by decide) (by decide) (by decide) (by decide) (by decide), by decide, by decide, by decide, noDirty_empty rfl _⟩

theorem wit_AtomicTraps : let i : Instr := .atom ctl (.g 1) (.g 2) (.g 3) .add .f32
    (let s := tState { tWarp [tThread [(2, 0x5000)]] with detFloat := true } 1
     (atomForm i).isSome = true ∧ i.wf = true ∧ Solo i s 0 ∧ Traceable s ∧ s.curWarp.storeQ = [] ∧ forbidsFloat s.curWarp .f32 = true) ∧
    let s := solo [(2, 0x5004)]
    Solo i s 0 ∧ Traceable s ∧ forbidsFloat s.curWarp .f32 = false ∧ ((s.cx s.cur.warp 0).src (.g 2)).toNat % 8 ≠ 0 :=
  ⟨⟨rfl, by decide, ⟨issues_of (by decide), by decide, by decide, by decide, by decide, by decide⟩, ⟨by decide, by decide, by decide⟩,
      by decide, by decide⟩,
    ⟨issues_of (by decide), by decide, by decide, by decide, by decide, by decide⟩, traceable _, by decide, by decide⟩

/-! ## Witnesses: scratch -/

/-- A block of 4 KiB of scratch and 16 bytes a lane. -/
def tBlock : Block := { launch := 1, gang := 3, pos := 0, bid := 0, core := 0, warps := [256], sBytes := 0x1000, pBytes := 16 }
/-- A state with that block, its gang, and a carve of its tenant on die 0. -/
def withBlock (s : State) (tags : List Nat) : State :=
  { s with blocks := [(2, { tBlock with tags := tags })], gangs := [(3, { launch := 1, lin := 0, cluster := 0, blocks := [2] })]
           tenants := [(0, { units0 := 1, place := [(0x110, 0x80000000)] })] }
/-- One thread whose g2 is a scratch address. -/
def at40 : State := withBlock (solo [(2, 0x40), (3, 7)]) []

theorem wit_ScratchAddresses : (0 < 8 ∧ 0x40 / 2 ^ 32 = 0 ∧ 0x40 % 2 ^ 32 % 8 = 0 ∧ 0x40 % 2 ^ 32 + 8 ≤ (at40.block at40.curWarp.block).sBytes) ∧
    at40.gangBlock at40.curWarp 0 = some 2 ∧ at40.gangBlock at40.curWarp 1 = none ∧
    at40.placeAt at40.curWarp.tenant (0x110 + 0) = some 0 ∧ at40.placeAt at40.curWarp.tenant (0x110 + 1) = none := by decide

theorem wit_ScratchLoads : let i : Instr := .lds ctl (.g 1) (.g 2) 8 (.ty .n32) .wfclr false
    ((scrLoadForm i).isSome = true ∧ i.wf = true ∧ Solo i at40 0 ∧ at40.curWarp.storeQ = [] ∧
      at40.scrAddr at40.curWarp 0 .core ((at40.cx at40.cur.warp 0).ea (.g 2) 8) 4 = .ok (.block 2, 0x48) ∧
      at40.tagFull (.block 2) 0x48 = false) ∧
    let s := withBlock (solo [(2, 0x40)]) [4]
    Solo i s 0 ∧ s.scrAddr s.curWarp 0 .core ((s.cx s.cur.warp 0).ea (.g 2) 8) 4 = .ok (.block 2, 0x48) ∧ s.tagFull (.block 2) 0x48 = true ∧
      s.scrBad (.block 2) 0x48 4 = false :=
  ⟨⟨rfl, by decide, ⟨issues_of (by decide), by decide, by decide, by decide, by decide, by decide⟩, by decide, rfl, by decide⟩,
    ⟨issues_of (by decide), by decide, by decide, by decide, by decide, by decide⟩, rfl, by decide, by decide⟩

/-- A store without `.we` of a compute thread and of a service thread; a queue with a store to scratch; with `.we` at an empty and at a
full granule. -/
theorem wit_ScratchStores :
    (let i : Instr := .sts ctl (.g 3) (.g 2) 8 (.ty .n32) false false
     (scrStoreForm i).isSome = true ∧ i.wf = true ∧ Solo i at40 0 ∧ at40.curWarp.storeQ.length < 128 ∧
       at40.scrAddr at40.curWarp 0 .core ((at40.cx at40.cur.warp 0).ea (.g 2) 8) 4 = .ok (.block 2, 0x48)) ∧
    (let i : Instr := .sts ctl (.g 3) (.g 2) 8 (.ty .n32) false true
     let s := { serv .user [(2, 0x40)] with tenants := [(0, { units0 := 1, place := [(0x110, 0x80000000)] })] }
     (scrStoreForm i).isSome = true ∧ i.wf = true ∧ Solo i s 0 ∧ s.curWarp.service = true ∧ s.curWarp.storeQ.length < 128 ∧
       s.scrAddr s.curWarp 0 .die ((s.cx s.cur.warp 0).ea (.g 2) 8) 4 = .ok (.die 0 0, 0x48)) ∧
    (let e : SqEntry := .store (.scratch (.block 2) 0x48) [1, 2, 3, 4]
     (withBlock (tState { tWarp [] with storeQ := [e] } 0) []).curWarp.storeQ = e :: []) ∧
    let i : Instr := .sts ctl (.g 3) (.g 2) 8 (.ty .n32) true false
    (scrStoreForm i).isSome = true ∧ i.wf = true ∧ Solo i at40 0 ∧ at40.curWarp.storeQ = [] ∧ at40.tagFull (.block 2) 0x48 = false ∧
      let s := withBlock (solo [(2, 0x40)]) [4]
      Solo i s 0 ∧ s.scrAddr s.curWarp 0 .core ((s.cx s.cur.warp 0).ea (.g 2) 8) 4 = .ok (.block 2, 0x48) ∧ s.tagFull (.block 2) 0x48 = true :=
  ⟨⟨rfl, by decide, ⟨issues_of (by decide), by decide, by decide, by decide, by decide, by decide⟩, by decide, rfl⟩,
    ⟨rfl, by decide, ⟨issues_of (by decide), by decide, by decide, by decide, by decide, by decide⟩, by decide, by decide, rfl⟩, rfl,
    rfl, by decide, ⟨issues_of (by decide), by decide, by decide, by decide, by decide, by decide⟩, by decide, by decide,
    ⟨issues_of (by decide), by decide, by decide, by decide, by decide, by decide⟩, rfl, by decide⟩

theorem wit_Tags : let i : Instr := .fetest ctl 1 (.g 2) 8 .core
    (tagForm i).isSome = true ∧ i.wf = true ∧ Solo i at40 0 ∧ at40.curWarp.storeQ = [] ∧
      at40.scrAddr at40.curWarp 0 .core ((at40.cx at40.cur.warp 0).ea (.g 2) 8) 1 = .ok (.block 2, 0x48) :=
  ⟨rfl, by decide, ⟨issues_of (by decide), by decide, by decide, by decide, by decide, by decide⟩, by decide, rfl⟩

theorem wit_ScratchAtomics : let i : Instr := .atoms ctl (.g 1) (.g 2) (.g 3) .max false .s64
    (atomsForm i).isSome = true ∧ i.wf = true ∧ Solo i at40 0 ∧ at40.curWarp.storeQ = [] ∧ forbidsFloat at40.curWarp .s64 = false ∧
      at40.scrAddr at40.curWarp 0 .core ((at40.cx at40.cur.warp 0).src (.g 2)) 8 = .ok (.block 2, 0x40) ∧ at40.scrBad (.block 2) 0x40 8 = false :=
  ⟨rfl, by decide, ⟨issues_of (by decide), by decide, by decide, by decide, by decide, by decide⟩, by decide, by decide, rfl, by decide⟩

theorem wit_Reductions :
    (let i : Instr := .red ctl (.g 2) (.g 3) .add .s32
     i.wf = true ∧ Solo i at5000 0 ∧ Plain at5000 0 accAtomic ((at5000.cx at5000.cur.warp 0).src (.g 2)) 8 (tX 0x5000) ∧
       (at5000.thread at5000.cur.warp 0).applied = 0 ∧ at5000.curWarp.storeQ.length + 64 / tyWidth .s32 ≤ 128 ∧ forbidsFloat at5000.curWarp .s32 = false) ∧
    let i : Instr := .reds ctl (.g 2) (.g 3) .add false .s32
    i.wf = true ∧ Solo i at40 0 ∧ at40.scrAddr at40.curWarp 0 .core ((at40.cx at40.cur.warp 0).src (.g 2)) 8 = .ok (.block 2, 0x40) :=
  ⟨⟨by decide, ⟨issues_of (by decide), by decide, by decide, by decide, by decide, by decide⟩,
      plain_of (by decide) (by decide) (by decide) (by decide) (by decide), by decide, by decide, by decide⟩,
    by decide, ⟨issues_of (by decide), by decide, by decide, by decide, by decide, by decide⟩, rfl⟩


/-! ## Witnesses: fences, reclamation, engines -/

theorem wit_Fences : let i : Instr := .fence ctl .ar .cl
    Solo i at5000 0 ∧ at5000.curWarp.storeQ = [] ∧ Quiet at5000 ∧ cachesOk at5000 ∧ acqs .ar = true ∧
      ∀ p ∈ (at5000.thread at5000.cur.warp 0).pend, p.due ≤ at5000.now :=
  ⟨⟨issues_of (by decide), by decide, by decide, by decide, by decide, by decide⟩, by decide, quiet_empty rfl (by decide),
    cachesOk_empty rfl rfl, by decide, by decide⟩

/-- At the first issue; once its number is done; inside a read section. -/
theorem wit_GraceWaits : let i : Instr := .gpwait ctl
    (Solo i at5000 0 ∧ (at5000.thread at5000.cur.warp 0).graceG = none ∧ (at5000.thread at5000.cur.warp 0).rsDepth = 0 ∧
      at5000.curWarp.storeQ = [] ∧ Quiet at5000 ∧ cachesOk at5000 ∧ (at5000.tenant 0).gpDone < (at5000.tenant 0).gpseq) ∧
    (let s := tState (tWarp [{ tThread [] with graceG := some 0 }]) 1
     Solo i s 0 ∧ (s.thread s.cur.warp 0).graceG = some 0 ∧ 0 ≤ (s.tenant s.curWarp.tenant).gpDone ∧ cachesOk s) ∧
    let s := tState (tWarp [{ tThread [] with rsDepth := 1 }]) 1
    Solo i s 0 ∧ (s.thread s.cur.warp 0).graceG = none ∧ (s.thread s.cur.warp 0).rsDepth ≠ 0 ∧ Traceable s :=
  ⟨⟨⟨issues_of (by decide), by decide, by decide, by decide, by decide, by decide⟩, by decide, by decide, by decide,
      quiet_empty rfl (by decide), cachesOk_empty rfl rfl, by decide⟩,
    ⟨⟨issues_of (by decide), by decide, by decide, by decide, by decide, by decide⟩, by decide, by decide, cachesOk_empty rfl rfl⟩,
    ⟨issues_of (by decide), by decide, by decide, by decide, by decide, by decide⟩, by decide, by decide, ⟨by decide, by decide, by decide⟩⟩

/-- A copy of warp 256. -/
def tEop (kind : EngKind) (desc : List Byte) : EngOp :=
  { id := 9, kind := kind, warp := 256, order := 0, tenant := 0, level := .user, core := 0, service := false, gang := 3, descVa := 0x6000,
    desc := desc, posted := 0 }

theorem wit_SectionsAndCounters :
    (Bundled (solo []) ∧ Issues (.waitc ctl .cp 0) (solo []) ∧ (solo []).engOps = [] ∧ (solo []).engines = []) ∧
    (let s := { tState { tWarp [tThread []] with posted := { cp := 1 } } 1 with engOps := [tEop .copy []] }
     Bundled s ∧ Issues (.waitc ctl .cp 0) s ∧ ∃ e ∈ s.engOps, e.warp = 256 ∧ classOf e.kind = .cp ∧ e.order < s.curWarp.posted.get .cp - 0) ∧
    (Issues (.rsb ctl) (solo []) ∧ ∀ l, acting (.rsb ctl) (solo []) l = true → ((solo []).thread (solo []).cur.warp l).rsDepth ≠ 65535) ∧
    Issues (.rse ctl) (solo []) ∧ Traceable (solo []) ∧
      (acting (.rse ctl) (solo []) 0 && ((solo []).thread (solo []).cur.warp 0).rsDepth == 0) = true :=
  ⟨⟨bundled_solo _, issues_of (by decide), rfl, rfl⟩,
    ⟨bundled _ (by decide) _ rfl rfl, issues_of (by decide), _, List.mem_singleton.mpr rfl, by decide, by decide, by decide⟩,
    ⟨issues_of (by decide), fun l h => by
      have h0 : l = 0 := lane_zero (by
        simp only [acting, Bool.and_eq_true] at h
        exact h.1)
      subst h0; decide⟩,
    issues_of (by decide), traceable _, by decide⟩

theorem wit_Prefetches : let i : Instr := .pref ctl (.g 2) 0 .line true
    Issues i at5000 ∧ Bundled at5000 ∧ cachesOk at5000 :=
  ⟨issues_of (by decide), bundled_solo _, cachesOk_empty rfl rfl⟩

/-- One mebibyte at 0x100000, metadata at 0x400000, one block of 16 bytes free. -/
def tPool : Pool :=
  { pbase := 0x100000, size := 1, en := true, ready := true, pmeta := 0x400000, lists := [0x100010] :: List.replicate 16 [] }
/-- One thread whose g2 is the pool's first block, and g3 class 0 of pool 0; the block's metadata byte is given, its buddy is free. -/
def pooled (p : Pool) (md : Byte) : State :=
  { solo [(2, 0x100000)] with
    tenants := [(0, { pools := [(0, p)] })], mem := if md = 0 then [(0x400001, 0x40)] else [(0x400000, md), (0x400001, 0x40)] }

/-- Pages of a plan that translate as the tests' map has them, apart from each other. -/
theorem planMaps_of {s : State} {tn p : Nat} {pl : PoolPlan} {xs : List Xlat}
    (h1 : (s.poolTouch tn p (pl.metas.map Prod.fst ++ pl.links)).2 = .ok xs)
    (h2 : (xs.all fun x => !x.ms && !x.repl && (tierOf x.pa).isSome) = true)
    (h3 : ((List.range pl.metas.length).all fun i => (List.range xs.length).all fun j =>
      match xs[i]?, xs[j]? with
      | some x, some y =>
        if j < pl.metas.length then x.pa != y.pa || ((pl.metas[i]?).map Prod.fst == (pl.metas[j]?).map Prod.fst)
        else decide (x.pa < y.pa ∨ y.pa + 16 ≤ x.pa)
      | _, _ => true) = true) : PlanMaps s tn p pl xs where
  maps := h1
  plain := fun x hx => by simpa [Ordinary, and_assoc] using List.all_eq_true.mp h2 x hx
  apart := fun i j x y hi hx hy => by
    obtain ⟨hj, -⟩ := List.getElem?_eq_some_iff.mp hy
    have h := List.all_eq_true.mp (List.all_eq_true.mp h3 i (List.mem_range.mpr hi)) j (List.mem_range.mpr hj)
    simp only [hx, hy] at h
    split at h
    · rename_i hjm
      simp only [hjm, if_true]
      intro he
      simpa [he] using h
    · rename_i hjm
      simp only [hjm, if_false]
      exact of_decide_eq_true h

theorem wit_DeferredFrees : let i : Instr := .defer ctl 1 (.g 2) (.g 3) true
    let s := pooled tPool 0
    (Solo i s 0 ∧ poolWord ((s.cx s.cur.warp 0).src (.g 3)) 0 0 ∧ s.curWarp.storeQ = [] ∧ Quiet s ∧ cachesOk s ∧
      (s.thread s.cur.warp 0).rsDepth = 0 ∧ (s.pool 0 0).en = true ∧ (s.pool 0 0).ready = true ∧ blockOf (s.pool 0 0) 0x100000 0 ∧
      (s.tenant 0).deferQ.length < 65536) ∧
    ¬ blockOf (s.pool 0 0) 0x100008 0 ∧ ¬ ((pooled { tPool with en := false } 0).pool 0 0).en = true ∧
    let s := solo [(3, 0x1000)]
    Traceable s ∧ ∀ c r, ¬ poolWord ((s.cx s.cur.warp 0).src (.g 3)) c r := by
  refine ⟨⟨⟨issues_of (by decide), by decide, by decide, by decide, by decide, by decide⟩, ⟨by decide, by decide, by decide⟩, by decide,
    quiet_empty rfl (by decide), cachesOk_empty rfl rfl, by decide, by decide, by decide, ⟨by decide, by decide, by decide⟩, by decide⟩,
    ?_, by decide, traceable _, ?_⟩
  · rintro ⟨-, -, h⟩
    exact absurd h (by decide)
  · rintro c r ⟨h, hc, hr⟩
    have h1 : (0x1000 : Word) = BitVec.ofNat 64 (r * 256 + c) := h
    have h2 : 0x1000 = (r * 256 + c) % 2 ^ 64 := by simpa using congrArg BitVec.toNat h1
    omega

/-- ALLOC from a pool with a block, from an empty one, from one that is off; FREE of a block in use, of a free one, to a pool that is off.
-/
theorem wit_PoolBlocks :
    (let s := pooled tPool 0
     poolWord ((s.cx s.cur.warp 0).src (.g 3)) 0 0 ∧ s.curWarp.storeQ = [] ∧ Quiet s ∧ cachesOk s ∧ noDirty s s.curWarp.core ∧
       Solo (.alloc ctl 1 (.g 5) (.g 3) false) s 0 ∧ poolUp (s.pool 0 0) ∧
       ∃ pl xs, (s.pool 0 0).allocPlan 0 = some pl ∧ PlanMaps s 0 0 pl xs) ∧
    ((tPool.allocPlan 1 = none ∧ (pooled tPool 0).curWarp.tmo = 0) ∧ ¬ ({ tPool with en := false }.en = true)) ∧
    (let s := pooled tPool 0x80
     Solo (.free ctl 1 (.g 2) (.g 3)) s 0 ∧ blockOf (s.pool 0 0) 0x100000 0 ∧
       (s.poolTouch 0 0 [(s.pool 0 0).metaAt 0x100000]).2 = .ok [tX 0x400000] ∧ s.byteAt 0x400000 = 0x80 ∧
       ∃ s1 xs, Merges (s.readMeta 0 0 0x100000).1 s1 0 0 (s.pool 0 0) 0x100000 0 1 ∧
         PlanMaps s1 0 0 ((s.pool 0 0).freePlan 0x100000 0 1) xs) ∧
    (pooled tPool 0x40).byteAt 0x400000 ≠ 0x80 :=
  ⟨⟨⟨by decide, by decide, by decide⟩, by decide, quiet_empty rfl (by decide), cachesOk_empty rfl rfl, noDirty_empty rfl _,
      ⟨issues_of (by decide), by decide, by decide, by decide, by decide, by decide⟩, ⟨by decide, by decide, by decide, by decide⟩,
      _, [tX 0x400001, tX 0x100010], rfl, planMaps_of (by decide) (by decide) (by decide)⟩,
    ⟨⟨by decide, by decide⟩, by decide⟩,
    ⟨⟨issues_of (by decide), by decide, by decide, by decide, by decide, by decide⟩, ⟨by decide, by decide, by decide⟩, by decide, by decide,
      _, [tX 0x400000, tX 0x400001, tX 0x400000, tX 0x100010, tX 0x100000],
      ⟨by decide, fun j hj => by
          have h : j = 0 := by omega
          subst h; decide, ⟨rfl, 0, by decide, by decide⟩⟩,
      planMaps_of (by decide) (by decide) (by decide)⟩,
    by decide⟩

theorem wit_PoolAccounts : tPool.lists.length = 17 ∧ (tPool.allocPlan 0).isSome = true ∧ tPool.allocPlan 1 = none ∧
    ∀ j, j < 17 → (tPool.list j).Nodup := by decide

theorem wit_EnginePosts : let i : Instr := .cpy ctl (.g 2) 0
    ((postForm i).isSome = true ∧ Issues i at5000 ∧ Bundled at5000 ∧ at5000.curWarp.paired = false ∧ actsFor i at5000 0 ∧
      Plain at5000 0 accLoad ((at5000.cx at5000.cur.warp 0).ea (.g 2) 0) 64 (tX 0x5000) ∧ at5000.curWarp.oc.get (postClass .copy) < 255 ∧
      at5000.curWarp.storeQ = [] ∧ at5000.curWarp.level ≠ .monitor) ∧
    let j : Instr := .cpy ⟨0, 1, false⟩ (.g 2) 0
    Issues j at5000 ∧ ∀ l, acting j at5000 l = false :=
  ⟨⟨rfl, issues_of (by decide), bundled_solo _, by decide, ⟨by decide, fun m h => absurd h (Nat.not_lt_zero m)⟩,
      plain_of (by decide) (by decide) (by decide) (by decide) (by decide), by decide, by decide, by decide⟩,
    issues_of (by decide), fun l => by
      by_cases h : mbit 1 l = true
      · rw [lane_zero h]; decide
      · show (mbit 1 l && _) = false
        rw [Bool.eq_false_iff.mpr h]; rfl⟩

theorem wit_MatrixPosts : let i : Instr := .mxp ctl (.g 2) 0
    ((mxForm i).isSome = true ∧ Issues i at40 ∧ Bundled at40 ∧ actsFor i at40 0 ∧
      at40.scrAddr at40.curWarp 0 .core ((at40.cx at40.cur.warp 0).ea (.g 2) 0) 64 = .ok (.block 2, 0x40) ∧ at40.curWarp.oc.mx < 255 ∧
      at40.curWarp.storeQ = [] ∧ (at40.engine 0).table.length < 16 ∧ (at40.engine 0).owner = none ∧ (at40.engine 0).waiting = []) ∧
    ({ at40 with engines := [(0, { owner := some 3 })] }.engine 0).owner = some at40.curWarp.gang :=
  ⟨⟨rfl, issues_of (by decide), bundled (at40.curWarp) (by decide) _ rfl rfl, ⟨by decide, fun m h => absurd h (Nat.not_lt_zero m)⟩, rfl, by decide,
    by decide, by decide, by decide, by decide⟩, by decide⟩

/-! ## Witnesses: placement, launches, system registers -/

/-- A state whose pages may move to tier 1, into which a frame is free. -/
def movable : State := { at5000 with tlb := [{ tMap 0 with mig := true }], rings := [(1, [0x40000000000])] }

theorem wit_Placement :
    (cachesOk at5000 ∧ Page at5000 ((at5000.cx at5000.cur.warp 0).ea (.g 2) 0) (tX 0x5000) ∧ (tierOf (tX 0x5000).pa).isSome = true ∧
      Solo (.pin ctl 1 (.g 2) 0 3) at5000 0 ∧ (at5000.coverOf 0x5000).isSome = false ∧ ¬ mayNot (tX 0x5000) 0 ∧
      mayNot (tX 0x5000) 1 ∧ Traceable at5000 ∧ Solo (.unpin ctl (.g 2) 0) at5000 0 ∧ Solo (.migr ctl 1 (.g 2) 0 0) at5000 0 ∧
      Solo (.probe ctl (.g 1) (.g 2) 0) at5000 0) ∧
    Page movable ((movable.cx movable.cur.warp 0).ea (.g 2) 0) { tX 0x5000 with mig := true } ∧ Solo (.hint ctl (.g 2) 0 1) movable 0 ∧
      pinnedPage movable { tX 0x5000 with mig := true } = false ∧ ¬ mayNot { tX 0x5000 with mig := true } 1 ∧ canStart movable 1 := by
  refine ⟨⟨cachesOk_empty rfl rfl, ⟨by decide, by decide⟩, by decide, ⟨issues_of (by decide), by decide, by decide, by decide, by decide, by decide⟩,
    rfl, ?_, .inr (.inl ⟨by decide, by decide⟩), traceable _, ⟨issues_of (by decide), by decide, by decide, by decide, by decide, by decide⟩,
    ⟨issues_of (by decide), by decide, by decide, by decide, by decide, by decide⟩,
    ⟨issues_of (by decide), by decide, by decide, by decide, by decide, by decide⟩⟩,
    ⟨by decide, by decide⟩, ⟨issues_of (by decide), by decide, by decide, by decide, by decide, by decide⟩, by decide, ?_,
    ⟨by decide, by decide⟩⟩
  · unfold mayNot; decide
  · unfold mayNot; decide

theorem drained_of {s : State} (h : (s.warps.all fun p => p.2.storeQ.isEmpty && p.2.seg.held.isEmpty) = true) (h1 : s.l1 = []) :
    drained s :=
  ⟨fun p hp => by simpa using List.all_eq_true.mp h p hp, noDirty_empty h1⟩

/-- A tenant with page tables of both stages that map 1 GiB to itself, in a supervisor's service thread. -/
def tables : State :=
  { serv .supervisor [(2, 0x5000)] with
    tlb := []
    tenants := [(0, { s1root := 0x20001, s2root := 0x10001 })]
    mem := [(0x10000, 0x03), (0x10001, 0x10), (0x10002, 0x01), (0x11000, 0x03), (0x11001, 0x20), (0x11002, 0x01), (0x12000, 0xDD),
      (0x12001, 0x01), (0x20000, 0x03), (0x20001, 0x10), (0x20002, 0x02), (0x21000, 0x03), (0x21001, 0x20), (0x21002, 0x02),
      (0x22000, 0x1D)] }

/-- TAFF's steps on those tables. -/
theorem taff_steps : (match (tables.walkFills 256 (tables.walk1 0 0x5000).1.reads).writeAff ⟨0x1D, 2, 0x22000⟩ 1 with
    | none => false
    | some v => match v.tlbDrop fun r => r.tenant == 0 && decide (r.vbase ≤ 0x5000 ∧ 0x5000 < r.vbase + r.size) with
      | .error _ => false
      | .ok u => match (u.pageXlat tables.curWarp accLoad 0x5000).2 with
        | .ok x => decide (tierOf x.pa = some 0)
        | .error _ => false) = true := by decide +kernel

theorem wit_Invalidations :
    (let s := serv .supervisor [(3, 5)]
     Solo (.tlbi ctl (.pg (.g 2) (.g 3))) s 0 ∧ drained s ∧ Quiet s ∧ cachesOk s ∧
       ∀ v b, tlbiLimit (s.cx s.cur.warp 0) (.pg (.g 2) (.g 3)) = some (v, b) → v.toNat < 2 ^ b) ∧
    (let s := serv .supervisor [(3, 0x10000)]
     OneThread s ∧ tlbiLimit (s.cx s.cur.warp 0) (.pg (.g 2) (.g 3)) = some (0x10000, 16) ∧ 2 ^ 16 ≤ (0x10000 : Word).toNat ∧
       takenAt s.curWarp.svc s.curWarp.level .supervisor) ∧
    (Solo (.tlbsync ctl) (solo []) 0 ∧ ¬ ∃ p ∈ (solo []).fwds, p.2.switched = true) ∧
    (let f : Fwd := { src := 0, dst := 0x1000, tenant := 0, ipa := 0, leafPa := 0, leafOld := 0, srcTier := 0, dstTier := 0, switched := true }
     let s := { solo [] with fwds := [(0, f)] }
     Solo (.tlbsync ctl) s 0 ∧ ∃ p ∈ s.fwds, p.2.switched = true ∧ (s.curWarp.level = .user → p.2.tenant = s.curWarp.tenant)) ∧
    (Solo (.taff ctl (.g 2) 0 0) tables 0 ∧ drained tables ∧ Quiet tables ∧ cachesOk tables ∧
      (tables.walk1 0 0x5000).2 = .ok (some ⟨0x1D, 2, 0x22000⟩)) ∧
    (∃ v u x, (tables.walkFills 256 (tables.walk1 0 0x5000).1.reads).writeAff ⟨0x1D, 2, 0x22000⟩ 1 = some v ∧
      (v.tlbDrop fun r => r.tenant == 0 && decide (r.vbase ≤ 0x5000 ∧ 0x5000 < r.vbase + r.size)) = .ok u ∧
      (u.pageXlat tables.curWarp accLoad 0x5000).2 = .ok x ∧ tierOf x.pa = some 0) ∧
    let s := serv .supervisor [(2, 0x5000)]
    Solo (.taff ctl (.g 2) 0 0) s 0 ∧ (s.walk1 0 0x5000).2 = .ok none ∧ drained s ∧ Quiet s ∧ cachesOk s := by
  refine ⟨⟨⟨issues_of (by decide), by decide, by decide, by decide, by decide, by decide⟩, drained_of (by decide) rfl,
      quiet_empty rfl (by decide), cachesOk_empty rfl rfl, ?_⟩,
    ⟨oneThread _ _, rfl, by decide, by decide, by decide, by decide, fun z => by cases z <;> decide⟩,
    ⟨⟨issues_of (by decide), by decide, by decide, by decide, by decide, by decide⟩, by decide⟩,
    ⟨⟨issues_of (by decide), by decide, by decide, by decide, by decide, by decide⟩, _, List.mem_singleton.mpr rfl, rfl, fun _ => rfl⟩,
    ⟨⟨issues_of (by decide), by decide, by decide, by decide, by decide, by decide⟩, drained_of (by decide) rfl, quiet_empty rfl (by decide),
      cachesOk_empty rfl rfl, by decide +kernel⟩,
    ?_,
    ⟨issues_of (by decide), by decide, by decide, by decide, by decide, by decide⟩, by decide, drained_of (by decide) rfl,
    quiet_empty rfl (by decide), cachesOk_empty rfl rfl⟩
  · intro v b h
    have h1 : some ((5 : Word), 16) = some (v, b) := h
    cases h1
    decide
  · have h := taff_steps
    split at h
    · cases h
    rename_i v hv
    split at h
    · cases h
    rename_i u hu
    split at h
    · rename_i x hx
      exact ⟨v, u, x, hv, hu, hx, of_decide_eq_true h⟩
    · cases h

theorem wit_Launching :
    (at5000.curWarp.storeQ = [] ∧ noDirty at5000 at5000.curWarp.core ∧ at5000.stalls at5000.curWarp.core everywhere = false ∧ Solo (.launch ctl 1 (.g 2)) at5000 0 ∧
      ((at5000.cx at5000.cur.warp 0).src (.g 2)).toNat % 256 = 0 ∧
      Plain at5000 0 accLoad ((at5000.cx at5000.cur.warp 0).src (.g 2) + 0x28) 4 (tX 0x5028)) ∧
    (Solo (.cwait ctl 1 (.g 2) (.g 3)) at5000 0 ∧ (at5000.thread at5000.cur.warp 0).rsDepth = 0 ∧
      Plain at5000 0 accLoad ((at5000.cx at5000.cur.warp 0).src (.g 2)) 8 (tX 0x5000) ∧ at5000.curWarp.tmo = 0 ∧
      number (fun j => atHome at5000 0 (0x5000 + j)) 0 8 < ((at5000.cx at5000.cur.warp 0).src (.g 3)).toNat) ∧
    Solo (.cwait ctl 1 (.g 2) (.g 4)) at5000 0 ∧
      ((at5000.cx at5000.cur.warp 0).src (.g 4)).toNat ≤ number (fun j => atHome at5000 0 (0x5000 + j)) 0 8 :=
  ⟨⟨by decide, noDirty_empty rfl _, by decide, ⟨issues_of (by decide), by decide, by decide, by decide, by decide, by decide⟩, by decide,
      plain_of (by decide) (by decide) (by decide) (by decide) (by decide)⟩,
    ⟨⟨issues_of (by decide), by decide, by decide, by decide, by decide, by decide⟩, by decide,
      plain_of (by decide) (by decide) (by decide) (by decide) (by decide), by decide, by decide⟩,
    ⟨issues_of (by decide), by decide, by decide, by decide, by decide, by decide⟩, by decide⟩

theorem wit_Cancelling : let i : Instr := .cancel ctl .launch (.g 2)
    let s := { solo [(2, 0x4000)] with launches := [(1, tLaunch), (4, { tLaunch with addr := 0x8000 })] }
    Solo i s 0 ∧ ((s.cx s.cur.warp 0).src (.g 2)).toNat ≠ 0 ∧ tsorted s.launches = true ∧ tget s.launches 1 = some tLaunch ∧
      (tLaunch.tenant = 0 ∧ tLaunch.state ≠ .finished ∧ ((s.cx s.cur.warp 0).src (.g 2)).toNat = tLaunch.addr) ∧ tLaunch.stopped = false ∧ tLaunch.state ≠ .finishing ∧
      s.workDone tLaunch = false ∧ Solo i (solo []) 0 ∧ (((solo []).cx (solo []).cur.warp 0).src (.g 2)).toNat = 0 :=
  ⟨⟨issues_of (by decide), by decide, by decide, by decide, by decide, by decide⟩, by decide, by decide, by decide, by decide, by decide, by decide, by decide,
    ⟨issues_of (by decide), by decide, by decide, by decide, by decide, by decide⟩, by decide⟩

theorem wit_SystemReads : (Issues (.srd ctl (.g 1) 0x18) (solo []) ∧ ∃ x, readable (solo []) x 0x18 ≠ none) ∧
    Issues (.srd ctl (.g 1) 0x50) (serv .monitor []) ∧ Issues (.srd ctl (.g 1) 0x58) (serv .monitor []) ∧
    Issues (.srd ctl (.g 1) 0x5A) (serv .monitor []) ∧ Issues (.srd ctl (.g 1) 0x5B) (serv .monitor []) ∧
    Issues (.srd ctl (.g 1) 0x5C) (serv .monitor []) :=
  ⟨⟨issues_of (by decide), (solo []).cx 256 0, by
      show some _ ≠ none
      exact nofun⟩,
    issues_of (by decide), issues_of (by decide), issues_of (by decide), issues_of (by decide), issues_of (by decide)⟩

/-- Every number that a statement names is written by a service thread at monitor level; TENANT inside a read section traps. -/
theorem wit_SystemWrites : let s := serv .monitor [(2, 5)]
    (∀ k ∈ [0x15, 0x20, 0x21, 0x22, 0x23, 0x30, 0x32, 0x35, 0x38, 0x40, 0x49, 0x52, 0x53, 0x58, 0x59, 0x5A, 0x5B, 0x5C],
      Solo (.swr ctl (Fin.ofNat 256 k) (.g 2)) s 0) ∧ (warpWrite s.curWarp 5 0x22).isSome = true ∧ (s.thread s.cur.warp 0).rsDepth = 0 ∧
      s.curWarp.svc.timecmp = 0 ∧
    let t := { s with warps := [(0, { tServ .monitor [] with threads := [{ tThread [] with rsDepth := 1 }] })] }
    Solo (.swr ctl 0x15 (.g 2)) t 0 ∧ (t.thread t.cur.warp 0).rsDepth ≠ 0 ∧ OneThread t ∧
      takenAt t.curWarp.svc t.curWarp.level .monitor := by
  refine ⟨fun k hk => ⟨?_, by decide, by decide, by decide, ?_, by decide⟩, by decide, by decide, by decide,
    ⟨issues_of (by decide), by decide, by decide, by decide, by decide, by decide⟩, by decide, ⟨by decide, by decide, by decide, by decide, by decide⟩,
    by decide, by decide, by decide, fun z => by cases z <;> decide⟩
  · revert k
    suffices h : ∀ k ∈ [0x15, 0x20, 0x21, 0x22, 0x23, 0x30, 0x32, 0x35, 0x38, 0x40, 0x49, 0x52, 0x53, 0x58, 0x59, 0x5A, 0x5B, 0x5C],
        (issueInstead (.swr ctl (Fin.ofNat 256 k) (.g 2)) (serv .monitor [(2, 5)])).isNone = true from fun k hk => issues_of (h k hk)
    decide
  · rfl


/-! ## Witnesses: the cores, the caches, service threads -/

theorem wit_CoreEvents :
    (0 < 1024 ∧ (duo.core 0).enabled = true ∧ duo.power.pstate = 0 ∧ tsorted duo.warps = true) ∧
    let i : Instr := .cwait ctl 1 (.g 7) (.g 8)
    let s : State := { tState (tWarp [{ tThread [] with wait := .counter 0 1, deadline := some 5 }]) 0 with
      now := 5, mem := [(0x1000, 0x3F), (0x1001, 0xF8), (0x1002, 0x8F), (0x1003, 0x86), (0x1005, 0x78), (0x1006, 0x01), (0x1007, 0x08)] }
    let u := s.thread 256 0
    s.peek (s.warp 256) u.pc = some i ∧ unsatisfied i = some (predDest 1 false) ∧ u.exited = false ∧ u.wait ≠ .none ∧ u.deadline = some 5 ∧
      5 ≤ s.now ∧ (s.warp 256).resident = true ∧ 0 < (s.warp 256).threads.length ∧ (s.warp 256).paired = false := by
  refine ⟨by decide, by decide, rfl, by decide, by decide, by decide, by decide, by decide, by decide, by decide⟩

/-- The caches of a quiet state; a request to memory, to no memory, and to a page that moves; a store to a replicated page and a queue
without one; accesses of a compute and of a service thread without a response, before and after 1 ms. -/
theorem wit_CacheEvents : (cachesOk at5000 ∧ Quiet at5000 ∧ at5000.moving (0x50 * 256) = false ∧ at5000.stalls 0 (fun a => a / 256 == 0x50) = false) ∧
    ((tierOf 0x5000).isSome = true ∧ at5000.moving 0x5000 = false ∧ (at5000.tenant 0).thresh = 0 ∧ tierOf (2 ^ 52) = none ∧
      { at5000 with fwds := [(0, { src := 0x5000, dst := 0x7000, tenant := 0, ipa := 0, leafPa := 0, leafOld := 0, srcTier := 0, dstTier := 0 })] }.moving
        0x5000 = true) ∧
    (let x : Xlat := { tX 0x5010 with repl := true }
     let s := tState { tWarp [] with storeQ := [.store (.mem x) [1, 2]] } 0
     (s.warp 256).storeQ = .store (.mem x) [1, 2] :: [] ∧ x.ms = false ∧ x.repl = true ∧ cachesOk s ∧ Quiet s ∧ (tierOf x.pa).isSome = true ∧
       x.pa % 0x8000000000 + 2 ≤ 0x8000000000) ∧ (at5000.warp 256).storeQ = [] ∧
    (let s := { tState (tWarp [{ tThread [] with wait := .fabric 0 0x5000 0x5000 true false false }]) 0 with now := 700000 }
     (s.thread 256 0).wait = .fabric 0 0x5000 0x5000 true false false ∧ 0 + 700000 ≤ s.now ∧ { s with now := 5 }.now < 0 + 700000 ∧
       (s.warp 256).service = false) ∧
    let s := { serv .user [] with now := 700000, warps := [(0, { tServ .user [] with threads := [{ tThread [] with wait := .fabric 0 0x5000 0x5000 false false false }] })] }
    (s.thread 0 0).wait = .fabric 0 0x5000 0x5000 false false false ∧ 0 + 700000 ≤ s.now ∧ (s.warp 0).service = true ∧ (s.warp 0).threads.length = 1 ∧
      takenAt (s.warp 0).svc (if (s.warp 0).svc.level = .monitor then .monitor else .hypervisor) .hypervisor :=
  ⟨⟨cachesOk_empty rfl rfl, quiet_empty rfl (by decide), rfl, rfl⟩, by decide,
    ⟨by decide, by decide, by decide, cachesOk_empty rfl rfl, quiet_empty rfl (by decide), by decide, by decide⟩, by decide, by decide,
    by decide, by decide, by decide, by decide, by decide, by decide, by decide, fun z => by cases z <;> decide⟩

/-- A running service thread at user level with interrupt 2 pending and enabled for supervisor level, and its timer due. -/
def tInt : Svc := { (tServ .user []).svc with intpend := 4, inten := 4, intlvl := 0x10, timecmp := 1 }
/-- The same of a security alarm at interrupt 2, which enters monitor level. -/
theorem wit_InterruptEvents_alarm : let v := { tInt with alarms := 4 }
    v.running = true ∧ takes v 2 = true ∧ (∀ j, j < 2 → takes v j = false) ∧ Level.monitor.num = entersAt v 2 := by decide

theorem wit_InterruptEvents :
    (tInt.running = true ∧ takes tInt 2 = true ∧ (∀ j, j < 2 → takes tInt j = false) ∧ Level.supervisor.num = entersAt tInt 2) ∧
    (serv .user []).curWarp.svc.running = true ∧ (∀ i, i < 16 → takes (serv .user []).curWarp.svc i = false) ∧
    (let s := { serv .user [] with now := 700, warps := [(0, { tServ .user [] with svc := tInt })] }
     timerDue s (s.warp 0).svc) ∧ (¬ timerDue (serv .user []) (serv .user []).curWarp.svc) ∧
    ((serv .hypervisor []).curWarp.svc.level ≠ .user ∧ (serv .hypervisor []).curWarp.svc.level ≠ .supervisor) ∧
    ((serv .supervisor []).warp 5).tenant = ((serv .supervisor []).warp 0).tenant ∧
    (let s := { serv .supervisor [] with warps := [(0, { tServ .supervisor [] with tenant := 1 })] }
     (s.warp 0).svc.level = .supervisor ∧ (s.warp 5).tenant ≠ (s.warp 0).tenant) ∧
    (tgetD { serv .user [] with introute := [(4, 0x107)] }.introute 4 0).getLsbD 8 = true ∧ (tgetD (serv .user []).introute 4 0).getLsbD 8 = false := by
  refine ⟨by decide, by decide, by decide, ⟨by decide, by decide⟩, ?_, by decide, by decide, by decide, by decide, by decide⟩
  unfold timerDue; decide

theorem wit_ServiceEvents : ((State.reset.warp 0).svc.running = false ∧ (State.reset.warp 0).threads.length = 1) ∧
    ((serv .user []).warp 0).svc.running = true ∧ ((serv .user []).warp 0).threads.length = 1 ∧ regionOf State.reset.bases.sched = .window ∧
      State.reset.bases.sched % 0x10000 = 0 ∧
    ((serv .user []).warp 0).service = true ∧ ((serv .user []).warp 0).svc.level = .user ∧ ((serv .hypervisor []).warp 0).svc.level = .hypervisor ∧
    (serv .hypervisor []).poolCmd.status ≠ 2 ∧
    { serv .hypervisor [] with poolCmd := { status := 2, first := 0x3000 } }.poolCmd.status = 2 ∧
    takenAt ((serv .hypervisor []).warp 0).svc .hypervisor .hypervisor :=
  ⟨by decide, by decide, by decide, by decide, by decide, by decide, by decide, by decide, by decide, by decide, by decide, by decide, by decide,
    fun z => by cases z <;> decide⟩

theorem wit_WindowEvents :
    ((tgetD (State.reset.tenant 3).queues 2 []).length < 256 ∧ State.reset.power.pstate = 0 ∧ tsorted State.reset.blocks = true ∧
      State.reset.suspended 3 = false) ∧
    (256 ≤ (tgetD ({ State.reset with tenants := [(3, { queues := [(2, List.replicate 256 { ptr := 0, poster := 3, high := false })] })] }.tenant 3).queues 2 []).length) ∧
    (let s := { State.reset with tenants := [(3, { suspend := true, pools := [(0, tPool)] })] }
     s.suspended 3 = true ∧ (s.tenant 3).resetting = false ∧ s.engOps = [] ∧ s.engines = [] ∧ s.launches = [] ∧ s.lands = [] ∧
       s.retiringSlices = [] ∧ 4 * 16 ≤ (s.tenant 3).slices0.length + (s.liveSlices 0).length ∧
       4 * 16 ≤ (s.tenant 3).slices1.length + (s.liveSlices 1).length ∧
       s.tenants.all (fun p => p.1 == 3 || (p.2.units0 == 0 && p.2.units1 == 0)) = true ∧ (s.pool 3 0).en = true ∧ (s.pool 3 1).en = false ∧
       (∀ p ∈ s.tenants, p.1 ≠ 3 → p.2.ways0 &&& 5 = 0 ∧ p.2.ways1 &&& 0 = 0)) ∧ cachesOk State.reset ∧ Quiet State.reset ∧
    (∀ c, noDirty State.reset c) :=
  ⟨by decide, Nat.le_of_eq (List.length_replicate).symm, by decide +kernel, cachesOk_empty rfl rfl, quiet_empty rfl rfl, noDirty_empty rfl⟩

theorem tget_const {α : Type} (c : α) (l : List Nat) (n : Nat) (h : n ∈ l) : tget (l.map fun i => (i, c)) n = some c := by
  induction l with
  | nil => cases h
  | cons a r ih =>
    by_cases hk : n = a
    · simp [tget, hk]
    · simpa [tget, hk] using ih ((List.mem_cons.mp h).resolve_left hk)

/-- Every node has acknowledged 5 and reports no section. -/
def tReports : Tbl GReport := (List.range 1088).map fun i => (i, { acked := 5, least := none })

theorem tReports_get {n : Nat} (h : n < 1088) : tget tReports n = some { acked := 5, least := none } :=
  tget_const _ _ _ (List.mem_range.mpr h)

/-- A tenant whose every node has acknowledged 5 and reports no section, with a deferred entry. -/
def tGrace (p : Pool) (target : Nat) : Tenant :=
  { gpseq := 3, gpDone := 1, reports := tReports, pools := [(0, p)]
    deferQ := [{ ptr := 0x100000, k := 0, pool := 0, target := target }] }
def graced (p : Pool) (target : Nat) : State := { State.reset with tenants := [(0, tGrace p target)], mem := [(0x400000, 0x80)], tlb := [tMap 256] }

theorem wit_GraceEvents :
    (tgetD (State.reset.tenant 0).ack 5 1 < ({ State.reset with tenants := [(0, tGrace tPool 1)] }.tenant 0).gpseq) ∧
    ((tGrace tPool 1).gpDone + 1 < (tGrace tPool 1).gpseq ∧
      (tGrace tPool 1).reports = tReports ∧ (∀ n, n < 1088 → ∃ r : GReport, tget tReports n = some r ∧ 2 < r.acked ∧ r.least = none) ∧ (graced tPool 1).bivSummary 0 = none) ∧
    (let T := { tGrace tPool 9 with gpseq := 2 }
     T.gpseq = T.gpDone + 1 ∧ ∃ e ∈ T.deferQ, T.gpDone < e.target) ∧
    (((graced { tPool with en := false } 1).tenant 0).deferQ = { ptr := 0x100000, k := 0, pool := 0, target := 1 } :: [] ∧
      ((graced { tPool with en := false } 1).pool 0 0).serves = false) ∧
    (let s := graced { tPool with lists := List.replicate 17 [] } 1
     let P := s.pool 0 0
     poolUp P ∧ blockOf P 0x100000 0 ∧ (s.poolTouch 0 0 [P.metaAt 0x100000]).2 = .ok [tX 0x400000] ∧ s.byteAt 0x400000 = 0x80 ∧ Quiet s ∧
       cachesOk s ∧ ∃ s1, Merges (s.readMeta 0 0 0x100000).1 s1 0 0 P 0x100000 0 0 ∧
         PlanMaps s1 0 0 (P.freePlan 0x100000 0 0) [tX 0x400000, tX 0x400000, tX 0x100000]) ∧
    (tGrace tPool 9).gpDone < 9 := by
  refine ⟨by decide, ⟨by decide, by simp only [tGrace], fun n h => ⟨_, tReports_get h, by decide, rfl⟩, by decide⟩, ⟨by decide, _,
    List.mem_singleton.mpr rfl, by decide⟩, ⟨rfl, by decide⟩, ⟨⟨by decide, by decide, by decide, by decide⟩, ⟨by decide, by decide, by decide⟩,
    by decide, by decide, quiet_empty rfl (by decide), cachesOk_empty rfl rfl, _,
    ⟨by decide, fun j hj => absurd hj (Nat.not_lt_zero j), ⟨rfl, 0, by decide, by decide⟩⟩, planMaps_of (by decide) (by decide) (by decide)⟩,
    by decide⟩

/-- Enabling a pool of one mebibyte. -/
theorem wit_GraceEvents_enabling : let s := graced { tPool with ready := false } 1
    let P := s.pool 0 0
    let bs := (List.range P.size).map fun i => P.pbase + i * 1048576
    P.en = true ∧ P.ready = false ∧ P.devWait = false ∧ P.aborted = false ∧
      (s.poolTouch 0 0 (pagesOf P.pmeta (P.size * 65536) ++ bs.map P.metaAt ++ bs)).2 =
        .ok (((pagesOf P.pmeta (P.size * 65536) ++ bs.map P.metaAt ++ bs)).map tX) := by
  set_option maxRecDepth 8000 in decide

/-! ## Witnesses: launches and blocks -/

/-- The bytes of a record of one warp of 8 registers in gangs of one block, of so many gangs. -/
def recBytes (gx w : Byte) : List (Nat × Byte) := [(0x4010, gx), (0x4014, gx), (0x4018, gx), (0x401C, w), (0x401D, 8), (0x401E, 1)].filter (·.2 != 0)
/-- A record at 0x4000 posted in queue 2 of tenant 0. -/
def postedAt (gx w : Byte) (p : Post) (excl : Bool) : State :=
  { State.reset with mem := recBytes gx w, tlb := [tMap 256], tenants := [(0, { queues := [(2, [p])], excl := excl })] }
def tPost : Post := { ptr := 0x4000, poster := 0, high := false }

/-- The record that a state's post names, as it is read. -/
def tRead (s : State) : LaunchRec := ((s.readRecord 0 2 0x4000).2.1.map parseRecord).getD {}

def tRec (gx w : Nat) : LaunchRec :=
  { gx := gx, gy := gx, gz := gx, w := w, n := 8, g := 1, deps := [(0, 0), (0, 0), (0, 0), (0, 0)] }
theorem tRead_0 : tRead (postedAt 0 1 tPost false) = tRec 0 1 := by set_option maxRecDepth 8000 in decide
theorem tRead_1 : tRead (postedAt 1 1 tPost true) = tRec 1 1 := by set_option maxRecDepth 8000 in decide
theorem tRead_bad : tRead (postedAt 1 0 tPost false) = tRec 1 0 := by set_option maxRecDepth 8000 in decide

/-- A record in form without and with a place, a post that is cancelled, and a record of no warps. -/
theorem wit_LaunchEvents_accept :
    (let s := postedAt 0 1 tPost false
     tgetD (s.tenant 0).queues 2 [] = tPost :: [] ∧ tPost.devWait = false ∧ s.openLaunches 0 < 1024 ∧ (s.tenant 0).resetting = false ∧
       s.sec.recovery = false ∧ (s.readRecord 0 2 0x4000).2.1.isSome = true ∧ tPost.cancelled = false ∧ tPost.ptr % 256 = 0 ∧
       InForm (tRead s) 0 tPost ∧ ((tRead s).flags.testBit 2 = false ∧ (tRead s).gx * (tRead s).gy * (tRead s).gz = 0)) ∧
    (let s := postedAt 1 1 tPost true
     InForm (tRead s) 0 tPost ∧ ¬ ((tRead s).flags.testBit 2 = false ∧ (tRead s).gx * (tRead s).gy * (tRead s).gz = 0) ∧
       ∀ c, c < 1024 → s.coreOpen 0 c = false) ∧
    (let s := postedAt 1 0 tPost false
     ¬ InForm (tRead s) 0 tPost ∧ (s.readRecord 0 2 0x4000).2.1.isSome = true) ∧ { tPost with cancelled := true }.cancelled = true := by
  refine ⟨⟨by decide, by decide, by decide, by decide, by decide, by decide, by decide, by decide, ?_, by decide⟩, ⟨?_, by decide, ?_⟩,
    ⟨?_, by decide⟩, rfl⟩
  · rw [tRead_0]; unfold InForm; decide
  · rw [tRead_1]; unfold InForm; decide
  · intro c _
    have h : (postedAt 1 1 tPost true).core c = {} := rfl
    unfold State.coreOpen
    rw [h]
    decide
  · rw [tRead_bad]; unfold InForm; decide

theorem wit_LaunchEvents :
    (let l := { tLaunch with state := .accepted, lrec := { tLaunch.lrec with deps := [(0, 0), (0, 0), (0, 0), (0, 0)] } }
     let s := { State.reset with launches := [(1, l)] }
     tget s.launches 1 = some l ∧ (l.devWait = false ∧ l.discard = none ∧ l.depWait = [] ∧ l.emitted = []) ∧ l.state = .accepted ∧
       l.lrec.flags.testBit 2 = false ∧ ∀ i, i < 4 → ∃ h, l.lrec.deps[i]? = some (0, h)) ∧
    (let l := { tLaunch with state := .accepted, depsOk := [1, 2, 3], lrec := { tLaunch.lrec with deps := [(0x5000, 7), (0, 0), (0, 0), (0, 0)] } }
     let s := { State.reset with launches := [(1, l)], tlb := [tMap 256] }
     0 ∉ l.depsOk ∧ (∀ j, j < 4 → j ≠ 0 → j ∈ l.depsOk) ∧ l.depsOk.length < 4 ∧ l.lrec.deps[0]? = some (0x5000, 7) ∧
       s.devTranslate l.tenant 0x5000 accEngR (.dep 1 0 0x5000) = (s, .ok (tX 0x5000))) ∧
    let l := { tLaunch with nextGang := 1, lrec := { tLaunch.lrec with counter := 0x6000 } }
    let s := { State.reset with launches := [(1, l)], tlb := [tMap 256] }
    l.state = .ready ∧ l.finStep = 0 ∧ l.retired = l.placed ∧ l.lrec.gx * l.lrec.gy * l.lrec.gz ≤ l.nextGang ∧ s.blocks = [] ∧ s.engOps = [] ∧
      s.engines = [] ∧ l.lrec.errAddr = 0 ∧ l.lrec.graph = 0 ∧ l.lrec.phase = 0 ∧ l.lrec.job = 0 ∧ tLaunch.lrec.counter = 0 ∧
      l.lrec.counter ≠ 0 ∧ l.lrec.counter % 8 = 0 ∧
      s.devTranslate l.tenant l.lrec.counter accEngW (.finish 1 l.lrec.counter) = (s, .ok (tX 0x6000)) ∧ Quiet s ∧ cachesOk s ∧
      ∀ c, noDirty s c := by
  refine ⟨⟨by decide, by decide, by decide, by decide, ?_⟩, ⟨by decide, by decide, by decide, by decide, Prod.ext rfl (by decide)⟩,
    by decide, by decide, by decide, by decide, rfl, rfl, rfl, by decide, by decide, by decide, by decide, by decide, by decide, by decide,
    Prod.ext rfl (by decide), quiet_empty rfl (by decide), cachesOk_empty rfl rfl, noDirty_empty rfl⟩
  intro i h
  have : i = 0 ∨ i = 1 ∨ i = 2 ∨ i = 3 := by omega
  rcases this with rfl | rfl | rfl | rfl <;> exact ⟨0, rfl⟩

/-- A launch of 8 registers with a tenant of weight 1, core 0 the tenant's own. -/
def tSmall : Launch := { tLaunch with lrec := { tLaunch.lrec with n := 8 } }
def placed0 (l : Launch) (bs : Tbl Block) (gs : Tbl Gang) (ws : Tbl Warp) : State :=
  { State.reset with launches := [(1, l)], tenants := [(0, { weight := 1 })], cores := [(0, { owner := 0 })], blocks := bs, gangs := gs, warps := ws }

theorem wit_Residency :
    (let s := placed0 tSmall [] [] []
     tget s.launches 1 = some tSmall ∧ s.mayPlace 1 tSmall = true ∧ s.power.pstate = 0 ∧ s.sec.recovery = false ∧
       tSmall.lrec.flags.testBit 0 = false ∧ 0 < tSmall.lrec.g ∧ tSmall.emitted = [] ∧ s.gangFits tSmall.tenant tSmall.lrec false = true ∧
       s.placeOk tSmall.tenant tSmall.lrec [0] = true ∧ s.sharedCores [0] = false) ∧
    (let w := tWarp [{ tThread [] with exited := true }]
     let s := placed0 tSmall [(2, tBlock)] [(3, { launch := 1, lin := 0, cluster := 0, blocks := [2] })] [(256, w)]
     w.resident = true ∧ w.service = false ∧ (∀ u ∈ w.threads, u.exited = true ∧ ∀ p ∈ u.pend, p.due ≤ s.now) ∧ w.storeQ = [] ∧ w.oc = {} ∧
       w.seg.held = [] ∧ w.seg.closing = false) ∧
    (∃ u ∈ (tWarp [tThread []]).threads, u.exited = false) ∧
    (let g : Gang := { launch := 1, lin := 0, cluster := 0, blocks := [2] }
     let s := placed0 tSmall [(2, tBlock)] [(3, g)] [(256, { tWarp [] with resident := false })]
     tsorted s.blocks = true ∧ tget s.blocks 2 = some tBlock ∧ tBlock.state = .resident ∧ (∀ n ∈ tBlock.warps, (s.warp n).resident = false) ∧
       tget s.gangs 3 = some g ∧ g.killed = false) ∧
    (let l := { tSmall with lrec := { tSmall.lrec with flags := 4, gx := 0, gy := 0, gz := 0 }, emitted := [(0, [⟨3, 0⟩])] }
     let s := placed0 l [] [] []
     tget s.launches 1 = some l ∧ s.mayPlace 1 l = true ∧ s.power.pstate = 0 ∧ s.sec.recovery = false ∧ l.lrec.flags.testBit 0 = false ∧
       l.lrec.g = 1 ∧ s.nextFits l false = true ∧ s.placeOk l.tenant l.lrec [0] = true ∧ dieOf 0 = 0 ∧ s.sharedCores [0] = false) ∧
    let l := { tSmall with lrec := { tSmall.lrec with flags := 4, gx := 0, gy := 0, gz := 0 } }
    let r : ReTarget := { addr := 0x4000, tenant := 0, buf0 := [⟨3, 0⟩] }
    let s := { placed0 l [] [] [] with retargets := [r], now := 2048 }
    tsorted s.launches = true ∧ tget s.launches 1 = some l ∧ s.retarget l.tenant l.addr = some r ∧ r.last0 + 2048 ≤ s.now ∧
      s.targetLaunch r = some (1, l) ∧ { s with now := 0 }.now < r.last0 + 2048 :=
  ⟨by decide, by decide, ⟨_, List.mem_singleton.mpr rfl, rfl⟩, by decide, by decide +kernel, by decide +kernel⟩

theorem good_records {s : State} (h : s.poison = []) (b : Nat) : s.badRecords b = false := by
  simp only [State.badRecords]
  split <;> simp [State.anyPoison, State.poisoned, h]

/-- A gang of a pair: its twin, its block, its cluster. -/
def pairGang (twin block cluster : Nat) : Gang := { launch := 1, lin := 0, cluster := cluster, blocks := [block], twin := some twin }

theorem wit_BlockEvents :
    (let k : Block := { tBlock with state := .saving, biv := some 0x8000 }
     let s := placed0 tSmall [(2, k)] [(3, { launch := 1, lin := 0, cluster := 0, blocks := [2] })] [(256, tWarp [tThread []])]
     k.biv = some 0x8000 ∧ s.block 2 = k ∧ s.mayStore k = true ∧ k.core < 1024 ∧ s.scrErrs (.block 2) = [] ∧ noDirty s k.core ∧ Quiet s ∧ cachesOk s ∧
       ∀ n ∈ k.warps, (s.warp n).core = k.core ∧ (s.warp n).storeQ = [] ∧ (s.warp n).paired = false) ∧
    (let k : Block := { tBlock with state := .saved, biv := some 0x8000 }
     let g : Gang := { launch := 1, lin := 0, cluster := 0, blocks := [2] }
     let s := placed0 tSmall [(2, k)] [(3, g)] [(256, { tWarp [tThread []] with resident := false })]
     tget s.gangs 3 = some g ∧ g.twin = none ∧ tget s.launches g.launch = some tSmall ∧ s.mayReturn g tSmall = true ∧
       s.stillYields g tSmall = false ∧ s.unretired 3 = [2] ∧ g.blocks.Nodup ∧
       (∀ b ∈ s.unretired 3, (s.block b).state = .saved ∧ (s.block b).biv ≠ none ∧ s.badRecords b = false ∧ s.recordsOk b = true) ∧
       s.returnOk tSmall 3 [0] = true ∧ s.engineFree 3 [0] = true) ∧
    (let g : Gang := { launch := 1, lin := 0, cluster := 0, blocks := [2], killed := true }
     let s := placed0 tSmall [(2, tBlock)] [(3, g)] [(256, tWarp [])]
     let s1 := g.blocks.foldl State.freeBlock s
     s.mayReturn g tSmall = true ∧ g.killed = true ∧ g.deposits = [] ∧ (∀ n ∈ s.gangWarps 3, (s.warp n).oc = {}) ∧
       tSmall.lrec.flags.testBit 0 = false ∧ s.selfTests = [] ∧ s1.placeOk tSmall.tenant tSmall.lrec [0] = true) ∧
    ∀ sig : Word, ∀ c : Bool,
      let s := { placed0 tSmall [(2, tBlock), (5, { tBlock with gang := 4, warps := [33024] })]
        [(3, pairGang 4 2 0), (4, { pairGang 3 5 128 with onDie1 := true })]
        [(256, { tWarp [] with paired := true, seg := { closing := true } }),
          (33024, { tWarp [] with paired := true, seg := { closing := c, sig := sig } })] with now := 7000000 }
      tget s.gangs 3 = some (pairGang 4 2 0) ∧ s.warpOf 3 0 = some 256 ∧ ((pairGang 4 2 0).twin.bind fun h => s.warpOf h 0) = some 33024 ∧
        (pairGang 4 2 0).killed = false ∧ (pairGang 4 2 0).onDie1 = false ∧ (s.warp 256).seg.held = [] ∧ (s.warp 256).seg.closing = true ∧ (s.warp 33024).seg.closing = c ∧
        (s.warp 256).seg.sig = 0 ∧ (s.warp 33024).seg.sig = sig ∧ (s.warp 256).seg.since + 7000000 ≤ s.now ∧ { s with now := 6999999 }.now < (s.warp 256).seg.since + 7000000 := by
  refine ⟨⟨by decide, by decide, by decide, by decide, by decide, noDirty_empty rfl _, quiet_empty rfl (by decide), cachesOk_empty rfl rfl, by decide⟩,
    ⟨by decide, by decide, by decide, by decide, by decide, by decide, by decide, ?_, by decide, by decide⟩, by decide,
    fun _ _ => ⟨rfl, rfl, rfl, rfl, rfl, rfl, rfl, rfl, rfl, rfl, show 0 + 7000000 ≤ 7000000 by decide, show 6999999 < 0 + 7000000 by decide⟩⟩
  intro b hb
  have h0 : b = 2 := List.mem_singleton.mp hb
  subst h0
  exact ⟨by decide, by decide, good_records rfl 2, by decide +kernel⟩


/-! ## Witnesses: the engines -/

/-- A request of warp 256 in the table of cluster 0. -/
def tReq (kind : MxKind) (par : List Byte) : MxReq :=
  { id := 7, kind := kind, warp := 256, order := 0, gang := 3, block := 2, off := 0x40, par := par, priority := 0, tenant := 0, entered := 0,
    lastPass := 0 }
/-- That block and gang, with an engine. -/
def mxState (e : Engine) : State := { withBlock (tState (tWarp [tThread []]) 1) [] with engines := [(0, e)] }
/-- The parameters of an MXP of one chunk in f32 into tile 0, and of a WBLD of one chunk of f16 at 0x8000. -/
def mxpPar : List Byte := List.replicate 0x0C 0 ++ [1, 0, 10, 0] ++ List.replicate 0x30 0
def wbldPar : List Byte := [0, 0x80] ++ List.replicate 0x0A 0 ++ [1, 0, 8, 0] ++ List.replicate 0x30 0

theorem wit_MatrixEvents :
    (let e : Engine := { waiting := [3] }
     (mxState e).engine 0 = e ∧ e.owner = none ∧ e.retired = false ∧ (mxState e).power.throttled = false ∧
       { mxState e with power := { throttled := true } }.power.throttled = true) ∧
    (let r := tReq .wbld wbldPar
     let s := mxState { owner := some 3, table := [r] }
     s.mxReq 0 7 = some r ∧ r.begun = false ∧ (∀ x ∈ (s.engine 0).table.takeWhile (fun x => x.id ≠ 7), mxShares x r = false) ∧ r.malformed = false ∧
       s.mxOutside r = false ∧ r.kind = .wbld ∧ { r with par := [] }.malformed = true) ∧
    (let r := { tReq .mxp mxpPar with begun := true }
     let e : Engine := { owner := some 3, table := [r], units := (List.range 32).map fun u => (u, { format := 10, comp := 0 }), landing := [(7, 0)] }
     (mxState e).mxReq 0 7 = some r ∧ (e.table.map MxReq.id).Nodup ∧ r.kind = .mxp ∧ r.done = false ∧ r.chunk < fld r.par 0x0C 2 ∧
       e.landing = (7, 0) :: [] ∧ fld r.par 0x0E 1 = 10 ∧ fld r.par 0x0F 1 < 16 ∧ e.weightsFor r = some (0, 32) ∧
       (mxState e).mxBad r 0 = false) ∧
    (let r := { tReq .wbld wbldPar with begun := true }
     let s := mxState { owner := some 3, table := [r] }
     s.mxReq 0 7 = some r ∧ r.faulted = false ∧ r.abandoned = false ∧ slotBytes (fld r.par 0x0E 1) (fld r.par 0x0F 1) = some (128, 16) ∧
       (∃ xs, s.engXlats (s.mxAgent 0 r) accEngR (cuts (fld r.par 0 8 + r.landed * (64 * 128)) (64 * 128)) = (s, .ok xs)) ∧
       { r with abandoned := true }.abandoned = true) ∧
    let r := { tReq .acchk ([1] ++ List.replicate 63 0) with begun := true }
    let s := mxState { owner := some 3, table := [r] }
    s.mxReq 0 7 = some r ∧ tget s.blocks r.block = some { tBlock with tags := [] } ∧ tBlock.state ≠ .saved ∧ r.done = false ∧
      r.mb = false ∧ { r with done := true }.done = true ∧ s.mxBad (tReq .acld []) 0 = false := by
  refine ⟨by decide, by decide, ?_, ?_, by decide⟩
  · set_option maxRecDepth 8000 in decide
  · refine ⟨by decide, by decide, by decide, by decide, ⟨_, Prod.ext ?_ rfl⟩, by decide⟩
    set_option maxRecDepth 8000 in decide

/-- One posted operation, and its status dword at 0x6038. -/
def eopState (kind : EngKind) (desc : List Byte) (mem : List Host.Cell) : State := { solo [] with engOps := [tEop kind desc], mem := mem }

/-- A store by the device to 0x6038, in a state with the translations of `tState`. -/
theorem maps_self {s : State} {w : Waiter} (ht : s.tlb = [tMap 0, tMap 256]) (hr : s.ownsRead 0x6038 = true) (hx : s.ownsExcl 0x6038 = true)
    (hf : s.fwds = []) (hp : s.power.pstate = 0) : s.devTranslate 0 0x6038 accStore w = (s, .ok (tX 0x6038)) := by
  have h1 : s.tlbAt 256 0 0x6038 = some (tMap 256) := by rw [State.tlbAt, ht]; decide
  have h2 : s.checkEntry { accStore with engine := true } true (tMap 256) 0x6038 = .ok (tX 0x6038) := by
    have h3 : (tMap 256).pa 0x6038 = 0x6038 := by decide
    have h5 : s.nameOf 0x6038 = 0x6038 := by simp [State.nameOf, hf]
    simp only [State.checkEntry, h3, hr, hx, h5]
    decide
  have h4 : s.fabricGate (tX 0x6038).pa = (s, none) := by
    have h5 : regionOf (tX 0x6038).pa = .tier 0 := by decide
    rw [State.fabricGate, h5]
  rw [State.devTranslate, State.translate, if_neg (by decide), h1]
  have h6 : s.sleeping (tX 0x6038).pa = false := by simp [State.sleeping, hp]
  simp only [h2, h4, h6]
  rfl

theorem runs (kind : EngKind) (desc : List Byte) (mem : List Host.Cell) : Runs (eopState kind desc mem) 9 (tEop kind desc) (tX 0x6038) where
  found := ⟨rfl, rfl, rfl, nofun, rfl⟩
  single := ⟨rfl, rfl, nofun⟩
  maps := maps_self rfl rfl rfl rfl rfl
  plain := ⟨rfl, rfl, by decide, by decide⟩
  calm := ⟨quiet_empty rfl rfl, cachesOk_empty rfl rfl, noDirty_empty rfl _, noDirty_empty rfl _, rfl, rfl⟩

/-- A descriptor: bytes, then zeros. -/
def desc (bs : List Byte) : List Byte := bs ++ List.replicate (64 - bs.length) 0
def le8 (n : Nat) : List Byte := leBytes 8 n

/-- A copy of 4 bytes from 0x9000 to 0x8000; of 4 zero bytes. -/
theorem wit_EngineCompletions_copy :
    (let e := tEop .copy (desc (le8 0x8000 ++ le8 0x9000 ++ [4]))
     let s := eopState .copy e.desc []
     fld e.desc 0 8 = 0x8000 ∧ fld e.desc 8 8 = 0x9000 ∧ fld e.desc 0x10 4 = 4 ∧ fld e.desc 0x14 1 = 0 ∧ fld e.desc 0x15 1 = 0 ∧
       fld e.desc 0x16 34 = 0 ∧ rangeOk 0x8000 4 = true ∧ Mapped s e accEngW (cuts 0x8000 4) [(tX 0x8000, 4)] ∧
       (physOf [(tX 0x8000, 4)]).Nodup ∧ (∀ p ∈ physOf [(tX 0x8000, 4)], clear (tX 0x6038) p) ∧ rangeOk 0x9000 4 = true ∧
       Mapped s e accEngR (cuts 0x9000 4) [(tX 0x9000, 4)]) ∧
    (fld (tEop .copyz (desc (le8 0x8000 ++ le8 0 ++ [4]))).desc 8 8 = 0) ∧ fld (tEop .copy (desc [])).desc 0x10 4 = 0 := by
  refine ⟨⟨by decide, by decide, by decide, by decide, by decide, by decide, by decide, ⟨rfl, by decide⟩, by decide, ?_, by decide, rfl,
    by decide⟩, by decide, by decide⟩
  intro p hp
  have h : p ∈ [0x8000, 0x8001, 0x8002, 0x8003] := hp
  unfold clear
  revert p
  decide

/-- A gather and a scatter of one byte: index 0 at 0x7000, the table at 0x9000, the array at 0x8000. -/
theorem wit_EngineCompletions_gather :
    let d := desc (le8 0x8000 ++ le8 0x9000 ++ le8 0x7000 ++ [1])
    let e := tEop .gather d
    let s := eopState .gather d []
    fld d 0 8 = 0x8000 ∧ fld d 8 8 = 0x9000 ∧ fld d 0x10 8 = 0x7000 ∧ fld d 0x18 4 = 1 ∧ fld d 0x1C 1 = 0 ∧ fld d 0x1D 1 = 0 ∧ fld d 0x1E 1 = 0 ∧
      fld d 0x1F 25 = 0 ∧ rangeOk 0x7000 4 = true ∧ rangeOk 0x8000 1 = true ∧ Mapped s e accEngR (cuts 0x7000 4) [(tX 0x7000, 4)] ∧
      number (fun j => s.byteAt (((physOf [(tX 0x7000, 4)])[j]?).getD 0)) 0 4 = 0 ∧ canonical (BitVec.ofNat 64 0x9000) = true ∧
      Mapped s e accEngW (cuts 0x8000 1) [(tX 0x8000, 1)] ∧ Mapped s e accEngR [(0x9000, 1)] [(tX 0x9000, 1)] ∧
      Mapped (eopState .scatter d []) (tEop .scatter d) accEngR (cuts 0x8000 1) [(tX 0x8000, 1)] ∧
      Mapped (eopState .scatter d []) (tEop .scatter d) accEngW [(0x9000, 1)] [(tX 0x9000, 1)] :=
  ⟨by decide, by decide, by decide, by decide, by decide, by decide, by decide, by decide, by decide, by decide, ⟨rfl, by decide⟩, by decide,
    by decide, ⟨rfl, by decide⟩, ⟨rfl, by decide⟩, ⟨rfl, by decide⟩, ⟨rfl, by decide⟩⟩

/-- A flush of 8 bytes at 0x8000 at package scope. -/
theorem wit_EngineCompletions_flush : let d := desc (le8 0x8000 ++ le8 8)
    let s := eopState (.flush .pk) d []
    fld d 0x10 40 = 0 ∧ fld d 8 8 = 8 ∧ rangeOk 0x8000 8 = true ∧ (s.warp 256).storeQ = [] ∧
      s.maintPieces (tEop (.flush .pk) d).agent 0x8000 8 = (s, [(0x8000, 8, true)]) :=
  ⟨by decide, by decide, by decide, by decide, rfl⟩

/-- An addition of two f32 elements in one stack, and in two; a row copy and a row of zeros. -/
theorem wit_BaseDieOps :
    (let d := desc (le8 0x8000 ++ le8 0x9000 ++ le8 0x9100 ++ le8 0 ++ [1])
     let e := tEop (.bkop .add .f32) d
     let s := eopState e.kind d []
     8 ≤ tyWidth .f32 ∧ fld d 0x20 4 = 1 ∧ fld d 0x24 20 = 0 ∧ fld d 0x18 8 = 0 ∧ (∀ a ∈ [0x8000, 0x9000, 0x9100], a % 4 = 0 ∧ rangeOk a 4 = true) ∧
       Mapped s e accEngW (cuts 0x8000 4) [(tX 0x8000, 4)] ∧
       Mapped s e accEngR ([0x9000, 0x9100].flatMap fun a => cuts a 4) [(tX 0x9000, 4), (tX 0x9100, 4)] ∧
       (physOf [(tX 0x8000, 4)]).Nodup ∧ (∀ p ∈ physOf [(tX 0x8000, 4)], p / 256 ≠ (tX 0x6038).pa / 256) ∧
       (∀ x ∈ [(tX 0x8000, 4), (tX 0x9000, 4), (tX 0x9100, 4)], tierOf x.1.pa = some 0 ∧ x.1.pa / 2 ^ 36 = 0) ∧
       (tX 0x8000).pa / 2 ^ 36 ≠ (tX 0x1000000000).pa / 2 ^ 36) ∧
    let d := desc (le8 0x8000 ++ le8 0x9000 ++ List.replicate 16 0 ++ [0, 1])
    let e := tEop .rowcp d
    let s := eopState .rowcp d []
    fld d 0x10 16 = 0 ∧ fld d 0x24 20 = 0 ∧ fld d 0x20 4 = 256 ∧ rangeOk 0x8000 256 = true ∧ Mapped s e accEngW (cuts 0x8000 256) [(tX 0x8000, 256)] ∧
      (∀ x ∈ [(tX 0x8000, 256)], x.1.pa % 256 = 0) ∧ rangeOk 0x9000 256 = true ∧ Mapped s e accEngR (cuts 0x9000 256) [(tX 0x9000, 256)] := by
  refine ⟨⟨by decide, by decide, by decide, by decide, by decide, ⟨rfl, by decide⟩, ⟨rfl, by decide⟩, by decide, by decide, by decide,
    by decide⟩, by decide, by decide, by decide, by decide, ⟨rfl, ?_⟩, by decide, by decide, ⟨rfl, ?_⟩⟩ <;>
  set_option maxRecDepth 8000 in decide

/-! ## Witnesses: puts and collectives -/

/-- Window 1 open to every endpoint, 256 bytes at 0x8000, its landed counter at 0x9000. -/
def tWin : PutWin := { base := 0x8000, size := 256, ctl := 0x8000000080000000, land := 0x9000 }
def winState (w : PutWin) : State := { State.reset with putWins := [(1, w)], tlb := [tMap 256] }
def tPut : PutMsg := { own := none, endpoint := 5, tenant := 0, window := 1, offset := 4, bytes := [1, 2] }

theorem wit_PutEvents :
    ((winState { tWin with ctl := 0 }).putWin 1).ctl.getLsbD 63 = false ∧
    (tPut.own = none ∧ (winState tWin).putTarget tPut = (winState tWin, some [(tX 0x8004, 2)]) ∧ (physOf [(tX 0x8004, 2)]).Nodup ∧
      Quiet (winState tWin) ∧ cachesOk (winState tWin) ∧ ((winState tWin).putWin 1).land ≠ 0 ∧
      (winState tWin).devTranslate 0 0x9000 accEngW (.land 1 0x9000) = (winState tWin, .ok (tX 0x9000)) ∧
      (∀ p ∈ [0x8004, 0x8005], clear (tX 0x9000) p)) ∧
    (winState { tWin with land := 0 }).putTarget tPut = (winState { tWin with land := 0 }, some [(tX 0x8004, 2)]) ∧
    (let d := desc (le8 0x8000 ++ [5, 4, 0, 0] ++ List.replicate 12 0 ++ [2])
     let e := tEop .put d
     putOk d = true ∧ e.endpoint ≠ (eopState .put d []).endpoint ∧ { e with sent := true }.sent = true ∧ e.code = none ∧ fld d 0x20 8 = 0 ∧
       (eopState .put d []).now < e.posted + 700000) ∧ (1 : Nat) < 4096 := by
  refine ⟨by decide, ⟨by decide, rfl, by decide, quiet_empty rfl (by decide), cachesOk_empty rfl rfl, by decide, rfl, ?_⟩, rfl, by decide, by decide⟩
  unfold clear; decide

/-- The put that has gone out runs. -/
theorem wit_PutEvents_runs (d : List Byte) : let e := { tEop .put d with sent := true }
    Runs { solo [] with engOps := [e] } 9 e (tX 0x6038) where
  found := ⟨rfl, rfl, rfl, nofun, rfl⟩
  single := ⟨rfl, rfl, nofun⟩
  maps := maps_self rfl rfl rfl rfl rfl
  plain := ⟨rfl, rfl, by decide, by decide⟩
  calm := ⟨quiet_empty rfl rfl, cachesOk_empty rfl rfl, noDirty_empty rfl _, noDirty_empty rfl _, rfl, rfl⟩

/-- Slot 1, one line of s32 sums over ranks 0 and 1. -/
def tCtl : Word := 0x8000000100000001 ||| 0x0200000000000000
def tMsg (rank : Nat) : CollMsg := { own := none, tenant := 0, slot := 1, epoch := 0, rank := rank, format := 2, bytes := List.replicate 64 1 }

theorem wit_CollectiveEvents : (ctlOk tCtl = true ∧ ctlRanks tCtl = 1 ∧ tCtl.toNat / 2 ^ 56 % 16 = 2) ∧
    ({} : Slot).ctl.getLsbD 63 = false ∧
    (let k : Slot := { ctl := tCtl }
     (k.refuses (tMsg 0) = false ∧ (tMsg 0).epoch = k.epoch ∧ (tMsg 0).rank = k.next ∧ (tMsg 0).format = k.ctl.toNat / 2 ^ 56 % 16) ∧
       let m := { tMsg 0 with format := 15, bytes := List.replicate 64 0 }
       let k : Slot := { ctl := tCtl ||| 0x0800000000000000 }
       k.refuses m = false ∧ m.epoch = k.epoch ∧ m.rank = k.next) ∧
    (let s := { State.reset with power := { pstate := 1 } }
     s.power.pstate ≠ 0) ∧
    (let k : Slot := { ctl := tCtl, held := [tMsg 1], next := 1, acc := List.replicate 16 1, cnt := 0x9000 }
     let s := { State.reset with slots := [(1, k)], tlb := [tMap 256] }
     k.cnt ≠ 0 ∧ k.dropAdd = false ∧ s.devTranslate (k.ctl.toNat / 2 ^ 52 % 16) k.cnt accEngW (.slot 1 k.cnt) = (s, .ok (tX 0x9000)) ∧
       (tX 0x9000).pa % 8 = 0 ∧ ∀ j, j < 64 → (1 / 64 * 2 ^ 36 + k.offs + j) / 256 ≠ (tX 0x9000).pa / 256) ∧
    (let k : Slot := { ctl := tCtl, held := [tMsg 0] }
     let s := { State.reset with slots := [(1, k)] }
     k.ctl.getLsbD 63 = true ∧ k.devWait = false ∧ tsorted s.slots = true ∧ (∀ p ∈ s.slots, p.2.waiting = []) ∧ k.next < k.ctl.toNat / 2 ^ 32 % 1024) ∧
    (let k : Slot := { ctl := tCtl, held := [tMsg 1], next := 1, acc := List.replicate 16 1 }
     k.next = k.ctl.toNat / 2 ^ 32 % 1024 ∧ k.cnt = 0 ∧ Quiet State.reset ∧ cachesOk State.reset) ∧
    (ctlOk ((tCtl ||| 0x8000000000000000#64) &&& 0xBFF003FF00007FFF#64) = true ∧
      State.reset.reservedOn 0 1 + slotReserve ((tCtl ||| 0x8000000000000000#64) &&& 0xBFF003FF00007FFF#64) ≤ 8388608 ∧
      (State.reset.slot 1).ctl.getLsbD 63 = false) ∧
    (let e := { tEop .coll [] with code := some 0 }
     e.code = some 0 ∧ e.endpoint = State.reset.endpoint) ∧
    (collOk (desc []) = true ∧ (tEop .coll (desc [])).code = none ∧ State.reset.collWaits 9 = false) :=
  ⟨by decide, by decide, by decide, by decide, ⟨by decide, by decide, rfl, by decide, by decide⟩, by decide, ⟨by decide, by decide, quiet_empty rfl (by decide), cachesOk_empty rfl rfl⟩, by decide, by decide,
    by decide⟩

/-! ## Witnesses: the memory system and the platform -/

/-- A migration of the page at 0x5000 to 0x7000, its leaf at 0x600000. -/
def tFwd : Fwd :=
  { src := 0x5000, dst := 0x7000, tenant := 0, ipa := 0x5000, leafPa := 0x600000, leafOld := 0x5001, srcTier := 0, dstTier := 0,
    window := [[(0x5008, 3)]] }
def movingState (f : Fwd) (leaf : Byte) : State := { State.reset with fwds := [(0, f)], mem := [(0x600000, leaf), (0x600001, 0x50)] }

theorem wit_MigrationAndFaults :
    (let s := movingState tFwd 1
     s.fwds = [(0, tFwd)] ∧ s.l2 = [] ∧ s.lands = [] ∧ tFwd.src % 4096 = 0 ∧ tFwd.dst % 4096 = 0 ∧ tFwd.src ≠ tFwd.dst ∧ tFwd.leafPa % 8 = 0 ∧
       frameOf tFwd.leafPa ≠ frameOf tFwd.src ∧ frameOf tFwd.leafPa ≠ frameOf tFwd.dst ∧ (∀ w ∈ tFwd.window.flatten, frameOf w.1 = frameOf tFwd.src) ∧
       tFwd.switched = false ∧ s.entryAt tFwd.leafPa = tFwd.leafOld ∧ (movingState tFwd 9).entryAt tFwd.leafPa ≠ tFwd.leafOld ∧
       tFwd.stalled = [] ∧ s.ownsExcl tFwd.dst = true ∧ s.ownsExcl 0x1000000005000 = false ∧ (tierOf tFwd.dst).isSome = true) ∧
    (let ys : List Stalled := [{ core := 0, attr := none, ws := [(0x5010, 4)] }]
     let f : Fwd := { tFwd with stalled := ys.map Stall.bytes }
     (∀ y ∈ ys, y.bad = []) ∧ (∀ ws ∈ ys.map Stalled.ws, ws ≠ [] ∧ ∀ w ∈ ws, frameOf w.1 = frameOf f.src) ∧
       ∀ j, ((movingState f 1).tenant j).thresh = 0) ∧
    (let s := movingState { tFwd with switched := true, window := [] } 1
     drained s ∧ cachesOk s ∧ { tFwd with switched := true, window := [] }.stalled = []) ∧
    (State.reset.fbuf 0).waiters = [] ∧
    let s := { tState (tWarp [{ tThread [] with wait := .fault 0 }]) 0 with
      fbufs := [(0, { waiters := [.thread 256 0 0x5000 true false false false 0xFFFF false] })] }
    (s.fbuf 0).waiters = [.thread 256 0 0x5000 true false false false 0xFFFF false] ∧ (s.warp 256).resident = true ∧
      (s.thread 256 0).exited = false ∧ (s.thread 256 0).wait = .fault 0 ∧ 0 = clusterOf (s.warp 256).core ∧ 0 < (s.warp 256).threads.length ∧ cachesOk s ∧
      ((s.warp 256).tenant, 0x5000 / 4096 * 4096) ∉ (s.fbuf 0).abandoned ∧
      (s.translateFor (s.warp 256) { read := true, write := false, fetch := false, atomic := false } 0x5000).2 = .ok (tX 0x5000) :=
  ⟨by decide, ⟨by decide, by decide, fun _ => rfl⟩, ⟨drained_of (by decide) rfl, cachesOk_empty rfl rfl, rfl⟩, by decide, by decide, by decide, by decide,
    by decide, by decide, by decide, cachesOk_empty rfl rfl, by decide, by decide⟩

theorem wit_FabricRequests : (fabricPa (.load 0x60000000000 8) = 0x60000000000 ∧ regionOf 0x60000000000 = .none) ∧
    (tierOf 0x1000000005000 = some 2 ∧ State.reset.fwds = [] ∧ tget State.reset.poolPages (frameOf (0x1000000005000 - 0x1000000000000)) = none ∧
      tget { State.reset with poolPages := [(5, .shared)] }.poolPages 5 ≠ some .exclusive ∧
      tget { State.reset with poolPages := [(5, .exclusive)] }.poolPages 5 = some .exclusive) ∧
    ((tierOf 0x5000).isSome = true ∧ State.reset.power.pstate = 0 ∧ Quiet State.reset ∧ cachesOk State.reset ∧ 8 ≤ tyWidth .s32) ∧
    (let s := { State.reset with fabResv := [(5, ⟨0x5000 / 64, 0⟩)] }
     tget s.fabResv 5 = some ⟨0x5000 / 64, 0⟩ ∧ s.now ≤ 0 + 1400) ∧ tget State.reset.fabResv 5 = none :=
  ⟨by decide, by decide, ⟨by decide, rfl, quiet_empty rfl (by decide), cachesOk_empty rfl rfl, by decide⟩, by decide, by decide⟩

/-- Which of the two clauses of ACQUIRE applies is a free value: in any state one of them does. -/
theorem wit_PoolEvents_acquire (s : State) (held : Nat → Option PoolOwn) :
    (∃ j, Config.poolBusy s.drawn = some j ∧ held j = none) ∨ ∀ j, Config.poolBusy s.drawn = some j → held j ≠ none := by
  by_cases h : ∃ j, Config.poolBusy s.drawn = some j ∧ held j = none
  · exact .inl h
  · exact .inr fun j hj hn => h ⟨j, hj, hn⟩

theorem wit_PoolEvents :
    (let s := { State.reset with migdecay := 1, now := 65536 }
     s.migdecay ≠ 0 ∧ s.decayFrom + s.migdecay * 65536 ≤ s.now) ∧ State.reset.migdecay = 0 ∧
    (tierOf (0x5000 / 4096 % 2 ^ 40 * 4096) = some 0 ∧ (tgetD State.reset.rings 0 []).length < 1024) ∧ tierOf 0 ≠ some 1 ∧
    { State.reset with retRing := [0x5000] }.retRing = [0x5000] ∧ State.reset.retRing = [] ∧ Quiet State.reset ∧ cachesOk State.reset ∧
    (∀ c, noDirty State.reset c) ∧ noStores State.reset ∧
    (let s := { State.reset with poolPages := [(4, .exclusive), (5, .exclusive), (6, .shared)] }
     (∀ j, j ≤ 1 → tget s.poolPages (4 + j) = some .exclusive) ∧ tget s.poolPages (4 + 2) ≠ some .exclusive ∧
       (∀ i, i < 2 → tget s.poolPages (4 + i) = some .exclusive) ∧ tget s.poolPages 6 = some .shared ∧ tget s.poolPages 4 ≠ some .shared ∧
       s.poolCmd.waits = [] ∧ Quiet s ∧ (∃ j, j ≤ 1 ∧ tget s.poolPages (5 + j) = some .exclusive)) ∧
    (∀ j, j ≤ 1 → tget State.reset.poolPages (4 + j) ≠ some .exclusive) ∧
    { State.reset with poolCmd := { status := 3 } }.poolCmd.status = 3 ∧ State.reset.poolCmd.status ≠ 3 ∧
    { State.reset with now := 35000000 }.lastBeat + 35000000 ≤ { State.reset with now := 35000000 }.now ∧
    State.reset.now < State.reset.lastBeat + 35000000 := by
  refine ⟨by decide, by decide, by decide, by decide, by decide, by decide, quiet_empty rfl (by decide), cachesOk_empty rfl rfl,
    noDirty_empty rfl, noStores_empty rfl, ⟨?_, by decide, ?_, by decide, by decide, by decide, quiet_empty rfl (by decide), 0, by decide, by decide⟩,
    fun _ _ => nofun, by decide, by decide, by decide, by decide⟩
  · intro j h
    rcases (by omega : j = 0 ∨ j = 1) with rfl | rfl <;> decide
  · intro j h
    rcases (by omega : j = 0 ∨ j = 1) with rfl | rfl <;> decide

/-- An image with the vendor keys and good signatures; an alarm 10 ms old; routed and unrouted alarms. -/
theorem wit_PlatformEvents :
    (let m : ImageMsg :=
      { rsaKey := Config.vendorKeys.1, slhKey := Config.vendorKeys.2, rsaOk := true, slhOk := true, version := 1, entry := 0x1000, digest := 7 }
     m.rsaKey = Config.vendorKeys.1 ∧ m.slhKey = Config.vendorKeys.2 ∧ m.rsaOk = true ∧ m.slhOk = true ∧ State.reset.sec.rollback ≤ m.version ∧
       State.reset.sec.failed = none ∧ State.reset.sec.stage < 3 ∧ State.reset.power.shutdown = false ∧
       { State.reset with sec := { stage := 3 } }.sec.stage = 3 ∧ (State.reset.warp 0).threads.length = 1 ∧ { m with rsaOk := false }.rsaOk ≠ true) ∧
    ((∀ p ∈ State.reset.power.alarms, p.1 ≠ PlatformCond.rail) ∧ State.reset.introute = [] ∧ (Config.policyFuse = true ∨ Config.policyFuse = false) ∧
      tgetD { State.reset with introute := [(4 + Config.alarmSource % 12, 0x105)] }.introute (4 + Config.alarmSource % 12) 0 = BitVec.ofNat 64 (256 + 5)) ∧
    (let s := { State.reset with power := { alarms := [(.rail, 7000000)] }, now := 7000000 }
     (∃ p ∈ s.power.alarms, p.2 ≤ s.now) ∧ ∀ p ∈ { s with now := 6999999 }.power.alarms, { s with now := 6999999 }.now < p.2) ∧
    (∃ p ∈ { State.reset with power := { alarms := [(.security, 7)] } }.power.alarms, p.1 = PlatformCond.security) ∧
    { State.reset with sec := { recovery := true } }.sec.recovery = true ∧
    (let s := { State.reset with power := { lattol := 1000 }, now := 7000 }
     s.busy = false ∧ s.power.exiting = false ∧ s.power.stateSince + holdTime 1 ≤ s.now ∧ exitTime 1 ≤ s.power.lattol.toNat ∧ Quiet s ∧ cachesOk s) ∧
    { State.reset with engOps := [tEop .copy []] }.busy = true ∧
    (let s := { State.reset with power := { pstate := 1 } }
     s.power.pstate ≠ 0 ∧ s.power.exiting = false) ∧
    let s := { State.reset with power := { pstate := 1, exiting := true }, now := 700 }
    s.power.exiting = true ∧ s.power.pstate ≤ 3 ∧ s.power.stateSince + exitTime s.power.pstate * 7 / 10 ≤ s.now :=
  ⟨⟨rfl, rfl, by decide⟩, ⟨by decide, by decide, (Bool.eq_false_or_eq_true _), by simp [tgetD, tget]⟩, ⟨⟨_, List.mem_singleton.mpr rfl, by decide⟩, by decide⟩,
    ⟨_, List.mem_singleton.mpr rfl, rfl⟩, by decide,
    ⟨by decide, by decide, by decide, by decide, quiet_empty rfl (by decide), cachesOk_empty rfl rfl⟩, by decide, by decide, by decide⟩

theorem wit_LanternEvents : State.reset.introute = [] ∧
    (let g : Gang := { launch := 1, lin := 0, cluster := 0, blocks := [2] }
     let s := placed0 tSmall [(2, tBlock)] [(3, g)] [(256, tWarp [])]
     tget s.blocks 2 = some tBlock ∧ tget s.gangs tBlock.gang = some g ∧ tBlock.state = .resident) ∧
    ([true, false, true].length = 3 ∧ false ∈ [true, false, true]) ∧
    (∀ c, c < 256 → (State.reset.engine c).tiles = []) ∧ (0 < tBlock.allocBytes) ∧
    ((State.reset.core 5).enabled = true ∧ (State.reset.core 5).fusePending = none ∧ (State.reset.core 5).lmap.getLsbD 3 = true) ∧
    ((State.reset.retiredL2.filter fun r => r.1 = 0 ∧ r.2.1 = 0 ∧ r.2.2.1 = 0).length < 14 ∧ cachesOk State.reset ∧ Quiet State.reset ∧
      (0, 0, 0, 15) ∉ State.reset.retiredL2) ∧
    (let s := { State.reset with retiredL2 := (List.range 14).map fun w => (0, 0, 0, w) }
     (s.retiredL2.filter fun r => r.1 = 0 ∧ r.2.1 = 0 ∧ r.2.2.1 = 0).length = 14 ∧ (0, 0, 0, 15) ∉ s.retiredL2 ∧ s.retiringSlices = [] ∧
       (0, 0) ∉ s.retiredSlices ∧ (∀ q ∈ s.tenants, 0 ∉ q.2.slices0 ∧ 0 ∉ q.2.slices1)) ∧
    State.reset.sec.recovery = false ∧ ([1, 2] : List Byte).length ≤ 64 ∧ { State.reset with sec := { recovery := true } }.sec.recovery = true :=
  ⟨by decide, by decide, by decide, fun _ _ => rfl, by decide, by decide, ⟨by decide, cachesOk_empty rfl rfl, quiet_empty rfl (by decide), by decide⟩,
    by decide, by decide, by decide, by decide⟩


/-! ## Well-formedness: an ill-formed term for each check -/

theorem wf_types :
    (Instr.iaddLong ctl .zero .zero (.imm 0) .f32 false).wf = false ∧ (Instr.andLong ctl .zero .zero (.imm 0) .f32).wf = false ∧
    (Instr.iaddcLong ctl .zero .zero (.imm 0) .s64 1).wf = false ∧ (Instr.idot4Long ctl .zero .zero .zero .zero .n16 false).wf = false ∧
    (Instr.faddLong ctl .zero .zero (.imm 0) .q8 .rne).wf = false ∧ (Instr.fex2 ctl .zero .zero .f64 .rne).wf = false ∧
    (Instr.movLong ctl .zero (.imm 0) .l6).wf = false ∧ (Instr.fdotLong ctl .zero .zero .zero .zero .f64 .rne).wf = false ∧
    (Instr.fsum ctl .zero .zero .b64 .rne).wf = false ∧ (Instr.cvt ctl .zero .zero .b64 .f32 .rne).wf = false ∧
    (Instr.dqblk ctl .zero 0 .zero .h4 .rne).wf = false ∧ (Instr.matchI ctl .zero .zero .s32).wf = false := by decide

theorem wf_operands :
    (Instr.ld ctl (.g 1) .zero 0 .b128).wf = false ∧ (Instr.st ctl (.w 3) .zero 0 .b128).wf = false ∧ (Instr.ld ctl .zero .zero 0 (.ty .q8)).wf = false ∧
    (Instr.bcst ctl .zero .zero (.imm 32)).wf = false ∧ (Instr.rng ctl (.g 3) .zero none .b64).wf = false ∧
    (Instr.rngg ctl (.g 3) .zero none .f64).wf = false ∧ (Instr.qblk ctl 0 7 none .f16 .rne).wf = false ∧ (Instr.qblk ctl 0 8 none .f32 .rne).wf = false ∧
    (Instr.qblk ctl 0 8 (some 9) .f16 .rne).wf = false := by decide

theorem wf_operations :
    (Instr.wred ctl .zero .zero .zero .f32 .and .fpctl).wf = false ∧ (Instr.wscan ctl .zero .zero .zero .s32 .add false .rz).wf = false ∧
    (Instr.lr ctl .zero .zero 0 .f64).wf = false ∧ (Instr.atom ctl .zero .zero .zero .and .f32).wf = false ∧
    (Instr.atom ctl .zero .zero .zero .add .b64).wf = false ∧ (Instr.red ctl .zero .zero .exch .n64).wf = false ∧
    (Instr.bkop ctl .zero 0 .add .f64).wf = false ∧ (Instr.coreStep 0).wf = false := by decide

/-! ## Decoding: words the spec writes out -/

/-- Words decode to an instruction. -/
def reads (ws : List Nat) (i : Instr) : Bool := decode (bytesOf ws) == .ok i

/-- R275, R276, R285 and the examples of the entries of classes 0 and 1. -/
theorem decode_integer :
    reads [0x80002027, 0xFFF81400] (.iaddLong ctl (.g 4) (.g 4) (.imm 0xFFF8) .s32 false) ∧
    reads [0x88583017, 0x04FF3801] (.iaddcLong ⟨1, 7, false⟩ (.g 6) (.g 2) (.reg (.g 4)) .n64 1) ∧
    reads [0x8098200F, 0x020378D8] (.lop3Long ctl (.g 4) (.g 1) (.g 2) (.g 3) .b64 0xD8) ∧
    reads [0x8080303F, 0x00FF7C00] (.andLong ctl (.g 6) (.g 7) (.imm 0xFF) .b64) ∧ reads [0x00902106] (.xorCompact 0 1 2 3) := by decide

/-- The examples of the entries of classes 2 and 3. -/
theorem decode_compare_and_float :
    reads [0x81000827, 0x09FF3800] (.icmpLong ctl 1 (.g 4) (.reg (.g 9)) .n64 .eq .first) ∧
    reads [0x810810A7, 0x06FF5802] (.fcmpLong ctl 2 (.g 20) (.reg (.g 6)) .f64 .lt .first) ∧
    reads [0x81101817, 0x05FF5020] (.fclass ctl 3 (.g 2) (.g 5) .f32 .any) ∧
    reads [0x8920083F, 0x07FF7802] (.plop ⟨1, 7, false⟩ 1 7 7 .xor false false) ∧
    reads [0x81461FFF, 0x05FF7800] (.movwLong ctl 3 (.reg (.g 5)) .b64) ∧ reads [0x814E102F, 0xFFFF7800] (.wmov ctl 2 (.g 5) .zero) ∧
    reads [0x9998505B, 0x0C0DD100] (.ffmaLong ⟨3, 3, true⟩ (.g 10) (.g 11) (.g 12) (.g 13) .f32 .rz) ∧
    reads [0xC1903037, 0xFFFF5000, 0x40490FDB] (.fmulLiteral ctl (.g 6) (.g 6) 0x40490FDB .f32 .fpctl) ∧
    reads [0x81B02837, 0xFFFF5800] (.fabs ctl (.g 5) (.g 6) .f64) := by decide

/-- The examples of the entries of classes 6 to 9. -/
theorem decode_flow_and_memory :
    reads [0x8307FFFF, 0xFFF07800] (.braLong ctl 0xFFF0) ∧ reads [0x832FF8AF, 0xFFFF7801] (.meetLong ctl (.reg (.g 21))) ∧
    reads [0x8367F84F, 0xFFFF7800] (.sleep ctl (.g 9)) ∧ reads [0x83A82017, 0x02007B00] (.lds ctl (.g 4) (.g 2) 0x200 (.ty .b64) .wfclr false) ∧
    reads [0x83E0300F, 0x00003800] (.lr ctl (.g 6) (.g 1) 0 .n64) ∧ reads [0x83E8380F, 0x00003802] (.sc ctl (.g 7) (.g 1) 0 .n64 2) ∧
    reads [0x84082817, 0x03043800] (.cas ctl (.g 5) (.g 2) (.g 3) (.g 4) .n64) ∧ reads [0x8417F817, 0x03FF5800] (.red ctl (.g 2) (.g 3) .add .f64) ∧
    reads [0x842FF817, 0x03FF3040] (.reds ctl (.g 2) (.g 3) .add true .n32) ∧ reads [0x848FFFFF, 0xFFFF7803] (.waitc ctl .cl 0) ∧
    reads [0x84B027FF, 0x05017800] (.alloc ctl 1 (.g 4) (.g 5) false) := by decide

/-- The examples of the entries of classes 10 to 14. -/
theorem decode_engines_and_system :
    reads [0x8517F817, 0x00807800] (.gath ctl (.g 2) 0x80) ∧ reads [0x851FF817, 0x01007800] (.scat ctl (.g 2) 0x100) ∧
    reads [0x8527F817, 0x00007800] (.put ctl (.g 2) 0) ∧ reads [0x8537F837, 0x00405002] (.bkop ctl (.g 6) 0x40 .fma .f32) ∧
    reads [0x853FF82F, 0x00407800] (.rowcp ctl (.g 5) 0x40) ∧ reads [0x854FF81F, 0x00007805] (.clean ctl (.g 3) 0 .pk) ∧
    reads [0x8557F81F, 0x00007805] (.inval ctl (.g 3) 0 .pk) ∧ reads [0x855FF81F, 0x00007805] (.flush ctl (.g 3) 0 .pk) ∧
    reads [0x858FFFFF, 0x60007800] (.wbld ctl .zero 0x6000) ∧ reads [0x85AFF827, 0x00407800] (.acchk ctl (.g 4) 0x40) ∧
    reads [0x8637F827, 0x05FF7802] (.tlbi ctl (.gp (.g 4) (.g 5))) ∧ reads [0x86800837, 0xFFFF7800] (.launch ctl 1 (.g 6)) ∧
    reads [0x871FFFFF, 0x00127800] (.hvc ctl 0x12) ∧ reads [0x8727FFFF, 0x00017800] (.sec ctl 1) ∧
    reads [0x8717FFFF, 0xFFFF7800] (.eret ctl false) ∧ reads [0x8717FFFF, 0xFFFF7801] (.eret ctl true) := by decide

/-- The refused words of R285. -/
theorem decode_refuses : ∀ ws ∈ [[0x40000000, 0], [0x00700000, 0], [0x00480000, 0], [0x80002027, 0xFFF81000], [0x8000A027, 0x06000000],
    [0x80080007, 0x22000000]], (match decode (bytesOf ws) with | .ok _ => false | .error _ => true) = true := by set_option maxRecDepth 8000 in decide

/-! ## Worked examples of the spec -/

/-- R276 with the immediate IADD of R285, and the table of R359. -/
theorem test_integer :
    intAll .add .s32 false 0x0000001000000003 0xFFFFFFF8FFFFFFF8 0 = 0x00000008FFFFFFFB ∧ intAll .div .s64 false 7 0 0 = 0xFFFFFFFFFFFFFFFF ∧
    intAll .rem .s64 false 7 0 0 = 7 ∧ intAll .div .s64 false (2 ^ 63) (-1) 0 = 0x8000000000000000 ∧ intAll .rem .s64 false (2 ^ 63) (-1) 0 = 0 ∧
    intAll .div .s64 false (-7) 2 0 = -3 ∧ intAll .rem .s64 false (-7) 2 0 = -1 ∧ intAll .add .s8 true 100 100 0 = 0x7F ∧
    intAll .abs .s32 false 0x80000000 0 0 = 0x80000000 ∧ intAll .abs .s32 true 0x80000000 0 0 = 0x7FFFFFFF ∧
    intAll .neg .n16 true 5 0 0 = 0 ∧ intAll .mulh .n64 false (2 ^ 63) 4 0 = 2 := by set_option maxRecDepth 8000 in decide

/-- The examples of R393, R306 and R382. -/
theorem test_logic :
    shiftAll .shra .n8 0x80 3 = 0xF0 ∧ shiftAll .rot .b64 0x8000000000000001 68 = 0x18 ∧ bfxElem .s64 0xABCD 0x0C04 = 0xFFFFFFFFFFFFFABC ∧
    bfxElem .n64 0xABCD 0x0C04 = 0xABC ∧ prmt 0x0706050403020100 0 0x0001020304050607 = 0x0001020304050607 ∧
    prmt 0x0706050403020100 0 0x00000000C0804100 = 0x00000000FF00FE00 := by set_option maxRecDepth 8000 in decide

/-- The examples of R330: 1 + 2^-24 and an overflow, under three modes; one rounding and two. -/
theorem test_float :
    (let v := fmtF32.value
     fAdd fmtF32 .rne false (v 0x3F800000) (v 0x33800000) = (0x3F800000, flNX) ∧ fAdd fmtF32 .ru false (v 0x3F800000) (v 0x33800000) = (0x3F800001, flNX) ∧
     fAdd fmtF32 .rne false (v 0x7F7FFFFF) (v 0x7F7FFFFF) = (0x7F800000, flOF ||| flNX) ∧
     fAdd fmtF32 .rz false (v 0x7F7FFFFF) (v 0x7F7FFFFF) = (0x7F7FFFFF, flOF ||| flNX) ∧
     fMul fmtF32 .rne false (v 0x3F800800) (v 0x3F800800) = (0x3F801000, flNX) ∧
     fFma fmtF32 .rne false (v 0x3F800800) (v 0x3F800800) (v 0xBF801000) = (0x33800000, 0)) := by set_option maxRecDepth 8000 in decide

/-- The check values of R154 and R244, and the vector of R164. -/
theorem test_sums :
    crc64 0 [0x31, 0x32, 0x33, 0x34, 0x35, 0x36, 0x37, 0x38, 0x39] = 0x6C40DF5F0B497347 ∧
    crc16 [0x31, 0x32, 0x33, 0x34, 0x35, 0x36, 0x37, 0x38, 0x39] = 0x29B1 ∧
    (let k := kindling ⟨0, 0, 0, 0, 0, 0⟩
     (k.c0, k.c1, k.c2, k.c3) = (0x8BEF02CD#32, 0x9436D844#32, 0x18AE5181#32, 0x8E44C87A#32)) := by set_option maxRecDepth 8000 in decide

/-- From reset, a placed IADD of R285 runs: registers read 0 before a first write (log 7), so each sub-element of g4 takes -8. -/
theorem test_step :
    (match step (State.reset.withFetchWord 64 0xFFF8140080002027) with
     | .next s => tgetD (s.thread 0 0).regs 4 0
     | _ => 0) = 0xFFFFFFF8FFFFFFF8 := by set_option maxRecDepth 8000 in decide

end Sys2Proof.Tests
end

