-- ==== Sys2Proof/Proofs/Platform.lean ====
section
/-! PROOFS. O60 fails: the clause on an L2 way that fails its self-test says that every byte of memory reads as before, in every state
that is `Quiet` and `cachesOk`. The slice that follows the way is retired by `State.settleSlices`, which flushes every slice that
`retiringSlices` lists, whatever its die; and nothing in the hypotheses confines that list to the dies that exist. A cache numbered
above 2 is none that `State.cohByte` asks, so that its dirty bytes, flushed, change what memory reads as. -/

namespace Sys2Proof.Proofs

open Sys2Proof Sys2Proof.Machine Sys2Proof.Claims

/-- The cache of the stray die 3: one line, with a dirty 1 at address 0. -/
def strayCache : Cache :=
  { sectors := [(0, { bytes := [(0, { val := 1, dirty := true })] })], lines := [(0, {})] }

/-- The machine at reset, but that set 0 of slice 0 on die 0 has two ways left, and that slice 0 of the stray die 3 is to be retired. -/
def strayRetirement : State :=
  { State.reset with
    l2 := [(3, strayCache)]
    retiredL2 := (List.range 14).map fun way => (0, 0, 0, way)
    retiringSlices := [(3, 0)] }

/-- The way of that set whose self-test fails, which leaves it with one way. -/
def failingWay : TestUnit := .l2Line 0 0 0 14

theorem tidy_strayCache : tidy strayCache := by
  refine ⟨rfl, fun p hp => ?_⟩
  obtain rfl := List.mem_singleton.mp hp
  exact ⟨rfl, by decide⟩

theorem l2c_strayRetirement (k : Nat) : strayRetirement.l2c k = if k = 3 then strayCache else {} := by
  simp only [State.l2c, strayRetirement, tgetD, tget]
  split <;> rfl

theorem cachesOk_strayRetirement : cachesOk strayRetirement := by
  have noL1 (k : Nat) : strayRetirement.l1c k = {} := rfl
  have tidyEmpty : tidy {} := ⟨rfl, nofun⟩
  refine ⟨fun k => ?_, fun c _ => noL1 c, fun a i j b c hi _ hb => ?_⟩
  · rw [noL1, l2c_strayRetirement]
    refine ⟨tidyEmpty, ?_⟩
    split
    · exact tidy_strayCache
    · exact tidyEmpty
  · rw [l2c_strayRetirement, if_neg (by omega)] at hb
    cases hb

theorem quiet_strayRetirement : Quiet strayRetirement := ⟨rfl, fun _ => rfl⟩

/-- Before the test no cache that is asked holds a byte, and memory lists none. -/
theorem byteAt_strayRetirement : strayRetirement.byteAt 0 = 0 := by decide

/-- The stray slice goes home with the failed one, and its dirty byte with it. -/
theorem byteAt_after_failingWay {t : State} (h : exec (.selfTest failingWay [true, false, true]) strayRetirement = .next t) : t.byteAt 0 = 1 := by
  have run : (match exec (.selfTest failingWay [true, false, true]) strayRetirement with
      | .next u => u.byteAt 0
      | _ => 0) = 1 := by decide
  rwa [h] at run

/-- Refutes O60: with slice 0 of a die 3 listed in `retiringSlices`, the failed self-test of an L2 way of die 0 writes that die's dirty
byte to address 0. -/
theorem not_platform : ¬ Obligations.Platform := by
  rintro ⟨-, lantern⟩
  obtain ⟨-, -, -, failed, -⟩ := lantern strayRetirement
  obtain ⟨-, -, -, -, l2Line, -, -⟩ := failed [true, false, true] rfl (by decide)
  obtain ⟨t, ran, -, sameBytes, -⟩ :=
    l2Line 0 0 0 14 (by decide) (by decide) (by decide) (by decide) (by decide) quiet_strayRetirement cachesOk_strayRetirement
  have reads := sameBytes 0
  rw [byteAt_after_failingWay ran, byteAt_strayRetirement] at reads
  exact absurd reads (by decide)

end Sys2Proof.Proofs
end

