-- ==== Sys2Proof/Proofs/EnginePosts.lean ====
section
/-! PROOFS. O40 fails: its last clause says that the core sees every byte of memory as before, in every state that is `Plain` for the
descriptor. `Plain` asks that no forwarding entry has the descriptor's page as its source, and translation (`State.nameOf`) names no page
that an entry has as its switched destination; but nothing in the hypotheses asks that an entry's destination begins a frame. One that
does not reaches into the next frame, so that a byte of its source page has its home among the descriptor bytes, and the write-back of
those bytes from L1, which R117 asks for before the read, changes what that byte reads as. In a state in which every entry names whole
frames the two ranges cannot meet. -/

namespace Sys2Proof.Proofs

open Sys2Proof Sys2Proof.Machine Sys2Proof.Claims

/-- A switched migration of the page at 0x8000 to 0x1001, which begins no frame: the home of 0x8FFF is 0x2000. -/
def straddlingFwd : Fwd :=
  { src := 0x8000, dst := 0x1001, tenant := 0, ipa := 0, leafPa := 0, leafOld := 0, srcTier := 0, dstTier := 0, switched := true }

/-- Virtual addresses to themselves, in the L1 TLB of core 0. -/
def identityPage : TlbEntry :=
  { node := 512, tenant := 0, vbase := 0, size := 2 ^ 39, ibase := 0, pbase := 0, leafPa := 0, w1 := true, x1 := true, u1 := true,
    w2 := true, r2 := true, x2 := true, ms := false, repl := false, mig := false, pinrq := false, landrq := false, aff := 0, tiers := 7,
    lev1 := 0, lev2 := 1 }

/-- The L1 of core 0: a dirty 1 at 0x2000. -/
def dirtyDescriptor : Cache := { sectors := [(0x80, { bytes := [(0, { val := 1, dirty := true })] })] }

/-- The L2 of die 0: it holds the line of the descriptor. -/
def heldLine : Cache := { sectors := [(0x80, { filled := true })] }

/-- A warp of core 0 with one thread, in a machine where the descriptor at 0x2000 is dirty in L1 and a home of another page. -/
def straddledDescriptor : State :=
  { State.reset with
    warps := [(256, { resident := true, threads := [{ exited := false }] })]
    cur := { warp := 256, lanes := 1 }
    tlb := [identityPage]
    fwds := [(0, straddlingFwd)]
    l1 := [(0, dirtyDescriptor)]
    l2 := [(0, heldLine)] }

/-- CPY with its descriptor at 0x2000. -/
def straddledCopy : Instr := .cpy ⟨0, 7, false⟩ .zero 0x2000

theorem issues_straddledCopy : Issues straddledCopy straddledDescriptor := Option.isNone_iff_eq_none.mp (by decide)

theorem lane_eq_zero_of_mbit_one {l : Nat} (h : mbit 1 l = true) : l = 0 := by
  have bit : (1#32).getLsbD l = true := h
  simp only [BitVec.getLsbD_one, Bool.and_eq_true, decide_eq_true_eq] at bit
  exact bit.2

theorem bundled_straddledDescriptor : Bundled straddledDescriptor := by
  refine ⟨by decide, fun l h => ?_⟩
  obtain rfl := lane_eq_zero_of_mbit_one h
  decide

theorem actsFor_straddledCopy : actsFor straddledCopy straddledDescriptor 0 := ⟨by decide, nofun⟩

theorem l1c_straddledDescriptor (k : Nat) : straddledDescriptor.l1c k = if k = 0 then dirtyDescriptor else {} := by
  simp only [State.l1c, straddledDescriptor, tgetD, tget]
  split <;> rfl

theorem l2c_straddledDescriptor (k : Nat) : straddledDescriptor.l2c k = if k = 0 then heldLine else {} := by
  simp only [State.l2c, straddledDescriptor, tgetD, tget]
  split <;> rfl

theorem tidy_oneSector {k : Nat} {x : Sector} (rising : tsorted x.bytes = true) (within : ∀ b ∈ x.bytes, b.1 < 64) :
    tidy { sectors := [(k, x)] } := by
  refine ⟨rfl, fun p hp => ?_⟩
  obtain rfl := List.mem_singleton.mp hp
  exact ⟨rising, within⟩

theorem byte_oneSector (k : Nat) (x : Sector) (a : Nat) :
    Cache.byte { sectors := [(k, x)] } a = if a / 64 = k then tget x.bytes (a % 64) else none := by
  by_cases h : a / 64 = k
  · simp only [Cache.byte, tget, if_pos h]
  · simp only [Cache.byte, tget, if_neg h]

/-- No L2 holds a dirty byte. -/
theorem l2_clean_straddledDescriptor (k a : Nat) : (straddledDescriptor.l2c k).dirtyByte a = none := by
  rw [l2c_straddledDescriptor]
  split
  · simp only [Cache.dirtyByte, heldLine, byte_oneSector, tget_nil, ite_self]
  · rfl

theorem cachesOk_straddledDescriptor : cachesOk straddledDescriptor := by
  have tidyEmpty : tidy {} := ⟨rfl, nofun⟩
  refine ⟨fun k => ?_, fun c hc => ?_, fun a i j b c _ _ hb => ?_⟩
  · rw [l1c_straddledDescriptor, l2c_straddledDescriptor]
    split
    · exact ⟨tidy_oneSector rfl (by decide), tidy_oneSector rfl nofun⟩
    · exact ⟨tidyEmpty, tidyEmpty⟩
  · rw [l1c_straddledDescriptor, if_neg (by omega)]
  · rw [l2_clean_straddledDescriptor] at hb
    cases hb

/-- The only byte that L1 holds is sound. -/
theorem sound_dirtyDescriptor {a : Nat} {b : CByte} (h : dirtyDescriptor.byte a = some b) : b.bad = false := by
  rw [dirtyDescriptor, byte_oneSector] at h
  simp only [tget] at h
  split at h
  · split at h <;> cases h
    rfl
  · cases h

theorem plain_straddledDescriptor : ∃ x, Plain straddledDescriptor 0 accLoad
    ((straddledDescriptor.cx straddledDescriptor.cur.warp 0).ea .zero 0x2000) 64 x :=
  ⟨{ pa := 0x2000, ipa := 0x2000, leafPa := 0, tiers := 7 }, {
    form := by decide
    maps := by decide
    tier := by decide
    cached := by decide
    still := by decide
    sent := fun _ => rfl
    awake := rfl
    good := fun _ _ => rfl
    sound := fun a b h => sound_dirtyDescriptor (a := a) h
    caches := cachesOk_straddledDescriptor }⟩

/-- Before the post the byte at 0x8FFF reads as 0 at its home. -/
theorem sees_straddledDescriptor : sees straddledDescriptor straddledDescriptor.curWarp.core 0x8FFF = 0 := by decide

/-- The post writes the dirty byte at 0x2000 back to the L2, and 0x8FFF, whose home that is, reads as 1. -/
theorem sees_after_straddledCopy {t : State} (h : exec straddledCopy straddledDescriptor = .next t) :
    sees t straddledDescriptor.curWarp.core 0x8FFF = 1 := by
  have run : (match exec straddledCopy straddledDescriptor with
      | .next u => sees u straddledDescriptor.curWarp.core 0x8FFF
      | _ => 0) = 1 := by decide
  rwa [h] at run

/-- Refutes O40: with a forwarding entry whose destination begins no frame, the post of a CPY changes what the posting core sees at
0x8FFF from 0 to 1. -/
theorem not_enginePosts : ¬ Obligations.EnginePosts := by
  intro h
  obtain ⟨x, plain⟩ := plain_straddledDescriptor
  obtain ⟨posts, -⟩ := h straddledCopy .copy .zero 0x2000 straddledDescriptor rfl issues_straddledCopy bundled_straddledDescriptor (by decide)
  obtain ⟨t, op, ran, -, -, -, -, -, -, -, -, -, -, -, -, -, -, -, seen⟩ :=
    posts 0 x actsFor_straddledCopy plain (by decide) (by decide) (fun hl => absurd hl (by decide))
  have same := seen 0x8FFF
  rw [sees_after_straddledCopy ran, sees_straddledDescriptor] at same
  exact absurd same (by decide)

end Sys2Proof.Proofs
end

