-- ==== Sys2Proof/Proofs/Retirement.lean ====
section
/-! PROOFS. What O53 says of warps and blocks that retire (R33) and of a reorder unit's idle flush (R41): each step of the model as one
equation, and what it leaves alone. -/

namespace Sys2Proof.Proofs

open Sys2Proof Sys2Proof.Machine Sys2Proof.Claims

/-! ## Tables -/

section
variable {α : Type}

theorem tget_tmod (t : Tbl α) (n m : Nat) (f : α → α) : tget (tmod t n f) m = if m = n then (tget t m).map f else tget t m := by
  induction t with
  | nil => simp [tmod]
  | cons p r ih =>
    obtain ⟨k, v⟩ := p
    unfold tmod at ih ⊢
    rw [List.map_cons]
    by_cases hk : k = n
    · rw [if_pos hk, tget, tget, ih, hk]
      split <;> rfl
    · rw [if_neg hk, tget, tget, ih]
      by_cases hm : m = k
      · rw [if_pos hm, if_neg (hm ▸ hk), if_pos hm]
      · rw [if_neg hm, if_neg hm]

/-- Keys dropped from a table read as missing. -/
theorem tget_filter_keys (t : Tbl α) (ks : List Nat) (n : Nat) :
    tget (t.filter fun p => !ks.contains p.1) n = if n ∈ ks then none else tget t n := by
  induction t with
  | nil => simp
  | cons p r ih =>
    obtain ⟨k, v⟩ := p
    by_cases hk : k ∈ ks
    · rw [List.filter_cons_of_neg (by simpa using hk), ih, tget]
      by_cases hn : n = k
      · simp [hn, hk]
      · rw [if_neg hn]
    · rw [List.filter_cons_of_pos (by simpa using hk), tget, ih, tget]
      by_cases hn : n = k
      · simp [hn, hk]
      · rw [if_neg hn, if_neg hn]

/-- In a table in order a listed pair is the one that its key reads. -/
theorem tget_of_mem {t : Tbl α} (hs : tsorted t = true) {n : Nat} {x : α} (h : (n, x) ∈ t) : tget t n = some x := by
  induction t with
  | nil => cases h
  | cons p r ih =>
    obtain ⟨k, v⟩ := p
    rw [tget]
    rcases List.mem_cons.mp h with e | h
    · cases e; rw [if_pos rfl]
    · have := tsorted_head hs _ h
      rw [if_neg (by simp only at this; omega)]
      exact ih (tsorted_tail hs) h

theorem tsorted_tmod (t : Tbl α) (n : Nat) (f : α → α) (h : tsorted t = true) : tsorted (tmod t n f) = true := by
  induction t with
  | nil => rfl
  | cons p r ih =>
    refine tsorted_cons (fun q hq => ?_) (ih (tsorted_tail h))
    obtain ⟨q', hq', rfl⟩ := List.mem_map.mp hq
    have := tsorted_head h _ hq'
    grind

/-- A test that a change of one value does not affect finds the same key. -/
theorem find?_tmod {t : Tbl α} {n : Nat} {x : α} {f : α → α} {p : Nat × α → Bool}
    (hp : ∀ k v, p (k, f v) = p (k, v)) (h : t.find? p = some (n, x)) : (tmod t n f).find? p = some (n, f x) := by
  have same : (p ∘ fun q : Nat × α => if q.1 = n then (q.1, f q.2) else q) = p := by
    funext q
    simp only [Function.comp]
    split
    · exact hp q.1 q.2
    · rfl
  unfold tmod
  rw [List.find?_map, same, h]
  simp

end

/-! ## Memory is behind the second-level caches, the migration engine and no other unit -/

theorem byteAt_congr {s t : State} (fwds : t.fwds = s.fwds) (mem : t.mem = s.mem) (l2 : t.l2 = s.l2) (a : Nat) : t.byteAt a = s.byteAt a := by
  simp only [State.byteAt, State.cohByte, State.homeAddr, State.homeByte, State.fwdAt, State.l2c, fwds, mem, l2]

/-! ## A warp retires (R33) -/

theorem oc_empty_iff (c : OcCounters) : c.empty = true ↔ c = {} := by
  obtain ⟨cp, gx, mx, cl, pt, bk⟩ := c
  simp [OcCounters.empty, and_assoc]

theorem live_nil_iff (w : Warp) : w.live = [] ↔ ∀ u ∈ w.threads, u.exited = true := by
  unfold Warp.live
  generalize 0 = i
  induction w.threads generalizing i with
  | nil => simp [mapFrom]
  | cons u r ih => cases hu : u.exited <;> simp [mapFrom, ih, hu]

theorem mayRetire_iff (s : State) (n : Nat) : let w := s.warp n
    s.mayRetire n = true ↔ w.resident = true ∧ w.service = false ∧ (∀ u ∈ w.threads, u.exited = true) ∧ w.storeQ = [] ∧ w.oc = {} ∧
      w.seg.held = [] ∧ w.seg.closing = false ∧ ∀ u ∈ w.threads, ∀ p ∈ u.pend, p.due ≤ s.now := by
  simp only [State.mayRetire, Bool.and_eq_true, Bool.not_eq_true', List.isEmpty_iff, oc_empty_iff, live_nil_iff, List.all_eq_true,
    Thread.landed, decide_eq_true_eq, and_assoc]

theorem exec_warpRetire (s : State) (n : Nat) : exec (.warpRetire n) s =
    .next (if s.mayRetire n then s.modWarp n fun w => { w with resident := false } else s) := rfl

theorem warpRetires (s : State) (n : Nat) : let w := s.warp n
    (w.resident = true → w.service = false → (∀ u ∈ w.threads, u.exited = true ∧ ∀ p ∈ u.pend, p.due ≤ s.now) → w.storeQ = [] → w.oc = {} →
      w.seg.held = [] → w.seg.closing = false → ∃ t, exec (.warpRetire n) s = .next t ∧ t = { s with warps := t.warps } ∧
        ∀ m, t.warp m = if m = n then { w with resident := false } else s.warp m) ∧
    ((w.service = true ∨ (∃ u ∈ w.threads, u.exited = false) ∨ w.storeQ ≠ [] ∨ w.oc ≠ {}) → exec (.warpRetire n) s = .next s) := by
  intro w
  rw [exec_warpRetire]
  constructor
  · intro resident service threads queue counters held closing
    have may : s.mayRetire n = true := (mayRetire_iff s n).mpr
      ⟨resident, service, fun u hu => (threads u hu).1, queue, counters, held, closing, fun u hu => (threads u hu).2⟩
    refine ⟨_, by rw [if_pos may], rfl, fun m => ?_⟩
    split
    · subst_vars; rw [State.warp_modWarp]
    · rw [State.warp_modWarp_other _ _ ‹_›]
  · intro busy
    rw [if_neg]
    intro may
    obtain ⟨-, service, exited, queue, counters, -⟩ := (mayRetire_iff s n).mp may
    rcases busy with h | ⟨u, hu, h⟩ | h | h
    · exact absurd (h.symm.trans service) (by decide)
    · exact absurd (h.symm.trans (exited u hu)) (by decide)
    · exact h queue
    · exact h counters

/-! ## A block retires (R33, R167) -/

/-- What LANE_MAP_APPLY can change: the cores. -/
theorem applyMap_eq (s : State) (c : Nat) : ∃ cs, s.applyMap c = { s with cores := cs } := by
  unfold State.applyMap
  split
  · exact ⟨s.cores, rfl⟩
  · dsimp only
    split
    · exact ⟨s.cores, rfl⟩
    · exact ⟨_, rfl⟩

/-- What a block leaves in its scratchpad: the cores change. -/
theorem leaveScratch_eq (s : State) (t : Nat) (b : Block) : ∃ cs, s.leaveScratch t b = { s with cores := cs } := by
  unfold State.leaveScratch
  split
  · exact ⟨s.cores, rfl⟩
  · exact ⟨_, rfl⟩

/-- A block that has given up what it held. -/
def freed (k : Block) : Block :=
  { k with state := .retired, warps := [], scratch := [], tags := [], errs := [], grans := [], biv := none }

/-- The engines once a gang owns none. -/
def disowned (es : Tbl Engine) (g : Nat) : Tbl Engine :=
  es.map fun p => (p.1, if p.2.owner = some g then { p.2 with owner := none } else p.2)

/-- The state without what a block held: its warps are gone, the cores hold what it left in scratch. -/
def without (s : State) (b : Nat) (cores : Tbl Core) (engines : Tbl Engine) : State :=
  { s with
    power := { s.power with stateSince := s.now }, cores := cores, engines := engines, blocks := tmod s.blocks b freed
    warps := s.warps.filter fun p => !(s.block b).warps.contains p.1 }

/-- What the release of a block's resources changes; with the gang's last block the gang loses its engine. -/
theorem freeBlock_eq (s : State) (b : Nat) : ∃ cs es, s.freeBlock b = without s b cs es ∧
    ((∀ p ∈ tmod s.blocks b freed, p.2.gang = (s.block b).gang → p.2.state = .retired) → es = disowned s.engines (s.block b).gang) := by
  obtain ⟨cs, left⟩ := leaveScratch_eq { s.touchIdle with warps := s.warps.filter fun p => !(s.block b).warps.contains p.1 }
    (s.blockTenant (s.block b)) (s.block b)
  have cleared : (({ s.touchIdle with warps := s.warps.filter fun p => !(s.block b).warps.contains p.1 } : State).leaveScratch
      (s.blockTenant (s.block b)) (s.block b)).modBlock b freed = without s b cs s.engines := by rw [left]; rfl
  have whole : s.freeBlock b = (if (without s b cs s.engines).gangGone (s.block b).gang
      then { without s b cs s.engines with engines := disowned (without s b cs s.engines).engines (s.block b).gang }
      else without s b cs s.engines).applyMap (s.block b).core := by
    rw [← cleared]; rfl
  have goneIff : (without s b cs s.engines).gangGone (s.block b).gang = true ↔
      ∀ p ∈ tmod s.blocks b freed, p.2.gang = (s.block b).gang → p.2.state = .retired := by
    simp [State.gangGone, without, imp_iff_not_or]
  rw [← goneIff, whole]
  by_cases gone : (without s b cs s.engines).gangGone (s.block b).gang = true
  · rw [if_pos gone]
    obtain ⟨cs', mapped⟩ := applyMap_eq (without s b cs (disowned s.engines (s.block b).gang)) (s.block b).core
    exact ⟨cs', _, mapped, fun _ => rfl⟩
  · rw [if_neg gone]
    obtain ⟨cs', mapped⟩ := applyMap_eq (without s b cs s.engines) (s.block b).core
    exact ⟨cs', s.engines, mapped, fun h => absurd h gone⟩

theorem owner_disowned (es : Tbl Engine) (g c : Nat) : (tgetD (disowned es g) c {}).owner ≠ some g := by
  induction es with
  | nil => nofun
  | cons p r ih =>
    simp only [tgetD, disowned, List.map_cons, tget] at ih ⊢
    by_cases hc : c = p.1
    · rw [if_pos hc]
      by_cases hg : p.2.owner = some g <;> simp [hg]
    · rw [if_neg hc]
      exact ih

theorem block_of_tget {s : State} {b : Nat} {k : Block} (h : tget s.blocks b = some k) : s.block b = k := by
  rw [State.block, h]; rfl

theorem exec_blockRetire (s : State) (b : Nat) : exec (.blockRetire b) s = .next (s.retireBlock b) := rfl

theorem gangKilled_eq_false {s : State} {g : Nat} (h : ∀ k, tget s.gangs g = some k → k.killed = false) : s.gangKilled g = false := by
  unfold State.gangKilled
  split
  · rename_i k hk; simp [h k hk]
  · rfl

/-- A resident block without a resident warp, of a gang that is not killed, retires and is counted. -/
theorem retireBlock_eq {s : State} {b : Nat} {k : Block} (found : tget s.blocks b = some k) (resident : k.state = .resident)
    (idle : ∀ n ∈ k.warps, (s.warp n).resident = false) (alive : ∀ g, tget s.gangs k.gang = some g → g.killed = false) :
    s.retireBlock b = ((s.freeBlock b).modBlock b fun k => { k with counted := true }).modLaunch k.launch fun l =>
      { l with retired := l.retired + 1 } := by
  have noWarp : k.warps.any (fun n => (s.warp n).resident) = false := by
    rw [List.any_eq_false]
    exact fun n hn h => absurd (h.symm.trans (idle n hn)) (by decide)
  simp only [State.retireBlock, found, resident, noWarp, gangKilled_eq_false alive]
  simp

theorem blockRetires (s : State) (b : Nat) (k : Block) (found : tget s.blocks b = some k) (resident : k.state = .resident)
    (idle : ∀ n ∈ k.warps, (s.warp n).resident = false) (alive : ∀ g, tget s.gangs k.gang = some g → g.killed = false) :
    ∃ t, exec (.blockRetire b) s = .next t ∧
      t.block b = { k with state := .retired, warps := [], scratch := [], tags := [], errs := [], grans := [], biv := none, counted := true } ∧
      (∀ j, j ≠ b → t.block j = s.block j) ∧ (∀ n, tget t.warps n = if n ∈ k.warps then none else tget s.warps n) ∧
      (∀ j, tget t.launches j = if j = k.launch then (tget s.launches j).map (fun l => { l with retired := l.retired + 1 })
        else tget s.launches j) ∧
      ((∀ p ∈ s.blocks, p.1 ≠ b → p.2.gang = k.gang → p.2.state = .retired) → ∀ c, (t.engine c).owner ≠ some k.gang) ∧
      SameMemory s t ∧ t.tenants = s.tenants := by
  have same := block_of_tget found
  obtain ⟨cs, es, freedEq, engines⟩ := freeBlock_eq s b
  rw [same] at engines
  have ran : exec (.blockRetire b) s = .next (((without s b cs es).modBlock b fun k => { k with counted := true }).modLaunch k.launch
      fun l => { l with retired := l.retired + 1 }) := by
    rw [exec_blockRetire, retireBlock_eq found resident idle alive, freedEq]
  refine ⟨_, ran, ?_, fun j hj => ?_, fun n => ?_, fun j => ?_,
    fun others c => ?_, ⟨fun a => byteAt_congr rfl rfl rfl a, rfl⟩, rfl⟩
  · simp [State.block, State.modBlock, State.modLaunch, without, tget_tmod, found, freed]
  · simp [State.block, State.modBlock, State.modLaunch, without, tget_tmod, hj]
  · show tget (s.warps.filter fun p => !(s.block b).warps.contains p.1) n = _
    rw [same]
    exact tget_filter_keys s.warps k.warps n
  · exact tget_tmod s.launches k.launch j fun l => { l with retired := l.retired + 1 }
  · have gone : ∀ p ∈ tmod s.blocks b freed, p.2.gang = k.gang → p.2.state = .retired := by
      intro p hp hg
      obtain ⟨q, hq, rfl⟩ := List.mem_map.mp hp
      by_cases hb : q.1 = b
      · rw [if_pos hb]; rfl
      · rw [if_neg hb] at hg ⊢
        exact others q hq hb hg
    show (tgetD es c {}).owner ≠ _
    rw [engines gone]
    exact owner_disowned s.engines k.gang c

/-! ## A reorder unit's idle flush (R41) -/

@[simp] theorem buf_setBuf (r : ReTarget) (d : Nat) (b : List Deposit) : (r.setBuf d b).buf d = b := by
  unfold ReTarget.setBuf ReTarget.buf
  split <;> rfl

@[simp] theorem buf_setBuf_other (r : ReTarget) (d : Nat) (b : List Deposit) : (r.setBuf d b).buf (1 - d) = r.buf (1 - d) := by
  unfold ReTarget.setBuf ReTarget.buf
  by_cases hd : d = 0
  · subst hd; rfl
  · rw [if_neg hd, if_pos (show 1 - d = 0 by omega), if_pos (show 1 - d = 0 by omega)]

@[simp] theorem addr_setBuf (r : ReTarget) (d : Nat) (b : List Deposit) : (r.setBuf d b).addr = r.addr := by
  unfold ReTarget.setBuf; split <;> rfl

@[simp] theorem tenant_setBuf (r : ReTarget) (d : Nat) (b : List Deposit) : (r.setBuf d b).tenant = r.tenant := by
  unfold ReTarget.setBuf; split <;> rfl

theorem retarget_key {s : State} {tn addr : Nat} {r : ReTarget} (h : s.retarget tn addr = some r) : r.addr = addr ∧ r.tenant = tn := by
  simpa using List.find?_some h

/-- A target after a change that keeps its place. -/
theorem retarget_modTarget {s : State} {tn addr : Nat} {r : ReTarget} {f : ReTarget → ReTarget}
    (keeps : ∀ q, (f q).addr = q.addr ∧ (f q).tenant = q.tenant) (h : s.retarget tn addr = some r) : (s.modTarget tn addr f).retarget tn addr = some (f r) := by
  have same : ((fun q : ReTarget => decide (q.addr = addr ∧ q.tenant = tn)) ∘
      fun q : ReTarget => if q.addr = addr ∧ q.tenant = tn then f q else q) = fun q => decide (q.addr = addr ∧ q.tenant = tn) := by
    funext q
    by_cases hq : q.addr = addr ∧ q.tenant = tn
    · simp [hq, keeps q]
    · simp only [Function.comp, if_neg hq]
  unfold State.retarget at h ⊢
  unfold State.modTarget
  dsimp only
  rw [List.find?_map, same, h]
  simp [retarget_key h]

/-- The launch with more emitted warps. -/
def emitting (ws : List (Nat × List Deposit)) (l : Launch) : Launch := { l with emitted := l.emitted ++ ws }

theorem emitting_nil (l : Launch) : emitting [] l = l := by simp [emitting]

theorem emitting_emitting (ws vs : List (Nat × List Deposit)) (l : Launch) : emitting vs (emitting ws l) = emitting (ws ++ vs) l := by
  simp [emitting]

/-- Nothing but launches and reorder targets changes. -/
def OnlyEmits (s t : State) : Prop := ∃ ls rs, t = { s with launches := ls, retargets := rs }

theorem OnlyEmits.trans {s t u : State} (h : OnlyEmits s t) (h' : OnlyEmits t u) : OnlyEmits s u := by
  obtain ⟨_, _, rfl⟩ := h
  obtain ⟨_, _, rfl⟩ := h'
  exact ⟨_, _, rfl⟩

theorem OnlyEmits.eq {s t : State} (h : OnlyEmits s t) : t = { s with launches := t.launches, retargets := t.retargets } := by
  obtain ⟨_, _, rfl⟩ := h
  rfl

/-- REORDER_EMIT: the lowest 32 deposits leave the buffer and wait as a warp of the target launch. -/
theorem emitWarp_step {s : State} {tn addr d lid : Nat} {r : ReTarget} {l : Launch} (sorted : tsorted s.launches = true)
    (target : s.retarget tn addr = some r) (launch : s.targetLaunch r = some (lid, l)) (held : r.buf d ≠ []) :
    let t := s.emitWarp tn addr d
    let r' := r.setBuf d ((r.buf d).drop 32)
    OnlyEmits s t ∧ tsorted t.launches = true ∧ t.retarget tn addr = some r' ∧
      t.targetLaunch r' = some (lid, emitting [(d, (r.buf d).take 32)] l) := by
  have emit : s.emitWarp tn addr d = (s.modTarget tn addr fun r => r.setBuf d ((r.buf d).drop 32)).modLaunch lid
      (emitting [(d, (r.buf d).take 32)]) := by
    simp only [State.emitWarp, target, launch, if_neg held]
    rfl
  intro t r'
  refine ⟨⟨_, _, emit⟩, ?_, ?_, ?_⟩
  · simp only [t, emit]
    exact tsorted_tmod _ _ _ sorted
  · simp only [t, emit]
    exact retarget_modTarget (fun q => ⟨addr_setBuf .., tenant_setBuf ..⟩) target
  · have found : s.launches.find? (fun p => p.2.addr = r'.addr ∧ p.2.tenant = r'.tenant ∧ p.2.stopped = false ∧ p.2.state ≠ .finished ∧
        p.2.lrec.flags.testBit 2) = some (lid, l) := by
      simp only [r', addr_setBuf, tenant_setBuf]
      exact launch
    simp only [t, emit]
    exact find?_tmod (fun _ _ => rfl) found

/-- The warps of some deposits: 32 each, but for the last. -/
structure WarpsOf (d : Nat) (deposits : List Deposit) (es : List (Nat × List Deposit)) : Prop where
  all : (es.map Prod.snd).flatten = deposits
  each : ∀ e ∈ es, e.1 = d ∧ e.2 ≠ [] ∧ e.2.length ≤ 32
  full : ∀ e ∈ es.dropLast, e.2.length = 32

theorem warpsOf_cons {d : Nat} {deposits : List Deposit} {es : List (Nat × List Deposit)} (held : deposits ≠ [])
    (rest : WarpsOf d (deposits.drop 32) es) : WarpsOf d deposits ((d, deposits.take 32) :: es) := by
  obtain ⟨all, each, full⟩ := rest
  have first : d = d ∧ deposits.take 32 ≠ [] ∧ (deposits.take 32).length ≤ 32 := ⟨rfl, by simpa using held, by simp⟩
  refine ⟨by rw [List.map_cons, List.flatten_cons, all, List.take_append_drop],
    List.forall_mem_cons.mpr ⟨first, each⟩, ?_⟩
  cases es with
  | nil => nofun
  | cons e es =>
    have more : deposits.drop 32 ≠ [] := by
      rw [← all, List.map_cons, List.flatten_cons]
      exact List.append_ne_nil_of_left_ne_nil (each e List.mem_cons_self).2.1 _
    have long : 32 < deposits.length := by simpa using more
    rw [List.dropLast_cons_of_ne_nil (List.cons_ne_nil _ _)]
    refine List.forall_mem_cons.mpr ⟨?_, full⟩
    rw [List.length_take]
    omega

/-- As many emissions as a list is long empty a buffer that is no longer than the list. -/
theorem drain_steps {tn addr d lid : Nat} (xs : List Deposit) {s : State} {r : ReTarget} {l : Launch} (sorted : tsorted s.launches = true)
    (target : s.retarget tn addr = some r) (launch : s.targetLaunch r = some (lid, l)) (long : (r.buf d).length ≤ xs.length) :
    let t := xs.foldl (fun s _ => s.emitWarp tn addr d) s
    ∃ r' es, OnlyEmits s t ∧ tsorted t.launches = true ∧ t.retarget tn addr = some r' ∧
      r'.buf d = [] ∧ r'.buf (1 - d) = r.buf (1 - d) ∧ t.targetLaunch r' = some (lid, emitting es l) ∧
      WarpsOf d (r.buf d) es := by
  induction xs generalizing s r l with
  | nil =>
    have none : r.buf d = [] := by simpa using long
    exact ⟨r, [], ⟨_, _, rfl⟩, sorted, target, none, rfl, by rw [emitting_nil]; exact launch, by simp [none], nofun, nofun⟩
  | cons x xs ih =>
    by_cases held : r.buf d = []
    · have still : s.emitWarp tn addr d = s := by simp only [State.emitWarp, target, launch, if_pos held]
      rw [List.foldl_cons, still]
      exact ih sorted target launch (by simp [held])
    · obtain ⟨rest, sorted', target', launch'⟩ := emitWarp_step sorted target launch held
      have shorter : ((r.setBuf d ((r.buf d).drop 32)).buf d).length ≤ xs.length := by
        rw [buf_setBuf, List.length_drop]
        simp only [List.length_cons] at long
        omega
      obtain ⟨r', es, rest', sorted'', target'', emptied, other, launch'', warps⟩ := ih sorted' target' launch' shorter
      rw [buf_setBuf] at warps
      rw [buf_setBuf_other] at other
      rw [emitting_emitting] at launch''
      exact ⟨r', (d, (r.buf d).take 32) :: es, rest.trans rest', sorted'', target'', emptied, other, launch'', warpsOf_cons held warps⟩

theorem exec_reorderIdleFlush {s : State} {launch die : Nat} {l : Launch} {r : ReTarget} (hl : tget s.launches launch = some l)
    (hr : s.retarget l.tenant l.addr = some r) (hd : die < 2) : exec (.reorderIdleFlush launch die) s =
      .next (if (if die = 0 then r.last0 else r.last1) + 2048 ≤ s.now then s.drainTarget l.tenant l.addr die else s) := by
  show execReorderIdleFlush launch die s = _
  simp only [execReorderIdleFlush, hl, hr, hd, true_and, Config.reorderIdle]

theorem reorderFlushes (s : State) (launch : Nat) (l0 : Launch) (die : Nat) (r : ReTarget) (hl : tget s.launches launch = some l0)
    (hr : s.retarget l0.tenant l0.addr = some r) (hd : die < 2) :
    let last := if die = 0 then r.last0 else r.last1
    (s.now < last + 2048 → exec (.reorderIdleFlush launch die) s = .next s) ∧
    ∀ lid l, tsorted s.launches = true → last + 2048 ≤ s.now → s.targetLaunch r = some (lid, l) →
      ∃ t r2 es, exec (.reorderIdleFlush launch die) s = .next t ∧ t = { s with launches := t.launches, retargets := t.retargets } ∧
        t.retarget l0.tenant l0.addr = some r2 ∧ r2.buf die = [] ∧ r2.buf (1 - die) = r.buf (1 - die) ∧
        tget t.launches lid = some { l with emitted := l.emitted ++ es } ∧ (es.map Prod.snd).flatten = r.buf die ∧
        (∀ e ∈ es, e.1 = die ∧ e.2 ≠ [] ∧ e.2.length ≤ 32) ∧ ∀ e ∈ es.dropLast, e.2.length = 32 := by
  intro last
  rw [exec_reorderIdleFlush hl hr hd]
  constructor
  · intro early
    rw [if_neg (Nat.not_le.mpr early)]
  · intro lid l sorted due found
    rw [if_pos due]
    have drain : s.drainTarget l0.tenant l0.addr die = (r.buf die).foldl (fun s _ => s.emitWarp l0.tenant l0.addr die) s := by
      simp only [State.drainTarget, hr]
    obtain ⟨r2, es, rest, sorted', target, emptied, other, launch', all, each, full⟩ := drain_steps (r.buf die) sorted hr found le_rfl
    exact ⟨_, r2, es, by rw [drain], rest.eq, target, emptied, other, tget_of_mem sorted' (List.mem_of_find?_eq_some launch'), all, each, full⟩

end Sys2Proof.Proofs
end

