-- ==== Sys2Proof/Proofs/Placement.lean ====
section
/-! PROOFS. What O53 says of placement (R26, R27, R41, R76, R80): what one block's coming to a core does, then, by induction over the
cores, what a gang's does. A block takes warp slots of its own core alone, so that the blocks of a gang, on distinct cores, leave one
another and one another's room alone. -/

namespace Sys2Proof.Proofs

open Sys2Proof Sys2Proof.Machine Sys2Proof.Claims

/-! ## Tables and lists -/

section
variable {α : Type}

/-- A write of a pair that fails a test adds nothing to what passes it. -/
theorem filter_tset_sublist {p : Nat × α → Bool} (t : Tbl α) (n : Nat) (x : α) (fails : p (n, x) = false) :
    ((tset t n x).filter p).Sublist (t.filter p) := by
  induction t with
  | nil => simp [tset, fails]
  | cons q r ih =>
    obtain ⟨k, v⟩ := q
    simp only [tset]
    split
    · simp [fails]
    · split
      · rw [List.filter_cons_of_neg (by simp [fails])]
        exact (List.sublist_cons_self _ _).filter p
      · rw [List.filter_cons, List.filter_cons]
        split
        · exact ih.cons_cons _
        · exact ih

/-- Writes of distinct keys: each key reads its value. -/
theorem tget_foldl_tset {t : Tbl α} {ws : List (Nat × α)} (distinct : (ws.map Prod.fst).Nodup) {n : Nat} {x : α} (h : (n, x) ∈ ws) :
    tget (ws.foldl (fun t w => tset t w.1 w.2) t) n = some x := by
  induction ws using List.reverseRecOn with
  | nil => cases h
  | append_singleton ws w ih =>
    rw [List.foldl_append]
    rw [List.map_append, List.nodup_append] at distinct
    obtain ⟨distinct', -, apart⟩ := distinct
    rcases List.mem_append.mp h with h | h
    · have : n ≠ w.1 := apart n (List.mem_map.mpr ⟨_, h, rfl⟩) w.1 (by simp)
      exact (tget_tset_other _ _ this).trans (ih distinct' h)
    · obtain rfl := List.mem_singleton.mp h
      exact tget_tset_same _ _ _

/-- Writes leave every other key alone. -/
theorem tget_foldl_tset_other {t : Tbl α} {ws : List (Nat × α)} {n : Nat} (h : n ∉ ws.map Prod.fst) :
    tget (ws.foldl (fun t w => tset t w.1 w.2) t) n = tget t n := by
  induction ws generalizing t with
  | nil => rfl
  | cons w ws ih =>
    rw [List.map_cons, List.mem_cons, not_or] at h
    exact (ih h.2).trans (tget_tset_other _ _ h.1)

end

/-- Members of a list without repeats that another list does not hold: at least the difference of the lengths. -/
theorem length_le_filter_not_contains {xs used : List Nat} (distinct : xs.Nodup) :
    xs.length ≤ (xs.filter fun n => !used.contains n).length + used.length := by
  have inside : (xs.filter used.contains).length ≤ used.length :=
    (List.subperm_of_subset (distinct.filter _) fun n hn => by simpa using (List.mem_filter.mp hn).2).length_le
  have both := List.length_eq_length_filter_add (l := xs) used.contains
  omega

theorem sumNat_eq_sum (xs : List Nat) : sumNat xs = xs.sum := by
  rw [sumNat, List.sum_eq_foldl]

/-! ## Warp slots (R76) -/

/-- Whether a warp number is that of a slot of a core. -/
def slotOf (c n : Nat) : Prop := 256 + 64 * c ≤ n ∧ n < 256 + 64 * c + 64

theorem slotOf_inj {c d n : Nat} (h : slotOf c n) (h' : slotOf d n) : c = d := by
  unfold slotOf at h h'
  omega

theorem slotOf_of_mem_freeSlots {s : State} {c n : Nat} (h : n ∈ s.freeSlots c) : slotOf c n := by
  obtain ⟨k, hk, rfl⟩ := List.mem_map.mp (List.mem_filter.mp h).1
  rw [List.mem_range, Config.warpSlots] at hk
  unfold slotOf
  omega

theorem nodup_freeSlots (s : State) (c : Nat) : (s.freeSlots c).Nodup := by
  refine (List.Nodup.map (fun a b h => ?_) List.nodup_range).filter _
  simpa using h

/-- Room on a core for a block is room for its warps. -/
theorem freeSlots_of_roomOn {s : State} {r : LaunchRec} {c : Nat} (h : s.roomOn r false c = true) : r.w ≤ (s.freeSlots c).length := by
  have room : sumNat ((s.heldOn c false).map fun b => b.warps.length) + r.w ≤ 64 := (of_decide_eq_true h).1
  have total : ((s.heldOn c false).flatMap Block.warps).length = sumNat ((s.heldOn c false).map fun b => b.warps.length) := by
    rw [sumNat_eq_sum, List.length_flatMap]
  have distinct : ((List.range Config.warpSlots).map fun k => 256 + 64 * c + k).Nodup :=
    List.Nodup.map (fun a b h => by simpa using h) List.nodup_range
  have free := length_le_filter_not_contains (used := (s.heldOn c false).flatMap Block.warps) distinct
  rw [List.length_map, List.length_range, Config.warpSlots] at free
  unfold State.freeSlots
  simp only [Config.warpSlots]
  omega

/-- Fewer blocks on a core leave more slots free. -/
theorem freeSlots_length_le {s t : State} {c : Nat} (h : (t.heldOn c false).Sublist (s.heldOn c false)) :
    (s.freeSlots c).length ≤ (t.freeSlots c).length := by
  unfold State.freeSlots
  refine (List.monotone_filter_right _ fun n hn => ?_).length_le
  have fewer := (List.Sublist.flatMap h Block.warps).subset
  simp only [Bool.not_eq_true', List.contains_eq_mem, decide_eq_false_iff_not] at hn ⊢
  exact fun h' => hn (fewer h')

/-! ## One block comes to a core (R27) -/

/-- A gang's record with one more block, on a core. -/
def gains (b c : Nat) (g : Gang) : Gang := { g with blocks := g.blocks ++ [b], cluster := clusterOf c }

/-- The slots that a block of a launch takes on a core. -/
def slotsFor (s : State) (l : Launch) (c : Nat) : List Nat := (s.freeSlots c).take l.lrec.w

/-- A block as a placing makes it, with the places and the earlier bytes of its scratch. -/
def placedBlock (s : State) (l : Launch) (p : Placing) (c : Nat) (grans : List Nat) (scratch : Tbl Byte) : Block :=
  { launch := p.lid, gang := p.gang, pos := p.pos, bid := p.bid, core := c, warps := slotsFor s l c, sBytes := l.lrec.s,
    pBytes := l.lrec.p, grans := grans, scratch := scratch }

/-- The warps of a block as a placing makes them. -/
def placedWarps (s : State) (l : Launch) (p : Placing) (c : Nat) : List (Nat × Warp) :=
  mapFrom (fun i n => (n, startWarp l p s.fresh c i ((s.core c).nextResidency + i))) 0 (slotsFor s l c)

/-- WHAT A PLACING DOES. -/
theorem placeBlock_eq {s : State} {p : Placing} {c : Nat} {l : Launch} (h : tget s.launches p.lid = some l) :
    ∃ cs l1 drawn grans scratch, s.placeBlock p c = { s with
      cores := cs, l1 := l1, drawn := drawn, fresh := s.fresh + 1
      blocks := tset s.blocks s.fresh (placedBlock s l p c grans scratch)
      warps := (placedWarps s l p c).foldl (fun t w => tset t w.1 w.2) s.warps
      gangs := tmod s.gangs p.gang (gains s.fresh c) } := by
  simp only [State.placeBlock, h]
  exact ⟨_, _, _, _, _, rfl⟩

section
variable {s : State} {p : Placing} {c : Nat} {l : Launch} (h : tget s.launches p.lid = some l)
include h

theorem placeBlock_launches : (s.placeBlock p c).launches = s.launches := by
  obtain ⟨_, _, _, _, _, e⟩ := placeBlock_eq (c := c) h
  rw [e]

theorem placeBlock_fresh : (s.placeBlock p c).fresh = s.fresh + 1 := by
  obtain ⟨_, _, _, _, _, e⟩ := placeBlock_eq (c := c) h
  rw [e]

theorem placeBlock_byteAt (a : Nat) : (s.placeBlock p c).byteAt a = s.byteAt a := by
  obtain ⟨_, _, _, _, _, e⟩ := placeBlock_eq (c := c) h
  rw [e]
  exact byteAt_congr rfl rfl rfl a

theorem placeBlock_gang {g : Gang} (hg : tget s.gangs p.gang = some g) :
    tget (s.placeBlock p c).gangs p.gang = some (gains s.fresh c g) := by
  obtain ⟨_, _, _, _, _, e⟩ := placeBlock_eq (c := c) h
  rw [e, tget_tmod, if_pos rfl, hg]
  rfl

theorem placeBlock_block : ∃ grans scratch, (s.placeBlock p c).block s.fresh = placedBlock s l p c grans scratch := by
  obtain ⟨_, _, _, grans, scratch, e⟩ := placeBlock_eq (c := c) h
  refine ⟨grans, scratch, ?_⟩
  rw [e, State.block, tget_tset_same]
  rfl

theorem placeBlock_block_other {b : Nat} (hb : b ≠ s.fresh) : (s.placeBlock p c).block b = s.block b := by
  obtain ⟨_, _, _, _, _, e⟩ := placeBlock_eq (c := c) h
  rw [e, State.block, State.block, tget_tset_other _ _ hb]

theorem placeBlock_warp_other {n : Nat} (hn : ¬ slotOf c n) : (s.placeBlock p c).warp n = s.warp n := by
  obtain ⟨_, _, _, _, _, e⟩ := placeBlock_eq (c := c) h
  have keys : n ∉ (placedWarps s l p c).map Prod.fst := by
    intro hm
    obtain ⟨w, hw, rfl⟩ := List.mem_map.mp hm
    obtain ⟨m, k, hk, rfl⟩ := mem_mapFrom _ _ _ _ hw
    exact hn (slotOf_of_mem_freeSlots (List.mem_of_mem_take (List.mem_of_getElem? hk)))
  rw [e, State.warp, State.warp, tgetD, tget_foldl_tset_other keys]
  rfl

theorem placeBlock_warp {wid n : Nat} (hn : (slotsFor s l c)[wid]? = some n) :
    ∃ r, (s.placeBlock p c).warp n = startWarp l p s.fresh c wid r := by
  obtain ⟨_, _, _, _, _, e⟩ := placeBlock_eq (c := c) h
  have keys : (placedWarps s l p c).map Prod.fst = slotsFor s l c := by
    apply List.ext_getElem?
    intro m
    rw [List.getElem?_map, placedWarps, getElem?_mapFrom, Option.map_map]
    exact Option.map_id'
  have listed : (n, startWarp l p s.fresh c wid ((s.core c).nextResidency + wid)) ∈ placedWarps s l p c := by
    apply List.mem_of_getElem? (i := wid)
    rw [placedWarps, getElem?_mapFrom, hn, Nat.zero_add]
    rfl
  refine ⟨(s.core c).nextResidency + wid, ?_⟩
  rw [e, State.warp, tgetD, tget_foldl_tset (by rw [keys]; exact (nodup_freeSlots s c).take) listed]
  rfl

/-- The blocks of every other core stay where they are. -/
theorem placeBlock_heldOn {d : Nat} (hd : d ≠ c) : ((s.placeBlock p c).heldOn d false).Sublist (s.heldOn d false) := by
  obtain ⟨_, _, _, grans, scratch, e⟩ := placeBlock_eq (c := c) h
  rw [e]
  refine (filter_tset_sublist s.blocks s.fresh (placedBlock s l p c grans scratch) ?_).map Prod.snd
  simp [placedBlock, Ne.symm hd]

theorem placeBlock_freeSlots {d : Nat} (hd : d ≠ c) : (s.freeSlots d).length ≤ ((s.placeBlock p c).freeSlots d).length :=
  freeSlots_length_le (placeBlock_heldOn h hd)

end

/-- A block that a placing has put on a core, with its warps in slots of that core. -/
structure Stands (t : State) (b core : Nat) (p : Placing) (l : Launch) : Prop where
  block : ∃ warps grans scratch, t.block b =
    { launch := p.lid, gang := p.gang, pos := p.pos, bid := p.bid, core := core, warps := warps, sBytes := l.lrec.s, pBytes := l.lrec.p,
      grans := grans, scratch := scratch }
  count : (t.block b).warps.length = l.lrec.w
  slots : ∀ n ∈ (t.block b).warps, slotOf core n
  warps : ∀ (wid n : Nat), (t.block b).warps[wid]? = some n → ∃ r, t.warp n = startWarp l p b core wid r

theorem stands_placeBlock {s : State} {p : Placing} {c : Nat} {l : Launch} (h : tget s.launches p.lid = some l)
    (room : l.lrec.w ≤ (s.freeSlots c).length) : Stands (s.placeBlock p c) s.fresh c p l := by
  obtain ⟨grans, scratch, block⟩ := placeBlock_block (c := c) h
  have warps : ((s.placeBlock p c).block s.fresh).warps = slotsFor s l c := by rw [block]; rfl
  refine ⟨⟨_, grans, scratch, block⟩, ?_, fun n hn => ?_, fun wid n hn => ?_⟩
  · rw [warps, slotsFor, List.length_take, Nat.min_eq_left room]
  · rw [warps] at hn
    exact slotOf_of_mem_freeSlots (List.mem_of_mem_take hn)
  · rw [warps] at hn
    exact placeBlock_warp h hn

/-- A block stands where it stood if neither it nor a warp of its core's slots has changed. -/
theorem Stands.keep {s t : State} {b core : Nat} {p : Placing} {l : Launch} (h : Stands s b core p l) (block : t.block b = s.block b)
    (warps : ∀ n, slotOf core n → t.warp n = s.warp n) : Stands t b core p l := by
  obtain ⟨hb, count, slots, starts⟩ := h
  rw [← block] at hb count slots starts
  exact ⟨hb, count, slots, fun wid n hn => by rw [warps n (slots n (List.mem_of_getElem? hn))]; exact starts wid n hn⟩

/-! ## A gang comes to its cores (R26) -/

/-- The placing of the block at a position of a launch's gang. -/
def gangPlacing (lid gang lin relaunch : Nat) (l : Launch) (pos : Nat) : Placing :=
  { lid := lid, gang := gang, pos := pos, bid := l.lrec.g * lin + pos, lin := lin, relaunch := relaunch,
    threads := List.replicate 32 (startThread l.lrec.entry) }

/-- Blocks placed on cores one after another, from a position on. -/
def placeFrom (lid gang lin relaunch : Nat) (l : Launch) (pos : Nat) (cs : List Nat) (s : State) : State :=
  (mapFrom (fun p c => (p, c)) pos cs).foldl (fun s pc => s.placeBlock (gangPlacing lid gang lin relaunch l pc.1) pc.2) s

theorem placeFrom_nil (lid gang lin relaunch : Nat) (l : Launch) (pos : Nat) (s : State) :
    placeFrom lid gang lin relaunch l pos [] s = s := rfl

theorem placeFrom_cons (lid gang lin relaunch : Nat) (l : Launch) (pos c : Nat) (cs : List Nat) (s : State) :
    placeFrom lid gang lin relaunch l pos (c :: cs) s =
      placeFrom lid gang lin relaunch l (pos + 1) cs (s.placeBlock (gangPlacing lid gang lin relaunch l pos) c) := rfl

theorem placeGang_eq {s : State} {lid gang lin relaunch : Nat} {cs : List Nat} {l : Launch} (h : tget s.launches lid = some l) :
    s.placeGang lid gang lin relaunch cs = placeFrom lid gang lin relaunch l 0 cs s := by
  simp only [State.placeGang, h]
  rfl

/-- A gang's record with a block on each of some cores, numbered from a number on. -/
def gainsFrom : Nat → List Nat → Gang → Gang
  | _, [], g => g
  | b, c :: cs, g => gainsFrom (b + 1) cs (gains b c g)

theorem gainsFrom_same (b : Nat) (cs : List Nat) (g : Gang) : (gainsFrom b cs g).launch = g.launch ∧ (gainsFrom b cs g).lin = g.lin := by
  induction cs generalizing b g with
  | nil => exact ⟨rfl, rfl⟩
  | cons c cs ih => exact ih (b + 1) (gains b c g)

theorem gainsFrom_blocks (b : Nat) (cs : List Nat) (g : Gang) : (gainsFrom b cs g).blocks = g.blocks ++ List.range' b cs.length := by
  induction cs generalizing b g with
  | nil => simp [gainsFrom]
  | cons c cs ih => simp [gainsFrom, ih, gains, List.range'_succ]

/-- The cluster of a gang is that of its cores. -/
theorem gainsFrom_cluster {x : Nat} (b : Nat) {cs : List Nat} (g : Gang) (one : ∀ c ∈ cs, clusterOf c = x) (some : cs ≠ []) :
    (gainsFrom b cs g).cluster = x := by
  suffices ∀ b g, (gainsFrom b cs g).cluster = if cs = [] then g.cluster else x by rw [this, if_neg some]
  clear some
  induction cs with
  | nil => exact fun _ _ => rfl
  | cons c cs ih =>
    intro b g
    rw [gainsFrom, ih (fun d hd => one d (List.mem_cons_of_mem _ hd)), if_neg (List.cons_ne_nil _ _)]
    split
    · exact one c List.mem_cons_self
    · rfl

/-- What the coming of a gang's blocks to cores has done. -/
structure GangOn (s t : State) (lid gang lin relaunch pos : Nat) (l : Launch) (k : Gang) (cs : List Nat) : Prop where
  launches : t.launches = s.launches
  bytes : ∀ a, t.byteAt a = s.byteAt a
  gangs : tget t.gangs gang = some (gainsFrom s.fresh cs k)
  stand : ∀ (i c : Nat), cs[i]? = some c → Stands t (s.fresh + i) c (gangPlacing lid gang lin relaunch l (pos + i)) l
  blocks : ∀ b, b < s.fresh → t.block b = s.block b
  warps : ∀ n, (∀ c ∈ cs, ¬ slotOf c n) → t.warp n = s.warp n

theorem gangOn_placeFrom {lid gang lin relaunch : Nat} {l : Launch} (cs : List Nat) {s : State} {k : Gang} {pos : Nat}
    (launch : tget s.launches lid = some l) (found : tget s.gangs gang = some k) (distinct : cs.Nodup)
    (room : ∀ c ∈ cs, l.lrec.w ≤ (s.freeSlots c).length) :
    GangOn s (placeFrom lid gang lin relaunch l pos cs s) lid gang lin relaunch pos l k cs := by
  induction cs generalizing s k pos with
  | nil =>
    rw [placeFrom_nil]
    exact ⟨rfl, fun _ => rfl, found, nofun, fun _ _ => rfl, fun _ _ => rfl⟩
  | cons c cs ih =>
    obtain ⟨apart, distinct'⟩ := List.nodup_cons.mp distinct
    have placing : tget s.launches (gangPlacing lid gang lin relaunch l pos).lid = some l := launch
    have first := stands_placeBlock placing (room c List.mem_cons_self)
    have fresh := placeBlock_fresh (c := c) placing
    have kept := placeBlock_launches (c := c) placing
    have gang' := placeBlock_gang (c := c) placing found
    have room' (d : Nat) (hd : d ∈ cs) : l.lrec.w ≤ ((s.placeBlock (gangPlacing lid gang lin relaunch l pos) c).freeSlots d).length :=
      (room d (List.mem_cons_of_mem _ hd)).trans (placeBlock_freeSlots placing (ne_of_mem_of_not_mem hd apart))
    obtain ⟨launches, bytes, gangs, stand, blocks, warps⟩ :=
      ih (pos := pos + 1) (kept ▸ launch) gang' distinct' room'
    rw [fresh] at gangs stand blocks
    rw [placeFrom_cons]
    refine ⟨launches.trans kept, fun a => (bytes a).trans (placeBlock_byteAt placing a), gangs, fun i d hd => ?_, fun b hb => ?_,
      fun n hn => ?_⟩
    · cases i with
      | zero =>
        obtain rfl : c = d := by simpa using hd
        refine first.keep (blocks _ (by omega)) fun n hn => warps n fun d hd hn' => ?_
        exact apart (slotOf_inj hn hn' ▸ hd)
      | succ i =>
        have := stand i d (by simpa using hd)
        rwa [Nat.add_right_comm, Nat.add_right_comm pos] at this
    · exact (blocks b (by omega)).trans (placeBlock_block_other placing (by omega))
    · rw [warps n fun d hd => hn d (List.mem_cons_of_mem _ hd)]
      exact placeBlock_warp_other placing (hn c List.mem_cons_self)

/-- A thread at its first issue. -/
theorem fresh_startThread (pc : Word) : Fresh (startThread pc) pc := ⟨rfl, rfl, rfl, rfl, rfl, rfl, fun _ => rfl⟩

/-- A block of a gang that stands has begun. -/
theorem Stands.begins {t : State} {b core lid gang lin relaunch pos : Nat} {l : Launch}
    (h : Stands t b core (gangPlacing lid gang lin relaunch l pos) l) : Begins t b lid gang pos (l.lrec.g * lin + pos) core l := by
  obtain ⟨⟨warps, grans, scratch, block⟩, count, -, starts⟩ := h
  refine ⟨?_, ⟨?_, ?_, count⟩, fun wid n hn => ?_⟩
  · rw [block]; exact ⟨rfl, rfl, rfl, rfl, rfl⟩
  · rw [block]
  · rw [block]
  · obtain ⟨r, start⟩ := starts wid n hn
    rw [start]
    refine ⟨rfl, rfl, rfl, rfl, rfl, rfl, rfl, List.length_replicate, fun u hu => ?_⟩
    rw [List.eq_of_mem_replicate hu]
    exact fresh_startThread _

/-- The threads of an emitted warp (R41): lane i of the i-th deposit, the others exited. -/
theorem depositThreads_lane (pc : Word) (ds : List Deposit) {i : Nat} (hi : i < 32) :
    let u := ((depositThreads pc ds)[i]?).getD {}
    match ds[i]? with
    | some x => u.exited = false ∧ u.pc = pc ∧ u.rkey = BitVec.ofNat 64 x.key ∧ u.rpay = x.payload
    | none => u.exited = true := by
  unfold depositThreads
  by_cases h : i < ds.length
  · rw [List.getElem?_append_left (by simpa using h), List.getElem?_map, List.getElem?_eq_getElem h]
    exact ⟨rfl, rfl, rfl, rfl⟩
  · rw [List.getElem?_append_right (by simpa using h), List.getElem?_eq_none (Nat.le_of_not_lt h), List.length_map,
      List.getElem?_replicate, if_pos (by omega)]
    rfl

/-! ## GANG_PLACE (R76, R77) -/

theorem exec_gangPlace (s : State) (lid : Nat) (cs : List Nat) : exec (.gangPlace lid cs) s = .next (s.placeNext lid cs) := rfl

/-- The state with the turn at a tenant (R77). -/
def withTurn (s : State) (turn : Nat) : State := { s with placeTurn := turn }

/-- A gang that may be placed on some cores, and whose turn it is where a core is shared, comes to them; the turn may pass on. -/
theorem placeNext_eq {s : State} {lid : Nat} {l : Launch} {cs : List Nat} (launch : tget s.launches lid = some l)
    (may : s.mayPlace lid l = true) (awake : s.power.pstate = 0) (normal : s.sec.recovery = false) (fits : s.nextFits l false = true)
    (ok : s.nextOk l cs = true) (turn : s.sharedCores cs = false ∨ s.turnOf l.tenant = true) :
    ∃ turn', s.placeNext lid cs = withTurn (s.startNext lid l cs) turn' := by
  simp only [State.placeNext, launch, may, awake, normal, fits, ok]
  rcases turn with turn | turn
  · exact ⟨(s.startNext lid l cs).placeTurn, by simp [turn, withTurn]⟩
  · by_cases shared : s.sharedCores cs = true
    · exact ⟨(l.tenant + 1) % 16, by simp [turn, shared, withTurn]⟩
    · exact ⟨(s.startNext lid l cs).placeTurn, by simp [shared, withTurn]⟩

/-- A place for an unpaired gang: distinct cores of one cluster, as many as the gang has blocks, each with a slot for every warp. -/
theorem placeOk_unpaired {s : State} {tn : Nat} {r : LaunchRec} {cs : List Nat} (unpaired : r.flags.testBit 0 = false)
    (h : s.placeOk tn r cs = true) : cs.length = r.g ∧ cs.Nodup ∧ (∀ c ∈ cs, r.w ≤ (s.freeSlots c).length) ∧
      ∀ c ∈ cs, clusterOf c = clusterOf (cs.headD 0) := by
  rw [State.placeOk, if_neg (by rw [LaunchRec.paired, unpaired]; decide)] at h
  simp only [State.coresOk, State.fits, Bool.and_eq_true, beq_iff_eq, decide_eq_true_eq, List.all_eq_true] at h
  obtain ⟨⟨⟨size, distinct⟩, room⟩, one⟩ := h
  exact ⟨size, distinct, fun c hc => freeSlots_of_roomOn (room c hc).2.2, one⟩

/-- An unpaired launch once its next gang has come. -/
def gangPlaced (l : Launch) : Launch :=
  { l with nextGang := l.nextGang + 1, placed := l.placed + 1 * l.lrec.g, emitted := l.emitted.tail }

/-- A state that lists a new gang under the next number. -/
def withGang (s : State) (g : Gang) : State := ({ s with gangs := tset s.gangs s.fresh g } : State).bump

theorem withGang_fresh (s : State) (g : Gang) : (withGang s g).fresh = s.fresh + 1 := rfl

/-- The next gang of an unpaired launch's grid. -/
theorem startNext_grid {s : State} {lid : Nat} {l : Launch} {cs : List Nat} (launch : tget s.launches lid = some l)
    (unpaired : l.lrec.flags.testBit 0 = false) (grid : l.emitted = []) : s.startNext lid l cs =
      (placeFrom lid s.fresh l.nextGang 0 l 0 cs (withGang s (newGang lid l.nextGang 0 none false))).modLaunch lid gangPlaced := by
  have launch' : tget (withGang s (newGang lid l.nextGang 0 none false)).launches lid = some l := launch
  rw [← placeGang_eq launch']
  simp only [State.startNext, State.startGang, grid, launch, LaunchRec.paired, unpaired]
  rfl

/-- The placing of an emitted warp (R41): one block, its threads made of the deposits. -/
def emittedPlacing (lid gang : Nat) (l : Launch) (ds : List Deposit) : Placing :=
  { lid := lid, gang := gang, pos := 0, bid := l.nextGang, lin := l.nextGang, relaunch := 0, threads := depositThreads l.lrec.entry ds }

theorem startNext_emitted {s : State} {lid : Nat} {l : Launch} {c d : Nat} {ds : List Deposit} {es : List (Nat × List Deposit)}
    (unpaired : l.lrec.flags.testBit 0 = false) (emitted : l.emitted = (d, ds) :: es) : s.startNext lid l [c] =
      ((withGang s { newGang lid l.nextGang 0 none false with deposits := ds }).placeBlock (emittedPlacing lid s.fresh l ds) c).modLaunch lid
        gangPlaced := by
  simp only [State.startNext, emitted, LaunchRec.paired, unpaired]
  rfl

theorem gangPlaced_grid {l : Launch} (grid : l.emitted = []) :
    gangPlaced l = { l with nextGang := l.nextGang + 1, placed := l.placed + l.lrec.g } := by
  simp [gangPlaced, grid]

/-- An emitted warp has come: it waits no longer. -/
theorem gangPlaced_emitted {l : Launch} {e : Nat × List Deposit} {es : List (Nat × List Deposit)} (emitted : l.emitted = e :: es)
    (single : l.lrec.g = 1) : gangPlaced l = { l with nextGang := l.nextGang + 1, placed := l.placed + 1, emitted := es } := by
  simp [gangPlaced, emitted, single]

theorem tget_modLaunch {s : State} {lid : Nat} {l : Launch} (f : Launch → Launch) (h : tget s.launches lid = some l) :
    tget (s.modLaunch lid f).launches lid = some (f l) := by
  rw [State.modLaunch, tget_tmod, if_pos rfl, h]
  rfl

/-- A gang of an unpaired launch's grid comes to its cores. -/
theorem gridGangPlaced (s : State) (lid : Nat) (l : Launch) (cs : List Nat) (launch : tget s.launches lid = some l)
    (may : s.mayPlace lid l = true) (awake : s.power.pstate = 0) (normal : s.sec.recovery = false)
    (unpaired : l.lrec.flags.testBit 0 = false) (wide : 0 < l.lrec.g) (grid : l.emitted = [])
    (fits : s.gangFits l.tenant l.lrec false = true) (ok : s.placeOk l.tenant l.lrec cs = true)
    (turn : s.sharedCores cs = false ∨ s.turnOf l.tenant = true) :
    ∃ t k, exec (.gangPlace lid cs) s = .next t ∧ tget t.gangs s.fresh = some k ∧ k.launch = lid ∧ k.lin = l.nextGang ∧
      k.cluster = clusterOf (cs.headD 0) ∧ k.blocks.length = l.lrec.g ∧
      (∀ (i b : Nat), k.blocks[i]? = some b → Begins t b lid s.fresh i (l.lrec.g * l.nextGang + i) ((cs[i]?).getD 0) l) ∧
      tget t.launches lid = some { l with nextGang := l.nextGang + 1, placed := l.placed + l.lrec.g } ∧ ∀ p, t.byteAt p = s.byteAt p := by
  obtain ⟨size, distinct, room, cluster⟩ := placeOk_unpaired unpaired ok
  obtain ⟨turn', placed⟩ := placeNext_eq launch may awake normal (by rw [State.nextFits, grid]; exact fits)
    (by rw [State.nextOk, ok, grid]; rfl) turn
  rw [startNext_grid launch unpaired grid] at placed
  obtain ⟨launches, bytes, gangs, stand, -, -⟩ := gangOn_placeFrom (s := withGang s (newGang lid l.nextGang 0 none false)) (pos := 0)
    (relaunch := 0) (lin := l.nextGang) cs launch (tget_tset_same s.gangs s.fresh _) distinct room
  obtain ⟨sameLaunch, sameLin⟩ := gainsFrom_same (s.fresh + 1) cs (newGang lid l.nextGang 0 none false)
  have blocks : (gainsFrom (s.fresh + 1) cs (newGang lid l.nextGang 0 none false)).blocks = List.range' (s.fresh + 1) cs.length :=
    gainsFrom_blocks ..
  rw [withGang_fresh] at gangs stand
  have ran := (exec_gangPlace s lid cs).trans (congrArg _ placed)
  refine ⟨_, _, ran, gangs, sameLaunch, sameLin, gainsFrom_cluster _ _ cluster ?_, ?_, fun i b hb => ?_, ?_, fun p => ?_⟩
  · rintro rfl
    exact absurd size (Nat.ne_of_lt wide)
  · rw [blocks, List.length_range', size]
  · rw [blocks] at hb
    have inside : i < cs.length := by simpa using (List.getElem?_eq_some_iff.mp hb).1
    rw [List.getElem?_range' inside] at hb
    obtain rfl : s.fresh + 1 + i = b := by simpa using hb
    have stands := stand i _ (List.getElem?_eq_getElem inside)
    rw [Nat.zero_add] at stands
    rw [List.getElem?_eq_getElem inside]
    exact Stands.begins (stands.keep rfl fun _ _ => rfl)
  · exact gangPlaced_grid grid ▸ tget_modLaunch gangPlaced (launches ▸ launch)
  · exact (byteAt_congr rfl rfl rfl p).trans ((bytes p).trans (byteAt_congr rfl rfl rfl p))

/-- An emitted warp comes to a core of its die (R41). -/
theorem emittedWarpPlaced (s : State) (lid : Nat) (l : Launch) (d : Nat) (ds : List Deposit) (es : List (Nat × List Deposit)) (c : Nat)
    (launch : tget s.launches lid = some l) (may : s.mayPlace lid l = true) (awake : s.power.pstate = 0)
    (normal : s.sec.recovery = false) (unpaired : l.lrec.flags.testBit 0 = false) (single : l.lrec.g = 1)
    (emitted : l.emitted = (d, ds) :: es) (fits : s.nextFits l false = true) (ok : s.placeOk l.tenant l.lrec [c] = true)
    (die : dieOf c = d) (turn : s.sharedCores [c] = false ∨ s.turnOf l.tenant = true) :
    ∃ t k b, exec (.gangPlace lid [c]) s = .next t ∧ tget t.gangs s.fresh = some k ∧ k.blocks = [b] ∧ (t.block b).core = c ∧
      (t.block b).bid = l.nextGang ∧ tget t.launches lid = some { l with nextGang := l.nextGang + 1, placed := l.placed + 1, emitted := es } ∧
      ∀ n ∈ (t.block b).warps, ∀ i, i < 32 → let u := t.thread n i
        match ds[i]? with
        | some x => u.exited = false ∧ u.pc = l.lrec.entry ∧ u.rkey = BitVec.ofNat 64 x.key ∧ u.rpay = x.payload
        | none => u.exited = true := by
  obtain ⟨-, -, room, -⟩ := placeOk_unpaired unpaired ok
  obtain ⟨turn', placed⟩ := placeNext_eq launch may awake normal fits (by rw [State.nextOk, ok, emitted, ← die]; simp) turn
  rw [startNext_emitted unpaired emitted] at placed
  have ran := (exec_gangPlace s lid [c]).trans (congrArg _ placed)
  have launch' : tget (withGang s { newGang lid l.nextGang 0 none false with deposits := ds }).launches
      (emittedPlacing lid s.fresh l ds).lid = some l := launch
  have gang := placeBlock_gang (c := c) launch' (tget_tset_same s.gangs s.fresh _)
  have kept := placeBlock_launches (c := c) launch'
  have stands := stands_placeBlock launch' (room c List.mem_cons_self)
  rw [withGang_fresh] at gang stands
  obtain ⟨⟨warps, grans, scratch, block⟩, -, -, starts⟩ := stands.keep (t := withTurn (((withGang s { newGang lid l.nextGang 0 none false with
    deposits := ds }).placeBlock (emittedPlacing lid s.fresh l ds) c).modLaunch lid gangPlaced) turn') rfl fun _ _ => rfl
  refine ⟨_, _, s.fresh + 1, ran, gang, rfl, by rw [block], by rw [block]; rfl, ?_, fun n hn i hi => ?_⟩
  · exact gangPlaced_emitted emitted single ▸ tget_modLaunch gangPlaced (kept ▸ launch')
  · obtain ⟨wid, hwid⟩ := List.getElem?_of_mem hn
    obtain ⟨r, start⟩ := starts wid n hwid
    rw [State.thread, start]
    exact depositThreads_lane l.lrec.entry ds hi

/-! ## O53 -/

/-- Settles O53: the two kinds of placement above, the retirements and the idle flush of the file before. -/
theorem residency : Obligations.Residency := fun s =>
  ⟨gridGangPlaced s, emittedWarpPlaced s, warpRetires s, fun b k _ => blockRetires s b k, reorderFlushes s⟩

end Sys2Proof.Proofs
end

