-- ==== Sys2Proof/Proofs/CoreEvents.lean ====
section
/-! PROOFS. O47 fails: its last clause says that a bounded wait with STALL 7 that has timed out in lane l makes its warp yield, for every l
below the number of threads that the warp lists, and nothing in the hypotheses confines that number to 32. `execWaitTimeout` runs the
completion as a bundle of lane l alone, whose mask has 32 bits: the bundle of lane 32 is empty, so that `issuedAny` finds no thread that
has issued, and the warp keeps its residency number. In a warp of at most 32 threads the mask names the lane. -/

namespace Sys2Proof.Proofs

open Sys2Proof Sys2Proof.Machine Sys2Proof.Claims

/-- CWAIT on the counter that g7 addresses, to the bound in g8, with its result in q1 and STALL 7. -/
def yieldingWait : Instr := .cwait ⟨7, 7, false⟩ 1 (.g 7) (.g 8)

/-- A thread that waits at 0x1000 for a counter, until cycle 5. -/
def boundedWaiter : Thread := { pc := 0x1000, exited := false, wait := .counter 0 1, deadline := some 5 }

/-- A resident warp of core 0 with 33 threads: those of lanes 0 to 31 have exited, and the last one waits. -/
def crowdedWarp : Warp := { resident := true, threads := List.replicate 32 {} ++ [boundedWaiter] }

/-- The machine at cycle 5, when the wait's bound has elapsed; the bytes of `yieldingWait` are at 0x1000. -/
def crowdedTimeout : State :=
  { State.reset with
    now := 5
    warps := [(256, crowdedWarp)]
    tlb := [identityPage]
    mem := [(0x1000, 0x3F), (0x1001, 0xF8), (0x1002, 0x8F), (0x1003, 0xBE), (0x1005, 0x78), (0x1006, 0x01), (0x1007, 0x08)] }

theorem peek_crowdedTimeout :
    crowdedTimeout.peek (crowdedTimeout.warp 256) (crowdedTimeout.thread 256 32).pc = some yieldingWait := by decide

/-- The wait times out in lane 32, and its core gives out no residency number. -/
theorem nextResidency_after_crowdedTimeout {t : State} (h : exec (.waitTimeout 256 32) crowdedTimeout = .next t) :
    (t.core 0).nextResidency = 0 := by
  have run : (match exec (.waitTimeout 256 32) crowdedTimeout with
      | .next u => (u.core 0).nextResidency
      | _ => 1) = 0 := by decide
  rwa [h] at run

/-- A warp that yields takes the next residency number of its core (R80). -/
theorem renumber_nextResidency (s : State) (n : Nat) :
    ((s.renumber n).core (s.warp n).core).nextResidency = (s.core (s.warp n).core).nextResidency + 1 := by
  simp [State.renumber]

/-- Where nothing but one of its threads has changed, the warp and its core are those of before. -/
theorem renumber_nextResidency_of_oneThreadMoves {s t : State} {n l : Nat} {f : Thread → Thread} (h : OneThreadMoves s t n l f) :
    ((t.renumber n).core (s.warp n).core).nextResidency = (s.core (s.warp n).core).nextResidency + 1 := by
  have sameCore : (t.warp n).core = (s.warp n).core :=
    congrArg (fun w : Warp => { w with threads := [] }.core) (h.warps n)
  have sameCores : t.core (s.warp n).core = s.core (s.warp n).core := by rw [h.rest]; rfl
  rw [← sameCores, ← sameCore]
  exact renumber_nextResidency t n

/-- Refutes O47: in a warp of 33 threads, a CWAIT with STALL 7 times out in lane 32 and the warp does not yield: the next residency number
of its core stays 0. -/
theorem not_coreEvents : ¬ Obligations.CoreEvents := by
  rintro ⟨-, threadSteps⟩
  obtain ⟨-, -, -, -, timesOut⟩ := threadSteps 256 32 crowdedTimeout
  obtain ⟨t, t1, v, ran, moves, -, yields, -⟩ :=
    timesOut yieldingWait (predDest 1 false) 5 peek_crowdedTimeout rfl rfl nofun rfl (by decide) (.inl rfl) (by decide) rfl
  have renumbered : (t.core 0).nextResidency = 0 + 1 :=
    yields ⟨rfl, rfl⟩ ▸ renumber_nextResidency_of_oneThreadMoves moves
  rw [nextResidency_after_crowdedTimeout ran] at renumbered
  exact absurd renumbered (by decide)

end Sys2Proof.Proofs
end

