-- ==== Sys2Proof/Proofs/SelfPosting.lean ====
section
/-! PROOFS. O52 fails: its first clause says that a queue whose head is accepted holds the entries behind that head. A launch that is
stopped at its acceptance finishes in the same step (R69, R72), and its finish adds 1 to its completion counter at a tenant's virtual
address. R73 and R420 let that address map a device window: the page of a tenant's own posting window (R68), where a dword that is
written posts. So the launch whose counter is the posting register of its own queue leaves an entry behind it there. The statement
excludes no such counter. -/

namespace Sys2Proof.Proofs

open Sys2Proof Sys2Proof.Machine Sys2Proof.Claims

/-- Virtual addresses to themselves, in the TLB of the service die, which the scheduler's own accesses go through. -/
def recordPage : TlbEntry := { identityPage with node := 256 }

/-- The page at 0x10000: the posting window of tenant 0. -/
def postingPage : TlbEntry := { recordPage with vbase := 0x10000, size := 4096, ibase := 0x10000, pbase := 0xF000000080000 }

/-- A record at 0x20000 that has been posted in queue 0 and cancelled. -/
def cancelledPost : Post := { ptr := 0x20000, poster := 0, high := false, cancelled := true }

/-- The machine at reset, but that the post waits in queue 0 of tenant 0, whose record names the completion counter 0x10000. -/
def selfPosting : State :=
  { State.reset with
    tlb := [postingPage, recordPage]
    mem := [(0x2003A, 1)]
    tenants := [(0, { queues := [(0, [cancelledPost])] })] }

/-- The record can be read. -/
theorem readRecord_selfPosting : ∃ s1 bs b, selfPosting.readRecord 0 0 cancelledPost.ptr = (s1, some bs, b) := by
  have read : (selfPosting.readRecord 0 0 cancelledPost.ptr).2.1.isSome = true := by decide +kernel
  obtain ⟨bs, found⟩ := Option.isSome_iff_exists.mp read
  exact ⟨_, bs, _, Prod.ext rfl (Prod.ext found rfl)⟩

/-- After the acceptance the queue holds the pointer 1, the counter's new value. -/
theorem queue_after_selfPosting {t : State} (h : exec (.launchAccept 0 0) selfPosting = .next t) :
    tgetD (t.tenant 0).queues 0 [] = [{ ptr := 1, poster := 0, high := false, window := some 0 }] := by
  have run : (match exec (.launchAccept 0 0) selfPosting with
      | .next u => tgetD (u.tenant 0).queues 0 []
      | _ => []) = [{ ptr := 1, poster := 0, high := false, window := some 0 }] := by decide +kernel
  rwa [h] at run

/-- Refutes O52: a cancelled launch whose completion counter is the posting register of its own queue leaves the queue and posts there, so
that the queue, which held nothing else, is not empty. -/
theorem not_launchEvents : ¬ Obligations.LaunchEvents := by
  intro h
  obtain ⟨accepts, -⟩ := h selfPosting
  obtain ⟨s1, bs, b, read⟩ := readRecord_selfPosting
  obtain ⟨t, l, ran, queue, -⟩ :=
    accepts 0 0 cancelledPost [] s1 bs b (by decide) (by decide) rfl rfl (by decide) rfl rfl read
  rw [queue_after_selfPosting ran] at queue
  exact absurd queue (by decide)

end Sys2Proof.Proofs
end

