-- ==== Sys2Proof/Proofs/RangelessPost.lean ====
section
/-! PROOFS. O44 fails: its clause on LAUNCH says that the instruction goes on wherever the address of the record's tenant bytes is
`Plain`. A monitor-level thread addresses physical memory, and `Plain` asks for the tier of the address that translation names
(`State.nameOf`), not of the address that the thread gave. The two differ where a switched forwarding entry has the thread's page as its
destination. Nothing in the hypotheses asks that the destination lies in one of the ranges of R183; where it does not, the model refuses
the access (`rangeStop`), and LAUNCH has no next state. Nor do they ask that the entry's source begins a frame; where it does not, the name
lies in a frame that no entry covers, as `Plain` wants. -/

namespace Sys2Proof.Proofs

open Sys2Proof Sys2Proof.Machine Sys2Proof.Claims

/-- A switched migration of 0x800, which begins no frame, to a page in no range of R183: translation names 0x10000000928 by 0x1128. -/
def rangelessFwd : Fwd :=
  { src := 0x800, dst := 0x10000000000, tenant := 0, ipa := 0, leafPa := 0, leafOld := 0, srcTier := 0, dstTier := 0, switched := true }

/-- A monitor-level service thread with the record's address 0x10000000900 in g0. -/
def rangelessPost : State :=
  { State.reset with
    warps := [(0, { service := true, core := 1024, svc := { running := true, level := .monitor },
                    threads := [{ exited := false, regs := [(0, 0x10000000900)] }] })]
    cur := { warp := 0, lanes := 1 }
    fwds := [(0, rangelessFwd)] }

/-- LAUNCH of the record at g0. -/
def launchG0 : Instr := .launch ⟨0, 7, false⟩ 0 (.g 0)

theorem solo_rangelessPost : Solo launchG0 rangelessPost 0 where
  issues := Option.isNone_iff_eq_none.mp (by decide)
  lanes := by decide
  lane := by decide
  alive := by decide
  guard := by decide
  single := by decide

theorem cachesOk_rangelessPost : cachesOk rangelessPost :=
  ⟨fun _ => ⟨⟨rfl, nofun⟩, ⟨rfl, nofun⟩⟩, fun _ _ => rfl, fun _ _ _ _ _ _ _ held => nomatch held⟩

/-- The name of the record's tenant bytes is ordinary memory of tier 0. -/
theorem plain_rangelessPost : Plain rangelessPost 0 accLoad
    ((rangelessPost.cx rangelessPost.cur.warp 0).src (.g 0) + 0x28) 4 (physXlat 0x1128) where
  form := by decide
  maps := by decide
  tier := by decide
  cached := by decide
  still := by decide
  sent _ := rfl
  awake := rfl
  good _ _ := rfl
  sound _ _ held := nomatch held
  caches := cachesOk_rangelessPost

/-- The machine refuses the access: LAUNCH has no next state. -/
theorem not_next_of_rangelessPost (t : State) : exec launchG0 rangelessPost ≠ .next t := by
  have run : (match exec launchG0 rangelessPost with
      | .fault x => x == .physicalRange 0x10000000928
      | _ => false) = true := by decide
  intro h
  rw [h] at run
  cases run

/-- Refutes O44: LAUNCH of a record at 0x10000000900, which a switched migration names 0x1100, has no next state. -/
theorem not_launchAndCancel : ¬ Obligations.LaunchAndCancel := by
  rintro ⟨launching, -⟩
  obtain ⟨posts, -⟩ := launching ⟨0, 7, false⟩ 0 (.g 0) rangelessPost 0 (physXlat 0x1128) (by decide) (fun _ => rfl) (by decide)
  obtain ⟨t, ran, -⟩ := posts solo_rangelessPost (by decide) plain_rangelessPost
  exact not_next_of_rangelessPost t ran

end Sys2Proof.Proofs
end

