-- ==== Sys2Proof/Proofs/Preemption.lean ====
section
/-! PROOFS. What the start of pre-emptions (R78, R83, R85) can change: the state, the Bivouac place and the cause of blocks, the tenants'
BVFULL, and the queues of gangs that wait for an engine. -/

namespace Sys2Proof.Proofs

open Sys2Proof Sys2Proof.Machine Sys2Proof.Claims

theorem blocks_modBlock (s : State) (n : Nat) (f : Block → Block) : (s.modBlock n f).blocks = tmod s.blocks n f := rfl

theorem block_modBlock (s : State) (n m : Nat) (f : Block → Block) :
    (s.modBlock n f).block m = if m = n ∧ (tget s.blocks n).isSome = true then f (s.block n) else s.block m := by
  simp only [State.block, State.modBlock, tget_tmod]
  by_cases h : m = n
  · subst h
    cases tget s.blocks m <;> simp
  · simp [h]

theorem modTenant_tenant (s : State) (n m : Nat) (f : Tenant → Tenant) :
    (s.modTenant n f).tenant m = if m = n then f (s.tenant n) else s.tenant m := by
  by_cases h : m = n
  · rw [if_pos h, h, State.tenant_modTenant]
  · rw [if_neg h, State.tenant_modTenant_other s f h]

/-- WHAT THE START OF PRE-EMPTIONS CHANGES. In a table of blocks that is in order, only resident blocks are affected, and they are then to be
saved. -/
structure Preempts (s t : State) : Prop where
  rest : ∃ bs ts es, t = { s with blocks := bs, tenants := ts, engines := es }
  tenants : ∀ j, ∃ full, t.tenant j = { s.tenant j with bvfull := full }
  blocks : ∀ b, ∃ v a c, t.block b = { s.block b with state := v, biv := a, cause := c }
  sorted : tsorted s.blocks = true → tsorted t.blocks = true
  states : tsorted s.blocks = true → ∀ b, (t.block b).state = (s.block b).state ∨ ((s.block b).state = .resident ∧ (t.block b).state = .saving)

theorem Preempts.refl (s : State) : Preempts s s :=
  ⟨⟨_, _, _, rfl⟩, fun _ => ⟨_, rfl⟩, fun _ => ⟨_, _, _, rfl⟩, id, fun _ _ => .inl rfl⟩

theorem Preempts.trans {s t u : State} (h : Preempts s t) (h' : Preempts t u) : Preempts s u where
  rest := by
    obtain ⟨_, _, _, e⟩ := h.rest
    obtain ⟨_, _, _, e'⟩ := h'.rest
    exact ⟨_, _, _, by rw [e', e]⟩
  tenants j := by
    obtain ⟨full, e⟩ := h.tenants j
    obtain ⟨full', e'⟩ := h'.tenants j
    exact ⟨full', by rw [e', e]⟩
  blocks b := by
    obtain ⟨v, a, c, e⟩ := h.blocks b
    obtain ⟨v', a', c', e'⟩ := h'.blocks b
    exact ⟨v', a', c', by rw [e', e]⟩
  sorted o := h'.sorted (h.sorted o)
  states o b := by
    rcases h.states o b with e | ⟨r, e⟩ <;> rcases h'.states (h.sorted o) b with e' | ⟨r', e'⟩
    · exact .inl (e'.trans e)
    · exact .inr ⟨e ▸ r', e'⟩
    · exact .inr ⟨r, e'.trans e⟩
    · exact .inr ⟨r, e'⟩

theorem Preempts.warps_eq {s t : State} (h : Preempts s t) : t.warps = s.warps := by
  obtain ⟨_, _, _, e⟩ := h.rest
  rw [e]

theorem Preempts.block_warps {s t : State} (h : Preempts s t) (b : Nat) : (t.block b).warps = (s.block b).warps := by
  obtain ⟨_, _, _, e⟩ := h.blocks b
  rw [e]

/-- Steps of which each starts pre-emptions do so together. -/
theorem preempts_foldl {α : Type} {f : State → α → State} (step : ∀ s x, Preempts s (f s x)) (xs : List α) (s : State) :
    Preempts s (xs.foldl f s) := by
  induction xs generalizing s with
  | nil => exact .refl s
  | cons x xs ih => exact (step s x).trans (ih _)

/-- A member of a list sorted by BID was in it. -/
theorem mem_insDesc {x y : Nat × Block} {l : List (Nat × Block)} (h : y ∈ insDesc x l) : y = x ∨ y ∈ l := by
  induction l with
  | nil => exact .inl (List.mem_singleton.mp h)
  | cons z l ih =>
    unfold insDesc at h
    split at h
    · exact List.mem_cons.mp h
    · rcases List.mem_cons.mp h with e | h
      · exact .inr (e ▸ List.mem_cons_self)
      · exact (ih h).imp_right (List.mem_cons_of_mem z)

theorem resident_of_mem_residentWhere {s : State} {p : Block → Bool} {b : Nat} (sorted : tsorted s.blocks = true) (h : b ∈ s.residentWhere p) :
    (s.block b).state = .resident := by
  obtain ⟨q, hq, rfl⟩ := List.mem_map.mp h
  have listed : ∀ (l acc : List (Nat × Block)), q ∈ l.foldl (fun l x => insDesc x l) acc → q ∈ l ∨ q ∈ acc := by
    intro l
    induction l with
    | nil => exact fun _ h => .inr h
    | cons x l ih =>
      intro acc h
      rcases ih _ h with h | h
      · exact .inl (List.mem_cons_of_mem x h)
      · exact (mem_insDesc h).imp_left fun e => List.mem_cons.mpr (.inl e)
  have kept := (listed _ _ hq).resolve_right List.not_mem_nil
  obtain ⟨hq, hp⟩ := List.mem_filter.mp kept
  rw [block_of_tget (tget_of_mem sorted hq)]
  simp only [decide_eq_true_eq] at hp
  exact hp.1

/-- One more block of those that were resident is to be saved. -/
theorem Preempts.save {s t : State} (h : Preempts s t) {b : Nat} (a why : Nat) (resident : tsorted s.blocks = true → (s.block b).state = .resident) :
    Preempts s (t.modBlock b fun k => { k with state := .saving, biv := some a, cause := why }) where
  rest := by
    obtain ⟨_, _, _, e⟩ := h.rest
    exact ⟨_, _, _, by rw [e]; rfl⟩
  tenants := h.tenants
  blocks m := by
    obtain ⟨v, a', c, e⟩ := h.blocks m
    rw [block_modBlock]
    split
    · rename_i hm
      rw [← hm.1, e]
      exact ⟨_, _, _, rfl⟩
    · exact ⟨v, a', c, e⟩
  sorted o := by
    rw [blocks_modBlock]
    exact tsorted_tmod _ _ _ (h.sorted o)
  states o m := by
    rw [block_modBlock]
    split
    · rename_i hm
      exact .inr ⟨hm.1 ▸ resident o, rfl⟩
    · exact h.states o m

/-- The start of one gang's pre-emption. -/
theorem preempts_preemptGang (s : State) (why g : Nat) : Preempts s (s.preemptGang why g) := by
  have saved : ∀ (bs : List Nat) (o : Option State), (∀ b ∈ bs, tsorted s.blocks = true → (s.block b).state = .resident) →
      (∀ u, o = some u → Preempts s u) → ∀ u, bs.foldl (fun (acc : Option State) b => acc.bind fun s =>
        (s.reserve (s.block b)).map fun a => s.modBlock b fun k => { k with state := .saving, biv := some a, cause := why }) o = some u →
      Preempts s u := by
    intro bs
    induction bs with
    | nil => exact fun o _ h => h
    | cons b bs ih =>
      intro o members h
      refine ih _ (fun c hc => members c (List.mem_cons_of_mem b hc)) fun u hu => ?_
      obtain ⟨v, hv, hu⟩ := Option.bind_eq_some_iff.mp hu
      obtain ⟨a, -, rfl⟩ := Option.map_eq_some_iff.mp hu
      exact (h v hv).save a why (members b List.mem_cons_self)
  unfold State.preemptGang
  dsimp only
  split
  · exact .refl s
  · split
    · exact .refl s
    · split
      · rename_i u hu
        have := saved _ _ (fun b hb o => resident_of_mem_residentWhere o hb) (fun u hu => Option.some.inj hu ▸ .refl s) u hu
        obtain ⟨_, _, _, e⟩ := this.rest
        exact ⟨⟨_, _, _, by rw [e]⟩, this.tenants, this.blocks, this.sorted, this.states⟩
      · refine ⟨⟨_, _, _, rfl⟩, fun j => ?_, fun b => ⟨_, _, _, rfl⟩, id, fun _ _ => .inl rfl⟩
        rw [modTenant_tenant]
        split
        · rename_i hj
          exact ⟨true, by rw [hj]⟩
        · exact ⟨_, rfl⟩

theorem preempts_preemptFrom (s : State) (lid bid : Nat) : Preempts s (s.preemptFrom lid bid) := by
  unfold State.preemptFrom
  generalize ((s.residentWhere fun b => b.launch == lid && decide (bid ≤ b.bid)).map fun b => (s.block b).gang) = gs
  suffices ∀ a : State × Bool, Preempts s a.1 → Preempts s (gs.foldl (fun (a : State × Bool) g =>
      if a.2 then
        let s := a.1.preemptGang 0 g
        (s, s.isKilled g || (s.residentWhere (s.sameGang g)).isEmpty)
      else a) a).1 from this (s, true) (.refl s)
  induction gs with
  | nil => exact fun _ h => h
  | cons g gs ih =>
    intro a h
    refine ih _ ?_
    dsimp only
    split
    · exact h.trans (preempts_preemptGang ..)
    · exact h

theorem preempts_preemptWhere (s : State) (p : Block → Bool) : Preempts s (s.preemptWhere p) :=
  preempts_foldl (fun s _ => preempts_preemptFrom s _ _) _ s

theorem preempts_retryPreempt (s : State) : Preempts s s.retryPreempt := preempts_preemptWhere s _

end Sys2Proof.Proofs
end

