-- ==== Sys2Proof/Proofs/CrossedResume.lean ====
section
/-! PROOFS. O54 fails: its clause on BLOCK_RESUME says that each warp whose record stands in the Bivouac space comes back with what the
record holds. The warps of a saved block have numbers of their own, above those of the warp slots (`bivKey`), which makes their move into
the slots of a core one at a time harmless; but nothing in the hypotheses asks that they have. Where a saved block lists its warps under
the numbers of the slots they go to, in another order, the move of one warp takes the number that the next one leaves, and is undone by
it: the first warp is gone. -/

namespace Sys2Proof.Proofs

open Sys2Proof Sys2Proof.Machine Sys2Proof.Claims

/-- A warp of 32 threads whose PCs, meeting addresses, predicates and warp registers are 0. -/
def zeroWarp : Warp := { threads := List.replicate 32 {} }

/-- A warp in Bivouac that has no general registers. -/
def savedWarp : Warp := { zeroWarp with regsN := 0 }

/-- A block in Bivouac, at an address of no tier, whose warps have the numbers of the first two slots of core 0, the higher one first. -/
def crossedBlock : Block :=
  { launch := 0, gang := 0, pos := 0, bid := 0, core := 0, warps := [257, 256], sBytes := 0, pBytes := 0, state := .saved, biv := some 0x20000000000 }

/-- A ready launch of gangs of one block of two warps. -/
def twoWarpLaunch : Launch :=
  { addr := 0, tenant := 0, queue := 0, order := 0, state := .ready, lrec := { w := 2, g := 1 } }

/-- The machine at reset, but for a saved gang of one block. -/
def crossedGang : State :=
  { State.reset with
    launches := [(0, twoWarpLaunch)]
    gangs := [(0, { launch := 0, lin := 0, cluster := 0, blocks := [0] })]
    blocks := [(0, crossedBlock)]
    tenants := [(0, { weight := 1 })]
    warps := [(256, savedWarp), (257, savedWarp)] }

/-- Every byte of its memory is 0. -/
theorem byteAt_crossedGang (a : Nat) : crossedGang.byteAt a = 0 := rfl

/-! ## Records in a memory of zeros -/

theorem holds_zero {f : Nat → Byte} (zero : ∀ a, f a = 0) (a n : Nat) : holds f a n 0 := by
  intro j _
  rw [zero, Nat.zero_div]
  rfl

theorem recorded_zeroWarp {f : Nat → Byte} (zero : ∀ a, f a = 0) (a : Nat) : Recorded f a 0 zeroWarp where
  threads l u found := by
    obtain rfl := List.eq_of_mem_replicate (List.mem_of_getElem? found)
    exact ⟨holds_zero zero _ _, holds_zero zero _ _, zero _, nofun⟩
  shared i _ := holds_zero zero _ _

theorem leNat_replicate_zero (n : Nat) : leNat (List.replicate n 0#8) = 0 := by
  induction n with
  | zero => rfl
  | succ n ih => rw [List.replicate_succ, leNat, ih]; rfl

theorem fld_replicate_zero (m off n : Nat) : fld (List.replicate m 0#8) off n = 0 := by
  rw [fld, List.drop_replicate, List.take_replicate, leNat_replicate_zero]

theorem warpRecOk_replicate_zero (m : Nat) : warpRecOk (List.replicate m 0#8) = true := by
  simp only [warpRecOk, zeroed, fld_replicate_zero, beq_self_eq_true, Bool.and_self, Nat.ofNat_pos, decide_true, List.all_eq_true,
    implies_true, Bool.true_and]

/-- In a memory of zeros every record keeps its reserved fields 0. -/
theorem recordsOk_of_zero {s : State} (zero : ∀ a, s.byteAt a = 0) (b : Nat) : s.recordsOk b = true := by
  have bytes (a n : Nat) : s.cohBytes a n = List.replicate n 0#8 := by
    refine List.eq_replicate_iff.mpr ⟨by simp [State.cohBytes, addrs], fun x hx => ?_⟩
    obtain ⟨p, -, rfl⟩ := List.mem_map.mp hx
    exact zero p
  unfold State.recordsOk
  dsimp only
  split
  · simp only [bytes, warpRecOk_replicate_zero, zeroed, fld_replicate_zero, beq_self_eq_true, Bool.true_and]
    exact List.all_eq_true.mpr fun _ _ => rfl
  · rfl

theorem badRecords_of_unpoisoned {s : State} (unpoisoned : s.poison = []) (b : Nat) : s.badRecords b = false := by
  unfold State.badRecords
  dsimp only
  split
  · simp [State.anyPoison, State.poisoned, unpoisoned]
  · rfl

/-! ## What a block's return does to the numbers of its warps -/

/-- Where no frame of a tier is read, the Ridgepole's read of a record counts nothing (R196). -/
theorem ownRead_of_tierless {s : State} {pa n : Nat} (tierless : ∀ i, i < n → tierOf ((pa + i) / 256 * 256) = none) : s.ownRead pa n = s := by
  have uncounted : ∀ l ∈ linesOf pa n, ∀ u : State, u.count none (l * 256) 1 = u := by
    intro l hl u
    simp only [linesOf, addrs, List.mem_dedup, List.mem_map, List.mem_range] at hl
    obtain ⟨-, ⟨i, hi, rfl⟩, rfl⟩ := hl
    simp only [State.count, State.countReq, reqOf, tierless i hi]
  exact List.foldlRecOn (motive := fun u => u = s) (linesOf pa n) _ rfl fun u hu l hl => (uncounted l hl u).trans hu

/-- The warps of a block that comes back: each with its number, the slot it goes to, and what its record holds. -/
def returning (s : State) (k : Block) (a c : Nat) : List (Nat × Nat × Warp) :=
  mapFrom (fun i (n : Nat) => (n, (((s.freeSlots c).take k.warps.length)[i]?).getD 0,
    (s.warp n).swapIn s.now (s.cohBytes (a + i * warpRecBytes (s.blockN k)) (warpRecBytes (s.blockN k))) c ((s.core c).nextResidency + i))) 0 k.warps

/-- A warp under another number. -/
def renumbered (ws : Tbl Warp) (w : Nat × Nat × Warp) : Tbl Warp := tset (tdel ws w.1) w.2.1 w.2.2

theorem foldl_moveWarp (ws : List (Nat × Nat × Warp)) (s : State) :
    (ws.foldl (fun s w => s.moveWarp w.1 w.2.1 w.2.2) s).warps = ws.foldl renumbered s.warps ∧
      (ws.foldl (fun s w => s.moveWarp w.1 w.2.1 w.2.2) s).blocks = s.blocks := by
  induction ws generalizing s with
  | nil => exact ⟨rfl, rfl⟩
  | cons w ws ih => exact ih _

theorem block_reportTenant (s : State) (c tn b : Nat) : (s.reportTenant c tn).block b = s.block b := rfl

theorem block_freshCore (s : State) (c b : Nat) : (s.freshCore c).block b = s.block b := rfl

/-- Where its record's read counts nothing, a block's return moves its warps into slots one after another. -/
theorem resumeBlock_of_uncounted {s : State} {b c a : Nat} {k : Block} (listed : tget s.blocks b = some k) (biv : k.biv = some a)
    (uncounted : s.ownRead a (s.saveBytes k) = s) :
    (s.resumeBlock b c).warps = (returning s k a c).foldl renumbered s.warps ∧
      ((s.resumeBlock b c).block b).warps = (s.freeSlots c).take k.warps.length := by
  obtain ⟨warps, blocks⟩ := foldl_moveWarp (returning s k a c) s
  have block (v : State) (f : Block → Block) (same : v.blocks = s.blocks) : (v.modBlock b f).block b = f k := by
    have held : tget v.blocks b = some k := same ▸ listed
    rw [block_modBlock, if_pos ⟨rfl, by rw [held]; rfl⟩, block_of_tget held]
  simp only [State.resumeBlock, block_of_tget listed, biv, uncounted]
  constructor
  · split <;> exact warps
  · split
    · rw [block_reportTenant, block_freshCore, block]
      exact blocks
    · rw [block_freshCore, block]
      exact blocks

/-- A gang of one block, without tiles, comes back with its block. -/
theorem resumeGang_of_one {s : State} {g b c : Nat} (tiles : (s.gang g).tiles = false) (one : s.unretired g = [b]) :
    s.resumeGang g [c] = ({ s with gangs := tmod s.gangs g fun k => { k with tiles := false, cluster := clusterOf c } } : State).resumeBlock b c := by
  simp only [State.resumeGang, tiles, one, Bool.false_eq_true, if_false, List.headD_cons, List.zip_cons_cons, List.zip_nil_left,
    List.foldl_cons, List.foldl_nil]

/-! ## The gang that crosses its own numbers -/

/-- The conditions of BLOCK_RESUME hold. -/
theorem resume_crossedGang : crossedGang.resume 0 [0] = (crossedGang.resumeGang 0 [0]).retryPreempt := by
  have found : tget crossedGang.launches (crossedGang.gang 0).launch = some twoWarpLaunch := rfl
  have cores : coresFor crossedGang 0 [0] = [(0, [0])] := rfl
  simp only [State.resume, found]
  have blocks : (crossedGang.pairOf 0).flatMap crossedGang.unretired = [0] := rfl
  have sound : [0].any crossedGang.badRecords = false := by simp [badRecords_of_unpoisoned (show crossedGang.poison = [] from rfl)]
  have formed : ([0].any fun b => !crossedGang.recordsOk b) = false := by simp [recordsOk_of_zero byteAt_crossedGang]
  simp only [blocks, sound, formed]
  rw [if_neg (by decide +kernel), if_neg (by decide), if_neg (by decide +kernel), if_neg (by decide), cores, List.foldl_cons, List.foldl_nil]

/-- Its records lie in no tier. -/
theorem tierless_crossedGang {i : Nat} (h : i < 5184) : tierOf ((0x20000000000 + i) / 256 * 256) = none := by
  have outside : regionOf ((0x20000000000 + i) / 256 * 256) = .none := by
    unfold regionOf
    rw [if_neg (by omega), if_neg (by omega), if_neg (by omega), if_neg (by omega), if_neg (by omega)]
  rw [tierOf, outside]

/-- Its block's slots are in order, and no warp has the number of the first one. -/
theorem resumeGang_crossedGang : ((crossedGang.resumeGang 0 [0]).block 0).warps = [256, 257] ∧
    tget (crossedGang.resumeGang 0 [0]).warps 256 = none := by
  rw [resumeGang_of_one (b := 0) rfl rfl]
  obtain ⟨warps, slots⟩ := resumeBlock_of_uncounted (c := 0)
    (s := { crossedGang with gangs := tmod crossedGang.gangs 0 fun k => { k with tiles := false, cluster := clusterOf 0 } }) (b := 0)
    (k := crossedBlock) (a := 0x20000000000) rfl rfl (ownRead_of_tierless fun i hi => tierless_crossedGang hi)
  rw [warps, slots]
  decide +kernel

theorem exec_blockResume (s : State) (g : Nat) (cs : List Nat) : exec (.blockResume g cs) s = .next (s.resume g cs) := rfl

theorem warp_of_unlisted {s : State} {n : Nat} (unlisted : tget s.warps n = none) (compute : 256 ≤ n) : s.warp n = {} := by
  rw [State.warp, tgetD, unlisted, Option.getD_none, if_neg (Nat.not_lt.mpr compute)]

/-- The block comes back with its slots in order, and the warp of the first one is gone. -/
theorem resumed_crossedGang {t : State} (h : exec (.blockResume 0 [0]) crossedGang = .next t) :
    (t.block 0).warps = [256, 257] ∧ t.warp 256 = {} := by
  rw [exec_blockResume, resume_crossedGang] at h
  injection h with same
  subst same
  have preempts := preempts_retryPreempt (crossedGang.resumeGang 0 [0])
  obtain ⟨slots, gone⟩ := resumeGang_crossedGang
  exact ⟨(preempts.block_warps 0).trans slots, warp_of_unlisted (by rw [preempts.warps_eq, gone]) (by decide)⟩

/-- Refutes O54: the first of two warps of a saved block that have the numbers of the slots they go to, the higher one first, does not
come back. -/
theorem not_blockEvents : ¬ Obligations.BlockEvents := by
  intro h
  obtain ⟨-, gangs, -⟩ := h crossedGang
  obtain ⟨resumes, -⟩ := gangs 0 _ twoWarpLaunch [0] rfl rfl rfl
  have saved : ∀ b ∈ crossedGang.unretired 0, (crossedGang.block b).state = .saved ∧ (crossedGang.block b).biv ≠ none ∧
      crossedGang.badRecords b = false ∧ crossedGang.recordsOk b = true := by
    intro b hb
    obtain rfl : b = 0 := List.mem_singleton.mp hb
    exact ⟨rfl, by decide, badRecords_of_unpoisoned rfl 0, recordsOk_of_zero byteAt_crossedGang 0⟩
  obtain ⟨t, ran, blocks⟩ := resumes (by decide) (by decide) (by decide) (by decide) saved (by decide +kernel) (by decide)
  obtain ⟨-, -, -, -, -, -, restores⟩ := blocks 0 0 rfl
  obtain ⟨-, restored⟩ := restores 0x20000000000 rfl rfl (by decide)
  obtain ⟨slots, gone⟩ := resumed_crossedGang ran
  have first : (t.block 0).warps[0]? = some 256 := by rw [slots]; rfl
  obtain ⟨x, found, -⟩ := (restored 0 256 zeroWarp first rfl (recorded_zeroWarp byteAt_crossedGang _)).threads 0 {} rfl
  rw [gone] at found
  cases found

end Sys2Proof.Proofs
end

