-- ==== Sys2Proof/Proofs/CacheFlushes.lean ====
section
/-! PROOFS. What caches that write back and drop can change (R101 to R103, R196): the memory side of the machine, and of it, where no page
moves, no byte that anyone reads. -/

namespace Sys2Proof.Proofs

open Sys2Proof Sys2Proof.Machine Sys2Proof.Claims

/-! ## Counted requests (R196, R197) -/

/-- What a counted request can change: the counters, and what the start of a migration changes. -/
theorem count_frame (s : State) (attr : Option Xlat) (pa n : Nat) :
    ∃ cs rs fs m l, s.count attr pa n = { s with counters := cs, rings := rs, fwds := fs, mem := m, l2 := l } := by
  have cleans (u : State) (p : Nat → Bool) : ∃ m l, u.l2CleanAll p = { u with mem := m, l2 := l } :=
    List.foldlRecOn (motive := fun v => ∃ m l, v = { u with mem := m, l2 := l }) [0, 1, 2] _ ⟨_, _, rfl⟩ fun v hv id _ => by
      obtain ⟨m, l, rfl⟩ := hv
      dsimp only
      split
      · exact ⟨_, _, rfl⟩
      · exact ⟨_, _, rfl⟩
  have promotes (u : State) (req : HomeReq) : ∃ rs fs m l, u.promote req = { u with rings := rs, fwds := fs, mem := m, l2 := l } := by
    unfold State.promote
    dsimp only
    split
    · cases hm : u.startMigration req.pa req.tenant req.ipa req.leafPa (targetTier req.aff) with
      | none => exact ⟨_, _, _, _, rfl⟩
      | some v =>
        unfold State.startMigration at hm
        split at hm
        · obtain ⟨m, l, e⟩ := cleans u fun a => frameOf a == frameOf req.pa
          simp only [e, Option.some.injEq] at hm
          exact ⟨_, _, _, _, hm.symm⟩
        · cases hm
    · exact ⟨_, _, _, _, rfl⟩
  unfold State.count State.countReq
  split
  · exact ⟨_, _, _, _, _, rfl⟩
  · split
    · exact ⟨_, _, _, _, _, rfl⟩
    · split
      · exact ⟨_, _, _, _, _, rfl⟩
      · obtain ⟨rs, fs, m, l, e⟩ := promotes (s.addCount (frameOf (reqOf attr pa n).pa) (reqOf attr pa n).n) (reqOf attr pa n)
        exact ⟨_, _, _, _, _, e⟩

/-- Where no page moves and none may start to, a request only counts. -/
theorem count_quiet {s : State} (quiet : Quiet s) (attr : Option Xlat) (pa n : Nat) : ∃ cs, s.count attr pa n = { s with counters := cs } := by
  obtain ⟨unmoved, unbounded⟩ := quiet
  have stays (f m : Nat) (req : HomeReq) : (s.addCount f m).promote req = s.addCount f m := by
    have th : ((s.addCount f m).tenant req.tenant).thresh = 0 := unbounded req.tenant
    unfold State.promote
    exact if_neg fun h => h.1 th
  have home : s.fwdAt (reqOf attr pa n).pa = none := by rw [State.fwdAt, unmoved]; rfl
  unfold State.count State.countReq
  split
  · exact ⟨_, rfl⟩
  · split
    · exact ⟨_, rfl⟩
    · rw [home]
      exact ⟨_, stays ..⟩

theorem quiet_congr {s t : State} (h : Quiet s) (fwds : t.fwds = s.fwds) (tenants : t.tenants = s.tenants) : Quiet t :=
  ⟨fwds.trans h.1, fun k => by rw [State.tenant, tenants]; exact h.2 k⟩

/-- Where no page moves and none may start to, requests only count. -/
theorem counts_quiet {s : State} (quiet : Quiet s) (attr : Nat → Option Xlat) (ls : List Nat) :
    ∃ cs, ls.foldl (fun s l => s.count (attr l) (l * 256) 1) s = { s with counters := cs } := by
  refine List.foldlRecOn (motive := fun v => ∃ cs, v = { s with counters := cs }) ls _ ?_ fun v hv l _ => ?_
  · exact ⟨_, rfl⟩
  obtain ⟨cs, rfl⟩ := hv
  obtain ⟨cs', e⟩ := count_quiet (s := { s with counters := cs }) (quiet_congr quiet rfl rfl) (attr l) (l * 256) 1
  exact ⟨cs', e⟩

/-! ## A second-level cache that writes back and drops -/

/-- What a flush of an L2 can change. -/
theorem l2Flush_frame (s : State) (id : Nat) (p : Nat → Bool) (drop : Bool) :
    ∃ cs rs fs m l, s.l2Flush id p drop = { s with counters := cs, rings := rs, fwds := fs, mem := m, l2 := l } := by
  have start : ∃ m l, (if s.l2c id = {} then { s with mem := memSetAll s.mem (dirtyWhere p (s.l2c id)) }
      else State.setL2 { s with mem := memSetAll s.mem (dirtyWhere p (s.l2c id)) } id
        (if drop then dropWhere p (s.l2c id) else cleanWhere p (s.l2c id))) = { s with mem := m, l2 := l } := by
    split
    · exact ⟨_, _, rfl⟩
    · exact ⟨_, _, rfl⟩
  obtain ⟨m, l, start⟩ := start
  unfold State.l2Flush
  dsimp only
  rw [start]
  refine List.foldlRecOn (motive := fun v => ∃ cs rs fs m l, v = { s with counters := cs, rings := rs, fwds := fs, mem := m, l2 := l }) _ _ ?_
    fun v hv k _ => ?_
  · exact ⟨_, _, _, _, _, rfl⟩
  obtain ⟨cs, rs, fs, m, l, rfl⟩ := hv
  obtain ⟨_, _, _, _, _, e⟩ := count_frame { s with counters := cs, rings := rs, fwds := fs, mem := m, l2 := l }
    ((s.l2c id).attrAt (k * 256)) (k * 256) 1
  exact ⟨_, _, _, _, _, e⟩

/-- Where no page moves and none may start to: the dirty bytes are in memory, the cache has none of them. -/
theorem l2Flush_quiet {s : State} (quiet : Quiet s) (id : Nat) (p : Nat → Bool) : ∃ cs l, s.l2Flush id p true =
    { s with counters := cs, mem := memSetAll s.mem (dirtyWhere p (s.l2c id)), l2 := l } ∧
      ∀ j, tgetD l j {} = if j = id then dropWhere p (s.l2c id) else s.l2c j := by
  have start : ∃ l, (if s.l2c id = {} then { s with mem := memSetAll s.mem (dirtyWhere p (s.l2c id)) }
      else State.setL2 { s with mem := memSetAll s.mem (dirtyWhere p (s.l2c id)) } id
        (if true then dropWhere p (s.l2c id) else cleanWhere p (s.l2c id))) =
        { s with mem := memSetAll s.mem (dirtyWhere p (s.l2c id)), l2 := l } ∧
        ∀ j, tgetD l j {} = if j = id then dropWhere p (s.l2c id) else s.l2c j := by
    split
    · rename_i empty
      refine ⟨s.l2, rfl, fun j => ?_⟩
      split
      · rename_i hj
        rw [empty, hj]
        exact empty
      · rfl
    · refine ⟨_, rfl, fun j => ?_⟩
      rw [tgetD_tset, if_pos rfl]
      rfl
  obtain ⟨l, start, caches⟩ := start
  unfold State.l2Flush
  dsimp only
  rw [start]
  obtain ⟨cs, e⟩ := counts_quiet (s := { s with mem := memSetAll s.mem (dirtyWhere p (s.l2c id)), l2 := l }) (quiet_congr quiet rfl rfl)
    (fun l => (s.l2c id).attrAt (l * 256)) ((dirtyWhere p (s.l2c id)).map fun w => w.1 / 256).dedup
  exact ⟨cs, l, e, caches⟩

end Sys2Proof.Proofs
end

