-- ==== Sys2Proof/Proofs/CacheBytes.lean ====
section
/-! PROOFS. The bytes of a cache that writes back and drops (R101). -/

namespace Sys2Proof.Proofs

open Sys2Proof Sys2Proof.Machine Sys2Proof.Claims

/-! ## Tables filtered and mapped by key -/

section
variable {α β : Type}

theorem tget_map_value (t : Tbl α) (f : Nat → α → β) (n : Nat) : tget (t.map fun x => (x.1, f x.1 x.2)) n = (tget t n).map (f n) := by
  induction t with
  | nil => rfl
  | cons x r ih =>
    rw [List.map_cons, tget, tget, ih]
    split
    · rename_i h
      rw [h]
      rfl
    · rfl

theorem tget_filter_key (t : Tbl α) (q : Nat → Bool) (n : Nat) : tget (t.filter fun x => q x.1) n = if q n then tget t n else none := by
  induction t with
  | nil => simp
  | cons x r ih =>
    by_cases hx : q x.1
    · rw [List.filter_cons_of_pos (by exact hx), tget, ih, tget]
      by_cases hn : n = x.1
      · rw [if_pos hn, if_pos hn, hn, if_pos hx]
      · rw [if_neg hn, if_neg hn]
    · rw [List.filter_cons_of_neg (by exact hx), ih, tget]
      by_cases hn : n = x.1
      · rw [hn, if_neg hx, if_neg hx]
      · rw [if_neg hn]

theorem mem_of_tget {t : Tbl α} {n : Nat} {x : α} (h : tget t n = some x) : (n, x) ∈ t := by
  induction t with
  | nil => cases h
  | cons y r ih =>
    rw [tget] at h
    split at h
    · rename_i hn
      obtain rfl := Option.some.inj h
      rw [hn]
      exact List.mem_cons_self
    · exact List.mem_cons_of_mem y (ih h)

/-- In a table in order, a value that passes a test is read as before. -/
theorem tget_filter_value {t : Tbl α} (sorted : tsorted t = true) (q : Nat × α → Bool) (n : Nat) :
    tget (t.filter q) n = (tget t n).filter fun x => q (n, x) := by
  cases h : tget (t.filter q) n with
  | some x =>
    obtain ⟨listed, passes⟩ := List.mem_filter.mp (mem_of_tget h)
    rw [tget_of_mem sorted listed, Option.filter_some, if_pos passes]
  | none =>
    cases h' : tget t n with
    | none => rfl
    | some x =>
      rw [Option.filter_some]
      split
      · rename_i passes
        have kept := tget_of_mem (tsorted_filter t q sorted) (List.mem_filter.mpr ⟨mem_of_tget h', passes⟩)
        rw [h] at kept
        cases kept
      · rfl

theorem tsorted_map_value {t : Tbl α} (f : Nat → α → β) (sorted : tsorted t = true) :
    tsorted (t.map fun x => (x.1, f x.1 x.2)) = true := by
  induction t with
  | nil => rfl
  | cons x r ih =>
    refine tsorted_cons (fun y hy => ?_) (ih (tsorted_tail sorted))
    obtain ⟨z, hz, rfl⟩ := List.mem_map.mp hy
    exact tsorted_head sorted z hz

end

/-! ## Bytes dropped -/

theorem Cache.byte_eq (c : Cache) (a : Nat) : c.byte a = (tget c.sectors (a / 64)).bind fun x => tget x.bytes (a % 64) := by
  unfold Cache.byte
  split <;> simp_all

/-- A sector without its bytes at some addresses. -/
def dropSector (p : Nat → Bool) (k : Nat) (x : Sector) : Sector :=
  let bs := x.bytes.filter fun b => !p (64 * k + b.1)
  { filled := x.filled && bs.length == x.bytes.length, bytes := bs }

theorem sectors_dropWhere (p : Nat → Bool) (c : Cache) :
    (dropWhere p c).sectors = (c.sectors.map fun x => (x.1, dropSector p x.1 x.2)).filter fun x => x.2.bytes != [] := rfl

theorem tget_dropSector (p : Nat → Bool) (k : Nat) (x : Sector) (o : Nat) :
    tget (dropSector p k x).bytes o = if p (64 * k + o) then none else tget x.bytes o := by
  rw [dropSector, tget_filter_key x.bytes (fun o => !p (64 * k + o)) o]
  cases p (64 * k + o) <;> rfl

/-- No dropped byte is left. -/
theorem byte_dropWhere_of_dropped {p : Nat → Bool} {a : Nat} (dropped : p a = true) (c : Cache) : (dropWhere p c).byte a = none := by
  rw [Cache.byte_eq, sectors_dropWhere]
  cases h : tget ((c.sectors.map fun x => (x.1, dropSector p x.1 x.2)).filter fun x => x.2.bytes != []) (a / 64) with
  | none => rfl
  | some y =>
    obtain ⟨x, -, e⟩ := List.mem_map.mp (List.mem_filter.mp (mem_of_tget h)).1
    obtain ⟨hk, rfl⟩ := Prod.mk.inj e
    rw [Option.bind_some, tget_dropSector, hk, show 64 * (a / 64) + a % 64 = a by omega, if_pos dropped]

/-- In a cache in order, every other byte stays. -/
theorem byte_dropWhere {c : Cache} (order : tidy c) (p : Nat → Bool) (a : Nat) :
    (dropWhere p c).byte a = if p a then none else c.byte a := by
  split
  · exact byte_dropWhere_of_dropped ‹_› c
  · rename_i kept
    have here : p (64 * (a / 64) + a % 64) = false := by rw [show 64 * (a / 64) + a % 64 = a by omega]; simpa using kept
    rw [Cache.byte_eq, Cache.byte_eq, sectors_dropWhere, tget_filter_value (tsorted_map_value (dropSector p) order.1),
      tget_map_value c.sectors (dropSector p)]
    cases tget c.sectors (a / 64) with
    | none => rfl
    | some x =>
      have same : tget (dropSector p (a / 64) x).bytes (a % 64) = tget x.bytes (a % 64) := by
        rw [tget_dropSector, here]
        rfl
      rw [Option.map_some, Option.filter_some, Option.bind_some, ← same]
      split
      · rfl
      · rename_i empty
        have none : (dropSector p (a / 64) x).bytes = [] := by simpa using empty
        rw [none]
        rfl

theorem tidy_dropWhere {c : Cache} (order : tidy c) (p : Nat → Bool) : tidy (dropWhere p c) := by
  refine ⟨tsorted_filter _ _ (tsorted_map_value (dropSector p) order.1), fun y hy => ?_⟩
  obtain ⟨x, hx, rfl⟩ := List.mem_map.mp (List.mem_filter.mp hy).1
  obtain ⟨rising, within⟩ := order.2 x hx
  exact ⟨tsorted_filter _ _ rising, fun b hb => within b (List.mem_filter.mp hb).1⟩

/-! ## Bytes written back -/

theorem dirtyByte_eq (c : Cache) (a : Nat) : c.dirtyByte a = (c.byte a).bind fun b => if b.dirty then some b.val else none := by
  unfold Cache.dirtyByte
  split <;> simp_all

/-- The bytes that a cache in order writes back are its dirty ones. -/
theorem mem_dirtyWhere {c : Cache} (order : tidy c) (p : Nat → Bool) (a : Nat) (v : Byte) :
    (a, v) ∈ dirtyWhere p c ↔ p a = true ∧ c.dirtyByte a = some v := by
  simp only [dirtyWhere, List.mem_flatMap, List.mem_map, List.mem_filter, Bool.and_eq_true, Prod.mk.injEq, dirtyByte_eq, Cache.byte_eq]
  constructor
  · rintro ⟨⟨k, x⟩, hx, ⟨o, b⟩, ⟨hb, dirty, here⟩, rfl, rfl⟩
    obtain ⟨rising, within⟩ := order.2 _ hx
    have small : o < 64 := within _ hb
    have hk : (64 * k + o) / 64 = k := by omega
    have ho : (64 * k + o) % 64 = o := by omega
    refine ⟨here, ?_⟩
    rw [hk, tget_of_mem order.1 hx, Option.bind_some, ho, tget_of_mem rising hb, Option.bind_some, if_pos dirty]
  · rintro ⟨here, h⟩
    obtain ⟨b, hb, h⟩ := Option.bind_eq_some_iff.mp h
    obtain ⟨x, hx, hb⟩ := Option.bind_eq_some_iff.mp hb
    split at h
    · rename_i dirty
      obtain rfl := Option.some.inj h
      have at_ : 64 * (a / 64) + a % 64 = a := by omega
      exact ⟨_, mem_of_tget hx, _, ⟨mem_of_tget hb, dirty, by rw [at_]; exact here⟩, at_, rfl⟩
    · cases h

/-- Memory after writes of which each address gets one value. -/
theorem memGet_memSetAll_of_iff {ws : List (Nat × Byte)} {g : Nat → Option Byte} (h : ∀ a v, (a, v) ∈ ws ↔ g a = some v)
    (m : List Host.Cell) (a : Nat) : memGet (memSetAll m ws) a = (g a).getD (memGet m a) := by
  rw [memGet_memSetAll]
  cases found : ws.reverse.find? fun w => w.1 = a with
  | some w =>
    have key : w.1 = a := by simpa using List.find?_some found
    have listed : (a, w.2) ∈ ws := key ▸ List.mem_reverse.mp (List.mem_of_find?_eq_some found)
    rw [(h a w.2).mp listed]
    rfl
  | none =>
    cases hg : g a with
    | none => rfl
    | some v =>
      have absent := List.find?_eq_none.mp found (a, v) (List.mem_reverse.mpr ((h a v).mpr hg))
      simp at absent

/-- Memory after a cache in order has written back. -/
theorem memGet_writeBack {c : Cache} (order : tidy c) (p : Nat → Bool) (m : List Host.Cell) (a : Nat) :
    memGet (memSetAll m (dirtyWhere p c)) a = if p a then (c.dirtyByte a).getD (memGet m a) else memGet m a := by
  have written (a : Nat) (v : Byte) : (a, v) ∈ dirtyWhere p c ↔ (if p a then c.dirtyByte a else none) = some v := by
    rw [mem_dirtyWhere order]
    cases p a <;> simp
  rw [memGet_memSetAll_of_iff written]
  split <;> rfl

/-! ## What anyone reads, where no page moves -/

theorem byteAt_unmoved {s : State} (unmoved : s.fwds = []) (a : Nat) :
    s.byteAt a = ([0, 1, 2].findSome? fun id => (s.l2c id).dirtyByte a).getD (memGet s.mem a) := by
  have home : s.fwdAt a = none := by rw [State.fwdAt, unmoved]; rfl
  have same : s.homeAddr a = a := by rw [State.homeAddr, home]
  have byte : s.homeByte a = memGet s.mem a := by rw [State.homeByte, home]
  rw [State.byteAt, State.cohByte, same, byte]
  cases [0, 1, 2].findSome? fun id => (s.l2c id).dirtyByte a <;> rfl

/-- The dirty copy of a byte, of which there is one, is what anyone reads. -/
theorem byteAt_of_dirty {s : State} (unmoved : s.fwds = []) (caches : cachesOk s) {id a : Nat} {v : Byte} (small : id < 3)
    (dirty : (s.l2c id).dirtyByte a = some v) : s.byteAt a = v := by
  rw [byteAt_unmoved unmoved]
  have only (j : Nat) (w : Byte) (hj : j < 3) (h : (s.l2c j).dirtyByte a = some w) : w = v := by
    obtain rfl := caches.2.2 a j id w v hj small h dirty
    exact Option.some.inj (h.symm.trans dirty)
  cases found : [0, 1, 2].findSome? fun id => (s.l2c id).dirtyByte a with
  | some w =>
    obtain ⟨j, hj, h⟩ := List.exists_of_findSome?_eq_some found
    exact only j w (by simp at hj; omega) h
  | none =>
    have absent := List.findSome?_eq_none_iff.mp found id (by simp; omega)
    rw [dirty] at absent
    cases absent

theorem byteAt_of_clean {s : State} (unmoved : s.fwds = []) {a : Nat} (clean : ∀ id, id < 3 → (s.l2c id).dirtyByte a = none) :
    s.byteAt a = memGet s.mem a := by
  rw [byteAt_unmoved unmoved, List.findSome?_eq_none_iff.mpr fun id h => clean id (by simp at h; omega)]
  rfl

theorem quiet_l2Flush {s : State} (quiet : Quiet s) (id : Nat) (p : Nat → Bool) : Quiet (s.l2Flush id p true) := by
  obtain ⟨cs, l, e, -⟩ := l2Flush_quiet quiet id p
  rw [e]
  exact quiet_congr quiet rfl rfl

/-- A FLUSH OF AN L2 leaves every byte as anyone reads it, and the caches in order. -/
theorem l2Flush_keeps {s : State} (quiet : Quiet s) (caches : cachesOk s) {id : Nat} (small : id < 3) (p : Nat → Bool) :
    cachesOk (s.l2Flush id p true) ∧ ∀ a, (s.l2Flush id p true).byteAt a = s.byteAt a := by
  obtain ⟨cs, l, e, held⟩ := l2Flush_quiet quiet id p
  have cache (j : Nat) : (s.l2Flush id p true).l2c j = if j = id then dropWhere p (s.l2c id) else s.l2c j := by
    rw [e]
    exact held j
  have dirty (j a : Nat) : ((s.l2Flush id p true).l2c j).dirtyByte a = if j = id ∧ p a = true then none else (s.l2c j).dirtyByte a := by
    rw [cache]
    by_cases hj : j = id
    · rw [if_pos hj, dirtyByte_eq, byte_dropWhere (caches.1 id).2, dirtyByte_eq, hj]
      cases p a <;> simp
    · rw [if_neg hj, if_neg fun h => hj h.1]
  constructor
  · refine ⟨fun k => ⟨?_, ?_⟩, fun c hc => ?_, fun a i j b c hi hj h h' => ?_⟩
    · rw [e]
      exact (caches.1 k).1
    · rw [cache]
      split
      · exact tidy_dropWhere (caches.1 id).2 p
      · exact (caches.1 k).2
    · rw [e]
      exact caches.2.1 c hc
    · rw [dirty] at h h'
      split at h
      · cases h
      · split at h'
        · cases h'
        · exact caches.2.2 a i j b c hi hj h h'
  · intro a
    have unmoved : (s.l2Flush id p true).fwds = [] := by rw [e]; exact quiet.1
    have memory : memGet (s.l2Flush id p true).mem a = if p a then ((s.l2c id).dirtyByte a).getD (memGet s.mem a) else memGet s.mem a := by
      rw [e]
      exact memGet_writeBack (caches.1 id).2 p s.mem a
    by_cases gone : p a = true ∧ ∃ v, (s.l2c id).dirtyByte a = some v
    · obtain ⟨here, v, hv⟩ := gone
      rw [byteAt_of_dirty quiet.1 caches small hv, byteAt_of_clean unmoved, memory, if_pos here, hv]
      · rfl
      · intro j hj
        rw [dirty]
        split
        · rfl
        · rename_i other
          cases h : (s.l2c j).dirtyByte a with
          | none => rfl
          | some w => exact absurd ⟨caches.2.2 a j id w v hj small h hv, here⟩ other
    · have clean : p a = true → (s.l2c id).dirtyByte a = none := fun here =>
        Option.eq_none_iff_forall_ne_some.mpr fun v hv => gone ⟨here, v, hv⟩
      rw [byteAt_unmoved unmoved, byteAt_unmoved quiet.1, memory]
      congr 1
      · have same (j : Nat) : ((s.l2Flush id p true).l2c j).dirtyByte a = (s.l2c j).dirtyByte a := by
          rw [dirty]
          split
          · rename_i h
            rw [h.1, clean h.2]
          · rfl
        simp only [same]
      · split
        · rename_i here
          rw [clean here]
          rfl
        · rfl

end Sys2Proof.Proofs
end

