-- ==== Sys2Proof/Proofs/FirstLevelWriteBacks.lean ====
section
/-! PROOFS. What first-level caches that write back can change (R102): where no page moves, no write of theirs waits, and nothing changes
but the memory side of the machine and reservations. -/

namespace Sys2Proof.Proofs

open Sys2Proof Sys2Proof.Machine Sys2Proof.Claims

/-- Nothing changes but memory, caches, counters, poison and the warps' and endpoints' reservations. -/
def MemorySide (s t : State) : Prop :=
  ∃ m c1 c2 cs ws fr po, t = { s with mem := m, l1 := c1, l2 := c2, counters := cs, warps := ws, fabResv := fr, poison := po }

theorem MemorySide.refl (s : State) : MemorySide s s := ⟨_, _, _, _, _, _, _, rfl⟩

theorem MemorySide.trans {s t u : State} (h : MemorySide s t) (h' : MemorySide t u) : MemorySide s u := by
  obtain ⟨_, _, _, _, _, _, _, rfl⟩ := h
  obtain ⟨_, _, _, _, _, _, _, rfl⟩ := h'
  exact ⟨_, _, _, _, _, _, _, rfl⟩

theorem MemorySide.quiet {s t : State} (h : MemorySide s t) (quiet : Quiet s) : Quiet t := by
  obtain ⟨_, _, _, _, _, _, _, rfl⟩ := h
  exact quiet_congr quiet rfl rfl

/-- Steps of which each changes the memory side do so together. -/
theorem memorySide_foldl {α : Type} {f : State → α → State} {s : State} (quiet : Quiet s)
    (step : ∀ u x, Quiet u → MemorySide u (f u x)) (xs : List α) : MemorySide s (xs.foldl f s) := by
  induction xs generalizing s with
  | nil => exact .refl s
  | cons x xs ih => exact (step s x quiet).trans (ih ((step s x quiet).quiet quiet))

theorem memorySide_count {s : State} (quiet : Quiet s) (attr : Option Xlat) (pa n : Nat) : MemorySide s (s.count attr pa n) := by
  obtain ⟨_, e⟩ := count_quiet quiet attr pa n
  rw [e]
  exact ⟨_, _, _, _, _, _, _, rfl⟩

/-- Caches give up a line. -/
theorem memorySide_yieldLine {s : State} (quiet : Quiet s) (ids : List Nat) (line : Nat) : MemorySide s (s.yieldLine ids line) := by
  refine memorySide_foldl quiet (fun u id quiet => ?_) ids
  have start : MemorySide u ({ u with mem := memSetAll u.mem (dirtyWhere (fun a => a / 256 == line) (u.l2c id)) }.setL2 id
      (dropWhere (fun a => a / 256 == line) (u.l2c id))) := ⟨_, _, _, _, _, _, _, rfl⟩
  dsimp only
  split
  · exact start
  · exact start.trans (memorySide_count (start.quiet quiet) ..)

/-- Where no page moves, a write at its home is performed. -/
theorem homeWrite_quiet {s : State} (quiet : Quiet s) (ws : List (Nat × Byte)) : ∃ t, s.homeWrite ws = some t ∧ MemorySide s t := by
  cases ws with
  | nil => exact ⟨s, rfl, .refl s⟩
  | cons w ws =>
    have home : s.fwdAt w.1 = none := by rw [State.fwdAt, quiet.1]; rfl
    refine ⟨{ s with mem := memSetAll s.mem (w :: ws) }.written (w :: ws), ?_, _, _, _, _, _, _, _, rfl⟩
    simp only [State.homeWrite, home]

/-- Where no page moves, a write at an L2 is performed. -/
theorem l2Write_quiet {s : State} (quiet : Quiet s) (id : Nat) (attr : Option Xlat) (ws : List (Nat × Byte)) :
    ∃ t, s.l2Write id attr ws = some t ∧ MemorySide s t := by
  cases ws with
  | nil => exact ⟨s, rfl, .refl s⟩
  | cons w ws =>
    have yields := memorySide_foldl quiet (f := fun s l => s.invalidateOthers id l) (fun u l quiet => memorySide_yieldLine quiet _ l)
      (((w :: ws).map fun w => s.homeAddr w.1 / 256).dedup)
    simp only [State.l2Write]
    generalize (((w :: ws).map fun w => s.homeAddr w.1 / 256).dedup).foldl (fun s l => s.invalidateOthers id l) s = u at yields ⊢
    have quiet' := yields.quiet quiet
    have still : u.moving w.1 = false := by rw [State.moving, State.fwdAt, quiet'.1]; rfl
    rw [still, if_neg Bool.false_ne_true]
    cases u.l2Place id (u.homeAddr w.1 / 256) attr with
    | some c =>
      refine ⟨_, rfl, yields.trans ?_⟩
      exact ⟨_, _, _, _, _, _, _, rfl⟩
    | none =>
      obtain ⟨t, e, through⟩ := homeWrite_quiet quiet' (w :: ws)
      refine ⟨t.count attr w.1 1, ?_, yields.trans (through.trans (memorySide_count (through.quiet quiet') ..))⟩
      simp only [Option.map_none, e, Option.map_some]

theorem memorySide_taint (s : State) (as : List Nat) : MemorySide s (s.taint as) := by
  unfold State.taint
  split
  · exact .refl s
  · exact ⟨_, _, _, _, _, _, _, rfl⟩

theorem l1WriteBackSector_quiet {s : State} (quiet : Quiet s) (core : Nat) (p : Nat → Bool) (sec : Nat) :
    ∃ t, s.l1WriteBackSector core p sec = some t ∧ MemorySide s t := by
  obtain ⟨u, e, writes⟩ := l2Write_quiet quiet (dieOf core) ((s.l1c core).attrAt (sec * 64))
    (dirtyWhere (fun a => p a && sectorOf a == sec) (s.l1c core))
  simp only [State.l1WriteBackSector, e]
  have tainted := memorySide_taint u ((badWhere (fun a => p a && sectorOf a == sec) (s.l1c core)).map u.homeAddr)
  exact ⟨_, rfl, writes.trans (tainted.trans ⟨_, _, _, _, _, _, _, rfl⟩)⟩

/-- Steps of which none waits are all made. -/
theorem tryAll_quiet {α : Type} {f : State → α → Option State} {s : State} (quiet : Quiet s)
    (step : ∀ u x, Quiet u → ∃ t, f u x = some t ∧ MemorySide u t) (xs : List α) : ∃ t, tryAll f s xs = some t ∧ MemorySide s t := by
  induction xs generalizing s with
  | nil => exact ⟨s, rfl, .refl s⟩
  | cons x xs ih =>
    obtain ⟨u, e, first⟩ := step s x quiet
    obtain ⟨t, e', others⟩ := ih (first.quiet quiet)
    refine ⟨t, ?_, first.trans others⟩
    rw [tryAll, List.foldl_cons, Option.bind_some, e]
    exact e'

theorem l1WriteBack_quiet {s : State} (quiet : Quiet s) (core : Nat) (p : Nat → Bool) : ∃ t, s.l1WriteBack core p = some t ∧ MemorySide s t :=
  tryAll_quiet quiet (fun _ _ quiet => l1WriteBackSector_quiet quiet core p _) _

theorem stalls_unmoved {s : State} (unmoved : s.fwds = []) (core : Nat) (p : Nat → Bool) : s.stalls core p = false := by
  rw [State.stalls, unmoved]
  rfl

/-- Where no page moves, every L1 writes back. -/
theorem l1WriteBackAll_quiet {s : State} (quiet : Quiet s) (p : Nat → Bool) : ∃ t, s.l1WriteBackAll p = some t ∧ MemorySide s t := by
  obtain ⟨t, e, writes⟩ := tryAll_quiet quiet (f := fun s c => s.l1WriteBack c p) (fun _ c quiet => l1WriteBack_quiet quiet c p) s.l1Cores
  refine ⟨t, ?_, writes⟩
  simp [State.l1WriteBackAll, e, stalls_unmoved (writes.quiet quiet).1]

/-- Where no page moves, an L1 sends its dirty bytes off. -/
theorem memorySide_l1Push {s : State} (quiet : Quiet s) (core : Nat) (p : Nat → Bool) : MemorySide s (s.l1Push core p) := by
  refine memorySide_foldl quiet (fun u sec quiet => ?_) _
  obtain ⟨t, e, writes⟩ := l1WriteBackSector_quiet quiet core p sec
  simpa only [State.l1PushSector, e] using writes

/-! ## An L1 without dirty bytes -/

/-- A cache without dirty bytes has none to write back. -/
theorem dirtySectors_of_clean {c : Cache} (order : tidy c) (clean : ∀ a, c.dirtyByte a = none) (p : Nat → Bool) : dirtySectors p c = [] := by
  have none : dirtyWhere p c = [] := List.eq_nil_iff_forall_not_mem.mpr fun w hw => by
    have dirty := ((mem_dirtyWhere order p w.1 w.2).mp hw).2
    rw [clean] at dirty
    cases dirty
  rw [dirtySectors, none]
  rfl

theorem l1WriteBack_of_clean {s : State} {core : Nat} (order : tidy (s.l1c core)) (clean : noDirty s core) (p : Nat → Bool) :
    s.l1WriteBack core p = some s := by
  rw [State.l1WriteBack, dirtySectors_of_clean order clean]
  rfl

theorem l1WriteBackAll_of_clean {s : State} (unmoved : s.fwds = []) (caches : cachesOk s) (clean : ∀ c, noDirty s c) (p : Nat → Bool) :
    s.l1WriteBackAll p = some s := by
  have still : tryAll (fun s c => s.l1WriteBack c p) s s.l1Cores = some s := by
    refine List.foldlRecOn (motive := fun o => o = some s) _ _ rfl fun o e c _ => ?_
    rw [e, Option.bind_some]
    exact l1WriteBack_of_clean (caches.1 c).1 (clean c) p
  simp [State.l1WriteBackAll, still, stalls_unmoved unmoved]

theorem l1Push_of_clean {s : State} {core : Nat} (order : tidy (s.l1c core)) (clean : noDirty s core) (p : Nat → Bool) :
    s.l1Push core p = s := by
  rw [State.l1Push, dirtySectors_of_clean order clean]
  rfl

end Sys2Proof.Proofs
end

