-- ==== Sys2Proof/Proofs/SchedulerWindows.lean ====
section
/-! PROOFS. O50: the windows of the scheduler and of Stuffsack, one lemma for each kind of access. -/

namespace Sys2Proof.Proofs

open Sys2Proof Sys2Proof.Machine Sys2Proof.Claims

theorem ofTenant_eq (s : State) {k : Nat} (h : k < 16) (f : State → State) : s.ofTenant k f = f s := if_pos h

theorem wbits_low (v : Word) (n : Nat) : wbits v 0 n = v.toNat % 2 ^ n := by
  rw [wbits, Nat.pow_zero, Nat.div_one]

/-- A change of one tenant's registers is a change of that tenant and nothing else. -/
theorem onlyTenant_modTenant (s : State) (k : Nat) (f : Tenant → Tenant) : OnlyTenant s (s.modTenant k f) k f :=
  ⟨fun j => modTenant_tenant s k j f, rfl⟩

theorem sameMemory_of_eq {s t : State} (fwds : t.fwds = s.fwds) (mem : t.mem = s.mem) (l2 : t.l2 = s.l2) (l1 : t.l1 = s.l1) : SameMemory s t :=
  ⟨byteAt_congr fwds mem l2, l1⟩

/-! ## Posting (R67, R68, R40) -/

theorem retarget_liven (s : State) (tn addr : Nat) : ((s.liven tn addr).retarget tn addr).isSome = true := by
  unfold State.liven
  split
  · rename_i absent
    simp only [Option.isNone_iff_eq_none] at absent
    rw [State.retarget] at absent ⊢
    rw [List.find?_append, absent]
    simp
  · rename_i present
    simpa [Option.isSome_iff_ne_none] using present

theorem retargets_liven (s : State) (tn addr : Nat) : Livened s (s.liven tn addr) tn addr := by
  unfold State.liven
  split
  · rename_i none
    exact .inr ⟨Option.isNone_iff_eq_none.mp none, rfl⟩
  · exact .inl rfl

theorem liven_eq (s : State) (tn addr : Nat) : ∃ rs, s.liven tn addr = { s with retargets := rs } := by
  unfold State.liven
  split <;> exact ⟨_, rfl⟩

/-- After a post a reorder target is live, and of the rest only the queue has changed. -/
theorem posted_live {s u : State} {k : Nat} {f : Tenant → Tenant} (only : OnlyTenant s u k f) (targets : u.retargets = s.retargets) (addr : Nat) :
    let t := if s.targetRecord k addr then u.liven k addr else u
    Livened s t k addr ∧ (s.targetRecord k addr = true → (t.retarget k addr).isSome = true) ∧ OnlyTenant s { t with retargets := s.retargets } k f := by
  have same : u.retarget k addr = s.retarget k addr := by rw [State.retarget, State.retarget, targets]
  intro t
  by_cases target : s.targetRecord k addr = true
  · have live : t = u.liven k addr := if_pos target
    obtain ⟨rs, e⟩ := liven_eq u k addr
    have livened := retargets_liven u k addr
    rw [Livened, same, targets] at livened
    obtain ⟨tenants, rest⟩ := only
    rw [live]
    refine ⟨livened, fun _ => retarget_liven .., ?_⟩
    rw [e]
    exact ⟨tenants, by rw [rest]⟩
  · have plain : t = u := if_neg target
    rw [plain, ← targets]
    exact ⟨.inl targets, fun h => absurd h target, only⟩

theorem post_of_room {s : State} {k q : Nat} (awake : s.power.pstate = 0) {p : Post} (room : (tgetD (s.tenant k).queues q []).length < 256) :
    let u := s.modTenant k fun T => { T with queues := tset T.queues q (tgetD (s.tenant k).queues q [] ++ [p]) }
    s.post k q p = (if s.targetRecord k p.ptr then u.liven k p.ptr else u, true) := by
  have stays : s.wake = s := if_pos (.inl awake)
  rw [State.post, stays]
  exact if_neg (Nat.not_le.mpr room)

theorem post_of_full {s : State} {k q : Nat} (p : Post) (full : 256 ≤ (tgetD (s.tenant k).queues q []).length) : s.post k q p = (s, false) := by
  rw [State.post]
  exact if_pos full

theorem postWindow_register (s : State) (k : Nat) {q : Nat} (hq : q < 16) (v : Word) : s.postWindow k (8 * q) 8 v =
    let r := s.post k q { ptr := v.toNat, poster := k, high := false, window := some q }
    if r.2 then r.1
    else s.modTenant k fun T => { T with fullCounts := tset T.fullCounts q (min (2 ^ 64 - 1) (tgetD T.fullCounts q 0 + 1)) } := by
  have number : 8 * q / 8 = q := by omega
  rw [State.postWindow, if_pos ⟨rfl, by omega, by omega⟩, number]
  rfl

theorem postingStores (s : State) {k q : Nat} (hk : k < 16) (hq : q < 16) (v : Word) (awake : s.power.pstate = 0) :
    let es := tgetD (s.tenant k).queues q []
    (es.length < 256 → ∃ t, exec (.postingWindowStore k (8 * q) 8 v) s = .next t ∧ Livened s t k v.toNat ∧
      (s.targetRecord k v.toNat = true → (t.retarget k v.toNat).isSome = true) ∧ OnlyTenant s { t with retargets := s.retargets } k fun T =>
      { T with queues := tset T.queues q (es ++ [{ ptr := v.toNat, poster := k, high := false, window := some q }]) }) ∧
    (256 ≤ es.length → ∃ t, exec (.postingWindowStore k (8 * q) 8 v) s = .next t ∧ OnlyTenant s t k fun T =>
      { T with fullCounts := tset T.fullCounts q (min (2 ^ 64 - 1) (tgetD T.fullCounts q 0 + 1)) }) := by
  intro es
  have ran : exec (.postingWindowStore k (8 * q) 8 v) s = .next (s.postWindow k (8 * q) 8 v) := by
    show Host.Outcome.next (s.ofTenant k fun s => s.postWindow k (8 * q) 8 v) = _
    rw [ofTenant_eq s hk]
  rw [ran, postWindow_register s k hq]
  constructor
  · intro room
    rw [post_of_room awake room]
    exact ⟨_, rfl, posted_live (onlyTenant_modTenant s k _) rfl v.toNat⟩
  · intro full
    rw [post_of_full _ full]
    dsimp only
    rw [if_neg Bool.false_ne_true]
    exact ⟨_, rfl, onlyTenant_modTenant s k _⟩

theorem fullCountReads (s : State) {k q : Nat} (hk : k < 16) (hq : q < 16) :
    ∃ t, exec (.postingFullCountRead k q) s = .next t ∧ t.readout = BitVec.ofNat 64 (tgetD (s.tenant k).fullCounts q 0) ∧
      OnlyTenant s { t with readout := s.readout } k fun T => { T with fullCounts := tset T.fullCounts q 0 } := by
  refine ⟨{ s.modTenant k (fun T => { T with fullCounts := tset T.fullCounts q 0 }) with
    readout := BitVec.ofNat 64 (tgetD (s.tenant k).fullCounts q 0) }, ?_, rfl,
    onlyTenant_modTenant s k fun T => { T with fullCounts := tset T.fullCounts q 0 }⟩
  show Host.Outcome.next (s.ofTenant k _) = _
  rw [ofTenant_eq s hk, if_pos hq]
  rfl

/-! ## Suspension, resumption, core ownership (R81, R83, R85) -/

theorem tenantSuspends (s : State) {k : Nat} (hk : k < 16) (sorted : tsorted s.blocks = true) :
    ∃ t, exec (.tenantSuspend k) s = .next t ∧ (t.tenant k).suspend = true ∧ SameMemory s t ∧ t.warps = s.warps ∧ t.cores = s.cores ∧
      ∀ b, (t.block b).state = (s.block b).state ∨ ((s.block b).state = .resident ∧ (t.block b).state = .saving) := by
  have ran : exec (.tenantSuspend k) s = .next (s.suspendTenant k) := by
    show Host.Outcome.next (s.ofTenant k _) = _
    rw [ofTenant_eq s hk]
  have preempts := preempts_preemptWhere (s.modTenant k fun T => { T with suspend := true }) fun b => s.blockTenant b == k
  have marked : ((s.modTenant k fun T => { T with suspend := true }).tenant k).suspend = true := by rw [State.tenant_modTenant]
  refine ⟨_, ran, ?_⟩
  rw [State.suspendTenant]
  obtain ⟨full, tenant⟩ := preempts.tenants k
  have states := preempts.states sorted
  obtain ⟨_, _, _, rest⟩ := preempts.rest
  exact ⟨by rw [tenant]; exact marked, by rw [rest]; exact sameMemory_of_eq rfl rfl rfl rfl, by rw [rest]; rfl, by rw [rest]; rfl, states⟩

theorem settleSlices_of_none {s : State} (none : s.retiringSlices = []) : s.settleSlices = s := by
  rw [State.settleSlices, none]
  rfl

theorem tenantResumes (s : State) {k : Nat} (hk : k < 16) : ∃ t, exec (.tenantResume k) s = .next t ∧ (t.tenant k).suspend = false ∧
    (s.retiringSlices = [] → OnlyTenant s t k fun T => { T with suspend := false }) := by
  have ran : exec (.tenantResume k) s = .next (s.settleSlices.modTenant k fun T => { T with suspend := false }) := by
    show Host.Outcome.next (s.ofTenant k _) = _
    rw [ofTenant_eq s hk]
    rfl
  refine ⟨_, ran, by rw [State.tenant_modTenant], fun none => ?_⟩
  rw [settleSlices_of_none none]
  exact onlyTenant_modTenant s k _

theorem modCore_core (s : State) (n m : Nat) (f : Core → Core) : (s.modCore n f).core m = if m = n then f (s.core n) else s.core m := by
  by_cases h : m = n
  · rw [if_pos h, h, State.core_modCore]
  · rw [if_neg h, State.core_modCore_other s f h]

theorem coreownWrites (s : State) {c : Nat} (hc : c < 1024) (v : Word) :
    (v.toNat % 32 ≤ 16 → ∃ t, exec (.coreownWrite c v) s = .next t ∧ SameMemory s t ∧ t.warps = s.warps ∧
      ∀ d, t.core d = if d = c then { s.core c with owner := v.toNat % 32 } else s.core d) ∧
    (16 < v.toNat % 32 → exec (.coreownWrite c v) s = .next s) := by
  have ran : exec (.coreownWrite c v) s = .next (s.writeCoreown c v) := by
    show Host.Outcome.next (if c < 1024 then _ else _) = _
    rw [if_pos hc]
  have low : wbits v 0 5 = v.toNat % 32 := wbits_low v 5
  rw [ran]
  simp only [State.writeCoreown, low]
  constructor
  · intro valid
    rw [if_neg (Nat.not_lt.mpr valid)]
    refine ⟨_, rfl, ?_⟩
    split
    · exact ⟨sameMemory_of_eq rfl rfl rfl rfl, rfl, fun d => modCore_core ..⟩
    · obtain ⟨_, _, _, rest⟩ := (preempts_preemptWhere (s.modCore c fun x => { x with owner := v.toNat % 32 })
        fun b => b.core == c && (s.modCore c fun x => { x with owner := v.toNat % 32 }).blockTenant b != v.toNat % 32).rest
      rw [rest]
      exact ⟨sameMemory_of_eq rfl rfl rfl rfl, rfl, fun d => modCore_core s c d fun x => { x with owner := v.toNat % 32 }⟩
  · intro reserved
    rw [if_pos reserved]

/-! ## Ways and places (R81, R82) -/

theorem l2wayWrites (s : State) {k : Nat} (hk : k < 16) (v : Word)
    (apart : ∀ p ∈ s.tenants, p.1 ≠ k → p.2.ways0 &&& v.setWidth 16 = 0 ∧ p.2.ways1 &&& (v >>> 16).setWidth 16 = 0) :
    ∃ t, exec (.l2wayWrite k v) s = .next t ∧ OnlyTenant s t k fun T => { T with ways0 := v.setWidth 16, ways1 := (v >>> 16).setWidth 16 } := by
  have low : BitVec.ofNat 16 (wbits v 0 16) = v.setWidth 16 := BitVec.eq_of_toNat_eq (by simp [wbits])
  have high : BitVec.ofNat 16 (wbits v 16 16) = (v >>> 16).setWidth 16 :=
    BitVec.eq_of_toNat_eq (by simp [wbits, Nat.shiftRight_eq_div_pow])
  have none : (s.tenants.any fun p => p.1 != k && (p.2.ways0 &&& v.setWidth 16 != 0 || p.2.ways1 &&& (v >>> 16).setWidth 16 != 0)) = false := by
    rw [List.any_eq_false]
    intro p hp
    by_cases own : p.1 = k
    · simp [own]
    · simp [apart p hp own]
  refine ⟨s.modTenant k fun T => { T with ways0 := v.setWidth 16, ways1 := (v >>> 16).setWidth 16 }, ?_, onlyTenant_modTenant s k _⟩
  show Host.Outcome.next (s.ofTenant k _) = _
  rw [ofTenant_eq s hk]
  simp only [State.writeL2way, low, high, none, Bool.false_eq_true, if_false]

theorem placeTableWrites (s : State) {k : Nat} (hk : k < 16) (i : Nat) (v : BitVec 32) :
    (s.suspended k = true → i < 0x112 → ∃ t, exec (.placeTableWrite k (4 * i) v) s = .next t ∧ OnlyTenant s t k fun T =>
      { T with place := tset T.place i (v &&& 0x800000FF#32) }) ∧
    (s.suspended k = false → ∃ t, exec (.placeTableWrite k (4 * i) v) s = .next t ∧ OnlyTenant s t k fun T => { T with plerr := true }) := by
  have ran : exec (.placeTableWrite k (4 * i) v) s = .next (s.writePlace k (4 * i) v) := by
    show Host.Outcome.next (s.ofTenant k _) = _
    rw [ofTenant_eq s hk]
  rw [ran, State.writePlace]
  constructor
  · intro suspended small
    have slot : 4 * i / 4 = i := by omega
    rw [if_pos suspended, slot, if_pos ⟨small, by omega⟩]
    exact ⟨_, rfl, onlyTenant_modTenant s k _⟩
  · intro running
    rw [if_neg (by rw [running]; exact Bool.false_ne_true)]
    exact ⟨_, rfl, onlyTenant_modTenant s k _⟩

end Sys2Proof.Proofs
end

