-- ==== Sys2Proof/Proofs/Carves.lean ====
section
/-! PROOFS. O50, continued: carves, tenant resets, pool control. -/

namespace Sys2Proof.Proofs

open Sys2Proof Sys2Proof.Machine Sys2Proof.Claims

/-! ## Carves (R92, R93) -/

/-- What a write-back of L2 slices can change. -/
theorem flushSlices_frame (s : State) (d : Nat) (ks : List Nat) :
    ∃ cs rs fs m l, s.flushSlices d ks = { s with counters := cs, rings := rs, fwds := fs, mem := m, l2 := l } := by
  unfold State.flushSlices
  dsimp only
  split
  · exact ⟨_, _, _, _, _, rfl⟩
  · exact l2Flush_frame ..

theorem flushSlices_keeps {s : State} (quiet : Quiet s) (caches : cachesOk s) {d : Nat} (small : d < 3) (ks : List Nat) :
    Quiet (s.flushSlices d ks) ∧ cachesOk (s.flushSlices d ks) ∧ ∀ a, (s.flushSlices d ks).byteAt a = s.byteAt a := by
  unfold State.flushSlices
  dsimp only
  split
  · exact ⟨quiet, caches, fun _ => rfl⟩
  · exact ⟨quiet_l2Flush quiet d _, l2Flush_keeps quiet caches small _⟩

/-- The slices that back a carve, where there are enough. -/
theorem carveSlices_of_enough {s : State} {d u : Nat} {old : List Nat} (enough : 4 * u ≤ old.length + (s.liveSlices d).length) :
    s.carveSlices d u old = some (old.take (4 * u) ++ (s.liveSlices d).take (4 * u - old.length)) := by
  refine if_neg ?_
  rw [List.length_take]
  omega

/-- A sum over tenants that have none of what is summed. -/
theorem others_zero (ts : Tbl Tenant) (k : Nat) (f : Tenant → Nat) (none : ∀ p ∈ ts, p.1 ≠ k → f p.2 = 0) :
    (ts.filter fun p => p.1 != k).foldl (fun n p => n + f p.2) 0 = 0 := by
  refine List.foldlRecOn (motive := fun n => n = 0) _ _ rfl fun n hn p hp => ?_
  obtain ⟨listed, other⟩ := List.mem_filter.mp hp
  rw [hn, none p listed (by simpa using other)]

/-- A tenant with carves of some units, backed by some slices. -/
def carving (u0 u1 : Nat) (n0 n1 : List Nat) (k : Tenant) : Tenant :=
  { k with units0 := u0, units1 := u1, slices0 := n0, slices1 := n1, die0 := cutCarve u0 k.die0, die1 := cutCarve u1 k.die1,
           tags0 := cutTags u0 k.tags0, tags1 := cutTags u1 k.tags1, errs0 := cutErrs u0 k.errs0, errs1 := cutErrs u1 k.errs1 }

/-- A carve within the limits, where no slice is to retire: the slices that it takes are flushed. -/
theorem writeCarve_eq {s : State} {k : Nat} {v : Word} {n0 n1 : List Nat} (suspended : s.suspended k = true)
    (alone : s.tenants.all (fun p => p.1 == k || (p.2.units0 == 0 && p.2.units1 == 0)) = true)
    (small0 : wbits v 0 5 ≤ 16) (small1 : wbits v 8 5 ≤ 16)
    (slices0 : s.carveSlices 0 (wbits v 0 5) (s.tenant k).slices0 = some n0)
    (slices1 : s.carveSlices 1 (wbits v 8 5) (s.tenant k).slices1 = some n1) :
    s.writeCarve k v = (((s.flushSlices 0 (n0.filter fun x => !(s.tenant k).slices0.contains x)).flushSlices 1
      (n1.filter fun x => !(s.tenant k).slices1.contains x)).modTenant k (carving (wbits v 0 5) (wbits v 8 5) n0 n1)).settleSlices := by
  have none (p : Nat × Tenant) (hp : p ∈ s.tenants) (other : p.1 ≠ k) : p.2.units0 = 0 ∧ p.2.units1 = 0 := by
    simpa [other] using List.all_eq_true.mp alone p hp
  have zero0 := others_zero s.tenants k Tenant.units0 fun p hp other => (none p hp other).1
  have zero1 := others_zero s.tenants k Tenant.units1 fun p hp other => (none p hp other).2
  unfold State.writeCarve
  dsimp only
  rw [if_neg, slices0, slices1]
  · rfl
  · rintro (h | h | h | h | h)
    · exact absurd (suspended.symm.trans h) (by decide)
    · omega
    · omega
    · rw [zero0] at h
      omega
    · rw [zero1] at h
      omega

theorem dscarveWrites (s : State) {k : Nat} (hk : k < 16) (v : Word) :
    let T := s.tenant k
    (s.suspended k = false → exec (.dscarveWrite k v) s = .next s) ∧
    (s.suspended k = true → s.tenants.all (fun p => p.1 == k || (p.2.units0 == 0 && p.2.units1 == 0)) = true →
      s.retiringSlices = [] → let u0 := v.toNat % 32
      let u1 := v.toNat / 256 % 32
      let backed (d u : Nat) (old : List Nat) : List Nat := old.take (4 * u) ++ (s.liveSlices d).take (4 * u - old.length)
      u0 ≤ 16 → u1 ≤ 16 → 4 * u0 ≤ T.slices0.length + (s.liveSlices 0).length → 4 * u1 ≤ T.slices1.length + (s.liveSlices 1).length →
      ∃ t, exec (.dscarveWrite k v) s = .next t ∧ (t.tenant k).units0 = u0 ∧ (t.tenant k).units1 = u1 ∧
        (t.tenant k).slices0 = backed 0 u0 T.slices0 ∧ (t.tenant k).slices1 = backed 1 u1 T.slices1 ∧
        (∀ j, j ≠ k → t.tenant j = s.tenant j) ∧ t.warps = s.warps ∧ (cachesOk s → Quiet s → ∀ p, t.byteAt p = s.byteAt p)) := by
  intro T
  have ran : exec (.dscarveWrite k v) s = .next (s.writeCarve k v) := by
    show Host.Outcome.next (s.ofTenant k _) = _
    rw [ofTenant_eq s hk]
  have low : wbits v 0 5 = v.toNat % 32 := wbits_low v 5
  have high : wbits v 8 5 = v.toNat / 256 % 32 := rfl
  rw [ran]
  constructor
  · intro running
    exact congrArg _ (if_pos (.inl running))
  · intro suspended alone settled u0 u1 backed small0 small1 enough0 enough1
    have carve := writeCarve_eq (v := v) suspended alone (by rw [low]; exact small0) (by rw [high]; exact small1)
      (carveSlices_of_enough (by rw [low]; exact enough0)) (carveSlices_of_enough (by rw [high]; exact enough1))
    rw [low, high] at carve
    have keeps (caches : cachesOk s) (quiet : Quiet s) (a b : List Nat) (p : Nat) :
        ((s.flushSlices 0 a).flushSlices 1 b).byteAt p = s.byteAt p := by
      obtain ⟨quiet', caches', same⟩ := flushSlices_keeps quiet caches (show 0 < 3 by omega) a
      rw [(flushSlices_keeps quiet' caches' (show 1 < 3 by omega) b).2.2, same]
    have only (a b : List Nat) : ∃ cs rs fs m l, (s.flushSlices 0 a).flushSlices 1 b =
        { s with counters := cs, rings := rs, fwds := fs, mem := m, l2 := l } := by
      obtain ⟨_, _, _, _, _, e⟩ := flushSlices_frame s 0 a
      obtain ⟨_, _, _, _, _, e'⟩ := flushSlices_frame (s.flushSlices 0 a) 1 b
      exact ⟨_, _, _, _, _, by rw [e', e]⟩
    generalize hx : (s.flushSlices 0 ((backed 0 u0 T.slices0).filter fun x => !T.slices0.contains x)).flushSlices 1
      ((backed 1 u1 T.slices1).filter fun x => !T.slices1.contains x) = x at carve
    obtain ⟨_, _, _, _, _, frame⟩ := hx ▸ only _ _
    have still : (x.modTenant k (carving u0 u1 (backed 0 u0 T.slices0) (backed 1 u1 T.slices1))).settleSlices = _ :=
      settleSlices_of_none (by rw [frame]; exact settled)
    have tenant := State.tenant_modTenant x k (carving u0 u1 (backed 0 u0 T.slices0) (backed 1 u1 T.slices1))
    refine ⟨_, by rw [carve, still], by rw [tenant]; rfl, by rw [tenant]; rfl, by rw [tenant]; rfl, by rw [tenant]; rfl,
      fun j hj => ?_, ?_, fun caches quiet p => ?_⟩
    · rw [State.tenant_modTenant_other _ _ hj, frame]
      rfl
    · rw [frame]
      rfl
    · have same := hx ▸ keeps caches quiet _ _ p
      exact (byteAt_congr rfl rfl rfl p).trans same

end Sys2Proof.Proofs
end

