-- ==== Sys2Proof/Proofs/WindowEvents.lean ====
section
/-! PROOFS. O50, continued: tenant resets and pool control; and the whole. -/

namespace Sys2Proof.Proofs

open Sys2Proof Sys2Proof.Machine Sys2Proof.Claims

/-! ## A tenant reset (R86) -/

/-- What step 1 of a tenant reset leaves alone. -/
theorem resetStart_frame (s : State) (k : Nat) : ∃ ts ws es bs ls rs fs, s.resetStart k =
    { s with tenants := ts, warps := ws, engOps := es, blocks := bs, launches := ls, retargets := rs, fbufs := fs } :=
  ⟨_, _, _, _, _, _, _, rfl⟩

theorem resetStart_tenant (s : State) (k j : Nat) : (s.resetStart k).tenant j =
    if j = k then { s.tenant k with resetting := true, queues := [], deferQ := [] } else s.tenant j :=
  modTenant_tenant s k j fun T => { T with resetting := true, queues := [], deferQ := [] }

/-- With nothing outstanding in the machine, nothing of a tenant is. -/
theorem quiet_of_idle {s : State} (k : Nat) (ops : s.engOps = []) (engines : s.engines = []) (launches : s.launches = []) (lands : s.lands = [])
    (slots : s.slots = []) : s.quiet k = true := by
  simp [State.quiet, ops, engines, launches, lands, slots]

/-- A core that a tenant no longer owns or has lane-private bytes on. -/
def leftCore (k : Nat) (x : Core) : Core := { x with owner := if x.owner = k then 16 else x.owner, slices := tdel x.slices k }

/-- Steps 3 to 5 of a tenant reset, where no page moves. -/
theorem resetFinish_quiet {s : State} (quiet : Quiet s) (k : Nat) : ∃ u t, s.l1WriteBackAll everywhere = some u ∧ MemorySide s u ∧
    s.resetFinish k = some t ∧ t = { u with
      tenants := tset u.tenants k { suspend := (u.tenant k).suspend, debugHold := (u.tenant k).debugHold }
      warps := u.warps.filter fun p => p.2.service || p.2.tenant != k
      cores := u.cores.map fun p => (p.1, leftCore k p.2)
      tlb := u.tlb.filter fun e => e.tenant != k } := by
  obtain ⟨u, e, writes⟩ := l1WriteBackAll_quiet quiet everywhere
  exact ⟨u, _, e, writes, by rw [State.resetFinish, e]; rfl, rfl⟩

theorem tenantResets (s : State) {k : Nat} (hk : k < 16) (suspended : s.suspended k = true) (idle : (s.tenant k).resetting = false)
    (ops : s.engOps = []) (engines : s.engines = []) (launches : s.launches = []) (lands : s.lands = []) (slots : s.slots = [])
    (quiet : Quiet s) : ∃ t, exec (.tenantReset k) s = .next t ∧
      t.tenant k = { suspend := true, debugHold := (s.tenant k).debugHold } ∧ (∀ j, j ≠ k → t.tenant j = s.tenant j) ∧
      (cachesOk s → (∀ c, noDirty s c) → SameMemory s t) ∧
      (∀ p ∈ t.warps, p.2.service = true ∨ p.2.tenant ≠ k) ∧ (∀ e ∈ t.tlb, e.tenant ≠ k) ∧
      ∀ c, (t.core c).owner ≠ k ∧ tget (t.core c).slices k = none := by
  obtain ⟨ts, ws, es, bs, ls, rs, fs, start⟩ := resetStart_frame s k
  have tenant := resetStart_tenant s k
  have own := tenant k
  rw [if_pos rfl] at own
  have quietStart : Quiet (s.resetStart k) := by
    refine ⟨by rw [start]; exact quiet.1, fun j => ?_⟩
    rw [tenant]
    split <;> exact quiet.2 _
  have outstanding : (s.resetStart k).quiet k = true := by
    refine quiet_of_idle k ?_ (by rw [start]; exact engines) ?_ (by rw [start]; exact lands) (by rw [start]; exact slots)
    · simp [State.resetStart, State.haltWarps, ops]
    · simp [State.resetStart, State.haltWarps, launches]
  obtain ⟨u, t, wrote, memory, finish, ht⟩ := resetFinish_quiet quietStart k
  have ran : exec (.tenantReset k) s = .next t := by
    show Host.Outcome.next (s.ofTenant k _) = _
    rw [ofTenant_eq s hk]
    unfold State.resetTenant
    rw [if_pos (c := (s.tenant k).resetting = false ∧ s.suspended k = true) ⟨idle, suspended⟩]
    dsimp only
    rw [if_pos ⟨by rw [own], outstanding⟩, finish]
    rfl
  have kept (j : Nat) : u.tenant j = (s.resetStart k).tenant j := by
    obtain ⟨_, _, _, _, _, _, _, rfl⟩ := memory
    rfl
  have after (j : Nat) : t.tenant j = if j = k then { suspend := (u.tenant k).suspend, debugHold := (u.tenant k).debugHold } else u.tenant j := by
    rw [ht, State.tenant, tgetD_tset]
    rfl
  have suspend : (s.tenant k).suspend = true := (Bool.and_eq_true_iff.mp suspended).1
  refine ⟨t, ran, ?_, fun j hj => ?_, fun caches clean => ?_, fun p hp => ?_, fun e he => ?_, fun c => ?_⟩
  · rw [after, if_pos rfl, kept, own, suspend]
  · rw [after, if_neg hj, kept, tenant, if_neg hj]
  · have still : (s.resetStart k).l1WriteBackAll everywhere = some (s.resetStart k) := by
      refine l1WriteBackAll_of_clean quietStart.1 ?_ ?_ everywhere
      · rw [start]
        exact caches
      · rw [start]
        exact clean
    obtain rfl := Option.some.inj (wrote.symm.trans still)
    rw [ht, start]
    exact sameMemory_of_eq rfl rfl rfl rfl
  · rw [ht] at hp
    simpa using (List.mem_filter.mp hp).2
  · rw [ht] at he
    simpa using (List.mem_filter.mp he).2
  · have core : t.core c = ((tget u.cores c).map (leftCore k)).getD {} := by
      rw [ht, ← tget_map_value u.cores (fun _ => leftCore k) c]
      rfl
    rw [core]
    cases tget u.cores c with
    | none =>
      refine ⟨?_, rfl⟩
      show 16 ≠ k
      omega
    | some x =>
      refine ⟨?_, by simp [leftCore, tget_tdel]⟩
      simp only [Option.map_some, Option.getD_some, leftCore]
      split <;> omega

/-! ## Pool control (R138, R137) -/

theorem exec_pool {s : State} {k p : Nat} (hk : k < 16) (hp : p < 16) (f : State → State) : s.ofPool k p f = f s := by
  rw [State.ofPool, ofTenant_eq s hk, if_pos hp]

theorem onlyPool_modPool (s : State) (k p : Nat) (f : Pool → Pool) : OnlyPool s (s.modPool k p f) k p (f (s.pool k p)) := by
  have tenant : (s.modPool k p f).tenant k = { s.tenant k with pools := tset (s.tenant k).pools p (f (s.pool k p)) } :=
    State.tenant_modTenant ..
  refine ⟨?_, fun j hj => State.tenant_modTenant_other _ _ hj, fun r hr => ?_, ?_⟩
  · rw [State.pool, tenant, tgetD_tset_same]
  · rw [State.pool, tenant, tgetD_tset_other _ _ _ hr]
    rfl
  · rw [tenant]

/-- A pool that begins anew. -/
def anew (P : Pool) (en : Bool) : Pool :=
  { P with en := en, ready := false, lists := List.replicate 17 [], devWait := false, aborted := false, queue := [] }

/-- What the device's fault buffer forgets of a pool. -/
def Forgets (s t : State) (k p : Nat) : Prop :=
  t = { s with tenants := t.tenants, fbufs := t.fbufs } ∧ (∀ b, b ≠ 256 → t.fbuf b = s.fbuf b) ∧
    { t.fbuf 256 with waiters := [] } = { s.fbuf 256 with waiters := [] } ∧
    ∀ x, x ∈ (t.fbuf 256).waiters ↔ x ∈ (s.fbuf 256).waiters ∧ ∀ va, x ≠ .pool k p va

theorem forgets_freshPool (s : State) (k p : Nat) (en : Bool) : Forgets s (s.freshPool k p en) k p := by
  have buffer (b : Nat) : (s.freshPool k p en).fbuf b = if b = 256 then { s.fbuf 256 with waiters := (s.fbuf 256).waiters.filter fun x =>
      match x with
      | .pool u q _ => u != k || q != p
      | _ => true } else s.fbuf b := by
    rw [State.fbuf, State.freshPool, State.setFbuf, tgetD_tset]
    rfl
  refine ⟨rfl, fun b hb => by rw [buffer, if_neg hb], by rw [buffer, if_pos rfl], fun x => ?_⟩
  rw [buffer, if_pos rfl, List.mem_filter]
  refine and_congr_right fun _ => ?_
  cases x with
  | pool u q va =>
    simp only [ne_eq, Waiter.pool.injEq, Bool.or_eq_true, bne_iff_ne, not_and]
    constructor
    · rintro (h | h) va hu hq
      · exact absurd hu h
      · exact absurd hq h
    · intro h
      by_cases hu : u = k
      · exact .inr fun hq => h va hu hq rfl
      · exact .inl hu
  | _ => simp

theorem poolControl (s : State) {k p : Nat} (hk : k < 16) (hp : p < 16) :
    let P := s.pool k p
    (P.en = false → ∃ t, exec (.poolEnable k p) s = .next t ∧ Forgets s t k p ∧ OnlyPool s t k p (anew P true)) ∧
    (P.en = true → exec (.poolEnable k p) s = .next s) ∧
    (P.en = true → ∃ t, exec (.poolDisable k p) s = .next t ∧ (t.pool k p).en = false ∧ (t.pool k p).ready = false ∧
      (t.tenant k).deferQ = (s.tenant k).deferQ.filter (fun e => e.pool != p) ∧ (∀ j, j ≠ k → t.tenant j = s.tenant j) ∧ Forgets s t k p) ∧
    (P.en = false → exec (.poolDisable k p) s = .next s) ∧
    ∃ t, exec (.perrRead k p) s = .next t ∧ t = { s with tenants := t.tenants, readout := t.readout } ∧
      t.readout = BitVec.ofNat 64 P.perr ∧ OnlyPool s t k p { P with perr := 0 } := by
  intro P
  have enables : exec (.poolEnable k p) s = .next (if P.en then s else s.enablePool k p) := by
    show Host.Outcome.next (s.ofPool k p _) = _
    rw [exec_pool hk hp]
  have disables : exec (.poolDisable k p) s = .next (if P.en then s.disablePool k p else s) := by
    show Host.Outcome.next (s.ofPool k p _) = _
    rw [exec_pool hk hp]
  have counts : exec (.perrRead k p) s = .next { s.modPool k p (fun P => { P with perr := 0 }) with readout := BitVec.ofNat 64 P.perr } := by
    show Host.Outcome.next (s.ofPool k p _) = _
    rw [exec_pool hk hp]
    rfl
  have fresh (en : Bool) := onlyPool_modPool s k p fun P => anew P en
  refine ⟨fun off => ?_, fun on => ?_, fun on => ?_, fun off => ?_, ?_⟩
  · exact ⟨s.enablePool k p, by rw [enables, off, if_neg Bool.false_ne_true], forgets_freshPool s k p true, fresh true⟩
  · rw [enables, on, if_pos rfl]
  · obtain ⟨pool, others, -, rest⟩ := fresh false
    have tenant : (s.disablePool k p).tenant k =
        { (s.freshPool k p false).tenant k with deferQ := ((s.freshPool k p false).tenant k).deferQ.filter fun e => e.pool != p } :=
      State.tenant_modTenant ..
    have same : (s.disablePool k p).pool k p = anew P false := by
      rw [State.pool, tenant]
      exact pool
    have queue : ((s.freshPool k p false).tenant k).deferQ = (s.tenant k).deferQ := by
      have same := congrArg Tenant.deferQ rest
      exact same
    refine ⟨s.disablePool k p, by rw [disables, on, if_pos rfl], by rw [same]; rfl, by rw [same]; rfl, by rw [tenant, queue], fun j hj => ?_,
      rfl, (forgets_freshPool s k p false).2⟩
    rw [State.disablePool, State.tenant_modTenant_other _ _ hj]
    exact others j hj
  · rw [disables, off, if_neg Bool.false_ne_true]
  · exact ⟨_, counts, rfl, rfl, onlyPool_modPool s k p fun P => { P with perr := 0 }⟩

/-- Settles O50, window by window; a carve and a reset change no byte that anyone reads, since the L2s that they flush hold one dirty copy of a
byte at most, and the L1s none. -/
theorem windowEvents : Obligations.WindowEvents := by
  intro s k hk T
  exact ⟨fun q v hq awake => postingStores s hk hq v awake,
    fun q hq => fullCountReads s hk hq,
    tenantSuspends s hk,
    tenantResumes s hk,
    tenantResets s hk,
    fun c v hc => coreownWrites s hc v,
    l2wayWrites s hk,
    placeTableWrites s hk,
    dscarveWrites s hk,
    fun p hp => poolControl s hk hp⟩

end Sys2Proof.Proofs
end

