-- ==== Sys2Proof/Proofs/PoolPages.lean ====
section
/-! PROOFS. What the caches do when the package gives up a run of pool pages (R212): where no page moves and no store is queued they write
back and drop what they hold of it, and nothing else changes but the memory side of the machine. -/

namespace Sys2Proof.Proofs

open Sys2Proof Sys2Proof.Machine Sys2Proof.Claims

/-! ## First-level caches that drop -/

theorem l1c_setL1 (s : State) (core k : Nat) (c : Cache) : (s.setL1 core c).l1c k = if k = core then c else s.l1c k := by
  rw [State.l1c, State.setL1, tgetD_tset]
  rfl

/-- Some L1s drop what they hold at some addresses: what is left of the machine, and of them. -/
structure L1Drops (s t : State) (p : Nat → Bool) (cs : List Nat) : Prop where
  rest : ∃ l, t = { s with l1 := l }
  gone : ∀ k a, p a = true → (k ∈ cs ∨ (s.l1c k).byte a = none) → (t.l1c k).byte a = none
  order : (∀ k, tidy (s.l1c k)) → ∀ k, tidy (t.l1c k)
  empty : ∀ k, s.l1c k = {} → t.l1c k = {}

theorem l1Drops_foldl (p : Nat → Bool) (cs : List Nat) (s : State) : L1Drops s (cs.foldl (fun s c => s.l1Drop c p) s) p cs := by
  induction cs generalizing s with
  | nil => exact ⟨⟨_, rfl⟩, fun k a _ h => h.resolve_left List.not_mem_nil, id, fun _ => id⟩
  | cons c cs ih =>
    obtain ⟨⟨l, rest⟩, gone, order, empty⟩ := ih (s.l1Drop c p)
    have cache (k : Nat) : (s.l1Drop c p).l1c k = if k = c then dropWhere p (s.l1c c) else s.l1c k := l1c_setL1 ..
    refine ⟨⟨l, rest⟩, fun k a dropped held => gone k a dropped ?_, fun tidyAll => order fun k => ?_, fun k none => empty k ?_⟩
    · rw [cache]
      by_cases hk : k = c
      · rw [if_pos hk]
        exact .inr (byte_dropWhere_of_dropped dropped _)
      · rw [if_neg hk]
        exact held.imp_left fun h => (List.mem_cons.mp h).resolve_left hk
    · rw [cache]
      split
      · exact tidy_dropWhere (tidyAll c) p
      · exact tidyAll k
    · rw [cache]
      split
      · rename_i hk
        rw [← hk, none]
        rfl
      · exact none

/-- A core whose L1 is not listed holds nothing. -/
theorem l1c_of_unlisted {s : State} {k : Nat} (h : k ∉ s.l1Cores) : s.l1c k = {} := by
  cases found : tget s.l1 k with
  | none => rw [State.l1c, tgetD, found]; rfl
  | some c => exact absurd (List.mem_map.mpr ⟨_, mem_of_tget found, rfl⟩) h

/-- Every L1 drops what it holds at some addresses. -/
theorem l1_gone {s : State} {p : Nat → Bool} (k : Nat) {a : Nat} (dropped : p a = true) :
    ((s.l1Cores.foldl (fun s c => s.l1Drop c p) s).l1c k).byte a = none := by
  refine (l1Drops_foldl p s.l1Cores s).gone k a dropped ?_
  by_cases h : k ∈ s.l1Cores
  · exact .inl h
  · rw [l1c_of_unlisted h]
    exact .inr rfl

/-! ## Second-level caches that write back and drop -/

theorem memorySide_l2Flush {s : State} (quiet : Quiet s) (id : Nat) (p : Nat → Bool) : MemorySide s (s.l2Flush id p true) := by
  obtain ⟨_, _, e, -⟩ := l2Flush_quiet quiet id p
  rw [e]
  exact ⟨_, _, _, _, _, _, _, rfl⟩

theorem l2FlushAll_eq (s : State) (p : Nat → Bool) (drop : Bool) :
    s.l2FlushAll p drop = ((s.l2Flush 0 p drop).l2Flush 1 p drop).l2Flush 2 p drop := by
  simp only [State.l2FlushAll, List.foldl_cons, List.foldl_nil]

theorem byte_l2Flush {s : State} (quiet : Quiet s) {p : Nat → Bool} {a : Nat} (dropped : p a = true) (j k : Nat) :
    ((s.l2Flush j p true).l2c k).byte a = if k = j then none else (s.l2c k).byte a := by
  obtain ⟨cs, l, e, held⟩ := l2Flush_quiet quiet j p
  have cache : (s.l2Flush j p true).l2c k = if k = j then dropWhere p (s.l2c j) else s.l2c k := by
    rw [e]
    exact held k
  rw [cache]
  split
  · exact byte_dropWhere_of_dropped dropped _
  · rfl

/-- Every L2 drops what it holds at some addresses. -/
theorem l2FlushAll_gone {s : State} (quiet : Quiet s) {p : Nat → Bool} {id a : Nat} (small : id < 3) (dropped : p a = true) :
    ((s.l2FlushAll p true).l2c id).byte a = none := by
  have quiet0 := quiet_l2Flush quiet 0 p
  have quiet1 := quiet_l2Flush quiet0 1 p
  rw [l2FlushAll_eq, byte_l2Flush quiet1 dropped, byte_l2Flush quiet0 dropped, byte_l2Flush quiet dropped]
  split
  · rfl
  · split
    · rfl
    · rw [if_pos (by omega)]

theorem memorySide_l2FlushAll {s : State} (quiet : Quiet s) (p : Nat → Bool) : MemorySide s (s.l2FlushAll p true) :=
  memorySide_foldl quiet (fun _ id quiet => memorySide_l2Flush quiet id p) _

theorem l2FlushAll_keeps {s : State} (quiet : Quiet s) (caches : cachesOk s) (p : Nat → Bool) (a : Nat) :
    (s.l2FlushAll p true).byteAt a = s.byteAt a := by
  obtain ⟨caches0, same0⟩ := l2Flush_keeps quiet caches (show 0 < 3 by omega) p
  have quiet0 := quiet_l2Flush quiet 0 p
  obtain ⟨caches1, same1⟩ := l2Flush_keeps quiet0 caches0 (show 1 < 3 by omega) p
  have quiet1 := quiet_l2Flush quiet0 1 p
  rw [l2FlushAll_eq, (l2Flush_keeps quiet1 caches1 (show 2 < 3 by omega) p).2, same1, same0]

/-! ## A run of pool pages -/

theorem unperformed_of_noStores {s : State} (none : noStores s) (p : Nat → Bool) : s.unperformed p = false := by
  rw [State.unperformed, List.any_eq_false]
  intro w hw
  obtain ⟨queue, held⟩ := none w hw
  simp [queue, held]

/-- A run of pool pages has left the caches. -/
structure PoolDropped (s t : State) (page n : Nat) : Prop where
  rest : MemorySide s t
  l1 : ∀ k a, inRun page n a = true → (t.l1c k).byte a = none
  l2 : ∀ id a, id < 3 → inRun page n a = true → (t.l2c id).byte a = none
  same : cachesOk s → (∀ c, noDirty s c) → ∀ a, t.byteAt a = s.byteAt a

theorem poolDrop_quiet {s : State} (quiet : Quiet s) (none : noStores s) (page n : Nat) :
    ∃ t, s.poolDrop page n = .ok t ∧ PoolDropped s t page n := by
  have free : ¬ (s.unperformed (inRun page n) = true ∨
      (s.fwds.any fun f => inRun page n f.2.src || (f.2.switched && inRun page n f.2.dst)) = true) := by
    rw [unperformed_of_noStores none, quiet.1]
    simp
  have pushes := memorySide_foldl quiet (f := fun s c => s.l1Push c (inRun page n)) (fun _ c quiet => memorySide_l1Push quiet c _) s.l1Cores
  have pushed : cachesOk s → (∀ c, noDirty s c) → s.l1Cores.foldl (fun s c => s.l1Push c (inRun page n)) s = s := fun caches clean => by
    refine List.foldlRecOn (motive := fun u => u = s) _ _ rfl fun u e c _ => ?_
    rw [e]
    exact l1Push_of_clean (caches.1 c).1 (clean c) _
  have unfolds : s.poolDrop page n = (let u := s.l1Cores.foldl (fun s c => s.l1Push c (inRun page n)) s
      if u.l1Cores.any fun c => u.stalls c (inRun page n) then .error u
      else .ok ((u.l1Cores.foldl (fun s c => s.l1Drop c (inRun page n)) u).l2FlushAll (inRun page n) true)) := if_neg free
  rw [unfolds]
  generalize s.l1Cores.foldl (fun s c => s.l1Push c (inRun page n)) s = u at pushes pushed ⊢
  have quietU := pushes.quiet quiet
  have settled : (u.l1Cores.any fun c => u.stalls c (inRun page n)) = false := by simp [stalls_unmoved quietU.1]
  dsimp only
  rw [settled, if_neg Bool.false_ne_true]
  obtain ⟨⟨l, rest⟩, -, order, empty⟩ := l1Drops_foldl (inRun page n) u.l1Cores u
  have gone (k : Nat) {a : Nat} (run : inRun page n a = true) := l1_gone (s := u) k run
  generalize u.l1Cores.foldl (fun s c => s.l1Drop c (inRun page n)) u = v at rest order empty gone ⊢
  have quietV : Quiet v := by
    rw [rest]
    exact quiet_congr quietU rfl rfl
  refine ⟨_, rfl, pushes.trans (.trans ?_ (memorySide_l2FlushAll quietV _)), fun k a run => ?_, fun id a small run => l2FlushAll_gone quietV small run,
    fun caches clean a => ?_⟩
  · rw [rest]
    exact ⟨_, _, _, _, _, _, _, rfl⟩
  · have kept : (v.l2FlushAll (inRun page n) true).l1 = v.l1 := by
      refine List.foldlRecOn (motive := fun u : State => u.l1 = v.l1) _ _ rfl fun u e id _ => ?_
      obtain ⟨_, _, _, _, _, e'⟩ := l2Flush_frame u id (inRun page n) true
      rw [e']
      exact e
    rw [State.l1c, kept]
    exact gone k run
  · obtain rfl := pushed caches clean
    have cachesV : cachesOk v := by
      have l2 (k : Nat) : v.l2c k = u.l2c k := by rw [rest]; rfl
      refine ⟨fun k => ⟨order (fun k => (caches.1 k).1) k, by rw [l2]; exact (caches.1 k).2⟩, fun c hc => empty c (caches.2.1 c hc),
        fun a i j b c hi hj h h' => ?_⟩
      rw [l2] at h h'
      exact caches.2.2 a i j b c hi hj h h'
    rw [l2FlushAll_keeps quietV cachesV, rest]
    exact byteAt_congr rfl rfl rfl a

end Sys2Proof.Proofs
end

