-- ==== Sys2Proof/Proofs/PoolCommands.lean ====
section
/-! PROOFS. The CXL pool's commands (R211 to R213): what ACQUIRE, RELEASE and PUBLISH, another package's publication, and a revocation
make of a run of pages. -/

namespace Sys2Proof.Proofs

open Sys2Proof Sys2Proof.Machine Sys2Proof.Claims

/-! ## The ownership of a run -/

theorem tget_setRun (s : State) (page n : Nat) (o : PoolOwn) (j : Nat) :
    tget (s.setRun page n o).poolPages j = if page ≤ j ∧ j < page + n then some o else tget s.poolPages j := by
  rw [State.setRun]
  show tget ((List.range n).foldl (fun t i => tset t (page + i) o) s.poolPages) j = _
  induction n with
  | zero => rw [if_neg (by omega)]; rfl
  | succ n ih =>
    rw [List.range_succ, List.foldl_append, List.foldl_cons, List.foldl_nil, tget_tset, ih]
    by_cases h : j = page + n
    · rw [if_pos h, if_pos (by omega)]
    · rw [if_neg h]
      by_cases h' : page ≤ j ∧ j < page + n
      · rw [if_pos h', if_pos (by omega)]
      · rw [if_neg h', if_neg (by omega)]

theorem runIs_setRun {s u : State} (pages : u.poolPages = s.poolPages) (page count : Nat) (o : PoolOwn) :
    RunIs s (u.setRun page (count + 1) o) page count (some o) := by
  intro j
  rw [tget_setRun, pages]
  by_cases h : page ≤ j ∧ j ≤ page + count
  · rw [if_pos h, if_pos (by omega)]
  · rw [if_neg h, if_neg (by omega)]

theorem MemorySide.pool {s t : State} (h : MemorySide s t) : t.poolPages = s.poolPages ∧ t.poolCmd = s.poolCmd ∧ t.fwds = s.fwds := by
  obtain ⟨_, _, _, _, _, _, _, rfl⟩ := h
  exact ⟨rfl, rfl, rfl⟩

theorem inRun_iff (page count a : Nat) :
    inRun page (count + 1) a = true ↔ 0x1000000000000 + page * 4096 ≤ a ∧ a < 0x1000000000000 + (page + count + 1) * 4096 := by
  rw [inRun, Bool.and_eq_true, decide_eq_true_iff, decide_eq_true_iff, poolPa, poolPa, Nat.add_assoc page count 1]

/-! ## Commands -/

/-- A command whose pages leave the caches acts, and is in progress. -/
theorem poolRun_of_dropped {s u : State} {page n : Nat} (h : s.poolDrop page n = .ok u) (op : Nat) : s.poolRun op page n = u.poolAct op page n := by
  rw [State.poolRun, h]

theorem commands_poolBegin {s u : State} (same : u.poolCmd = s.poolCmd) (op page count result first : Nat) :
    commands s (u.poolBegin op page count result first) op page count result first := by
  rw [commands, State.poolBegin, same]

theorem runOk_of_small {page count : Nat} (hp : page < 2 ^ 34) (hc : count < 4096) : runOk page count = true :=
  decide_eq_true ⟨hp, hc⟩

theorem poolAcquires {s : State} {page count : Nat} (hp : page < 2 ^ 34) (hc : count < 4096) (quiet : Quiet s) (caches : cachesOk s)
    (none : noStores s) :
    let held (j : Nat) : Option PoolOwn := tget s.poolPages (page + j % (count + 1))
    (∀ j, Config.poolBusy s.drawn = some j → held j = .none → ∃ t, exec (.poolAcquire page count) s = .next t ∧
      commands s t 1 page count 1 ((page + j % (count + 1)) * 4096) ∧ t.poolPages = s.poolPages ∧ SameMemory s t) ∧
    ((∀ j, Config.poolBusy s.drawn = some j → held j ≠ .none) → ∃ t, exec (.poolAcquire page count) s = .next t ∧ commands s t 1 page count 0 0 ∧
      RunIs s t page count (some .exclusive) ∧ ((∀ c, noDirty s c) → ∀ p, t.byteAt p = s.byteAt p)) := by
  intro held
  have ran : exec (.poolAcquire page count) s = .next (s.poolAcquire page count) := by
    show Host.Outcome.next (if runOk page count then _ else _) = _
    rw [if_pos (runOk_of_small hp hc)]
  constructor
  · intro j busy away
    have refused : s.poolAcquire page count = s.draw.poolBegin 1 page count 1 ((page + j % (count + 1)) * 4096) := by
      have isNone : (tget s.poolPages (page + j % (count + 1))).isNone = true := Option.isNone_iff_eq_none.mpr away
      simp only [State.poolAcquire, busy, isNone, if_true]
    exact ⟨s.draw.poolBegin 1 page count 1 ((page + j % (count + 1)) * 4096), by rw [ran, refused], commands_poolBegin rfl .., rfl, sameMemory_of_eq rfl rfl rfl rfl⟩
  · intro ours
    have granted : s.poolAcquire page count = (s.draw.poolRun 1 page (count + 1)).poolBegin 1 page count 0 0 := by
      unfold State.poolAcquire
      dsimp only
      split
      · rename_i j busy
        rw [if_neg fun isNone => ours j busy (Option.isNone_iff_eq_none.mp isNone)]
      · rfl
    obtain ⟨u, drop, dropped⟩ := poolDrop_quiet (s := s.draw) (quiet_congr quiet rfl rfl) none page (count + 1)
    obtain ⟨pages, cmd, -⟩ := dropped.rest.pool
    refine ⟨(u.setRun page (count + 1) .exclusive).poolBegin 1 page count 0 0, by rw [ran, granted, poolRun_of_dropped drop]; rfl,
      commands_poolBegin cmd .., runIs_setRun pages page count .exclusive, fun clean p => ?_⟩
    exact dropped.same caches clean p

theorem poolReleases {s : State} {page count : Nat} (hp : page < 2 ^ 34) (hc : count < 4096) (quiet : Quiet s) (none : noStores s) :
    ∃ t, exec (.poolRelease page count) s = .next t ∧ commands s t 2 page count 0 0 ∧ RunIs s t page count .none ∧
      ∀ c p, 0x1000000000000 + page * 4096 ≤ p → p < 0x1000000000000 + (page + count + 1) * 4096 →
        (t.l1c c).byte p = .none ∧ (c < 3 → (t.l2c c).byte p = .none) := by
  obtain ⟨u, drop, dropped⟩ := poolDrop_quiet quiet none page (count + 1)
  obtain ⟨pages, cmd, -⟩ := dropped.rest.pool
  have ran : exec (.poolRelease page count) s = .next ({ u with
      poolPages := u.poolPages.filter fun p => !(page ≤ p.1 && p.1 < page + (count + 1)) }.poolBegin 2 page count 0 0) := by
    show Host.Outcome.next (if runOk page count then _ else _) = _
    rw [if_pos (runOk_of_small hp hc), State.poolRelease, poolRun_of_dropped drop]
    rfl
  refine ⟨_, ran, commands_poolBegin cmd .., fun j => ?_, fun c p low high => ?_⟩
  · show tget (u.poolPages.filter fun p => !(page ≤ p.1 && p.1 < page + (count + 1))) j = _
    rw [tget_filter_key u.poolPages (fun k => !(decide (page ≤ k) && decide (k < page + (count + 1)))) j, pages]
    by_cases h : page ≤ j ∧ j ≤ page + count
    · rw [if_pos h, if_neg (by simp; omega)]
    · rw [if_neg h, if_pos (by simp; omega)]
  · have run := (inRun_iff page count p).mpr ⟨low, high⟩
    exact ⟨dropped.l1 c p run, fun small => dropped.l2 c p small run⟩

end Sys2Proof.Proofs
end

