-- ==== Sys2Proof/Proofs/PoolPublication.lean ====
section
/-! PROOFS. Publication of a region (R213), by this package and by another, and the revocation of a page (R212). -/

namespace Sys2Proof.Proofs

open Sys2Proof Sys2Proof.Machine Sys2Proof.Claims

/-! ## Numbers in memory -/

theorem getElem?_leBytes (n v j : Nat) : (leBytes n v)[j]? = if j < n then some (BitVec.ofNat 8 (v / 2 ^ (8 * j))) else none := by
  induction n generalizing v j with
  | zero => rfl
  | succ n ih =>
    cases j with
    | zero => simp [leBytes]
    | succ j =>
      rw [leBytes, List.getElem?_cons_succ, ih]
      have shift : v / 256 / 2 ^ (8 * j) = v / 2 ^ (8 * (j + 1)) := by
        rw [Nat.div_div_eq_div_mul, Nat.mul_add, Nat.pow_add, Nat.mul_comm]
      rw [shift]
      simp

theorem mem_placed {pa a : Nat} {bs : List Byte} {v : Byte} : (a, v) ∈ placed pa bs ↔ pa ≤ a ∧ bs[a - pa]? = some v := by
  rw [placed, List.mem_iff_getElem?]
  simp only [List.getElem?_zip_eq_some, addrs, List.getElem?_map, Option.map_eq_some_iff]
  constructor
  · rintro ⟨i, ⟨k, hk, rfl⟩, hv⟩
    obtain ⟨_, rfl⟩ := List.getElem?_eq_some_iff.mp hk
    rw [List.getElem_range]
    exact ⟨Nat.le_add_right .., by rwa [Nat.add_sub_cancel_left]⟩
  · rintro ⟨low, hv⟩
    obtain ⟨short, -⟩ := List.getElem?_eq_some_iff.mp hv
    exact ⟨a - pa, ⟨a - pa, List.getElem?_range short, by omega⟩, hv⟩

theorem memGet_placed (m : List Host.Cell) (pa a : Nat) (bs : List Byte) :
    memGet (memSetAll m (placed pa bs)) a = ((if pa ≤ a then bs[a - pa]? else none).getD (memGet m a)) := by
  refine memGet_memSetAll_of_iff (g := fun a => if pa ≤ a then bs[a - pa]? else none) (fun a v => ?_) m a
  rw [mem_placed]
  split <;> simp_all

/-- Consecutive bytes as a number. -/
theorem leNat_addrs (f : Nat → Byte) (pa n : Nat) : leNat ((addrs pa n).map f) = number (fun j => f (pa + j)) 0 n := by
  induction n generalizing pa with
  | zero => rfl
  | succ n ih =>
    have next : addrs pa (n + 1) = pa :: addrs (pa + 1) n := by
      simp [addrs, List.range_succ_eq_map, Function.comp_def, Nat.add_assoc, Nat.add_comm 1]
    have shift (j : Nat) : (f (pa + 1 + (0 + j))).toNat * 2 ^ (8 * j) * 256 = (f (pa + (0 + (j + 1)))).toNat * 2 ^ (8 * (j + 1)) := by
      rw [show pa + 1 + (0 + j) = pa + (0 + (j + 1)) by omega, show 8 * (j + 1) = 8 * j + 8 by omega, Nat.pow_add, Nat.mul_assoc]
    rw [next, List.map_cons, leNat, ih]
    simp only [number, List.range_succ_eq_map, List.map_cons, List.map_map, List.sum_cons, Function.comp_def, Nat.succ_eq_add_one, ← shift]
    rw [List.sum_map_mul_right, Nat.mul_comm 256]
    simp

/-- The low byte of a number's part below 2^64. -/
theorem byte_of_mod {j : Nat} (hj : j < 8) (v : Nat) : BitVec.ofNat 8 (v % 2 ^ 64 / 2 ^ (8 * j)) = BitVec.ofNat 8 (v / 2 ^ (8 * j)) := by
  apply BitVec.eq_of_toNat_eq
  rw [BitVec.toNat_ofNat, BitVec.toNat_ofNat]
  interval_cases j <;> omega

/-! ## PUBLISH (R213) -/

/-- A byte that no L2 holds is what memory has. -/
theorem byteAt_of_absent {s : State} (unmoved : s.fwds = []) {a : Nat} (absent : ∀ id, id < 3 → (s.l2c id).byte a = none) :
    s.byteAt a = memGet s.mem a :=
  byteAt_of_clean unmoved fun id small => by rw [dirtyByte_eq, absent id small]; rfl

/-- The version number of a region that has left the caches rises by 1, and no other byte changes. -/
theorem byteAt_poolShare {s : State} (unmoved : s.fwds = []) {page n : Nat} (big : 0 < n)
    (absent : ∀ id a, id < 3 → inRun page n a = true → (s.l2c id).byte a = none) :
    let a := poolPa page
    holds (s.poolShare page n).byteAt a 8 (number (fun j => s.byteAt (a + j)) 0 8 + 1) ∧
      ∀ p, (p < a ∨ a + 8 ≤ p) → (s.poolShare page n).byteAt p = s.byteAt p := by
  intro a
  have inside (j : Nat) (hj : j < 8) : inRun page n (a + j) = true := by
    rw [inRun, Bool.and_eq_true, decide_eq_true_iff, decide_eq_true_iff]
    simp only [a, poolPa]
    omega
  have clean (j : Nat) (hj : j < 8) : s.byteAt (a + j) = memGet s.mem (a + j) :=
    byteAt_of_absent unmoved fun id small => absent id _ small (inside j hj)
  have version : leNat ((addrs a 8).map fun a => memGet s.mem a) = number (fun j => s.byteAt (a + j)) 0 8 := by
    rw [leNat_addrs]
    simp only [number]
    congr 1
    refine List.map_congr_left fun j hj => ?_
    rw [Nat.zero_add, clean j (List.mem_range.mp hj)]
  have memory : (s.poolShare page n).mem =
      memSetAll s.mem (placed a (leBytes 8 ((number (fun j => s.byteAt (a + j)) 0 8 + 1) % 2 ^ 64))) := by
    rw [← version]
    rfl
  have unmoved' : (s.poolShare page n).fwds = [] := unmoved
  have caches (id : Nat) : (s.poolShare page n).l2c id = s.l2c id := rfl
  constructor
  · intro j hj
    rw [byteAt_of_absent unmoved' fun id small => caches id ▸ absent id _ small (inside j hj), memory, memGet_placed,
      if_pos (Nat.le_add_right ..), Nat.add_sub_cancel_left, getElem?_leBytes, if_pos hj, Option.getD_some, byte_of_mod hj]
  · intro p outside
    have same : memGet (s.poolShare page n).mem p = memGet s.mem p := by
      rw [memory, memGet_placed]
      split
      · rw [getElem?_leBytes, if_neg (by omega)]
        rfl
      · rfl
    rw [byteAt_unmoved unmoved', byteAt_unmoved unmoved, same]
    simp only [caches]

theorem runIs_poolShare {s u : State} (pages : u.poolPages = s.poolPages) (page count : Nat) :
    RunIs s (u.poolShare page (count + 1)) page count (some .shared) :=
  runIs_setRun (u := State.written { u with mem := _ } _) pages page count .shared

theorem poolPublishes {s : State} {page count : Nat} (hp : page < 2 ^ 34) (hc : count < 4096) (quiet : Quiet s) (caches : cachesOk s)
    (none : noStores s) (waits : s.poolCmd.waits = []) :
    ((∀ j, j ≤ count → tget s.poolPages (page + j) = some .exclusive) → (∀ c, noDirty s c) →
      ∃ t, exec (.poolPublish (.here page) count) s = .next t ∧ commands s t 3 page count 0 0 ∧ RunIs s t page count (some .shared) ∧
      let a := 0x1000000000000 + page * 4096
      holds t.byteAt a 8 (number (fun j => s.byteAt (a + j)) 0 8 + 1) ∧ ∀ p, (p < a ∨ a + 8 ≤ p) → t.byteAt p = s.byteAt p) ∧
    (∀ j, j ≤ count → tget s.poolPages (page + j) ≠ some .exclusive → (∀ i, i < j → tget s.poolPages (page + i) = some .exclusive) →
      ∃ t, exec (.poolPublish (.here page) count) s = .next t ∧ commands s t 3 page count 2 ((page + j) * 4096) ∧
        t.poolPages = s.poolPages ∧ SameMemory s t) := by
  have ran : exec (.poolPublish (.here page) count) s = .next (s.poolPublish page count) := by
    show Host.Outcome.next (if runOk page count then _ else _) = _
    rw [if_pos (runOk_of_small hp hc)]
  have search : s.poolPublish page count = match (List.range (count + 1)).find? fun i => tget s.poolPages (page + i) != some .exclusive with
      | some i => s.poolBegin 3 page count 2 ((page + i) * 4096)
      | .none => (s.poolRun 3 page (count + 1)).poolBegin 3 page count 0 0 := by
    simp only [State.poolPublish, waits, List.any_nil, Bool.or_false] <;> rfl
  rw [ran, search]
  constructor
  · intro ours clean
    have nothing : ((List.range (count + 1)).find? fun i => tget s.poolPages (page + i) != some .exclusive) = .none :=
      List.find?_eq_none.mpr fun i hi => by simp [ours i (Nat.lt_succ_iff.mp (List.mem_range.mp hi))]
    obtain ⟨u, drop, dropped⟩ := poolDrop_quiet quiet none page (count + 1)
    obtain ⟨pages, cmd, fwds⟩ := dropped.rest.pool
    obtain ⟨version, others⟩ := byteAt_poolShare (s := u) (fwds.trans quiet.1) (Nat.succ_pos count) dropped.l2
    have same := dropped.same caches clean
    rw [nothing]
    refine ⟨(u.poolShare page (count + 1)).poolBegin 3 page count 0 0, by rw [poolRun_of_dropped drop]; rfl,
      commands_poolBegin (u := u.poolShare page (count + 1)) cmd .., runIs_poolShare pages page count, ?_, fun p outside => ?_⟩
    · simp only [same] at version
      exact version
    · exact (others p outside).trans (same p)
  · intro j hj lacking before
    have first : ((List.range (count + 1)).find? fun i => tget s.poolPages (page + i) != some .exclusive) = some j := by
      rw [List.find?_range_eq_some]
      exact ⟨by simpa using lacking, List.mem_range.mpr (by omega), fun i hi => by simp [before i hi]⟩
    rw [first]
    exact ⟨_, rfl, commands_poolBegin rfl .., rfl, sameMemory_of_eq rfl rfl rfl rfl⟩

/-! ## Another package's publication (R211, R213), and a revocation (R212) -/

theorem poolPublished {s : State} {page count : Nat} (hp : page < 2 ^ 34) (hc : count < 4096) (quiet : Quiet s) (none : noStores s)
    (ws : List (Nat × Byte)) :
    ((∀ j, j ≤ count → tget s.poolPages (page + j) ≠ some .exclusive) → ∃ t, exec (.poolPublish (.elsewhere page ws) count) s = .next t ∧
      t.poolCmd = s.poolCmd ∧ RunIs s t page count (some .shared) ∧
      ∀ c p, 0x1000000000000 + page * 4096 ≤ p → p < 0x1000000000000 + (page + count + 1) * 4096 →
        (t.l1c c).byte p = .none ∧ (c < 3 → (t.l2c c).byte p = .none)) ∧
    ((∃ j, j ≤ count ∧ tget s.poolPages (page + j) = some .exclusive) → exec (.poolPublish (.elsewhere page ws) count) s = .next s) := by
  have ran : exec (.poolPublish (.elsewhere page ws) count) s = .next (s.poolPublished page count ws) := by
    show Host.Outcome.next (if runOk page count then _ else _) = _
    rw [if_pos (runOk_of_small hp hc)]
  rw [ran]
  unfold State.poolPublished
  dsimp only
  constructor
  · intro others
    have elsewhere : ((List.range (count + 1)).any fun i => tget s.poolPages (page + i) == some .exclusive) = false :=
      List.any_eq_false.mpr fun i hi => by simpa using others i (Nat.lt_succ_iff.mp (List.mem_range.mp hi))
    obtain ⟨u, drop, dropped⟩ := poolDrop_quiet quiet none page (count + 1)
    obtain ⟨pages, cmd, -⟩ := dropped.rest.pool
    rw [elsewhere, if_neg Bool.false_ne_true, drop]
    generalize ((ws.filter fun w => w.1 < (count + 1) * 4096).map fun w => (poolPa page + w.1, w.2)) = bs
    refine ⟨State.poolShare { u with mem := memSetAll u.mem bs } page (count + 1), rfl, cmd,
      runIs_poolShare (u := { u with mem := memSetAll u.mem bs }) pages page count, fun c p low high => ?_⟩
    have run := (inRun_iff page count p).mpr ⟨low, high⟩
    exact ⟨dropped.l1 c p run, fun small => dropped.l2 c p small run⟩
  · rintro ⟨j, hj, ours⟩
    rw [if_pos (List.any_eq_true.mpr ⟨j, List.mem_range.mpr (by omega), by simp [ours]⟩)]

theorem poolRevokes (s : State) (page : Nat) :
    (tget s.poolPages page = some .shared → Quiet s → noStores s → ∃ t, exec (.poolRevocation page) s = .next t ∧ RunIs s t page 0 none) ∧
    (tget s.poolPages page ≠ some .shared → exec (.poolRevocation page) s = .next s) := by
  have ran : exec (.poolRevocation page) s = .next (if tget s.poolPages page = some .shared then
      match s.poolDrop page 1 with
      | .ok s => { s with poolPages := tdel s.poolPages page }
      | .error s => s
    else s) := rfl
  rw [ran]
  constructor
  · intro shared quiet none
    obtain ⟨u, drop, dropped⟩ := poolDrop_quiet quiet none page 1
    obtain ⟨pages, -, -⟩ := dropped.rest.pool
    rw [if_pos shared, drop]
    refine ⟨_, rfl, fun j => ?_⟩
    show tget (tdel u.poolPages page) j = _
    rw [tget_tdel, pages]
    by_cases h : j = page
    · rw [if_pos h, if_pos (by omega)]
    · rw [if_neg h, if_neg (by omega)]
  · intro other
    rw [if_neg other]

end Sys2Proof.Proofs
end

