-- ==== Sys2Proof/Proofs/PoolEvents.lean ====
section
/-! PROOFS. O58: frame rings, access counters, DEVDROP and the pool's heartbeat and modules, and the whole. -/

namespace Sys2Proof.Proofs

open Sys2Proof Sys2Proof.Machine Sys2Proof.Claims

/-! ## Counters and rings (R73, R196, R198) -/

theorem migdecayWrites (s : State) (v : Word) : ∃ t, exec (.migdecayWrite v) s = .next t ∧
    t = { s with migdecay := v.toNat % 65536, decayFrom := s.now } := by
  have field : wbits v 0 16 = v.toNat % 65536 := wbits_low v 16
  exact ⟨_, rfl, by rw [State.writeDecay, field]⟩

theorem counterDecays (s : State) :
    (s.migdecay ≠ 0 → s.decayFrom + s.migdecay * 65536 ≤ s.now → ∃ t, exec .accessCounterDecay s = .next t ∧
      (∀ f, tgetD t.counters f 0 = tgetD s.counters f 0 / 2) ∧ t = { s with counters := t.counters, decayFrom := s.decayFrom + s.migdecay * 65536 }) ∧
    ((s.migdecay = 0 ∨ s.now < s.decayFrom + s.migdecay * 65536) → exec .accessCounterDecay s = .next s) := by
  have ran : exec .accessCounterDecay s = .next (if s.migdecay ≠ 0 ∧ s.decayFrom + s.migdecay * 65536 ≤ s.now then
    { s with counters := s.counters.map fun c => (c.1, c.2 / 2), decayFrom := s.decayFrom + s.migdecay * 65536 } else s) := rfl
  rw [ran]
  constructor
  · intro on due
    rw [if_pos ⟨on, due⟩]
    refine ⟨_, rfl, fun f => ?_, rfl⟩
    rw [tgetD, tgetD, tget_map_value s.counters fun _ v => v / 2]
    cases tget s.counters f <;> rfl
  · intro off
    rw [if_neg (by omega)]

theorem framePushes (s : State) {ring : Nat} (hr : ring < 3) (v : Word) :
    let f := v.toNat / 4096 % 2 ^ 40 * 4096
    let es := tgetD s.rings ring []
    (tierOf f = some ring → es.length < 1024 → frameOf f ∉ s.retiredFrames → ∃ t, exec (.frfillPush ring v) s = .next t ∧
      t = { s with rings := tset s.rings ring (es ++ [f]) }) ∧
    (tierOf f ≠ some ring ∨ 1024 ≤ es.length ∨ frameOf f ∈ s.retiredFrames → exec (.frfillPush ring v) s = .next s) := by
  intro f es
  have ran : exec (.frfillPush ring v) s = .next (if tierOf f = some ring ∧ es.length < 1024 ∧ s.retiredFrames.contains (frameOf f) = false
      then { s with rings := tset s.rings ring (es ++ [f]) } else s) := by
    show Host.Outcome.next (if ring < 3 then s.pushFrame ring v else s) = _
    rw [if_pos hr]
    rfl
  rw [ran]
  constructor
  · intro tier room good
    rw [if_pos ⟨tier, room, by simpa using good⟩]
    exact ⟨_, rfl, rfl⟩
  · intro bad
    rw [if_neg]
    rintro ⟨tier, room, good⟩
    rcases bad with h | h | h
    · exact h tier
    · omega
    · simp [h] at good

theorem framePops (s : State) :
    (∀ f r, s.retRing = f :: r → ∃ t, exec .frretPop s = .next t ∧ t = { s with retRing := r, readout := BitVec.ofNat 64 f }) ∧
    (s.retRing = [] → ∃ t, exec .frretPop s = .next t ∧ t = { s with readout := 0 }) := by
  have ran : exec .frretPop s = .next { s.popFrret.1 with readout := BitVec.ofNat 64 s.popFrret.2 } := rfl
  constructor
  · intro f r ring
    have popped : s.popFrret = ({ s with retRing := r }, f) := by simp only [State.popFrret, ring]
    exact ⟨_, ran, by rw [popped]⟩
  · intro ring
    have popped : s.popFrret = (s, 0) := by simp only [State.popFrret, ring]
    exact ⟨_, ran, by rw [popped]; rfl⟩

/-! ## Commands that are done, the heartbeat, modules (R212, R214, R215) -/

theorem commandsDone (s : State) (waits : s.poolCmd.waits = []) :
    (s.poolCmd.status = 3 → ∃ t, exec .poolCommandDone s = .next t ∧
      t = { s with poolCmd := { s.poolCmd with status := s.poolCmd.result, first := s.poolCmd.resultFirst } }) ∧
    (s.poolCmd.status ≠ 3 → exec .poolCommandDone s = .next s) := by
  have retried : s.poolRetry = s := by
    have same : { s with poolCmd := { s.poolCmd with waits := [] } } = s := by rw [← waits]
    rw [State.poolRetry, same, waits, List.foldl_nil]
  have ran : exec .poolCommandDone s = .next (if s.poolCmd.waits = [] ∧ s.poolCmd.status = 3
      then { s with poolCmd := { s.poolCmd with status := s.poolCmd.result, first := s.poolCmd.resultFirst } } else s) := by
    show execPoolCommandDone s = _
    simp only [execPoolCommandDone, retried]
  rw [ran]
  constructor
  · intro inProgress
    exact ⟨_, by rw [if_pos ⟨waits, inProgress⟩], rfl⟩
  · intro idle
    rw [if_neg fun h => idle h.2]

theorem inPool_congr {s t : State} (fwds : t.fwds = s.fwds) : t.inPool = s.inPool := by
  funext a
  simp only [State.inPool, State.homeAddr, State.fwdAt, fwds]

/-- The L1s drop what lies in the pool, one after another. -/
theorem foldl_l1Drop_inPool {s u : State} (fwds : u.fwds = s.fwds) (cs : List Nat) :
    cs.foldl (fun s c => s.l1Drop c s.inPool) u = cs.foldl (fun u c => u.l1Drop c s.inPool) u := by
  induction cs generalizing u with
  | nil => rfl
  | cons c cs ih =>
    rw [List.foldl_cons, List.foldl_cons, inPool_congr fwds]
    exact ih fwds

/-- Whether an entry of a store queue is a write to memory at an address. -/
def writesTo (e : SqEntry) (x : Xlat) : Prop :=
  (∃ bs, e = .store (.mem x) bs) ∨ (∃ bs, e = .sent (.mem x) bs) ∨ ∃ op t v, e = .red (.mem x) op t v

/-- A warp that has lost its writes to some addresses has none of them queued. -/
theorem storeQ_loseAt {p : Nat → Bool} {w : Warp} {e : SqEntry} {x : Xlat} (h : e ∈ (w.loseAt p).storeQ) (writes : writesTo e x) :
    p x.pa = false := by
  have stays := (List.mem_filter.mp h).2
  obtain ⟨_, rfl⟩ | ⟨_, rfl⟩ | ⟨_, _, _, rfl⟩ := writes <;> simpa using stays

theorem l2c_l2Forget (s : State) (p : Nat → Bool) (k : Nat) : (s.l2Forget p).l2c k = dropWhere p (s.l2c k) := by
  rw [State.l2c, State.l2Forget, tgetD, tget_map_value s.l2 fun _ c => dropWhere p c, State.l2c, tgetD]
  cases tget s.l2 k <;> rfl

/-- The caches once they have lost what lies in the pool. -/
def withoutPool (s : State) : State := (s.l1Cores.foldl (fun s c => s.l1Drop c s.inPool) s).l2Forget s.inPool

theorem withoutPool_caches (s : State) :
    (∃ c1 c2, withoutPool s = { s with l1 := c1, l2 := c2 }) ∧
      ∀ k a, tierOf (s.homeAddr a) = some 2 → ((withoutPool s).l1c k).byte a = none ∧ ((withoutPool s).l2c k).byte a = none := by
  rw [withoutPool, foldl_l1Drop_inPool rfl]
  obtain ⟨⟨l, rest⟩, -⟩ := l1Drops_foldl s.inPool s.l1Cores s
  refine ⟨by rw [rest]; exact ⟨_, _, rfl⟩, fun k a pool => ?_⟩
  have lost : s.inPool a = true := beq_iff_eq.mpr pool
  refine ⟨l1_gone k lost, ?_⟩
  rw [l2c_l2Forget]
  exact byte_dropWhere_of_dropped lost _

theorem heartbeatLapses (s : State) :
    (s.lastBeat + 35000000 ≤ s.now → ∃ t, exec .poolHeartbeatLapse s = .next t ∧ t.poolPages = [] ∧ t.mem = s.mem ∧
      (∀ w ∈ t.warps, ∀ e ∈ w.2.storeQ, match e with
        | .store (.mem x) _ | .sent (.mem x) _ | .red (.mem x) _ _ _ => tierOf (s.homeAddr x.pa) ≠ some 2
        | _ => True) ∧
      ∀ c p, tierOf (s.homeAddr p) = some 2 → (c < 1024 → (t.l1c c).byte p = none) ∧ (c < 3 → (t.l2c c).byte p = none)) ∧
    (s.now < s.lastBeat + 35000000 → exec .poolHeartbeatLapse s = .next s) := by
  obtain ⟨fs, ran⟩ : ∃ fs, exec .poolHeartbeatLapse s = .next (if s.lastBeat + 35000000 ≤ s.now then
      { withoutPool s with
        poolPages := [], warps := (withoutPool s).warps.map fun p => (p.1, p.2.loseAt (withoutPool s).inPool), fwds := fs } else s) := ⟨_, rfl⟩
  obtain ⟨⟨c1, c2, rest⟩, caches⟩ := withoutPool_caches s
  have same : (withoutPool s).inPool = s.inPool := inPool_congr (by rw [rest])
  rw [ran, same]
  constructor
  · intro due
    rw [if_pos due]
    refine ⟨_, rfl, rfl, by rw [rest], fun w hw e he => ?_, fun c p pool => ⟨fun _ => (caches c p pool).1, fun _ => (caches c p pool).2⟩⟩
    obtain ⟨v, -, rfl⟩ := List.mem_map.mp hw
    have outside (x : Xlat) (writes : writesTo e x) : tierOf (s.homeAddr x.pa) ≠ some 2 :=
      beq_eq_false_iff_ne.mp (storeQ_loseAt he writes)
    split
    · exact outside _ (.inl ⟨_, rfl⟩)
    · exact outside _ (.inr (.inl ⟨_, rfl⟩))
    · exact outside _ (.inr (.inr ⟨_, _, _, rfl⟩))
    · trivial
  · intro early
    rw [if_neg (Nat.not_le.mpr early)]

theorem moduleChanges (s : State) (e m : Nat) :
    (∃ t, exec (.poolModuleLoss e m) s = .next t ∧ (∀ x, x ∈ t.lostModules ↔ x = (e, m) ∨ x ∈ s.lostModules) ∧
      t = { s with lostModules := t.lostModules }) ∧
    ∃ t, exec (.poolModuleRebuild e m) s = .next t ∧ (∀ x, x ∈ t.lostModules ↔ x ≠ (e, m) ∧ x ∈ s.lostModules) ∧
      t = { s with lostModules := t.lostModules } := by
  constructor
  · have ran : exec (.poolModuleLoss e m) s = .next (if s.lostModules.contains (e, m) then s
      else { s with lostModules := s.lostModules ++ [(e, m)] }) := rfl
    rw [ran]
    split
    · rename_i listed
      have lost : (e, m) ∈ s.lostModules := by simpa using listed
      exact ⟨s, rfl, fun x => ⟨.inr, fun h => h.elim (fun same => same ▸ lost) id⟩, rfl⟩
    · exact ⟨_, rfl, fun x => by simp [or_comm], rfl⟩
  · exact ⟨_, rfl, fun x => by simp [and_comm], rfl⟩

/-- Settles O58: a command's pages leave the caches as L1 writes back, then drops, and L2 writes back and drops, none of which changes a byte
that anyone reads; what it then does to the ownership, and a PUBLISH to the version number, is said apart. -/
theorem poolEvents : Obligations.PoolEvents := by
  intro s
  refine ⟨⟨_, rfl, rfl⟩, migdecayWrites s, (counterDecays s).1, (counterDecays s).2, fun ring v hr => framePushes s hr v, (framePops s).1,
    (framePops s).2, fun page count hp hc quiet caches none => ?_, fun waits => (commandsDone s waits).1, fun waits => (commandsDone s waits).2,
    poolRevokes s, ⟨_, rfl, rfl⟩, (heartbeatLapses s).1, (heartbeatLapses s).2, moduleChanges s⟩
  obtain ⟨refused, granted⟩ := poolAcquires hp hc quiet caches none
  exact ⟨refused, granted, poolReleases hp hc quiet none, fun waits => (poolPublishes hp hc quiet caches none waits).1,
    fun j hj lacking before waits => (poolPublishes hp hc quiet caches none waits).2 j hj lacking before,
    poolPublished hp hc quiet none⟩

end Sys2Proof.Proofs
end

