-- ==== Sys2Proof/Proofs/ForwardedDestination.lean ====
section
/-! PROOFS. O35 fails: its clause for a service core says that the drain of a store changes no byte outside the store's own addresses. From the
Switch of a migration to its Release two addresses name one byte: that of the old frame is served in the new one (R199). A statement about
every state has also the state in which a queued store names the new frame, and the premise that no forwarding entry covers the store's
address is about entries whose source it is, not about those whose destination it is: the store changes what the old address reads as. -/

namespace Sys2Proof.Proofs

open Sys2Proof Sys2Proof.Machine Sys2Proof.Claims

/-- A page that has moved from the frame at 0x100000 to the one at 0x200000, and has not been released. -/
def movedPage : Fwd :=
  { src := 0x100000, dst := 0x200000, tenant := 0, ipa := 0, leafPa := 0, leafOld := 0, srcTier := 0, dstTier := 0, switched := true }

/-- A store of one byte to the page where it lies now. -/
def storeToMoved : SqEntry := .store (.mem (physXlat 0x200000)) [5]

/-- The machine at reset, but that the page has moved and service thread 0 has the store in its queue. -/
def storeAfterSwitch : State :=
  { State.reset with
    warps := [(0, { serviceWarp 0 with storeQ := [storeToMoved] })]
    fwds := [(0, movedPage)] }

/-- Every cache is empty. -/
theorem cachesOk_storeAfterSwitch : cachesOk storeAfterSwitch := by
  have tidyEmpty : tidy {} := ⟨rfl, nofun⟩
  exact ⟨fun _ => ⟨tidyEmpty, tidyEmpty⟩, fun _ _ => rfl, fun _ _ _ _ _ _ _ found => nomatch found⟩

/-- The byte of the old address is 0 before the drain. -/
theorem byteAt_before_storeAfterSwitch : storeAfterSwitch.byteAt 0x100000 = 0 := by decide

/-- It is the stored byte after the drain. -/
theorem byteAt_after_storeAfterSwitch {t : State} (h : exec (.storeQueueDrain 0) storeAfterSwitch = .next t) : t.byteAt 0x100000 = 5 := by
  have run : (match exec (.storeQueueDrain 0) storeAfterSwitch with
      | .next u => u.byteAt 0x100000
      | _ => 0) = 5 := by decide
  rwa [h] at run

/-- Refutes O35: a service thread's store to the new frame of a page between its Switch and its Release changes the byte of the old
address, which is not among the store's own. -/
theorem not_drainsAndReductions : ¬ Obligations.DrainsAndReductions := by
  rintro ⟨drains, -⟩
  obtain ⟨stores, -⟩ :=
    drains storeAfterSwitch 0 (physXlat 0x200000) [] rfl (by decide) rfl rfl (by decide) (by decide) cachesOk_storeAfterSwitch
  obtain ⟨-, fromService⟩ := stores [5] rfl
  obtain ⟨t, ran, -, -, bytes⟩ := fromService (by decide) (by decide) (by decide)
  have unchanged := bytes 0x100000
  rw [byteAt_after_storeAfterSwitch ran, byteAt_before_storeAfterSwitch] at unchanged
  exact absurd unchanged (by decide)

end Sys2Proof.Proofs
end

