-- ==== Sys2Proof/Proofs/CacheContents.lean ====
section
/-! PROOFS. What each operation on a cache does to the bytes that it holds, and that it leaves the cache's tables in order (R101, R102). -/

namespace Sys2Proof.Proofs

open Sys2Proof Sys2Proof.Machine Sys2Proof.Claims

-- One proof after another: proofs run side by side over a text of this length need more threads than the check has memory for.
set_option Elab.async false

theorem tidy_empty : tidy {} := ⟨rfl, nofun⟩

/-- The sector that is listed for a number in a cache in order. -/
theorem tidy_sector {c : Cache} (order : tidy c) {k : Nat} {x : Sector} (found : tget c.sectors k = some x) :
    tsorted x.bytes = true ∧ ∀ b ∈ x.bytes, b.1 < 64 :=
  order.2 _ (mem_of_tget found)

/-- A dirty byte is a byte held. -/
theorem dirtyByte_of_lacking {c : Cache} {a : Nat} (lacking : c.byte a = none) : c.dirtyByte a = none := by
  rw [dirtyByte_eq, lacking]
  rfl

/-- A cache that holds nothing of a line holds no byte of it. -/
theorem byte_of_not_hasLine {c : Cache} {line a : Nat} (absent : c.hasLine line = false) (here : a / 256 = line) : c.byte a = none := by
  rw [Cache.byte_eq]
  cases found : tget c.sectors (a / 64) with
  | none => rfl
  | some x =>
    have sector : (a / 64, x).1 / 4 == line := by
      have : a / 64 / 4 = a / 256 := Nat.div_div_eq_div_mul a 64 4
      simp [this, here]
    have held : c.hasLine line = true := List.any_eq_true.mpr ⟨_, mem_of_tget found, sector⟩
    rw [absent] at held
    cases held

/-! ## Dirty bytes made clean -/

/-- A byte made clean where a test holds. -/
def cleanedByte (p : Nat → Bool) (a : Nat) (b : CByte) : CByte := if p a then { b with dirty := false } else b

/-- A sector of which the bytes that pass a test are made clean. -/
def cleanedSector (p : Nat → Bool) (k : Nat) (x : Sector) : Sector :=
  { x with bytes := x.bytes.map fun b => (b.1, cleanedByte p (64 * k + b.1) b.2) }

theorem sectors_cleanWhere (p : Nat → Bool) (c : Cache) :
    (cleanWhere p c).sectors = c.sectors.map fun x => (x.1, cleanedSector p x.1 x.2) := by
  have byte (k : Nat) (b : Nat × CByte) :
      (if p (64 * k + b.1) then (b.1, { b.2 with dirty := false }) else b) = (b.1, cleanedByte p (64 * k + b.1) b.2) := by
    unfold cleanedByte
    split <;> rfl
  simp only [cleanWhere, cleanedSector, byte]

theorem byte_cleanWhere (p : Nat → Bool) (c : Cache) (a : Nat) : (cleanWhere p c).byte a = (c.byte a).map (cleanedByte p a) := by
  rw [Cache.byte_eq, Cache.byte_eq, sectors_cleanWhere, tget_map_value c.sectors (cleanedSector p)]
  cases tget c.sectors (a / 64) with
  | none => rfl
  | some x =>
    rw [Option.map_some, Option.bind_some, Option.bind_some, cleanedSector,
      tget_map_value x.bytes (fun o => cleanedByte p (64 * (a / 64) + o)), show 64 * (a / 64) + a % 64 = a by omega]

theorem dirtyByte_cleanWhere (p : Nat → Bool) (c : Cache) (a : Nat) :
    (cleanWhere p c).dirtyByte a = if p a then none else c.dirtyByte a := by
  rw [dirtyByte_eq, dirtyByte_eq, byte_cleanWhere]
  cases c.byte a with
  | none => simp
  | some b => cases hp : p a <;> simp [cleanedByte, hp]

theorem tidy_cleanWhere {c : Cache} (order : tidy c) (p : Nat → Bool) : tidy (cleanWhere p c) := by
  unfold tidy
  rw [sectors_cleanWhere]
  refine ⟨tsorted_map_value (cleanedSector p) order.1, fun y hy => ?_⟩
  obtain ⟨x, hx, rfl⟩ := List.mem_map.mp hy
  obtain ⟨rising, within⟩ := order.2 x hx
  refine ⟨tsorted_map_value (fun o => cleanedByte p (64 * x.1 + o)) rising, fun b hb => ?_⟩
  obtain ⟨b', hb', rfl⟩ := List.mem_map.mp hb
  exact within b' hb'

/-! ## Bytes dropped by what they are -/

/-- A sector without its bytes that pass a test. -/
def droppedSector (p : Nat → CByte → Bool) (k : Nat) (x : Sector) : Sector :=
  let bs := x.bytes.filter fun b => !p (64 * k + b.1) b.2
  { filled := x.filled && bs.length == x.bytes.length, bytes := bs }

theorem sectors_dropIf (p : Nat → CByte → Bool) (c : Cache) :
    (dropIf p c).sectors = (c.sectors.map fun x => (x.1, droppedSector p x.1 x.2)).filter fun x => x.2.bytes != [] := rfl

theorem byte_dropIf {c : Cache} (order : tidy c) (p : Nat → CByte → Bool) (a : Nat) :
    (dropIf p c).byte a = (c.byte a).filter fun b => !p a b := by
  rw [Cache.byte_eq, Cache.byte_eq, sectors_dropIf, tget_filter_value (tsorted_map_value (droppedSector p) order.1),
    tget_map_value c.sectors (droppedSector p)]
  cases found : tget c.sectors (a / 64) with
  | none => rfl
  | some x =>
    have left : tget (droppedSector p (a / 64) x).bytes (a % 64) = (tget x.bytes (a % 64)).filter fun b => !p a b := by
      rw [droppedSector, tget_filter_value (tidy_sector order found).1]
      dsimp only
      rw [show 64 * (a / 64) + a % 64 = a by omega]
    rw [Option.map_some, Option.filter_some, Option.bind_some, ← left]
    split
    · rfl
    · rename_i empty
      have none : (droppedSector p (a / 64) x).bytes = [] := by simpa using empty
      rw [none]
      rfl

theorem tidy_dropIf {c : Cache} (order : tidy c) (p : Nat → CByte → Bool) : tidy (dropIf p c) := by
  refine ⟨tsorted_filter _ _ (tsorted_map_value (droppedSector p) order.1), fun y hy => ?_⟩
  obtain ⟨x, hx, rfl⟩ := List.mem_map.mp (List.mem_filter.mp hy).1
  obtain ⟨rising, within⟩ := order.2 x hx
  exact ⟨tsorted_filter _ _ rising, fun b hb => within b (List.mem_filter.mp hb).1⟩

theorem dirtyByte_dropIf_of_clean {c : Cache} (order : tidy c) (p : Nat → CByte → Bool) {a : Nat} (clean : c.dirtyByte a = none) :
    (dropIf p c).dirtyByte a = none := by
  rw [dirtyByte_eq] at clean ⊢
  rw [byte_dropIf order]
  cases held : c.byte a with
  | none => rfl
  | some b =>
    rw [held] at clean
    rw [Option.filter_some]
    split
    · exact clean
    · rfl

theorem dirtyByte_dropWhere {c : Cache} (order : tidy c) (p : Nat → Bool) (a : Nat) :
    (dropWhere p c).dirtyByte a = if p a then none else c.dirtyByte a := by
  rw [dirtyByte_eq, byte_dropWhere order, dirtyByte_eq]
  split <;> rfl

/-! ## Bytes put -/

/-- One byte put into a table of sectors. -/
def putByte (dirty : Bool) (t : Tbl Sector) (w : Nat × Byte) : Tbl Sector :=
  tupd t (w.1 / 64) {} fun x => { x with bytes := tset x.bytes (w.1 % 64) { val := w.2, dirty := dirty } }

theorem sectors_cachePut (c : Cache) (dirty : Bool) (ws : List (Nat × Byte)) : (cachePut c dirty ws).sectors = ws.foldl (putByte dirty) c.sectors :=
  rfl

theorem cachePut_cons (c : Cache) (dirty : Bool) (w : Nat × Byte) (ws : List (Nat × Byte)) :
    cachePut c dirty (w :: ws) = cachePut (cachePut c dirty [w]) dirty ws := rfl

theorem byte_cachePut_one (c : Cache) (dirty : Bool) (w : Nat × Byte) (a : Nat) :
    (cachePut c dirty [w]).byte a = if a = w.1 then some { val := w.2, dirty := dirty } else c.byte a := by
  rw [Cache.byte_eq, Cache.byte_eq, sectors_cachePut, List.foldl_cons, List.foldl_nil, putByte, tupd, tget_tset]
  by_cases sector : a / 64 = w.1 / 64
  · rw [if_pos sector, Option.bind_some, tget_tset, sector]
    have offset : a % 64 = w.1 % 64 ↔ a = w.1 := by omega
    by_cases same : a = w.1
    · rw [if_pos (offset.mpr same), if_pos same]
    · rw [if_neg (mt offset.mp same), if_neg same, tgetD]
      cases tget c.sectors (w.1 / 64) <;> rfl
  · rw [if_neg sector, if_neg fun same => sector (by rw [same])]

/-- A byte that no write is to stays. -/
theorem byte_cachePut_other (c : Cache) (dirty : Bool) {ws : List (Nat × Byte)} {a : Nat} (other : ∀ w ∈ ws, w.1 ≠ a) :
    (cachePut c dirty ws).byte a = c.byte a := by
  induction ws generalizing c with
  | nil => rfl
  | cons w ws ih =>
    rw [cachePut_cons, ih _ fun x hx => other x (List.mem_cons_of_mem _ hx), byte_cachePut_one,
      if_neg fun same => other w List.mem_cons_self same.symm]

/-- Of several writes to a byte the last stands. -/
theorem byte_cachePut (c : Cache) (dirty : Bool) (ws : List (Nat × Byte)) (a : Nat) :
    (cachePut c dirty ws).byte a =
      match ws.reverse.find? fun w => w.1 = a with
      | some w => some { val := w.2, dirty := dirty }
      | none => c.byte a := by
  induction ws generalizing c with
  | nil => rfl
  | cons w ws ih =>
    rw [cachePut_cons, ih, byte_cachePut_one, List.reverse_cons, List.find?_append]
    cases ws.reverse.find? fun w => w.1 = a with
    | some x => rfl
    | none =>
      by_cases same : w.1 = a
      · simp [same]
      · simp [same, Ne.symm same]

theorem dirtyByte_cachePut_other (c : Cache) (dirty : Bool) {ws : List (Nat × Byte)} {a : Nat} (other : ∀ w ∈ ws, w.1 ≠ a) :
    (cachePut c dirty ws).dirtyByte a = c.dirtyByte a := by
  rw [dirtyByte_eq, dirtyByte_eq, byte_cachePut_other c dirty other]

/-- Clean bytes put make nothing dirty. -/
theorem dirtyByte_cachePut_clean {c : Cache} (ws : List (Nat × Byte)) {a : Nat} (clean : c.dirtyByte a = none) :
    (cachePut c false ws).dirtyByte a = none := by
  rw [dirtyByte_eq] at clean ⊢
  rw [byte_cachePut]
  split
  · rfl
  · exact clean

theorem tidy_cachePut {c : Cache} (order : tidy c) (dirty : Bool) (ws : List (Nat × Byte)) : tidy (cachePut c dirty ws) := by
  induction ws generalizing c with
  | nil => exact order
  | cons w ws ih =>
    rw [cachePut_cons]
    refine ih ⟨tsorted_tset _ _ _ order.1, fun y hy => ?_⟩
    obtain rfl | hy := mem_tset hy
    · have before : tsorted (tgetD c.sectors (w.1 / 64) ({} : Sector)).bytes = true ∧ ∀ b ∈ (tgetD c.sectors (w.1 / 64) ({} : Sector)).bytes, b.1 < 64 := by
        rw [tgetD]
        cases found : tget c.sectors (w.1 / 64) with
        | none => exact ⟨rfl, nofun⟩
        | some x => exact tidy_sector order found
      refine ⟨tsorted_tset _ _ _ before.1, fun b hb => ?_⟩
      obtain rfl | hb := mem_tset hb
      · exact Nat.mod_lt _ (by decide)
      · exact before.2 b hb
    · exact order.2 y hy

/-! ## A sector filled -/

/-- The bytes of a filled sector. -/
theorem tget_range_map {α : Type} (f : Nat → α) (n k : Nat) : tget ((List.range n).map fun o => (o, f o)) k = if k < n then some (f k) else none := by
  induction n with
  | zero => rfl
  | succ n ih =>
    have append (t u : Tbl α) : tget (t ++ u) k = (tget t k).or (tget u k) := by
      induction t with
      | nil => rfl
      | cons x r ih' =>
        rw [List.cons_append, tget, tget, ih']
        split <;> rfl
    rw [List.range_succ, List.map_append, append, ih]
    by_cases small : k < n
    · rw [if_pos small, if_pos (by omega)]
      rfl
    · rw [if_neg small, Option.none_or, List.map_singleton, tget, tget]
      by_cases here : k = n
      · rw [if_pos here, if_pos (by omega), here]
      · rw [if_neg here, if_neg (by omega)]

theorem tsorted_range_map {α : Type} (f : Nat → α) (n : Nat) : tsorted ((List.range n).map fun o => (o, f o)) = true := by
  have from_ (l : List Nat) (rising : l.Pairwise (· < ·)) : tsorted (l.map fun o => (o, f o)) = true := by
    induction l with
    | nil => rfl
    | cons x l ih =>
      obtain ⟨first, rest⟩ := List.pairwise_cons.mp rising
      refine tsorted_cons (fun q hq => ?_) (ih rest)
      obtain ⟨y, hy, rfl⟩ := List.mem_map.mp hq
      exact first y hy
  exact from_ _ List.pairwise_lt_range

/-- A fill brings no dirty byte, and keeps those that are there. -/
theorem byte_fill (c : Cache) (sec : Nat) (src : Nat → Byte) (a : Nat) :
    (c.fill sec src).byte a = if a / 64 = sec
      then some (match c.byte a with
        | some b => if b.dirty then b else { val := src a, dirty := false }
        | none => { val := src a, dirty := false })
      else c.byte a := by
  rw [Cache.byte_eq]
  simp only [Cache.fill, tget_tset]
  split
  · rename_i here
    rw [Option.bind_some, tget_range_map, if_pos (Nat.mod_lt _ (by decide)), Cache.byte_eq, here, show 64 * sec + a % 64 = a by omega, tgetD]
    cases tget c.sectors sec <;> rfl
  · rw [Cache.byte_eq]

theorem dirtyByte_fill (c : Cache) (sec : Nat) (src : Nat → Byte) (a : Nat) : (c.fill sec src).dirtyByte a = c.dirtyByte a := by
  rw [dirtyByte_eq, dirtyByte_eq, byte_fill]
  split
  · cases c.byte a with
    | none => rfl
    | some b => cases hb : b.dirty <;> simp [hb]
  · rfl

theorem tidy_fill {c : Cache} (order : tidy c) (sec : Nat) (src : Nat → Byte) : tidy (c.fill sec src) := by
  refine ⟨tsorted_tset _ _ _ order.1, fun y hy => ?_⟩
  obtain rfl | hy := mem_tset hy
  · dsimp only
    refine ⟨tsorted_range_map _ 64, fun b hb => ?_⟩
    obtain ⟨o, ho, rfl⟩ := List.mem_map.mp hb
    exact List.mem_range.mp ho
  · exact order.2 y hy

/-! ## Places and uncorrectable errors -/

/-- A line that is given a place brings no byte. -/
theorem sectors_place {c d : Cache} {line slice set : Nat} {ways : List Nat} {attr : Option Xlat}
    (placed : c.place line slice set ways attr = some d) : d.sectors = c.sectors := by
  unfold Cache.place at placed
  split at placed
  · obtain rfl := Option.some.inj placed
    rfl
  · obtain ⟨w, -, rfl⟩ := Option.map_eq_some_iff.mp placed
    rfl

/-- A line that is held finds its place. -/
theorem place_of_hasLine {c : Cache} {line : Nat} (held : c.hasLine line = true) (slice set : Nat) (ways : List Nat) (attr : Option Xlat) :
    c.place line slice set ways attr ≠ none := by
  rw [Cache.place, if_pos held]
  exact Option.some_ne_none _

theorem byte_of_sectors {c d : Cache} (same : d.sectors = c.sectors) (a : Nat) : d.byte a = c.byte a := by
  rw [Cache.byte_eq, Cache.byte_eq, same]

theorem dirtyByte_of_sectors {c d : Cache} (same : d.sectors = c.sectors) (a : Nat) : d.dirtyByte a = c.dirtyByte a := by
  rw [dirtyByte_eq, dirtyByte_eq, byte_of_sectors same]

theorem tidy_of_sectors {c d : Cache} (same : d.sectors = c.sectors) (order : tidy c) : tidy d := by
  unfold tidy
  rw [same]
  exact order

/-- The sectors of a cache of which one line has met an uncorrectable error. -/
theorem tidy_spoil {c : Cache} (order : tidy c) (line : Nat) : tidy (c.spoil line) := by
  have sectors : (c.spoil line).sectors = c.sectors.map fun x => (x.1, if x.1 / 4 = line
      then { x.2 with bytes := x.2.bytes.map fun b => (b.1, { b.2 with bad := true }) } else x.2) := by
    unfold Cache.spoil
    refine List.map_congr_left fun x _ => ?_
    split <;> rfl
  unfold tidy
  rw [sectors]
  refine ⟨tsorted_map_value (fun k x => if k / 4 = line then { x with bytes := x.bytes.map fun b => (b.1, { b.2 with bad := true }) } else x)
    order.1, fun y hy => ?_⟩
  obtain ⟨x, hx, rfl⟩ := List.mem_map.mp hy
  obtain ⟨rising, within⟩ := order.2 x hx
  dsimp only
  split
  · refine ⟨tsorted_map_value (fun _ (b : CByte) => { b with bad := true }) rising, fun b hb => ?_⟩
    obtain ⟨b', hb', rfl⟩ := List.mem_map.mp hb
    exact within b' hb'
  · exact ⟨rising, within⟩

end Sys2Proof.Proofs
end

