-- ==== Sys2Proof/Proofs/CoherentWrites.lean ====
section
/-! PROOFS. What the memory of the package can do to the two invariants of the machine, memory in its canonical form and at most one dirty
copy of a byte among the L2s (R103): each of its operations keeps both. -/

namespace Sys2Proof.Proofs

open Sys2Proof Sys2Proof.Machine Sys2Proof.Claims

-- One proof after another: proofs run side by side over a text of this length need more threads than the check has memory for.
set_option Elab.async false

/-! ## What is kept -/

/-- The caches of the machine as the directory keeps them (R103). -/
def cachesHold (l1 l2 : Tbl Cache) : Prop :=
  (∀ k, tidy (tgetD l1 k {}) ∧ tidy (tgetD l2 k {})) ∧ (∀ c, 1024 ≤ c → tgetD l1 c {} = {}) ∧
  ∀ a i j b c, i < 3 → j < 3 → (tgetD l2 i {}).dirtyByte a = some b → (tgetD l2 j {}).dirtyByte a = some c → i = j

theorem cachesOk_iff (s : State) : cachesOk s ↔ cachesHold s.l1 s.l2 := Iff.rfl

/-- Memory and caches keep their form from one machine to another. -/
def KeepsParts (m : List Host.Cell) (l1 l2 : Tbl Cache) (m' : List Host.Cell) (l1' l2' : Tbl Cache) : Prop :=
  (Memory.wf m = true → Memory.wf m' = true) ∧ (cachesHold l1 l2 → cachesHold l1' l2')

/-- BOTH INVARIANTS ARE KEPT from one state to another. It speaks of memory and the caches alone, so that a proof of it for a state is one for
every state that differs elsewhere. -/
def Keeps (s t : State) : Prop := KeepsParts s.mem s.l1 s.l2 t.mem t.l1 t.l2

theorem Keeps.refl (s : State) : Keeps s s := ⟨id, id⟩

theorem Keeps.trans {s t u : State} (h : Keeps s t) (h' : Keeps t u) : Keeps s u := ⟨h'.1 ∘ h.1, h'.2 ∘ h.2⟩

theorem Keeps.memOk {s t : State} (h : Keeps s t) : s.memOk → t.memOk := h.1

theorem Keeps.cachesOk {s t : State} (h : Keeps s t) : cachesOk s → cachesOk t := h.2

/-- The state that an operation may answer keeps them. -/
def KeepsOpt (s : State) (o : Option State) : Prop := ∀ t, o = some t → Keeps s t

/-- The state that an operation answers beside a value keeps them. -/
def KeepsPair {α : Type} (s : State) (r : State × α) : Prop := Keeps s r.1

/-- The state that an operation may answer beside a value keeps them. -/
def KeepsOptPair {α : Type} (s : State) (o : Option (State × α)) : Prop := ∀ r, o = some r → Keeps s r.1

section
variable {s0 s t : State} {o : Option State}

theorem KeepsOpt.some (h : Keeps s0 t) : KeepsOpt s0 (Option.some t) := fun _ e => Option.some.inj e ▸ h

theorem KeepsOpt.none : KeepsOpt s0 Option.none := fun _ e => nomatch e

theorem KeepsOpt.map {f : State → State} (h : KeepsOpt s0 o) (step : ∀ t, Keeps s0 t → Keeps s0 (f t)) : KeepsOpt s0 (o.map f) := by
  intro u e
  obtain ⟨t, found, rfl⟩ := Option.map_eq_some_iff.mp e
  exact step t (h t found)

theorem KeepsOpt.bind {f : State → Option State} (h : KeepsOpt s0 o) (step : ∀ t, Keeps s0 t → KeepsOpt s0 (f t)) : KeepsOpt s0 (o.bind f) := by
  intro u e
  obtain ⟨t, found, e⟩ := Option.bind_eq_some_iff.mp e
  exact step t (h t found) u e

theorem KeepsOpt.getD (h : KeepsOpt s0 o) (ok : Keeps s0 s) : Keeps s0 (o.getD s) := by
  cases o with
  | none => exact ok
  | some t => exact h t rfl

/-- What changes elsewhere keeps them. -/
theorem Keeps.elsewhere (ok : Keeps s0 s) (mem : t.mem = s.mem := by dsimp only) (l1 : t.l1 = s.l1 := by dsimp only)
    (l2 : t.l2 = s.l2 := by dsimp only) : Keeps s0 t := by
  rw [Keeps, mem, l1, l2]
  exact ok

/-- Steps of which each keeps them do so together. -/
theorem Keeps.foldl {α : Type} {f : State → α → State} (ok : Keeps s0 s) (xs : List α) (step : ∀ t x, Keeps s0 t → Keeps s0 (f t x)) :
    Keeps s0 (xs.foldl f s) := by
  induction xs generalizing s with
  | nil => exact ok
  | cons x xs ih => exact ih (step s x ok)

theorem KeepsOpt.foldl {α : Type} {f : Option State → α → Option State} (h : KeepsOpt s0 o) (xs : List α)
    (step : ∀ o x, KeepsOpt s0 o → KeepsOpt s0 (f o x)) : KeepsOpt s0 (xs.foldl f o) := by
  induction xs generalizing o with
  | nil => exact h
  | cons x xs ih => exact ih (step o x h)

theorem Keeps.tryAll {α : Type} {f : State → α → Option State} (ok : Keeps s0 s) (xs : List α)
    (step : ∀ t x, Keeps s0 t → KeepsOpt s0 (f t x)) : KeepsOpt s0 (tryAll f s xs) :=
  KeepsOpt.foldl (.some ok) xs fun _ x h => h.bind fun t ok => step t x ok

theorem Keeps.ite {c : Prop} [Decidable c] (h : c → Keeps s0 s) (h' : ¬ c → Keeps s0 t) : Keeps s0 (if c then s else t) := by
  split
  · exact h ‹_›
  · exact h' ‹_›

/-! ## Memory and single caches -/

/-- A write of memory keeps its form. -/
theorem Keeps.memSetAll {ws : List (Nat × Byte)} (ok : Keeps s0 s) : Keeps s0 { s with mem := memSetAll s.mem ws } :=
  ⟨fun h => wf_memSetAll _ _ (ok.1 h), ok.2⟩

theorem Keeps.of_cachesOk (ok : Keeps s0 s) (mem : t.mem = s.mem) (caches : Claims.cachesOk s → Claims.cachesOk t) : Keeps s0 t :=
  ⟨fun h => mem ▸ ok.1 h, fun h => caches (ok.2 h)⟩

theorem l2c_setL2 (s : State) (id k : Nat) (c : Cache) : (s.setL2 id c).l2c k = if k = id then c else s.l2c k := tgetD_tset ..

/-- An L1 may take any form in order; that of a service core stays empty. -/
theorem Keeps.setL1 {core : Nat} {c : Cache} (ok : Keeps s0 s) (order : tidy (s.l1c core) → tidy c)
    (service : 1024 ≤ core → s.l1c core = {} → c = {}) : Keeps s0 (s.setL1 core c) := by
  refine ok.of_cachesOk rfl fun ⟨tables, empty, single⟩ => ⟨fun k => ⟨?_, (tables k).2⟩, fun k big => ?_, single⟩
  · rw [l1c_setL1]
    split
    · exact order (tables core).1
    · exact (tables k).1
  · rw [l1c_setL1]
    split
    · rename_i here
      exact service (here ▸ big) (empty core (here ▸ big))
    · exact empty k big

/-- A cache that is in order where another is, and dirty only where that one is. -/
def Tamer (c d : Cache) : Prop := tidy c → tidy d ∧ ∀ a, c.dirtyByte a = none → d.dirtyByte a = none

theorem tamer_cleanWhere (p : Nat → Bool) (c : Cache) : Tamer c (cleanWhere p c) := fun order =>
  ⟨tidy_cleanWhere order p, fun a clean => by rw [dirtyByte_cleanWhere, clean, ite_self]⟩

theorem tamer_dropWhere (p : Nat → Bool) (c : Cache) : Tamer c (dropWhere p c) := fun order =>
  ⟨tidy_dropWhere order p, fun a clean => by rw [dirtyByte_dropWhere order, clean, ite_self]⟩

theorem tamer_dropIf (p : Nat → CByte → Bool) (c : Cache) : Tamer c (dropIf p c) := fun order =>
  ⟨tidy_dropIf order p, fun _ clean => dirtyByte_dropIf_of_clean order p clean⟩

theorem tamer_fill {c d : Cache} (same : d.sectors = c.sectors) (sec : Nat) (src : Nat → Byte) : Tamer c (d.fill sec src) := fun order =>
  ⟨tidy_fill (tidy_of_sectors same order) sec src, fun a clean => by rw [dirtyByte_fill, dirtyByte_of_sectors same, clean]⟩

theorem tamer_cachePut_clean {c d : Cache} (same : d.sectors = c.sectors) (ws : List (Nat × Byte)) : Tamer c (cachePut d false ws) := fun order =>
  ⟨tidy_cachePut (tidy_of_sectors same order) false ws, fun a clean => dirtyByte_cachePut_clean ws (by rw [dirtyByte_of_sectors same, clean])⟩

/-- Where every L2 is dirty only where one of its number was, a byte still has one dirty copy at most. -/
theorem cachesOk_of_tamer {l1 : Tbl Cache} (caches : Claims.cachesOk s) (firsts : t.l1 = l1) (same : s.l1 = l1)
    (tame : ∀ k, Tamer (s.l2c k) (t.l2c k)) : Claims.cachesOk t := by
  obtain ⟨tables, empty, single⟩ := caches
  have l1c (k : Nat) : t.l1c k = s.l1c k := by rw [State.l1c, firsts, State.l1c, same]
  have dirty (k a : Nat) (v : Byte) (h : (t.l2c k).dirtyByte a = Option.some v) : ∃ v, (s.l2c k).dirtyByte a = Option.some v := by
    cases before : (s.l2c k).dirtyByte a with
    | none => rw [((tame k) (tables k).2).2 a before] at h; cases h
    | some v => exact ⟨v, rfl⟩
  refine ⟨fun k => ⟨l1c k ▸ (tables k).1, ((tame k) (tables k).2).1⟩, fun k big => (l1c k).trans (empty k big), fun a i j b c hi hj h h' => ?_⟩
  obtain ⟨v, hv⟩ := dirty i a b h
  obtain ⟨v', hv'⟩ := dirty j a c h'
  exact single a i j v v' hi hj hv hv'

theorem tamer_refl (c : Cache) : Tamer c c := fun order => ⟨order, fun _ => id⟩

theorem tamer_setL2 {id : Nat} {c : Cache} (tame : Tamer (s.l2c id) c) (k : Nat) : Tamer (s.l2c k) ((s.setL2 id c).l2c k) := by
  rw [l2c_setL2]
  split
  · rename_i here
    exact here ▸ tame
  · exact tamer_refl _

theorem Keeps.setL2 {id : Nat} {c : Cache} (ok : Keeps s0 s) (tame : Tamer (s.l2c id) c) : Keeps s0 (s.setL2 id c) :=
  ok.of_cachesOk rfl fun caches => cachesOk_of_tamer caches rfl rfl (tamer_setL2 tame)

/-- Caches of a table changed one by one. -/
theorem tgetD_map_cache (l : Tbl Cache) {f : Cache → Cache} (empty : f {} = {}) (k : Nat) :
    tgetD (l.map fun c => (c.1, f c.2)) k {} = f (tgetD l k {}) := by
  rw [tgetD, tget_map_value l fun _ c => f c, tgetD]
  cases tget l k with
  | none => exact empty.symm
  | some c => rfl

theorem Keeps.l2Forget {p : Nat → Bool} (ok : Keeps s0 s) : Keeps s0 (s.l2Forget p) :=
  ok.of_cachesOk rfl fun caches => cachesOk_of_tamer caches rfl rfl fun k => by
    have dropped : (s.l2Forget p).l2c k = dropWhere p (s.l2c k) := tgetD_map_cache s.l2 rfl k
    rw [dropped]
    exact tamer_dropWhere p _

end

/-! ## Requests that count, and caches that give a line up -/

/-- THE STEPS BEFORE A WRITE: both invariants are kept, no L2 gets a dirty byte, and every address is served where it was. -/
structure Tames (s t : State) : Prop where
  keeps : Keeps s t
  clean : cachesOk s → ∀ k a, (s.l2c k).dirtyByte a = none → (t.l2c k).dirtyByte a = none
  homes : ∀ a, t.homeAddr a = s.homeAddr a

section
variable {s t u : State}

theorem Tames.refl (s : State) : Tames s s := ⟨.refl s, fun _ _ _ => id, fun _ => rfl⟩

theorem Tames.trans (h : Tames s t) (h' : Tames t u) : Tames s u :=
  ⟨h.keeps.trans h'.keeps, fun caches k a clean => h'.clean (h.keeps.cachesOk caches) k a (h.clean caches k a clean),
    fun a => (h'.homes a).trans (h.homes a)⟩

theorem Tames.foldl {α : Type} {f : State → α → State} (xs : List α) (step : ∀ t x, Tames t (f t x)) (s : State) : Tames s (xs.foldl f s) := by
  induction xs generalizing s with
  | nil => exact .refl s
  | cons x xs ih => exact (step s x).trans (ih _)

theorem homeAddr_congr (fwds : t.fwds = s.fwds) (a : Nat) : t.homeAddr a = s.homeAddr a := by
  simp only [State.homeAddr, State.fwdAt, fwds]

/-- What changes elsewhere, every address being served where it was. -/
theorem Tames.elsewhere (h : Tames s t) (homes : ∀ a, u.homeAddr a = s.homeAddr a) (mem : u.mem = t.mem := by dsimp only)
    (l1 : u.l1 = t.l1 := by dsimp only) (l2 : u.l2 = t.l2 := by dsimp only) : Tames s u :=
  ⟨h.keeps.elsewhere mem l1 l2, fun caches k a clean => by rw [State.l2c, l2]; exact h.clean caches k a clean, homes⟩

/-- A cache writes back some bytes and becomes a tamer one. -/
theorem tames_writeBack (s : State) {id : Nat} {c : Cache} (tame : Tamer (s.l2c id) c) (ws : List (Nat × Byte)) :
    Tames s ({ s with mem := memSetAll s.mem ws }.setL2 id c) where
  keeps := (Keeps.refl s).memSetAll.setL2 tame
  clean := fun caches k a clean => (tamer_setL2 tame k (caches.1 k).2).2 a clean
  homes := homeAddr_congr rfl

theorem tames_l2CleanAll (s : State) (p : Nat → Bool) : Tames s (s.l2CleanAll p) :=
  .foldl _ (fun t id => by
    dsimp only
    split
    · exact .refl t
    · exact tames_writeBack t (tamer_cleanWhere p _) _) s

/-- An entry listed under a free number, found where none was. -/
theorem find?_tset_of_none {α : Type} {f : Tbl α} {k : Nat} (x : α) (q : Nat × α → Bool) (free : tget f k = none) :
    (q (k, x) = false → (tset f k x).find? q = f.find? q) ∧
      (q (k, x) = true → f.find? q = none → (tset f k x).find? q = some (k, x)) := by
  induction f with
  | nil =>
    refine ⟨fun no => ?_, fun yes _ => ?_⟩
    · rw [tset, List.find?_cons, no]
    · rw [tset, List.find?_cons, yes]
  | cons p r ih =>
    obtain ⟨j, y⟩ := p
    rw [tget] at free
    split at free
    · cases free
    rename_i other
    obtain ⟨absent, found⟩ := ih free
    rw [tset, if_neg other]
    constructor
    · intro no
      split
      · rw [List.find?_cons, no]
      · rw [List.find?_cons, List.find?_cons, absent no]
    · intro yes none
      split
      · rw [List.find?_cons, yes]
      · rw [List.find?_cons] at none ⊢
        cases hq : q (j, y) with
        | true => rw [hq] at none; cases none
        | false => rw [hq] at none; exact found yes none

/-- A page that no forwarding entry covers has none of its own. -/
theorem fwdAt_of_uncovered {pa : Nat} (uncovered : (s.coverOf pa).isNone = true) {a : Nat} (here : frameOf a = frameOf pa) : s.fwdAt a = none := by
  have none : s.coverOf pa = none := Option.isNone_iff_eq_none.mp uncovered
  have absent := List.find?_eq_none.mp (Option.map_eq_none_iff.mp none)
  refine List.find?_eq_none.mpr fun p hp source => absent p hp ?_
  simp only [decide_eq_true_eq] at source ⊢
  exact .inl (source.trans here)

/-- The start of a migration: the L2s hold only clean copies, and until the Switch the page is served where it was (R199). -/
theorem tames_startMigration {src tenant ipa leafPa target : Nat} (uncovered : (s.coverOf src).isNone = true)
    (started : s.startMigration src tenant ipa leafPa target = some t) : Tames s t := by
  unfold State.startMigration at started
  split at started
  · rename_i k d ring free popped
    obtain rfl := Option.some.inj started
    refine (tames_l2CleanAll s fun a => frameOf a == frameOf src).elsewhere fun a => ?_
    have unlisted : tget s.fwds k = none := Option.isNone_iff_eq_none.mp (by simpa using List.find?_some free)
    have same : (s.l2CleanAll fun a => frameOf a == frameOf src).fwds = s.fwds := by
      obtain ⟨m, l, e⟩ : ∃ m l, (s.l2CleanAll fun a => frameOf a == frameOf src) = { s with mem := m, l2 := l } :=
        List.foldlRecOn (motive := fun v => ∃ m l, v = { s with mem := m, l2 := l }) [0, 1, 2] _ ⟨_, _, rfl⟩ fun v hv id _ => by
          obtain ⟨m, l, rfl⟩ := hv
          dsimp only
          split
          · exact ⟨_, _, rfl⟩
          · exact ⟨_, _, rfl⟩
      rw [e]
    have frame : frameOf (src / 4096 * 4096) = frameOf src := by simp only [frameOf]; omega
    by_cases here : frameOf src = frameOf a
    · have before := fwdAt_of_uncovered uncovered here.symm
      rw [State.homeAddr, State.homeAddr, before, State.fwdAt, same, (find?_tset_of_none _ _ unlisted).2 (by simp [frame, here]) before]
      rfl
    · simp only [State.homeAddr, State.fwdAt, same]
      rw [(find?_tset_of_none _ _ unlisted).1 (by simp [frame, here])]
  · cases started

theorem tames_promote (s : State) (req : HomeReq) : Tames s (s.promote req) := by
  unfold State.promote
  dsimp only
  split
  · rename_i may
    cases started : s.startMigration req.pa req.tenant req.ipa req.leafPa (targetTier req.aff) with
    | none => exact .refl s
    | some t => exact tames_startMigration may.2.2.2.2.2.2.2 started
  · exact .refl s

theorem tames_addCount (s : State) (frame n : Nat) : Tames s (s.addCount frame n) := ⟨.refl s, fun _ _ _ => id, homeAddr_congr rfl⟩

theorem tames_countReq (s : State) (req : HomeReq) : Tames s (s.countReq req) := by
  unfold State.countReq
  split
  · exact .refl s
  · split
    · exact .refl s
    · split
      · exact tames_addCount ..
      · exact (tames_addCount ..).trans (tames_promote ..)

theorem tames_count (s : State) (attr : Option Xlat) (pa n : Nat) : Tames s (s.count attr pa n) := tames_countReq ..

/-- One cache gives up a line. -/
theorem tames_yieldOne (s : State) (id line : Nat) : Tames s (s.yieldLine [id] line) := by
  have drops := tames_writeBack s (tamer_dropWhere (fun a => a / 256 == line) (s.l2c id)) (dirtyWhere (fun a => a / 256 == line) (s.l2c id))
  simp only [State.yieldLine, List.foldl_cons, List.foldl_nil]
  split
  · exact drops
  · exact drops.trans (tames_count ..)

theorem yieldLine_cons (s : State) (id : Nat) (ids : List Nat) (line : Nat) :
    s.yieldLine (id :: ids) line = (s.yieldLine [id] line).yieldLine ids line := rfl

theorem tames_yieldLine (s : State) (ids : List Nat) (line : Nat) : Tames s (s.yieldLine ids line) := .foldl _ (fun t id => tames_yieldOne t id line) s

/-- A cache that has given a line up holds none of it dirty. -/
theorem clean_yieldLine (caches : cachesOk s) {ids : List Nat} {id line a : Nat} (among : id ∈ ids) (here : a / 256 = line) :
    ((s.yieldLine ids line).l2c id).dirtyByte a = none := by
  induction ids generalizing s with
  | nil => cases among
  | cons j ids ih =>
    rw [yieldLine_cons]
    have first := tames_yieldOne s j line
    rcases List.mem_cons.mp among with rfl | among
    · refine (tames_yieldLine _ ids line).clean (first.keeps.cachesOk caches) id a ?_
      have drops := tames_writeBack s (tamer_dropWhere (fun a => a / 256 == line) (s.l2c id)) (dirtyWhere (fun a => a / 256 == line) (s.l2c id))
      have gone : (({ s with mem := memSetAll s.mem (dirtyWhere (fun a => a / 256 == line) (s.l2c id)) }.setL2 id
          (dropWhere (fun a => a / 256 == line) (s.l2c id))).l2c id).dirtyByte a = none := by
        rw [l2c_setL2, if_pos rfl, dirtyByte_dropWhere (caches.1 id).2, if_pos (by simpa using here)]
      simp only [State.yieldLine, List.foldl_cons, List.foldl_nil]
      split
      · exact gone
      · exact (tames_count ..).clean (drops.keeps.cachesOk caches) id a gone
    · exact ih (first.keeps.cachesOk caches) among

theorem tames_invalidateOthers (s : State) (id line : Nat) : Tames s (s.invalidateOthers id line) := tames_yieldLine ..

/-- No other L2 holds a dirty byte of a line. -/
def Alone (s : State) (id line : Nat) : Prop := ∀ j a, j < 3 → j ≠ id → a / 256 = line → (s.l2c j).dirtyByte a = none

theorem Alone.tames {id line : Nat} (alone : Alone s id line) (caches : cachesOk s) (h : Tames s t) : Alone t id line :=
  fun j a small other here => h.clean caches j a (alone j a small other here)

theorem alone_invalidateOthers (caches : cachesOk s) (id line : Nat) : Alone (s.invalidateOthers id line) id line := by
  intro j a small other here
  by_cases held : (s.l2c j).hasLine line = true
  · refine clean_yieldLine caches ?_ here
    simp only [State.holders, List.mem_filter, bne_iff_ne]
    exact ⟨⟨by simp; omega, held⟩, other⟩
  · refine (tames_yieldLine s _ line).clean caches j a (dirtyByte_of_lacking (byte_of_not_hasLine ?_ here))
    simpa using held

theorem alone_invalidations (caches : cachesOk s) (id : Nat) (ls : List Nat) :
    ∀ l ∈ ls, Alone (ls.foldl (fun s l => s.invalidateOthers id l) s) id l := by
  induction ls generalizing s with
  | nil => nofun
  | cons x ls ih =>
    have caches' := (tames_invalidateOthers s id x).keeps.cachesOk caches
    intro l hl
    rcases List.mem_cons.mp hl with rfl | hl
    · exact (alone_invalidateOthers caches id l).tames caches' (.foldl ls (fun t l => tames_invalidateOthers t id l) _)
    · exact ih caches' l hl

end

/-! ## Writes at the homes and in the second-level caches -/

section
variable {s0 s t : State}

theorem Keeps.tames (ok : Keeps s0 s) (h : Tames s t) : Keeps s0 t := ok.trans h.keeps

theorem Keeps.count {attr : Option Xlat} {pa n : Nat} (ok : Keeps s0 s) : Keeps s0 (s.count attr pa n) := ok.tames (tames_count ..)

theorem Keeps.countReq {req : HomeReq} (ok : Keeps s0 s) : Keeps s0 (s.countReq req) := ok.tames (tames_countReq ..)

theorem Keeps.yieldLine {ids : List Nat} {line : Nat} (ok : Keeps s0 s) : Keeps s0 (s.yieldLine ids line) := ok.tames (tames_yieldLine ..)

theorem Keeps.l2CleanAll {p : Nat → Bool} (ok : Keeps s0 s) : Keeps s0 (s.l2CleanAll p) := ok.tames (tames_l2CleanAll ..)

theorem Keeps.startMigration {src tenant ipa leafPa target : Nat} (ok : Keeps s0 s) :
    KeepsOpt s0 (s.startMigration src tenant ipa leafPa target) := by
  unfold State.startMigration
  split
  · exact .some ok.l2CleanAll.elsewhere
  · exact .none

theorem Keeps.written {ws : List (Nat × Byte)} (ok : Keeps s0 s) : Keeps s0 (s.written ws) := ok

theorem Keeps.homeWrite {ws : List (Nat × Byte)} (ok : Keeps s0 s) : KeepsOpt s0 (s.homeWrite ws) := by
  unfold State.homeWrite
  split
  · exact .some ok
  · split
    · dsimp only
      split
      · exact .some ok.memSetAll.written
      · split
        · exact .none
        · exact .some ok
    · exact .some ok.memSetAll.written

/-- A line that is given a place in an L2 brings no byte. -/
theorem sectors_l2Place {id line : Nat} {attr : Option Xlat} {c : Cache} (placed : s.l2Place id line attr = some c) :
    c.sectors = (s.l2c id).sectors := by
  unfold State.l2Place at placed
  dsimp only at placed
  split at placed
  · obtain rfl := Option.some.inj placed
    rfl
  · exact sectors_place placed

theorem Keeps.l2Fill {id sec : Nat} {attr : Option Xlat} (ok : Keeps s0 s) : Keeps s0 (s.l2Fill id attr sec) := by
  unfold State.l2Fill
  split
  · refine Keeps.count ?_
    split
    · rename_i c placed
      exact ok.setL2 (tamer_fill (sectors_l2Place placed) _ _)
    · exact ok
  · exact ok

theorem Keeps.l2Read {id pa n : Nat} {attr : Option Xlat} (ok : Keeps s0 s) : KeepsPair s0 (s.l2Read id attr pa n) :=
  ok.foldl _ fun _ _ ok => ok.l2Fill

/-- Bytes put dirty into the one L2 that may hold their lines dirty. -/
theorem Keeps.setL2_dirty {id : Nat} {c : Cache} {ws : List (Nat × Byte)} (ok : Keeps s0 s) (same : c.sectors = (s.l2c id).sectors)
    (alone : Claims.cachesOk s0 → ∀ w ∈ ws, Alone s id (w.1 / 256)) : Keeps s0 (s.setL2 id (cachePut c true ws)) := by
  refine ⟨ok.1, fun before => ?_⟩
  have alone := alone before
  obtain ⟨tables, empty, single⟩ := ok.cachesOk before
  have only (i j a : Nat) (v v' : Byte) (hi : i < 3) (hj : j < 3) (hne : i ≠ id) (h : ((s.setL2 id (cachePut c true ws)).l2c i).dirtyByte a = some v)
      (h' : ((s.setL2 id (cachePut c true ws)).l2c j).dirtyByte a = some v') : i = j := by
    rw [l2c_setL2, if_neg hne] at h
    rw [l2c_setL2] at h'
    split at h'
    · by_cases written : ∃ w ∈ ws, w.1 = a
      · obtain ⟨w, hw, rfl⟩ := written
        rw [alone w hw i w.1 hi hne rfl] at h
        cases h
      · rename_i here
        rw [dirtyByte_cachePut_other c true fun w hw same => written ⟨w, hw, same⟩, dirtyByte_of_sectors same, ← here] at h'
        exact single a i j v v' hi hj h h'
    · exact single a i j v v' hi hj h h'
  refine ⟨fun k => ⟨(tables k).1, ?_⟩, empty, fun a i j v v' hi hj h h' => ?_⟩
  · rw [← State.l2c, l2c_setL2]
    split
    · exact tidy_cachePut (tidy_of_sectors same (tables id).2) true ws
    · exact (tables k).2
  · by_cases mine : i = id
    · by_cases other : j = id
      · rw [mine, other]
      · exact (only j i a v' v hj hi other h' h).symm
    · exact only i j a v v' hi hj mine h h'

/-- A WRITE AT AN L2 keeps at most one dirty copy of a byte: the other caches have given up its lines before (R103). -/
theorem Keeps.l2Write {id : Nat} {attr : Option Xlat} {ws : List (Nat × Byte)} (ok : Keeps s0 s) : KeepsOpt s0 (s.l2Write id attr ws) := by
  cases ws with
  | nil => exact .some ok
  | cons w ws =>
    have tame := Tames.foldl (((w :: ws).map fun w => s.homeAddr w.1 / 256).dedup) (fun t l => tames_invalidateOthers t id l) s
    have alone (caches : Claims.cachesOk s) := alone_invalidations caches id (((w :: ws).map fun w => s.homeAddr w.1 / 256).dedup)
    simp only [State.l2Write]
    generalize (((w :: ws).map fun w => s.homeAddr w.1 / 256).dedup).foldl (fun s l => s.invalidateOthers id l) s = u at tame alone ⊢
    have ok' : Keeps s0 u := ok.tames tame
    split
    · refine ok'.homeWrite.map fun t ok => KeepsOpt.getD (fun v e => ?_) ok
      obtain ⟨c, placed, rfl⟩ := Option.map_eq_some_iff.mp e
      exact ok.setL2 (tamer_cachePut_clean (sectors_l2Place placed) _)
    · split
      · rename_i e
        obtain ⟨c, placed, rfl⟩ := Option.map_eq_some_iff.mp e
        refine .some ((ok'.setL2_dirty (sectors_l2Place placed) fun before x hx => ?_).written)
        obtain ⟨y, hy, rfl⟩ := List.mem_map.mp hx
        refine alone (ok.cachesOk before) _ (List.mem_dedup.mpr (List.mem_map.mpr ⟨y, hy, ?_⟩))
        rw [tame.homes]
      · exact ok'.homeWrite.map fun t ok => ok.count

end

end Sys2Proof.Proofs
end

