-- ==== Sys2Proof/Proofs/KeptMemorySystem.lean ====
section
/-! PROOFS. The homes, the caches of both levels and the point of coherence keep both invariants (R101 to R104, R120 to R122, R200). -/

namespace Sys2Proof.Proofs

open Sys2Proof Sys2Proof.Machine Sys2Proof.Claims

-- One proof after another: proofs run side by side over a text of this length need more threads than the check has memory for.
set_option Elab.async false

section
variable {s0 s : State}

/-! ## What the memory system keeps beside memory and caches -/

theorem Keeps.wake (ok : Keeps s0 s) : Keeps s0 s.wake := .ite (fun _ => ok) fun _ => ok

theorem Keeps.endResv {gs : List Nat} (ok : Keeps s0 s) : Keeps s0 (s.endResv gs) := ok

theorem Keeps.stallFor {frame : Option Nat} {x : Stall} (ok : Keeps s0 s) : Keeps s0 (s.stallFor frame x) := ok

theorem Keeps.taint {as : List Nat} (ok : Keeps s0 s) : Keeps s0 (s.taint as) := .ite (fun _ => ok) fun _ => ok

theorem Keeps.unpoison {ws : List (Nat × Byte)} (ok : Keeps s0 s) : Keeps s0 (s.unpoison ws) := ok

theorem Keeps.addCount {frame n : Nat} (ok : Keeps s0 s) : Keeps s0 (s.addCount frame n) := ok

theorem Keeps.draw (ok : Keeps s0 s) : Keeps s0 s.draw := ok

theorem Keeps.freeBytes {n : Nat} (ok : Keeps s0 s) : KeepsPair s0 (s.freeBytes n) := ok

theorem Keeps.fabricGate {pa : Nat} (ok : Keeps s0 s) : KeepsPair s0 (s.fabricGate pa) := by
  unfold State.fabricGate
  split
  · split <;> exact ok
  · exact ok

/-! ## Writes at the homes -/

theorem Keeps.l2DropAll {p : Nat → Bool} (ok : Keeps s0 s) : Keeps s0 (s.l2DropAll p) := ok.l2CleanAll.l2Forget

theorem Keeps.cohWrite {ws : List (Nat × Byte)} (ok : Keeps s0 s) : KeepsOpt s0 (s.cohWrite ws) :=
  ok.tryAll _ fun t g ok => by
    cases g with
    | nil => exact .some ok
    | cons w ws => exact ok.yieldLine.homeWrite

theorem Keeps.ownWrite {ws : List (Nat × Byte)} (ok : Keeps s0 s) : KeepsOpt s0 (s.ownWrite ws) :=
  ok.cohWrite.map fun _ ok => ok.foldl _ fun _ _ ok => ok.count

/-- Caches that drop bytes of theirs by what these are. -/
theorem Keeps.dropClean {p : Nat → CByte → Bool} (ok : Keeps s0 s) :
    Keeps s0 { s with l1 := s.l1.map fun c => (c.1, dropIf p c.2), l2 := s.l2.map fun c => (c.1, dropIf p c.2) } := by
  refine ok.of_cachesOk rfl fun ⟨tables, empty, single⟩ => ?_
  have firsts (k : Nat) : tgetD (s.l1.map fun c => (c.1, dropIf p c.2)) k {} = dropIf p (s.l1c k) := tgetD_map_cache s.l1 rfl k
  have seconds (k : Nat) : tgetD (s.l2.map fun c => (c.1, dropIf p c.2)) k {} = dropIf p (s.l2c k) := tgetD_map_cache s.l2 rfl k
  have dropped : Claims.cachesOk { s with l2 := s.l2.map fun c => (c.1, dropIf p c.2) } :=
    cachesOk_of_tamer ⟨tables, empty, single⟩ rfl rfl fun k => by
      rw [State.l2c, State.l2c, seconds]
      exact tamer_dropIf p _
  refine ⟨fun k => ⟨?_, (dropped.1 k).2⟩, fun c big => (firsts c).trans ?_, dropped.2.2⟩
  · rw [State.l1c, firsts]
    exact tidy_dropIf (tables k).1 p
  · rw [empty c big]
    rfl

theorem Keeps.sideWrite {ws : List (Nat × Byte)} (ok : Keeps s0 s) : KeepsOpt s0 (s.sideWrite ws) :=
  ok.homeWrite.map fun _ ok => ok.dropClean

theorem Keeps.replWrite {ws : List (Nat × Byte)} (ok : Keeps s0 s) : Keeps s0 (s.replWrite ws) :=
  ok.l2DropAll.memSetAll.written

/-! ## First-level caches -/

theorem sectors_l1Place {core line : Nat} {attr : Option Xlat} {c : Cache} (placed : s.l1Place core line attr = some c) :
    c.sectors = (s.l1c core).sectors := sectors_place placed

theorem Keeps.l1Fill {core sec : Nat} {attr : Option Xlat} (ok : Keeps s0 s) (compute : core < 1024) : Keeps s0 (s.l1Fill core attr sec) := by
  unfold State.l1Fill
  split
  · have read := ok.l2Read (id := dieOf core) (attr := attr) (pa := sec * 64) (n := 64)
    dsimp only
    split
    · rename_i c placed
      exact Keeps.setL1 read (fun order => tidy_fill (tidy_of_sectors (sectors_l1Place placed) order) _ _) fun service => by omega
    · exact read
  · exact ok

theorem Keeps.l1Read {core pa n : Nat} {attr : Option Xlat} (ok : Keeps s0 s) (compute : core < 1024) : KeepsPair s0 (s.l1Read core attr pa n) :=
  ok.foldl _ fun _ _ ok => ok.l1Fill compute

theorem Keeps.l1Store {core : Nat} {x : Xlat} {bs : List Byte} (ok : Keeps s0 s) (compute : core < 1024) : KeepsOpt s0 (s.l1Store core x bs) := by
  unfold State.l1Store
  split
  · rename_i c placed
    exact .some (ok.setL1 (fun order => tidy_cachePut (tidy_of_sectors (sectors_l1Place placed) order) _ _) fun service => by omega)
  · exact ok.l2Write

theorem l1_taint (s : State) (as : List Nat) : (s.taint as).l1 = s.l1 := by
  unfold State.taint
  split <;> rfl

/-- An L1 that makes bytes of its clean. -/
theorem Keeps.cleanL1 {core : Nat} {c : Cache} {p : Nat → Bool} (ok : Keeps s0 s) (same : s.l1c core = c) :
    Keeps s0 (s.setL1 core (cleanWhere p c)) := by
  subst same
  exact ok.setL1 (fun order => tidy_cleanWhere order p) fun _ empty => by rw [empty]; rfl

theorem Keeps.l1WriteBackSector {core sec : Nat} {p : Nat → Bool} (ok : Keeps s0 s) : KeepsOpt s0 (s.l1WriteBackSector core p sec) := by
  unfold State.l1WriteBackSector
  dsimp only
  split
  · exact .none
  · rename_i t written
    have ok' : Keeps s0 t := ok.l2Write t written
    exact .some (ok'.taint.cleanL1 (by rw [State.l1c, l1_taint, State.l1c]))

theorem Keeps.l1WriteBack {core : Nat} {p : Nat → Bool} (ok : Keeps s0 s) : KeepsOpt s0 (s.l1WriteBack core p) :=
  ok.tryAll _ fun _ _ ok => ok.l1WriteBackSector

theorem Keeps.l1PushSector {core sec : Nat} {p : Nat → Bool} (ok : Keeps s0 s) : Keeps s0 (s.l1PushSector core p sec) := by
  unfold State.l1PushSector
  split
  · rename_i t sent
    exact ok.l1WriteBackSector t sent
  · dsimp only
    split
    · exact (Keeps.elsewhere ok).cleanL1 rfl
    · exact ok

theorem Keeps.l1Push {core : Nat} {p : Nat → Bool} (ok : Keeps s0 s) : Keeps s0 (s.l1Push core p) := ok.foldl _ fun _ _ ok => ok.l1PushSector

theorem Keeps.l1DropClean {core : Nat} (ok : Keeps s0 s) : Keeps s0 (s.l1DropClean core) :=
  ok.setL1 (fun order => tidy_dropIf order _) fun _ empty => by rw [empty]; rfl

theorem Keeps.l1Drop {core : Nat} {p : Nat → Bool} (ok : Keeps s0 s) : Keeps s0 (s.l1Drop core p) :=
  ok.setL1 (fun order => tidy_dropWhere order _) fun _ empty => by rw [empty]; rfl

theorem Keeps.l1WriteBackAll {p : Nat → Bool} (ok : Keeps s0 s) : KeepsOpt s0 (s.l1WriteBackAll p) :=
  (ok.tryAll _ fun _ _ ok => ok.l1WriteBack).bind fun _ ok => by
    split
    · exact .none
    · exact .some ok

/-! ## The point of coherence -/

theorem Keeps.l1Release {core pa : Nat} (ok : Keeps s0 s) : KeepsOpt s0 (s.l1Release core pa) := by
  unfold State.l1Release
  split
  · dsimp only
    split
    · exact .none
    · exact ok.l1WriteBack.map fun _ ok => ok.l1Drop
  · exact .some ok

theorem Keeps.pocRead {core n : Nat} {x : Xlat} (ok : Keeps s0 s) : KeepsPair s0 (s.pocRead core x n) := by
  unfold State.pocRead
  split
  · exact ok.count
  · exact ok.count
  · exact ok.freeBytes
  · exact ok.l2Read

theorem Keeps.rmwRead {core n : Nat} {x : Xlat} (ok : Keeps s0 s) : KeepsPair s0 (s.rmwRead core x n) := by
  unfold State.rmwRead
  split
  · exact ok
  · exact ok
  · exact ok.pocRead

theorem Keeps.rmwCount {x : Xlat} (ok : Keeps s0 s) : Keeps s0 (s.rmwCount x) := by
  unfold State.rmwCount
  split
  · exact ok.count
  · exact ok.count
  · exact ok

theorem Keeps.lrRead {core n : Nat} {x : Xlat} (ok : Keeps s0 s) : KeepsPair s0 (s.lrRead core x n) := by
  unfold State.lrRead
  split
  · exact ok.count
  · exact ok.pocRead

theorem Keeps.pocWrite {core : Nat} {x : Xlat} {bs : List Byte} (ok : Keeps s0 s) : KeepsOpt s0 (s.pocWrite core x bs) := by
  unfold State.pocWrite
  split
  · exact ok.sideWrite.map fun _ ok => ok.count
  · exact .some ok.replWrite.count
  · exact .some ok.endResv
  · exact ok.l2Write

end

end Sys2Proof.Proofs
end

