-- ==== Sys2Proof/Proofs/KeptOperations.lean ====
section
/-! PROOFS. The operations on warps, threads and cores, translation, scratch and what the device does by itself keep both invariants. -/

namespace Sys2Proof.Proofs

open Sys2Proof Sys2Proof.Machine Sys2Proof.Claims

-- One proof after another: proofs run side by side over a text of this length need more threads than the check has memory for.
set_option Elab.async false

/-! ## What an outcome and an exception keep -/

/-- The next state, where there is one, keeps them. -/
def KeepsOut (s : State) (o : Out) : Prop := ∀ t, o = .next t → Keeps s t

/-- Whichever state an operation answers keeps them. -/
def KeepsEither {ε α : Type} (failed : ε → State) (done : α → State) (s : State) (e : Except ε α) : Prop :=
  (∀ x, e = .error x → Keeps s (failed x)) ∧ ∀ x, e = .ok x → Keeps s (done x)

section
variable {s0 s t : State} {ε α : Type} {failed : ε → State} {done : α → State}

theorem KeepsOut.next (ok : Keeps s0 t) : KeepsOut s0 (.next t) := fun _ e => Host.Outcome.next.inj e ▸ ok

theorem KeepsOut.fault {r : Fault} : KeepsOut s0 (.fault r) := fun _ e => nomatch e

theorem KeepsOut.refused {r : Refusal} : KeepsOut s0 (.refused r) := fun _ e => nomatch e

theorem KeepsEither.error {x : ε} (ok : Keeps s0 (failed x)) : KeepsEither failed done s0 (.error x) :=
  ⟨fun _ e => Except.error.inj e ▸ ok, fun _ e => (nomatch e)⟩

theorem KeepsEither.ok {x : α} (ok : Keeps s0 (done x)) : KeepsEither failed done s0 (.ok x) :=
  ⟨fun _ e => (nomatch e), fun _ e => Except.ok.inj e ▸ ok⟩

theorem KeepsEither.ite {c : Prop} [Decidable c] {e e' : Except ε α} (h : c → KeepsEither failed done s0 e)
    (h' : ¬ c → KeepsEither failed done s0 e') : KeepsEither failed done s0 (if c then e else e') := by
  split
  · exact h ‹_›
  · exact h' ‹_›

theorem KeepsOptPair.some {r : State × α} (ok : Keeps s0 r.1) : KeepsOptPair s0 (Option.some r) := fun _ e => Option.some.inj e ▸ ok

theorem KeepsOptPair.none : KeepsOptPair s0 (Option.none : Option (State × α)) := fun _ e => nomatch e

theorem KeepsPair.ite {c : Prop} [Decidable c] {r r' : State × α} (h : c → KeepsPair s0 r) (h' : ¬ c → KeepsPair s0 r') :
    KeepsPair s0 (if c then r else r') := by
  split
  · exact h ‹_›
  · exact h' ‹_›

theorem KeepsOut.ite {c : Prop} [Decidable c] {o o' : Out} (h : c → KeepsOut s0 o) (h' : ¬ c → KeepsOut s0 o') :
    KeepsOut s0 (if c then o else o') := by
  split
  · exact h ‹_›
  · exact h' ‹_›

theorem KeepsOpt.ite {c : Prop} [Decidable c] {o o' : Option State} (h : c → KeepsOpt s0 o) (h' : ¬ c → KeepsOpt s0 o') :
    KeepsOpt s0 (if c then o else o') := by
  split
  · exact h ‹_›
  · exact h' ‹_›

/-- Steps that carry a value along. -/
theorem Keeps.foldlPair {β : Type} {f : State × α → β → State × α} {r : State × α} (ok : Keeps s0 r.1) (xs : List β)
    (step : ∀ r x, Keeps s0 r.1 → Keeps s0 (f r x).1) : KeepsPair s0 (xs.foldl f r) := by
  induction xs generalizing r with
  | nil => exact ok
  | cons x xs ih => exact ih (step r x ok)

/-! ## Warps, threads, cores and tenants -/

theorem Keeps.setWarp {n : Nat} {w : Warp} (ok : Keeps s0 s) : Keeps s0 (s.setWarp n w) := ok

theorem Keeps.modWarp {n : Nat} {f : Warp → Warp} (ok : Keeps s0 s) : Keeps s0 (s.modWarp n f) := ok

theorem Keeps.modThread {n l : Nat} {f : Thread → Thread} (ok : Keeps s0 s) : Keeps s0 (s.modThread n l f) := ok

theorem Keeps.modCore {n : Nat} {f : Core → Core} (ok : Keeps s0 s) : Keeps s0 (s.modCore n f) := ok

theorem Keeps.modTenant {n : Nat} {f : Tenant → Tenant} (ok : Keeps s0 s) : Keeps s0 (s.modTenant n f) := ok

theorem Keeps.touchIdle (ok : Keeps s0 s) : Keeps s0 s.touchIdle := ok

theorem Keeps.bump (ok : Keeps s0 s) : Keeps s0 s.bump := ok

theorem Keeps.exitThread {n l : Nat} (ok : Keeps s0 s) : Keeps s0 (s.exitThread n l) := ok

theorem Keeps.stopService {n : Nat} (ok : Keeps s0 s) : Keeps s0 (s.stopService n) := ok

theorem Keeps.haltWarps {p : Warp → Bool} (ok : Keeps s0 s) : Keeps s0 (s.haltWarps p) := ok

theorem Keeps.stopLaunch {lid status cause info : Nat} (ok : Keeps s0 s) : Keeps s0 (s.stopLaunch lid status cause info) := by
  unfold State.stopLaunch
  split
  · exact ok
  · split <;> exact ok

theorem Keeps.renumber {n : Nat} (ok : Keeps s0 s) : Keeps s0 (s.renumber n) := ok

theorem Keeps.stallYield {i : Instr} (ok : Keeps s0 s) : Keeps s0 (stallYield i t s) := .ite (fun _ => ok) fun _ => ok

/-! ## Entries and traps -/

theorem Keeps.enterLevel {n kind code intno : Nat} {x : Level} {addr xpc : Word} (ok : Keeps s0 s) :
    Keeps s0 (s.enterLevel n x kind code intno addr xpc) := by
  unfold State.enterLevel
  dsimp only
  split
  · split
    · exact ok.setWarp
    · exact (ok.foldl _ fun _ _ ok => ok.stopService).elsewhere
  · exact ok.setWarp

theorem Keeps.deliverUser {n slot : Nat} {pc : Word} {rs : List Raise} (ok : Keeps s0 s) : Keeps s0 (s.deliverUser n slot pc rs) := by
  unfold State.deliverUser
  split
  · exact ok
  · dsimp only
    split
    · exact .ite (fun _ => ok.enterLevel) fun _ => ok.stopLaunch
    · exact .ite (fun _ => ok.setWarp) fun _ => ok.setWarp

theorem Keeps.withEffect {n : Nat} {r : Raise} (ok : Keeps s0 s) : Keeps s0 (s.withEffect n r) := .ite (fun _ => ok) fun _ => ok

theorem Keeps.deliver {n slot : Nat} {pc : Word} {rs : List Raise} (ok : Keeps s0 s) : Keeps s0 (s.deliver n slot pc rs) := by
  unfold State.deliver
  split
  · exact ok
  · dsimp only
    split
    · exact .ite (fun _ => ok.enterLevel) fun _ => ok.deliverUser
    · exact ok.withEffect.enterLevel

theorem Keeps.raiseAll {lanes : List Nat} {c : TrapInfo} (ok : Keeps s0 s) : Keeps s0 (s.raiseAll lanes c) := ok.deliver

theorem Keeps.issueInstead {i : Instr} (ok : Keeps s0 s) : KeepsOpt s0 (issueInstead i s) := by
  unfold Machine.issueInstead
  split
  · exact .some ok.raiseAll
  · split
    · exact .some ok.raiseAll
    · split
      · exact .some ok
      · split
        · exact .none
        · exact .some ok.raiseAll

/-! ## An instruction over a bundle -/

theorem Keeps.settleAll {i : Instr} {rs : List LaneRes} (ok : Keeps s0 s) : Keeps s0 (settleAll i rs s) := ok

theorem Keeps.laneMapPost {i : Instr} {f : LaneCx → LaneRes} {post : State → State} (ok : Keeps s0 s)
    (step : ∀ t, Keeps s0 t → Keeps s0 (post t)) : KeepsOut s0 (laneMapPost i f post s) := by
  unfold Machine.laneMapPost
  split
  · rename_i t instead
    exact .next (ok.issueInstead t instead)
  · exact .next (step _ ok.settleAll).stallYield.deliver

theorem Keeps.laneMap {i : Instr} {f : LaneCx → LaneRes} (ok : Keeps s0 s) : KeepsOut s0 (laneMap i f s) := ok.laneMapPost fun _ ok => ok

theorem Keeps.regMap {i : Instr} {f : LaneCx → Thread} (ok : Keeps s0 s) : KeepsOut s0 (regMap i f s) := ok.laneMap

theorem Keeps.foldLane {i : Instr} {f : Nat → State → State × LaneOut} {acc : State × List Raise} {l : Nat} (ok : Keeps s0 acc.1)
    (step : ∀ l t, Keeps s0 t → KeepsPair s0 (f l t)) : KeepsPair s0 (foldLane i f acc l) := by
  have stepped := step l _ ok
  unfold Machine.foldLane
  dsimp only
  split
  · exact ok
  · split
    · split
      · exact stepped
      · exact stepped.modThread
      · exact stepped.modThread
      · exact stepped.modThread
      · exact stepped
    · exact ok.modThread

theorem Keeps.laneFold {i : Instr} {f : Nat → State → State × LaneOut} (ok : Keeps s0 s)
    (step : ∀ l t, Keeps s0 t → KeepsPair s0 (f l t)) : KeepsOut s0 (laneFold i f s) := by
  unfold Machine.laneFold
  split
  · rename_i t instead
    exact .next (ok.issueInstead t instead)
  · have folded := Keeps.foldlPair (r := (s, [])) ok s.lanes fun _ l ok => Keeps.foldLane (i := i) (l := l) ok step
    exact .next folded.stallYield.deliver

/-! ## Translation and fault records -/

theorem Keeps.tlbPut {node : Nat} {e : TlbEntry} (ok : Keeps s0 s) : Keeps s0 (s.tlbPut node e) := ok

theorem Keeps.walkFills {node : Nat} {reads : List Nat} (ok : Keeps s0 s) : Keeps s0 (s.walkFills node reads) :=
  ok.foldl _ fun _ _ ok => by
    split
    · exact ok.l2Read
    · exact ok.draw
    · exact ok

theorem Keeps.translate {node tenant va : Nat} {user : Bool} {acc : Acc} (ok : Keeps s0 s) :
    KeepsPair s0 (s.translate node tenant user acc va) := by
  unfold State.translate
  split
  · exact ok
  · dsimp only
    split
    · exact ok.walkFills
    · split
      · exact ok.walkFills
      · exact ok.walkFills.tlbPut

theorem Keeps.translateCore {core tenant va : Nat} {user : Bool} {acc : Acc} (ok : Keeps s0 s) :
    KeepsPair s0 (s.translateCore core tenant user acc va) := by
  unfold State.translateCore
  split
  · exact ok
  · dsimp only
    split
    · exact Keeps.tlbPut ok.translate
    · exact ok.translate

theorem Keeps.translateFor {w : Warp} {acc : Acc} {va : Nat} (ok : Keeps s0 s) : KeepsPair s0 (s.translateFor w acc va) := by
  unfold State.translateFor
  split
  · exact ok
  · split
    · exact ok.translate
    · exact ok.translateCore

theorem Keeps.setPending {svc n : Nat} (ok : Keeps s0 s) : Keeps s0 (s.setPending svc n) := ok

theorem Keeps.setFbuf {b : Nat} {f : FaultBuf} (ok : Keeps s0 s) : Keeps s0 (s.setFbuf b f) := ok

theorem Keeps.recordFault {b tenant coreBits va kind level ipa progress : Nat} {acc : Acc} {stage2 : Bool} (ok : Keeps s0 s) :
    Keeps s0 (s.recordFault b tenant acc coreBits va stage2 kind level ipa progress) := by
  unfold State.recordFault
  dsimp only
  split
  · exact ok.setFbuf
  · split
    · exact ok.setFbuf
    · exact .ite (fun _ => ok.setFbuf.setPending.modWarp) fun _ => ok.setFbuf

theorem Keeps.addWaiter {b : Nat} {x : Waiter} (ok : Keeps s0 s) : Keeps s0 (s.addWaiter b x) := .ite (fun _ => ok) fun _ => ok.setFbuf

theorem Keeps.waitFault {n l va kind level ipa progress : Nat} {acc : Acc} {stage2 : Bool} (ok : Keeps s0 s) :
    Keeps s0 (s.waitFault n l acc va stage2 kind level ipa progress) := ok.recordFault.addWaiter

theorem Keeps.accessFault {n l progress : Nat} {acc : Acc} {va : Word} {x : XErr} (ok : Keeps s0 s) :
    KeepsPair s0 (s.accessFault n l acc va x progress) := by
  unfold State.accessFault
  dsimp only
  split
  · exact ok
  · split
    · exact ok.enterLevel
    · exact ok.waitFault

/-! ## Scratch -/

theorem Keeps.modBlock {b : Nat} {f : Block → Block} (ok : Keeps s0 s) : Keeps s0 (s.modBlock b f) := ok

theorem Keeps.scrWrite {id : ScrId} {off : Nat} {bs : List Byte} (ok : Keeps s0 s) : Keeps s0 (s.scrWrite id off bs) := by
  cases id <;> exact ok

theorem Keeps.setTag {id : ScrId} {off : Nat} {full : Bool} (ok : Keeps s0 s) : Keeps s0 (s.setTag id off full) := by
  cases id <;> exact ok

theorem Keeps.leaveScratch {k : Nat} {b : Block} (ok : Keeps s0 s) : Keeps s0 (s.leaveScratch k b) := .ite (fun _ => ok) fun _ => ok.modCore

theorem Keeps.keepScratch {b : Nat} (ok : Keeps s0 s) : Keeps s0 (s.keepScratch b) := by
  unfold State.keepScratch
  dsimp only
  split
  · exact ok.ownWrite.getD ok
  · exact ok

theorem Keeps.scrDeliver {id : ScrId} {off : Nat} {bs : List Byte} (ok : Keeps s0 s) : Keeps s0 (s.scrDeliver id off bs) := by
  have delivered {n : Nat} {at_ : Nat → Nat} : Keeps s0 ((List.range n).foldl (fun s i => s.setTag id (at_ i) true) (s.scrWrite id off bs)) :=
    ok.scrWrite.foldl _ fun _ _ ok => ok.setTag
  cases id with
  | block b => exact delivered.keepScratch
  | die k d => exact delivered

/-! ## Time, interrupts and self-tests -/

theorem Keeps.refreshTimer {n : Nat} (ok : Keeps s0 s) : Keeps s0 (s.refreshTimer n) := .ite (fun _ => ok) fun _ => ok

theorem Keeps.signal {n : Nat} (ok : Keeps s0 s) : Keeps s0 (s.signal n) := .ite (fun _ => ok) fun _ => ok

theorem Keeps.alarm (ok : Keeps s0 s) : Keeps s0 s.alarm := .ite (fun _ => ok) fun _ => ok

theorem Keeps.log {xs : List Nat} (ok : Keeps s0 s) : Keeps s0 (s.log xs) := ok

theorem Keeps.l2Flush {id : Nat} {p : Nat → Bool} {drop : Bool} (ok : Keeps s0 s) : Keeps s0 (s.l2Flush id p drop) := by
  have tame : Tamer (s.l2c id) (if drop then dropWhere p (s.l2c id) else cleanWhere p (s.l2c id)) := by
    split
    · exact tamer_dropWhere _ _
    · exact tamer_cleanWhere _ _
  exact Keeps.foldl (.ite (fun _ => ok.memSetAll) fun _ => ok.memSetAll.setL2 tame) _ fun _ _ ok => ok.count

theorem Keeps.l2FlushAll {p : Nat → Bool} {drop : Bool} (ok : Keeps s0 s) : Keeps s0 (s.l2FlushAll p drop) := ok.foldl _ fun _ _ ok => ok.l2Flush

theorem Keeps.vacate {u : TestUnit} (ok : Keeps s0 s) : Keeps s0 (s.vacate u) := by
  unfold State.vacate
  split
  · exact .ite (fun _ => ok.l1Push) fun _ => ok.l1Push.l1Drop
  · exact ok.l2Flush
  · exact ok

theorem Keeps.startTest {u : TestUnit} (ok : Keeps s0 s) : Keeps s0 (s.startTest u) := .ite (fun _ => ok) fun _ => ok.vacate.elsewhere

theorem Keeps.logError {e : EccMsg} {part : TestUnit} (ok : Keeps s0 s) : Keeps s0 (s.logError e part) := ok.elsewhere.startTest.signal

end

end Sys2Proof.Proofs
end

