-- ==== Sys2Proof/Proofs/KeptDeviceAccesses.lean ====
section
/-! PROOFS. The accesses that the device makes, their replay, the landing slots, the scheduler's controls, Stuffsack and the device windows
keep both invariants. -/

namespace Sys2Proof.Proofs

open Sys2Proof Sys2Proof.Machine Sys2Proof.Claims

-- One proof after another: proofs run side by side over a text of this length need more threads than the check has memory for.
set_option Elab.async false

section
variable {s0 s : State}

/-! ## The posting windows and posts (R67, R68) -/

theorem Keeps.readFull {k q : Nat} (ok : Keeps s0 s) : KeepsPair s0 (s.readFull k q) := ok

theorem Keeps.userRead {pa n : Nat} (ok : Keeps s0 s) : KeepsPair s0 (s.userRead pa n) := by
  unfold State.userRead
  dsimp only [KeepsPair]
  split
  · exact ok.readFull
  · exact ok

theorem Keeps.countLines {x : Xlat} {pa n : Nat} (ok : Keeps s0 s) : Keeps s0 (s.countLines x pa n) := ok.foldl _ fun _ _ ok => ok.count

theorem Keeps.devLoad {x : Xlat} {n : Nat} (ok : Keeps s0 s) : KeepsPair s0 (s.devLoad x n) := by
  unfold State.devLoad
  split
  · exact ok.userRead
  · split
    · exact ok.countLines
    · exact ok.freeBytes
    · exact ok.countLines
    · exact ok.countLines

theorem Keeps.liven {k addr : Nat} (ok : Keeps s0 s) : Keeps s0 (s.liven k addr) := .ite (fun _ => ok) fun _ => ok

theorem Keeps.dropTargets {k : Nat} (ok : Keeps s0 s) : Keeps s0 (s.dropTargets k) := ok

theorem Keeps.post {k q : Nat} {p : Post} (ok : Keeps s0 s) : KeepsPair s0 (s.post k q p) := by
  unfold State.post
  dsimp only
  split
  · exact ok
  · exact Keeps.ite (fun _ => ok.wake.modTenant.liven) fun _ => ok.wake.modTenant

theorem Keeps.postWindow {k off size : Nat} {v : Word} (ok : Keeps s0 s) : Keeps s0 (s.postWindow k off size v) :=
  .ite (fun _ => .ite (fun _ => ok.post) fun _ => ok.modTenant) fun _ => ok

theorem Keeps.userWrite {pa : Nat} {bs : List Byte} (ok : Keeps s0 s) : Keeps s0 (s.userWrite pa bs) := by
  unfold State.userWrite
  split
  · exact .ite (fun _ => ok.postWindow) fun _ => ok
  · exact ok

theorem Keeps.modHead {tenant queue : Nat} {f : Post → Option Post} (ok : Keeps s0 s) : Keeps s0 (s.modHead tenant queue f) := ok.modTenant

theorem Keeps.dropPost {k q ptr : Nat} (ok : Keeps s0 s) : Keeps s0 (s.dropPost k q ptr) := ok.modHead.elsewhere.log.dropTargets

/-! ## Accesses the device makes (R73) -/

theorem Keeps.devTranslate {tenant va : Nat} {acc : Acc} {who : Waiter} (ok : Keeps s0 s) : KeepsPair s0 (s.devTranslate tenant va acc who) := by
  unfold State.devTranslate
  split
  · exact ok
  · have translated := ok.translate (node := 256) (tenant := tenant) (user := true) (acc := { acc with engine := true }) (va := va)
    dsimp only
    split
    · split
      · exact translated.wake
      · split
        · exact translated.fabricGate
        · exact translated.fabricGate.recordFault.addWaiter
    · exact translated
    · exact translated.recordFault.addWaiter

theorem Keeps.devDrop {tenant va rule : Nat} (ok : Keeps s0 s) : Keeps s0 (s.devDrop tenant va rule) := ok

theorem Keeps.devStore {x : Xlat} {bs : List Byte} (ok : Keeps s0 s) : KeepsOpt s0 (s.devStore x bs) := by
  unfold State.devStore
  split
  · exact .some ok.userWrite
  · split
    · exact (ok.tryAll _ fun _ _ ok => ok.sideWrite).map fun _ ok => ok.countLines
    · exact .some ok.endResv
    · exact .some ok.replWrite.countLines
    · exact ok.cohWrite.map fun _ ok => ok.countLines

theorem Keeps.devWriteBy {gives : State → Xlat → Option State} {tenant va : Nat} {bs : List Byte} {who : Waiter} (ok : Keeps s0 s)
    (step : ∀ t x, Keeps s0 t → KeepsOpt s0 (gives t x)) : KeepsPair s0 (s.devWriteBy gives tenant va bs who) := by
  have translated := ok.devTranslate (tenant := tenant) (va := va) (acc := accStore) (who := who)
  unfold State.devWriteBy
  dsimp only
  split
  · exact translated
  · exact Keeps.devDrop translated
  · rename_i x _
    have stored := (step _ x translated).bind fun _ ok => ok.devStore (x := x) (bs := bs)
    split
    · rename_i t made
      exact stored t made
    · exact translated

theorem Keeps.devWrite {tenant va : Nat} {bs : List Byte} {who : Waiter} (ok : Keeps s0 s) : KeepsPair s0 (s.devWrite tenant va bs who) :=
  ok.devWriteBy fun _ _ ok => .some ok

theorem Keeps.devAddFor {rule tenant va n : Nat} {who : Waiter} (ok : Keeps s0 s) : KeepsPair s0 (s.devAddFor rule tenant va n who) := by
  have translated := ok.devTranslate (tenant := tenant) (va := va) (acc := accEngW) (who := who)
  unfold State.devAddFor
  dsimp only
  split
  · exact translated
  · exact Keeps.devDrop translated
  · split
    · rename_i t made
      exact translated.devStore t made
    · exact translated

theorem Keeps.devAdd {tenant va n : Nat} {who : Waiter} (ok : Keeps s0 s) : KeepsPair s0 (s.devAdd tenant va n who) := ok.devAddFor

/-! ## Replay (R193) -/

theorem Keeps.modEop {id : Nat} {f : EngOp → EngOp} (ok : Keeps s0 s) : Keeps s0 (s.modEop id f) := ok

theorem Keeps.modEngine {c : Nat} {f : Engine → Engine} (ok : Keeps s0 s) : Keeps s0 (s.modEngine c f) := ok

theorem Keeps.modReq {c id : Nat} {f : MxReq → MxReq} (ok : Keeps s0 s) : Keeps s0 (s.modReq c id f) := ok

theorem Keeps.modLaunch {l : Nat} {f : Launch → Launch} (ok : Keeps s0 s) : Keeps s0 (s.modLaunch l f) := ok

theorem Keeps.modSlot {n : Nat} {f : Slot → Slot} (ok : Keeps s0 s) : Keeps s0 (s.modSlot n f) := ok

theorem Keeps.modPool {k p : Nat} {f : Pool → Pool} (ok : Keeps s0 s) : Keeps s0 (s.modPool k p f) := ok

theorem Keeps.replayThread {f : FaultBuf} {n l va progress : Nat} {acc : Acc} (ok : Keeps s0 s) :
    Keeps s0 (s.replayThread f n l va acc progress) := by
  unfold State.replayThread
  dsimp only
  split
  · exact ok
  · split
    · exact (ok.foldl _ fun _ _ ok => ok.modThread).deliver
    · have translated := ok.translateFor (w := s.warp n) (acc := acc) (va := va)
      split
      · exact translated.waitFault
      · exact translated.modThread

theorem Keeps.replayBehind {n l va : Nat} {acc : Acc} (ok : Keeps s0 s) : Keeps s0 (s.replayBehind n l va acc) := by
  unfold State.replayBehind
  dsimp only
  split
  · exact ok
  · exact .ite (fun _ => ok.addWaiter) fun _ => ok.modThread

theorem Keeps.answerEop {own : Option Nat} {code : Nat} (ok : Keeps s0 s) : Keeps s0 (s.answerEop own code) := by
  cases own <;> exact ok

theorem Keeps.landAdd {k : Nat} {x : Landing} (ok : Keeps s0 s) : Keeps s0 (s.landAdd k x) := by
  have added := ok.devAdd (tenant := x.tenant) (va := x.counter) (n := x.n) (who := .land k x.counter)
  unfold State.landAdd
  dsimp only
  split
  · exact Keeps.answerEop (Keeps.elsewhere added)
  · exact .ite (fun _ => Keeps.elsewhere added) fun _ => Keeps.stallFor (Keeps.elsewhere added)

theorem Keeps.xlatAgain {b tenant cores va : Nat} {user : Bool} {acc : Acc} {who : Waiter} (ok : Keeps s0 s) :
    KeepsPair s0 (s.xlatAgain b tenant user acc cores va who) := by
  have translated := ok.translate (node := b) (tenant := tenant) (user := user) (acc := acc) (va := va)
  unfold State.xlatAgain
  dsimp only
  split
  · exact translated.recordFault.addWaiter
  · exact translated

theorem Keeps.devAgain {tenant va : Nat} {acc : Acc} {who : Waiter} {go : State → State} (ok : Keeps s0 s)
    (step : ∀ t, Keeps s0 t → Keeps s0 (go t)) : Keeps s0 (s.devAgain tenant va acc who go) :=
  .ite (fun _ => ok.xlatAgain) fun _ => step _ ok.xlatAgain

theorem Keeps.eopAgain {b va : Nat} {e : EngOp} {write : Bool} (ok : Keeps s0 s) : Keeps s0 (s.eopAgain b e va write) :=
  .ite (fun _ => ok.devAgain fun _ ok => ok.modEop) fun _ => .ite (fun _ => ok.xlatAgain) fun _ => ok.xlatAgain.modEop

theorem Keeps.replayOne {b : Nat} {f : FaultBuf} {x : Waiter} (ok : Keeps s0 s) : Keeps s0 (s.replayOne b f x) := by
  unfold State.replayOne
  split
  · exact .ite (fun _ => ok.replayBehind) fun _ => ok.replayThread
  · split
    · exact .ite (fun _ => ok.modEop) fun _ => ok.eopAgain
    · exact ok
  · split
    · exact .ite (fun _ => ok.modReq) fun _ => .ite (fun _ => ok.xlatAgain) fun _ => ok.xlatAgain.modReq
    · exact ok
  · exact .ite (fun _ => ok.dropPost) fun _ => ok.devAgain fun _ ok => ok.modHead
  · split
    · exact .ite (fun _ => ok.modLaunch.stopLaunch) fun _ => ok.devAgain fun _ ok => ok.modLaunch
    · exact ok
  · split
    · exact .ite (fun _ => ok.devDrop.modLaunch) fun _ => ok.devAgain fun _ ok => ok.modLaunch
    · exact ok
  · exact .ite (fun _ => ok.modPool) fun _ => ok.devAgain fun _ ok => ok.modPool
  · exact .ite (fun _ => ok.devDrop.modSlot) fun _ => ok.devAgain fun _ ok => ok.modSlot
  · split
    · exact ok
    · exact .ite (fun _ => Keeps.answerEop ok.devDrop.elsewhere) fun _ => ok.landAdd

theorem Keeps.replay {b : Nat} (ok : Keeps s0 s) : Keeps s0 (s.replay b) := (ok.setFbuf.foldl _ fun _ _ ok => ok.replayOne).setFbuf

/-! ## Landing slots (R225 to R229) -/

theorem Keeps.offerColl {n : Nat} {m : CollMsg} (ok : Keeps s0 s) : Keeps s0 (s.offerColl n m) :=
  .ite (fun _ => ok.answerEop) fun _ => .ite (fun _ => ok.modSlot.answerEop) fun _ => ok.modSlot

theorem Keeps.offerWaiting {stack : Nat} (ok : Keeps s0 s) : Keeps s0 (s.offerWaiting stack) :=
  ok.foldl _ fun _ _ ok => ok.modSlot.foldl _ fun _ _ ok => ok.offerColl

theorem Keeps.slotOff {n : Nat} {ctl : Word} (ok : Keeps s0 s) : Keeps s0 (s.slotOff n ctl) :=
  (ok.foldl _ fun _ _ ok => ok.answerEop).modSlot.offerWaiting

theorem Keeps.writeLbctl {n : Nat} {v : Word} (ok : Keeps s0 s) : Keeps s0 (s.writeLbctl n v) :=
  .ite (fun _ => ok) fun _ => .ite (fun _ => ok) fun _ => .ite (fun _ => ok) fun _ => .ite (fun _ => ok.modSlot) fun _ =>
    .ite (fun _ => ok.slotOff) fun _ => ok.modSlot

theorem Keeps.writeSlot {n off : Nat} {v : Word} (ok : Keeps s0 s) : Keeps s0 (s.writeSlot n off v) := by
  unfold State.writeSlot
  dsimp only
  split
  · exact .ite (fun _ => ok) fun _ => ok.modSlot
  · exact ok.writeLbctl
  · exact .ite (fun _ => ok) fun _ => ok.modSlot
  · exact ok

/-! ## Bivouac space, tenants and service threads (R78, R81 to R86, R93, R235) -/

theorem Keeps.governor {k : Nat} (ok : Keeps s0 s) : KeepsPair s0 (s.governor k) := by
  unfold State.governor
  split <;> exact ok

theorem Keeps.bivCounters {n : Nat} (ok : Keeps s0 s) : Keeps s0 (s.bivCounters n) := by
  unfold State.bivCounters
  dsimp only
  split
  · exact .ite (fun _ => ok.ownWrite.getD ok) fun _ => ok
  · exact ok

theorem Keeps.preemptGang {why g : Nat} (ok : Keeps s0 s) : Keeps s0 (s.preemptGang why g) := by
  unfold State.preemptGang
  dsimp only
  split
  · exact ok
  · split
    · exact ok
    · split
      · rename_i t made
        have saved := (KeepsOpt.foldl (.some ok) _ fun _ _ h => h.bind fun _ ok _ e => by
          obtain ⟨_, _, rfl⟩ := Option.map_eq_some_iff.mp e
          exact ok.modBlock) t made
        exact saved.elsewhere
      · exact ok.modTenant

theorem Keeps.preemptFrom {lid bid : Nat} (ok : Keeps s0 s) : Keeps s0 (s.preemptFrom lid bid) :=
  Keeps.foldlPair (r := (s, true)) ok _ fun _ _ ok => by
    dsimp only
    split
    · exact ok.preemptGang
    · exact ok

theorem Keeps.preemptWhere {p : Block → Bool} (ok : Keeps s0 s) : Keeps s0 (s.preemptWhere p) := ok.foldl _ fun _ _ ok => ok.preemptFrom

theorem Keeps.retryPreempt (ok : Keeps s0 s) : Keeps s0 s.retryPreempt := ok.preemptWhere

theorem Keeps.applyMap {core : Nat} (ok : Keeps s0 s) : Keeps s0 (s.applyMap core) := by
  unfold State.applyMap
  dsimp only
  split
  · exact ok
  · exact .ite (fun _ => ok) fun _ => ok.modCore

theorem Keeps.suspendTenant {k : Nat} (ok : Keeps s0 s) : Keeps s0 (s.suspendTenant k) := ok.modTenant.preemptWhere

theorem Keeps.resetStart {k : Nat} (ok : Keeps s0 s) : Keeps s0 (s.resetStart k) := ok

theorem Keeps.resetFinish {k : Nat} (ok : Keeps s0 s) : KeepsOpt s0 (s.resetFinish k) := ok.l1WriteBackAll.map fun _ ok => ok

theorem Keeps.resetTenant {k : Nat} (ok : Keeps s0 s) : Keeps s0 (s.resetTenant k) := by
  have started : Keeps s0 (if (s.tenant k).resetting = false ∧ s.suspended k then s.resetStart k else s) := .ite (fun _ => ok.resetStart) fun _ => ok
  exact .ite (fun _ => started.resetFinish.getD started) fun _ => started

theorem Keeps.writeCoreown {core : Nat} {v : Word} (ok : Keeps s0 s) : Keeps s0 (s.writeCoreown core v) :=
  .ite (fun _ => ok) fun _ => .ite (fun _ => ok.modCore) fun _ => ok.modCore.preemptWhere

theorem Keeps.writeL2way {k : Nat} {v : Word} (ok : Keeps s0 s) : Keeps s0 (s.writeL2way k v) := .ite (fun _ => ok) fun _ => ok.modTenant

theorem Keeps.writePlace {k off : Nat} {v : BitVec 32} (ok : Keeps s0 s) : Keeps s0 (s.writePlace k off v) :=
  .ite (fun _ => .ite (fun _ => ok.modTenant) fun _ => ok) fun _ => ok.modTenant

theorem Keeps.flushSlices {d : Nat} {ks : List Nat} (ok : Keeps s0 s) : Keeps s0 (s.flushSlices d ks) := .ite (fun _ => ok) fun _ => ok.l2Flush

theorem Keeps.moveSlice {d k : Nat} (ok : Keeps s0 s) : Keeps s0 (s.moveSlice d k) := by
  unfold State.moveSlice
  split
  · exact .ite (fun _ => ok.flushSlices.modTenant) fun _ => ok
  · exact ok

theorem Keeps.settleSlices (ok : Keeps s0 s) : Keeps s0 s.settleSlices :=
  ok.foldl _ fun _ _ ok => .ite (fun _ => ok.moveSlice) fun _ => ok.moveSlice.flushSlices.elsewhere

theorem Keeps.resumeTenant {k : Nat} (ok : Keeps s0 s) : Keeps s0 (s.resumeTenant k) := ok.settleSlices.modTenant

theorem Keeps.writeTsched {k : Nat} {v : Word} (ok : Keeps s0 s) : Keeps s0 (s.writeTsched k v) := by
  unfold State.writeTsched
  dsimp only
  refine .ite (fun _ => Keeps.resetTenant ?_) fun _ => ?_ <;> exact .ite (fun _ => ok.modTenant.suspendTenant) fun _ => ok.modTenant.resumeTenant

theorem Keeps.writeCarve {k : Nat} {v : Word} (ok : Keeps s0 s) : Keeps s0 (s.writeCarve k v) := by
  unfold State.writeCarve
  dsimp only
  split
  · exact ok
  · split
    · exact ok.flushSlices.flushSlices.modTenant.settleSlices
    · exact ok

theorem Keeps.startService {n : Nat} (ok : Keeps s0 s) : Keeps s0 (s.startService n) := .ite (fun _ => ok) fun _ => ok.modWarp

theorem Keeps.haltService {n : Nat} (ok : Keeps s0 s) : Keeps s0 (s.haltService n) := .ite (fun _ => ok.stopService) fun _ => ok

theorem Keeps.writeSvtctl {level n : Nat} {v : Word} (ok : Keeps s0 s) : Keeps s0 (s.writeSvtctl level n v) :=
  .ite (fun _ => ok.modWarp.startService) fun _ => ok.modWarp.haltService

/-! ## Grace periods and Stuffsack (R130, R136 to R140) -/

theorem Keeps.reportTenant {node k : Nat} (ok : Keeps s0 s) : Keeps s0 (s.reportTenant node k) := ok.modTenant

theorem Keeps.advance {k : Nat} (ok : Keeps s0 s) : KeepsPair s0 (s.advance k) := ok

theorem Keeps.poolTouch {k p : Nat} {vas : List Nat} (ok : Keeps s0 s) : KeepsPair s0 (s.poolTouch k p vas) := by
  unfold State.poolTouch
  refine Keeps.foldlPair (r := (s, PoolX.ok [])) ok vas fun r va ok => ?_
  have translated := ok.devTranslate (tenant := k) (va := va) (acc := accEngW) (who := .pool k p va)
  dsimp only
  split
  · split
    · exact translated
    · exact Keeps.modPool translated
    · exact translated
  · exact ok

theorem Keeps.planWrite {pl : PoolPlan} {xs : List Xlat} (ok : Keeps s0 s) : KeepsOpt s0 (s.planWrite pl xs) :=
  (KeepsOpt.foldl (.some ok) _ fun _ _ h => h.bind fun _ ok => ok.devStore).map fun _ ok => ok

theorem Keeps.perr {k p : Nat} (ok : Keeps s0 s) : Keeps s0 (s.perr k p) := ok

theorem Keeps.runPlan {k p : Nat} {pl : PoolPlan} (ok : Keeps s0 s) : KeepsPair s0 (s.runPlan k p pl) := by
  have touched := ok.poolTouch (k := k) (p := p) (vas := pl.metas.map Prod.fst ++ pl.links)
  unfold State.runPlan
  dsimp only
  split
  · exact touched
  · exact touched.perr
  · split
    · exact touched
    · rename_i t made
      exact (touched.planWrite t made).modPool

theorem Keeps.poolStall {who : PoolReq} {k p : Nat} (ok : Keeps s0 s) : Keeps s0 (s.poolStall who k p) := .ite (fun _ => ok) fun _ => ok.stallFor

theorem Keeps.poolServe {who : PoolReq} {k p : Nat} {f : State → State × PoolAns} (ok : Keeps s0 s)
    (step : ∀ t, Keeps s0 t → KeepsPair s0 (f t)) : KeepsPair s0 (s.poolServe who k p f) := by
  have served := step s ok
  unfold State.poolServe
  dsimp only
  split
  · exact ok
  · split
    · exact ok.modPool
    · split
      · exact ok.modPool.perr
      · split
        · exact served.modPool.poolStall
        · exact Keeps.ite (fun _ => served) fun _ => served.modPool

theorem Keeps.poolAlloc {who : PoolReq} {k p n : Nat} (ok : Keeps s0 s) : KeepsPair s0 (s.poolAlloc who k p n) :=
  ok.poolServe fun _ ok => by
    split
    · exact ok
    · exact ok.runPlan

theorem Keeps.readMeta {k p b : Nat} (ok : Keeps s0 s) : KeepsPair s0 (s.readMeta k p b) := by
  have touched := ok.poolTouch (k := k) (p := p) (vas := [(s.pool k p).metaAt b])
  unfold State.readMeta
  dsimp only
  split
  · exact touched
  · exact touched.devLoad
  · exact touched

theorem Keeps.mergeCount {k p n b j : Nat} (ok : Keeps s0 s) : KeepsPair s0 (s.mergeCount k p n b j) := by
  induction n generalizing s b j with
  | zero => exact ok
  | succ n ih =>
    unfold State.mergeCount
    dsimp only
    split
    · exact ok
    · split
      · exact ok.readMeta
      · split
        · exact ih ok.readMeta
        · exact ok.readMeta

theorem Keeps.freeLook {k p b j : Nat} (ok : Keeps s0 s) : KeepsPair s0 (s.freeLook k p b j) := by
  unfold State.freeLook
  dsimp only
  split
  · exact ok
  · split
    · exact ok.readMeta
    · exact ok.readMeta

theorem Keeps.poolFree {who : PoolReq} {k p b j : Nat} (ok : Keeps s0 s) : KeepsPair s0 (s.poolFree who k p b j) :=
  ok.poolServe fun t ok => by
    have looked := ok.freeLook (k := k) (p := p) (b := b) (j := j)
    dsimp only
    split
    · exact looked
    · exact looked.perr
    · exact looked.perr
    · split
      · exact looked.mergeCount.runPlan
      · exact looked.mergeCount
      · exact looked.mergeCount.perr

theorem Keeps.freshPool {k p : Nat} {en : Bool} (ok : Keeps s0 s) : Keeps s0 (s.freshPool k p en) := ok

theorem Keeps.enablePool {k p : Nat} (ok : Keeps s0 s) : Keeps s0 (s.enablePool k p) := ok

theorem Keeps.disablePool {k p : Nat} (ok : Keeps s0 s) : Keeps s0 (s.disablePool k p) := ok

theorem Keeps.writePctl {k p : Nat} {v : Word} (ok : Keeps s0 s) : Keeps s0 (s.writePctl k p v) := by
  have sized : Keeps s0 (if (s.pool k p).en then s else s.modPool k p fun k => { k with size := wbits v 0 26 }) :=
    .ite (fun _ => ok) fun _ => ok.modPool
  exact .ite (fun _ => .ite (fun _ => sized) fun _ => sized.enablePool) fun _ => .ite (fun _ => sized.disablePool) fun _ => sized

theorem Keeps.readPerr {k p : Nat} (ok : Keeps s0 s) : KeepsPair s0 (s.readPerr k p) := ok

theorem Keeps.writePool {k p off : Nat} {v : Word} (ok : Keeps s0 s) : Keeps s0 (s.writePool k p off v) := by
  unfold State.writePool
  dsimp only
  split
  · exact ok.modPool
  · exact ok.writePctl
  · exact .ite (fun _ => ok) fun _ => ok.modPool
  · exact ok

theorem Keeps.readPool {k p off : Nat} (ok : Keeps s0 s) : KeepsPair s0 (s.readPool k p off) := by
  unfold State.readPool
  dsimp only
  split <;> exact ok

theorem Keeps.finishEnable {k p : Nat} (ok : Keeps s0 s) : Keeps s0 (s.finishEnable k p) := by
  unfold State.finishEnable
  dsimp only
  split
  · exact ok
  · split
    · split
      · rename_i t made
        exact (KeepsOpt.foldl (.some ok.poolTouch) _ fun _ _ h => h.bind fun _ ok => ok.devStore).bind (fun _ ok => ok.planWrite) t made
      · exact ok.poolTouch.stallFor
    · exact ok.poolTouch.modPool
    · exact ok.poolTouch

end

end Sys2Proof.Proofs
end

