-- ==== Sys2Proof/Proofs/KeptDeviceRegisters.lean ====
section
/-! PROOFS. The registers of the device windows, read and written, keep both invariants. -/

namespace Sys2Proof.Proofs

open Sys2Proof Sys2Proof.Machine Sys2Proof.Claims

-- One proof after another: proofs run side by side over a text of this length need more threads than the check has memory for.
set_option Elab.async false

section
variable {s0 s : State}

/-! ## Fault buffers, rings and put windows -/

theorem Keeps.writeStatus {b i v : Nat} (ok : Keeps s0 s) : Keeps s0 (s.writeStatus b i v) :=
  .ite (fun _ => ok.setFbuf) fun _ => .ite (fun _ => ok.setFbuf) fun _ => .ite (fun _ => ok.setFbuf) fun _ => ok

theorem Keeps.writeFbuf {b off : Nat} {v : Word} (ok : Keeps s0 s) : Keeps s0 (s.writeFbuf b off v) :=
  .ite (fun _ => ok.setFbuf) fun _ => .ite (fun _ => .ite (fun _ => ok.replay) fun _ => ok) fun _ => .ite (fun _ => ok.setFbuf) fun _ => ok

theorem Keeps.pushFrame {ring : Nat} {v : Word} (ok : Keeps s0 s) : Keeps s0 (s.pushFrame ring v) := .ite (fun _ => ok) fun _ => ok

theorem Keeps.popFrret (ok : Keeps s0 s) : KeepsPair s0 s.popFrret := by
  unfold State.popFrret
  split <;> exact ok

theorem Keeps.writeDecay {v : Word} (ok : Keeps s0 s) : Keeps s0 (s.writeDecay v) := ok

theorem Keeps.writeWin {n off : Nat} {v : Word} (ok : Keeps s0 s) : Keeps s0 (s.writeWin n off v) := by
  unfold State.writeWin
  dsimp only
  split
  · exact .ite (fun _ => ok) fun _ => ok
  · split <;> exact ok

/-! ## The shared pool (R209 to R212) -/

theorem Keeps.poolDrop {page n : Nat} (ok : Keeps s0 s) : KeepsEither (fun t => t) (fun t => t) s0 (s.poolDrop page n) := by
  have pushed {p : Nat → Bool} : Keeps s0 (s.l1Cores.foldl (fun s c => s.l1Push c p) s) := ok.foldl _ fun _ _ ok => ok.l1Push
  unfold State.poolDrop
  dsimp only
  split
  · exact .error ok
  · split
    · exact .error pushed
    · refine .ok (Keeps.l2FlushAll ?_)
      exact pushed.foldl _ fun _ _ ok => ok.l1Drop

theorem Keeps.poolBegin {op page count result first : Nat} (ok : Keeps s0 s) : Keeps s0 (s.poolBegin op page count result first) := ok

theorem Keeps.setRun {page n : Nat} {o : PoolOwn} (ok : Keeps s0 s) : Keeps s0 (s.setRun page n o) := ok

theorem Keeps.poolShare {page n : Nat} (ok : Keeps s0 s) : Keeps s0 (s.poolShare page n) := ok.memSetAll.written.setRun

theorem Keeps.poolAct {op page n : Nat} (ok : Keeps s0 s) : Keeps s0 (s.poolAct op page n) := by
  unfold State.poolAct
  split
  · exact ok.setRun
  · exact ok
  · exact ok.poolShare

theorem Keeps.poolRun {op page n : Nat} (ok : Keeps s0 s) : Keeps s0 (s.poolRun op page n) := by
  obtain ⟨refused, dropped⟩ := ok.poolDrop (page := page) (n := n)
  unfold State.poolRun
  split
  · rename_i t e
    exact (dropped t e).poolAct
  · rename_i t e
    exact refused t e

theorem Keeps.poolRetry (ok : Keeps s0 s) : Keeps s0 s.poolRetry := ok.elsewhere.foldl _ fun _ _ ok => ok.poolRun

theorem Keeps.poolAcquire {page count : Nat} (ok : Keeps s0 s) : Keeps s0 (s.poolAcquire page count) := by
  unfold State.poolAcquire
  dsimp only
  split
  · exact .ite (fun _ => ok.draw.poolBegin) fun _ => ok.draw.poolRun.poolBegin
  · exact ok.draw.poolRun.poolBegin

theorem Keeps.poolRelease {page count : Nat} (ok : Keeps s0 s) : Keeps s0 (s.poolRelease page count) := ok.poolRun.poolBegin

theorem Keeps.poolPublish {page count : Nat} (ok : Keeps s0 s) : Keeps s0 (s.poolPublish page count) := by
  unfold State.poolPublish
  dsimp only
  split
  · exact ok.poolBegin
  · exact ok.poolRun.poolBegin

theorem Keeps.poolPublished {page count : Nat} {ws : List (Nat × Byte)} (ok : Keeps s0 s) : Keeps s0 (s.poolPublished page count ws) := by
  obtain ⟨refused, dropped⟩ := ok.poolDrop (page := page) (n := count + 1)
  unfold State.poolPublished
  dsimp only
  split
  · exact ok
  · split
    · rename_i t e
      exact refused t e
    · rename_i t e
      exact (dropped t e).memSetAll.poolShare

theorem Keeps.writePoolcmd {v : Word} (ok : Keeps s0 s) : Keeps s0 (s.writePoolcmd v) := by
  unfold State.writePoolcmd
  dsimp only
  split
  · exact ok
  · split
    · exact ok.poolAcquire
    · exact ok.poolRelease
    · exact ok.poolPublish
    · exact ok

/-! ## The windows -/

theorem Keeps.writeSched {level o : Nat} {v : Word} (ok : Keeps s0 s) : Keeps s0 (s.writeSched level o v) := by
  unfold State.writeSched
  dsimp only
  refine .ite (fun _ => ?_) fun _ => .ite (fun _ => ok.writeCoreown) fun _ => .ite (fun _ => ?_) fun _ =>
    .ite (fun _ => .ite (fun _ => ok) fun _ => ok) fun _ => .ite (fun _ => ok.writePlace.writePlace) fun _ => ok
  · split
    · exact ok.writeTsched
    · exact ok.writeL2way
    · exact ok.modTenant
    · exact ok.writeCarve
    · exact ok.modTenant
    · exact ok.modTenant
    · exact ok
  · split
    · exact ok.modWarp
    · exact ok.modWarp
    · exact ok.writeSvtctl
    · exact ok

theorem Keeps.readTrans {level o : Nat} {rc : Bool} (ok : Keeps s0 s) : KeepsPair s0 (s.readTrans level o rc) :=
  .ite (fun _ => .ite (fun _ => ok) fun _ => ok) fun _ => .ite (fun _ => ok) fun _ => .ite (fun _ => ok) fun _ => .ite (fun _ => ok) fun _ =>
    .ite (fun _ => .ite (fun _ => ok.popFrret) fun _ => ok) fun _ => .ite (fun _ => ok) fun _ => .ite (fun _ => ok) fun _ =>
    .ite (fun _ => ok) fun _ => .ite (fun _ => Keeps.ite (fun _ => ok) fun _ => ok) fun _ => ok

theorem Keeps.writeTrans {level o : Nat} {v : Word} (ok : Keeps s0 s) : Keeps s0 (s.writeTrans level o v) :=
  .ite (fun _ => .ite (fun _ => ok.modTenant) fun _ => ok) fun _ => .ite (fun _ => ok) fun _ => .ite (fun _ => ok.writeFbuf) fun _ =>
    .ite (fun _ => ok.pushFrame) fun _ => .ite (fun _ => ok.pushFrame) fun _ => .ite (fun _ => ok.pushFrame) fun _ =>
    .ite (fun _ => ok.writeDecay) fun _ => .ite (fun _ => ok.writePoolcmd) fun _ => .ite (fun _ => ok.writeFbuf) fun _ => ok

theorem Keeps.readReg {level pa : Nat} {rc : Bool} (ok : Keeps s0 s) : KeepsPair s0 (s.readReg level pa rc) := by
  unfold State.readReg
  dsimp only
  split
  · exact .ite (fun _ => .ite (fun _ => ok.readFull) fun _ => ok) fun _ => ok
  · exact ok.readTrans
  · exact ok
  · exact .ite (fun _ => Keeps.ite (fun _ => ok.readPool) fun _ => ok) fun _ => ok
  · exact ok
  · exact ok
  · exact ok

theorem Keeps.writeReg {level pa : Nat} {v : Word} (ok : Keeps s0 s) : Keeps s0 (s.writeReg level pa v) := by
  unfold State.writeReg
  split
  · exact ok.postWindow
  · exact ok.writeTrans
  · exact .ite (fun _ => ok.writeSched) fun _ => ok
  · exact .ite (fun _ => ok.writePool) fun _ => ok
  · exact .ite (fun _ => ok.writeSlot) fun _ => ok
  · exact .ite (fun _ => ok.writeWin) fun _ => ok
  · exact ok

theorem Keeps.winWrite {level pa : Nat} {bs : List Byte} (ok : Keeps s0 s) : Keeps s0 (s.winWrite level pa bs) := by
  refine .ite (fun _ => ok.writeReg) fun _ => .ite (fun _ => ok) fun _ => ?_
  split
  · exact .ite (fun _ => .ite (fun _ => ok.writeStatus) fun _ => .ite (fun _ => ok.writeStatus) fun _ => ok) fun _ => ok
  · exact ok

theorem Keeps.winRead {level pa n : Nat} (ok : Keeps s0 s) : KeepsPair s0 (s.winRead level pa n) := .ite (fun _ => ok.readReg) fun _ => ok

end

end Sys2Proof.Proofs
end

