-- ==== Sys2Proof/Proofs/KeptAccesses.lean ====
section
/-! PROOFS. Kills, the accesses of a thread, the drain of a store queue, acquire and release, and the segments of a pair keep both
invariants. -/

namespace Sys2Proof.Proofs

open Sys2Proof Sys2Proof.Machine Sys2Proof.Claims

-- One proof after another: proofs run side by side over a text of this length need more threads than the check has memory for.
set_option Elab.async false

section
variable {s0 s : State}

/-! ## A gang that dies -/

theorem Keeps.killEop {e : EngOp} (ok : Keeps s0 s) : Keeps s0 (s.killEop e) := by
  have drawn {c : Bool} : Keeps s0 (if c then s.draw else s) := .ite (fun _ => ok) fun _ => ok
  unfold State.killEop
  dsimp only
  split
  · exact ok
  · exact Keeps.modWarp drawn.elsewhere

theorem Keeps.killOne {g cause : Nat} (ok : Keeps s0 s) : Keeps s0 (s.killOne g cause) := by
  unfold State.killOne
  dsimp only
  exact ((ok.touchIdle.foldl _ fun _ _ ok => ok.modWarp).foldl _ fun _ _ ok => ok.killEop).elsewhere

theorem Keeps.testPair {g cause : Nat} (ok : Keeps s0 s) : Keeps s0 (s.testPair g cause) := by
  unfold State.testPair
  split
  · exact ok
  · split
    · exact ok
    · dsimp only
      split
      · exact ok.startTest.startTest
      · exact ok.startTest

theorem Keeps.killGang {g cause : Nat} (ok : Keeps s0 s) : Keeps s0 (s.killGang g cause) := by
  unfold State.killGang
  split
  · exact ok
  · rename_i k _
    have killed : Keeps s0 (match k.twin with
        | some t => ((s.testPair g cause).killOne g cause).killOne t cause
        | none => (s.testPair g cause).killOne g cause) := by
      split
      · exact ok.testPair.killOne.killOne
      · exact ok.testPair.killOne
    exact .ite (fun _ => killed.stopLaunch) fun _ => killed

theorem Keeps.consume {n : Nat} (ok : Keeps s0 s) : KeepsPair s0 (s.consume n) := .ite (fun _ => ok) fun _ => ok.killGang

theorem Keeps.consumeLate {n : Nat} (ok : Keeps s0 s) : Keeps s0 (s.consumeLate n) := .ite (fun _ => ok.deliver) fun _ => ok.consume

/-! ## Atomics, stores and reductions performed -/

theorem Keeps.replRelease {core : Nat} {x : Xlat} (ok : Keeps s0 s) : Keeps s0 (s.replRelease core x) := .ite (fun _ => ok.l1Drop) fun _ => ok

theorem Keeps.sendAtomic {core : Nat} {x : Xlat} (ok : Keeps s0 s) : KeepsEither Prod.fst (fun t => t) s0 (s.sendAtomic core x) := by
  unfold State.sendAtomic
  split
  · rename_i t sent
    exact .ok (ok.l1Release t sent).replRelease
  · exact .error ok.l1Push

theorem Keeps.sendFrom {cs : List Nat} {x : Xlat} (ok : Keeps s0 s) : KeepsEither Prod.fst (fun t => t) s0 (s.sendFrom cs x) :=
  List.foldlRecOn (motive := KeepsEither Prod.fst (fun t => t) s0) cs _ (.ok ok) fun r h c _ => by
    cases r with
    | ok t => exact (h.2 t rfl).sendAtomic
    | error q => exact h

/-- An optional state with a value read from it. -/
theorem KeepsOpt.mapPair {α : Type} {o : Option State} {v : α} (h : KeepsOpt s0 o) : KeepsOptPair s0 (o.map fun t => (t, v)) := by
  intro r e
  obtain ⟨t, found, rfl⟩ := Option.map_eq_some_iff.mp e
  exact h t found

theorem Keeps.rmwMem {core v : Nat} {x : Xlat} {op : AtomOp} {t : Ty} (ok : Keeps s0 s) : KeepsOptPair s0 (s.rmwMem core x op t v) :=
  ok.rmwRead.pocWrite.mapPair

theorem Keeps.casMem {core v cmp : Nat} {x : Xlat} {t : Ty} (ok : Keeps s0 s) : KeepsOptPair s0 (s.casMem core x t v cmp) := by
  unfold State.casMem
  dsimp only
  split
  · exact ok.rmwRead.pocWrite.mapPair
  · exact .some ok.rmwRead.rmwCount

theorem Keeps.rmwScr {sp : ScrId} {off v : Nat} {op : AtomOp} {t : Ty} (ok : Keeps s0 s) : KeepsPair s0 (s.rmwScr sp off op t v) := ok.scrWrite

theorem Keeps.casScr {sp : ScrId} {off v cmp : Nat} {t : Ty} (ok : Keeps s0 s) : KeepsPair s0 (s.casScr sp off t v cmp) :=
  Keeps.ite (fun _ => ok.scrWrite) fun _ => ok

theorem Keeps.performStore {core : Nat} {dst : Dest} {bs : List Byte} (ok : Keeps s0 s) : KeepsOpt s0 (s.performStore core dst bs) := by
  unfold State.performStore
  split
  · exact .some ok.scrWrite
  · exact .some ok.winWrite
  · split
    · exact .ite (fun compute => ok.l1Store compute) fun _ => ok.pocWrite
    · exact ok.pocWrite.map fun _ ok => ok.l1Drop
    · exact ok.pocWrite

theorem Keeps.performRed {core v : Nat} {dst : Dest} {op : AtomOp} {t : Ty} (ok : Keeps s0 s) : KeepsOpt s0 (s.performRed core dst op t v) := by
  unfold State.performRed
  split
  · exact .some ok.rmwScr
  · exact .some ok.winRead.winWrite
  · rename_i x
    obtain ⟨_, sent⟩ := ok.sendAtomic (core := core) (x := x)
    split
    · rename_i t e
      have performed : Keeps s0 t := sent t e
      intro u made
      obtain ⟨r, found, rfl⟩ := Option.map_eq_some_iff.mp made
      exact performed.rmwMem r found
    · exact .none

/-! ## The store queue -/

theorem Keeps.sendStore {n : Nat} {x : Xlat} {bs : List Byte} {rest : List SqEntry} (ok : Keeps s0 s) : Keeps s0 (s.sendStore n x bs rest) := by
  unfold State.sendStore
  split
  · exact ok
  · exact ok

theorem Keeps.hold {n : Nat} {h : Held} (ok : Keeps s0 s) : Keeps s0 (s.hold n h) := ok.modWarp.bump

theorem Keeps.drainOne {n : Nat} (ok : Keeps s0 s) : Keeps s0 (s.drainOne n) := by
  unfold State.drainOne
  dsimp only
  split
  · exact ok
  · split
    · exact ok.modWarp.hold
    · split
      · exact ok.modWarp.consumeLate
      · split
        · rename_i t made
          exact (ok.performRed t made).modWarp
        · exact ok.stallFor
    · exact .ite (fun _ => ok) fun _ => ok.modWarp
    · split
      · rename_i t _ _ made
        exact (ok.performStore t made).modWarp
      · exact ok.sendStore
      · exact ok

theorem Keeps.drainAll {n : Nat} (ok : Keeps s0 s) : KeepsEither (fun t => t) (fun t => t) s0 (s.drainAll n) := by
  have drained : Keeps s0 ((s.warp n).storeQ.foldl (fun s (_ : SqEntry) => s.drainOne n) s) := ok.foldl _ fun _ _ ok => ok.drainOne
  unfold State.drainAll
  dsimp only
  split
  · exact .ok drained
  · exact .error drained

theorem Keeps.drainEverything (ok : Keeps s0 s) : KeepsEither (fun t => t) (fun t => t) s0 s.drainEverything :=
  List.foldlRecOn (motive := KeepsEither (fun t => t) (fun t => t) s0) (tkeys s.warps) _ (.ok ok) fun r h n _ => by
    cases r with
    | ok t => exact (h.2 t rfl).drainAll
    | error t =>
      obtain ⟨failed, done⟩ := Keeps.drainAll (n := n) (h.1 t rfl)
      dsimp only
      split
      · exact .error (done _ ‹_›)
      · exact .error (failed _ ‹_›)

/-! ## The segments of a pair -/

theorem Keeps.fold {n : Nat} {rec : List Byte} (ok : Keeps s0 s) : Keeps s0 (s.fold n rec) := ok.modWarp

theorem Keeps.closeSeg {n : Nat} {enders : BitVec 32} (ok : Keeps s0 s) : Keeps s0 (s.closeSeg n enders) := by
  obtain ⟨failed, done⟩ := ok.drainAll (n := n)
  refine .ite (fun _ => ok) fun _ => Keeps.modWarp ?_
  split
  · exact done _ ‹_›
  · exact failed _ ‹_›

theorem Keeps.bundleWait {x : Wait} (ok : Keeps s0 s) : Keeps s0 (s.bundleWait x) := ok.foldl _ fun _ _ ok => ok.modThread

theorem Keeps.passedBy {n : Nat} {ls : BitVec 32} (ok : Keeps s0 s) : Keeps s0 (s.passedBy n ls) := ok.modWarp

theorem Keeps.segGo {f : State → Out} (ok : Keeps s0 s) (step : ∀ t, Keeps s0 t → KeepsOut s0 (f t)) : KeepsOut s0 (segGo f s) := by
  have stepped := step s ok
  unfold Machine.segGo
  dsimp only
  split
  · rename_i t e
    exact .next (stepped t e).passedBy
  · exact stepped

theorem Keeps.segEnd {once : Bool} {fold : State → State} {f : State → Out} (ok : Keeps s0 s) (folds : ∀ t, Keeps s0 t → Keeps s0 (fold t))
    (step : ∀ t, Keeps s0 t → KeepsOut s0 (f t)) : KeepsOut s0 (segEnd once fold f s) :=
  .ite (fun _ => step s ok) fun _ => .ite (fun _ => .ite (fun _ => .next (Keeps.bundleWait ok)) fun _ => Keeps.segGo ok step) fun _ =>
    .ite (fun _ => .next ok.bundleWait) fun _ => .next (folds s ok).closeSeg.bundleWait

theorem Keeps.segStore {i : Instr} {need : Nat} {run : State → Out} (ok : Keeps s0 s) (step : ∀ t, Keeps s0 t → KeepsOut s0 (run t)) :
    KeepsOut s0 (segStore i need run s) := by
  unfold Machine.segStore
  dsimp only
  split
  · split
    · rename_i t instead
      exact .next (ok.issueInstead t instead)
    · exact .ite (fun _ => step s ok) fun _ => .ite (fun _ => .next ok.bundleWait) fun _ =>
        .ite (fun _ => .next ok.closeSeg.bundleWait) fun _ => step s ok
  · exact step s ok

/-! ## Acquire and release (R106 to R109, R116) -/

theorem Keeps.dropIcache {core : Nat} (ok : Keeps s0 s) : Keeps s0 (s.dropIcache core) := ok.modCore

theorem Keeps.acquire {core : Nat} {sc : Scope} (ok : Keeps s0 s) : Keeps s0 (s.acquire core sc) :=
  .ite (fun _ => Keeps.dropIcache (.ite (fun _ => ok.l1DropClean) fun _ => ok)) fun _ => ok

theorem Keeps.release {n : Nat} {sc : Scope} (ok : Keeps s0 s) : KeepsEither Prod.fst (fun t => t) s0 (s.release n sc) := by
  obtain ⟨failed, done⟩ := ok.drainAll (n := n)
  unfold State.release
  dsimp only
  split
  · rename_i t e
    exact .error (failed t e)
  · rename_i t e
    have pushed : Keeps s0 (if 3 ≤ scopeNum sc ∧ (s.warp n).core < 1024 then t.l1Push (s.warp n).core everywhere else t) :=
      .ite (fun _ => (done t e).l1Push) fun _ => done t e
    exact .ite (fun _ => .error pushed) fun _ => .ok (Keeps.ite (fun _ => pushed.l2FlushAll) fun _ => pushed)

/-! ## An instruction that a pair performs once (R242) -/

theorem Keeps.copyTwin {i : Instr} {s1 : State} (ok : Keeps s0 s) : Keeps s0 (copyTwin i s1 s) := by
  unfold Machine.copyTwin
  dsimp only
  split
  · exact ok
  · refine .ite (fun _ => Keeps.renumber ?_) fun _ => ?_
    all_goals
      refine .ite (fun _ => Keeps.acquire ?_) fun _ => ?_
      all_goals
        refine .ite (fun _ => Keeps.modWarp ?_) fun _ => ?_
        all_goals exact Keeps.passedBy (ok.foldl _ fun _ _ ok => ok.modThread)

theorem Keeps.segOnce {i : Instr} {fold : State → State} {f : State → Out} (ok : Keeps s0 s) (folds : ∀ t, Keeps s0 t → Keeps s0 (fold t))
    (step : ∀ t, Keeps s0 t → KeepsOut s0 (f t)) : KeepsOut s0 (segOnce i fold f s) := by
  unfold Machine.segOnce
  split
  · rename_i t instead
    exact .next (ok.issueInstead t instead)
  · refine .ite (fun _ => .ite (fun _ => ok.segGo step) fun _ => step s ok) fun _ => ok.segEnd folds fun t ok => ?_
    have stepped := step t ok
    split
    · rename_i u e
      exact .next (.ite (fun _ => (stepped u e).copyTwin) fun _ => stepped u e)
    · exact stepped

theorem Keeps.bounded {n l : Nat} {x : Wait} {fail : State} (ok : Keeps s0 s) (failed : Keeps s0 fail) : KeepsPair s0 (s.bounded n l x fail) :=
  .ite (fun _ => failed) fun _ => ok.modThread

/-! ## Loads below the store queue -/

theorem Keeps.readBelow {core n : Nat} {x : Xlat} (ok : Keeps s0 s) : KeepsPair s0 (s.readBelow core x n) := by
  unfold State.readBelow
  split
  · rename_i compute
    split
    · exact ok.l1Read compute
    · exact ok.l1Read compute
    · exact ok.pocRead
  · exact ok.pocRead

theorem Keeps.loadMem {n len : Nat} {x : Xlat} {home : Bool} (ok : Keeps s0 s) : KeepsPair s0 (s.loadMem n x len home) := by
  refine .ite (fun _ => ok) fun _ => ?_
  have read {own : Bool} : KeepsPair s0 (if own then (s, List.replicate len (0 : Byte))
      else if home then s.lrRead (s.warp n).core x len else s.readBelow (s.warp n).core x len) :=
    .ite (fun _ => ok) fun _ => .ite (fun _ => ok.lrRead) fun _ => ok.readBelow
  exact .ite (fun _ => read) fun _ => read

end

end Sys2Proof.Proofs
end

