-- ==== Sys2Proof/Proofs/KeptMemoryInstructions.lean ====
section
/-! PROOFS. The memory, scratch and atomic instructions keep both invariants. -/

namespace Sys2Proof.Proofs

open Sys2Proof Sys2Proof.Machine Sys2Proof.Claims

-- One proof after another: proofs run side by side over a text of this length need more threads than the check has memory for.
set_option Elab.async false

section
variable {s0 s : State}

/-! ## The translation and the gate of an access -/

theorem Keeps.mapped {n l len progress : Nat} {acc : Acc} {e : Word} (ok : Keeps s0 s) : KeepsPair s0 (s.mapped n l acc e len progress) := by
  have translated := ok.translateFor (w := s.warp n) (acc := acc) (va := addr e)
  unfold State.mapped
  dsimp only
  split
  · exact ok
  · split
    · exact translated
    · exact translated.accessFault

theorem Keeps.gate {n l progress : Nat} {acc : Acc} {e : Word} {x : Xlat} (ok : Keeps s0 s) : KeepsPair s0 (s.gate n l acc e x progress) := by
  have gated := ok.fabricGate (pa := x.pa)
  unfold State.gate
  dsimp only
  split
  · exact ok.wake
  · split
    · exact gated
    · exact gated
    · exact gated.accessFault

theorem Keeps.access {n l len progress : Nat} {acc : Acc} {e : Word} (ok : Keeps s0 s) : KeepsPair s0 (s.access n l acc e len progress) := by
  unfold State.access
  dsimp only
  split
  · exact ok.mapped
  · exact ok.mapped.gate

theorem Keeps.memFold {i : Instr} {e : LaneCx → Word} {len : Nat} {f : Nat → State → State × LaneOut} (ok : Keeps s0 s)
    (step : ∀ l t, Keeps s0 t → KeepsPair s0 (f l t)) : KeepsOut s0 (memFold i e len f s) := by
  unfold Machine.memFold
  split
  · exact .fault
  · exact ok.laneFold step

/-! ## Loads -/

theorem Keeps.loadWin {n l : Nat} {x : Xlat} {ty : MTy} {d : Dst} (ok : Keeps s0 s) : KeepsPair s0 (s.loadWin n l x ty d) := by
  refine .ite (fun _ => ok) fun _ => ?_
  split
  · exact ok
  · exact ok.winRead.modThread

theorem Keeps.loadInto {n l : Nat} {x : Xlat} {ty : MTy} {d : Dst} {home : Bool} (ok : Keeps s0 s) : KeepsPair s0 (s.loadInto n l x ty d home) := by
  have loaded := ok.loadMem (n := n) (x := x) (len := mBytes ty) (home := home)
  unfold State.loadInto
  dsimp only
  split
  · exact loaded
  · exact .ite (fun _ => loaded) fun _ => loaded.consume
  · exact loaded.modThread

theorem Keeps.ldLane {d : Dst} {a : Src} {imm : BitVec 16} {ty : MTy} {l : Nat} (ok : Keeps s0 s) : KeepsPair s0 (ldLane d a imm ty l s) := by
  unfold Machine.ldLane
  dsimp only
  split
  · exact ok.access
  · exact .ite (fun _ => ok.access.loadWin) fun _ => ok.access.loadInto

theorem Keeps.lrLane {d : Dst} {a : Src} {imm : BitVec 16} {ty : Ty} {l : Nat} (ok : Keeps s0 s) : KeepsPair s0 (lrLane d a imm ty l s) := by
  have reached := ok.access (n := s.cur.warp) (l := l) (acc := accLoad) (e := (s.cx s.cur.warp l).ea a imm) (len := mBytes (.ty ty)) (progress := 0xFFFF)
  unfold Machine.lrLane
  dsimp only
  split
  · exact reached
  · rename_i x _
    obtain ⟨refused, sent⟩ := Keeps.sendAtomic (core := (s.warp s.cur.warp).core) (x := x) reached
    split
    · rename_i q e
      exact refused q e
    · rename_i t e
      have ready : Keeps s0 t := sent t e
      have loaded : KeepsPair s0 (if regionOf x.pa = .window then t.loadWin s.cur.warp l x (.ty ty) d else t.loadInto s.cur.warp l x (.ty ty) d true) :=
        .ite (fun _ => ready.loadWin) fun _ => ready.loadInto
      split
      · exact .ite (fun _ => loaded) fun _ => Keeps.modThread loaded
      · exact loaded

theorem Keeps.loadReady {c : Prop} [Decidable c] {n : Nat} (ok : Keeps s0 s) :
    KeepsEither (fun t => t) (fun t => t) s0 (if c then .ok s else s.drainAll n : Except State State) := .ite (fun _ => .ok ok) fun _ => ok.drainAll

theorem Keeps.scrLoadLane {sp : Space} {d : Dst} {a : Src} {imm : BitVec 16} {ty : MTy} {tag : Tag} {l : Nat} (ok : Keeps s0 s) :
    KeepsPair s0 (scrLoadLane sp d a imm ty tag l s) := by
  obtain ⟨waits, ready⟩ := ok.loadReady (c := tag = .plain) (n := s.cur.warp)
  unfold Machine.scrLoadLane
  dsimp only
  split
  · exact ok
  · split
    · rename_i t e
      exact waits t e
    · rename_i t e
      have drained : Keeps s0 t := ready t e
      refine .ite (fun _ => drained) fun _ => ?_
      split
      · exact drained
      · exact .ite (fun _ => drained.consume) fun _ => Keeps.ite (fun _ => drained.modThread.setTag) fun _ => drained.modThread

/-! ## Stores -/

theorem Keeps.queueFold {i : Instr} {need : Nat} {run : State → Out} (ok : Keeps s0 s) (step : ∀ t, Keeps s0 t → KeepsOut s0 (run t)) :
    KeepsOut s0 (queueFold i need run s) := by
  unfold Machine.queueFold
  split
  · rename_i t instead
    exact .next (ok.issueInstead t instead)
  · exact .ite (fun _ => .next ok.bundleWait) fun _ => step s ok

theorem Keeps.enqueue {n : Nat} {e : SqEntry} (ok : Keeps s0 s) : Keeps s0 (s.enqueue n e) := ok.modWarp

theorem Keeps.issueStore {i : Instr} {n : Nat} {e : Word} {dst : Dest} {bs : List Byte} (ok : Keeps s0 s) : KeepsPair s0 (s.issueStore i n e dst bs) :=
  Keeps.enqueue (.ite (fun _ => ok.fold) fun _ => ok)

theorem Keeps.stLane {i : Instr} {d a : Src} {imm : BitVec 16} {ty : MTy} {l : Nat} (ok : Keeps s0 s) : KeepsPair s0 (stLane i d a imm ty l s) := by
  unfold Machine.stLane
  dsimp only
  split
  · exact ok.access
  · exact ok.access.issueStore

theorem Keeps.scrStoreLane {i : Instr} {sp : Space} {d a : Src} {imm : BitVec 16} {ty : MTy} {we : Bool} {l : Nat} (ok : Keeps s0 s) :
    KeepsPair s0 (scrStoreLane i sp d a imm ty we l s) := by
  obtain ⟨waits, ready⟩ := ok.drainAll (n := s.cur.warp)
  unfold Machine.scrStoreLane
  dsimp only
  split
  · exact ok
  · refine .ite (fun _ => ?_) fun _ => ok.issueStore
    split
    · rename_i t e
      exact waits t e
    · rename_i t e
      have drained : Keeps s0 t := ready t e
      exact .ite (fun _ => drained) fun _ => drained.scrWrite.setTag

theorem Keeps.scrStore {i : Instr} {sp : Space} {d a : Src} {imm : BitVec 16} {ty : MTy} {we : Bool} (ok : Keeps s0 s) :
    KeepsOut s0 (scrStore i sp d a imm ty we s) := ok.queueFold fun _ ok => ok.laneFold fun _ _ ok => ok.scrStoreLane

/-- A store conditional that found its way ends with one write of the thread (R120). -/
theorem Keeps.scAt {n l : Nat} {p : Xlat} {bs : List Byte} {qd : Pred} (ok : Keeps s0 s) : KeepsPair s0 (s.scAt n l p bs qd) := by
  unfold State.scAt
  dsimp only
  split
  · split
    · exact ok.winWrite.modThread
    · exact ok.draw.modThread
    · split
      · rename_i t made
        exact (ok.pocWrite t made).modThread
      · exact ok.stallFor
  · exact ok.modThread

theorem Keeps.scLane {d a : Src} {imm : BitVec 16} {ty : Ty} {qd : Pred} {l : Nat} (ok : Keeps s0 s) : KeepsPair s0 (scLane d a imm ty qd l s) := by
  have found := ok.mapped (n := s.cur.warp) (l := l) (acc := accAtomic) (e := (s.cx s.cur.warp l).ea a imm) (len := mBytes (.ty ty)) (progress := 0xFFFF)
  unfold Machine.scLane
  dsimp only
  split
  · exact found
  · rename_i p _
    obtain ⟨waits, ready⟩ := Keeps.drainAll (n := s.cur.warp) found
    split
    · rename_i t e
      exact waits t e
    · rename_i t e
      obtain ⟨refused, sent⟩ := Keeps.sendFrom (cs := t.issuers s.cur.warp) (x := p) (ready t e)
      split
      · rename_i q e
        exact Keeps.stallFor (refused q e)
      · rename_i u e
        have there : Keeps s0 u := sent u e
        have gated {c : Prop} [Decidable c] : KeepsPair s0 (if c then u.gate s.cur.warp l accAtomic ((s.cx s.cur.warp l).ea a imm) p 0xFFFF
            else (u, .ok p)) := .ite (fun _ => there.gate) fun _ => there
        split
        · exact gated
        · exact gated.scAt

theorem Keeps.foldLanes {i : Instr} {a : LaneCx → Word} {data : LaneCx → List Byte} {n : Nat} (ok : Keeps s0 s) :
    Keeps s0 (s.foldLanes i a data n) := ok.foldl _ fun _ _ ok => ok.fold

/-! ## Prefetches and tags -/

theorem Keeps.prefSector {w : Warp} {l2 : Bool} {va : Nat} (ok : Keeps s0 s) : Keeps s0 (s.prefSector w l2 va) := by
  have translated := ok.translateFor (w := w) (acc := accLoad) (va := va)
  refine .ite (fun _ => ok) fun _ => ?_
  dsimp only
  split
  · exact translated
  · exact .ite (fun _ => translated) fun _ => .ite (fun compute => .ite (fun _ => translated.l2Read) fun _ => translated.l1Fill compute) fun _ =>
      translated.l2Read

theorem Keeps.prefLane {a : Src} {imm : BitVec 16} {ext : PrefExt} {l2 : Bool} {l : Nat} (ok : Keeps s0 s) :
    KeepsPair s0 (prefLane a imm ext l2 l s) := .ite (fun _ => ok) fun _ => Keeps.foldl ok _ fun _ _ ok => ok.prefSector

theorem Keeps.tagLane {sp : Space} {a : Src} {imm : BitVec 16} {f : ScrId → Nat → State → State} {l : Nat} (ok : Keeps s0 s)
    (step : ∀ id off t, Keeps s0 t → Keeps s0 (f id off t)) : KeepsPair s0 (tagLane sp a imm f l s) := by
  obtain ⟨waits, ready⟩ := ok.drainAll (n := s.cur.warp)
  unfold Machine.tagLane
  dsimp only
  split
  · exact ok
  · split
    · rename_i t e
      exact waits t e
    · rename_i t e
      exact step _ _ t (ready t e)

/-! ## Atomics and reductions -/

theorem Keeps.atomElems {f : State → Nat → Option (State × Nat)} {is : List Nat} (ok : Keeps s0 s)
    (step : ∀ t i, Keeps s0 t → KeepsOptPair s0 (f t i)) : KeepsOptPair s0 (atomElems f is s) := by
  induction is generalizing s with
  | nil => exact .some ok
  | cons i is ih =>
    have stepped := step s i ok
    unfold Machine.atomElems
    split
    · exact .none
    · rename_i t v e
      intro r made
      obtain ⟨q, found, rfl⟩ := Option.map_eq_some_iff.mp made
      exact ih (stepped _ e) q found

theorem Keeps.memElem {w : Warp} {x : Xlat} {o : ElemOp} {t : Ty} {b c : Word} {i : Nat} (ok : Keeps s0 s) :
    KeepsOptPair s0 (s.memElem w x o t b c i) := by
  unfold State.memElem
  dsimp only
  split
  · split
    · exact .some ok.winRead.winWrite
    · exact .some (.ite (fun _ => ok.winRead.winWrite) fun _ => ok.winRead)
  · split
    · exact ok.rmwMem
    · exact ok.casMem

theorem Keeps.waitBehind {n l u : Nat} {w : Wait} (ok : Keeps s0 s) : KeepsPair s0 (s.waitBehind n l u w) := by
  unfold State.waitBehind
  split
  · exact ok.addWaiter
  · exact ok

theorem Keeps.atomLane {gt : List Nat} {o : ElemOp} {d : Dst} {a b c : Src} {t : Ty} {l : Nat} (ok : Keeps s0 s) :
    KeepsPair s0 (atomLane gt o d a b c t l s) := by
  obtain ⟨waits, ready⟩ := ok.drainAll (n := s.cur.warp)
  refine .ite (fun _ => ok) fun _ => ?_
  split
  · exact ok.waitBehind
  · split
    · rename_i t e
      exact waits t e
    · rename_i u e
      have reached := Keeps.access (n := s.cur.warp) (l := l) (acc := accAtomic) (e := (s.cx s.cur.warp l).src a) (len := 8)
        (progress := progressOf gt t l (s.cx s.cur.warp l).t.applied) (ready u e)
      dsimp only
      split
      · exact reached
      · rename_i p _
        split
        · exact reached
        · rename_i q _ e
          exact Keeps.stallFor ((Keeps.sendFrom reached).1 q e)
        · rename_i v _ e
          have there : Keeps s0 v := (Keeps.sendFrom reached).2 v e
          refine .ite (fun _ => there.consume) fun _ => ?_
          split
          · exact there.stallFor
          · rename_i q made
            exact Keeps.modThread (there.atomElems (fun _ _ ok => ok.memElem) q made)

theorem Keeps.atomRun {i : Instr} {o : ElemOp} {d : Dst} {a b c : Src} {t : Ty} {data : LaneCx → List Byte} (ok : Keeps s0 s) :
    KeepsOut s0 (atomRun i o d a b c t data s) := ok.segOnce (fun _ ok => ok.foldLanes) fun _ ok => ok.memFold fun _ _ ok => ok.atomLane

theorem Keeps.scrElem {id : ScrId} {off : Nat} {o : ElemOp} {t : Ty} {b c : Word} {i : Nat} (ok : Keeps s0 s) :
    KeepsPair s0 (s.scrElem id off o t b c i) := by
  unfold State.scrElem
  dsimp only
  split
  · exact ok.rmwScr
  · exact ok.casScr

theorem Keeps.atomsLane {o : ElemOp} {die : Bool} {d : Dst} {a b c : Src} {t : Ty} {l : Nat} (ok : Keeps s0 s) :
    KeepsPair s0 (atomsLane o die d a b c t l s) := by
  obtain ⟨waits, ready⟩ := ok.drainAll (n := s.cur.warp)
  refine .ite (fun _ => ok) fun _ => ?_
  split
  · exact ok
  · split
    · rename_i t e
      exact waits t e
    · rename_i u e
      have drained : Keeps s0 u := ready u e
      refine .ite (fun _ => drained.consume) fun _ => Keeps.modThread ?_
      exact Keeps.foldlPair (r := (u, [])) drained _ fun _ _ ok => ok.scrElem

theorem Keeps.redElems {n from_ applied : Nat} {dst : Dest} {op : AtomOp} {t : Ty} {v : Word} (ok : Keeps s0 s) :
    Keeps s0 (s.redElems n from_ applied dst op t v) := ok.foldl _ fun _ _ ok => ok.modWarp

theorem Keeps.redLane {i : Instr} {gt : List Nat} {from_ : Nat} {a b : Src} {op : AtomOp} {t : Ty} {l : Nat} (ok : Keeps s0 s) :
    KeepsPair s0 (redLane i gt from_ a b op t l s) := by
  refine .ite (fun _ => ok) fun _ => ?_
  split
  · exact ok.waitBehind
  · have reached := ok.access (n := s.cur.warp) (l := l) (acc := accAtomic) (e := (s.cx s.cur.warp l).src a) (len := 8)
      (progress := progressOf gt t l (s.cx s.cur.warp l).t.applied)
    dsimp only
    split
    · exact reached
    · exact Keeps.redElems (.ite (fun _ => reached.fold) fun _ => reached)

theorem Keeps.redsLane {from_ : Nat} {die : Bool} {a b : Src} {op : AtomOp} {t : Ty} {l : Nat} (ok : Keeps s0 s) :
    KeepsPair s0 (redsLane from_ die a b op t l s) := by
  refine .ite (fun _ => ok) fun _ => ?_
  split
  · exact ok
  · exact ok.redElems

end

end Sys2Proof.Proofs
end

