-- ==== Sys2Proof/Proofs/KeptSynchronisation.lean ====
section
/-! PROOFS. Float and cross-lane forms, fences, read sections, grace periods and the pool instructions keep both invariants. -/

namespace Sys2Proof.Proofs

open Sys2Proof Sys2Proof.Machine Sys2Proof.Claims

-- One proof after another: proofs run side by side over a text of this length need more threads than the check has memory for.
set_option Elab.async false

section
variable {s0 s : State}

/-! ## Shuffles -/

theorem Keeps.shflComplete {i : Instr} {d : Dst} {a b : Src} {ty : Ty} {qd : Pred} {k : Nat} {m : Meeting} {mask : BitVec 32} (ok : Keeps s0 s) :
    Keeps s0 (shflComplete i d a b ty qd k m mask s) := Keeps.modWarp (ok.foldl _ fun _ _ ok => ok.modThread)

theorem Keeps.shflLane {i : Instr} {d : Dst} {a b c : Src} {ty : Ty} {qd : Pred} {pc : Word} {acc : State × List Raise} {l : Nat}
    (ok : Keeps s0 acc.1) : KeepsPair s0 (shflLane i d a b c ty qd pc acc l) := by
  refine .ite (fun _ => ok) fun _ => .ite (fun _ => ok.modWarp.modThread) fun _ => .ite (fun _ => ok) fun _ => ?_
  have arrived {c : Prop} [Decidable c] {f : Warp → Warp} {g : Thread → Thread} :
      Keeps s0 (if c then acc.1 else (acc.1.modWarp acc.1.cur.warp f).modThread acc.1.cur.warp l g) :=
    .ite (fun _ => ok) fun _ => ok.modWarp.modThread
  dsimp only
  split
  · exact arrived
  · split
    · exact arrived
    · exact .ite (fun _ => arrived.shflComplete) fun _ => arrived

theorem Keeps.execShfl {k : Ctl} {d : Dst} {a b c : Src} {ty : Ty} {qd : Pred} (ok : Keeps s0 s) : KeepsOut s0 (execShfl k d a b c ty qd s) := by
  unfold Machine.execShfl
  split
  · rename_i t instead
    exact .next (ok.issueInstead t instead)
  · have met := Keeps.foldlPair (r := (s, [])) ok s.lanes fun _ l ok =>
      Keeps.shflLane (i := .shfl k d a b c ty qd) (d := d) (a := a) (b := b) (c := c) (ty := ty) (qd := qd) (pc := s.curPc) (l := l) ok
    exact .next met.stallYield.deliver

/-! ## Fences and grace periods -/

/-- A release where one is asked for. -/
theorem Keeps.releaseIf {c : Bool} {n : Nat} {sc : Scope} (ok : Keeps s0 s) :
    KeepsEither Prod.fst (fun t => t) s0 (if c then s.release n sc else .ok s) := .ite (fun _ => ok.release) fun _ => .ok ok

theorem Keeps.fenceLane {o : Order} {sc : Scope} {l : Nat} (ok : Keeps s0 s) : KeepsPair s0 (fenceLane o sc l s) := by
  obtain ⟨waits, ready⟩ := ok.releaseIf (c := orderRels o) (n := s.cur.warp) (sc := sc)
  refine .ite (fun _ => ok) fun _ => ?_
  split
  · rename_i q e
    exact waits q e
  · rename_i t e
    have released : Keeps s0 t := ready t e
    exact Keeps.ite (fun _ => released.acquire) fun _ => released

theorem Keeps.segFence {i : Instr} {sc : Scope} {run : State → Out} (ok : Keeps s0 s) (step : ∀ t, Keeps s0 t → KeepsOut s0 (run t)) :
    KeepsOut s0 (segFence i sc run s) := by
  refine .ite (fun _ => ?_) fun _ => step s ok
  split
  · rename_i t instead
    exact .next (ok.issueInstead t instead)
  · exact ok.segEnd (fun _ => id) step

theorem Keeps.gpwaitLane {l : Nat} (ok : Keeps s0 s) : KeepsPair s0 (gpwaitLane l s) := by
  obtain ⟨waits, ready⟩ := ok.release (n := s.cur.warp) (sc := .pk)
  unfold Machine.gpwaitLane
  dsimp only
  split
  · exact .ite (fun _ => ok.acquire) fun _ => ok
  · refine .ite (fun _ => ok) fun _ => ?_
    split
    · rename_i q e
      exact waits q e
    · rename_i t e
      have advanced : Keeps s0 (t.advance (s.warp s.cur.warp).tenant).1 := Keeps.advance (ready t e)
      exact .ite (fun _ => advanced.modThread.acquire) fun _ => advanced.modThread

/-! ## The pool instructions -/

theorem Keeps.answer {n l : Nat} {q : Pred} {b : Bool} (ok : Keeps s0 s) : Keeps s0 (s.answer n l q b) := ok.modThread

theorem Keeps.pushDefer {t ptr k pool : Nat} (ok : Keeps s0 s) : Keeps s0 (s.pushDefer t ptr k pool) := ok.modTenant

theorem Keeps.deferCheck {t ptr k p : Nat} (ok : Keeps s0 s) : KeepsPair s0 (s.deferCheck t ptr k p) :=
  .ite (fun _ => ok) fun _ => .ite (fun _ => ok.perr) fun _ => ok

theorem Keeps.deferLane {i : Instr} {q : Pred} {a b : Src} {wt : Bool} {l : Nat} (ok : Keeps s0 s) : KeepsPair s0 (deferLane i q a b wt l s) := by
  obtain ⟨waits, ready⟩ := ok.release (n := s.cur.warp) (sc := .pk)
  refine .ite (fun _ => ok) fun _ => .ite (fun _ => ok) fun _ => ?_
  split
  · rename_i r e
    exact waits r e
  · rename_i t e
    have released : Keeps s0 t := ready t e
    have refused {c : Bool} {rec : List Byte} : Keeps s0 ((if c then t.fold s.cur.warp rec else t).answer s.cur.warp l q false) :=
      Keeps.answer (.ite (fun _ => released.fold) fun _ => released)
    exact .ite (fun _ => .ite (fun _ => released.bounded refused) fun _ => refused) fun _ => .ite (fun _ => released.fold.hold.answer) fun _ =>
      .ite (fun _ => released.deferCheck.pushDefer.answer) fun _ => released.deferCheck.answer

theorem Keeps.allocLane {q : Pred} {d : Dst} {b : Src} {wt : Bool} {l : Nat} (ok : Keeps s0 s) : KeepsPair s0 (allocLane q d b wt l s) := by
  have asked := ok.poolAlloc (who := .thread s.cur.warp l) (k := (s.cx s.cur.warp l).w.tenant) (p := wbits ((s.cx s.cur.warp l).src b) 8 4)
    (n := wbits ((s.cx s.cur.warp l).src b) 0 5)
  refine .ite (fun _ => ok) fun _ => .ite (fun _ => ok) fun _ => ?_
  dsimp only
  split
  · exact asked
  · exact asked.modThread.acquire
  · exact asked.modThread
  · exact .ite (fun _ => asked.bounded asked.modThread) fun _ => asked.modThread

theorem Keeps.freeHeld {i : Instr} {n l : Nat} {q : Pred} {a gb : Word} {t p k : Nat} (ok : Keeps s0 s) :
    KeepsPair s0 (s.freeHeld i n l q a gb t p k) := by
  have served := ok.poolServe (who := .thread n l) (k := t) (p := p) (f := fun s => s.freeLook t p a.toNat k) fun _ ok => ok.freeLook
  unfold State.freeHeld
  dsimp only
  split
  · exact served
  · exact served.fold.answer
  · exact served.fold.hold.answer
  · exact served.fold.hold.answer

theorem Keeps.freeLane {i : Instr} {q : Pred} {a b : Src} {l : Nat} (ok : Keeps s0 s) : KeepsPair s0 (freeLane i q a b l s) := by
  obtain ⟨waits, ready⟩ := ok.release (n := s.cur.warp) (sc := .pk)
  refine .ite (fun _ => ok) fun _ => ?_
  split
  · rename_i r e
    exact waits r e
  · rename_i t e
    have released : Keeps s0 t := ready t e
    refine .ite (fun _ => released.freeHeld) fun _ => ?_
    dsimp only
    split
    · exact released.poolFree
    · exact released.poolFree.answer
    · exact released.poolFree.answer

end

end Sys2Proof.Proofs
end

