-- ==== Sys2Proof/Proofs/KeptEngineWork.lean ====
section
/-! PROOFS. What the engines do, their posting, their accesses and each kind of their work, keeps both invariants. -/

namespace Sys2Proof.Proofs

open Sys2Proof Sys2Proof.Machine Sys2Proof.Claims

-- One proof after another: proofs run side by side over a text of this length need more threads than the check has memory for.
set_option Elab.async false

section
variable {s0 s : State}

/-! ## Operations that may answer a state beside a value -/

section
variable {α β : Type} {o : Option (State × α)}

theorem KeepsOptPair.map {f : State × α → State × β} (h : KeepsOptPair s0 o) (step : ∀ r, Keeps s0 r.1 → KeepsPair s0 (f r)) :
    KeepsOptPair s0 (o.map f) := by
  intro q e
  obtain ⟨r, found, rfl⟩ := Option.map_eq_some_iff.mp e
  exact step r (h r found)

theorem KeepsOptPair.bind {f : State × α → Option (State × β)} (h : KeepsOptPair s0 o) (step : ∀ r, Keeps s0 r.1 → KeepsOptPair s0 (f r)) :
    KeepsOptPair s0 (o.bind f) := by
  intro q e
  obtain ⟨r, found, e⟩ := Option.bind_eq_some_iff.mp e
  exact step r (h r found) q e

theorem KeepsOptPair.foldl {f : Option (State × α) → β → Option (State × α)} (h : KeepsOptPair s0 o) (xs : List β)
    (step : ∀ o x, KeepsOptPair s0 o → KeepsOptPair s0 (f o x)) : KeepsOptPair s0 (xs.foldl f o) := by
  induction xs generalizing o with
  | nil => exact h
  | cons x xs ih => exact ih (step o x h)

theorem KeepsOpt.pair {f : State → State × α} {o : Option State} (h : KeepsOpt s0 o) (step : ∀ t, Keeps s0 t → KeepsPair s0 (f t)) :
    KeepsOptPair s0 (o.map f) := by
  intro q e
  obtain ⟨t, found, rfl⟩ := Option.map_eq_some_iff.mp e
  exact step t (h t found)

/-- Steps that may fail and carry a value along. -/
theorem KeepsOpt.foldlFst {f : Option State × α → β → Option State × α} {r : Option State × α} (h : KeepsOpt s0 r.1) (xs : List β)
    (step : ∀ r x, KeepsOpt s0 r.1 → KeepsOpt s0 (f r x).1) : KeepsOpt s0 (xs.foldl f r).1 := by
  induction xs generalizing r with
  | nil => exact h
  | cons x xs ih => exact ih (step r x h)

end

/-! ## Posting (R217, R220) -/

theorem Keeps.readDesc {n : Nat} {x : Xlat} (ok : Keeps s0 s) : KeepsEither (fun t => t) Prod.fst s0 (s.readDesc n x) := by
  have pushed {c : Prop} [Decidable c] {k : Nat} {p : Nat → Bool} : Keeps s0 (if c then s.l1Push k p else s) := .ite (fun _ => ok.l1Push) fun _ => ok
  exact .ite (fun _ => .ok ok.winRead) fun _ => .ite (fun _ => .error pushed) fun _ => .ok pushed.pocRead

theorem Keeps.pushEop {i : Instr} {n : Nat} {k : EngKind} {e : Word} {d : List Byte} (ok : Keeps s0 s) : Keeps s0 (s.pushEop i n k e d) :=
  .ite (fun _ => Keeps.hold (Keeps.fold ok)) fun _ => ok

theorem Keeps.postAt {i : Instr} {k : EngKind} {a : Src} {imm : BitVec 16} {l : Nat} (ok : Keeps s0 s) : KeepsPair s0 (s.postAt i k a imm l) := by
  have reached := ok.access (n := s.cur.warp) (l := l) (acc := accLoad) (e := (s.cx s.cur.warp l).ea a imm) (len := 64) (progress := 0xFFFF)
  refine .ite (fun _ => ok) fun _ => ?_
  split
  · exact reached
  · rename_i x _
    split
    · rename_i t e
      exact (Keeps.drainAll reached).1 t e
    · rename_i t e
      obtain ⟨waits, read⟩ := Keeps.readDesc (n := s.cur.warp) (x := x) ((Keeps.drainAll reached).2 t e)
      split
      · rename_i u e
        exact waits u e
      · rename_i q e
        exact Keeps.pushEop (read q e)

theorem Keeps.advanceAll {i : Instr} (ok : Keeps s0 s) : Keeps s0 (s.advanceAll i) := ok.foldl _ fun _ _ ok => ok.modThread

theorem Keeps.warpRun {i : Instr} {f : Nat → State → State × LaneOut} (ok : Keeps s0 s) (step : ∀ l t, Keeps s0 t → KeepsPair s0 (f l t)) :
    KeepsOut s0 (warpRun i f s) := by
  unfold Machine.warpRun
  split
  · rename_i t instead
    exact .next (ok.issueInstead t instead)
  · split
    · exact .next ok.advanceAll.stallYield
    · rename_i l _ _
      have stepped := step l s ok
      refine .next ?_
      split
      · exact Keeps.deliver stepped
      · exact Keeps.modThread stepped
      · exact stepped
      · exact Keeps.stallYield (Keeps.advanceAll stepped)

theorem Keeps.postOp {i : Instr} {k : EngKind} {a : Src} {imm : BitVec 16} (ok : Keeps s0 s) : KeepsOut s0 (postOp i k a imm s) := by
  unfold Machine.postOp
  split
  · exact .fault
  · exact .ite (fun _ => .next ok.bundleWait) fun _ => ok.warpRun fun _ _ ok => ok.postAt

/-! ## Accesses of an engine -/

theorem Keeps.openCode (ok : Keeps s0 s) : KeepsPair s0 s.openCode := ok.draw

theorem Keeps.engXlat {g : Agent} {acc : Acc} {va : Nat} (ok : Keeps s0 s) : KeepsPair s0 (s.engXlat g acc va) := by
  have translated := ok.translate (node := clusterOf g.core) (tenant := g.tenant) (user := g.level == .user) (acc := acc) (va := va)
  unfold State.engXlat
  dsimp only
  split
  · refine .ite (fun _ => ok) fun _ => .ite (fun _ => ok.openCode) fun _ => ?_
    split <;> exact ok
  · split
    · refine .ite (fun _ => translated) fun _ => .ite (fun _ => translated.wake) fun _ => ?_
      split
      · exact translated.fabricGate
      · exact translated.fabricGate.recordFault.addWaiter
    · exact translated
    · exact translated.openCode
    · exact translated.recordFault.addWaiter

theorem Keeps.engXlats {g : Agent} {acc : Acc} {cs : List (Nat × Nat)} (ok : Keeps s0 s) : KeepsPair s0 (s.engXlats g acc cs) := by
  unfold State.engXlats
  refine Keeps.foldlPair (r := (s, Except.ok [])) ok cs fun r c ok => ?_
  dsimp only
  split
  · exact ok
  · split
    · exact ok.engXlat
    · exact ok.engXlat

theorem Keeps.engLoad {g : Agent} {x : Xlat} {n : Nat} (ok : Keeps s0 s) : KeepsOptPair s0 (s.engLoad g x n) := by
  unfold State.engLoad
  split
  · exact .some ok.winRead
  · exact (KeepsOpt.ite (fun _ => ok.l1WriteBack) fun _ => .some ok).pair fun _ ok => ok.devLoad

theorem Keeps.engReads {g : Agent} {xs : List (Xlat × Nat)} (ok : Keeps s0 s) : KeepsOptPair s0 (s.engReads g xs) :=
  KeepsOptPair.foldl (.some (r := (s, [], false)) ok) xs fun _ _ h => h.bind fun _ ok => ok.engLoad.map fun _ ok => ok

theorem Keeps.spread {bad : Bool} {pa n : Nat} (ok : Keeps s0 s) : Keeps s0 (s.spread bad pa n) := .ite (fun _ => ok) fun _ => ok

theorem Keeps.giveUp {cs : List Nat} {x : Xlat} (ok : Keeps s0 s) : KeepsOpt s0 (s.giveUp cs x) :=
  ok.tryAll _ fun _ _ ok => ok.l1Release.map fun _ ok => ok.replRelease

theorem Keeps.engStore {g : Agent} {x : Xlat} {bs : List Byte} {bad : Bool} (ok : Keeps s0 s) : KeepsOpt s0 (s.engStore g x bs bad) := by
  unfold State.engStore
  split
  · exact .some (ok.foldl _ fun _ _ ok => ok.winWrite)
  · exact ok.giveUp.bind fun _ ok => ok.devStore.map fun _ ok => ok.spread

theorem Keeps.engStores {g : Agent} {xs : List (Xlat × Nat)} {bs : List Byte} {bad : Bool} (ok : Keeps s0 s) :
    KeepsOpt s0 (s.engStores g xs bs bad) := KeepsOpt.foldlFst (r := (some s, bs)) (.some ok) xs fun _ _ h => h.bind fun _ ok => ok.engStore

/-! ## The end of an operation -/

theorem Keeps.dropEop {e : EngOp} (ok : Keeps s0 s) : Keeps s0 (s.dropEop e) := by
  unfold State.dropEop
  exact Keeps.bivCounters (Keeps.modWarp ok.touchIdle.elsewhere)

theorem Keeps.retireEop {e : EngOp} (ok : Keeps s0 s) : Keeps s0 (s.retireEop e) := by
  unfold State.retireEop
  split
  · exact ok.dropEop.dropEop
  · exact ok.dropEop

theorem Keeps.noteFault {id : Nat} (ok : Keeps s0 s) : Keeps s0 (s.noteFault id) := .ite (fun _ => ok.modEop) fun _ => ok.modEop.stallFor

theorem Keeps.devWriteFor {e : EngOp} {va : Nat} {bs : List Byte} {who : Waiter} (ok : Keeps s0 s) : KeepsPair s0 (s.devWriteFor e va bs who) :=
  ok.devWriteBy fun _ _ ok => .ite (fun _ => .some ok) fun _ => ok.giveUp

theorem Keeps.physStatus {e : EngOp} {va : Nat} {bs : List Byte} (ok : Keeps s0 s) : KeepsPair s0 (s.physStatus e va bs) := by
  unfold State.physStatus
  split
  · exact ok.winWrite
  · exact ok.devDrop
  · refine .ite (fun _ => ok.devDrop) fun _ => ?_
    split
    · rename_i t made
      exact (ok.giveUp.bind fun _ ok => ok.devStore) t made
    · exact ok

theorem Keeps.eopStatus {e : EngOp} {code : Nat} (ok : Keeps s0 s) : Keeps s0 (s.eopStatus e code) := by
  have written {c : Prop} [Decidable c] {va va' : Nat} {bs bs' : List Byte} {who : Waiter} :
      KeepsPair s0 (if c then s.physStatus e va bs else s.devWriteFor e va' bs' who) := .ite (fun _ => ok.physStatus) fun _ => ok.devWriteFor
  exact .ite (fun _ => ok.devDrop.retireEop) fun _ => .ite (fun _ => Keeps.retireEop written) fun _ => Keeps.noteFault written

theorem Keeps.eopEnd {e : EngOp} {code : Nat} (ok : Keeps s0 s) : Keeps s0 (s.eopEnd e code) := ok.modEop.eopStatus

section
variable {work : State → EngOp → State × EngEnd}

theorem Keeps.stopEop {e : EngOp} {lines : Nat} (ok : Keeps s0 s) (step : ∀ t e, Keeps s0 t → KeepsPair s0 (work t e)) :
    Keeps s0 (s.stopEop e lines work) := by
  have worked := step s (e.cut lines) ok
  unfold State.stopEop
  split
  · rename_i t _ done
    rw [done] at worked
    exact Keeps.retireEop worked
  · exact ok.retireEop

theorem Keeps.runEop {id : Nat} {p : EngKind → Bool} (ok : Keeps s0 s) (step : ∀ t e, Keeps s0 t → KeepsPair s0 (work t e)) :
    Keeps s0 (s.runEop id p work) := by
  unfold State.runEop
  split
  · exact ok
  · rename_i e _
    have worked := step s e ok
    refine .ite (fun _ => ok) fun _ => ?_
    split
    · exact ok.stopEop step
    · refine .ite (fun _ => ok.eopStatus) fun _ => .ite (fun _ => ok.eopEnd) fun _ => ?_
      dsimp only
      split
      · exact Keeps.noteFault worked
      · exact Keeps.eopEnd worked
      · exact worked

end

/-! ## Copies, gathers and scatters -/

theorem Keeps.engConsume {e : EngOp} (ok : Keeps s0 s) : Keeps s0 (s.engConsume e) := .ite (fun _ => ok.deliver) fun _ => ok.killGang

theorem Keeps.spanRead {g : Agent} {x : Span} {n : Nat} (ok : Keeps s0 s) : KeepsPair s0 (s.spanRead g x n) := by
  unfold State.spanRead
  dsimp only
  split
  · exact ok
  · exact ok
  · split
    · exact ok.engXlats
    · split
      · rename_i q made
        exact ok.engXlats.engReads q made
      · exact ok.engXlats

theorem Keeps.moveSpan {e : EngOp} {src dst : Span} {n : Nat} (ok : Keeps s0 s) : KeepsPair s0 (s.moveSpan e src dst n) := by
  have found : KeepsPair s0 (match dst with
      | .mem cs => s.engXlats e.agent accEngW cs
      | _ => (s, .ok [])) := by
    split
    · exact ok.engXlats
    · exact ok
  unfold State.moveSpan
  dsimp only
  split
  · exact found
  · have read := Keeps.spanRead (g := e.agent) (x := src) (n := n) found
    split
    · exact read
    · refine .ite (fun _ => Keeps.engConsume read) fun _ => ?_
      split
      · split
        · rename_i t made
          exact Keeps.engStores read t made
        · exact found
      · exact Keeps.scrDeliver read
      · exact read

theorem Keeps.copyWork {e : EngOp} (ok : Keeps s0 s) : KeepsPair s0 (s.copyWork e) := by
  refine .ite (fun _ => ok) fun _ => ?_
  split
  · exact .ite (fun _ => ok) fun _ => ok.moveSpan
  · exact ok

theorem Keeps.gathWork {e : EngOp} {scatter : Bool} (ok : Keeps s0 s) : KeepsPair s0 (s.gathWork e scatter) := by
  refine .ite (fun _ => ok) fun _ => ?_
  dsimp only
  split
  · exact ok.spanRead
  · refine .ite (fun _ => ok.spanRead) fun _ => ?_
    split
    · exact ok.spanRead
    · exact .ite (fun _ => ok.spanRead.moveSpan) fun _ => ok.spanRead.moveSpan

/-! ## The arithmetic of the banks and whole rows -/

theorem Keeps.baseRead {g : Agent} {xs : List (Xlat × Nat)} (ok : Keeps s0 s) : KeepsPair s0 (s.baseRead g xs) :=
  Keeps.foldlPair (r := (s, [])) ok xs fun _ _ ok => by
    dsimp only
    split
    · exact ok.winRead
    · exact ok.freeBytes
    · exact ok

theorem Keeps.baseWrite {g : Agent} {xs : List (Xlat × Nat)} {bs : List Byte} {bad : Bool} (ok : Keeps s0 s) :
    KeepsOpt s0 (s.baseWrite g xs bs bad) :=
  KeepsOpt.foldlFst (r := (some s, bs)) (.some ok) xs fun _ x h => h.bind fun t ok => by
    split
    · exact .some (ok.foldl _ fun _ _ ok => ok.winWrite)
    · exact .some ok.endResv
    · exact (KeepsOpt.ite (fun _ => .some ok.replWrite) fun _ => ok.tryAll _ fun _ _ ok => ok.homeWrite).map fun _ ok => ok.count.spread

theorem Keeps.uncandidate {xs : List (Xlat × Nat)} {f : State → Option State} (ok : Keeps s0 s) (step : ∀ t, Keeps s0 t → KeepsOpt s0 (f t)) :
    KeepsOpt s0 (s.uncandidate xs f) := KeepsOpt.map (step _ ok) fun _ ok => ok

theorem Keeps.releaseAll {g : Agent} {xs : List (Xlat × Nat)} (ok : Keeps s0 s) : KeepsOpt s0 (s.releaseAll g xs) :=
  ok.tryAll _ fun _ _ ok => ok.giveUp

theorem Keeps.countAll {xs : List (Xlat × Nat)} (ok : Keeps s0 s) : Keeps s0 (s.countAll xs) := ok.foldl _ fun _ _ ok => ok.count

theorem Keeps.nearPages {g : Agent} {acc : Acc} {cs : List (Nat × Nat)} (ok : Keeps s0 s) : KeepsPair s0 (s.nearPages g acc cs) := by
  unfold State.nearPages
  dsimp only
  split
  · exact ok.engXlats
  · exact .ite (fun _ => ok.engXlats) fun _ => .ite (fun _ => ok.engXlats) fun _ => ok.engXlats

theorem Keeps.bkopWork {e : EngOp} {op : BkArith} {t : Ty} (ok : Keeps s0 s) : KeepsPair s0 (s.bkopWork e op t) := by
  refine .ite (fun _ => ok) fun _ => ?_
  dsimp only
  split
  · exact ok.nearPages
  · exact ok.nearPages.nearPages
  · exact ok.nearPages.nearPages
  · exact ok.nearPages.nearPages
  · split
    · exact ok.nearPages.nearPages.engXlats
    · split
      · exact ok.nearPages.nearPages.engXlats.engXlats
      · refine .ite (fun _ => ok.nearPages.nearPages.engXlats.engXlats) fun _ => ?_
        split
        · rename_i u made
          exact ok.nearPages.nearPages.engXlats.engXlats.uncandidate (fun _ ok => ok.countAll.releaseAll.bind fun _ ok => ok.baseWrite) u made
        · exact ok.nearPages.nearPages.engXlats.engXlats

theorem Keeps.rowWork {e : EngOp} (ok : Keeps s0 s) : KeepsPair s0 (s.rowWork e) := by
  refine .ite (fun _ => ok) fun _ => ?_
  dsimp only
  split
  · exact ok.engXlats
  · have found {zero : Bool} : KeepsPair s0 (if zero then ((s.engXlats e.agent accEngW (cuts (fld e.desc 0 8) (fld e.desc 0x20 4))).1, .ok [])
        else (s.engXlats e.agent accEngW (cuts (fld e.desc 0 8) (fld e.desc 0x20 4))).1.engXlats e.agent accEngR
          (cuts (fld e.desc 8 8) (fld e.desc 0x20 4))) := .ite (fun _ => ok.engXlats) fun _ => ok.engXlats.engXlats
    split
    · exact found
    · refine .ite (fun _ => found) fun _ => ?_
      split
      · rename_i u made
        refine Keeps.uncandidate (KeepsPair.ite (fun _ => ?_) fun _ => Keeps.baseRead ?_)
          (fun _ ok => ok.countAll.releaseAll.bind fun _ ok => ok.l2Forget.baseWrite) u made
        · exact found
        · exact found
      · exact found

/-! ## Cache maintenance -/

theorem Keeps.maintPieces {g : Agent} {va len : Nat} (ok : Keeps s0 s) : KeepsPair s0 (s.maintPieces g va len) :=
  Keeps.foldlPair (r := (s, [])) ok _ fun _ _ ok => by
    refine KeepsPair.ite (fun _ => .ite (fun _ => ok) fun _ => ok) fun _ => ?_
    dsimp only
    split
    · exact ok.translate
    · exact .ite (fun _ => ok.translate) fun _ => .ite (fun _ => ok.translate) fun _ => ok.translate

theorem Keeps.sendOff {core : Nat} {p : Nat → Bool} {f : State → State} (ok : Keeps s0 s) (step : ∀ t, Keeps s0 t → Keeps s0 (f t)) :
    KeepsPair s0 (s.sendOff core p f) := .ite (fun _ => ok.l1Push) fun _ => step _ ok.l1Push

theorem Keeps.maintL1 {k : EngKind} {core : Nat} {ps : List (Nat × Nat × Bool)} (ok : Keeps s0 s) : KeepsPair s0 (s.maintL1 k core ps) := by
  refine .ite (fun _ => ok) fun _ => ?_
  split
  · exact .ite (fun _ => ok.sendOff fun _ => id) fun _ => ok
  · exact ok.sendOff fun _ ok => ok.l1Drop
  · exact ok.sendOff fun _ ok => ok.l2FlushAll.l1Drop

theorem Keeps.maintL2 {k : EngKind} {ps : List (Nat × Nat × Bool)} (ok : Keeps s0 s) : Keeps s0 (s.maintL2 k ps) := by
  unfold State.maintL2
  split
  · exact ok.l2FlushAll
  · exact ok.l2FlushAll
  · exact ok.l2FlushAll.l2Forget

theorem Keeps.maintWork {e : EngOp} {sc : Scope} (ok : Keeps s0 s) : KeepsPair s0 (s.maintWork e sc) := by
  obtain ⟨waits, ready⟩ := ok.drainAll (n := e.warp)
  refine .ite (fun _ => ok) fun _ => ?_
  split
  · rename_i t u
    exact waits t u
  · rename_i t u
    have drained : Keeps s0 t := ready t u
    exact .ite (fun _ => Keeps.ite (fun _ => drained.maintPieces.maintL1.maintL2) fun _ => drained.maintPieces.maintL1) fun _ =>
      drained.maintPieces.maintL1

end

end Sys2Proof.Proofs
end

