-- ==== Sys2Proof/Proofs/KeptSystemInstructions.lean ====
section
/-! PROOFS. Instruction fetch, control flow, system registers, placement of pages, translation maintenance and launches keep both invariants. -/

namespace Sys2Proof.Proofs

open Sys2Proof Sys2Proof.Machine Sys2Proof.Claims

-- One proof after another: proofs run side by side over a text of this length need more threads than the check has memory for.
set_option Elab.async false

section
variable {s0 s : State}

/-! ## Fetch (R20, R117) -/

theorem Keeps.fetchWordAt {w : Warp} {x : Xlat} (ok : Keeps s0 s) : KeepsPair s0 (s.fetchWordAt w x) := by
  have read {c : Prop} [Decidable c] {pa : Nat} : Keeps s0 (if c then s.count (some x) pa 1 else (s.l2Read (l2Of w.core) (some x) pa 4).1) :=
    .ite (fun _ => ok.count) fun _ => ok.l2Read
  unfold State.fetchWordAt
  dsimp only
  split
  · exact ok
  · exact .ite (fun _ => ok.winRead) fun _ => .ite (fun _ => ok.freeBytes) fun _ => Keeps.ite (fun _ => read.modCore) fun _ => read

theorem Keeps.fetchWord {w : Warp} {va : Word} (ok : Keeps s0 s) : KeepsPair s0 (s.fetchWord w va) := by
  have translated := ok.translateFor (w := w) (acc := accFetch) (va := addr va)
  refine .ite (fun _ => ok) fun _ => ?_
  dsimp only
  split
  · exact translated
  · exact translated
  · refine .ite (fun _ => translated.wake) fun _ => ?_
    split
    · exact translated.fabricGate
    · exact translated.fabricGate
    · exact translated.fabricGate.fetchWordAt

theorem Keeps.fetchRest {w : Warp} {va : Word} {n : Nat} {bs : List Byte} (ok : Keeps s0 s) : KeepsPair s0 (s.fetchRest w va n bs) := by
  induction n generalizing s va bs with
  | zero => exact ok
  | succ n ih =>
    unfold State.fetchRest
    dsimp only
    split
    · exact ok.fetchWord
    · exact ih ok.fetchWord

theorem Keeps.fetch {w : Warp} {pc : Word} (ok : Keeps s0 s) : KeepsPair s0 (s.fetch w pc) := by
  refine .ite (fun _ => ok) fun _ => .ite (fun _ => ok) fun _ => ?_
  dsimp only
  split
  · exact ok.fetchWord
  · split
    · exact ok.fetchWord.fetchRest
    · exact ok.fetchWord.fetchRest

/-! ## Control flow -/

theorem Keeps.exitLane {l : Nat} (ok : Keeps s0 s) : KeepsPair s0 (exitLane l s) :=
  .ite (fun _ => .ite (fun _ => ok.modThread.enterLevel) fun _ => ok.stopService) fun _ => Keeps.ite (fun _ => ok.exitThread.closeSeg) fun _ =>
    ok.exitThread

theorem Keeps.leaveTrap {n l : Nat} (ok : Keeps s0 s) : Keeps s0 (s.leaveTrap n l) := ok.modWarp

theorem Keeps.eretSub {n l : Nat} (ok : Keeps s0 s) : KeepsPair s0 (s.eretSub n l) := by
  have fetched := ok.fetch (w := s.warp n) (pc := (s.warp n).tpc)
  unfold State.eretSub
  dsimp only
  split
  · split
    · exact fetched.leaveTrap.modWarp.modThread
    · exact fetched.leaveTrap
  · exact fetched
  · exact fetched.accessFault
  · exact fetched
  · exact fetched
  · exact fetched

theorem Keeps.eretLane {i : Instr} {sub : Bool} {l : Nat} (ok : Keeps s0 s) : KeepsPair s0 (eretLane i sub l s) :=
  .ite (fun _ => .ite (fun _ => ok) fun _ => .ite (fun _ => ok.eretSub) fun _ => ok.leaveTrap) fun _ => .ite (fun _ => ok) fun _ =>
    ok.modWarp.modThread

theorem Keeps.callLane {i : Instr} {x : Level} {kind : Nat} {imm : BitVec 16} {l : Nat} (ok : Keeps s0 s) :
    KeepsPair s0 (callLane i x kind imm l s) := ok.modThread.enterLevel

/-! ## System registers (R257, R258) -/

theorem Keeps.clearPend {n : Nat} {v : Word} (ok : Keeps s0 s) : Keeps s0 (s.clearPend n v) := ok.modWarp.refreshTimer

theorem Keeps.ipisend {n : Nat} {v : Word} (ok : Keeps s0 s) : Keeps s0 (s.ipisend n v) := .ite (fun _ => ok) fun _ => ok.setPending.modWarp

theorem Keeps.intWrite {n num : Nat} {v : Word} (ok : Keeps s0 s) : Keeps s0 (s.intWrite n num v) := by
  unfold State.intWrite
  dsimp only
  split
  · exact ok.clearPend
  · exact ok.modWarp
  · exact ok.modWarp
  · exact .ite (fun _ => ok.modWarp.refreshTimer) fun _ => ok
  · exact ok.ipisend

theorem Keeps.sysWrite {n l num : Nat} {v : Word} (ok : Keeps s0 s) : Keeps s0 (s.sysWrite n l num v) := by
  unfold State.sysWrite
  split
  · exact ok.modWarp
  · exact ok.modWarp
  · exact ok.modThread
  · exact ok.modWarp
  · exact ok.modThread
  · exact ok.modWarp
  · exact ok.modWarp
  · exact ok.modWarp
  · exact ok
  · exact .ite (fun _ => ok.modWarp) fun _ => .ite (fun _ => ok.modWarp) fun _ => .ite (fun _ => ok.modWarp) fun _ => ok.intWrite

theorem Keeps.swrLane {num : Nat} {a : Src} {l : Nat} (ok : Keeps s0 s) : KeepsPair s0 (swrLane num a l s) :=
  .ite (fun _ => ok) fun _ => ok.sysWrite

/-! ## Placement of pages (R195 to R200) -/

theorem Keeps.placeOnce {i : Instr} {f : Nat → State → State × LaneOut} (ok : Keeps s0 s) (step : ∀ l t, Keeps s0 t → KeepsPair s0 (f l t)) :
    KeepsOut s0 (placeOnce i f s) := ok.segOnce (fun _ => id) fun _ ok => ok.laneFold step

theorem Keeps.pageXlat {w : Warp} {acc : Acc} {va : Nat} (ok : Keeps s0 s) : KeepsPair s0 (s.pageXlat w acc va) := ok.translate

theorem Keeps.page {n l : Nat} {e : Word} (ok : Keeps s0 s) : KeepsPair s0 (s.page n l e) := by
  have translated := ok.pageXlat (w := s.warp n) (acc := accLoad) (va := addr e)
  refine .ite (fun _ => ok) fun _ => ?_
  dsimp only
  split
  · exact translated
  · exact translated.accessFault

theorem Keeps.migrate {x : Xlat} {t : Nat} (ok : Keeps s0 s) : KeepsOpt s0 (s.migrate x t) := ok.startMigration

theorem Keeps.setPin {f : Nat} {b : Bool} (ok : Keeps s0 s) : Keeps s0 (s.setPin f b) := ok

theorem Keeps.pinLane {q : Pred} {a : Src} {imm : BitVec 16} {t l : Nat} (ok : Keeps s0 s) : KeepsPair s0 (pinLane q a imm t l s) := by
  have found := ok.page (n := s.cur.warp) (l := l) (e := (s.cx s.cur.warp l).ea a imm)
  unfold Machine.pinLane
  dsimp only
  split
  · exact found
  · split
    · exact found
    · refine .ite (fun _ => found) fun _ => .ite (fun _ => found.bounded found.answer) fun _ => .ite (fun _ => found.setPin.answer) fun _ => ?_
      split
      · rename_i t made
        have started : Keeps s0 t := found.migrate t made
        exact started.bounded started.answer
      · exact found.bounded found.answer

theorem Keeps.hintLane {a : Src} {imm : BitVec 16} {t l : Nat} (ok : Keeps s0 s) : KeepsPair s0 (hintLane a imm t l s) := by
  have found := ok.pageXlat (w := s.warp s.cur.warp) (acc := accLoad) (va := addr ((s.cx s.cur.warp l).ea a imm))
  refine .ite (fun _ => ok) fun _ => ?_
  split
  · exact found
  · exact Keeps.ite (fun _ => found.migrate.getD found) fun _ => found

theorem Keeps.migrAt {x : Xlat} {t : Nat} (ok : Keeps s0 s) : KeepsOptPair s0 (s.migrAt x t) := by
  unfold State.migrAt
  split
  · exact .none
  · split
    · exact .some ok
    · split
      · exact .some ok
      · split
        · rename_i t made
          exact .some (ok.migrate t made)
        · exact .some ok

theorem Keeps.migrLane {q : Pred} {a : Src} {imm : BitVec 16} {t l : Nat} (ok : Keeps s0 s) : KeepsPair s0 (migrLane q a imm t l s) := by
  have found := ok.page (n := s.cur.warp) (l := l) (e := (s.cx s.cur.warp l).ea a imm)
  unfold Machine.migrLane
  dsimp only
  split
  · exact found
  · split
    · exact found
    · rename_i p made
      exact Keeps.answer (found.migrAt p made)

theorem Keeps.probeLane {d : Dst} {a : Src} {imm : BitVec 16} {l : Nat} (ok : Keeps s0 s) : KeepsPair s0 (probeLane d a imm l s) := by
  refine .ite (fun _ => ok.modThread) fun _ => ?_
  dsimp only
  split
  · exact ok.pageXlat.modThread
  · exact ok.pageXlat.modThread

/-! ## Translation maintenance (R185 to R188, R201) -/

theorem Keeps.recheckCounters (ok : Keeps s0 s) : Keeps s0 s.recheckCounters := ok

theorem Keeps.pushAll {p : Nat → Bool} (ok : Keeps s0 s) : KeepsEither (fun t => t) (fun t => t) s0 (s.pushAll p) := by
  have pushed : Keeps s0 (s.l1Cores.foldl (fun s c => s.l1Push c p) s) := ok.foldl _ fun _ _ ok => ok.l1Push
  exact .ite (fun _ => .error pushed) fun _ => .ok pushed

theorem KeepsEither.map {e : Except State State} {f : State → State} (h : KeepsEither (fun t => t) (fun t => t) s0 e)
    (step : ∀ t, Keeps s0 t → Keeps s0 (f t)) : KeepsEither (fun t => t) (fun t => t) s0 (e.map f) := by
  cases e with
  | error t => exact .error (h.1 t rfl)
  | ok t => exact .ok (step t (h.2 t rfl))

theorem Keeps.tlbDrop {p : TlbEntry → Bool} (ok : Keeps s0 s) : KeepsEither (fun t => t) (fun t => t) s0 (s.tlbDrop p) := by
  obtain ⟨waits, ready⟩ := ok.drainEverything
  unfold State.tlbDrop
  dsimp only
  split
  · rename_i t e
    exact .error (waits t e)
  · rename_i t e
    exact .ite (fun _ => .error (ready t e)) fun _ => (Keeps.pushAll (ready t e)).map fun _ ok => ok

theorem Keeps.frameDrop {f : Nat} (ok : Keeps s0 s) : KeepsEither (fun t => t) (fun t => t) s0 (s.frameDrop f) :=
  ok.pushAll.map fun _ ok => Keeps.l2FlushAll (ok.foldl _ fun _ _ ok => ok.l1Drop)

theorem Keeps.tlbiLane {m : TlbiArg} {l : Nat} (ok : Keeps s0 s) : KeepsPair s0 (tlbiLane m l s) := by
  obtain ⟨waits, ready⟩ := ok.tlbDrop (p := (tlbiNames (s.cx s.cur.warp l) m).2)
  refine .ite (fun _ => ok) fun _ => ?_
  split
  · rename_i t e
    exact waits t e
  · rename_i t e
    have dropped : Keeps s0 t := ready t e
    split
    · split
      · rename_i u e
        exact dropped.frameDrop.2 u e
      · rename_i u e
        exact dropped.frameDrop.1 u e
    · exact dropped

theorem Keeps.writeAff {leaf : Leaf} {aff : Nat} (ok : Keeps s0 s) : KeepsOpt s0 (s.writeAff leaf aff) := ok.ownWrite

theorem Keeps.taffMove {n l : Nat} {e : Word} {aff : Nat} (ok : Keeps s0 s) : KeepsPair s0 (s.taffMove n l e aff) := by
  have found := ok.page (n := n) (l := l) (e := e)
  refine .ite (fun _ => ok) fun _ => ?_
  dsimp only
  split
  · exact found
  · refine .ite (fun _ => found) fun _ => ?_
    split
    · exact found
    · rename_i p made
      exact found.migrAt p made

theorem Keeps.taffLane {a : Src} {imm : BitVec 16} {aff l : Nat} (ok : Keeps s0 s) : KeepsPair s0 (taffLane a imm aff l s) := by
  refine .ite (fun _ => ok) fun _ => ?_
  dsimp only
  split
  · exact ok.walkFills.accessFault
  · exact ok.walkFills.taffMove
  · split
    · exact ok.walkFills.stallFor
    · rename_i t made
      have written : Keeps s0 t := ok.walkFills.writeAff t made
      split
      · rename_i u e
        exact written.tlbDrop.1 u e
      · rename_i u e
        exact Keeps.taffMove (written.tlbDrop.2 u e)

/-! ## Launches, counters and cancellation -/

theorem Keeps.launchLane {q : Pred} {a : Src} {l : Nat} (ok : Keeps s0 s) : KeepsPair s0 (launchLane q a l s) := by
  obtain ⟨waits, ready⟩ := ok.release (n := s.cur.warp) (sc := .pk)
  refine .ite (fun _ => ok) fun _ => ?_
  split
  · rename_i r e
    exact waits r e
  · rename_i t e
    have reached := Keeps.access (n := s.cur.warp) (l := l) (acc := accLoad) (e := (s.cx s.cur.warp l).src a + 0x28) (len := 4)
      (progress := 0xFFFF) (ready t e)
    dsimp only
    split
    · exact reached
    · exact reached.devLoad.post.answer

theorem Keeps.counterRead {n : Nat} {x : Xlat} (ok : Keeps s0 s) : KeepsEither Prod.fst Prod.fst s0 (s.counterRead n x) := by
  obtain ⟨waits, ready⟩ := ok.drainAll (n := n)
  unfold State.counterRead
  dsimp only
  split
  · rename_i t e
    exact .error (waits t e)
  · rename_i t e
    obtain ⟨refused, sent⟩ := Keeps.sendAtomic (core := (s.warp n).core) (x := x) (ready t e)
    cases found : t.sendAtomic (s.warp n).core x with
    | error q => exact .error (refused q found)
    | ok u =>
      have there : Keeps s0 u := sent u found
      exact .ok (KeepsPair.ite (fun _ => there.winRead) fun _ => there.pocRead)

theorem Keeps.cwaitLane {q : Pred} {a b : Src} {l : Nat} (ok : Keeps s0 s) : KeepsPair s0 (cwaitLane q a b l s) := by
  have reached := ok.access (n := s.cur.warp) (l := l) (acc := accLoad) (e := (s.cx s.cur.warp l).src a) (len := 8) (progress := 0xFFFF)
  refine .ite (fun _ => ok) fun _ => ?_
  split
  · exact reached
  · split
    · exact reached
    · rename_i r _ e
      exact reached.counterRead.1 r e
    · rename_i p _ e
      have read : Keeps s0 p.1 := reached.counterRead.2 p e
      exact .ite (fun _ => read.consume) fun _ => .ite (fun _ => read.acquire.answer) fun _ => read.bounded read.answer

theorem Keeps.cancelLaunch {id : Nat} {l : Launch} (ok : Keeps s0 s) : Keeps s0 (s.cancelLaunch id l) := by
  unfold State.cancelLaunch
  exact ok.stopLaunch.elsewhere

theorem Keeps.cancel {t v : Nat} {kind : CancelKind} (ok : Keeps s0 s) : Keeps s0 (s.cancel t kind v) :=
  ok.modTenant.dropTargets.foldl _ fun _ _ ok => ok.cancelLaunch

end

end Sys2Proof.Proofs
end

