-- ==== Sys2Proof/Proofs/KeptPlacement.lean ====
section
/-! PROOFS. Gangs placed, reordering, launches accepted, readied and finished, and blocks retired keep both invariants. -/

namespace Sys2Proof.Proofs

open Sys2Proof Sys2Proof.Machine Sys2Proof.Claims

-- One proof after another: proofs run side by side over a text of this length need more threads than the check has memory for.
set_option Elab.async false

section
variable {s0 s : State}

/-! ## Placement (R54 to R59) -/

theorem Keeps.freshCore {c : Nat} (ok : Keeps s0 s) : Keeps s0 (s.freshCore c) := ok.l1DropClean.dropIcache

theorem Keeps.placeBlock {p : Placing} {c : Nat} (ok : Keeps s0 s) : Keeps s0 (s.placeBlock p c) := by
  unfold State.placeBlock
  split
  · exact ok
  · exact Keeps.freshCore (Keeps.bump ok.modCore.elsewhere)

theorem Keeps.placeGang {lid gang lin relaunch : Nat} {cs : List Nat} (ok : Keeps s0 s) : Keeps s0 (s.placeGang lid gang lin relaunch cs) := by
  unfold State.placeGang
  split
  · exact ok
  · exact ok.foldl _ fun _ _ ok => ok.placeBlock

theorem Keeps.startGang {lid lin relaunch : Nat} {cs : List Nat} (ok : Keeps s0 s) : Keeps s0 (s.startGang lid lin relaunch cs) := by
  unfold State.startGang
  split
  · exact ok
  · exact .ite (fun _ => Keeps.placeGang (Keeps.placeGang (Keeps.bump (Keeps.bump ok)))) fun _ => Keeps.placeGang (Keeps.bump ok)

theorem Keeps.makeRoom {l : Launch} (ok : Keeps s0 s) : Keeps s0 (s.makeRoom l) := by
  refine .ite (fun _ => ok) fun _ => ?_
  split
  · exact ok.preemptGang
  · exact ok

/-! ## Reordering (R40 to R43) -/

theorem Keeps.modTarget {t addr : Nat} {f : ReTarget → ReTarget} (ok : Keeps s0 s) : Keeps s0 (s.modTarget t addr f) := ok

theorem Keeps.enliven {t addr : Nat} (ok : Keeps s0 s) : Keeps s0 (s.enliven t addr) := .ite (fun _ => ok.liven) fun _ => ok

theorem Keeps.emitWarp {t addr d : Nat} (ok : Keeps s0 s) : Keeps s0 (s.emitWarp t addr d) := by
  unfold State.emitWarp
  split
  · exact ok
  · split
    · exact ok
    · exact .ite (fun _ => ok) fun _ => ok.modTarget.modLaunch

theorem Keeps.drainTarget {t addr d : Nat} (ok : Keeps s0 s) : Keeps s0 (s.drainTarget t addr d) := by
  unfold State.drainTarget
  split
  · exact ok
  · exact ok.foldl _ fun _ _ ok => ok.emitWarp

theorem Keeps.emitFull {t addr d n : Nat} (ok : Keeps s0 s) : Keeps s0 (s.emitFull t addr d n) := by
  induction n generalizing s with
  | zero => exact ok
  | succ n ih =>
    unfold State.emitFull
    split
    · exact ok
    · exact .ite (fun _ => ih ok.emitWarp) fun _ => ok

theorem Keeps.deposit {t addr d : Nat} {x : Deposit} (ok : Keeps s0 s) : Keeps s0 (s.deposit t addr d x) := by
  unfold State.deposit
  dsimp only
  split
  · exact ok.modTarget
  · exact .ite (fun _ => ok.modTarget.drainTarget) fun _ => ok.modTarget.emitFull

theorem Keeps.reordLane {a b c : Src} {l : Nat} (ok : Keeps s0 s) : KeepsPair s0 (reordLane a b c l s) := by
  refine .ite (fun _ => ok) fun _ => ?_
  dsimp only
  split
  · exact ok.enliven
  · exact .ite (fun _ => ok.enliven) fun _ => .ite (fun _ => ok.enliven.hold.exitLane) fun _ => .ite (fun _ => ok.enliven) fun _ =>
      ok.enliven.deposit.exitThread

/-! ## The end of a launch (R71, R72) -/

theorem Keeps.releaseCores {lid : Nat} (ok : Keeps s0 s) : KeepsPair s0 (s.releaseCores lid) := ok.foldl _ fun _ _ ok => ok.l1Push

theorem Keeps.finOne {lid : Nat} {l : Launch} (ok : Keeps s0 s) : KeepsPair s0 (s.finOne lid l) :=
  .ite (fun _ => ok.releaseCores) fun _ => .ite (fun _ => ok) fun _ => .ite (fun _ => ok.devDrop) fun _ => .ite (fun _ => ok.devWrite) fun _ =>
    ok.devAdd

theorem Keeps.finSteps {lid n : Nat} (ok : Keeps s0 s) : Keeps s0 (s.finSteps lid n) := by
  induction n generalizing s with
  | zero => exact ok
  | succ n ih =>
    unfold State.finSteps
    split
    · exact ok
    · exact .ite (fun _ => ok) fun _ => .ite (fun _ => ok.modLaunch) fun _ => .ite (fun _ => ih ok.finOne.modLaunch) fun _ =>
        .ite (fun _ => ok.finOne.modLaunch) fun _ => ok.finOne.stallFor

theorem Keeps.finishLaunch {lid : Nat} (ok : Keeps s0 s) : Keeps s0 (s.finishLaunch lid) := ok.finSteps

theorem Keeps.tryFinish {lid : Nat} (ok : Keeps s0 s) : Keeps s0 (s.tryFinish lid) := by
  unfold State.tryFinish
  split
  · exact ok
  · exact .ite (fun _ => ok) fun _ => .ite (fun _ => ok.finishLaunch) fun _ => .ite (fun _ => ok) fun _ =>
      .ite (fun _ => ok.finishLaunch.elsewhere) fun _ => .ite (fun _ => Keeps.finishLaunch (Keeps.modLaunch ok)) fun _ => ok

/-! ## Launches accepted and ready (R69, R70) -/

theorem Keeps.readRecord {t q ptr : Nat} (ok : Keeps s0 s) : KeepsPair s0 (s.readRecord t q ptr) := by
  unfold State.readRecord
  refine Keeps.foldlPair (r := (s, some [], false)) ok _ fun r c ok => ?_
  have translated := ok.devTranslate (tenant := t) (va := c.1) (acc := accEngR) (who := .post t q c.1)
  dsimp only
  split
  · exact ok
  · split
    · exact translated.devLoad
    · exact translated
    · exact translated

theorem Keeps.accept {t q : Nat} (ok : Keeps s0 s) : Keeps s0 (s.accept t q) := by
  unfold State.accept
  split
  · exact ok
  · refine .ite (fun _ => ok) fun _ => ?_
    dsimp only
    split
    · have taken {t' q' : Nat} {f : Post → Option Post} {ls : Tbl Launch} {ptr : Nat} :
          Keeps s0 { ((s.readRecord t q ptr).1.modHead t' q' f).bump with launches := ls } := (Keeps.bump ok.readRecord.modHead).elsewhere
      exact .ite (fun _ => taken.dropTargets.tryFinish) fun _ => .ite (fun _ => taken.liven.emitFull.emitFull) fun _ => taken
    · exact ok.readRecord.modHead
    · exact ok.readRecord.dropPost

theorem Keeps.observe {lid i : Nat} (ok : Keeps s0 s) : Keeps s0 (s.observe lid i) := by
  unfold State.observe
  split
  · exact ok
  · split
    · exact ok
    · rename_i l _ _ a h _
      have translated := ok.devTranslate (tenant := l.tenant) (va := a) (acc := accEngR) (who := .dep lid i a)
      refine .ite (fun _ => ok) fun _ => .ite (fun _ => ok.modLaunch) fun _ => ?_
      dsimp only
      split
      · exact .ite (fun _ => translated.modLaunch) fun _ => translated
      · exact translated.stopLaunch.tryFinish
      · exact .ite (fun _ => translated.devLoad.modLaunch) fun _ => translated.devLoad

theorem Keeps.makeReady {lid : Nat} (ok : Keeps s0 s) : Keeps s0 (s.makeReady lid) := by
  have observed : Keeps s0 ((List.range 4).foldl (fun s i => s.observe lid i) s) := ok.foldl _ fun _ _ ok => ok.observe
  unfold State.makeReady
  dsimp only
  split
  · exact observed
  · exact .ite (fun _ => observed) fun _ => .ite (fun _ => observed.modLaunch.modTarget.drainTarget.drainTarget) fun _ => observed.modLaunch

theorem Keeps.execReorderIdleFlush {launch die : Nat} (ok : Keeps s0 s) : KeepsOut s0 (execReorderIdleFlush launch die s) := by
  refine .next ?_
  split
  · exact ok
  · split
    · exact ok
    · exact .ite (fun _ => ok.drainTarget) fun _ => ok

/-! ## Gangs placed and blocks retired -/

theorem Keeps.startNext {lid : Nat} {l : Launch} {cs : List Nat} (ok : Keeps s0 s) : Keeps s0 (s.startNext lid l cs) := by
  unfold State.startNext
  refine Keeps.modLaunch ?_
  split
  · exact ok.startGang
  · exact Keeps.placeBlock (Keeps.bump ok)

theorem Keeps.placeNext {lid : Nat} {cs : List Nat} (ok : Keeps s0 s) : Keeps s0 (s.placeNext lid cs) := by
  unfold State.placeNext
  split
  · exact ok
  · exact .ite (fun _ => ok) fun _ => .ite (fun _ => .ite (fun _ => ok.makeRoom) fun _ => ok) fun _ => .ite (fun _ => ok) fun _ =>
      .ite (fun _ => ok.startNext.elsewhere) fun _ => ok.startNext

theorem Keeps.freeBlock {b : Nat} (ok : Keeps s0 s) : Keeps s0 (s.freeBlock b) := by
  have freed : Keeps s0 (({ s.touchIdle with warps := s.warps.filter fun p => !(s.block b).warps.contains p.1 }.leaveScratch
      (s.blockTenant (s.block b)) (s.block b)).modBlock b
      fun k => { k with state := .retired, warps := [], scratch := [], tags := [], errs := [], grans := [], biv := none }) :=
    Keeps.modBlock (Keeps.leaveScratch ok.touchIdle.elsewhere)
  exact Keeps.applyMap (.ite (fun _ => freed.elsewhere) fun _ => freed)

theorem Keeps.retireBlock {b : Nat} (ok : Keeps s0 s) : Keeps s0 (s.retireBlock b) := by
  unfold State.retireBlock
  split
  · exact ok
  · exact .ite (fun _ => ok) fun _ => .ite (fun _ => ok.freeBlock) fun _ => ok.freeBlock.modBlock.modLaunch

end

end Sys2Proof.Proofs
end

