-- ==== Sys2Proof/Proofs/KeptSchedule.lean ====
section
/-! PROOFS. The matrix instructions, the schedule of a core, blocks saved and resumed, gangs relaunched and segments compared keep both
invariants. -/

namespace Sys2Proof.Proofs

open Sys2Proof Sys2Proof.Machine Sys2Proof.Claims

-- One proof after another: proofs run side by side over a text of this length need more threads than the check has memory for.
set_option Elab.async false

section
variable {s0 s : State}

/-! ## Matrix instructions (R147 to R153) -/

theorem Keeps.mxOwn {c g : Nat} {tiles : Tbl (BitVec 32)} (ok : Keeps s0 s) : Keeps s0 (s.mxOwn c g tiles) := ok.modEngine

theorem Keeps.mxEnter {n off : Nat} {k : MxKind} (ok : Keeps s0 s) : Keeps s0 (s.mxEnter n k off) := ok.setTag.modEngine.modWarp

theorem Keeps.mxPost {k : MxKind} {a : Src} {imm : BitVec 16} {l : Nat} (ok : Keeps s0 s) : KeepsPair s0 (s.mxPost k a imm l) := by
  have owned {c : Prop} [Decidable c] {e g : Nat} : Keeps s0 (if c then s else s.mxOwn e g []) := .ite (fun _ => ok) fun _ => ok.mxOwn
  unfold State.mxPost
  dsimp only
  split
  · exact ok
  · refine .ite (fun _ => ok.modEngine) fun _ => .ite (fun _ => owned) fun _ => .ite (fun _ => owned) fun _ => ?_
    split
    · rename_i t e
      exact owned.drainAll.1 t e
    · rename_i t e
      exact Keeps.mxEnter (owned.drainAll.2 t e)

theorem Keeps.mxOp {i : Instr} {k : MxKind} {a : Src} {imm : BitVec 16} (ok : Keeps s0 s) : KeepsOut s0 (mxOp i k a imm s) :=
  ok.warpRun fun _ _ ok => ok.mxPost

/-! ## The step of a core (R47 to R53, R79) -/

theorem Keeps.meetTag {n l step : Nat} (ok : Keeps s0 s) : Keeps s0 (s.meetTag n l step) := by
  refine .ite (fun _ => ok) fun _ => ?_
  split
  · exact ok
  · refine .ite (fun _ => ok) fun _ => ?_
    split
    · exact ok.modThread
    · exact ok

theorem Keeps.countSlot {core t : Nat} (ok : Keeps s0 s) : Keeps s0 (s.countSlot core t) := ok

theorem Keeps.beginStep {core step : Nat} (ok : Keeps s0 s) : Keeps s0 (s.beginStep core step) := ok

theorem Keeps.meetTags {core step : Nat} (ok : Keeps s0 s) : Keeps s0 (s.meetTags core step) :=
  ok.foldl _ fun _ _ ok => ok.foldl _ fun _ _ ok => ok.meetTag

theorem Keeps.coreStep {core : Nat} (ok : Keeps s0 s) : Keeps s0 (s.coreStep core) := by
  have begun : Keeps s0 (((({ s with now := max s.now ((s.core core).startCycle + s.nextStep core * (s.core core).npass) } : State).modCore core
      fun c => { c with step := s.nextStep core }).beginStep core (s.nextStep core)).meetTags core (s.nextStep core)) :=
    Keeps.meetTags (Keeps.beginStep (Keeps.modCore ok))
  refine .ite (fun _ => ok) fun _ => .ite (fun _ => begun.modCore) fun _ => .ite (fun _ => begun.modCore) fun _ => ?_
  split
  · exact begun
  · refine .ite (fun _ => begun.governor.modCore) fun _ => ?_
    dsimp only
    split
    · exact begun.governor.modCore
    · exact begun.governor.modCore.countSlot.modWarp.elsewhere

/-! ## Blocks saved and resumed (R81 to R90) -/

theorem Keeps.moveWarp {n m : Nat} {w : Warp} (ok : Keeps s0 s) : Keeps s0 (s.moveWarp n m w) := ok

theorem Keeps.swapWarps {b : Nat} (ok : Keeps s0 s) : Keeps s0 (s.swapWarps b) := ok.foldl _ fun _ _ ok => ok.moveWarp.modBlock.bump

/-- Warps released one after another. -/
theorem Keeps.releases (ok : Keeps s0 s) (ns : List Nat) : KeepsEither Prod.fst (fun t => t) s0
    (ns.foldl (fun acc n => acc.bind fun s => s.release n .pk) (.ok s : Except (State × Wait) State)) :=
  List.foldlRecOn (motive := KeepsEither Prod.fst (fun t => t) s0) ns _ (.ok ok) fun r h n _ => by
    cases r with
    | ok t => exact Keeps.release (h.2 t rfl)
    | error q => exact h

theorem Keeps.saveBlock {b : Nat} (ok : Keeps s0 s) : Keeps s0 (s.saveBlock b) := by
  unfold State.saveBlock
  dsimp only
  split
  · exact ok
  · refine .ite (fun _ => ok) fun _ => .ite (fun _ => ok.foldl _ fun _ _ ok => .ite (fun _ => ok.closeSeg) fun _ => ok) fun _ =>
      .ite (fun _ => ok.killGang) fun _ => ?_
    split
    · rename_i q e
      exact (ok.releases _).1 q e
    · rename_i t e
      have released : Keeps s0 t := (ok.releases _).2 t e
      split
      · exact released.stallFor
      · rename_i u made
        have swapped {f : Block → Block} : Keeps s0 ((((u.swapWarps b).leaveScratch (u.blockTenant (s.block b)) (s.block b)).modBlock b f).touchIdle) :=
          (released.ownWrite u made).swapWarps.leaveScratch.modBlock.touchIdle
        exact Keeps.applyMap (.ite (fun _ => swapped.modEngine.elsewhere) fun _ => swapped)

theorem Keeps.ownRead {pa n : Nat} (ok : Keeps s0 s) : Keeps s0 (s.ownRead pa n) := ok.foldl _ fun _ _ ok => ok.count

theorem Keeps.resumeBlock {b c : Nat} (ok : Keeps s0 s) : Keeps s0 (s.resumeBlock b c) := by
  unfold State.resumeBlock
  dsimp only
  split
  · exact ok
  · rename_i a _
    have moved {ws : List (Nat × Nat × Warp)} {f : Core → Core} : Keeps s0 ((ws.foldl (fun s w => s.moveWarp w.1 w.2.1 w.2.2)
        (s.ownRead a (s.saveBytes (s.block b)))).modCore c f) := (ok.ownRead.foldl _ fun _ _ ok => ok.moveWarp).modCore
    split
    · exact Keeps.reportTenant (Keeps.freshCore (Keeps.modBlock moved.elsewhere))
    · exact Keeps.freshCore (Keeps.modBlock moved.elsewhere)

theorem Keeps.resumeGang {g : Nat} {cs : List Nat} (ok : Keeps s0 s) : Keeps s0 (s.resumeGang g cs) := by
  unfold State.resumeGang
  dsimp only
  refine Keeps.foldl (Keeps.elsewhere (s := if _ then _ else s) (.ite (fun _ => ?_) fun _ => ok)) _ fun _ _ ok => ok.resumeBlock
  split
  · exact ok.mxOwn
  · exact ok

theorem Keeps.resume {g : Nat} {cs : List Nat} (ok : Keeps s0 s) : Keeps s0 (s.resume g cs) := by
  unfold State.resume
  dsimp only
  split
  · exact ok
  · exact .ite (fun _ => ok) fun _ => .ite (fun _ => ok.killGang) fun _ => .ite (fun _ => ok) fun _ => .ite (fun _ => ok.log) fun _ =>
      Keeps.retryPreempt (ok.foldl _ fun _ _ ok => ok.resumeGang)

theorem Keeps.replaceGang {l : Launch} {g : Nat} {cs : List Nat} (ok : Keeps s0 s) : Keeps s0 (s.replaceGang l g cs) := by
  unfold State.replaceGang
  dsimp only
  split
  · exact ok.placeGang
  · exact ok.placeBlock

theorem Keeps.relaunch {g : Nat} {cs : List Nat} (ok : Keeps s0 s) : Keeps s0 (s.relaunch g cs) := by
  unfold State.relaunch
  dsimp only
  split
  · exact ok
  · have freed (bs : List Nat) : Keeps s0 (bs.foldl State.freeBlock s) := ok.foldl _ fun _ _ ok => ok.freeBlock
    refine .ite (fun _ => ok) fun _ => .ite (fun _ => freed _) fun _ => ?_
    have again {gs bs : List Nat} {l : Nat} {f : Launch → Launch} : Keeps s0 ((gs.foldl (fun s g => { s with gangs := tmod s.gangs g Gang.again })
        (bs.foldl State.freeBlock s)).modLaunch l f) := Keeps.modLaunch ((freed bs).foldl _ fun _ _ ok => ok)
    split
    · exact again.replaceGang.replaceGang
    · exact again.replaceGang

/-! ## Segments compared (R242 to R246) -/

theorem Keeps.pairRelease {x : Xlat} (ok : Keeps s0 s) : KeepsOpt s0 (s.pairRelease x) := ok.giveUp

theorem Keeps.heldRelease (ok : Keeps s0 s) : KeepsOpt s0 s.heldRelease := by
  unfold State.heldRelease
  split
  · rename_i t e
    exact .some (ok.release.2 t e)
  · exact .none

theorem Keeps.performDefer {t ptr k p : Nat} {good : Bool} (ok : Keeps s0 s) : Keeps s0 (s.performDefer t ptr k p good) :=
  .ite (fun _ => ok.pushDefer) fun _ => ok.deferCheck

theorem Keeps.performFree {t ptr k p : Nat} {good : Bool} (ok : Keeps s0 s) : KeepsPair s0 (s.performFree t ptr k p good) :=
  .ite (fun _ => ok.poolFree) fun _ => Keeps.ite (fun _ => ok.perr) fun _ => ok

/-- The state that an operation may answer, or that of waiting. -/
theorem KeepsOpt.orElse {o : Option State} {b c : Bool} (h : KeepsOpt s0 o) (ok : Keeps s0 s) :
    KeepsPair s0 ((o.map fun t => (t, b)).getD (s, c)) := by
  cases o with
  | none => exact ok
  | some t => exact h t rfl

theorem Keeps.performHeld {core : Nat} {h : Held} (ok : Keeps s0 s) : KeepsPair s0 (s.performHeld core h) := by
  unfold State.performHeld
  dsimp only
  split
  · exact (ok.pairRelease.bind fun _ ok => ok.pocWrite).orElse ok.stallFor
  · exact ok.performStore.orElse ok.stallFor
  · exact (ok.pairRelease.bind fun _ ok => ok.performRed).orElse ok.stallFor
  · exact ok.performRed.orElse ok.stallFor
  · exact (ok.heldRelease.map fun _ ok => ok.performDefer).orElse ok.stallFor
  · split
    · rename_i t made
      exact Keeps.performFree (ok.heldRelease t made)
    · exact ok.stallFor
  · split
    · exact ok.enliven
    · exact .ite (fun _ => ok.enliven) fun _ => ok.enliven.deposit
  · exact ok.modEop

theorem Keeps.performAll {n fuel : Nat} (ok : Keeps s0 s) : KeepsPair s0 (s.performAll n fuel) := by
  induction fuel generalizing s with
  | zero => exact ok
  | succ fuel ih =>
    unfold State.performAll
    dsimp only
    split
    · exact ok
    · have performed {h : Held} : Keeps s0 (({ s with cur := { s.cur with warp := n } } : State).performHeld (s.warp n).core h).1 :=
        Keeps.performHeld ok
      exact .ite (fun _ => ih (Keeps.modWarp (Keeps.elsewhere performed))) fun _ => Keeps.elsewhere performed

theorem Keeps.compareSegs {g wid : Nat} (ok : Keeps s0 s) : Keeps s0 (s.compareSegs g wid) := by
  unfold State.compareSegs
  dsimp only
  split
  · exact .ite (fun _ => ok) fun _ => .ite (fun _ => ok.killGang) fun _ => .ite (fun _ => ok.performAll.modWarp.modWarp) fun _ => ok.performAll
  · exact ok

theorem Keeps.compareLate {g wid : Nat} (ok : Keeps s0 s) : Keeps s0 (s.compareLate g wid) := by
  unfold State.compareLate
  dsimp only
  split
  · exact .ite (fun _ => ok.killGang) fun _ => ok
  · exact ok

end

end Sys2Proof.Proofs
end

