-- ==== Sys2Proof/Proofs/KeptEngineEvents.lean ====
section
/-! PROOFS. The events of cores and caches, and the completions of the engines, keep both invariants. -/

namespace Sys2Proof.Proofs

open Sys2Proof Sys2Proof.Machine Sys2Proof.Claims

-- One proof after another: proofs run side by side over a text of this length need more threads than the check has memory for.
set_option Elab.async false

section
variable {s0 s : State}

/-! ## Cores and caches -/

theorem Keeps.timedOut {n l : Nat} {i : Instr} (ok : Keeps s0 s) : KeepsOpt s0 (s.timedOut n l i) := by
  unfold State.timedOut
  split
  · exact .some ok.answer
  · exact .some ok.answer
  · exact .some (Keeps.answer (.ite (fun _ => ok.fold) fun _ => ok))
  · exact .some ok.modThread
  · exact .none

theorem Keeps.execWaitTimeout {warp lane : Nat} (ok : Keeps s0 s) : KeepsOut s0 (execWaitTimeout warp lane s) := by
  refine .next (.ite (fun _ => ok) fun _ => ?_)
  split
  · exact ok
  · split
    · exact ok
    · rename_i t made
      have ended {c : Bundle} {f : Thread → Thread} {u : State} {i : Instr} :
          Keeps s0 (Machine.stallYield i u (({ t with cur := c } : State).modThread warp lane f)) := Keeps.stallYield (Keeps.modThread (ok.timedOut t made))
      have finished {b : Bool} {c : Bundle} {f : Thread → Thread} {u : State} {i : Instr} {m : BitVec 32} :
          Keeps s0 (if b then Machine.copyTwin i u ((Machine.stallYield i u (({ t with cur := c } : State).modThread warp lane f)).passedBy warp m)
            else Machine.stallYield i u (({ t with cur := c } : State).modThread warp lane f)) := .ite (fun _ => ended.passedBy.copyTwin) fun _ => ended
      exact finished.elsewhere

theorem Keeps.execCacheEviction {cache : CacheId} {line : Nat} (ok : Keeps s0 s) : KeepsOut s0 (execCacheEviction cache line s) := by
  refine .next ?_
  split
  · exact .ite (fun _ => ok.l1Push) fun _ => ok.l1Push.l1Drop
  · exact .ite (fun _ => ok.l2Flush) fun _ => ok
  · exact ok.l2Flush

theorem Keeps.execLineInvalidation {cache : CacheId} {line : Nat} (ok : Keeps s0 s) : KeepsOut s0 (execLineInvalidation cache line s) := by
  refine .next ?_
  split
  · exact ok
  · exact .ite (fun _ => ok.l2Flush) fun _ => ok
  · exact ok.l2Flush

theorem Keeps.execAtomicAtHome {warp : Nat} (ok : Keeps s0 s) : KeepsOut s0 (execAtomicAtHome warp s) := by
  refine .next ?_
  split
  · exact ok.drainOne
  · exact ok

theorem Keeps.execReplicaUpdate {warp : Nat} (ok : Keeps s0 s) : KeepsOut s0 (execReplicaUpdate warp s) := by
  refine .next ?_
  split
  · exact .ite (fun _ => ok.drainOne) fun _ => ok
  · exact ok

theorem Keeps.execFabricResponseTimeout {warp lane : Nat} (ok : Keeps s0 s) : KeepsOut s0 (execFabricResponseTimeout warp lane s) := by
  refine .next ?_
  split
  · refine .ite (fun _ => ?_) fun _ => ok
    dsimp only
    split
    · exact Keeps.modThread ok.accessFault
    · exact ok.accessFault
  · exact ok

/-! ## Puts (R223, R230 to R234) -/

theorem Keeps.sentEop {id : Nat} {k : EngKind} {p : EngOp → Bool} {f : State → EngOp → State} (ok : Keeps s0 s)
    (step : ∀ t e, Keeps s0 t → Keeps s0 (f t e)) : Keeps s0 (s.sentEop id k p f) := by
  unfold State.sentEop
  split
  · exact ok
  · exact .ite (fun _ => ok) fun _ => .ite (fun _ => ok.eopStatus) fun _ => .ite (fun _ => ok) fun _ => .ite (fun _ => ok.eopEnd) fun _ =>
      step s _ ok

theorem Keeps.sendEop {e : EngOp} {src len : Nat} {f : State → List Byte → Bool → State} (ok : Keeps s0 s)
    (step : ∀ t bs bad, Keeps s0 t → Keeps s0 (f t bs bad)) : Keeps s0 (s.sendEop e src len f) := by
  unfold State.sendEop
  dsimp only
  split
  · exact ok.spanRead.noteFault
  · exact ok.spanRead.eopEnd
  · exact ok.spanRead
  · exact step _ _ _ ok.spanRead.modEop

theorem Keeps.putPages {t : Nat} {cs : List (Nat × Nat)} (ok : Keeps s0 s) : KeepsPair s0 (s.putPages t cs) := by
  unfold State.putPages
  refine Keeps.foldlPair (r := (s, some [])) ok cs fun r c ok => ?_
  dsimp only
  split
  · exact ok
  · split
    · exact ok.translate
    · exact ok.translate

theorem Keeps.putTarget {m : PutMsg} (ok : Keeps s0 s) : KeepsPair s0 (s.putTarget m) := .ite (fun _ => ok) fun _ => ok.putPages

theorem Keeps.putStore {xs : List (Xlat × Nat)} {bs : List Byte} {bad : Bool} (ok : Keeps s0 s) : KeepsOpt s0 (s.putStore xs bs bad) :=
  KeepsOpt.foldlFst (r := (some s, bs)) (.some ok) xs fun _ _ h => h.bind fun _ ok => ok.devStore.map fun _ ok => ok.spread

theorem Keeps.landPut {m : PutMsg} {bad : Bool} (ok : Keeps s0 s) : KeepsOpt s0 (s.landPut m bad) := by
  unfold State.landPut
  dsimp only
  split
  · exact .some ok.putTarget.answerEop
  · exact ok.putTarget.putStore.map fun _ ok => .ite (fun _ => ok.answerEop) fun _ => ok.bump.landAdd

theorem Keeps.putSend {id : Nat} {f : State → EngOp → List Byte → Bool → State} (ok : Keeps s0 s)
    (step : ∀ t e bs bad, Keeps s0 t → Keeps s0 (f t e bs bad)) : Keeps s0 (s.putSend id f) :=
  ok.sentEop fun _ e ok => .ite (fun _ => ok.eopEnd) fun _ => .ite (fun _ => ok) fun _ => ok.sendEop fun t bs bad ok => step t e bs bad ok

theorem Keeps.putHere {id : Nat} (ok : Keeps s0 s) : Keeps s0 (s.putHere id) := by
  have waits : Keeps s0 (s.stallFor none (.engine id)) := ok.stallFor
  have woken : Keeps s0 s.wake := ok.wake
  exact ok.putSend fun _ _ _ _ ok => .ite (fun _ => ok) fun _ => .ite (fun _ => woken) fun _ => ok.landPut.getD waits

theorem Keeps.execPutLanding {msg : PutMsg} (ok : Keeps s0 s) : KeepsOut s0 (execPutLanding msg s) := by
  refine .next ?_
  split
  · exact .ite (fun _ => ok.wake) fun _ => ok.landPut.getD ok.stallFor
  · exact ok.putHere

theorem Keeps.putAck {e : EngOp} (ok : Keeps s0 s) : Keeps s0 (s.putAck e) :=
  .ite (fun _ => ok.eopEnd) fun _ => .ite (fun _ => ok.devDrop.eopEnd) fun _ => .ite (fun _ => ok.devAddFor.eopEnd) fun _ => ok.devAddFor.noteFault

theorem Keeps.putAnswer {id c : Nat} {f : State → EngOp → State} (ok : Keeps s0 s) (step : ∀ t e, Keeps s0 t → Keeps s0 (f t e)) :
    Keeps s0 (s.putAnswer id c f) :=
  ok.sentEop fun t e ok => .ite (fun _ => ok.eopEnd) fun _ => .ite (fun _ => .ite (fun _ => step t e ok) fun _ => ok) fun _ =>
    .ite (fun _ => step t e ok) fun _ => ok.sendEop fun t _ _ ok => step t e ok

/-! ## Collectives (R225 to R229) -/

theorem Keeps.collSend {id : Nat} {f : State → EngOp → List Byte → State} (ok : Keeps s0 s)
    (step : ∀ t e bs, Keeps s0 t → Keeps s0 (f t e bs)) : Keeps s0 (s.collSend id f) :=
  ok.sentEop fun _ e ok => .ite (fun _ => ok.eopEnd) fun _ => ok.sendEop fun t bs _ ok => .ite (fun _ => step t e bs ok) fun _ =>
    .ite (fun _ => ok.engConsume.eopEnd) fun _ => ok.engConsume

theorem Keeps.collDone {id : Nat} (ok : Keeps s0 s) : Keeps s0 (s.collDone id) := ok.sentEop fun _ _ ok => ok.eopEnd

theorem Keeps.collRefused {id : Nat} (ok : Keeps s0 s) : Keeps s0 (s.collRefused id) := by
  unfold State.collRefused
  split
  · exact .ite (fun _ => ok.collDone) fun _ => ok
  · exact ok

theorem Keeps.execCollArrival {msg : CollMsg} (ok : Keeps s0 s) : KeepsOut s0 (execCollArrival msg s) := by
  refine .next (.ite (fun _ => ok.wake) fun _ => ?_)
  split
  · exact ok.offerColl
  · exact Keeps.collRefused (ok.collSend fun _ _ _ ok => .ite (fun _ => ok.offerColl) fun _ => ok)

theorem Keeps.collOutside {e : EngOp} (ok : Keeps s0 s) : Keeps s0 (s.collOutside e) := by
  unfold State.collOutside
  split
  · exact ok.draw.eopEnd
  · exact ok.draw.eopEnd
  · exact ok.draw

theorem Keeps.execCollAccepted {eop : Nat} (ok : Keeps s0 s) : KeepsOut s0 (execCollAccepted eop s) := by
  refine .next ?_
  split
  · exact ok
  · exact .ite (fun _ => ok.collDone) fun _ => .ite (fun _ => ok.collOutside) fun _ => ok.collSend fun _ _ _ ok => ok.collOutside

theorem Keeps.writeResult {n : Nat} (ok : Keeps s0 s) : KeepsOpt s0 (s.writeResult n) :=
  (ok.tryAll _ fun _ _ ok => ok.homeWrite).map fun _ ok => ok.l2Forget

theorem Keeps.epochCount {n : Nat} (ok : Keeps s0 s) : Keeps s0 (s.epochCount n) :=
  .ite (fun _ => ok.modSlot.offerWaiting) fun _ => .ite (fun _ => ok.devAdd.modSlot.offerWaiting) fun _ => .ite (fun _ => ok.devAdd.modSlot) fun _ =>
    ok.devAdd.stallFor

theorem Keeps.collApply {n : Nat} (ok : Keeps s0 s) : Keeps s0 (s.collApply n) := by
  refine .ite (fun _ => ok) fun _ => .ite (fun _ => ok.wake) fun _ => .ite (fun _ => ok.epochCount) fun _ => ?_
  split
  · exact ok
  · refine .ite (fun _ => ok.modSlot.offerWaiting) fun _ => ?_
    split
    · exact ok.stallFor
    · rename_i t made
      exact Keeps.epochCount (ok.modSlot.writeResult t made)

theorem Keeps.execSlotDisable {slot : Nat} (ok : Keeps s0 s) : KeepsOut s0 (execSlotDisable slot s) := by
  refine .next (Keeps.foldl ?_ _ fun _ _ ok => ok.collRefused)
  exact .ite (fun _ => ok.slotOff) fun _ => ok

end

end Sys2Proof.Proofs
end

