-- ==== Sys2Proof/Proofs/KeptDeviceEvents.lean ====
section
/-! PROOFS. The events of the windows, of grace periods, of the matrix engines and of the service threads keep both invariants. -/

namespace Sys2Proof.Proofs

open Sys2Proof Sys2Proof.Machine Sys2Proof.Claims

-- One proof after another: proofs run side by side over a text of this length need more threads than the check has memory for.
set_option Elab.async false

section
variable {s0 s : State}

/-! ## Tenants and pools -/

theorem Keeps.ofTenant {t : Nat} {f : State → State} (ok : Keeps s0 s) (step : Keeps s0 s → Keeps s0 (f s)) : Keeps s0 (s.ofTenant t f) :=
  .ite (fun _ => step ok) fun _ => ok

theorem Keeps.ofPool {t p : Nat} {f : State → State} (ok : Keeps s0 s) (step : Keeps s0 s → Keeps s0 (f s)) : Keeps s0 (s.ofPool t p f) :=
  ok.ofTenant fun ok => .ite (fun _ => step ok) fun _ => ok

/-! ## Grace periods (R130, R136 to R140) -/

theorem Keeps.acknowledge {node t : Nat} (ok : Keeps s0 s) : Keeps s0 (s.acknowledge node t) := by
  have dropped : Keeps s0 (if node < 1024 then s.l1DropClean node else s) := .ite (fun _ => ok.l1DropClean) fun _ => ok
  exact .ite (fun _ => dropped.modTenant.reportTenant) fun _ => ok

theorem Keeps.background {t : Nat} (ok : Keeps s0 s) : Keeps s0 (s.background t) := .ite (fun _ => ok.advance) fun _ => ok

theorem Keeps.graceStep {t : Nat} (ok : Keeps s0 s) : Keeps s0 (s.graceStep t) := .ite (fun _ => ok.modTenant.background) fun _ => ok

theorem Keeps.returnDeferred {t : Nat} (ok : Keeps s0 s) : Keeps s0 (s.returnDeferred t) := by
  unfold State.returnDeferred
  split
  · exact ok
  · refine .ite (fun _ => ?_) fun _ => ok
    dsimp only
    split
    · exact ok.poolFree
    · exact ok.poolFree.modTenant

/-! ## Matrix engines (R147 to R158) -/

theorem Keeps.execMxOwnershipGrant {cluster : Nat} (ok : Keeps s0 s) : KeepsOut s0 (execMxOwnershipGrant cluster s) := by
  refine .next ?_
  split
  · exact .ite (fun _ => ok) fun _ => ok.mxOwn
  · exact ok

theorem Keeps.mxBegin {c id : Nat} (ok : Keeps s0 s) : Keeps s0 (s.mxBegin c id) := by
  unfold State.mxBegin
  dsimp only
  split
  · exact ok
  · exact .ite (fun _ => ok) fun _ => Keeps.modReq (.ite (fun _ => ok.modEngine) fun _ => ok)

theorem Keeps.execMxPassGrant {cluster : Nat} (ok : Keeps s0 s) : KeepsOut s0 (execMxPassGrant cluster s) := by
  refine .next ?_
  split
  · exact ok
  · exact .ite (fun _ => ok.governor) fun _ => ok.governor.modEngine.modReq

theorem Keeps.execMxPassLanding {cluster : Nat} (ok : Keeps s0 s) : KeepsOut s0 (execMxPassLanding cluster s) := by
  refine .next ?_
  split
  · exact ok
  · split
    · exact ok.modEngine
    · exact .ite (fun _ => ok.modEngine.killGang) fun _ => ok.modEngine.modReq

theorem Keeps.noteMxFault {c id : Nat} (ok : Keeps s0 s) : Keeps s0 (s.noteMxFault c id) := ok.modReq

theorem Keeps.mxEnd {c id code : Nat} (ok : Keeps s0 s) : Keeps s0 (s.mxEnd c id code) := ok.modReq

theorem Keeps.wbldChunk {c id : Nat} (ok : Keeps s0 s) : Keeps s0 (s.wbldChunk c id) := by
  unfold State.wbldChunk
  split
  · exact ok
  · refine .ite (fun _ => ok) fun _ => .ite (fun _ => ok.mxEnd) fun _ => ?_
    dsimp only
    split
    · exact ok.engXlats.noteMxFault
    · exact ok.engXlats.draw.mxEnd
    · split
      · exact ok.engXlats.stallFor
      · rename_i t bs bad made
        have read : Keeps s0 t := ok.engXlats.engReads _ made
        exact .ite (fun _ => read.killGang) fun _ => read.modEngine.modReq

theorem Keeps.acdrn {e : Engine} {r : MxReq} (ok : Keeps s0 s) : Keeps s0 (s.acdrn e r) := by
  unfold State.acdrn
  dsimp only
  split
  · exact ok
  · exact ok.foldl _ fun _ _ ok => ok.scrDeliver

theorem Keeps.mxStatus {c : Nat} {r : MxReq} (ok : Keeps s0 s) : Keeps s0 (s.mxStatus c r) := ok.touchIdle.scrDeliver.modEngine.modWarp

theorem Keeps.mxComplete {c id : Nat} (ok : Keeps s0 s) : Keeps s0 (s.mxComplete c id) := by
  unfold State.mxComplete
  dsimp only
  split
  · exact ok
  · refine .ite (fun _ => ok) fun _ => .ite (fun _ => ok.mxStatus) fun _ => ?_
    split
    · exact ok
    · exact ok
    · exact ok.modEngine.mxStatus
    · exact .ite (fun _ => ok.killGang) fun _ => ok.modEngine.mxStatus
    · exact Keeps.mxStatus (.ite (fun _ => ok) fun _ => ok.logError)
    · exact .ite (fun _ => ok.logError.killGang) fun _ => .ite (fun _ => ok.killGang) fun _ => ok.acdrn.mxStatus

/-! ## Service threads -/

theorem Keeps.takeInt {n : Nat} (ok : Keeps s0 s) : Keeps s0 (s.takeInt n) := by
  refine .ite (fun _ => ok) fun _ => ?_
  split
  · exact ok
  · exact ok.enterLevel

theorem Keeps.execRegisterWrite {level size : Nat} {reg : RegAt} {value : Word} (ok : Keeps s0 s) :
    KeepsOut s0 (execRegisterWrite level reg size value s) := by
  refine .next ?_
  split
  · exact .ite (fun _ => ok.winWrite) fun _ => ok
  · exact ok

theorem Keeps.execPoolstatRead {svc : Nat} (ok : Keeps s0 s) : KeepsOut s0 (execPoolstatRead svc s) :=
  .next (.ite (fun _ => ok) fun _ => .ite (fun _ => ok) fun _ => .ite (fun _ => ok.deliver) fun _ => ok)

/-! ## Migrations released, pages revoked and requests of the fabric -/

theorem Keeps.dropCode {f : Nat} (ok : Keeps s0 s) : Keeps s0 (s.dropCode f) := ok

theorem Keeps.releaseMove {k : Nat} (ok : Keeps s0 s) : Keeps s0 (s.releaseMove k) := by
  unfold State.releaseMove
  split
  · exact ok
  · refine .ite (fun _ => ok) fun _ => ?_
    split
    · rename_i t e
      exact ok.tlbDrop.1 t e
    · rename_i t e
      have dropped : Keeps s0 t := ok.tlbDrop.2 t e
      split
      · rename_i u e
        exact dropped.pushAll.1 u e
      · rename_i u e
        have pushed : Keeps s0 u := dropped.pushAll.2 u e
        have gone {p : Nat → Bool} {f : Nat} : Keeps s0 (((u.l1Cores.foldl (fun s c => s.l1Drop c p) u).l2Forget p).dropCode f) :=
          Keeps.dropCode (Keeps.l2Forget (pushed.foldl _ fun _ _ ok => ok.l1Drop))
        exact Keeps.recheckCounters gone.elsewhere

theorem Keeps.execPoolPublish {page : PublishMsg} {count : Nat} (ok : Keeps s0 s) : KeepsOut s0 (execPoolPublish page count s) := by
  refine .next ?_
  split
  · exact .ite (fun _ => ok.poolPublish) fun _ => ok
  · exact .ite (fun _ => ok.poolPublished) fun _ => ok

theorem Keeps.execPoolCommandDone (ok : Keeps s0 s) : KeepsOut s0 (execPoolCommandDone s) :=
  .next (.ite (fun _ => ok.poolRetry.elsewhere) fun _ => ok.poolRetry)

theorem Keeps.execPoolRevocation {page : Nat} (ok : Keeps s0 s) : KeepsOut s0 (execPoolRevocation page s) := by
  refine .next (.ite (fun _ => ?_) fun _ => ok)
  split
  · rename_i t e
    exact Keeps.elsewhere (ok.poolDrop.2 t e)
  · rename_i t e
    exact ok.poolDrop.1 t e

theorem Keeps.execPoolHeartbeatLapse (ok : Keeps s0 s) : KeepsOut s0 (execPoolHeartbeatLapse s) := by
  have lost : Keeps s0 ((s.l1Cores.foldl (fun s c => s.l1Drop c s.inPool) s).l2Forget s.inPool) :=
    Keeps.l2Forget (ok.foldl _ fun _ _ ok => ok.l1Drop)
  exact .next (.ite (fun _ => lost.elsewhere) fun _ => ok)

theorem Keeps.fabricRead {pa n : Nat} (ok : Keeps s0 s) : KeepsPair s0 (s.fabricRead pa n) := ok.devLoad

theorem Keeps.fabricWrite {pa : Nat} {bs : List Byte} (ok : Keeps s0 s) : KeepsOpt s0 (s.fabricWrite pa bs) := ok.devStore

theorem Keeps.serveFabric {req : FabricReq} (ok : Keeps s0 s) : KeepsOpt s0 (s.serveFabric req) := by
  unfold State.serveFabric
  dsimp only
  split
  · exact .some (Keeps.elsewhere ok.fabricRead)
  · exact ok.fabricWrite.map fun _ ok => ok
  · exact ok.fabricRead.fabricWrite.map fun _ ok => ok
  · exact .ite (fun _ => ok.fabricRead.fabricWrite.map fun _ ok => ok) fun _ => .some (Keeps.elsewhere ok.fabricRead)
  · exact .some (Keeps.elsewhere ok.fabricRead)
  · have taken {r : Tbl Resv} : Keeps s0 { s with fabResv := r } := ok
    exact .ite (fun _ => taken.fabricWrite.map fun _ ok => ok) fun _ => .some ok

theorem Keeps.execFabricRequestIn {req : FabricReq} (ok : Keeps s0 s) : KeepsOut s0 (execFabricRequestIn req s) := by
  refine .next ?_
  split
  · exact ok
  · exact ok
  · exact .ite (fun _ => ok) fun _ => .ite (fun _ => ok.wake) fun _ => ok.serveFabric.getD ok.stallFor

end

end Sys2Proof.Proofs
end

