-- ==== Sys2Proof/Proofs/KeptPlatformEvents.lean ====
section
/-! PROOFS. Resets, boot, alarms, power states, memory errors and the Switch of a migration keep both invariants. -/

namespace Sys2Proof.Proofs

open Sys2Proof Sys2Proof.Machine Sys2Proof.Claims

-- One proof after another: proofs run side by side over a text of this length need more threads than the check has memory for.
set_option Elab.async false

section
variable {s0 s : State}

/-! ## Resets -/

theorem cachesOk_of_empty (firsts : s.l1 = []) (seconds : s.l2 = []) : cachesOk s := by
  have first (k : Nat) : s.l1c k = {} := by rw [State.l1c, firsts]; rfl
  have second (k : Nat) : s.l2c k = {} := by rw [State.l2c, seconds]; rfl
  refine ⟨fun k => ⟨first k ▸ tidy_empty, second k ▸ tidy_empty⟩, fun c _ => first c, fun a i j b c _ _ found _ => ?_⟩
  rw [second] at found
  cases found

theorem cachesOk_reset : cachesOk State.reset := cachesOk_of_empty rfl rfl

theorem Keeps.coldReset (_ : Keeps s0 s) : Keeps s0 s.coldReset := ⟨fun _ => rfl, fun _ => cachesOk_of_empty (s := s.coldReset) rfl rfl⟩

theorem Keeps.warmReset (ok : Keeps s0 s) : Keeps s0 s.warmReset := ⟨ok.1, fun _ => cachesOk_of_empty (s := s.warmReset) rfl rfl⟩

/-! ## Boot, alarms and power -/

theorem Keeps.bootStage {m : ImageMsg} (ok : Keeps s0 s) : Keeps s0 (s.bootStage m) := by
  have staged {x : Security} : Keeps s0 { s with sec := x } := ok
  exact .ite (fun _ => ok) fun _ => .ite (fun _ => .ite (fun _ => staged.modWarp.elsewhere) fun _ => staged) fun _ => staged.log

theorem Keeps.shutDown (ok : Keeps s0 s) : Keeps s0 s.shutDown := ok

theorem Keeps.zeroise (ok : Keeps s0 s) : Keeps s0 s.zeroise := ok

theorem Keeps.broken {cond : PlatformCond} (ok : Keeps s0 s) : Keeps s0 (s.broken cond) := .ite (fun _ => ok) fun _ => ok

theorem Keeps.onPolicy (ok : Keeps s0 s) : Keeps s0 s.onPolicy := .ite (fun _ => ok.zeroise) fun _ => ok

theorem Keeps.powerDown (ok : Keeps s0 s) : Keeps s0 s.powerDown := by
  have flushed {c : Prop} [Decidable c] : Keeps s0 (if c then (s.l2Flush 0 everywhere true).l2Flush 1 everywhere true else s) :=
    .ite (fun _ => ok.l2Flush.l2Flush) fun _ => ok
  exact .ite (fun _ => ok) fun _ => flushed.elsewhere

theorem Keeps.execLanternMainReset {authorised on : Bool} (ok : Keeps s0 s) : KeepsOut s0 (execLanternMainReset authorised on s) :=
  .next (.ite (fun _ => ok) fun _ => .ite (fun _ => ok.coldReset) fun _ => ok.shutDown)

/-! ## Memory errors and retirement (R247 to R252) -/

theorem Keeps.execEccError {err : EccMsg} (ok : Keeps s0 s) : KeepsOut s0 (execEccError err s) := by
  have logged {part : TestUnit} : Keeps s0 (s.logError err part) := ok.logError
  refine .next ?_
  split
  · exact logged
  · dsimp only
    split
    · exact Keeps.setL1 logged.taint (fun order => tidy_spoil order _) fun _ empty => by rw [empty]; rfl
    · exact logged.taint
  · exact logged.modBlock
  · exact .ite (fun _ => logged) fun _ => logged.modTenant
  · exact .ite (fun _ => logged.modEngine) fun _ => logged

theorem Keeps.softFuse {core l : Nat} (ok : Keeps s0 s) : Keeps s0 (s.softFuse core l) :=
  .ite (fun _ => ok) fun _ => Keeps.applyMap (Keeps.preemptWhere (Keeps.log (Keeps.elsewhere ok.modCore)))

theorem Keeps.retireWay {die slice set way : Nat} (ok : Keeps s0 s) : Keeps s0 (s.retireWay die slice set way) :=
  .ite (fun _ => ok) fun _ => .ite (fun _ => Keeps.settleSlices ok.vacate.elsewhere) fun _ => ok.vacate.elsewhere

theorem Keeps.retireL1 {core set way : Nat} (ok : Keeps s0 s) : Keeps s0 (s.retireL1 core set way) := .ite (fun _ => ok) fun _ => ok.vacate.modCore

theorem Keeps.retireFrame {f : Nat} (ok : Keeps s0 s) : Keeps s0 (s.retireFrame f) := by
  have left {fs : List Nat} {rs : Tbl (List Nat)} : Keeps s0 { s with retiredFrames := fs, rings := rs } := ok
  unfold State.retireFrame
  dsimp only
  split
  · exact .ite (fun _ => left.startMigration.getD left.log) fun _ => left.log
  · exact left.log

theorem Keeps.execSelfTest {part : TestUnit} {runs : List Bool} (ok : Keeps s0 s) : KeepsOut s0 (execSelfTest part runs s) := by
  have tested {us : List TestUnit} : Keeps s0 { s with selfTests := us } := ok
  refine .next (.ite (fun _ => ok) fun _ => .ite (fun _ => ok) fun _ => ?_)
  split
  · exact tested.softFuse
  · exact tested.retireL1
  · exact .ite (fun _ => tested.modCore) fun _ => tested
  · exact tested.retireWay
  · exact .ite (fun _ => tested.modEngine) fun _ => tested
  · exact tested.retireFrame
  · exact tested

/-! ## What a Switch tries again -/

theorem Keeps.execBkopCompletion {eop : Nat} (ok : Keeps s0 s) : KeepsOut s0 (execBkopCompletion eop s) :=
  .next (ok.runEop fun _ _ ok => by
    split
    · exact ok.bkopWork
    · exact ok)

theorem Keeps.execAtom {k : Ctl} {d : Dst} {a b : Src} {op : AtomOp} {ty : Ty} (ok : Keeps s0 s) : KeepsOut s0 (execAtom k d a b op ty s) := ok.atomRun

theorem Keeps.execCas {k : Ctl} {d : Dst} {a b x : Src} {ty : Ty} (ok : Keeps s0 s) : KeepsOut s0 (execCas k d a b x ty s) := ok.atomRun

theorem Keeps.execSc {k : Ctl} {d a : Src} {imm : BitVec 16} {ty : Ty} {qd : Pred} (ok : Keeps s0 s) : KeepsOut s0 (execSc k d a imm ty qd s) :=
  ok.segOnce (fun _ ok => ok.foldLanes) fun _ ok => ok.memFold fun _ _ ok => ok.scLane

theorem Keeps.execTaff {k : Ctl} {a : Src} {imm : BitVec 16} {aff : Fin 4} (ok : Keeps s0 s) : KeepsOut s0 (execTaff k a imm aff s) :=
  ok.placeOnce fun _ _ ok => ok.taffLane

theorem Keeps.execAlloc {k : Ctl} {q : Pred} {d : Dst} {b : Src} {wt : Bool} (ok : Keeps s0 s) : KeepsOut s0 (execAlloc k q d b wt s) :=
  ok.segOnce (fun _ => id) fun _ ok => ok.laneFold fun _ _ ok => ok.allocLane

theorem Keeps.execFree {k : Ctl} {q : Pred} {a b : Src} (ok : Keeps s0 s) : KeepsOut s0 (execFree k q a b s) :=
  ok.segStore fun _ ok => ok.laneFold fun _ _ ok => ok.freeLane

/-! ## The Switch (R199, R200) -/

theorem Keeps.copyFrame {src dst : Nat} (ok : Keeps s0 s) : Keeps s0 (s.copyFrame src dst) := ok.memSetAll

theorem Keeps.applyWindow {f : Fwd} {to_ : Nat} (ok : Keeps s0 s) : Keeps s0 (s.applyWindow f to_) := ok.memSetAll.unpoison

theorem Keeps.applyStalled {f : Fwd} {to_ : Nat} {x : Stalled} (ok : Keeps s0 s) : Keeps s0 (s.applyStalled f to_ x) := by
  unfold State.applyStalled
  dsimp only
  split
  · exact ok
  · exact ok.memSetAll.l2Forget.written.taint.count

theorem Keeps.eopRetry {id : Nat} (ok : Keeps s0 s) : Keeps s0 (s.eopRetry id) := by
  unfold State.eopRetry
  dsimp only
  split
  · exact ok
  · split
    · exact ok.runEop fun _ _ ok => ok.copyWork
    · exact ok.runEop fun _ _ ok => ok.copyWork
    · exact ok.runEop fun _ _ ok => ok.gathWork
    · exact ok.runEop fun _ _ ok => ok.gathWork
    · exact ok.execBkopCompletion _ rfl
    · exact ok.runEop fun _ _ ok => ok.rowWork
    · exact ok.runEop fun _ _ ok => ok.rowWork
    · exact ok.runEop fun _ _ ok => ok.maintWork
    · exact ok.runEop fun _ _ ok => ok.maintWork
    · exact ok.runEop fun _ _ ok => ok.maintWork
    · exact .ite (fun _ => ok.eopStatus) fun _ => .ite (fun _ => ok.putAnswer fun _ _ ok => ok.putAck) fun _ => ok.putHere
    · exact .ite (fun _ => ok.eopStatus) fun _ => ok

theorem Keeps.threadRetry {n l : Nat} (ok : Keeps s0 s) : Keeps s0 (s.threadRetry n l) := by
  refine .ite (fun _ => ok) fun _ => ?_
  split
  · rename_i t e
    have here {c : Bundle} : Keeps s0 { s with cur := c } := ok
    refine Keeps.elsewhere (s := t) ?_
    split at e
    · exact here.execAtom t (Option.some.inj e)
    · exact here.execCas t (Option.some.inj e)
    · exact here.execSc t (Option.some.inj e)
    · exact here.execTaff t (Option.some.inj e)
    · exact here.execAlloc t (Option.some.inj e)
    · exact here.execFree t (Option.some.inj e)
    · cases e
  · exact ok

theorem Keeps.servedAt {before : State} {frame : Nat} {went : Bool} (ok : Keeps s0 s) : Keeps s0 (before.servedAt s frame went) :=
  .ite (fun _ => ok.addCount) fun _ => ok

theorem Keeps.serveStall {f : Fwd} {to_ : Nat} {x : Stall} (ok : Keeps s0 s) : Keeps s0 (s.serveStall f to_ x) := by
  unfold State.serveStall
  dsimp only
  split
  · exact ok.applyStalled
  · exact ok.threadRetry.servedAt
  · exact ok.drainOne.servedAt
  · exact ok.compareSegs.servedAt
  · exact ok.eopRetry
  · exact ok.wbldChunk
  · exact ok.tryFinish
  · exact ok.collApply
  · split
    · exact ok.landAdd
    · exact ok
  · exact ok.saveBlock
  · exact ok.returnDeferred
  · exact ok.finishEnable
  · exact ok.serveFabric.getD ok
  · exact ok.landPut.getD ok

theorem Keeps.abandonMove {k : Nat} {f : Fwd} (ok : Keeps s0 s) : Keeps s0 (s.abandonMove k f) := by
  unfold State.abandonMove
  exact Keeps.foldl ok.applyWindow.elsewhere _ fun _ _ ok => ok.serveStall

theorem Keeps.movePin {f : Fwd} (ok : Keeps s0 s) : Keeps s0 (s.movePin f) := ok

theorem Keeps.switchMove {k : Nat} (ok : Keeps s0 s) : Keeps s0 (s.switchMove k) := by
  unfold State.switchMove
  split
  · exact ok
  · refine .ite (fun _ => ok) fun _ => .ite (fun _ => ?_) fun _ => ok.abandonMove
    split
    · exact ok
    · rename_i t made
      have written : Keeps s0 t := ok.ownWrite t made
      exact Keeps.foldl (Keeps.movePin written.copyFrame.applyWindow.l2Forget.elsewhere) _ fun _ _ ok => ok.serveStall

end

end Sys2Proof.Proofs
end

