-- ==== Sys2Proof/Proofs/KeptSteps.lean ====
section
/-! PROOFS. Every instruction and every device step keeps memory canonical and at most one dirty copy of a byte, and so does the step of the
machine (R103). -/

namespace Sys2Proof.Proofs

open Sys2Proof Sys2Proof.Machine Sys2Proof.Claims

-- One proof after another: proofs run side by side over a text of this length need more threads than the check has memory for.
set_option Elab.async false

section
variable {s0 s : State}

theorem Keeps.writeW {d : Fin 32} {pass : Nat} {v : Word} (ok : Keeps s0 s) : Keeps s0 (writeW s d pass v) := ok.setWarp

theorem Keeps.movwOp {i : Instr} {d : Fin 32} {f : LaneCx → Word} (ok : Keeps s0 s) : KeepsOut s0 (movwOp i d f s) := by
  unfold Machine.movwOp
  refine ok.laneMapPost fun _ ok => ?_
  split
  · exact ok.writeW
  · exact ok

theorem Keeps.execMovwLong {k : Ctl} {d : Fin 32} {b : OpB} {ty : Ty} (ok : Keeps s0 s) : KeepsOut s0 (execMovwLong k d b ty s) := ok.movwOp

theorem Keeps.execMovwLiteral {k : Ctl} {d : Fin 32} {lit : BitVec 32} {ty : Ty} (ok : Keeps s0 s) : KeepsOut s0 (execMovwLiteral k d lit ty s) :=
  ok.movwOp

theorem Keeps.execWmov {k : Ctl} {d : Fin 32} {a b : Src} (ok : Keeps s0 s) : KeepsOut s0 (execWmov k d a b s) := by
  unfold Machine.execWmov Machine.wmovOp
  refine ok.laneMapPost fun _ ok => ?_
  split
  · exact .ite (fun _ => ok.writeW) fun _ => ok
  · exact ok

theorem Keeps.execLand {k : Ctl} (ok : Keeps s0 s) : KeepsOut s0 (execLand k s) := by
  unfold Machine.execLand
  exact ok.laneMapPost fun _ ok => ok.foldl _ fun _ _ ok => ok.modThread

theorem Keeps.execCancel {k : Ctl} {kind : CancelKind} {a : Src} (ok : Keeps s0 s) : KeepsOut s0 (execCancel k kind a s) := by
  unfold Machine.execCancel
  exact ok.laneMapPost fun _ ok => ok.foldl _ fun _ _ ok => .ite (fun _ => ok) fun _ => ok.cancel

theorem Keeps.execYield {k : Ctl} (ok : Keeps s0 s) : KeepsOut s0 (execYield k s) :=
  ok.laneMapPost fun _ ok => .ite (fun _ => ok) fun _ => .ite (fun _ => ok.modThread) fun _ => ok.renumber

theorem Keeps.execUnpin {k : Ctl} {a : Src} {imm : BitVec 16} (ok : Keeps s0 s) : KeepsOut s0 (execUnpin k a imm s) :=
  ok.placeOnce fun _ _ ok => by
    dsimp only
    split
    · exact ok.page
    · exact ok.page.setPin

/-- EVERY INSTRUCTION AND EVERY DEVICE STEP keeps both invariants. -/
theorem Keeps.exec {i : Instr} (ok : Keeps s0 s) : KeepsOut s0 (exec i s) := by
  cases i with
  | iaddCompact | iaddLong | iaddLiteral | isubCompact | isubLong | isubLiteral | imulCompact | imulLong | imulLiteral | imulhCompact | imulhLong
  | imulhLiteral | imadLong | imadLiteral | idivCompact | idivLong | idivLiteral | iremCompact | iremLong | iremLiteral | iminCompact | iminLong
  | iminLiteral | imaxCompact | imaxLong | imaxLiteral | iabs | ineg | iaddcLong | iaddcLiteral | isubbLong | isubbLiteral | idot4Long
  | idot4Literal | andCompact | andLong | andLiteral | orCompact | orLong | orLiteral | xorCompact | xorLong | xorLiteral | lop3Long
  | lop3Literal | shlCompact | shlLong | shlLiteral | shrCompact | shrLong | shrLiteral | shraCompact | shraLong | shraLiteral | rotCompact
  | rotLong | rotLiteral | popc | clz | ctz | brev | bfxLong | bfxLiteral | bfiLong | bfiLiteral | prmtLong | prmtLiteral | icmpLong
  | icmpLiteral | fcmpLong | fcmpLiteral | fclass | selCompact | selLong | selLiteral | plop | ptog | gtop | movLong | movLiteral | faddCompact
  | faddLong | faddLiteral | fsubCompact | fsubLong | fsubLiteral | fmulCompact | fmulLong | fmulLiteral | ffmaLong | ffmaLiteral | fminCompact
  | fminLong | fminLiteral | fmaxCompact | fmaxLong | fmaxLiteral | fabs | fneg | fdivCompact | fdivLong | fdivLiteral | fsqrt | frcp | frsq
  | fsclLong | fsclLiteral | frnd | fdotLong | fdotLiteral | fsum | fex2 | flg2 | fsin | fcos | ftnh | cvt | pack | unpk | qblk | dqblk | rng
  | rngg | bcst | vote | wred | wscan | matchI | elect | braLong | braLiteral | brx | callLong | callLiteral | callx | ret | meetLong
  | meetLiteral | leaveLong | leaveLiteral | trap | nop | sleep | brkpt | rsb | rse | srd => exact ok.laneMap
  | movwLong => exact ok.execMovwLong
  | movwLiteral => exact ok.execMovwLiteral
  | wmov => exact ok.execWmov
  | exit => exact ok.laneFold fun _ _ ok => ok.exitLane
  | land => exact ok.execLand
  | yield => exact ok.execYield
  | shfl => exact ok.execShfl
  | ld => exact ok.memFold fun _ _ ok => ok.ldLane
  | st => exact ok.segStore fun _ ok => ok.queueFold fun _ ok => ok.memFold fun _ _ ok => ok.stLane
  | pref => exact ok.laneFold fun _ _ ok => ok.prefLane
  | ldl | lds | ldc => exact ok.laneFold fun _ _ ok => ok.scrLoadLane
  | stl | sts | stc => exact ok.scrStore
  | feset | feclr => exact ok.laneFold fun _ _ ok => ok.tagLane fun _ _ _ ok => ok.setTag
  | fetest => exact ok.laneFold fun _ _ ok => ok.tagLane fun _ _ _ ok => ok.modThread
  | lr => exact ok.memFold fun _ _ ok => ok.lrLane
  | sc => exact ok.execSc
  | atom | cas => exact ok.atomRun
  | red => exact ok.segStore fun _ ok => ok.queueFold fun _ ok => ok.memFold fun _ _ ok => ok.redLane
  | atoms | cass => exact ok.laneFold fun _ _ ok => ok.atomsLane
  | reds => exact ok.queueFold fun _ ok => ok.laneFold fun _ _ ok => ok.redsLane
  | fence => exact ok.segFence fun _ ok => ok.laneFold fun _ _ ok => ok.fenceLane
  | waitc => exact ok.laneFold fun _ _ ok => .ite (fun _ => ok) fun _ => ok
  | gpwait => exact ok.segOnce (fun _ => id) fun _ ok => ok.laneFold fun _ _ ok => ok.gpwaitLane
  | defer => exact ok.segStore fun _ ok => ok.laneFold fun _ _ ok => ok.deferLane
  | alloc => exact ok.execAlloc
  | free => exact ok.execFree
  | cpy | cpyz | gath | scat | put | coll | bkop | rowcp | rowz | clean | inval | flush => exact ok.postOp
  | mxp | wbld | acz | acld | acdrn | acchk => exact ok.mxOp
  | pin => exact ok.placeOnce fun _ _ ok => ok.pinLane
  | unpin => exact ok.execUnpin
  | hint => exact ok.placeOnce fun _ _ ok => ok.hintLane
  | migr => exact ok.placeOnce fun _ _ ok => ok.migrLane
  | taff => exact ok.execTaff
  | probe => exact ok.placeOnce fun _ _ ok => ok.probeLane
  | tlbi => exact ok.placeOnce fun _ _ ok => ok.tlbiLane
  | tlbsync => exact ok.placeOnce fun _ _ ok => .ite (fun _ => ok) fun _ => ok
  | launch => exact ok.segOnce (fun _ => id) fun _ ok => ok.memFold fun _ _ ok => ok.launchLane
  | cwait => exact ok.memFold fun _ _ ok => ok.cwaitLane
  | cancel => exact ok.execCancel
  | reord => exact ok.segStore fun _ ok => ok.laneFold fun _ _ ok => ok.reordLane
  | svc => exact ok.laneFold fun _ _ ok => .ite (fun _ => ok.callLane) fun _ => ok
  | hvc | sec => exact ok.laneFold fun _ _ ok => ok.callLane
  | swr => exact ok.laneFold fun _ _ ok => ok.swrLane
  | eret => exact ok.laneFold fun _ _ ok => ok.eretLane
  | coreStep => exact .next ok.coreStep
  | stallExpiry | sleepExpiry | resultLanding | reservationLapse => exact .next ok.modThread
  | waitTimeout => exact ok.execWaitTimeout
  | storeQueueDrain => exact .next ok.drainOne
  | cacheEviction => exact ok.execCacheEviction
  | lineInvalidation => exact ok.execLineInvalidation
  | homeRequest => exact .next ok.countReq
  | atomicAtHome => exact ok.execAtomicAtHome
  | replicaUpdate => exact ok.execReplicaUpdate
  | interruptTake => exact .next (.ite (fun _ => ok.takeInt) fun _ => ok)
  | timerInterruptPending => exact .next (.ite (fun _ => ok.refreshTimer) fun _ => ok)
  | ipisendWrite => exact .next (.ite (fun _ => ok.ipisend) fun _ => ok)
  | intpendClear => exact .next (.ite (fun _ => ok.clearPend) fun _ => ok)
  | launchAccept => exact .next ok.accept
  | launchReady => exact .next ok.makeReady
  | gangPlace => exact .next ok.placeNext
  | blockSave => exact .next ok.saveBlock
  | blockResume => exact .next ok.resume
  | warpRetire => exact .next (.ite (fun _ => ok.modWarp) fun _ => ok)
  | blockRetire => exact .next ok.retireBlock
  | launchFinish => exact .next ok.tryFinish
  | reorderIdleFlush => exact ok.execReorderIdleFlush
  | postingWindowStore => exact .next (ok.ofTenant fun ok => ok.postWindow)
  | postingFullCountRead => exact .next (ok.ofTenant fun ok => .ite (fun _ => Keeps.elsewhere ok.readFull) fun _ => ok)
  | tenantSuspend => exact .next (ok.ofTenant fun ok => ok.suspendTenant)
  | tenantResume => exact .next (ok.ofTenant fun ok => ok.resumeTenant)
  | tenantReset => exact .next (ok.ofTenant fun ok => ok.resetTenant)
  | coreownWrite => exact .next (.ite (fun _ => ok.writeCoreown) fun _ => ok)
  | l2wayWrite => exact .next (ok.ofTenant fun ok => ok.writeL2way)
  | placeTableWrite => exact .next (ok.ofTenant fun ok => ok.writePlace)
  | dscarveWrite => exact .next (ok.ofTenant fun ok => ok.writeCarve)
  | serviceThreadStart => exact .next (.ite (fun _ => ok.startService) fun _ => ok)
  | serviceThreadStop => exact .next (.ite (fun _ => ok.haltService) fun _ => ok)
  | poolEnable => exact .next (ok.ofPool fun ok => .ite (fun _ => ok) fun _ => ok.enablePool)
  | poolDisable => exact .next (ok.ofPool fun ok => .ite (fun _ => ok.disablePool) fun _ => ok)
  | perrRead => exact .next (ok.ofPool fun ok => Keeps.elsewhere ok.readPerr)
  | guylineReport => exact .next (.ite (fun _ => ok.foldl _ fun _ _ ok => ok.reportTenant) fun _ => ok)
  | gpseqAcknowledge => exact .next ok.acknowledge
  | gracePeriodDone => exact .next (ok.ofTenant fun ok => ok.graceStep)
  | backgroundGraceStart => exact .next (ok.ofTenant fun ok => ok.background)
  | deferredReturn => exact .next (ok.ofTenant fun ok => ok.returnDeferred)
  | poolEnablingFinished => exact .next (ok.ofPool fun ok => ok.finishEnable)
  | mxOwnershipGrant => exact ok.execMxOwnershipGrant
  | mxRequestBegin => exact .next ok.mxBegin
  | mxPassGrant => exact ok.execMxPassGrant
  | mxPassLanding => exact ok.execMxPassLanding
  | wbldChunkLanding => exact .next ok.wbldChunk
  | mxRequestComplete => exact .next ok.mxComplete
  | copyCompletion => exact .next (ok.runEop fun _ _ ok => ok.copyWork)
  | gatherCompletion | scatterCompletion => exact .next (ok.runEop fun _ _ ok => ok.gathWork)
  | bkopCompletion => exact ok.execBkopCompletion
  | rowOpCompletion => exact .next (ok.runEop fun _ _ ok => ok.rowWork)
  | cacheMaintCompletion => exact .next (ok.runEop fun _ _ ok => ok.maintWork)
  | putLanding => exact ok.execPutLanding
  | putAcknowledged => exact .next (ok.putAnswer fun _ _ ok => ok.putAck)
  | putRefused => exact .next (ok.putAnswer fun _ _ ok => ok.eopEnd)
  | putResponseTimeout | collResponseTimeout => exact .next (ok.sentEop fun _ _ ok => ok.eopEnd)
  | windowDisable => exact .next (.ite (fun _ => ok.writeWin) fun _ => ok)
  | collArrival => exact ok.execCollArrival
  | collAccepted => exact ok.execCollAccepted
  | collApply => exact .next ok.collApply
  | slotEnable => exact .next (.ite (fun _ => ok.writeLbctl) fun _ => ok)
  | slotDisable => exact ok.execSlotDisable
  | fabricRequestIn => exact ok.execFabricRequestIn
  | fabricResponseTimeout => exact ok.execFabricResponseTimeout
  | faultRecordResolve | faultRecordAbandon => exact .next (.ite (fun _ => ok.writeStatus) fun _ => ok)
  | faultReplay => exact .next (.ite (fun _ => ok.replay) fun _ => ok)
  | devdropRead | poolHeartbeat | platformConditionRestored | poolModuleRebuild => exact .next ok
  | migrationSwitch => exact .next ok.switchMove
  | migrationRelease => exact .next ok.releaseMove
  | accessCounterDecay | poolModuleLoss | lanternProvisioning | lanternAttestation | exitLatencyElapsed => exact .next (.ite (fun _ => ok) fun _ => ok)
  | migdecayWrite => exact .next ok.writeDecay
  | frfillPush => exact .next (.ite (fun _ => ok.pushFrame) fun _ => ok)
  | frretPop => exact .next (Keeps.elsewhere ok.popFrret)
  | poolAcquire => exact .next (.ite (fun _ => ok.poolAcquire) fun _ => ok)
  | poolRelease => exact .next (.ite (fun _ => ok.poolRelease) fun _ => ok)
  | poolPublish => exact ok.execPoolPublish
  | poolCommandDone => exact ok.execPoolCommandDone
  | poolstatRead => exact ok.execPoolstatRead
  | poolRevocation => exact ok.execPoolRevocation
  | poolHeartbeatLapse => exact ok.execPoolHeartbeatLapse
  | pairedSegmentCompare => exact .next ok.compareSegs
  | pairedCompareTimeout => exact .next ok.compareLate
  | eccError => exact ok.execEccError
  | gangRelaunch => exact .next ok.relaunch
  | selfTest => exact ok.execSelfTest
  | coldReset => exact .next ok.coldReset
  | warmReset => exact .next ok.warmReset
  | bootStageVerify => exact .next ok.bootStage
  | platformFaultAlarm => exact .next (.ite (fun _ => ok) fun _ => ok.alarm.onPolicy.broken)
  | protectiveShutdown => exact .next (.ite (fun _ => ok.shutDown) fun _ => ok)
  | tamperAlarm => exact .next ok.alarm.zeroise
  | glitchTemperatureAlarm => exact .next (.ite (fun _ => ok.alarm.zeroise) fun _ => ok.alarm.broken)
  | powerStateEntry => exact .next ok.powerDown
  | powerWake => exact .next ok.wake
  | lanternDebugHold => exact .next (.ite (fun _ => ok.modTenant) fun _ => ok)
  | lanternDebugRelease => exact .next (.ite (fun _ => Keeps.elsewhere ok.modTenant) fun _ => ok)
  | lanternFirmwareUpdate => exact .next (.ite (fun _ => ok) fun _ => ok.log)
  | lanternMainReset => exact ok.execLanternMainReset
  | lanternMonitorQuery => exact .next (Keeps.elsewhere ok.draw)
  | registerWrite => exact ok.execRegisterWrite
  | platformInterruptSignal => exact .next (.ite (fun _ => ok.signal) fun _ => ok)

/-! ## The step of the machine -/

theorem Keeps.clearLanding (ok : Keeps s0 s) : Keeps s0 s.clearLanding := ok.foldl _ fun _ _ ok => ok.modThread

theorem Keeps.landingTrap (ok : Keeps s0 s) : Keeps s0 s.landingTrap := by
  unfold State.landingTrap
  exact ok.raiseAll.elsewhere

theorem Keeps.fetchFault {va : Word} {x : XErr} (ok : Keeps s0 s) : Keeps s0 (s.fetchFault va x) :=
  ok.foldl _ fun _ _ ok => by
    dsimp only
    split
    · exact Keeps.modThread ok.accessFault
    · exact ok.accessFault

theorem Keeps.runBytes {bs : List Byte} (ok : Keeps s0 s) : KeepsOut s0 (runBytes bs s) := by
  refine .ite (fun _ => .next ok) fun _ => ?_
  split
  · exact .next ok.raiseAll
  · exact ok.exec

theorem Keeps.landRule {landrq : Bool} {bs : List Byte} (ok : Keeps s0 s) : Keeps s0 (s.landRule landrq bs) :=
  .ite (fun _ => ok.clearLanding) fun _ => .ite (fun _ => ok) fun _ => ok.landingTrap

theorem Keeps.runBundle {b : Bundle} (ok : Keeps s0 s) : KeepsOut s0 (runBundle b s) := by
  have begun {c : Bundle} : Keeps s0 { s with cur := c } := ok
  refine .ite (fun _ => .next begun) fun _ => ?_
  split
  · exact .fault
  · exact .next begun.fetch.raiseAll
  · exact .next begun.fetch.fetchFault
  · exact .next begun.fetch.bundleWait
  · exact .next begun.fetch.bundleWait
  · exact begun.fetch.landRule.runBytes

theorem Keeps.runService {n : Nat} (ok : Keeps s0 s) : KeepsOut s0 (runService n s) := by
  have begun {now : Nat} : Keeps s0 (({ s with now := now } : State).refreshTimer n) := Keeps.refreshTimer (s := { s with now := now }) ok
  exact .ite (fun _ => .next begun) fun _ => .ite (fun _ => .next begun.modThread) fun _ => .ite (fun _ => .next begun.takeInt) fun _ =>
    .ite (fun _ => begun.modWarp.runBundle) fun _ => .next begun.modWarp

theorem Keeps.runAct {a : Act} (ok : Keeps s0 s) : KeepsOut s0 (runAct a s) := by
  unfold Machine.runAct
  split
  · exact .next ok
  · exact .ite (fun _ => .next ok) fun _ => ok.runService
  · exact .ite (fun _ => ok.exec) fun _ => .next ok

theorem Keeps.runHome (ok : Keeps s0 s) : KeepsOut s0 (runHome s) := by
  unfold Machine.runHome
  split
  · rename_i n _
    have ran := ok.runAct (a := .service n)
    split
    · rename_i t e
      have served : Keeps s0 t := ran t e
      exact .next (.ite (fun _ => served.elsewhere) fun _ => served)
    · exact ran
  · exact Keeps.runAct (s := { s with home := _ }) ok
  · exact ok.runAct

theorem Keeps.tick (ok : Keeps s0 s) : KeepsOut s0 s.tick := by
  unfold State.tick
  split
  · exact .ite (fun _ => .next ok) fun _ => Keeps.runBundle (s := { s with issue := _ }) ok
  · split
    · exact Keeps.runAct (s := { s with agenda := _ }) ok
    · exact ok.runHome

end

/-- EVERY STEP of the machine keeps both invariants. -/
theorem keeps_step {s t : State} (stepped : step s = .next t) : Keeps s t := (Keeps.refl s).tick t stepped

/-! ## The obligations -/

/-- Settles O19: no operation of the machine writes memory but through `memSetAll`, which keeps the canonical form. -/
theorem stepKeepsMemory : Obligations.StepKeepsMemory := fun _ _ canonical stepped => (keeps_step stepped).memOk canonical

/-- Settles O30: at reset every cache is empty, and whatever writes an L2 has made the others give up the line first. -/
theorem cachesStayCoherent : Obligations.CachesStayCoherent := ⟨cachesOk_reset, fun _ _ caches stepped => (keeps_step stepped).cachesOk caches⟩

end Sys2Proof.Proofs
end


-- ==== Sys2Proof/Proofs/SoloBundles.lean ====
section
/-! PROOFS. A bundle of one guard-true thread: what an instruction whose threads act on the machine in turn does there, once its effect
in the thread is known. -/

namespace Sys2Proof.Proofs

open Sys2Proof Sys2Proof.Machine Sys2Proof.Claims

-- One proof after another: proofs run side by side over a text of this length need more threads than the check has memory for.
set_option Elab.async false

/-! ## The STALL 7 rule -/

/-- STALL 7 gives a warp another residency number, and its core's next one, and changes nothing else. -/
theorem stallYield_parts (i : Instr) (s t : State) :
    stallYield i s t = { t with warps := (stallYield i s t).warps, cores := (stallYield i s t).cores } := by
  rw [stallYield_eq]
  split <;> rfl

theorem stallYield_warp (i : Instr) (s t : State) (m : Nat) :
    { (stallYield i s t).warp m with residency := 0 } = { t.warp m with residency := 0 } := by
  rw [stallYield_eq]
  split
  · rw [renumber_warp]
    split
    · subst m; rfl
    · rfl
  · rfl

theorem stallYield_core (i : Instr) (s t : State) (c : Nat) :
    { (stallYield i s t).core c with nextResidency := 0 } = { t.core c with nextResidency := 0 } := by
  rw [stallYield_eq]
  split
  · by_cases own : c = (t.warp t.cur.warp).core
    · subst c
      rw [State.renumber, State.core_modCore]
      rfl
    · rw [State.renumber, State.core_modCore_other _ _ own]
      rfl
  · rfl

/-! ## One thread -/

/-- The lanes of a bundle of one. -/
theorem mlanes_single {l : Nat} (h : l < 32) : mlanes (maskOf [l]) = [l] := by
  revert l
  decide

section
variable {i : Instr} {s s1 : State} {l : Nat} {f : Nat → State → State × LaneOut}

theorem lanes_of_solo (h : Solo i s l) : s.lanes = [l] := by
  rw [State.lanes, h.lanes, mlanes_single h.lane.1]

/-- The state in which the thread of a bundle of one has issued. -/
def soloIssued (i : Instr) (s : State) (l : Nat) (s1 : State) : State :=
  stallYield i s (s1.modThread s.cur.warp l fun u =>
    u.issued (s.core s.curWarp.core).step (ctlOf i).stall.val (nextPc i (s.thread s.cur.warp l)))

/-- The state in which the thread of a bundle of one waits. -/
def soloWaits (i : Instr) (s : State) (l : Nat) (w : Wait) (s1 : State) : State :=
  stallYield i s (s1.modThread s.cur.warp l fun u => { u with wait := w })

theorem laneFold_next (h : Solo i s l) (effect : f l s = (s1, .next)) : laneFold i f s = .next (soloIssued i s l s1) := by
  have issues : issueInstead i s = none := h.issues
  simp only [laneFold, issues, lanes_of_solo h, List.foldl_cons, List.foldl_nil, foldLane, h.alive, h.guard, effect, liveRaises,
    List.filter_nil, deliver_nil, soloIssued, Bool.false_eq_true, if_false, if_true]

theorem laneFold_wait (h : Solo i s l) {w : Wait} (effect : f l s = (s1, .wait w)) : laneFold i f s = .next (soloWaits i s l w s1) := by
  have issues : issueInstead i s = none := h.issues
  simp only [laneFold, issues, lanes_of_solo h, List.foldl_cons, List.foldl_nil, foldLane, h.alive, h.guard, effect, liveRaises,
    List.filter_nil, deliver_nil, soloWaits, Bool.false_eq_true, if_false, if_true]

end

/-! ## What is done when the thread has issued -/

theorem cur_issued (u : Thread) (step stall : Nat) (pc : Word) (r : RegRef) : (u.issued step stall pc).cur r = u.cur r := by
  cases r <;> rfl

theorem sets_nil (t : Thread) : Sets t t [] := ⟨nofun, fun _ _ => rfl⟩

theorem done_issued {i : Instr} {s : State} {u old : Thread} {ws : List (RegRef × Word)} (rest : u.noRegs = old.noRegs)
    (sets : Sets old u ws) :
    Done i s (u.issued (s.core s.curWarp.core).step (ctlOf i).stall.val (nextPc i old)) old ws := by
  obtain ⟨written, kept⟩ := sets
  exact ⟨⟨rfl, rfl, rfl, rfl⟩, rest, fun p hp => (cur_issued ..).trans (written p hp), fun r hr => (cur_issued ..).trans (kept r hr)⟩

end Sys2Proof.Proofs
end


-- ==== Sys2Proof/Proofs/ScratchSpaces.lean ====
section
/-! PROOFS. The scratch spaces (R87, R94): what a byte reads and which granules are full after a write of bytes and after a change of a
tag, which addresses name bytes that are there, and what a scratch operation leaves alone. -/

namespace Sys2Proof.Proofs

open Sys2Proof Sys2Proof.Machine Sys2Proof.Claims

-- One proof after another: proofs run side by side over a text of this length need more threads than the check has memory for.
set_option Elab.async false

/-! ## Bytes put into a table -/

theorem placed_cons (off : Nat) (b : Byte) (bs : List Byte) : placed off (b :: bs) = (off, b) :: placed (off + 1) bs := by
  simp [placed, addrs, List.range_succ_eq_map, Function.comp_def, Nat.add_assoc, Nat.add_comm 1]

theorem tgetD_putBytes (t : Tbl Byte) (off o : Nat) (bs : List Byte) (d : Byte) :
    tgetD (putBytes t off bs) o d = (if off ≤ o then bs[o - off]? else none).getD (tgetD t o d) := by
  induction bs generalizing t off with
  | nil => simp [putBytes, placed, addrs]
  | cons b bs ih =>
    have step : putBytes t off (b :: bs) = putBytes (tset t off b) (off + 1) bs := by rw [putBytes, placed_cons]; rfl
    rw [step, ih, tgetD_tset]
    rcases Nat.lt_trichotomy o off with low | rfl | high
    · rw [if_neg (by omega), if_neg (by omega), if_neg (by omega)]
    · rw [if_neg (by omega), if_pos rfl, if_pos (Nat.le_refl o), Nat.sub_self]
      rfl
    · rw [if_pos (by omega), if_neg (by omega), if_pos (by omega), show o - off = o - (off + 1) + 1 by omega, List.getElem?_cons_succ]

/-- A byte that a write covers is the one written. -/
theorem tgetD_putBytes_in (t : Tbl Byte) (off : Nat) {j : Nat} (bs : List Byte) (d : Byte) (h : j < bs.length) :
    tgetD (putBytes t off bs) (off + j) d = (bs[j]?).getD d := by
  rw [tgetD_putBytes, if_pos (Nat.le_add_right ..), Nat.add_sub_cancel_left, List.getElem?_eq_getElem h]
  rfl

theorem tgetD_putBytes_out (t : Tbl Byte) {off o : Nat} {bs : List Byte} (d : Byte) (h : o < off ∨ off + bs.length ≤ o) :
    tgetD (putBytes t off bs) o d = tgetD t o d := by
  rw [tgetD_putBytes]
  split
  · rw [List.getElem?_eq_none (by omega)]
    rfl
  · rfl

/-! ## Numbers in an ascending list -/

theorem mem_insNat {n m : Nat} {ns : List Nat} : m ∈ insNat n ns ↔ m = n ∨ m ∈ ns := by
  induction ns with
  | nil => simp [insNat]
  | cons k r ih =>
    simp only [insNat]
    split
    · simp
    · split
      · simp_all
      · simp only [List.mem_cons, ih]
        tauto

/-- The granules that are full once one is filled or emptied. -/
def retagged (g : Nat) (full : Bool) (ts : List Nat) : List Nat := if full then insNat g ts else ts.filter (· != g)

theorem contains_retagged_same (g : Nat) (full : Bool) (ts : List Nat) : (retagged g full ts).contains g = full := by
  cases full with
  | true => exact List.contains_iff_mem.mpr (mem_insNat.mpr (.inl rfl))
  | false => simp [retagged]

theorem contains_retagged_other {g m : Nat} (full : Bool) (ts : List Nat) (h : m ≠ g) : (retagged g full ts).contains m = ts.contains m := by
  rw [Bool.eq_iff_iff, List.contains_iff_mem, List.contains_iff_mem]
  cases full with
  | true => simp [retagged, mem_insNat, h]
  | false => simp [retagged, h]

/-! ## The spaces -/

/-- A space that is there: its block, where it is one's. -/
def Present (s : State) : ScrId → Prop
  | .block b => (tget s.blocks b).isSome = true
  | .die _ _ => True

section
variable {s t : State}

theorem scrByte_congr (blocks : t.blocks = s.blocks) (tenants : t.tenants = s.tenants) (j : ScrId) (o : Nat) :
    t.scrByte j o = s.scrByte j o := by
  cases j <;> simp only [State.scrByte, State.block, State.tenant, blocks, tenants]

theorem tagFull_congr (blocks : t.blocks = s.blocks) (tenants : t.tenants = s.tenants) (j : ScrId) (o : Nat) :
    t.tagFull j o = s.tagFull j o := by
  cases j <;> simp only [State.tagFull, State.scrTags, State.block, State.tenant, blocks, tenants]

theorem present_congr (blocks : t.blocks = s.blocks) {id : ScrId} (h : Present s id) : Present t id := by
  cases id with
  | block b => exact (congrArg (fun q => (tget q b).isSome = true) blocks).mpr h
  | die _ _ => trivial

/-! ## A write of bytes -/

theorem scrByte_scrWrite_in (id : ScrId) (off : Nat) {j : Nat} (bs : List Byte) (there : Present s id) (h : j < bs.length) :
    (s.scrWrite id off bs).scrByte id (off + j) = (bs[j]?).getD 0 := by
  cases id with
  | block b =>
    rw [State.scrWrite, State.scrByte, block_modBlock, if_pos ⟨rfl, there⟩]
    exact tgetD_putBytes_in _ _ _ _ h
  | die u d =>
    rw [State.scrWrite, State.scrByte, State.tenant_modTenant]
    by_cases zero : d = 0
    · rw [if_pos zero, if_pos zero]
      exact tgetD_putBytes_in _ _ _ _ h
    · rw [if_neg zero, if_neg zero]
      exact tgetD_putBytes_in _ _ _ _ h

theorem scrByte_scrWrite_out {id j : ScrId} {off o : Nat} {bs : List Byte} (h : ¬ sameSpace j id ∨ o < off ∨ off + bs.length ≤ o) :
    (s.scrWrite id off bs).scrByte j o = s.scrByte j o := by
  cases id with
  | block b =>
    cases j with
    | block a =>
      rw [State.scrWrite, State.scrByte, block_modBlock]
      split
      · rename_i own
        rw [own.1, State.scrByte]
        exact tgetD_putBytes_out _ _ (h.resolve_left fun other => other own.1)
      · rfl
    | die _ _ => rfl
  | die u d =>
    cases j with
    | block _ => rfl
    | die v e =>
      rw [State.scrWrite, State.scrByte, modTenant_tenant, State.scrByte]
      by_cases own : v = u
      · subst v
        rw [if_pos rfl]
        have out : (d = 0 ↔ e = 0) → o < off ∨ off + bs.length ≤ o := fun side => h.resolve_left fun other => other ⟨rfl, side.symm⟩
        by_cases zero : d = 0 <;> by_cases zero' : e = 0
        · rw [if_pos zero, if_pos zero', if_pos zero']
          exact tgetD_putBytes_out _ _ (out (by simp [zero, zero']))
        · rw [if_pos zero, if_neg zero', if_neg zero']
        · rw [if_neg zero, if_pos zero', if_pos zero']
        · rw [if_neg zero, if_neg zero', if_neg zero']
          exact tgetD_putBytes_out _ _ (out (by simp [zero, zero']))
      · rw [if_neg own]

theorem tagFull_scrWrite (id j : ScrId) (off o : Nat) (bs : List Byte) : (s.scrWrite id off bs).tagFull j o = s.tagFull j o := by
  have tags : (s.scrWrite id off bs).scrTags j = s.scrTags j := by
    cases id with
    | block b =>
      cases j with
      | block a =>
        rw [State.scrWrite, State.scrTags, block_modBlock]
        split
        · rename_i own
          rw [own.1]
          rfl
        · rfl
      | die _ _ => rfl
    | die u d =>
      cases j with
      | block _ => rfl
      | die v e =>
        rw [State.scrWrite, State.scrTags, modTenant_tenant, State.scrTags]
        by_cases own : v = u
        · subst v
          rw [if_pos rfl]
          by_cases zero : d = 0
          · rw [if_pos zero]
          · rw [if_neg zero]
        · rw [if_neg own]
  rw [State.tagFull, tags, State.tagFull]

theorem present_scrWrite {id j : ScrId} {off : Nat} {bs : List Byte} (there : Present s j) : Present (s.scrWrite id off bs) j := by
  cases j with
  | die _ _ => trivial
  | block a =>
    cases id with
    | die _ _ => exact there
    | block b =>
      simp only [Present, State.scrWrite, blocks_modBlock, tget_tmod]
      split
      · rwa [Option.isSome_map]
      · exact there

/-! ## A tag -/

theorem setTag_block (b off : Nat) (full : Bool) :
    s.setTag (.block b) off full = s.modBlock b fun k => { k with tags := retagged (off / 16) full k.tags } := rfl

theorem setTag_die (u d off : Nat) (full : Bool) :
    s.setTag (.die u d) off full = s.modTenant u fun k => if d = 0 then { k with tags0 := retagged (off / 16) full k.tags0 }
      else { k with tags1 := retagged (off / 16) full k.tags1 } := rfl

theorem tagFull_setTag_same (id : ScrId) (off : Nat) (full : Bool) (there : Present s id) :
    (s.setTag id off full).tagFull id off = full := by
  cases id with
  | block b =>
    rw [setTag_block, State.tagFull, State.scrTags, block_modBlock, if_pos ⟨rfl, there⟩]
    exact contains_retagged_same ..
  | die u d =>
    rw [setTag_die, State.tagFull, State.scrTags, State.tenant_modTenant]
    by_cases zero : d = 0
    · rw [if_pos zero, if_pos zero]
      exact contains_retagged_same ..
    · rw [if_neg zero, if_neg zero]
      exact contains_retagged_same ..

theorem tagFull_setTag_other {id j : ScrId} {off o : Nat} (full : Bool) (h : ¬ sameSpace j id ∨ o / 16 ≠ off / 16) :
    (s.setTag id off full).tagFull j o = s.tagFull j o := by
  cases id with
  | block b =>
    cases j with
    | block a =>
      rw [setTag_block, State.tagFull, State.scrTags, block_modBlock]
      split
      · rename_i own
        rw [own.1]
        exact contains_retagged_other _ _ (h.resolve_left fun other => other own.1)
      · rfl
    | die _ _ => rfl
  | die u d =>
    cases j with
    | block _ => rfl
    | die v e =>
      rw [setTag_die, State.tagFull, State.scrTags, modTenant_tenant]
      by_cases own : v = u
      · subst v
        rw [if_pos rfl, State.tagFull, State.scrTags]
        have out : (d = 0 ↔ e = 0) → o / 16 ≠ off / 16 := fun side => h.resolve_left fun other => other ⟨rfl, side.symm⟩
        by_cases zero : d = 0 <;> by_cases zero' : e = 0
        · rw [if_pos zero, if_pos zero', if_pos zero']
          exact contains_retagged_other _ _ (out (by simp [zero, zero']))
        · rw [if_pos zero, if_neg zero', if_neg zero']
        · rw [if_neg zero, if_pos zero', if_pos zero']
        · rw [if_neg zero, if_neg zero', if_neg zero']
          exact contains_retagged_other _ _ (out (by simp [zero, zero']))
      · rw [if_neg own]
        rfl

theorem scrByte_setTag (id j : ScrId) (off o : Nat) (full : Bool) : (s.setTag id off full).scrByte j o = s.scrByte j o := by
  cases id with
  | block b =>
    cases j with
    | block a =>
      rw [setTag_block, State.scrByte, block_modBlock]
      split
      · rename_i own
        rw [own.1]
        rfl
      · rfl
    | die _ _ => rfl
  | die u d =>
    cases j with
    | block _ => rfl
    | die v e =>
      rw [setTag_die, State.scrByte, modTenant_tenant, State.scrByte]
      by_cases own : v = u
      · subst v
        rw [if_pos rfl]
        by_cases zero : d = 0
        · rw [if_pos zero]
        · rw [if_neg zero]
      · rw [if_neg own]

/-! ## Addresses -/

theorem present_of_sBytes {b : Nat} (h : 0 < (s.block b).sBytes ∨ 0 < (s.block b).pBytes) : Present s (.block b) := by
  rw [Present]
  rw [State.block] at h
  cases held : tget s.blocks b with
  | some k => rfl
  | none => simp [held] at h

/-- An address that passes names bytes that are there. -/
theorem present_of_scrAddr {w : Warp} {l : Nat} {sp : Space} {e : Word} {len : Nat} {id : ScrId} {off : Nat} (some_ : 0 < len)
    (h : s.scrAddr w l sp e len = .ok (id, off)) : Present s id := by
  have room {b limit : Nat} (fits : (wbits e 0 32 % len == 0 && decide (wbits e 0 32 + len ≤ limit)) = true)
      (of : limit = (s.block b).sBytes ∨ limit = (s.block b).pBytes) : Present s (.block b) := by
    simp only [Bool.and_eq_true, decide_eq_true_eq] at fits
    exact present_of_sBytes (by omega)
  cases sp with
  | prv =>
    simp only [State.scrAddr] at h
    split at h
    · rename_i fits
      obtain ⟨rfl, -⟩ := Prod.mk.inj (Except.ok.inj h)
      exact room fits.2 (.inr rfl)
    · nomatch h
  | core =>
    simp only [State.scrAddr] at h
    split at h
    · rename_i fits
      obtain ⟨rfl, -⟩ := Prod.mk.inj (Except.ok.inj h)
      exact room fits.2 (.inl rfl)
    · nomatch h
  | clu =>
    simp only [State.scrAddr] at h
    split at h
    · nomatch h
    · split at h
      · split at h
        · rename_i fits
          obtain ⟨rfl, -⟩ := Prod.mk.inj (Except.ok.inj h)
          exact room fits (.inl rfl)
        · nomatch h
      · nomatch h
  | die =>
    simp only [State.scrAddr] at h
    split at h
    · nomatch h
    · split at h
      · nomatch h
      · split at h
        · obtain ⟨rfl, -⟩ := Prod.mk.inj (Except.ok.inj h)
          trivial
        · nomatch h

end

end Sys2Proof.Proofs
end


-- ==== Sys2Proof/Proofs/ScratchFrames.lean ====
section
/-! PROOFS. What a scratch instruction of one thread leaves alone, operation by operation, and the two ways in which one ends. -/

namespace Sys2Proof.Proofs

open Sys2Proof Sys2Proof.Machine Sys2Proof.Claims

-- One proof after another: proofs run side by side over a text of this length need more threads than the check has memory for.
set_option Elab.async false

/-! ## What a scratch instruction leaves alone -/

section
variable {s t u : State} {l : Nat}

theorem cur_of_blankScratch (h : blankScratch t = blankScratch s) : t.cur = s.cur := by
  injection h

theorem scratchFrame_refl (s : State) (l : Nat) : ScratchFrame s s l :=
  ⟨fun _ _ _ => rfl, fun _ => rfl, fun _ => rfl, rfl, fun _ => rfl, fun _ => rfl, fun _ => rfl, rfl⟩

theorem scratchFrame_trans (h : ScratchFrame s t l) (k : ScratchFrame t u l) : ScratchFrame s u l where
  threads m v other := by
    have issuer : t.cur.warp = s.cur.warp := by rw [cur_of_blankScratch h.rest]
    rw [k.threads m v (by rwa [issuer]), h.threads m v other]
  warps m := (k.warps m).trans (h.warps m)
  cores c := (k.cores c).trans (h.cores c)
  rest := k.rest.trans h.rest
  blocks b := (k.blocks b).trans (h.blocks b)
  tenants v := (k.tenants v).trans (h.tenants v)
  memory := ⟨fun a => (k.memory.1 a).trans (h.memory.1 a), k.memory.2.trans h.memory.2⟩

theorem scratchFrame_modThread (s : State) (l : Nat) (f : Thread → Thread) : ScratchFrame s (s.modThread s.cur.warp l f) l where
  threads m v other := by
    by_cases own : m = s.cur.warp
    · subst m
      exact State.thread_modThread_lane _ _ _ (other.resolve_left fun h => h rfl)
    · exact State.thread_modThread_warp _ _ _ _ own
  warps m := by
    by_cases own : m = s.cur.warp
    · subst m
      rw [State.warp_modThread]
    · rw [State.warp_modThread_other _ _ _ own]
  cores _ := rfl
  rest := rfl
  blocks _ := rfl
  tenants _ := rfl
  memory := ⟨fun _ => rfl, rfl⟩

theorem scratchFrame_stallYield (i : Instr) (s t : State) (l : Nat) : ScratchFrame t (stallYield i s t) l where
  threads m v _ := stallYield_thread i s t m v
  warps m := congrArg (fun w : Warp => { w with threads := [] }) (stallYield_warp i s t m)
  cores := stallYield_core i s t
  rest := by rw [stallYield_parts]; rfl
  blocks b := by rw [stallYield_parts]
  tenants v := by rw [stallYield_parts]; rfl
  memory := by rw [stallYield_parts]; exact ⟨fun _ => rfl, rfl⟩

/-- A change of a block's scratch, its tags and its bad words. -/
theorem scratchFrame_modBlock (s : State) (l n : Nat) (f : Block → Block)
    (kept : ∀ b : Block, { f b with scratch := [], tags := [], errs := [] } = { b with scratch := [], tags := [], errs := [] }) :
    ScratchFrame s (s.modBlock n f) l where
  threads _ _ _ := rfl
  warps _ := rfl
  cores _ := rfl
  rest := rfl
  blocks k := by
    rw [blocks_modBlock, tget_tmod]
    split
    · rw [Option.map_map]
      exact congrArg (fun g => (tget s.blocks k).map g) (funext kept)
    · rfl
  tenants _ := rfl
  memory := ⟨fun _ => rfl, rfl⟩

/-- A change of a tenant's carves, their tags and their bad words. -/
theorem scratchFrame_modTenant (s : State) (l n : Nat) (f : Tenant → Tenant)
    (kept : ∀ u : Tenant, { f u with die0 := [], die1 := [], tags0 := [], tags1 := [], errs0 := [], errs1 := [] } =
      { u with die0 := [], die1 := [], tags0 := [], tags1 := [], errs0 := [], errs1 := [] }) :
    ScratchFrame s (s.modTenant n f) l where
  threads _ _ _ := rfl
  warps _ := rfl
  cores _ := rfl
  rest := rfl
  blocks _ := rfl
  tenants k := by
    rw [modTenant_tenant]
    split
    · subst k
      exact kept _
    · rfl
  memory := ⟨fun _ => rfl, rfl⟩

theorem scratchFrame_scrWrite (s : State) (l : Nat) (id : ScrId) (off : Nat) (bs : List Byte) :
    ScratchFrame s (s.scrWrite id off bs) l := by
  cases id with
  | block b => exact scratchFrame_modBlock s l b _ fun _ => rfl
  | die v d =>
    unfold State.scrWrite
    refine scratchFrame_modTenant s l v _ fun _ => ?_
    split <;> rfl

theorem scratchFrame_setTag (s : State) (l : Nat) (id : ScrId) (off : Nat) (full : Bool) :
    ScratchFrame s (s.setTag id off full) l := by
  cases id with
  | block b => exact scratchFrame_modBlock s l b _ fun _ => rfl
  | die v d =>
    unfold State.setTag
    refine scratchFrame_modTenant s l v _ fun _ => ?_
    split <;> rfl

@[simp] theorem warp_scrWrite (s : State) (id : ScrId) (off : Nat) (bs : List Byte) (m : Nat) : (s.scrWrite id off bs).warp m = s.warp m := by
  cases id <;> rfl

@[simp] theorem warp_setTag (s : State) (id : ScrId) (off : Nat) (full : Bool) (m : Nat) : (s.setTag id off full).warp m = s.warp m := by
  cases id <;> rfl

@[simp] theorem cur_scrWrite (s : State) (id : ScrId) (off : Nat) (bs : List Byte) : (s.scrWrite id off bs).cur = s.cur := by
  cases id <;> rfl

@[simp] theorem cur_setTag (s : State) (id : ScrId) (off : Nat) (full : Bool) : (s.setTag id off full).cur = s.cur := by
  cases id <;> rfl

@[simp] theorem thread_scrWrite (s : State) (id : ScrId) (off : Nat) (bs : List Byte) (m v : Nat) :
    (s.scrWrite id off bs).thread m v = s.thread m v := by rw [State.thread, warp_scrWrite, State.thread]

@[simp] theorem thread_setTag (s : State) (id : ScrId) (off : Nat) (full : Bool) (m v : Nat) :
    (s.setTag id off full).thread m v = s.thread m v := by rw [State.thread, warp_setTag, State.thread]

theorem sameMemory_scrWrite (s : State) (id : ScrId) (off : Nat) (bs : List Byte) : SameMemory s (s.scrWrite id off bs) :=
  (scratchFrame_scrWrite s 0 id off bs).memory

/-! ## How one ends -/

variable {i : Instr} {f : Nat → State → State × LaneOut}

/-- The thread issues, after an effect in the bank and on its registers. -/
theorem scratch_issues (solo : Solo i s l) (runs : exec i s = laneFold i f s) {s1 : State} (effect : f l s = (s1, .next))
    (frame : ScratchFrame s s1 l) (there : l < (s1.warp s.cur.warp).threads.length) {ws : List (RegRef × Word)}
    (rest : (s1.thread s.cur.warp l).noRegs = (s.thread s.cur.warp l).noRegs)
    (sets : Sets (s.thread s.cur.warp l) (s1.thread s.cur.warp l) ws) :
    ∃ t, exec i s = .next t ∧ ScratchFrame s t l ∧ t.blocks = s1.blocks ∧ t.tenants = s1.tenants ∧
      Done i s (t.thread s.cur.warp l) (s.thread s.cur.warp l) ws := by
  have issuer : s1.cur.warp = s.cur.warp := by rw [cur_of_blankScratch frame.rest]
  refine ⟨soloIssued i s l s1, runs.trans (laneFold_next solo effect), ?_, ?_, ?_, ?_⟩
  · refine scratchFrame_trans frame (scratchFrame_trans ?_ (scratchFrame_stallYield i s _ l))
    rw [← issuer]
    exact scratchFrame_modThread s1 l _
  · rw [soloIssued, stallYield_parts]; rfl
  · rw [soloIssued, stallYield_parts]; rfl
  · rw [soloIssued, stallYield_thread, State.thread_modThread _ _ _ _ there]
    exact done_issued rest sets

/-- The thread waits, before any effect. -/
theorem scratch_waits (solo : Solo i s l) (runs : exec i s = laneFold i f s) {w : Wait} (effect : f l s = (s, .wait w)) :
    ∃ t, exec i s = .next t ∧ ScratchFrame s t l ∧ (∀ j o, t.scrByte j o = s.scrByte j o ∧ t.tagFull j o = s.tagFull j o) ∧
      t.thread s.cur.warp l = { s.thread s.cur.warp l with wait := w } := by
  have blocks : (soloWaits i s l w s).blocks = s.blocks := by rw [soloWaits, stallYield_parts]; rfl
  have tenants : (soloWaits i s l w s).tenants = s.tenants := by rw [soloWaits, stallYield_parts]; rfl
  refine ⟨soloWaits i s l w s, runs.trans (laneFold_wait solo effect), ?_, fun j o => ?_, ?_⟩
  · exact scratchFrame_trans (scratchFrame_modThread s l _) (scratchFrame_stallYield i s _ l)
  · exact ⟨scrByte_congr blocks tenants j o, tagFull_congr blocks tenants j o⟩
  · rw [soloWaits, stallYield_thread, State.thread_modThread _ _ _ _ solo.lane.2]

/-! ## An empty store queue -/

/-- A queue that holds nothing has drained. -/
theorem drainAll_empty {n : Nat} (empty : (s.warp n).storeQ = []) : s.drainAll n = .ok s := by
  have clear : (s.warp n).storeQ = [] ∧ ((s.warp n).live = [] → (s.warp n).live = []) := ⟨empty, id⟩
  rw [State.drainAll, empty]
  exact if_pos clear

theorem forwarded_empty (pa : Option Nat) (so : Option (ScrId × Nat)) : forwarded [] pa so = .none := rfl

theorem loadScr_empty {n : Nat} (empty : (s.warp n).storeQ = []) (id : ScrId) (off len : Nat) :
    s.loadScr n id off len = some ((addrs off len).map (s.scrByte id)) := by
  simp [State.loadScr, empty, forwarded_empty, Function.comp_def]

/-- A load of bytes none of which is bad reads no bad one. -/
theorem loadsBadScr_of_sound {id : ScrId} {off len : Nat} (sound : s.scrBad id off len = false) (n : Nat) :
    s.loadsBadScr n id off len = false := by
  rw [State.loadsBadScr, List.any_eq_false]
  rw [State.scrBad, List.any_eq_false] at sound
  intro o ho
  obtain ⟨j, hj, rfl⟩ := List.mem_map.mp ho
  have short := List.mem_range.mp hj
  have one : s.scrBad id (off + j) 1 = false := by
    rw [State.scrBad, List.any_eq_false]
    intro e he
    have := sound e he
    simp only [decide_eq_true_eq] at this ⊢
    omega
  rw [one, Bool.and_false]
  exact Bool.false_ne_true

end

end Sys2Proof.Proofs
end


-- ==== Sys2Proof/Proofs/ScratchLoads.lean ====
section
/-! PROOFS. Which bytes a scratch address names (R88), and what a load of them writes in its thread (R95, R97, R368). -/

namespace Sys2Proof.Proofs

open Sys2Proof Sys2Proof.Machine Sys2Proof.Claims

-- One proof after another: proofs run side by side over a text of this length need more threads than the check has memory for.
set_option Elab.async false

/-! ## Addresses -/

theorem fits_iff (off len limit : Nat) : (off % len == 0 && decide (off + len ≤ limit)) = true ↔ off % len = 0 ∧ off + len ≤ limit := by
  simp

/-- The fields of E[63:32] by its number. -/
theorem wbits_high (e : Word) :
    wbits e 32 32 = e.toNat / 2 ^ 32 ∧ (wbits e 33 31 = 0 ↔ e.toNat / 2 ^ 32 < 2) ∧ (wbits e 34 30 = 0 ↔ e.toNat / 2 ^ 32 < 4) ∧
    (e.toNat / 2 ^ 32 < 4 → wbits e 32 2 = e.toNat / 2 ^ 32) ∧ (e.toNat / 2 ^ 32 < 2 → wbits e 32 1 = e.toNat / 2 ^ 32) := by
  have := e.isLt
  simp only [wbits]
  omega

theorem scratchAddresses : ScratchAddresses := by
  intro s w l e len _
  obtain ⟨all, above1, above3, two, one⟩ := wbits_high e
  refine ⟨?core, ?prv, fun k low here => ?clu, fun bad => ?noBlock, fun high => ?farDie, fun d low here => ?die, fun low none => ?noDie⟩
  case core =>
    simp only [State.scrAddr, wbits_low, all, fits_iff]
    rfl
  case prv =>
    simp only [State.scrAddr, wbits_low, all, fits_iff]
    rfl
  case clu =>
    simp only [State.scrAddr, wbits_low, fits_iff]
    rw [if_neg (not_not.mpr (above3.mpr low)), two low, here]
    rfl
  case noBlock =>
    simp only [State.scrAddr]
    by_cases low : e.toNat / 2 ^ 32 < 4
    · rw [if_neg (not_not.mpr (above3.mpr low)), two low, bad.resolve_left (by omega)]
      rfl
    · rw [if_pos (mt above3.mp low)]
      rfl
  case farDie =>
    simp only [State.scrAddr]
    rw [if_pos (mt above1.mp (by omega))]
    rfl
  case die =>
    simp only [State.scrAddr, wbits_low, fits_iff]
    rw [if_neg (not_not.mpr (above1.mpr low)), one low, dieEntry, here]
    simp only [carveBytes, Nat.mul_comm _ 8388608]
    rfl
  case noDie =>
    simp only [State.scrAddr]
    rw [if_neg (not_not.mpr (above1.mpr low)), one low, dieEntry, none]

/-! ## Registers written -/

theorem cur_writeLat (t : Thread) (x : LaneCx) (lat : Machine.Lat) (r k : RegRef) (v : Word) :
    (t.writeLat x lat r v).cur k = (t.put r v).cur k := by
  obtain h | ⟨ps, h⟩ | ⟨-, c, -, h⟩ := writeLat_cases t x lat r v
  · rw [h]
  · rw [h]
    exact cur_pend _ _ _ _
  · rw [h]
    exact cur_early _ _ _

/-- One more register written, which is not among those before. -/
theorem sets_writeLat {old u : Thread} {ws : List (RegRef × Word)} (x : LaneCx) (lat : Machine.Lat) {r : RegRef} {v : Word} (sets : Sets old u ws)
    (new : ∀ p ∈ ws, p.1 ≠ r) (takes : (u.put r v).cur r = v) (pred : ∀ n, r = .q n → n < 7) :
    Sets old (u.writeLat x lat r v) (ws ++ [(r, v)]) := by
  obtain ⟨written, kept⟩ := sets
  constructor
  · intro p hp
    rw [cur_writeLat]
    rcases List.mem_append.mp hp with before | this
    · rw [cur_put_other _ _ (new p before) pred]
      exact written p before
    · obtain rfl := List.mem_singleton.mp this
      exact takes
  · intro k hk
    rw [cur_writeLat, cur_put_other _ _ (fun e => hk (r, v) (by simp) e.symm) pred]
    exact kept k fun p hp => hk p (List.mem_append_left _ hp)

theorem sets_writeD (t : Thread) (x : LaneCx) (lat : Machine.Lat) (d : Dst) (v : Word) :
    Sets t (t.writeD x lat d v) ((dstReg d).toList.map fun r => (r, v)) := by
  cases d with
  | zero => exact sets_nil t
  | g n => exact sets_writeLat x lat (sets_nil t) nofun (cur_put_g t _ v) nofun

theorem sets_writeQ (t : Thread) (x : LaneCx) (lat : Machine.Lat) (q : Pred) (b : Bool) : Sets t (t.writeQ x lat q b) (predDest q b) := by
  rw [Thread.writeQ, predDest, predReg]
  split
  · exact sets_nil t
  · have small : q.val < 7 := by have := q.isLt; omega
    refine sets_writeLat x lat (sets_nil t) nofun (cur_put_q t q.val b small) ?_
    rintro _ ⟨⟩
    exact small

theorem writeHi_noRegs (t : Thread) (x : LaneCx) (lat : Machine.Lat) (d : Dst) (v : Word) : (t.writeHi x lat d v).noRegs = t.noRegs := by
  cases d with
  | zero => rfl
  | g n => exact writeLat_noRegs ..

theorem writeLoad_noRegs (t : Thread) (x : LaneCx) (lat : Machine.Lat) (ty : MTy) (d : Dst) (bs : List Byte) :
    (t.writeLoad x lat ty d bs).noRegs = t.noRegs := by
  cases ty with
  | b128 => exact (writeHi_noRegs ..).trans (writeD_noRegs ..)
  | ty e => exact writeD_noRegs ..

/-! ## What a load gives -/

theorem mBytes_eq_size (ty : MTy) : mBytes ty = size ty := by cases ty <;> rfl

/-- An access of a type that loads and stores take has bytes. -/
theorem size_pos {ty : MTy} {even : Bool} (taken : memOk ty even = true) : 0 < size ty := by
  cases ty with
  | b128 => exact Nat.succ_pos _
  | ty t =>
    have plain : t.plainTy = true := taken
    revert plain
    cases t <;> decide

theorem length_addrs (pa n : Nat) : (addrs pa n).length = n := by rw [addrs, List.length_map, List.length_range]

theorem take_addrs (f : Nat → Byte) (pa : Nat) {n m : Nat} (h : n ≤ m) : ((addrs pa m).map f).take n = (addrs pa n).map f := by
  rw [addrs, List.map_map, ← List.map_take, List.take_range, Nat.min_eq_left h, addrs, List.map_map]

theorem drop_addrs (f : Nat → Byte) (pa n m : Nat) : ((addrs pa (n + m)).map f).drop n = (addrs (pa + n) m).map f := by
  refine List.ext_getElem? fun j => ?_
  rw [List.getElem?_drop, List.getElem?_map, List.getElem?_map, addrs, addrs, List.getElem?_map, List.getElem?_map]
  by_cases short : j < m
  · rw [List.getElem?_range short, List.getElem?_range (by omega)]
    simp [Nat.add_assoc]
  · rw [List.getElem?_eq_none (by rw [List.length_range]; omega), List.getElem?_eq_none (by rw [List.length_range]; omega)]
    rfl

theorem number_shift (f : Nat → Byte) (pa lo n : Nat) : number (fun j => f (pa + lo + j)) 0 n = number (fun j => f (pa + j)) lo n := by
  simp only [number, Nat.zero_add, Nat.add_assoc]

/-- The sign of a number of w bits, extended. -/
theorem wordOf_sext {w : Nat} (big : 0 < w) (n : Nat) : wordOf (sext w n) = (BitVec.ofNat w n).signExtend 64 := by
  rw [wordOf, sext, BitVec.signExtend, BitVec.toInt_eq_toNat_cond, BitVec.toNat_ofNat]
  have half : 2 * 2 ^ (w - 1) = 2 ^ w := by
    rw [← Nat.pow_succ', Nat.succ_eq_add_one, Nat.sub_add_cancel big]
  congr 1
  split <;> split <;> omega

/-- A load's registers, from bytes that follow each other. -/
theorem sets_writeLoad (t : Thread) (x : LaneCx) (lat : Machine.Lat) (ty : MTy) (d : Dst) (f : Nat → Byte) (off : Nat) :
    Sets t (t.writeLoad x lat ty d ((addrs off (size ty)).map f)) (loadDests d ty fun j => f (off + j)) := by
  cases d with
  | zero => cases ty <;> exact sets_nil t
  | g n =>
    cases ty with
    | b128 =>
      have low : wordOfBytes (((addrs off 16).map f).take 8) = BitVec.ofNat 64 (number (fun j => f (off + j)) 0 8) := by
        rw [take_addrs f off (by decide), wordOfBytes, leNat_addrs]
      have high : wordOfBytes (((addrs off 16).map f).drop 8) = BitVec.ofNat 64 (number (fun j => f (off + j)) 8 8) := by
        rw [drop_addrs f off 8 8, wordOfBytes, leNat_addrs, number_shift]
      simp only [Thread.writeLoad, size, low, high, loadDests]
      refine sets_writeLat x lat (sets_writeD t x lat (.g n) _) ?_ (cur_put_g _ _ _) nofun
      simp [dstReg]
    | ty e =>
      have value : (if tySigned e then wordOf (sext (tyWidth e) (leNat ((addrs off (tyWidth e / 8)).map f)))
          else wordOfBytes ((addrs off (tyWidth e / 8)).map f)) =
          if tySigned e then (BitVec.ofNat (tyWidth e) (number (fun j => f (off + j)) 0 (tyWidth e / 8))).signExtend 64
          else BitVec.ofNat 64 (number (fun j => f (off + j)) 0 (tyWidth e / 8)) := by
        rw [wordOfBytes, leNat_addrs, wordOf_sext (by cases e <;> decide)]
      simp only [Thread.writeLoad, size, value, loadDests]
      exact sets_writeD t x lat (.g n) _

/-! ## Loads -/

section
variable {sp : Space} {d : Dst} {a : Src} {imm : BitVec 16} {ty : MTy} {tag : Tag} {s : State} {l off : Nat} {id : ScrId}

theorem exec_scrLoad {i : Instr} (form : scrLoadForm i = some (sp, d, a, imm, ty, tag)) (s : State) :
    exec i s = laneFold i (scrLoadLane sp d a imm ty tag) s := by
  cases i <;> simp only [scrLoadForm, Option.some.injEq, Prod.mk.injEq, reduceCtorEq] at form
  all_goals
    obtain ⟨rfl, rfl, rfl, rfl, rfl, rfl⟩ := form
    rfl

theorem memOk_of_scrLoad {i : Instr} (form : scrLoadForm i = some (sp, d, a, imm, ty, tag)) (wf : i.wf = true) :
    memOk ty d.even = true := by
  cases i <;> simp only [scrLoadForm, Option.some.injEq, Prod.mk.injEq, reduceCtorEq] at form
  all_goals
    obtain ⟨rfl, rfl, rfl, rfl, rfl, rfl⟩ := form
    exact wf

/-- The state after the registers of a load are written. -/
def afterLoad (s : State) (l : Nat) (sp : Space) (d : Dst) (ty : MTy) (id : ScrId) (off : Nat) : State :=
  s.modThread s.cur.warp l fun t => t.writeLoad (s.cx s.cur.warp l) (s.scrLat (s.cx s.cur.warp l).w sp id) ty d
    ((addrs off (size ty)).map (s.scrByte id))

theorem drains_before (tag : Tag) (drained : s.curWarp.storeQ = []) :
    (if tag = .plain then .ok s else s.drainAll s.cur.warp : Except State State) = .ok s := by
  rw [drainAll_empty drained, ite_self]

theorem scrLoadLane_reads (drained : s.curWarp.storeQ = [])
    (named : s.scrAddr s.curWarp l sp ((s.cx s.cur.warp l).ea a imm) (size ty) = .ok (id, off))
    (may : (tagNeeds tag && !s.tagFull id off) = false) (sound : s.scrBad id off (size ty) = false) :
    scrLoadLane sp d a imm ty tag l s =
      (if tagClears tag then (afterLoad s l sp d ty id off).setTag id off false else afterLoad s l sp d ty id off, .next) := by
  have place : s.scrAddr (s.cx s.cur.warp l).w l sp ((s.cx s.cur.warp l).ea a imm) (size ty) = .ok (id, off) := named
  simp only [scrLoadLane, place, drains_before tag drained, may, loadScr_empty drained, mBytes_eq_size,
    loadsBadScr_of_sound sound, Bool.false_eq_true, if_false]
  rfl

theorem scrLoadLane_waits (drained : s.curWarp.storeQ = [])
    (named : s.scrAddr s.curWarp l sp ((s.cx s.cur.warp l).ea a imm) (size ty) = .ok (id, off))
    (needs : tagNeeds tag = true) (empty : s.tagFull id off = false) :
    scrLoadLane sp d a imm ty tag l s = (s, .wait (.tag id (off / 16) true)) := by
  have place : s.scrAddr (s.cx s.cur.warp l).w l sp ((s.cx s.cur.warp l).ea a imm) (size ty) = .ok (id, off) := named
  simp only [scrLoadLane, mBytes_eq_size, place, drains_before tag drained, needs, empty, Bool.not_false, Bool.and_self, if_true]

theorem bytesKept_nothing {t : State} (bytes : ∀ j o, t.scrByte j o = s.scrByte j o) : BytesKept s t id off 0 := fun j o _ => bytes j o

/-- A load that meets its tag condition. -/
theorem scratchLoad_reads {i : Instr} (form : scrLoadForm i = some (sp, d, a, imm, ty, tag)) (wf : i.wf = true) (solo : Solo i s l)
    (drained : s.curWarp.storeQ = []) (named : s.scrAddr s.curWarp l sp ((s.cx s.cur.warp l).ea a imm) (size ty) = .ok (id, off))
    (may : (tagNeeds tag && !s.tagFull id off) = false) (sound : s.scrBad id off (size ty) = false) :
    ∃ t, exec i s = .next t ∧ ScratchFrame s t l ∧ ScratchKept s t id off 0 ∧
      t.tagFull id off = (s.tagFull id off && !tagClears tag) ∧
      Done i s (t.thread s.cur.warp l) (s.thread s.cur.warp l) (loadDests d ty fun j => s.scrByte id (off + j)) := by
  have there : Present (afterLoad s l sp d ty id off) id :=
    present_congr rfl (present_of_scrAddr (size_pos (memOk_of_scrLoad form wf)) named)
  have thread : (afterLoad s l sp d ty id off).thread s.cur.warp l = (s.thread s.cur.warp l).writeLoad _ _ ty d _ :=
    State.thread_modThread s _ _ _ solo.lane.2
  have size_ : l < ((afterLoad s l sp d ty id off).warp s.cur.warp).threads.length := by
    rw [afterLoad, State.warp_modThread, length_lmod]
    exact solo.lane.2
  have frame : ScratchFrame s (afterLoad s l sp d ty id off) l := scratchFrame_modThread s l _
  have rest := writeLoad_noRegs (s.thread s.cur.warp l) (s.cx s.cur.warp l) (s.scrLat (s.cx s.cur.warp l).w sp id) ty d
    ((addrs off (size ty)).map (s.scrByte id))
  have sets := sets_writeLoad (s.thread s.cur.warp l) (s.cx s.cur.warp l) (s.scrLat (s.cx s.cur.warp l).w sp id) ty d (s.scrByte id) off
  have effect := scrLoadLane_reads (d := d) drained named may sound
  by_cases clears : tagClears tag = true
  · rw [if_pos clears] at effect
    obtain ⟨t, runs, framed, blocks, tenants, done⟩ := scratch_issues solo (exec_scrLoad form s) effect
      (scratchFrame_trans frame (scratchFrame_setTag _ l id off false)) (by rwa [warp_setTag]) (by rwa [thread_setTag, thread])
      (by rwa [thread_setTag, thread])
    refine ⟨t, runs, framed, ⟨bytesKept_nothing fun j o => ?_, fun j o other => ?_⟩, ?_, done⟩
    · rw [scrByte_congr blocks tenants, scrByte_setTag]
      exact scrByte_congr rfl rfl j o
    · rw [tagFull_congr blocks tenants, tagFull_setTag_other _ other]
      exact tagFull_congr rfl rfl j o
    · rw [tagFull_congr blocks tenants, tagFull_setTag_same _ _ _ there, clears, Bool.not_true, Bool.and_false]
  · rw [if_neg clears] at effect
    obtain ⟨t, runs, framed, blocks, tenants, done⟩ := scratch_issues solo (exec_scrLoad form s) effect frame size_
      (by rwa [thread]) (by rwa [thread])
    refine ⟨t, runs, framed, ⟨bytesKept_nothing (scrByte_congr blocks tenants), fun j o _ => tagFull_congr blocks tenants j o⟩, ?_, done⟩
    rw [tagFull_congr blocks tenants, Bool.eq_false_iff.mpr clears, Bool.not_false, Bool.and_true]
    exact tagFull_congr rfl rfl id off

theorem scratchLoads : ScratchLoads := by
  intro i sp d a imm ty tag s l id off form wf solo drained n named
  constructor
  · intro may sound
    have clears : tagClears tag = (tag == .clr || tag == .wfclr) := by cases tag <;> rfl
    rw [← clears]
    refine scratchLoad_reads form wf solo drained named ?_ sound
    rcases may with (rfl | rfl) | full
    · rfl
    · rfl
    · rw [full, Bool.not_true, Bool.and_false]
  · intro waits empty
    refine scratch_waits solo (exec_scrLoad form s) (scrLoadLane_waits drained named ?_ empty)
    rcases waits with rfl | rfl <;> rfl

end

end Sys2Proof.Proofs
end


-- ==== Sys2Proof/Proofs/ScratchStores.lean ====
section
/-! PROOFS. Stores to scratch (R95, R98, R108, R407): what enters the warp's queue, what leaves it, and a store that waits for an empty
granule. -/

namespace Sys2Proof.Proofs

open Sys2Proof Sys2Proof.Machine Sys2Proof.Claims

-- One proof after another: proofs run side by side over a text of this length need more threads than the check has memory for.
set_option Elab.async false

/-! ## The bytes of a store -/

theorem length_dataBytes (x : LaneCx) (d : Src) (n : Nat) : (dataBytes x d n).length = n := by
  rw [dataBytes, List.length_map, List.length_range]

theorem getElem?_dataBytes (x : LaneCx) (d : Src) (n j : Nat) : (dataBytes x d n)[j]? = if j < n then some (dataByte x d j) else none := by
  rw [dataBytes, List.getElem?_map]
  split
  · rw [List.getElem?_range ‹_›]
    rfl
  · rw [List.getElem?_eq_none (by rw [List.length_range]; omega)]
    rfl

theorem length_leBytes (n v : Nat) : (leBytes n v).length = n := by
  induction n generalizing v with
  | zero => rfl
  | succ n ih => rw [leBytes, List.length_cons, ih]

theorem storeBytes_eq (x : LaneCx) (ty : MTy) (d : Src) : storeBytes x ty d = dataBytes x d (size ty) := by
  refine List.ext_getElem? fun j => ?_
  rw [getElem?_dataBytes]
  cases ty with
  | b128 =>
    rw [storeBytes, wordBytes, wordBytes, List.getElem?_append, length_leBytes]
    by_cases low : j < 8
    · rw [if_pos low, getElem?_leBytes, if_pos low, size, if_pos (by omega), dataByte, if_pos low, Nat.mod_eq_of_lt low]
    · rw [if_neg low, getElem?_leBytes, size, dataByte, if_neg low]
      by_cases high : j < 16
      · rw [if_pos (by omega), if_pos high, show j % 8 = j - 8 by omega]
      · rw [if_neg (by omega), if_neg high]
  | ty e =>
    have narrow : tyWidth e / 8 ≤ 8 := by cases e <;> decide
    rw [storeBytes, getElem?_leBytes, size]
    by_cases short : j < tyWidth e / 8
    · have low : j < 8 := by omega
      rw [if_pos short, if_pos short, dataByte, if_pos low, Nat.mod_eq_of_lt low]
    · rw [if_neg short, if_neg short]

section
variable {sp : Space} {d a : Src} {imm : BitVec 16} {ty : MTy} {we : Bool} {s : State} {l off : Nat} {id : ScrId} {i : Instr}

theorem exec_scrStore (form : scrStoreForm i = some (sp, d, a, imm, ty, we)) (s : State) :
    exec i s = scrStore i sp d a imm ty we s := by
  cases i <;> simp only [scrStoreForm, Option.some.injEq, Prod.mk.injEq, reduceCtorEq] at form
  all_goals
    obtain ⟨rfl, rfl, rfl, rfl, rfl, rfl⟩ := form
    rfl

theorem memOk_of_scrStore (form : scrStoreForm i = some (sp, d, a, imm, ty, we)) (wf : i.wf = true) : memOk ty d.even = true := by
  cases i <;> simp only [scrStoreForm, Option.some.injEq, Prod.mk.injEq, reduceCtorEq] at form
  all_goals
    obtain ⟨rfl, rfl, rfl, rfl, rfl, rfl⟩ := form
    exact wf

theorem guardTrue_of_solo (solo : Solo i s l) : guardTrue i s = [l] := by
  rw [guardTrue, lanes_of_solo solo, List.filter_singleton, solo.guard]
  rfl

/-- A bundle of one goes on where the queue has room for what it needs. -/
theorem exec_scrStore_room (form : scrStoreForm i = some (sp, d, a, imm, ty, we)) (solo : Solo i s l)
    (room : s.curWarp.storeQ.length + (if we then 0 else 1) ≤ 128) :
    exec i s = laneFold i (scrStoreLane i sp d a imm ty we) s := by
  have issues : issueInstead i s = none := solo.issues
  have fits : ¬ Config.storeQueueLen < s.curWarp.storeQ.length + (if we then 0 else (guardTrue i s).length) := by
    rw [guardTrue_of_solo solo]
    exact Nat.not_lt.mpr room
  rw [exec_scrStore form, scrStore, queueFold, issues]
  exact if_neg fits

/-! ## A store that is queued -/

theorem scrStoreLane_queues (solo : Solo i s l)
    (named : s.scrAddr s.curWarp l sp ((s.cx s.cur.warp l).ea a imm) (size ty) = .ok (id, off)) :
    scrStoreLane i sp d a imm ty false l s =
      (s.enqueue s.cur.warp (.store (.scratch id off) (dataBytes (s.cx s.cur.warp l) d (size ty))), .next) := by
  have place : s.scrAddr (s.cx s.cur.warp l).w l sp ((s.cx s.cur.warp l).ea a imm) (size ty) = .ok (id, off) := named
  have single : (s.warp s.cur.warp).paired = false := solo.single
  simp only [scrStoreLane, mBytes_eq_size, place, State.issueStore, single, Bool.false_and, Bool.false_eq_true, if_false, storeBytes_eq]

theorem warp_enqueue (s : State) (n : Nat) (e : SqEntry) (m : Nat) :
    (s.enqueue n e).warp m = if m = n then { s.warp n with storeQ := (s.warp n).storeQ ++ [e] } else s.warp m := by
  rw [State.enqueue]
  split
  · subst m
    exact State.warp_modWarp ..
  · exact State.warp_modWarp_other _ _ ‹_›

theorem thread_enqueue (s : State) (n : Nat) (e : SqEntry) (m v : Nat) : (s.enqueue n e).thread m v = s.thread m v := by
  rw [State.thread, State.thread, warp_enqueue]
  split
  · subst m
    rfl
  · rfl

/-- A thread that issues a store: its warp's queue has one entry more. -/
theorem oneThreadOnly_enqueued (i : Instr) (s : State) (l : Nat) (e : SqEntry) :
    let t := soloIssued i s l (s.enqueue s.cur.warp e)
    OneThreadOnly s t l ∧ ResvKept s t l ∧ SameMemory s t ∧ t.blocks = s.blocks ∧ t.tenants = s.tenants ∧
      t.curWarp.storeQ = s.curWarp.storeQ ++ [e] := by
  intro t
  have frame : ScratchFrame (s.enqueue s.cur.warp e) t l :=
    scratchFrame_trans (scratchFrame_modThread (s.enqueue s.cur.warp e) l _) (scratchFrame_stallYield i s _ l)
  have parts : t = { s with warps := t.warps, cores := t.cores } := stallYield_parts i s _
  have kept : ResvKept s t l := fun m v other => (frame.threads m v other).trans (thread_enqueue ..)
  have queue (m : Nat) : (t.warp m).storeQ = ((s.enqueue s.cur.warp e).warp m).storeQ := by injection frame.warps m
  refine ⟨⟨fun m v other => congrArg (fun u : Thread => { u with resv := none }) (kept m v other), fun m => ?_, fun m other => ?_,
    frame.cores, ?_⟩, kept, frame.memory, ?_, ?_, ?_⟩
  · refine (congrArg (fun w : Warp => { w with storeQ := [] }) (frame.warps m)).trans ?_
    rw [warp_enqueue]
    split
    · subst m
      rfl
    · rfl
  · rw [queue, warp_enqueue, if_neg other]
  · rw [parts]
    rfl
  · rw [parts]
  · rw [parts]
  · have current : t.cur = s.cur := by rw [parts]
    rw [State.curWarp, current, queue, warp_enqueue, if_pos rfl]
    rfl

theorem scratchStore_queues (form : scrStoreForm i = some (sp, d, a, imm, ty, false)) (solo : Solo i s l)
    (named : s.scrAddr s.curWarp l sp ((s.cx s.cur.warp l).ea a imm) (size ty) = .ok (id, off)) (room : s.curWarp.storeQ.length < 128) :
    ∃ t, exec i s = .next t ∧ OneThreadOnly s t l ∧ ResvKept s t l ∧ SameMemory s t ∧ t.blocks = s.blocks ∧ t.tenants = s.tenants ∧
      t.curWarp.storeQ = s.curWarp.storeQ ++ [.store (.scratch id off) (dataBytes (s.cx s.cur.warp l) d (size ty))] ∧
      Done i s (t.thread s.cur.warp l) (s.thread s.cur.warp l) [] := by
  obtain ⟨frame, resv, memory, blocks, tenants, queue⟩ := oneThreadOnly_enqueued i s l
    (.store (.scratch id off) (dataBytes (s.cx s.cur.warp l) d (size ty)))
  refine ⟨_, (exec_scrStore_room form solo room).trans (laneFold_next solo (scrStoreLane_queues solo named)), frame, resv, memory, blocks,
    tenants, queue, ?_⟩
  have there : l < ((s.enqueue s.cur.warp (.store (.scratch id off) (dataBytes (s.cx s.cur.warp l) d (size ty)))).warp
      s.cur.warp).threads.length := by
    rw [warp_enqueue, if_pos rfl]
    exact solo.lane.2
  rw [soloIssued, stallYield_thread, State.thread_modThread _ _ _ _ there, thread_enqueue]
  exact done_issued rfl (sets_nil _)

/-! ## A store that leaves the queue -/

theorem drainOne_scratchStore {n : Nat} {bs : List Byte} {q : List SqEntry} (single : (s.warp n).paired = false)
    (oldest : (s.warp n).storeQ = .store (.scratch id off) bs :: q) :
    s.drainOne n = (s.scrWrite id off bs).modWarp n fun w => { w with storeQ := q } := by
  simp only [State.drainOne, oldest, single, Bool.false_eq_true, if_false, State.performStore]

theorem scratchStore_drains {n : Nat} {bs : List Byte} {q : List SqEntry} (single : (s.warp n).paired = false) (there : Present s id)
    (oldest : (s.warp n).storeQ = .store (.scratch id off) bs :: q) :
    ∃ t, exec (.storeQueueDrain n) s = .next t ∧
      (∀ m, t.warp m = if m = n then { s.warp n with storeQ := q } else s.warp m) ∧ SameMemory s t ∧
      BytesKept s t id off bs.length ∧ (∀ j o, t.tagFull j o = s.tagFull j o) ∧
      ∀ j, j < bs.length → t.scrByte id (off + j) = (bs[j]?).getD 0 := by
  refine ⟨_, congrArg Host.Outcome.next (drainOne_scratchStore single oldest), fun m => ?_, ?_, fun j o out => ?_, fun j o => ?_,
    fun j short => ?_⟩
  · split
    · subst m
      rw [State.warp_modWarp, warp_scrWrite]
    · rw [State.warp_modWarp_other _ _ ‹_›, warp_scrWrite]
  · exact sameMemory_scrWrite s id off bs
  · exact (scrByte_congr rfl rfl j o).trans (scrByte_scrWrite_out out)
  · exact (tagFull_congr rfl rfl j o).trans (tagFull_scrWrite ..)
  · exact (scrByte_congr rfl rfl id _).trans (scrByte_scrWrite_in id off bs there short)

/-! ## A store that waits for an empty granule -/

theorem scrStoreLane_fills (drained : s.curWarp.storeQ = [])
    (named : s.scrAddr s.curWarp l sp ((s.cx s.cur.warp l).ea a imm) (size ty) = .ok (id, off)) (empty : s.tagFull id off = false) :
    scrStoreLane i sp d a imm ty true l s =
      ((s.scrWrite id off (dataBytes (s.cx s.cur.warp l) d (size ty))).setTag id off true, .next) := by
  have place : s.scrAddr (s.cx s.cur.warp l).w l sp ((s.cx s.cur.warp l).ea a imm) (size ty) = .ok (id, off) := named
  simp only [scrStoreLane, mBytes_eq_size, place, drainAll_empty drained, empty, storeBytes_eq, Bool.false_eq_true, if_false, if_true]

theorem scrStoreLane_waits (drained : s.curWarp.storeQ = [])
    (named : s.scrAddr s.curWarp l sp ((s.cx s.cur.warp l).ea a imm) (size ty) = .ok (id, off)) (full : s.tagFull id off = true) :
    scrStoreLane i sp d a imm ty true l s = (s, .wait (.tag id (off / 16) false)) := by
  have place : s.scrAddr (s.cx s.cur.warp l).w l sp ((s.cx s.cur.warp l).ea a imm) (size ty) = .ok (id, off) := named
  simp only [scrStoreLane, mBytes_eq_size, place, drainAll_empty drained, full, if_true]

theorem scratchStore_fills (form : scrStoreForm i = some (sp, d, a, imm, ty, true)) (wf : i.wf = true) (solo : Solo i s l)
    (drained : s.curWarp.storeQ = [])
    (named : s.scrAddr s.curWarp l sp ((s.cx s.cur.warp l).ea a imm) (size ty) = .ok (id, off)) (empty : s.tagFull id off = false) :
    ∃ t, exec i s = .next t ∧ ScratchFrame s t l ∧ ScratchKept s t id off (size ty) ∧ t.tagFull id off = true ∧
      (∀ j, j < size ty → t.scrByte id (off + j) = dataByte (s.cx s.cur.warp l) d j) ∧
      Done i s (t.thread s.cur.warp l) (s.thread s.cur.warp l) [] := by
  have there : Present s id := present_of_scrAddr (size_pos (memOk_of_scrStore form wf)) named
  have room : s.curWarp.storeQ.length + (if true then 0 else 1) ≤ 128 := by rw [drained]; decide
  obtain ⟨t, runs, framed, blocks, tenants, done⟩ := scratch_issues (ws := []) solo (exec_scrStore_room form solo room)
    (scrStoreLane_fills drained named empty)
    (scratchFrame_trans (scratchFrame_scrWrite s l id off _) (scratchFrame_setTag _ l id off true))
    (by rw [warp_setTag, warp_scrWrite]; exact solo.lane.2) (by rw [thread_setTag, thread_scrWrite])
    (by rw [thread_setTag, thread_scrWrite]; exact sets_nil _)
  refine ⟨t, runs, framed, ⟨fun j o out => ?_, fun j o other => ?_⟩, ?_, fun j short => ?_, done⟩
  · rw [scrByte_congr blocks tenants, scrByte_setTag, scrByte_scrWrite_out (by rwa [length_dataBytes])]
  · rw [tagFull_congr blocks tenants, tagFull_setTag_other _ other, tagFull_scrWrite]
  · rw [tagFull_congr blocks tenants, tagFull_setTag_same _ _ _ (present_scrWrite there)]
  · rw [scrByte_congr blocks tenants, scrByte_setTag, scrByte_scrWrite_in _ _ _ there (by rwa [length_dataBytes]), getElem?_dataBytes,
      if_pos short, Option.getD_some]

theorem scratchStores : ScratchStores := by
  intro i sp d a imm ty we s l id off form wf solo n named
  refine ⟨?queued, fun bs q oldest => ?drained, ?filled, ?waits⟩
  case queued =>
    rintro rfl room
    exact scratchStore_queues form solo named room
  case drained =>
    exact scratchStore_drains solo.single (present_of_scrAddr (size_pos (memOk_of_scrStore form wf)) named) oldest
  case filled =>
    rintro rfl drained empty
    exact scratchStore_fills form wf solo drained named empty
  case waits =>
    rintro rfl drained full
    have room : s.curWarp.storeQ.length + (if true then 0 else 1) ≤ 128 := by rw [drained]; decide
    exact scratch_waits solo (exec_scrStore_room form solo room) (scrStoreLane_waits drained named full)

end

/-- Settles O33: the limits of R88 keep an address within a space that is there, and a bundle of one thread runs its lane's effect once. -/
theorem scratchAccesses : Obligations.ScratchAccesses := ⟨scratchAddresses, scratchLoads, scratchStores⟩

end Sys2Proof.Proofs
end


-- ==== Sys2Proof/Proofs/ScratchTags.lean ====
section
/-! PROOFS. The tag instructions (R96, R340), and the atomics on scratch (R301, R302). -/

namespace Sys2Proof.Proofs

open Sys2Proof Sys2Proof.Machine Sys2Proof.Claims

-- One proof after another: proofs run side by side over a text of this length need more threads than the check has memory for.
set_option Elab.async false

/-! ## Tags -/

section
variable {s : State} {l off : Nat} {id : ScrId} {sp : Space} {a : Src} {imm : BitVec 16}

theorem tagLane_acts (drained : s.curWarp.storeQ = []) (named : s.scrAddr s.curWarp l sp ((s.cx s.cur.warp l).ea a imm) 1 = .ok (id, off))
    (f : ScrId → Nat → State → State) : tagLane sp a imm f l s = (f id off s, .next) := by
  have place : s.scrAddr (s.cx s.cur.warp l).w l sp ((s.cx s.cur.warp l).ea a imm) 1 = .ok (id, off) := named
  simp only [tagLane, place, drainAll_empty drained]

/-- FESET and FECLR. -/
theorem tag_set {i : Instr} {f : Nat → State → State × LaneOut} {full : Bool} (solo : Solo i s l) (runs : exec i s = laneFold i f s)
    (effect : f l s = (s.setTag id off full, .next)) (there : Present s id) :
    ∃ t, exec i s = .next t ∧ ScratchFrame s t l ∧ ScratchKept s t id off 0 ∧ t.tagFull id off = full ∧
      Done i s (t.thread s.cur.warp l) (s.thread s.cur.warp l) [] := by
  obtain ⟨t, next, framed, blocks, tenants, done⟩ := scratch_issues (ws := []) solo runs effect (scratchFrame_setTag s l id off full)
    (by rw [warp_setTag]; exact solo.lane.2) (by rw [thread_setTag]) (by rw [thread_setTag]; exact sets_nil _)
  refine ⟨t, next, framed, ⟨bytesKept_nothing fun j o => ?_, fun j o other => ?_⟩, ?_, done⟩
  · rw [scrByte_congr blocks tenants, scrByte_setTag]
  · rw [tagFull_congr blocks tenants, tagFull_setTag_other _ other]
  · rw [tagFull_congr blocks tenants, tagFull_setTag_same _ _ _ there]

/-- FETEST. -/
theorem tag_tested {i : Instr} {f : Nat → State → State × LaneOut} {q : Pred} {lat : Machine.Lat} (solo : Solo i s l)
    (runs : exec i s = laneFold i f s)
    (effect : f l s = (s.modThread s.cur.warp l fun t => t.writeQ (s.cx s.cur.warp l) lat q (s.tagFull id off), .next)) :
    ∃ t, exec i s = .next t ∧ ScratchFrame s t l ∧ ScratchKept s t id off 0 ∧ t.tagFull id off = s.tagFull id off ∧
      Done i s (t.thread s.cur.warp l) (s.thread s.cur.warp l) (predDest q (s.tagFull id off)) := by
  have there : l < ((s.modThread s.cur.warp l fun t => t.writeQ (s.cx s.cur.warp l) lat q (s.tagFull id off)).warp
      s.cur.warp).threads.length := by
    rw [State.warp_modThread, length_lmod]
    exact solo.lane.2
  obtain ⟨t, next, framed, blocks, tenants, done⟩ := scratch_issues solo runs effect (scratchFrame_modThread s l _) there
    (by rw [State.thread_modThread _ _ _ _ solo.lane.2, writeQ_noRegs])
    (by rw [State.thread_modThread _ _ _ _ solo.lane.2]; exact sets_writeQ ..)
  exact ⟨t, next, framed, ⟨bytesKept_nothing (scrByte_congr blocks tenants), fun j o _ => tagFull_congr blocks tenants j o⟩,
    tagFull_congr blocks tenants id off, done⟩

theorem tags : Tags := by
  intro i sp a imm full q s l id off form _ solo drained n named
  have there : Present s id := present_of_scrAddr Nat.one_pos named
  cases i <;> simp only [tagForm, Option.some.injEq, Prod.mk.injEq, reduceCtorEq] at form
  case feset =>
    obtain ⟨rfl, rfl, rfl, rfl, rfl⟩ := form
    exact tag_set solo rfl (tagLane_acts drained named _) there
  case feclr =>
    obtain ⟨rfl, rfl, rfl, rfl, rfl⟩ := form
    exact tag_set solo rfl (tagLane_acts drained named _) there
  case fetest =>
    obtain ⟨rfl, rfl, rfl, rfl, rfl⟩ := form
    exact tag_tested solo rfl (tagLane_acts drained named _)

end

/-! ## Numbers and their bytes -/

theorem number_succ (f : Nat → Byte) (lo n : Nat) : number f lo (n + 1) = number f lo n + (f (lo + n)).toNat * 2 ^ (8 * n) := by
  simp [number, List.range_succ]

theorem number_lt (f : Nat → Byte) (lo n : Nat) : number f lo n < 2 ^ (8 * n) := by
  induction n with
  | zero => exact Nat.one_pos
  | succ n ih =>
    rw [number_succ, show 8 * (n + 1) = 8 * n + 8 by omega, Nat.pow_add]
    have := (f (lo + n)).isLt
    nlinarith

theorem number_add (f : Nat → Byte) (lo m n : Nat) : number f lo (m + n) = number f lo m + 2 ^ (8 * m) * number f (lo + m) n := by
  induction n with
  | zero => simp [number]
  | succ n ih =>
    rw [← Nat.add_assoc, number_succ, ih, number_succ, show 8 * (m + n) = 8 * m + 8 * n by omega, Nat.pow_add, Nat.add_assoc lo]
    ring

/-- The bytes of a number are those that it was made of. -/
theorem byte_of_number (f : Nat → Byte) (lo n : Nat) {q : Nat} (h : q < n) : BitVec.ofNat 8 (number f lo n / 2 ^ (8 * q)) = f (lo + q) := by
  obtain ⟨m, rfl⟩ := Nat.exists_eq_add_of_lt h
  apply BitVec.eq_of_toNat_eq
  have low := number_lt f lo q
  have byte := (f (lo + q)).isLt
  have parts : number f lo (q + m + 1) = number f lo q + 2 ^ (8 * q) * ((f (lo + q)).toNat + 256 * number f (lo + q + 1) m) := by
    rw [show q + m + 1 = q + (1 + m) by omega, number_add, number_add f (lo + q) 1 m]
    simp [number]
  rw [BitVec.toNat_ofNat, parts, Nat.add_mul_div_left _ _ (Nat.two_pow_pos _), Nat.div_eq_of_lt low, Nat.zero_add]
  omega

/-! ## Atomics -/

/-- What an element update makes of an element's old value. -/
def elemUpdate (o : ElemOp) (ty : Ty) (b c : Word) (j old : Nat) : Nat :=
  match o with
  | .op q => atomElem q ty old (elem b j ty)
  | .cas => if old = elem c j ty then elem b j ty else old

/-- Bytes of a bank changed to others, and nothing else. -/
structure Stored (s t : State) (id : ScrId) (off n : Nat) (v : Nat → Byte) : Prop where
  frame : ∀ l, ScratchFrame s t l
  warps : ∀ m, t.warp m = s.warp m
  tags : ∀ j o, t.tagFull j o = s.tagFull j o
  kept : BytesKept s t id off n
  bytes : ∀ q, q < n → t.scrByte id (off + q) = v q
  there : Present t id

section
variable {s t u : State} {id : ScrId} {off : Nat}

theorem stored_nothing (there : Present s id) (v : Nat → Byte) : Stored s s id off 0 v :=
  ⟨scratchFrame_refl s, fun _ => rfl, fun _ _ => rfl, fun _ _ _ => rfl, nofun, there⟩

theorem stored_scrWrite (there : Present s id) (off : Nat) (bs : List Byte) :
    Stored s (s.scrWrite id off bs) id off bs.length fun q => (bs[q]?).getD 0 :=
  ⟨fun l => scratchFrame_scrWrite s l id off bs, fun m => warp_scrWrite s id off bs m, fun j o => tagFull_scrWrite id j off o bs,
    fun _ _ out => scrByte_scrWrite_out out, fun _ short => scrByte_scrWrite_in id off bs there short, present_scrWrite there⟩

/-- Bytes that follow each other. -/
theorem stored_append {m n : Nat} {v w : Nat → Byte} (h : Stored s t id off m v) (k : Stored t u id (off + m) n w) :
    Stored s u id off (m + n) fun q => if q < m then v q else w (q - m) where
  frame l := scratchFrame_trans (h.frame l) (k.frame l)
  warps x := (k.warps x).trans (h.warps x)
  tags j o := (k.tags j o).trans (h.tags j o)
  kept j o out := (k.kept j o (out.imp_right (Or.imp (by omega) (by omega)))).trans
    (h.kept j o (out.imp_right (Or.imp_right (by omega))))
  bytes q short := by
    split
    · rw [k.kept id _ (.inr (by omega)), h.bytes q ‹_›]
    · rw [show off + q = off + m + (q - m) by omega, k.bytes _ (by omega)]
  there := k.there

/-- One element: the old value is read, and the updated one's bytes are in the bank. -/
theorem stored_scrElem (there : Present s id) (off : Nat) (o : ElemOp) (ty : Ty) (b c : Word) (j : Nat) :
    let old := number (fun p => s.scrByte id (off + p)) (j * (tyWidth ty / 8)) (tyWidth ty / 8)
    (s.scrElem id off o ty b c j).2 = old ∧
      Stored s (s.scrElem id off o ty b c j).1 id (off + j * (tyWidth ty / 8)) (tyWidth ty / 8) fun q =>
        BitVec.ofNat 8 (elemUpdate o ty b c j old / 2 ^ (8 * q)) := by
  intro old
  have read : leNat (s.scrBytes id (off + j * elemBytes ty) (tyWidth ty / 8)) = old := by
    rw [State.scrBytes, leNat_addrs, elemBytes, number_shift]
  have writes (v : Nat) : Stored s (s.scrWrite id (off + j * elemBytes ty) (leBytes (tyWidth ty / 8) v)) id
      (off + j * (tyWidth ty / 8)) (tyWidth ty / 8) fun q => BitVec.ofNat 8 (v / 2 ^ (8 * q)) := by
    have stored := stored_scrWrite there (off + j * elemBytes ty) (leBytes (tyWidth ty / 8) v)
    rw [length_leBytes] at stored
    refine ⟨stored.frame, stored.warps, stored.tags, stored.kept, fun q short => ?_, stored.there⟩
    refine (stored.bytes q short).trans ?_
    rw [getElem?_leBytes, if_pos short, Option.getD_some]
  cases o with
  | op q =>
    rw [State.scrElem, State.rmwScr, rmwBytes, read]
    exact ⟨rfl, writes _⟩
  | cas =>
    rw [State.scrElem, State.casScr, read]
    refine ⟨rfl, ?_⟩
    by_cases equal : old = elem c j ty
    · rw [if_pos equal]
      simp only [elemUpdate, if_pos equal]
      exact writes _
    · rw [if_neg equal]
      simp only [elemUpdate, if_neg equal]
      refine ⟨scratchFrame_refl s, fun _ => rfl, fun _ _ => rfl, fun _ _ _ => rfl, fun q short => ?_, there⟩
      rw [byte_of_number _ _ _ short, Nat.add_assoc]

theorem stored_congr {n : Nat} {v w : Nat → Byte} (h : Stored s t id off n v) (same : ∀ q, q < n → v q = w q) : Stored s t id off n w :=
  ⟨h.frame, h.warps, h.tags, h.kept, fun q short => (h.bytes q short).trans (same q short), h.there⟩

/-- An update of one element, and the old values so far with its own behind them. -/
def elemStep (id : ScrId) (off : Nat) (o : ElemOp) (ty : Ty) (b c : Word) (acc : State × List Nat) (j : Nat) : State × List Nat :=
  let q := acc.1.scrElem id off o ty b c j
  (q.1, acc.2 ++ [q.2])

/-- The byte that the updates of a register's elements leave at an offset, from the bytes before. -/
def updatedByte (o : ElemOp) (ty : Ty) (b c : Word) (old : Nat → Byte) (p : Nat) : Byte :=
  let n := tyWidth ty / 8
  BitVec.ofNat 8 (elemUpdate o ty b c (p / n) (byteElem old ty (p / n)) / 2 ^ (8 * (p % n)))

/-- The elements one after another: each is read as it was before the first, for they do not overlap. -/
theorem stored_elems (there : Present s id) (off : Nat) (o : ElemOp) (ty : Ty) (b c : Word) (k : Nat) :
    let old (p : Nat) : Byte := s.scrByte id (off + p)
    let r := (List.range k).foldl (elemStep id off o ty b c) (s, [])
    r.2 = (List.range k).map (byteElem old ty) ∧ Stored s r.1 id off (k * (tyWidth ty / 8)) (updatedByte o ty b c old) := by
  intro old
  induction k with
  | zero => exact ⟨rfl, by rw [Nat.zero_mul]; exact stored_nothing there _⟩
  | succ k ih =>
    obtain ⟨olds, stored⟩ := ih
    rw [List.range_succ, List.foldl_append, List.map_append]
    generalize (List.range k).foldl (elemStep id off o ty b c) (s, []) = r at olds stored
    obtain ⟨read, next⟩ := stored_scrElem stored.there off o ty b c k
    have before : number (fun p => r.1.scrByte id (off + p)) (k * (tyWidth ty / 8)) (tyWidth ty / 8) = byteElem old ty k := by
      simp only [byteElem, number]
      congr 1
      refine List.map_congr_left fun j _ => ?_
      rw [stored.kept id _ (.inr (.inr (by omega)))]
    rw [before] at read next
    refine ⟨by rw [← olds]; exact congrArg (fun n => r.2 ++ [n]) read, ?_⟩
    rw [Nat.succ_mul]
    refine stored_congr (stored_append stored next) fun q short => ?_
    split
    · rfl
    · have place : q / (tyWidth ty / 8) = k ∧ q % (tyWidth ty / 8) = q - k * (tyWidth ty / 8) := by
        have some_ : 0 < tyWidth ty / 8 := by omega
        refine (Nat.div_mod_unique some_).mpr ⟨?_, by omega⟩
        rw [Nat.mul_comm _ k]
        omega
      rw [updatedByte, place.1, place.2]

end

/-! ## ATOMS and CASS -/

/-- What an atomic's operation is to the bank. -/
def atomsOp : Instr → ElemOp
  | .atoms _ _ _ _ op _ _ => .op op
  | _ => .cas

/-- The sources of the operand and of the value compared. -/
def atomsSrcs : Instr → Src × Src
  | .atoms _ _ _ b _ _ _ => (b, .zero)
  | .cass _ _ _ b c _ _ => (b, c)
  | _ => (.zero, .zero)

section
variable {i : Instr} {d : Dst} {a : Src} {ty : Ty} {die : Bool} {new : LaneCx → Nat → Nat → Nat} {s : State} {l off : Nat} {id : ScrId}

theorem exec_atoms (form : atomsForm i = some (d, a, ty, die, new)) (s : State) :
    exec i s = laneFold i (atomsLane (atomsOp i) die d a (atomsSrcs i).1 (atomsSrcs i).2 ty) s := by
  cases i <;> simp only [atomsForm, Option.some.injEq, Prod.mk.injEq, reduceCtorEq] at form
  all_goals
    obtain ⟨rfl, rfl, rfl, rfl, rfl⟩ := form
    rfl

theorem new_eq_elemUpdate (form : atomsForm i = some (d, a, ty, die, new)) (x : LaneCx) (j old : Nat) :
    new x j old = elemUpdate (atomsOp i) ty (x.src (atomsSrcs i).1) (x.src (atomsSrcs i).2) j old := by
  cases i <;> simp only [atomsForm, Option.some.injEq, Prod.mk.injEq, reduceCtorEq] at form
  all_goals
    obtain ⟨rfl, rfl, rfl, rfl, rfl⟩ := form
    rfl

/-- Elements of an atomic have 32 or 64 bits (R299). -/
theorem width_of_atoms (form : atomsForm i = some (d, a, ty, die, new)) (wf : i.wf = true) : tyWidth ty = 32 ∨ tyWidth ty = 64 := by
  cases i <;> simp only [atomsForm, Option.some.injEq, Prod.mk.injEq, reduceCtorEq] at form
  case atoms op _ _ =>
    obtain ⟨rfl, rfl, rfl, rfl, rfl⟩ := form
    have taken : atomOk op _ = true := wf
    revert taken
    rename_i t
    cases op <;> cases t <;> decide
  case cass t =>
    obtain ⟨rfl, rfl, rfl, rfl, rfl⟩ := form
    have taken : Ty.reservable _ = true := wf
    revert taken
    cases t <;> decide

/-- The old elements in a register are the eight bytes' number. -/
theorem packWord_byteElem {w : Ty} (wide : tyWidth w = 32 ∨ tyWidth w = 64) (f : Nat → Byte) :
    packWord w ((elemIdx w).map (byteElem f w)) = BitVec.ofNat 64 (number f 0 8) := by
  have count : tyCount w = 64 / tyWidth w := by
    cases w
    case l6 => exact absurd wide (by decide)
    all_goals rfl
  have all := number_lt f 0 8
  rw [packWord, elemIdx, count, List.take_of_length_le (by rw [List.length_map, List.length_range])]
  congr 1
  rcases wide with half | whole
  · have low := number_lt f 0 4
    have high := number_lt f 4 4
    have parts : number f 0 8 = number f 0 4 + 2 ^ 32 * number f 4 4 := number_add f 0 4 4
    simp only [half, show 64 / 32 = 2 from rfl, List.range_succ, List.range_zero, List.nil_append, List.map_cons,
      List.map_nil, List.cons_append, packElems, byteElem, show 32 / 8 = 4 from rfl, Nat.zero_mul, Nat.one_mul]
    omega
  · simp only [whole, show 64 / 64 = 1 from rfl, List.range_succ, List.range_zero, List.nil_append, List.map_cons, List.map_nil, packElems,
      byteElem, show 64 / 8 = 8 from rfl, Nat.zero_mul]
    omega

/-- The lane's effect: the elements updated in the bank, and their old values in the destination. -/
theorem atomsLane_updates (o : ElemOp) (b c : Src) (drained : s.curWarp.storeQ = []) (allowed : forbidsFloat s.curWarp ty = false)
    (named : s.scrAddr s.curWarp l (if die then .die else .core) ((s.cx s.cur.warp l).src a) 8 = .ok (id, off))
    (sound : s.scrBad id off 8 = false) :
    atomsLane o die d a b c ty l s =
      let x := s.cx s.cur.warp l
      let r := (List.range (64 / tyWidth ty)).foldl (elemStep id off o ty (x.src b) (x.src c)) (s, [])
      (r.1.modThread s.cur.warp l fun u => u.writeD x (s.scrLat x.w (dieSpace die) id) d (packWord ty r.2), .next) := by
  have place : s.scrAddr (s.cx s.cur.warp l).w l (dieSpace die) ((s.cx s.cur.warp l).src a) 8 = .ok (id, off) := named
  have goes : detStop (s.cx s.cur.warp l).w ty = false := allowed
  simp only [atomsLane, goes, place, drainAll_empty drained, sound, Bool.false_eq_true, if_false]
  rfl

theorem scratchAtomics : ScratchAtomics := by
  intro i d a ty die new s l id off form wf solo drained allowed n old named sound
  have wide := width_of_atoms form wf
  have count : 64 / tyWidth ty * (tyWidth ty / 8) = 8 := by rcases wide with w | w <;> rw [w]
  have effect := atomsLane_updates (d := d) (atomsOp i) (atomsSrcs i).1 (atomsSrcs i).2 drained allowed named sound
  obtain ⟨olds, stored⟩ := stored_elems (present_of_scrAddr (Nat.succ_pos 7) named) off (atomsOp i) ty
    ((s.cx n l).src (atomsSrcs i).1) ((s.cx n l).src (atomsSrcs i).2) (64 / tyWidth ty)
  simp only at effect
  rw [olds, ← elemIdx, packWord_byteElem wide, elemIdx] at effect
  rw [count] at stored
  generalize (List.range (64 / tyWidth ty)).foldl (elemStep id off (atomsOp i) ty ((s.cx n l).src (atomsSrcs i).1)
    ((s.cx n l).src (atomsSrcs i).2)) (s, []) = r at effect stored
  have lane : l < (r.1.warp n).threads.length := by rw [stored.warps]; exact solo.lane.2
  have before : r.1.thread n l = s.thread n l := by rw [State.thread, stored.warps, State.thread]
  have changes (f : Thread → Thread) : ScratchFrame r.1 (r.1.modThread n l f) l := by
    have issuer : r.1.cur.warp = n := by rw [cur_of_blankScratch (stored.frame l).rest]
    rw [← issuer]
    exact scratchFrame_modThread r.1 l f
  obtain ⟨t, next, framed, blocks, tenants, done⟩ := scratch_issues solo (exec_atoms form s) effect
    (scratchFrame_trans (stored.frame l) (changes _))
    (by rw [State.warp_modThread, length_lmod]; exact lane)
    (by rw [State.thread_modThread _ _ _ _ lane, writeD_noRegs, before])
    (by rw [State.thread_modThread _ _ _ _ lane, before]; exact sets_writeD ..)
  refine ⟨t, next, framed, fun j o => ?_, fun j o out => ?_, done, fun j small q short => ?_⟩
  · exact (tagFull_congr blocks tenants j o).trans (stored.tags j o)
  · exact (scrByte_congr blocks tenants j o).trans (stored.kept j o out)
  · have within : j * (tyWidth ty / 8) + q < 8 := by rcases wide with w | w <;> rw [w] at small short ⊢ <;> omega
    have place : (j * (tyWidth ty / 8) + q) / (tyWidth ty / 8) = j ∧ (j * (tyWidth ty / 8) + q) % (tyWidth ty / 8) = q :=
      (Nat.div_mod_unique (by omega)).mpr ⟨by rw [Nat.mul_comm, Nat.add_comm], short⟩
    refine (scrByte_congr (s := r.1) blocks tenants id _).trans ?_
    rw [Nat.add_assoc, stored.bytes _ within, updatedByte, place.1, place.2, new_eq_elemUpdate form]

end

/-- Settles O34: a granule's tag is a number in its space's list, and the elements of an atomic do not overlap. -/
theorem tagsAndScratchAtomics : Obligations.TagsAndScratchAtomics := ⟨tags, scratchAtomics⟩

end Sys2Proof.Proofs
end


-- ==== Sys2Proof/Proofs/CacheViews.lean ====
section
/-! PROOFS. What anyone reads of a byte where caches write back and requests count (R101, R103, R196): nothing changes, whichever pages
move, as long as no page of a byte written back is between Start and Switch. -/

namespace Sys2Proof.Proofs

open Sys2Proof Sys2Proof.Machine Sys2Proof.Claims

-- One proof after another: proofs run side by side over a text of this length need more threads than the check has memory for.
set_option Elab.async false

/-! ## What a byte is read from -/

/-- The dirty copy that an access at package scope finds. -/
def firstDirty (s : State) (a : Nat) : Option Byte := [0, 1, 2].findSome? fun id => (s.l2c id).dirtyByte a

/-- What the window of a migration between Start and Switch has of a byte. -/
def overlay (s : State) (p : Nat) : Option Byte :=
  match s.fwdAt p with
  | some (_, f) => if f.switched then none else windowByte f.window p
  | none => none

section
variable {s t : State}

/-- A dirty copy at the address that serves the byte, else what the window has, else memory. -/
theorem byteAt_eq (s : State) (p : Nat) :
    s.byteAt p = (firstDirty s (s.homeAddr p)).getD ((overlay s p).getD (memGet s.mem (s.homeAddr p))) := by
  have home : s.homeByte p = (overlay s p).getD (memGet s.mem (s.homeAddr p)) := by
    rw [State.homeByte, overlay, State.homeAddr]
    cases s.fwdAt p with
    | none => rfl
    | some q =>
      obtain ⟨k, f⟩ := q
      cases switched : f.switched <;> simp [switched]
  rw [State.byteAt, State.cohByte, ← home, firstDirty]
  cases [0, 1, 2].findSome? fun id => (s.l2c id).dirtyByte (s.homeAddr p) <;> rfl

/-- A byte of which a window has something is served where it was, its page between Start and Switch. -/
theorem moving_of_overlay {p : Nat} (h : overlay s p ≠ none) : s.moving p = true ∧ s.homeAddr p = p := by
  rw [overlay] at h
  rw [State.moving, State.homeAddr]
  cases found : s.fwdAt p with
  | none => rw [found] at h; exact absurd rfl h
  | some q =>
    obtain ⟨k, f⟩ := q
    rw [found] at h
    cases switched : f.switched with
    | true => simp [switched] at h
    | false => simp [switched]

theorem firstDirty_of_only {a id : Nat} {v : Byte} (caches : cachesOk s) (small : id < 3) (dirty : (s.l2c id).dirtyByte a = some v) :
    firstDirty s a = some v := by
  cases found : firstDirty s a with
  | some w =>
    obtain ⟨j, hj, h⟩ := List.exists_of_findSome?_eq_some found
    obtain rfl := caches.2.2 a j id w v (by simp at hj; omega) small h dirty
    exact congrArg some (Option.some.inj (h.symm.trans dirty))
  | none =>
    have absent := List.findSome?_eq_none_iff.mp found id (by simp; omega)
    rw [dirty] at absent
    cases absent

theorem firstDirty_of_clean {a : Nat} (clean : ∀ id, id < 3 → (s.l2c id).dirtyByte a = none) : firstDirty s a = none :=
  List.findSome?_eq_none_iff.mpr fun id h => clean id (by simp at h; omega)

theorem firstDirty_congr {a : Nat} (same : ∀ id, id < 3 → (t.l2c id).dirtyByte a = (s.l2c id).dirtyByte a) : firstDirty t a = firstDirty s a := by
  rw [firstDirty, firstDirty]
  simp only [List.findSome?, same 0 (by decide), same 1 (by decide), same 2 (by decide)]

theorem overlay_congr (fwds : t.fwds = s.fwds) (p : Nat) : overlay t p = overlay s p := by
  simp only [overlay, State.fwdAt, fwds]

/-- Where the tables of the memory side agree, so does every byte. -/
theorem byteAt_of_parts (fwds : t.fwds = s.fwds) {a : Nat} (memory : memGet t.mem (s.homeAddr a) = memGet s.mem (s.homeAddr a))
    (dirty : ∀ id, id < 3 → (t.l2c id).dirtyByte (s.homeAddr a) = (s.l2c id).dirtyByte (s.homeAddr a)) : t.byteAt a = s.byteAt a := by
  rw [byteAt_eq, byteAt_eq, homeAddr_congr fwds, overlay_congr fwds, firstDirty_congr dirty, memory]

/-! ## A cache that writes back -/

/-- A CACHE THAT WRITES BACK some of its bytes and keeps none of them dirty: nothing that anyone reads changes. -/
theorem byteAt_writeBack (caches : cachesOk s) {id : Nat} (small : id < 3) {p : Nat → Bool} {d : Cache}
    (still : ∀ a, p a = true → s.moving a = false)
    (left : ∀ a, d.dirtyByte a = if p a then none else (s.l2c id).dirtyByte a) (fwds : t.fwds = s.fwds)
    (mem : t.mem = memSetAll s.mem (dirtyWhere p (s.l2c id))) (l2 : ∀ j, t.l2c j = if j = id then d else s.l2c j) (q : Nat) :
    t.byteAt q = s.byteAt q := by
  have memory := memGet_writeBack (caches.1 id).2 p s.mem (s.homeAddr q)
  by_cases gone : p (s.homeAddr q) = true ∧ ∃ v, (s.l2c id).dirtyByte (s.homeAddr q) = some v
  · obtain ⟨here, v, dirty⟩ := gone
    have clean (j : Nat) (hj : j < 3) : (t.l2c j).dirtyByte (s.homeAddr q) = none := by
      rw [l2]
      split
      · rw [left, if_pos here]
      · rename_i other
        cases h : (s.l2c j).dirtyByte (s.homeAddr q) with
        | none => rfl
        | some w => exact absurd (caches.2.2 _ j id w v hj small h dirty) other
    have bare : overlay s q = none := by
      by_contra has
      obtain ⟨moves, same⟩ := moving_of_overlay has
      rw [same] at here
      rw [still q here] at moves
      cases moves
    rw [byteAt_eq, byteAt_eq, homeAddr_congr fwds, overlay_congr fwds, firstDirty_of_clean clean, firstDirty_of_only caches small dirty, bare, mem,
      memory, if_pos here, dirty]
    rfl
  · have clean (here : p (s.homeAddr q) = true) : (s.l2c id).dirtyByte (s.homeAddr q) = none :=
      Option.eq_none_iff_forall_ne_some.mpr fun v hv => gone ⟨here, v, hv⟩
    refine byteAt_of_parts fwds ?_ fun j _ => ?_
    · rw [mem, memory]
      split
      · rw [clean ‹_›]
        rfl
      · rfl
    · rw [l2]
      split
      · rename_i own
        rw [left, own]
        split
        · rw [clean ‹_›]
        · rfl
      · rfl

/-- Every L2 writes back its bytes of some addresses, and keeps them clean. -/
theorem byteAt_l2CleanAll (caches : cachesOk s) {p : Nat → Bool} (still : ∀ a, p a = true → s.moving a = false) :
    (s.l2CleanAll p).fwds = s.fwds ∧ ∀ q, (s.l2CleanAll p).byteAt q = s.byteAt q := by
  have steps := List.foldlRecOn (motive := fun u : State => cachesOk u ∧ u.fwds = s.fwds ∧ ∀ q, u.byteAt q = s.byteAt q) [0, 1, 2]
    (fun s id => if dirtyWhere p (s.l2c id) = [] then s
      else { s with mem := memSetAll s.mem (dirtyWhere p (s.l2c id)) }.setL2 id (cleanWhere p (s.l2c id))) (b := s)
    ⟨caches, rfl, fun _ => rfl⟩ fun u hu id among => by
      obtain ⟨caches', fwds, same⟩ := hu
      split
      · exact ⟨caches', fwds, same⟩
      · refine ⟨(tames_writeBack u (tamer_cleanWhere p _) _).keeps.cachesOk caches', fwds, fun q => (?_ : _ = _).trans (same q)⟩
        have still' (a : Nat) (here : p a = true) : u.moving a = false := by
          have := still a here
          rwa [State.moving, State.fwdAt, fwds]
        exact byteAt_writeBack (t := { u with mem := memSetAll u.mem (dirtyWhere p (u.l2c id)) }.setL2 id (cleanWhere p (u.l2c id))) caches'
          (by simp at among; omega) still' (dirtyByte_cleanWhere p _) rfl rfl (fun j => l2c_setL2 { u with mem := _ } id j _) q
  exact steps.2

/-! ## Requests that count -/

theorem moving_congr {a b : Nat} (frame : frameOf a = frameOf b) : s.moving a = s.moving b := by
  simp only [State.moving, State.fwdAt, frame]

/-- What the start of a migration leaves: the L2s clean in the frame, and an entry under a free number whose window is empty. -/
theorem startMigration_parts {src tenant ipa leafPa target : Nat} (started : s.startMigration src tenant ipa leafPa target = some t) :
    let u := s.l2CleanAll fun a => frameOf a == frameOf src
    t.mem = u.mem ∧ t.l2 = u.l2 ∧ ∃ k f, t.fwds = tset u.fwds k f ∧ tget s.fwds k = none ∧ frameOf f.src = frameOf src ∧
      f.switched = false ∧ f.window = [] := by
  unfold State.startMigration at started
  split at started
  · rename_i k d ring free popped
    have unlisted : tget s.fwds k = none := Option.isNone_iff_eq_none.mp (by simpa using List.find?_some free)
    obtain rfl := Option.some.inj started
    refine ⟨rfl, rfl, k, _, rfl, unlisted, ?_, rfl, rfl⟩
    simp only [frameOf]
    omega
  · cases started

/-- The start of a migration changes no byte (R199). -/
theorem byteAt_startMigration (caches : cachesOk s) {src tenant ipa leafPa target : Nat} (uncovered : (s.coverOf src).isNone = true)
    (started : s.startMigration src tenant ipa leafPa target = some t) (q : Nat) : t.byteAt q = s.byteAt q := by
  have homes := (tames_startMigration uncovered started).homes q
  obtain ⟨mem, l2, k, f, entries, unlisted, source, before, empty⟩ := startMigration_parts started
  have still (a : Nat) (here : (frameOf a == frameOf src) = true) : s.moving a = false := by
    rw [State.moving, fwdAt_of_uncovered uncovered (by simpa using here)]
  obtain ⟨fwds, same⟩ := byteAt_l2CleanAll caches still
  generalize (s.l2CleanAll fun a => frameOf a == frameOf src) = u at mem l2 entries fwds same
  rw [fwds] at entries
  have view : overlay t q = overlay u q := by
    rw [overlay_congr fwds]
    obtain ⟨elsewhere, here⟩ := find?_tset_of_none f (fun p => frameOf p.2.src = frameOf q) unlisted
    by_cases frame : frameOf src = frameOf q
    · have none : s.fwdAt q = none := fwdAt_of_uncovered uncovered frame.symm
      rw [overlay, overlay, none, State.fwdAt, entries, here (by simp [source, frame]) none]
      simp [before, empty, windowByte]
    · rw [overlay, overlay, State.fwdAt, entries, elsewhere (by simp [source, frame]), State.fwdAt]
  rw [← same q, byteAt_eq, byteAt_eq, homes, view, homeAddr_congr fwds, mem]
  simp only [firstDirty, State.l2c, l2]

theorem byteAt_promote (caches : cachesOk s) (req : HomeReq) (q : Nat) : (s.promote req).byteAt q = s.byteAt q := by
  unfold State.promote
  dsimp only
  split
  · rename_i may
    cases started : s.startMigration req.pa req.tenant req.ipa req.leafPa (targetTier req.aff) with
    | none => rfl
    | some t => exact byteAt_startMigration caches may.2.2.2.2.2.2.2 started q
  · rfl

/-- A COUNTED REQUEST CHANGES NO BYTE, whether it starts a migration or not. -/
theorem byteAt_countReq (caches : cachesOk s) (req : HomeReq) (q : Nat) : (s.countReq req).byteAt q = s.byteAt q := by
  have counted (f n : Nat) : (s.addCount f n).byteAt q = s.byteAt q := byteAt_congr rfl rfl rfl q
  unfold State.countReq
  split
  · rfl
  · split
    · rfl
    · split
      · exact counted ..
      · exact (byteAt_promote (s := s.addCount _ _) caches req q).trans (counted ..)

theorem byteAt_count (caches : cachesOk s) (attr : Option Xlat) (pa n q : Nat) : (s.count attr pa n).byteAt q = s.byteAt q :=
  byteAt_countReq caches _ q

end

end Sys2Proof.Proofs
end


-- ==== Sys2Proof/Proofs/LineFlushes.lean ====
section
/-! PROOFS. An L2 or the service-die caches give a line up, and a request that is counted at its home (R101, R103, R196). -/

namespace Sys2Proof.Proofs

open Sys2Proof Sys2Proof.Machine Sys2Proof.Claims

-- One proof after another: proofs run side by side over a text of this length need more threads than the check has memory for.
set_option Elab.async false

section
variable {s t : State}

/-! ## Bytes that a cache does not hold -/

theorem l2CleanAll_absent {id a : Nat} (absent : (s.l2c id).byte a = none) (p : Nat → Bool) : ((s.l2CleanAll p).l2c id).byte a = none := by
  refine List.foldlRecOn (motive := fun u : State => (u.l2c id).byte a = none) [0, 1, 2] _ absent fun u hu j _ => ?_
  dsimp only
  split
  · exact hu
  · rw [l2c_setL2]
    split
    · rename_i own
      rw [byte_cleanWhere, ← own, hu]
      rfl
    · exact hu

/-- A counted request brings no byte into a cache. -/
theorem countReq_absent {id a : Nat} (absent : (s.l2c id).byte a = none) (req : HomeReq) : ((s.countReq req).l2c id).byte a = none := by
  unfold State.countReq
  split
  · exact absent
  · split
    · exact absent
    · split
      · exact absent
      · unfold State.promote
        dsimp only
        split
        · cases started : (s.addCount (frameOf req.pa) req.n).startMigration req.pa req.tenant req.ipa req.leafPa (targetTier req.aff) with
          | none => exact absent
          | some t =>
            obtain ⟨-, l2, -⟩ := startMigration_parts started
            rw [Option.getD_some, State.l2c, l2]
            exact l2CleanAll_absent (s := s.addCount _ _) absent _
        · exact absent

/-! ## A flush of one line -/

/-- The addresses of a line. -/
def inLine (line a : Nat) : Bool := a / 256 == line

theorem inLine_iff {line a : Nat} : inLine line a = true ↔ a / 256 = line := by rw [inLine, beq_iff_eq]

/-- A cache that has written a line back and dropped it. -/
theorem flushed_start (s : State) (id : Nat) (p : Nat → Bool) :
    ∃ u : State, s.l2Flush id p true =
        ((dirtyWhere p (s.l2c id)).map fun w => w.1 / 256).dedup.foldl (fun u l => u.count ((s.l2c id).attrAt (l * 256)) (l * 256) 1) u ∧
      u.fwds = s.fwds ∧ u.l1 = s.l1 ∧ u.mem = memSetAll s.mem (dirtyWhere p (s.l2c id)) ∧
      ∀ j, u.l2c j = if j = id then dropWhere p (s.l2c id) else s.l2c j := by
  unfold State.l2Flush
  dsimp only
  refine ⟨_, rfl, ?_⟩
  split
  · rename_i empty
    refine ⟨rfl, rfl, rfl, fun j => ?_⟩
    split
    · rename_i own
      rw [empty, own]
      exact empty
    · rfl
  · exact ⟨rfl, rfl, rfl, fun j => l2c_setL2 { s with mem := _ } id j _⟩

theorem l2Flush_absent (s : State) (id line : Nat) : lacks ((s.l2Flush id (inLine line) true).l2c id) line := by
  intro a here
  obtain ⟨u, flush, -, -, -, caches⟩ := flushed_start s id (inLine line)
  rw [flush]
  refine List.foldlRecOn (motive := fun v : State => (v.l2c id).byte a = none) _ _ ?_ fun v hv l _ => countReq_absent hv _
  rw [caches, if_pos rfl]
  exact byte_dropWhere_of_dropped (inLine_iff.mpr here) _

/-- A LINE THAT LEAVES A CACHE is read as before by anyone, unless its page is between Start and Switch. -/
theorem byteAt_l2Flush (caches : cachesOk s) {id : Nat} (small : id < 3) {line : Nat} (still : s.moving (line * 256) = false) (q : Nat) :
    (s.l2Flush id (inLine line) true).byteAt q = s.byteAt q := by
  obtain ⟨u, flush, fwds, l1, mem, l2⟩ := flushed_start s id (inLine line)
  have order := (caches.1 id).2
  have dropped : ∀ q, u.byteAt q = s.byteAt q := by
    refine byteAt_writeBack caches small (d := dropWhere (inLine line) (s.l2c id)) (fun a here => ?_) (fun a => ?_) fwds mem l2
    · rw [← still]
      refine moving_congr ?_
      have := inLine_iff.mp here
      simp only [frameOf]
      omega
    · exact dirtyByte_dropWhere order _ a
  have kept : cachesOk u := by
    refine cachesOk_of_tamer (l1 := s.l1) caches l1 rfl fun k => ?_
    rw [l2]
    split
    · rename_i own
      rw [own]
      exact tamer_dropWhere _ _
    · exact tamer_refl _
  rw [flush]
  have counted := List.foldlRecOn (motive := fun v : State => cachesOk v ∧ v.byteAt q = s.byteAt q)
    ((dirtyWhere (inLine line) (s.l2c id)).map fun w => w.1 / 256).dedup
    (fun u l => u.count ((s.l2c id).attrAt (l * 256)) (l * 256) 1) (b := u) ⟨kept, dropped q⟩ fun v hv l _ =>
      ⟨(tames_count v _ _ _).keeps.cachesOk hv.1, (byteAt_count hv.1 _ _ _ q).trans hv.2⟩
  exact counted.2

/-- What a cache that gives a line up leaves, as an eviction and as an invalidation. -/
theorem lineGivenUp (s : State) {id : Nat} (small : id < 3) (line : Nat) :
    let t := s.l2Flush id (inLine line) true
    beside t = beside s ∧ t.l1 = s.l1 ∧ lacks (t.l2c id) line ∧ (Quiet s → ∀ j, j ≠ id → t.l2c j = s.l2c j) ∧
      (cachesOk s → s.moving (line * 256) = false → ∀ p, t.byteAt p = s.byteAt p) := by
  intro t
  obtain ⟨cs, rs, fs, m, l, frame⟩ := l2Flush_frame s id (inLine line) true
  have frame : t = { s with counters := cs, rings := rs, fwds := fs, mem := m, l2 := l } := frame
  refine ⟨by rw [frame]; rfl, by rw [frame], l2Flush_absent s id line, fun quiet j other => ?_, fun caches still =>
    byteAt_l2Flush caches small still⟩
  obtain ⟨cs, l, e, held⟩ := l2Flush_quiet quiet id (inLine line)
  have e : t = _ := e
  rw [e]
  exact (held j).trans (if_neg other)

theorem secondLevelEvictions (s : State) (line : Nat) (c : CacheId) (id : Nat) (cache : c = .svc ∧ id = 2 ∨ ∃ d, c = .l2 d ∧ d < 2 ∧ id = d)
    (i : Instr) (step : i = .cacheEviction c line ∨ i = .lineInvalidation c line) :
    ∃ t, exec i s = .next t ∧ beside t = beside s ∧ t.l1 = s.l1 ∧ lacks (t.l2c id) line ∧
      (Quiet s → ∀ j, j ≠ id → t.l2c j = s.l2c j) ∧
      (cachesOk s → s.moving (line * 256) = false → ∀ p, t.byteAt p = s.byteAt p) := by
  have small : id < 3 := by
    rcases cache with ⟨-, rfl⟩ | ⟨d, -, less, rfl⟩
    · decide
    · omega
  refine ⟨s.l2Flush id (inLine line) true, ?_, lineGivenUp s small line⟩
  rcases cache with ⟨rfl, rfl⟩ | ⟨d, rfl, less, rfl⟩
  · rcases step with rfl | rfl <;> rfl
  · rcases step with rfl | rfl <;> exact congrArg Host.Outcome.next (if_pos less)

theorem noSuchCache (s : State) (line d : Nat) (big : 2 ≤ d) :
    exec (.cacheEviction (.l2 d) line) s = .next s ∧ exec (.lineInvalidation (.l2 d) line) s = .next s :=
  ⟨congrArg Host.Outcome.next (if_neg (by omega)), congrArg Host.Outcome.next (if_neg (by omega))⟩

/-! ## A counted request -/

theorem countReq_uncounted {req : HomeReq} (out : tierOf req.pa = none ∨ s.moving req.pa = true) : s.countReq req = s := by
  unfold State.countReq
  split
  · rfl
  · rename_i tier
    rw [if_pos (out.resolve_left (by rw [tier]; exact nofun))]

theorem l2CleanAll_frame (s : State) (p : Nat → Bool) : ∃ m l, s.l2CleanAll p = { s with mem := m, l2 := l } :=
  List.foldlRecOn (motive := fun u => ∃ m l, u = { s with mem := m, l2 := l }) [0, 1, 2] _ ⟨_, _, rfl⟩ fun u hu id _ => by
    obtain ⟨m, l, rfl⟩ := hu
    dsimp only
    split <;> exact ⟨_, _, rfl⟩

theorem promote_frame (s : State) (req : HomeReq) : ∃ rs fs m l, s.promote req = { s with rings := rs, fwds := fs, mem := m, l2 := l } := by
  unfold State.promote
  dsimp only
  split
  · cases started : s.startMigration req.pa req.tenant req.ipa req.leafPa (targetTier req.aff) with
    | none => exact ⟨_, _, _, _, rfl⟩
    | some t =>
      unfold State.startMigration at started
      split at started
      · obtain ⟨m, l, e⟩ := l2CleanAll_frame s fun a => frameOf a == frameOf req.pa
        simp only [e, Option.some.injEq] at started
        exact ⟨_, _, _, _, started.symm⟩
      · cases started
  · exact ⟨_, _, _, _, rfl⟩

/-- A request that counts raises its frame's counter, and may start a migration. -/
theorem countReq_counted {req : HomeReq} (tier : (tierOf req.pa).isSome = true) (still : s.moving req.pa = false) :
    s.countReq req = s.addCount (frameOf (s.homeAddr req.pa)) req.n ∨
      s.countReq req = (s.addCount (frameOf (s.homeAddr req.pa)) req.n).promote req := by
  unfold State.countReq
  split
  · rename_i none
    rw [none] at tier
    cases tier
  · rw [if_neg (by rw [still]; exact Bool.false_ne_true)]
    cases found : s.fwdAt req.pa with
    | some q => exact .inl rfl
    | none =>
      refine .inr ?_
      rw [State.homeAddr, found]

theorem promote_unbounded {req : HomeReq} (unbounded : (s.tenant req.tenant).thresh = 0) : s.promote req = s := by
  unfold State.promote
  exact if_neg fun h => h.1 unbounded

theorem homeRequests (s : State) (req : HomeReq) :
    (tierOf req.pa = none ∨ s.moving req.pa = true → exec (.homeRequest req) s = .next s) ∧
    ((tierOf req.pa).isSome = true → s.moving req.pa = false → ∃ t, exec (.homeRequest req) s = .next t ∧
      (∀ f, tgetD t.counters f 0 = if f = frameOf (s.homeAddr req.pa) then min 0xFFFF (tgetD s.counters f 0 + req.n) else tgetD s.counters f 0) ∧
      t.warps = s.warps ∧ t.l1 = s.l1 ∧ (cachesOk s → ∀ p, t.byteAt p = s.byteAt p) ∧
      ((s.tenant req.tenant).thresh = 0 → t = { s with counters := t.counters })) := by
  refine ⟨fun out => congrArg Host.Outcome.next (countReq_uncounted out), fun tier still => ?_⟩
  have counters (f : Nat) : tgetD (s.addCount (frameOf (s.homeAddr req.pa)) req.n).counters f 0 =
      if f = frameOf (s.homeAddr req.pa) then min 0xFFFF (tgetD s.counters f 0 + req.n) else tgetD s.counters f 0 := by
    rw [State.addCount, tgetD_tset]
    split
    · rename_i own
      rw [own]
      rfl
    · rfl
  have bytes (caches : cachesOk s) (p : Nat) : (s.countReq req).byteAt p = s.byteAt p := byteAt_countReq caches req p
  refine ⟨s.countReq req, rfl, ?_⟩
  rcases countReq_counted tier still with counted | counted <;> rw [counted] at bytes ⊢
  · exact ⟨counters, rfl, rfl, bytes, fun _ => rfl⟩
  · obtain ⟨rs, fs, m, l, frame⟩ := promote_frame (s.addCount (frameOf (s.homeAddr req.pa)) req.n) req
    refine ⟨by rw [frame]; exact counters, by rw [frame]; rfl, by rw [frame]; rfl, bytes, fun unbounded => ?_⟩
    rw [promote_unbounded (s := s.addCount _ _) unbounded]
    rfl

end

end Sys2Proof.Proofs
end


-- ==== Sys2Proof/Proofs/SecondLevelWrites.lean ====
section
/-! PROOFS. A write at an L2 (R103): what it leaves alone in every state, and, where no page moves, what anyone reads after it. -/

namespace Sys2Proof.Proofs

open Sys2Proof Sys2Proof.Machine Sys2Proof.Claims

-- One proof after another: proofs run side by side over a text of this length need more threads than the check has memory for.
set_option Elab.async false

section
variable {s t u : State}

/-! ## What it leaves alone -/

/-- Nothing changes but the memory side below the L1s, and reservations. -/
def BelowFirst (s t : State) : Prop := beside t = beside s ∧ t.l1 = s.l1

theorem BelowFirst.refl (s : State) : BelowFirst s s := ⟨rfl, rfl⟩

theorem BelowFirst.trans (h : BelowFirst s t) (k : BelowFirst t u) : BelowFirst s u := ⟨k.1.trans h.1, k.2.trans h.2⟩

theorem BelowFirst.foldl {α : Type} {f : State → α → State} (step : ∀ t x, BelowFirst t (f t x)) (xs : List α) (s : State) :
    BelowFirst s (xs.foldl f s) := by
  induction xs generalizing s with
  | nil => exact .refl s
  | cons x xs ih => exact (step s x).trans (ih _)

theorem belowFirst_count (s : State) (attr : Option Xlat) (pa n : Nat) : BelowFirst s (s.count attr pa n) := by
  obtain ⟨cs, rs, fs, m, l, e⟩ := count_frame s attr pa n
  rw [e]
  exact ⟨rfl, rfl⟩

theorem belowFirst_yieldLine (s : State) (ids : List Nat) (line : Nat) : BelowFirst s (s.yieldLine ids line) := by
  refine .foldl (fun t id => ?_) ids s
  have drops : BelowFirst t ({ t with mem := memSetAll t.mem (dirtyWhere (inLine line) (t.l2c id)) }.setL2 id
      (dropWhere (inLine line) (t.l2c id))) := ⟨rfl, rfl⟩
  dsimp only
  split
  · exact drops
  · exact drops.trans (belowFirst_count ..)

theorem belowFirst_invalidations (s : State) (id : Nat) (ls : List Nat) : BelowFirst s (ls.foldl (fun s l => s.invalidateOthers id l) s) :=
  .foldl (fun t l => belowFirst_yieldLine t _ l) ls s

theorem belowFirst_homeWrite {ws : List (Nat × Byte)} (done : s.homeWrite ws = some t) : BelowFirst s t := by
  unfold State.homeWrite at done
  split at done
  · exact Option.some.inj done ▸ .refl s
  · split at done
    · dsimp only at done
      split at done
      · exact Option.some.inj done ▸ ⟨rfl, rfl⟩
      · split at done
        · cases done
        · exact Option.some.inj done ▸ ⟨rfl, rfl⟩
    · exact Option.some.inj done ▸ ⟨rfl, rfl⟩

theorem belowFirst_l2Write {id : Nat} {attr : Option Xlat} {ws : List (Nat × Byte)} (done : s.l2Write id attr ws = some t) : BelowFirst s t := by
  cases ws with
  | nil => exact Option.some.inj done ▸ .refl s
  | cons w ws =>
    have first := belowFirst_invalidations s id (((w :: ws).map fun w => s.homeAddr w.1 / 256).dedup)
    simp only [State.l2Write] at done
    generalize (((w :: ws).map fun w => s.homeAddr w.1 / 256).dedup).foldl (fun s l => s.invalidateOthers id l) s = u at first done
    refine first.trans ?_
    split at done
    · obtain ⟨v, written, rfl⟩ := Option.map_eq_some_iff.mp done
      refine (belowFirst_homeWrite written).trans ?_
      cases v.l2Place id (v.homeAddr w.1 / 256) attr <;> exact ⟨rfl, rfl⟩
    · split at done
      · rename_i put
        obtain ⟨c, -, rfl⟩ := Option.map_eq_some_iff.mp put
        exact Option.some.inj done ▸ ⟨rfl, rfl⟩
      · obtain ⟨v, written, rfl⟩ := Option.map_eq_some_iff.mp done
        exact (belowFirst_homeWrite written).trans (belowFirst_count ..)

theorem belowFirst_taint (s : State) (as : List Nat) : BelowFirst s (s.taint as) := by
  unfold State.taint
  split <;> exact ⟨rfl, rfl⟩

/-! ## What is read after it, where no page moves -/

theorem moving_quiet (quiet : Quiet s) (a : Nat) : s.moving a = false := by rw [State.moving, State.fwdAt, quiet.1]; rfl

theorem homeAddr_quiet (quiet : Quiet s) (a : Nat) : s.homeAddr a = a := by rw [State.homeAddr, State.fwdAt, quiet.1]; rfl

/-- Caches that give a line up change no byte. -/
theorem byteAt_yieldLine (quiet : Quiet s) (caches : cachesOk s) {ids : List Nat} (small : ∀ id ∈ ids, id < 3) (line q : Nat) :
    (s.yieldLine ids line).byteAt q = s.byteAt q := by
  induction ids generalizing s with
  | nil => rfl
  | cons id ids ih =>
    rw [yieldLine_cons, ih ((memorySide_yieldLine quiet [id] line).quiet quiet) ((tames_yieldOne s id line).keeps.cachesOk caches)
      fun j hj => small j (List.mem_cons_of_mem _ hj)]
    have drops := tames_writeBack s (tamer_dropWhere (fun a => a / 256 == line) (s.l2c id)) (dirtyWhere (fun a => a / 256 == line) (s.l2c id))
    have same : ({ s with mem := memSetAll s.mem (dirtyWhere (fun a => a / 256 == line) (s.l2c id)) }.setL2 id
        (dropWhere (fun a => a / 256 == line) (s.l2c id))).byteAt q = s.byteAt q :=
      byteAt_writeBack (t := { s with mem := memSetAll s.mem (dirtyWhere (fun a => a / 256 == line) (s.l2c id)) }.setL2 id
        (dropWhere (fun a => a / 256 == line) (s.l2c id))) caches (small id List.mem_cons_self) (fun a _ => moving_quiet quiet a)
        (dirtyByte_dropWhere (caches.1 id).2 _) rfl rfl (fun j => l2c_setL2 { s with mem := _ } id j _) q
    simp only [State.yieldLine, List.foldl_cons, List.foldl_nil]
    split
    · exact same
    · exact (byteAt_count (drops.keeps.cachesOk caches) ..).trans same

theorem byteAt_invalidations (quiet : Quiet s) (caches : cachesOk s) (id : Nat) (ls : List Nat) (q : Nat) :
    (ls.foldl (fun s l => s.invalidateOthers id l) s).byteAt q = s.byteAt q := by
  induction ls generalizing s with
  | nil => rfl
  | cons l ls ih =>
    have small (j : Nat) (hj : j ∈ (s.holders l).filter (· != id)) : j < 3 := by
      have held := (List.mem_filter.mp (List.mem_filter.mp hj).1).1
      simp at held
      omega
    rw [List.foldl_cons, ih (s := s.invalidateOthers id l) ((memorySide_yieldLine quiet _ l).quiet quiet)
      ((tames_invalidateOthers s id l).keeps.cachesOk caches)]
    exact byteAt_yieldLine quiet caches small l q

/-- Dirty bytes put into a cache, one value for each address. -/
theorem dirtyByte_cachePut_of_iff {ws : List (Nat × Byte)} {g : Nat → Option Byte} (single : ∀ a v, (a, v) ∈ ws ↔ g a = some v) (c : Cache)
    (a : Nat) : (cachePut c true ws).dirtyByte a = (g a).or (c.dirtyByte a) := by
  cases value : g a with
  | none =>
    refine dirtyByte_cachePut_other c true fun w hw same => ?_
    have := (single w.1 w.2).mp hw
    rw [same, value] at this
    cases this
  | some v =>
    rw [dirtyByte_eq, byte_cachePut]
    cases found : ws.reverse.find? fun w => w.1 = a with
    | none =>
      have absent := List.find?_eq_none.mp found (a, v) (List.mem_reverse.mpr ((single a v).mpr value))
      simp at absent
    | some w =>
      have key : w.1 = a := by simpa using List.find?_some found
      have listed := (single w.1 w.2).mp (List.mem_reverse.mp (List.mem_of_find?_eq_some found))
      rw [key, value] at listed
      simp [Option.some.inj listed]

/-- A cache that finds no place for a line does not hold it. -/
theorem not_held_of_noPlace {id line : Nat} {attr : Option Xlat} (none : s.l2Place id line attr = none) : (s.l2c id).hasLine line = false := by
  by_contra held
  unfold State.l2Place at none
  dsimp only at none
  split at none
  · cases none
  · exact place_of_hasLine (Bool.not_eq_false _ |>.mp held) _ _ _ _ none

/-- Bytes written to memory of which no L2 has a dirty copy. -/
theorem byteAt_written (quiet : Quiet u) {ws : List (Nat × Byte)} {g : Nat → Option Byte} (single : ∀ a v, (a, v) ∈ ws ↔ g a = some v)
    (fwds : t.fwds = u.fwds) (mem : t.mem = memSetAll u.mem ws) (l2 : t.l2 = u.l2) (a : Nat)
    (clean : ∀ v, g a = some v → ∀ id, id < 3 → (u.l2c id).dirtyByte a = none) : t.byteAt a = (g a).getD (u.byteAt a) := by
  have memory : memGet t.mem a = (g a).getD (memGet u.mem a) := by rw [mem]; exact memGet_memSetAll_of_iff single u.mem a
  have same (id : Nat) : t.l2c id = u.l2c id := by rw [State.l2c, l2, State.l2c]
  cases value : g a with
  | some v =>
    rw [value] at memory
    exact (byteAt_of_clean (fwds.trans quiet.1) fun id small => by rw [same]; exact clean v value id small).trans memory
  | none =>
    rw [value] at memory
    exact byteAt_of_parts fwds (by rw [homeAddr_quiet quiet]; exact memory) fun id _ => by rw [same]

/-- Bytes put dirty into the copy of one L2 are what anyone reads. -/
theorem byteAt_placed (quiet : Quiet u) {id : Nat} {c : Cache} {ws : List (Nat × Byte)} {g : Nat → Option Byte}
    (caches : cachesOk ((u.setL2 id (cachePut c true ws)).written ws)) (small : id < 3) (single : ∀ a v, (a, v) ∈ ws ↔ g a = some v)
    (sectors : c.sectors = (u.l2c id).sectors) (a : Nat) :
    ((u.setL2 id (cachePut c true ws)).written ws).byteAt a = (g a).getD (u.byteAt a) := by
  have cache (j : Nat) : (((u.setL2 id (cachePut c true ws)).written ws).l2c j).dirtyByte a =
      if j = id then (g a).or ((u.l2c id).dirtyByte a) else (u.l2c j).dirtyByte a := by
    refine (congrArg (·.dirtyByte a) (l2c_setL2 u id j _)).trans ?_
    split
    · rw [dirtyByte_cachePut_of_iff single, dirtyByte_of_sectors sectors]
    · rfl
  cases value : g a with
  | some v =>
    refine byteAt_of_dirty (s := (u.setL2 id (cachePut c true ws)).written ws) quiet.1 caches small ?_
    rw [cache, if_pos rfl, value]
    rfl
  | none =>
    refine byteAt_of_parts (s := u) (t := (u.setL2 id (cachePut c true ws)).written ws) rfl rfl fun j _ => ?_
    rw [homeAddr_quiet quiet, cache, value]
    split
    · rename_i own
      rw [own]
      rfl
    · rfl

/-- No L2 has a dirty copy of a line that one of them has no place for and the others have given up. -/
theorem clean_of_noPlace {id line a : Nat} {attr : Option Xlat} (noPlace : u.l2Place id line attr = none) (here : a / 256 = line)
    (alone : Alone u id line) (j : Nat) (small : j < 3) :
    (u.l2c j).dirtyByte a = none := by
  by_cases own : j = id
  · rw [own]
    exact dirtyByte_of_lacking (byte_of_not_hasLine (not_held_of_noPlace noPlace) here)
  · exact alone j a small own here

/-- A WRITE AT AN L2, where no page moves: its bytes are what anyone reads, and no other byte changes. -/
theorem l2Write_view (quiet : Quiet s) (caches : cachesOk s) {id : Nat} (small : id < 3) {attr : Option Xlat} {ws : List (Nat × Byte)}
    {g : Nat → Option Byte} (single : ∀ a v, (a, v) ∈ ws ↔ g a = some v) {line : Nat} (one : ∀ w ∈ ws, w.1 / 256 = line)
    (done : s.l2Write id attr ws = some t) (a : Nat) : t.byteAt a = (g a).getD (s.byteAt a) := by
  have caches' : cachesOk t := ((Keeps.refl s).l2Write t done).cachesOk caches
  have quiet' : Quiet t := by
    obtain ⟨v, e, side⟩ := l2Write_quiet quiet id attr ws
    obtain rfl := Option.some.inj (done.symm.trans e)
    exact side.quiet quiet
  cases ws with
  | nil =>
    obtain rfl := Option.some.inj done
    cases value : g a with
    | none => rfl
    | some v => exact absurd ((single a v).mpr value) List.not_mem_nil
  | cons w ws =>
    have tame := Tames.foldl (((w :: ws).map fun w => s.homeAddr w.1 / 256).dedup) (fun t l => tames_invalidateOthers t id l) s
    have alone := alone_invalidations caches id (((w :: ws).map fun w => s.homeAddr w.1 / 256).dedup) line (by
      refine List.mem_dedup.mpr (List.mem_map.mpr ⟨w, List.mem_cons_self, ?_⟩)
      rw [homeAddr_quiet quiet]
      exact one w List.mem_cons_self)
    have same := byteAt_invalidations quiet caches id (((w :: ws).map fun w => s.homeAddr w.1 / 256).dedup) a
    have quietU := (memorySide_foldl quiet (f := fun s l => s.invalidateOthers id l) (fun u l quiet => memorySide_yieldLine quiet _ l)
      (((w :: ws).map fun w => s.homeAddr w.1 / 256).dedup)).quiet quiet
    simp only [State.l2Write] at done
    generalize (((w :: ws).map fun w => s.homeAddr w.1 / 256).dedup).foldl (fun s l => s.invalidateOthers id l) s = u
      at tame alone same quietU done
    have cachesU : cachesOk u := tame.keeps.cachesOk caches
    have homes : ((w :: ws).map fun w => (u.homeAddr w.1, w.2)) = w :: ws := by
      refine (List.map_congr_left fun x _ => ?_).trans (List.map_id _)
      rw [homeAddr_quiet quietU]
      rfl
    rw [moving_quiet quietU, if_neg Bool.false_ne_true, homes] at done
    rw [← same]
    split at done
    · rename_i put
      obtain ⟨c, placed, rfl⟩ := Option.map_eq_some_iff.mp put
      obtain rfl := Option.some.inj done
      exact byteAt_placed quietU caches' small single (sectors_l2Place placed) a
    · rename_i put
      have noPlace := Option.map_eq_none_iff.mp put
      have home : u.fwdAt w.1 = none := by rw [State.fwdAt, quietU.1]; rfl
      simp only [State.homeWrite, home, Option.map_some, Option.some.injEq] at done
      subst done
      have cachesW : cachesOk ({ u with mem := memSetAll u.mem (w :: ws) }.written (w :: ws)) := cachesU
      rw [byteAt_count cachesW]
      rw [homeAddr_quiet quietU, one w List.mem_cons_self] at noPlace
      refine byteAt_written (t := { u with mem := memSetAll u.mem (w :: ws) }.written (w :: ws)) quietU single rfl rfl rfl a fun v value =>
        clean_of_noPlace noPlace (one (a, v) ((single a v).mpr value)) alone

end

end Sys2Proof.Proofs
end


-- ==== Sys2Proof/Proofs/FirstLevelEvictions.lean ====
section
/-! PROOFS. An L1 gives a line up (R101, R200): it sends its dirty bytes of the line off, and drops the line once none of them waits. -/

namespace Sys2Proof.Proofs

open Sys2Proof Sys2Proof.Machine Sys2Proof.Claims

-- One proof after another: proofs run side by side over a text of this length need more threads than the check has memory for.
set_option Elab.async false

section
variable {s t u : State} {core : Nat}

/-! ## What it leaves alone -/

/-- Nothing changes but the memory side below the L1s, reservations, and the L1 of a core. -/
def OneFirst (core : Nat) (s t : State) : Prop := beside t = beside s ∧ ∀ j, j ≠ core → t.l1c j = s.l1c j

theorem OneFirst.refl (s : State) : OneFirst core s s := ⟨rfl, fun _ _ => rfl⟩

theorem OneFirst.trans (h : OneFirst core s t) (k : OneFirst core t u) : OneFirst core s u :=
  ⟨k.1.trans h.1, fun j other => (k.2 j other).trans (h.2 j other)⟩

theorem BelowFirst.oneFirst (h : BelowFirst s t) : OneFirst core s t := ⟨h.1, fun j _ => by rw [State.l1c, h.2, State.l1c]⟩

theorem oneFirst_setL1 (s : State) (c : Cache) : OneFirst core s (s.setL1 core c) :=
  ⟨rfl, fun j other => by rw [l1c_setL1, if_neg other]⟩

theorem oneFirst_l1PushSector (s : State) (core : Nat) (p : Nat → Bool) (sec : Nat) : OneFirst core s (s.l1PushSector core p sec) := by
  unfold State.l1PushSector
  split
  · rename_i t done
    unfold State.l1WriteBackSector at done
    dsimp only at done
    split at done
    · cases done
    · rename_i v written
      obtain rfl := Option.some.inj done
      exact ((belowFirst_l2Write written).trans (belowFirst_taint ..)).oneFirst.trans (oneFirst_setL1 ..)
  · dsimp only
    split
    · exact OneFirst.trans (t := { s with fwds := _ }) ⟨rfl, fun _ _ => rfl⟩ (oneFirst_setL1 ..)
    · exact .refl s

theorem oneFirst_l1Push (s : State) (core : Nat) (p : Nat → Bool) : OneFirst core s (s.l1Push core p) :=
  List.foldlRecOn (motive := OneFirst core s) _ _ (.refl s) fun t ht sec _ => ht.trans (oneFirst_l1PushSector t core p sec)

/-! ## What its core sees, where no page moves -/

/-- The addresses of a sector that are to be sent off. -/
def inSector (p : Nat → Bool) (sec a : Nat) : Bool := p a && sectorOf a == sec

/-- A sector that is sent off: its dirty bytes are written at the die's L2, and are clean in L1. -/
theorem l1WriteBackSector_parts {p : Nat → Bool} {sec : Nat} (done : s.l1WriteBackSector core p sec = some t) :
    ∃ w, s.l2Write (dieOf core) ((s.l1c core).attrAt (sec * 64)) (dirtyWhere (inSector p sec) (s.l1c core)) = some w ∧
      (∀ a, t.byteAt a = w.byteAt a) ∧ t.l1c core = cleanWhere (inSector p sec) (s.l1c core) := by
  unfold State.l1WriteBackSector at done
  dsimp only at done
  split at done
  · cases done
  · rename_i w written
    obtain rfl := Option.some.inj done
    refine ⟨w, written, fun a => ?_, ?_⟩
    · unfold State.taint
      split <;> exact byteAt_congr rfl rfl rfl a
    · rw [l1c_setL1, if_pos rfl, State.l1c, (belowFirst_l2Write written).2]
      rfl

/-- A core's view after one sector of its L1 is sent off: the same bytes, none of the sector's dirty in L1. -/
theorem l1PushSector_view (quiet : Quiet s) (caches : cachesOk s) (compute : core < 1024) (p : Nat → Bool) (sec : Nat) :
    let t := s.l1PushSector core p sec
    Quiet t ∧ cachesOk t ∧ (∀ a, sees t core a = sees s core a) ∧
      ∀ a, (t.l1c core).dirtyByte a = if inSector p sec a then none else (s.l1c core).dirtyByte a := by
  obtain ⟨v, back, side⟩ := l1WriteBackSector_quiet quiet core p sec
  obtain ⟨w, written, bytes, first⟩ := l1WriteBackSector_parts back
  have single (a : Nat) (b : Byte) : (a, b) ∈ dirtyWhere (inSector p sec) (s.l1c core) ↔
      (if inSector p sec a then (s.l1c core).dirtyByte a else none) = some b := by
    rw [mem_dirtyWhere (caches.1 core).1]
    cases inSector p sec a <;> simp
  have one (x : Nat × Byte) (hx : x ∈ dirtyWhere (inSector p sec) (s.l1c core)) : x.1 / 256 = sec / 4 := by
    have inside := ((mem_dirtyWhere (caches.1 core).1 _ x.1 x.2).mp hx).1
    simp only [inSector, Bool.and_eq_true, beq_iff_eq, sectorOf] at inside
    omega
  have small : dieOf core < 3 := by rw [dieOf, if_pos compute]; omega
  have dirty (a : Nat) : (v.l1c core).dirtyByte a = if inSector p sec a then none else (s.l1c core).dirtyByte a := by
    rw [first, dirtyByte_cleanWhere]
  rw [State.l1PushSector, back]
  refine ⟨side.quiet quiet, ((Keeps.refl s).l1WriteBackSector v back).cachesOk caches, fun a => ?_, dirty⟩
  rw [sees, sees, dirty, bytes, l2Write_view quiet caches small single one written]
  cases inSector p sec a <;> cases (s.l1c core).dirtyByte a <;> rfl

/-- The same for some sectors in turn. -/
theorem l1PushSectors_view (quiet : Quiet s) (caches : cachesOk s) (compute : core < 1024) (p : Nat → Bool) (secs : List Nat) :
    let t := secs.foldl (fun s x => s.l1PushSector core p x) s
    Quiet t ∧ cachesOk t ∧ (∀ a, sees t core a = sees s core a) ∧
      ∀ a, (t.l1c core).dirtyByte a = if p a = true ∧ sectorOf a ∈ secs then none else (s.l1c core).dirtyByte a := by
  induction secs generalizing s with
  | nil => exact ⟨quiet, caches, fun _ => rfl, fun a => by simp⟩
  | cons sec secs ih =>
    obtain ⟨quiet', caches', same, dirty⟩ := l1PushSector_view quiet caches compute p sec
    obtain ⟨quietT, cachesT, sameT, dirtyT⟩ := ih quiet' caches'
    refine ⟨quietT, cachesT, fun a => (sameT a).trans (same a), fun a => ?_⟩
    rw [List.foldl_cons, dirtyT, dirty, inSector]
    by_cases here : p a = true
    · by_cases own : sectorOf a = sec <;> simp [here, own]
    · simp [here]

/-- AN L1 THAT GIVES A LINE UP, where no page moves: none of its bytes is left, and its core sees the same bytes. -/
theorem l1Evict_view (quiet : Quiet s) (caches : cachesOk s) (line : Nat) :
    Quiet (s.l1Push core (inLine line)) ∧ ∀ a, sees ((s.l1Push core (inLine line)).l1Drop core (inLine line)) core a = sees s core a := by
  have dropped (u : State) (ok : cachesOk u) (clean : ∀ a, inLine line a = true → (u.l1c core).dirtyByte a = none) (a : Nat) :
      sees (u.l1Drop core (inLine line)) core a = sees u core a := by
    have bytes : (u.l1Drop core (inLine line)).byteAt a = u.byteAt a := byteAt_congr rfl rfl rfl a
    rw [sees, sees, bytes, State.l1Drop, l1c_setL1, if_pos rfl, dirtyByte_dropWhere (ok.1 core).1]
    split
    · rw [clean a ‹_›]
    · rfl
  by_cases compute : core < 1024
  · obtain ⟨quiet', caches', same, dirty⟩ := l1PushSectors_view quiet caches compute (inLine line) (dirtySectors (inLine line) (s.l1c core))
    refine ⟨quiet', fun a => (dropped _ caches' (fun a here => ?_) a).trans (same a)⟩
    refine (dirty a).trans ?_
    split
    · rfl
    · rename_i unsent
      refine Option.eq_none_iff_forall_ne_some.mpr fun v hv => unsent ⟨here, ?_⟩
      exact List.mem_dedup.mpr (List.mem_map.mpr ⟨a, List.mem_map.mpr ⟨(a, v), (mem_dirtyWhere (caches.1 core).1 _ a v).mpr ⟨here, hv⟩, rfl⟩, rfl⟩)
  · have clean : noDirty s core := fun a => by
      rw [caches.2.1 core (by omega)]
      rfl
    rw [l1Push_of_clean (caches.1 core).1 clean]
    exact ⟨quiet, dropped s caches fun a _ => clean a⟩

theorem firstLevelEvictions (s : State) (line core : Nat) :
    let waits (s : State) : Prop := s.stalls core (fun a => a / 256 == line) = true
    ∃ t, exec (.cacheEviction (.l1 core) line) s = .next t ∧ beside t = beside s ∧ (∀ j, j ≠ core → t.l1c j = s.l1c j) ∧
      (¬ waits t → lacks (t.l1c core) line) ∧
      (cachesOk s → Quiet s → ¬ waits t ∧ ∀ p, sees t core p = sees s core p) := by
  intro waits
  obtain ⟨rest, others⟩ := oneFirst_l1Push s core (inLine line)
  by_cases stalled : waits (s.l1Push core (inLine line))
  · refine ⟨s.l1Push core (inLine line), congrArg Host.Outcome.next (if_pos stalled), rest, others, fun free => absurd stalled free,
      fun caches quiet => ?_⟩
    have free := stalls_unmoved (l1Evict_view (core := core) quiet caches line).1.1 core fun a => a / 256 == line
    exact absurd stalled (Bool.eq_false_iff.mp free)
  · obtain ⟨rest', others'⟩ := OneFirst.trans ⟨rest, others⟩ (oneFirst_setL1 (core := core) (s.l1Push core (inLine line))
      (dropWhere (inLine line) ((s.l1Push core (inLine line)).l1c core)))
    refine ⟨(s.l1Push core (inLine line)).l1Drop core (inLine line), congrArg Host.Outcome.next (if_neg stalled), rest', others',
      fun _ a here => ?_, fun caches quiet => ⟨stalled, (l1Evict_view quiet caches line).2⟩⟩
    rw [State.l1Drop, l1c_setL1, if_pos rfl]
    exact byte_dropWhere_of_dropped (inLine_iff.mpr here) _

end

end Sys2Proof.Proofs
end


-- ==== Sys2Proof/Proofs/ReplicaUpdates.lean ====
section
/-! PROOFS. The store to a replicated page at the head of a queue (R120): it leaves the queue, and its bytes stand at both replicas. -/

namespace Sys2Proof.Proofs

open Sys2Proof Sys2Proof.Machine Sys2Proof.Claims

-- One proof after another: proofs run side by side over a text of this length need more threads than the check has memory for.
set_option Elab.async false

section
variable {s t : State}

/-! ## Every L2 gives its bytes up -/

/-- One L2 writes back its dirty bytes of some addresses and keeps them clean. -/
def cleanOne (p : Nat → Bool) (s : State) (id : Nat) : State :=
  if dirtyWhere p (s.l2c id) = [] then s else { s with mem := memSetAll s.mem (dirtyWhere p (s.l2c id)) }.setL2 id (cleanWhere p (s.l2c id))

theorem l2CleanAll_eq (s : State) (p : Nat → Bool) : s.l2CleanAll p = [0, 1, 2].foldl (cleanOne p) s := rfl

theorem tames_cleanOne (p : Nat → Bool) (s : State) (id : Nat) : Tames s (cleanOne p s id) := by
  unfold cleanOne
  split
  · exact .refl s
  · exact tames_writeBack s (tamer_cleanWhere p _) _

theorem cleanOne_clean (caches : cachesOk s) {p : Nat → Bool} {a : Nat} (here : p a = true) (id : Nat) :
    ((cleanOne p s id).l2c id).dirtyByte a = none := by
  unfold cleanOne
  split
  · rename_i nothing
    refine Option.eq_none_iff_forall_ne_some.mpr fun v hv => ?_
    have listed := (mem_dirtyWhere (caches.1 id).2 p a v).mpr ⟨here, hv⟩
    rw [nothing] at listed
    cases listed
  · rw [l2c_setL2, if_pos rfl, dirtyByte_cleanWhere, if_pos here]

theorem cleanAll_clean (caches : cachesOk s) {p : Nat → Bool} {a : Nat} (here : p a = true) {ids : List Nat} {id : Nat} (among : id ∈ ids) :
    ((ids.foldl (cleanOne p) s).l2c id).dirtyByte a = none := by
  induction ids generalizing s with
  | nil => cases among
  | cons j ids ih =>
    have kept := (tames_cleanOne p s j).keeps.cachesOk caches
    rcases List.mem_cons.mp among with rfl | among
    · exact (Tames.foldl ids (tames_cleanOne p) _).clean kept id a (cleanOne_clean caches here id)
    · exact ih kept among

/-- Bytes dropped of which no L2 has a dirty copy. -/
theorem byteAt_l2Forget (caches : cachesOk s) {p : Nat → Bool} (clean : ∀ a, p a = true → ∀ id, id < 3 → (s.l2c id).dirtyByte a = none)
    (a : Nat) : (s.l2Forget p).byteAt a = s.byteAt a := by
  refine byteAt_of_parts (s := s) (t := s.l2Forget p) rfl rfl fun id small => ?_
  rw [l2c_l2Forget, dirtyByte_dropWhere (caches.1 id).2]
  split
  · exact (clean _ ‹_› id small).symm
  · rfl

theorem quiet_l2Forget (quiet : Quiet s) (p : Nat → Bool) : Quiet (s.l2Forget p) := quiet_congr quiet rfl rfl

/-- EVERY L2 GIVES UP SOME BYTES, where no page moves: nothing that anyone reads changes, and none of them is dirty in an L2. -/
theorem l2DropAll_view (quiet : Quiet s) (caches : cachesOk s) (p : Nat → Bool) :
    Quiet (s.l2DropAll p) ∧ (∀ a, (s.l2DropAll p).byteAt a = s.byteAt a) ∧
      ∀ a, p a = true → ∀ id, id < 3 → ((s.l2DropAll p).l2c id).dirtyByte a = none := by
  have kept : cachesOk (s.l2CleanAll p) := (tames_l2CleanAll s p).keeps.cachesOk caches
  have same := (byteAt_l2CleanAll (p := p) caches fun a _ => moving_quiet quiet a).2
  have clean (a : Nat) (here : p a = true) (id : Nat) (small : id < 3) : ((s.l2CleanAll p).l2c id).dirtyByte a = none := by
    rw [l2CleanAll_eq]
    exact cleanAll_clean caches here (by simp; omega)
  have still : Quiet (s.l2CleanAll p) := by
    obtain ⟨m, l, frame⟩ := l2CleanAll_frame s p
    rw [frame]
    exact quiet_congr quiet rfl rfl
  rw [State.l2DropAll]
  refine ⟨quiet_l2Forget still p, fun a => (byteAt_l2Forget kept clean a).trans (same a), fun a here id _ => ?_⟩
  rw [l2c_l2Forget, dirtyByte_dropWhere (kept.1 id).2, if_pos here]

/-! ## Both replicas -/

/-- What a write to a replicated page puts at an address. -/
def replicaByte (a : Nat) (bs : List Byte) (p : Nat) : Option Byte :=
  if a ≤ p % 0x8000000000 ∧ p < 0x10000000000 then bs[p % 0x8000000000 - a]? else none

theorem placed_map (f : Nat → Nat) {pa qa : Nat} {bs : List Byte} (moves : ∀ j, j < bs.length → f (pa + j) = qa + j) :
    (placed pa bs).map (fun w => (f w.1, w.2)) = placed qa bs := by
  have together : (placed pa bs).map (fun w => (f w.1, w.2)) = ((addrs pa bs.length).map f).zip bs := List.zip_map_left.symm
  rw [together, placed, addrs, addrs, List.map_map]
  congr 1
  exact List.map_congr_left fun j hj => moves j (List.mem_range.mp hj)

/-- The writes to the two replicas of consecutive bytes. -/
def replicaWrites (a : Nat) (bs : List Byte) : List (Nat × Byte) := placed a bs ++ placed (a + replicaDist) bs

theorem mem_replicaWrites {a : Nat} {bs : List Byte} (within : a + bs.length ≤ replicaDist) (p : Nat) (v : Byte) :
    (p, v) ∈ replicaWrites a bs ↔ replicaByte a bs p = some v := by
  rw [replicaWrites, List.mem_append, mem_placed, mem_placed, replicaByte]
  simp only [replicaDist] at within ⊢
  have short {i : Nat} (found : bs[i]? = some v) : i < bs.length := (List.getElem?_eq_some_iff.mp found).1
  constructor
  · rintro (⟨above, found⟩ | ⟨above, found⟩) <;> have small := short found
    · rw [if_pos (by omega), show p % 0x8000000000 = p by omega]
      exact found
    · rw [if_pos (by omega), show p % 0x8000000000 - a = p - (a + 0x8000000000) by omega]
      exact found
  · intro found
    split at found
    · have small := short found
      by_cases low : p < 0x8000000000
      · rw [show p % 0x8000000000 = p by omega] at found
        exact .inl ⟨by omega, found⟩
      · rw [show p % 0x8000000000 - a = p - (a + 0x8000000000) by omega] at found
        exact .inr ⟨by omega, found⟩
    · cases found

/-- The lines of some writes. -/
def writtenLines (ws : List (Nat × Byte)) : List Nat := (ws.map fun w => w.1 / 256).dedup

/-- A write to a replicated page: every L2 gives the lines up, and both replicas take the bytes. -/
theorem replWrite_eq (s : State) {pa : Nat} {bs : List Byte} (within : pa % replicaDist + bs.length ≤ replicaDist) :
    let ws := replicaWrites (pa % replicaDist) bs
    let u := s.l2DropAll fun a => (writtenLines ws).contains (a / 256)
    s.replWrite (placed pa bs) = { u with mem := memSetAll u.mem ws }.written ws := by
  have first : (placed pa bs).map (fun w => (w.1 % replicaDist, w.2)) = placed (pa % replicaDist) bs :=
    placed_map (· % replicaDist) fun j short => by simp only [replicaDist] at within ⊢; omega
  have second : (placed (pa % replicaDist) bs).map (fun w => (w.1 + replicaDist, w.2)) = placed (pa % replicaDist + replicaDist) bs :=
    placed_map (· + replicaDist) fun j _ => by omega
  simp only [State.replWrite, first, second]
  rfl

theorem byteAt_replWrite (quiet : Quiet s) (caches : cachesOk s) {pa : Nat} {bs : List Byte}
    (within : pa % replicaDist + bs.length ≤ replicaDist) (p : Nat) :
    (s.replWrite (placed pa bs)).byteAt p = (replicaByte (pa % replicaDist) bs p).getD (s.byteAt p) := by
  have single := mem_replicaWrites within
  rw [replWrite_eq s within]
  generalize replicaWrites (pa % replicaDist) bs = ws at single ⊢
  obtain ⟨quiet', same, clean⟩ := l2DropAll_view quiet caches fun a => (writtenLines ws).contains (a / 256)
  generalize (s.l2DropAll fun a => (writtenLines ws).contains (a / 256)) = u at quiet' same clean
  rw [← same p]
  refine byteAt_written (t := { u with mem := memSetAll u.mem ws }.written ws) quiet' single rfl rfl rfl p fun v value => clean p ?_
  exact List.contains_iff_mem.mpr (List.mem_dedup.mpr (List.mem_map.mpr ⟨(p, v), (single p v).mpr value, rfl⟩))

/-! ## The store leaves the queue -/

theorem storeQ_endResv (s : State) (gs : List Nat) (m : Nat) : ((s.endResv gs).warp m).storeQ = (s.warp m).storeQ := by
  have listed := tget_map_value s.warps (fun _ w => { w with threads := w.threads.map (Thread.endResv gs) }) m
  rw [State.warp, State.warp, tgetD, tgetD, State.endResv, listed]
  cases tget s.warps m <;> rfl

/-- The state in which a store to a replicated page has left the queue. -/
def replicaStored (s : State) (n : Nat) (x : Xlat) (bs : List Byte) (q : List SqEntry) : State :=
  let core := (s.warp n).core
  (((s.replWrite (placed x.pa bs)).count (some x) (x.pa % replicaDist) 1).l1Drop core
    fun a => a / 256 == replicaPa core x.pa / 256).modWarp n fun w => { w with storeQ := q }

theorem drainOne_replica {n : Nat} {x : Xlat} {bs : List Byte} {q : List SqEntry} (single : (s.warp n).paired = false)
    (oldest : (s.warp n).storeQ = .store (.mem x) bs :: q) (plain : x.ms = false) (repl : x.repl = true) :
    s.drainOne n = replicaStored s n x bs q := by
  have place : x.place = .repl := by simp [Xlat.place, plain, repl]
  simp only [State.drainOne, oldest, single, Bool.false_eq_true, if_false, State.performStore, place, State.pocWrite, Option.map_some]
  rfl

theorem warp_congr (warps : t.warps = s.warps) (m : Nat) : t.warp m = s.warp m := by rw [State.warp, warps, State.warp]

theorem warps_l2DropAll (s : State) (p : Nat → Bool) : (s.l2DropAll p).warps = s.warps := by
  obtain ⟨m, l, frame⟩ := l2CleanAll_frame s p
  rw [State.l2DropAll, frame]
  rfl

theorem warps_count (s : State) (attr : Option Xlat) (pa n : Nat) : (s.count attr pa n).warps = s.warps := by
  obtain ⟨cs, rs, fs, m, l, frame⟩ := count_frame s attr pa n
  rw [frame]

theorem warps_l1Drop (s : State) (core : Nat) (p : Nat → Bool) : (s.l1Drop core p).warps = s.warps := rfl

theorem storeQ_written (s : State) (cells : List Host.Cell) (ws : List (Nat × Byte)) (m : Nat) :
    (({ s with mem := cells }.written ws).warp m).storeQ = (s.warp m).storeQ := storeQ_endResv s (granules ws) m

theorem replWrite_shape (s : State) (ws : List (Nat × Byte)) : ∃ p m ws', s.replWrite ws = { s.l2DropAll p with mem := m }.written ws' :=
  ⟨_, _, _, rfl⟩

/-- A write at both replicas leaves every queue as it is. -/
theorem storeQ_replWrite (s : State) (ws : List (Nat × Byte)) (m : Nat) : ((s.replWrite ws).warp m).storeQ = (s.warp m).storeQ := by
  obtain ⟨p, mem, ws', shape⟩ := replWrite_shape s ws
  rw [shape, storeQ_written, warp_congr (warps_l2DropAll s p)]

theorem replicaUpdates (s : State) (n : Nat) (x : Xlat) (bs : List Byte) (q : List SqEntry) (single : (s.warp n).paired = false)
    (oldest : (s.warp n).storeQ = .store (.mem x) bs :: q) (plain : x.ms = false) (repl : x.repl = true) :
    let a := x.pa % 0x8000000000
    ∃ t, exec (.replicaUpdate n) s = .next t ∧ (t.warp n).storeQ = q ∧ (∀ m, m ≠ n → (t.warp m).storeQ = (s.warp m).storeQ) ∧
      (cachesOk s → Quiet s → (tierOf x.pa).isSome = true → a + bs.length ≤ 0x8000000000 →
        ∀ p, t.byteAt p = if a ≤ p % 0x8000000000 ∧ p % 0x8000000000 < a + bs.length ∧ p < 0x10000000000
          then (bs[p % 0x8000000000 - a]?).getD 0 else s.byteAt p) := by
  intro a
  refine ⟨replicaStored s n x bs q, ?_, ?_, fun m other => ?_, fun caches quiet _ within p => ?_⟩
  · have runs : exec (.replicaUpdate n) s = .next (s.drainOne n) := by
      refine congrArg Host.Outcome.next ?_
      rw [oldest]
      exact if_pos repl
    rw [runs, drainOne_replica single oldest plain repl]
  · rw [replicaStored, State.warp_modWarp]
  · rw [replicaStored, State.warp_modWarp_other _ _ other]
    rw [warp_congr ((warps_l1Drop ..).trans (warps_count ..)), storeQ_replWrite]
  · have kept : cachesOk (s.replWrite (placed x.pa bs)) := (Keeps.refl s).replWrite.cachesOk caches
    have bytes : (replicaStored s n x bs q).byteAt p = (replicaByte a bs p).getD (s.byteAt p) := by
      refine (byteAt_congr (s := (s.replWrite (placed x.pa bs)).count (some x) (x.pa % replicaDist) 1) rfl rfl rfl p).trans ?_
      exact (byteAt_count kept ..).trans (byteAt_replWrite quiet caches within p)
    rw [bytes, replicaByte]
    by_cases covered : a ≤ p % 0x8000000000 ∧ p % 0x8000000000 < a + bs.length ∧ p < 0x10000000000
    · obtain ⟨above, below, low⟩ := covered
      rw [if_pos ⟨above, low⟩, if_pos ⟨above, below, low⟩, List.getElem?_eq_getElem (by omega)]
      rfl
    · rw [if_neg covered]
      split
      · rw [List.getElem?_eq_none (by omega)]
        rfl
      · rfl

theorem noReplicaUpdate (s : State) (n : Nat) (other : ∀ x bs q, (s.warp n).storeQ = .store (.mem x) bs :: q → x.repl = false) :
    exec (.replicaUpdate n) s = .next s := by
  refine congrArg Host.Outcome.next ?_
  split
  · rename_i x bs q oldest
    exact if_neg (by rw [other x bs q oldest]; exact Bool.false_ne_true)
  · rfl

end

end Sys2Proof.Proofs
end


-- ==== Sys2Proof/Proofs/FabricTimeouts.lean ====
section
/-! PROOFS. An access that no endpoint answers (R230): a compute thread waits behind a fault record, a service thread enters a level. -/

namespace Sys2Proof.Proofs

open Sys2Proof Sys2Proof.Machine Sys2Proof.Claims

-- One proof after another: proofs run side by side over a text of this length need more threads than the check has memory for.
set_option Elab.async false

section
variable {s : State} {n l : Nat}

/-! ## A compute thread -/

theorem threads_modWarp (s : State) (k m : Nat) {f : Warp → Warp} (kept : ∀ w, (f w).threads = w.threads) :
    ((s.modWarp k f).warp m).threads = (s.warp m).threads := by
  by_cases own : m = k
  · rw [own, State.warp_modWarp, kept]
  · rw [State.warp_modWarp_other _ _ own]

/-- No byte of memory and no thread changes. -/
def ThreadsStay (s t : State) : Prop := SameMemory s t ∧ ∀ m, (t.warp m).threads = (s.warp m).threads

theorem ThreadsStay.trans {t u : State} (h : ThreadsStay s t) (k : ThreadsStay t u) : ThreadsStay s u :=
  ⟨⟨fun a => (k.1.1 a).trans (h.1.1 a), k.1.2.trans h.1.2⟩, fun m => (k.2 m).trans (h.2 m)⟩

theorem threadsStay_setFbuf (s : State) (b : Nat) (f : FaultBuf) : ThreadsStay s (s.setFbuf b f) := ⟨⟨fun _ => rfl, rfl⟩, fun _ => rfl⟩

theorem threadsStay_modWarp (s : State) (k : Nat) {f : Warp → Warp} (kept : ∀ w, (f w).threads = w.threads) : ThreadsStay s (s.modWarp k f) :=
  ⟨⟨fun _ => rfl, rfl⟩, fun m => threads_modWarp s k m kept⟩

theorem threadsStay_setPending (s : State) (k i : Nat) : ThreadsStay s (s.setPending k i) := threadsStay_modWarp s k fun _ => rfl

/-- A record routes an interrupt to a service thread, or none (R73). -/
theorem threadsStay_routed (s : State) (k b : Nat) :
    ThreadsStay s ((s.setPending k 0).modWarp k fun w => { w with svc := { w.svc with xlatFrom := b } }) :=
  (threadsStay_setPending s k 0).trans (threadsStay_modWarp (s.setPending k 0) k fun _ => rfl)

theorem threadsStay_recordFault (s : State) (b tenant : Nat) (acc : Acc) (cores va : Nat) (stage2 : Bool) (kind level ipa progress : Nat) :
    ThreadsStay s (s.recordFault b tenant acc cores va stage2 kind level ipa progress) := by
  unfold State.recordFault
  dsimp only
  split
  case h_1 => exact threadsStay_setFbuf ..
  case h_2 =>
    split
    case h_1 => exact threadsStay_setFbuf ..
    case h_2 =>
      split
      case isTrue => exact (threadsStay_setFbuf s b _).trans (threadsStay_routed _ _ b)
      case isFalse => exact threadsStay_setFbuf ..

theorem addWaiter_kept (s : State) (b : Nat) (x : Waiter) :
    ThreadsStay s (s.addWaiter b x) ∧ x ∈ ((s.addWaiter b x).fbuf b).waiters := by
  unfold State.addWaiter
  dsimp only
  split
  · exact ⟨⟨⟨fun _ => rfl, rfl⟩, fun _ => rfl⟩, List.contains_iff_mem.mp ‹_›⟩
  · refine ⟨threadsStay_setFbuf .., ?_⟩
    rw [State.fbuf, State.setFbuf, tgetD_tset_same]
    exact List.mem_append_right _ List.mem_cons_self

theorem waitFault_kept (s : State) (n l : Nat) (acc : Acc) (va : Nat) (stage2 : Bool) (kind level ipa progress : Nat) :
    let t := s.waitFault n l acc va stage2 kind level ipa progress
    ThreadsStay s t ∧
      .thread n l va acc.read acc.write acc.fetch acc.atomic progress false ∈ (t.fbuf (clusterOf (s.warp n).core)).waiters :=
  have waiter := addWaiter_kept _ (clusterOf (s.warp n).core) _
  ⟨(threadsStay_recordFault ..).trans waiter.1, waiter.2⟩

theorem thread_of_threads {t : State} {m : Nat} (same : (t.warp m).threads = (s.warp m).threads) (u : Nat) : t.thread m u = s.thread m u := by
  rw [State.thread, same, State.thread]

/-- A thread that waits is a thread of its warp. -/
theorem lane_of_wait (waits : (s.thread n l).wait ≠ .none) : l < (s.warp n).threads.length := by
  by_contra out
  rw [State.thread, List.getElem?_eq_none (by omega)] at waits
  exact waits rfl

/-! ## A service thread -/

/-- The level that takes a cause is the first with a vector (R260). -/
theorem vectoredLevel_of_takenAt {v : Svc} {x y : Level} (taken : takenAt v x y) : vectoredLevel v x = some y := by
  obtain ⟨above, privileged, vector, between⟩ := taken
  have here : ¬ (v.regs y).vec = 0#64 := vector
  have below (z : Level) (level : z ≠ .user) (from_ : x.num ≤ z.num) (less : z.num < y.num) : (v.regs z).vec = 0#64 :=
    between z level from_ less
  cases y with
  | user => exact absurd rfl privileged
  | supervisor =>
    cases x with
    | user | supervisor => simp [vectoredLevel, here]
    | hypervisor | monitor => exact absurd above (by decide)
  | hypervisor =>
    cases x with
    | user | supervisor => simp [vectoredLevel, here, below .supervisor (by decide) (by decide) (by decide)]
    | hypervisor => simp [vectoredLevel, here]
    | monitor => exact absurd above (by decide)
  | monitor =>
    cases x with
    | user | supervisor =>
      simp [vectoredLevel, here, below .supervisor (by decide) (by decide) (by decide), below .hypervisor (by decide) (by decide) (by decide)]
    | hypervisor => simp [vectoredLevel, here, below .hypervisor (by decide) (by decide) (by decide)]
    | monitor => simp [vectoredLevel, here]

theorem regs_setRegs (v : Svc) {x : Level} (r : PrivRegs) (privileged : x ≠ .user) : (v.setRegs x r).regs x = r := by
  cases x with
  | user => exact absurd rfl privileged
  | supervisor | hypervisor | monitor => rfl

/-- No other level's registers change. -/
theorem regs_setRegs_other (v : Svc) {x y : Level} (r : PrivRegs) (privileged : x ≠ .user) (other : y ≠ .user) (apart : y ≠ x) :
    (v.setRegs x r).regs y = v.regs y := by
  match x, y with
  | .user, _ => exact absurd rfl privileged
  | _, .user => exact absurd rfl other
  | .supervisor, .supervisor | .hypervisor, .hypervisor | .monitor, .monitor => exact absurd rfl apart
  | .supervisor, .hypervisor | .supervisor, .monitor | .hypervisor, .supervisor | .hypervisor, .monitor | .monitor, .supervisor
  | .monitor, .hypervisor => rfl

/-- Nothing of a service thread but its level and the registers of the levels changes. -/
theorem svc_setRegs (v : Svc) (x y : Level) (r : PrivRegs) :
    { { v.setRegs x r with level := y } with level := .user, sv := {}, hv := {}, mn := {} } =
      { v with level := .user, sv := {}, hv := {}, mn := {} } := by
  cases x <;> rfl

theorem threads_enter (w : Warp) (x : Level) (kind code intno : Nat) (addr xpc : Word) :
    (w.enter x kind code intno addr xpc).threads = w.threads.map fun t => t.enterAt w.svc.level w.tenant (w.svc.regs x).vec := rfl

theorem regs_level (v : Svc) (x y : Level) : { v with level := x }.regs y = v.regs y := by
  cases y <;> rfl

theorem regs_enter (w : Warp) {y : Level} (kind code intno : Nat) (addr xpc : Word) (privileged : y ≠ .user) :
    (w.enter y kind code intno addr xpc).svc.regs y =
      { w.svc.regs y with cause := causeWord w.svc.level kind code intno, addr := addr, pc := xpc &&& ~~~ 3#64 } :=
  (regs_level _ y y).trans (regs_setRegs w.svc _ privileged)

theorem regs_enter_other (w : Warp) {y z : Level} (kind code intno : Nat) (addr xpc : Word) (privileged : y ≠ .user) (other : z ≠ .user)
    (apart : z ≠ y) : (w.enter y kind code intno addr xpc).svc.regs z = w.svc.regs z :=
  (regs_level _ y z).trans (regs_setRegs_other w.svc _ privileged other apart)

/-- A service warp of one thread enters a level (R260). -/
theorem enters_setWarp {y : Level} (kind code intno : Nat) (addr xpc : Word) (privileged : y ≠ .user)
    (one : (s.warp n).threads.length = 1) :
    Enters s (s.setWarp n ((s.warp n).enter y kind code intno addr xpc)) n y kind code intno addr xpc := by
  have issuer : (s.setWarp n ((s.warp n).enter y kind code intno addr xpc)).warp n = (s.warp n).enter y kind code intno addr xpc :=
    State.warp_setWarp ..
  have regs := regs_enter (s.warp n) kind code intno addr xpc privileged
  obtain ⟨t, only⟩ := List.length_eq_one_iff.mp one
  have before : s.thread n 0 = t := by
    rw [State.thread, only]
    rfl
  have after : (s.setWarp n ((s.warp n).enter y kind code intno addr xpc)).thread n 0 =
      t.enterAt (s.warp n).svc.level (s.warp n).tenant ((s.warp n).svc.regs y).vec := by
    rw [State.thread, issuer, threads_enter, only]
    rfl
  exact {
    level := by rw [issuer]; rfl
    cause := by rw [issuer, regs]; rfl
    addr := by rw [issuer, regs]
    saved := by rw [issuer, regs]
    vector := ⟨by rw [issuer, regs], by rw [after]; rfl⟩
    levels := fun z other => (eq_or_ne z y).imp_right fun apart => by rw [issuer, regs_enter_other _ _ _ _ _ _ privileged other apart]
    waits := by rw [after]; rfl
    thread := by rw [after, before]; rfl
    svc := by rw [issuer]; exact svc_setRegs ..
    warp := by rw [issuer]; rfl
    others := fun m apart => State.warp_setWarp_other _ _ apart
    rest := ⟨rfl, fun _ => rfl, fun _ => rfl, rfl⟩ }

/-- The entry of a one-thread service warp with a cause that some level takes (R260). -/
theorem enters_enterLevel {x y : Level} (code : Nat) (addr xpc : Word) (taken : takenAt (s.warp n).svc x y)
    (one : (s.warp n).threads.length = 1) : Enters s (s.enterLevel n x 0 code 0 addr xpc) n y 0 code 0 addr xpc := by
  have entered : s.enterLevel n x 0 code 0 addr xpc = s.setWarp n ((s.warp n).enter y 0 code 0 addr xpc) := by
    rw [State.enterLevel, vectoredLevel_of_takenAt taken]
    rfl
  obtain ⟨-, privileged, -⟩ := taken
  exact entered ▸ enters_setWarp 0 code 0 addr xpc privileged one

/-! ## The timeout -/

/-- Nothing happens before 1 ms has passed (R230). -/
theorem fabricResponseTimeout_early {since va ipa : Nat} {r w a : Bool} (waits : (s.thread n l).wait = .fabric since va ipa r w a)
    (early : s.now < since + 700000) : exec (.fabricResponseTimeout n l) s = .next s := by
  have step : exec (.fabricResponseTimeout n l) s = execFabricResponseTimeout n l s := rfl
  have not_yet : ¬ since + Config.fabricTimeout ≤ s.now := Nat.not_le.mpr early
  rw [step, execFabricResponseTimeout, waits]
  exact congrArg Host.Outcome.next (if_neg not_yet)

/-- What a thread asked for whose access no endpoint answered; one that neither reads nor writes was a fetch (R230). -/
def unanswered (r w a : Bool) : Acc := { read := r, write := w, atomic := a, fetch := !(r || w || a) }

theorem fabricResponseTimeout_compute {since va ipa : Nat} {r w a : Bool} (waits : (s.thread n l).wait = .fabric since va ipa r w a)
    (late : since + 700000 ≤ s.now) (compute : (s.warp n).service = false) :
    exec (.fabricResponseTimeout n l) s =
      .next ((s.waitFault n l (unanswered r w a) (addr (BitVec.ofNat 64 va)) true 6 4 ipa 0xFFFF).modThread n l
        fun t => { t with wait := .fault (clusterOf (s.warp n).core) }) := by
  have step : exec (.fabricResponseTimeout n l) s = execFabricResponseTimeout n l s := rfl
  have passed : since + Config.fabricTimeout ≤ s.now := late
  rw [step, execFabricResponseTimeout, waits]
  simp only [if_pos passed, State.accessFault, compute]
  rfl

theorem fabricResponseTimeout_service {since va ipa : Nat} {r w a : Bool} (waits : (s.thread n l).wait = .fabric since va ipa r w a)
    (late : since + 700000 ≤ s.now) (service : (s.warp n).service = true) :
    exec (.fabricResponseTimeout n l) s =
      .next (s.enterLevel n (faultLevel (s.warp n).level true) 0 (if !(r || w || a) then 5 else 6) 0 (BitVec.ofNat 64 va)
        (s.thread n l).pc) := by
  have step : exec (.fabricResponseTimeout n l) s = execFabricResponseTimeout n l s := rfl
  have passed : since + Config.fabricTimeout ≤ s.now := late
  rw [step, execFabricResponseTimeout, waits]
  simp only [if_pos passed, State.accessFault, if_pos service]

/-- A fault of stage 2 belongs to the hypervisor, or to the monitor that met it (R419). -/
theorem faultLevel_stage2 (x : Level) : faultLevel x true = if x = .monitor then .monitor else .hypervisor := by
  cases x <;> rfl

/-- The waiting thread stands behind the fault record, and no other thread and no byte of memory changes. -/
theorem waits_behind_fault (acc : Acc) (va ipa : Nat) (lane : l < (s.warp n).threads.length) :
    let t := (s.waitFault n l acc va true 6 4 ipa 0xFFFF).modThread n l fun t => { t with wait := .fault (clusterOf (s.warp n).core) }
    t.thread n l = { s.thread n l with wait := .fault (clusterOf (s.warp n).core) } ∧
      .thread n l va acc.read acc.write acc.fetch acc.atomic 0xFFFF false ∈ (t.fbuf (clusterOf (s.warp n).core)).waiters ∧
      SameMemory s t ∧ ∀ m u, (m ≠ n ∨ u ≠ l) → t.thread m u = s.thread m u := by
  intro t
  obtain ⟨⟨memory, threads⟩, waiter⟩ := waitFault_kept s n l acc va true 6 4 ipa 0xFFFF
  have still (m u : Nat) := thread_of_threads (threads m) u
  refine ⟨?_, waiter, ⟨memory.1, memory.2⟩, fun m u apart => ?_⟩
  · rw [State.thread_modThread _ _ _ _ (by rwa [threads n]), still n l]
  · rw [← still m u]
    by_cases warp : m = n
    · rw [warp]
      exact State.thread_modThread_lane _ _ _ (apart.resolve_left fun away => away warp)
    · exact State.thread_modThread_warp _ _ _ _ warp

/-- R230: what a thread does whose access has had no response. -/
theorem fabricTimeouts (s : State) (n l since va ipa : Nat) (r w a : Bool) (waits : (s.thread n l).wait = .fabric since va ipa r w a) :
    let b := clusterOf (s.warp n).core
    let fetch : Bool := !(r || w || a)
    (s.now < since + 700000 → exec (.fabricResponseTimeout n l) s = .next s) ∧
    (since + 700000 ≤ s.now → (s.warp n).service = false → ∃ t, exec (.fabricResponseTimeout n l) s = .next t ∧
      t.thread n l = { s.thread n l with wait := .fault b } ∧
      .thread n l (addr (BitVec.ofNat 64 va)) r w fetch a 0xFFFF false ∈ (t.fbuf b).waiters ∧ SameMemory s t ∧
      ∀ m u, (m ≠ n ∨ u ≠ l) → t.thread m u = s.thread m u) ∧
    (since + 700000 ≤ s.now → (s.warp n).service = true → (s.warp n).threads.length = 1 →
      ∀ y, takenAt (s.warp n).svc (if (s.warp n).svc.level = .monitor then .monitor else .hypervisor) y →
      ∃ t, exec (.fabricResponseTimeout n l) s = .next t ∧
        Enters s t n y 0 (if fetch then 5 else 6) 0 (BitVec.ofNat 64 va) (s.thread n l).pc) := by
  intro b fetch
  have lane : l < (s.warp n).threads.length := lane_of_wait (by rw [waits]; exact Wait.noConfusion)
  refine ⟨fabricResponseTimeout_early waits, fun late compute => ?_, fun late service one y taken => ?_⟩
  · exact ⟨_, fabricResponseTimeout_compute waits late compute, waits_behind_fault (unanswered r w a) _ ipa lane⟩
  · have level : (s.warp n).level = (s.warp n).svc.level := if_pos service
    refine ⟨_, fabricResponseTimeout_service waits late service, enters_enterLevel _ _ _ ?_ one⟩
    rw [level, faultLevel_stage2]
    exact taken

/-- Settles O48: each cache gives a line up by flushing it one by one to the next level, so that no view of memory changes; a replicated
store cleans the second-level caches before it writes both homes; and an unanswered access becomes a fault. -/
theorem cacheEvents : Obligations.CacheEvents := fun s =>
  ⟨secondLevelEvictions s, noSuchCache s, firstLevelEvictions s, fun _ _ => rfl, homeRequests s, replicaUpdates s, noReplicaUpdate s,
    fabricTimeouts s⟩

end

end Sys2Proof.Proofs
end

