-- ==== Sys2Proof/Proofs/EndedReservations.lean ====
section
/-! PROOFS. Reservations that end, and what else their ends leave as it is. -/

namespace Sys2Proof.Proofs

open Sys2Proof Sys2Proof.Machine Sys2Proof.Claims

-- One proof after another: proofs run side by side over a text of this length need more threads than the check has memory for.
set_option Elab.async false

/-! ## Reservations that end -/

/-- A change of a thread that may end its reservation and does nothing else. -/
def OnlyResv (g : Thread → Thread) : Prop := (∀ u, { g u with resv := none } = { u with resv := none }) ∧ g {} = {}

/-- A warp with each of its threads changed. -/
def eachThread (g : Thread → Thread) (w : Warp) : Warp := { w with threads := w.threads.map g }

/-- Some threads lose their reservations, and nothing else of any warp changes. -/
def ResvsEnd (s t : State) : Prop := ∃ g, OnlyResv g ∧ t.warps = s.warps.map fun p => (p.1, eachThread g p.2)

section
variable {s t u : State}

theorem resvsEnd_of_warps (warps : t.warps = s.warps) : ResvsEnd s t := ⟨id, ⟨fun _ => rfl, rfl⟩, by simp [warps, eachThread]⟩

theorem ResvsEnd.trans (h : ResvsEnd s t) (k : ResvsEnd t u) : ResvsEnd s u := by
  obtain ⟨g, ⟨gOnly, gEmpty⟩, first⟩ := h
  obtain ⟨f, ⟨fOnly, fEmpty⟩, second⟩ := k
  refine ⟨f ∘ g, ⟨fun u => (fOnly _).trans (gOnly u), (congrArg f gEmpty).trans fEmpty⟩, ?_⟩
  rw [second, first, List.map_map]
  exact List.map_congr_left fun p _ => by simp [eachThread]

theorem resvsEnd_endResv (s : State) (gs : List Nat) : ResvsEnd s (s.endResv gs) := by
  refine ⟨Thread.endResv gs, ⟨fun u => ?_, rfl⟩, rfl⟩
  unfold Thread.endResv
  split
  · split <;> rfl
  · rfl

theorem ResvsEnd.foldl {α : Type} {f : State → α → State} (step : ∀ t x, ResvsEnd t (f t x)) (xs : List α) (s : State) :
    ResvsEnd s (xs.foldl f s) := by
  induction xs generalizing s with
  | nil => exact resvsEnd_of_warps rfl
  | cons x xs ih => exact (step s x).trans (ih _)

theorem warps_invalidations (s : State) (id : Nat) (ls : List Nat) : (ls.foldl (fun s l => s.invalidateOthers id l) s).warps = s.warps := by
  have yields (s : State) (ids : List Nat) (line : Nat) : (s.yieldLine ids line).warps = s.warps :=
    List.foldlRecOn (motive := fun u : State => u.warps = s.warps) ids _ rfl fun u e id _ => by
      dsimp only
      split
      · exact e
      · rw [warps_count]
        exact e
  exact List.foldlRecOn (motive := fun u : State => u.warps = s.warps) ls _ rfl fun u e l _ => (yields ..).trans e

theorem resvsEnd_homeWrite {ws : List (Nat × Byte)} (done : s.homeWrite ws = some t) : ResvsEnd s t := by
  unfold State.homeWrite at done
  split at done
  · exact Option.some.inj done ▸ resvsEnd_of_warps rfl
  · split at done
    · dsimp only at done
      split at done
      · exact Option.some.inj done ▸ resvsEnd_endResv s _
      · split at done
        · cases done
        · exact Option.some.inj done ▸ resvsEnd_endResv s _
    · exact Option.some.inj done ▸ resvsEnd_endResv s _

theorem resvsEnd_l2Write {id : Nat} {attr : Option Xlat} {ws : List (Nat × Byte)} (done : s.l2Write id attr ws = some t) : ResvsEnd s t := by
  cases ws with
  | nil => exact Option.some.inj done ▸ resvsEnd_of_warps rfl
  | cons w ws =>
    have first := warps_invalidations s id (((w :: ws).map fun w => s.homeAddr w.1 / 256).dedup)
    simp only [State.l2Write] at done
    generalize (((w :: ws).map fun w => s.homeAddr w.1 / 256).dedup).foldl (fun s l => s.invalidateOthers id l) s = u at first done
    refine (resvsEnd_of_warps first).trans ?_
    split at done
    · obtain ⟨v, written, rfl⟩ := Option.map_eq_some_iff.mp done
      refine (resvsEnd_homeWrite written).trans (resvsEnd_of_warps ?_)
      cases v.l2Place id (v.homeAddr w.1 / 256) attr <;> rfl
    · split at done
      · rename_i put
        obtain ⟨c, -, rfl⟩ := Option.map_eq_some_iff.mp put
        exact Option.some.inj done ▸ resvsEnd_endResv u _
      · obtain ⟨v, written, rfl⟩ := Option.map_eq_some_iff.mp done
        exact (resvsEnd_homeWrite written).trans (resvsEnd_of_warps (warps_count ..))

theorem warps_taint (s : State) (as : List Nat) : (s.taint as).warps = s.warps := by
  unfold State.taint
  split <;> rfl

theorem resvsEnd_l1PushSector (s : State) (core : Nat) (p : Nat → Bool) (sec : Nat) : ResvsEnd s (s.l1PushSector core p sec) := by
  unfold State.l1PushSector
  split
  · rename_i t done
    unfold State.l1WriteBackSector at done
    dsimp only at done
    split at done
    · cases done
    · rename_i v written
      obtain rfl := Option.some.inj done
      exact (resvsEnd_l2Write written).trans (resvsEnd_of_warps (warps_taint ..))
  · dsimp only
    split <;> exact resvsEnd_of_warps rfl

theorem resvsEnd_l1Push (s : State) (core : Nat) (p : Nat → Bool) : ResvsEnd s (s.l1Push core p) :=
  .foldl (fun t sec => resvsEnd_l1PushSector t core p sec) _ s

/-- Each warp and each thread, where some reservations end. -/
theorem ResvsEnd.parts (h : ResvsEnd s t) : ∃ g, OnlyResv g ∧ t.warps = s.warps.map (fun p => (p.1, eachThread g p.2)) ∧
    (∀ m, t.warp m = eachThread g (s.warp m)) ∧ ∀ m l, t.thread m l = g (s.thread m l) := by
  obtain ⟨g, only, warps⟩ := h
  have warp (m : Nat) : t.warp m = eachThread g (s.warp m) := by
    rw [State.warp, State.warp, tgetD, tgetD, warps, tget_map_value s.warps (fun _ => eachThread g) m]
    cases tget s.warps m with
    | some w => rfl
    | none =>
      show (if m < 256 then serviceWarp m else {}) = eachThread g (if m < 256 then serviceWarp m else {})
      split
      · rw [eachThread, serviceWarp, List.map_singleton, only.2]
      · rfl
  refine ⟨g, only, warps, warp, fun m l => ?_⟩
  rw [State.thread, State.thread, warp, eachThread, List.getElem?_map]
  cases (s.warp m).threads[l]? with
  | some u => rfl
  | none => exact only.2.symm

/-! ## Room in the deferred-free queue -/

theorem deferTaken_resvsEnd (h : ResvsEnd s t) (tenants : t.tenants = s.tenants) (gangs : t.gangs = s.gangs) (blocks : t.blocks = s.blocks)
    (k : Nat) : t.deferTaken k = s.deferTaken k := by
  obtain ⟨g, -, warps, warp, -⟩ := h.parts
  have twin (m : Nat) : t.twinWarp m = s.twinWarp m := by simp only [State.twinWarp, warp, gangs, State.block, blocks, eachThread]
  have second (w : Warp) : t.secondTwin (eachThread g w) = s.secondTwin w := by simp only [State.secondTwin, gangs, eachThread]
  have held (w : Warp) : (eachThread g w).heldDefers = w.heldDefers := rfl
  have paired (w : Warp) : (eachThread g w).paired = w.paired := rfl
  have tenant (w : Warp) : (eachThread g w).tenant = w.tenant := rfl
  simp only [State.deferTaken, State.tenant, tenants, warps, List.filter_map, List.map_map, Function.comp_def, twin, second, held, paired, tenant,
    warp]

end

end Sys2Proof.Proofs
end

