-- ==== Sys2Proof/Proofs/Releases.lean ====
section
/-! PROOFS. A release at package scope where no page moves, and an instruction that releases and answers in its predicate. -/

namespace Sys2Proof.Proofs

open Sys2Proof Sys2Proof.Machine Sys2Proof.Claims

-- One proof after another: proofs run side by side over a text of this length need more threads than the check has memory for.
set_option Elab.async false

/-! ## A release at package scope -/

/-- WHAT A RELEASE AT PACKAGE SCOPE LEAVES (R102): no dirty byte in the core's L1, every byte at its home as the core saw it, and beside that
nothing but the memory side of the machine and reservations changed. -/
structure Releases (s t : State) (core : Nat) : Prop where
  side : MemorySide s t
  resvs : ResvsEnd s t
  clean : noDirty t core
  bytes : ∀ a, t.byteAt a = sees s core a

section
variable {s s1 t : State} {n : Nat}

/-- A core without a dirty byte sees every byte as anyone reads it. -/
theorem sees_of_noDirty {core : Nat} (clean : noDirty s core) (a : Nat) : sees s core a = s.byteAt a := by rw [sees, clean]; rfl

theorem releases_refl {core : Nat} (clean : noDirty s core) : Releases s s core :=
  ⟨.refl s, resvsEnd_of_warps rfl, clean, fun a => (sees_of_noDirty clean a).symm⟩

theorem releases_l1Push (quiet : Quiet s) (caches : cachesOk s) {core : Nat} (compute : core < 1024) :
    Releases s (s.l1Push core everywhere) core := by
  obtain ⟨-, -, same, dirty⟩ := l1PushSectors_view quiet caches compute everywhere (dirtySectors everywhere (s.l1c core))
  have clean : noDirty (s.l1Push core everywhere) core := fun a => by
    refine (dirty a).trans ?_
    split
    · rfl
    · rename_i unsent
      refine Option.eq_none_iff_forall_ne_some.mpr fun v hv => unsent ⟨rfl, ?_⟩
      exact List.mem_dedup.mpr (List.mem_map.mpr ⟨a, List.mem_map.mpr ⟨(a, v), (mem_dirtyWhere (caches.1 core).1 _ a v).mpr ⟨rfl, hv⟩, rfl⟩, rfl⟩)
  exact ⟨memorySide_l1Push quiet core everywhere, resvsEnd_l1Push s core everywhere, clean,
    fun a => (sees_of_noDirty clean a).symm.trans (same a)⟩

/-- Where no page moves and the warp's queue has drained, a release at package scope waits for nothing. -/
theorem release_pk (quiet : Quiet s) (caches : cachesOk s) (drained : (s.warp n).storeQ = []) :
    ∃ t, s.release n .pk = .ok t ∧ Releases s t (s.warp n).core := by
  by_cases compute : (s.warp n).core < 1024
  · have released := releases_l1Push quiet caches compute
    refine ⟨_, ?_, released⟩
    have free := stalls_unmoved (released.side.quiet quiet).1 (s.warp n).core everywhere
    simp [State.release, drainAll_empty drained, scopeNum, compute, free]
  · refine ⟨s, ?_, releases_refl fun a => by rw [caches.2.1 _ (by omega)]; rfl⟩
    simp [State.release, drainAll_empty drained, scopeNum, compute]

/-! ## An instruction that releases and answers in a predicate -/

variable {i : Instr} {l : Nat}

/-- What the issue of the thread of a bundle of one adds to its effect. -/
theorem soloIssued_parts (i : Instr) (s : State) (l : Nat) (u : State) :
    soloIssued i s l u = { u with warps := (soloIssued i s l u).warps, cores := (soloIssued i s l u).cores } := by
  rw [soloIssued, stallYield_parts]
  rfl

theorem soloIssued_tenants (i : Instr) (s : State) (l : Nat) (u : State) (T : Tbl Tenant) :
    soloIssued i s l { u with tenants := T } = { soloIssued i s l u with tenants := T } := by
  have yields (v : State) : stallYield i s { v with tenants := T } = { stallYield i s v with tenants := T } := by
    rw [stallYield_eq i s v]
    split
    · exact if_pos ‹_›
    · exact if_neg ‹_›
  exact yields (u.modThread s.cur.warp l _)

/-- A thread issues after a release and an answer in its predicate, and nothing else of the machine changes but tenants. -/
structure AnswersReleased (i : Instr) (s t : State) (l : Nat) (q : Pred) (v : Bool) : Prop where
  frame : OneThreadOnly s { t with tenants := s.tenants } l
  drained : t.curWarp.storeQ = []
  issued : DoneResv i s (t.thread s.cur.warp l) (s.thread s.cur.warp l) (predDest q v)
  ordered : Ordered s t true false

/-- A thread that may have lost its reservation has the registers that it had. -/
theorem cur_of_resv {u v : Thread} (same : { u with resv := none } = { v with resv := none }) (r : RegRef) : u.cur r = v.cur r := by
  have kept (w : Thread) : { w with resv := none }.cur r = w.cur r := by cases r <;> rfl
  rw [← kept u, same, kept v]

theorem sets_of_resv {u v w : Thread} {ws : List (RegRef × Word)} (same : { u with resv := none } = { v with resv := none }) (sets : Sets u w ws) :
    Sets v w ws := by
  obtain ⟨written, kept⟩ := sets
  exact ⟨written, fun r other => (kept r other).trans (cur_of_resv same r)⟩

theorem noRegs_of_resv {u v : Thread} (same : { u with resv := none } = { v with resv := none }) :
    { u.noRegs with resv := none } = { v.noRegs with resv := none } :=
  congrArg Thread.noRegs same

/-- The thread that has issued, of one that may have lost its reservation before. -/
theorem doneResv_answered {u old : Thread} (same : { u with resv := none } = { old with resv := none }) (x : LaneCx) (q : Pred) (v : Bool) :
    DoneResv i s ((u.writeQ x (.var 300) q v).issued (s.core s.curWarp.core).step (ctlOf i).stall.val (nextPc i old)) old (predDest q v) := by
  obtain ⟨written, kept⟩ := sets_of_resv same (sets_writeQ u x (.var 300) q v)
  refine ⟨⟨rfl, rfl, rfl, rfl⟩, ?_, fun p hp => (cur_issued ..).trans (written p hp), fun r hr => (cur_issued ..).trans (kept r hr)⟩
  have bare : ((u.writeQ x (.var 300) q v).issued (s.core s.curWarp.core).step (ctlOf i).stall.val (nextPc i old)).noRegs = u.noRegs :=
    writeQ_noRegs u x (.var 300) q v
  rw [bare]
  exact noRegs_of_resv same

/-- What the answer and the issue leave alone of a machine that has released. -/
theorem scratchFrame_answered (issuer : s1.cur = s.cur) (q : Pred) (v : Bool) :
    ScratchFrame s1 (soloIssued i s l (s1.answer s.cur.warp l q v)) l := by
  have answers := scratchFrame_modThread s1 l fun u => u.writeQ (s1.cx s1.cur.warp l) (.var 300) q v
  rw [issuer] at answers
  have issues := scratchFrame_modThread (s1.answer s.cur.warp l q v) l fun u =>
    u.issued (s.core s.curWarp.core).step (ctlOf i).stall.val (nextPc i (s.thread s.cur.warp l))
  rw [show (s1.answer s.cur.warp l q v).cur = s.cur from issuer] at issues
  exact scratchFrame_trans answers (scratchFrame_trans issues (scratchFrame_stallYield i s _ l))

/-- AN INSTRUCTION THAT RELEASES AND ANSWERS in a bundle of one thread; the tenants after it are what its effect makes of them. -/
theorem releasedAnswer (solo : Solo i s l) {f : Nat → State → State × LaneOut} (runs : exec i s = laneFold i f s)
    (drained : s.curWarp.storeQ = []) (released : Releases s s1 s.curWarp.core) {T : Tbl Tenant} {q : Pred} {v : Bool}
    (effect : f l s = ({ s1.answer s.cur.warp l q v with tenants := T }, .next)) :
    ∃ t, exec i s = .next t ∧ AnswersReleased i s t l q v ∧ t.tenants = T := by
  obtain ⟨g, only, -, warp, thread⟩ := released.resvs.parts
  have issuer : s1.cur = s.cur := by obtain ⟨_, _, _, _, _, _, _, rfl⟩ := released.side; rfl
  have cores (c : Nat) : s1.core c = s.core c := by obtain ⟨_, _, _, _, _, _, _, rfl⟩ := released.side; rfl
  have still : beside { s1 with tenants := s.tenants } = beside s := by obtain ⟨_, _, _, _, _, _, _, rfl⟩ := released.side; rfl
  have frame : ScratchFrame s1 (soloIssued i s l (s1.answer s.cur.warp l q v)) l := scratchFrame_answered issuer q v
  have parts := soloIssued_parts i s l (s1.answer s.cur.warp l q v)
  have issued : (soloIssued i s l (s1.answer s.cur.warp l q v)).thread s.cur.warp l =
      ((s1.thread s.cur.warp l).writeQ (s1.cx s.cur.warp l) (.var 300) q v).issued (s.core s.curWarp.core).step (ctlOf i).stall.val
        (nextPc i (s.thread s.cur.warp l)) := by
    have there : l < (s1.warp s.cur.warp).threads.length := by rw [warp, eachThread, List.length_map]; exact solo.lane.2
    rw [soloIssued, stallYield_thread, State.thread_modThread, State.answer, State.thread_modThread _ _ _ _ there]
    rw [State.answer, State.warp_modThread, length_lmod]
    exact there
  refine ⟨_, runs.trans (laneFold_next solo effect), ?_, by rw [soloIssued_tenants]⟩
  rw [soloIssued_tenants]
  generalize soloIssued i s l (s1.answer s.cur.warp l q v) = t at frame parts issued ⊢
  have warps (m : Nat) : { t.warp m with threads := [], residency := 0 } = { s.warp m with threads := [], residency := 0 } := by
    rw [frame.warps, warp]
    rfl
  have queues (m : Nat) : (t.warp m).storeQ = (s.warp m).storeQ := by
    have same := congrArg Warp.storeQ (warps m)
    exact same
  have others (m : Nat) : { t.warp m with threads := [], residency := 0, storeQ := [] } =
      { s.warp m with threads := [], residency := 0, storeQ := [] } := congrArg (fun w : Warp => { w with storeQ := [] }) (warps m)
  have cur : t.cur = s.cur := by rw [parts]; exact issuer
  have home (a : Nat) : t.byteAt a = sees s s.curWarp.core a := (frame.memory.1 a).trans (released.bytes a)
  have clean : noDirty t s.curWarp.core := fun a => by rw [State.l1c, frame.memory.2]; exact released.clean a
  have icache (c : Nat) : (t.core c).icache = (s.core c).icache := by
    have same := congrArg Core.icache (frame.cores c)
    rw [cores] at same
    exact same
  refine ⟨⟨fun m u other => ?_, others, fun m _ => queues m, fun c => (frame.cores c).trans (by rw [cores]), ?_⟩, ?_, ?_, ?_⟩
  · have same : t.thread m u = g (s.thread m u) := (frame.threads m u (by rwa [issuer])).trans (thread m u)
    exact (congrArg (fun u : Thread => { u with resv := none }) same).trans (only.1 _)
  · rw [parts]
    exact still
  · show (t.warp t.cur.warp).storeQ = []
    rw [cur]
    exact (queues _).trans drained
  · show DoneResv i s (t.thread s.cur.warp l) _ _
    rw [issued]
    exact doneResv_answered (by rw [thread]; exact only.1 _) _ q v
  · exact ⟨fun a => (sees_of_noDirty clean a).trans (home a), fun _ a => ⟨home a, clean a⟩, nofun, nofun, fun _ => icache _⟩

end

end Sys2Proof.Proofs
end

