-- ==== Sys2Proof/Proofs/SoloTraps.lean ====
section
/-! PROOFS. A user trap of the one thread of a bundle. -/

namespace Sys2Proof.Proofs

open Sys2Proof Sys2Proof.Machine Sys2Proof.Claims

-- One proof after another: proofs run side by side over a text of this length need more threads than the check has memory for.
set_option Elab.async false

section
variable {i : Instr} {s : State} {l : Nat} {c : TrapInfo}

/-! ## A trap of the one thread of a bundle (R239) -/

/-- The machine in which the thread of a bundle of one has taken a user trap. -/
def soloTrapped (s : State) (l : Nat) (c : TrapInfo) : State :=
  s.setWarp s.cur.warp
    (s.curWarp.takeTrap s.cur.slot (s.core s.curWarp.core).step s.curPc [{ lane := l, info := c, t := s.thread s.cur.warp l }])

theorem stallYield_self (i : Instr) (s : State) : stallYield i s s = s := by
  rw [stallYield_eq, if_neg]
  rintro ⟨-, -, issued⟩
  simp [issuedAny] at issued

/-- A cause that a thread raises with no effect before it is a user trap, where the warp takes one now. -/
theorem laneFold_trap (solo : Solo i s l) (traceable : Traceable s) (compute : c.cause ≠ 0x10) {f : Nat → State → State × LaneOut}
    (effect : f l s = (s, .trap c)) : laneFold i f s = .next (soloTrapped s l c) := by
  obtain ⟨user, vector, free⟩ := traceable
  have issues : issueInstead i s = none := solo.issues
  have level : (s.warp s.cur.warp).level = .user := user
  have vec : ¬ (s.warp s.cur.warp).tvec = 0#64 := vector
  have mask : (s.warp s.cur.warp).tmask = 0#32 := free
  simp [laneFold, issues, lanes_of_solo solo, foldLane, solo.alive, solo.guard, effect, liveRaises, stallYield_self, State.deliver, level, compute,
    State.deliverUser, vec, mask, soloTrapped, State.curWarp]

theorem mbit_maskOf_single (small : l < 32) (m : Nat) : mbit (maskOf [l]) m = decide (m = l) := by
  show (0#32 ||| BitVec.ofNat 32 (2 ^ l)).getLsbD m = decide (m = l)
  rw [BitVec.zero_or, BitVec.getLsbD_ofNat, Nat.testBit_two_pow]
  by_cases own : m = l
  · simp [own, small]
  · simp [own, Ne.symm own]

/-- The one thread of the bundle is the one that acts. -/
theorem acting_of_solo (solo : Solo i s l) (m : Nat) : acting i s m = decide (m = l) := by
  rw [acting, solo.lanes, mbit_maskOf_single solo.lane.1]
  by_cases own : m = l
  · subst own
    rw [solo.guard, Bool.and_true]
  · simp [own]

theorem warp_soloTrapped (s : State) (l : Nat) (c : TrapInfo) : (soloTrapped s l c).warp s.cur.warp =
    s.curWarp.takeTrap s.cur.slot (s.core s.curWarp.core).step s.curPc [{ lane := l, info := c, t := s.thread s.cur.warp l }] :=
  State.warp_setWarp ..

theorem thread_soloTrapped (there : l < s.curWarp.threads.length) (c : TrapInfo) (m : Nat) : (soloTrapped s l c).thread s.cur.warp m =
    if m = l then (s.thread s.cur.warp l).toHandler s.curWarp.tvec (s.core s.curWarp.core).step c.telem else s.thread s.cur.warp m := by
  rw [State.thread, warp_soloTrapped]
  simp only [Warp.takeTrap, List.foldl_cons, List.foldl_nil, getElem?_lset]
  split
  · rename_i own
    rw [own, List.getElem?_eq_getElem there]
    rfl
  · rfl

theorem traps_soloTrapped (solo : Solo i s l) (telem : c.telem = 0) :
    Traps s (soloTrapped s l c) (acting i s) c.cause c.addr ∧ TrapFrame s (soloTrapped s l c) := by
  have thread := thread_soloTrapped solo.lane.2 c
  have warp : (soloTrapped s l c).curWarp = _ := warp_soloTrapped s l c
  refine ⟨⟨by rw [warp]; rfl, by rw [warp]; rfl, by rw [warp]; rfl, fun m _ => ?_, fun m acts _ => ?_⟩,
    ⟨fun n other => State.warp_setWarp_other _ _ other, by rw [warp]; rfl, fun m out => ?_, rfl, fun _ => rfl, fun _ => rfl, rfl⟩⟩
  · rw [warp, acting_of_solo solo, ← mbit_maskOf_single solo.lane.1]
    rfl
  · rw [acting_of_solo solo] at acts
    obtain rfl : m = l := by simpa using acts
    rw [thread, if_pos rfl, telem]
    exact ⟨rfl, rfl, rfl, rfl, rfl⟩
  · rw [thread, if_neg]
    rintro rfl
    rw [solo.lanes, mbit_maskOf_single solo.lane.1, decide_eq_true rfl] at out
    cases out

end

end Sys2Proof.Proofs
end

