-- ==== Sys2Proof/Proofs/DeferredFrees.lean ====
section
/-! PROOFS. DEFER: the word that names its pool, its check, and what it posts. -/

namespace Sys2Proof.Proofs

open Sys2Proof Sys2Proof.Machine Sys2Proof.Claims

-- One proof after another: proofs run side by side over a text of this length need more threads than the check has memory for.
set_option Elab.async false

/-! ## The word that names a pool and a class (R136) -/

theorem poolArg_fields {b : Word} {k p : Nat} (form : poolWord b k p) : poolArgOk b = true ∧ wbits b 0 5 = k ∧ wbits b 8 4 = p := by
  have every : ∀ (p : Fin 16) (k : Fin 17), poolArgOk (BitVec.ofNat 64 (p.val * 256 + k.val)) = true := by decide
  obtain ⟨rfl, small, low⟩ := form
  refine ⟨every ⟨p, low⟩ ⟨k, by omega⟩, ?_, ?_⟩ <;> simp only [wbits, BitVec.toNat_ofNat] <;> omega

/-- The bits that gB may have set. -/
theorem poolArg_mask {i : Nat} (small : i < 64) : (0xF1F#64).getLsbD i = (decide (i < 5) || (decide (8 ≤ i) && decide (i < 12))) := by
  have every : ∀ i : Fin 64, (0xF1F#64).getLsbD i.val = (decide (i.val < 5) || (decide (8 ≤ i.val) && decide (i.val < 12))) := by decide
  exact every ⟨i, small⟩

theorem poolWord_of_poolArgOk {b : Word} (form : poolArgOk b = true) : poolWord b (wbits b 0 5) (wbits b 8 4) := by
  simp only [poolArgOk, Bool.and_eq_true, decide_eq_true_eq, beq_iff_eq] at form
  obtain ⟨small, rest⟩ := form
  refine ⟨BitVec.eq_of_getLsbD_eq fun i inside => ?_, small, Nat.mod_lt _ (by decide)⟩
  have zero : (b &&& ~~~0xF1F#64).getLsbD i = (0#64).getLsbD i := congrArg (·.getLsbD i) rest
  rw [BitVec.getLsbD_and, BitVec.getLsbD_not, decide_eq_true inside, Bool.true_and, BitVec.getLsbD_zero, poolArg_mask inside] at zero
  have value : wbits b 8 4 * 256 + wbits b 0 5 = 2 ^ 8 * (b.toNat / 2 ^ 8 % 2 ^ 4) + b.toNat % 2 ^ 5 := by simp only [wbits]; omega
  have less : b.toNat % 2 ^ 5 < 2 ^ 8 := by omega
  rw [BitVec.getLsbD_ofNat, value, Nat.testBit_two_pow_mul_add _ less, decide_eq_true inside, Bool.true_and]
  split
  · rw [Nat.testBit_mod_two_pow]
    by_cases low : i < 5
    · rw [decide_eq_true low]
      rfl
    · simpa [low, show ¬ 8 ≤ i by omega] using zero
  · rw [Nat.testBit_mod_two_pow, Nat.testBit_div_two_pow, show i - 8 + 8 = i by omega]
    by_cases low : i < 12
    · rw [decide_eq_true (show i - 8 < 4 by omega)]
      rfl
    · simpa [low, show ¬ i < 5 by omega, show ¬ i - 8 < 4 by omega] using zero

/-! ## A deferred free -/

theorem serves_iff (q : Pool) : q.serves = true ↔ q.en = true ∧ q.ready = true := by simp [Pool.serves]

theorem names_iff (q : Pool) (b k : Nat) : q.names b k = true ↔ blockOf q b k := by
  rw [Pool.names, Bool.and_eq_true, Bool.and_eq_true, decide_eq_true_iff, decide_eq_true_iff, beq_iff_eq, and_assoc]
  rfl

section
variable {s t : State} {tn ptr k p : Nat}

/-- A post to a pool that serves, for a block of it, passes. -/
theorem deferCheck_passes (serves : (s.pool tn p).serves = true) (names : (s.pool tn p).names ptr k = true) :
    s.deferCheck tn ptr k p = (s, true) := by simp [State.deferCheck, serves, names]

theorem deferCheck_noBlock (serves : (s.pool tn p).serves = true) (names : (s.pool tn p).names ptr k = false) :
    s.deferCheck tn ptr k p = (s.perr tn p, false) := by simp [State.deferCheck, serves, names]

theorem deferCheck_noService (off : (s.pool tn p).serves = false) : s.deferCheck tn ptr k p = (s, false) := by simp [State.deferCheck, off]

end

section
variable {i : Instr} {q : Pred} {a b : Src} {wt : Bool} {s s1 : State} {l kk p : Nat}

/-- What DEFER does once it has released, by its check and the room. -/
theorem deferLane_released (single : s.curWarp.paired = false) (form : poolWord ((s.cx s.cur.warp l).src b) kk p)
    (outside : wt = true → (s.thread s.cur.warp l).rsDepth = 0) (released : s.release s.cur.warp .pk = .ok s1)
    {c : State × Bool} (check : s1.deferCheck s.curWarp.tenant ((s.cx s.cur.warp l).src a).toNat kk p = c)
    (room : c.2 = true → s1.deferTaken s.curWarp.tenant < 65536) : deferLane i q a b wt l s =
      ((if c.2 then c.1.pushDefer s.curWarp.tenant ((s.cx s.cur.warp l).src a).toNat kk p else c.1).answer s.cur.warp l q c.2, .next) := by
  obtain ⟨ok, rfl, rfl⟩ := poolArg_fields form
  subst check
  have free : (wt && (s.cx s.cur.warp l).t.rsDepth != 0) = false := by
    cases wt with
    | false => rfl
    | true => rw [show (s.cx s.cur.warp l).t.rsDepth = 0 from outside rfl]; rfl
  have alone : (s.cx s.cur.warp l).w.paired = false := single
  have tenant : (s.cx s.cur.warp l).w.tenant = s.curWarp.tenant := rfl
  simp only [deferLane, ok, free, released, alone, tenant, Bool.false_eq_true, Bool.true_eq_false, if_false]
  cases passes : (s1.deferCheck s.curWarp.tenant ((s.cx s.cur.warp l).src a).toNat (wbits ((s.cx s.cur.warp l).src b) 0 5)
      (wbits ((s.cx s.cur.warp l).src b) 8 4)).2 with
  | false => simp
  | true =>
    have space := room passes
    have full : ¬ Config.deferLen < s1.deferTaken s.curWarp.tenant + 1 := by
      rw [Config.deferLen]
      omega
    simp [full]

theorem execDefer_solo {k : Ctl} (single : s.curWarp.paired = false) :
    exec (.defer k q a b wt) s = laneFold (.defer k q a b wt) (deferLane (.defer k q a b wt) q a b wt) s := by
  show segStore _ _ _ s = _
  rw [segStore, if_neg (by rw [single]; exact Bool.false_ne_true)]

/-- A change of a tenant, where the tenants stand as in another machine. -/
theorem modTenant_of_tenants (same : s1.tenants = s.tenants) (n : Nat) (f : Tenant → Tenant) :
    s1.modTenant n f = { s1 with tenants := (s.modTenant n f).tenants } := by
  rw [State.modTenant, State.modTenant, State.tenant, State.tenant, same]

theorem perr_of_tenants (same : s1.tenants = s.tenants) (n r : Nat) : s1.perr n r = { s1 with tenants := (s.perr n r).tenants } := by
  rw [State.perr, State.perr, State.modPool, State.modPool, modTenant_of_tenants same, State.pool, State.pool, State.tenant, State.tenant, same]

/-- What follows a release leaves the pools as they were. -/
theorem Releases.tenants {core : Nat} (h : Releases s s1 core) : s1.tenants = s.tenants := by
  obtain ⟨_, _, _, _, _, _, _, rfl⟩ := h.side
  rfl

theorem Releases.deferTaken {core : Nat} (h : Releases s s1 core) (m : Nat) : s1.deferTaken m = s.deferTaken m := by
  refine deferTaken_resvsEnd h.resvs h.tenants ?_ ?_ m <;> · obtain ⟨_, _, _, _, _, _, _, rfl⟩ := h.side; rfl

/-- DEFER WITH ITS POOL'S WORD IN FORM, in one thread: it issues after a release, with the predicate and the tenants that its check finds. -/
theorem defer_issues {k : Ctl} (solo : Solo (.defer k q a b wt) s l) (form : poolWord ((s.cx s.cur.warp l).src b) kk p)
    (drained : s.curWarp.storeQ = []) (quiet : Quiet s) (caches : cachesOk s) (outside : wt = true → (s.thread s.cur.warp l).rsDepth = 0)
    {T : Tbl Tenant} {v : Bool} (room : v = true → s.deferTaken s.curWarp.tenant < 65536)
    (check : ∀ s1 : State, s1.tenants = s.tenants → ∃ u,
      s1.deferCheck s.curWarp.tenant ((s.cx s.cur.warp l).src a).toNat kk p = (u, v) ∧
      (if v then u.pushDefer s.curWarp.tenant ((s.cx s.cur.warp l).src a).toNat kk p else u) = { s1 with tenants := T }) :
    ∃ t, exec (.defer k q a b wt) s = .next t ∧ AnswersReleased (.defer k q a b wt) s t l q v ∧ t.tenants = T := by
  obtain ⟨s1, release, released⟩ := release_pk quiet caches drained
  obtain ⟨u, found, after⟩ := check s1 released.tenants
  refine releasedAnswer solo (execDefer_solo solo.single) drained released ?_
  rw [deferLane_released solo.single form outside release found fun passes => (released.deferTaken _).trans_lt (room passes)]
  dsimp only
  rw [after]
  rfl

end

/-- Settles O38: a post releases and answers in its predicate, by the check of its pool; a word out of form traps before it releases. -/
theorem deferredFrees : Obligations.DeferredFrees := by
  intro k q a b wt s l kk p i n tn ptr gb pool out solo
  refine ⟨fun form drained quiet caches outside => ⟨fun en ready block room => ?_, fun en ready other => ?_, fun off => ?_⟩,
    fun traceable unformed => ?_⟩
  · have serves : pool.serves = true := (serves_iff pool).mpr ⟨en, ready⟩
    have names : pool.names ptr kk = true := (names_iff pool ptr kk).mpr block
    obtain ⟨t, runs, ⟨frame, empty, issued, ordered⟩, tenants⟩ := defer_issues (v := true) (T := (s.pushDefer tn ptr kk p).tenants) solo form drained
      quiet caches outside (fun _ => room) fun s1 same => by
        have pools : s1.pool tn p = pool := by rw [State.pool, State.tenant, same]; rfl
        exact ⟨s1, deferCheck_passes (by rwa [pools]) (by rwa [pools]), (if_pos rfl).trans (modTenant_of_tenants same tn _)⟩
    refine ⟨t, runs, ⟨frame, empty, issued, ordered⟩, fun j => ?_⟩
    rw [State.tenant, tenants]
    exact modTenant_tenant s tn j _
  · have serves : pool.serves = true := (serves_iff pool).mpr ⟨en, ready⟩
    have names : pool.names ptr kk = false := Bool.eq_false_iff.mpr fun named => other ((names_iff pool ptr kk).mp named)
    obtain ⟨t, runs, ⟨frame, empty, issued, ordered⟩, tenants⟩ := defer_issues (v := false) (T := (s.perr tn p).tenants) solo form drained
      quiet caches outside nofun fun s1 same => by
        have pools : s1.pool tn p = pool := by rw [State.pool, State.tenant, same]; rfl
        exact ⟨_, deferCheck_noBlock (by rwa [pools]) (by rwa [pools]), (if_neg Bool.false_ne_true).trans (perr_of_tenants same tn p)⟩
    refine ⟨t, runs, ⟨frame, empty, issued, ordered⟩, ?_⟩
    simp only [OnlyPool, State.pool, State.tenant, tenants]
    exact onlyPool_modPool s tn p _
  · have serves : pool.serves = false := Bool.eq_false_iff.mpr fun on => off ((serves_iff pool).mp on)
    obtain ⟨t, runs, ⟨frame, empty, issued, ordered⟩, tenants⟩ := defer_issues (v := false) (T := s.tenants) solo form drained
      quiet caches outside nofun fun s1 same => by
        have pools : s1.pool tn p = pool := by rw [State.pool, State.tenant, same]; rfl
        exact ⟨s1, deferCheck_noService (by rwa [pools]), by rw [← same]; rfl⟩
    exact ⟨t, runs, ⟨frame, empty, issued, ordered⟩, tenants⟩
  · have bad : poolArgOk gb = false := Bool.eq_false_iff.mpr fun ok => unformed _ _ (poolWord_of_poolArgOk ok)
    have effect : deferLane i q a b wt l s = (s, .trap { cause := 1, addr := gb }) := if_pos bad
    exact ⟨_, (execDefer_solo solo.single).trans (laneFold_trap solo traceable (by decide : (1 : Nat) ≠ 0x10) effect), traps_soloTrapped solo rfl⟩

end Sys2Proof.Proofs
end

