-- ==== Sys2Proof/Proofs/GraceReports.lean ====
section
/-! PROOFS. Reports and acknowledgements of Guyline nodes, and grace periods that end and start. -/

namespace Sys2Proof.Proofs

open Sys2Proof Sys2Proof.Machine Sys2Proof.Claims

-- One proof after another: proofs run side by side over a text of this length need more threads than the check has memory for.
set_option Elab.async false

/-! ## The report of a node (R130) -/

theorem leastStart_concat (ts : List Thread) (u : Thread) : leastStart (ts ++ [u]) =
    if u.rsDepth ≠ 0 ∧ u.exited = false then minStart (leastStart ts) u.rsStart else leastStart ts := List.foldl_append

/-- A number is the least start of the threads that are in read sections. -/
def LeastOf (ts : List Thread) (g : Nat) : Prop :=
  (∃ u ∈ ts, u.rsDepth ≠ 0 ∧ u.exited = false ∧ u.rsStart = g) ∧ ∀ u ∈ ts, u.rsDepth ≠ 0 → u.exited = false → g ≤ u.rsStart

theorem leastOf_skip {ts : List Thread} {u : Thread} {g : Nat} (outside : ¬ (u.rsDepth ≠ 0 ∧ u.exited = false)) (least : LeastOf ts g) :
    LeastOf (ts ++ [u]) g := by
  obtain ⟨⟨v, among, start⟩, below⟩ := least
  refine ⟨⟨v, List.mem_append_left _ among, start⟩, fun w mem depth alive => ?_⟩
  rcases List.mem_append.mp mem with old | new
  · exact below w old depth alive
  · obtain rfl := List.mem_singleton.mp new
    exact absurd ⟨depth, alive⟩ outside

theorem leastOf_min {ts : List Thread} {u : Thread} {g : Nat} (inside : u.rsDepth ≠ 0 ∧ u.exited = false) (least : LeastOf ts g) :
    LeastOf (ts ++ [u]) (min g u.rsStart) := by
  obtain ⟨⟨v, among, depth, alive, start⟩, below⟩ := least
  constructor
  · rcases Nat.le_total g u.rsStart with le | le
    · exact ⟨v, List.mem_append_left _ among, depth, alive, by omega⟩
    · exact ⟨u, by simp, inside.1, inside.2, by omega⟩
  · intro w mem depth alive
    rcases List.mem_append.mp mem with old | new
    · have := below w old depth alive
      omega
    · obtain rfl := List.mem_singleton.mp new
      omega

theorem leastOf_first {ts : List Thread} {u : Thread} (inside : u.rsDepth ≠ 0 ∧ u.exited = false)
    (none : ∀ v ∈ ts, v.rsDepth = 0 ∨ v.exited = true) : LeastOf (ts ++ [u]) u.rsStart := by
  refine ⟨⟨u, by simp, inside.1, inside.2, rfl⟩, fun w mem depth alive => ?_⟩
  rcases List.mem_append.mp mem with old | new
  · rcases none w old with out | gone
    · exact absurd out depth
    · rw [alive] at gone
      cases gone
  · obtain rfl := List.mem_singleton.mp new
    exact Nat.le_refl _

theorem leastStart_spec (ts : List Thread) : (leastStart ts = none ∧ ∀ u ∈ ts, u.rsDepth = 0 ∨ u.exited = true) ∨
    ∃ g, leastStart ts = some g ∧ LeastOf ts g := by
  induction ts using List.reverseRecOn with
  | nil => exact .inl ⟨rfl, fun _ mem => absurd mem List.not_mem_nil⟩
  | append_singleton ts u ih =>
    rw [leastStart_concat]
    by_cases inside : u.rsDepth ≠ 0 ∧ u.exited = false
    · rw [if_pos inside]
      rcases ih with ⟨none, out⟩ | ⟨g, some, least⟩
      · exact .inr ⟨u.rsStart, by rw [none]; rfl, leastOf_first inside out⟩
      · exact .inr ⟨min g u.rsStart, by rw [some]; rfl, leastOf_min inside least⟩
    · rw [if_neg inside]
      rcases ih with ⟨none, out⟩ | ⟨g, some, least⟩
      · refine .inl ⟨none, fun w mem => ?_⟩
        rcases List.mem_append.mp mem with old | new
        · exact out w old
        · obtain rfl := List.mem_singleton.mp new
          by_cases depth : w.rsDepth = 0
          · exact .inl depth
          · exact .inr (Bool.not_eq_false _ |>.mp fun alive => inside ⟨depth, alive⟩)
      · exact .inr ⟨g, some, leastOf_skip inside least⟩

section
variable {s : State} {node k : Nat}

theorem reportTenant_tenant (s : State) (node j k : Nat) : (s.reportTenant node j).tenant k =
    if k = j then { s.tenant j with reports := tset (s.tenant j).reports node (s.reportOf node j) } else s.tenant k :=
  modTenant_tenant s j k _

/-- The reports of a node for the tenants below a number. -/
theorem reportTenants (s : State) (node n : Nat) : ∃ T, (List.range n).foldl (fun s t => s.reportTenant node t) s = { s with tenants := T } ∧
    ∀ k, ({ s with tenants := T } : State).tenant k =
      if k < n then { s.tenant k with reports := tset (s.tenant k).reports node (s.reportOf node k) } else s.tenant k := by
  induction n with
  | zero => exact ⟨s.tenants, rfl, fun k => rfl⟩
  | succ n ih =>
    obtain ⟨T, before, tenant⟩ := ih
    rw [List.range_succ, List.foldl_append, before]
    refine ⟨_, rfl, fun k => (reportTenant_tenant _ node n k).trans ?_⟩
    have report : ({ s with tenants := T } : State).reportOf node n = s.reportOf node n := by
      have same := tenant n
      rw [if_neg (Nat.lt_irrefl n)] at same
      rw [State.reportOf, same]
      rfl
    rw [tenant, tenant, report]
    by_cases own : k = n
    · rw [if_pos own, if_neg (Nat.lt_irrefl n), if_pos (by omega), own]
    · rw [if_neg own]
      by_cases below : k < n
      · rw [if_pos below, if_pos (by omega)]
      · rw [if_neg below, if_neg (by omega)]

theorem guylineReport_reports (within : node < 1088) (small : k < 16) : ∃ t, exec (.guylineReport node) s = .next t ∧
    t = { s with tenants := t.tenants } ∧ ∃ r, tget (t.tenant k).reports node = some r ∧ r.acked = tgetD (s.tenant k).ack node 1 ∧
      { t.tenant k with reports := [] } = { s.tenant k with reports := [] } ∧
      ((r.least = none ∧ ∀ u ∈ s.nodeThreads node k, u.rsDepth = 0 ∨ u.exited = true) ∨ ∃ g, r.least = some g ∧ LeastOf (s.nodeThreads node k) g) := by
  obtain ⟨T, reports, tenant⟩ := reportTenants s node 16
  have own := tenant k
  rw [if_pos small] at own
  refine ⟨{ s with tenants := T }, congrArg Host.Outcome.next ((if_pos within).trans reports), rfl, s.reportOf node k, ?_, rfl, ?_, leastStart_spec _⟩
  · rw [own]
    exact tget_tset_same ..
  · rw [own]

/-! ## An acknowledgement (R130) -/

/-- A byte that a cache keeps of a drop is one that the drop spares, whatever the order of its tables. -/
theorem spared_of_byte_dropIf {p : Nat → CByte → Bool} {c : Cache} {a : Nat} {b : CByte} (kept : (dropIf p c).byte a = some b) : p a b = false := by
  rw [Cache.byte_eq, sectors_dropIf, Option.bind_eq_some_iff] at kept
  obtain ⟨x, sector, byte⟩ := kept
  obtain ⟨⟨j, y⟩, -, e⟩ := List.mem_map.mp (List.mem_filter.mp (mem_of_tget sector)).1
  obtain ⟨rfl, rfl⟩ := Prod.mk.inj e
  have spared := (List.mem_filter.mp (mem_of_tget byte)).2
  rw [show 64 * (a / 64) + a % 64 = a by omega] at spared
  simpa using spared

theorem byte_l1DropClean {a : Nat} {b : CByte} (kept : ((s.l1DropClean node).l1c node).byte a = some b) :
    b.dirty = true ∨ s.stalls node (fun x => x == a) = true := by
  rw [State.l1DropClean, l1c_setL1, if_pos rfl] at kept
  have spared := spared_of_byte_dropIf kept
  cases dirty : b.dirty with
  | true => exact .inl rfl
  | false =>
    rw [dirty] at spared
    exact .inr (by simpa using spared)

/-- Clean bytes that a core drops are none of its own stores. -/
theorem sees_l1DropClean (caches : cachesOk s) (c a : Nat) : sees (s.l1DropClean node) c a = sees s c a := by
  have bytes : (s.l1DropClean node).byteAt a = s.byteAt a := byteAt_congr rfl rfl rfl a
  have dirty : ((s.l1DropClean node).l1c c).dirtyByte a = (s.l1c c).dirtyByte a := by
    rw [State.l1DropClean, l1c_setL1]
    split
    · rename_i own
      rw [own, dirtyByte_eq, dirtyByte_eq, byte_dropIf (caches.1 node).1]
      cases (s.l1c node).byte a with
      | none => rfl
      | some b => cases clean : b.dirty <;> by_cases waits : s.stalls node (fun x => x == a) = true <;> simp [Option.filter, clean, waits]
    · rfl
  rw [sees, sees, bytes, dirty]

theorem gpseqAcknowledge_acknowledges (within : node < 1024) (small : k < 16) (older : tgetD (s.tenant k).ack node 1 < (s.tenant k).gpseq) :
    ∃ t, exec (.gpseqAcknowledge node k) s = .next t ∧ tget (t.tenant k).ack node = some (s.tenant k).gpseq ∧
      (∀ p b, (t.l1c node).byte p = some b → b.dirty = true ∨ s.stalls node (fun a => a == p) = true) ∧
      (cachesOk s → ∀ c p, sees t c p = sees s c p) ∧ (∀ p, t.byteAt p = s.byteAt p) ∧ t = { s with l1 := t.l1, tenants := t.tenants } := by
  have runs : s.acknowledge node k = ((s.l1DropClean node).modTenant k fun k => { k with ack := tset k.ack node k.gpseq }).reportTenant node k := by
    rw [State.acknowledge, if_pos ⟨by omega, small, older⟩, if_pos within]
  refine ⟨_, congrArg Host.Outcome.next runs, ?_, fun p b => byte_l1DropClean, fun caches c p => ?_, fun p => byteAt_congr rfl rfl rfl p, rfl⟩
  · rw [reportTenant_tenant, if_pos rfl, modTenant_tenant, if_pos rfl]
    exact tget_tset_same ..
  · exact sees_l1DropClean caches c p

/-! ## Grace periods done and started (R130, R137) -/

/-- Whether a start, if there is one, lies above a number. -/
def aboveStart (g : Nat) : Option Nat → Prop
  | some j => g < j
  | none => True

theorem graceDone_of_reports {g : Nat} (reports : ∀ n, n < 1088 → ∃ r, tget (s.tenant k).reports n = some r ∧ g < r.acked ∧ aboveStart g r.least)
    (saved : aboveStart g (s.bivSummary k)) : s.graceDone k g = true := by
  simp only [State.graceDone, Bool.and_eq_true, List.all_eq_true, guylineNodes, List.mem_range, decide_eq_true_eq]
  constructor
  · intro n within
    obtain ⟨r, found, acked, least⟩ := reports n within
    rw [tgetD, found]
    refine ⟨acked, ?_⟩
    dsimp only [Option.getD_some]
    cases start : r.least with
    | none => rfl
    | some j => rw [start] at least; exact decide_eq_true least
  · cases start : s.bivSummary k with
    | none => rfl
    | some j => rw [start] at saved; exact decide_eq_true saved

/-- A background period, where it is due, takes the next grace number. -/
theorem background_tenant (s : State) (k : Nat) : s.background k = { s with tenants := (s.background k).tenants } ∧
    (s.background k).tenant k = { s.tenant k with gpseq := (s.tenant k).gpseq + if (s.tenant k).wantsGrace then 1 else 0 } := by
  unfold State.background
  split
  · exact ⟨rfl, State.tenant_modTenant ..⟩
  · exact ⟨rfl, rfl⟩

theorem gracePeriodDone_done (small : k < 16) (started : (s.tenant k).gpDone + 1 < (s.tenant k).gpseq)
    (done : s.graceDone k ((s.tenant k).gpDone + 1) = true) : ∃ t, exec (.gracePeriodDone k) s = .next t ∧
      (t.tenant k).gpDone = (s.tenant k).gpDone + 1 ∧ (s.tenant k).gpseq ≤ (t.tenant k).gpseq ∧ (t.tenant k).gpseq ≤ (s.tenant k).gpseq + 1 ∧
      t = { s with tenants := t.tenants } := by
  have runs : s.ofTenant k (fun s => s.graceStep k) = (s.modTenant k fun k => { k with gpDone := k.gpDone + 1 }).background k := by
    rw [ofTenant_eq s small, State.graceStep, if_pos ⟨started, done⟩]
  obtain ⟨frame, tenant⟩ := background_tenant (s.modTenant k fun k => { k with gpDone := k.gpDone + 1 }) k
  rw [modTenant_tenant, if_pos rfl] at tenant
  refine ⟨_, congrArg Host.Outcome.next runs, ?_, ?_, ?_, frame⟩ <;> rw [tenant]
  · exact Nat.le_add_right ..
  · dsimp only
    split <;> omega

theorem backgroundGraceStart_starts (small : k < 16) (idle : (s.tenant k).gpseq = (s.tenant k).gpDone + 1)
    (waits : ∃ e ∈ (s.tenant k).deferQ, (s.tenant k).gpDone < e.target) :
    ∃ t, exec (.backgroundGraceStart k) s = .next t ∧ OnlyTenant s t k fun T => { T with gpseq := T.gpseq + 1 } := by
  obtain ⟨e, among, later⟩ := waits
  have wants : (s.tenant k).wantsGrace = true := by
    rw [Tenant.wantsGrace, Bool.and_eq_true, beq_iff_eq, List.any_eq_true]
    exact ⟨idle, e, among, decide_eq_true later⟩
  have runs : s.ofTenant k (fun s => s.background k) = s.modTenant k fun T => { T with gpseq := T.gpseq + 1 } := by
    rw [ofTenant_eq s small, State.background, if_pos wants]
    rfl
  exact ⟨_, congrArg Host.Outcome.next runs, onlyTenant_modTenant ..⟩

end

end Sys2Proof.Proofs
end

