-- ==== Sys2Proof/Proofs/TableLooks.lean ====
section
/-! PROOFS. What a look at memory and a translation of the device change, and the metadata bytes that Stuffsack reads. -/

namespace Sys2Proof.Proofs

open Sys2Proof Sys2Proof.Machine Sys2Proof.Claims

-- One proof after another: proofs run side by side over a text of this length need more threads than the check has memory for.
set_option Elab.async false

/-! ## What a look at memory and at its tables changes -/

/-- A LOOK AT MEMORY (R187, R188, R139): the service die's TLB gains some entries, the L2s fill, requests count, and nothing that anyone
reads changes. -/
structure Looks (s t : State) (new : List TlbEntry) : Prop where
  rest : ∃ c cs d, t = { s with l2 := c, counters := cs, drawn := d, tlb := s.tlb ++ new }
  keeps : Keeps s t
  bytes : ∀ a, t.byteAt a = s.byteAt a

section
variable {s t u : State} {new more : List TlbEntry}

theorem Looks.refl (s : State) : Looks s s [] := ⟨⟨_, _, _, by rw [List.append_nil]⟩, .refl s, fun _ => rfl⟩

theorem Looks.trans (h : Looks s t new) (k : Looks t u more) : Looks s u (new ++ more) := by
  obtain ⟨c, cs, d, e⟩ := h.rest
  obtain ⟨c', cs', d', e'⟩ := k.rest
  exact ⟨⟨c', cs', d', by rw [e', e, List.append_assoc]⟩, h.keeps.trans k.keeps, fun a => (k.bytes a).trans (h.bytes a)⟩

theorem Looks.tenants (h : Looks s t new) : t.tenants = s.tenants := by
  obtain ⟨_, _, _, rfl⟩ := h.rest
  rfl

theorem Looks.pool (h : Looks s t new) (k p : Nat) : t.pool k p = s.pool k p := by rw [State.pool, State.tenant, h.tenants]; rfl

theorem Looks.fwds (h : Looks s t new) : t.fwds = s.fwds := by
  obtain ⟨_, _, _, rfl⟩ := h.rest
  rfl

theorem Looks.tlb (h : Looks s t new) : t.tlb = s.tlb ++ new := by
  obtain ⟨_, _, _, rfl⟩ := h.rest
  rfl

theorem Looks.quiet (h : Looks s t new) (quiet : Quiet s) : Quiet t := quiet_congr quiet h.fwds h.tenants

theorem Looks.caches (h : Looks s t new) (caches : cachesOk s) : cachesOk t := h.keeps.cachesOk caches

/-- Looks one after another that take no entry into a TLB. -/
theorem Looks.foldl {α : Type} {f : State → α → State} (step : ∀ t x, Quiet t → Looks t (f t x) []) (xs : List α) (quiet : Quiet s) :
    Looks s (xs.foldl f s) [] := by
  induction xs generalizing s with
  | nil => exact .refl s
  | cons x xs ih => exact (step s x quiet).trans (ih ((step s x quiet).quiet quiet))

theorem looks_drawn (s : State) (d : Nat) : Looks s { s with drawn := d } [] :=
  ⟨⟨_, _, _, by rw [List.append_nil]⟩, .refl s, fun _ => byteAt_congr rfl rfl rfl _⟩

theorem looks_count (quiet : Quiet s) (attr : Option Xlat) (pa n : Nat) : Looks s (s.count attr pa n) [] := by
  obtain ⟨cs, e⟩ := count_quiet quiet attr pa n
  rw [e]
  exact ⟨⟨_, _, _, by rw [List.append_nil]⟩, .refl s, fun _ => byteAt_congr rfl rfl rfl _⟩

theorem looks_countLines (quiet : Quiet s) (x : Xlat) (pa n : Nat) : Looks s (s.countLines x pa n) [] :=
  .foldl (fun _ _ quiet => looks_count quiet ..) _ quiet

/-! ## Reads through an L2 -/

theorem looks_l2Fill (quiet : Quiet s) (id : Nat) (attr : Option Xlat) (sec : Nat) : Looks s (s.l2Fill id attr sec) [] := by
  unfold State.l2Fill
  split
  · split
    · rename_i c placed
      have fills : Looks s (s.setL2 id (c.fill sec s.cohByte)) [] := by
        refine ⟨⟨_, _, _, by rw [List.append_nil]; rfl⟩, (Keeps.refl s).setL2 (tamer_fill (sectors_l2Place placed) _ _), fun a =>
          byteAt_of_parts (s := s) (t := s.setL2 id (c.fill sec s.cohByte)) rfl rfl fun j _ => ?_⟩
        rw [l2c_setL2]
        split
        · rename_i own
          rw [dirtyByte_fill, dirtyByte_of_sectors (sectors_l2Place placed), own]
        · rfl
      exact fills.trans (looks_count (fills.quiet quiet) ..)
    · exact looks_count quiet ..
  · exact .refl s

theorem looks_l2Read (quiet : Quiet s) (id : Nat) (attr : Option Xlat) (pa n : Nat) : Looks s (s.l2Read id attr pa n).1 [] :=
  .foldl (fun _ sec quiet => looks_l2Fill quiet id attr sec) _ quiet

theorem looks_walkFills (quiet : Quiet s) (node : Nat) (reads : List Nat) : Looks s (s.walkFills node reads) [] := by
  refine .foldl (fun t a quiet => ?_) reads quiet
  split
  · exact looks_l2Read quiet ..
  · exact looks_drawn t _
  · exact .refl t

theorem looks_devLoad (quiet : Quiet s) (x : Xlat) : Looks s (s.devLoad x 1).1 [] := by
  unfold State.devLoad
  split
  · exact .refl s
  · split
    · exact looks_countLines quiet ..
    · exact looks_drawn s _
    · exact looks_countLines quiet ..
    · exact looks_countLines quiet ..

/-! ## Translations of the device (R187, R188) -/

/-- The device's TLB translates an address of a tenant for a write of an engine. -/
def Mapped (s : State) (k va : Nat) (x : Xlat) : Prop := ∃ e, s.tlbAt 256 k va = some e ∧ s.checkEntry accEngW true e va = .ok x

theorem Mapped.unique {k va : Nat} {x y : Xlat} (h : Mapped s k va x) (h' : Mapped s k va y) : x = y := by
  obtain ⟨e, found, checked⟩ := h
  obtain ⟨e', found', checked'⟩ := h'
  obtain rfl := Option.some.inj (found.symm.trans found')
  exact Except.ok.inj (checked.symm.trans checked')

theorem checkEntry_looks (h : Looks s t new) (acc : Acc) (user : Bool) (e : TlbEntry) (va : Nat) :
    t.checkEntry acc user e va = s.checkEntry acc user e va := by
  obtain ⟨_, _, _, rfl⟩ := h.rest
  rfl

/-- What the TLB translates, it goes on to translate. -/
theorem Mapped.looks {k va : Nat} {x : Xlat} (m : Mapped s k va x) (h : Looks s t new) : Mapped t k va x := by
  obtain ⟨e, found, checked⟩ := m
  refine ⟨e, ?_, (checkEntry_looks h ..).trans checked⟩
  rw [State.tlbAt] at found ⊢
  rw [h.tlb, List.find?_append, found]
  rfl

theorem pageSize_pos (level : Nat) : 0 < pageSize level := Nat.two_pow_pos _

theorem leafSize_pos (l : Leaf) : 0 < l.size := by
  unfold Leaf.size
  split
  · decide
  · exact pageSize_pos _

theorem combinedSize_pos {sz1 sz2 : Nat} (first : 0 < sz1) (second : 0 < sz2) (va ipa : Nat) : 0 < combinedSize sz1 sz2 va ipa := by
  unfold combinedSize
  dsimp only
  split
  · exact lt_min first second
  · decide

theorem ok_of_map {α β : Type} {f : α → β} {r : Except XErr α} {y : β} (mapped : r.map f = .ok y) : ∃ x, r = .ok x ∧ y = f x := by
  cases r with
  | error e => cases mapped
  | ok x => exact ⟨x, rfl, (Except.ok.inj mapped).symm⟩

/-- The entry of a walk is one for its own address. -/
theorem walkEntry_covers {node k va : Nat} {e : TlbEntry} (walked : (s.walkEntry node k va).2 = .ok e) :
    e.node = node ∧ e.tenant = k ∧ e.vbase ≤ va ∧ va < e.vbase + e.size := by
  have covers (l1 : Option Leaf) (l2 : Leaf) (via : List (Nat × Nat)) : (combined node k va l1 l2 via).node = node ∧
      (combined node k va l1 l2 via).tenant = k ∧ (combined node k va l1 l2 via).vbase ≤ va ∧
      va < (combined node k va l1 l2 via).vbase + (combined node k va l1 l2 via).size := by
    have positive : 0 < (combined node k va l1 l2 via).size := by
      cases l1 with
      | none => exact combinedSize_pos (leafSize_pos l2) (leafSize_pos l2) _ _
      | some l => exact combinedSize_pos (leafSize_pos l) (leafSize_pos l2) _ _
    refine ⟨rfl, rfl, Nat.div_mul_le_self .., ?_⟩
    exact Nat.lt_div_mul_add positive
  unfold State.walkEntry at walked
  dsimp only at walked
  split at walked
  · cases walked
  · rename_i l1 _
    obtain ⟨l2, -, rfl⟩ := ok_of_map walked
    exact covers ..

/-- A translation of the device that comes out: a look, after which the TLB has it. -/
theorem translate_looks (quiet : Quiet s) {k va : Nat} {x : Xlat} (ok : (s.translate 256 k true accEngW va).2 = .ok x) :
    ∃ new, Looks s (s.translate 256 k true accEngW va).1 new ∧ Mapped (s.translate 256 k true accEngW va).1 k va x := by
  unfold State.translate at ok ⊢
  cases cached : s.tlbAt 256 k va with
  | some e =>
    rw [cached] at ok
    exact ⟨[], .refl s, e, cached, ok⟩
  | none =>
    rw [cached] at ok
    dsimp only at ok ⊢
    cases walked : (s.walkEntry 256 k va).2 with
    | error x => rw [walked] at ok; cases ok
    | ok e =>
      rw [walked] at ok
      dsimp only at ok ⊢
      cases checked : s.checkEntry accEngW true e va with
      | error x => rw [checked] at ok; cases ok
      | ok y =>
        rw [checked] at ok
        obtain rfl := Except.ok.inj ok
        obtain ⟨node, tenant, low, high⟩ := walkEntry_covers walked
        have fills := looks_walkFills quiet 256 (s.walkEntry 256 k va).1.reads
        generalize s.walkFills 256 (s.walkEntry 256 k va).1.reads = v at fills ⊢
        have put : Looks v (v.tlbPut 256 e) [{ e with node := 256 }] := ⟨⟨_, _, _, rfl⟩, .refl v, fun _ => byteAt_congr rfl rfl rfl _⟩
        have looks := fills.trans put
        refine ⟨_, looks, { e with node := 256 }, ?_, (checkEntry_looks looks ..).trans checked⟩
        rw [State.tlbAt] at cached ⊢
        rw [looks.tlb, List.find?_append, cached]
        simp [tenant, low, high]

theorem devTranslate_looks (quiet : Quiet s) {k va : Nat} {who : Waiter} {x : Xlat} (ok : (s.devTranslate k va accEngW who).2 = .ok x) :
    ∃ new, Looks s (s.devTranslate k va accEngW who).1 new ∧ Mapped (s.devTranslate k va accEngW who).1 k va x := by
  unfold State.devTranslate at ok ⊢
  split at ok
  · cases ok
  · rename_i form
    rw [if_neg form]
    dsimp only at ok ⊢
    have same : ({ accEngW with engine := true } : Acc) = accEngW := rfl
    rw [same] at ok ⊢
    cases translated : (s.translate 256 k true accEngW va).2 with
    | error e => rw [translated] at ok; cases e <;> cases ok
    | ok y =>
      obtain ⟨new, looks, mapped⟩ := translate_looks quiet translated
      rw [translated] at ok
      generalize (s.translate 256 k true accEngW va).1 = v at looks mapped ok ⊢
      dsimp only at ok ⊢
      split at ok
      · cases ok
      · rename_i awake
        rw [if_neg awake]
        have gate : Looks v (v.fabricGate y.pa).1 [] := by
          unfold State.fabricGate
          split
          · split <;> exact looks_drawn v _
          · exact .refl v
        split at ok
        · rename_i passes
          obtain rfl := DevX.ok.inj ok
          exact ⟨_, looks.trans gate, mapped.looks gate⟩
        · cases ok

/-! ## Pages that an operation of Stuffsack touches (R139) -/

theorem poolTouch_concat (s : State) (k p : Nat) (vas : List Nat) (va : Nat) {xs : List Xlat} (ok : (s.poolTouch k p (vas ++ [va])).2 = .ok xs) :
    ∃ ys x, (s.poolTouch k p vas).2 = .ok ys ∧ ((s.poolTouch k p vas).1.devTranslate k va accEngW (.pool k p va)).2 = .ok x ∧ xs = ys ++ [x] ∧
      (s.poolTouch k p (vas ++ [va])).1 = ((s.poolTouch k p vas).1.devTranslate k va accEngW (.pool k p va)).1 := by
  unfold State.poolTouch at ok ⊢
  rw [List.foldl_append, List.foldl_cons, List.foldl_nil] at ok ⊢
  generalize vas.foldl _ (s, PoolX.ok []) = r at ok ⊢
  obtain ⟨v, o⟩ := r
  cases o with
  | wait => cases ok
  | fail => cases ok
  | ok ys =>
    dsimp only at ok ⊢
    cases translated : (v.devTranslate k va accEngW (.pool k p va)).2 with
    | wait => rw [translated] at ok; cases ok
    | drop => rw [translated] at ok; cases ok
    | ok x =>
      rw [translated] at ok
      obtain rfl := PoolX.ok.inj ok
      exact ⟨ys, x, rfl, rfl, rfl, rfl⟩

/-- PAGES THAT ALL TRANSLATE: a look, after which the TLB has each of them. -/
theorem poolTouch_looks (quiet : Quiet s) {k p : Nat} (vas : List Nat) {xs : List Xlat} (ok : (s.poolTouch k p vas).2 = .ok xs) :
    ∃ new, Looks s (s.poolTouch k p vas).1 new ∧ List.Forall₂ (fun va x => Mapped (s.poolTouch k p vas).1 k va x) vas xs := by
  induction vas using List.reverseRecOn generalizing xs with
  | nil =>
    obtain rfl := PoolX.ok.inj ok
    exact ⟨[], .refl s, .nil⟩
  | append_singleton vas va ih =>
    obtain ⟨ys, x, before, translated, rfl, after⟩ := poolTouch_concat s k p vas va ok
    obtain ⟨new, looks, mapped⟩ := ih before
    obtain ⟨more, looks', mapped'⟩ := devTranslate_looks (looks.quiet quiet) translated
    rw [after]
    exact ⟨_, looks.trans looks', List.rel_append (mapped.imp fun va x m => m.looks looks') (.cons mapped' .nil)⟩

/-- A metadata byte that is read: a look. -/
theorem readMeta_looks (quiet : Quiet s) {k p b v : Nat} (ok : (s.readMeta k p b).2 = .ok v) : ∃ new, Looks s (s.readMeta k p b).1 new := by
  unfold State.readMeta at ok ⊢
  dsimp only at ok ⊢
  split at ok
  · cases ok
  · rename_i x touched
    obtain ⟨new, looks, -⟩ := poolTouch_looks quiet _ touched
    exact ⟨_, looks.trans (looks_devLoad (looks.quiet quiet) x)⟩
  · cases ok

end

end Sys2Proof.Proofs
end

