-- ==== Sys2Proof/Proofs/HomeWrites.lean ====
section
/-! PROOFS. Writes of the device past every cache, where no page moves. -/

namespace Sys2Proof.Proofs

open Sys2Proof Sys2Proof.Machine Sys2Proof.Claims

-- One proof after another: proofs run side by side over a text of this length need more threads than the check has memory for.
set_option Elab.async false

/-! ## Writes at home past every cache (R117) -/

/-- Writes of one sector, before which every cache gives up its line. -/
def sectorHome (s : State) (ws : List (Nat × Byte)) : Option State :=
  match ws with
  | [] => some s
  | (a, _) :: _ => (s.yieldLine (s.holders (s.homeAddr a / 256)) (s.homeAddr a / 256)).homeWrite ws

theorem cohWrite_eq (s : State) (ws : List (Nat × Byte)) : s.cohWrite ws = tryAll sectorHome s (bySector ws) := by
  unfold State.cohWrite
  congr

section
variable {s t u : State}

/-- A state reached by writes, and what its bytes are. -/
structure Stores (s t : State) (g : Nat → Option Byte) : Prop where
  side : MemorySide s t
  caches : cachesOk t
  bytes : ∀ a, t.byteAt a = (g a).getD (s.byteAt a)

theorem holders_small {line id : Nat} (held : id ∈ s.holders line) : id < 3 := by
  have listed := (List.mem_filter.mp held).1
  simp at listed
  omega

/-- No L2 has a dirty byte of a line that its holders have given up. -/
theorem clean_of_holders (caches : cachesOk s) {line a id : Nat} (here : a / 256 = line) (small : id < 3) :
    ((s.yieldLine (s.holders line) line).l2c id).dirtyByte a = none := by
  by_cases held : (s.l2c id).hasLine line = true
  · exact clean_yieldLine caches (List.mem_filter.mpr ⟨by simp; omega, held⟩) here
  · exact (tames_yieldLine s _ line).clean caches id a
      (dirtyByte_of_lacking (byte_of_not_hasLine (Bool.not_eq_true _ |>.mp held) here))

theorem sectorHome_stores (quiet : Quiet s) (caches : cachesOk s) {ws : List (Nat × Byte)} {g : Nat → Option Byte}
    (single : ∀ a v, (a, v) ∈ ws ↔ g a = some v) {line : Nat} (one : ∀ w ∈ ws, w.1 / 256 = line) : ∃ t, sectorHome s ws = some t ∧ Stores s t g := by
  cases ws with
  | nil =>
    refine ⟨s, rfl, .refl s, caches, fun a => ?_⟩
    cases value : g a with
    | none => rfl
    | some v => exact absurd ((single a v).mpr value) List.not_mem_nil
  | cons w ws =>
    have side := memorySide_yieldLine quiet (s.holders line) line
    have quiet' := side.quiet quiet
    have caches' := (tames_yieldLine s (s.holders line) line).keeps.cachesOk caches
    have same (a : Nat) := byteAt_yieldLine quiet caches (fun _ => holders_small) (ids := s.holders line) line a
    have clean (a : Nat) (here : a / 256 = line) (id : Nat) (small : id < 3) := clean_of_holders caches here small
    have home : s.homeAddr w.1 / 256 = line := by rw [homeAddr_quiet quiet]; exact one w List.mem_cons_self
    rw [sectorHome, home]
    generalize s.yieldLine (s.holders line) line = u at side quiet' caches' same clean ⊢
    obtain ⟨v, written, side'⟩ := homeWrite_quiet quiet' (w :: ws)
    refine ⟨v, written, side.trans side', ((Keeps.refl _).homeWrite v written).cachesOk caches', fun a => ?_⟩
    have unmoved : u.fwdAt w.1 = none := by rw [State.fwdAt, quiet'.1]; rfl
    simp only [State.homeWrite, unmoved, Option.some.injEq] at written
    subst written
    rw [← same]
    exact byteAt_written (t := { u with mem := memSetAll u.mem (w :: ws) }.written (w :: ws)) quiet' single rfl rfl rfl a fun v value =>
      clean a (one _ ((single a v).mpr value))

/-- The same for the writes of some sectors in turn. -/
theorem sectorsHome_stores (quiet : Quiet s) (caches : cachesOk s) {ws : List (Nat × Byte)} {g : Nat → Option Byte}
    (single : ∀ a v, (a, v) ∈ ws ↔ g a = some v) (secs : List Nat) :
    ∃ t, tryAll sectorHome s (secs.map fun x => ws.filter fun w => sectorOf w.1 = x) = some t ∧
      Stores s t fun a => if sectorOf a ∈ secs then g a else none := by
  induction secs generalizing s with
  | nil => exact ⟨s, rfl, .refl s, caches, fun a => by simp⟩
  | cons sec secs ih =>
    have within (a : Nat) (v : Byte) : (a, v) ∈ (ws.filter fun w => sectorOf w.1 = sec) ↔ (if sectorOf a = sec then g a else none) = some v := by
      rw [List.mem_filter, single]
      by_cases own : sectorOf a = sec <;> simp [own]
    have one (w : Nat × Byte) (hw : w ∈ ws.filter fun w => sectorOf w.1 = sec) : w.1 / 256 = sec / 4 := by
      have own : sectorOf w.1 = sec := of_decide_eq_true (List.mem_filter.mp hw).2
      rw [sectorOf] at own
      omega
    obtain ⟨u, first, side, caches', bytes⟩ := sectorHome_stores quiet caches within one
    obtain ⟨t, others, side', cachesT, bytes'⟩ := ih (side.quiet quiet) caches'
    refine ⟨t, ?_, side.trans side', cachesT, fun a => ?_⟩
    · rw [List.map_cons, tryAll, List.foldl_cons, Option.bind_some, first]
      exact others
    · rw [bytes', bytes]
      by_cases own : sectorOf a = sec
      · rw [if_pos own, if_pos (List.mem_cons.mpr (.inl own))]
        split <;> cases g a <;> rfl
      · simp only [List.mem_cons, own, false_or, if_false, Option.getD_none]

/-- The byte that a run of bytes from an address has at another. -/
def storedAt (pa : Nat) (bs : List Byte) (a : Nat) : Option Byte := if pa ≤ a then bs[a - pa]? else none

theorem mem_placed_iff {pa a : Nat} {bs : List Byte} {v : Byte} : (a, v) ∈ placed pa bs ↔ storedAt pa bs a = some v := by
  rw [mem_placed, storedAt]
  split <;> simp_all

/-- A WRITE AT HOME, where no page moves. -/
theorem cohWrite_stores (quiet : Quiet s) (caches : cachesOk s) (pa : Nat) (bs : List Byte) :
    ∃ t, s.cohWrite (placed pa bs) = some t ∧ Stores s t (storedAt pa bs) := by
  obtain ⟨t, done, side, caches', bytes⟩ := sectorsHome_stores quiet caches (fun a v => mem_placed_iff (pa := pa) (bs := bs))
    (((placed pa bs).map fun w => sectorOf w.1).dedup)
  refine ⟨t, (cohWrite_eq s _).trans done, side, caches', fun a => ?_⟩
  rw [bytes]
  cases value : storedAt pa bs a with
  | none => split <;> rfl
  | some v => rw [if_pos (List.mem_dedup.mpr (List.mem_map.mpr ⟨(a, v), mem_placed_iff.mpr value, rfl⟩))]

/-! ## Writes of the device at ordinary memory (R73, R117) -/

/-- A translated address whose writes go home past the caches. -/
def GoesHome (x : Xlat) : Prop := x.ms = false ∧ x.repl = false ∧ regionOf x.pa ≠ .window ∧ regionOf x.pa ≠ .fabric

theorem goesHome_of_ordinary {x : Xlat} (plain : Ordinary x) : GoesHome x := by
  obtain ⟨side, repl, tier⟩ := plain
  refine ⟨side, repl, fun window => ?_, fun fabric => ?_⟩
  · rw [tierOf, window] at tier
    cases tier
  · rw [tierOf, fabric] at tier
    cases tier

theorem devStore_goesHome {x : Xlat} (goes : GoesHome x) (bs : List Byte) :
    s.devStore x bs = (s.cohWrite (placed x.pa bs)).map fun s => s.countLines x x.pa bs.length := by
  obtain ⟨aside, repl, window, fabric⟩ := goes
  have place : x.place = .cached := by
    rw [Xlat.place, aside, repl]
    cases region : regionOf x.pa with
    | fabric => exact absurd region fabric
    | _ => rfl
  rw [State.devStore, if_neg window, place]

theorem devStore_stores (quiet : Quiet s) (caches : cachesOk s) {x : Xlat} (goes : GoesHome x) (bs : List Byte) :
    ∃ t, s.devStore x bs = some t ∧ Stores s t (storedAt x.pa bs) := by
  obtain ⟨u, written, side, caches', bytes⟩ := cohWrite_stores quiet caches x.pa bs
  have counts := looks_countLines (side.quiet quiet) x x.pa bs.length
  exact ⟨_, by rw [devStore_goesHome goes, written]; rfl,
    side.trans (memorySide_foldl (side.quiet quiet) (fun _ _ quiet => memorySide_count quiet ..) _), counts.caches caches',
    fun a => (counts.bytes a).trans (bytes a)⟩

/-- Where no page moves, a write home waits for nothing, whatever the caches hold. -/
theorem devStore_quiet (quiet : Quiet s) {x : Xlat} (goes : GoesHome x) (bs : List Byte) : ∃ t, s.devStore x bs = some t ∧ MemorySide s t := by
  have step (u : State) (ws : List (Nat × Byte)) (quiet : Quiet u) : ∃ t, sectorHome u ws = some t ∧ MemorySide u t := by
    cases ws with
    | nil => exact ⟨u, rfl, .refl u⟩
    | cons w ws =>
      have yields := memorySide_yieldLine quiet (u.holders (u.homeAddr w.1 / 256)) (u.homeAddr w.1 / 256)
      obtain ⟨t, written, side⟩ := homeWrite_quiet (yields.quiet quiet) (w :: ws)
      exact ⟨t, written, yields.trans side⟩
  obtain ⟨u, written, side⟩ := tryAll_quiet quiet step (bySector (placed x.pa bs))
  exact ⟨_, by rw [devStore_goesHome goes, cohWrite_eq, written]; rfl,
    side.trans (memorySide_foldl (side.quiet quiet) (fun _ _ quiet => memorySide_count quiet ..) _)⟩

/-- The same for writes one after another. -/
theorem devStores_quiet {α : Type} {page : α → Xlat} {bytes : α → List Byte} {ws : List α} (quiet : Quiet s) (goes : ∀ w ∈ ws, GoesHome (page w)) :
    ∃ t, tryAll (fun s w => s.devStore (page w) (bytes w)) s ws = some t ∧ MemorySide s t := by
  induction ws generalizing s with
  | nil => exact ⟨s, rfl, .refl s⟩
  | cons w ws ih =>
    obtain ⟨u, first, side⟩ := devStore_quiet quiet (goes w List.mem_cons_self) (bytes w)
    obtain ⟨t, others, side'⟩ := ih (side.quiet quiet) fun v mem => goes v (List.mem_cons_of_mem _ mem)
    refine ⟨t, ?_, side.trans side'⟩
    rw [tryAll, List.foldl_cons, Option.bind_some, first]
    exact others

end

end Sys2Proof.Proofs
end

