-- ==== Sys2Proof/Proofs/PlanWrites.lean ====
section
/-! PROOFS. What the writes of a plan of Stuffsack leave in memory. -/

namespace Sys2Proof.Proofs

open Sys2Proof Sys2Proof.Machine Sys2Proof.Claims

-- One proof after another: proofs run side by side over a text of this length need more threads than the check has memory for.
set_option Elab.async false

/-! ## Writes of the device one after another -/

/-- What the last of some writes that covers an address leaves there. -/
def lastStored : List (Xlat × List Byte) → Nat → Option Byte
  | [], _ => none
  | w :: ws, a => (lastStored ws a).or (storedAt w.1.pa w.2 a)

theorem lastStored_none {ws : List (Xlat × List Byte)} {a : Nat} (beside_ : ∀ w ∈ ws, storedAt w.1.pa w.2 a = none) : lastStored ws a = none := by
  induction ws with
  | nil => rfl
  | cons w ws ih => rw [lastStored, ih fun v mem => beside_ v (List.mem_cons_of_mem _ mem), beside_ w List.mem_cons_self, Option.or_none]

/-- The write at a place of the list is the last that covers an address. -/
theorem lastStored_at {ws : List (Xlat × List Byte)} {a j : Nat} {w : Xlat × List Byte} {b : Byte} (here : ws[j]? = some w)
    (covers : storedAt w.1.pa w.2 a = some b) (later : ∀ i v, j < i → ws[i]? = some v → storedAt v.1.pa v.2 a = none) :
    lastStored ws a = some b := by
  induction ws generalizing j with
  | nil => cases here
  | cons u ws ih =>
    cases j with
    | zero =>
      obtain rfl := Option.some.inj here
      rw [lastStored, covers, lastStored_none, Option.none_or]
      intro v mem
      obtain ⟨i, found⟩ := List.getElem?_of_mem mem
      exact later (i + 1) v (Nat.succ_pos i) found
    | succ j =>
      rw [lastStored, ih here fun i v after found => later (i + 1) v (Nat.succ_lt_succ after) found]
      rfl

section
variable {s t u : State}

theorem stores_refl (caches : cachesOk s) : Stores s s fun _ => none := ⟨.refl s, caches, fun _ => rfl⟩

theorem Stores.trans {g h : Nat → Option Byte} (first : Stores s t g) (second : Stores t u h) : Stores s u fun a => (h a).or (g a) := by
  refine ⟨first.side.trans second.side, second.caches, fun a => ?_⟩
  rw [second.bytes, first.bytes]
  cases h a <;> rfl

theorem devStores_stores (quiet : Quiet s) (caches : cachesOk s) {ws : List (Xlat × List Byte)} (goes : ∀ w ∈ ws, GoesHome w.1) :
    ∃ t, tryAll (fun s w => s.devStore w.1 w.2) s ws = some t ∧ Stores s t (lastStored ws) := by
  induction ws generalizing s with
  | nil => exact ⟨s, rfl, stores_refl caches⟩
  | cons w ws ih =>
    obtain ⟨u, first, stores⟩ := devStore_stores quiet caches (goes w List.mem_cons_self) w.2
    obtain ⟨t, others, stores'⟩ := ih (stores.side.quiet quiet) stores.caches fun v mem => goes v (List.mem_cons_of_mem _ mem)
    refine ⟨t, ?_, stores.trans stores'⟩
    rw [tryAll, List.foldl_cons, Option.bind_some, first]
    exact others

/-! ## The writes of a plan (R139) -/

/-- The bytes that a plan writes at its pages, in their order. -/
def planBytes (s : State) (pl : PoolPlan) : List (List Byte) := pl.metas.map (fun m => [BitVec.ofNat 8 m.2]) ++
  mapFrom (fun i (_ : Nat) => ({ s with drawn := s.drawn + 16 * i } : State).linkBytes) 0 pl.links

theorem planWrite_eq (s : State) (pl : PoolPlan) (xs : List Xlat) : s.planWrite pl xs =
    (tryAll (fun s w => s.devStore w.1 w.2) s (xs.zip (planBytes s pl))).map fun s => { s with drawn := s.drawn + 16 * pl.links.length } := rfl

theorem planBytes_meta {pl : PoolPlan} {j : Nat} {m : Nat × Nat} (found : pl.metas[j]? = some m) :
    (planBytes s pl)[j]? = some [BitVec.ofNat 8 m.2] := by
  have inside : j < pl.metas.length := (List.getElem?_eq_some_iff.mp found).1
  rw [planBytes, List.getElem?_append_left (by rwa [List.length_map]), List.getElem?_map, found]
  rfl

theorem length_planBytes {pl : PoolPlan} {j : Nat} {bs : List Byte} (found : (planBytes s pl)[j]? = some bs) :
    bs.length = if j < pl.metas.length then 1 else 16 := by
  split
  · rename_i inside
    rw [planBytes_meta (List.getElem?_eq_getElem inside)] at found
    obtain rfl := Option.some.inj found
    rfl
  · rename_i outside
    rw [planBytes, List.getElem?_append_right (by rw [List.length_map]; omega), getElem?_mapFrom, Option.map_eq_some_iff] at found
    obtain ⟨b, -, rfl⟩ := found
    rw [State.linkBytes, List.length_map, List.length_range]

theorem storedAt_none {pa a : Nat} {bs : List Byte} (apart : a < pa ∨ pa + bs.length ≤ a) : storedAt pa bs a = none := by
  rw [storedAt]
  split
  · exact List.getElem?_eq_none (by omega)
  · rfl

theorem storedAt_start (pa : Nat) (b : Byte) : storedAt pa [b] pa = some b := by
  rw [storedAt, if_pos (Nat.le_refl pa), Nat.sub_self]
  rfl

/-- What is found first from the end is the last of its kind. -/
theorem last_of_find_reverse {α : Type} {p : α → Bool} {l : List α} {v : α} (found : l.reverse.find? p = some v) :
    p v = true ∧ ∃ j : Nat, l[j]? = some v ∧ ∀ (i : Nat) (r : α), j < i → l[i]? = some r → p r = false := by
  obtain ⟨holds, as, bs, split, none⟩ := List.find?_eq_some_iff_append.mp found
  have parts : l = bs.reverse ++ v :: as.reverse := by rw [← List.reverse_reverse l, split]; simp
  refine ⟨holds, bs.length, by simp [parts], fun i r after there => ?_⟩
  rw [parts, List.getElem?_append_right (by rw [List.length_reverse]; omega), List.length_reverse] at there
  obtain ⟨d, rfl⟩ : ∃ d, i = bs.length + 1 + d := ⟨i - (bs.length + 1), by omega⟩
  rw [show bs.length + 1 + d - bs.length = d + 1 by omega, List.getElem?_cons_succ] at there
  simpa using none r (List.mem_reverse.mp (List.mem_of_getElem? there))

theorem mapped_meta {k n : Nat} {pl : PoolPlan} {xs : List Xlat} {m : Nat × Nat} {x : Xlat}
    (translated : List.Forall₂ (fun va x => Mapped s k va x) (pl.metas.map Prod.fst ++ pl.links) xs) (listed : pl.metas[n]? = some m)
    (page : xs[n]? = some x) : Mapped s k m.1 x := by
  have inside : n < (pl.metas.map Prod.fst).length := by rw [List.length_map]; exact (List.getElem?_eq_some_iff.mp listed).1
  refine List.forall₂_zip translated (List.mem_of_getElem? (i := n) (List.getElem?_zip_eq_some.mpr ⟨?_, page⟩))
  rw [List.getElem?_append_left inside, List.getElem?_map, listed]
  rfl

/-- THE WRITES OF A PLAN whose pages the TLB has: each is made, and each metadata byte is what the plan writes there last. -/
theorem planWrite_writes {s0 : State} (quiet : Quiet s) (caches : cachesOk s) {k p : Nat} {pl : PoolPlan} {xs : List Xlat}
    (maps : PlanMaps s0 k p pl xs) (translated : List.Forall₂ (fun va x => Mapped s k va x) (pl.metas.map Prod.fst ++ pl.links) xs) :
    ∃ t, s.planWrite pl xs = some t ∧ t.tenants = s.tenants ∧ PlanWrites s t pl xs := by
  have goes (w : Xlat × List Byte) (mem : w ∈ xs.zip (planBytes s pl)) : GoesHome w.1 :=
    goesHome_of_ordinary (maps.plain w.1 (List.of_mem_zip mem).1)
  obtain ⟨u, written, side, -, bytes⟩ := devStores_stores quiet caches goes
  refine ⟨{ u with drawn := u.drawn + 16 * pl.links.length }, by rw [planWrite_eq, written]; rfl, ?_, fun i x m v page listed last => ?_,
    fun a outside => ?_⟩
  · obtain ⟨_, _, _, _, _, _, _, rfl⟩ := side
    rfl
  · obtain ⟨same, j, lastAt, noLater⟩ := last_of_find_reverse last
    have key : v.1 = m.1 := by simpa using same
    have inside : i < pl.metas.length := (List.getElem?_eq_some_iff.mp listed).1
    have page' : xs[j]? = some x := by
      have within : j < pl.metas.length := (List.getElem?_eq_some_iff.mp lastAt).1
      have long := translated.length_eq
      rw [List.length_append, List.length_map] at long
      have found : xs[j]? = some xs[j] := List.getElem?_eq_getElem (by omega)
      have again := mapped_meta translated lastAt found
      rw [key] at again
      rw [found, again.unique (mapped_meta translated listed page)]
    refine (bytes x.pa).trans ?_
    rw [lastStored_at (w := (x, [BitVec.ofNat 8 v.2])) (List.getElem?_zip_eq_some.mpr ⟨page', planBytes_meta lastAt⟩) (storedAt_start ..)]
    · rfl
    · rintro n ⟨y, bs⟩ after found
      obtain ⟨pageN, bytesN⟩ := List.getElem?_zip_eq_some.mp found
      have long : bs.length = _ := length_planBytes bytesN
      have parted := maps.apart i n x y inside page pageN
      refine storedAt_none ?_
      split at parted
      · rename_i metaN
        rw [if_pos metaN] at long
        by_cases equal : x.pa = y.pa
        · have keys := parted equal
          rw [listed, List.getElem?_eq_getElem metaN] at keys
          have other := noLater n _ after (List.getElem?_eq_getElem metaN)
          rw [← Option.some.inj keys, beq_self_eq_true] at other
          cases other
        · dsimp only
          omega
      · rename_i linkN
        rw [if_neg linkN] at long
        dsimp only
        omega
  · refine (bytes a).trans ?_
    rw [lastStored_none]
    · rfl
    · rintro ⟨y, bs⟩ mem
      obtain ⟨n, found⟩ := List.getElem?_of_mem mem
      obtain ⟨pageN, bytesN⟩ := List.getElem?_zip_eq_some.mp found
      refine storedAt_none ?_
      rw [length_planBytes bytesN]
      exact outside n y pageN

/-- A PLAN PERFORMED whose pages all translate to ordinary memory (R139). -/
theorem runPlan_performs (quiet : Quiet s) (caches : cachesOk s) {k p : Nat} {pl : PoolPlan} {xs : List Xlat} (maps : PlanMaps s k p pl xs) :
    ∃ u, s.runPlan k p pl = (u.modPool k p fun q =>
        { pl.pool with devWait := q.devWait, aborted := q.aborted, perr := q.perr, queue := q.queue }, .yes pl.block) ∧
      u.tenants = s.tenants ∧ PlanWrites s u pl xs := by
  obtain ⟨new, looks, translated⟩ := poolTouch_looks quiet _ maps.maps
  obtain ⟨u, written, tenants, ⟨metas, others⟩⟩ := planWrite_writes (looks.quiet quiet) (looks.caches caches) maps translated
  refine ⟨u, ?_, tenants.trans looks.tenants, metas, fun a outside => (others a outside).trans (looks.bytes a)⟩
  rw [State.runPlan, maps.maps]
  dsimp only
  rw [written]

end

end Sys2Proof.Proofs
end

