-- ==== Sys2Proof/Proofs/DeferredReturns.lean ====
section
/-! PROOFS. The merges of a returned block, and the oldest deferred entry. -/

namespace Sys2Proof.Proofs

open Sys2Proof Sys2Proof.Machine Sys2Proof.Claims

-- One proof after another: proofs run side by side over a text of this length need more threads than the check has memory for.
set_option Elab.async false

/-! ## The merges of a returned block (R139) -/

section
variable {s s1 t u : State} {k p b c m : Nat} {q : Pool}

/-- Metadata bytes that all read: looks. -/
theorem looks_reading (quiet : Quiet s) {n : Nat}
    (reads : ∀ j, j < n → ∃ v, ((reading s k p q b c j).readMeta k p (buddyAt q b c j)).2 = .ok v) :
    ∃ new, Looks s (reading s k p q b c n) new := by
  induction n with
  | zero => exact ⟨[], .refl s⟩
  | succ n ih =>
    obtain ⟨new, looks⟩ := ih fun j below => reads j (Nat.lt_succ_of_lt below)
    obtain ⟨v, read⟩ := reads n (Nat.lt_succ_self n)
    obtain ⟨more, looks'⟩ := readMeta_looks (looks.quiet quiet) read
    exact ⟨_, looks.trans looks'⟩

theorem reads_of_merges (h : Merges s s1 k p q b c m) {n : Nat} (within : n ≤ m) (j : Nat) (below : j < n) :
    ∃ v, ((reading s k p q b c j).readMeta k p (buddyAt q b c j)).2 = .ok v := ⟨_, h.free j (by omega)⟩

/-- The machine in which a return has found how often it merges. -/
theorem looks_of_merges (quiet : Quiet s) (h : Merges s s1 k p q b c m) : ∃ new, Looks s s1 new := by
  have ends := h.ends
  split at ends
  · rw [ends]
    exact looks_reading quiet (reads_of_merges h (Nat.le_refl m))
  · obtain ⟨rfl, v, -, last⟩ := ends
    refine looks_reading quiet fun j below => ?_
    by_cases final : j = m
    · exact ⟨v, final ▸ last⟩
    · exact reads_of_merges h (Nat.le_refl m) j (by omega)

/-- From each block on the way, the return finds the merges that are left. -/
theorem mergeCount_from (quiet : Quiet s) (pool : s.pool k p = q) (h : Merges s s1 k p q b c m) (left : Nat) {fuel j : Nat}
    (rest : j + left = m) (enough : 16 ≤ fuel + (c + j)) :
    (reading s k p q b c j).mergeCount k p fuel (mergedBlock q b c j) (c + j) = (s1, .ok left) := by
  have bound := h.bound
  have ends := h.ends
  induction left generalizing fuel j with
  | zero =>
    obtain rfl : j = m := rest
    by_cases top : c + j = 16
    · rw [if_pos top] at ends
      rw [ends]
      cases fuel with
      | zero => rfl
      | succ fuel => exact if_pos (by omega)
    · rw [if_neg top] at ends
      obtain ⟨rfl, v, other, last⟩ := ends
      obtain ⟨new, looks⟩ := looks_reading quiet (reads_of_merges h (Nat.le_refl j))
      obtain ⟨fuel, rfl⟩ : ∃ n, fuel = n + 1 := ⟨fuel - 1, by omega⟩
      have same : ((reading s k p q b c j).pool k p).buddy (mergedBlock q b c j) (c + j) = buddyAt q b c j := by rw [looks.pool, pool]; rfl
      rw [State.mergeCount, if_neg (by omega)]
      dsimp only
      rw [same, last]
      dsimp only
      rw [if_neg other]
      rfl
  | succ left ih =>
    obtain ⟨new, looks⟩ := looks_reading quiet (reads_of_merges h (show j ≤ m by omega))
    obtain ⟨fuel, rfl⟩ : ∃ n, fuel = n + 1 := ⟨fuel - 1, by omega⟩
    have same : ((reading s k p q b c j).pool k p).buddy (mergedBlock q b c j) (c + j) = buddyAt q b c j := by rw [looks.pool, pool]; rfl
    have next : ((reading s k p q b c j).readMeta k p (buddyAt q b c j)).1.mergeCount k p fuel
        (min (mergedBlock q b c j) (buddyAt q b c j)) (c + j + 1) = (s1, .ok left) :=
      ih (j := j + 1) (by omega) (by omega)
    rw [State.mergeCount, if_neg (by omega)]
    dsimp only
    rw [same, h.free j (by omega)]
    dsimp only
    rw [if_pos rfl, next]
    rfl

theorem mergeCount_merges (quiet : Quiet s) (pool : s.pool k p = q) (h : Merges s s1 k p q b c m) :
    s.mergeCount k p 16 b c = (s1, .ok m) := mergeCount_from quiet pool h m (Nat.zero_add m) (Nat.le_add_right ..)

/-- The plan of a return changes the lists of its pool and nothing else of it. -/
theorem merge_pool (q : Pool) (n b c : Nat) (ms : List (Nat × Nat)) (ls : List Nat) :
    (q.merge n b c ms ls).pool = { q with lists := (q.merge n b c ms ls).pool.lists } := by
  induction n generalizing q b c ms ls with
  | zero => rfl
  | succ n ih =>
    rw [Pool.merge]
    exact ih ..

/-! ## A return to a pool that serves (R139) -/

/-- A pool that serves, with no request before it and nothing that waits behind a fault, serves a request at once. -/
theorem poolServe_up (up : poolUp (s.pool k p)) {who : PoolReq} {f : State → State × PoolAns} (served : f s = (u, .yes b)) :
    s.poolServe who k p f = (u, .yes b) := by
  obtain ⟨en, ready, free, whole, first⟩ := up
  simp [State.poolServe, State.poolQueue, Pool.serves, en, ready, free, whole, first, served]

/-- A RETURN of a block whose metadata byte is right, and which merges: its plan is performed. -/
theorem poolFree_returns (quiet : Quiet s) (caches : cachesOk s) {who : PoolReq} {ptr : Nat} {xs : List Xlat} (up : poolUp (s.pool k p))
    (block : blockOf (s.pool k p) ptr c) (right : (s.readMeta k p ptr).2 = .ok (0x80 + c))
    (merges : Merges (s.readMeta k p ptr).1 s1 k p (s.pool k p) ptr c m) (maps : PlanMaps s1 k p ((s.pool k p).freePlan ptr c m) xs) :
    ∃ u, s.poolFree who k p ptr c = (u.modPool k p fun r =>
        { ((s.pool k p).freePlan ptr c m).pool with devWait := r.devWait, aborted := r.aborted, perr := r.perr, queue := r.queue },
        .yes ((s.pool k p).freePlan ptr c m).block) ∧
      u.tenants = s.tenants ∧ PlanWrites s u ((s.pool k p).freePlan ptr c m) xs := by
  obtain ⟨new, look⟩ := readMeta_looks quiet right
  obtain ⟨more, looks⟩ := looks_of_merges (look.quiet quiet) merges
  have all := look.trans looks
  obtain ⟨u, performed, tenants, ⟨metas, others⟩⟩ := runPlan_performs (all.quiet quiet) (all.caches caches) maps
  refine ⟨u, poolServe_up up ?_, tenants.trans all.tenants, metas, fun a outside => (others a outside).trans (all.bytes a)⟩
  have named : (s.pool k p).names ptr c = true := (names_iff ..).mpr block
  have found : s.freeLook k p ptr c = ((s.readMeta k p ptr).1, .yes ptr) := by
    rw [State.freeLook, if_neg (by rw [named]; decide)]
    dsimp only
    rw [right]
    dsimp only
    rw [if_pos rfl]
  dsimp only
  rw [found]
  dsimp only
  rw [mergeCount_merges (look.quiet quiet) (look.pool k p) merges]
  dsimp only
  rw [all.pool]
  exact performed

/-! ## The oldest deferred entry (R137) -/

theorem returnDeferred_head {e : DeferEntry} {r : List DeferEntry} (queue : (s.tenant k).deferQ = e :: r) (done : e.target ≤ (s.tenant k).gpDone)
    {o : PoolAns} (freed : s.poolFree .root k e.pool e.ptr e.k = (u, o)) (goes : o ≠ .wait) :
    s.returnDeferred k = u.modTenant k fun T => { T with deferQ := T.deferQ.tail } := by
  rw [State.returnDeferred, queue]
  dsimp only
  rw [if_pos done, freed]
  cases o with
  | wait => exact absurd rfl goes
  | _ => rfl

theorem deferredReturn_stays (small : k < 16) {e : DeferEntry} {r : List DeferEntry} (queue : (s.tenant k).deferQ = e :: r)
    (early : (s.tenant k).gpDone < e.target) : exec (.deferredReturn k) s = .next s := by
  refine congrArg Host.Outcome.next ((ofTenant_eq s small _).trans ?_)
  rw [State.returnDeferred, queue]
  exact if_neg (by omega)

/-- An entry of a pool that does not serve leaves, and nothing else changes. -/
theorem deferredReturn_drops (small : k < 16) {e : DeferEntry} {r : List DeferEntry} (queue : (s.tenant k).deferQ = e :: r)
    (done : e.target ≤ (s.tenant k).gpDone) (off : (s.pool k e.pool).serves = false) :
    ∃ t, exec (.deferredReturn k) s = .next t ∧ OnlyTenant s t k fun T => { T with deferQ := r } := by
  have refused : s.poolFree .root k e.pool e.ptr e.k = (s, .no) := if_pos off
  refine ⟨_, congrArg Host.Outcome.next ((ofTenant_eq s small _).trans (returnDeferred_head queue done refused nofun)), fun j => ?_, rfl⟩
  rw [modTenant_tenant, queue]
  rfl

/-- AN ENTRY OF A POOL THAT SERVES leaves, and its block returns. -/
theorem deferredReturn_returns (small : k < 16) {e : DeferEntry} {r : List DeferEntry} {xs : List Xlat} (queue : (s.tenant k).deferQ = e :: r)
    (done : e.target ≤ (s.tenant k).gpDone) (quiet : Quiet s) (caches : cachesOk s) (up : poolUp (s.pool k e.pool))
    (block : blockOf (s.pool k e.pool) e.ptr e.k) (right : (s.readMeta k e.pool e.ptr).2 = .ok (0x80 + e.k))
    (merges : Merges (s.readMeta k e.pool e.ptr).1 s1 k e.pool (s.pool k e.pool) e.ptr e.k m)
    (maps : PlanMaps s1 k e.pool ((s.pool k e.pool).freePlan e.ptr e.k m) xs) :
    ∃ t, exec (.deferredReturn k) s = .next t ∧ (t.tenant k).deferQ = r ∧ PlanWrites s t ((s.pool k e.pool).freePlan e.ptr e.k m) xs ∧
      t.pool k e.pool = { ((s.pool k e.pool).freePlan e.ptr e.k m).pool with devWait := false, aborted := false, perr := (s.pool k e.pool).perr } := by
  obtain ⟨u, freed, tenants, ⟨metas, others⟩⟩ := poolFree_returns (who := .root) quiet caches up block right merges maps
  refine ⟨_, congrArg Host.Outcome.next ((ofTenant_eq s small _).trans (returnDeferred_head queue done freed nofun)), ?_,
    ⟨fun i x m v page listed last => (byteAt_congr rfl rfl rfl _).trans (metas i x m v page listed last),
      fun a outside => (byteAt_congr rfl rfl rfl _).trans (others a outside)⟩, ?_⟩
  · rw [modTenant_tenant, if_pos rfl, State.modPool, modTenant_tenant, if_pos rfl, State.tenant, tenants]
    exact congrArg List.tail queue
  · obtain ⟨-, -, free, whole, -⟩ := up
    have before : u.pool k e.pool = s.pool k e.pool := by rw [State.pool, State.tenant, tenants]; rfl
    have kept : ((s.pool k e.pool).freePlan e.ptr e.k m).pool.queue = (s.pool k e.pool).queue := by rw [Pool.freePlan, merge_pool]
    rw [State.pool, modTenant_tenant, if_pos rfl]
    refine (onlyPool_modPool u k e.pool _).1.trans ?_
    rw [before, free, whole, ← kept]

end

end Sys2Proof.Proofs
end

