-- ==== Sys2Proof/Proofs/GraceEvents.lean ====
section
/-! PROOFS. Enabling of a pool, and the events of the Guyline and of Stuffsack. -/

namespace Sys2Proof.Proofs

open Sys2Proof Sys2Proof.Machine Sys2Proof.Claims

-- One proof after another: proofs run side by side over a text of this length need more threads than the check has memory for.
set_option Elab.async false

section
variable {s t u : State} {k p : Nat}

/-! ## The bytes that enabling writes (R138) -/

/-- Bytes within a page of a place in a tier go home too. -/
theorem goesHome_near {x : Xlat} (plain : Ordinary x) {d : Nat} (near : d < 4096) : GoesHome { x with pa := x.pa + d } := by
  obtain ⟨side, repl, tier⟩ := plain
  have tiers : x.pa < 0x10000000000 ∨ (0x40000000000 ≤ x.pa ∧ x.pa < 0x58000000000) ∨ (0x1000000000000 ≤ x.pa ∧ x.pa < 0x1400000000000) := by
    by_contra outside
    rw [not_or, not_or] at outside
    rw [tierOf, regionOf, if_neg outside.1, if_neg outside.2.1, if_neg outside.2.2] at tier
    split at tier
    · rename_i region
      split at region
      · cases region
      · split at region <;> cases region
    · cases tier
  have low : ¬ (0xF000000000000 ≤ x.pa + d ∧ x.pa + d < 0xF800000000000) := by omega
  have high : ¬ (0xF800000000000 ≤ x.pa + d ∧ x.pa + d < 0x10000000000000) := by omega
  have elsewhere : regionOf (x.pa + d) ≠ .window ∧ regionOf (x.pa + d) ≠ .fabric := by
    rw [regionOf, if_neg low, if_neg high]
    split
    · exact ⟨nofun, nofun⟩
    · split
      · exact ⟨nofun, nofun⟩
      · split <;> exact ⟨nofun, nofun⟩
  exact ⟨side, repl, elsewhere⟩

/-- A byte range starts within the first page that it covers. -/
theorem pagesOf_near {va n page : Nat} (covered : page ∈ pagesOf va n) : max page va - page < 4096 := by
  unfold pagesOf at covered
  split at covered
  · cases covered
  · obtain ⟨i, -, rfl⟩ := List.mem_map.mp covered
    omega

theorem planWrite_quiet (quiet : Quiet s) (pl : PoolPlan) {xs : List Xlat} (plain : ∀ x ∈ xs, Ordinary x) :
    ∃ t, s.planWrite pl xs = some t ∧ t.tenants = s.tenants := by
  obtain ⟨u, written, side⟩ := devStores_quiet (page := Prod.fst) (bytes := Prod.snd) (ws := xs.zip (planBytes s pl)) quiet fun w mem =>
    goesHome_of_ordinary (plain w.1 (List.of_mem_zip mem).1)
  refine ⟨_, by rw [planWrite_eq, written]; rfl, ?_⟩
  obtain ⟨_, _, _, _, _, _, _, rfl⟩ := side
  rfl

/-! ## Enabling (R138) -/

/-- The 1 MiB blocks of a pool. -/
def poolBlocks (q : Pool) : List Nat := (List.range q.size).map fun i => q.pbase + i * 1048576

/-- What enabling writes besides the zeros, and the pool that it makes. -/
def enablePlan (q : Pool) : PoolPlan where
  pool := { q with ready := true, lists := lset (List.replicate 17 []) 16 (poolBlocks q) }
  metas := (poolBlocks q).map fun b => (q.metaAt b, 0x50)
  links := poolBlocks q
  block := 0

/-- Where every page translates to ordinary memory, enabling finishes. -/
theorem finishEnable_finishes (en : (s.pool k p).en = true) (ready : (s.pool k p).ready = false) (free : (s.pool k p).devWait = false)
    (whole : (s.pool k p).aborted = false) (quiet : Quiet s) {xs : List Xlat}
    (touched : (s.poolTouch k p (pagesOf (s.pool k p).pmeta ((s.pool k p).size * 65536) ++ (poolBlocks (s.pool k p)).map (s.pool k p).metaAt ++
      poolBlocks (s.pool k p))).2 = .ok xs) (plain : ∀ x ∈ xs, Ordinary x) :
    ∃ u : State, s.finishEnable k p = u.modPool k p (fun _ => (enablePlan (s.pool k p)).pool) ∧ u.tenants = s.tenants := by
  obtain ⟨new, looks, -⟩ := poolTouch_looks quiet _ touched
  have list : pagesOf (s.pool k p).pmeta ((s.pool k p).size * 65536) ++ (enablePlan (s.pool k p)).metas.map Prod.fst ++
      (enablePlan (s.pool k p)).links = pagesOf (s.pool k p).pmeta ((s.pool k p).size * 65536) ++
        (poolBlocks (s.pool k p)).map (s.pool k p).metaAt ++ poolBlocks (s.pool k p) := by
    rw [enablePlan, List.map_map]
    rfl
  rw [← list] at looks touched
  obtain ⟨v, zeroed, side⟩ := devStores_quiet (ws := (pagesOf (s.pool k p).pmeta ((s.pool k p).size * 65536)).zip xs)
    (page := fun x => { x.2 with pa := x.2.pa + (max x.1 (s.pool k p).pmeta - x.1) })
    (bytes := fun x => List.replicate (min (x.1 + 4096) ((s.pool k p).pmeta + (s.pool k p).size * 65536) - max x.1 (s.pool k p).pmeta) 0)
    (looks.quiet quiet) fun x mem => goesHome_near (plain x.2 (List.of_mem_zip mem).2) (pagesOf_near (List.of_mem_zip mem).1)
  obtain ⟨u, written, tenants⟩ := planWrite_quiet (side.quiet (looks.quiet quiet)) (enablePlan (s.pool k p))
    (xs := xs.drop (pagesOf (s.pool k p).pmeta ((s.pool k p).size * 65536)).length) fun x mem => plain x (List.mem_of_mem_drop mem)
  refine ⟨u, ?_, tenants.trans ?_⟩
  · rw [State.finishEnable]
    dsimp only
    rw [if_neg (by simp [en, ready, free, whole])]
    dsimp only [enablePlan, poolBlocks] at touched zeroed written
    rw [tryAll] at zeroed
    rw [touched]
    dsimp only
    rw [zeroed]
    dsimp only [Option.bind_some]
    rw [written]
    rfl
  · obtain ⟨_, _, _, _, _, _, _, rfl⟩ := side
    exact looks.tenants

theorem list_enabled (q : Pool) : (enablePlan q).pool.list 16 = poolBlocks q ∧ (∀ j, j < 16 → (enablePlan q).pool.list j = []) ∧
    (enablePlan q).pool.free = q.size * 1048576 := by
  refine ⟨rfl, fun j below => ?_, ?_⟩
  · rw [Pool.list, enablePlan, getElem?_lset, if_neg (by omega), List.getElem?_replicate]
    split <;> rfl
  · rw [Nat.mul_comm]
    simp [Pool.free, enablePlan, poolBlocks, lset, mapFrom, blockSize, List.replicate]

theorem poolEnablingFinished_enables (small : k < 16) (within : p < 16) (en : (s.pool k p).en = true) (ready : (s.pool k p).ready = false)
    (free : (s.pool k p).devWait = false) (whole : (s.pool k p).aborted = false) (quiet : Quiet s) {xs : List Xlat}
    (touched : (s.poolTouch k p (pagesOf (s.pool k p).pmeta ((s.pool k p).size * 65536) ++ (poolBlocks (s.pool k p)).map (s.pool k p).metaAt ++
      poolBlocks (s.pool k p))).2 = .ok xs) (plain : ∀ x ∈ xs, Ordinary x) :
    ∃ t, exec (.poolEnablingFinished k p) s = .next t ∧ (t.pool k p).ready = true ∧ (t.pool k p).list 16 = poolBlocks (s.pool k p) ∧
      (∀ j, j < 16 → (t.pool k p).list j = []) ∧ (t.pool k p).free = (s.pool k p).size * 1048576 ∧ ∀ j, j ≠ k → t.tenant j = s.tenant j := by
  obtain ⟨u, finished, tenants⟩ := finishEnable_finishes en ready free whole quiet touched plain
  obtain ⟨pool, others, -, -⟩ := onlyPool_modPool u k p fun _ => (enablePlan (s.pool k p)).pool
  obtain ⟨top, below, whole⟩ := list_enabled (s.pool k p)
  refine ⟨_, congrArg Host.Outcome.next ((exec_pool small within _).trans finished), ?_, ?_, ?_, ?_, fun j other => ?_⟩
  · rw [pool]
    rfl
  · rw [pool, top]
  · rw [pool]
    exact below
  · rw [pool, whole]
  · rw [others j other, State.tenant, tenants]
    rfl

theorem poolEnablingFinished_idle (small : k < 16) (within : p < 16) (off : (s.pool k p).en = false) :
    exec (.poolEnablingFinished k p) s = .next s :=
  congrArg Host.Outcome.next ((exec_pool small within _).trans (if_pos (.inl off)))

end

/-- Settles O51: one theorem for each event, over what a report, an acknowledgement, a look at memory and a plan do. -/
theorem graceEvents : Obligations.GraceEvents := by
  intro s k small T above
  have aboveStart_of {g : Nat} {o : Option Nat} (h : above g o) : aboveStart g o := by cases o <;> exact h
  refine ⟨fun node within => ?_, fun node within older => gpseqAcknowledge_acknowledges within small older, fun started reports saved => ?_,
    fun idle waits => backgroundGraceStart_starts small idle waits, fun e r queue => ⟨fun done off => deferredReturn_drops small queue done off,
      fun done s1 m xs up block _ right quiet caches merges maps =>
        deferredReturn_returns small queue done quiet caches up block right merges maps,
      fun early => deferredReturn_stays small queue early⟩, fun p within => ⟨fun off => poolEnablingFinished_idle small within off,
      fun en ready free whole quiet xs touched plain => poolEnablingFinished_enables small within en ready free whole quiet touched plain⟩⟩
  · exact guylineReport_reports within small
  · refine gracePeriodDone_done small started (graceDone_of_reports (fun n within => ?_) (aboveStart_of saved))
    obtain ⟨r, found, acked, least⟩ := reports n within
    exact ⟨r, found, acked, aboveStart_of least⟩

end Sys2Proof.Proofs
end

