-- ==== Sys2Proof/Proofs/BundleTraps.lean ====
section
/-! PROOFS. Where threads of a bundle raise a cause: which of them trap, what the trap leaves in the warp and in each thread (R239). -/

namespace Sys2Proof.Proofs

open Sys2Proof Sys2Proof.Machine Sys2Proof.Claims

-- One proof after another: proofs run side by side over a text of this length need more threads than the check has memory for.
set_option Elab.async false

/-! ## Lane masks -/

theorem mbit_foldl_mset (ls : List Nat) (m : BitVec 32) (l : Nat) (small : l < 32) :
    (ls.foldl mset m).getLsbD l = true ↔ m.getLsbD l = true ∨ l ∈ ls := by
  induction ls generalizing m with
  | nil => simp
  | cons k ls ih =>
    rw [List.foldl_cons, ih, mset, BitVec.getLsbD_or, BitVec.getLsbD_ofNat, Nat.testBit_two_pow, Bool.or_eq_true, List.mem_cons]
    simp [small, eq_comm (a := l), or_assoc]

/-- The lanes of the mask of a list are the list's. -/
theorem getLsbD_maskOf (ls : List Nat) {l : Nat} (small : l < 32) : (maskOf ls).getLsbD l = true ↔ l ∈ ls := by
  rw [maskOf, mbit_foldl_mset ls 0 l small]
  simp

theorem lane_lt_of_mbit {m : BitVec 32} {l : Nat} (h : mbit m l = true) : l < 32 := BitVec.lt_of_getLsbD h

/-! ## The causes raised in a bundle -/

theorem mem_raisesOf (rs : List LaneRes) (q : Raise) :
    q ∈ raisesOf rs ↔ ∃ r, rs[q.lane]? = some r ∧ r.out = .trap q.info ∧ q.t = r.t := by
  obtain ⟨lane, info, t⟩ := q
  rw [raisesOf, List.mem_flatten]
  constructor
  · rintro ⟨qs, mem, inner⟩
    obtain ⟨l, r, found, rfl⟩ := mem_mapFrom _ _ _ _ mem
    cases out : r.out with
    | trap c =>
      simp only [out, List.mem_singleton, Raise.mk.injEq, Nat.zero_add] at inner
      obtain ⟨rfl, rfl, rfl⟩ := inner
      exact ⟨r, found, out, rfl⟩
    | _ => simp [out] at inner
  · rintro ⟨r, found, out, rfl⟩
    refine ⟨[⟨lane, info, r.t⟩], List.mem_iff_getElem?.mpr ⟨lane, ?_⟩, List.mem_singleton.mpr rfl⟩
    rw [getElem?_mapFrom, found, Option.map_some, Nat.zero_add]
    simp [out]

section
variable {i : Instr} {f : LaneCx → LaneRes} {s : State}

/-- The results of the lanes of the issuing warp. -/
theorem getElem?_laneResults {l : Nat} (there : l < s.curWarp.threads.length) :
    (laneResults i f s)[l]? = some (runLane i s s.curWarp f l (s.thread s.cur.warp l)) := by
  have listed : s.curWarp.threads[l]? = some (s.thread s.cur.warp l) := thread_of_getElem s s.cur.warp l there
  rw [laneResults, getElem?_mapFrom, listed, Option.map_some, Nat.zero_add]

theorem runLane_acting {l : Nat} (member : mbit s.cur.lanes l = true) (guard : (s.cx s.cur.warp l).guard (ctlOf i) = true) :
    runLane i s s.curWarp f l (s.thread s.cur.warp l) = f (s.cx s.cur.warp l) := by
  rw [runLane, if_pos member]
  exact if_pos guard

theorem runLane_guardFalse {l : Nat} (member : mbit s.cur.lanes l = true) (guard : (s.cx s.cur.warp l).guard (ctlOf i) = false) :
    runLane i s s.curWarp f l (s.thread s.cur.warp l) = { t := s.thread s.cur.warp l } := by
  rw [runLane, if_pos member]
  exact if_neg (ne_true_of_eq_false guard)

theorem runLane_outside {l : Nat} (outside : mbit s.cur.lanes l = false) :
    runLane i s s.curWarp f l (s.thread s.cur.warp l) = { t := s.thread s.cur.warp l, out := .off } := by
  rw [runLane, if_neg (ne_true_of_eq_false outside)]

/-- What the bundle raises comes from its guard-true threads. -/
theorem mem_raisesOf_laneResults (q : Raise) :
    q ∈ raisesOf (laneResults i f s) ↔ mbit s.cur.lanes q.lane = true ∧ q.lane < s.curWarp.threads.length ∧
      (s.cx s.cur.warp q.lane).guard (ctlOf i) = true ∧ (f (s.cx s.cur.warp q.lane)).out = .trap q.info ∧
      q.t = (f (s.cx s.cur.warp q.lane)).t := by
  rw [mem_raisesOf]
  constructor
  · rintro ⟨r, found, out, own⟩
    have there : q.lane < s.curWarp.threads.length := by
      obtain ⟨short, -⟩ := List.getElem?_eq_some_iff.mp found
      simpa [laneResults] using short
    rw [getElem?_laneResults there, Option.some.injEq] at found
    subst found
    cases member : mbit s.cur.lanes q.lane with
    | false => rw [runLane_outside member] at out; cases out
    | true =>
      cases guard : (s.cx s.cur.warp q.lane).guard (ctlOf i) with
      | false => rw [runLane_guardFalse member guard] at out; cases out
      | true => rw [runLane_acting member guard] at out own; exact ⟨rfl, there, rfl, out, own⟩
  · rintro ⟨member, there, guard, out, own⟩
    exact ⟨_, getElem?_laneResults there, by rw [runLane_acting member guard]; exact out, by rw [runLane_acting member guard]; exact own⟩

end

/-! ## Delivery (R239) -/

/-- A cause raised at user level, where no trap is active and the warp has a vector, is taken by every thread that raised it. -/
theorem deliver_takesTrap {u : State} {n slot : Nat} {pc : Word} {rs : List Raise} {c : Nat} (user : (u.warp n).level = .user)
    (vector : (u.warp n).tvec ≠ 0) (free : (u.warp n).tmask = 0) (compute : c ≠ 0x10)
    (nonempty : rs ≠ []) (one : ∀ q ∈ rs, q.info.cause = c) :
    u.deliver n slot pc rs = u.setWarp n ((u.warp n).takeTrap slot (u.core (u.warp n).core).step pc rs) := by
  cases rs with
  | nil => exact absurd rfl nonempty
  | cons r rs =>
    have first : r.info.cause = c := one r List.mem_cons_self
    have same : (r :: rs).filter (fun q => q.info.cause = r.info.cause) = r :: rs :=
      List.filter_eq_self.mpr fun q mem => by simp [one q mem, first]
    have rest : (r :: rs).filter (fun q => q.info.cause ≠ r.info.cause) = [] :=
      List.filter_eq_nil_iff.mpr fun q mem => by simp [one q mem, first]
    have unmasked : ¬ ((u.warp n).tvec = 0 ∨ maskOf ((r :: rs).map Raise.lane) &&& (u.warp n).tmask ≠ 0) := by
      rintro (zero | hit)
      · exact vector zero
      · exact hit (by rw [free]; exact BitVec.and_zero)
    have own : ¬ ((u.warp n).service = true ∧ r.info.cause = 0x10) := fun h => compute (first ▸ h.2)
    have delivered : State.deliver u n slot pc (r :: rs) = u.deliverUser n slot pc (r :: rs) := by
      rw [State.deliver, if_pos user, if_neg own]
    rw [delivered, State.deliverUser]
    dsimp only
    rw [same, rest, if_neg unmasked, if_neg (not_not.mpr free)]
    rfl

/-- The threads after a trap: each that raised the cause stands at the vector, the others are as before. -/
theorem getElem?_foldl_lset {ts : List Thread} (rs : List Raise) (g : Raise → Thread) (l : Nat) {u : Thread} (there : l < ts.length)
    (only : ∀ q ∈ rs, q.lane = l → g q = u) (before : (∀ q ∈ rs, q.lane ≠ l) → ts[l]? = some u) :
    (rs.foldl (fun ts q => lset ts q.lane (g q)) ts)[l]? = some u := by
  induction rs generalizing ts with
  | nil => exact before fun q mem => absurd mem List.not_mem_nil
  | cons q rs ih =>
    rw [List.foldl_cons]
    apply ih
    · rwa [length_lset]
    · exact fun p mem => only p (List.mem_cons_of_mem _ mem)
    · intro none
      rw [getElem?_lset]
      split
      · rename_i own
        rw [List.getElem?_eq_getElem there, Option.map_some, only q List.mem_cons_self own.symm]
      · rename_i other
        refine before fun p mem => ?_
        rcases List.mem_cons.mp mem with rfl | later
        · exact Ne.symm other
        · exact none p later

theorem getElem?_foldl_lset_other (rs : List Raise) (g : Raise → Thread) {l : Nat} (none : ∀ q ∈ rs, q.lane ≠ l) (ts : List Thread) :
    (rs.foldl (fun ts q => lset ts q.lane (g q)) ts)[l]? = ts[l]? := by
  induction rs generalizing ts with
  | nil => rfl
  | cons q rs ih =>
    rw [List.foldl_cons, ih fun p mem => none p (List.mem_cons_of_mem _ mem), getElem?_lset, if_neg (none q List.mem_cons_self).symm]

section
variable {w : Warp} {slot step : Nat} {pc : Word} {rs : List Raise}

theorem takeTrap_threads : (w.takeTrap slot step pc rs).threads =
    rs.foldl (fun ts q => lset ts q.lane (q.t.toHandler w.tvec step q.info.telem)) w.threads := by
  cases rs <;> rfl

theorem takeTrap_registers {c : Nat} (nonempty : rs ≠ []) (one : ∀ q ∈ rs, q.info.cause = c) :
    (w.takeTrap slot step pc rs).tmask = maskOf (rs.map Raise.lane) ∧
    (w.takeTrap slot step pc rs).tcause = BitVec.ofNat 64 ((if slot = 2 then 256 else 0) + c) ∧
    (w.takeTrap slot step pc rs).tpc = pc &&& ~~~ 3#64 := by
  cases rs with
  | nil => exact absurd rfl nonempty
  | cons r rs => exact ⟨rfl, by rw [← one r List.mem_cons_self]; rfl, rfl⟩

end

/-! ## A bundle of which some threads trap -/

section
variable {i : Instr} {f : LaneCx → LaneRes} {s : State}

/-- The state in which every thread of the bundle has settled, before causes are delivered. -/
def settled (i : Instr) (f : LaneCx → LaneRes) (s : State) : State := stallYield i s (settleAll i (laneResults i f s) s)

theorem onlyBundle_settled : OnlyBundle i s (settled i f s) := onlyBundle_settle i f s

theorem settled_cur : (settled i f s).cur = s.cur := by
  rw [settled, stallYield_parts]
  rfl

theorem settled_thread {l : Nat} (there : l < s.curWarp.threads.length) :
    (settled i f s).thread s.cur.warp l =
      settle i (s.core s.curWarp.core).step (s.thread s.cur.warp l) (runLane i s s.curWarp f l (s.thread s.cur.warp l)) := by
  rw [settled, stallYield_thread, settleAll_thread _ _ _ _ there]

/-- The warp as it settles: its threads and its residency number apart, it is the warp that issued. -/
theorem settled_warp : { (settled i f s).warp s.cur.warp with threads := [], residency := 0 } = { s.curWarp with threads := [], residency := 0 } := by
  have same := (onlyBundle_settled (i := i) (f := f) (s := s)).warp
  rwa [State.curWarp, settled_cur] at same

theorem settled_trapRegisters : ((settled i f s).warp s.cur.warp).level = s.curWarp.level ∧
    ((settled i f s).warp s.cur.warp).tvec = s.curWarp.tvec ∧ ((settled i f s).warp s.cur.warp).tmask = s.curWarp.tmask :=
  ⟨(congrArg Warp.level (settled_warp (i := i) (f := f) (s := s)) :), (congrArg Warp.tvec (settled_warp (i := i) (f := f) (s := s)) :),
    (congrArg Warp.tmask (settled_warp (i := i) (f := f) (s := s)) :)⟩

theorem settled_size : ((settled i f s).warp s.cur.warp).threads.length = s.curWarp.threads.length := by
  have same := (onlyBundle_settled (i := i) (f := f) (s := s)).size
  rwa [State.curWarp, settled_cur] at same

/-- The state in which the threads that raised causes have taken them as one trap. -/
def trappedState (i : Instr) (f : LaneCx → LaneRes) (s : State) : State :=
  (settled i f s).setWarp s.cur.warp
    (((settled i f s).warp s.cur.warp).takeTrap s.cur.slot ((settled i f s).core ((settled i f s).warp s.cur.warp).core).step s.curPc
      (raisesOf (laneResults i f s)))

theorem trappedState_warp : (trappedState i f s).warp s.cur.warp =
    ((settled i f s).warp s.cur.warp).takeTrap s.cur.slot ((settled i f s).core ((settled i f s).warp s.cur.warp).core).step s.curPc
      (raisesOf (laneResults i f s)) :=
  State.warp_setWarp ..

theorem trappedState_curWarp : (trappedState i f s).curWarp = (trappedState i f s).warp s.cur.warp := by
  rw [State.curWarp, trappedState, State.setWarp_cur, settled_cur]

theorem trappedState_sameMemory : SameMemory s (trappedState i f s) := (onlyBundle_settled (i := i) (f := f) (s := s)).memory

theorem trappedState_others {m : Nat} (other : m ≠ s.cur.warp) : (trappedState i f s).warp m = s.warp m :=
  (State.warp_setWarp_other _ _ other).trans (onlyBundle_settled.others m other)

/-- A thread that raised no cause is as it settled. -/
theorem trappedState_thread_calm {l : Nat} (calm : ∀ q ∈ raisesOf (laneResults i f s), q.lane ≠ l) :
    (trappedState i f s).thread s.cur.warp l = (settled i f s).thread s.cur.warp l := by
  rw [State.thread, trappedState_warp, takeTrap_threads, getElem?_foldl_lset_other _ _ calm]
  rfl

/-- A thread that raised a cause stands at the vector. -/
theorem trappedState_thread_raised {q : Raise} (raised : q ∈ raisesOf (laneResults i f s)) :
    ∃ step, (trappedState i f s).thread s.cur.warp q.lane = q.t.toHandler s.curWarp.tvec step q.info.telem := by
  have tvec : ((settled i f s).warp s.cur.warp).tvec = s.curWarp.tvec := settled_trapRegisters.2.1
  obtain ⟨-, there, -, out, own⟩ := (mem_raisesOf_laneResults q).mp raised
  have only : ∀ p ∈ raisesOf (laneResults i f s), p.lane = q.lane →
      p.t.toHandler ((settled i f s).warp s.cur.warp).tvec ((settled i f s).core ((settled i f s).warp s.cur.warp).core).step p.info.telem =
        q.t.toHandler s.curWarp.tvec ((settled i f s).core ((settled i f s).warp s.cur.warp).core).step q.info.telem := by
    intro p mem lane
    obtain ⟨-, -, -, out', own'⟩ := (mem_raisesOf_laneResults p).mp mem
    rw [lane, out] at out'
    rw [lane] at own'
    rw [own', own, ← LaneOut.trap.inj out', tvec]
  rw [State.thread, trappedState_warp, takeTrap_threads,
    getElem?_foldl_lset _ _ q.lane (settled_size.symm ▸ there) only fun none => absurd rfl (none q raised)]
  exact ⟨_, rfl⟩

/-- AN INSTRUCTION THAT ACTS IN EACH THREAD FOR ITSELF AND RAISES CAUSE 0x07 IN SOME, at user level with a vector and no trap active. -/
theorem laneMap_trapped {c : Nat} (runs : exec i s = laneMap i f s) (issues : Issues i s) (user : s.curWarp.level = .user)
    (vector : s.curWarp.tvec ≠ 0) (free : s.curWarp.tmask = 0) (compute : c ≠ 0x10) (nonempty : raisesOf (laneResults i f s) ≠ [])
    (one : ∀ q ∈ raisesOf (laneResults i f s), q.info.cause = c) : exec i s = .next (trappedState i f s) := by
  obtain ⟨level, tvec, tmask⟩ := settled_trapRegisters (i := i) (f := f) (s := s)
  have none : issueInstead i s = none := issues
  rw [trappedState, ← deliver_takesTrap (level.trans user) (tvec ▸ vector) (tmask.trans free) compute nonempty one, runs]
  simp only [laneMap, laneMapPost, none, id]
  rfl

/-- What each guard-true thread does where some of them raise cause 0x07 makes TrapsOn. -/
theorem laneMap_trapsOn {raises : LaneCx → Prop} {completes trapped : LaneCx → Thread → Prop} (runs : exec i s = laneMap i f s)
    (issues : Issues i s)
    (traps : ∀ l, mbit s.cur.lanes l = true → raises (s.cx s.cur.warp l) → ∃ telem,
      (f (s.cx s.cur.warp l)).out = .trap { cause := 7, telem := telem } ∧
      ∀ vec step, trapped (s.cx s.cur.warp l) ((f (s.cx s.cur.warp l)).t.toHandler vec step telem))
    (goes : ∀ l, mbit s.cur.lanes l = true → ¬ raises (s.cx s.cur.warp l) → (∀ c, (f (s.cx s.cur.warp l)).out ≠ .trap c) ∧
      completes (s.cx s.cur.warp l) (settle i (s.core s.curWarp.core).step (s.thread s.cur.warp l) (f (s.cx s.cur.warp l)))) :
    TrapsOn i s raises completes trapped := by
  intro user vector free n raised any
  have sound : ∀ q ∈ raisesOf (laneResults i f s), raised q.lane ∧ q.info.cause = 7 := by
    intro q mem
    obtain ⟨member, there, guard, out, -⟩ := (mem_raisesOf_laneResults q).mp mem
    have loud : raises (s.cx s.cur.warp q.lane) := by
      by_contra calm
      exact (goes q.lane member calm).1 _ out
    obtain ⟨telem, out', -⟩ := traps q.lane member loud
    exact ⟨⟨member, there, guard, loud⟩, by rw [← LaneOut.trap.inj (out'.symm.trans out)]⟩
  have complete : ∀ l, raised l → ∃ q ∈ raisesOf (laneResults i f s), q.lane = l := by
    rintro l ⟨member, there, guard, loud⟩
    obtain ⟨telem, out, -⟩ := traps l member loud
    exact ⟨⟨l, { cause := 7, telem := telem }, (f (s.cx s.cur.warp l)).t⟩,
      (mem_raisesOf_laneResults _).mpr ⟨member, there, guard, out, rfl⟩, rfl⟩
  have nonempty : raisesOf (laneResults i f s) ≠ [] := by
    obtain ⟨l, h⟩ := any
    obtain ⟨q, mem, -⟩ := complete l h
    exact List.ne_nil_of_mem mem
  have one : ∀ q ∈ raisesOf (laneResults i f s), q.info.cause = 7 := fun q mem => (sound q mem).2
  have calm {l : Nat} (h : ¬ raised l) : (trappedState i f s).thread n l = (settled i f s).thread n l :=
    trappedState_thread_calm fun q mem own => h (own ▸ (sound q mem).1)
  obtain ⟨mask, cause, tpc⟩ := takeTrap_registers (w := (settled i f s).warp s.cur.warp) (slot := s.cur.slot)
    (step := ((settled i f s).core ((settled i f s).warp s.cur.warp).core).step) (pc := s.curPc) nonempty one
  rw [← trappedState_warp, ← trappedState_curWarp] at mask cause tpc
  refine ⟨trappedState i f s, laneMap_trapped runs issues user vector free (by decide) nonempty one, fun l small => ?_, ?_, tpc,
    trappedState_sameMemory, fun m other => trappedState_others other, fun l out => ?_, fun l member there => ⟨fun h => ?_, fun h guard => ?_,
    fun guard => ?_⟩⟩
  · rw [mask, getLsbD_maskOf _ small, List.mem_map]
    exact ⟨fun ⟨q, mem, own⟩ => own ▸ (sound q mem).1, complete l⟩
  · rw [cause]
    split <;> rfl
  · rw [calm fun h => ne_true_of_eq_false out h.1]
    exact onlyBundle_settled.outside l out
  · obtain ⟨q, mem, rfl⟩ := complete l h
    obtain ⟨step, thread⟩ := trappedState_thread_raised mem
    obtain ⟨-, -, -, out, own⟩ := (mem_raisesOf_laneResults q).mp mem
    obtain ⟨telem, out', holds⟩ := traps q.lane member h.2.2.2
    rw [thread, own, ← LaneOut.trap.inj (out'.symm.trans out)]
    exact ⟨rfl, holds _ _⟩
  · have quiet : ¬ raises (s.cx n l) := fun loud => h ⟨member, there, guard, loud⟩
    rw [calm h, settled_thread there, runLane_acting member guard]
    exact (goes l member quiet).2
  · rw [calm fun h => ne_true_of_eq_false guard h.2.2.1, settled_thread there, runLane_guardFalse member guard]
    exact ⟨⟨rfl, rfl, rfl, rfl⟩, rfl⟩

end

end Sys2Proof.Proofs
end

