-- ==== Sys2Proof/Proofs/SubElements.lean ====
section
/-! PROOFS. Sub-elements of a register, the flags that they raise, and what finishing a floating instruction leaves in a thread (R149, R150). -/

namespace Sys2Proof.Proofs

open Sys2Proof Sys2Proof.Machine Sys2Proof.Claims

-- One proof after another: proofs run side by side over a text of this length need more threads than the check has memory for.
set_option Elab.async false

/-! ## Sub-elements of a packed register (R141) -/

theorem tyCount_le (t : Ty) : tyCount t ≤ 16 := by cases t <;> decide

theorem tyCount_pos (t : Ty) : 0 < tyCount t := by cases t <;> decide

theorem tyCount_mul_tyWidth_le (t : Ty) : tyCount t * tyWidth t ≤ 64 := by cases t <;> decide

theorem elem_lt (v : Word) (j : Nat) (t : Ty) : elem v j t < 2 ^ tyWidth t := Nat.mod_lt _ (Nat.two_pow_pos _)

theorem packElems_div (w : Nat) (ps : List Nat) (j : Nat) : packElems w ps / 2 ^ (j * w) % 2 ^ w = (ps[j]?).getD 0 % 2 ^ w := by
  induction ps generalizing j with
  | nil => simp [packElems]
  | cons p ps ih =>
    cases j with
    | zero => simp [packElems]
    | succ j =>
      have low : p % 2 ^ w / 2 ^ w = 0 := Nat.div_eq_of_lt (Nat.mod_lt _ (Nat.two_pow_pos w))
      rw [List.getElem?_cons_succ, ← ih j, packElems, Nat.succ_mul, Nat.add_comm (j * w), Nat.pow_add, ← Nat.div_div_eq_div_mul,
        Nat.add_mul_div_left _ _ (Nat.two_pow_pos w), low, Nat.zero_add]

/-- A field that lies below bit 64 is a word's as it is the number's. -/
theorem wbits_ofNat {n lo w : Nat} (within : lo + w ≤ 64) : wbits (BitVec.ofNat 64 n) lo w = n / 2 ^ lo % 2 ^ w := by
  have split : 2 ^ 64 = 2 ^ lo * 2 ^ (64 - lo) := by rw [← Nat.pow_add]; congr 1; omega
  rw [wbits, BitVec.toNat_ofNat, split, Nat.mod_mul_right_div_self, Nat.mod_mod_of_dvd _ (Nat.pow_dvd_pow 2 (by omega))]

theorem elem_packWord (t : Ty) (ps : List Nat) {j : Nat} (small : j < tyCount t) :
    elem (packWord t ps) j t = (ps[j]?).getD 0 % 2 ^ tyWidth t := by
  have within : j * tyWidth t + tyWidth t ≤ 64 := by
    rw [← Nat.succ_mul]
    exact (Nat.mul_le_mul_right _ small).trans (tyCount_mul_tyWidth_le t)
  rw [elem, packWord, wbits_ofNat within, packElems_div, List.getElem?_take_of_lt small]

/-- A sub-element that raised an enabled flag keeps its value; another takes its result (R150). -/
theorem elem_mergeElems {t : Ty} {ten : Flags} {prev : Word} {rs : List FpRes} {j : Nat} {r : FpRes} (small : j < tyCount t) (has : rs[j]? = some r) :
    elem (mergeElems t ten prev rs) j t = if r.2 &&& ten ≠ 0 then elem prev j t else r.1 % 2 ^ tyWidth t := by
  rw [mergeElems, elem_packWord t _ small, getElem?_mapFrom, has, Option.map_some, Option.getD_some, Nat.zero_add]
  by_cases clear : r.2 &&& ten = 0
  · rw [if_pos clear, if_neg (not_not.mpr clear)]
  · rw [if_neg clear, if_pos clear, Nat.mod_eq_of_lt (elem_lt ..)]

theorem getElem?_fElems (t : Ty) (g : Nat → FpRes) {j : Nat} (small : j < tyCount t) : (fElems t g)[j]? = some (g j) := by
  rw [fElems, List.getElem?_map, List.getElem?_range small]
  rfl

theorem mem_fElems {t : Ty} {g : Nat → FpRes} {r : FpRes} : r ∈ fElems t g ↔ ∃ j, j < tyCount t ∧ g j = r := by
  simp [fElems]

/-! ## Flags (R149) and TELEM (R150) -/

theorem getLsbD_foldl_flags {α : Type} (rs : List (α × Flags)) (fl : Flags) (b : Nat) :
    (rs.foldl (fun f r => f ||| r.2) fl).getLsbD b = true ↔ fl.getLsbD b = true ∨ ∃ r ∈ rs, r.2.getLsbD b = true := by
  induction rs generalizing fl with
  | nil => simp
  | cons r rs ih => simp [ih, or_assoc]

/-- The sub-elements of a list that raise an enabled flag, as the bits of a number. -/
def raisedBits (ten : Flags) : List FpRes → Nat
  | [] => 0
  | r :: rs => (if r.2 &&& ten = 0 then 0 else 1) + 2 * raisedBits ten rs

theorem telem_sum (ten : Flags) (rs : List FpRes) (i a : Nat) :
    (mapFrom (fun i (r : FpRes) => if r.2 &&& ten = 0 then 0 else 2 ^ i) i rs).foldl (· + ·) a = a + 2 ^ i * raisedBits ten rs := by
  induction rs generalizing i a with
  | nil => simp [mapFrom, raisedBits]
  | cons r rs ih =>
    rw [mapFrom, List.foldl_cons, ih, raisedBits, Nat.pow_succ]
    split <;> ring

theorem testBit_raisedBits (ten : Flags) (rs : List FpRes) (j : Nat) :
    (raisedBits ten rs).testBit j = true ↔ ∃ r, rs[j]? = some r ∧ r.2 &&& ten ≠ 0 := by
  induction rs generalizing j with
  | nil => simp [raisedBits]
  | cons r rs ih =>
    cases j with
    | zero =>
      rw [raisedBits, Nat.testBit_zero]
      by_cases clear : r.2 &&& ten = 0
      · simp [clear]
      · rw [if_neg clear, Nat.add_mul_mod_self_left]
        simpa using clear
    | succ j =>
      have half : ((if r.2 &&& ten = 0 then 0 else 1) + 2 * raisedBits ten rs) / 2 = raisedBits ten rs := by split <;> omega
      rw [raisedBits, Nat.testBit_succ, half, ih, List.getElem?_cons_succ]

theorem getLsbD_telemOf (ten : Flags) (rs : List FpRes) {j : Nat} (small : j < 16) :
    (telemOf ten rs).getLsbD j = true ↔ ∃ r, rs[j]? = some r ∧ r.2 &&& ten ≠ 0 := by
  rw [telemOf, telem_sum, BitVec.getLsbD_ofNat, Nat.pow_zero, Nat.one_mul, Nat.zero_add, decide_eq_true small, Bool.true_and, testBit_raisedBits]

/-- No sub-element is named where none raises an enabled flag. -/
theorem telemOf_eq_zero (ten : Flags) {rs : List FpRes} (short : rs.length ≤ 16) : telemOf ten rs = 0 ↔ ∀ r ∈ rs, r.2 &&& ten = 0 := by
  constructor
  · intro zero r mem
    by_contra raised
    obtain ⟨j, has⟩ := List.mem_iff_getElem?.mp mem
    have small : j < 16 := by
      obtain ⟨there, -⟩ := List.getElem?_eq_some_iff.mp has
      omega
    have := (getLsbD_telemOf ten rs small).mpr ⟨r, has, raised⟩
    rw [zero] at this
    simp at this
  · intro calm
    apply BitVec.eq_of_getLsbD_eq
    intro j small
    rw [Bool.eq_iff_iff, getLsbD_telemOf ten rs small]
    simp only [BitVec.ofNat_eq_ofNat, BitVec.getLsbD_zero, Bool.false_eq_true, iff_false]
    rintro ⟨r, has, raised⟩
    exact raised (calm r (List.mem_iff_getElem?.mpr ⟨j, has⟩))

/-! ## Flags beside registers -/

theorem orFlags_cur (t : Thread) (fl : Flags) (k : RegRef) : (t.orFlags fl).cur k = t.cur k := by cases k <;> rfl

theorem toHandler_cur (t : Thread) (vec : Word) (step : Nat) (telem : BitVec 16) (k : RegRef) : (t.toHandler vec step telem).cur k = t.cur k := by
  cases k <;> rfl

theorem writes_orFlags {x : LaneCx} {u : Thread} {L : Nat} {r : Option RegRef} {v : Word} (h : Writes x u L r v) (fl : Flags) :
    Writes x (u.orFlags fl) L r v := by
  have reads (k : RegRef) (c : Nat) : (u.orFlags fl).reads k c = u.reads k c := by rw [Thread.reads, orFlags_cur]; rfl
  obtain ⟨others, own⟩ := h
  refine ⟨fun k other => ?_, ?_⟩
  · rw [orFlags_cur]
    exact ⟨(others k other).1, fun c later => (reads k c).trans ((others k other).2 c later)⟩
  · cases r with
    | none => trivial
    | some k => exact ⟨(orFlags_cur u fl k).trans own.1, fun c landed late => (reads k c).trans (own.2 c landed late)⟩

/-- On a service core every result is read at once, whatever its latency (R54). -/
theorem writes_service {x : LaneCx} {u : Thread} {L L' : Nat} {r : Option RegRef} {v : Word} (h : Writes x u L r v)
    (same : L = L' ∨ x.w.service = true) : Writes x u L' r v := by
  rcases same with rfl | service
  · exact h
  · obtain ⟨others, own⟩ := h
    refine ⟨others, ?_⟩
    cases r with
    | none => trivial
    | some k => exact ⟨own.1, fun c landed _ => own.2 c landed (.inl service)⟩

theorem writeD_fpflags (t : Thread) (x : LaneCx) (lat : Machine.Lat) (d : Dst) (v : Word) : (t.writeD x lat d v).fpflags = t.fpflags :=
  (congrArg Thread.fpflags (writeD_noRegs t x lat d v) :)

/-! ## Finishing a floating instruction -/

section
variable {i : Instr} {s : State} {f : FloatForm} {x : LaneCx} {lat : Machine.Lat}

/-- What a floating form leaves in a thread. -/
def finished (f : FloatForm) (lat : Machine.Lat) (x : LaneCx) : LaneRes := fpFinish x lat f.ty f.d (fElems f.ty (f.res x))

theorem telemOf_fElems_eq_zero : telemOf x.ten (fElems f.ty (f.res x)) = 0 ↔ ¬ Enabled f x := by
  have short : (fElems f.ty (f.res x)).length ≤ 16 := by simpa [fElems] using tyCount_le f.ty
  rw [telemOf_eq_zero _ short]
  simp [mem_fElems, Enabled]

theorem finished_out_calm (calm : ¬ Enabled f x) : (finished f lat x).out = .next := if_pos (telemOf_fElems_eq_zero.mpr calm)

theorem finished_out_enabled (raised : Enabled f x) :
    (finished f lat x).out = .trap { cause := 7, telem := telemOf x.ten (fElems f.ty (f.res x)) } :=
  if_neg (mt telemOf_fElems_eq_zero.mp (not_not.mpr raised))

theorem finished_gainsFlags (f : FloatForm) (lat : Machine.Lat) (x : LaneCx) : GainsFlags f x (finished f lat x).t := by
  intro b
  show ((x.t.writeD x lat f.d _).fpflags ||| flagsOf _).getLsbD b = true ↔ _
  rw [writeD_fpflags, BitVec.getLsbD_or, Bool.or_eq_true, flagsOf, getLsbD_foldl_flags]
  simp [mem_fElems]

/-- A destination takes the merged results. -/
theorem finished_writes (f : FloatForm) (lat : Machine.Lat) (x : LaneCx) :
    Writes x (finished f lat x).t lat.cycles (dstReg f.d) (mergeElems f.ty x.ten (x.t.dcur f.d) (fElems f.ty (f.res x))) :=
  writes_orFlags (writeD_writes ..) _

/-- A thread that raised no enabled flag completes (R149). -/
theorem finished_floatResult (calm : ¬ Enabled f x) (latency : lat.cycles = f.L ∨ x.w.service = true) :
    FloatResult i s f x (settle i (s.core s.curWarp.core).step x.t (finished f lat x)) := by
  rw [settle, finished_out_calm calm]
  refine ⟨_, ⟨rfl, rfl, rfl, rfl⟩, ?_, writes_issued (writes_service (finished_writes f lat x) latency) _ _ _, finished_gainsFlags f lat x,
    fun j small => ?_⟩
  · exact congrArg (fun u : Thread => { u with fpflags := 0 }) (writeD_noRegs x.t x lat f.d _)
  · rw [elem_mergeElems small (getElem?_fElems _ _ small), if_neg fun raised => calm ⟨j, small, raised⟩]

/-- A thread that raised an enabled flag keeps the sub-elements that raised it, and TELEM names them (R150). -/
theorem finished_trapped (f : FloatForm) (lat : Machine.Lat) (x : LaneCx) (vec : Word) (step : Nat) :
    let u := (finished f lat x).t.toHandler vec step (telemOf x.ten (fElems f.ty (f.res x)))
    GainsFlags f x u ∧ (∀ j, j < tyCount f.ty → (u.telem.getLsbD j = true ↔ (f.res x j).2 &&& x.ten ≠ 0)) ∧
    (∀ k, some k ≠ dstReg f.d → u.cur k = x.t.cur k) ∧
    ∀ k, dstReg f.d = some k → ∀ j, j < tyCount f.ty → elem (u.cur k) j f.ty =
      if (f.res x j).2 &&& x.ten ≠ 0 then elem (x.t.cur k) j f.ty else (f.res x j).1 % 2 ^ tyWidth f.ty := by
  intro u
  obtain ⟨others, own⟩ := finished_writes f lat x
  refine ⟨finished_gainsFlags f lat x, fun j small => ?_, fun k other => (toHandler_cur ..).trans (others k other).1, fun k names j small => ?_⟩
  · refine (getLsbD_telemOf _ _ (small.trans_le (tyCount_le f.ty))).trans ?_
    rw [getElem?_fElems _ _ small]
    simp
  · rw [names] at own
    have previous : x.t.dcur f.d = x.t.cur k := by
      cases d : f.d with
      | zero => rw [d] at names; cases names
      | g n => rw [d] at names; cases names; rfl
    rw [toHandler_cur, own.1, elem_mergeElems small (getElem?_fElems _ _ small), previous]

end

end Sys2Proof.Proofs
end

