-- ==== Sys2Proof/Proofs/Rounding.lean ====
section
/-! PROOFS. Rounding into an IEEE format (R147): the patterns that it gives, and the numbers that it leaves exact; exact dyadic numbers. -/

namespace Sys2Proof.Proofs

open Sys2Proof Sys2Proof.Machine Sys2Proof.Claims

-- One proof after another: proofs run side by side over a text of this length need more threads than the check has memory for.
set_option Elab.async false

/-! ## Patterns -/

theorem ite_succ_le (up : Bool) {n b : Nat} (below : n < b) : (if up then n + 1 else n) ≤ b := by
  cases up
  · exact below.le
  · exact below

/-- A rounded multiple has at most one bit more than the fraction, and that only as a power of two. -/
theorem roundAt_le (neg : Bool) (m : Nat) (e : Int) (sticky : Bool) {q : Int} (md : RMode) {w : Nat} (coarse : e + Nat.log2 m - w ≤ q) :
    (roundAt neg m e sticky q md).1 ≤ 2 ^ (w + 1) := by
  have bits : m < 2 ^ (Nat.log2 m + 1) := Nat.lt_log2_self
  rw [roundAt]
  split
  · rename_i fine
    calc m * 2 ^ (e - q).toNat ≤ 2 ^ (Nat.log2 m + 1) * 2 ^ (e - q).toNat := Nat.mul_le_mul_right _ bits.le
      _ = 2 ^ (Nat.log2 m + 1 + (e - q).toNat) := (Nat.pow_add ..).symm
      _ ≤ 2 ^ (w + 1) := Nat.pow_le_pow_right (by decide) (by omega)
  · have below : m / 2 ^ (q - e).toNat < 2 ^ (w + 1) := by
      rw [Nat.div_lt_iff_lt_mul (Nat.two_pow_pos _), ← Nat.pow_add]
      exact bits.trans_le (Nat.pow_le_pow_right (by decide) (by omega))
    dsimp only
    exact ite_succ_le _ below

theorem infPat_lt (f : Fmt) : f.infPat + 2 ^ f.mw = 2 ^ (f.ew + f.mw) := by
  have : 1 ≤ 2 ^ f.ew := Nat.two_pow_pos _
  rw [Fmt.infPat, Nat.pow_add, Nat.sub_one_mul, Nat.sub_add_cancel (Nat.le_mul_of_pos_left _ this)]

theorem signPat_le (f : Fmt) (neg : Bool) : f.signPat neg ≤ 2 ^ (f.ew + f.mw) := by
  cases neg
  · exact Nat.zero_le _
  · exact le_rfl

/-- A rounded number is a pattern of the format. -/
theorem round_lt (f : Fmt) (md : RMode) (ftz neg : Bool) (m : Nat) (e : Int) (sticky : Bool) :
    (f.round md ftz neg m e sticky).1 < 2 ^ (f.ew + f.mw + 1) := by
  have inf := infPat_lt f
  have sign := signPat_le f neg
  have unit : 0 < 2 ^ f.mw := Nat.two_pow_pos _
  rw [Nat.pow_succ]
  unfold Fmt.round
  split
  · show f.signPat neg < _
    omega
  · dsimp only
    have low := roundAt_le neg m e sticky md (q := max (e + Nat.log2 m - f.mw) (1 - (f.bias : Int) - f.mw)) (w := f.mw) (le_max_left _ _)
    generalize roundAt neg m e sticky (max (e + Nat.log2 m - f.mw) (1 - (f.bias : Int) - f.mw)) md = a at low
    generalize max (e + Nat.log2 m - f.mw) (1 - (f.bias : Int) - f.mw) = q
    generalize decide (_ < 1 - (f.bias : Int)) = tiny
    rw [Nat.pow_succ] at low
    split
    · show f.signPat neg < _
      omega
    · split
      · show f.signPat neg + a.1 < _
        omega
      · have fraction : (if a.1 = 2 ^ (f.mw + 1) then (2 ^ f.mw, q + 1) else (a.1, q)).1 - 2 ^ f.mw < 2 ^ f.mw := by
          rw [Nat.pow_succ]
          split
          · show 2 ^ f.mw - 2 ^ f.mw < _
            omega
          · show a.1 - 2 ^ f.mw < _
            omega
        generalize (if a.1 = 2 ^ (f.mw + 1) then (2 ^ f.mw, q + 1) else (a.1, q)) = b at fraction
        split
        · show f.signPat neg + _ < _
          split <;> omega
        · rename_i below
          have exponent : ((b.2 + f.mw + f.bias).toNat + 1) * 2 ^ f.mw ≤ f.infPat := Nat.mul_le_mul_right _ (by omega)
          rw [Nat.succ_mul] at exponent
          show f.signPat neg + (b.2 + f.mw + f.bias).toNat * 2 ^ f.mw + (b.1 - 2 ^ f.mw) < _
          omega

/-- The fraction of a normal number, shifted up to its leading bit. -/
theorem shifted_bounds {m w : Nat} (positive : m ≠ 0) (fits : Nat.log2 m ≤ w) :
    2 ^ w ≤ m * 2 ^ (w - Nat.log2 m) ∧ m * 2 ^ (w - Nat.log2 m) < 2 ^ (w + 1) := by
  have scale : 2 ^ w = 2 ^ Nat.log2 m * 2 ^ (w - Nat.log2 m) := by rw [← Nat.pow_add, Nat.add_sub_cancel' fits]
  refine ⟨scale ▸ Nat.mul_le_mul_right _ (Nat.log2_self_le positive), ?_⟩
  rw [Nat.pow_succ, scale, Nat.mul_right_comm, ← Nat.pow_succ]
  exact Nat.mul_lt_mul_of_pos_right Nat.lt_log2_self (Nat.two_pow_pos _)

/-- A normal number that fits the fraction keeps its value. -/
theorem round_exact {f : Fmt} (md : RMode) {m : Nat} {e : Int} (positive : m ≠ 0) (fits : Nat.log2 m ≤ f.mw)
    (normal : 1 - (f.bias : Int) ≤ e + Nat.log2 m) (finite : e + Nat.log2 m + f.bias < 2 ^ f.ew - 1) :
    (f.round md false false m e).1 = (e + Nat.log2 m + f.bias).toNat * 2 ^ f.mw + (m * 2 ^ (f.mw - Nat.log2 m) - 2 ^ f.mw) := by
  obtain ⟨lower, upper⟩ := shifted_bounds positive fits
  have place : max (e + Nat.log2 m - f.mw) (1 - (f.bias : Int) - f.mw) = e + Nat.log2 m - f.mw := max_eq_left (by omega)
  have whole : roundAt false m e false (e + Nat.log2 m - f.mw) md = (m * 2 ^ (f.mw - Nat.log2 m), false) := by
    rw [roundAt, if_pos (by omega), show (e - (e + Nat.log2 m - f.mw)).toNat = f.mw - Nat.log2 m by omega]
  have small : ¬ 2 ^ f.ew - 1 ≤ (e + Nat.log2 m - f.mw + f.mw + f.bias).toNat := by
    zify [Nat.one_le_two_pow (n := f.ew)]
    omega
  rw [Fmt.round, if_neg (fun h => positive h.1)]
  dsimp only
  rw [place, whole]
  dsimp only
  rw [Bool.false_and, if_neg (by decide), if_neg (Nat.not_lt.mpr lower), if_neg upper.ne, if_neg small, Fmt.signPat, if_neg (by decide), Nat.zero_add,
    Int.sub_add_cancel]

/-- The number of a normal pattern. -/
theorem magnitudeOf_normal (f : Fmt) {ex n : Nat} (normal : ex ≠ 0) (low : 2 ^ f.mw ≤ n) (high : n < 2 ^ (f.mw + 1)) :
    magnitudeOf f (ex * 2 ^ f.mw + (n - 2 ^ f.mw)) = num false n ((ex : Int) - f.bias - f.mw) := by
  have fraction : n - 2 ^ f.mw < 2 ^ f.mw := by
    rw [Nat.pow_succ] at high
    omega
  have exponent : (ex * 2 ^ f.mw + (n - 2 ^ f.mw)) / 2 ^ f.mw = ex := by
    rw [Nat.mul_comm, Nat.mul_add_div (Nat.two_pow_pos _), Nat.div_eq_of_lt fraction, Nat.add_zero]
  have rest : (ex * 2 ^ f.mw + (n - 2 ^ f.mw)) % 2 ^ f.mw = n - 2 ^ f.mw := by
    rw [Nat.mul_comm, Nat.mul_add_mod, Nat.mod_eq_of_lt fraction]
  rw [magnitudeOf, exponent, if_neg normal, rest, Nat.add_sub_cancel' low]

/-- A number that fits the format is its rounding's magnitude. -/
theorem magnitudeOf_round {f : Fmt} (md : RMode) {m : Nat} {e : Int} (positive : m ≠ 0) (fits : Nat.log2 m ≤ f.mw)
    (normal : 1 - (f.bias : Int) ≤ e + Nat.log2 m) (finite : e + Nat.log2 m + f.bias < 2 ^ f.ew - 1) :
    magnitudeOf f (f.round md false false m e).1 = m * (2 : ℚ) ^ e := by
  obtain ⟨lower, upper⟩ := shifted_bounds positive fits
  have place : ((e + Nat.log2 m + f.bias).toNat : Int) - f.bias - f.mw = e - (f.mw - Nat.log2 m : Nat) := by omega
  rw [round_exact md positive fits normal finite, magnitudeOf_normal f (by omega) lower upper, place, num, zpow_sub₀ (by norm_num), zpow_natCast]
  push_cast
  field_simp

end Sys2Proof.Proofs
end

