-- ==== Sys2Proof/Proofs/FloatForms.lean ====
section
/-! PROOFS. The floating instructions with a general destination: each finishes the results of its form (R149, R150). -/

namespace Sys2Proof.Proofs

open Sys2Proof Sys2Proof.Machine Sys2Proof.Claims

-- One proof after another: proofs run side by side over a text of this length need more threads than the check has memory for.
set_option Elab.async false

/-- An instruction finishes the results of a floating form in each of its threads. -/
def Finishes (i : Instr) (f : FloatForm) (s : State) : Prop :=
  ∃ lat : Machine.Lat, exec i s = laneMap i (finished f lat) s ∧ lat.cycles = f.L

section
variable {s : State}

theorem finishes_of_some {i : Instr} {f g : FloatForm} (h : some g = some f) (fin : Finishes i g s) : Finishes i f s :=
  Option.some.inj h ▸ fin

theorem intOf_eq_scaleTy : scaled.intOf = scaleTy := by
  funext ty
  cases ty <;> rfl

theorem isNarrow_iff (ty : Ty) : isNarrow ty = true ↔ ty = .q8 ∨ ty = .l6 ∨ ty = .h4 := by cases ty <;> decide

/-- FDOT and FSUM write sub-element 1 as 0. -/
theorem fElems_first (r : FpRes) : fElems .f32 (fun j => if j = 0 then r else (0, 0)) = [r, (0, 0)] := rfl

theorem finishes_first {i : Instr} {d : Dst} {r : LaneCx → FpRes} (runs : exec i s = laneMap i (fun x => fpFinish x lat8 .f32 d [r x, (0, 0)]) s) :
    Finishes i ⟨8, d, .f32, fun x j => if j = 0 then r x else (0, 0)⟩ s :=
  ⟨lat8, runs.trans (congrArg (laneMap i · s) (funext fun x => congrArg (fpFinish x lat8 .f32 d) (fElems_first (r x)).symm)), rfl⟩

theorem finishes_scaled {i : Instr} {ty : Ty} {rnd : Rnd} {d : Dst} {a : Src} {b : LaneCx → Word} {f : FloatForm}
    (form : scaled ty rnd d a b = some f) (runs : exec i s = fpScale i ty rnd d a b s) : Finishes i f s := by
  refine finishes_of_some form ⟨latF ty, runs.trans ?_, rfl⟩
  simp only [fpScale, intOf_eq_scaleTy]
  rfl

/-- EVERY FLOATING FORM: its instruction finishes it. -/
theorem finishes_floatForm {i : Instr} {f : FloatForm} (form : floatForm i = some f) : Finishes i f s := by
  cases i with
  | faddCompact => exact finishes_of_some form ⟨_, rfl, rfl⟩
  | faddLong => exact finishes_of_some form ⟨_, rfl, rfl⟩
  | faddLiteral => exact finishes_of_some form ⟨_, rfl, rfl⟩
  | fsubCompact => exact finishes_of_some form ⟨_, rfl, rfl⟩
  | fsubLong => exact finishes_of_some form ⟨_, rfl, rfl⟩
  | fsubLiteral => exact finishes_of_some form ⟨_, rfl, rfl⟩
  | fmulCompact => exact finishes_of_some form ⟨_, rfl, rfl⟩
  | fmulLong => exact finishes_of_some form ⟨_, rfl, rfl⟩
  | fmulLiteral => exact finishes_of_some form ⟨_, rfl, rfl⟩
  | fdivCompact => exact finishes_of_some form ⟨_, rfl, rfl⟩
  | fdivLong => exact finishes_of_some form ⟨_, rfl, rfl⟩
  | fdivLiteral => exact finishes_of_some form ⟨_, rfl, rfl⟩
  | ffmaLong => exact finishes_of_some form ⟨_, rfl, rfl⟩
  | ffmaLiteral => exact finishes_of_some form ⟨_, rfl, rfl⟩
  | fminCompact => exact finishes_of_some form ⟨_, rfl, rfl⟩
  | fminLong => exact finishes_of_some form ⟨_, rfl, rfl⟩
  | fminLiteral => exact finishes_of_some form ⟨_, rfl, rfl⟩
  | fmaxCompact => exact finishes_of_some form ⟨_, rfl, rfl⟩
  | fmaxLong => exact finishes_of_some form ⟨_, rfl, rfl⟩
  | fmaxLiteral => exact finishes_of_some form ⟨_, rfl, rfl⟩
  | fsqrt => exact finishes_of_some form ⟨_, rfl, rfl⟩
  | frcp => exact finishes_of_some form ⟨_, rfl, rfl⟩
  | frsq => exact finishes_of_some form ⟨_, rfl, rfl⟩
  | fsclLong => exact finishes_scaled form (by rw [intOf_eq_scaleTy]; rfl)
  | fsclLiteral => exact finishes_scaled form (by rw [intOf_eq_scaleTy]; rfl)
  | frnd => exact finishes_of_some form ⟨_, rfl, rfl⟩
  | fdotLong => exact finishes_of_some form (finishes_first rfl)
  | fdotLiteral => exact finishes_of_some form (finishes_first rfl)
  | fsum => exact finishes_of_some form (finishes_first (by simp only [← isNarrow_iff]; rfl))
  | fex2 => exact finishes_of_some form ⟨_, rfl, rfl⟩
  | flg2 => exact finishes_of_some form ⟨_, rfl, rfl⟩
  | fsin => exact finishes_of_some form ⟨_, rfl, rfl⟩
  | fcos => exact finishes_of_some form ⟨_, rfl, rfl⟩
  | ftnh => exact finishes_of_some form ⟨_, rfl, rfl⟩
  | cvt => exact finishes_of_some form ⟨_, rfl, rfl⟩
  | pack => exact finishes_of_some form ⟨_, rfl, rfl⟩
  | unpk => exact finishes_of_some form ⟨_, rfl, rfl⟩
  | dqblk => exact finishes_of_some form ⟨.var 8, rfl, rfl⟩
  | _ => cases form

end

theorem generalTraps : GeneralTraps := by
  intro i f s form _ issues
  obtain ⟨lat, runs, cycles⟩ := finishes_floatForm (s := s) form
  refine laneMap_trapsOn runs issues (fun l _ raised => ⟨_, finished_out_enabled raised, fun vec step => finished_trapped f lat _ vec step⟩)
    fun l _ calm => ⟨fun c trap => ?_, finished_floatResult calm (.inl cycles)⟩
  rw [finished_out_calm calm] at trap
  cases trap

end Sys2Proof.Proofs
end

