-- ==== Sys2Proof/Proofs/CompareTraps.lean ====
section
/-! PROOFS. FCMP: the exact order of two values, the predicate and the flag of each form, and its trap (R150, R334, R335). -/

namespace Sys2Proof.Proofs

open Sys2Proof Sys2Proof.Machine Sys2Proof.Claims

-- One proof after another: proofs run side by side over a text of this length need more threads than the check has memory for.
set_option Elab.async false

/-! ## Exact dyadic numbers -/

/-- The rational number that a dyadic number is. -/
def rational (a : Dy) : ℚ := a.z * (2 : ℚ) ^ a.e

theorem rational_dyOf (neg : Bool) (m : Nat) (e : Int) : rational (dyOf neg m e) = num neg m e := by
  cases neg <;> simp [rational, dyOf, num]

theorem rational_neg (a : Dy) : rational a.neg = -rational a := by simp [rational, Dy.neg]

/-- A number on a finer unit. -/
theorem rational_shift (z : Int) {e g : Int} (finer : g ≤ e) : ((z * 2 ^ (e - g).toNat : Int) : ℚ) * (2 : ℚ) ^ g = z * (2 : ℚ) ^ e := by
  have unit : (2 : ℚ) ^ e = (2 : ℚ) ^ (e - g).toNat * (2 : ℚ) ^ g := by
    rw [← zpow_natCast, ← zpow_add₀ two_ne_zero]
    congr 1
    omega
  rw [unit]
  push_cast
  ring

theorem rational_add (a b : Dy) : rational (a.add b) = rational a + rational b := by
  rw [Dy.add]
  split
  · rename_i zero
    simp [rational, zero]
  · split
    · rename_i zero
      simp [rational, zero]
    · simp only [rational]
      rw [Int.cast_add, add_mul, rational_shift _ (min_le_left _ _), rational_shift _ (min_le_right _ _)]

theorem cmp_eq_compare (a b : Dy) : a.cmp b = compare (rational a) (rational b) := by
  have unit : (0 : ℚ) < 2 ^ (a.add b.neg).e := by positivity
  have difference : ((a.add b.neg).z : ℚ) * 2 ^ (a.add b.neg).e = rational a - rational b := by
    rw [sub_eq_add_neg, ← rational_neg, ← rational_add, rational]
  rw [Dy.cmp]
  rcases lt_trichotomy (a.add b.neg).z 0 with below | zero | above
  · have : rational a < rational b := by
      rw [← sub_neg, ← difference]
      exact mul_neg_of_neg_of_pos (mod_cast below) unit
    rw [compare_lt_iff_lt.mpr below, compare_lt_iff_lt.mpr this]
  · have : rational a = rational b := by
      rw [← sub_eq_zero, ← difference, zero, Int.cast_zero, zero_mul]
    rw [compare_eq_iff_eq.mpr zero, compare_eq_iff_eq.mpr this]
  · have : rational b < rational a := by
      rw [← sub_pos, ← difference]
      exact mul_pos (mod_cast above) unit
    rw [compare_gt_iff_gt.mpr above, compare_gt_iff_gt.mpr this]

/-! ## The order of two values (R334) -/

theorem fOrder_eq_order (a b : FpVal) : fOrder a b = order a b := by
  cases a with
  | nan s => rfl
  | inf x =>
    cases b with
    | inf y => cases x <;> cases y <;> rfl
    | _ => rfl
  | fin x m e =>
    cases b with
    | fin y n g => rw [fOrder, order, cmp_eq_compare, rational_dyOf, rational_dyOf]
    | _ => rfl

theorem fCompare_truth (c : FCond) (a b : FpVal) : (fCompare c a b).1 = true ↔ condHolds c (order a b) := by
  unfold fCompare
  rw [fOrder_eq_order]
  generalize order a b = o
  cases c <;> rcases o with _ | _ | _ | _ <;> simp [condHolds]

theorem fCompare_flags (c : FCond) (a b : FpVal) :
    (fCompare c a b).2 = if a.isSig = true ∨ b.isSig = true ∨ (loud c = true ∧ order a b = none) then flNV else 0 := by
  unfold fCompare
  rw [fOrder_eq_order]
  cases c <;> simp [loud, or_assoc]

/-! ## The forms (R334) -/

theorem mem_formIdx (f : CmpForm) (ty : Ty) (j : Nat) : j ∈ formIdx f ty ↔ j = 0 ∨ (f ≠ .first ∧ j < tyCount ty) := by
  have := tyCount_pos ty
  cases f with
  | first => simp [formIdx]
  | all =>
    simp [formIdx]
    omega
  | any =>
    simp [formIdx]
    omega

theorem formTruth_iff (f : CmpForm) (ty : Ty) (p : Nat → Bool) :
    formTruth f ((formIdx f ty).map p) = true ↔ formHolds f ty fun j => p j = true := by
  cases f <;> simp [formTruth, formIdx, formHolds]

section
variable {q : Pred} {ty : Ty} {c : FCond} {f : CmpForm} {a b : Operand} {x : LaneCx}

/-- The truth of an FCMP in a thread. -/
def comparedTruth (ty : Ty) (c : FCond) (f : CmpForm) (a b : Operand) (x : LaneCx) : Bool :=
  formTruth f ((formIdx f ty).map fun j => (fCompare c (x.fval ty (a x) j) (x.fval ty (b x) j)).1)

/-- The flags of an FCMP in a thread. -/
def comparedFlags (ty : Ty) (c : FCond) (f : CmpForm) (a b : Operand) (x : LaneCx) : Flags :=
  ((formIdx f ty).map fun j => fCompare c (x.fval ty (a x) j) (x.fval ty (b x) j)).foldl (fun f r => f ||| r.2) 0

theorem fcmpLane_eq : fcmpLane x q ty c f (a x) (b x) = fpFinishQ x (latF ty) q (comparedTruth ty c f a b x) (comparedFlags ty c f a b x) := by
  rw [fcmpLane, comparedTruth, comparedFlags, List.map_map]
  rfl

theorem comparedTruth_iff :
    comparedTruth ty c f a b x = true ↔ formHolds f ty fun j => condHolds c (order (x.fval ty (a x) j) (x.fval ty (b x) j)) := by
  rw [comparedTruth, formTruth_iff]
  simp only [fCompare_truth]

theorem mem_comparedFlags (k : Nat) : (comparedFlags ty c f a b x).getLsbD k = true ↔ raisesInvalid ty c f a b x ∧ flNV.getLsbD k = true := by
  rw [comparedFlags, getLsbD_foldl_flags]
  simp only [BitVec.ofNat_eq_ofNat, BitVec.getLsbD_zero, Bool.false_eq_true, false_or, List.mem_map, exists_exists_and_eq_and, mem_formIdx,
    fCompare_flags, raisesInvalid]
  constructor
  · rintro ⟨j, examined, raised⟩
    split at raised
    · rename_i invalid
      exact ⟨⟨j, examined, invalid⟩, raised⟩
    · simp at raised
  · rintro ⟨⟨j, examined, invalid⟩, bit⟩
    exact ⟨j, examined, by rwa [if_pos invalid]⟩

theorem comparedFlags_invalid (raised : raisesInvalid ty c f a b x) : comparedFlags ty c f a b x = flNV := by
  apply BitVec.eq_of_getLsbD_eq
  intro k _
  rw [Bool.eq_iff_iff, mem_comparedFlags, and_iff_right raised]

theorem comparedFlags_quiet (calm : ¬ raisesInvalid ty c f a b x) : comparedFlags ty c f a b x = 0 := by
  apply BitVec.eq_of_getLsbD_eq
  intro k _
  rw [Bool.eq_iff_iff, mem_comparedFlags]
  simp [calm]

/-! ## FCMP in a thread (R150, R335) -/

theorem fcmpLane_invalid (raised : raisesInvalid ty c f a b x) (enabled : x.ten &&& flNV ≠ 0) :
    fcmpLane x q ty c f (a x) (b x) = { t := x.t.orFlags flNV, out := .trap { cause := 7, telem := 1 } } := by
  rw [fcmpLane_eq, fpFinishQ, comparedFlags_invalid raised, if_neg (BitVec.and_comm x.ten flNV ▸ enabled)]

theorem fcmpLane_completes (calm : ¬ (raisesInvalid ty c f a b x ∧ x.ten &&& flNV ≠ 0)) :
    fcmpLane x q ty c f (a x) (b x) =
      { t := (x.t.writeQ x (latF ty) q (comparedTruth ty c f a b x)).orFlags (comparedFlags ty c f a b x) } := by
  rw [fcmpLane_eq, fpFinishQ, if_pos]
  by_cases raised : raisesInvalid ty c f a b x
  · rw [comparedFlags_invalid raised, BitVec.and_comm]
    exact not_not.mp fun enabled => calm ⟨raised, enabled⟩
  · rw [comparedFlags_quiet raised]
    exact BitVec.zero_and

theorem writeQ_fpflags (t : Thread) (x : LaneCx) (lat : Machine.Lat) (q : Pred) (b : Bool) : (t.writeQ x lat q b).fpflags = t.fpflags :=
  (congrArg Thread.fpflags (writeQ_noRegs t x lat q b) :)

theorem fcmpLane_compareResult {i : Instr} {s : State} (calm : ¬ (raisesInvalid ty c f a b x ∧ x.ten &&& flNV ≠ 0)) :
    CompareResult i s q ty c f a b x (settle i (s.core s.curWarp.core).step x.t (fcmpLane x q ty c f (a x) (b x))) := by
  rw [fcmpLane_completes calm, settle]
  refine ⟨comparedTruth ty c f a b x, comparedTruth_iff, ⟨rfl, rfl, rfl, rfl⟩, ?_, writes_issued (writes_orFlags (writeQ_writes ..) _) _ _ _,
    fun raised => ?_, fun quiet => ?_⟩
  · exact congrArg (fun u : Thread => { u with fpflags := 0 }) (writeQ_noRegs x.t x (latF ty) q _)
  · show (x.t.writeQ ..).fpflags ||| _ = _
    rw [writeQ_fpflags, comparedFlags_invalid raised]
  · show (x.t.writeQ ..).fpflags ||| _ = _
    rw [writeQ_fpflags, comparedFlags_quiet quiet]
    exact BitVec.or_zero

end

theorem exec_fcmpForm {i : Instr} {q : Pred} {ty : Ty} {c : FCond} {f : CmpForm} {a b : Operand} (s : State)
    (form : fcmpForm i = some (q, ty, c, f, a, b)) :
    exec i s = laneMap i (fun x => fcmpLane x q ty c f (a x) (b x)) s := by
  cases i with
  | fcmpLong => cases form; rfl
  | fcmpLiteral => cases form; rfl
  | _ => cases form

theorem compareTraps : CompareTraps := by
  intro i q ty c f a b s form _ issues
  refine laneMap_trapsOn (exec_fcmpForm s form) issues (fun l _ raised => ?_) fun l _ calm => ⟨fun o trap => ?_, fcmpLane_compareResult calm⟩
  · rw [fcmpLane_invalid raised.1 raised.2]
    exact ⟨1, rfl, fun vec step => ⟨rfl, rfl, fun k => (toHandler_cur ..).trans (orFlags_cur ..)⟩⟩
  · rw [fcmpLane_completes calm] at trap
    cases trap

end Sys2Proof.Proofs
end

