-- ==== Sys2Proof/Proofs/BlockTraps.lean ====
section
/-! PROOFS. QBLK: the block, the residuals and the registers that it writes, and its trap (R150, R156, R384, R385). -/

namespace Sys2Proof.Proofs

open Sys2Proof Sys2Proof.Machine Sys2Proof.Claims

-- One proof after another: proofs run side by side over a text of this length need more threads than the check has memory for.
set_option Elab.async false

/-! ## Runs of registers written -/

section
variable {x : LaneCx} {lat : Machine.Lat} {n : Nat}

theorem writeRun_append (vs : List Word) (v : Word) (t : Thread) :
    writeRun x lat n (vs ++ [v]) t = (writeRun x lat n vs t).writeLat x lat (.g (n + vs.length)) v := by
  rw [writeRun, List.length_append, List.length_singleton, List.range_succ, List.zip_append (by simp), List.foldl_append]
  rfl

theorem writeRun_noRegs (vs : List Word) (t : Thread) : (writeRun x lat n vs t).noRegs = t.noRegs := by
  induction vs using List.reverseRecOn with
  | nil => rfl
  | append_singleton vs v ih => rw [writeRun_append, writeLat_noRegs, ih]

theorem cur_writeRun_other {k : RegRef} (vs : List Word) (t : Thread) (other : ∀ j, j < vs.length → k ≠ .g (n + j)) :
    (writeRun x lat n vs t).cur k = t.cur k := by
  induction vs using List.reverseRecOn with
  | nil => rfl
  | append_singleton vs v ih =>
    rw [writeRun_append, cur_writeLat, cur_put_other _ _ (other vs.length (by simp)) nofun]
    exact ih fun j small => other j (by simp; omega)

theorem cur_writeRun (vs : List Word) (t : Thread) {j : Nat} {v : Word} (has : vs[j]? = some v) : (writeRun x lat n vs t).cur (.g (n + j)) = v := by
  induction vs using List.reverseRecOn with
  | nil => cases has
  | append_singleton vs w ih =>
    rw [writeRun_append, cur_writeLat]
    by_cases last : j = vs.length
    · subst last
      rw [cur_put_g]
      simpa using has
    · have before : j < vs.length := by
        obtain ⟨there, -⟩ := List.getElem?_eq_some_iff.mp has
        simp at there
        omega
      rw [cur_put_other _ _ (by simpa using last) fun _ e => by cases e]
      exact ih (by rwa [List.getElem?_append_left before] at has)

end

/-! ## Bytes and pairs of f32 in registers (R324, R384) -/

theorem leNat_eq_packElems (bs : List Byte) : leNat bs = packElems 8 (bs.map BitVec.toNat) := by
  induction bs with
  | nil => rfl
  | cons b bs ih =>
    rw [leNat, ih, List.map_cons, packElems, Nat.mod_eq_of_lt b.isLt]
    norm_num

theorem elem_wordOfBytes {bs : List Byte} {e : Nat} (small : e < 8) {b : Byte} (has : bs[e]? = some b) : elem (wordOfBytes bs) e .n8 = b.toNat := by
  rw [elem, wordOfBytes, wbits_ofNat (by simp only [tyWidth]; omega), leNat_eq_packElems, tyWidth, packElems_div, List.getElem?_map, has]
  exact Nat.mod_eq_of_lt b.isLt

/-- Each byte of a block stands in the registers that hold it. -/
theorem bytesRegs_elem {n : Nat} {bs : List Byte} {j e : Nat} (register : j < n) (small : e < 8) (there : 8 * j + e < bs.length) :
    ∃ v, (bytesRegs n bs)[j]? = some v ∧ some (elem v e .n8) = (bs[8 * j + e]?).map BitVec.toNat := by
  refine ⟨_, by rw [bytesRegs, List.getElem?_map, List.getElem?_range register]; rfl, ?_⟩
  have has := List.getElem?_eq_getElem there
  rw [elem_wordOfBytes small (by rw [List.getElem?_take_of_lt small, List.getElem?_drop]; exact has), has]
  rfl

theorem elem_f32_zero (a b : Nat) : elem (BitVec.ofNat 64 (a + 2 ^ 32 * b)) 0 .f32 = a % 2 ^ 32 := by
  rw [elem, wbits_ofNat (by decide)]
  simp only [tyWidth]
  omega

theorem elem_f32_one {a : Nat} (pattern : a < 2 ^ 32) (b : Nat) : elem (BitVec.ofNat 64 (a + 2 ^ 32 * b)) 1 .f32 = b % 2 ^ 32 := by
  rw [elem, wbits_ofNat (by decide)]
  simp only [tyWidth]
  omega

/-- Patterns two by two in registers: each is a sub-element. -/
theorem pairUp_elem {ps : List Nat} {m : Nat} (paired : ps.length = 2 * m) (patterns : ∀ p ∈ ps, p < 2 ^ 32) {e : Nat} (small : e < 2 * m) :
    ∃ v, (pairUp ps)[e / 2]? = some v ∧ some (elem v (e % 2) .f32) = (ps[e]?).map (· % 2 ^ 32) := by
  induction ps using pairUp.induct generalizing m e with
  | case1 a b ps ih =>
    rw [pairUp]
    match e with
    | 0 => exact ⟨_, rfl, congrArg some (elem_f32_zero a b)⟩
    | 1 => exact ⟨_, rfl, congrArg some (elem_f32_one (patterns a List.mem_cons_self) b)⟩
    | e + 2 =>
      obtain ⟨v, has, same⟩ := ih (m := m - 1) (e := e) (by simp at paired; omega)
        (fun p mem => patterns p (List.mem_cons_of_mem _ (List.mem_cons_of_mem _ mem))) (by omega)
      exact ⟨v, by rwa [show (e + 2) / 2 = e / 2 + 1 by omega], by rwa [Nat.add_mod_right]⟩
  | case2 a =>
    simp at paired
    omega
  | case3 => 
    simp at paired
    omega

theorem length_pairUp {ps : List Nat} {m : Nat} (paired : ps.length = 2 * m) : (pairUp ps).length = m := by
  induction ps using pairUp.induct generalizing m with
  | case1 a b ps ih =>
    rw [pairUp, List.length_cons, ih (m := m - 1) (by simp at paired; omega)]
    simp at paired
    omega
  | case2 a =>
    simp at paired
    omega
  | case3 =>
    simp at paired
    rw [pairUp, List.length_nil]
    omega

/-! ## The block and its residuals (R156) -/

theorem length_blockBytes (t : Ty) (e : Nat) (ps : List Nat) : (blockBytes t e ps).length = 64 := by
  simp [blockBytes, length_leBytes]

theorem infinity_lt (neg : Bool) : fmtF32.signPat neg + fmtF32.infPat < 2 ^ 32 := by cases neg <;> decide

theorem roundDy_lt (md : RMode) (ftz zneg : Bool) (d : Dy) : (fmtF32.roundDy md ftz zneg d).1 < 2 ^ 32 := by
  rw [Fmt.roundDy]
  split
  · cases zneg <;> decide
  · exact round_lt ..

/-- A residual is an f32 pattern. -/
theorem residual_lt (v w : FpVal) : Machine.residual v w < 2 ^ 32 := by
  unfold Machine.residual
  split
  · decide
  · split
    · decide
    · exact infinity_lt _
  · exact infinity_lt _
  · exact roundDy_lt ..
  · exact infinity_lt _
  · decide

theorem qblkPack_shape (ty : Ty) (md : RMode) (xs : List Nat) :
    (qblkPack ty md xs).1.length = 64 ∧ (qblkPack ty md xs).2.1.length = xs.length ∧ ∀ p ∈ (qblkPack ty md xs).2.1, p < 2 ^ 32 := by
  refine ⟨length_blockBytes .., by simp [qblkPack], fun p mem => ?_⟩
  obtain ⟨j, v, -, rfl⟩ := mem_mapFrom _ _ _ _ mem
  exact residual_lt ..

/-! ## QBLK in a thread (R384, R385) -/

section
variable {x : LaneCx} {d : Fin 24} {a : Fin 192} {b : Option (Fin 192)} {ty : Ty} {rnd : Rnd}

/-- The residual run written, where one is named. -/
def writeResiduals (x : LaneCx) (lat : Machine.Lat) (b : Option (Fin 192)) (ps : List Nat) (t : Thread) : Thread :=
  match b with
  | some n => writeRun x lat n.val (pairUp ps) t
  | none => t

/-- The block and the residuals written. -/
def writeBlock (x : LaneCx) (d : Fin 24) (b : Option (Fin 192)) (ty : Ty) (p : List Byte × List Nat × Flags) : Thread :=
  writeResiduals x (.var (24 + blockRegs ty)) b p.2.1 (writeRun x (.var (24 + blockRegs ty)) (8 * d.val) (bytesRegs 8 p.1) x.t)

theorem qblkLane_trap (raised : (packed a ty rnd x).2.2 &&& x.ten ≠ 0) :
    qblkLane x d a b ty rnd = { t := x.t.orFlags (packed a ty rnd x).2.2, out := .trap { cause := 7 } } := if_pos raised

theorem qblkLane_completes (calm : (packed a ty rnd x).2.2 &&& x.ten = 0) :
    qblkLane x d a b ty rnd = { t := (writeBlock x d b ty (packed a ty rnd x)).orFlags (packed a ty rnd x).2.2 } := if_neg (not_not.mpr calm)

theorem writeResiduals_noRegs (lat : Machine.Lat) (ps : List Nat) (t : Thread) : (writeResiduals x lat b ps t).noRegs = t.noRegs := by
  cases b with
  | none => rfl
  | some n => exact writeRun_noRegs ..

theorem writeBlock_noRegs (p : List Byte × List Nat × Flags) : (writeBlock x d b ty p).noRegs = x.t.noRegs :=
  (writeResiduals_noRegs ..).trans (writeRun_noRegs ..)

/-- Where the runs lie apart, the block stands in its eight registers, the residuals in theirs, and the others keep their values. -/
theorem writeBlock_cur {p : List Byte × List Nat × Flags} (runs : qblkRuns d a b (blockRegs ty) = true) (bytes : p.1.length = 64)
    (paired : p.2.1.length = 2 * blockRegs ty) (patterns : ∀ r ∈ p.2.1, r < 2 ^ 32) :
    let u := writeBlock x d b ty p
    (∀ j e, j < 8 → e < 8 → some (elem (u.cur (.g (8 * d.val + j))) e .n8) = (p.1[8 * j + e]?).map BitVec.toNat) ∧
    (∀ r, b = some r → ∀ e, e < 2 * blockRegs ty →
      some (elem (u.cur (.g (r.val + e / 2))) (e % 2) .f32) = p.2.1[e]?.map (· % 2 ^ 32)) ∧
    ∀ n, (n < 8 * d.val ∨ 8 * d.val + 8 ≤ n) → (∀ r, b = some r → n < r.val ∨ r.val + blockRegs ty ≤ n) →
      u.cur (.g n) = x.t.cur (.g n) := by
  have count : (pairUp p.2.1).length = blockRegs ty := length_pairUp paired
  have eight : (bytesRegs 8 p.1).length = 8 := by simp [bytesRegs]
  have besides {n : Nat} (lat : Machine.Lat) (t : Thread) (out : ∀ r, b = some r → n < r.val ∨ r.val + blockRegs ty ≤ n) :
      (writeResiduals x lat b p.2.1 t).cur (.g n) = t.cur (.g n) := by
    cases b with
    | none => rfl
    | some r =>
      refine cur_writeRun_other _ _ fun j small same => ?_
      cases same
      rcases out r rfl with low | high <;> omega
  refine ⟨fun j e register small => ?_, fun r named e small => ?_, fun n out apart => ?_⟩
  · obtain ⟨v, has, same⟩ := bytesRegs_elem (bs := p.1) register small (by omega)
    rw [writeBlock, besides, cur_writeRun _ _ has, same]
    intro r named
    subst named
    simp [qblkRuns] at runs
    omega
  · obtain ⟨v, has, same⟩ := pairUp_elem paired patterns small
    subst named
    rw [writeBlock, writeResiduals, cur_writeRun _ _ has, same]
  · rw [writeBlock, besides _ _ apart]
    refine cur_writeRun_other _ _ fun j small same => ?_
    cases same
    omega

theorem length_inputs (a : Fin 192) (ty : Ty) (x : LaneCx) :
    ((List.range (2 * blockRegs ty)).map fun e => elem (x.g (a.val + e / 2)) (e % 2) .f32).length = 2 * blockRegs ty := by simp

theorem qblkLane_packResult {i : Instr} {s : State} (runs : qblkRuns d a b (blockRegs ty) = true) (calm : (packed a ty rnd x).2.2 &&& x.ten = 0) :
    PackResult i s d a b ty rnd x (settle i (s.core s.curWarp.core).step x.t (qblkLane x d a b ty rnd)) := by
  obtain ⟨bytes, paired, patterns⟩ := qblkPack_shape ty (x.mode rnd)
    ((List.range (2 * blockRegs ty)).map fun e => elem (x.g (a.val + e / 2)) (e % 2) .f32)
  rw [length_inputs] at paired
  have cur (k : RegRef) : (settle i (s.core s.curWarp.core).step x.t (qblkLane x d a b ty rnd)).cur k =
      (writeBlock x d b ty (packed a ty rnd x)).cur k := by
    rw [qblkLane_completes calm, settle, cur_issued, orFlags_cur]
  obtain ⟨block, residuals, rest⟩ := writeBlock_cur (x := x) (p := packed a ty rnd x) runs bytes paired patterns
  simp only [← cur] at block residuals rest
  rw [qblkLane_completes calm] at *
  refine ⟨⟨rfl, rfl, rfl, rfl⟩, ?_, ?_, block, residuals, rest⟩
  · exact congrArg (fun u : Thread => { u with fpflags := 0 }) (writeBlock_noRegs (x := x) (d := d) (b := b) (ty := ty) (packed a ty rnd x))
  · exact congrArg (· ||| _) (congrArg Thread.fpflags (writeBlock_noRegs (x := x) (d := d) (b := b) (ty := ty) (packed a ty rnd x)) :)

end

theorem blockTraps : BlockTraps := by
  intro k d a b ty rnd s i wf issues
  have runs : qblkRuns d a b (blockRegs ty) = true := ((Bool.and_eq_true ..).mp wf).2
  refine laneMap_trapsOn (f := fun x => qblkLane x d a b ty rnd) rfl issues (fun l _ raised => ?_)
    fun l _ calm => ⟨fun o trap => ?_, qblkLane_packResult runs (not_not.mp calm)⟩
  · rw [qblkLane_trap raised]
    exact ⟨0, rfl, fun vec step => ⟨rfl, rfl, fun k => (toHandler_cur ..).trans (orFlags_cur ..)⟩⟩
  · rw [qblkLane_completes (not_not.mp calm)] at trap
    cases trap

/-- Settles O9: a floating form, FCMP and QBLK each act in every thread for itself and raise cause 0x07 alone. -/
theorem floatTraps : Obligations.FloatTraps := ⟨generalTraps, compareTraps, blockTraps⟩

end Sys2Proof.Proofs
end

