-- ==== Sys2Proof/Proofs/RandomDraws.lean ====
section
/-! PROOFS. RNG and RNGG: the counter and key that a thread draws at, the uniforms of a draw, and the registers that take them (R165, R166, R391). -/

namespace Sys2Proof.Proofs

open Sys2Proof Sys2Proof.Machine Sys2Proof.Claims

-- One proof after another: proofs run side by side over a text of this length need more threads than the check has memory for.
set_option Elab.async false

/-! ## The draw of a thread (R165) -/

theorem ofNat_low (v : Word) : BitVec.ofNat 32 (v.toNat / 2 ^ 0 % 2 ^ 32) = v.setWidth 32 := by
  apply BitVec.eq_of_toNat_eq
  simp

theorem ofNat_high (v : Word) : BitVec.ofNat 32 (v.toNat / 2 ^ 32 % 2 ^ 32) = BitVec.ofNat 32 (v.toNat / 2 ^ 32) := by
  apply BitVec.eq_of_toNat_eq
  simp

/-- Below 2^40 the global thread number and the launch fill the counter as R165 says. -/
theorem kindlingDraw_eq_draw {x : LaneCx} (small : gtid x < 2 ^ 40) (strm key : Word) :
    kindlingDraw strm (BitVec.ofNat 64 (gtid x)) x.w.launchAddr key = draw x strm key := by
  have number : (BitVec.ofNat 64 (gtid x)).toNat = gtid x := by
    rw [BitVec.toNat_ofNat]
    omega
  have low : BitVec.ofNat 32 (gtid x / 2 ^ 0 % 2 ^ 32) = BitVec.ofNat 32 (gtid x) := by
    apply BitVec.eq_of_toNat_eq
    simp
  have middle : BitVec.ofNat 32 (x.w.launchAddr.toNat / 2 ^ 8 % 2 ^ 24 * 256 + gtid x / 2 ^ 32 % 2 ^ 8) =
      BitVec.ofNat 32 (x.w.launchAddr.toNat / 2 ^ 8 * 2 ^ 8 + gtid x / 2 ^ 32) := by
    apply BitVec.eq_of_toNat_eq
    rw [BitVec.toNat_ofNat, BitVec.toNat_ofNat]
    omega
  simp only [kindlingDraw, draw, number, low, middle, ofNat_low, ofNat_high]

theorem drawLane_eq {x : LaneCx} (small : gtid x < 2 ^ 40) (a : Src) (key : Option Src) (f : KState → Thread) :
    drawLane x a key f = { t := f (draw x (x.src a) (keyOf x key)) } := by
  have below : ¬ 2 ^ 40 ≤ gtidOf x.w x.lane := Nat.not_le.mpr small
  rw [← kindlingDraw_eq_draw small]
  cases key <;> exact if_neg below

/-! ## Words and uniforms (R165) -/

theorem append_toNat (lo hi : BitVec 32) : (hi ++ lo).toNat = pair32 lo hi := by
  rw [BitVec.toNat_append, ← Nat.shiftLeft_add_eq_or_of_lt lo.isLt, Nat.shiftLeft_eq, pair32]
  ring

theorem pair32_lt (lo hi : BitVec 32) : pair32 lo hi < 2 ^ 64 := by
  rw [← append_toNat]
  exact (hi ++ lo).isLt

theorem ofNat_pair32 (lo hi : BitVec 32) : BitVec.ofNat 64 (pair32 lo hi) = hi ++ lo := by
  rw [← append_toNat]
  exact BitVec.ofNat_toNat .. |>.trans (BitVec.setWidth_eq _)

/-- The middle of a unit interval of 2^w parts, for a format with that many bits of fraction. -/
theorem magnitudeOf_uniform {f : Fmt} {w n : Nat} (part : n < 2 ^ w) (fits : w ≤ f.mw) (normal : w + 2 ≤ f.bias)
    (finite : (f.bias : Int) < 2 ^ f.ew - 1) :
    magnitudeOf f (f.round .rne false false (2 * n + 1) (-(w + 1 : Nat))).1 = ((n : ℚ) + 1 / 2) / 2 ^ w := by
  have bits : Nat.log2 (2 * n + 1) ≤ w := Nat.lt_succ_iff.mp ((Nat.log2_lt (by omega)).mpr (by rw [Nat.pow_succ]; omega))
  rw [magnitudeOf_round .rne (by omega) (bits.trans fits) (by omega) (by omega), zpow_neg, zpow_natCast, pow_succ]
  push_cast
  field_simp

theorem uniform32_lt (c : BitVec 32) : uniform32 c < 2 ^ 32 := round_lt ..

theorem uniform64_lt (n : Nat) : uniform64 n < 2 ^ 64 := round_lt ..

theorem magnitudeOf_uniform32 (c : BitVec 32) : magnitudeOf fmtF32 (uniform32 c) = (((c.toNat / 2 ^ 9 : ℕ) : ℚ) + 1 / 2) / 2 ^ 23 :=
  magnitudeOf_uniform (by have := c.isLt; omega) (by decide) (by decide) (by decide)

theorem magnitudeOf_uniform64 {n : Nat} (word : n < 2 ^ 64) : magnitudeOf fmtF64 (uniform64 n) = (((n / 2 ^ 12 : ℕ) : ℚ) + 1 / 2) / 2 ^ 52 :=
  magnitudeOf_uniform (by omega) (by decide) (by decide) (by decide)

/-- The two f32 patterns of a register. -/
theorem elems_f32 {p q : Nat} (first : p < 2 ^ 32) (second : q < 2 ^ 32) :
    elem (BitVec.ofNat 64 (p + 2 ^ 32 * q)) 0 .f32 = p ∧ elem (BitVec.ofNat 64 (p + 2 ^ 32 * q)) 1 .f32 = q := by
  rw [elem_f32_zero, elem_f32_one first, Nat.mod_eq_of_lt first, Nat.mod_eq_of_lt second]
  exact ⟨rfl, rfl⟩

theorem rngPair_f32 (z : KState) :
    magnitudeOf fmtF32 (elem (rngPair .f32 z).1 0 .f32) = (((z.c0.toNat / 2 ^ 9 : ℕ) : ℚ) + 1 / 2) / 2 ^ 23 ∧
    magnitudeOf fmtF32 (elem (rngPair .f32 z).1 1 .f32) = (((z.c1.toNat / 2 ^ 9 : ℕ) : ℚ) + 1 / 2) / 2 ^ 23 ∧
    magnitudeOf fmtF32 (elem (rngPair .f32 z).2 0 .f32) = (((z.c2.toNat / 2 ^ 9 : ℕ) : ℚ) + 1 / 2) / 2 ^ 23 ∧
    magnitudeOf fmtF32 (elem (rngPair .f32 z).2 1 .f32) = (((z.c3.toNat / 2 ^ 9 : ℕ) : ℚ) + 1 / 2) / 2 ^ 23 := by
  obtain ⟨v0, v1⟩ := elems_f32 (uniform32_lt z.c0) (uniform32_lt z.c1)
  obtain ⟨w0, w1⟩ := elems_f32 (uniform32_lt z.c2) (uniform32_lt z.c3)
  rw [rngPair, v0, v1, w0, w1]
  exact ⟨magnitudeOf_uniform32 _, magnitudeOf_uniform32 _, magnitudeOf_uniform32 _, magnitudeOf_uniform32 _⟩

theorem rngPair_f64 (z : KState) :
    magnitudeOf fmtF64 (rngPair .f64 z).1.toNat = ((((z.c1 ++ z.c0).toNat / 2 ^ 12 : ℕ) : ℚ) + 1 / 2) / 2 ^ 52 ∧
    magnitudeOf fmtF64 (rngPair .f64 z).2.toNat = ((((z.c3 ++ z.c2).toNat / 2 ^ 12 : ℕ) : ℚ) + 1 / 2) / 2 ^ 52 := by
  simp only [rngPair, BitVec.toNat_ofNat, append_toNat, Nat.mod_eq_of_lt (uniform64_lt _)]
  exact ⟨magnitudeOf_uniform64 (pair32_lt ..), magnitudeOf_uniform64 (pair32_lt ..)⟩

/-! ## The registers that take a draw (R391) -/

section
variable {i : Instr} {s : State} {x : LaneCx} {lat : Machine.Lat} {d : Dst} {v w : Word}

theorem pairResult_written : PairResult i s x
    (((x.t.writeD x lat d v).writeHi x lat d w).issued (s.core s.curWarp.core).step (ctlOf i).stall.val (nextPc i x.t)) d v w := by
  refine ⟨⟨rfl, rfl, rfl, rfl⟩, (writeHi_noRegs ..).trans (writeD_noRegs ..), ?_⟩
  cases d with
  | zero => exact fun k => cur_issued ..
  | g n =>
    have apart : RegRef.g n.val ≠ .g (n.val + 1) := by simp
    have cur (k : RegRef) : (((x.t.writeD x lat (.g n) v).writeHi x lat (.g n) w).issued (s.core s.curWarp.core).step (ctlOf i).stall.val
        (nextPc i x.t)).cur k = ((x.t.writeLat x lat (.g n.val) v).put (.g (n.val + 1)) w).cur k := (cur_issued ..).trans (cur_writeLat ..)
    refine ⟨?_, ?_, fun k low high => ?_⟩
    · rw [cur, cur_put_other _ _ apart nofun, cur_writeLat, cur_put_g]
    · rw [cur, cur_put_g]
    · rw [cur, cur_put_other _ _ high nofun, cur_writeLat, cur_put_other _ _ low nofun]

/-- An instruction that draws in each of its threads. -/
theorem draws_inEachThread {a : Src} {key : Option Src} {f : LaneCx → KState → Thread} {P : LaneCx → Thread → Prop}
    (runs : exec i s = laneMap i (fun x => drawLane x a key (f x)) s) (issues : Issues i s)
    (small : ∀ l, mbit s.cur.lanes l = true → gtid (s.cx s.cur.warp l) < 2 ^ 40)
    (holds : ∀ x : LaneCx, P x ((f x (draw x (x.src a) (keyOf x key))).issued (s.core s.curWarp.core).step (ctlOf i).stall.val (nextPc i x.t))) :
    InEachThread i s P := by
  refine laneMap_inEachThread runs issues fun l member _ _ => ?_
  rw [drawLane_eq (small l member)]
  exact ⟨nofun, holds _⟩

end

theorem randomWords : RandomWords := by
  intro k d a key ty s i _ issues small
  refine draws_inEachThread (f := fun x z => (x.t.writeD x (.var 12) d (rngPair ty z).1).writeHi x (.var 12) d (rngPair ty z).2) rfl issues small
    fun x => ⟨_, _, pairResult_written, ?_, ?_, ?_⟩
  · rintro rfl
    exact ⟨ofNat_pair32 .., ofNat_pair32 ..⟩
  · rintro rfl
    exact rngPair_f32 _
  · rintro rfl
    exact rngPair_f64 _

/-- A number converted to f32 is an f32 pattern. -/
theorem convElem_f32_lt (md : RMode) (ftz : Bool) (p : Nat) : (convElem .f32 .f64 md ftz p).1 < 2 ^ 32 := by
  unfold convElem
  simp only [isInt, Ty.intTy, isNarrow, Bool.false_eq_true, if_false]
  generalize (fmtOf .f64).flushIn _ _ = v
  cases v with
  | nan sg => exact (by decide : fmtF32.nanPat < 2 ^ 32)
  | inf neg => exact infinity_lt neg
  | fin neg m e => exact round_lt ..

theorem randomNormals : RandomNormals := by
  intro k d a key ty s i _ issues small
  refine draws_inEachThread (f := fun x z =>
    if ty = .f64 then (x.t.writeD x (.var 40) d (BitVec.ofNat 64 (gaussPair z).1)).writeHi x (.var 40) d (BitVec.ofNat 64 (gaussPair z).2)
    else x.t.writeD x (.var 40) d (BitVec.ofNat 64 ((convElem .f32 .f64 .rne false (gaussPair z).1).1 +
      2 ^ 32 * (convElem .f32 .f64 .rne false (gaussPair z).2).1))) rfl issues small fun x => ⟨?_, ?_⟩
  · rintro rfl
    rw [if_pos rfl]
    exact pairResult_written
  · rintro rfl
    rw [if_neg (by decide)]
    exact ⟨_, ⟨rfl, rfl, rfl, rfl⟩, writeD_noRegs .., writes_issued (writeD_writes ..) _ _ _,
      elem_f32_zero .., elem_f32_one (convElem_f32_lt ..) _⟩

/-- Settles O12: both draw at R165's counter; a uniform is an odd multiple of half its unit, which the format holds exactly. -/
theorem randomNumbers : Obligations.RandomNumbers := ⟨randomWords, randomNormals⟩

end Sys2Proof.Proofs
end

