-- ==== Sys2Proof/Proofs/LaneTrees.lean ====
section
/-! PROOFS. WRED and WSCAN: the model's lists of lanes are the distances of R160 and R161, and their integer sums (R416). -/

namespace Sys2Proof.Proofs

open Sys2Proof Sys2Proof.Machine Sys2Proof.Claims

-- One proof after another: proofs run side by side over a text of this length need more threads than the check has memory for.
set_option Elab.async false

/-! ## One distance (R160, R161) -/

section
variable {op : Nat → Nat → FpRes}

theorem redPair_eq_join (a b : Option Nat) : redPair op a b = join op a b := by
  cases a <;> cases b <;> rfl

theorem join_none (b : Option Nat) : join op none b = (b, 0) := by
  cases b <;> rfl

theorem foldl_or_flags {α : Type} (l : List α) (g : α → Flags) (c : Flags) :
    l.foldl (fun f x => f ||| g x) c = c ||| l.foldl (fun f x => f ||| g x) 0 := by
  induction l generalizing c with
  | nil => exact BitVec.or_zero.symm
  | cons x l ih =>
    rw [List.foldl_cons, List.foldl_cons, ih, ih (0 ||| g x), BitVec.or_assoc]
    congr 2
    exact BitVec.zero_or.symm

/-- The first lanes of a family of values, as the model lists them. -/
def listed (n : Nat) (a : (Nat → Option Nat) × Flags) : List (Option Nat) × Flags := ((List.range n).map a.1, a.2)

/-- One level of the model's tree, and of its scan, with the flags so far. -/
def redStep (op : Nat → Nat → FpRes) (a : List (Option Nat) × Flags) (d : Nat) : List (Option Nat) × Flags :=
  ((redLevel op d a.1).1, a.2 ||| (redLevel op d a.1).2)
def scanStep (op : Nat → Nat → FpRes) (a : List (Option Nat) × Flags) (d : Nat) : List (Option Nat) × Flags :=
  ((scanLevel op d a.1).1, a.2 ||| (scanLevel op d a.1).2)

/-- One level of the tree of R160 is one distance. -/
theorem redStep_listed {n d : Nat} (halves : n = d + d) (a : (Nat → Option Nat) × Flags) :
    redStep op (listed n a) d = listed d (redDist op d a) := by
  subst halves
  have low : ((List.range (d + d)).map a.1).take d = (List.range d).map a.1 := by
    rw [← List.map_take, List.take_range, Nat.min_eq_left (by omega)]
  have high : (((List.range (d + d)).map a.1).drop d).take d = (List.range d).map fun l => a.1 (l + d) := by
    rw [List.range_add, List.map_append, List.drop_left' (by simp), List.map_map, List.take_of_length_le (by simp)]
    exact List.map_congr_left fun l _ => congrArg a.1 (Nat.add_comm d l)
  have pairs : (redLevel op d (listed (d + d) a).1) = ((List.range d).map fun l => (join op (a.1 l) (a.1 (l + d))).1,
      (List.range d).foldl (fun f l => f ||| (join op (a.1 l) (a.1 (l + d))).2) 0) := by
    rw [redLevel, listed]
    dsimp only
    rw [low, high, List.zip_map', List.map_map, List.map_map, List.foldl_map]
    simp only [Function.comp_def, redPair_eq_join, List.foldl_map]
  rw [redStep, pairs, listed, listed, redDist, foldl_or_flags _ _ a.2]
  refine Prod.ext (List.map_congr_left fun l mem => ?_) rfl
  exact (if_pos (List.mem_range.mp mem)).symm

/-- One distance of the scan of R161. -/
theorem scanStep_listed {d : Nat} (within : d ≤ 32) (a : (Nat → Option Nat) × Flags) :
    scanStep op (listed 32 a) d = listed 32 (scanDist op d a) := by
  have pairs : (List.replicate d (none : Option Nat) ++ (List.range 32).map a.1).zip ((List.range 32).map a.1) =
      (List.range 32).map fun l => (if d ≤ l then a.1 (l - d) else none, a.1 l) := by
    refine List.ext_getElem (by simp) fun l inside _ => ?_
    simp only [List.length_zip, List.length_append, List.length_replicate, List.length_map, List.length_range] at inside
    simp only [List.getElem_zip, List.getElem_append, List.length_replicate, List.getElem_replicate, List.getElem_map, List.getElem_range]
    by_cases before : l < d
    · rw [dif_pos before, if_neg (by omega)]
    · rw [dif_neg before, if_pos (by omega)]
  have level : scanLevel op d (listed 32 a).1 = ((List.range 32).map fun l => (join op (if d ≤ l then a.1 (l - d) else none) (a.1 l)).1,
      (List.range 32).foldl (fun f l => f ||| (join op (if d ≤ l then a.1 (l - d) else none) (a.1 l)).2) 0) := by
    rw [scanLevel, listed]
    dsimp only
    rw [pairs, List.map_map, List.map_map, List.foldl_map]
    simp only [Function.comp_def, redPair_eq_join, List.foldl_map]
  have still : ∀ n, n ≤ d →
      (List.range n).foldl (fun f l => f ||| (join op (if d ≤ l then a.1 (l - d) else none) (a.1 l)).2) (0 : Flags) = 0 := by
    intro n
    induction n with
    | zero => exact fun _ => rfl
    | succ n ih =>
      intro inside
      rw [List.range_succ, List.foldl_append, ih (by omega), List.foldl_cons, List.foldl_nil, if_neg (by omega), join_none]
      exact BitVec.zero_or
  have flags : (List.range 32).foldl (fun f l => f ||| (join op (if d ≤ l then a.1 (l - d) else none) (a.1 l)).2) (0 : Flags) =
      (List.range (32 - d)).foldl (fun f l => f ||| (join op (a.1 l) (a.1 (l + d))).2) 0 := by
    rw [show 32 = d + (32 - d) by omega, List.range_add, List.foldl_append, still d le_rfl, List.foldl_map, Nat.add_sub_cancel_left]
    simp only [if_true, Nat.add_comm d, Nat.le_add_left, Nat.add_sub_cancel]
  rw [scanStep, level, flags, listed, listed, scanDist, foldl_or_flags _ _ a.2]
  refine Prod.ext (List.map_congr_left fun l _ => ?_) rfl
  by_cases after : d ≤ l
  · simp only [if_pos after]
  · simp only [if_neg after, join_none]

/-! ## The five distances -/

theorem redTree_eq_dists (v : Nat → Option Nat) : redTree op ((List.range 32).map v) = ((dists (redDist op) v).1 0, (dists (redDist op) v).2) := by
  show ((redStep op (redStep op (redStep op (redStep op (redStep op (listed 32 (v, 0)) 16) 8) 4) 2) 1).1.headD none,
    (redStep op (redStep op (redStep op (redStep op (redStep op (listed 32 (v, 0)) 16) 8) 4) 2) 1).2) = _
  rw [redStep_listed (d := 16) rfl, redStep_listed (d := 8) rfl,
    redStep_listed (d := 4) rfl, redStep_listed (d := 2) rfl, redStep_listed (d := 1) rfl]
  rfl

theorem scanTree_eq_dists (v : Nat → Option Nat) : scanTree op ((List.range 32).map v) = listed 32 (dists (scanDist op) v) := by
  show scanStep op (scanStep op (scanStep op (scanStep op (scanStep op (listed 32 (v, 0)) 16) 8) 4) 2) 1 = _
  rw [scanStep_listed (by decide), scanStep_listed (by decide), scanStep_listed (by decide), scanStep_listed (by decide), scanStep_listed (by decide)]
  rfl

end

/-! ## The lanes that contribute (R416) -/

theorem mem_guardTrue {i : Instr} {s : State} {l : Nat} : l ∈ guardTrue i s ↔ active i s l = true := by
  simp only [guardTrue, State.lanes, mlanes, List.mem_filter, List.mem_range, active, Bool.and_eq_true]
  exact ⟨fun h => ⟨h.1.2, h.2⟩, fun h => ⟨⟨lane_lt_of_mbit h.1, h.1⟩, h.2⟩⟩

theorem contributions_eq (i : Instr) (s : State) (a b : Src) (ty : Ty) (e : Nat) :
    contributions s (guardTrue i s) a b ty e = (List.range 32).map (contributed i s a b ty e) := by
  unfold contributions
  refine List.map_congr_left fun l mem => ?_
  have small : l < 32 := List.mem_range.mp mem
  have member : (guardTrue i s).contains l = active i s l := by
    rw [Bool.eq_iff_iff, List.contains_iff_mem, mem_guardTrue]
  rw [member, contributed]
  cases lanes : guardTrue i s with
  | nil =>
    have idle : active i s l = false := by
      rw [← member, lanes]
      rfl
    rw [idle]
    rfl
  | cons lo rest => simp [wbit, small]

/-! ## WRED and WSCAN in the threads of a bundle -/

/-- What an instruction does in each thread for itself is what it does in the guard-true threads of the bundle. -/
theorem laneMap_congr {i : Instr} {f g : LaneCx → LaneRes} {s : State}
    (same : ∀ l, mbit s.cur.lanes l = true → f (s.cx s.cur.warp l) = g (s.cx s.cur.warp l)) : laneMap i f s = laneMap i g s := by
  have results : laneResults i f s = laneResults i g s := by
    refine List.ext_getElem? fun l => ?_
    by_cases there : l < s.curWarp.threads.length
    · rw [getElem?_laneResults there, getElem?_laneResults there]
      cases member : mbit s.cur.lanes l with
      | false => rw [runLane_outside member, runLane_outside member]
      | true =>
        cases guard : (s.cx s.cur.warp l).guard (ctlOf i) with
        | false => rw [runLane_guardFalse member guard, runLane_guardFalse member guard]
        | true => rw [runLane_acting member guard, runLane_acting member guard, same l member]
    · rw [List.getElem?_eq_none (by simpa [laneResults] using there), List.getElem?_eq_none (by simpa [laneResults] using there)]
  rw [laneMap, laneMap, laneMapPost, laneMapPost, results]

theorem latCross_cycles (s : State) (base : Nat) : (latCross s base).cycles = latAcross s base ∨ s.curWarp.service = true := by
  cases service : s.curWarp.service with
  | true => exact .inr rfl
  | false => exact .inl (by simp [latCross, latAcross, Lat.cycles, service])

/-- Lane j's value of a scan, or the one before it. -/
theorem scanned_lane {l : Nat} (small : l < 32) (excl : Bool) (a : (Nat → Option Nat) × Flags) :
    (((if excl then none :: (listed 32 a).1 else (listed 32 a).1)[l]?).getD none) =
      if excl then (if l = 0 then none else a.1 (l - 1)) else a.1 l := by
  cases excl with
  | false => simp [listed, small]
  | true =>
    cases l with
    | zero => rfl
    | succ l => simp [listed, show l < 32 by omega]

theorem exec_treeForm {i : Instr} {f : FloatForm} {s : State} (form : treeForm s i = some f) :
    exec i s = laneMap i (finished f (latCross s 20)) s ∧ f.L = latAcross s 20 := by
  cases i with
  | wred k d a b ty op r =>
    obtain rfl := Option.some.inj form
    refine ⟨laneMap_congr fun l _ => congrArg (fpFinish _ (latCross s 20) ty d) (List.map_congr_left fun e _ => ?_), rfl⟩
    dsimp only
    rw [contributions_eq, redTree_eq_dists]
  | wscan k d a b ty op excl r =>
    obtain rfl := Option.some.inj form
    refine ⟨laneMap_congr fun l member => congrArg (fpFinish _ (latCross s 20) ty d) (List.map_congr_left fun e _ => ?_), rfl⟩
    dsimp only
    rw [contributions_eq, scanTree_eq_dists, scanned_lane (lane_lt_of_mbit member : (s.cx s.cur.warp l).lane < 32)]
    rfl
  | _ => cases form

theorem treeResults : TreeResults := by
  intro i f s form _ issues calm
  obtain ⟨runs, latency⟩ := exec_treeForm form
  refine laneMap_inEachThread runs issues fun l member _ guard => ⟨fun c trap => ?_, finished_floatResult (calm l member guard) ?_⟩
  · rw [finished_out_calm (calm l member guard)] at trap
    cases trap
  · rw [latency]
    exact latCross_cycles s 20

end Sys2Proof.Proofs
end

