-- ==== Sys2Proof/Proofs/IntegerTreeSums.lean ====
section
/-! PROOFS. Integer sums over the lanes: WRED.add and WSCAN.add modulo 2^w (R160, R161). -/

namespace Sys2Proof.Proofs

open Sys2Proof Sys2Proof.Machine Sys2Proof.Claims

-- One proof after another: proofs run side by side over a text of this length need more threads than the check has memory for.
set_option Elab.async false

/-! ## Sums along a stride -/

section
variable {R : Type} [AddCommMonoid R]

/-- The value m lanes below lane j, 0 where there is no such lane. -/
def behind (g : Nat → R) (j m : Nat) : R := if m ≤ j then g (j - m) else 0

/-- The sum of the n lanes that lie at multiples of d at or below lane j. -/
def strided (g : Nat → R) (d n j : Nat) : R := ∑ k ∈ Finset.range n, behind g j (k * d)

theorem strided_one (g : Nat → R) (d : Nat) : strided g d 1 = g := by
  funext j
  simp [strided, behind]

theorem behind_behind (g : Nat → R) (j d m : Nat) : (if d ≤ j then behind g (j - d) m else 0) = behind g j (m + d) := by
  unfold behind
  by_cases within : d ≤ j
  · rw [if_pos within, Nat.sub_sub, Nat.add_comm d m]
    by_cases both : m + d ≤ j
    · rw [if_pos both, if_pos (by omega)]
    · rw [if_neg both, if_neg (by omega)]
  · rw [if_neg within, if_neg (by omega)]

/-- A sum over twice as many indices, the even and the odd ones. -/
theorem sum_range_even_odd (f : Nat → R) (n : Nat) :
    ∑ k ∈ Finset.range (2 * n), f k = ∑ k ∈ Finset.range n, f (2 * k) + ∑ k ∈ Finset.range n, f (2 * k + 1) := by
  induction n with
  | zero => simp
  | succ n ih =>
    rw [Nat.mul_succ, Finset.sum_range_succ, Finset.sum_range_succ, ih, Finset.sum_range_succ, Finset.sum_range_succ]
    abel

/-- Half the stride, twice the lanes: what a distance of the scan adds up. -/
theorem strided_halve (g : Nat → R) (d n j : Nat) :
    strided g (2 * d) n j + (if d ≤ j then strided g (2 * d) n (j - d) else 0) = strided g d (2 * n) j := by
  have later : (if d ≤ j then strided g (2 * d) n (j - d) else 0) = ∑ k ∈ Finset.range n, behind g j ((2 * k + 1) * d) := by
    have inside : (if d ≤ j then strided g (2 * d) n (j - d) else 0) =
        ∑ k ∈ Finset.range n, if d ≤ j then behind g (j - d) (k * (2 * d)) else 0 := by
      split
      · rfl
      · exact Finset.sum_const_zero.symm
    rw [inside]
    refine Finset.sum_congr rfl fun k _ => ?_
    rw [behind_behind]
    congr 1
    ring
  rw [later, strided, strided, sum_range_even_odd]
  congr 1
  refine Finset.sum_congr rfl fun k _ => ?_
  congr 1
  ring

/-- Every lane at or below lane j. -/
theorem strided_all (g : Nat → R) {n j : Nat} (inside : j < n) : strided g 1 n j = ∑ l ∈ Finset.range (j + 1), g l := by
  have out : ∑ k ∈ Finset.range (n - (j + 1)), behind g j ((j + 1 + k) * 1) = 0 :=
    Finset.sum_eq_zero fun k _ => if_neg (by omega)
  rw [strided, show n = j + 1 + (n - (j + 1)) by omega, Finset.sum_range_add, out, add_zero, ← Finset.sum_range_reflect]
  refine Finset.sum_congr rfl fun k mem => ?_
  have low : k < j + 1 := Finset.mem_range.mp mem
  rw [behind, if_pos (by omega)]
  congr 1
  omega

end

/-! ## The distances of an integer sum -/

section
variable {ty : Ty} {md : RMode} {ftz : Bool}

/-- The addition of an integer type. -/
theorem redElem_add (int : ty.intTy = true) (p q : Nat) : redElem .add ty md ftz p q = ((p + q) % 2 ^ tyWidth ty, 0) := by
  have float : ty.fpTy = false := by
    revert int
    cases ty <;> decide
  rw [redElem]
  dsimp only
  rw [float]
  rfl

/-- What a lane holds, modulo 2^w; a lane without a value counts as 0. -/
def residue (ty : Ty) (o : Option Nat) : ZMod (2 ^ tyWidth ty) := (o.getD 0 : Nat)

/-- A lane's value is a pattern of the type. -/
def Fits (ty : Ty) (a : Nat → Option Nat) : Prop := ∀ l, (a l).getD 0 < 2 ^ tyWidth ty

theorem residue_join (int : ty.intTy = true) (a b : Option Nat) : residue ty (join (redElem .add ty md ftz) a b).1 = residue ty a + residue ty b := by
  cases a with
  | none => rw [join_none]; simp [residue]
  | some p =>
    cases b with
    | none => simp [join, residue]
    | some q => simp [join, residue, redElem_add int]

theorem join_fits (int : ty.intTy = true) {a b : Option Nat} (left : a.getD 0 < 2 ^ tyWidth ty) (right : b.getD 0 < 2 ^ tyWidth ty) :
    (join (redElem .add ty md ftz) a b).1.getD 0 < 2 ^ tyWidth ty := by
  cases a with
  | none => rwa [join_none]
  | some p =>
    cases b with
    | none => exact left
    | some q =>
      rw [join, redElem_add int]
      exact Nat.mod_lt _ (Nat.two_pow_pos _)

theorem redDist_fits (int : ty.intTy = true) (d : Nat) {a : (Nat → Option Nat) × Flags} (fits : Fits ty a.1) :
    Fits ty (redDist (redElem .add ty md ftz) d a).1 := by
  intro l
  rw [redDist]
  dsimp only
  split
  · exact join_fits int (fits _) (fits _)
  · exact fits l

theorem scanDist_fits (int : ty.intTy = true) (d : Nat) {a : (Nat → Option Nat) × Flags} (fits : Fits ty a.1) :
    Fits ty (scanDist (redElem .add ty md ftz) d a).1 := by
  intro l
  rw [scanDist]
  dsimp only
  split
  · exact join_fits int (fits _) (fits _)
  · exact fits l

/-- A distance of the tree keeps the sum of the lanes. -/
theorem redDist_sum (int : ty.intTy = true) (d : Nat) (a : (Nat → Option Nat) × Flags) :
    ∑ l ∈ Finset.range d, residue ty ((redDist (redElem .add ty md ftz) d a).1 l) = ∑ l ∈ Finset.range (d + d), residue ty (a.1 l) := by
  rw [Finset.sum_range_add, ← Finset.sum_add_distrib]
  refine Finset.sum_congr rfl fun l mem => ?_
  rw [redDist]
  dsimp only
  rw [if_pos (Finset.mem_range.mp mem), residue_join int, Nat.add_comm d l]

/-- A distance of the scan adds the lane that far below. -/
theorem scanDist_residue (int : ty.intTy = true) (d : Nat) (a : (Nat → Option Nat) × Flags) (l : Nat) :
    residue ty ((scanDist (redElem .add ty md ftz) d a).1 l) =
      residue ty (a.1 l) + (if d ≤ l then residue ty (a.1 (l - d)) else 0) := by
  rw [scanDist]
  dsimp only
  split
  · rw [residue_join int, add_comm]
  · rw [add_zero]

theorem scanDist_strided (int : ty.intTy = true) {g : Nat → ZMod (2 ^ tyWidth ty)} {d n : Nat} {a : (Nat → Option Nat) × Flags}
    (before : ∀ l, residue ty (a.1 l) = strided g (2 * d) n l) (l : Nat) :
    residue ty ((scanDist (redElem .add ty md ftz) d a).1 l) = strided g d (2 * n) l := by
  rw [scanDist_residue int, before, before, strided_halve]

/-- The sum of the first lanes. -/
def total (v : Nat → Option Nat) (n : Nat) : Nat := ((List.range n).map fun l => (v l).getD 0).sum

theorem residue_total (v : Nat → Option Nat) (n : Nat) : ∑ l ∈ Finset.range n, residue ty (v l) = (total v n : ZMod (2 ^ tyWidth ty)) := by
  have sum : total v n = ∑ l ∈ Finset.range n, (v l).getD 0 := rfl
  rw [sum, Nat.cast_sum]
  rfl

/-- A pattern with the residue of a number is the number modulo 2^w. -/
theorem eq_mod_of_residue {o : Option Nat} {n : Nat} (fits : o.getD 0 < 2 ^ tyWidth ty) (same : residue ty o = n) :
    o.getD 0 = n % 2 ^ tyWidth ty := by
  rw [← (ZMod.natCast_eq_natCast_iff' _ _ _).mp same, Nat.mod_eq_of_lt fits]

theorem redDists_add (int : ty.intTy = true) {v : Nat → Option Nat} (fits : Fits ty v) :
    ((dists (redDist (redElem .add ty md ftz)) v).1 0).getD 0 = total v 32 % 2 ^ tyWidth ty := by
  refine eq_mod_of_residue ?_ ?_
  · exact redDist_fits int 1 (redDist_fits int 2 (redDist_fits int 4 (redDist_fits int 8 (redDist_fits int 16 fits)))) 0
  · rw [← residue_total, ← redDist_sum int 16 (v, 0), ← redDist_sum int 8, ← redDist_sum int 4, ← redDist_sum int 2, ← redDist_sum int 1,
      Finset.sum_range_one]
    rfl

theorem scanDists_add (int : ty.intTy = true) {v : Nat → Option Nat} (fits : Fits ty v) {j : Nat} (lane : j < 32) :
    ((dists (scanDist (redElem .add ty md ftz)) v).1 j).getD 0 = total v (j + 1) % 2 ^ tyWidth ty := by
  refine eq_mod_of_residue ?_ ?_
  · exact scanDist_fits int 1 (scanDist_fits int 2 (scanDist_fits int 4 (scanDist_fits int 8 (scanDist_fits int 16 fits)))) j
  · have start : ∀ l, residue ty (v l) = strided (fun l => residue ty (v l)) (2 * 16) 1 l := fun l => by rw [strided_one]
    have d16 := scanDist_strided (md := md) (ftz := ftz) (d := 16) (n := 1) (a := (v, 0)) int start
    have d8 := scanDist_strided (md := md) (ftz := ftz) (d := 8) (n := 2) int d16
    have d4 := scanDist_strided (md := md) (ftz := ftz) (d := 4) (n := 4) int d8
    have d2 := scanDist_strided (md := md) (ftz := ftz) (d := 2) (n := 8) int d4
    rw [← residue_total, ← strided_all _ lane]
    exact scanDist_strided (d := 1) (n := 16) int d2 j

end

theorem integerTreeSums : IntegerTreeSums := by
  intro ty md ftz v int patterns
  have fits : Fits ty v := by
    intro l
    cases has : v l with
    | none => exact Nat.two_pow_pos _
    | some p => exact patterns l p has
  exact ⟨redDists_add int fits, fun j lane => scanDists_add int fits lane⟩

/-- Settles O13: the model's levels are the distances of the tree and the scan; a distance of an integer sum keeps the sum of the lanes,
or doubles the lanes that each has summed. -/
theorem trees : Obligations.Trees := ⟨treeResults, integerTreeSums⟩

end Sys2Proof.Proofs
end
